-- ==== Sys2Proof/Word.lean ====
section
/-! DEFINITION. The words of the machine and their plainest arithmetic (spec 00_scope R4, R5). -/

namespace Sys2Proof

/-- One byte of memory. -/
abbrev Byte := BitVec 8
/-- A 32-bit instruction word part. -/
abbrev W32 := BitVec 32
/-- A scalar register, a word of a context slot, an address register. -/
abbrev Word := BitVec 64
/-- A vector register. -/
abbrev Vec := BitVec 128
/-- A whole instruction: three little-endian 32-bit words, first word lowest (R48). -/
abbrev IWord := BitVec 96
/-- A virtual address of 57 bits (R13, R48). -/
abbrev VAddr := BitVec 57

/-- A Bool as one bit. -/
def bit (b : Bool) : BitVec 1 := BitVec.ofBool b

end Sys2Proof
end

