-- ==== Sys2Proof/Config.lean ====
section
/-! DEFINITION. What one Craril X9 fixes, and the free values: results that the spec leaves open.
A free value is an opaque constant applied to plain data; nothing in Lean can evaluate it, so a
statement about it holds whatever it is (log 2). -/

namespace Sys2Proof.Config

/-- Benches of a module (R3). -/
abbrev benches : Nat := 1008
/-- Benches of a compute die (R3). -/
abbrev benchesPerDie : Nat := 112
/-- Issue units of a bench (R3). -/
abbrev iusPerBench : Nat := 256
/-- Outstanding-request entries of an IU (R172). -/
abbrev reqEntries : Nat := 48
/-- Side-log entries of an IU (R349). -/
abbrev sideEntries : Nat := 32
/-- Hold registers of an IU (R189). -/
abbrev holdRegs : Nat := 8
/-- Engine command queue entries of an IU (R214). -/
abbrev queueEntries : Nat := 4
/-- Waiters a cache die holds (R187). -/
abbrev waitersPerDie : Nat := 1048576
/-- Interval before a refused synchronising access is sent again, in IU cycles (R187). -/
abbrev retryCycles : Nat := 4096
/-- Lease of a hold in IU cycles, and its pause allowance (R191). -/
abbrev leaseCycles : Nat := 512
/-- CL2 lines of a bench (R317). -/
abbrev cl2Lines : Nat := 32768
/-- Bytes of HBM of a module: 12 stacks of 64 GiB (R3). -/
abbrev hbmBytes : Nat := 12 * 64 * 2 ^ 30
/-- D-TLB entries of an IU (R342). -/
abbrev dtlbEntries : Nat := 512
/-- I-TLB entries of an IU (R342). -/
abbrev itlbEntries : Nat := 64
/-- L2 TLB entries of a bench (R342). -/
abbrev l2tlbEntries : Nat := 16384
/-- Record cache entries of a bench (R227). -/
abbrev recordEntries : Nat := 256
/-- Walks of a volume walker in progress (R360). -/
abbrev walks : Nat := 16
/-- CLB entries of a bench (R360). -/
abbrev clbEntries : Nat := 4096
/-- Entries of a bench handle cache (R3). -/
abbrev handleEntries : Nat := 4096
/-- Directory entries of a cache die (R301). -/
abbrev directoryEntries : Nat := 4194304
/-- Lines of an instruction cache: 16 KiB of 128-byte lines (R3). -/
abbrev icacheLines : Nat := 128
/-- Sets and ways of a data L1: 32 KiB of 128-byte lines, 8-way (R292). -/
abbrev l1Sets : Nat := 32
abbrev l1Ways : Nat := 8
/-- Sets and ways of a bench L2: 32 MiB of 128-byte lines, 16-way (R292). -/
abbrev l2Sets : Nat := 16384
abbrev l2Ways : Nat := 16
/-- Sets and ways of an LLC slice: 1 GiB of 128-byte lines, 16-way (R292). -/
abbrev llcSets : Nat := 524288
abbrev llcWays : Nat := 16
/-- Router entries of the combining tree (R350). -/
abbrev routerEntries : Nat := 4096

/-- A free 64-bit value, numbered by a counter of the state (log 2). -/
opaque freeWord : Nat → BitVec 64
/-- A free choice among several, numbered by a counter of the state (log 2). -/
opaque freePick : Nat → Nat
/-- A free value read through a page whose bytes belong to a peer (log 2). -/
opaque freeVec : Nat → BitVec 128
/-- Free handle indices that a bench's reserve takes at a refill: at least one (R203, log 85). -/
opaque reserveSize : Nat → Nat
/-- The home cache die of a 64 KiB block: a hash of device address bits 51:16 (R295). -/
opaque homeHash : Nat → Nat
/-- Cycles of an IU between its reset and the model's first cycle: free, since IUs are not synchronised (R44, log 2). -/
opaque iuPhase : Nat → Nat → Nat → Nat
/-- Bytes of an SPDM answer whose contents the spec leaves to the device and to DMTF (R411). -/
opaque spdmBytes : Nat → Nat → List (BitVec 8)

/-- The cache die that homes device physical address `pa` (R295). -/
def homeDie (pa : Nat) : Nat := homeHash (pa / 65536) % 4

/-- The LLC slice of a line, by its number: the slice of the home of a device line; the same hash selects it for a host line
(R295). -/
def sliceOf (line : Nat) : Nat := homeDie (128 * line)

/-- The HBM stack of a device line: one of the three of its home's cache die (R295). -/
def stackOf (pa : Nat) : Nat := 3 * homeDie pa + homeHash (pa / 65536) / 4 % 3

/-- The I/O die, one of two, whose link reaches a host line, and which is the line's home: free (R295, log 2). -/
opaque ioDie : Nat → Bool

end Sys2Proof.Config
end

