-- ==== Sys2Proof/Operand.lean ====
section
/-! DEFINITION. The syntax of operands, types and modifiers (spec 02_encoding R49 to R70), and one
structure of fields for each family of instructions. -/

namespace Sys2Proof

/-- The fields every instruction word has (R49): guard, switch marker and hints. -/
structure Hdr where
  g : BitVec 3 := 0
  n : Bool := false
  w : Bool := false
  yp : Bool := false
  lh : Bool := false
  deriving DecidableEq, Repr

/-- An operand code (R52); reserved codes have no constructor. -/
inductive Opd where
  | s (n : BitVec 2)
  | v (n : BitVec 2)
  | p (n : BitVec 3)
  | zero | id | geo | pcv | clk
  | imm (v : BitVec 6)
  deriving DecidableEq, Repr

/-- A source that the I form replaces by a 32-bit immediate (R62). -/
inductive Src where
  | opd (o : Opd)
  | imm32 (v : BitVec 32)
  deriving DecidableEq, Repr

/-- The type suffix (R58). -/
inductive Ty where
  | b64 | b8 | b16 | b32 | b128 | i64 | i8 | i16 | i32 | n64 | n8 | n16 | n32
  | f64 | f16 | bf16 | f32 | sbf4 | sbf6 | sbf8 | sbf12
  deriving DecidableEq, Repr

/-- The vector shape (R59). -/
inductive Shape where
  | sc | x2 | x4 | x8 | x16
  deriving DecidableEq, Repr

/-- The rounding modes of `RM` (R16, R103). -/
inductive RMode where
  | rne | rtz | rdn | rup | rmm
  deriving DecidableEq, Repr

/-- The conditions of `CMP` (R60). -/
inductive Cond where
  | eq | ne | lt | ge | gt | le | any | none
  deriving DecidableEq, Repr

/-- The conditions of `FCMP` (R60). -/
inductive FCond where
  | eq | ne | lt | ge | gt | le | ord | uno
  deriving DecidableEq, Repr

/-- The operation codes of `AOP`, `EOP` and `ROP` (R68). -/
inductive AOp where
  | add | and | or | xor | min | max | swap | fadd | fmin | fmax
  deriving DecidableEq, Repr

/-- The order modifier (R65). -/
inductive Ord where
  | rlx | acq | rel | ar
  deriving DecidableEq, Repr

/-- The scope (R65, R281). -/
inductive Scope where
  | dev | bench | sys
  deriving DecidableEq, Repr

/-- The sign operation of `FSGN` (R152). -/
inductive SgnOp where
  | cp | cn | cx
  deriving DecidableEq, Repr

/-- The memory operand of class M: base, index, index shift and displacement (R65, R66). -/
structure MemOp where
  base : Opd
  idx : Opd := .zero
  sh : BitVec 3 := 0
  disp : BitVec 32 := 0
  deriving DecidableEq, Repr

/-- Two sources and a type (R125). -/
structure Alu2 where
  ty : Ty
  sh : Shape := .sc
  d : Opd
  a : Opd
  b : Src
  deriving DecidableEq, Repr

/-- One source and a type (R125). -/
structure Alu1 where
  ty : Ty
  sh : Shape := .sc
  d : Opd
  a : Opd
  deriving DecidableEq, Repr

/-- `ADDX`, `SUBX` and `SEL`: two sources and a predicate in `PX` (R131, R133). -/
structure AluX where
  ty : Ty
  sh : Shape := .sc
  px : BitVec 3
  d : Opd
  a : Opd
  b : Src
  deriving DecidableEq, Repr

/-- `SEXT` and `ZEXT` (R132). -/
structure Ext where
  ty : Ty
  sh : Shape := .sc
  nb : BitVec 7
  d : Opd
  a : Opd
  deriving DecidableEq, Repr

/-- `BFX` (R132). -/
structure Bfx where
  ty : Ty
  sh : Shape := .sc
  pos : BitVec 7
  len : BitVec 7
  d : Opd
  a : Opd
  deriving DecidableEq, Repr

/-- `BFI` (R132). -/
structure Bfi where
  ty : Ty
  sh : Shape := .sc
  pos : BitVec 7
  len : BitVec 7
  d : Opd
  a : Opd
  b : Opd
  deriving DecidableEq, Repr

/-- `MOV` (R134). -/
structure Mov where
  ty : Ty
  sh : Shape := .sc
  d : Opd
  a : Src
  deriving DecidableEq, Repr

/-- `CMP` (R136). -/
structure Cmp where
  cond : Cond
  ty : Ty
  sh : Shape := .sc
  d : Opd
  a : Opd
  b : Src
  deriving DecidableEq, Repr

/-- Floating-point instructions of two sources (R148); `rm` is the static rounding mode. -/
structure Flt2 where
  ty : Ty
  sh : Shape := .sc
  rm : Option RMode := .none
  d : Opd
  a : Opd
  b : Opd
  deriving DecidableEq, Repr

/-- `FMA`, `FNMA` and `VDOT` (R148). -/
structure Flt3 where
  ty : Ty
  sh : Shape := .sc
  rm : Option RMode := .none
  d : Opd
  a : Opd
  b : Opd
  c : Opd
  deriving DecidableEq, Repr

/-- Floating-point instructions of one source (R148). -/
structure Flt1 where
  ty : Ty
  sh : Shape := .sc
  rm : Option RMode := .none
  d : Opd
  a : Opd
  deriving DecidableEq, Repr

/-- Two sources, no rounding: `FMIN`, `FMAX`, `VEXT`, `VINS` (R148). -/
structure Vec2 where
  ty : Ty
  sh : Shape := .sc
  d : Opd
  a : Opd
  b : Opd
  deriving DecidableEq, Repr

/-- `SHUF` (R159). -/
structure Vec3 where
  ty : Ty
  sh : Shape := .sc
  d : Opd
  a : Opd
  b : Opd
  c : Opd
  deriving DecidableEq, Repr

/-- `FSGN` (R152). -/
structure Fsgn where
  op : SgnOp
  ty : Ty
  sh : Shape := .sc
  d : Opd
  a : Opd
  b : Opd
  deriving DecidableEq, Repr

/-- `FCMP` (R153). -/
structure Fcmp where
  cond : FCond
  ty : Ty
  sh : Shape := .sc
  d : Opd
  a : Opd
  b : Opd
  deriving DecidableEq, Repr

/-- `FRND` (R155). -/
structure Frnd where
  ty : Ty
  sh : Shape := .sc
  rm : Option RMode := .none
  nx : Bool := false
  d : Opd
  a : Opd
  deriving DecidableEq, Repr

/-- `FCVT`, `FCVI`, `ICVF` (R156): `dir` is true when `ty` is the source type. -/
structure Cvt where
  ty : Ty
  oty : Ty
  dir : Bool
  part : BitVec 2 := 0
  sh : Shape := .sc
  rm : Option RMode := .none
  d : Opd
  a : Opd
  deriving DecidableEq, Repr

/-- `VRED`, `VSCAN` (R161). -/
structure Vred where
  op : AOp
  ty : Ty
  sh : Shape
  rm : Option RMode := .none
  d : Opd
  a : Opd
  deriving DecidableEq, Repr

/-- `LD`, `ST` (R166). -/
structure MemAcc where
  ty : Ty
  ord : Ord := .rlx
  scp : Scope := .dev
  nt : Bool := false
  d : Opd
  mem : MemOp
  deriving DecidableEq, Repr

/-- `AMO` (R177). -/
structure Amo where
  op : AOp
  ty : Ty
  ord : Ord := .rlx
  scp : Scope := .dev
  far : Bool := false
  d : Opd
  mem : MemOp
  deriving DecidableEq, Repr

/-- `CAS`, `CAS2` (R178): a base and a displacement, the new value in B. -/
structure Cas where
  ty : Ty
  ord : Ord := .rlx
  scp : Scope := .dev
  far : Bool := false
  d : Opd
  base : Opd
  disp : BitVec 32 := 0
  b : Opd
  deriving DecidableEq, Repr

/-- A destination or data register and a memory operand: the synchronising class, `LEA` (R166). -/
structure MemD where
  d : Opd
  mem : MemOp
  deriving DecidableEq, Repr

/-- `HOLD`, `TLDE`, `TSTE`: a type, a register and a memory operand. -/
structure MemT where
  ty : Ty
  d : Opd
  mem : MemOp
  deriving DecidableEq, Repr

/-- `HST` (R192). -/
structure Hst where
  ty : Ty
  px : BitVec 3
  d : Opd
  mem : MemOp
  deriving DecidableEq, Repr

/-- `HREL`, `CFLUSH` (R193, R199). -/
structure MemO where
  ord : Ord := .rlx
  scp : Scope := .dev
  mem : MemOp
  deriving DecidableEq, Repr

/-- `ADDD` (R197). -/
structure Addd where
  op : AOp
  ty : Ty
  d : Opd
  mem : MemOp
  deriving DecidableEq, Repr

/-- The stream instructions (R229). -/
structure Strm where
  ty : Ty
  d : Opd
  a : Opd
  b : Opd
  c : Opd
  deriving DecidableEq, Repr

/-- `CLD`, `CST` (R241). -/
structure Vol where
  ty : Ty
  ord : Ord := .rlx
  scp : Scope := .dev
  d : Opd
  base : Opd
  disp : BitVec 32 := 0
  b : Opd
  deriving DecidableEq, Repr

/-- `CAMO` (R241). -/
structure Camo where
  op : AOp
  ty : Ty
  ord : Ord := .rlx
  scp : Scope := .dev
  far : Bool := false
  d : Opd
  base : Opd
  disp : BitVec 32 := 0
  b : Opd
  deriving DecidableEq, Repr

/-- A matrix command's fields (R212). -/
structure Mtx where
  ty : Ty
  np : BitVec 4 := 0
  init : Bool := false
  bank : Bool := false
  d : Opd
  a : Opd
  b : Opd
  c : Opd
  deriving DecidableEq, Repr

/-- A copy or link command's fields (R249). -/
structure Cpy where
  op : AOp
  ty : Ty
  sig : BitVec 32 := 0
  d : Opd
  a : Opd
  b : Opd
  c : Opd
  deriving DecidableEq, Repr

/-- `SPAWN` (R64, R257). -/
structure Spawn where
  d : Opd
  edisp : BitVec 32
  vcopy : BitVec 4 := 0
  scopy : BitVec 4 := 0
  rad : BitVec 6
  sbench : BitVec 10
  deriving DecidableEq, Repr

end Sys2Proof
end

