-- ==== Sys2Proof/Machine/Forms.lean ====
section
/-! DEFINITION. Codes and widths of types and shapes (R58, R59), and what each instruction accepts:
types, shapes and kinds of operands (R54, R55, R125, R126, R148, R149, R161, R167, R168, R177, R229). -/

namespace Sys2Proof.Forms

/-- `TY` codes (R58). -/
def tyCode : Ty → BitVec 5
  | .b64 => 0x00 | .b8 => 0x01 | .b16 => 0x02 | .b32 => 0x03 | .b128 => 0x04
  | .i64 => 0x05 | .i8 => 0x06 | .i16 => 0x07 | .i32 => 0x08
  | .n64 => 0x09 | .n8 => 0x0A | .n16 => 0x0B | .n32 => 0x0C
  | .f64 => 0x0D | .f16 => 0x0E | .bf16 => 0x0F | .f32 => 0x10
  | .sbf4 => 0x11 | .sbf6 => 0x12 | .sbf8 => 0x13 | .sbf12 => 0x14

/-- The types in the order of their codes (R58). -/
def allTys : List Ty :=
  [.b64, .b8, .b16, .b32, .b128, .i64, .i8, .i16, .i32, .n64, .n8, .n16, .n32,
   .f64, .f16, .bf16, .f32, .sbf4, .sbf6, .sbf8, .sbf12]

/-- The type a code stands for; none for the reserved codes (R58). -/
def tyOf (c : BitVec 5) : Option Ty := allTys[c.toNat]?

/-- Element width in bits; an SBF type is read as `.b64` (R67, R168). -/
def width : Ty → Nat
  | .b8 | .i8 | .n8 => 8
  | .b16 | .i16 | .n16 | .f16 | .bf16 => 16
  | .b32 | .i32 | .n32 | .f32 => 32
  | .b64 | .i64 | .n64 | .f64 => 64
  | .b128 => 128
  | .sbf4 | .sbf6 | .sbf8 | .sbf12 => 64

/-- Bytes of an access (R67). -/
def bytes (t : Ty) : Nat := width t / 8

/-- Whether the type is signed (R98). -/
def signed : Ty → Bool
  | .i8 | .i16 | .i32 | .i64 => true
  | _ => false

def isFloat : Ty → Bool
  | .f16 | .bf16 | .f32 | .f64 => true
  | _ => false

def isSbf : Ty → Bool
  | .sbf4 | .sbf6 | .sbf8 | .sbf12 => true
  | _ => false

/-- Raw types of 8 to 64 bits. -/
def isRaw64 : Ty → Bool
  | .b8 | .b16 | .b32 | .b64 => true
  | _ => false

def isRaw : Ty → Bool := fun t => isRaw64 t || t == .b128

def isSigned : Ty → Bool := signed

def isUnsigned : Ty → Bool
  | .n8 | .n16 | .n32 | .n64 => true
  | _ => false

def isInt (t : Ty) : Bool := isSigned t || isUnsigned t

/-- `.b8` to `.b64`, `.i`, `.n` (R126). -/
def arith64 (t : Ty) : Bool := isRaw64 t || isInt t

/-- `.b8` to `.b128`, `.i`, `.n` (R126). -/
def arith128 (t : Ty) : Bool := isRaw t || isInt t

def isB128 (t : Ty) : Bool := t == .b128

/-- `ADDX`, `SUBX` (R126). -/
def carryTy : Ty → Bool
  | .b32 | .b64 | .n32 | .n64 => true
  | _ => false

def swapTy : Ty → Bool
  | .b16 | .b32 | .b64 => true
  | _ => false

/-- `VEXT` (R160). -/
def vextTy (t : Ty) : Bool := isRaw64 t || isSigned t

/-- Types `VDOT` reads (R162). -/
def vdotTy : Ty → Bool
  | .i8 | .n8 | .bf16 | .f16 => true
  | _ => false

/-- Types that `LD` and `ST` accept: every one (R168). -/
def ldTy : Ty → Bool := fun _ => true

/-- Types that `HOLD` and `HST` accept (R168). -/
def holdTy (t : Ty) : Bool := arith128 t

def casTy : Ty → Bool
  | .b32 | .b64 | .i32 | .i64 | .n32 | .n64 => true
  | _ => false

/-- The operations with the types `AMO` and `CAMO` accept (R177). -/
def amoOk (op : AOp) (t : Ty) : Bool :=
  match op, t with
  | .add, .b32 | .add, .b64 | .add, .i32 | .add, .i64 | .add, .n32 | .add, .n64 => true
  | .and, .b32 | .and, .b64 | .or, .b32 | .or, .b64 | .xor, .b32 | .xor, .b64 => true
  | .swap, .b32 | .swap, .b64 => true
  | .min, .i32 | .min, .i64 | .min, .n32 | .min, .n64 => true
  | .max, .i32 | .max, .i64 | .max, .n32 | .max, .n64 => true
  | .fadd, .f32 | .fadd, .f64 | .fmin, .f32 | .fmin, .f64 | .fmax, .f32 | .fmax, .f64 => true
  | _, _ => false

/-- `CRED`, `XRED`: those of R177 and the short floats (R249). -/
def redOk (op : AOp) (t : Ty) : Bool :=
  amoOk op t ||
  match op, t with
  | .fadd, .f16 | .fadd, .bf16 | .fmin, .f16 | .fmin, .bf16 | .fmax, .f16 | .fmax, .bf16 => true
  | _, _ => false

/-- `ADDD` (R197). -/
def adddOk (op : AOp) (t : Ty) : Bool :=
  match op, t with
  | .add, .b64 | .add, .i64 | .add, .n64 | .fadd, .f32 | .fadd, .f64 => true
  | _, _ => false

/-- `VRED`, `VSCAN` (R161). -/
def ropOk (op : AOp) (t : Ty) : Bool :=
  match op with
  | .add => arith64 t
  | .and | .or | .xor => isRaw64 t
  | .min | .max => isInt t
  | .swap => false
  | .fadd | .fmin | .fmax => isFloat t

def allOps : List AOp := [.add, .and, .or, .xor, .min, .max, .swap, .fadd, .fmin, .fmax]

/-- A type that some operation of the instruction accepts (R76: a type alone). -/
def someOp (ok : AOp → Ty → Bool) (t : Ty) : Bool := allOps.any fun o => ok o t

/-- Stream types (R229). -/
def setTy : Ty → Bool
  | .n32 | .n64 => true
  | _ => false

def scatTy : Ty → Bool
  | .i32 | .i64 | .n32 | .n64 | .f32 | .f64 => true
  | _ => false

/-- Source or destination integer types of `FCVI`, `ICVF` (R156). -/
def cvtInt : Ty → Bool
  | .i16 | .i32 | .i64 | .n16 | .n32 | .n64 => true
  | _ => false

/-- `MACC` destination types (R212). -/
def maccTy : Ty → Bool
  | .f32 | .bf16 | .f16 => true
  | _ => false

/-- Mantissa width of an SBF format (R108). -/
def sbfM : Ty → Nat
  | .sbf4 => 2 | .sbf6 => 4 | .sbf8 => 6 | .sbf12 => 10
  | _ => 0

/-- `SH` codes (R59). -/
def shCode : Shape → BitVec 3
  | .sc => 0 | .x2 => 1 | .x4 => 2 | .x8 => 3 | .x16 => 4

def shOf (c : BitVec 3) : Option Shape := [Shape.sc, .x2, .x4, .x8, .x16][c.toNat]?

/-- Lanes of a shape (R59). -/
def lanes : Shape → Nat
  | .sc => 1 | .x2 => 2 | .x4 => 4 | .x8 => 8 | .x16 => 16

def shaped (s : Shape) : Bool := s != .sc

/-- A shape whose lanes fill a vector with elements of the type, or none (R59). -/
def shapeOk (t : Ty) (s : Shape) : Bool := s == .sc || lanes s * width t == 128

/-- The same for the lane instructions, which need a shape (R158). -/
def shapeNeed (t : Ty) (s : Shape) : Bool := s != .sc && lanes s * width t == 128

/-- `AOP` codes (R68). -/
def opCode : AOp → BitVec 4
  | .add => 0 | .and => 1 | .or => 2 | .xor => 3 | .min => 4 | .max => 5
  | .swap => 6 | .fadd => 7 | .fmin => 8 | .fmax => 9

def opOf (c : BitVec 4) : Option AOp := allOps[c.toNat]?

def rmCode : Option RMode → BitVec 3
  | none => 0 | some .rne => 1 | some .rtz => 2 | some .rdn => 3 | some .rup => 4 | some .rmm => 5

/-- The static rounding mode of `F3`; the outer none for the reserved values 6 and 7 (R60). -/
def rmOf (c : BitVec 3) : Option (Option RMode) :=
  [none, some .rne, some .rtz, some .rdn, some .rup, some .rmm][c.toNat]?

def condCode : Cond → BitVec 3
  | .eq => 0 | .ne => 1 | .lt => 2 | .ge => 3 | .gt => 4 | .le => 5 | .any => 6 | .none => 7

def condOf (c : BitVec 3) : Cond :=
  match c.toNat with
  | 0 => .eq | 1 => .ne | 2 => .lt | 3 => .ge | 4 => .gt | 5 => .le | 6 => .any | _ => .none

def fcondCode : FCond → BitVec 3
  | .eq => 0 | .ne => 1 | .lt => 2 | .ge => 3 | .gt => 4 | .le => 5 | .ord => 6 | .uno => 7

def fcondOf (c : BitVec 3) : FCond :=
  match c.toNat with
  | 0 => .eq | 1 => .ne | 2 => .lt | 3 => .ge | 4 => .gt | 5 => .le | 6 => .ord | _ => .uno

def ordCode : Ord → BitVec 2
  | .rlx => 0 | .acq => 1 | .rel => 2 | .ar => 3

def ordOf (c : BitVec 2) : Ord :=
  match c.toNat with
  | 0 => .rlx | 1 => .acq | 2 => .rel | _ => .ar

def scpCode : Scope → BitVec 2
  | .dev => 0 | .bench => 1 | .sys => 2

def scpOf (c : BitVec 2) : Option Scope := [Scope.dev, .bench, .sys][c.toNat]?

def sgnCode : SgnOp → BitVec 2
  | .cp => 0 | .cn => 1 | .cx => 2

def sgnOf (c : BitVec 2) : Option SgnOp := [SgnOp.cp, .cn, .cx][c.toNat]?

/-- Whether the order modifier is one the instruction accepts (R166). -/
def ordLd : Ord → Bool
  | .rel => false
  | _ => true

def ordSt : Ord → Bool
  | .rlx | .rel => true
  | _ => false

def ordFence (o : Ord) : Bool := o != .rlx

/-- A relaxed form takes no scope (R65). -/
def scpOk (o : Ord) (s : Scope) : Bool := o != .rlx || s == .dev

/-- Operand codes (R52). -/
def opdCode : Opd → BitVec 7
  | .s n => (0 : BitVec 5) ++ n
  | .v n => (1 : BitVec 5) ++ n
  | .p n => (1 : BitVec 4) ++ n
  | .zero => 0x10 | .id => 0x11 | .geo => 0x12 | .pcv => 0x13 | .clk => 0x14
  | .imm v => (1 : BitVec 1) ++ v

/-- The operand of a code; none for the reserved codes (R52). -/
def opdOf (c : BitVec 7) : Option Opd :=
  if c < 4 then some (.s (c.setWidth 2))
  else if c < 8 then some (.v (c.setWidth 2))
  else if c < 16 then some (.p (c.setWidth 3))
  else if c = 0x10 then some .zero
  else if c = 0x11 then some .id
  else if c = 0x12 then some .geo
  else if c = 0x13 then some .pcv
  else if c = 0x14 then some .clk
  else if c < 0x40 then none
  else some (.imm (c.setWidth 6))

/-- The kinds of R54, R125, R149, R167, R229, R241: what a field accepts. -/
inductive Role where
  | sSrc | sSrc2 | vSrc | sDst | sDst2 | vDst | pSrc | pDst | aReg | sReg | sRegDst
  | mDst | mDst2 | mDat | mDat2 | mNew | mNew2 | list | zeroOnly
  deriving DecidableEq, Repr

/-- An inline immediate (R52). -/
def isImm : Opd → Bool
  | .imm _ => true
  | _ => false

/-- Fields that are destinations (R54). -/
def isDst : Role → Bool
  | .sDst | .sDst2 | .vDst | .pDst | .sRegDst | .mDst | .mDst2 => true
  | _ => false

/-- Fields whose scalars are pairs (R55). -/
def isPair : Role → Bool
  | .sSrc2 | .sDst2 | .mDst2 | .mDat2 | .mNew2 => true
  | _ => false

/-- Whether the field accepts the operand (R54, R55). -/
def accepts (r : Role) (o : Opd) : Bool :=
  match r, o with
  | .sSrc, .s _ | .sSrc, .zero | .sSrc, .id | .sSrc, .geo | .sSrc, .pcv | .sSrc, .clk
  | .sSrc, .imm _ => true
  | .sSrc2, .s n => n == 0 || n == 2
  | .sSrc2, .zero | .sSrc2, .imm _ => true
  | .vSrc, .v _ | .vSrc, .zero | .vSrc, .imm _ => true
  | .sDst, .s _ | .sDst, .zero => true
  | .sDst2, .s n => n == 0 || n == 2
  | .sDst2, .zero => true
  | .vDst, .v _ | .vDst, .zero => true
  | .pSrc, .p _ | .pDst, .p _ => true
  | .aReg, .s _ | .aReg, .zero => true
  | .sReg, .s _ | .sRegDst, .s _ => true
  | .mDst, .s _ | .mDst, .zero => true
  | .mDst2, .s n => n == 0 || n == 2
  | .mDst2, .v _ | .mDst2, .zero => true
  | .mDat, .s _ | .mDat, .zero | .mDat, .id | .mDat, .geo | .mDat, .pcv | .mDat, .clk => true
  | .mDat2, .s n => n == 0 || n == 2
  | .mDat2, .v _ | .mDat2, .zero => true
  | .mNew, .s _ | .mNew, .zero => true
  | .mNew2, .s n => n == 0 || n == 2
  | .mNew2, .v _ | .mNew2, .zero => true
  | .list, .v _ | .list, .zero => true
  | .zeroOnly, .zero => true
  | _, _ => false

/-- The reason of R77 for which field D (`isD`) or another field refuses an operand. -/
def refuse (r : Role) (isD : Bool) (o : Opd) : Option (BitVec 8) :=
  match o with
  | .imm _ => if isD then some 0x02 else if accepts r o then none else some 0x06
  | .id | .geo | .pcv | .clk =>
    if isDst r then some 0x03 else if accepts r o then none else some 0x06
  | .s n =>
    if isPair r && n == 3 then some 0x05 else if isPair r && n == 1 then some 0x04
    else if accepts r o then none else some 0x06
  | _ => if accepts r o then none else some 0x06

/-- Kinds of an integer source or destination (R125). -/
def aluSrc (t : Ty) (s : Shape) : Role :=
  if shaped s then .vSrc else if t == .b128 then .sSrc2 else .sSrc

def aluDst (t : Ty) (s : Shape) : Role :=
  if shaped s then .vDst else if t == .b128 then .sDst2 else .sDst

/-- Kinds of a floating-point source or destination (R149). -/
def fSrc (s : Shape) : Role := if shaped s then .vSrc else .sSrc

def fDst (s : Shape) : Role := if shaped s then .vDst else .sDst

/-- The destination of a comparison (R136, R153). -/
def cmpDst (s : Shape) : Role := if shaped s then .vDst else .pDst

/-- Kinds of a memory access (R167). -/
def memDst (t : Ty) : Role := if t == .b128 then .mDst2 else .mDst

def memDat (t : Ty) : Role := if t == .b128 then .mDat2 else .mDat

def memNew (t : Ty) : Role := if t == .b128 then .mNew2 else .mNew

/-- The CSR numbers that exist (R43). -/
def csrNums : List Nat :=
  [0x001, 0x002, 0x003, 0x010, 0x011, 0x012, 0x013, 0x020,
   0x100, 0x101, 0x102, 0x103, 0x104, 0x105, 0x106, 0x107, 0x108, 0x180] ++
  (List.range 16).map (0x200 + ·)

/-- A bench hint in range (R64). -/
def sbenchOk (b : BitVec 10) : Bool := b == 0x3FF || b.toNat < Config.benches

/-- The element formats of a tile (R200, R204). -/
def fmtOk (f : BitVec 6) : Bool := f.toNat ≤ 0x14 || f == 0x20

end Sys2Proof.Forms
end

