-- ==== Sys2Proof/Syntax.lean ====
section
/-! DEFINITION. Syntax: one constructor for each row of the opcode table. The rows of instructions
carry their header and operands; the rows of events carry the data that name the instance of the event
and what the outside world brings with it (spec 95_what_each_step_holds). -/

namespace Sys2Proof

/-- A thread: its address space and its context id (R10, R11). -/
structure Key where
  asid : BitVec 16
  ctx : BitVec 32
  deriving DecidableEq, Repr

/-- What a peer answers to a link command (R255): everything performed, or refused at an element. -/
inductive PeerAnswer where
  | performed
  | refusedAt (n : Nat)
  deriving DecidableEq, Repr

/-- Registers that are written through no row of their own (R6): IUDBG of an IU, SETCTL of a set,
and registers whose every field is read-only or hardware-written. -/
inductive RegName where
  | iudbg (b u : Nat)
  | setctl (n : BitVec 6)
  | perf (b u : Nat) (i : BitVec 4)
  | cycle (b u : Nat)
  | atomicRequester
  | reserved (first frames : Nat)
  deriving DecidableEq, Repr

/-- The SnpType of a host MemRd (R308). -/
inductive SnpType where
  | noOp | data | inv
  deriving DecidableEq, Repr

/-- The PCIe AtomicOps the X9 completes (R312). -/
inductive PcieOp where
  | fetchAdd | swap | cas
  deriving DecidableEq, Repr

/-- What a peer asks of an inbound window (R314). -/
inductive LinkKind where
  | read | write | reduce (op : AOp) (ty : Ty) | signal
  deriving DecidableEq, Repr

/-- One access of a peer to an inbound window (R314). -/
structure LinkAccess where
  peer : BitVec 16
  win : Nat
  off : Nat
  kind : LinkKind
  len : Nat
  data : List Byte
  deriving DecidableEq, Repr

/-- Where a cache way lies (R316). -/
inductive CacheLevel where
  | l1 (b u : Nat)
  | l2 (b : Nat)
  | llc (die : Nat)
  deriving DecidableEq, Repr

/-- The fields a driver gives a new queue (R378). -/
structure QueueNew where
  asid : BitVec 16
  rbase : BitVec 57
  rsize : BitVec 8
  qprio : BitVec 4
  tmo : BitVec 32
  deriving DecidableEq, Repr

/-- The power modes (R404). -/
inductive PowerMode where
  | full | balanced | memory
  deriving DecidableEq, Repr

/-- Management messages over MCTP (R410). -/
inductive MctpMsg where
  | temperatures | draw | mode | clock | errors | setMode (m : PowerMode)
  deriving DecidableEq, Repr

/-- The fields firmware gives a service thread (R20). -/
structure ServiceNew where
  bench : Nat
  pc : VAddr
  prio : BitVec 4
  s0 : Word
  s1 : Word
  s2 : Word
  s3 : Word
  deriving DecidableEq, Repr

/-- The fields firmware gives a new address space (R34, R335) and the page-table words it writes. -/
structure SpaceNew where
  asid : BitVec 16
  ptroot : BitVec 40
  ctxbase : BitVec 17
  tvec : BitVec 55
  htbase : BitVec 45
  htsize : BitVec 24
  tback : BitVec 16
  esave : BitVec 45
  limit : BitVec 33
  maps : List (Nat × Word)
  deriving DecidableEq, Repr

/-- The instructions and events of the opcode table. -/
inductive Instr where
  -- group 000: integer
  | add (h : Hdr) (x : Alu2)
  | sub (h : Hdr) (x : Alu2)
  | addx (h : Hdr) (x : AluX)
  | subx (h : Hdr) (x : AluX)
  | mul (h : Hdr) (x : Alu2)
  | mulh (h : Hdr) (x : Alu2)
  | div (h : Hdr) (x : Alu2)
  | rem (h : Hdr) (x : Alu2)
  | and (h : Hdr) (x : Alu2)
  | or (h : Hdr) (x : Alu2)
  | xor (h : Hdr) (x : Alu2)
  | andn (h : Hdr) (x : Alu2)
  | orn (h : Hdr) (x : Alu2)
  | shl (h : Hdr) (x : Alu2)
  | shr (h : Hdr) (x : Alu2)
  | sar (h : Hdr) (x : Alu2)
  | rol (h : Hdr) (x : Alu2)
  | ror (h : Hdr) (x : Alu2)
  | clz (h : Hdr) (x : Alu1)
  | ctz (h : Hdr) (x : Alu1)
  | popc (h : Hdr) (x : Alu1)
  | brev (h : Hdr) (x : Alu1)
  | bswap (h : Hdr) (x : Alu1)
  | min (h : Hdr) (x : Alu2)
  | max (h : Hdr) (x : Alu2)
  | abs (h : Hdr) (x : Alu1)
  | sext (h : Hdr) (x : Ext)
  | zext (h : Hdr) (x : Ext)
  | bfx (h : Hdr) (x : Bfx)
  | bfi (h : Hdr) (x : Bfi)
  | sel (h : Hdr) (x : AluX)
  | mov (h : Hdr) (x : Mov)
  | li (h : Hdr) (d : Opd) (imm : BitVec 56)
  | lea (h : Hdr) (x : MemD)
  | cmp (h : Hdr) (x : Cmp)
  -- group 001: predicates and control
  | plog (h : Hdr) (d a b c : BitVec 3) (tt : BitVec 8)
  | pmovGet (h : Hdr) (d : Opd)
  | pmovSet (h : Hdr) (a : Opd) (pm : BitVec 7)
  | br (h : Hdr) (disp : BitVec 32)
  | jmp (h : Hdr) (a : Opd)
  | call (h : Hdr) (disp : BitVec 32)
  | callr (h : Hdr) (a : Opd)
  | ret (h : Hdr)
  | dbnz (h : Hdr) (d : Opd) (disp : BitVec 32)
  | nop (h : Hdr)
  -- group 010: floating point and short vectors
  | fadd (h : Hdr) (x : Flt2)
  | fsub (h : Hdr) (x : Flt2)
  | fmul (h : Hdr) (x : Flt2)
  | fma (h : Hdr) (x : Flt3)
  | fnma (h : Hdr) (x : Flt3)
  | fdiv (h : Hdr) (x : Flt2)
  | fsqrt (h : Hdr) (x : Flt1)
  | fmin (h : Hdr) (x : Vec2)
  | fmax (h : Hdr) (x : Vec2)
  | fsgn (h : Hdr) (x : Fsgn)
  | fcmp (h : Hdr) (x : Fcmp)
  | fclass (h : Hdr) (x : Alu1)
  | fcvt (h : Hdr) (x : Cvt)
  | fcvi (h : Hdr) (x : Cvt)
  | icvf (h : Hdr) (x : Cvt)
  | frnd (h : Hdr) (x : Frnd)
  | shuf (h : Hdr) (x : Vec3)
  | vext (h : Hdr) (x : Vec2)
  | vins (h : Hdr) (x : Vec2)
  | vbc (h : Hdr) (x : Alu1)
  | vred (h : Hdr) (x : Vred)
  | vdot (h : Hdr) (x : Flt3)
  | vmskGet (h : Hdr) (x : Alu1)
  | vmskSet (h : Hdr) (x : Alu1)
  | vmskAny (h : Hdr) (x : Alu1)
  | vmskAll (h : Hdr) (x : Alu1)
  | vscan (h : Hdr) (x : Vred)
  -- group 011: memory
  | ld (h : Hdr) (x : MemAcc)
  | st (h : Hdr) (x : MemAcc)
  | amo (h : Hdr) (x : Amo)
  | cas (h : Hdr) (x : Cas)
  | cas2 (h : Hdr) (x : Cas)
  | fence (h : Hdr) (ord : Ord) (scp : Scope)
  | lde (h : Hdr) (x : MemD)
  | ldc (h : Hdr) (x : MemD)
  | stf (h : Hdr) (x : MemD)
  | sts (h : Hdr) (x : MemD)
  | sfe (h : Hdr) (mem : MemOp)
  | qfe (h : Hdr) (x : MemD)
  | hold (h : Hdr) (x : MemT)
  | hst (h : Hdr) (x : Hst)
  | hrel (h : Hdr) (x : MemO)
  | addd (h : Hdr) (x : Addd)
  | cflush (h : Hdr) (x : MemO)
  -- group 100: tiles and matrix engines
  | talloc (h : Hdr) (fmt : BitVec 6) (d a : Opd)
  | tfree (h : Hdr) (a : Opd)
  | tpin (h : Hdr) (px : BitVec 3) (a : Opd) (mask : BitVec 8)
  | tunpin (h : Hdr) (a : Opd) (mask : BitVec 8)
  | tlde (h : Hdr) (x : MemT)
  | tste (h : Hdr) (x : MemT)
  | tinfo (h : Hdr) (n : BitVec 2) (d a : Opd)
  | mldw (h : Hdr) (x : Mtx)
  | mma (h : Hdr) (x : Mtx)
  | macc (h : Hdr) (rm : Option RMode) (x : Mtx)
  | mcvt (h : Hdr) (x : Mtx)
  | mqry (h : Hdr) (sel : BitVec 3) (d : Opd)
  -- group 101: streams, volumes, copies
  | sint (h : Hdr) (x : Strm)
  | sintc (h : Hdr) (x : Strm)
  | smrg (h : Hdr) (x : Strm)
  | sdiff (h : Hdr) (x : Strm)
  | sgath (h : Hdr) (x : Strm)
  | sscat (h : Hdr) (x : Strm)
  | scmp (h : Hdr) (nz : Bool) (x : Strm)
  | cld (h : Hdr) (x : Vol)
  | cst (h : Hdr) (x : Vol)
  | camo (h : Hdr) (x : Camo)
  | cprb (h : Hdr) (d base : Opd) (disp : BitVec 32) (b : Opd)
  | clbinv (h : Hdr) (scp : Scope) (d base : Opd) (disp : BitVec 32) (b : Opd)
  | qpop (h : Hdr) (d base : Opd) (disp : BitVec 32)
  | qpsh (h : Hdr) (d base : Opd) (disp : BitVec 32)
  | cpy (h : Hdr) (x : Cpy)
  | cred (h : Hdr) (x : Cpy)
  | xcpy (h : Hdr) (x : Cpy)
  | xred (h : Hdr) (x : Cpy)
  | rfence (h : Hdr) (scp : Scope) (base : Opd) (disp : BitVec 32)
  -- group 110: threads and system
  | spawn (h : Hdr) (x : Spawn)
  | exit (h : Hdr)
  | yield (h : Hdr)
  | bar (h : Hdr) (d a : Opd) (idx : BitVec 32)
  | whereIu (h : Hdr) (d : Opd)
  | move (h : Hdr) (rad : BitVec 6) (sbench : BitVec 10)
  | sys (h : Hdr) (a : Opd) (code : BitVec 24)
  | trap (h : Hdr) (a : Opd) (code : BitVec 24)
  | brk (h : Hdr) (code : BitVec 24)
  | eret (h : Hdr)
  | csrr (h : Hdr) (d : Opd) (csr : BitVec 12)
  | csrw (h : Hdr) (a : Opd) (csr : BitVec 12)
  | ctxr (h : Hdr) (d a : Opd) (word : BitVec 5)
  | ctxw (h : Hdr) (a b : Opd) (word : BitVec 5)
  -- events: issue and results (95_what_each_step_holds)
  | instructionFetch (b u : Nat)
  | instructionReissue (k : Key)
  | deliverResult (r : Nat)
  | storePerform (r : Nat)
  | faultMessage (b : Nat) (asid : BitVec 16) (page : Nat)
  | wake (asid : BitVec 16) (page : Nat) (status : BitVec 5) (maps : List (Nat × Word))
  | retryRecordReplay (k : Key) (i : BitVec 2)
  | sideLogReplay (r : Nat)
  | trapEntry (k : Key)
  | holdGrant (r : Nat)
  | holdExpiry (b u slot : Nat)
  | syncAccessArrival (r : Nat)
  | syncRetryResend (r : Nat)
  | barStep (r : Nat)
  | directoryRegionMerge (base size : Nat)
  -- events: engines and tiles
  | mldwExecute (c : Nat)
  | mmaExecute (c : Nat)
  | maccExecute (c : Nat)
  | mcvtExecute (c : Nat)
  | cpyExecute (c : Nat)
  | credExecute (c : Nat)
  | xcpyExecute (c : Nat) (ans : PeerAnswer)
  | xredExecute (c : Nat) (ans : PeerAnswer)
  | streamExecute (r n : Nat)
  | engineRestPoint (b g : Nat)
  | engineIdleGate (b g : Nat)
  | tileFrameRefill (asid : BitVec 16) (idx frame : Nat)
  | tileFrameWriteback (asid : BitVec 16) (idx frame : Nat)
  | scratchpadBankWake (b u bank : Nat)
  -- events: context lines
  | linePull (b u : Nat)
  | lineTransferArrival (k : Key)
  | readyListAgeing (k : Key)
  | readyListSwap (b : Nat)
  | firmwareRebalance (k : Key) (b : Nat)
  | addressSpaceSuspend (asid : BitVec 16)
  | addressSpaceResume (asid : BitVec 16)
  | tlbShootdown (asid : BitVec 16) (lo hi : Nat) (maps : List (Nat × Word))
  | asidRetireDiscard (asid : BitVec 16)
  | iucfgWrite (b u : Nat) (v : Word)
  | registerWrite (r : RegName) (v : Word)
  -- events: caches, host and links
  | snpInv (line : Nat)
  | snpData (line : Nat)
  | snpCur (line : Nat)
  | memRd (pa : Nat) (snp : SnpType)
  | memRdData (pa : Nat)
  | memInv (pa : Nat)
  | memInvNt (pa : Nat)
  | memWr (pa : Nat) (data : BitVec 512)
  | memWrPtl (pa : Nat) (data : BitVec 512) (mask : BitVec 64)
  | memSpecRd (pa : Nat)
  | birspS (line : Nat) (data : Option (BitVec 1024))
  | birspI (line : Nat) (data : Option (BitVec 1024))
  | biconflict (line : Nat)
  | inboundAtomicop (op : PcieOp) (n pa : Nat) (v cmp : Vec)
  | atomicopCompletion (r : Nat) (ok : Bool) (old : Vec)
  | inboundLinkAccess (x : LinkAccess)
  | linkRefusal (r : Nat)
  | linkPortDrop (port : Nat)
  | linkDownTimeout (c : Nat)
  | llcContextPartitionResize (steps : Nat)
  | cacheWayGate (lvl : CacheLevel) (way : Nat) (off : Bool)
  -- events: queues and firmware
  | doorbellKick (fn off width : Nat) (v : Vec)
  | qslotsWrite (fn v : Nat)
  | queueCreate (fn qid : Nat) (x : QueueNew)
  | queueDestroy (fn qid : Nat)
  | queueSlotEvaluate (fn : Nat)
  | launch (fn qid : Nat)
  | launchCrewPlace (die fn qid : Nat)
  | launchComplete (slot : Nat)
  | copy (fn qid : Nat)
  | wait (fn qid : Nat)
  | waitReread (fn qid : Nat)
  | signal (fn qid : Nat)
  | barrier (fn qid : Nat)
  | dependenceResolve (fn qid : Nat)
  | queueFreeze (fn qid : Nat)
  | queueHangTimeout (fn qid : Nat)
  | threadCancel (k : Key)
  | timeSliceExpiry (fn : Nat)
  | setHaltRequest (set : BitVec 6)
  | setRelease (set : BitVec 6)
  -- events: package
  | powerModeChange (m : PowerMode)
  | clockStepDown
  | clockStepUp
  | thermalThrottle
  | thermalTrip
  | computeDieReset (d : Nat)
  | moduleFatal (cause : Nat)
  | powerOnReset
  | patrolScrub
  | linkFlitReplay (socket : Nat)
  | recoveryImageLoad (ok : Bool)
  | mctpManagementMessage (m : MctpMsg)
  -- events: firmware
  | firmwareContextWrite (k : Key) (word : BitVec 5) (v : Word)
  | firmwareServiceThreadCreate (asid : BitVec 16) (x : ServiceNew)
  | addressSpaceCreate (x : SpaceNew)
  | scratchpadBankPowerDown (b u bank : Nat)
  | computeDieResetComplete (d : Nat)
  | linkPortUp (port : Nat)
  | hostMemoryCompletion (r : Nat) (line : Option (BitVec 1024))
  | peerAcknowledgement (r : Nat) (v : BitVec 1024)
  | inboundWindowTableWrite (n : Nat) (w0 w1 w2 : Word)
  | configurationRequest
  | exclusiveModeSelect (on : Bool) (sliceMs : Nat)
  -- events: the SPDM responder
  | getVersion
  | getCapabilities
  | negotiateAlgorithms (p384 sha384 : Bool)
  | getDigests
  | getCertificate (slot : Nat)
  | challenge (slot : Nat)
  | getMeasurements (idx : Nat)
  | keyExchange
  | finish
  | endSession
  deriving DecidableEq, Repr

end Sys2Proof
end

