-- ==== Sys2Proof/WellFormed.lean ====
section
/-! DEFINITION. Which instructions are well formed: types, shapes, field values and operand kinds that the
decoder accepts (R75 steps 6 and 7). A row of an event has no encoding and is not well formed. -/

namespace Sys2Proof.WellFormed
open Sys2Proof.Forms

/-- A source that may be the 32-bit immediate (R62). -/
def srcOk (r : Role) : Src → Bool
  | .opd o => accepts r o
  | .imm32 _ => true

def alu2 (tyOk : Ty → Bool) (x : Alu2) : Bool :=
  tyOk x.ty && shapeOk x.ty x.sh && accepts (aluDst x.ty x.sh) x.d && accepts (aluSrc x.ty x.sh) x.a &&
    srcOk (aluSrc x.ty x.sh) x.b

def alu1 (tyOk : Ty → Bool) (x : Alu1) : Bool :=
  tyOk x.ty && shapeOk x.ty x.sh && accepts (aluDst x.ty x.sh) x.d && accepts (aluSrc x.ty x.sh) x.a

/-- `ADDX`, `SUBX` take no shape; `SEL` does (R126). -/
def aluX (tyOk : Ty → Bool) (mayShape : Bool) (x : AluX) : Bool :=
  tyOk x.ty && shapeOk x.ty x.sh && (mayShape || x.sh == .sc) && accepts (aluDst x.ty x.sh) x.d &&
    accepts (aluSrc x.ty x.sh) x.a && srcOk (aluSrc x.ty x.sh) x.b

def nbOk (t : Ty) (nb : BitVec 7) : Bool := 1 ≤ nb.toNat && nb.toNat ≤ width t

def posLenOk (t : Ty) (pos len : BitVec 7) : Bool :=
  1 ≤ len.toNat && len.toNat ≤ width t && pos.toNat < width t && pos.toNat + len.toNat ≤ width t

def ext (x : Ext) : Bool :=
  isRaw64 x.ty && shapeOk x.ty x.sh && accepts (aluDst x.ty x.sh) x.d &&
    accepts (aluSrc x.ty x.sh) x.a && nbOk x.ty x.nb

def bfx (x : Bfx) : Bool :=
  isInt x.ty && shapeOk x.ty x.sh && accepts (aluDst x.ty x.sh) x.d &&
    accepts (aluSrc x.ty x.sh) x.a && posLenOk x.ty x.pos x.len

def bfi (x : Bfi) : Bool :=
  isRaw64 x.ty && shapeOk x.ty x.sh && accepts (aluDst x.ty x.sh) x.d &&
    accepts (aluSrc x.ty x.sh) x.a && accepts (aluSrc x.ty x.sh) x.b && posLenOk x.ty x.pos x.len

def mov (x : Mov) : Bool :=
  isRaw x.ty && shapeOk x.ty x.sh && accepts (aluDst x.ty x.sh) x.d && srcOk (aluSrc x.ty x.sh) x.a

def cmp (x : Cmp) : Bool :=
  arith64 x.ty && shapeOk x.ty x.sh && accepts (cmpDst x.sh) x.d && accepts (aluSrc x.ty x.sh) x.a &&
    srcOk (aluSrc x.ty x.sh) x.b

def flt2 (x : Flt2) : Bool :=
  isFloat x.ty && shapeOk x.ty x.sh && accepts (fDst x.sh) x.d && accepts (fSrc x.sh) x.a &&
    accepts (fSrc x.sh) x.b

def flt3 (x : Flt3) : Bool :=
  isFloat x.ty && shapeOk x.ty x.sh && accepts (fDst x.sh) x.d && accepts (fSrc x.sh) x.a &&
    accepts (fSrc x.sh) x.b && accepts (fSrc x.sh) x.c

def flt1 (x : Flt1) : Bool :=
  isFloat x.ty && shapeOk x.ty x.sh && accepts (fDst x.sh) x.d && accepts (fSrc x.sh) x.a

def fmin (x : Vec2) : Bool :=
  isFloat x.ty && shapeOk x.ty x.sh && accepts (fDst x.sh) x.d && accepts (fSrc x.sh) x.a &&
    accepts (fSrc x.sh) x.b

def fsgn (x : Fsgn) : Bool :=
  isFloat x.ty && shapeOk x.ty x.sh && accepts (fDst x.sh) x.d && accepts (fSrc x.sh) x.a &&
    accepts (fSrc x.sh) x.b

def fcmp (x : Fcmp) : Bool :=
  isFloat x.ty && shapeOk x.ty x.sh && accepts (cmpDst x.sh) x.d && accepts (fSrc x.sh) x.a &&
    accepts (fSrc x.sh) x.b

def fclass (x : Alu1) : Bool :=
  isFloat x.ty && shapeOk x.ty x.sh && accepts (fDst x.sh) x.d && accepts (fSrc x.sh) x.a

def frnd (x : Frnd) : Bool :=
  isFloat x.ty && shapeOk x.ty x.sh && accepts (fDst x.sh) x.d && accepts (fSrc x.sh) x.a

/-- The types of a conversion by direction, and `PART` (R156). -/
def cvt (srcOk dstOk : Ty → Bool) (x : Cvt) : Bool :=
  (if x.dir then srcOk x.ty && dstOk x.oty && width x.oty < width x.ty
   else dstOk x.ty && srcOk x.oty && width x.oty ≤ width x.ty) &&
  shapeOk x.ty x.sh && accepts (fDst x.sh) x.d && accepts (fSrc x.sh) x.a &&
  (if shaped x.sh then decide (x.part.toNat < width x.ty / width x.oty) else x.part == 0)

def shuf (x : Vec3) : Bool :=
  isRaw64 x.ty && shapeNeed x.ty x.sh && accepts .vDst x.d && accepts .vSrc x.a &&
    accepts .vSrc x.b && accepts .vSrc x.c

def vext (x : Vec2) : Bool :=
  vextTy x.ty && shapeNeed x.ty x.sh && accepts .sDst x.d && accepts .vSrc x.a && accepts .sSrc x.b

def vins (x : Vec2) : Bool :=
  isRaw64 x.ty && shapeNeed x.ty x.sh && accepts .vDst x.d && accepts .sSrc x.a && accepts .sSrc x.b

def lane1 (d a : Role) (x : Alu1) : Bool :=
  isRaw64 x.ty && shapeNeed x.ty x.sh && accepts d x.d && accepts a x.a

def vred (d : Role) (x : Vred) : Bool :=
  ropOk x.op x.ty && shapeNeed x.ty x.sh && (x.op == .fadd || x.rm == none) && accepts d x.d &&
    accepts .vSrc x.a

def vdot (x : Flt3) : Bool :=
  vdotTy x.ty && shapeNeed x.ty x.sh && (isFloat x.ty || x.rm == none) && accepts .vDst x.d &&
    accepts .vSrc x.a && accepts .vSrc x.b && accepts .vSrc x.c

def memOp (m : MemOp) : Bool := accepts .aReg m.base && accepts .aReg m.idx && m.sh.toNat ≤ 4

def ld (x : MemAcc) : Bool :=
  ordLd x.ord && scpOk x.ord x.scp && accepts (memDst x.ty) x.d && memOp x.mem

def st (x : MemAcc) : Bool :=
  ordSt x.ord && scpOk x.ord x.scp && accepts (memDat x.ty) x.d && memOp x.mem

def amo (x : Amo) : Bool :=
  amoOk x.op x.ty && scpOk x.ord x.scp && accepts (memDst x.ty) x.d && memOp x.mem

def cas (tyOk : Ty → Bool) (x : Cas) : Bool :=
  tyOk x.ty && scpOk x.ord x.scp && accepts (memDst x.ty) x.d && accepts .aReg x.base &&
    accepts (memNew x.ty) x.b

def memD (d : Role) (x : MemD) : Bool := accepts d x.d && memOp x.mem

def memO (always : Bool) (x : MemO) : Bool :=
  ordSt x.ord && (always || scpOk x.ord x.scp) && memOp x.mem

def memT (tyOk : Ty → Bool) (d : Ty → Role) (x : MemT) : Bool :=
  tyOk x.ty && accepts (d x.ty) x.d && memOp x.mem

def mtxRegs (x : Mtx) (b c : Role) : Bool :=
  accepts .sReg x.d && accepts .sReg x.a && accepts b x.b && accepts c x.c

def strm (tyOk : Ty → Bool) (x : Strm) (b c : Role) : Bool :=
  tyOk x.ty && accepts .sDst x.d && accepts .list x.a && accepts b x.b && accepts c x.c

def vol (o : Ord → Bool) (d : Ty → Role) (x : Vol) : Bool :=
  o x.ord && scpOk x.ord x.scp && accepts (d x.ty) x.d && accepts .aReg x.base && accepts .list x.b

def cpy (x : Cpy) (c : Role) : Bool :=
  accepts .sReg x.d && accepts .sReg x.a && accepts .sReg x.b && accepts c x.c

/-- An unused operand field holds code 0, which is s0 (R56). -/
abbrev unused : Opd := .s 0

def unusedOk (o : Opd) : Bool := o == unused

end Sys2Proof.WellFormed

namespace Sys2Proof
open Forms WellFormed

/-- The instructions that have a word: those the decoder gives (R75 steps 2 to 7). -/
def wellFormed : Instr → Bool
  | .add _ x | .sub _ x => alu2 arith128 x
  | .mul _ x | .mulh _ x | .div _ x | .rem _ x => alu2 arith64 x
  | .and _ x | .or _ x | .xor _ x | .andn _ x | .orn _ x => alu2 isRaw x
  | .shl _ x | .shr _ x | .sar _ x | .rol _ x | .ror _ x => alu2 isRaw64 x
  | .min _ x | .max _ x => alu2 isInt x
  | .addx _ x | .subx _ x => aluX carryTy false x
  | .sel _ x => aluX isRaw true x
  | .clz _ x | .ctz _ x | .popc _ x | .brev _ x => alu1 isRaw64 x
  | .bswap _ x => alu1 swapTy x
  | .abs _ x => alu1 isSigned x
  | .sext _ x | .zext _ x => ext x
  | .bfx _ x => bfx x
  | .bfi _ x => bfi x
  | .mov _ x => mov x
  | .li _ d _ => accepts .sDst d
  | .lea _ x => memD .sDst x
  | .cmp _ x => cmp x
  | .plog .. => true
  | .pmovGet _ d => accepts .sDst d
  | .pmovSet _ a _ => accepts .sSrc a
  | .br .. | .call .. | .ret _ | .nop _ => true
  | .jmp _ a | .callr _ a => accepts .sReg a
  | .dbnz _ d _ => accepts .sRegDst d
  | .fadd _ x | .fsub _ x | .fmul _ x | .fdiv _ x => flt2 x
  | .fma _ x | .fnma _ x => flt3 x
  | .fsqrt _ x => flt1 x
  | .fmin _ x | .fmax _ x => fmin x
  | .fsgn _ x => fsgn x
  | .fcmp _ x => fcmp x
  | .fclass _ x => fclass x
  | .fcvt _ x => cvt isFloat isFloat x
  | .fcvi _ x => cvt isFloat cvtInt x
  | .icvf _ x => cvt cvtInt isFloat x
  | .frnd _ x => frnd x
  | .shuf _ x => shuf x
  | .vext _ x => vext x
  | .vins _ x => vins x
  | .vbc _ x => lane1 .vDst .sSrc x
  | .vred _ x => vred .sDst x
  | .vscan _ x => vred .vDst x
  | .vdot _ x => vdot x
  | .vmskGet _ x => lane1 .sDst .vSrc x
  | .vmskSet _ x => lane1 .vDst .sSrc x
  | .vmskAny _ x | .vmskAll _ x => lane1 .pDst .vSrc x
  | .ld _ x => ld x
  | .st _ x => st x
  | .amo _ x => amo x
  | .cas _ x => cas casTy x
  | .cas2 _ x => cas isB128 x
  | .fence _ o _ => ordFence o
  | .lde _ x | .ldc _ x | .qfe _ x => memD .mDst x
  | .stf _ x | .sts _ x => memD .mDat x
  | .sfe _ m => memOp m
  | .hold _ x => memT holdTy memDst x
  | .hst _ x => holdTy x.ty && accepts (memDat x.ty) x.d && memOp x.mem
  | .hrel _ x => memO false x
  | .addd _ x => adddOk x.op x.ty && accepts (memDat x.ty) x.d && memOp x.mem
  | .cflush _ x => memO true x
  | .talloc _ f d a => fmtOk f && accepts .sDst d && accepts .sSrc a
  | .tfree _ a | .tpin _ _ a _ | .tunpin _ a _ => accepts .sReg a
  | .tlde _ x => memT ldTy memDst x
  | .tste _ x => memT ldTy memDat x
  | .tinfo _ _ d a => accepts .sDst d && accepts .sSrc a
  | .mldw _ x => isSbf x.ty && x.np == 0 && !x.init && accepts .sReg x.d && accepts .sReg x.a &&
      unusedOk x.b && unusedOk x.c
  | .mma _ x => isSbf x.ty && 1 ≤ x.np.toNat && x.np.toNat ≤ sbfM x.ty && mtxRegs x .sReg .sReg
  | .macc _ _ x => maccTy x.ty && x.np == 0 && !x.init && !x.bank && mtxRegs x .sReg .sSrc
  | .mcvt _ x => isSbf x.ty && !x.init && !x.bank && mtxRegs x .sReg .sSrc
  | .mqry _ _ d => accepts .sDst d
  | .sint _ x | .smrg _ x | .sdiff _ x => strm setTy x .list .list
  | .sintc _ x => setTy x.ty && accepts .sDst x.d && accepts .list x.a && accepts .list x.b && unusedOk x.c
  | .sgath _ x => strm isRaw64 x .list .list
  | .sscat _ x => strm scatTy x .list .list
  | .scmp _ nz x => strm isRaw64 x (if nz then .zeroOnly else .list) .list
  | .cld _ x => vol ordLd memDst x
  | .cst _ x => vol ordSt memDat x
  | .camo _ x => amoOk x.op x.ty && scpOk x.ord x.scp && accepts (memDst x.ty) x.d &&
      accepts .aReg x.base && accepts .list x.b
  | .cprb _ d base _ b => accepts .sDst d && accepts .aReg base && accepts .list b
  | .clbinv _ _ d base _ b => accepts .vSrc d && !isImm d && accepts .aReg base && accepts .list b
  | .qpop _ d base _ => accepts .sDst d && accepts .aReg base
  | .qpsh _ d base _ => accepts .sSrc d && !isImm d && accepts .aReg base
  | .cpy _ x => x.op == .add && x.ty == .b64 && x.sig == 0 && cpy x .sReg && unusedOk x.c
  | .cred _ x => redOk x.op x.ty && x.sig == 0 && cpy x .sReg && unusedOk x.c
  | .xcpy _ x => x.op == .add && x.ty == .b64 && cpy x .sSrc
  | .xred _ x => redOk x.op x.ty && cpy x .sSrc
  | .rfence _ _ base _ => accepts .aReg base
  | .spawn _ x => accepts .sDst x.d && sbenchOk x.sbench
  | .exit _ | .yield _ | .eret _ | .brk .. => true
  | .bar _ d a _ => accepts .sDst d && accepts .sReg a
  | .whereIu _ d => accepts .sDst d
  | .move _ _ b => sbenchOk b
  | .sys _ a _ | .trap _ a _ => accepts .sSrc a
  | .csrr _ d c => accepts .sDst d && csrNums.contains c.toNat
  | .csrw _ a c => accepts .sSrc a && csrNums.contains c.toNat
  | .ctxr _ d a _ => accepts .sDst d && accepts .sSrc a
  | .ctxw _ a b _ => accepts .sSrc a && accepts .sSrc b
  | _ => false

end Sys2Proof
end

