-- ==== Sys2Proof/Decode.lean ====
section
/-! DEFINITION. The decoder (R75 steps 2 to 7, R76, R77) and the encoder, written from the encoding tables of
02_encoding and of each instruction. -/

namespace Sys2Proof.Decode
open Sys2Proof.Forms

/-- Why a word is illegal: the cause (R272) and the detail of R76 or R77. -/
structure Illegal where
  cause : BitVec 8
  detail : BitVec 24
  deriving DecidableEq, Repr

/-- ILLEGAL INSTRUCTION with a reason and a bit number (R76). -/
def illegalInstr (reason : BitVec 8) (bitNo : Nat) : Illegal :=
  ⟨0x01, reason ++ BitVec.ofNat 8 bitNo ++ (0 : BitVec 8)⟩

/-- ILLEGAL OPERAND with a reason and a field (R77). -/
def illegalOpnd (reason field : BitVec 8) : Illegal := ⟨0x02, reason ++ (0 : BitVec 8) ++ field⟩

/-- Bits `lo` to `lo + n - 1` of the word. -/
def fld (w : IWord) (lo n : Nat) : BitVec n := w.extractLsb' lo n

def fOpc (w : IWord) : BitVec 10 := fld w 0 10
def fD (w : IWord) : BitVec 7 := fld w 19 7
def fA (w : IWord) : BitVec 7 := fld w 26 7
def fB (w : IWord) : BitVec 7 := fld w 33 7
def fC (w : IWord) : BitVec 7 := fld w 40 7
def fPX (w : IWord) : BitVec 3 := fld w 47 3
def fTY (w : IWord) : BitVec 5 := fld w 50 5
def fSH (w : IWord) : BitVec 3 := fld w 55 3
def fF3 (w : IWord) : BitVec 3 := fld w 58 3
def fF (w : IWord) : Bool := fld w 63 1 == 1
def fImm (w : IWord) : BitVec 32 := fld w 64 32
def fAOP (w : IWord) : BitVec 4 := fld w 43 4
def fNT (w : IWord) : Bool := fld w 58 1 == 1
def fFAR (w : IWord) : Bool := fld w 59 1 == 1
def fSCP (w : IWord) : BitVec 2 := fld w 60 2
def fORD (w : IWord) : BitVec 2 := fld w 62 2
def eC (w : IWord) : BitVec 7 := fld w 57 7
def eTY (w : IWord) : BitVec 5 := fld w 52 5
def eNP (w : IWord) : BitVec 4 := fld w 48 4
def eEOP (w : IWord) : BitVec 4 := fld w 44 4

/-- The header fields of every word (R49). -/
def hdr (w : IWord) : Hdr :=
  { g := fld w 10 3, n := fld w 13 1 == 1, w := fld w 14 1 == 1, yp := fld w 15 1 == 1, lh := fld w 16 1 == 1 }

/-- The operand of a code that has been accepted. -/
def opd (c : BitVec 7) : Opd := (opdOf c).getD .zero

def ty (c : BitVec 5) : Ty := (tyOf c).getD .b64

def sh (c : BitVec 3) : Shape := (shOf c).getD .sc

def rty (w : IWord) : Ty := ty (fTY w)

def rsh (w : IWord) : Shape := sh (fSH w)

def rrm (w : IWord) : Option RMode := (rmOf (fF3 w)).getD none

def rop (w : IWord) : AOp := (opOf (fAOP w)).getD .add

def scp (w : IWord) : Scope := (scpOf (fSCP w)).getD .dev

/-- The B operand or the immediate of the I form (R62). -/
def srcB (w : IWord) : Src := if fF w then .imm32 (fImm w) else .opd (opd (fB w))

def mem (w : IWord) : MemOp := { base := opd (fA w), idx := opd (fB w), sh := fSH w, disp := fImm w }

/-- One opcode (R72): its class, the bits it uses beside the common ones, its fields with the number of
their lowest bit (R76), its operands in the order of R77, and the instruction of an accepted word. -/
structure Row where
  opc : BitVec 10
  /-- Classes R and I, whose bit 63 is `F` (R62). -/
  hasF : Bool := true
  ri : Bool := false
  used : Bool → List (Nat × Nat)
  fields : IWord → List (Nat × Bool)
  opnds : IWord → List (BitVec 8 × Option (BitVec 8))
  make : IWord → Instr

/-- Checks one operand code (R77). -/
def chk (n : BitVec 8) (r : Role) (c : BitVec 7) : BitVec 8 × Option (BitVec 8) :=
  (n, match opdOf c with
    | none => some 0x01
    | some o => refuse r (n == 1) o)

/-- Checks the B operand unless the I form replaces it. -/
def chkSrc (n : BitVec 8) (r : Role) (w : IWord) (c : BitVec 7) : BitVec 8 × Option (BitVec 8) :=
  if fF w then (n, none) else chk n r c

/-- Checks a range of an immediate: reason 0x07, field 5 (R77). -/
def range (ok : Bool) : BitVec 8 × Option (BitVec 8) := (5, if ok then none else some 0x07)

def tyFld (p : Ty → Bool) (w : IWord) : Nat × Bool := (50, ((tyOf (fTY w)).map p).getD false)

def eTyFld (p : Ty → Bool) (w : IWord) : Nat × Bool := (52, ((tyOf (eTY w)).map p).getD false)

def shFld (p : Ty → Shape → Bool) (w : IWord) : Nat × Bool :=
  (55, ((shOf (fSH w)).map (p (rty w))).getD false)

def rmFld (w : IWord) : Nat × Bool := (58, (rmOf (fF3 w)).isSome)

/-- Whether an operation is accepted with some type. -/
def someTy (ok : AOp → Ty → Bool) (o : AOp) : Bool := ((List.range 32).filterMap fun n => tyOf (BitVec.ofNat 5 n)).any (ok o)

/-- An operation that is accepted with no type fails; against the type it fails when the type is accepted with another
one (R76). -/
def opFld (bitNo : Nat) (code : BitVec 4) (ok : AOp → Ty → Bool) (t : Option Ty) : Nat × Bool :=
  (bitNo, match opOf code with
    | none => false
    | some o => match t with
      | none => someTy ok o
      | some t => ok o t || (!(someOp ok t) && someTy ok o))

def ordFld (p : Ord → Bool) (w : IWord) : Nat × Bool := (62, p (ordOf (fORD w)))

def scpFld (always : Bool) (w : IWord) : Nat × Bool :=
  (60, match scpOf (fSCP w) with
    | none => false
    | some s => always || scpOk (ordOf (fORD w)) s)

def scFld (w : IWord) : Nat × Bool := (55, decide ((fSH w).toNat ≤ 4))

-- Places of the fields (R57, R65, R70).
abbrev uD : Nat × Nat := (19, 7)
abbrev uA : Nat × Nat := (26, 7)
abbrev uB : Nat × Nat := (33, 7)
abbrev uC : Nat × Nat := (40, 7)
abbrev uPX : Nat × Nat := (47, 3)
abbrev uTY : Nat × Nat := (50, 5)
abbrev uSH : Nat × Nat := (55, 3)
abbrev uF3 : Nat × Nat := (58, 3)
abbrev uF : Nat × Nat := (63, 1)
abbrev uX32 : Nat × Nat := (64, 32)
abbrev uAOP : Nat × Nat := (43, 4)
abbrev uNT : Nat × Nat := (58, 1)
abbrev uFAR : Nat × Nat := (59, 1)
abbrev uSCP : Nat × Nat := (60, 2)
abbrev uORD : Nat × Nat := (62, 2)
abbrev uEC : Nat × Nat := (57, 7)
abbrev uETY : Nat × Nat := (52, 5)
abbrev uNP : Nat × Nat := (48, 4)
abbrev uEOP : Nat × Nat := (44, 4)

/-- The fields of an R/I instruction: in the I form IMM32 replaces B (R62). -/
def usedRI (extra : List (Nat × Nat)) (f : Bool) : List (Nat × Nat) :=
  [uD, uA, uTY, uSH, uF] ++ extra ++ (if f then [uX32] else [uB])

def rowAlu2 (opc : BitVec 10) (p : Ty → Bool) (mk : Hdr → Alu2 → Instr) : Row :=
  { opc, ri := true, used := usedRI []
    fields := fun w => [tyFld p w, shFld shapeOk w]
    opnds := fun w => [chk 1 (aluDst (rty w) (rsh w)) (fD w), chk 2 (aluSrc (rty w) (rsh w)) (fA w),
      chkSrc 3 (aluSrc (rty w) (rsh w)) w (fB w)]
    make := fun w => mk (hdr w) { ty := rty w, sh := rsh w, d := opd (fD w), a := opd (fA w), b := srcB w } }

def rowAlu1 (opc : BitVec 10) (p : Ty → Bool) (mk : Hdr → Alu1 → Instr) : Row :=
  { opc, used := fun _ => [uD, uA, uTY, uSH]
    fields := fun w => [tyFld p w, shFld shapeOk w]
    opnds := fun w => [chk 1 (aluDst (rty w) (rsh w)) (fD w), chk 2 (aluSrc (rty w) (rsh w)) (fA w)]
    make := fun w => mk (hdr w) { ty := rty w, sh := rsh w, d := opd (fD w), a := opd (fA w) } }

/-- `ADDX`, `SUBX`: `SH` is reserved (R126). -/
def rowCarry (opc : BitVec 10) (mk : Hdr → AluX → Instr) : Row :=
  { opc, ri := true
    used := fun f => [uD, uA, uTY, uPX, uF] ++ (if f then [uX32] else [uB])
    fields := fun w => [tyFld carryTy w]
    opnds := fun w => [chk 1 .sDst (fD w), chk 2 .sSrc (fA w), chkSrc 3 .sSrc w (fB w)]
    make := fun w => mk (hdr w) { ty := rty w, px := fPX w, d := opd (fD w), a := opd (fA w), b := srcB w } }

def rowSel : Row :=
  { opc := 0x01F, ri := true, used := usedRI [uPX]
    fields := fun w => [tyFld isRaw w, shFld shapeOk w]
    opnds := fun w => [chk 1 (aluDst (rty w) (rsh w)) (fD w), chk 2 (aluSrc (rty w) (rsh w)) (fA w),
      chkSrc 3 (aluSrc (rty w) (rsh w)) w (fB w)]
    make := fun w => .sel (hdr w)
      { ty := rty w, sh := rsh w, px := fPX w, d := opd (fD w), a := opd (fA w), b := srcB w } }

def aux7 (w : IWord) : BitVec 7 := fld w 64 7

def aux7' (w : IWord) : BitVec 7 := fld w 72 7

/-- `SEXT`, `ZEXT` (R132). -/
def rowExt (opc : BitVec 10) (mk : Hdr → Ext → Instr) : Row :=
  { opc, used := fun _ => [uD, uA, uTY, uSH, (64, 7)]
    fields := fun w => [tyFld isRaw64 w, shFld shapeOk w]
    opnds := fun w => [chk 1 (aluDst (rty w) (rsh w)) (fD w), chk 2 (aluSrc (rty w) (rsh w)) (fA w),
      range (WellFormed.nbOk (rty w) (aux7 w))]
    make := fun w => mk (hdr w) { ty := rty w, sh := rsh w, nb := aux7 w, d := opd (fD w), a := opd (fA w) } }

def rowBfx : Row :=
  { opc := 0x01D, used := fun _ => [uD, uA, uTY, uSH, (64, 7), (72, 7)]
    fields := fun w => [tyFld isInt w, shFld shapeOk w]
    opnds := fun w => [chk 1 (aluDst (rty w) (rsh w)) (fD w), chk 2 (aluSrc (rty w) (rsh w)) (fA w),
      range (WellFormed.posLenOk (rty w) (aux7 w) (aux7' w))]
    make := fun w => .bfx (hdr w)
      { ty := rty w, sh := rsh w, pos := aux7 w, len := aux7' w, d := opd (fD w), a := opd (fA w) } }

def rowBfi : Row :=
  { opc := 0x01E, used := fun _ => [uD, uA, uB, uTY, uSH, (64, 7), (72, 7)]
    fields := fun w => [tyFld isRaw64 w, shFld shapeOk w]
    opnds := fun w => [chk 1 (aluDst (rty w) (rsh w)) (fD w), chk 2 (aluSrc (rty w) (rsh w)) (fA w),
      chk 3 (aluSrc (rty w) (rsh w)) (fB w), range (WellFormed.posLenOk (rty w) (aux7 w) (aux7' w))]
    make := fun w => .bfi (hdr w)
      { ty := rty w, sh := rsh w, pos := aux7 w, len := aux7' w, d := opd (fD w), a := opd (fA w),
        b := opd (fB w) } }

/-- `MOV`: in the I form IMM32 replaces A (R62). -/
def rowMov : Row :=
  { opc := 0x020, ri := true
    used := fun f => [uD, uTY, uSH, uF] ++ (if f then [uX32] else [uA])
    fields := fun w => [tyFld isRaw w, shFld shapeOk w]
    opnds := fun w => [chk 1 (aluDst (rty w) (rsh w)) (fD w), chkSrc 2 (aluSrc (rty w) (rsh w)) w (fA w)]
    make := fun w => .mov (hdr w)
      { ty := rty w, sh := rsh w, d := opd (fD w)
        a := if fF w then .imm32 (fImm w) else .opd (opd (fA w)) } }

def rowCmp : Row :=
  { opc := 0x023, ri := true, used := usedRI [uF3]
    fields := fun w => [tyFld arith64 w, shFld shapeOk w]
    opnds := fun w => [chk 1 (cmpDst (rsh w)) (fD w), chk 2 (aluSrc (rty w) (rsh w)) (fA w),
      chkSrc 3 (aluSrc (rty w) (rsh w)) w (fB w)]
    make := fun w => .cmp (hdr w)
      { cond := condOf (fF3 w), ty := rty w, sh := rsh w, d := opd (fD w), a := opd (fA w), b := srcB w } }

def rowLi : Row :=
  { opc := 0x021, hasF := false, used := fun _ => [uD, (40, 56)], fields := fun _ => []
    opnds := fun w => [chk 1 .sDst (fD w)], make := fun w => .li (hdr w) (opd (fD w)) (fld w 40 56) }

def rowPlog : Row :=
  { opc := 0x080, used := fun _ => [uD, uA, uB, uC, (64, 8)], fields := fun _ => []
    opnds := fun w => [chk 1 .pDst (fD w), chk 2 .pSrc (fA w), chk 3 .pSrc (fB w), chk 4 .pSrc (fC w)]
    make := fun w => .plog (hdr w) ((fD w).setWidth 3) ((fA w).setWidth 3) ((fB w).setWidth 3)
      ((fC w).setWidth 3) (fld w 64 8) }

/-- `PMOV`: D is used by get, A and `PM` by set; in the other form a nonzero value fails the field
(R71, R138). -/
def rowPmov : Row :=
  { opc := 0x081, used := fun _ => [uD, uA, (65, 8)]
    fields := fun w => if fld w 72 1 == 1 then [(19, fD w == 0)] else [(26, fA w == 0), (65, fld w 65 7 == 0)]
    opnds := fun w => if fld w 72 1 == 1 then [chk 2 .sSrc (fA w)] else [chk 1 .sDst (fD w)]
    make := fun w => if fld w 72 1 == 1 then .pmovSet (hdr w) (opd (fA w)) (fld w 65 7)
      else .pmovGet (hdr w) (opd (fD w)) }

def rowB (opc : BitVec 10) (mk : Hdr → BitVec 32 → Instr) : Row :=
  { opc, hasF := false, used := fun _ => [uX32], fields := fun _ => [], opnds := fun _ => []
    make := fun w => mk (hdr w) (fImm w) }

def rowDbnz : Row :=
  { opc := 0x087, hasF := false, used := fun _ => [uD, uX32], fields := fun _ => []
    opnds := fun w => [chk 1 .sRegDst (fD w)], make := fun w => .dbnz (hdr w) (opd (fD w)) (fImm w) }

def row0 (opc : BitVec 10) (mk : Hdr → Instr) : Row :=
  { opc, used := fun _ => [], fields := fun _ => [], opnds := fun _ => [], make := fun w => mk (hdr w) }

def rowA (opc : BitVec 10) (r : Role) (mk : Hdr → Opd → Instr) : Row :=
  { opc, used := fun _ => [uA], fields := fun _ => [], opnds := fun w => [chk 2 r (fA w)]
    make := fun w => mk (hdr w) (opd (fA w)) }

def rowD (opc : BitVec 10) (mk : Hdr → Opd → Instr) : Row :=
  { opc, used := fun _ => [uD], fields := fun _ => [], opnds := fun w => [chk 1 .sDst (fD w)]
    make := fun w => mk (hdr w) (opd (fD w)) }

def rowFlt2 (opc : BitVec 10) (mk : Hdr → Flt2 → Instr) : Row :=
  { opc, used := fun _ => [uD, uA, uB, uTY, uSH, uF3]
    fields := fun w => [tyFld isFloat w, shFld shapeOk w, rmFld w]
    opnds := fun w => [chk 1 (fDst (rsh w)) (fD w), chk 2 (fSrc (rsh w)) (fA w), chk 3 (fSrc (rsh w)) (fB w)]
    make := fun w => mk (hdr w)
      { ty := rty w, sh := rsh w, rm := rrm w, d := opd (fD w), a := opd (fA w), b := opd (fB w) } }

def rowFlt3 (opc : BitVec 10) (mk : Hdr → Flt3 → Instr) : Row :=
  { opc, used := fun _ => [uD, uA, uB, uC, uTY, uSH, uF3]
    fields := fun w => [tyFld isFloat w, shFld shapeOk w, rmFld w]
    opnds := fun w => [chk 1 (fDst (rsh w)) (fD w), chk 2 (fSrc (rsh w)) (fA w), chk 3 (fSrc (rsh w)) (fB w),
      chk 4 (fSrc (rsh w)) (fC w)]
    make := fun w => mk (hdr w)
      { ty := rty w, sh := rsh w, rm := rrm w, d := opd (fD w), a := opd (fA w), b := opd (fB w),
        c := opd (fC w) } }

def rowFsqrt : Row :=
  { opc := 0x106, used := fun _ => [uD, uA, uTY, uSH, uF3]
    fields := fun w => [tyFld isFloat w, shFld shapeOk w, rmFld w]
    opnds := fun w => [chk 1 (fDst (rsh w)) (fD w), chk 2 (fSrc (rsh w)) (fA w)]
    make := fun w => .fsqrt (hdr w)
      { ty := rty w, sh := rsh w, rm := rrm w, d := opd (fD w), a := opd (fA w) } }

def rowFmin (opc : BitVec 10) (mk : Hdr → Vec2 → Instr) : Row :=
  { opc, used := fun _ => [uD, uA, uB, uTY, uSH]
    fields := fun w => [tyFld isFloat w, shFld shapeOk w]
    opnds := fun w => [chk 1 (fDst (rsh w)) (fD w), chk 2 (fSrc (rsh w)) (fA w), chk 3 (fSrc (rsh w)) (fB w)]
    make := fun w => mk (hdr w) { ty := rty w, sh := rsh w, d := opd (fD w), a := opd (fA w), b := opd (fB w) } }

def rowFsgn : Row :=
  { opc := 0x109, used := fun _ => [uD, uA, uB, uTY, uSH, (64, 2)]
    fields := fun w => [tyFld isFloat w, shFld shapeOk w, (64, (sgnOf (fld w 64 2)).isSome)]
    opnds := fun w => [chk 1 (fDst (rsh w)) (fD w), chk 2 (fSrc (rsh w)) (fA w), chk 3 (fSrc (rsh w)) (fB w)]
    make := fun w => .fsgn (hdr w)
      { op := (sgnOf (fld w 64 2)).getD .cp, ty := rty w, sh := rsh w, d := opd (fD w), a := opd (fA w),
        b := opd (fB w) } }

def rowFcmp : Row :=
  { opc := 0x10A, used := fun _ => [uD, uA, uB, uTY, uSH, uF3]
    fields := fun w => [tyFld isFloat w, shFld shapeOk w]
    opnds := fun w => [chk 1 (cmpDst (rsh w)) (fD w), chk 2 (fSrc (rsh w)) (fA w), chk 3 (fSrc (rsh w)) (fB w)]
    make := fun w => .fcmp (hdr w)
      { cond := fcondOf (fF3 w), ty := rty w, sh := rsh w, d := opd (fD w), a := opd (fA w), b := opd (fB w) } }

def rowFclass : Row :=
  { opc := 0x10B, used := fun _ => [uD, uA, uTY, uSH]
    fields := fun w => [tyFld isFloat w, shFld shapeOk w]
    opnds := fun w => [chk 1 (fDst (rsh w)) (fD w), chk 2 (fSrc (rsh w)) (fA w)]
    make := fun w => .fclass (hdr w) { ty := rty w, sh := rsh w, d := opd (fD w), a := opd (fA w) } }

/-- Conversions: the checks of R156, charged as R76 states. -/
def rowCvt (opc : BitVec 10) (src dst : Ty → Bool) (mk : Hdr → Cvt → Instr) : Row :=
  let dir := fun w => fld w 69 1 == (1 : BitVec 1)
  let oty := fun w => tyOf (fld w 64 5)
  let tyOk := fun w => if dir w then src else dst
  let otyOk := fun w => if dir w then dst else src
  { opc, used := fun _ => [uD, uA, uTY, uSH, uF3, (64, 8)]
    fields := fun w => [tyFld (tyOk w) w, shFld shapeOk w, rmFld w,
      (64, match oty w with
        | none => false
        | some o => otyOk w o && (decide (width o ≤ width (rty w)) || !(tyFld (tyOk w) w).2)),
      (69, match oty w with
        | none => true
        | some o => !(dir w && width o == width (rty w) && otyOk w o && (tyFld (tyOk w) w).2))]
    opnds := fun w => [chk 1 (fDst (rsh w)) (fD w), chk 2 (fSrc (rsh w)) (fA w),
      range (if shaped (rsh w) then
          decide ((fld w 70 2).toNat < width (rty w) / width ((oty w).getD .b64))
        else fld w 70 2 == 0)]
    make := fun w => mk (hdr w)
      { ty := rty w, oty := (oty w).getD .b64, dir := dir w, part := fld w 70 2, sh := rsh w, rm := rrm w,
        d := opd (fD w), a := opd (fA w) } }

def rowFrnd : Row :=
  { opc := 0x10F, used := fun _ => [uD, uA, uTY, uSH, uF3, (64, 1)]
    fields := fun w => [tyFld isFloat w, shFld shapeOk w, rmFld w]
    opnds := fun w => [chk 1 (fDst (rsh w)) (fD w), chk 2 (fSrc (rsh w)) (fA w)]
    make := fun w => .frnd (hdr w)
      { ty := rty w, sh := rsh w, rm := rrm w, nx := fld w 64 1 == 1, d := opd (fD w), a := opd (fA w) } }

def rowShuf : Row :=
  { opc := 0x110, used := fun _ => [uD, uA, uB, uC, uTY, uSH]
    fields := fun w => [tyFld isRaw64 w, shFld shapeNeed w]
    opnds := fun w => [chk 1 .vDst (fD w), chk 2 .vSrc (fA w), chk 3 .vSrc (fB w), chk 4 .vSrc (fC w)]
    make := fun w => .shuf (hdr w)
      { ty := rty w, sh := rsh w, d := opd (fD w), a := opd (fA w), b := opd (fB w), c := opd (fC w) } }

/-- `VEXT`, `VINS` (R160). -/
def rowLane2 (opc : BitVec 10) (p : Ty → Bool) (d a : Role) (mk : Hdr → Vec2 → Instr) : Row :=
  { opc, used := fun _ => [uD, uA, uB, uTY, uSH]
    fields := fun w => [tyFld p w, shFld shapeNeed w]
    opnds := fun w => [chk 1 d (fD w), chk 2 a (fA w), chk 3 .sSrc (fB w)]
    make := fun w => mk (hdr w) { ty := rty w, sh := rsh w, d := opd (fD w), a := opd (fA w), b := opd (fB w) } }

def rowVbc : Row :=
  { opc := 0x113, used := fun _ => [uD, uA, uTY, uSH]
    fields := fun w => [tyFld isRaw64 w, shFld shapeNeed w]
    opnds := fun w => [chk 1 .vDst (fD w), chk 2 .sSrc (fA w)]
    make := fun w => .vbc (hdr w) { ty := rty w, sh := rsh w, d := opd (fD w), a := opd (fA w) } }

/-- `VRED`, `VSCAN`: `F3` is used by `.fadd` only (R161). -/
def rowVred (opc : BitVec 10) (d : Role) (mk : Hdr → Vred → Instr) : Row :=
  { opc, used := fun _ => [uD, uA, uTY, uSH, uF3, (64, 4)]
    fields := fun w => [tyFld (someOp ropOk) w, shFld shapeNeed w,
      (58, if opOf (fld w 64 4) == some .fadd then (rmOf (fF3 w)).isSome else fF3 w == 0),
      opFld 64 (fld w 64 4) ropOk (tyOf (fTY w))]
    opnds := fun w => [chk 1 d (fD w), chk 2 .vSrc (fA w)]
    make := fun w => mk (hdr w)
      { op := (opOf (fld w 64 4)).getD .add, ty := rty w, sh := rsh w, rm := rrm w, d := opd (fD w),
        a := opd (fA w) } }

/-- `VDOT`: `F3` is used by the floating forms only (R162). -/
def rowVdot : Row :=
  { opc := 0x115, used := fun _ => [uD, uA, uB, uC, uTY, uSH, uF3]
    fields := fun w => [tyFld vdotTy w, shFld shapeNeed w,
      (58, if isFloat (rty w) then (rmOf (fF3 w)).isSome else fF3 w == 0)]
    opnds := fun w => [chk 1 .vDst (fD w), chk 2 .vSrc (fA w), chk 3 .vSrc (fB w), chk 4 .vSrc (fC w)]
    make := fun w => .vdot (hdr w)
      { ty := rty w, sh := rsh w, rm := rrm w, d := opd (fD w), a := opd (fA w), b := opd (fB w),
        c := opd (fC w) } }

def vmskMode (w : IWord) : BitVec 2 := fld w 64 2

def vmskRoles (m : BitVec 2) : Role × Role :=
  match m.toNat with
  | 0 => (.sDst, .vSrc)
  | 1 => (.vDst, .sSrc)
  | _ => (.pDst, .vSrc)

/-- `VMSK`: the mode in `AUX[1:0]` (R163). -/
def rowVmsk : Row :=
  { opc := 0x116, used := fun _ => [uD, uA, uTY, uSH, (64, 2)]
    fields := fun w => [tyFld isRaw64 w, shFld shapeNeed w]
    opnds := fun w => [chk 1 (vmskRoles (vmskMode w)).1 (fD w), chk 2 (vmskRoles (vmskMode w)).2 (fA w)]
    make := fun w =>
      let x : Alu1 := { ty := rty w, sh := rsh w, d := opd (fD w), a := opd (fA w) }
      match (vmskMode w).toNat with
      | 0 => .vmskGet (hdr w) x
      | 1 => .vmskSet (hdr w) x
      | 2 => .vmskAny (hdr w) x
      | _ => .vmskAll (hdr w) x }

/-- `LD`, `ST` (R166). -/
def rowLdSt (opc : BitVec 10) (o : Ord → Bool) (d : Ty → Role) (mk : Hdr → MemAcc → Instr) : Row :=
  { opc, hasF := false, used := fun _ => [uD, uA, uB, uORD, uSCP, uNT, uSH, uTY, uX32]
    fields := fun w => [tyFld ldTy w, scFld w, scpFld false w, ordFld o w]
    opnds := fun w => [chk 1 (d (rty w)) (fD w), chk 2 .aReg (fA w), chk 3 .aReg (fB w)]
    make := fun w => mk (hdr w)
      { ty := rty w, ord := ordOf (fORD w), scp := scp w, nt := fNT w, d := opd (fD w), mem := mem w } }

def rowAmo : Row :=
  { opc := 0x182, hasF := false, used := fun _ => [uD, uA, uB, uORD, uSCP, uFAR, uSH, uTY, uAOP, uX32]
    fields := fun w => [opFld 43 (fAOP w) amoOk (tyOf (fTY w)), tyFld (someOp amoOk) w, scFld w, scpFld false w]
    opnds := fun w => [chk 1 (memDst (rty w)) (fD w), chk 2 .aReg (fA w), chk 3 .aReg (fB w)]
    make := fun w => .amo (hdr w)
      { op := rop w, ty := rty w, ord := ordOf (fORD w), scp := scp w, far := fFAR w, d := opd (fD w),
        mem := mem w } }

/-- `CAS`, `CAS2`: `SC` is reserved (R166). -/
def rowCas (opc : BitVec 10) (p : Ty → Bool) (mk : Hdr → Cas → Instr) : Row :=
  { opc, hasF := false, used := fun _ => [uD, uA, uB, uORD, uSCP, uFAR, uTY, uX32]
    fields := fun w => [tyFld p w, scpFld false w]
    opnds := fun w => [chk 1 (memDst (rty w)) (fD w), chk 2 .aReg (fA w), chk 3 (memNew (rty w)) (fB w)]
    make := fun w => mk (hdr w)
      { ty := rty w, ord := ordOf (fORD w), scp := scp w, far := fFAR w, d := opd (fD w), base := opd (fA w),
        disp := fImm w, b := opd (fB w) } }

def rowFence : Row :=
  { opc := 0x185, hasF := false, used := fun _ => [uORD, uSCP]
    fields := fun w => [scpFld true w, ordFld ordFence w]
    opnds := fun _ => [], make := fun w => .fence (hdr w) (ordOf (fORD w)) (scp w) }

def isB64 (t : Ty) : Bool := t == .b64

/-- The synchronising class: the type is `.b64` (R166). -/
def rowSync (opc : BitVec 10) (d : Role) (mk : Hdr → MemD → Instr) : Row :=
  { opc, hasF := false, used := fun _ => [uD, uA, uB, uSH, uTY, uX32]
    fields := fun w => [tyFld isB64 w, scFld w]
    opnds := fun w => [chk 1 d (fD w), chk 2 .aReg (fA w), chk 3 .aReg (fB w)]
    make := fun w => mk (hdr w) { d := opd (fD w), mem := mem w } }

def rowSfe : Row :=
  { opc := 0x18A, hasF := false, used := fun _ => [uA, uB, uSH, uTY, uX32]
    fields := fun w => [tyFld isB64 w, scFld w]
    opnds := fun w => [chk 2 .aReg (fA w), chk 3 .aReg (fB w)], make := fun w => .sfe (hdr w) (mem w) }

def rowLea : Row :=
  { opc := 0x022, hasF := false, used := fun _ => [uD, uA, uB, uSH, uX32]
    fields := fun w => [scFld w]
    opnds := fun w => [chk 1 .sDst (fD w), chk 2 .aReg (fA w), chk 3 .aReg (fB w)]
    make := fun w => .lea (hdr w) { d := opd (fD w), mem := mem w } }

/-- `HOLD`, `TLDE`, `TSTE` (R166, R210). -/
def rowMemT (opc : BitVec 10) (p : Ty → Bool) (d : Ty → Role) (mk : Hdr → MemT → Instr) : Row :=
  { opc, hasF := false, used := fun _ => [uD, uA, uB, uSH, uTY, uX32]
    fields := fun w => [tyFld p w, scFld w]
    opnds := fun w => [chk 1 (d (rty w)) (fD w), chk 2 .aReg (fA w), chk 3 .aReg (fB w)]
    make := fun w => mk (hdr w) { ty := rty w, d := opd (fD w), mem := mem w } }

def rowHst : Row :=
  { opc := 0x18D, hasF := false, used := fun _ => [uD, uA, uB, uSH, uTY, uPX, uX32]
    fields := fun w => [tyFld holdTy w, scFld w]
    opnds := fun w => [chk 1 (memDat (rty w)) (fD w), chk 2 .aReg (fA w), chk 3 .aReg (fB w)]
    make := fun w => .hst (hdr w) { ty := rty w, px := fPX w, d := opd (fD w), mem := mem w } }

/-- `HREL`, `CFLUSH`: the scope of `CFLUSH` is its extent (R166, R199). -/
def rowMemO (opc : BitVec 10) (always : Bool) (mk : Hdr → MemO → Instr) : Row :=
  { opc, hasF := false, used := fun _ => [uA, uB, uORD, uSCP, uSH, uX32]
    fields := fun w => [scFld w, scpFld always w, ordFld ordSt w]
    opnds := fun w => [chk 2 .aReg (fA w), chk 3 .aReg (fB w)]
    make := fun w => mk (hdr w) { ord := ordOf (fORD w), scp := scp w, mem := mem w } }

def rowAddd : Row :=
  { opc := 0x18F, hasF := false, used := fun _ => [uD, uA, uB, uSH, uTY, uAOP, uX32]
    fields := fun w => [opFld 43 (fAOP w) adddOk (tyOf (fTY w)), tyFld (someOp adddOk) w, scFld w]
    opnds := fun w => [chk 1 (memDat (rty w)) (fD w), chk 2 .aReg (fA w), chk 3 .aReg (fB w)]
    make := fun w => .addd (hdr w) { op := rop w, ty := rty w, d := opd (fD w), mem := mem w } }

def rowTalloc : Row :=
  { opc := 0x200, used := fun _ => [uD, uA, (64, 6)]
    fields := fun w => [(64, fmtOk (fld w 64 6))]
    opnds := fun w => [chk 1 .sDst (fD w), chk 2 .sSrc (fA w)]
    make := fun w => .talloc (hdr w) (fld w 64 6) (opd (fD w)) (opd (fA w)) }

def rowTpin : Row :=
  { opc := 0x202, used := fun _ => [uA, uPX, (64, 8)], fields := fun _ => []
    opnds := fun w => [chk 2 .sReg (fA w)]
    make := fun w => .tpin (hdr w) (fPX w) (opd (fA w)) (fld w 64 8) }

def rowTunpin : Row :=
  { opc := 0x203, used := fun _ => [uA, (64, 8)], fields := fun _ => []
    opnds := fun w => [chk 2 .sReg (fA w)]
    make := fun w => .tunpin (hdr w) (opd (fA w)) (fld w 64 8) }

def rowTinfo : Row :=
  { opc := 0x206, used := fun _ => [uD, uA, (64, 2)], fields := fun _ => []
    opnds := fun w => [chk 1 .sDst (fD w), chk 2 .sSrc (fA w)]
    make := fun w => .tinfo (hdr w) (fld w 64 2) (opd (fD w)) (opd (fA w)) }

def rowMldw : Row :=
  { opc := 0x210, hasF := false, used := fun _ => [uD, uA, uETY, (64, 1)]
    fields := fun w => [eTyFld isSbf w]
    opnds := fun w => [chk 1 .sReg (fD w), chk 2 .sReg (fA w)]
    make := fun w => .mldw (hdr w)
      { ty := ty (eTY w), bank := fld w 64 1 == 1, d := opd (fD w), a := opd (fA w), b := .s 0, c := .s 0 } }

/-- `MMA` (R212): an `NP` that no format takes fails also beside a `TY` that is none (R76, R108). -/
def rowMma : Row :=
  { opc := 0x211, hasF := false, used := fun _ => [uD, uA, uB, uEC, uETY, uNP, (64, 2)]
    fields := fun w => [(48, decide (1 ≤ (eNP w).toNat) &&
        decide ((eNP w).toNat ≤ if (eTyFld isSbf w).2 then sbfM (ty (eTY w)) else 10)), eTyFld isSbf w]
    opnds := fun w => [chk 1 .sReg (fD w), chk 2 .sReg (fA w), chk 3 .sReg (fB w), chk 4 .sReg (eC w)]
    make := fun w => .mma (hdr w)
      { ty := ty (eTY w), np := eNP w, init := fld w 64 1 == 1, bank := fld w 65 1 == 1, d := opd (fD w),
        a := opd (fA w), b := opd (fB w), c := opd (eC w) } }

def rowMacc : Row :=
  { opc := 0x212, hasF := false, used := fun _ => [uD, uA, uB, uEC, uETY, (64, 3)]
    fields := fun w => [eTyFld maccTy w, (64, (rmOf (fld w 64 3)).isSome)]
    opnds := fun w => [chk 1 .sReg (fD w), chk 2 .sReg (fA w), chk 3 .sReg (fB w), chk 4 .sSrc (eC w)]
    make := fun w => .macc (hdr w) ((rmOf (fld w 64 3)).getD none)
      { ty := ty (eTY w), d := opd (fD w), a := opd (fA w), b := opd (fB w), c := opd (eC w) } }

def rowMcvt : Row :=
  { opc := 0x213, hasF := false, used := fun _ => [uD, uA, uB, uEC, uETY, uNP]
    fields := fun w => [eTyFld isSbf w]
    opnds := fun w => [chk 1 .sReg (fD w), chk 2 .sReg (fA w), chk 3 .sReg (fB w), chk 4 .sSrc (eC w)]
    make := fun w => .mcvt (hdr w)
      { ty := ty (eTY w), np := eNP w, d := opd (fD w), a := opd (fA w), b := opd (fB w), c := opd (eC w) } }

def rowMqry : Row :=
  { opc := 0x214, used := fun _ => [uD, (64, 4)]
    fields := fun w => [(64, decide ((fld w 64 4).toNat < 8))]
    opnds := fun w => [chk 1 .sDst (fD w)]
    make := fun w => .mqry (hdr w) (fld w 64 3) (opd (fD w)) }

/-- The stream instructions (R229). -/
def rowStrm (opc : BitVec 10) (p : Ty → Bool) (mk : Hdr → Strm → Instr) : Row :=
  { opc, used := fun _ => [uD, uA, uB, uC, uTY]
    fields := fun w => [tyFld p w]
    opnds := fun w => [chk 1 .sDst (fD w), chk 2 .list (fA w), chk 3 .list (fB w), chk 4 .list (fC w)]
    make := fun w => mk (hdr w) { ty := rty w, d := opd (fD w), a := opd (fA w), b := opd (fB w), c := opd (fC w) } }

def rowSintc : Row :=
  { opc := 0x281, used := fun _ => [uD, uA, uB, uTY]
    fields := fun w => [tyFld setTy w]
    opnds := fun w => [chk 1 .sDst (fD w), chk 2 .list (fA w), chk 3 .list (fB w)]
    make := fun w => .sintc (hdr w) { ty := rty w, d := opd (fD w), a := opd (fA w), b := opd (fB w), c := .s 0 } }

def rowScmp : Row :=
  { opc := 0x286, used := fun _ => [uD, uA, uB, uC, uTY, (64, 1)]
    fields := fun w => [tyFld isRaw64 w]
    opnds := fun w => [chk 1 .sDst (fD w), chk 2 .list (fA w),
      chk 3 (if fld w 64 1 == 1 then .zeroOnly else .list) (fB w), chk 4 .list (fC w)]
    make := fun w => .scmp (hdr w) (fld w 64 1 == 1)
      { ty := rty w, d := opd (fD w), a := opd (fA w), b := opd (fB w), c := opd (fC w) } }

/-- `CLD`, `CST` (R241). DEDUCED (log 97): they take the types of `LD` and `ST`, as R241 says (R210 of `TLDE`, `TSTE`), where R67
names only `LD` and `ST`. -/
def rowVol (opc : BitVec 10) (o : Ord → Bool) (d : Ty → Role) (mk : Hdr → Vol → Instr) : Row :=
  { opc, hasF := false, used := fun _ => [uD, uA, uB, uORD, uSCP, uTY, uX32]
    fields := fun w => [tyFld ldTy w, scpFld false w, ordFld o w]
    opnds := fun w => [chk 1 (d (rty w)) (fD w), chk 2 .aReg (fA w), chk 3 .list (fB w)]
    make := fun w => mk (hdr w)
      { ty := rty w, ord := ordOf (fORD w), scp := scp w, d := opd (fD w), base := opd (fA w), disp := fImm w,
        b := opd (fB w) } }

def rowCamo : Row :=
  { opc := 0x292, hasF := false, used := fun _ => [uD, uA, uB, uORD, uSCP, uFAR, uTY, uAOP, uX32]
    fields := fun w => [opFld 43 (fAOP w) amoOk (tyOf (fTY w)), tyFld (someOp amoOk) w, scpFld false w]
    opnds := fun w => [chk 1 (memDst (rty w)) (fD w), chk 2 .aReg (fA w), chk 3 .list (fB w)]
    make := fun w => .camo (hdr w)
      { op := rop w, ty := rty w, ord := ordOf (fORD w), scp := scp w, far := fFAR w, d := opd (fD w),
        base := opd (fA w), disp := fImm w, b := opd (fB w) } }

def rowCprb : Row :=
  { opc := 0x293, hasF := false, used := fun _ => [uD, uA, uB, uX32], fields := fun _ => []
    opnds := fun w => [chk 1 .sDst (fD w), chk 2 .aReg (fA w), chk 3 .list (fB w)]
    make := fun w => .cprb (hdr w) (opd (fD w)) (opd (fA w)) (fImm w) (opd (fB w)) }

def rowClbinv : Row :=
  { opc := 0x294, hasF := false, used := fun _ => [uD, uA, uB, uSCP, uX32]
    fields := fun w => [scpFld true w]
    opnds := fun w => [chk 1 .vSrc (fD w), chk 2 .aReg (fA w), chk 3 .list (fB w)]
    make := fun w => .clbinv (hdr w) (scp w) (opd (fD w)) (opd (fA w)) (fImm w) (opd (fB w)) }

/-- `QPOP`, `QPSH` (R241). -/
def rowQuarry (opc : BitVec 10) (d : Role) (mk : Hdr → Opd → Opd → BitVec 32 → Instr) : Row :=
  { opc, hasF := false, used := fun _ => [uD, uA, uX32], fields := fun _ => []
    opnds := fun w => [chk 1 d (fD w), chk 2 .aReg (fA w)]
    make := fun w => mk (hdr w) (opd (fD w)) (opd (fA w)) (fImm w) }

/-- `CPY`, `CRED` (R249). -/
def rowCpy : Row :=
  { opc := 0x2A0, hasF := false, used := fun _ => [uD, uA, uB], fields := fun _ => []
    opnds := fun w => [chk 1 .sReg (fD w), chk 2 .sReg (fA w), chk 3 .sReg (fB w)]
    make := fun w => .cpy (hdr w)
      { op := .add, ty := .b64, d := opd (fD w), a := opd (fA w), b := opd (fB w), c := .s 0 } }

def rowCred : Row :=
  { opc := 0x2A1, hasF := false, used := fun _ => [uD, uA, uB, uETY, uEOP]
    fields := fun w => [opFld 44 (eEOP w) redOk (tyOf (eTY w)), eTyFld (someOp redOk) w]
    opnds := fun w => [chk 1 .sReg (fD w), chk 2 .sReg (fA w), chk 3 .sReg (fB w)]
    make := fun w => .cred (hdr w)
      { op := (opOf (eEOP w)).getD .add, ty := ty (eTY w), d := opd (fD w), a := opd (fA w), b := opd (fB w),
        c := .s 0 } }

def rowXcpy : Row :=
  { opc := 0x2A2, hasF := false, used := fun _ => [uD, uA, uB, uEC, uX32], fields := fun _ => []
    opnds := fun w => [chk 1 .sReg (fD w), chk 2 .sReg (fA w), chk 3 .sReg (fB w), chk 4 .sSrc (eC w)]
    make := fun w => .xcpy (hdr w)
      { op := .add, ty := .b64, sig := fImm w, d := opd (fD w), a := opd (fA w), b := opd (fB w), c := opd (eC w) } }

def rowXred : Row :=
  { opc := 0x2A3, hasF := false, used := fun _ => [uD, uA, uB, uEC, uETY, uEOP, uX32]
    fields := fun w => [opFld 44 (eEOP w) redOk (tyOf (eTY w)), eTyFld (someOp redOk) w]
    opnds := fun w => [chk 1 .sReg (fD w), chk 2 .sReg (fA w), chk 3 .sReg (fB w), chk 4 .sSrc (eC w)]
    make := fun w => .xred (hdr w)
      { op := (opOf (eEOP w)).getD .add, ty := ty (eTY w), sig := fImm w, d := opd (fD w), a := opd (fA w),
        b := opd (fB w), c := opd (eC w) } }

def rowRfence : Row :=
  { opc := 0x2A4, hasF := false, used := fun _ => [uA, uSCP, uX32]
    fields := fun w => [scpFld true w]
    opnds := fun w => [chk 2 .aReg (fA w)]
    make := fun w => .rfence (hdr w) (scp w) (opd (fA w)) (fImm w) }

def rowSpawn : Row :=
  { opc := 0x300, hasF := false, used := fun _ => [uD, (40, 56)], fields := fun _ => []
    opnds := fun w => [chk 1 .sDst (fD w), range (sbenchOk (fld w 40 10))]
    make := fun w => .spawn (hdr w)
      { d := opd (fD w), edisp := fImm w, vcopy := fld w 60 4, scopy := fld w 56 4, rad := fld w 50 6,
        sbench := fld w 40 10 } }

def rowMove : Row :=
  { opc := 0x305, hasF := false, used := fun _ => [(40, 16)], fields := fun _ => []
    opnds := fun w => [range (sbenchOk (fld w 40 10))]
    make := fun w => .move (hdr w) (fld w 50 6) (fld w 40 10) }

def rowBar : Row :=
  { opc := 0x303, used := fun _ => [uD, uA, uX32], fields := fun _ => []
    opnds := fun w => [chk 1 .sDst (fD w), chk 2 .sReg (fA w)]
    make := fun w => .bar (hdr w) (opd (fD w)) (opd (fA w)) (fImm w) }

/-- `SYS`, `TRAP`: IMM32[31:24] is an operand limit (R257). -/
def rowSys (opc : BitVec 10) (mk : Hdr → Opd → BitVec 24 → Instr) : Row :=
  { opc, used := fun _ => [uA, uX32], fields := fun _ => []
    opnds := fun w => [chk 2 .sSrc (fA w), range (fld w 88 8 == 0)]
    make := fun w => mk (hdr w) (opd (fA w)) (fld w 64 24) }

def rowBrk : Row :=
  { opc := 0x308, used := fun _ => [uX32], fields := fun _ => []
    opnds := fun w => [range (fld w 88 8 == 0)], make := fun w => .brk (hdr w) (fld w 64 24) }

def csrRange (w : IWord) : BitVec 8 × Option (BitVec 8) :=
  range (fld w 76 20 == 0 && csrNums.contains (fld w 64 12).toNat)

def rowCsrr : Row :=
  { opc := 0x30A, used := fun _ => [uD, uX32], fields := fun _ => []
    opnds := fun w => [chk 1 .sDst (fD w), csrRange w]
    make := fun w => .csrr (hdr w) (opd (fD w)) (fld w 64 12) }

def rowCsrw : Row :=
  { opc := 0x30B, used := fun _ => [uA, uX32], fields := fun _ => []
    opnds := fun w => [chk 2 .sSrc (fA w), csrRange w]
    make := fun w => .csrw (hdr w) (opd (fA w)) (fld w 64 12) }

def rowCtxr : Row :=
  { opc := 0x30C, used := fun _ => [uD, uA, (64, 5)], fields := fun _ => []
    opnds := fun w => [chk 1 .sDst (fD w), chk 2 .sSrc (fA w)]
    make := fun w => .ctxr (hdr w) (opd (fD w)) (opd (fA w)) (fld w 64 5) }

def rowCtxw : Row :=
  { opc := 0x30D, used := fun _ => [uA, uB, (64, 5)], fields := fun _ => []
    opnds := fun w => [chk 2 .sSrc (fA w), chk 3 .sSrc (fB w)]
    make := fun w => .ctxw (hdr w) (opd (fA w)) (opd (fB w)) (fld w 64 5) }

/-- Group 000 (R72). -/
def rows000 : List Row :=
  [rowAlu2 0x001 arith128 .add, rowAlu2 0x002 arith128 .sub, rowCarry 0x003 .addx, rowCarry 0x004 .subx,
   rowAlu2 0x005 arith64 .mul, rowAlu2 0x006 arith64 .mulh, rowAlu2 0x007 arith64 .div,
   rowAlu2 0x008 arith64 .rem, rowAlu2 0x009 isRaw .and, rowAlu2 0x00A isRaw .or, rowAlu2 0x00B isRaw .xor,
   rowAlu2 0x00C isRaw .andn, rowAlu2 0x00D isRaw .orn, rowAlu2 0x00E isRaw64 .shl, rowAlu2 0x00F isRaw64 .shr,
   rowAlu2 0x010 isRaw64 .sar, rowAlu2 0x011 isRaw64 .rol, rowAlu2 0x012 isRaw64 .ror,
   rowAlu1 0x013 isRaw64 .clz, rowAlu1 0x014 isRaw64 .ctz, rowAlu1 0x015 isRaw64 .popc,
   rowAlu1 0x016 isRaw64 .brev, rowAlu1 0x017 swapTy .bswap, rowAlu2 0x018 isInt .min, rowAlu2 0x019 isInt .max,
   rowAlu1 0x01A isSigned .abs, rowExt 0x01B .sext, rowExt 0x01C .zext, rowBfx, rowBfi, rowSel, rowMov, rowLi,
   rowLea, rowCmp]

/-- Group 001 (R72). -/
def rows001 : List Row :=
  [rowPlog, rowPmov, rowB 0x082 .br, rowA 0x083 .sReg .jmp, rowB 0x084 .call, rowA 0x085 .sReg .callr,
   row0 0x086 .ret, rowDbnz, row0 0x088 .nop]

/-- Group 010 (R72). -/
def rows010 : List Row :=
  [rowFlt2 0x100 .fadd, rowFlt2 0x101 .fsub, rowFlt2 0x102 .fmul, rowFlt3 0x103 .fma, rowFlt3 0x104 .fnma,
   rowFlt2 0x105 .fdiv, rowFsqrt, rowFmin 0x107 .fmin, rowFmin 0x108 .fmax, rowFsgn, rowFcmp, rowFclass,
   rowCvt 0x10C isFloat isFloat .fcvt, rowCvt 0x10D isFloat cvtInt .fcvi, rowCvt 0x10E cvtInt isFloat .icvf,
   rowFrnd, rowShuf, rowLane2 0x111 vextTy .sDst .vSrc .vext, rowLane2 0x112 isRaw64 .vDst .sSrc .vins, rowVbc,
   rowVred 0x114 .sDst .vred, rowVdot, rowVmsk, rowVred 0x117 .vDst .vscan]

/-- Group 011 (R72). -/
def rows011 : List Row :=
  [rowLdSt 0x180 ordLd memDst .ld, rowLdSt 0x181 ordSt memDat .st, rowAmo, rowCas 0x183 casTy .cas,
   rowCas 0x184 isB128 .cas2, rowFence, rowSync 0x186 .mDst .lde, rowSync 0x187 .mDst .ldc,
   rowSync 0x188 .mDat .stf, rowSync 0x189 .mDat .sts, rowSfe, rowSync 0x18B .mDst .qfe,
   rowMemT 0x18C holdTy memDst .hold, rowHst, rowMemO 0x18E false .hrel, rowAddd, rowMemO 0x190 true .cflush]

/-- Group 100 (R72). -/
def rows100 : List Row :=
  [rowTalloc, rowA 0x201 .sReg .tfree, rowTpin, rowTunpin, rowMemT 0x204 ldTy memDst .tlde,
   rowMemT 0x205 ldTy memDat .tste, rowTinfo, rowMldw, rowMma, rowMacc, rowMcvt, rowMqry]

/-- Group 101 (R72). -/
def rows101 : List Row :=
  [rowStrm 0x280 setTy .sint, rowSintc, rowStrm 0x282 setTy .smrg, rowStrm 0x283 setTy .sdiff,
   rowStrm 0x284 isRaw64 .sgath, rowStrm 0x285 scatTy .sscat, rowScmp, rowVol 0x290 ordLd memDst .cld,
   rowVol 0x291 ordSt memDat .cst, rowCamo, rowCprb, rowClbinv, rowQuarry 0x295 .sDst .qpop,
   rowQuarry 0x296 .sSrc .qpsh, rowCpy, rowCred, rowXcpy, rowXred, rowRfence]

/-- Group 110 (R72). -/
def rows110 : List Row :=
  [rowSpawn, row0 0x301 .exit, row0 0x302 .yield, rowBar, rowD 0x304 .whereIu, rowMove, rowSys 0x306 .sys,
   rowSys 0x307 .trap, rowBrk, row0 0x309 .eret, rowCsrr, rowCsrw, rowCtxr, rowCtxw]

/-- The rows of a group: opcode bits 9 to 7 (R49, R72). Group 111 is unassigned (R73). -/
def group (g : Nat) : List Row :=
  match g with
  | 0 => rows000 | 1 => rows001 | 2 => rows010 | 3 => rows011 | 4 => rows100 | 5 => rows101 | 6 => rows110
  | _ => []

/-- The row of an opcode, if it is assigned (R72, R73). -/
def rowOf (opc : BitVec 10) : Option Row := (group (opc.toNat / 128)).find? fun r => r.opc == opc

/-- The bits of a list of fields. -/
def bitsOf (l : List (Nat × Nat)) : IWord :=
  l.foldl (fun m f => m ||| ((BitVec.allOnes f.2).setWidth 96 <<< f.1)) 0

/-- The bits every word uses: opcode, guard, switch marker and hints (R49). -/
def commonBits : IWord := 0x1FFFF

/-- The number of the lowest bit set. -/
def lowestBit (m : IWord) : Option Nat := (List.range 96).find? fun i => m.getLsbD i

/-- Reserved bits of a word that are set (R71). -/
def reservedBits (r : Row) (w : IWord) : IWord := w &&& ~~~(commonBits ||| bitsOf (r.used (fF w)))

/-- The first failing operand check. -/
def firstRefusal (l : List (BitVec 8 × Option (BitVec 8))) : Option (BitVec 8 × BitVec 8) :=
  l.findSome? fun x => x.2.map fun r => (r, x.1)

/-- Decoding of one word: the instruction, or why it is illegal (R75 steps 2 to 7). -/
def decode (w : IWord) : Except Illegal Instr :=
  if fOpc w = 0 then .error (illegalInstr 0x01 0)
  else match rowOf (fOpc w) with
    | none => .error (illegalInstr 0x02 0)
    | some r =>
      if r.hasF && fF w && !r.ri then .error (illegalInstr 0x03 0)
      else match lowestBit (reservedBits r w) with
        | some i => .error (illegalInstr 0x04 i)
        | none =>
          match (r.fields w).find? fun f => !f.2 with
          | some f => .error (illegalInstr 0x05 f.1)
          | none =>
            match firstRefusal (r.opnds w) with
            | some x => .error (illegalOpnd x.1 x.2)
            | none => .ok (r.make w)

/-- The word of the 12 bytes of an instruction, first byte lowest (R48). -/
def wordOfBytes (l : List Byte) : IWord :=
  l.reverse.foldl (fun acc b => (acc <<< 8) ||| b.setWidth 96) 0

/-- The 12 bytes of a word in memory order (R48). -/
def bytesOfWord (w : IWord) : List Byte := (List.range 12).map fun i => w.extractLsb' (8 * i) 8

/-- Decoding of any list of bytes: the instruction and the bytes after it, or why it is refused; fewer than
12 bytes are no instruction (R48). -/
def decodeBytes (l : List Byte) : Except (Option Illegal) (Instr × List Byte) :=
  if l.length < 12 then .error none
  else match decode (wordOfBytes (l.take 12)) with
    | .ok i => .ok (i, l.drop 12)
    | .error e => .error (some e)

/-! The encoder. -/

/-- The low 40 bits (R49). -/
def low (opc : BitVec 10) (h : Hdr) (d a b : BitVec 7) : BitVec 40 :=
  b ++ a ++ d ++ (0 : BitVec 2) ++ bit h.lh ++ bit h.yp ++ bit h.w ++ bit h.n ++ h.g ++ opc

/-- `X` of classes R and I (R57). -/
def xR (px : BitVec 3) (ty : BitVec 5) (sh f3 : BitVec 3) (f : Bool) (c : BitVec 7) (aux : BitVec 32) :
    BitVec 56 :=
  aux ++ bit f ++ (0 : BitVec 2) ++ f3 ++ sh ++ ty ++ px ++ c

/-- `X` of class M (R65). -/
def xM (ord scp : BitVec 2) (far nt : Bool) (sc : BitVec 3) (ty : BitVec 5) (px : BitVec 3) (aop : BitVec 4)
    (disp : BitVec 32) : BitVec 56 :=
  disp ++ ord ++ scp ++ bit far ++ bit nt ++ sc ++ ty ++ px ++ aop ++ (0 : BitVec 3)

/-- `X` of class E (R70). -/
def xE (c : BitVec 7) (ty : BitVec 5) (np eop : BitVec 4) (eimm : BitVec 32) : BitVec 56 :=
  eimm ++ c ++ ty ++ np ++ eop ++ (0 : BitVec 4)

/-- A class R or I word. -/
def wR (opc : BitVec 10) (h : Hdr) (d a b c : BitVec 7) (px : BitVec 3) (ty : BitVec 5) (sh f3 : BitVec 3)
    (f : Bool) (aux : BitVec 32) : IWord :=
  xR px ty sh f3 f c aux ++ low opc h d a b

/-- A class M word. -/
def wM (opc : BitVec 10) (h : Hdr) (d a b : BitVec 7) (ord scp : BitVec 2) (far nt : Bool) (sc : BitVec 3)
    (ty : BitVec 5) (px : BitVec 3) (aop : BitVec 4) (disp : BitVec 32) : IWord :=
  xM ord scp far nt sc ty px aop disp ++ low opc h d a b

/-- A class E word. -/
def wE (opc : BitVec 10) (h : Hdr) (d a b c : BitVec 7) (ty : BitVec 5) (np eop : BitVec 4) (eimm : BitVec 32) :
    IWord :=
  xE c ty np eop eimm ++ low opc h d a b

/-- A class B word. -/
def wB (opc : BitVec 10) (h : Hdr) (d : BitVec 7) (disp : BitVec 32) : IWord :=
  (disp ++ (0 : BitVec 24)) ++ low opc h d 0 0

/-- The code of B, whether it is replaced, and the immediate that replaces it (R62). -/
def srcCode : Src → BitVec 7 × Bool × BitVec 32
  | .opd o => (opdCode o, false, 0)
  | .imm32 v => (0, true, v)

def eAlu2 (opc : BitVec 10) (h : Hdr) (x : Alu2) (f3 : BitVec 3) (px : BitVec 3) : IWord :=
  let b := srcCode x.b
  wR opc h (opdCode x.d) (opdCode x.a) b.1 0 px (tyCode x.ty) (shCode x.sh) f3 b.2.1 b.2.2

def eAlu1 (opc : BitVec 10) (h : Hdr) (x : Alu1) (aux : BitVec 32) : IWord :=
  wR opc h (opdCode x.d) (opdCode x.a) 0 0 0 (tyCode x.ty) (shCode x.sh) 0 false aux

def eAluX (opc : BitVec 10) (h : Hdr) (x : AluX) : IWord :=
  eAlu2 opc h { ty := x.ty, sh := x.sh, d := x.d, a := x.a, b := x.b } 0 x.px

def eFlt3 (opc : BitVec 10) (h : Hdr) (x : Flt3) : IWord :=
  wR opc h (opdCode x.d) (opdCode x.a) (opdCode x.b) (opdCode x.c) 0 (tyCode x.ty) (shCode x.sh) (rmCode x.rm)
    false 0

def eFlt2 (opc : BitVec 10) (h : Hdr) (x : Flt2) : IWord :=
  wR opc h (opdCode x.d) (opdCode x.a) (opdCode x.b) 0 0 (tyCode x.ty) (shCode x.sh) (rmCode x.rm) false 0

def eVec2 (opc : BitVec 10) (h : Hdr) (x : Vec2) : IWord :=
  wR opc h (opdCode x.d) (opdCode x.a) (opdCode x.b) 0 0 (tyCode x.ty) (shCode x.sh) 0 false 0

def eCvt (opc : BitVec 10) (h : Hdr) (x : Cvt) : IWord :=
  wR opc h (opdCode x.d) (opdCode x.a) 0 0 0 (tyCode x.ty) (shCode x.sh) (rmCode x.rm) false
    ((x.part ++ bit x.dir ++ tyCode x.oty).setWidth 32)

def eVred (opc : BitVec 10) (h : Hdr) (x : Vred) : IWord :=
  wR opc h (opdCode x.d) (opdCode x.a) 0 0 0 (tyCode x.ty) (shCode x.sh) (rmCode x.rm) false
    ((opCode x.op).setWidth 32)

def eD (opc : BitVec 10) (h : Hdr) (d a b : BitVec 7) (aux : BitVec 32) : IWord :=
  wR opc h d a b 0 0 0 0 0 false aux

/-- A class M word of an instruction with base and index. -/
def eMem (opc : BitVec 10) (h : Hdr) (d : BitVec 7) (m : MemOp) (ord : Ord) (scp : Scope) (far nt : Bool)
    (ty : BitVec 5) (px : BitVec 3) (aop : BitVec 4) : IWord :=
  wM opc h d (opdCode m.base) (opdCode m.idx) (ordCode ord) (scpCode scp) far nt m.sh ty px aop m.disp

/-- A class M word of an instruction whose B is data or coordinates. -/
def eBase (opc : BitVec 10) (h : Hdr) (d base b : BitVec 7) (ord : Ord) (scp : Scope) (far : Bool)
    (ty : BitVec 5) (aop : BitVec 4) (disp : BitVec 32) : IWord :=
  wM opc h d base b (ordCode ord) (scpCode scp) far false 0 ty 0 aop disp

def eStrm (opc : BitVec 10) (h : Hdr) (x : Strm) (aux : BitVec 32) : IWord :=
  wR opc h (opdCode x.d) (opdCode x.a) (opdCode x.b) (opdCode x.c) 0 (tyCode x.ty) 0 0 false aux

def eMtx (opc : BitVec 10) (h : Hdr) (x : Mtx) (eimm : BitVec 32) : IWord :=
  wE opc h (opdCode x.d) (opdCode x.a) (opdCode x.b) (opdCode x.c) (tyCode x.ty) x.np 0 eimm

def eCpy (opc : BitVec 10) (h : Hdr) (x : Cpy) : IWord :=
  wE opc h (opdCode x.d) (opdCode x.a) (opdCode x.b) (opdCode x.c) (tyCode x.ty) 0 (opCode x.op) x.sig

/-- Positions of a bitfield in `AUX` (R132). -/
def auxPosLen (pos len : BitVec 7) : BitVec 32 := (len ++ (0 : BitVec 1) ++ pos).setWidth 32

/-- The word of an instruction; 0 for a row that has no encoding. -/
def encode : Instr → IWord
  | .add h x => eAlu2 0x001 h x 0 0
  | .sub h x => eAlu2 0x002 h x 0 0
  | .addx h x => eAluX 0x003 h x
  | .subx h x => eAluX 0x004 h x
  | .mul h x => eAlu2 0x005 h x 0 0
  | .mulh h x => eAlu2 0x006 h x 0 0
  | .div h x => eAlu2 0x007 h x 0 0
  | .rem h x => eAlu2 0x008 h x 0 0
  | .and h x => eAlu2 0x009 h x 0 0
  | .or h x => eAlu2 0x00A h x 0 0
  | .xor h x => eAlu2 0x00B h x 0 0
  | .andn h x => eAlu2 0x00C h x 0 0
  | .orn h x => eAlu2 0x00D h x 0 0
  | .shl h x => eAlu2 0x00E h x 0 0
  | .shr h x => eAlu2 0x00F h x 0 0
  | .sar h x => eAlu2 0x010 h x 0 0
  | .rol h x => eAlu2 0x011 h x 0 0
  | .ror h x => eAlu2 0x012 h x 0 0
  | .clz h x => eAlu1 0x013 h x 0
  | .ctz h x => eAlu1 0x014 h x 0
  | .popc h x => eAlu1 0x015 h x 0
  | .brev h x => eAlu1 0x016 h x 0
  | .bswap h x => eAlu1 0x017 h x 0
  | .min h x => eAlu2 0x018 h x 0 0
  | .max h x => eAlu2 0x019 h x 0 0
  | .abs h x => eAlu1 0x01A h x 0
  | .sext h x => eAlu1 0x01B h { ty := x.ty, sh := x.sh, d := x.d, a := x.a } (x.nb.setWidth 32)
  | .zext h x => eAlu1 0x01C h { ty := x.ty, sh := x.sh, d := x.d, a := x.a } (x.nb.setWidth 32)
  | .bfx h x => eAlu1 0x01D h { ty := x.ty, sh := x.sh, d := x.d, a := x.a } (auxPosLen x.pos x.len)
  | .bfi h x => wR 0x01E h (opdCode x.d) (opdCode x.a) (opdCode x.b) 0 0 (tyCode x.ty) (shCode x.sh) 0 false
      (auxPosLen x.pos x.len)
  | .sel h x => eAluX 0x01F h x
  | .mov h x =>
      let a := srcCode x.a
      wR 0x020 h (opdCode x.d) a.1 0 0 0 (tyCode x.ty) (shCode x.sh) 0 a.2.1 a.2.2
  | .li h d imm => imm ++ low 0x021 h (opdCode d) 0 0
  | .lea h x => eMem 0x022 h (opdCode x.d) x.mem .rlx .dev false false 0 0 0
  | .cmp h x => eAlu2 0x023 h { ty := x.ty, sh := x.sh, d := x.d, a := x.a, b := x.b } (condCode x.cond) 0
  | .plog h d a b c tt => wR 0x080 h (opdCode (.p d)) (opdCode (.p a)) (opdCode (.p b)) (opdCode (.p c)) 0 0 0 0
      false (tt.setWidth 32)
  | .pmovGet h d => eD 0x081 h (opdCode d) 0 0 0
  | .pmovSet h a pm => eD 0x081 h 0 (opdCode a) 0 (((1 : BitVec 1) ++ pm ++ (0 : BitVec 1)).setWidth 32)
  | .br h disp => wB 0x082 h 0 disp
  | .jmp h a => eD 0x083 h 0 (opdCode a) 0 0
  | .call h disp => wB 0x084 h 0 disp
  | .callr h a => eD 0x085 h 0 (opdCode a) 0 0
  | .ret h => eD 0x086 h 0 0 0 0
  | .dbnz h d disp => wB 0x087 h (opdCode d) disp
  | .nop h => eD 0x088 h 0 0 0 0
  | .fadd h x => eFlt2 0x100 h x
  | .fsub h x => eFlt2 0x101 h x
  | .fmul h x => eFlt2 0x102 h x
  | .fma h x => eFlt3 0x103 h x
  | .fnma h x => eFlt3 0x104 h x
  | .fdiv h x => eFlt2 0x105 h x
  | .fsqrt h x => wR 0x106 h (opdCode x.d) (opdCode x.a) 0 0 0 (tyCode x.ty) (shCode x.sh) (rmCode x.rm) false 0
  | .fmin h x => eVec2 0x107 h x
  | .fmax h x => eVec2 0x108 h x
  | .fsgn h x => wR 0x109 h (opdCode x.d) (opdCode x.a) (opdCode x.b) 0 0 (tyCode x.ty) (shCode x.sh) 0 false
      ((sgnCode x.op).setWidth 32)
  | .fcmp h x => wR 0x10A h (opdCode x.d) (opdCode x.a) (opdCode x.b) 0 0 (tyCode x.ty) (shCode x.sh)
      (fcondCode x.cond) false 0
  | .fclass h x => eAlu1 0x10B h x 0
  | .fcvt h x => eCvt 0x10C h x
  | .fcvi h x => eCvt 0x10D h x
  | .icvf h x => eCvt 0x10E h x
  | .frnd h x => wR 0x10F h (opdCode x.d) (opdCode x.a) 0 0 0 (tyCode x.ty) (shCode x.sh) (rmCode x.rm) false
      ((bit x.nx).setWidth 32)
  | .shuf h x => wR 0x110 h (opdCode x.d) (opdCode x.a) (opdCode x.b) (opdCode x.c) 0 (tyCode x.ty) (shCode x.sh) 0
      false 0
  | .vext h x => eVec2 0x111 h x
  | .vins h x => eVec2 0x112 h x
  | .vbc h x => eAlu1 0x113 h x 0
  | .vred h x => eVred 0x114 h x
  | .vdot h x => eFlt3 0x115 h x
  | .vmskGet h x => eAlu1 0x116 h x 0
  | .vmskSet h x => eAlu1 0x116 h x 1
  | .vmskAny h x => eAlu1 0x116 h x 2
  | .vmskAll h x => eAlu1 0x116 h x 3
  | .vscan h x => eVred 0x117 h x
  | .ld h x => eMem 0x180 h (opdCode x.d) x.mem x.ord x.scp false x.nt (tyCode x.ty) 0 0
  | .st h x => eMem 0x181 h (opdCode x.d) x.mem x.ord x.scp false x.nt (tyCode x.ty) 0 0
  | .amo h x => eMem 0x182 h (opdCode x.d) x.mem x.ord x.scp x.far false (tyCode x.ty) 0 (opCode x.op)
  | .cas h x => eBase 0x183 h (opdCode x.d) (opdCode x.base) (opdCode x.b) x.ord x.scp x.far (tyCode x.ty) 0 x.disp
  | .cas2 h x => eBase 0x184 h (opdCode x.d) (opdCode x.base) (opdCode x.b) x.ord x.scp x.far (tyCode x.ty) 0 x.disp
  | .fence h o s => wM 0x185 h 0 0 0 (ordCode o) (scpCode s) false false 0 0 0 0 0
  | .lde h x => eMem 0x186 h (opdCode x.d) x.mem .rlx .dev false false 0 0 0
  | .ldc h x => eMem 0x187 h (opdCode x.d) x.mem .rlx .dev false false 0 0 0
  | .stf h x => eMem 0x188 h (opdCode x.d) x.mem .rlx .dev false false 0 0 0
  | .sts h x => eMem 0x189 h (opdCode x.d) x.mem .rlx .dev false false 0 0 0
  | .sfe h m => eMem 0x18A h 0 m .rlx .dev false false 0 0 0
  | .qfe h x => eMem 0x18B h (opdCode x.d) x.mem .rlx .dev false false 0 0 0
  | .hold h x => eMem 0x18C h (opdCode x.d) x.mem .rlx .dev false false (tyCode x.ty) 0 0
  | .hst h x => eMem 0x18D h (opdCode x.d) x.mem .rlx .dev false false (tyCode x.ty) x.px 0
  | .hrel h x => eMem 0x18E h 0 x.mem x.ord x.scp false false 0 0 0
  | .addd h x => eMem 0x18F h (opdCode x.d) x.mem .rlx .dev false false (tyCode x.ty) 0 (opCode x.op)
  | .cflush h x => eMem 0x190 h 0 x.mem x.ord x.scp false false 0 0 0
  | .talloc h f d a => eD 0x200 h (opdCode d) (opdCode a) 0 (f.setWidth 32)
  | .tfree h a => eD 0x201 h 0 (opdCode a) 0 0
  | .tpin h px a m => wR 0x202 h 0 (opdCode a) 0 0 px 0 0 0 false (m.setWidth 32)
  | .tunpin h a m => eD 0x203 h 0 (opdCode a) 0 (m.setWidth 32)
  | .tlde h x => eMem 0x204 h (opdCode x.d) x.mem .rlx .dev false false (tyCode x.ty) 0 0
  | .tste h x => eMem 0x205 h (opdCode x.d) x.mem .rlx .dev false false (tyCode x.ty) 0 0
  | .tinfo h n d a => eD 0x206 h (opdCode d) (opdCode a) 0 (n.setWidth 32)
  | .mldw h x => eMtx 0x210 h x ((bit x.bank).setWidth 32)
  | .mma h x => eMtx 0x211 h x ((bit x.bank ++ bit x.init).setWidth 32)
  | .macc h rm x => eMtx 0x212 h x ((rmCode rm).setWidth 32)
  | .mcvt h x => eMtx 0x213 h x 0
  | .mqry h sel d => eD 0x214 h (opdCode d) 0 0 (sel.setWidth 32)
  | .sint h x => eStrm 0x280 h x 0
  | .sintc h x => eStrm 0x281 h x 0
  | .smrg h x => eStrm 0x282 h x 0
  | .sdiff h x => eStrm 0x283 h x 0
  | .sgath h x => eStrm 0x284 h x 0
  | .sscat h x => eStrm 0x285 h x 0
  | .scmp h nz x => eStrm 0x286 h x ((bit nz).setWidth 32)
  | .cld h x => eBase 0x290 h (opdCode x.d) (opdCode x.base) (opdCode x.b) x.ord x.scp false (tyCode x.ty) 0 x.disp
  | .cst h x => eBase 0x291 h (opdCode x.d) (opdCode x.base) (opdCode x.b) x.ord x.scp false (tyCode x.ty) 0 x.disp
  | .camo h x => eBase 0x292 h (opdCode x.d) (opdCode x.base) (opdCode x.b) x.ord x.scp x.far (tyCode x.ty)
      (opCode x.op) x.disp
  | .cprb h d base disp b => eBase 0x293 h (opdCode d) (opdCode base) (opdCode b) .rlx .dev false 0 0 disp
  | .clbinv h s d base disp b => eBase 0x294 h (opdCode d) (opdCode base) (opdCode b) .rlx s false 0 0 disp
  | .qpop h d base disp => eBase 0x295 h (opdCode d) (opdCode base) 0 .rlx .dev false 0 0 disp
  | .qpsh h d base disp => eBase 0x296 h (opdCode d) (opdCode base) 0 .rlx .dev false 0 0 disp
  | .cpy h x => eCpy 0x2A0 h x
  | .cred h x => eCpy 0x2A1 h x
  | .xcpy h x => eCpy 0x2A2 h x
  | .xred h x => eCpy 0x2A3 h x
  | .rfence h s base disp => eBase 0x2A4 h 0 (opdCode base) 0 .rlx s false 0 0 disp
  | .spawn h x => (x.edisp ++ x.vcopy ++ x.scopy ++ x.rad ++ x.sbench) ++ low 0x300 h (opdCode x.d) 0 0
  | .exit h => eD 0x301 h 0 0 0 0
  | .yield h => eD 0x302 h 0 0 0 0
  | .bar h d a idx => eD 0x303 h (opdCode d) (opdCode a) 0 idx
  | .whereIu h d => eD 0x304 h (opdCode d) 0 0 0
  | .move h rad b => ((0 : BitVec 40) ++ rad ++ b) ++ low 0x305 h 0 0 0
  | .sys h a c => eD 0x306 h 0 (opdCode a) 0 (c.setWidth 32)
  | .trap h a c => eD 0x307 h 0 (opdCode a) 0 (c.setWidth 32)
  | .brk h c => eD 0x308 h 0 0 0 (c.setWidth 32)
  | .eret h => eD 0x309 h 0 0 0 0
  | .csrr h d c => eD 0x30A h (opdCode d) 0 0 (c.setWidth 32)
  | .csrw h a c => eD 0x30B h 0 (opdCode a) 0 (c.setWidth 32)
  | .ctxr h d a n => eD 0x30C h (opdCode d) (opdCode a) 0 (n.setWidth 32)
  | .ctxw h a b n => eD 0x30D h 0 (opdCode a) (opdCode b) (n.setWidth 32)
  | _ => 0

end Sys2Proof.Decode

namespace Sys2Proof

/-- The instruction that the decoder reads from a word numbered as the opcode table numbers it: bit 0 is the
least significant bit of the first 32-bit word, and an instruction is 12 bytes whatever `nbits` says. -/
def decodeTableWord (nbits w : Nat) : Option Instr :=
  match Decode.decodeBytes (Decode.bytesOfWord (BitVec.ofNat 96 (w % 2 ^ nbits))) with
  | .ok r => some r.1
  | .error _ => none

end Sys2Proof
end

