-- ==== Sys2Proof/Machine/State.lean ====
section
/-! DEFINITION. The state of one Craril X9 as plain data (00_scope, 01_machine_state and the chapters each
structure names). Sparse lists hold what differs from its reset value. -/

namespace Sys2Proof.Machine

/-! Context slots (01_machine_state). -/

/-- A retry record (R31). -/
structure RetryRec where
  valid : Bool := false
  fatal : Bool := false
  str : Bool := false
  rstat : BitVec 5 := 0
  mods : BitVec 24 := 0
  iw0 : W32 := 0
  opnd : BitVec 7 := 0
  va : VAddr := 0
  deriving DecidableEq, Repr

/-- The trap line: the frame in words 0 to 6 and four retry records (R29). -/
structure TrapLine where
  saveW0 : Word
  tw1 : Word
  tval : Word
  iw01 : Word
  iw2 : Word
  saveS2 : Word
  saveS3 : Word
  r0 : RetryRec := {}
  r1 : RetryRec := {}
  r2 : RetryRec := {}
  r3 : RetryRec := {}
  deriving DecidableEq, Repr

/-- The context line (R13 to R19). -/
structure Ctx where
  hact : Bool := false
  frz : Bool := false
  intrap : Bool := false
  dhalt : Bool := false
  step : Bool := false
  sup : Bool := false
  pc : VAddr := 0
  cause : BitVec 8 := 0
  detail : BitVec 24 := 0
  hslot1 : BitVec 4 := 0
  hslot0 : BitVec 4 := 0
  pendv : BitVec 4 := 0
  pends : BitVec 4 := 0
  wkind : BitVec 4 := 0
  outst : BitVec 4 := 0
  p : BitVec 8 := 1
  rm : BitVec 3 := 0
  flags : BitVec 5 := 0
  prio : BitVec 4 := 0
  lslot : BitVec 8 := 0
  ctxid : BitVec 32 := 0
  geo : Word := 0
  s0 : Word := 0
  s1 : Word := 0
  s2 : Word := 0
  s3 : Word := 0
  v0 : Vec := 0
  v1 : Vec := 0
  v2 : Vec := 0
  v3 : Vec := 0
  deriving DecidableEq, Repr

/-- What a thread waits for: it runs, or it is parked for one of the reasons of R325. `limit`, `engq` and
`tile` re-issue the instruction (R75 step 11); the others complete it. -/
inductive Wait where
  | run
  | drain
  | limit
  | engq
  | tile (idx frame : Nat) (iw : IWord)
  | fetch
  | ret
  | fence (ord : Ord) (scp : Scope)
  | bar
  | exit
  | eret
  | move (rad : BitVec 6) (sbench : BitVec 10)
  | transit
  deriving DecidableEq, Repr

/-- A trap that has been detected and waits for `OUTST` = 0 (R33). -/
structure PendTrap where
  cause : BitVec 8
  detail : BitVec 24
  tval : Word
  iw : IWord
  rvalid : Bool
  ridx : BitVec 2
  resume : VAddr
  word0 : Word
  w1lo : BitVec 32
  deriving DecidableEq, Repr

/-- The four places of a context line (R317). -/
inductive Place where
  | cl1 (iu : Nat)
  | cl2
  | llc
  | hbm
  deriving DecidableEq, Repr

/-- A line is in a place, or in transfer to one (R323). -/
inductive Loc where
  | placed (p : Place)
  | moving (p : Place) (b : Nat)
  deriving DecidableEq, Repr

/-- An update of a context line (R26, R46, R353). -/
inductive Upd where
  | result (dst : Opd) (wide : Bool) (v : Vec)
  | ack
  | ret (t : Word)
  | word (n : BitVec 5) (v : Word)
  | record (r : RetryRec) (counts : Bool)
  | clearRec (i : BitVec 2) (counted : Bool)
  | fatalRec (i : BitVec 2) (status : BitVec 5) (va : VAddr)
  deriving DecidableEq, Repr

/-- An entry of a ready list: level, when it was last raised, and the order of joining (R327). -/
structure ReadyEnt where
  level : Nat
  since : Nat
  join : Nat
  deriving DecidableEq, Repr

/-- The walk of a `CST` or `CAMO` that has not issued (R243, R372): when it came to the walker, and while it allocates the tile it is
for, the level and slot where its next piece goes, and the pieces it has cut. -/
structure VolWalk where
  arr : Nat
  va : Nat := 0
  t : Nat := 0
  level : Nat := 0
  slot : Word := 0
  pieces : List Word := []
  deriving DecidableEq, Repr

/-- A thread: its slot, what it waits for, and where its line is (R10, R317, R318); `uid` tells it from others of the same id
(R337), `cancel`: it is to be cancelled (R389). -/
structure Thread where
  key : Key
  uid : Nat := 0
  ctx : Ctx
  trap : TrapLine
  wait : Wait := .run
  pend : Option PendTrap := none
  bench : Nat
  loc : Loc := .placed .cl2
  inbox : List Upd := []
  lastIu : Option (Nat × Nat) := none
  lastIssue : Nat := 0
  lh : Bool := false
  yp : Bool := false
  yielded : Bool := false
  slot : Nat := 0
  ready : Option ReadyEnt := none
  marked : Bool := false
  walkFault : Option (Nat × BitVec 5) := none
  walk : Option VolWalk := none
  cancel : Bool := false
  deriving DecidableEq, Repr

/-! Address spaces. -/

/-- An entry of the tile handle table (R36); `lost` marks frames that a die reset has lost (R403). -/
structure Handle where
  idx : Nat
  v : Bool := false
  busy : Bool := false
  pin : BitVec 8 := 0
  nfr : BitVec 4 := 0
  hbench : BitVec 10 := 0
  hiu : BitVec 8 := 0
  gen : BitVec 16 := 0
  frames : BitVec 40 := 0
  rows : BitVec 16 := 0
  cols : BitVec 16 := 0
  fmt : BitVec 8 := 0
  owner : BitVec 32 := 0
  lost : BitVec 8 := 0
  deriving DecidableEq, Repr

/-- The kinds of engine command (R212, R249). -/
inductive CmdKind where
  | mldw | mma | macc | mcvt | cpy | cred | xcpy | xred
  deriving DecidableEq, Repr

/-- Where a command stands (R214 to R217, R357). -/
inductive CmdState where
  | queued
  | started
  deriving DecidableEq, Repr

/-- A command slot of the engine save area (R357); `id`, `uid`, `status` and `ran` are the model's: which command it is,
whose, whether it is to end with CANCELLED, and whether its signal is sent (log 90). -/
structure CmdSave where
  iu : Nat
  slot : Nat
  state : BitVec 2
  ctx : BitVec 32
  lslot : BitVec 8
  sup : Bool
  tok : Word
  iw : IWord
  mode : BitVec 3
  a : Word
  b : Word
  c : Word
  pos : Word
  id : Nat := 0
  uid : Nat := 0
  status : BitVec 16 := 0
  ran : Bool := false
  deriving DecidableEq, Repr

/-- The kinds of stream instruction (R229). -/
inductive StrmKind where
  | sint | sintc | smrg | sdiff | sgath | sscat | scmp (nz : Bool)
  deriving DecidableEq, Repr

/-- Walk positions and counts of a stream instruction (R232 to R235, R357), and the elements read and not yet
used (R232). -/
structure StrmPos where
  ia : Nat := 0
  ib : Nat := 0
  nout : Nat := 0
  oob : Nat := 0
  keepA : Option Word := none
  keepB : Option Word := none
  deriving DecidableEq, Repr

/-- A stream slot of the engine save area (R357). -/
structure StrmSave where
  bench : Nat
  req : Nat
  pos : StrmPos
  deriving DecidableEq, Repr

/-- An address space: its descriptor (R34), its context pool (R335), its handle table and its engine save
area. -/
structure Space where
  asid : BitVec 16
  ptroot : BitVec 40
  susp : Bool := false
  fpte : BitVec 5 := 0
  ctxbase : BitVec 17
  tvec : BitVec 55
  htbase : BitVec 45
  htsize : BitVec 24
  tback : BitVec 16
  esave : BitVec 45
  limit : BitVec 33
  hwm : BitVec 33 := 1
  free : List (BitVec 32) := []
  live : BitVec 33 := 0
  handles : List Handle := []
  cmdSave : List CmdSave := []
  strmSave : List StrmSave := []
  deriving DecidableEq, Repr

/-! Memory and caches. -/

/-- A physical location: device memory, host memory of either kind, or a byte of a peer's window (R344,
R345). -/
inductive Phys where
  | dev (a : Nat)
  | hostC (a : Nat)
  | hostU (a : Nat)
  | peer (id : BitVec 16) (win : Nat) (off : Nat)
  deriving DecidableEq, Repr

/-- Memory: device, host and tile bytes; the words whose full/empty bit is empty (R38); poisoned lines
(R403, R407). -/
structure Mem where
  dev : List Host.Cell := []
  host : List Host.Cell := []
  tiles : List Host.Cell := []
  empty : List Nat := []
  poison : List Nat := []
  deriving DecidableEq, Repr

/-- A line of a data L1 with its bytes and full/empty bits (R292 to R294). -/
structure L1Line where
  bench : Nat
  iu : Nat
  line : Phys
  data : BitVec 1024
  fe : BitVec 16 := 0xFFFF
  deriving DecidableEq, Repr

/-- A line of an instruction cache with its bytes (R3, R78). -/
structure ILine where
  bench : Nat
  iu : Nat
  line : Phys
  data : BitVec 1024
  deriving DecidableEq, Repr

/-- The states of a bench L2 line other than I (R297). -/
inductive L2State where
  | s | e | m | o | d
  deriving DecidableEq, Repr

/-- A line of a bench L2, or, under the number of the LLC, of a host line there (R297, R304). `data` is what a link-window
line holds (R291); the bytes and full/empty bits of every other line are those of memory (R293). -/
structure L2Line where
  bench : Nat
  line : Phys
  st : L2State
  data : BitVec 1024 := 0
  deriving DecidableEq, Repr

/-- A device line in the LLC (R292). -/
structure LlcLine where
  addr : Nat
  dirty : Bool := false
  deriving DecidableEq, Repr

/-- One partial sum of a D copy (R287). -/
structure DSum where
  bench : Nat
  addr : Phys
  op : AOp
  ty : Ty
  sum : Word
  deriving DecidableEq, Repr

/-- The benches that an entry of the directory records: up to eight exactly, else their compute dies (R298). -/
inductive Sharers where
  | benches (l : List Nat)
  | dies (l : List Nat)
  deriving DecidableEq, Repr

/-- The kinds of directory entry (R298). -/
inductive DirKind where
  | shr (set : Sharers)
  | own (b : Nat)
  | osh (b : Nat) (set : Sharers)
  | del (set : Sharers)
  deriving DecidableEq, Repr

/-- A directory entry: a region of device memory and when a request last touched it (R298, R300). -/
structure DirEnt where
  base : Nat
  size : Nat
  kind : DirKind
  since : Nat
  deriving DecidableEq, Repr

/-- The host states of a line other than HI (R307). -/
inductive HostSt where
  | hs | he
  deriving DecidableEq, Repr

/-- A back-invalidation exchange: the line, whether it invalidates, and the host's answer (R309). -/
structure Bisnp where
  line : Nat
  inv : Bool
  repeated : Bool := false
  deriving DecidableEq, Repr

/-- A copy of a record in a bench record cache (R227). -/
structure RecEnt where
  bench : Nat
  asid : BitVec 16
  va : Nat
  data : BitVec 1024
  deriving DecidableEq, Repr

/-- A CLB entry (R372). -/
structure ClbEnt where
  bench : Nat
  asid : BitVec 16
  recVa : Nat
  t : Nat
  leaf : Word
  deriving DecidableEq, Repr

/-- Caches, directory, host states, record caches, CLBs, bench handle caches and reserves of free indices (R203); `part` is the
LLC context partition in steps, `swaps` when a bench last swapped (R296, R330). -/
structure Cache where
  l1 : List L1Line := []
  icache : List ILine := []
  l2 : List L2Line := []
  llc : List LlcLine := []
  dsums : List DSum := []
  dir : List DirEnt := []
  hostState : List (Nat × HostSt) := []
  bisnp : List Bisnp := []
  recs : List RecEnt := []
  clb : List ClbEnt := []
  handles : List (Nat × BitVec 16 × Nat) := []
  reserve : List (Nat × BitVec 16 × Nat) := []
  gated : List (CacheLevel × Nat) := []
  asked : List Nat := []
  answered : List Nat := []
  part : Nat := 0
  swaps : List (Nat × Nat) := []
  deriving DecidableEq, Repr

/-! Translation (14_faults_translation_preemption). -/

/-- Which TLB an entry is in (R342). -/
inductive TlbAt where
  | data (b u : Nat)
  | instr (b u : Nat)
  | bench (b : Nat)
  deriving DecidableEq, Repr

/-- A cached leaf (R342): the page's virtual base and size, the entry and where it lies. -/
structure TlbEnt where
  loc : TlbAt
  asid : BitVec 16
  base : Nat
  size : Nat
  pte : Word
  pteAddr : Nat
  deriving DecidableEq, Repr

/-- The access kinds of fault messages (R350). -/
structure Kinds where
  r : Bool := false
  w : Bool := false
  f : Bool := false
  deriving DecidableEq, Repr

/-- An entry of a bench fault table (R350). -/
structure BenchFault where
  bench : Nat
  asid : BitVec 16
  page : Nat
  kinds : Kinds
  sent : Bool := false
  deriving DecidableEq, Repr

/-- An entry of a router of the combining tree: die routers 0 to 8, root router 9 (R350). -/
structure RouterEnt where
  router : Nat
  asid : BitVec 16
  page : Nat
  ports : List Nat
  kinds : Kinds
  deriving DecidableEq, Repr

/-- A message at the root core; `src` names the bench of an uncombined one (R350). -/
structure FaultMsg where
  asid : BitVec 16
  page : Nat
  kinds : Kinds
  src : Option Nat
  deriving DecidableEq, Repr

structure Mmu where
  tlb : List TlbEnt := []
  bench : List BenchFault := []
  router : List RouterEnt := []
  inbox : List FaultMsg := []
  reserved : List (Nat × Nat) := []
  deriving DecidableEq, Repr

/-! Requests in flight (07_memory_instructions). -/

/-- What a `SPAWN` request carries (R258). -/
structure SpawnReq where
  entry : VAddr
  scopy : BitVec 4
  vcopy : BitVec 4
  s0 : Word
  s1 : Word
  s2 : Word
  s3 : Word
  v0 : Vec
  v1 : Vec
  v2 : Vec
  v3 : Vec
  rm : BitVec 3
  prio : BitVec 4
  lslot : BitVec 8
  geo : Word
  sup : Bool
  rad : BitVec 6
  sbench : BitVec 10
  deriving DecidableEq, Repr

/-- The operation of a request. -/
inductive ReqOp where
  | ld
  | st
  | amo (op : AOp)
  | cas
  | addd (op : AOp)
  | cflush
  | lde | ldc | stf | sts | sfe | qfe
  | hold (want : Bool)
  | hrel
  | ret
  | tlde (h : Nat) (o : Nat)
  | tste (h : Nat) (o : Nat)
  | cld (coord : Vec)
  | cprb (coord : Vec)
  | clbinv (lo hi : Vec)
  | qpop
  | qpsh
  | bar
  | spawn (x : SpawnReq)
  | whereIu
  | ctxr (ctx : Word) (word : BitVec 5)
  | ctxw (ctx : Word) (word : BitVec 5)
  | strm (k : StrmKind) (a b c : Vec) (pos : StrmPos)
  | token
  | fetch
  | dep (fn qid n : Nat)
  deriving DecidableEq, Repr

/-- Where a request stands; `ended` is a fetch that a wake's status ends (R351, R354). -/
inductive ReqSt where
  | pending
  | fault (page : Nat)
  | side (page : Nat)
  | record (i : BitVec 2) (page : Nat)
  | unrecorded (page : Nat) (status : BitVec 5)
  | ended (i : Option (BitVec 2)) (status : BitVec 5)
  | replay (i : Option (BitVec 2))
  | sideReplay
  | listed
  | retryAt (t : Nat)
  | host
  | hostDone
  | peer
  deriving DecidableEq, Repr

/-- A request of a thread: an entry of the store buffer, an outstanding-request entry, a side-log entry
or an update on its way through the context home (R172, R173, R322, R349). `half`: which half of a 128-bit access is
performed, and the value it read (R175); `passed`: the turns in which the stream engine has passed it over (R369). -/
structure Req where
  id : Nat
  key : Key
  bench : Nat
  iu : Nat
  op : ReqOp
  va : Word
  n : Nat
  ty : Ty
  ord : Ord
  scp : Scope
  far : Bool := false
  nt : Bool := false
  dst : Opd := .zero
  dat : Vec := 0
  dat2 : Vec := 0
  sup : Bool := false
  iw : IWord := 0
  pa : Option Phys := none
  fva : Word := 0
  st : ReqSt := .pending
  ri : Option (BitVec 2) := none
  via : Option (Nat × Nat) := none
  side : Bool := false
  half : Option (Nat × Vec) := none
  passed : Nat := 0
  born : Nat := 0
  deriving DecidableEq, Repr

/-- An entry of a wait list: the word and the request (R185, R187). -/
structure Waiter where
  pa : Nat
  req : Nat
  deriving DecidableEq, Repr

/-- What waits for a line at its holder or its home (R194, R302): a request of a thread, a thread that fetches or walks before
it issues, a command of an engine, a queue's front end, or what came from outside the module. -/
inductive Asker where
  | req (id : Nat)
  | thread (k : Key)
  | cmd (id : Nat)
  | queue (fn qid : Nat)
  | outside (i : Instr)
  deriving DecidableEq, Repr

/-- A place in the order of arrival at a line (R194, R302). -/
structure Turn where
  line : Phys
  who : Asker
  deriving DecidableEq, Repr

structure Flight where
  reqs : List Req := []
  waiters : List Waiter := []
  turns : List Turn := []
  deriving DecidableEq, Repr

/-! Issue units. -/

/-- A hold register: owner, line and its address, time of the grant, pause used, and the bytes stored under the hold
(R189 to R192, R288). -/
structure HoldReg where
  key : Key
  line : Phys
  va : Word := 0
  granted : Nat
  paused : Nat := 0
  pauseFrom : Option Nat := none
  bytes : List (Nat × Byte) := []
  deriving DecidableEq, Repr

/-- A scratchpad bank that is not awake (R202): powered down, or waking since a time. -/
inductive BankSt where
  | down
  | waking (since : Nat)
  deriving DecidableEq, Repr

/-- An issue unit (R43 to R45, R189, R214, R325, R339, R397): `cyc` is the cycle that `skips` is about, `spent` whether it is
over, `issued` the cycles in which it has issued; `haltDue` when the halt of its set stops it (R398). -/
structure Iu where
  bench : Nat
  iu : Nat
  cfg : Word := 0x010000C0
  start : Nat := 0
  perf : List Word := List.replicate 16 0
  dbg : Word := 0
  halted : Bool := false
  haltDue : Option Nat := none
  lastSlot : Nat := 0
  lastHeld : Nat := 0
  skips : List Key := []
  cyc : Nat := 0
  spent : Bool := false
  issued : Nat := 0
  holds : List (Option HoldReg) := List.replicate 8 none
  queue : List Nat := []
  banks : List (Nat × BankSt) := []
  deriving DecidableEq, Repr

/-! Engines. -/

/-- The tag of a weight bank (R219, R365). -/
structure Tag where
  asid : BitVec 16
  idx : Nat
  gen : BitVec 16
  row0 : Nat
  deriving DecidableEq, Repr

/-- A weight bank: tag, format and sixteen rows of bytes (R219). -/
structure Bank where
  tag : Option Tag := none
  fmt : Ty := .sbf8
  cols : List (List Byte) := []
  deriving DecidableEq, Repr

/-- A matrix engine (R219, R224, R363, R367, R368): `since` is when it last went from idle to busy, `turnLeft` the commands that
the queue `turn` may still start in its turn. -/
structure Mat where
  bench : Nat
  group : Nat
  bank0 : Bank := {}
  bank1 : Bank := {}
  steps : Word := 0
  active : Word := 0
  since : Option Nat := none
  migr : Word := 0
  rate : Word := 0
  inWindow : Word := 0
  window : Nat := 0
  compute : Option Nat := none
  loading : Option Nat := none
  turn : Nat := 7
  turnLeft : Nat := 0
  gated : Bool := false
  idleSince : Nat := 0
  deriving DecidableEq, Repr

/-- An engine command accepted and not yet filled (R214, R215, R217); `ran`: its tiles are read and its result stands in
`shadow`, `todo`: plane-steps still to be made (R361), `gen`: of the tile that an `MLDW` has read, `home`: the copy or link
engine it is in or waits at, 0 before, `arr`: when it came there (R370, R371). -/
structure Cmd where
  id : Nat
  key : Key
  uid : Nat := 0
  lslot : BitVec 8
  bench : Nat
  iu : Nat
  kind : CmdKind
  iw : IWord
  ty : Ty
  op : AOp := .add
  np : BitVec 4 := 0
  init : Bool := false
  bank : Bool := false
  mode : BitVec 3 := 0
  sig : W32 := 0
  tok : Word
  a : Word
  b : Word
  c : Word
  sup : Bool := false
  st : CmdState := .queued
  began : Nat := 0
  pos : Nat := 0
  rec1 : BitVec 1024 := 0
  rec2 : BitVec 1024 := 0
  out : Option Nat := none
  shadow : List Byte := []
  faultPage : Option Nat := none
  wakeSt : Option (Nat × BitVec 5) := none
  status : BitVec 16 := 0
  count : Nat := 0
  flags : BitVec 5 := 0
  packet : Option (Nat × Nat) := none
  src : List Byte := []
  ports : List Nat := []
  home : Nat := 0
  arr : Nat := 0
  downSince : Nat := 0
  ran : Bool := false
  todo : Nat := 0
  gen : BitVec 16 := 0
  deriving DecidableEq, Repr

structure Engines where
  mats : List Mat := []
  cmds : List Cmd := []
  deriving DecidableEq, Repr

/-! Queues (16_queues_and_firmware). -/

/-- The states of a queue (R378). -/
inductive QState where
  | idle | active | frozen | destroying
  deriving DecidableEq, Repr

/-- Where the packet at `RIDX` stands (R377, R383, R385, R387): its words or its `CTOK` wait for a page; it waits for its
fence and dependences; it may start; a launch waits for a slot or is being written; a `WAIT` reads its word or waits to
read it again; its token is to be filled. -/
inductive PkSt where
  | unread
  | ctok
  | waiting
  | ready
  | slotWait
  | writing
  | reading
  | rereadAt (t : Nat)
  | finishing (stat : BitVec 16)
  deriving DecidableEq, Repr

/-- The fetched packet of a queue: its 16 words, where it stands, and the VA whose page it waits for (R382, R383). -/
structure Packet where
  words : List Word
  st : PkSt := .waiting
  asked : Bool := false
  deps : List (Nat × Word) := []
  fault : Option Nat := none
  deriving DecidableEq, Repr

/-- A queue control block and its place (R378 to R381). `incomplete` counts the packets that `RIDX` has passed and that have
not completed; `cancels` are the ring entries that a freeze has still to complete, with the `CTOK` it read (R388); `fes` the dies
whose front ends work on the packet at `RIDX` (R383). -/
structure Queue where
  fn : Nat
  qid : Nat
  asid : BitVec 16
  rbase : BitVec 57
  rsize : BitVec 8
  qprio : BitVec 4
  eprio : BitVec 4 := 0
  tmo : BitVec 32
  st : QState := .idle
  ridx : BitVec 32 := 0
  widx : BitVec 32 := 0
  qerr : BitVec 8 := 0
  qeva : Word := 0
  wstart : Nat := 0
  donepk : Word := 0
  lprog : List (BitVec 32) := List.replicate 9 0
  depdec : BitVec 2 := 0
  depst : BitVec 16 := 0
  clslot : BitVec 8 := 0xFF
  slot : Option Nat := none
  mappedAt : Nat := 0
  pending : Bool := false
  saving : Bool := false
  pk : Option Packet := none
  incomplete : Nat := 0
  doneAt : Nat := 0
  cancels : List (Word × Option Word) := []
  cfault : Option Nat := none
  fes : List Nat := []
  deriving DecidableEq, Repr

/-- A launch slot in use (R386): the token and queue it records, and what its threads were made from; `held` are the ids that the
front end of a die holds for its next crew (R334). -/
structure LaunchSlot where
  n : Nat
  fn : Nat
  qid : Nat
  asid : BitVec 16
  ctok : VAddr
  tcount : BitVec 32
  crew : Nat
  quota : Nat
  entry : BitVec 55
  prio : BitVec 4
  gx : Nat
  gy : Nat
  seed0 : Word
  seed1 : Word
  seed2 : Word
  sbase : Word
  stack : BitVec 32
  tbytes : BitVec 32
  ntile : BitVec 8
  barw : BitVec 16
  live : Nat := 0
  written : Bool := false
  cancelled : Bool := false
  filled : Bool := false
  fault : Option Nat := none
  held : List (Nat × List (BitVec 32)) := []
  deriving DecidableEq, Repr

/-- Queues and launches: `qslots` is `QSLOTS` by function (R376), `rotation` where a die offers its next crew (R334), `served` the
global slot a front end began on last (R383), `due` the freezes that accesses gave (R388). -/
structure Queues where
  qs : List Queue := []
  launches : List LaunchSlot := []
  qslots : List (Nat × Nat) := []
  rotation : List (Nat × Nat) := []
  served : List (Nat × Nat) := []
  due : List (Nat × Nat × BitVec 8 × Word) := []
  deriving DecidableEq, Repr

/-! Firmware, debug and links. -/

/-- A freeze notification (R355). -/
structure Note where
  cause : BitVec 8
  detail : BitVec 24
  va : Word
  key : Key
  lslot : BitVec 8
  bench : Nat
  deriving DecidableEq, Repr

/-- A debug event (R399). -/
structure DbgEvent where
  evt : BitVec 8
  wkind : BitVec 4
  key : Key
  pc : VAddr
  deriving DecidableEq, Repr

/-- `SETCTL` of a set (R397). -/
structure SetCtl where
  n : BitVec 6
  halted : Bool := false
  trig : BitVec 3 := 0
  tbench : BitVec 10 := 0
  tiu : BitVec 8 := 0
  frzh : Bool := false
  steph : Bool := false
  brkh : Bool := false
  deriving DecidableEq, Repr

/-- An entry of the inbound window table (R313). -/
structure Window where
  n : Nat
  w0 : Word
  w1 : Word
  w2 : Word
  deriving DecidableEq, Repr

/-- An inbound link access that its window has accepted and that is not performed yet: the address space and base that its window
gave, and the page whose fault stalls it (R314). -/
structure Accepted where
  x : LinkAccess
  asid : BitVec 16
  base : Word
  page : Option Nat := none
  deriving DecidableEq, Repr

/-- What the module asks of the host for a line: requests of CXL.cache, or a read or write of CXL.io (R304, R306). -/
inductive D2h where
  | rdShared | rdOwn | itoMWr | ioRead | ioWrite
  deriving DecidableEq, Repr

/-- What the module sends out: answers to host and peers, beats to peers, the model's record of outputs. -/
inductive Out where
  | data (pa : Nat) (bytes : List Byte)
  | cmpS (pa : Nat)
  | cmpE (pa : Nat)
  | cmp (pa : Nat)
  | snoop (line : Nat) (dirty : Bool) (bytes : List Byte)
  | bisnp (line : Nat) (inv : Bool)
  | atomicOld (v : Vec)
  | unsupported
  | hostReq (req : Nat) (k : D2h) (line : Nat)
  | pcieOp (req : Nat)
  | dirtyEvict (line : Nat) (bytes : List Byte)
  | cleanEvict (line : Nat)
  | peerWrite (id : BitVec 16) (win off : Nat) (bytes : List Byte)
  | peerReduce (id : BitVec 16) (win off : Nat) (op : AOp) (ty : Ty) (bytes : List Byte)
  | peerSignal (id : BitVec 16) (win off : Nat) (v : Word)
  | peerRead (id : BitVec 16) (win off n : Nat)
  | linkData (bytes : List Byte)
  | linkDone
  | linkRefused
  | doorbell (v : Word)
  | configRetry
  | configDone
  | aer
  | errorCompletion
  | surpriseDown
  | mgmt (code : Nat) (vals : List Nat)
  | spdm (code : Nat) (bytes : List Byte)
  | spdmError
  deriving DecidableEq, Repr

structure Firmware where
  windows : List Window := []
  inbound : List Accepted := []
  exclusive : Bool := false
  sliceMs : Nat := 1
  function : Nat := 0
  notes : List Note := []
  tokFaults : List (Key × Word × BitVec 5) := []
  events : List DbgEvent := []
  sets : List SetCtl := []
  atomicEnable : Bool := false
  portsUp : List Nat := []
  portsDownSince : Nat := 0
  out : List Out := []
  deriving DecidableEq, Repr

/-- The session states of the SPDM responder (R411). -/
structure Spdm where
  version : Bool := false
  caps : Bool := false
  algs : Bool := false
  session : Bool := false
  finished : Bool := false
  deriving DecidableEq, Repr

/-- Package state (18_package_power_bringup); `lostIds` are the ids of lines lost with a die, `dieStart` when a die came back. -/
structure Package where
  stage : Nat := 7
  verifyFailed : Bool := false
  mode : PowerMode := .full
  clockMHz : Nat := 1600
  rails : Bool := true
  fatal : Option Nat := none
  diesDown : List Nat := []
  lostIds : List (Nat × Key) := []
  dieStart : List (Nat × Nat) := []
  corrected : Nat := 0
  flitFails : List (Nat × Nat) := []
  spdm : Spdm := {}
  deriving DecidableEq, Repr

/-- Where an issue happens: bench and issue unit. -/
inductive Move where
  | issue (b u : Nat)
  | event (i : Instr)
  | idle (n : Nat)
  deriving DecidableEq, Repr

/-- An error in storage that a patrol scrub meets (R365, R407, log 95): corrected bits of some number; or an uncorrectable error
in a line of device memory, a context line, a frame of a tile, or a weight bank of a matrix engine. -/
inductive Damage where
  | corrected (n : Nat)
  | line (a : Nat)
  | context (k : Key)
  | frame (asid : BitVec 16) (idx j : Nat)
  | weights (b g : Nat) (bank : Bool)
  deriving DecidableEq, Repr

/-- Run control: the model's own (log 1, log 2); `now` is the cycle of the module, `tried` the requests that the default order
has taken up in it, `damages` the errors in storage to come (log 95). -/
structure Run where
  agenda : List Move := []
  cur : Option Key := none
  ir : Option Instr := none
  now : Nat := 0
  fresh : Nat := 0
  seq : Nat := 0
  tried : List Nat := []
  damages : List Damage := []
  deriving DecidableEq, Repr

/-- The state of the machine. -/
structure State where
  run : Run := {}
  threads : List Thread := []
  spaces : List Space := []
  mem : Mem := {}
  cache : Cache := {}
  mmu : Mmu := {}
  flight : Flight := {}
  ius : List Iu := []
  eng : Engines := {}
  queues : Queues := {}
  fw : Firmware := {}
  pkg : Package := {}
  deriving DecidableEq, Repr

/-- Why the machine stops. -/
inductive Fault where
  /-- Raised by an access to a page whose entry names device memory beyond the HBM of the module: the spec
  describes no device there. Safe: no value is returned. -/
  | notHbm (pa : Nat)
  deriving DecidableEq, Repr

/-- Why a step is refused. -/
inductive Refusal where
  /-- Raised by an arm of `exec` whose row has no meaning yet. Safe: nothing happens. -/
  | notModelled (mnemonic : String)
  deriving DecidableEq, Repr

/-- The machine right after bring-up step 7 (R409, log 9): every list that holds a created structure is
empty, memory lists nothing. -/
def State.reset : State := {}

end Sys2Proof.Machine
end

