-- ==== Sys2Proof/Machine/Memory.lean ====
section
/-! DEFINITION. Bytes of memory as a canonical list of cells, full/empty bits (R5, R38), and the small list
operations the state uses. -/

namespace Sys2Proof.Machine

/-- The byte at an address: a byte that nothing has written reads 0 (log 3; for device memory R409 step 3). -/
def cellRead : List Host.Cell → Nat → Byte
  | [], _ => 0
  | c :: l, a => if c.1 = a then c.2 else cellRead l a

/-- Writes a byte; the list stays strictly rising and holds no byte equal to 0. -/
def cellWrite : List Host.Cell → Nat → Byte → List Host.Cell
  | [], a, b => if b = 0 then [] else [(a, b)]
  | c :: l, a, b =>
    if a < c.1 then (if b = 0 then c :: l else (a, b) :: c :: l)
    else if a = c.1 then (if b = 0 then l else (a, b) :: l)
    else c :: cellWrite l a b

/-- The canonical form from a lower bound on: strictly rising addresses, no byte equal to 0. -/
def cellsFrom : Nat → List Host.Cell → Bool
  | _, [] => true
  | lo, c :: l => decide (lo ≤ c.1) && c.2 != 0 && cellsFrom (c.1 + 1) l

/-- The canonical form of a list of cells. -/
def cellsWf (l : List Host.Cell) : Bool := cellsFrom 0 l

/-- Strictly rising numbers from a lower bound on. -/
def risingFrom : Nat → List Nat → Bool
  | _, [] => true
  | lo, x :: l => decide (lo ≤ x) && risingFrom (x + 1) l

/-- The memory of a state is in canonical form: its three lists of bytes, and the words that are empty. -/
def Memory.wf (m : Mem) : Bool :=
  cellsWf m.dev && cellsWf m.host && cellsWf m.tiles && risingFrom 0 m.empty

/-- `n` bytes from address `a`, the first lowest (R5). -/
def readBytes (l : List Host.Cell) (a : Nat) : Nat → List Byte
  | 0 => []
  | n + 1 => cellRead l a :: readBytes l (a + 1) n

/-- Writes a list of bytes from address `a` upward (R5). -/
def writeBytes : List Host.Cell → Nat → List Byte → List Host.Cell
  | l, _, [] => l
  | l, a, b :: bs => writeBytes (cellWrite l a b) (a + 1) bs

/-- The number that a list of bytes is, little-endian (R5). -/
def natOfBytes : List Byte → Nat
  | [] => 0
  | b :: l => b.toNat + 256 * natOfBytes l

/-- The low `n` bytes of a number, little-endian (R5). -/
def bytesOfNat : Nat → Nat → List Byte
  | 0, _ => []
  | n + 1, x => BitVec.ofNat 8 x :: bytesOfNat n (x / 256)

/-- `n` bytes as a value of up to 128 bits. -/
def readVal (l : List Host.Cell) (a n : Nat) : Vec := BitVec.ofNat 128 (natOfBytes (readBytes l a n))

/-- Stores the low `n` bytes of a value. -/
def writeVal (l : List Host.Cell) (a n : Nat) (v : Vec) : List Host.Cell := writeBytes l a (bytesOfNat n v.toNat)

/-- Inserts a number into a strictly rising list. -/
def insertRising : List Nat → Nat → List Nat
  | [], x => [x]
  | y :: l, x => if x < y then x :: y :: l else if x = y then y :: l else y :: insertRising l x

/-- Removes a number from a list. -/
def removeRising : List Nat → Nat → List Nat
  | [], _ => []
  | y :: l, x => if x = y then l else y :: removeRising l x

/-- `fe`: whether the 64-bit word of device memory that holds address `a` is full (R38). -/
def isFull (m : Mem) (a : Nat) : Bool := !m.empty.contains (a / 8)

def setFull (m : Mem) (a : Nat) : Mem := { m with empty := removeRising m.empty (a / 8) }

def setEmpty (m : Mem) (a : Nat) : Mem := { m with empty := insertRising m.empty (a / 8) }

/-- Sets the full/empty bit of each of `n` words from address `a` full. -/
def setFullRange (m : Mem) (a : Nat) : Nat → Mem
  | 0 => m
  | n + 1 => setFullRange (setFull m a) (a + 8) n

/-- Bytes of a location (R276). A peer's bytes are not this machine's: a read of them is answered by the peer
(R291), so none is held here. -/
def physRead (m : Mem) (p : Phys) (n : Nat) : Vec :=
  match p with
  | .dev a => readVal m.dev a n
  | .hostC a | .hostU a => readVal m.host a n
  | .peer .. => 0

/-- Stores the low `n` bytes of a value at a location. -/
def physWrite (m : Mem) (p : Phys) (n : Nat) (v : Vec) : Mem :=
  match p with
  | .dev a => { m with dev := writeVal m.dev a n v }
  | .hostC a | .hostU a => { m with host := writeVal m.host a n v }
  | .peer .. => m

/-- The location `d` bytes further. -/
def physAdd (p : Phys) (d : Nat) : Phys :=
  match p with
  | .dev a => .dev (a + d)
  | .hostC a => .hostC (a + d)
  | .hostU a => .hostU (a + d)
  | .peer i w o => .peer i w (o + d)

/-- The 128-byte line of a location (R292). -/
def lineOf (p : Phys) : Phys :=
  match p with
  | .dev a => .dev (a / 128 * 128)
  | .hostC a => .hostC (a / 128 * 128)
  | .hostU a => .hostU (a / 128 * 128)
  | .peer i w o => .peer i w (o / 128 * 128)

/-- The offset of a location in its line. -/
def lineOff (p : Phys) : Nat :=
  match p with
  | .dev a | .hostC a | .hostU a => a % 128
  | .peer _ _ o => o % 128

def isDev : Phys → Bool
  | .dev _ => true
  | _ => false

def isPeer : Phys → Bool
  | .peer .. => true
  | _ => false

/-- The tile byte `o` of handle `idx` of an address space is its own location (R276). -/
def tileAddr (asid : BitVec 16) (idx o : Nat) : Nat := (asid.toNat * 2 ^ 24 + idx) * 2 ^ 17 + o

/-- Replaces the first element that satisfies `p`, or adds the new one at the end. -/
def upsert {α : Type} (p : α → Bool) (x : α) : List α → List α
  | [] => [x]
  | y :: l => if p y then x :: l else y :: upsert p x l

/-- Replaces the first element that satisfies `p` by its image. -/
def modifyFirst {α : Type} (p : α → Bool) (f : α → α) : List α → List α
  | [] => []
  | y :: l => if p y then f y :: l else y :: modifyFirst p f l

/-- The element of a list with the least measure, the first of equals. -/
def leastBy {α : Type} (f : α → Nat) : List α → Option α
  | [] => none
  | x :: l => match leastBy f l with
    | none => some x
    | some y => if f y < f x then some y else some x

end Sys2Proof.Machine
end

