-- ==== Sys2Proof/Machine/Flags.lean ====
section
/-! DEFINITION. Floating-point arithmetic and its flags (R100 to R107, R120 to R122, R150 to R157), and the
operations of atomics (R68, R177, R180). Values are exact dyadic numbers; every operation rounds once. -/

namespace Sys2Proof.Machine
open Sys2Proof.Forms

/-- A binary format: exponent bits and trailing significand bits (R101). -/
structure Ffmt where
  ex : Nat
  tr : Nat
  deriving DecidableEq, Repr

def ffOf : Ty → Ffmt
  | .f16 => ⟨5, 10⟩
  | .bf16 => ⟨8, 7⟩
  | .f32 => ⟨8, 23⟩
  | _ => ⟨11, 52⟩

def ffBias (f : Ffmt) : Nat := 2 ^ (f.ex - 1) - 1

/-- The five flags, NV highest (R107). -/
abbrev Fl := BitVec 5

abbrev flNV : Fl := 16
abbrev flDZ : Fl := 8
abbrev flOF : Fl := 4
abbrev flUF : Fl := 2
abbrev flNX : Fl := 1

/-- How an operation rounds: the mode, and whether UF is enabled to trap (R103, R104). -/
structure Fenv where
  mode : RMode := .rne
  ufEn : Bool := false
  deriving DecidableEq, Repr

/-- The value of a bit pattern: a NaN with its bits, an infinity, or sign × n × 2^x. -/
inductive Fv where
  | nan (sig : Bool)
  | inf (neg : Bool)
  | num (neg : Bool) (n : Nat) (x : Int)
  deriving DecidableEq, Repr

/-- The value of a bit pattern (R101). -/
def ffVal (f : Ffmt) (b : Nat) : Fv :=
  let tr := b % 2 ^ f.tr
  let ex := b / 2 ^ f.tr % 2 ^ f.ex
  let neg := b / 2 ^ (f.tr + f.ex) % 2 == 1
  if ex = 2 ^ f.ex - 1 then
    if tr = 0 then .inf neg else .nan (tr / 2 ^ (f.tr - 1) == 0)
  else if ex = 0 then .num neg tr (1 - (ffBias f : Int) - (f.tr : Int))
  else .num neg (tr + 2 ^ f.tr) ((ex : Int) - (ffBias f : Int) - (f.tr : Int))

def ffSign (f : Ffmt) (neg : Bool) : Nat := if neg then 2 ^ (f.tr + f.ex) else 0

def ffInf (f : Ffmt) (neg : Bool) : Nat := ffSign f neg + (2 ^ f.ex - 1) * 2 ^ f.tr

def ffMax (f : Ffmt) (neg : Bool) : Nat := ffInf f neg - 1

/-- The canonical quiet NaN (R101). -/
def ffQnan (f : Ffmt) : Nat := ffInf f false + 2 ^ (f.tr - 1)

/-- Quietening (R105). -/
def ffQuiet (f : Ffmt) (b : Nat) : Nat := if b / 2 ^ (f.tr - 1) % 2 = 1 then b else b + 2 ^ (f.tr - 1)

/-- `n / 2^k` rounded to an integer, and whether it is inexact (R103). -/
def roundShift (m : RMode) (neg : Bool) (n k : Nat) : Nat × Bool :=
  let q := n / 2 ^ k
  let r := n % 2 ^ k
  if r = 0 then (q, false)
  else
    let up := match m with
      | .rne => decide (2 ^ k < 2 * r) || (2 * r == 2 ^ k && q % 2 == 1)
      | .rtz => false
      | .rdn => neg
      | .rup => !neg
      | .rmm => decide (2 ^ k ≤ 2 * r)
    (if up then q + 1 else q, true)

/-- `n × 2^x` rounded to a multiple of `2^q` (R103). -/
def roundAt (m : RMode) (neg : Bool) (n : Nat) (x q : Int) : Nat × Bool :=
  if q ≤ x then (n * 2 ^ (x - q).toNat, false) else roundShift m neg n (q - x).toNat

/-- Rounding of an exact value to a format, with its flags (R103, R104). -/
def ffRound (f : Ffmt) (v : Fenv) (neg : Bool) (n : Nat) (x : Int) : Nat × Fl :=
  if n = 0 then (ffSign f neg, 0)
  else
    let emin : Int := 1 - (ffBias f : Int)
    let e : Int := (Nat.log2 n : Int) + x
    let qu := e - (f.tr : Int)
    let qb := if qu < emin - (f.tr : Int) then emin - (f.tr : Int) else qu
    let u := roundAt v.mode neg n x qu
    let b := roundAt v.mode neg n x qb
    let tiny := decide ((Nat.log2 u.1 : Int) + qu < emin)
    let top : Int := (Nat.log2 b.1 : Int) + qb
    if b.1 ≠ 0 ∧ (ffBias f : Int) < top then
      let toInf := match v.mode with
        | .rne | .rmm => true
        | .rtz => false
        | .rdn => neg
        | .rup => !neg
      (if toInf then ffInf f neg else ffMax f neg, flOF ||| flNX)
    else
      let fl : Fl := (if b.2 then flNX else 0) ||| (if tiny && (b.2 || v.ufEn) then flUF else 0)
      if b.1 = 0 ∨ top < emin then (ffSign f neg + b.1, fl)
      else
        let lg := Nat.log2 b.1
        let tr := (if lg ≤ f.tr then b.1 * 2 ^ (f.tr - lg) else b.1 / 2 ^ (lg - f.tr)) - 2 ^ f.tr
        (ffSign f neg + (top + (ffBias f : Int)).toNat * 2 ^ f.tr + tr, fl)

/-- A term of an exact sum: sign, magnitude, exponent. -/
abbrev Term := Bool × Nat × Int

/-- The least exponent of a list of terms. -/
def minExp : List Term → Int
  | [] => 0
  | [t] => t.2.2
  | t :: l => let y := minExp l; if t.2.2 < y then t.2.2 else y

/-- The exact sum of terms as a signed multiple of `2^x`. -/
def termSum (x : Int) (l : List Term) : Int :=
  l.foldl (fun acc t =>
    let m : Int := (t.2.1 * 2 ^ (t.2.2 - x).toNat : Nat)
    if t.1 then acc - m else acc + m) 0

/-- An exact sum rounded once; an exact zero takes its sign from the terms (R104, R150). -/
def ffSum (f : Ffmt) (v : Fenv) (l : List Term) : Nat × Fl :=
  let x := minExp l
  let s := termSum x l
  if s = 0 then
    let neg := if l.all fun t => t.2.1 == 0 && t.1 then true
      else if l.all fun t => t.2.1 == 0 && !t.1 then false
      else v.mode == .rdn
    (ffSign f neg, 0)
  else ffRound f v (decide (s < 0)) s.natAbs x

/-- The first NaN among the sources, quietened, and NV when any is signalling (R105 rule 2). -/
def nanOf (f : Ffmt) (l : List Nat) : Option (Nat × Fl) :=
  let isNan := fun b => match ffVal f b with
    | .nan _ => true
    | _ => false
  let isSig := fun b => match ffVal f b with
    | .nan g => g
    | _ => false
  (l.find? isNan).map fun b => (ffQuiet f b, if l.any isSig then flNV else 0)

def ffInvalid (f : Ffmt) : Nat × Fl := (ffQnan f, flNV)

def ffNeg (f : Ffmt) (b : Nat) : Nat :=
  if b / 2 ^ (f.tr + f.ex) % 2 = 1 then b - 2 ^ (f.tr + f.ex) else b + 2 ^ (f.tr + f.ex)

/-- a + b or a − b (R150). -/
def ffAdd (f : Ffmt) (v : Fenv) (sub : Bool) (a b : Nat) : Nat × Fl :=
  match nanOf f [a, b] with
  | some r => r
  | none =>
    match ffVal f a, ffVal f b with
    | .inf p, .inf q => if p == (q ^^ sub) then (ffInf f p, 0) else ffInvalid f
    | .inf p, _ => (ffInf f p, 0)
    | _, .inf q => (ffInf f (q ^^ sub), 0)
    | .num p n x, .num q m y => ffSum f v [(p, n, x), (q ^^ sub, m, y)]
    | _, _ => ffInvalid f

/-- The invalid product 0 × ∞ (R105). -/
def zeroTimesInf (a b : Fv) : Bool :=
  match a, b with
  | .inf _, .num _ 0 _ => true
  | .num _ 0 _, .inf _ => true
  | _, _ => false

def ffMul (f : Ffmt) (v : Fenv) (a b : Nat) : Nat × Fl :=
  match nanOf f [a, b] with
  | some r => r
  | none =>
    match ffVal f a, ffVal f b with
    | .num p n x, .num q m y => ffRound f v (p ^^ q) (n * m) (x + y)
    | .inf p, .inf q => (ffInf f (p ^^ q), 0)
    | .inf p, .num q m _ => if m = 0 then ffInvalid f else (ffInf f (p ^^ q), 0)
    | .num p n _, .inf q => if n = 0 then ffInvalid f else (ffInf f (p ^^ q), 0)
    | _, _ => ffInvalid f

/-- a × b + c, or c − a × b, rounded once; 0 × ∞ is invalid whatever c holds (R105, R150). -/
def ffFma (f : Ffmt) (v : Fenv) (neg : Bool) (a b c : Nat) : Nat × Fl :=
  if zeroTimesInf (ffVal f a) (ffVal f b) then ffInvalid f
  else match nanOf f [a, b, c] with
    | some r => r
    | none =>
      let sum := fun (p : Bool) => match ffVal f c with
        | .inf q => if p == q then (ffInf f p, (0 : Fl)) else ffInvalid f
        | _ => (ffInf f p, 0)
      match ffVal f a, ffVal f b with
      | .num p n x, .num q m y =>
        match ffVal f c with
        | .num r k z => ffSum f v [(p ^^ q ^^ neg, n * m, x + y), (r, k, z)]
        | .inf r => (ffInf f r, 0)
        | .nan _ => ffInvalid f
      | .inf p, .inf q | .inf p, .num q _ _ | .num p _ _, .inf q => sum (p ^^ q ^^ neg)
      | _, _ => ffInvalid f

/-- a / b (R105, R107, R150). -/
def ffDiv (f : Ffmt) (v : Fenv) (a b : Nat) : Nat × Fl :=
  match nanOf f [a, b] with
  | some r => r
  | none =>
    match ffVal f a, ffVal f b with
    | .inf _, .inf _ => ffInvalid f
    | .inf p, .num q _ _ => (ffInf f (p ^^ q), 0)
    | .num p _ _, .inf q => (ffSign f (p ^^ q), 0)
    | .num p n x, .num q m y =>
      if m = 0 then if n = 0 then ffInvalid f else (ffInf f (p ^^ q), flDZ)
      else
        let k := f.tr + 5 + Nat.log2 m
        let d := n * 2 ^ k
        ffRound f v (p ^^ q) (4 * (d / m) + if d % m = 0 then 0 else 1) (x - y - (k : Int) - 2)
    | _, _ => ffInvalid f

/-- The integer square root by its bits, from bit `i` down. -/
def isqrtBits (n : Nat) : Nat → Nat → Nat
  | 0, r => r
  | i + 1, r => if (r + 2 ^ i) * (r + 2 ^ i) ≤ n then isqrtBits n i (r + 2 ^ i) else isqrtBits n i r

/-- √a (R150). -/
def ffSqrt (f : Ffmt) (v : Fenv) (a : Nat) : Nat × Fl :=
  match nanOf f [a] with
  | some r => r
  | none =>
    match ffVal f a with
    | .inf false => (ffInf f false, 0)
    | .num p n x =>
      if n = 0 then (ffSign f p, 0)
      else if p then ffInvalid f
      else
        let n1 := if x % 2 = 0 then n else 2 * n
        let x1 := if x % 2 = 0 then x else x - 1
        let k := f.tr + 5
        let d := n1 * 2 ^ (2 * k)
        let r := isqrtBits d (Nat.log2 d / 2 + 1) 0
        ffRound f v false (4 * r + if r * r = d then 0 else 1) (x1 / 2 - (k : Int) - 2)
    | _ => ffInvalid f

/-- Order of two numbers that are not NaN; −0 equals +0. -/
def ffCmp (a b : Fv) : Ordering :=
  match a, b with
  | .inf p, .inf q => if p == q then .eq else if p then .lt else .gt
  | .inf p, _ => if p then .lt else .gt
  | _, .inf q => if q then .gt else .lt
  | .num p n x, .num q m y =>
    let z := minExp [(p, n, x), (q, m, y)]
    let l := termSum z [(p, n, x)]
    let r := termSum z [(q, m, y)]
    if l < r then .lt else if l = r then .eq else .gt
  | _, _ => .eq

/-- minimumNumber and maximumNumber (R151). -/
def ffMinMax (f : Ffmt) (max : Bool) (a b : Nat) : Nat × Fl :=
  let va := ffVal f a
  let vb := ffVal f b
  match va, vb with
  | .nan g, .nan h => (ffQuiet f a, if g || h then flNV else 0)
  | .nan g, _ => (b, if g then flNV else 0)
  | _, .nan h => (a, if h then flNV else 0)
  | _, _ =>
    let less := match ffCmp va vb with
      | .lt => true
      | .gt => false
      | .eq => a / 2 ^ (f.tr + f.ex) % 2 == 1
    (if less ^^ max then a else b, 0)

/-- The conditions of `FCMP` and its flag (R153). -/
def ffCond (f : Ffmt) (c : FCond) (a b : Nat) : Bool × Fl :=
  let va := ffVal f a
  let vb := ffVal f b
  let nan := fun v => match v with
    | Fv.nan _ => true
    | _ => false
  let sig := fun v => match v with
    | Fv.nan g => g
    | _ => false
  let un := nan va || nan vb
  let o := ffCmp va vb
  let quiet : Fl := if sig va || sig vb then flNV else 0
  let loud : Fl := if un then flNV else 0
  match c with
  | .eq => (!un && o == .eq, quiet)
  | .ne => (un || o != .eq, quiet)
  | .ord => (!un, quiet)
  | .uno => (un, quiet)
  | .lt => (!un && o == .lt, loud)
  | .ge => (!un && o != .lt, loud)
  | .gt => (!un && o == .gt, loud)
  | .le => (!un && o != .gt, loud)

/-- The class of a value: one of bits 9 to 0 (R154). -/
def ffClass (f : Ffmt) (b : Nat) : Nat :=
  match ffVal f b with
  | .nan g => if g then 2 ^ 8 else 2 ^ 9
  | .inf n => if n then 1 else 2 ^ 7
  | .num n m _ =>
    if m = 0 then if n then 2 ^ 3 else 2 ^ 4
    else if m < 2 ^ f.tr then if n then 2 ^ 2 else 2 ^ 5
    else if n then 2 else 2 ^ 6

/-- A NaN moved between formats: sign kept, payload cut or extended, quietened (R106). -/
def nanMove (f g : Ffmt) (b : Nat) : Nat :=
  let neg := b / 2 ^ (f.tr + f.ex) % 2 == 1
  let tr := b % 2 ^ f.tr
  let t := if f.tr ≤ g.tr then tr * 2 ^ (g.tr - f.tr) else tr / 2 ^ (f.tr - g.tr)
  ffQuiet g (ffInf g neg + t % 2 ^ g.tr)

/-- Conversion between floating-point formats (R106, R156, R157). -/
def ffConv (f g : Ffmt) (v : Fenv) (b : Nat) : Nat × Fl :=
  match ffVal f b with
  | .nan s => (nanMove f g b, if s then flNV else 0)
  | .inf n => (ffInf g n, 0)
  | .num n m x => ffRound g v n m x

/-- The value rounded to an integer, and whether inexact. -/
def toInt (m : RMode) (neg : Bool) (n : Nat) (x : Int) : Nat × Bool := roundAt m neg n x 0

/-- Rounding to an integral value in the same format (R155). -/
def ffRnd (f : Ffmt) (v : Fenv) (nx : Bool) (b : Nat) : Nat × Fl :=
  match ffVal f b with
  | .nan s => (ffQuiet f b, if s then flNV else 0)
  | .inf _ => (b, 0)
  | .num n m x =>
    let r := toInt v.mode n m x
    if r.2 then ((ffRound f {} n r.1 0).1, if nx then flNX else 0) else (b, 0)

/-- Conversion to an integer of `w` bits (R100). -/
def ffToInt (f : Ffmt) (v : Fenv) (sg : Bool) (w b : Nat) : Nat × Fl :=
  let lo : Int := if sg then -(2 ^ (w - 1) : Nat) else 0
  let hi : Int := if sg then (2 ^ (w - 1) - 1 : Nat) else (2 ^ w - 1 : Nat)
  let put := fun (x : Int) => (x % (2 ^ w : Nat)).toNat
  match ffVal f b with
  | .nan _ => (0, flNV)
  | .inf n => (put (if n then lo else hi), flNV)
  | .num n m x =>
    let r := toInt v.mode n m x
    let y : Int := if n then -(r.1 : Int) else (r.1 : Int)
    if y < lo then (put lo, flNV) else if hi < y then (put hi, flNV) else (put y, if r.2 then flNX else 0)

/-- Conversion of an integer to a floating-point format (R100). -/
def ffOfInt (f : Ffmt) (v : Fenv) (x : Int) : Nat × Fl := ffRound f v (decide (x < 0)) x.natAbs 0

/-- An inline immediate read as a floating-point operand (R53). -/
def ffImm (f : Ffmt) (v : BitVec 6) : Nat := (ffOfInt f {} v.toInt).1

/-- One lane of a floating `VDOT`: the exact sum of the products and the FP32 addend, rounded once (R122). -/
def ffDot (f : Ffmt) (v : Fenv) (l : List (Nat × Nat)) (c : Nat) : Nat × Fl :=
  let g := ffOf .f32
  let prods := l.map fun p => (ffVal f p.1, ffVal f p.2)
  let infs := (prods.filterMap fun p => match p.1, p.2 with
    | .inf a, .inf b | .inf a, .num b _ _ | .num a _ _, .inf b => some (a ^^ b)
    | _, _ => none) ++ (match ffVal g c with
    | .inf a => [a]
    | _ => [])
  let terms : List Term := (prods.filterMap fun p => match p.1, p.2 with
    | .num a n x, .num b m y => some (a ^^ b, n * m, x + y)
    | _, _ => none) ++ (match ffVal g c with
    | .num a n x => [(a, n, x)]
    | _ => [])
  let narrow := (l.map (·.1)) ++ (l.map (·.2))
  if (prods.any fun p => zeroTimesInf p.1 p.2) || (infs.contains true && infs.contains false) then ffInvalid g
  else
    let isNan := fun (f : Ffmt) b => match ffVal f b with
      | .nan _ => true
      | _ => false
    let isSig := fun (f : Ffmt) b => match ffVal f b with
      | .nan s => s
      | _ => false
    let fl : Fl := if narrow.any (isSig f) || isSig g c then flNV else 0
    match narrow.find? (isNan f) with
    | some b => (nanMove f g b, fl)
    | none =>
      if isNan g c then (ffQuiet g c, fl)
      else match infs with
        | a :: _ => (ffInf g a, 0)
        | [] => ffSum g v terms

/-! Operations of atomics, deltas and reductions (R68). -/

/-- A number of `w` bits read as signed. -/
def sInt (w n : Nat) : Int := if n < 2 ^ (w - 1) then (n : Int) else (n : Int) - (2 ^ w : Nat)

/-- The smaller or larger of two numbers of `w` bits by the type's reading. -/
def minMaxNat (sg max : Bool) (w a b : Nat) : Nat :=
  let less := if sg then decide (sInt w a < sInt w b) else decide (a < b)
  if less ^^ max then a else b

/-- One operation on two numbers of a type's width: the result, and the flags of a floating one (R68, R161). -/
def aop (op : AOp) (t : Ty) (v : Fenv) (a b : Nat) : Nat × Fl :=
  let w := width t
  match op with
  | .add => ((a + b) % 2 ^ w, 0)
  | .and => (a &&& b, 0)
  | .or => (a ||| b, 0)
  | .xor => (a ^^^ b, 0)
  | .min => (minMaxNat (signed t) false w a b, 0)
  | .max => (minMaxNat (signed t) true w a b, 0)
  | .swap => (b, 0)
  | .fadd => ffAdd (ffOf t) v false a b
  | .fmin => ffMinMax (ffOf t) false a b
  | .fmax => ffMinMax (ffOf t) true a b

/-- The operation of an atomic: memory value first, rounding to nearest even, no flags (R68, R178, R180). -/
def amoOper (op : AOp) (t : Ty) (old v : Vec) : Vec :=
  BitVec.ofNat 128 (aop op t {} (old.toNat % 2 ^ width t) (v.toNat % 2 ^ width t)).1

/-- The identity that a D copy starts from: 0 for `.add`, −0 for `.fadd` (R287). -/
def deltaZero (op : AOp) (t : Ty) : Word :=
  match op with
  | .fadd => BitVec.ofNat 64 (ffSign (ffOf t) true)
  | _ => 0

end Sys2Proof.Machine
end

