-- ==== Sys2Proof/Machine/Regs.lean ====
section
/-! DEFINITION. Registers, words and fields of a context line (R13 to R19, R29, R31, R46) and the state's
accessors of threads, issue units and address spaces. -/

namespace Sys2Proof.Machine
open Sys2Proof.Forms

/-- Scalar register n (R19). -/
def getS (c : Ctx) (n : BitVec 2) : Word :=
  match n.toNat with
  | 0 => c.s0 | 1 => c.s1 | 2 => c.s2 | _ => c.s3

def setS (c : Ctx) (n : BitVec 2) (x : Word) : Ctx :=
  match n.toNat with
  | 0 => { c with s0 := x }
  | 1 => { c with s1 := x }
  | 2 => { c with s2 := x }
  | _ => { c with s3 := x }

/-- Vector register n (R19). -/
def getV (c : Ctx) (n : BitVec 2) : Vec :=
  match n.toNat with
  | 0 => c.v0 | 1 => c.v1 | 2 => c.v2 | _ => c.v3

def setV (c : Ctx) (n : BitVec 2) (x : Vec) : Ctx :=
  match n.toNat with
  | 0 => { c with v0 := x }
  | 1 => { c with v1 := x }
  | 2 => { c with v2 := x }
  | _ => { c with v3 := x }

/-- Predicate n; p0 reads 1 (R21). -/
def getP (c : Ctx) (n : BitVec 3) : Bool := n == 0 || c.p.getLsbD n.toNat

/-- Writes a predicate; a write to p0 is discarded (R21). -/
def setP (c : Ctx) (n : BitVec 3) (x : Bool) : Ctx :=
  if n = 0 then c
  else { c with p := (c.p &&& ~~~((1 : BitVec 8) <<< n.toNat)) ||| ((bit x).setWidth 8 <<< n.toNat) }

/-- The second register of a pair (R55). -/
def pairHi (n : BitVec 2) : BitVec 2 := n + 1

/-- The 128-bit value of a pair of scalars, low half in the even register (R55). -/
def getPair (c : Ctx) (n : BitVec 2) : Vec := getS c (pairHi n) ++ getS c n

def setPair (c : Ctx) (n : BitVec 2) (x : Vec) : Ctx :=
  setS (setS c n (x.extractLsb' 0 64)) (pairHi n) (x.extractLsb' 64 64)

/-- Writes a result of 64 bits, of a pair, or of a vector to a destination; `ZERO` discards it (R54). -/
def setDst (c : Ctx) (o : Opd) (wide : Bool) (v : Vec) : Ctx :=
  match o with
  | .s n => if wide then setPair c n v else setS c n (v.setWidth 64)
  | .v n => setV c n v
  | .p n => setP c n (v.getLsbD 0)
  | _ => c

/-- The bits of the pending mask that a destination group names: `(PENDS, PENDV)` (R22). -/
def pendMask (o : Opd) (wide : Bool) : BitVec 4 × BitVec 4 :=
  match o with
  | .s n =>
    let m : BitVec 4 := (1 : BitVec 4) <<< n.toNat
    (if wide then m ||| (1 : BitVec 4) <<< (pairHi n).toNat else m, 0)
  | .v n => (0, (1 : BitVec 4) <<< n.toNat)
  | _ => (0, 0)

/-- `ctx.pend`: whether the operand names a pending register (R23). -/
def isPend (c : Ctx) (o : Opd) (wide : Bool) : Bool :=
  (c.pends &&& (pendMask o wide).1) != 0 || (c.pendv &&& (pendMask o wide).2) != 0

def setPend (c : Ctx) (o : Opd) (wide : Bool) : Ctx :=
  { c with pends := c.pends ||| (pendMask o wide).1, pendv := c.pendv ||| (pendMask o wide).2 }

def clearPend (c : Ctx) (o : Opd) (wide : Bool) : Ctx :=
  { c with pends := c.pends &&& ~~~(pendMask o wide).1, pendv := c.pendv &&& ~~~(pendMask o wide).2 }

/-- `OUTST` up and down by one (R22, R26). -/
def incOutst (c : Ctx) : Ctx := { c with outst := c.outst + 1 }

def decOutst (c : Ctx) : Ctx := { c with outst := c.outst - 1 }

/-- Word 0 of the line (R13). -/
def word0 (c : Ctx) : Word :=
  (0 : BitVec 1) ++ bit c.hact ++ bit c.frz ++ bit c.intrap ++ bit c.dhalt ++ bit c.step ++ bit c.sup ++ c.pc

/-- Word 1 of the line (R15); bit 0 of P reads 1. -/
def word1 (c : Ctx) : Word :=
  c.cause ++ c.detail ++ c.hslot1 ++ c.hslot0 ++ c.pendv ++ c.pends ++ c.wkind ++ c.outst ++ (c.p ||| 1)

/-- Word 2 of the line (R16). -/
def word2 (c : Ctx) : Word :=
  (0 : BitVec 12) ++ c.rm ++ c.flags ++ c.prio ++ c.lslot ++ c.ctxid

/-- One word of the context line (R13 to R19). -/
def ctxWord (c : Ctx) (n : Nat) : Word :=
  match n with
  | 0 => word0 c | 1 => word1 c | 2 => word2 c | 3 => c.geo
  | 4 => c.s0 | 5 => c.s1 | 6 => c.s2 | 7 => c.s3
  | 8 => c.v0.extractLsb' 0 64 | 9 => c.v0.extractLsb' 64 64
  | 10 => c.v1.extractLsb' 0 64 | 11 => c.v1.extractLsb' 64 64
  | 12 => c.v2.extractLsb' 0 64 | 13 => c.v2.extractLsb' 64 64
  | 14 => c.v3.extractLsb' 0 64 | _ => c.v3.extractLsb' 64 64

/-- A retry record and its two words (R31). -/
def getRec (t : TrapLine) (i : BitVec 2) : RetryRec :=
  match i.toNat with
  | 0 => t.r0 | 1 => t.r1 | 2 => t.r2 | _ => t.r3

def setRec (t : TrapLine) (i : BitVec 2) (r : RetryRec) : TrapLine :=
  match i.toNat with
  | 0 => { t with r0 := r }
  | 1 => { t with r1 := r }
  | 2 => { t with r2 := r }
  | _ => { t with r3 := r }

def recFirst (r : RetryRec) : Word := r.opnd ++ r.va

def recSecond (r : RetryRec) : Word :=
  bit r.valid ++ bit r.fatal ++ bit r.str ++ r.rstat ++ r.mods ++ r.iw0

def recIdx : List (BitVec 2) := [0, 1, 2, 3]

/-- The lowest free record, if one is (R32). -/
def freeRec (t : TrapLine) : Option (BitVec 2) := recIdx.find? fun i => !(getRec t i).valid

/-- The lowest record that is `FATAL` (R273). -/
def fatalRec (t : TrapLine) : Option (BitVec 2) :=
  recIdx.find? fun i => (getRec t i).valid && (getRec t i).fatal

/-- One word of the trap line (R29, R31). -/
def trapWord (t : TrapLine) (n : Nat) : Word :=
  match n with
  | 0 => t.saveW0 | 1 => t.tw1 | 2 => t.tval | 3 => t.iw01 | 4 => t.iw2 | 5 => t.saveS2 | 6 => t.saveS3
  | 7 => 0
  | 8 => recFirst t.r0 | 9 => recSecond t.r0 | 10 => recFirst t.r1 | 11 => recSecond t.r1
  | 12 => recFirst t.r2 | 13 => recSecond t.r2 | 14 => recFirst t.r3 | _ => recSecond t.r3

/-- One word of a context slot (R270). -/
def slotWord (t : Thread) (n : Nat) : Word := if n < 16 then ctxWord t.ctx n else trapWord t.trap (n - 16)

/-- A pending mask of the four registers of word n of the line, as `CTXW` sees it (R46). -/
def regOfWord (n : Nat) : Opd :=
  if n < 8 then .s (BitVec.ofNat 2 (n - 4)) else .v (BitVec.ofNat 2 ((n - 8) / 2))

/-- Writes a register word of the line: words 4 to 15 (R19). -/
def setRegWord (c : Ctx) (n : Nat) (x : Word) : Ctx :=
  if n < 8 then setS c (BitVec.ofNat 2 (n - 4)) x
  else
    let k := BitVec.ofNat 2 ((n - 8) / 2)
    if n % 2 = 0 then setV c k ((getV c k).extractLsb' 64 64 ++ x)
    else setV c k (x ++ (getV c k).extractLsb' 0 64)

/-- The fields of word 0 that both `CTXW` and firmware write; `PC` loses bits 1:0 (R14, R46). -/
def putWord0 (c : Ctx) (x : Word) : Ctx :=
  { c with
    intrap := x.getLsbD 60, dhalt := x.getLsbD 59, step := x.getLsbD 58, sup := x.getLsbD 57
    pc := x.setWidth 57 &&& ~~~3 }

/-- The fields of word 1 that both write (R46). -/
def putWord1 (c : Ctx) (x : Word) : Ctx :=
  { c with cause := x.extractLsb' 56 8, detail := x.extractLsb' 32 24, p := (x.setWidth 8) ||| 1 }

/-- The fields of word 2 that both write (R46); a rounding mode of 5 to 7 is never placed (R16, R17). -/
def putWord2 (c : Ctx) (x : Word) : Ctx :=
  { c with rm := if (x.extractLsb' 49 3).toNat ≤ 4 then x.extractLsb' 49 3 else c.rm, flags := x.extractLsb' 44 5, prio := x.extractLsb' 40 4 }

/-- A write by `CTXW` to a word of another thread's line (R46). -/
def ctxwWord (c : Ctx) (n : Nat) (x : Word) : Ctx :=
  match n with
  | 0 => putWord0 c x
  | 1 => putWord1 c x
  | 2 => putWord2 c x
  | 3 => c
  | _ => if isPend c (regOfWord n) false then c else setRegWord c n x

/-- A write by firmware to a word of a line (R46): while `FRZ` is 1 it writes every field but `WKIND`. -/
def firmwareWord (c : Ctx) (n : Nat) (x : Word) : Ctx :=
  match n with
  | 0 =>
    let d := putWord0 c x
    if c.frz then { d with frz := x.getLsbD 61, hact := x.getLsbD 62 } else d
  | 1 =>
    let d := putWord1 c x
    if c.frz then
      { d with hslot1 := x.extractLsb' 28 4, hslot0 := x.extractLsb' 24 4, pendv := x.extractLsb' 20 4,
               pends := x.extractLsb' 16 4, outst := x.extractLsb' 8 4 }
    else d
  | 2 => { putWord2 c x with lslot := x.extractLsb' 32 8, ctxid := x.extractLsb' 0 32 }
  | 3 => { c with geo := x }
  | _ => if isPend c (regOfWord n) false && !c.frz then c else setRegWord c n x

/-! Accessors of the state. -/

def findThread (s : State) (k : Key) : Option Thread := s.threads.find? fun t => t.key == k

def setThread (s : State) (t : Thread) : State :=
  { s with threads := modifyFirst (fun x => x.key == t.key) (fun _ => t) s.threads }

def addThread (s : State) (t : Thread) : State := { s with threads := s.threads ++ [t] }

def dropThread (s : State) (k : Key) : State := { s with threads := s.threads.filter fun t => t.key != k }

/-- Changes a thread if it exists. -/
def onThread (s : State) (k : Key) (f : Thread → Thread) : State :=
  { s with threads := modifyFirst (fun x => x.key == k) f s.threads }

def findSpace (s : State) (a : BitVec 16) : Option Space := s.spaces.find? fun x => x.asid == a

def setSpace (s : State) (x : Space) : State :=
  { s with spaces := modifyFirst (fun y => y.asid == x.asid) (fun _ => x) s.spaces }

def onSpace (s : State) (a : BitVec 16) (f : Space → Space) : State :=
  { s with spaces := modifyFirst (fun y => y.asid == a) f s.spaces }

/-- An issue unit; an unlisted one is at its reset values. -/
def getIu (s : State) (b u : Nat) : Iu :=
  let start := ((s.pkg.dieStart.find? fun x => x.1 == b / Config.benchesPerDie).map (·.2)).getD 0
  (s.ius.find? fun x => x.bench == b && x.iu == u).getD { bench := b, iu := u, start := start }

def setIu (s : State) (x : Iu) : State :=
  { s with ius := upsert (fun y => y.bench == x.bench && y.iu == x.iu) x s.ius }

def onIu (s : State) (b u : Nat) (f : Iu → Iu) : State := setIu s (f (getIu s b u))

/-- Counts one event in `PERF` n of an issue unit (R45). -/
def count (s : State) (b u n : Nat) : State :=
  onIu s b u fun x => { x with perf := x.perf.modify n (· + 1) }

/-- The issue unit that holds a thread's line in its CL1 (R317). -/
def iuOf (t : Thread) : Option Nat :=
  match t.loc with
  | .placed (.cl1 u) => some u
  | _ => none

/-- `CYCLE`: cycles of the IU since its reset (R44). -/
def cycleOf (s : State) (b u : Nat) : Word :=
  let x := getIu s b u
  BitVec.ofNat 64 (s.run.now - x.start + Config.iuPhase b u x.start)

/-- A free value of 64 bits, and the state in which it is used up (log 2). -/
def takeFree (s : State) : Word × State :=
  (Config.freeWord s.run.fresh, { s with run := { s.run with fresh := s.run.fresh + 1 } })

/-- A number that no request in flight and no engine command has. -/
def nextSeq (s : State) : Nat :=
  s.eng.cmds.foldl (fun n c => max n (c.id + 1)) (s.flight.reqs.foldl (fun n r => max n (r.id + 1)) s.run.seq)

/-- The next number for a request, a command or a joining line. -/
def takeSeq (s : State) : Nat × State := (nextSeq s, { s with run := { s.run with seq := nextSeq s + 1 } })

def emit (s : State) (o : Out) : State := { s with fw := { s.fw with out := s.fw.out ++ [o] } }

end Sys2Proof.Machine
end

