-- ==== Sys2Proof/Machine/Handles.lean ====
section
/-! DEFINITION. The tile handle table (R35, R36), and what loads see of the ranges that only hardware writes (R12, R36,
R201). -/

namespace Sys2Proof.Machine
open Sys2Proof.Forms

/-- An entry of an address space; one that nothing has written is all zeros (R36). -/
def getHandle (x : Space) (idx : Nat) : Handle := (x.handles.find? fun h => h.idx == idx).getD { idx := idx }

def putHandle (x : Space) (h : Handle) : Space := { x with handles := upsert (fun y => y.idx == h.idx) h x.handles }

def onHandle (s : State) (asid : BitVec 16) (idx : Nat) (f : Handle → Handle) : State :=
  onSpace s asid fun x => putHandle x (f (getHandle x idx))

/-- One word of an entry (R36). -/
def handleWord (h : Handle) (n : Nat) : Word :=
  match n with
  | 0 => bit h.v ++ bit h.busy ++ h.pin ++ h.nfr ++ h.hbench ++ h.hiu ++ (0 : BitVec 32)
  | 1 => h.gen ++ (0 : BitVec 8) ++ h.frames
  | 2 => h.rows ++ h.cols ++ h.fmt ++ (0 : BitVec 24)
  | _ => h.owner ++ (0 : BitVec 32)

/-- A word of slot 0 of the context area, the context pool (R335). -/
def poolWord (x : Space) (n : Nat) : Word :=
  match n with
  | 1 => BitVec.ofNat 32 x.free.length ++ x.free.headD 0
  | 2 => x.hwm.setWidth 64
  | 3 => x.limit.setWidth 64
  | 4 => x.live.setWidth 64
  | _ => 0

/-- Word 0 of a free context slot: the next free id (R335, R336). -/
def freeLink (x : Space) (i : BitVec 32) : Option Word :=
  (x.free.zipIdx.find? fun y => y.1 == i).map fun y => (1 : BitVec 1) ++ (0 : BitVec 31) ++ (x.free.drop (y.2 + 1)).headD 0

/-- A word of a context slot where it is not what memory holds: the pool, a free slot's link, a line that is in no cache and
so stands in its slot (R12, R317, R335). -/
def slotView (s : State) (x : Space) (i : BitVec 32) (n : Nat) : Option Word :=
  if i == 0 then some (poolWord x n)
  else match freeLink x i with
    | some w => if n == 0 then some w else none
    | none => (findThread s ⟨x.asid, i⟩).bind fun t => if t.loc == .placed .hbm then some (slotWord t n) else none

/-- The 64-bit word at an address of the handle table or of the context area, where hardware keeps it elsewhere than in
memory (R12, R36). -/
def wordView (s : State) (x : Space) (va : Nat) : Option Word :=
  let tab := x.htbase.toNat * 4096
  let area := x.ctxbase.toNat * 2 ^ 40
  if decide (tab ≤ va) && decide (va < tab + 32 * x.htsize.toNat) then
    some (handleWord (getHandle x ((va - tab) / 32)) ((va - tab) / 8 % 4))
  else if decide (area ≤ va) && decide (va < area + 2 ^ 40) then
    slotView s x (BitVec.ofNat 32 ((va - area) / 256)) ((va - area) / 8 % 32)
  else none

/-- `n` bytes, at most 8, as a load sees them where memory holds `v`. -/
def partView (s : State) (x : Space) (va n : Nat) (v : Vec) : Vec :=
  match wordView s x va with
  | some w => (w >>> (8 * (va % 8))).setWidth 128 &&& (BitVec.allOnes 128 >>> (128 - 8 * n))
  | none => v

/-- What a load sees where memory holds `v`: the handle table, the context pool and the lines in their slots as they stand
(R12, R36, log 86). -/
def softView (s : State) (asid : BitVec 16) (va n : Nat) (v : Vec) : Vec :=
  match findSpace s asid with
  | none => v
  | some x =>
    if n ≤ 8 then partView s x va n v
    else (partView s x (va + 8) 8 (v >>> 64) <<< 64) ||| partView s x va 8 (v &&& (BitVec.allOnes 128 >>> 64))

end Sys2Proof.Machine
end

