-- ==== Sys2Proof/Machine/Cache.lean ====
section
/-! DEFINITION. Caches, directory, D copies and host states (12_caches_coherence_host, R197, R198, R287).
Memory holds the coherent value of every byte; the data L1s hold the copies that may be older. -/

namespace Sys2Proof.Machine
open Sys2Proof.Forms

/-- The number that stands for the LLC among the benches of `Cache.l2`: a copy of a host line in the LLC. -/
abbrev llcAgent : Nat := Config.benches

/-- What a request wants of a line (R297, R309). -/
inductive Need where
  | read | write | delta | home
  deriving DecidableEq, Repr

def devAddr : Phys → Nat
  | .dev a => a
  | _ => 0

/-! Data L1. -/

def l1Find (s : State) (b u : Nat) (line : Phys) : Option L1Line :=
  s.cache.l1.find? fun x => x.bench == b && x.iu == u && x.line == line

/-- The 128 bytes of a line as memory holds them. -/
def lineData (m : Mem) (line : Phys) : BitVec 1024 :=
  match line with
  | .dev a => BitVec.ofNat 1024 (natOfBytes (readBytes m.dev a 128))
  | .hostC a | .hostU a => BitVec.ofNat 1024 (natOfBytes (readBytes m.host a 128))
  | .peer .. => 0

/-- `n` bytes of line data from an offset. -/
def lineBytes (d : BitVec 1024) (off n : Nat) : Vec := (d >>> (8 * off)).setWidth 128 &&& (BitVec.allOnes 128 >>> (128 - 8 * n))

/-- Line data with `n` bytes replaced. -/
def lineSet (d : BitVec 1024) (off n : Nat) (v : Vec) : BitVec 1024 :=
  let m : BitVec 1024 := (BitVec.allOnes 128 >>> (128 - 8 * n)).setWidth 1024 <<< (8 * off)
  (d &&& ~~~m) ||| ((v.setWidth 1024 <<< (8 * off)) &&& m)

/-- The number of a line in its level: its set is the low part (log 82). -/
def lineNo : Phys → Nat
  | .dev a | .hostC a | .hostU a => a / 128
  | .peer _ _ o => o / 128

/-- The sixteen full/empty bits that travel with a device line; other lines carry none (R293). -/
def lineFe (m : Mem) (line : Phys) : BitVec 16 :=
  match line with
  | .dev a => (List.range 16).foldl (fun b i => if isFull m (a + 8 * i) then b else b &&& ~~~((1 : BitVec 16) <<< i)) 0xFFFF
  | .hostC _ | .hostU _ | .peer .. => 0xFFFF

/-- An acquire invalidates the data L1 of the issuing IU; at `.sys` also the link-window lines of its bench L2
(R174, R291, R294). -/
def acquireL1 (s : State) (b u : Nat) (scp : Scope) : State :=
  { s with cache := { s.cache with
      l1 := s.cache.l1.filter fun x => !(x.bench == b && x.iu == u)
      l2 := if scp == .sys then s.cache.l2.filter fun x => !(x.bench == b && isPeer x.line) else s.cache.l2 } }

/-- Drops one of the lines that an entry competes with for its set when their number has reached the ways: a free pick,
since the spec names no replacement rule (log 82). -/
def makeRoom {α : Type} [DecidableEq α] (pick ways : Nat) (rivals all : List α) : List α :=
  if rivals.length < ways then all
  else match rivals[pick % rivals.length]? with
    | some x => all.erase x
    | none => all

/-- Ways of a level that are not power-gated, of a number of them (R316). -/
def openWays (s : State) (lvl : CacheLevel) (n : Nat) : Nat := n - (s.cache.gated.filter fun x => x.1 == lvl).length

/-- The other lines of an IU's data L1 in the set of a line (R292). -/
def l1Rivals (s : State) (b u : Nat) (line : Phys) : List L1Line :=
  s.cache.l1.filter fun x => x.bench == b && x.iu == u && x.line != line && lineNo x.line % Config.l1Sets == lineNo line % Config.l1Sets

/-- A line with given bytes enters an IU's data L1 (R292, R294). -/
def l1Put (s : State) (b u : Nat) (line : Phys) (d : BitVec 1024) : State :=
  let rivals := l1Rivals s b u line
  let ways := openWays s (.l1 b u) Config.l1Ways
  { s with
    run := if rivals.length < ways then s.run else { s.run with fresh := s.run.fresh + 1 }
    cache := { s.cache with
      l1 := upsert (fun x => x.bench == b && x.iu == u && x.line == line)
        { bench := b, iu := u, line := line, data := d, fe := lineFe s.mem line }
        (makeRoom (Config.freePick s.run.fresh) ways rivals s.cache.l1) } }

/-- A load that misses allocates the line (R294). -/
def l1Fill (s : State) (b u : Nat) (line : Phys) : State := l1Put s b u line (lineData s.mem line)

/-- The data L1 of an IU shows what memory holds, without a line entering or leaving it: what a stream instruction read and
wrote comes before what its thread issues after it (R236, R284). -/
def l1Renew (s : State) (b u : Nat) : State :=
  { s with cache := { s.cache with
    l1 := s.cache.l1.map fun x => if x.bench == b && x.iu == u && !isPeer x.line then { x with data := lineData s.mem x.line } else x } }

/-! Instruction caches. -/

def iFind (s : State) (b u : Nat) (line : Phys) : Option ILine :=
  s.cache.icache.find? fun x => x.bench == b && x.iu == u && x.line == line

/-- A line that a fetch has missed enters the instruction cache (R3). -/
def iFill (s : State) (b u : Nat) (line : Phys) : State :=
  let mine := s.cache.icache.filter fun x => x.bench == b && x.iu == u
  { s with
    run := if mine.length < Config.icacheLines then s.run else { s.run with fresh := s.run.fresh + 1 }
    cache := { s.cache with
      icache := { bench := b, iu := u, line := line, data := lineData s.mem line } ::
        makeRoom (Config.freePick s.run.fresh) Config.icacheLines mine s.cache.icache } }

/-- Before a release completes, the stale copies of every instruction cache are gone (R78). -/
def dropStale (s : State) : State :=
  { s with cache := { s.cache with icache := s.cache.icache.filter fun x => x.data == lineData s.mem x.line } }

/-- A store updates the issuing IU's copy (R294). -/
def l1Store (s : State) (b u : Nat) (p : Phys) (n : Nat) (v : Vec) : State :=
  { s with cache := { s.cache with
    l1 := modifyFirst (fun x => x.bench == b && x.iu == u && x.line == lineOf p)
      (fun x => { x with data := lineSet x.data (lineOff p) n v }) s.cache.l1 } }

/-- Removes a line from the data L1s of a bench, or of every bench (R294, R199). -/
def l1Drop (s : State) (b : Option Nat) (line : Phys) : State :=
  { s with cache := { s.cache with
    l1 := s.cache.l1.filter fun x => !(x.line == line && (b == none || b == some x.bench)) } }

/-! Bench L2 states. -/

def l2Find (s : State) (b : Nat) (line : Phys) : Option L2State :=
  (s.cache.l2.find? fun x => x.bench == b && x.line == line).map (·.st)

def l2Set (s : State) (b : Nat) (line : Phys) (st : L2State) : State :=
  { s with cache := { s.cache with
    l2 := upsert (fun x => x.bench == b && x.line == line) { bench := b, line := line, st := st } s.cache.l2 } }

/-- Invalidates a bench's copy; the data L1s of the bench may keep an older one (R278, R294). -/
def l2Drop (s : State) (b : Nat) (line : Phys) : State :=
  { s with cache := { s.cache with l2 := s.cache.l2.filter fun x => !(x.bench == b && x.line == line) } }

def l2Has (s : State) (line : Phys) : List Nat := (s.cache.l2.filter fun x => x.line == line).map (·.bench)

/-- Invalidates every bench copy of a line but one. -/
def l2DropOthers (s : State) (b : Option Nat) (line : Phys) : State :=
  ((l2Has s line).filter fun c => b != some c).foldl (fun s c => l2Drop s c line) s

/-- Owners keep a readable copy when another agent reads: M becomes O, E becomes S (R297, R299). -/
def l2Share (s : State) (b : Nat) (line : Phys) : State :=
  { s with cache := { s.cache with
    l2 := s.cache.l2.map fun x =>
      if x.line == line && x.bench != b then
        { x with st := match x.st with
          | .m => .o
          | .e => .s
          | st => st }
      else x } }

/-! D copies (R197, R198, R287). -/

/-- Adds a delta into the D copy of a bench, which starts at the identity (R287). -/
def deltaAdd (s : State) (b : Nat) (p : Phys) (op : AOp) (t : Ty) (v : Word) : State :=
  let q := fun (x : DSum) => x.bench == b && x.addr == p && x.op == op && x.ty == t
  let old := ((s.cache.dsums.find? q).map (·.sum)).getD (deltaZero op t)
  { s with cache := { s.cache with
    dsums := upsert q { bench := b, addr := p, op := op, ty := t
                        sum := (amoOper op t (old.setWidth 128) (v.setWidth 128)).setWidth 64 } s.cache.dsums } }

/-- One pairwise addition of a merge, chosen by a free pick: a D copy goes into any other D copy of the same
word, operation and type, or into the home value (R198, R287). -/
def mergeOne (m : Mem) (ds : List DSum) (pick : Nat) : Mem × List DSum :=
  match ds[pick % ds.length]? with
  | none => (m, [])
  | some x =>
    let rest := ds.eraseIdx (pick % ds.length)
    let into := fun (y : DSum) => y.addr == x.addr && y.op == x.op && y.ty == x.ty
    let n := (rest.filter into).length
    match ((List.range rest.length).filter fun j => (rest[j]?).any into)[(pick / ds.length) % (n + 1)]? with
    | some j => (m, rest.modify j fun y => { y with
        sum := (amoOper x.op x.ty (y.sum.setWidth 128) (x.sum.setWidth 128)).setWidth 64 })
    | none =>
      (physWrite m x.addr (bytes x.ty) (amoOper x.op x.ty (physRead m x.addr (bytes x.ty)) (x.sum.setWidth 128)),
        rest)

def mergeAll : Nat → Mem → List DSum → Nat → Mem
  | 0, m, _, _ => m
  | _, m, [], _ => m
  | k + 1, m, ds, f =>
    let r := mergeOne m ds (Config.freePick f)
    mergeAll k r.1 r.2 (f + 1)

/-- The merge of a line's D copies at its home; the epoch ends (R198). -/
def mergeLine (s : State) (line : Phys) : State :=
  let q := fun (x : DSum) => lineOf x.addr == line
  let ds := s.cache.dsums.filter q
  if ds.isEmpty then s
  else
    { s with
      mem := mergeAll ds.length s.mem ds s.run.fresh
      run := { s.run with fresh := s.run.fresh + ds.length }
      cache := { s.cache with
        dsums := s.cache.dsums.filter fun x => !q x
        l2 := s.cache.l2.filter fun x => !(x.line == line && x.st == .d) } }

/-! Host states of device lines (R307). -/

def hostStOf (s : State) (a : Nat) : Option HostSt :=
  ((s.cache.hostState.find? fun x => x.1 == a / 128 * 128)).map (·.2)

/-! Holds on lines (R189 to R194, R288). -/

/-- The hold registers in use, with where they are. -/
def holdsOf (s : State) : List (Nat × Nat × HoldReg) :=
  s.ius.flatMap fun x => x.holds.filterMap fun h => h.map fun r => (x.bench, x.iu, r)

/-- The hold on a line, if one is granted. -/
def lineHold (s : State) (line : Phys) : Option HoldReg :=
  ((holdsOf s).find? fun x => x.2.2.line == line).map (·.2.2)

/-! Room in the bench L2 and in the LLC (R292). -/

/-- What the device tells the host when it gives up a host line of which nothing is left (R304). -/
def tellEvict (s : State) (line : Phys) (st : L2State) : State :=
  if s.cache.l2.any fun x => x.line == line then s
  else match line, st with
    | .hostC a, .m | .hostC a, .o => emit s (.dirtyEvict a (readBytes s.mem.host a 128))
    | .hostC a, .e => emit s (.cleanEvict a)
    | _, _ => s

/-- The other lines of an LLC slice in the set of a line: device lines, and host lines that stand in it (R292, R295). -/
def llcRivals (s : State) (line : Phys) : List Phys :=
  ((s.cache.llc.map fun x => Phys.dev x.addr) ++ (s.cache.l2.filter fun x => x.bench == llcAgent).map (·.line)).filter fun p =>
    p != line && lineNo p % Config.llcSets == lineNo line % Config.llcSets && Config.sliceOf (lineNo p) == Config.sliceOf (lineNo line)

/-- Ways of a slice that hold data: four steps of the context partition take one (R296, R316). -/
def llcDataWays (s : State) (slice : Nat) : Nat := openWays s (.llc slice) (Config.llcWays - (s.cache.part + 3) / 4)

/-- A line leaves the LLC: a device line goes to HBM, a host line back to the host (R292, R304). -/
def llcDrop (s : State) (p : Phys) : State :=
  let st := ((s.cache.l2.find? fun x => x.bench == llcAgent && x.line == p).map (·.st)).getD .s
  tellEvict { s with cache := { s.cache with
    llc := s.cache.llc.filter fun x => .dev x.addr != p
    l2 := s.cache.l2.filter fun x => !(x.bench == llcAgent && x.line == p) } } p st

/-- Makes room for a line in its set of its LLC slice (R292). -/
def llcRoom (s : State) (line : Phys) : State :=
  let r := llcRivals s line
  if r.length < llcDataWays s (Config.sliceOf (lineNo line)) then s
  else match r[Config.freePick s.run.fresh % r.length]? with
    | some p => llcDrop { s with run := { s.run with fresh := s.run.fresh + 1 } } p
    | none => s

/-- A device line is in the LLC, dirty when its bytes have not gone to HBM (R292). -/
def llcPut (s : State) (a : Nat) (dirty : Bool) : State :=
  let old := s.cache.llc.any fun x => x.addr == a && x.dirty
  let s1 := if s.cache.llc.any fun x => x.addr == a then s else llcRoom s (.dev a)
  { s1 with cache := { s1.cache with llc := upsert (fun x => x.addr == a) { addr := a, dirty := dirty || old } s1.cache.llc } }

/-- Eviction of a line from a bench L2 (R198, R292, R294, R304): D copies are merged, inclusion takes it from the data L1s,
what is dirty goes to the LLC. -/
def l2Evict (s : State) (x : L2Line) : State :=
  let s1 := if x.st == .d then mergeLine s x.line else s
  let s2 := l1Drop (l2Drop s1 x.bench x.line) (some x.bench) x.line
  let dirty := x.st == .m || x.st == .o
  match x.line with
  | .dev a => llcPut s2 a (dirty || x.st == .d)
  | .hostC _ => if dirty || x.st == .e then l2Set (llcRoom s2 x.line) llcAgent x.line (if dirty then .m else .e) else s2
  | _ => s2

/-- The other lines of a bench L2 in the set of a line (R292). -/
def l2Rivals (s : State) (b : Nat) (line : Phys) : List L2Line :=
  s.cache.l2.filter fun x => x.bench == b && x.line != line && lineNo x.line % Config.l2Sets == lineNo line % Config.l2Sets

/-- Makes room for a line in a bench L2; a line under a hold stays (R292, R194). -/
def l2Room (s : State) (b : Nat) (line : Phys) : State :=
  let r := l2Rivals s b line
  if b == llcAgent then llcRoom s line
  else if r.length < openWays s (.l2 b) Config.l2Ways then s
  else
    let free := r.filter fun x => (lineHold s x.line).isNone
    match free[Config.freePick s.run.fresh % free.length]? with
    | some x => l2Evict { s with run := { s.run with fresh := s.run.fresh + 1 } } x
    | none => s

/-- A line is in a bench L2 in a state. -/
def l2Put (s : State) (b : Nat) (line : Phys) (st : L2State) : State :=
  l2Set (if (l2Find s b line).isSome then s else l2Room s b line) b line st

/-- A link-window line is in a bench L2, clean, with the bytes that the peer gave (R291). -/
def l2Keep (s : State) (b : Nat) (line : Phys) (d : BitVec 1024) : State :=
  let s1 := l2Put s b line .s
  { s1 with cache := { s1.cache with l2 := s1.cache.l2.map fun x => if x.bench == b && x.line == line then { x with data := d } else x } }

/-- A write to a link window updates the copies of its own IU and bench (R291, R294). -/
def ownPeerCopies (s : State) (b u : Nat) (p : Phys) (n : Nat) (v : Vec) : State :=
  let s1 := l1Store s b u p n v
  { s1 with cache := { s1.cache with l2 := s1.cache.l2.map fun x =>
      if x.bench == b && x.line == lineOf p then { x with data := lineSet x.data (lineOff p) n v } else x } }

/-! The region directory (R298 to R301). -/

def dirFind (s : State) (a : Nat) : Option DirEnt :=
  s.cache.dir.find? fun e => decide (e.base ≤ a) && decide (a < e.base + e.size)

/-- Halves a region until it is the line at `a`; the halves left behind keep the old kind (R299). -/
def splitRegion (kind : DirKind) (since a : Nat) : Nat → Nat → Nat → List DirEnt
  | 0, _, _ => []
  | f + 1, base, size =>
    if size ≤ 128 then []
    else
      let h := size / 2
      if a < base + h then ⟨base + h, h, kind, since⟩ :: splitRegion kind since a f base h
      else ⟨base, h, kind, since⟩ :: splitRegion kind since a f (base + h) h

/-- The compute dies of benches, each once. -/
def diesOf (l : List Nat) : List Nat := (l.map (· / Config.benchesPerDie)).eraseDups

/-- Records a list of benches: exactly when there are at most eight, else by their dies (R298). -/
def sharersOf (l : List Nat) : Sharers := if l.length ≤ 8 then .benches l else .dies (diesOf l)

/-- Adds a bench to what an entry records (R298). -/
def withBench (x : Sharers) (b : Nat) : Sharers :=
  match x with
  | .benches l => if l.contains b then x else sharersOf (l ++ [b])
  | .dies l => if l.contains (b / Config.benchesPerDie) then x else .dies (l ++ [b / Config.benchesPerDie])

/-- Takes a bench, which is recorded otherwise, out of an exact list. -/
def withoutBench (x : Sharers) (b : Nat) : Sharers :=
  match x with
  | .benches l => .benches (l.filter (· != b))
  | .dies l => .dies l

/-- The union of what two entries record (R300). -/
def joinSharers (x y : Sharers) : Sharers :=
  match x, y with
  | _, .benches l => l.foldl withBench x
  | .benches l, .dies d => .dies (d ++ (diesOf l).filter fun i => !d.contains i)
  | .dies e, .dies d => .dies (e ++ d.filter fun i => !e.contains i)

/-- Whether the home probes a bench: it is recorded, or its die is (R298). -/
def probes (x : Sharers) (b : Nat) : Bool :=
  match x with
  | .benches l => l.contains b
  | .dies l => l.contains (b / Config.benchesPerDie)

/-- The entry's kind after a request that fits it; none when the request does not fit (R299). -/
def dirFits (kind : DirKind) (need : Need) (b : Nat) : Option DirKind :=
  match kind, need with
  | .shr l, .read => some (.shr (withBench l b))
  | .own c, .read => if c == b then some (.own c) else none
  | .own c, .write => if c == b then some (.own c) else none
  | .osh c l, .read => if c == b then some (.osh c l) else some (.osh c (withBench l b))
  | .del l, .delta => some (.del (withBench l b))
  | _, _ => none

/-- The kind of a single line's entry after its copies have been brought to what the request needs, from the copies that the
bench L2s hold; a line that the host holds keeps an entry (R299, R307, Example 1 of chapter 12). -/
def dirAfter (s : State) (line : Phys) : Option DirKind :=
  let l := s.cache.l2.filter fun x => x.line == line
  if l.isEmpty then (if (hostStOf s (devAddr line)).isSome then some (.shr (.benches [])) else none)
  else if l.any fun x => x.st == .d then some (.del (sharersOf (l.map (·.bench))))
  else match l.find? fun x => x.st == .m || x.st == .e || x.st == .o with
    | some o =>
      let rest := (l.filter fun x => x.bench != o.bench).map (·.bench)
      if rest.isEmpty && o.st != .o then some (.own o.bench) else some (.osh o.bench (sharersOf rest))
    | none => some (.shr (sharersOf (l.map (·.bench))))

/-- Replaces the entry of the region of `a` by the entries of its split and the entry of the line (R299). -/
def dirPut (s : State) (a : Nat) : State :=
  let old := dirFind s a
  let rest := s.cache.dir.filter fun e => !(decide (e.base ≤ a) && decide (a < e.base + e.size))
  let sib := match old with
    | some e => splitRegion e.kind e.since a 16 e.base e.size
    | none => []
  let line := a / 128 * 128
  let mine := match dirAfter s (.dev line) with
    | some k => [⟨line, 128, k, s.run.now⟩]
    | none => []
  { s with cache := { s.cache with dir := rest ++ sib ++ mine } }

/-- The home of a line's entries. -/
def dirDie (e : DirEnt) : Nat := Config.homeDie e.base

/-- Entries that a request may add: those of a split of a 64 KiB region, and the line's (R299). -/
def dirNew (s : State) (a : Nat) : Nat :=
  match dirFind s a with
  | some e => Nat.log2 (e.size / 128)
  | none => 1

/-- The region that the home recalls next for a request at `a`: the least recently used one when its entries, and those that
the request adds, do not fit (R301). -/
def dirVictim (s : State) (a : Nat) : Option DirEnt :=
  if s.cache.dir.length + dirNew s a ≤ Config.directoryEntries then none
  else
    let mine := s.cache.dir.filter fun e => dirDie e == Config.homeDie a
    if mine.length + dirNew s a ≤ Config.directoryEntries then none
    else leastBy (·.since) (mine.filter fun e => !(decide (e.base ≤ a) && decide (a < e.base + e.size)))

/-- Whether a location lies in a region. -/
def inRegion (e : DirEnt) (p : Phys) : Bool :=
  match p with
  | .dev a => decide (e.base ≤ a) && decide (a < e.base + e.size)
  | _ => false

/-- Recall of a region: dirty data goes to the home, D copies are merged, every copy is invalidated, the region is untracked
(R301). -/
def dirRecall (s : State) (e : DirEnt) : State :=
  let s1 := (s.cache.dsums.map fun x => lineOf x.addr).foldl (fun s l => if inRegion e l then mergeLine s l else s) s
  let s2 := (s1.cache.l2.filter fun x => inRegion e x.line).foldl (fun s x => match x.line with
    | .dev a => llcPut (l2Drop s x.bench x.line) a (x.st == .m || x.st == .o)
    | _ => s) s1
  { s2 with cache := { s2.cache with dir := s2.cache.dir.filter fun x => x != e } }

/-- What a recall waits for: a hold on a line of the region, or the host's copy of one (R194, R301, R307). -/
inductive Gate where
  | go
  | wait
  | snoop (line : Nat)
  deriving DecidableEq, Repr

/-- What the recall waits for that a request at `a` needs first (R301). -/
def recallGate (s : State) (a : Nat) : Gate :=
  match dirVictim s a with
  | none => .go
  | some e =>
    if (holdsOf s).any fun h => inRegion e h.2.2.line then .wait
    else match s.cache.hostState.find? fun x => inRegion e (.dev x.1) with
      | some x => .snoop x.1
      | none => .go

/-- Recalls regions until a request has room for its entries (R301). -/
def dirRoom (a : Nat) : Nat → State → State
  | 0, s => s
  | n + 1, s => match dirVictim s a, recallGate s a with
    | some e, .go => dirRoom a n (dirRecall s e)
    | _, _ => s

/-- The bench L2s after a request of bench `b`: copies of other benches are shared or invalidated, its own enters (R297). -/
def bringCopies (s : State) (b : Nat) (line : Phys) (need : Need) : State :=
  match need with
  | .read =>
    let t := l2Share s b line
    if (l2Find t b line).isSome then t else l2Put t b line .s
  | .write => l2Put (l2DropOthers s (some b) line) b line .m
  | .delta =>
    let t := ((s.cache.l2.filter fun x => x.line == line && x.st != .d).map (·.bench)).foldl
      (fun s c => l2Drop s c line) (l1Drop s (some b) line)
    l2Put t b line .d
  | .home => l2DropOthers s none line

/-- The directory after a request: its region's entry takes the kind that fits, or is split (R299). -/
def dirNote (s : State) (a : Nat) (fit : Option DirKind) : State :=
  match fit, dirFind s a with
  | some k, some e =>
    { s with cache := { s.cache with dir := modifyFirst (fun x => x == e) (fun x => { x with kind := k, since := s.run.now }) s.cache.dir } }
  | _, _ => dirPut s a

/-- Whether the bytes of a line come from, or go through, another agent's dirty copy. -/
def dirtyElse (s : State) (b : Nat) (line : Phys) : Bool :=
  s.cache.l2.any fun x => x.line == line && x.bench != b && (x.st == .m || x.st == .o)

/-- Brings a line of device or host memory to what an agent of bench `b` needs: copies of other benches are
shared or invalidated, D copies are merged, the directory is kept (R297 to R299, R301, R303); the home serves a device line
through the LLC (R292). -/
def obtain (s : State) (b : Nat) (line : Phys) (need : Need) : State :=
  let merged := fun (s : State) => if need == .delta then s else mergeLine s line
  match line with
  | .dev a =>
    let fit := (dirFind s a).bind fun e => dirFits e.kind need b
    let s1 := merged (dirRoom a 16 s)
    llcPut (dirNote (bringCopies s1 b line need) a fit) a (need == .home || dirtyElse s1 b line)
  | _ => bringCopies (merged s) b line need

/-! Back-invalidation (R307, R309, R310). -/

def setHostSt (s : State) (a : Nat) (h : Option HostSt) : State :=
  let line := a / 128 * 128
  let rest := s.cache.hostState.filter fun x => x.1 != line
  { s with cache := { s.cache with
    hostState := match h with
      | some x => rest ++ [(line, x)]
      | none => rest } }

/-- Whether the host's copy must be given up first, and the snoop that asks for it: `some inv` (R309). -/
def hostBlocks (s : State) (line : Phys) (need : Need) : Option Bool :=
  match line with
  | .dev a => match hostStOf s a, need with
    | none, _ => none
    | some .hs, .read => none
    | some .he, .read => some false
    | some _, _ => some true
  | _ => none

/-- Starts a back-invalidation exchange on a line, once (R307, R309). -/
def sendBisnp (s : State) (line : Phys) (inv : Bool) : State :=
  let a := devAddr line
  if s.cache.bisnp.any fun x => x.line == a then s
  else emit { s with cache := { s.cache with bisnp := s.cache.bisnp ++ [{ line := a, inv := inv }] } } (.bisnp a inv)

/-! Values under a hold (R173, R192). -/

/-- The bytes a thread stored under its hold over a value read from memory (R173, R192). -/
def overlayHold (h : HoldReg) (off n : Nat) (v : Vec) : Vec :=
  h.bytes.foldl (fun v x => if decide (off ≤ x.1) && decide (x.1 < off + n)
    then (lineSet (v.setWidth 1024) (x.1 - off) 1 (x.2.setWidth 128)).setWidth 128 else v) v

/-- The current value at a location, with the D copies merged before and the owner's hold overlay (R173, R198). -/
def readCoherent (s : State) (k : Option Key) (p : Phys) (n : Nat) : Vec :=
  let v := physRead s.mem p n
  match lineHold s (lineOf p) with
  | some h => if some h.key == k then overlayHold h (lineOff p) n v else v
  | none => v

/-- One write performed by an agent of a bench: the coherent bytes, and the IU's own L1 copy (R294). -/
def writeBy (s : State) (b u : Nat) (p : Phys) (n : Nat) (v : Vec) : State :=
  l1Store { s with mem := physWrite s.mem p n v } b u p n v

/-- One write performed at the home (R302): no bench copy of the line stays. -/
def writeHome (s : State) (p : Phys) (n : Nat) (v : Vec) : State :=
  let s1 := obtain s 0 (lineOf p) .home
  { s1 with mem := physWrite s1.mem p n v }

/-- The stores made under a hold become one write when the hold ends (R288). -/
def flushHold (s : State) (b u : Nat) (h : HoldReg) : State :=
  h.bytes.foldl (fun s x => writeBy s b u (physAdd h.line x.1) 1 (x.2.setWidth 128)) s

end Sys2Proof.Machine
end

