-- ==== Sys2Proof/Machine/Ops.lean ====
section
/-! DEFINITION. Operations every instruction shares: waits and wait kinds (R24 to R27), the ready list (R326), holds
(R193, R195), halts and debug events (R393 to R399), taking a trap and returning from one (R33, R268, R273,
R274), and the checks and the retirement of an instruction (R75 steps 8 to 11, R25). -/

namespace Sys2Proof.Machine
open Sys2Proof.Forms

/-- The module runs: brought up, not stopped by a fatal event, its rails on (R406, R408, R409). -/
def running (s : State) : Bool := s.pkg.stage == 7 && s.pkg.fatal.isNone && s.pkg.rails

/-! Places, readiness and wait kinds. -/

/-- Whether the line is in a CL1, or on its way into one. -/
def inCl1 (t : Thread) : Bool :=
  match t.loc with
  | .placed (.cl1 _) => true
  | _ => false

def isMoving (t : Thread) : Bool :=
  match t.loc with
  | .moving .. => true
  | _ => false

def suspended (s : State) (a : BitVec 16) : Bool := ((findSpace s a).map (·.susp)).getD false

/-- Parked: it waits for something (R27). -/
def parked (t : Thread) : Bool := t.wait != .run || t.pend.isSome

/-- May issue: not parked, not frozen, not halted, its address space not suspended (R13, R319). -/
def isReady (s : State) (t : Thread) : Bool :=
  !parked t && !t.ctx.frz && !t.ctx.dhalt && !suspended s t.key.asid

/-- Whether the replay of a record is under way (R31). -/
def replays (s : State) (k : Key) (i : BitVec 2) : Bool :=
  s.flight.reqs.any fun r => r.key == k && r.ri == some i && match r.st with
    | .record .. | .replay _ => false
    | _ => true

/-- Whether a valid retry record is not yet replayed (R27). -/
def anyRec (s : State) (t : Thread) : Bool := recIdx.any fun i => (getRec t.trap i).valid && !replays s t.key i

/-- The wait kind of a parked thread (R27); a full engine queue shows unless a record waits for its replay. -/
def parkKind (s : State) (t : Thread) : BitVec 4 :=
  if anyRec s t then 4
  else if t.wait == .engq && t.pend.isNone then 3
  else if s.flight.reqs.any fun r => r.key == t.key && r.st == .listed then 2
  else 1

/-- `WKIND` as R27 derives it from the line's state. -/
def wkindOf (s : State) (t : Thread) : BitVec 4 :=
  if parked t then parkKind s t
  else if inCl1 t then 0
  else if t.ctx.wkind == 0 then 0 else 5

/-- Neither parked nor frozen nor halted. -/
def mayIssue (t : Thread) : Bool := !parked t && !t.ctx.frz && !t.ctx.dhalt

/-- Whether the line belongs on its bench's ready list (R326): a suspended space's line stays where it is, and
joins only when it is not suspended. -/
def listable (t : Thread) : Bool := !inCl1 t && !isMoving t && mayIssue t

/-- Joins the ready list at the level of its priority (R327). -/
def joinReady (s : State) (t : Thread) : State :=
  let r := takeSeq s
  setThread r.2 { t with ready := some { level := t.ctx.prio.toNat, since := s.run.now, join := r.1 }, yielded := false }

/-- Whether the thread is parked with the result of its second `HOLD` outstanding (R191). -/
def leasePaused (s : State) (t : Thread) : Bool :=
  parked t && s.flight.reqs.any fun r => r.key == t.key && r.op == .hold true

/-- The pause of a lease begins or ends (R191). -/
def pauseHold (now : Nat) (on : Bool) (h : HoldReg) : HoldReg :=
  match h.pauseFrom, on with
  | none, true => { h with pauseFrom := some now }
  | some p, false => { h with pauseFrom := none, paused := min Config.leaseCycles (h.paused + (now - p)) }
  | _, _ => h

/-- Keeps the lease counts of a thread's holds (R191). -/
def pauseHolds (s : State) (t : Thread) : State :=
  if t.ctx.hact then
    let on := leasePaused s t
    let f := fun (o : Option HoldReg) => o.map fun r => if r.key == t.key then pauseHold s.run.now on r else r
    { s with ius := s.ius.map fun x => { x with holds := x.holds.map f } }
  else s

/-- The lease count of a hold (R191). -/
def leaseCount (now : Nat) (h : HoldReg) : Nat :=
  let extra := match h.pauseFrom with
    | some p => now - p
    | none => 0
  (now - h.granted) - min Config.leaseCycles (h.paused + extra)

/-- Recomputes `WKIND` and the ready-list membership of a thread, and keeps its lease counts (R27, R191, R326); a listed line
that is spilled keeps its entry (R321). -/
def refresh (s0 : State) (k : Key) : State :=
  match findThread s0 k with
  | none => s0
  | some t0 =>
    let s := pauseHolds s0 t0
    let t := { t0 with ctx := { t0.ctx with wkind := wkindOf s t0 } }
    if listable t then
      if t.ready.isSome || suspended s k.asid then setThread s t else joinReady s t
    else setThread s { t with ready := if isMoving t && mayIssue t then t.ready else none }

/-! Holds (R193, R195, R288). -/

/-- Ends the hold in one register of an IU: the stores made under it become one write, the register is free, the
thread's slot is invalid, and `HACT` clears with the last one (R193). -/
def endHoldAt (s : State) (b u i : Nat) : State :=
  match ((getIu s b u).holds[i]?).join with
  | none => s
  | some h =>
    let s1 := onIu (flushHold s b u h) b u fun x => { x with holds := x.holds.set i none }
    onThread s1 h.key fun t =>
      let off := fun (x : BitVec 4) => if x.getLsbD 3 && x.toNat % 8 == i then (0 : BitVec 4) else x
      let c := { t.ctx with hslot0 := off t.ctx.hslot0, hslot1 := off t.ctx.hslot1 }
      { t with ctx := { c with hact := c.hslot0.getLsbD 3 || c.hslot1.getLsbD 3 } }

/-- The registers that hold for a thread: bench, IU, index. -/
def holdPlaces (s : State) (k : Key) : List (Nat × Nat × Nat) :=
  s.ius.flatMap fun x => (x.holds.zipIdx).filterMap fun h =>
    match h.1 with
    | some r => if r.key == k then some (x.bench, x.iu, h.2) else none
    | none => none

/-- Ends every hold of a thread (R195). -/
def endHolds (s : State) (k : Key) : State :=
  (holdPlaces s k).foldl (fun s p => endHoldAt s p.1 p.2.1 p.2.2) s

/-! Debug events, sets and halts (R393 to R399). -/

def debugEvent (s : State) (evt : BitVec 8) (k : Key) : State :=
  match findThread s k with
  | none => s
  | some t => { s with fw := { s.fw with
      events := s.fw.events ++ [{ evt := evt, wkind := t.ctx.wkind, key := k, pc := t.ctx.pc }] } }

/-- The set an IU belongs to (R397). -/
def setOfIu (x : Iu) : Option (BitVec 6) := if x.dbg.getLsbD 7 then some (x.dbg.setWidth 6) else none

def getSet (s : State) (n : BitVec 6) : SetCtl := (s.fw.sets.find? fun x => x.n == n).getD { n := n }

def putSet (s : State) (x : SetCtl) : State :=
  { s with fw := { s.fw with sets := upsert (fun y => y.n == x.n) x s.fw.sets } }

/-- Halts an IU: `DHALT` on every line of its CL1 that has it clear, which ends their holds, and marks (R398). -/
def haltIu (s : State) (b u : Nat) : State :=
  let hit := fun (t : Thread) => t.bench == b && t.loc == .placed (.cl1 u) && !t.ctx.dhalt
  let ks := (s.threads.filter hit).map (·.key)
  let s1 := ks.foldl (fun s k => refresh (onThread (endHolds s k) k fun t =>
    { t with ctx := { t.ctx with dhalt := true }, marked := true }) k) s
  onIu s1 b u fun x => { x with halted := true, haltDue := none }

/-- A member IU stops within 256 cycles of the trigger on the triggering IU's die, within 1,024 on another; when is free (R398, log 26). -/
def haltMember (s : State) (b : Nat) (y : Nat × Nat) : State :=
  let bound := if b / Config.benchesPerDie == y.1 / Config.benchesPerDie then 256 else 1024
  let n := Config.freePick s.run.fresh % (bound + 1)
  let s1 := { s with run := { s.run with fresh := s.run.fresh + 1 } }
  if n == 0 then haltIu s1 y.1 y.2 else onIu s1 y.1 y.2 fun x => { x with haltDue := some (s1.run.now + n) }

/-- A trigger reaches a set: ignored while it is halted, else recorded and every member is to halt; event 3 names the
triggering thread, and has free fields when there is none (R397, R398, log 2). -/
def triggerSet (s : State) (n : BitVec 6) (trig : BitVec 3) (b u : Nat) (k : Option Key) : State :=
  let x := getSet s n
  if x.halted then s
  else
    let s1 := putSet s { x with halted := true, trig := trig, tbench := BitVec.ofNat 10 b, tiu := BitVec.ofNat 8 u }
    let s2 := ((s1.ius.filter fun y => setOfIu y == some n).map fun y => (y.bench, y.iu)).foldl
      (fun s y => haltMember s b y) s1
    match k with
    | some k => debugEvent s2 3 k
    | none =>
      let f := s2.run.fresh
      let e : DbgEvent := { evt := 3, wkind := (Config.freeWord f).setWidth 4, pc := (Config.freeWord (f + 1)).setWidth 57
                            key := ⟨(Config.freeWord (f + 2)).setWidth 16, (Config.freeWord (f + 3)).setWidth 32⟩ }
      { s2 with run := { s2.run with fresh := f + 4 }, fw := { s2.fw with events := s2.fw.events ++ [e] } }

/-- A thread's IU triggers its set when the set's enable is on (R397). -/
def triggerBy (s : State) (k : Key) (trig : BitVec 3) (enabled : SetCtl → Bool) : State :=
  match findThread s k with
  | none => s
  | some t => match iuOf t with
    | none => s
    | some u => match setOfIu (getIu s t.bench u) with
      | some n => if enabled (getSet s n) then triggerSet s n trig t.bench u (some k) else s
      | none => s

/-- The end of a step: `STEP` clears, `DHALT` sets, an event is sent, the set may be triggered (R393, R397). -/
def stepEnd (s : State) (k : Key) (evt : BitVec 8) : State :=
  let s1 := refresh (onThread s k fun t => { t with ctx := { t.ctx with step := false, dhalt := true } }) k
  triggerBy (debugEvent s1 evt k) k 2 (·.steph)

/-! Traps (R29 to R33, R272 to R274). -/

/-- A trap that an instruction raises: its cause, detail, value, words and resume PC (R30, R272). -/
structure TrapInfo where
  cause : BitVec 8
  detail : BitVec 24 := 0
  tval : Word := 0
  iw : IWord := 0
  resume : VAddr
  deriving DecidableEq, Repr

/-- The thread's trap line (R10). -/
def trapLineVa (x : Space) (k : Key) : Word :=
  ((0 : BitVec 7) ++ x.ctxbase ++ (0 : BitVec 40)) + (k.ctx.setWidth 64 <<< 8) + 128

/-- Freezing: no frame, the holds end, firmware is told, the set may be triggered (R33, R274, R355). -/
def freeze (s : State) (k : Key) (cause : BitVec 8) (detail : BitVec 24) (va : Word) : State :=
  match findThread s k with
  | none => s
  | some t =>
    let s1 := refresh (onThread (endHolds s k) k fun t => { t with ctx := { t.ctx with frz := true } }) k
    let n : Note := { cause := cause, detail := detail, va := va, key := k, lslot := t.ctx.lslot, bench := t.bench }
    triggerBy { s1 with fw := { s1.fw with notes := s1.fw.notes ++ [n] } } k 3 (·.frzh)

/-- The cause of an imprecise trap that freezes: status ISOLATION (R33, R272). -/
def isIsolation (cause : BitVec 8) (detail : BitVec 24) : Bool :=
  cause == 0x20 && detail.extractLsb' 16 8 == 0x02

/-- Discards one FATAL record: pending bits clear unless it is a store record, `OUTST` decrements (R33). -/
def dropFatal1 (t : Thread) (i : BitVec 2) : Thread :=
  let r := getRec t.trap i
  if r.valid && r.fatal then
    let o := (opdOf r.opnd).getD .zero
    let wide := r.mods.extractLsb' 10 5 == tyCode .b128
    let c := if r.str then t.ctx else clearPend t.ctx o wide
    { t with ctx := decOutst c, trap := setRec t.trap i { r with valid := false } }
  else t

/-- Discards every FATAL record (R33). -/
def dropFatals (t : Thread) : Thread := recIdx.foldl dropFatal1 t

/-- The frame and the switch to the handler (R33); a step that was pending completes (R33, R393). -/
def finishTrap (s : State) (k : Key) : State :=
  match findThread s k, findSpace s k.asid with
  | some t, some sp =>
    match t.pend with
    | none => s
    | some p =>
      let frame : TrapLine := { t.trap with
        saveW0 := (p.word0 &&& ~~~((BitVec.allOnes 57).setWidth 64)) ||| p.resume.setWidth 64
        tw1 := p.cause ++ p.detail ++ p.w1lo
        tval := p.tval
        iw01 := p.iw.setWidth 64
        iw2 := (0 : BitVec 29) ++ bit p.rvalid ++ p.ridx ++ p.iw.extractLsb' 64 32
        saveS2 := t.ctx.s2
        saveS3 := t.ctx.s3 }
      let c := { t.ctx with
        cause := p.cause, detail := p.detail, s2 := trapLineVa sp k, sup := true, intrap := true
        pc := sp.tvec ++ (0 : BitVec 2) }
      let s1 := refresh (setThread s { t with ctx := c, trap := frame, pend := none, wait := .run }) k
      if c.step then stepEnd s1 k 1 else s1
  | _, _ => s

/-- Trap entry (R33): the one operation that takes a trap, precise or imprecise. -/
def trapEntry (s : State) (k : Key) (p : PendTrap) : State :=
  match findThread s k with
  | none => s
  | some t =>
    if t.ctx.intrap then freeze s k 0x22 (p.cause.setWidth 24) 0
    else if isIsolation p.cause p.detail then freeze s k 0x20 p.detail p.tval
    else
      let s1 := endHolds s k
      let s2 := onThread s1 k fun t =>
        let t := dropFatals t
        { t with pend := some p, wait := match t.wait with
          | .fence o c => .fence o c
          | _ => .drain }
      match findThread s2 k with
      | some t2 =>
        match t2.wait with
        | .fence .. => refresh s2 k
        | _ => if t2.ctx.outst == 0 && !t2.cancel then finishTrap s2 k else refresh s2 k
      | none => s2

/-- What a trap remembers of the line at its detection (R29). -/
def pendTrap (t : Thread) (x : TrapInfo) (rec : Option (BitVec 2)) : PendTrap :=
  { cause := x.cause, detail := x.detail, tval := x.tval, iw := x.iw, rvalid := rec.isSome, ridx := rec.getD 0
    resume := x.resume, word0 := word0 t.ctx, w1lo := (word1 t.ctx).setWidth 32 }

/-- Opcodes of engine commands (R212, R249): the only records that name them are those of token faults (R40). -/
def isEngineOpc (o : BitVec 10) : Bool :=
  o == 0x210 || o == 0x211 || o == 0x212 || o == 0x213 || o == 0x2A0 || o == 0x2A1 || o == 0x2A2 || o == 0x2A3

/-- The imprecise trap that a FATAL record gives (R273, R354): status and access kind in `DETAIL`, the record's
words in the frame. DEDUCED (log 99): `TVAL` is the record's 57-bit `VA` with zeros above, also where the address had other bits
there (R31, R143). -/
def recordTrap (t : Thread) (i : BitVec 2) (resume : VAddr) : PendTrap :=
  let r := getRec t.trap i
  let access : BitVec 8 := if isEngineOpc (r.iw0.setWidth 10) then 2 else 0
  pendTrap t
    { cause := 0x20, detail := r.rstat.setWidth 8 ++ access ++ (0 : BitVec 8), tval := r.va.setWidth 64
      iw := (0 : BitVec 32) ++ r.mods ++ (0 : BitVec 8) ++ r.iw0, resume := resume }
    (some i)

/-- A precise trap; with a FATAL record the imprecise trap is taken instead, at that instruction (R273). -/
def raise (s : State) (k : Key) (x : TrapInfo) : State :=
  match findThread s k with
  | none => s
  | some t => match fatalRec t.trap with
    | some i => trapEntry s k (recordTrap t i t.ctx.pc)
    | none => trapEntry s k (pendTrap t x none)

/-- Where an imprecise trap taken while the thread waits resumes (R30, R143, R273): a parked instruction that has not issued,
`RET`, `EXIT` and `MOVE` at itself; `BAR` at itself when the record is its own, else after it. DEDUCED (log 101): `ERET`, which
R273 treats only with `INTRAP` = 1, at itself. -/
def switchResume (t : Thread) : VAddr :=
  let own := recIdx.any fun i =>
    let r := getRec t.trap i
    r.valid && r.fatal && r.iw0.setWidth 10 == (0x303 : BitVec 10)
  match t.wait with
  | .bar => if own then t.ctx.pc - 12 else t.ctx.pc
  | .fence .. => t.ctx.pc + 12
  | _ => t.ctx.pc

/-- Whether the wait is one at which an imprecise trap is taken (R273): every one but a fetch record's. -/
def atSwitch (t : Thread) : Bool :=
  match t.wait with
  | .run | .fetch | .transit => false
  | _ => true

/-- A FATAL record gained while a trap waits for `OUTST` = 0 (R33, R273): a precise trap gives way to the
imprecise one; for an imprecise one the record is discarded like the others, and the resume PC of a `BAR` or
`RET` whose own record it is becomes its own address. -/
def absorbFatal (s : State) (k : Key) (t : Thread) (p : PendTrap) (i : BitVec 2) : State :=
  if !p.rvalid then trapEntry (onThread s k fun t => { t with pend := none }) k (recordTrap t i t.ctx.pc)
  else
    let own := (getRec t.trap i).iw0.setWidth 10 == (0x303 : BitVec 10)
    let t1 := dropFatals t
    setThread s { t1 with pend := some { p with resume := if own then t.ctx.pc - 12 else p.resume } }

/-- The condition of a wait holds: results are in, or room has come (R24, R25, R349). -/
def unpark (t : Thread) : Thread :=
  if t.pend.isSome then t
  else match t.wait with
    | .drain | .ret | .bar => if t.ctx.outst == 0 then { t with wait := .run } else t
    | .limit => if t.ctx.outst < 15 then { t with wait := .run } else t
    | _ => t

/-- Whether the request's record counts in `OUTST` when it is written: those of R22 that have not counted
before. -/
def countsRec (o : ReqOp) : Bool :=
  match o with
  | .st | .addd _ | .cflush | .sts | .sfe | .qpsh | .tste .. | .clbinv .. | .token | .fetch => true
  | _ => false

/-- The data register that a store's record names (R31, R354). -/
def recOpnd (r : Req) : BitVec 7 :=
  if r.side then 0x10
  else match r.op with
  | .fetch => 0x13
  | .ld | .amo _ | .cas | .lde | .ldc | .qfe | .hold _ | .tlde .. | .cld _ | .cprb _ | .qpop | .spawn _
  | .whereIu | .ctxr .. | .strm .. | .bar | .ret | .addd _ | .st | .sts | .qpsh | .tste .. => opdCode r.dst
  | _ => 0x10

/-- The retry record of a request (R31): a register result's record has `STR` = 0; `fva` is the faulting address. -/
def recordOf (r : Req) (status : BitVec 5) : RetryRec :=
  { valid := true, fatal := status != 0
    str := r.op == .stf || (countsRec r.op && r.op != .fetch)
    rstat := status
    mods := r.iw.extractLsb' 40 24, iw0 := r.iw.setWidth 32, opnd := recOpnd r
    va := r.fva.setWidth 57 }

def setReqSt (s : State) (id : Nat) (st : ReqSt) : State :=
  { s with flight := { s.flight with
    reqs := modifyFirst (fun r => r.id == id) (fun r => { r with st := st }) s.flight.reqs } }

def dropReq (s : State) (id : Nat) : State :=
  { s with flight := { s.flight with
    reqs := s.flight.reqs.filter fun r => r.id != id
    waiters := s.flight.waiters.filter fun w => w.req != id
    turns := s.flight.turns.filter fun x => x.who != .req id } }

/-- Writes a request's retry record if a record is free and the count allows it; else the request waits
unrecorded (R24, R32). A FATAL record ends its request. -/
def writeRecord (s : State) (r : Req) (page : Nat) (status : BitVec 5) : State :=
  let wait := setReqSt s r.id (.unrecorded page status)
  match findThread s r.key with
  | none => dropReq s r.id
  | some t =>
    if isMoving t then wait
    else match freeRec t.trap with
      | none => wait
      | some i =>
        let rr := recordOf r status
        let adds := countsRec r.op
        if adds && t.ctx.outst == 15 then wait
        else
          let s1 := setThread s { t with
            ctx := if adds then incOutst t.ctx else t.ctx, trap := setRec t.trap i rr }
          let s2 := count s1 r.bench r.iu 10
          if status != 0 then dropReq s2 r.id
          else { s2 with flight := { s2.flight with
            reqs := modifyFirst (fun x => x.id == r.id) (fun x => { x with st := .record i page, ri := some i }) s2.flight.reqs } }

/-- Requests of a thread that wait for a record are recorded as records clear (R24, R32). -/
def writeUnrecorded (s : State) (k : Key) : State :=
  (s.flight.reqs.filter fun r => r.key == k).foldl (fun s r =>
    match r.st with
    | .unrecorded p st => writeRecord s r p st
    | _ => s) s

/-- After any change of a thread's line: unrecorded requests are recorded, an imprecise trap is taken at a switch
point, a wait whose condition holds ends, and `WKIND` and the ready list follow (R24 to R27, R273, R326). -/
def settle (s0 : State) (k : Key) : State :=
  let s := writeUnrecorded s0 k
  match findThread s k with
  | none => s
  | some t =>
    if isMoving t || t.ctx.frz || t.cancel then refresh s k
    else match t.pend, fatalRec t.trap with
      | some p, some i => refresh (absorbFatal s k t p i) k
      | some _, none => refresh s k
      | none, some i => if atSwitch t then trapEntry s k (recordTrap t i (switchResume t)) else refresh (setThread s (unpark t)) k
      | none, none => refresh (setThread s (unpark t)) k

/-- The return from a trap (R268). -/
def trapReturn (t : Thread) : Thread :=
  let w := t.trap.saveW0
  { t with ctx := { t.ctx with
      pc := w.setWidth 57 &&& ~~~3, sup := w.getLsbD 57, step := w.getLsbD 58
      p := (t.trap.tw1.setWidth 8) ||| 1
      s2 := t.trap.saveS2, s3 := t.trap.saveS3, intrap := false }, wait := .run }

/-! Delivery of updates (R26, R322, R323, R353). -/

/-- Applies one update to a thread at its holder, in one indivisible step (R26, R46). -/
def applyUpd (t : Thread) (u : Upd) : Thread :=
  match u with
  | .result d wide v => { t with ctx := decOutst (clearPend (setDst t.ctx d wide v) d wide) }
  | .ack => { t with ctx := decOutst t.ctx }
  | .ret x => { t with
      ctx := decOutst (clearPend { t.ctx with pc := x.setWidth 57, s3 := t.ctx.s3 + 16 } (.s 3) false)
      pend :=  t.pend.map fun p => { p with resume := x.setWidth 57 } }
  | .word n v =>
    let n := n.toNat
    if n < 16 then { t with ctx := ctxwWord t.ctx n v }
    else match n with
      | 16 => { t with trap := { t.trap with saveW0 := v } }
      | 21 => { t with trap := { t.trap with saveS2 := v } }
      | 22 => { t with trap := { t.trap with saveS3 := v } }
      | _ => t
  | .record r counts => match freeRec t.trap with
      | some i => { t with ctx := if counts then incOutst t.ctx else t.ctx, trap := setRec t.trap i r }
      | none => t
  | .clearRec i counted => { t with
      ctx := if counted then decOutst t.ctx else t.ctx
      trap := setRec t.trap i { getRec t.trap i with valid := false } }
  | .fatalRec i st va => { t with trap := setRec t.trap i { getRec t.trap i with fatal := true, rstat := st, va := va } }

/-- Sends an update through the context home: it is applied at the holder, or waits for a line in transfer; to a
thread that is gone it is discarded (R188, R322, R323, R337). -/
def deliver (s : State) (k : Key) (u : Upd) : State :=
  match findThread s k with
  | none => s
  | some t =>
    if isMoving t then setThread s { t with inbox := t.inbox ++ [u] }
    else settle (setThread s (applyUpd t u)) k

/-! Issue of one instruction (R75 steps 8 to 12, R25). -/

/-- What an instruction does once its common checks have passed. `done` retires it with the next PC and the
wait it begins; `stay` begins a wait before it completes; `park` re-issues it later (R75 step 11); `skip` leaves
it for a later cycle (R325). -/
inductive Did where
  | done (s : State) (pc : VAddr) (wait : Wait)
  | stay (s : State) (wait : Wait)
  | park (s : State) (wait : Wait)
  | skip (s : State)
  | trap (cause : BitVec 8) (detail : BitVec 24) (tval : Word) (next : Bool)
  | gone (s : State)
  | notHbm (pa : Nat)

/-- The current thread: the one whose instruction is issuing. -/
def current (s : State) : Option Thread := s.run.cur.bind (findThread s)

/-- The IU on which a thread issues; for a line in no CL1 the IU on which it issued last. -/
def iuAt (t : Thread) : Nat := (iuOf t).getD ((t.lastIu.map (·.2)).getD 0)

/-- Whether an IU has used up the present cycle of the module (R325). -/
def spentNow (s : State) (x : Iu) : Bool := x.spent && x.cyc == s.run.now

/-- The lines that an IU has tried in vain in the present cycle (R325). -/
def skipsNow (s : State) (x : Iu) : List Key := if x.cyc == s.run.now then x.skips else []

/-- The IU has issued from a line: its cycle is over, its rotation position follows (R45, R325). -/
def rotate (s : State) (k : Key) : State :=
  match findThread s k with
  | none => s
  | some t => match iuOf t with
    | none => s
    | some u => onIu s t.bench u fun x =>
        let y := { x with
          cyc := s.run.now, spent := true, skips := skipsNow s x, lastSlot := t.slot
          issued := if spentNow s x then x.issued else x.issued + 1 }
        if t.ctx.hact then { y with lastHeld := t.slot } else y

/-- Marks on the line and the IU that an issue leaves: hints, recency, rotation (R50, R320, R325). -/
def markIssue (s : State) (k : Key) (h : Hdr) : State :=
  onThread (rotate s k) k fun t => { t with
    yp := h.yp, lh := h.lh, lastIssue := s.run.now, lastIu := some (t.bench, iuAt t) }

/-- Retirement: the PC, the wait that the instruction or its switch marker begins, the retirement count, and the
end of a step (R25, R45, R393, R394). -/
def retire (s : State) (k : Key) (h : Hdr) (pc : VAddr) (w : Wait) : State :=
  match findThread s k with
  | none => s
  | some t =>
    let s1 := setThread s { t with
      ctx := { t.ctx with pc := pc }
      wait := if w == .run && h.w then .drain else w }
    let s2 := count (markIssue s1 k h) t.bench (iuAt t) 0
    let s3 := settle s2 k
    if t.ctx.step then
      let s4 := endHolds s3 k
      match findThread s4 k with
      | some t4 => if t4.ctx.step then stepEnd s4 k (if parked t4 then 2 else 1) else s4
      | none => s4
    else s3

/-- The field numbers of a HAZARD (R272). -/
def hazard (c : Ctx) (l : List (BitVec 8 × Opd × Bool)) : Option (BitVec 8) :=
  (l.find? fun x => isPend c x.2.1 x.2.2).map (·.1)

/-- Runs one instruction of the current thread (R75 steps 8 to 12): guard, mode, pending operands, then its body.
`priv`: the instruction is for supervisor mode; `regs`: its operands in the order of R272. -/
def issue (s : State) (i : Instr) (h : Hdr) (priv : Bool) (regs : List (BitVec 8 × Opd × Bool))
    (body : State → Thread → Did) : Host.Outcome State Fault Refusal :=
  match current s with
  | none => .next s
  | some t =>
    let k := t.key
    let precise := fun (s : State) (cause : BitVec 8) (detail : BitVec 24) (tval : Word) (pc : VAddr) =>
      .next (raise (markIssue s k h) k { cause := cause, detail := detail, tval := tval, iw := Decode.encode i, resume := pc })
    if (getP t.ctx h.g ^^ h.n) == false then .next (retire s k h (t.ctx.pc + 12) .run)
    else if priv && !t.ctx.sup then precise s 0x03 0 0 t.ctx.pc
    else match hazard t.ctx regs with
      | some f => precise s 0x04 (f.setWidth 24) 0 t.ctx.pc
      | none => match body s t with
        | .done s' pc w => .next (retire s' k h pc w)
        | .stay s' w => .next (settle (onThread (markIssue s' k h) k fun t => { t with wait := w }) k)
        | .park s' w => .next (settle (onThread s' k fun t => { t with wait := w }) k)
        | .skip s' => .next (count s' t.bench (iuAt t) 4)
        | .trap c d v nx => precise s c d v (if nx then t.ctx.pc + 12 else t.ctx.pc)
        | .gone s' => .next s'
        | .notHbm a => .fault (.notHbm a)

/-- Step 11 for an instruction that counts in `OUTST` (R24). -/
def limited (s : State) (t : Thread) (x : Did) : Did := if t.ctx.outst == 15 then .park s .limit else x

/-- The MISALIGNED trap with a reason (R139, R169). -/
def misaligned (reason : BitVec 8) (v : Word) : Did := .trap 0x05 (reason ++ (0 : BitVec 16)) v false

/-- The current thread changed by an instruction that only writes registers (fixed latency, R21). -/
def finish (s : State) (t : Thread) (c : Ctx) : Did :=
  .done (setThread s { t with ctx := c }) (c.pc + 12) .run

end Sys2Proof.Machine
end

