-- ==== Sys2Proof/Machine/Operands.lean ====
section
/-! DEFINITION. Reading operands and writing results in every form (R52 to R56, R62, R66, R127, R149). -/

namespace Sys2Proof.Machine
open Sys2Proof.Forms

/-- A value in each of `n` lanes of `w` bits. -/
def splat (w : Nat) (x : BitVec w) : Nat → Vec
  | 0 => 0
  | n + 1 => (splat w x n <<< w) ||| x.setWidth 128

/-- Lane `i` of `w` bits. -/
def laneOf (w : Nat) (v : Vec) (i : Nat) : BitVec w := v.extractLsb' (i * w) w

/-- The lanes of a vector, the lowest first. -/
def lanesOf (w : Nat) (v : Vec) (n : Nat) : List (BitVec w) := (List.range n).map (laneOf w v)

/-- The vector of a list of lanes, the first lowest. -/
def ofLanes (w : Nat) : List (BitVec w) → Vec
  | [] => 0
  | x :: l => (ofLanes w l <<< w) ||| x.setWidth 128

/-- Replaces one lane. -/
def setLane (w : Nat) (v : Vec) (i : Nat) (x : BitVec w) : Vec :=
  let m : Vec := (BitVec.allOnes w).setWidth 128 <<< (i * w)
  (v &&& ~~~m) ||| (x.setWidth 128 <<< (i * w))

/-- The value of an operand: `wide` reads a pair of scalars; an immediate is widened to the element width and
placed in every lane (R53). -/
def opdVal (s : State) (t : Thread) (w n : Nat) (wide : Bool) (o : Opd) : Vec :=
  match o with
  | .s r => if wide then getPair t.ctx r else (getS t.ctx r).setWidth 128
  | .v r => getV t.ctx r
  | .p r => (bit (getP t.ctx r)).setWidth 128
  | .zero => 0
  | .id => t.ctx.ctxid.setWidth 128
  | .geo => t.ctx.geo.setWidth 128
  | .pcv => t.ctx.pc.setWidth 128
  | .clk => (cycleOf s t.bench (iuAt t)).setWidth 128
  | .imm v => splat w (v.signExtend w) n

/-- A 64-bit scalar source. -/
def sVal (s : State) (t : Thread) (o : Opd) : Word := (opdVal s t 64 1 false o).setWidth 64

/-- The value of a source that may be the 32-bit immediate (R62). -/
def srcVal (s : State) (t : Thread) (w n : Nat) (wide : Bool) : Src → Vec
  | .opd o => opdVal s t w n wide o
  | .imm32 v => splat w (v.signExtend w) n

/-- The operand a source names, for HAZARD. -/
def srcOpd : Src → Opd
  | .opd o => o
  | .imm32 _ => .zero

/-- A floating-point operand: an immediate is converted exactly (R53, R149). -/
def fVal (s : State) (t : Thread) (ty : Ty) (n : Nat) (o : Opd) : Vec :=
  match o with
  | .imm v => splat (width ty) (BitVec.ofNat (width ty) (ffImm (ffOf ty) v)) n
  | o => opdVal s t (width ty) n false o

/-- The effective address of class M (R66). -/
def eaOf (c : Ctx) (m : MemOp) : Word :=
  let reg : Opd → Word := fun o => match o with
    | .s n => getS c n
    | _ => 0
  reg m.base + (reg m.idx <<< m.sh.toNat) + m.disp.signExtend 64

/-- The address of an instruction with a base and no index (R66). -/
def eaBase (c : Ctx) (base : Opd) (disp : BitVec 32) : Word := eaOf c { base := base, disp := disp }

/-- A narrow scalar result extended to 64 bits by its type (R67, R127). -/
def extend (t : Ty) (v : Vec) : Vec :=
  if width t == 128 then v
  else if signed t then (((v.setWidth (width t)).signExtend 64).setWidth 128)
  else (v.setWidth (width t)).setWidth 128

/-- Whether a scalar operand of the type is a pair. -/
def wideOf (t : Ty) (sh : Shape) : Bool := t == .b128 && sh == .sc

/-- Writes an integer result (R127). -/
def putInt (c : Ctx) (t : Ty) (sh : Shape) (d : Opd) (v : Vec) : Ctx :=
  if shaped sh then setDst c d false v else setDst c d (wideOf t sh) (extend t v)

/-- Writes a floating-point result: zero-extended, or the lanes (R149). -/
def putF (c : Ctx) (t : Ty) (sh : Shape) (d : Opd) (v : Vec) : Ctx :=
  setDst c d false (if shaped sh then v else (v.setWidth (width t)).setWidth 128)

end Sys2Proof.Machine
end

