-- ==== Sys2Proof/Machine/Float.lean ====
section
/-! DEFINITION. Floating-point and short-vector instructions, group 010 (06_float_and_vector). -/

namespace Sys2Proof.Machine
open Sys2Proof.Forms

/-- The trap enables of the thread's address space (R34, R107). -/
def fpte (s : State) (t : Thread) : BitVec 5 := ((findSpace s t.key.asid).map (·.fpte)).getD 0

/-- The dynamic rounding mode (R16). -/
def modeOf (rm : BitVec 3) : RMode :=
  match rm.toNat with
  | 0 => .rne | 1 => .rtz | 2 => .rdn | 3 => .rup | _ => .rmm

/-- The rounding environment of an instruction (R103, R104). -/
def fenvOf (s : State) (t : Thread) (rm : Option RMode) : Fenv :=
  { mode := rm.getD (modeOf t.ctx.rm), ufEn := (fpte s t).getLsbD 1 }

/-- Flags and result of a floating-point instruction: the FP trap, or the sticky flags and the result (R107). -/
def fpFinish (s : State) (t : Thread) (fl : Fl) (put : Ctx → Ctx) : Did :=
  if fl &&& fpte s t != 0 then .trap 0x0A (fl.setWidth 24) 0 false
  else finish s t (put { t.ctx with flags := t.ctx.flags ||| fl })

/-- The union of the lanes' flags (R107). -/
def flAll (l : List (Nat × Fl)) : Fl := l.foldl (fun f x => f ||| x.2) 0

/-- Lanes of a vector as numbers. -/
def nats (w n : Nat) (v : Vec) : List Nat := (lanesOf w v n).map (·.toNat)

/-- The vector of lanes given as numbers. -/
def ofNats (w : Nat) (l : List Nat) : Vec := ofLanes w (l.map (BitVec.ofNat w))

/-- Operands of a floating-point instruction, lane by lane. -/
def fLanes (s : State) (t : Thread) (ty : Ty) (sh : Shape) (o : Opd) : List Nat :=
  nats (width ty) (lanes sh) (fVal s t ty (lanes sh) o)

/-- The common effect of R150: lane results, flags, the trap or the write. -/
def fpLanes (s : State) (t : Thread) (ty : Ty) (sh : Shape) (d : Opd) (r : List (Nat × Fl)) : Did :=
  fpFinish s t (flAll r) fun c => putF c ty sh d (ofNats (width ty) (r.map (·.1)))

def zip2 {α β γ : Type} (f : α → β → γ) (a : List α) (b : List β) : List γ := (a.zip b).map fun p => f p.1 p.2

def zip3 {α β γ δ : Type} (f : α → β → γ → δ) (a : List α) (b : List β) (c : List γ) : List δ :=
  ((a.zip b).zip c).map fun p => f p.1.1 p.1.2 p.2

/-- Two sources with rounding (R150). -/
def fp2 (s : State) (i : Instr) (h : Hdr) (x : Flt2) (f : Ffmt → Fenv → Nat → Nat → Nat × Fl) :
    Host.Outcome State Fault Refusal :=
  issue s i h false [(1, x.d, false), (2, x.a, false), (3, x.b, false)] fun s t =>
    fpLanes s t x.ty x.sh x.d
      (zip2 (f (ffOf x.ty) (fenvOf s t x.rm)) (fLanes s t x.ty x.sh x.a) (fLanes s t x.ty x.sh x.b))

/-- Three sources with rounding (R150). -/
def fp3 (s : State) (i : Instr) (h : Hdr) (x : Flt3) (neg : Bool) : Host.Outcome State Fault Refusal :=
  issue s i h false [(1, x.d, false), (2, x.a, false), (3, x.b, false), (4, x.c, false)] fun s t =>
    fpLanes s t x.ty x.sh x.d
      (zip3 (ffFma (ffOf x.ty) (fenvOf s t x.rm) neg) (fLanes s t x.ty x.sh x.a) (fLanes s t x.ty x.sh x.b)
        (fLanes s t x.ty x.sh x.c))

def execFadd (h : Hdr) (x : Flt2) (s : State) : Host.Outcome State Fault Refusal :=
  fp2 s (.fadd h x) h x fun f v => ffAdd f v false
def execFsub (h : Hdr) (x : Flt2) (s : State) : Host.Outcome State Fault Refusal :=
  fp2 s (.fsub h x) h x fun f v => ffAdd f v true
def execFmul (h : Hdr) (x : Flt2) (s : State) : Host.Outcome State Fault Refusal := fp2 s (.fmul h x) h x ffMul
def execFdiv (h : Hdr) (x : Flt2) (s : State) : Host.Outcome State Fault Refusal := fp2 s (.fdiv h x) h x ffDiv
def execFma (h : Hdr) (x : Flt3) (s : State) : Host.Outcome State Fault Refusal := fp3 s (.fma h x) h x false
def execFnma (h : Hdr) (x : Flt3) (s : State) : Host.Outcome State Fault Refusal := fp3 s (.fnma h x) h x true

/-- `FSQRT` (R150). -/
def execFsqrt (h : Hdr) (x : Flt1) (s : State) : Host.Outcome State Fault Refusal :=
  issue s (.fsqrt h x) h false [(1, x.d, false), (2, x.a, false)] fun s t =>
    fpLanes s t x.ty x.sh x.d ((fLanes s t x.ty x.sh x.a).map (ffSqrt (ffOf x.ty) (fenvOf s t x.rm)))

/-- `FMIN` and `FMAX` (R151). -/
def fpMinMax (s : State) (i : Instr) (h : Hdr) (x : Vec2) (max : Bool) : Host.Outcome State Fault Refusal :=
  issue s i h false [(1, x.d, false), (2, x.a, false), (3, x.b, false)] fun s t =>
    fpLanes s t x.ty x.sh x.d
      (zip2 (ffMinMax (ffOf x.ty) max) (fLanes s t x.ty x.sh x.a) (fLanes s t x.ty x.sh x.b))

def execFmin (h : Hdr) (x : Vec2) (s : State) : Host.Outcome State Fault Refusal := fpMinMax s (.fmin h x) h x false
def execFmax (h : Hdr) (x : Vec2) (s : State) : Host.Outcome State Fault Refusal := fpMinMax s (.fmax h x) h x true

/-- The bits of a with the sign that the operation gives (R152). -/
def signInject (f : Ffmt) (op : SgnOp) (a b : Nat) : Nat :=
  let top := 2 ^ (f.tr + f.ex)
  let sa := a / top % 2 == 1
  let sb := b / top % 2 == 1
  let r := match op with
    | .cp => sb
    | .cn => !sb
    | .cx => sa ^^ sb
  a % top + if r then top else 0

/-- `FSGN` (R152). -/
def execFsgn (h : Hdr) (x : Fsgn) (s : State) : Host.Outcome State Fault Refusal :=
  issue s (.fsgn h x) h false [(1, x.d, false), (2, x.a, false), (3, x.b, false)] fun s t =>
    finish s t (putF t.ctx x.ty x.sh x.d (ofNats (width x.ty)
      (zip2 (signInject (ffOf x.ty) x.op) (fLanes s t x.ty x.sh x.a) (fLanes s t x.ty x.sh x.b))))

/-- `FCMP` (R153). -/
def execFcmp (h : Hdr) (x : Fcmp) (s : State) : Host.Outcome State Fault Refusal :=
  issue s (.fcmp h x) h false [(1, x.d, false), (2, x.a, false), (3, x.b, false)] fun s t =>
    let w := width x.ty
    let r := zip2 (ffCond (ffOf x.ty) x.cond) (fLanes s t x.ty x.sh x.a) (fLanes s t x.ty x.sh x.b)
    fpFinish s t (r.foldl (fun f y => f ||| y.2) 0) fun c =>
      setDst c x.d false (ofLanes w (r.map fun y => if y.1 then BitVec.allOnes w else 0))

/-- `FCLASS` (R154). -/
def execFclass (h : Hdr) (x : Alu1) (s : State) : Host.Outcome State Fault Refusal :=
  issue s (.fclass h x) h false [(1, x.d, false), (2, x.a, false)] fun s t =>
    finish s t (putF t.ctx x.ty x.sh x.d (ofNats (width x.ty) ((fLanes s t x.ty x.sh x.a).map (ffClass (ffOf x.ty)))))

/-- `FRND` (R155). -/
def execFrnd (h : Hdr) (x : Frnd) (s : State) : Host.Outcome State Fault Refusal :=
  issue s (.frnd h x) h false [(1, x.d, false), (2, x.a, false)] fun s t =>
    fpLanes s t x.ty x.sh x.d ((fLanes s t x.ty x.sh x.a).map (ffRnd (ffOf x.ty) (fenvOf s t x.rm) x.nx))

/-- Source and destination types of a conversion (R156). -/
def cvtTypes (x : Cvt) : Ty × Ty := if x.dir then (x.ty, x.oty) else (x.oty, x.ty)

/-- The common effect of the conversions (R157): `f` converts one lane from the source to the destination type. -/
def convert (s : State) (i : Instr) (h : Hdr) (x : Cvt) (imm : BitVec 6 → Nat) (f : Fenv → Nat → Nat × Fl)
    (intDst : Bool) : Host.Outcome State Fault Refusal :=
  issue s i h false [(1, x.d, false), (2, x.a, false)] fun s t =>
    let sty := (cvtTypes x).1
    let dty := (cvtTypes x).2
    let n := lanes x.sh
    let k := width x.ty / width x.oty
    let av := match x.a with
      | .imm v => splat (width sty) (BitVec.ofNat (width sty) (imm v)) (if x.dir then n else n * k)
      | o => opdVal s t (width sty) n false o
    let off := n * x.part.toNat
    let src := (List.range n).map fun j =>
      (laneOf (width sty) av (if x.dir || !shaped x.sh then j else off + j)).toNat
    let r := src.map (f (fenvOf s t x.rm))
    fpFinish s t (flAll r) fun c =>
      if x.dir && shaped x.sh then
        let old := opdVal s t 64 1 false x.d
        setDst c x.d false ((r.map (·.1)).zipIdx.foldl
          (fun v y => setLane (width dty) v (off + y.2) (BitVec.ofNat (width dty) y.1)) old)
      else if intDst then putInt c dty x.sh x.d (ofNats (width dty) (r.map (·.1)))
      else putF c dty x.sh x.d (ofNats (width dty) (r.map (·.1)))

/-- `FCVT` (R106, R156, R157). -/
def execFcvt (h : Hdr) (x : Cvt) (s : State) : Host.Outcome State Fault Refusal :=
  convert s (.fcvt h x) h x (ffImm (ffOf (cvtTypes x).1))
    (fun v => ffConv (ffOf (cvtTypes x).1) (ffOf (cvtTypes x).2) v) false

/-- `FCVI` (R100, R156, R157). -/
def execFcvi (h : Hdr) (x : Cvt) (s : State) : Host.Outcome State Fault Refusal :=
  convert s (.fcvi h x) h x (ffImm (ffOf (cvtTypes x).1))
    (fun v => ffToInt (ffOf (cvtTypes x).1) v (signed (cvtTypes x).2) (width (cvtTypes x).2)) true

/-- `ICVF` (R100, R156, R157). -/
def execIcvf (h : Hdr) (x : Cvt) (s : State) : Host.Outcome State Fault Refusal :=
  let sty := (cvtTypes x).1
  convert s (.icvf h x) h x (fun v => (v.signExtend (width sty)).toNat)
    (fun v b => ffOfInt (ffOf (cvtTypes x).2) v (if signed sty then sInt (width sty) b else (b : Int))) false

/-- One selected lane of `SHUF` (R159). -/
def shufLane (w n : Nat) (a b c : Vec) (i : Nat) : BitVec w :=
  let k := (laneOf w c i)
  if k.msb then 0
  else if k.toNat % (2 * n) < n then laneOf w a (k.toNat % (2 * n)) else laneOf w b (k.toNat % (2 * n) - n)

/-- `SHUF` (R159). -/
def execShuf (h : Hdr) (x : Vec3) (s : State) : Host.Outcome State Fault Refusal :=
  issue s (.shuf h x) h false [(1, x.d, false), (2, x.a, false), (3, x.b, false), (4, x.c, false)] fun s t =>
    let w := width x.ty
    let n := lanes x.sh
    let v := fun o => opdVal s t w n false o
    finish s t (setDst t.ctx x.d false
      (ofLanes w ((List.range n).map (shufLane w n (v x.a) (v x.b) (v x.c)))))

/-- `VEXT` (R160). -/
def execVext (h : Hdr) (x : Vec2) (s : State) : Host.Outcome State Fault Refusal :=
  issue s (.vext h x) h false [(1, x.d, false), (2, x.a, false), (3, x.b, false)] fun s t =>
    let w := width x.ty
    let n := lanes x.sh
    let k := (sVal s t x.b).toNat % n
    finish s t (putInt t.ctx x.ty .sc x.d ((laneOf w (opdVal s t w n false x.a) k).setWidth 128))

/-- `VINS` (R160). -/
def execVins (h : Hdr) (x : Vec2) (s : State) : Host.Outcome State Fault Refusal :=
  issue s (.vins h x) h false [(1, x.d, false), (2, x.a, false), (3, x.b, false)] fun s t =>
    let w := width x.ty
    let n := lanes x.sh
    let k := (sVal s t x.b).toNat % n
    let a := (opdVal s t w 1 false x.a).setWidth w
    finish s t (setDst t.ctx x.d false (setLane w (opdVal s t w n false x.d) k a))

/-- `VBC` (R160). -/
def execVbc (h : Hdr) (x : Alu1) (s : State) : Host.Outcome State Fault Refusal :=
  issue s (.vbc h x) h false [(1, x.d, false), (2, x.a, false)] fun s t =>
    let w := width x.ty
    finish s t (setDst t.ctx x.d false (splat w ((opdVal s t w 1 false x.a).setWidth w) (lanes x.sh)))

/-- Combines neighbours pairwise, once. -/
def pairUp {α : Type} (f : α → α → α) : List α → List α
  | a :: b :: l => f a b :: pairUp f l
  | l => l

/-- The tree of R120 on a power-of-two number of lanes, by halving `k` times. -/
def treeFold {α : Type} (f : α → α → α) : Nat → List α → List α
  | 0, l => l
  | k + 1, l => treeFold f k (pairUp f l)

/-- The prefix of `n` lanes combined as R121 states: ranges of powers of two from the highest down, then left to
right. -/
def scanFold {α : Type} (f : α → α → α) (l : List α) (n : Nat) : Nat → Nat → Option α → Option α
  | 0, _, acc => acc
  | k + 1, start, acc =>
    if n / 2 ^ k % 2 = 1 then
      let r := (treeFold f k ((l.drop start).take (2 ^ k))).head?
      let acc := match acc, r with
        | some a, some b => some (f a b)
        | none, r => r
        | a, none => a
      scanFold f l n k (start + 2 ^ k) acc
    else scanFold f l n k start acc

/-- One node of a reduction, collecting flags (R120, R161). -/
def redNode (op : AOp) (t : Ty) (v : Fenv) (a b : Nat × Fl) : Nat × Fl :=
  let r := aop op t v a.1 b.1
  (r.1, a.2 ||| b.2 ||| r.2)

/-- Writes the result of a reduction: an integer by R127, a float by R149. -/
def putRed (c : Ctx) (t : Ty) (sh : Shape) (d : Opd) (v : Vec) : Ctx :=
  if isFloat t then putF c t sh d v else putInt c t sh d v

/-- The lanes that a reduction combines. -/
def redLanes (s : State) (t : Thread) (x : Vred) : List (Nat × Fl) :=
  (if isFloat x.ty then fLanes s t x.ty x.sh x.a
    else nats (width x.ty) (lanes x.sh) (opdVal s t (width x.ty) (lanes x.sh) false x.a)).map fun a => (a, 0)

/-- `VRED` (R120, R161). -/
def execVred (h : Hdr) (x : Vred) (s : State) : Host.Outcome State Fault Refusal :=
  issue s (.vred h x) h false [(1, x.d, false), (2, x.a, false)] fun s t =>
    let r := ((treeFold (redNode x.op x.ty (fenvOf s t x.rm)) 4 (redLanes s t x)).head?).getD (0, 0)
    fpFinish s t r.2 fun c => putRed c x.ty .sc x.d (BitVec.ofNat 128 r.1)

/-- `VSCAN` (R121, R161). -/
def execVscan (h : Hdr) (x : Vred) (s : State) : Host.Outcome State Fault Refusal :=
  issue s (.vscan h x) h false [(1, x.d, false), (2, x.a, false)] fun s t =>
    let r := (List.range (lanes x.sh)).map fun i =>
      (scanFold (redNode x.op x.ty (fenvOf s t x.rm)) (redLanes s t x) (i + 1) 5 0 none).getD (0, 0)
    fpFinish s t (flAll r) fun c => putRed c x.ty x.sh x.d (ofNats (width x.ty) (r.map (·.1)))

/-- `VDOT` (R122, R162). -/
def execVdot (h : Hdr) (x : Flt3) (s : State) : Host.Outcome State Fault Refusal :=
  issue s (.vdot h x) h false [(1, x.d, false), (2, x.a, false), (3, x.b, false), (4, x.c, false)] fun s t =>
    let w := width x.ty
    let n := lanes x.sh
    let per := n / 4
    let rd := fun o => if isFloat x.ty then fLanes s t x.ty x.sh o else nats w n (opdVal s t w n false o)
    let ab := (rd x.a).zip (rd x.b)
    let cl := if isFloat x.ty then nats 32 4 (fVal s t .f32 4 x.c) else nats 32 4 (opdVal s t 32 4 false x.c)
    let mine := fun j => (ab.drop (per * j)).take per
    let num := fun (k : Nat) (y : Nat) => if signed x.ty then sInt k y else (y : Int)
    let r := cl.zipIdx.map fun c =>
      if isFloat x.ty then ffDot (ffOf x.ty) (fenvOf s t x.rm) (mine c.2) c.1
      else
        let sum := (mine c.2).foldl (fun (acc : Int) p => acc + num w p.1 * num w p.2) (c.1 : Int)
        ((sum % (2 ^ 32 : Nat)).toNat, (0 : Fl))
    fpFinish s t (flAll r) fun c => setDst c x.d false (ofNats 32 (r.map (·.1)))

/-- Whether lane `i` of a mask is set: its most significant bit (R163). -/
def maskBits (w n : Nat) (v : Vec) : List Bool := (lanesOf w v n).map (·.msb)

/-- `VMSK.get` (R163). -/
def execVmskGet (h : Hdr) (x : Alu1) (s : State) : Host.Outcome State Fault Refusal :=
  issue s (.vmskGet h x) h false [(1, x.d, false), (2, x.a, false)] fun s t =>
    let m := maskBits (width x.ty) (lanes x.sh) (opdVal s t (width x.ty) (lanes x.sh) false x.a)
    finish s t (setDst t.ctx x.d false (ofLanes 1 (m.map bit)))

/-- `VMSK.set` (R163). -/
def execVmskSet (h : Hdr) (x : Alu1) (s : State) : Host.Outcome State Fault Refusal :=
  issue s (.vmskSet h x) h false [(1, x.d, false), (2, x.a, false)] fun s t =>
    let w := width x.ty
    let a := sVal s t x.a
    finish s t (setDst t.ctx x.d false (ofLanes w ((List.range (lanes x.sh)).map fun i =>
      if a.getLsbD i then BitVec.allOnes w else 0)))

/-- `VMSK.any` (R163). -/
def execVmskAny (h : Hdr) (x : Alu1) (s : State) : Host.Outcome State Fault Refusal :=
  issue s (.vmskAny h x) h false [(1, x.d, false), (2, x.a, false)] fun s t =>
    let m := maskBits (width x.ty) (lanes x.sh) (opdVal s t (width x.ty) (lanes x.sh) false x.a)
    finish s t (setDst t.ctx x.d false ((bit (m.any id)).setWidth 128))

/-- `VMSK.all` (R163). -/
def execVmskAll (h : Hdr) (x : Alu1) (s : State) : Host.Outcome State Fault Refusal :=
  issue s (.vmskAll h x) h false [(1, x.d, false), (2, x.a, false)] fun s t =>
    let m := maskBits (width x.ty) (lanes x.sh) (opdVal s t (width x.ty) (lanes x.sh) false x.a)
    finish s t (setDst t.ctx x.d false ((bit (m.all id)).setWidth 128))

end Sys2Proof.Machine
end

