-- ==== Sys2Proof/Machine/Sbf.lean ====
section
/-! DEFINITION. SBF blocks and accumulator elements (R108 to R119): reading blocks, block sums, accumulation, and
the conversions into and out of them. -/

namespace Sys2Proof.Machine
open Sys2Proof.Forms

/-- Row bytes of an SBF type (R108). -/
def sbfRowBytes (t : Ty) : Nat := 8 + 16 * (2 + sbfM t)

/-- The format code in a block header (R108). -/
def sbfCode : Ty → Nat
  | .sbf4 => 0 | .sbf6 => 1 | .sbf8 => 2 | _ => 3

/-- A block: its header and its planes, the sign plane first (R109, R111); element i is bit i of a plane. -/
structure Block where
  hdr : Nat
  planes : List Nat
  deriving DecidableEq, Repr

/-- The planes of a list of bytes. -/
def planesOf : Nat → List Byte → List Nat
  | 0, _ => []
  | n + 1, l => natOfBytes (l.take 16) :: planesOf n (l.drop 16)

/-- A row of bytes as a block (R111). -/
def blockOf (t : Ty) (l : List Byte) : Block :=
  { hdr := natOfBytes (l.take 8), planes := planesOf (2 + sbfM t) (l.drop 8) }

/-- A block as a row of bytes (R111). -/
def bytesOfBlock (b : Block) : List Byte := bytesOfNat 8 b.hdr ++ b.planes.flatMap (bytesOfNat 16)

def blkScale (b : Block) : Nat := b.hdr % 256

def blkNan (b : Block) : Bool := blkScale b == 0xFF

/-- Whether a consumer finds the header valid for its format (R113). -/
def blkOk (t : Ty) (b : Block) : Bool :=
  blkNan b || (b.hdr / 2 ^ 40 % 8 == sbfCode t && b.hdr / 2 ^ 43 == 0)

/-- The offset exponent of an element (R110). -/
def blkExp (b : Block) (i : Nat) : Nat :=
  let sel := ((b.planes[1]?).getD 0).testBit i
  b.hdr / 2 ^ (8 + 8 * (i / 32) + (if sel then 4 else 0)) % 16

def blkNeg (b : Block) (i : Nat) : Bool := ((b.planes[0]?).getD 0).testBit i

/-- The first `p` mantissa bits of an element (R111, R112). -/
def blkMant (b : Block) (p i : Nat) : Nat :=
  ((b.planes.drop 2).take p).foldl (fun m x => 2 * m + (if x.testBit i then 1 else 0)) 0

/-- The value of an element read at precision `p` (R110, R112): sign, mantissa, exponent. -/
def blkTerm (b : Block) (p i : Nat) : Term :=
  (blkNeg b i, blkMant b p i, (blkScale b : Int) - 142 + (blkExp b i : Int) - ((p : Int) - 1))

/-- The block sum of an activation row at precision `p` and a weight row (R117); none when it is NaN. -/
def blockSum (p : Nat) (a : Block) (mw : Nat) (w : Block) : Option (Int × Int) :=
  if blkNan a || blkNan w then none
  else
    let t := (List.range 128).foldl (fun (acc : Int) i =>
      let m : Int := (blkMant a p i * blkMant w mw i * 2 ^ (blkExp a i + blkExp w i) : Nat)
      if blkNeg a i != blkNeg w i then acc - m else acc + m) 0
    some (t, ((blkScale a : Int) - 142 - ((p : Int) - 1)) + ((blkScale w : Int) - 142 - ((mw : Int) - 1)))

/-- An accumulator element (R116). -/
structure Acc128 where
  s : Int := 0
  e : Int := 0
  nan : Bool := false
  inx : Bool := false
  deriving DecidableEq, Repr

def accOf (v : Vec) : Acc128 :=
  { s := (v.extractLsb' 0 64).toInt, e := (v.extractLsb' 64 16).toInt, nan := v.getLsbD 80, inx := v.getLsbD 81 }

def accVec (a : Acc128) : Vec :=
  (0 : BitVec 46) ++ bit a.inx ++ bit a.nan ++ BitVec.ofInt 16 a.e ++ BitVec.ofInt 64 a.s

/-- `rne_shr` (R118) and whether it discarded a nonzero bit. -/
def rneShr (x : Int) (k : Nat) : Int × Bool :=
  if k ≥ 64 then (0, decide (x ≠ 0))
  else
    let r := roundShift .rne false x.natAbs k
    (if x < 0 then -(r.1 : Int) else r.1, r.2)

/-- Adds a block sum into an accumulator element (R118). -/
def accAdd (a : Acc128) (sum : Option (Int × Int)) : Acc128 :=
  if a.nan then a
  else match sum with
    | none => { a with nan := true, s := 0, e := 0 }
    | some (t, eb) =>
      if t = 0 then a
      else if a.s = 0 then { a with s := t, e := eb }
      else
        let x := if a.e ≥ eb then (a.s, false) else rneShr a.s (eb - a.e).toNat
        let y := if a.e ≥ eb then rneShr t (a.e - eb).toNat else (t, false)
        let e := if a.e ≥ eb then a.e else eb
        let big := decide ((x.1 + y.1).natAbs ≥ 2 ^ 62)
        let x2 := if big then rneShr x.1 1 else (x.1, false)
        let y2 := if big then rneShr y.1 1 else (y.1, false)
        let e2 := if big then e + 1 else e
        let inx := a.inx || x.2 || y.2 || x2.2 || y2.2
        if e2 > 32767 then { s := 0, e := 0, nan := true, inx := inx }
        else { s := x2.1 + y2.1, e := e2, nan := false, inx := inx }

/-- `MACC`'s conversion of one element (R119). -/
def accConv (t : Ty) (m : RMode) (a : Acc128) : Nat × Fl :=
  let f := ffOf t
  if a.nan then (ffQnan f, 0)
  else
    let r := if a.s = 0 then (0, 0) else ffRound f { mode := m } (decide (a.s < 0)) a.s.natAbs a.e
    (r.1, r.2 ||| (if a.inx then flNX else 0))

/-- The exponent of a nonzero magnitude (R114). -/
def expoOf (n : Nat) (x : Int) : Int := (Nat.log2 n : Int) + x

/-- `rne(|x| / 2^q)` (R114). -/
def rneQuot (n : Nat) (x q : Int) : Nat := (roundAt .rne false n x q).1

/-- A source value of a conversion: its sign bit and its magnitude. -/
structure SVal where
  neg : Bool := false
  n : Nat := 0
  x : Int := 0
  deriving DecidableEq, Repr

/-- The largest exponent among nonzero values. -/
def maxExpo (l : List SVal) : Option Int :=
  l.foldl (fun acc v => if v.n = 0 then acc else
    let e := expoOf v.n v.x
    match acc with
    | none => some e
    | some y => some (if y < e then e else y)) none

def clampInt (lo hi v : Int) : Int := if v < lo then lo else if hi < v then hi else v

/-- One element of a block: selector, mantissa, and whether it is exact (R114). -/
def encElem (m : Nat) (b : Int) (e1 e0 : Nat) (v : SVal) : Bool × Nat × Bool :=
  let q := fun (e : Nat) => b - 15 + (e : Int) - ((m : Int) - 1)
  let m0 := rneQuot v.n v.x (q e0)
  let sel := decide (2 ^ m ≤ m0)
  let m1 := if sel then rneQuot v.n v.x (q e1) else m0
  let mm := if 2 ^ m - 1 < m1 then 2 ^ m - 1 else m1
  let qe := q (if sel then e1 else e0)
  let lo := if qe < v.x then qe else v.x
  let exact := mm * 2 ^ (qe - lo).toNat == v.n * 2 ^ (v.x - lo).toNat
  (sel, mm, exact)

/-- A plane from the bits of its elements. -/
def planeOf (l : List Bool) : Nat := l.foldr (fun b acc => 2 * acc + (if b then 1 else 0)) 0

/-- The offsets of one sub-block (R114). -/
def subOffsets (b : Int) (delta : Nat) (l : List SVal) : Nat × Nat :=
  match maxExpo l with
  | none => (0, 0)
  | some ej =>
    let e1 := (clampInt 0 15 (15 - (b - ej))).toNat
    (e1, e1 - delta)

/-- The conversion of a row of 128 values into a block (R114); none stands for a NaN or an infinity. -/
def toBlock (t : Ty) (delta : Nat) (xs : List (Option SVal)) : Block × Fl :=
  let m := sbfM t
  let code := sbfCode t
  if xs.any (·.isNone) then
    ({ hdr := 0xFF + code * 2 ^ 40, planes := List.replicate (2 + m) 0 }, flNV)
  else
    let vs := xs.map fun v => v.getD {}
    let signs := planeOf (vs.map (·.neg))
    match maxExpo vs with
    | none => ({ hdr := code * 2 ^ 40, planes := signs :: List.replicate (1 + m) 0 }, 0)
    | some bmax =>
      let scale := (clampInt 0 254 (bmax + 127)).toNat
      let b : Int := (scale : Int) - 127
      let offs := (List.range 4).map fun j => subOffsets b delta ((vs.drop (32 * j)).take 32)
      let off := fun (i : Nat) => (offs[i / 32]?).getD (0, 0)
      let es := vs.zipIdx.map fun v => encElem m b (off v.2).1 (off v.2).2 v.1
      let hdr := scale + code * 2 ^ 40 +
        (offs.zipIdx.map fun o => o.1.2 * 2 ^ (8 + 8 * o.2) + o.1.1 * 2 ^ (12 + 8 * o.2)).sum
      let mants := (List.range m).map fun k => planeOf (es.map fun e => e.2.1.testBit (m - 1 - k))
      ({ hdr := hdr, planes := signs :: planeOf (es.map (·.1)) :: mants },
        if es.all (·.2.2) then 0 else flNX)

/-- An IEEE element as a source value of a conversion (R114). -/
def svalOf (t : Ty) (v : Nat) : Option SVal :=
  match ffVal (ffOf t) v with
  | .num neg n x => some { neg := neg, n := n, x := x }
  | _ => none

/-- An SBF element rounded to an IEEE type (R251). DESIGN CHOICE (log 98): an element with `M` = 0 gives the zero of its sign bit; the
spec says only that it is zero. -/
def blkToIeee (src dst : Ty) (m : RMode) (b : Block) (i : Nat) : Nat × Fl :=
  let f := ffOf dst
  if blkNan b then (ffQnan f, 0)
  else
    let x := blkTerm b (sbfM src) i
    if x.2.1 = 0 then (ffSign f x.1, 0) else ffRound f { mode := m } x.1 x.2.1 x.2.2

end Sys2Proof.Machine
end

