-- ==== Sys2Proof/Machine/Translate.lean ====
section
/-! DEFINITION. Translation (R342 to R349): the walk, leaf checks, TLBs, fault classes and the bench fault
table. -/

namespace Sys2Proof.Machine
open Sys2Proof.Forms

/-- What an access asks of a translation: writing, fetching, supervisor mode, and whether it is a store of a
thread or engine, which the isolated ranges refuse (R176, R344, R348). -/
structure Want where
  write : Bool := false
  fetch : Bool := false
  sup : Bool := false
  store : Bool := false
  deriving DecidableEq, Repr

/-- The outcome of a translation (R348): a location, a recoverable fault, an entry that the host holds and is asked to give up
(R309), or a status of R272. -/
inductive Trans where
  | ok (p : Phys) (s : State)
  | wait
  | busy (s : State)
  | bad (status : BitVec 5)
  | notHbm (pa : Nat)

abbrev stPermission : BitVec 5 := 0x01
abbrev stIsolation : BitVec 5 := 0x02
abbrev stNoncanon : BitVec 5 := 0x03
abbrev stSyncNomem : BitVec 5 := 0x04
abbrev stTokenNomem : BitVec 5 := 0x05
abbrev stSysAtomic : BitVec 5 := 0x06
abbrev stLinkAtomic : BitVec 5 := 0x07
abbrev stVolrec : BitVec 5 := 0x08
abbrev stVolbound : BitVec 5 := 0x09
abbrev stVolabsent : BitVec 5 := 0x0A
abbrev stBarword : BitVec 5 := 0x0B
abbrev stMemerr : BitVec 5 := 0x0C
abbrev stUnmapped : BitVec 5 := 0x0D
abbrev stLinkRefused : BitVec 5 := 0x0E

-- Fields of a page-table entry (R344).
def pteV (e : Word) : Bool := e.getLsbD 63
def pteMk (e : Word) : BitVec 2 := e.extractLsb' 61 2
def pteMig (e : Word) : Bool := e.getLsbD 60
def pteX (e : Word) : Bool := e.getLsbD 59
def pteW (e : Word) : Bool := e.getLsbD 58
def pteR (e : Word) : Bool := e.getLsbD 57
def pteU (e : Word) : Bool := e.getLsbD 56
def pteL (e : Word) : Bool := e.getLsbD 55
def pteC64 (e : Word) : Bool := e.getLsbD 54
def ptePfn (e : Word) : Nat := (e.extractLsb' 12 40).toNat

/-- The number of page bits of a leaf (R345). -/
def pageBits (level : Nat) (c64 : Bool) : Nat :=
  match level with
  | 2 => 30
  | 1 => 21
  | _ => if c64 then 16 else 12

/-- Reserved bits `[53:52]` and `[11:7]` of an entry are zero, and an interior entry has no leaf field (R344,
R345). -/
def pteShape (e : Word) : Bool :=
  e.extractLsb' 52 2 == 0 && e.extractLsb' 7 5 == 0 &&
    (pteL e || (e.extractLsb' 56 7 == 0 && !pteC64 e))

/-- The requirements of a leaf at a level (R345). -/
def leafOk (va level : Nat) (e : Word) : Bool :=
  match level with
  | 2 => ptePfn e % 2 ^ 18 == 0
  | 1 => ptePfn e % 2 ^ 9 == 0
  | 0 => !pteC64 e || ptePfn e % 16 == va / 4096 % 16
  | _ => false

/-- What a walk ends in. -/
inductive Walk where
  | leaf (level addr : Nat) (e : Word)
  | notPresent
  | migrating
  | unmapped
  | memErr
  | host (line : Nat)
  deriving DecidableEq, Repr

/-- The five-level walk, from level `n - 1` down (R343); an entry that the host holds exclusive is asked for first (R309). -/
def walk (s : State) (va : Nat) : Nat → Nat → Walk
  | 0, _ => .unmapped
  | n + 1, table =>
    let a := table + 8 * (va / 2 ^ (12 + 9 * n) % 512)
    let e : Word := (readVal s.mem.dev a 8).setWidth 64
    if s.mem.poison.contains (a / 128 * 128) then .memErr
    else if hostStOf s a == some .he then .host (a / 128 * 128)
    else if !pteV e then .notPresent
    else if pteL e then
      if pteMig e then .migrating else if pteShape e && leafOk va n e then .leaf n a e else .unmapped
    else if !pteShape e then .unmapped
    else walk s va n (ptePfn e * 4096)

/-! Firmware-reserved frames (R348). -/

/-- The frames of the tables that a table of level `n` names, itself included (R343). -/
def tableFrames (m : Mem) : Nat → Nat → List Nat
  | 0, f => [f]
  | n + 1, f =>
    let used := ((m.dev.filter fun c => decide (f * 4096 ≤ c.1) && decide (c.1 < f * 4096 + 4096)).map fun c => c.1 / 8).eraseDups
    f :: used.flatMap fun w =>
      let e : Word := (readVal m.dev (8 * w) 8).setWidth 64
      if pteV e && !pteL e then tableFrames m n (ptePfn e) else []

/-- Whether a frame lies in the ranges that firmware reserves: those of its registers, and always the page tables (R348). -/
def reservedFrame (s : State) (frame : Nat) : Bool :=
  s.mmu.reserved.any (fun r => decide (r.1 ≤ frame) && decide (frame < r.1 + r.2)) ||
    s.spaces.any fun x => (tableFrames s.mem 4 x.ptroot.toNat).contains frame

/-- The location of an address through a leaf (R345). -/
def leafPhys (va : Nat) (e : Word) (bits : Nat) : Phys :=
  let off := va % 2 ^ bits
  let pfn := ptePfn e
  match (pteMk e).toNat with
  | 0 => .dev (pfn * 4096 / 2 ^ bits * 2 ^ bits + off)
  | 1 => .hostC (pfn * 4096 / 2 ^ bits * 2 ^ bits + off)
  | 2 => .hostU (pfn * 4096 / 2 ^ bits * 2 ^ bits + off)
  | _ => .peer (BitVec.ofNat 16 (pfn / 2 ^ 24)) (pfn / 2 ^ 12 % 2 ^ 12) (pfn % 2 ^ 12 * 2 ^ bits + off)

/-- Bytes of the context area (R10), of the handle table (R36) and of the tile backing area (R201). -/
def isolated (x : Space) (va : Nat) : Bool :=
  let inR := fun (base size : Nat) => decide (base ≤ va) && decide (va < base + size)
  inR (x.ctxbase.toNat * 2 ^ 40) (2 ^ 40) || inR (x.htbase.toNat * 4096) (32 * x.htsize.toNat) ||
    inR (x.tback.toNat * 2 ^ 41) (2 ^ 41)

/-- The part of the page a leaf permits (R176, R344). -/
def permits (e : Word) (k : Want) : Bool :=
  (k.sup || pteU e) && (if k.fetch then pteX e else if k.write then pteW e else pteR e)

/-! TLBs. -/

def tlbCap : TlbAt → Nat
  | .data .. => Config.dtlbEntries
  | .instr .. => Config.itlbEntries
  | .bench _ => Config.l2tlbEntries

def tlbFind (s : State) (l : TlbAt) (asid : BitVec 16) (va : Nat) : Option TlbEnt :=
  s.mmu.tlb.find? fun e => e.loc == l && e.asid == asid && decide (e.base ≤ va) && decide (va < e.base + e.size)

/-- Caches a leaf; the oldest entry of a full structure goes (log 4). -/
def tlbAdd (s : State) (x : TlbEnt) : State :=
  let mine := s.mmu.tlb.filter fun e => e.loc == x.loc
  let kept := if mine.length < tlbCap x.loc then s.mmu.tlb
    else match mine.head? with
      | some old => s.mmu.tlb.erase old
      | none => s.mmu.tlb
  { s with mmu := { s.mmu with tlb := kept ++ [x] } }

/-- Sets `A`, and `D` before a first write, by an atomic OR at the entry's home (R344). -/
def markPte (s : State) (addr : Nat) (dirty : Bool) : State :=
  let old := readVal s.mem.dev addr 8
  { s with mem := { s.mem with dev := writeVal s.mem.dev addr 8 (old ||| (if dirty then 0x60 else 0x40)) } }

/-- Whether the OR changes an entry that the host holds: it gives its copy up first (R309). -/
def markWaits (s : State) (addr : Nat) (dirty : Bool) : Bool :=
  let bits : Vec := if dirty then 0x60 else 0x40
  readVal s.mem.dev addr 8 &&& bits != bits && (hostStOf s addr).isSome

/-- The structure that backs another (R342). -/
def tlbBack : TlbAt → Option TlbAt
  | .data b _ | .instr b _ => some (.bench b)
  | .bench _ => none

/-- Counts a miss of an IU's TLB (R45). -/
def countMiss (s : State) : TlbAt → State
  | .data b u => count s b u 7
  | .instr b u => count s b u 8
  | .bench _ => s

/-- The use of a leaf for an address (R344, R345, R348): the dirty bit before a write, the reserved ranges, the
permissions, the location. -/
def useLeaf (s : State) (e : TlbEnt) (k : Want) (a : Nat) : Trans :=
  let p := leafPhys a e.pte (Nat.log2 e.size)
  let s1 := if k.write then markPte s e.pteAddr true else s
  if pteMk e.pte == 0 && reservedFrame s (devAddr p / 4096) then .bad stIsolation
  else if !permits e.pte k then .bad stPermission
  else if k.write && markWaits s e.pteAddr true then .busy (sendBisnp s (lineOf (.dev e.pteAddr)) true)
  else match p with
    | .dev x => if x < Config.hbmBytes then .ok p s1 else .notHbm x
    | _ => .ok p s1

/-- A translation of one byte's address (R342 to R348), in the order of R348 up to the permission check; the
memory kind is checked by the access. -/
def translate (s : State) (l : TlbAt) (asid : BitVec 16) (k : Want) (va : Word) : Trans :=
  match findSpace s asid with
  | none => .bad stUnmapped
  | some sp =>
    let a := va.toNat
    if a ≥ 2 ^ 57 then .bad stNoncanon
    else if k.store && isolated sp a then .bad stIsolation
    else
      match tlbFind s l asid a with
      | some e => useLeaf s e k a
      | none =>
        let s0 := countMiss s l
        match (tlbBack l).bind fun b => tlbFind s b asid a with
        | some e => useLeaf (tlbAdd s0 { e with loc := l }) e k a
        | none =>
          match walk s a 5 (sp.ptroot.toNat * 4096) with
          | .notPresent | .migrating => .wait
          | .unmapped => .bad stUnmapped
          | .memErr => .bad stMemerr
          | .host line => .busy (sendBisnp s (.dev line) false)
          | .leaf lv addr e => if markWaits s addr false then .busy (sendBisnp s (lineOf (.dev addr)) true) else
            let bits := pageBits lv (pteC64 e)
            let x : TlbEnt := { loc := l, asid := asid, base := a / 2 ^ bits * 2 ^ bits, size := 2 ^ bits, pte := e, pteAddr := addr }
            let s1 := markPte (tlbAdd s0 x) addr false
            let s2 := match tlbBack l with
              | some b => tlbAdd s1 { x with loc := b }
              | none => s1
            useLeaf s2 x k a

/-! Recoverable faults: the bench fault table (R350). -/

def orKinds (a b : Kinds) : Kinds := { r := a.r || b.r, w := a.w || b.w, f := a.f || b.f }

/-- A requester of a bench waits on a page: one entry and one message, the access kinds merged (R350). -/
def noteFault (s : State) (b : Nat) (asid : BitVec 16) (page : Nat) (k : Kinds) : State :=
  let q := fun (x : BenchFault) => x.bench == b && x.asid == asid && x.page == page
  let old := s.mmu.bench.find? q
  let x : BenchFault := match old with
    | some o => { o with kinds := orKinds o.kinds k }
    | none => { bench := b, asid := asid, page := page, kinds := k }
  { s with mmu := { s.mmu with bench := upsert q x s.mmu.bench } }

def kindsOf (k : Want) : Kinds := { r := !k.write && !k.fetch, w := k.write, f := k.fetch }

end Sys2Proof.Machine
end

