-- ==== Sys2Proof/Machine/Access.lean ====
section
/-! DEFINITION. Requests: issue, order, performance at the caches, the home, the host or a peer, and delivery
(R170 to R199, R278 to R291, R302 to R306, R311, R348 to R354). -/

namespace Sys2Proof.Machine
open Sys2Proof.Forms

/-! Classes of operations. -/

/-- The synchronising class (R184). -/
def isSync : ReqOp → Bool
  | .lde | .ldc | .stf | .sts | .sfe | .qfe | .dep .. => true
  | _ => false

def isTile : ReqOp → Bool
  | .tlde .. | .tste .. => true
  | _ => false

/-- Accesses that a later release waits for as stores (R173, R199, R271). -/
def isStore : ReqOp → Bool
  | .st | .sts | .sfe | .addd _ | .cflush | .hrel | .ctxw .. | .qpsh | .tste .. | .clbinv .. => true
  | _ => false

/-- Stores whose recoverable faults go to the side log (R176); `TSTE` as `ST` does (R210). -/
def sideable : ReqOp → Bool
  | .st | .sts | .sfe | .addd _ | .cflush | .tste .. => true
  | _ => false

/-- Accesses that need write permission (R176). -/
def needsWrite : ReqOp → Bool
  | .st | .amo _ | .cas | .ldc | .stf | .sts | .sfe | .hold _ | .addd _ | .bar | .qpop | .qpsh => true
  | _ => false

/-- Accesses that the isolated ranges refuse: those that write (R12, R36, R348). -/
def isWriting : ReqOp → Bool
  | .st | .amo _ | .cas | .ldc | .stf | .sts | .sfe | .addd _ | .bar | .qpop | .qpsh => true
  | _ => false

def wantOf (o : ReqOp) (sup : Bool) : Want :=
  { write := needsWrite o, fetch := false, sup := sup, store := isWriting o }

def isAcqOrd (o : Ord) : Bool := o == .acq || o == .ar

def isRelOrd (o : Ord) : Bool := o == .rel || o == .ar

/-- Requests whose delivery comes before the thread's later accesses (R174, R282). -/
def isAcq (r : Req) : Bool :=
  isAcqOrd r.ord || isSync r.op || match r.op with
    | .bar | .qpop | .qpsh => true
    | _ => false

/-- Requests that are performed only after the thread's earlier ones (R174, R282). -/
def isRel (r : Req) : Bool :=
  isRelOrd r.ord || isSync r.op || match r.op with
    | .bar | .qpop | .qpsh | .spawn _ | .strm .. => true
    | _ => false

/-- Bytes of an element of a stream list: the index list of `SGATH` and `SSCAT`, the flags of `SCMP`, the rest
(R230). -/
def strmBytes (k : StrmKind) (ty : Ty) : Nat × Nat × Nat :=
  match k with
  | .sgath | .sscat => (4, bytes ty, bytes ty)
  | .scmp _ => (bytes ty, 1, bytes ty)
  | _ => (bytes ty, bytes ty, bytes ty)

/-- The virtual bytes of a list descriptor (R230). -/
def listRange (v : Vec) (w : Nat) : Nat × Nat := ((v.setWidth 64).toNat, (v.extractLsb' 64 32).toNat * w)

/-- The virtual byte ranges a request touches: start and length. -/
def rangesOf (r : Req) : List (Nat × Nat) :=
  match r.op with
  | .strm k a b c _ =>
    let w := strmBytes k r.ty
    [listRange a w.1, listRange b w.2.1, listRange c w.2.2]
  | _ => [(r.va.toNat, r.n)]

/-- Whether two located accesses are to the same bytes, by whatever addresses (R173). -/
def samePlace (a b : Req) : Bool :=
  match a.pa, b.pa with
  | some p, some q =>
    a.n != 0 && b.n != 0 && lineOf p == lineOf q && decide (lineOff p < lineOff q + b.n) && decide (lineOff q < lineOff p + a.n)
  | _, _ => false

def overlaps (a b : Req) : Bool :=
  isTile a.op == isTile b.op && (samePlace a b || (rangesOf a).any fun x => (rangesOf b).any fun y =>
    x.2 != 0 && y.2 != 0 && decide (x.1 < y.1 + y.2) && decide (y.1 < x.1 + x.2))

def isCtxw : ReqOp → Bool
  | .ctxw .. => true
  | _ => false

/-- A coordinate load whose element is not known yet (R242): a later access that writes may be to its bytes. -/
def isWalk : ReqOp → Bool
  | .cld _ => true
  | _ => false

/-- The line address that contains `ea`. -/
def lineVa (ea : Word) : Word := ea &&& ~~~127

/-- A `HOLD` after an `HREL` of its line asks for a hold anew (R190, R193). -/
def holdsAnew (e r : Req) : Bool := e.op == .hrel && r.op == .hold true && lineVa e.va == lineVa r.va

/-- Whether an earlier request of the thread keeps a later one back (R173, R174, R193, R242, R271, R291). -/
def holdsBack (e r : Req) : Bool :=
  overlaps e r || holdsAnew e r || isAcq e || (isWalk e.op && needsWrite r.op) ||
    (isRel r && (e.st != .peer || !isStore e.op || r.scp == .sys)) || (isCtxw e.op && isCtxw r.op)

/-- A read of a front end (R383). -/
def isDep : ReqOp → Bool
  | .dep .. => true
  | _ => false

/-- Whether the order rules let a request be performed now. Front-end reads keep no order; what is left of a cancelled
thread keeps the order of accesses to one byte (R389). -/
def canPerform (s : State) (r : Req) : Bool :=
  isDep r.op || (r.key.ctx == 0 &&
    !(s.flight.reqs.any fun e => e.key == r.key && decide (e.id < r.id) && !isDep e.op && overlaps e r)) ||
    r.key.ctx != 0 && !(s.flight.reqs.any fun e => e.key == r.key && decide (e.id < r.id) && holdsBack e r)

def findReq (s : State) (id : Nat) : Option Req := s.flight.reqs.find? fun r => r.id == id

/-- Outstanding-request entries of an IU in use: until the result is delivered or the store performed (R172), so those of
stores in the side log and of cancelled threads count. -/
def entriesUsed (s : State) (b u : Nat) : Nat :=
  (s.flight.reqs.filter fun r => r.bench == b && r.iu == u && match r.op with
    | .dep .. => false
    | .whereIu | .ctxr .. | .ctxw .. | .token | .fetch => false
    | _ => true).length

def entriesFull (s : State) (t : Thread) : Bool := decide (Config.reqEntries ≤ entriesUsed s t.bench (iuAt t))

/-- Side-log entries of an IU in use (R349). -/
def sideUsed (s : State) (b u : Nat) : Nat :=
  (s.flight.reqs.filter fun r => r.bench == b && r.iu == u && r.side).length

/-- Whether every earlier store of a thread is performed and its side log is empty (R183). -/
def storesDone (s : State) (k : Key) (scp : Scope) : Bool :=
  !(s.flight.reqs.any fun r => r.key == k && isStore r.op && (r.st != .peer || scp == .sys))

def putReq (s : State) (r : Req) : State :=
  { s with flight := { s.flight with reqs := modifyFirst (fun x => x.id == r.id) (fun _ => r) s.flight.reqs } }

/-! Faults of accesses. -/

/-- A queue is due to be frozen for a reason (R388). -/
def dueFreeze (s : State) (fn qid : Nat) (reason : BitVec 8) (va : Word) : State :=
  { s with queues := { s.queues with due := s.queues.due ++ [(fn, qid, reason, va)] } }

/-- A non-recoverable fault (R354): the record is written, or waits to be; a front end's read freezes its queue with
PKTFAULT (R383, R387). -/
def fatalAccess (s : State) (r : Req) (va : Word) (status : BitVec 5) : State :=
  match r.op with
  | .dep fn qid _ => dueFreeze (dropReq s r.id) fn qid 0x07 va
  | _ => match r.ri with
    | some i => deliver (dropReq s r.id) r.key (.fatalRec i status (va.setWidth 57))
    | none =>
      let r1 := { r with fva := va }
      settle (writeRecord (putReq s r1) r1 (va.toNat / 4096) status) r.key

/-- A recoverable fault (R176, R349): a message is due; the access is recorded, or goes to the side log. -/
def waitAccess (s : State) (r : Req) (va : Word) (k : Want) : State :=
  let page := va.toNat / 4096
  let r1 := { r with fva := va, pa := none }
  let s1 := noteFault (putReq s r1) r.bench r.key.asid page (kindsOf k)
  if r.key.ctx == 0 then setReqSt s1 r.id (.fault page)
  else if r.side then setReqSt s1 r.id (.side page)
  else match r.ri with
    | some i => setReqSt s1 r.id (.record i page)
    | none =>
      if sideable r.op && decide (sideUsed s1 r.bench r.iu < Config.sideEntries) then
        count (putReq s1 { r1 with st := .side page, side := true }) r.bench r.iu 11
      else settle (writeRecord s1 r1 page 0) r.key

/-- The PCIe AtomicOps of R181. -/
def isPcie (r : Req) : Bool :=
  match r.op with
  | .amo .add | .amo .swap => r.n == 4 || r.n == 8
  | .cas => true
  | _ => false

/-- A memory kind unsuited to the access (R39, R181, R182, R311). -/
def badKind (s : State) (r : Req) (p : Phys) : Option (BitVec 5) :=
  match p with
  | .dev _ => none
  | .hostC _ | .hostU _ =>
    match r.op with
    | .lde | .ldc | .stf | .sts | .sfe | .qfe | .bar | .dep .. => some stSyncNomem
    | .amo _ | .cas | .addd _ =>
      if isPcie r then if s.fw.atomicEnable then none else some stSysAtomic
      else match p with
        | .hostU _ => some stSysAtomic
        | _ => none
    | _ => none
  | .peer .. =>
    match r.op with
    | .lde | .ldc | .stf | .sts | .sfe | .qfe | .bar | .dep .. => some stSyncNomem
    | .amo _ | .cas | .addd _ => some stLinkAtomic
    | _ => none

/-- Whether a hold on a line of this location is possible: not a link window, an uncacheable host page, or device memory that
is no HBM (R190). -/
def holdable : Phys → Bool
  | .dev a => decide (a < Config.hbmBytes)
  | .hostC _ => true
  | .hostU _ | .peer .. => false

/-- A `HOLD` where no hold is possible only loads (R190). -/
def onlyLoads (r : Req) (p : Phys) : Req := if r.op == .hold true && !holdable p then { r with op := .hold false } else r

/-- Whether a request is a `HOLD`. -/
def isHold : ReqOp → Bool
  | .hold _ => true
  | _ => false

/-- The result of handing an access over: the state, or an address beyond the HBM. -/
inductive Sent where
  | ok (s : State)
  | notHbm (pa : Nat)

/-- Translates a request that is in the list: its location, or its fault (R190, R342, R348, R349, R354). -/
def resolve (s : State) (r : Req) : Sent :=
  let k := wantOf r.op r.sup
  let loc := if r.key.ctx == 0 then TlbAt.bench r.bench else .data r.bench r.iu
  match translate s loc r.key.asid k r.va with
  | .ok p s1 => match badKind s1 r p with
    | some st => .ok (fatalAccess s1 r r.va st)
    | none => .ok (putReq s1 { onlyLoads r p with pa := some p, st := .pending })
  | .wait => .ok (waitAccess s r r.va k)
  | .busy s1 => .ok s1
  | .bad st => .ok (fatalAccess s r r.va st)
  | .notHbm a => if isHold r.op then .ok (putReq s { onlyLoads r (.dev a) with pa := some (.dev a), st := .pending }) else .notHbm a

/-- Enters a request at issue; `pends` marks the destination pending and counts (R22, R171). -/
def enter (s : State) (t : Thread) (r : Req) (pends counts : Bool) : State × Req :=
  let q := takeSeq s
  let r1 := { r with id := q.1, key := t.key, bench := t.bench, iu := iuAt t, sup := t.ctx.sup, born := s.run.now }
  let c0 := if pends then setPend t.ctx r.dst (r.ty == .b128) else t.ctx
  let c1 := if counts then incOutst c0 else c0
  let s1 := setThread q.2 { t with ctx := c1 }
  ({ s1 with flight := { s1.flight with reqs := s1.flight.reqs ++ [r1] } }, r1)

/-- Issues a memory access: a place in the entries, then the access is handed over (R172, R175). -/
def submit (s : State) (t : Thread) (r : Req) (pends counts : Bool) (pc : VAddr) (w : Wait) : Did :=
  if entriesFull s t then .skip s
  else
    let e := enter s t r pends counts
    match resolve e.1 e.2 with
    | .ok s2 => .done s2 pc w
    | .notHbm a => .notHbm a

/-- A fresh request of an operation. -/
def newReq (op : ReqOp) (va : Word) (n : Nat) (ty : Ty) (i : Instr) : Req :=
  { id := 0, key := ⟨0, 0⟩, bench := 0, iu := 0, op := op, va := va, n := n, ty := ty, ord := .rlx, scp := .dev
    iw := Decode.encode i }

/-! Performance. -/

/-- What an attempt to perform an access comes to. -/
inductive Acc where
  | done (s : State) (v : Vec)
  | blocked (s : State)
  | outside (s : State)
  | bad (status : BitVec 5)

/-- Whether some copy of a host line is in the device, and whether the device owns it (R304). -/
def hostCopy (s : State) (line : Phys) : Bool := s.cache.l2.any fun x => x.line == line

def hostOwned (s : State) (line : Phys) : Bool :=
  s.cache.l2.any fun x => x.line == line && x.st != .s

/-- A load of device or cacheable host memory by a bench, through the IU's data L1; an acquire, a walk's element and a `HOLD`
read the bench L2 (R173, R189, R278, R294). -/
def loadBy (s : State) (r : Req) (p : Phys) : State × Vec :=
  let line := lineOf p
  let s0 := count s r.bench r.iu 5
  let past := isAcqOrd r.ord || r.via.isSome || r.op == .hold true || (lineHold s line).isSome
  match if past then none else l1Find s0 r.bench r.iu line with
  | some x => (s0, lineBytes x.data (lineOff p) r.n)
  | none =>
    let s1 := obtain (count s0 r.bench r.iu 6) r.bench line .read
    let v := readCoherent s1 (some r.key) p r.n
    (if r.nt || isAcqOrd r.ord then s1 else l1Fill s1 r.bench r.iu line, v)

/-- A load of a link window that finds the line in the data L1 or the bench L2 (R291). -/
def peerHit (s : State) (r : Req) (p : Phys) : Option (State × Vec) :=
  let line := lineOf p
  let s0 := count s r.bench r.iu 5
  match if isAcqOrd r.ord then none else l1Find s r.bench r.iu line with
  | some x => some (s0, lineBytes x.data (lineOff p) r.n)
  | none => (s.cache.l2.find? fun x => x.bench == r.bench && x.line == line).map fun x =>
      let s1 := count s0 r.bench r.iu 6
      (if r.nt || isAcqOrd r.ord then s1 else l1Put s1 r.bench r.iu line x.data, lineBytes x.data (lineOff p) r.n)

/-- What the device holds of a host line: modified, exclusive, or shared (R304). -/
def hostState (s : State) (line : Phys) : L2State :=
  if s.cache.l2.any fun x => x.line == line && (x.st == .m || x.st == .o) then .m
  else if s.cache.l2.any fun x => x.line == line && x.st == .e then .e else .s

/-- Every copy of a line is removed from the module; a host line is written back or given up (R199, R304). -/
def giveUp (s : State) (line : Phys) : State :=
  let st := hostState s line
  let s1 := l1Drop (l2DropOthers (mergeLine s line) none line) none line
  match line with
  | .dev a => dirPut { s1 with cache := { s1.cache with llc := s1.cache.llc.filter fun x => x.addr != a } } a
  | _ => tellEvict s1 line st

/-- Write-back and removal of a line to the extent of the scope (R199). -/
def flushLine (s : State) (b u : Nat) (scp : Scope) (line : Phys) : State :=
  match scp with
  | .bench => { s with cache := { s.cache with
      l1 := s.cache.l1.filter fun x => !(x.bench == b && x.iu == u && x.line == line) } }
  | .dev =>
    let st := hostState s line
    let had := s.cache.l2.any fun x => x.line == line
    let s1 := l1Drop (l2DropOthers (mergeLine s line) (some llcAgent) line) none line
    match line with
    | .dev a => llcPut (dirPut s1 a) a (st == .m)
    | .hostC _ => if had then l2Put s1 llcAgent line st else s1
    | _ => s1
  | .sys => giveUp s line

/-- The bytes of a hold with `n` bytes stored at an offset of its line. -/
def holdBytes (h : HoldReg) (off n : Nat) (v : Vec) : HoldReg :=
  let put := fun (l : List (Nat × Byte)) (b : Byte × Nat) =>
    upsert (fun y => y.1 == off + b.2) (off + b.2, b.1) l
  { h with bytes := (bytesOfNat n v.toNat).zipIdx.foldl put h.bytes }

/-- Stores under the thread's own hold (R192, R197). -/
def holdPut (s : State) (k : Key) (p : Phys) (n : Nat) (v : Vec) : State :=
  let f := fun (h : Option HoldReg) => h.map fun r =>
    if r.key == k && r.line == lineOf p then holdBytes r (lineOff p) n v else r
  { s with ius := s.ius.map fun x => { x with holds := x.holds.map f } }

/-- The bytes of a hold without those of a range of its line. -/
def holdWithout (h : HoldReg) (off n : Nat) : HoldReg :=
  { h with bytes := h.bytes.filter fun y => !(decide (off ≤ y.1) && decide (y.1 < off + n)) }

/-- Another write of the holder follows the bytes it stored under its hold and takes their place (R173). -/
def overHold (s : State) (k : Key) (p : Phys) (n : Nat) : State :=
  if (lineHold s (lineOf p)).isNone then s
  else
    let f := fun (h : Option HoldReg) => h.map fun r =>
      if r.key == k && r.line == lineOf p then holdWithout r (lineOff p) n else r
    { s with ius := s.ius.map fun x => { x with holds := x.holds.map f } }

def needOf (r : Req) : Need :=
  match r.op with
  | .st | .hold _ => .write
  | .amo _ | .cas => if r.far then .home else .write
  | .addd _ => .delta
  | .lde | .ldc | .stf | .sts | .sfe | .qfe | .bar | .dep .. => .home
  | _ => .read

/-- The new value that an atomic writes, if it writes (R178). -/
def atomicNew (r : Req) (old : Vec) : Option Vec :=
  match r.op with
  | .amo op => some (amoOper op r.ty old r.dat)
  | .cas => if old == r.dat then some r.dat2 else none
  | _ => none

/-- An atomic on a host line that no PCIe AtomicOp carries: in the LLC, which owns the line, and written back (R181, R304). -/
def hostAtomic (s : State) (r : Req) (p : Phys) (new : Vec → Vec) : State × Vec :=
  let s1 := obtain s llcAgent (lineOf p) .write
  let old := physRead s1.mem p r.n
  (llcDrop (writeBy s1 r.bench r.iu p r.n (new old)) (lineOf p), old)

/-- A device atomic, near or far: the indivisible step (R178, R179). One that does not write brings the IU's own copy up to
the value it read (R278). -/
def devAtomic (s : State) (r : Req) (p : Phys) : State × Vec :=
  let s1 := obtain s r.bench (lineOf p) (needOf r)
  let old := readCoherent s1 (some r.key) p r.n
  match atomicNew r old with
  | some v => (writeBy (overHold s1 r.key p r.n) r.bench r.iu p r.n v, old)
  | none => (l1Store s1 r.bench r.iu p r.n old, old)

/-- An access to a device line or to a host line that the device may cache (R175, R178, R179, R181, R197, R199). -/
def accessCached (s : State) (r : Req) (p : Phys) : Acc :=
  let line := lineOf p
  match r.op with
  | .ld | .hold _ | .ret =>
    let x := loadBy (match r.op with
      | .hold true => obtain s r.bench line .write
      | _ => s) r p
    .done x.1 x.2
  | .st => .done (writeBy (overHold (obtain s r.bench line .write) r.key p r.n) r.bench r.iu p r.n r.dat) 0
  | .amo op =>
    let x := if isDev p then devAtomic s r p else hostAtomic s r p fun old => amoOper op r.ty old r.dat
    .done x.1 x.2
  | .cas =>
    let x := devAtomic s r p
    .done x.1 x.2
  | .addd op =>
    if (lineHold s line).isSome then
      .done (holdPut s r.key p r.n (amoOper op r.ty (readCoherent s (some r.key) p r.n) r.dat)) 0
    else if isDev p then .done (deltaAdd (obtain s r.bench line .delta) r.bench p op r.ty (r.dat.setWidth 64)) 0
    else .done (hostAtomic s r p fun old => amoOper op r.ty old r.dat).1 0
  | .cflush => .done (flushLine s r.bench r.iu r.scp line) 0
  | _ => .blocked s

/-- Sends a request to the host once and leaves it waiting (R304, R306). -/
def askHost (s : State) (r : Req) (o : Out) : Acc := .outside (emit (setReqSt s r.id .host) o)

/-! The order of arrival at a line (R194, R297, R302). -/

/-- Whether a thread has a slot for one more hold (R189). -/
def slotFree (s : State) (k : Key) : Bool :=
  ((findThread s k).map fun t => !(t.ctx.hslot0.getLsbD 3 && t.ctx.hslot1.getLsbD 3)).getD false

/-- Whether the hold registers of the IU and the slots of the thread admit the request (R189). -/
def regFree (s : State) (r : Req) : Bool :=
  r.op != .hold true || ((getIu s r.bench r.iu).holds.any (·.isNone) && slotFree s r.key)

/-- Whether a request is a stream instruction. -/
def isStrm : ReqOp → Bool
  | .strm .. => true
  | _ => false

/-- The agent die of a queue (R376). -/
def agentDie (q : Queue) : Nat := (64 * q.fn + q.slot.getD 0) % 9

/-- Whether the front ends of a mapped queue's die can work for it. -/
def feUp (s : State) (q : Queue) : Bool := running s && q.slot.isSome && !s.pkg.diesDown.contains (agentDie q) && !suspended s q.asid

/-- Whether what holds a place can use it: a request that is still for the line and may be performed, a thread that may issue, a
command that works, a queue whose front ends work, are to end its packets, or are to fill the token of a launch. -/
def canTurn (s : State) (x : Turn) : Bool :=
  match x.who with
  | .req id => match findReq s id with
    | some r => r.st == .pending && regFree s r && canPerform s r && (r.pa.isNone || r.pa.map lineOf == some x.line) &&
        !(isStrm r.op && suspended s r.key.asid)
    | none => false
  | .thread k => ((findThread s k).map fun t => inCl1 t && isReady s t).getD false
  | .cmd id => s.eng.cmds.any fun c => c.id == id && c.faultPage.isNone && !suspended s c.key.asid
  | .queue fn qid => (s.queues.qs.any fun q => q.fn == fn && q.qid == qid &&
      (feUp s q || q.st == .frozen || q.st == .destroying)) || s.queues.launches.any fun l => l.fn == fn && l.qid == qid && !l.filled
  | .outside _ => true

/-- Whether something else came to wait for the line before this. -/
def turnOver (s : State) (line : Phys) (who : Option Asker) : Bool :=
  match s.flight.turns.find? fun x => x.line == line && canTurn s x with
  | some x => some x.who != who
  | none => false

/-- Takes a place in the order of arrival at a line, once (R194, R302). -/
def queueUp (s : State) (line : Phys) (who : Option Asker) : State :=
  match who with
  | none => s
  | some w =>
    if s.flight.turns.any fun x => x.line == line && x.who == w then s
    else { s with flight := { s.flight with turns := s.flight.turns ++ [{ line := line, who := w }] } }

/-- Gives up its places. -/
def leaveTurns (s : State) (who : Option Asker) : State :=
  match who with
  | none => s
  | some w => { s with flight := { s.flight with turns := s.flight.turns.filter fun x => x.who != w } }

/-- Gives up the place at one line. -/
def leaveLine (s : State) (line : Phys) (who : Option Asker) : State :=
  { s with flight := { s.flight with turns := s.flight.turns.filter fun x => !(x.line == line && some x.who == who) } }

/-- Keeps no place but the one at a line. -/
def keepLine (s : State) (line : Phys) (who : Option Asker) : State :=
  { s with flight := { s.flight with turns := s.flight.turns.filter fun x => x.line == line || some x.who != who } }

/-- Whether the request waits because of a hold on the line: another thread's, for a far atomic any thread's, or the turn of
what waits longer (R194, R297, log 81). -/
def keptByHold (s : State) (r : Req) (line : Phys) : Bool :=
  match lineHold s line with
  | some h => h.key != r.key || r.far
  | none => turnOver s line (some (.req r.id))

/-- One attempt to perform a data access at its location (R173 to R199, R301 to R306, R309, R315). -/
def access (s : State) (r : Req) (p : Phys) : Acc :=
  let line := lineOf p
  let me := some (Asker.req r.id)
  let reads := match r.op with
    | .ld | .ret | .hold false => true
    | _ => false
  if (match line with
      | .dev a => s.mem.poison.contains a
      | .hostC _ | .hostU _ | .peer .. => false) then .bad stMemerr
  else if isHold r.op && isDev p && !holdable p then
    .done { s with run := { s.run with fresh := s.run.fresh + 1 } } (Config.freeVec s.run.fresh &&& (BitVec.allOnes 128 >>> (128 - 8 * r.n)))
  else if keptByHold s r line then .blocked (queueUp s line me)
  else match p with
    | .dev _ => match hostBlocks s line (needOf r), recallGate s (devAddr line) with
      | some inv, _ => if r.op == .cflush then accessCached s r p else .blocked (queueUp (sendBisnp s line inv) line me)
      | none, .wait => .blocked (queueUp s line me)
      | none, .snoop a => .blocked (queueUp (sendBisnp s (.dev a) true) line me)
      | none, .go => accessCached s r p
    | .hostC a =>
      if isPcie r then
        if r.st == .host then .blocked s
        else askHost (giveUp s line) r (.pcieOp r.id)
      else if r.op == .cflush then accessCached s r p
      else if (if reads then hostCopy s line || (l1Find s r.bench r.iu line).isSome else hostOwned s line) then accessCached s r p
      else askHost s r (.hostReq r.id (if reads then .rdShared else .rdOwn) (a / 128 * 128))
    | .hostU a =>
      if r.st == .hostDone then
        match r.op with
        | .st => .done { s with mem := { s.mem with host := writeVal s.mem.host a r.n r.dat } } 0
        | _ => .done s (readVal s.mem.host a r.n)
      else if r.op == .cflush then .done s 0
      else askHost s r (if isPcie r then .pcieOp r.id else .hostReq r.id (if r.op == .st then .ioWrite else .ioRead) a)
    | .peer id win off =>
      match r.op with
      | .st => .outside (emit (setReqSt s r.id .peer) (.peerWrite id win off (bytesOfNat r.n r.dat.toNat)))
      | .cflush => .done (flushLine s r.bench r.iu r.scp line) 0
      | _ => match peerHit s r p with
        | some x => .done x.1 x.2
        | none => .outside (emit (setReqSt s r.id .peer) (.peerRead id win (off / 128 * 128) 128))

/-- Whether the operation has a register result (R171). -/
def hasResult : ReqOp → Bool
  | .ld | .amo _ | .cas | .lde | .ldc | .qfe | .hold _ | .tlde .. | .cld _ | .cprb _ | .qpop | .spawn _ | .whereIu
  | .ctxr .. | .strm .. | .bar => true
  | _ => false

/-- A `RET` return delivered: the checks of R142, then PC and s3 in one update. DESIGN CHOICE (log 100): a trap after a `CTXW` of `PC`
in that interval resumes at the `PC` that it wrote (R146 speaks only of a delivery). -/
def deliverRet (s : State) (r : Req) (v : Word) : State :=
  if v.extractLsb' 0 2 != 0 || v.extractLsb' 57 7 != 0 then
    let s1 := onThread s r.key fun t => { t with ctx := decOutst (clearPend t.ctx (.s 3) false), wait := .run }
    match findThread s1 r.key with
    | some t => raise s1 r.key
        { cause := 0x05, detail := (if v.extractLsb' 0 2 != 0 then (0x01 : BitVec 8) else 0x02) ++ (0 : BitVec 16)
          tval := v, iw := r.iw, resume := t.ctx.pc }
    | none => s1
  else deliver s r.key (.ret v)

/-- A front end's read has found its word full (R383, R387): the packet keeps the value. -/
def recordDep (s : State) (fn qid n : Nat) (v : Word) : State :=
  { s with queues := { s.queues with
    qs := modifyFirst (fun q => q.fn == fn && q.qid == qid)
      (fun q => { q with pk := q.pk.map fun p => { p with deps := p.deps ++ [(n, v)] } }) s.queues.qs } }

/-- Whether the access is an acquire: by its order, or by the node reads of its walk (R174, R240, R282). -/
def freshens (r : Req) : Bool :=
  isAcq r || r.via.isSome || match r.op with
    | .cld _ | .cprb _ => true
    | _ => false

/-- What an acquire invalidates: the data L1 of the IU that issued it, and of the one that its thread is on now (R174,
R278). -/
def acquireFor (s : State) (r : Req) : State :=
  let s1 := acquireL1 s r.bench r.iu r.scp
  match findThread s r.key with
  | some t => if inCl1 t && !(t.bench == r.bench && iuAt t == r.iu) then acquireL1 s1 t.bench (iuAt t) r.scp else s1
  | none => s1

/-- What a stream instruction has done shows in the data L1s of its thread (R236, R284). -/
def renewFor (s : State) (r : Req) : State :=
  let s1 := l1Renew s r.bench r.iu
  match findThread s r.key with
  | some t => l1Renew s1 t.bench (iuAt t)
  | none => s1

/-- What the end of an access does to the caches: an acquire or a stream instruction, then a release (R78, R174, R284). -/
def cachesAfter (s : State) (r : Req) : State :=
  let s1 := match r.op with
    | .strm .. => renewFor s r
    | _ => if freshens r then acquireFor s r else s
  if isRel r then dropStale s1 else s1

/-- The access has been performed: its result is delivered, the caches follow, the request is gone (R26, R171, R174). -/
def complete (s : State) (r : Req) (v : Vec) : State :=
  let s1 := dropReq s r.id
  let s2 := cachesAfter s1 r
  let s3 := match r.ri with
    | some i => deliver s2 r.key (.clearRec i (countsRec r.op))
    | none => s2
  match r.op with
  | .ret => deliverRet s3 r (v.setWidth 64)
  | .dep fn qid n => recordDep s1 fn qid n (v.setWidth 64)
  | .stf => deliver s3 r.key .ack
  | o => if hasResult o then deliver s3 r.key (.result r.dst (r.ty == .b128) (extend r.ty v)) else s3

/-- Grants the hold of a delivered `HOLD` (R189): a register of the issuing IU, the lower free slot, `HACT`. -/
def grantHold (s : State) (r : Req) (p : Phys) (reg : Nat) : State :=
  let h : HoldReg := { key := r.key, line := lineOf p, va := r.va &&& ~~~127, granted := s.run.now }
  let s1 := onIu s r.bench r.iu fun x => { x with holds := x.holds.set reg (some h) }
  count (onThread s1 r.key fun t =>
    let v := (0x8 : BitVec 4) ||| BitVec.ofNat 4 reg
    let c := if t.ctx.hslot0.getLsbD 3 then { t.ctx with hslot1 := v } else { t.ctx with hslot0 := v }
    { t with ctx := { c with hact := true } }) r.bench r.iu 14

/-- A free hold register of an IU (R189). -/
def freeHold (s : State) (b u : Nat) : Option Nat := (getIu s b u).holds.findIdx? fun h => h.isNone

/-! Synchronising words (R184 to R188, R265, R266). -/

/-- The condition of a synchronising access on its word (R184). -/
def syncHolds (full : Bool) : ReqOp → Bool
  | .lde | .ldc | .dep .. => full
  | .stf => !full
  | _ => true

/-- Performs a synchronising access at the word's home: its effect, its result, its end (R184, R186). -/
def performSync (s : State) (r : Req) (a : Nat) : State :=
  let v := readVal s.mem.dev a 8
  let put := fun (m : Mem) => { m with dev := writeVal m.dev a 8 r.dat }
  match r.op with
  | .ldc => complete { s with mem := setEmpty s.mem a } r v
  | .stf | .sts => complete { s with mem := setFull (put s.mem) a } r 0
  | .sfe => complete { s with mem := setEmpty s.mem a } r 0
  | .qfe => complete s r (if isFull s.mem a then 1 else 0)
  | _ => complete s r v

/-- One scan of a word's waiters in order of arrival (R185): the state, and whether any was served. -/
def scanOnce (s : State) (a : Nat) (ws : List Waiter) : State × Bool :=
  ws.foldl (fun acc w =>
    if w.pa != a then acc
    else match findReq acc.1 w.req with
      | some r => if isSync r.op && syncHolds (isFull acc.1.mem a) r.op then (performSync acc.1 r a, true) else acc
      | none => acc) (s, false)

/-- Scans until a whole scan serves nothing (R185). -/
def scanWaiters (a : Nat) : Nat → State → State
  | 0, s => s
  | n + 1, s =>
    let x := scanOnce s a s.flight.waiters
    if x.2 then scanWaiters a n x.1 else x.1

/-- Serves the waiters of a word after its full/empty bit may have changed (R185). -/
def serveWord (s : State) (a : Nat) : State := scanWaiters a (s.flight.waiters.length + 1) s

/-- Waiters recorded at a cache die (R187). -/
def dieWaiters (s : State) (die : Nat) : Nat :=
  (s.flight.waiters.filter fun w => Config.homeDie w.pa == die).length

/-- Records a waiter, or answers with the retry of R187. -/
def recordWaiter (s : State) (r : Req) (a : Nat) : State :=
  if dieWaiters s (Config.homeDie a) < Config.waitersPerDie then
    let s1 := setReqSt s r.id .listed
    refresh { s1 with flight := { s1.flight with waiters := s1.flight.waiters ++ [{ pa := a, req := r.id }] } } r.key
  else refresh (setReqSt s r.id (.retryAt (s.run.now + Config.retryCycles))) r.key

/-- A synchronising access reaches its home (R184, R185, R187). -/
def arriveSync (s : State) (r : Req) (a : Nat) : State :=
  let s1 := obtain s 0 (lineOf (.dev a)) .home
  if syncHolds (isFull s1.mem a) r.op then serveWord (performSync s1 r a) a else recordWaiter s1 r a

-- Fields of a barrier word (R265).
def barPhase (w : Word) : BitVec 16 := w.extractLsb' 48 16
def barTarget (w : Word) : BitVec 24 := w.extractLsb' 24 24
def barArrived (w : Word) : BitVec 24 := w.extractLsb' 0 24

/-- One arrival at a barrier word (R266): BARWORD, the completion of the phase, or one more waiter. -/
def arriveBar (s : State) (r : Req) (a : Nat) : State :=
  let s1 := obtain s 0 (lineOf (.dev a)) .home
  let w : Word := (readVal s1.mem.dev a 8).setWidth 64
  let put := fun (s : State) (x : Word) => { s with mem := { s.mem with dev := writeVal s.mem.dev a 8 (x.setWidth 128) } }
  if barTarget w == 0 || decide ((barTarget w).toNat ≤ (barArrived w).toNat) then fatalAccess s1 r r.va stBarword
  else if (barArrived w).toNat + 1 = (barTarget w).toNat then
    let s2 := put s1 ((barPhase w + 1) ++ barTarget w ++ (0 : BitVec 24))
    let mine := s2.flight.waiters.filterMap fun x => if x.pa == a then findReq s2 x.req else none
    let all := (mine.filter fun q => q.op == .bar) ++ [r]
    all.foldl (fun s q => complete s q ((barPhase w).setWidth 128)) s2
  else if dieWaiters s1 (Config.homeDie a) < Config.waitersPerDie then
    recordWaiter (put s1 (barPhase w ++ barTarget w ++ (barArrived w + 1))) r a
  else recordWaiter s1 r a

/-- Why a synchronising access or `BAR` step waits before its home: a hold, the host's copy, a poisoned line. -/
def syncGate (s : State) (p : Phys) : Acc :=
  let line := lineOf p
  if s.mem.poison.contains (devAddr line) then .bad stMemerr
  else if (lineHold s line).isSome then .blocked s
  else match hostBlocks s line .home, recallGate s (devAddr line) with
    | some inv, _ => .blocked (sendBisnp s line inv)
    | none, .wait => .blocked s
    | none, .snoop a => .blocked (sendBisnp s (.dev a) true)
    | none, .go => .done s 0

/-- Comes to the home of a line in the order of arrival, if nothing keeps the line (R194, R302, R309). -/
def homeTurn (s : State) (p : Phys) (who : Asker) : Acc :=
  if turnOver s (lineOf p) (some who) then .blocked (queueUp s (lineOf p) (some who))
  else match syncGate s p with
    | .done s1 v => .done (leaveLine s1 (lineOf p) (some who)) v
    | .blocked s1 | .outside s1 => .blocked (queueUp s1 (lineOf p) (some who))
    | .bad st => .bad st

/-- A synchronising access or `BAR` step goes to its home if nothing keeps it (R194, R309). -/
def goHome (s : State) (r : Req) (p : Phys) : State :=
  match homeTurn s p (.req r.id) with
  | .done s1 _ => match r.op with
    | .bar => arriveBar s1 r (devAddr p)
    | _ => arriveSync s1 r (devAddr p)
  | .blocked s1 | .outside s1 => s1
  | .bad st => fatalAccess s r r.va st

/-! Attempts. -/

/-- Whether a request may be tried: not faulted, listed or waiting outside. -/
def triable (r : Req) : Bool :=
  match r.st with
  | .pending | .hostDone => true
  | _ => false

/-- A load of a range that hardware keeps sees what `softView` says (R12, R36). -/
def seen (s : State) (r : Req) (v : Vec) : Vec :=
  match r.op with
  | .ld | .hold _ | .ret => softView s r.key.asid r.va.toNat r.n v
  | _ => v

/-- Whether a 128-bit access is performed as two halves (R175, R279). -/
def splits (r : Req) (p : Phys) : Bool :=
  r.n == 16 && (match r.op with
    | .ld => r.ord != .ar
    | .st => true
    | _ => false) && match p with
    | .dev _ | .hostC _ => true
    | _ => false

/-- One half of a 128-bit access. -/
def halfReq (r : Req) (i : Nat) : Req := { r with n := 8, va := r.va + BitVec.ofNat 64 (8 * i), dat := r.dat >>> (64 * i) }

/-- Half `i` and the other one, put together. -/
def joinHalves (i : Nat) (a b : Vec) : Vec := if i == 0 then a ||| (b <<< 64) else b ||| (a <<< 64)

/-- Finishes an attempt with its value, or leaves it waiting. -/
def finishAcc (s : State) (r : Req) (a : Acc) : State :=
  match a with
  | .done s1 v => complete s1 r (seen s1 r v)
  | .blocked s1 | .outside s1 => s1
  | .bad st => fatalAccess s r r.va st

/-- One attempt at a located data access; the halves of a 128-bit one are two attempts, the first of them either (R175). -/
def attemptAt (s : State) (r : Req) (p : Phys) : State :=
  if !splits r p then finishAcc s r (access s r p)
  else match r.half with
    | none =>
      let i := Config.freePick s.run.fresh % 2
      match access { s with run := { s.run with fresh := s.run.fresh + 1 } } (halfReq r i) (physAdd p (8 * i)) with
      | .done s1 v => putReq (leaveTurns s1 (some (.req r.id))) { r with half := some (i, v) }
      | a => finishAcc s r a
    | some (i, v) => match access s (halfReq r (1 - i)) (physAdd p (8 * (1 - i))) with
      | .done s1 w => finishAcc s r (.done s1 (joinHalves i v w))
      | a => finishAcc s r a

/-- One attempt to perform a data access: translated again when it holds no translation (R24, R172, R173). -/
def attempt (s : State) (r : Req) : Sent :=
  if !(triable r && canPerform s r) then .ok s
  else match r.pa with
    | some p => .ok (attemptAt s r p)
    | none => match resolve s r with
      | .notHbm a => .notHbm a
      | .ok s1 => match findReq s1 r.id with
        | some r1 => match r1.pa, r1.st with
          | some p, .pending => .ok (attemptAt s1 r1 p)
          | _, _ => .ok s1
        | none => .ok s1

def sentOut : Sent → Host.Outcome State Fault Refusal
  | .ok s => .next s
  | .notHbm a => .fault (.notHbm a)

end Sys2Proof.Machine
end

