-- ==== Sys2Proof/Machine/LoadStore.lean ====
section
/-! DEFINITION. Loads, stores, atomics, fences, synchronising words, holds and deltas, group 011 (R166 to R199). -/

namespace Sys2Proof.Machine
open Sys2Proof.Forms

/-- The low `n` bytes of a value. -/
def lowBytes (n : Nat) (v : Vec) : Vec := v &&& (BitVec.allOnes 128 >>> (128 - 8 * n))

/-- The HAZARD list of a register and a memory operand. -/
def memRegs (d : Opd) (wide : Bool) (m : MemOp) : List (BitVec 8 × Opd × Bool) :=
  [(1, d, wide), (2, m.base, false), (3, m.idx, false)]

/-- Alignment, then the rest (R169). -/
def aligned (ea : Word) (n : Nat) (x : Did) : Did := if ea.toNat % n ≠ 0 then misaligned 0x04 ea else x

/-- The data register's value, at the access's size (R167, R171). -/
def dataOf (s : State) (t : Thread) (ty : Ty) (o : Opd) : Vec :=
  lowBytes (bytes ty) (opdVal s t (width ty) 1 (ty == .b128) o)

/-- `LD` (R175). -/
def execLd (h : Hdr) (x : MemAcc) (s : State) : Host.Outcome State Fault Refusal :=
  issue s (.ld h x) h false (memRegs x.d (x.ty == .b128) x.mem) fun s t =>
    let ea := eaOf t.ctx x.mem
    limited s t (aligned ea (bytes x.ty)
      (submit s t { newReq .ld ea (bytes x.ty) x.ty (.ld h x) with ord := x.ord, scp := x.scp, nt := x.nt, dst := x.d }
        true true (t.ctx.pc + 12) .run))

/-- `ST` (R175). -/
def execSt (h : Hdr) (x : MemAcc) (s : State) : Host.Outcome State Fault Refusal :=
  issue s (.st h x) h false (memRegs x.d (x.ty == .b128) x.mem) fun s t =>
    let ea := eaOf t.ctx x.mem
    aligned ea (bytes x.ty)
      (submit s t { newReq .st ea (bytes x.ty) x.ty (.st h x) with
          ord := x.ord, scp := x.scp, nt := x.nt, dst := x.d, dat := dataOf s t x.ty x.d }
        false false (t.ctx.pc + 12) .run)

/-- `AMO` (R178). -/
def execAmo (h : Hdr) (x : Amo) (s : State) : Host.Outcome State Fault Refusal :=
  issue s (.amo h x) h false (memRegs x.d (x.ty == .b128) x.mem) fun s t =>
    let ea := eaOf t.ctx x.mem
    limited s t (aligned ea (bytes x.ty)
      (submit s t { newReq (.amo x.op) ea (bytes x.ty) x.ty (.amo h x) with
          ord := x.ord, scp := x.scp, far := x.far, dst := x.d, dat := dataOf s t x.ty x.d }
        true true (t.ctx.pc + 12) .run))

/-- The common effect of `CAS` and `CAS2` (R178). -/
def casWith (s : State) (i : Instr) (h : Hdr) (x : Cas) : Host.Outcome State Fault Refusal :=
  issue s i h false [(1, x.d, x.ty == .b128), (2, x.base, false), (3, x.b, x.ty == .b128)] fun s t =>
    let ea := eaBase t.ctx x.base x.disp
    limited s t (aligned ea (bytes x.ty)
      (submit s t { newReq .cas ea (bytes x.ty) x.ty i with
          ord := x.ord, scp := x.scp, far := x.far, dst := x.d, dat := dataOf s t x.ty x.d, dat2 := dataOf s t x.ty x.b }
        true true (t.ctx.pc + 12) .run))

/-- `CAS` (R178). -/
def execCas (h : Hdr) (x : Cas) (s : State) : Host.Outcome State Fault Refusal := casWith s (.cas h x) h x

/-- `CAS2` (R178). -/
def execCas2 (h : Hdr) (x : Cas) (s : State) : Host.Outcome State Fault Refusal := casWith s (.cas2 h x) h x

/-- Whether a fence's waits are over (R183). -/
def fenceReady (s : State) (t : Thread) (o : Ord) (scp : Scope) : Bool :=
  t.ctx.outst == 0 && (!isRelOrd o || storesDone s t.key scp)

/-- The invalidation of an acquiring fence (R183); a releasing one comes after the stale instruction copies (R78). -/
def fenceEnd (s : State) (t : Thread) (o : Ord) (scp : Scope) : State :=
  let s1 := if isRelOrd o then dropStale s else s
  if isAcqOrd o then acquireL1 s1 t.bench (iuAt t) scp else s1

/-- `FENCE` (R172, R183). -/
def execFence (h : Hdr) (ord : Ord) (scp : Scope) (s : State) : Host.Outcome State Fault Refusal :=
  issue s (.fence h ord scp) h false [] fun s t =>
    if entriesFull s t then .skip s
    else if fenceReady s t ord scp then .done (fenceEnd s t ord scp) (t.ctx.pc + 12) .drain
    else .stay s (.fence ord scp)

/-- The common effect of the synchronising class (R171, R184): `pends` for a register result, `counts` also for
`STF`. -/
def syncWith (s : State) (i : Instr) (h : Hdr) (op : ReqOp) (d : Opd) (m : MemOp) (pends counts : Bool) :
    Host.Outcome State Fault Refusal :=
  issue s i h false (memRegs d false m) fun s t =>
    let ea := eaOf t.ctx m
    let go := aligned ea 8 (submit s t
      { newReq op ea 8 .b64 i with ord := .ar, dst := d, dat := opdVal s t 64 1 false d } pends counts (t.ctx.pc + 12) .run)
    if counts then limited s t go else go

def execLde (h : Hdr) (x : MemD) (s : State) : Host.Outcome State Fault Refusal :=
  syncWith s (.lde h x) h .lde x.d x.mem true true
def execLdc (h : Hdr) (x : MemD) (s : State) : Host.Outcome State Fault Refusal :=
  syncWith s (.ldc h x) h .ldc x.d x.mem true true
def execStf (h : Hdr) (x : MemD) (s : State) : Host.Outcome State Fault Refusal :=
  syncWith s (.stf h x) h .stf x.d x.mem false true
def execSts (h : Hdr) (x : MemD) (s : State) : Host.Outcome State Fault Refusal :=
  syncWith s (.sts h x) h .sts x.d x.mem false false
def execSfe (h : Hdr) (mem : MemOp) (s : State) : Host.Outcome State Fault Refusal :=
  syncWith s (.sfe h mem) h .sfe .zero mem false false
def execQfe (h : Hdr) (x : MemD) (s : State) : Host.Outcome State Fault Refusal :=
  syncWith s (.qfe h x) h .qfe x.d x.mem true true

/-- The thread's holds: granted ones, with IU and register. -/
def threadHolds (s : State) (k : Key) : List (Nat × Nat × Nat × HoldReg) :=
  (holdPlaces s k).filterMap fun p => (((getIu s p.1 p.2.1).holds[p.2.2]?).join).map fun h => (p.1, p.2.1, p.2.2, h)

/-- Whether the hold has not ended for its thread: its lease runs, and no `HREL` of its line has issued (R191, R193). -/
def holdLives (s : State) (k : Key) (h : HoldReg) : Bool :=
  decide (leaseCount s.run.now h < Config.leaseCycles) && !(s.flight.reqs.any fun r => r.key == k && r.op == .hrel && lineVa r.va == h.va)

/-- The holds that the thread's next instructions see. -/
def liveHolds (s : State) (k : Key) : List (Nat × Nat × Nat × HoldReg) := (threadHolds s k).filter fun x => holdLives s k x.2.2.2

/-- Line addresses of the holds of a thread that count: granted and outstanding (R190). -/
def holdLines (s : State) (k : Key) : List Word :=
  ((liveHolds s k).map fun x => x.2.2.2.va) ++
    s.flight.reqs.filterMap fun r => if r.key == k && r.op == .hold true then some (lineVa r.va) else none

/-- Whether a `HOLD` asks for a hold (R190, R394). -/
def wantsHold (s : State) (t : Thread) (ea : Word) : Bool :=
  !t.ctx.step && match holdLines s t.key with
    | [] => true
    | [l] => decide (l.toNat < (lineVa ea).toNat)
    | _ => false

/-- `HOLD` (R189, R190). -/
def execHold (h : Hdr) (x : MemT) (s : State) : Host.Outcome State Fault Refusal :=
  issue s (.hold h x) h false (memRegs x.d (x.ty == .b128) x.mem) fun s t =>
    let ea := eaOf t.ctx x.mem
    limited s t (aligned ea (bytes x.ty)
      (submit s t { newReq (.hold (wantsHold s t ea)) ea (bytes x.ty) x.ty (.hold h x) with dst := x.d }
        true true (t.ctx.pc + 12) .run))

/-- The thread's valid hold on the line of an address. -/
def holdOn (s : State) (k : Key) (ea : Word) : Option (Nat × Nat × Nat × HoldReg) :=
  (liveHolds s k).find? fun x => x.2.2.2.va == lineVa ea

/-- One attempt of an access to data. -/
def tryData (s : State) (id : Nat) : State :=
  match findReq s id with
  | none => s
  | some r => match r.op with
    | .ld | .st | .amo _ | .cas | .addd _ | .cflush | .hold false => match attempt s r with
      | .ok s1 => s1
      | .notHbm _ => s
    | _ => s

/-- Performs what the thread has issued before a store under its hold and what the store has to follow (R173, R174). -/
def performEarlier (s : State) (r : Req) : State :=
  (s.flight.reqs.filter fun e => e.key == r.key && holdsBack e r).foldl (fun s e => tryData (tryData s e.id) e.id) s

/-- A store or add under a valid hold, at the holding bench and at once (R192, R197): one to the isolated ranges is refused as a
store (R12, R36), and one that must follow an access still on its way is left for a later cycle (R173, R174, log 83). -/
def underHold (s : State) (t : Thread) (r : Req) (p : Phys) (new : State → Vec) (f : Thread → Thread) : Did :=
  if ((findSpace s t.key.asid).map fun sp => isolated sp r.va.toNat).getD false then
    submit s (f t) r false false (t.ctx.pc + 12) .run
  else
    let r1 := { r with id := nextSeq s, key := t.key, pa := some p }
    let s1 := performEarlier s r1
    if s1.flight.reqs.any fun e => e.key == t.key && holdsBack e r1 then .skip s1
    else .done (onThread (holdPut s1 t.key p r.n (new s1)) t.key f) (t.ctx.pc + 12) .run

/-- `HST` (R172, R192). -/
def execHst (h : Hdr) (x : Hst) (s : State) : Host.Outcome State Fault Refusal :=
  issue s (.hst h x) h false (memRegs x.d (x.ty == .b128) x.mem) fun s t =>
    let ea := eaOf t.ctx x.mem
    let n := bytes x.ty
    let put := fun (ok : Bool) (t : Thread) => { t with ctx := setP t.ctx x.px ok }
    let dat := dataOf s t x.ty x.d
    aligned ea n (
      if entriesFull s t then .skip s
      else match holdOn s t.key ea with
        | none => .done (setThread s (put false t)) (t.ctx.pc + 12) .run
        | some p => underHold s t { newReq .st ea n x.ty (.hst h x) with dst := x.d, dat := dat }
            (physAdd p.2.2.2.line (ea.toNat % 128)) (fun _ => dat) (put true))

/-- Ends the thread's hold on the line of an address, if it has one (R193). -/
def releaseHold (s : State) (k : Key) (ea : Word) : State :=
  match (threadHolds s k).find? fun x => x.2.2.2.va == lineVa ea with
  | some p => endHoldAt s p.1 p.2.1 p.2.2.1
  | none => s

/-- `HREL` (R193): from its issue the thread has no hold there; the hold ends in the order of the thread's accesses, with `.rel`
after the earlier ones (R174, R288). -/
def execHrel (h : Hdr) (x : MemO) (s : State) : Host.Outcome State Fault Refusal :=
  issue s (.hrel h x) h false [(2, x.mem.base, false), (3, x.mem.idx, false)] fun s t =>
    let ea := eaOf t.ctx x.mem
    if entriesFull s t then .skip s
    else .done (enter s t { newReq .hrel ea 0 .b64 (.hrel h x) with ord := x.ord, scp := x.scp } false false).1
      (t.ctx.pc + 12) .run

/-- `ADDD` (R197): one to a line that the thread holds is added into it at once. -/
def execAddd (h : Hdr) (x : Addd) (s : State) : Host.Outcome State Fault Refusal :=
  issue s (.addd h x) h false (memRegs x.d (x.ty == .b128) x.mem) fun s t =>
    let ea := eaOf t.ctx x.mem
    let n := bytes x.ty
    let dat := dataOf s t x.ty x.d
    let r := { newReq (.addd x.op) ea n x.ty (.addd h x) with dst := x.d, dat := dat }
    aligned ea n (
      if entriesFull s t then .skip s
      else match holdOn s t.key ea with
        | none => submit s t r false false (t.ctx.pc + 12) .run
        | some p =>
          let q := physAdd p.2.2.2.line (ea.toNat % 128)
          underHold s t r q (fun s => amoOper x.op x.ty (readCoherent s (some t.key) q n) dat) id)

/-- `CFLUSH` (R199): it names the line that contains `ea`, with no alignment check (R169). -/
def execCflush (h : Hdr) (x : MemO) (s : State) : Host.Outcome State Fault Refusal :=
  issue s (.cflush h x) h false [(2, x.mem.base, false), (3, x.mem.idx, false)] fun s t =>
    submit s t { newReq .cflush (eaOf t.ctx x.mem) 0 .b64 (.cflush h x) with ord := x.ord, scp := x.scp }
      false false (t.ctx.pc + 12) .run

end Sys2Proof.Machine
end

