-- ==== Sys2Proof/Machine/Placement.lean ====
section
/-! DEFINITION. Mesh distance and placement, CL2 room, the context pool, and the creation and retirement of threads
(R20, R259 to R263, R317 to R321, R332 to R338). -/

namespace Sys2Proof.Machine
open Sys2Proof.Forms

/-! Mesh (R332). -/

def meshX (b : Nat) : Nat := 14 * (b / 112 % 3) + b % 112 % 14

def meshY (b : Nat) : Nat := 8 * (b / 112 / 3) + b % 112 / 14

/-- The bench at mesh coordinates. -/
def benchAt (x y : Nat) : Nat := 112 * (3 * (y / 8) + x / 14) + 14 * (y % 8) + x % 14

def dist (x y : Nat) : Nat := (x - y) + (y - x)

def hops (a b : Nat) : Nat := dist (meshX a) (meshX b) + dist (meshY a) (meshY b)

/-- The numbers from one to another, both included. -/
def span (a b : Nat) : List Nat :=
  if a ≤ b then (List.range (b - a + 1)).map (a + ·) else (List.range (a - b + 1)).map (a - ·)

/-- The route: along X first, then along Y, both ends included. -/
def route (a b : Nat) : List Nat :=
  (span (meshX a) (meshX b)).map (benchAt · (meshY a)) ++
    ((span (meshY a) (meshY b)).drop 1).map (benchAt (meshX b) ·)

/-- The candidates of a placement walk, in order (R259). -/
def candidates (origin target rad : Nat) : List Nat :=
  let onRoute := (route origin target).filter fun b => decide (hops b target ≤ rad)
  let near := (List.range Config.benches).filter fun b => decide (hops b target ≤ rad) && !onRoute.contains b
  onRoute ++ (List.range (rad + 1)).flatMap fun d => near.filter fun b => hops b target == d

/-! CL2 room (R317, R319, R321, R333). -/

/-- Lines that take a place in the CL2 of a bench: those in it, in its CL1s, and on their way there. -/
def inCl2 (t : Thread) (b : Nat) : Bool :=
  match t.loc with
  | .placed (.cl1 _) | .placed .cl2 => t.bench == b
  | .moving (.cl1 _) c | .moving .cl2 c => c == b
  | _ => false

def cl2Used (s : State) (b : Nat) : Nat := (s.threads.filter fun t => inCl2 t b).length

/-- The class of parked lines for replacement (R319). -/
def parkedClass (s : State) (t : Thread) : Bool :=
  parked t || t.ctx.dhalt || t.ctx.frz || suspended s t.key.asid || t.yielded

/-- The victim of a list of lines: parked before ready, then least recently issued (R321). -/
def victimOf (s : State) (l : List Thread) : Option Thread :=
  match leastBy (·.lastIssue) (l.filter (parkedClass s)) with
  | some t => some t
  | none => leastBy (·.lastIssue) l

/-- The lines a CL2 may spill: in no CL1, not held, not in transfer, nothing waiting to be applied (R321, R333). -/
def spillable (s : State) (b : Nat) : List Thread :=
  s.threads.filter fun t => t.bench == b && t.loc == .placed .cl2 && !t.ctx.hact && t.inbox.isEmpty

/-- Lines of the LLC context partition in one slice: a quarter of 64 MiB of 128-byte lines a step (R296). -/
def llcCapacity (s : State) : Nat := s.cache.part * 131072

/-- The LLC slice of a context line: that of the home of its slot (R295, R317). -/
def slotSlice (s : State) (t : Thread) : Nat :=
  match (findSpace s t.key.asid).map fun x => translate s (.bench t.bench) t.key.asid { sup := true } (trapLineVa x t.key - 128) with
  | some (.ok (.dev a) _) => Config.homeDie a
  | _ => 0

def inLlc (t : Thread) : Bool := t.loc == .placed .llc || match t.loc with
  | .moving .llc _ => true
  | _ => false

/-- The words of a line that stands in its slot go to memory as it leaves: what an ordinary load finds there afterwards (R12,
R317, log 86). -/
def leaveSlot (s : State) (k : Key) : State :=
  match findThread s k, findSpace s k.asid with
  | some t, some x =>
    if t.loc != .placed .hbm then s
    else match translate s (.bench t.bench) k.asid { sup := true } (trapLineVa x k - 128) with
      | .ok (.dev a) s1 => { s1 with mem := { s1.mem with
          dev := (List.range 32).foldl (fun d n => writeVal d (a + 8 * n) 8 ((slotWord t n).setWidth 128)) s1.mem.dev } }
      | _ => s
  | _, _ => s

/-- Starts the transfer of a line to a place (R323). -/
def startMove (s : State) (k : Key) (p : Place) (b : Nat) : State :=
  onThread (leaveSlot s k) k fun t => { t with loc := .moving p b, ready := if t.wait == .run && t.pend.isNone then t.ready else none }

/-- Context lines of a slice of the LLC, those on their way there included. -/
def partUsed (s : State) (slice : Nat) : Nat := (s.threads.filter fun t => inLlc t && slotSlice s t == slice).length

/-- The line that a slice of the partition spills: no held one (R319, R321). -/
def partVictim (s : State) (slice : Nat) : Option Thread :=
  victimOf s (s.threads.filter fun t => t.loc == .placed .llc && !t.ctx.hact && slotSlice s t == slice)

/-- Room in a slice of the partition: its own victim goes to HBM when it is full (R319, R321). -/
def partRoom (s : State) (slice : Nat) : State :=
  if partUsed s slice < llcCapacity s then s
  else match partVictim s slice with
    | some v => startMove s v.key .hbm v.bench
    | none => s

/-- Where a line spilled from a CL2 goes (R321). -/
def spillTo (s : State) (k : Key) (b : Nat) : State :=
  match findThread s k with
  | none => s
  | some t =>
    if s.cache.part == 0 then startMove s k .hbm b
    else
      let s1 := partRoom s (slotSlice s t)
      startMove s1 k (if partUsed s1 (slotSlice s t) < llcCapacity s1 then .llc else .hbm) b

/-- Room for a line in a CL2: one is spilled when none is free (R321). -/
def cl2Room (s : State) (b : Nat) : State :=
  if cl2Used s b < Config.cl2Lines then s
  else match victimOf s (spillable s b) with
    | some v => spillTo s v.key b
    | none => s

/-- Whether `IUEN` is set and its line limit (R339). -/
def iuEnabled (x : Iu) : Bool := x.cfg.getLsbD 7

def cl1Limit (x : Iu) : Nat :=
  let n := (x.cfg.setWidth 7).toNat
  if n == 0 || n > 64 then 64 else n

def enabledIus (s : State) (b : Nat) : Nat :=
  Config.iusPerBench - (s.ius.filter fun x => x.bench == b && !iuEnabled x).length

/-- Whether the CL2 of a bench has room for a line: a free line, or a parked one to spill (R333, R403). -/
def hasRoom (s : State) (b : Nat) : Bool :=
  !s.pkg.diesDown.contains (b / Config.benchesPerDie) &&
    (decide (cl2Used s b < Config.cl2Lines) || (spillable s b).any (parkedClass s))

/-- Whether a bench accepts a line under a placement walk (R333, R403). -/
def accepts (s : State) (b : Nat) : Bool := decide (0 < enabledIus s b) && hasRoom s b

/-- The placement walk (R259). -/
def placementWalk (s : State) (origin : Nat) (sbench : BitVec 10) (rad : BitVec 6) : Option Nat :=
  (candidates origin (if sbench == 0x3FF then origin else sbench.toNat) rad.toNat).find? (accepts s)

/-! The context pool (R335, R336). -/

/-- Allocates one id: a freed one, else the lowest never allocated; none when there is none. -/
def allocId (x : Space) : Option (BitVec 32 × Space) :=
  match x.free with
  | i :: l => some (i, { x with free := l, live := x.live + 1 })
  | [] => if x.hwm < x.limit then some (x.hwm.setWidth 32, { x with hwm := x.hwm + 1, live := x.live + 1 }) else none

/-- Returns an id. -/
def returnId (x : Space) (i : BitVec 32) : Space := { x with free := i :: x.free, live := x.live - 1 }

/-- Ids the pool can still supply: those on the free list and those never allocated. -/
def poolRoom (x : Space) : Nat := x.free.length + (x.limit - x.hwm).toNat

/-- A trap line whose records are invalid; its other words are undefined (R20, log 2). -/
def newTrapLine (s : State) : TrapLine × State :=
  let f := s.run.fresh
  ({ saveW0 := Config.freeWord f, tw1 := Config.freeWord (f + 1), tval := Config.freeWord (f + 2)
     iw01 := Config.freeWord (f + 3), iw2 := Config.freeWord (f + 4), saveS2 := Config.freeWord (f + 5)
     saveS3 := Config.freeWord (f + 6) },
   { s with run := { s.run with fresh := f + 7 } })

/-- Creates a thread in the CL2 of a bench, on its ready list (R20, R260, R326, R334). -/
def createThread (s : State) (k : Key) (c : Ctx) (b : Nat) : State :=
  let s0 := cl2Room s b
  let x := newTrapLine s0
  let q := takeSeq x.2
  refresh (addThread q.2 { key := k, uid := q.1, ctx := c, trap := x.1, bench := b }) k

/-- The stack top of a thread of a launch (R385). -/
def stackTop (l : LaunchSlot) (id : BitVec 32) : Word :=
  if l.stack == 0 then 0 else l.sbase + l.stack.setWidth 64 * id.setWidth 64

/-- The launch slot of a thread (R386); firmware service threads have none. -/
def launchOf (s : State) (n : BitVec 8) : Option LaunchSlot :=
  if n == 0xFF then none else s.queues.launches.find? fun l => l.n == n.toNat

def onLaunch (s : State) (n : BitVec 8) (f : LaunchSlot → LaunchSlot) : State :=
  { s with queues := { s.queues with launches := modifyFirst (fun l => l.n == n.toNat) f s.queues.launches } }

/-- The id that the pool supplies next (R336). -/
def nextId (x : Space) : BitVec 32 := x.free.headD (x.hwm.setWidth 32)

/-- Whether a `CTXW` to the slot of an id is on its way: the id is used again only after it (R337). -/
def idBusy (s : State) (asid : BitVec 16) (i : BitVec 32) : Bool :=
  s.flight.reqs.any fun r => r.key.asid == asid && canPerform s r && match r.op with
    | .ctxw a _ => a == i.setWidth 64
    | _ => false

/-- Whether the next id of a space may not be used yet (R337). -/
def poolBusy (s : State) (asid : BitVec 16) : Bool := ((findSpace s asid).map fun x => idBusy s asid (nextId x)).getD false

/-- A child's context line (R20, R260). -/
def childCtx (s : State) (x : SpawnReq) (id : BitVec 32) : Ctx :=
  let sel := fun (m : BitVec 4) (i : Nat) (w : Word) => if m.getLsbD i then w else 0
  let vel := fun (i : Nat) (w : Vec) => if x.vcopy.getLsbD i then w else 0
  let top := ((launchOf s x.lslot).map fun l => stackTop l id).getD 0
  { pc := x.entry, rm := x.rm, prio := x.prio, lslot := x.lslot, ctxid := id
    geo := (0xFFFF : BitVec 16) ++ x.geo.setWidth 48
    s0 := sel x.scopy 0 x.s0, s1 := sel x.scopy 1 x.s1, s2 := sel x.scopy 2 x.s2
    s3 := if x.scopy.getLsbD 3 then x.s3 else top
    v0 := vel 0 x.v0, v1 := vel 1 x.v1, v2 := vel 2 x.v2, v3 := vel 3 x.v3 }

/-- The creation that a `SPAWN` asks for: the walk, the id, the child; the id delivered is 0 when none is created
(R258 to R260, R336). -/
def spawnChild (s : State) (asid : BitVec 16) (origin : Nat) (x : SpawnReq) : State × BitVec 32 :=
  match placementWalk s origin x.sbench x.rad, (findSpace s asid).bind allocId with
  | some b, some (id, sp) =>
    let s1 := onLaunch (setSpace s sp) x.lslot fun l => { l with live := l.live + 1 }
    (createThread s1 ⟨asid, id⟩ (childCtx s1 x id) b, id)
  | _, _ => (s, 0)

/-- What is still on its way for a retired thread belongs to no thread, and the thread waits at no line (R337, log 87). -/
def orphan (s : State) (k : Key) : State :=
  { s with flight := { s.flight with
    reqs := s.flight.reqs.map fun r => if r.key == k then { r with key := ⟨k.asid, 0⟩ } else r
    turns := s.flight.turns.filter fun x => x.who != .thread k } }

/-- Retires a thread: its handles lose their owner, its launch counts down, its slot returns to the pool, its line
is gone (R261, R337). -/
def retireThread (s : State) (t : Thread) : State :=
  let s1 := endHolds s t.key
  let s2 := onSpace s1 t.key.asid fun sp =>
    returnId { sp with handles := sp.handles.map fun h => if h.v && h.owner == t.ctx.ctxid then { h with owner := 0 } else h }
      t.key.ctx
  dropThread (onLaunch (orphan s2 t.key) t.ctx.lslot fun l => { l with live := l.live - 1 }) t.key

/-- The bench that takes the line of a `MOVE` (R259, R263). -/
def moveGoal (s : State) (t : Thread) (rad : BitVec 6) (sbench : BitVec 10) : Option Nat :=
  if sbench == 0x3FF then none else placementWalk s t.bench sbench rad

/-- The line leaves its IU for the CL2 of the bench that took it (R263, R338). -/
def moveTo (s : State) (k : Key) (old b : Nat) : State :=
  let s1 := if b == old then s else cl2Room s b
  onThread (startMove s1 k .cl2 b) k fun x => { x with wait := .transit, lastIu := none }

end Sys2Proof.Machine
end

