-- ==== Sys2Proof/Machine/Tiles.lean ====
section
/-! DEFINITION. Tiles: the handle table, frames, and the tile instructions of group 100 (R35 to R37, R200 to R211). -/

namespace Sys2Proof.Machine
open Sys2Proof.Forms

/-! Engine commands by their words (R212, R249). -/

/-- The fields of a command's instruction words. -/
structure CmdFields where
  kind : CmdKind
  ty : Ty
  op : AOp := .add
  np : BitVec 4 := 0
  init : Bool := false
  bank : Bool := false
  sig : W32 := 0
  rm : Option RMode := none
  deriving DecidableEq, Repr

def cmdFields : Instr → Option CmdFields
  | .mldw _ x => some { kind := .mldw, ty := x.ty, bank := x.bank }
  | .mma _ x => some { kind := .mma, ty := x.ty, np := x.np, init := x.init, bank := x.bank }
  | .macc _ rm x => some { kind := .macc, ty := x.ty, rm := rm }
  | .mcvt _ x => some { kind := .mcvt, ty := x.ty, np := x.np }
  | .cpy _ x => some { kind := .cpy, ty := x.ty }
  | .cred _ x => some { kind := .cred, ty := x.ty, op := x.op }
  | .xcpy _ x => some { kind := .xcpy, ty := x.ty, sig := x.sig }
  | .xred _ x => some { kind := .xred, ty := x.ty, op := x.op, sig := x.sig }
  | _ => none

/-! The handle table (R35, R36). -/

/-- The entry of a 32-bit handle, when it is valid (R35). -/
def validHandle (x : Space) (v : BitVec 32) : Option Handle :=
  let idx := (v.setWidth 24).toNat
  let h := getHandle x idx
  if v.extractLsb' 24 8 != 0 || idx == 0 || decide (x.htsize.toNat ≤ idx) || !h.v then none else some h

/-- The entry of a whole register value (R204). -/
def validReg (x : Space) (v : Word) : Option Handle :=
  if v.extractLsb' 32 32 != 0 then none else validHandle x (v.setWidth 32)

/-- Row bytes of a format (R200). -/
def fmtRowBytes (fmt : BitVec 8) (cols : Nat) : Nat :=
  if fmt == 0x20 then 16 * cols
  else match tyOf (fmt.setWidth 5) with
    | some t => if isSbf t then 8 + 16 * (2 + sbfM t) else cols * width t / 8
    | none => 0

/-- The size of a tile (R200). -/
def tileSize (h : Handle) : Nat := h.rows.toNat * fmtRowBytes h.fmt h.cols.toNat

def framesOf (size : Nat) : Nat := (size + 16383) / 16384

/-! Frames and banks (R201, R202). A bank is taken to be one frame of the scratchpad (log 7). -/

/-- The number of frame j: 31 when it is not resident. -/
def frameNo (h : Handle) (j : Nat) : Nat := (h.frames.extractLsb' (5 * j) 5).toNat

def resident (h : Handle) (j : Nat) : Bool := frameNo h j != 31

def setFrame (h : Handle) (j n : Nat) : Handle :=
  { h with frames := (h.frames &&& ~~~((0x1F : BitVec 40) <<< (5 * j))) ||| (BitVec.ofNat 40 n <<< (5 * j)) }

/-- Bindings homed at an IU, with their address spaces. -/
def homedAt (s : State) (b u : Nat) : List (BitVec 16 × Handle) :=
  s.spaces.flatMap fun x => (x.handles.filter fun h => h.v && h.hbench.toNat == b && h.hiu.toNat == u).map fun h => (x.asid, h)

/-- Resident frames of an IU's scratchpad: address space, handle, frame index, frame number. -/
def residents (s : State) (b u : Nat) : List (BitVec 16 × Handle × Nat × Nat) :=
  (homedAt s b u).flatMap fun x => ((List.range x.2.nfr.toNat).filter (resident x.2)).map fun j => (x.1, x.2, j, frameNo x.2 j)

/-- Frames of an IU that are pinned (R207). -/
def pinnedAt (s : State) (b u : Nat) : Nat :=
  ((homedAt s b u).map fun x => ((List.range 8).filter fun j => x.2.pin.getLsbD j).length).sum

/-- The backing address of a byte of a tile (R201). -/
def backingVa (x : Space) (idx o : Nat) : Word := (x.tback ++ (0 : BitVec 41)).setWidth 64 + BitVec.ofNat 64 (idx * 2 ^ 17 + o)

/-- Writes one page of a frame back: what an ordinary load of the backing area finds there (R201, log 86). -/
def backPage (s : State) (x : Space) (h : Handle) (o : Nat) : State :=
  let n := min 4096 (tileSize h - o)
  match translate s (.bench h.hbench.toNat) x.asid { sup := true } (backingVa x h.idx o) with
  | .ok (.dev a) s1 => { s1 with mem := { s1.mem with
      dev := writeBytes s1.mem.dev a (readBytes s1.mem.tiles (tileAddr x.asid h.idx o) n) } }
  | _ => s

/-- Writes a frame back to its backing (R201). -/
def backFrame (s : State) (x : Space) (h : Handle) (j : Nat) : State :=
  ((List.range 4).map fun n => j * 16384 + n * 4096).foldl (fun s o => if o < tileSize h then backPage s x h o else s) s

/-- An unpinned resident frame is written back and no longer resident (R201). -/
def dropFrame (s : State) (asid : BitVec 16) (h : Handle) (j : Nat) : State :=
  let s1 := match findSpace s asid with
    | some x => backFrame s x h j
    | none => s
  onHandle s1 asid h.idx fun h => setFrame h j 31

/-- Whether a bank of an IU's scratchpad is awake. -/
def bankAwake (s : State) (b u n : Nat) : Bool := !((getIu s b u).banks.any fun x => x.1 == n)

/-- Use of a powered-down bank starts its wake-up (R202). -/
def wakeBank (s : State) (b u n : Nat) : State :=
  onIu s b u fun x => { x with banks := x.banks.map fun y => if y.1 == n && y.2 == .down then (n, .waking s.run.now) else y }

/-- A frame of an IU's scratchpad for a binding: a free one, else an unpinned one is written back (R201); its bank wakes up when
it is powered down (R202). -/
def takeFrame (s : State) (b u : Nat) : Option (State × Nat) :=
  let used := residents s b u
  match (List.range 24).find? fun n => !(used.any fun x => x.2.2.2 == n) with
  | some n => some (wakeBank s b u n, n)
  | none => (used.find? fun x => !x.2.1.pin.getLsbD x.2.2.1).map fun x =>
      (wakeBank (dropFrame s x.1 x.2.1 x.2.2.1) b u x.2.2.2, x.2.2.2)

/-- The outcome of making frames resident. -/
inductive Refill where
  | ok (s : State)
  | wait (s : State) (va : Word)
  | busy (s : State)
  | bad (va : Word) (status : BitVec 5)
  | notHbm (pa : Nat)

/-- Translates the pages of a frame's backing that hold bytes of the tile (R201, R210). -/
def backingPages (s : State) (b : Nat) (asid : BitVec 16) (x : Space) (idx j size : Nat) : Nat → Refill
  | 0 => .ok s
  | n + 1 =>
    match backingPages s b asid x idx j size n with
    | .ok s1 =>
      let o := j * 16384 + n * 4096
      if size ≤ o then .ok s1
      else match translate s1 (.bench b) asid { sup := true } (backingVa x idx o) with
        | .ok _ s2 => .ok s2
        | .wait => .wait s1 (backingVa x idx o)
        | .busy s2 => .busy s2
        | .bad st => .bad (backingVa x idx o) st
        | .notHbm a => .notHbm a
    | r => r

/-- Makes one frame resident (R201). -/
def refillFrame (s : State) (b : Nat) (asid : BitVec 16) (idx j : Nat) : Refill :=
  match findSpace s asid with
  | none => .ok s
  | some x =>
    let h := getHandle x idx
    if !h.v || resident h j || decide (h.nfr.toNat ≤ j) then .ok s
    else if h.lost.getLsbD j then .bad (backingVa x idx (j * 16384)) stMemerr
    else match backingPages s b asid x idx j (tileSize h) 4 with
      | .ok s1 => match takeFrame s1 h.hbench.toNat h.hiu.toNat with
        | some (s2, n) => .ok (onHandle s2 asid idx fun h => setFrame h j n)
        | none => .ok s1
      | r => r

/-- Makes the frames of a list resident. -/
def refillFrames (s : State) (b : Nat) (asid : BitVec 16) (idx : Nat) : List Nat → Refill
  | [] => .ok s
  | j :: l => match refillFrame s b asid idx j with
    | .ok s1 => refillFrames s1 b asid idx l
    | r => r

/-- Threads parked on a tile frame re-issue (R201, R202). -/
def releaseTile (s : State) (asid : BitVec 16) (idx : Nat) : State :=
  ((s.threads.filter fun t => t.key.asid == asid && match t.wait with
    | .tile i _ _ => i == idx
    | _ => false).map (·.key)).foldl (fun s k => settle (onThread s k fun t => { t with wait := .run }) k) s

/-- Bytes of a tile (R276). -/
def readTile (s : State) (asid : BitVec 16) (idx o n : Nat) : List Byte := readBytes s.mem.tiles (tileAddr asid idx o) n

def writeTile (s : State) (asid : BitVec 16) (idx o : Nat) (l : List Byte) : State :=
  { s with mem := { s.mem with tiles := writeBytes s.mem.tiles (tileAddr asid idx o) l } }

/-- Every byte of a tile becomes 0 (R205). -/
def clearTile (s : State) (asid : BitVec 16) (idx : Nat) : State :=
  let lo := tileAddr asid idx 0
  { s with mem := { s.mem with
      tiles := s.mem.tiles.filter fun c => !(decide (lo ≤ c.1) && decide (c.1 < lo + 2 ^ 17)) } }

/-! Instructions. -/

/-- TILE BOUND (R209). -/
def tileBound (reason field : BitVec 8) (v : Word) : Did :=
  .trap 0x07 (reason ++ (0 : BitVec 8) ++ field) v false

/-- The tile that a tensor record names (R250). -/
def recTile (rec : BitVec 1024) : Option Nat := if rec.getLsbD 10 then some (rec.extractLsb' 64 24).toNat else none

/-- The tile that the record at an address names as it stands (R250). -/
def peekTile (s : State) (asid : BitVec 16) (b : Nat) (va : Word) : Option Nat :=
  match translate s (.bench b) asid { sup := true } va with
  | .ok p _ => recTile (lineData s.mem p)
  | _ => none

/-- The handles that a command names: by its references, or in its records (R206, R213, R250). -/
def namedHandles (s : State) (asid : BitVec 16) (b : Nat) (kind : CmdKind) (va vb vc : Word) : List Nat :=
  let r := fun (v : Word) => (v.setWidth 24).toNat
  match kind with
  | .mldw => [r va]
  | .mma => [r va, r vb, r vc]
  | .macc | .mcvt => [r va, r vb]
  | .cpy | .cred | .xcpy | .xred => (peekTile s asid b va).toList ++ (peekTile s asid b vb).toList

/-- The handles that commands not yet filled name, those in the engine save area included (R206, R357). -/
def cmdHandles (s : State) (x : Space) : List Nat :=
  ((s.eng.cmds.filter fun c => c.key.asid == x.asid).flatMap fun c =>
      namedHandles s x.asid c.bench c.kind c.a c.b c.c ++ (recTile c.rec1).toList ++ (recTile c.rec2).toList ++ c.out.toList) ++
    x.cmdSave.flatMap fun e => match Decode.decode e.iw with
      | .ok i => ((cmdFields i).map fun f => namedHandles s x.asid (e.iu / Config.iusPerBench) f.kind e.a e.b e.c).getD []
      | .error _ => []

/-- Whether the entry of an index is bound. -/
def boundAt (x : Space) (i : Nat) : Bool := (getHandle x i).v

/-- The lowest free index that no command holds back (R205, R206, log 11). -/
def freeIndex (s : State) (x : Space) : Option Nat :=
  let held := cmdHandles s x
  ((List.range (x.handles.length + held.length + 1)).map (· + 1)).find? fun i =>
    decide (i < x.htsize.toNat) && !boundAt x i && !held.contains i

/-! The bench handle cache (R203). -/

/-- Whether the bench handle cache holds an entry. -/
def entryHere (s : State) (b : Nat) (asid : BitVec 16) (i : Nat) : Bool := s.cache.handles.contains (b, asid, i)

/-- The bench handle cache fetches an entry (R203, log 85). -/
def fetchEntry (s : State) (b : Nat) (asid : BitVec 16) (i : Nat) : State :=
  let mine := s.cache.handles.filter fun x => x.1 == b
  { s with
    run := if mine.length < Config.handleEntries then s.run else { s.run with fresh := s.run.fresh + 1 }
    cache := { s.cache with
      handles := (b, asid, i) :: makeRoom (Config.freePick s.run.fresh) Config.handleEntries mine s.cache.handles } }

/-- An instruction that names entries of the handle table is not issued while one is being fetched (R203). -/
def withEntries (s : State) (t : Thread) (l : List Nat) (x : Did) : Did :=
  let real := fun (i : Nat) => i != 0 && ((findSpace s t.key.asid).map fun y => decide (i < y.htsize.toNat)).getD false
  match l.find? fun i => real i && !entryHere s t.bench t.key.asid i with
  | some i => .skip (fetchEntry s t.bench t.key.asid i)
  | none => x

/-- The index that a register names as a handle. -/
def entryOf (v : Word) : List Nat := if v.extractLsb' 24 40 == 0 then [(v.setWidth 24).toNat] else []

/-- Free indices that the bench holds in reserve for a space (R203). -/
def reserveOf (s : State) (b : Nat) (asid : BitVec 16) : Nat :=
  ((s.cache.reserve.find? fun x => x.1 == b && x.2.1 == asid).map (·.2.2)).getD 0

def setReserve (s : State) (b : Nat) (asid : BitVec 16) (n : Nat) : State :=
  { s with cache := { s.cache with reserve := upsert (fun x => x.1 == b && x.2.1 == asid) (b, asid, n) s.cache.reserve } }

/-- The bench refills its reserve (R203, log 85). -/
def refillReserve (s : State) (b : Nat) (asid : BitVec 16) : State :=
  setReserve { s with run := { s.run with fresh := s.run.fresh + 1 } } b asid (Config.reserveSize s.run.fresh + 1)

/-- Bindings of a thread (R205). -/
def ownedTiles (x : Space) (id : BitVec 32) : Nat := (x.handles.filter fun h => h.v && h.owner == id).length

/-- The limits of a thread's launch on tiles (R90, R205). -/
def tileLimit (s : State) (t : Thread) : Option (BitVec 32 × BitVec 8) :=
  (launchOf s t.ctx.lslot).map fun l => (l.tbytes, l.ntile)

/-- The quota of a limit (R205). -/
def quotaOf (l : Option (BitVec 32 × BitVec 8)) : BitVec 8 :=
  match l with
  | some x => x.2
  | none => 0

/-- A new binding (R205). -/
def bindTile (s : State) (t : Thread) (fmt : BitVec 8) (rows cols : BitVec 16) (size idx : Nat) : State :=
  clearTile (onHandle s t.key.asid idx fun h =>
    { h with v := true, busy := false, pin := 0, nfr := BitVec.ofNat 4 (framesOf size)
             hbench := BitVec.ofNat 10 t.bench, hiu := BitVec.ofNat 8 (iuAt t), frames := BitVec.allOnes 40
             rows := rows, cols := cols, fmt := fmt, owner := t.ctx.ctxid, lost := 0 }) t.key.asid idx

/-- `TALLOC` (R205). -/
def execTalloc (h : Hdr) (fmt : BitVec 6) (d a : Opd) (s : State) : Host.Outcome State Fault Refusal :=
  issue s (.talloc h fmt d a) h false [(1, d, false), (2, a, false)] fun s t =>
    let v := sVal s t a
    let rows := v.extractLsb' 16 16
    let cols := v.extractLsb' 0 16
    let f8 : BitVec 8 := fmt.setWidth 8
    let sbf := decide (0x11 ≤ fmt.toNat) && decide (fmt.toNat ≤ 0x14)
    let size := rows.toNat * fmtRowBytes f8 cols.toNat
    let lim := tileLimit s t
    if v.extractLsb' 32 32 != 0 || rows == 0 || cols == 0 || (sbf && cols != 128) then tileBound 0x03 2 v
    else if decide (131072 < size) || (lim.map fun l => decide (l.1.toNat < size)).getD false then tileBound 0x04 2 v
    else match findSpace s t.key.asid with
      | none => finish s t (setDst t.ctx d false 0)
      | some x =>
        if (lim.map fun l => decide (l.2.toNat ≤ ownedTiles x t.ctx.ctxid)).getD false then
          .trap 0x06 ((quotaOf lim).setWidth 24) 0 false
        else if decide (x.htsize.toNat ≤ (x.handles.filter (·.v)).length + 1) then finish s t (setDst t.ctx d false 0)
        else match freeIndex s x with
          | none => .skip s
          | some i => match reserveOf s t.bench t.key.asid with
            | 0 => .skip (refillReserve s t.bench t.key.asid)
            | n + 1 => finish (bindTile (setReserve s t.bench t.key.asid n) t f8 rows cols size i) t
                (setDst t.ctx d false (BitVec.ofNat 128 i))

/-- The checks of a handle operand (R35, R203, R204). -/
def withHandle (s : State) (t : Thread) (a : Opd) (f : Handle → Did) : Did :=
  let v := sVal s t a
  withEntries s t (entryOf v) <| match (findSpace s t.key.asid).bind fun x => validReg x v with
  | some h => f h
  | none => tileBound 0x01 2 v

/-- `TFREE` (R206): threads that wait for a frame of the tile issue again. -/
def execTfree (h : Hdr) (a : Opd) (s : State) : Host.Outcome State Fault Refusal :=
  issue s (.tfree h a) h false [(2, a, false)] fun s t => withHandle s t a fun e =>
    .done (releaseTile (onHandle s t.key.asid e.idx fun e => { e with v := false, pin := 0, gen := e.gen + 1 })
      t.key.asid e.idx) (t.ctx.pc + 12) .run

/-- The mask bits of bound frames (R207). -/
def frameMask (e : Handle) (mask : BitVec 8) : BitVec 8 := mask &&& ~~~(BitVec.allOnes 8 <<< e.nfr.toNat)

/-- `TPIN` (R207). -/
def execTpin (h : Hdr) (px : BitVec 3) (a : Opd) (mask : BitVec 8) (s : State) : Host.Outcome State Fault Refusal :=
  issue s (.tpin h px a mask) h false [(2, a, false)] fun s t => withHandle s t a fun e =>
    let new := frameMask e mask &&& ~~~e.pin
    let extra := ((List.range 8).filter fun j => new.getLsbD j).length
    let ok := decide (pinnedAt s e.hbench.toNat e.hiu.toNat + extra ≤ 16)
    let s1 := if ok then onHandle s t.key.asid e.idx fun e => { e with pin := e.pin ||| new } else s
    finish s1 t (setP t.ctx px ok)

/-- `TUNPIN` (R207). -/
def execTunpin (h : Hdr) (a : Opd) (mask : BitVec 8) (s : State) : Host.Outcome State Fault Refusal :=
  issue s (.tunpin h a mask) h false [(2, a, false)] fun s t => withHandle s t a fun e =>
    finish (onHandle s t.key.asid e.idx fun e => { e with pin := e.pin &&& ~~~frameMask e mask }) t t.ctx

/-- `TINFO` (R208). -/
def execTinfo (h : Hdr) (n : BitVec 2) (d a : Opd) (s : State) : Host.Outcome State Fault Refusal :=
  issue s (.tinfo h n d a) h false [(1, d, false), (2, a, false)] fun s t =>
    let v := sVal s t a
    let idx := (v.setWidth 24).toNat
    withEntries s t (entryOf v) <| match findSpace s t.key.asid with
    | some x =>
      if v.extractLsb' 24 40 != 0 || idx == 0 || decide (x.htsize.toNat ≤ idx) then tileBound 0x01 2 v
      else finish s t (setDst t.ctx d false ((handleWord (getHandle x idx) n.toNat).setWidth 128))
    | none => tileBound 0x01 2 v

/-- The checks of `TLDE` and `TSTE`: handle, alignment, bound (R203, R210); then the `OUTST` limit and residency (R75
step 11, R201, R202). TILE BOUND names field 2 for an `ea`, which has no field of its own (log 84). -/
def tileAccess (s : State) (t : Thread) (ty : Ty) (iw : IWord) (ea : Word) (counts : Bool) (go : Handle → Nat → Did) : Did :=
  let hv : BitVec 32 := ea.extractLsb' 32 32
  let o := (ea.setWidth 32).toNat
  let n := bytes ty
  withEntries s t (if hv.extractLsb' 24 8 == 0 then [(hv.setWidth 24).toNat] else []) <|
  match (findSpace s t.key.asid).bind fun x => validHandle x hv with
  | none => tileBound 0x01 2 ea
  | some e =>
    if o % n ≠ 0 then misaligned 0x04 ea
    else if decide (tileSize e < o + n) || ((tileLimit s t).map fun l => decide (l.1.toNat < o + n)).getD false then
      tileBound 0x02 2 ea
    else if counts && t.ctx.outst == 15 then .park s .limit
    else
      let j := o / 16384
      if !resident e j then .park s (.tile e.idx j iw)
      else if !bankAwake s e.hbench.toNat e.hiu.toNat (frameNo e j) then
        .park (wakeBank s e.hbench.toNat e.hiu.toNat (frameNo e j)) (.tile e.idx j iw)
      else if entriesFull s t then .skip s
      else go e o

/-- The requests of `TLDE` and `TSTE` (R210). -/
def tldeReq (t : Thread) (h : Hdr) (x : MemT) (idx o : Nat) : Req :=
  { newReq (.tlde idx o) (eaOf t.ctx x.mem) (bytes x.ty) x.ty (.tlde h x) with dst := x.d }

def tsteReq (s : State) (t : Thread) (h : Hdr) (x : MemT) (idx o : Nat) : Req :=
  { newReq (.tste idx o) (eaOf t.ctx x.mem) (bytes x.ty) x.ty (.tste h x) with dst := x.d, dat := dataOf s t x.ty x.d }

/-- `TLDE` (R210). -/
def execTlde (h : Hdr) (x : MemT) (s : State) : Host.Outcome State Fault Refusal :=
  issue s (.tlde h x) h false (memRegs x.d (x.ty == .b128) x.mem) fun s t =>
    tileAccess s t x.ty (Decode.encode (.tlde h x)) (eaOf t.ctx x.mem) true fun e o =>
      .done (enter s t (tldeReq t h x e.idx o) true true).1 (t.ctx.pc + 12) .run

/-- `TSTE` (R210). -/
def execTste (h : Hdr) (x : MemT) (s : State) : Host.Outcome State Fault Refusal :=
  issue s (.tste h x) h false (memRegs x.d (x.ty == .b128) x.mem) fun s t =>
    tileAccess s t x.ty (Decode.encode (.tste h x)) (eaOf t.ctx x.mem) false fun e o =>
      .done (enter s t (tsteReq s t h x e.idx o) false false).1 (t.ctx.pc + 12) .run

/-- A tile access is performed at the tile's home, against the current binding (R210, R211). -/
def performTile (s : State) (r : Req) (idx o : Nat) : Sent :=
  match findSpace s r.key.asid with
  | none => .ok (complete s r 0)
  | some x =>
    let h := getHandle x idx
    if !h.v || decide (tileSize h < o + r.n) then .ok (complete s r 0)
    else match refillFrame s r.bench r.key.asid idx (o / 16384) with
      | .notHbm a => .notHbm a
      | .wait s1 va => .ok (waitAccess s1 r va { sup := true })
      | .busy s1 => .ok s1
      | .bad va st => .ok (fatalAccess s r va st)
      | .ok s1 =>
        match r.op with
        | .tste .. => .ok (complete (writeTile s1 r.key.asid idx o (bytesOfNat r.n r.dat.toNat)) r 0)
        | _ => .ok (complete s1 r (BitVec.ofNat 128 (natOfBytes (readTile s1 r.key.asid idx o r.n))))

end Sys2Proof.Machine
end

