-- ==== Sys2Proof/Machine/Engine.lean ====
section
/-! DEFINITION. Engine commands: acceptance, starting, translations, token words, and their end (R40 to R42, R212 to
R218, R249, R366). -/

namespace Sys2Proof.Machine
open Sys2Proof.Forms

/-- The rounding mode fixed at issue, as a value of `RM` (R16, R103, R214). -/
def rmFixed (rm : Option RMode) (dyn : BitVec 3) : BitVec 3 :=
  match rm with
  | none => dyn
  | some .rne => 0 | some .rtz => 1 | some .rdn => 2 | some .rup => 3 | some .rmm => 4

/-! The state's commands. -/

def findCmd (s : State) (id : Nat) : Option Cmd := s.eng.cmds.find? fun c => c.id == id

def putCmd (s : State) (c : Cmd) : State :=
  { s with eng := { s.eng with cmds := modifyFirst (fun x => x.id == c.id) (fun _ => c) s.eng.cmds } }

/-- The matrix engine of a group (R202). -/
def getMat (s : State) (b g : Nat) : Mat :=
  (s.eng.mats.find? fun m => m.bench == b && m.group == g).getD { bench := b, group := g }

def putMat (s : State) (m : Mat) : State :=
  { s with eng := { s.eng with mats := upsert (fun x => x.bench == m.bench && x.group == m.group) m s.eng.mats } }

def groupOf (u : Nat) : Nat := u / 8

def isMatrix : CmdKind → Bool
  | .mldw | .mma | .macc | .mcvt => true
  | _ => false

def isCopy : CmdKind → Bool
  | .cpy | .cred => true
  | _ => false

def isLink : CmdKind → Bool
  | .xcpy | .xred => true
  | _ => false

/-- Commands in progress on a copy engine of a bench (R360, R370). -/
def copyLoad (s : State) (b n : Nat) : Nat := (s.eng.cmds.filter fun c => c.bench == b && isCopy c.kind && c.home == n).length

/-- The commands of a bench's intake, in order of arrival, go to a copy engine with fewer than 16, the first when both have room;
`m` and `n` are in progress there (R370). -/
def intake (b : Nat) : Nat → Nat → List Cmd → List Cmd
  | _, _, [] => []
  | m, n, c :: l =>
    if c.bench == b && isCopy c.kind && c.home == 0 then
      if m < 16 then { c with home := 1 } :: intake b (m + 1) n l
      else if n < 16 then { c with home := 2 } :: intake b m (n + 1) l
      else c :: intake b m n l
    else c :: intake b m n l

/-- The intake of a bench passes what it can (R370). -/
def passCopies (s : State) (b : Nat) : State :=
  { s with eng := { s.eng with cmds := intake b (copyLoad s b 1) (copyLoad s b 2) s.eng.cmds } }

/-- The index of the tile that a reference names (R213). -/
def refIdx (v : Word) : Nat := (v.setWidth 24).toNat

/-! Turns (R367, R368). -/

/-- The next matrix command of an IU's queue that has not started. -/
def headCmd (s : State) (b u : Nat) : Option Cmd :=
  ((getIu s b u).queue.filterMap (findCmd s)).find? fun c => isMatrix c.kind && c.st == .queued

/-- The handle a command writes (R217). -/
def outOf (c : Cmd) : Option Nat :=
  match c.kind with
  | .mma | .macc | .mcvt => some (refIdx c.b)
  | _ => none

def isBusy (s : State) (c : Cmd) : Bool :=
  match outOf c, findSpace s c.key.asid with
  | some i, some x => (getHandle x i).busy
  | _, _ => false

/-- Whether a queue may have a turn: it has a head that does not wait for a `BUSY` output. -/
def hasTurn (s : State) (b u : Nat) : Bool := ((headCmd s b u).map fun c => !isBusy s c).getD false

/-- The weight of an IU's queue (R339). -/
def ewt (x : Iu) : Nat :=
  let n := (x.cfg.extractLsb' 24 4).toNat
  if n == 0 then 1 else n

/-- The turn of an engine as its queues stand (R367): it goes on while its queue has a head that is not `BUSY`, else the next queue
in cyclic order that has one gets a turn; with none there is no turn. -/
def settleTurn (s : State) (b g : Nat) : State :=
  let m := getMat s b g
  let has := fun (u : Nat) => hasTurn s b (8 * g + u)
  if m.turnLeft != 0 && has m.turn then s
  else match ((List.range 8).map fun i => (m.turn + 1 + i) % 8).find? has with
    | some u => putMat s { m with turn := u, turnLeft := ewt (getIu s b (8 * g + u)) }
    | none => if m.turnLeft == 0 then s else putMat s { m with turnLeft := 0 }

/-- Whether an IU's queue takes no command: it is full, or slots saved at a suspension still wait to enter it
(R214, R358). -/
def queueFull (s : State) (b u : Nat) : Bool :=
  decide (Config.queueEntries ≤ (getIu s b u).queue.length) ||
    s.spaces.any fun x => !x.susp && x.cmdSave.any fun e => e.iu == b * Config.iusPerBench + u

/-- The host is asked for its copy of a command's token word, which it may not keep while the command is outstanding (R310). -/
def callToken (s : State) (c : Cmd) : State :=
  match translate s (.bench c.bench) c.key.asid { sup := c.sup } c.tok with
  | .ok p _ => match hostBlocks s (lineOf p) .home with
    | some inv => sendBisnp s (lineOf p) inv
    | none => s
  | _ => s

/-- A command comes to its engines; a copy command to the intake of its bench (R310, R366, R370). -/
def addCmd (s : State) (c : Cmd) : State := passCopies (callToken { s with eng := { s.eng with cmds := s.eng.cmds ++ [c] } } c) c.bench

/-- Enters a command into its IU's queue (R214, R367). -/
def enqueueCmd (s : State) (c : Cmd) : State :=
  settleTurn (onIu (addCmd s c) c.bench c.iu fun x => { x with queue := x.queue ++ [c.id] }) c.bench (groupOf c.iu)

/-- Accepts a command (R214). -/
def acceptCmd (s : State) (t : Thread) (i : Instr) (f : CmdFields) (tok a b c : Word) : State :=
  let q := takeSeq s
  let cmd : Cmd :=
    { id := q.1, key := t.key, uid := t.uid, lslot := t.ctx.lslot, bench := t.bench, iu := iuAt t, kind := f.kind, iw := Decode.encode i
      ty := f.ty, op := f.op, np := f.np, init := f.init, bank := f.bank, mode := rmFixed f.rm t.ctx.rm, sig := f.sig
      tok := tok, a := a, b := b, c := c, sup := t.ctx.sup }
  count (enqueueCmd q.2 cmd) t.bench (iuAt t) 12

/-- The handle table entries that the checks of a matrix command read (R203, R216). -/
def matrixEntries (kind : CmdKind) (a b c : Word) : List Nat :=
  let e := fun (v : Word) => entryOf (v &&& 0xFFFFFFFF)
  match kind with
  | .mldw => e a
  | .mma => e a ++ e b ++ e c
  | .macc | .mcvt => e a ++ e b
  | _ => []

/-- The issue of a command (R214): the queue, the token VA, the checks `check` of its operands. -/
def engineIssue (s : State) (i : Instr) (h : Hdr) (regs : List (BitVec 8 × Opd × Bool)) (d a b c : Opd)
    (check : State → Thread → Word → Word → Word → Option Did) : Host.Outcome State Fault Refusal :=
  issue s i h false regs fun s t =>
    let tok := sVal s t d
    let va := sVal s t a
    let vb := sVal s t b
    let vc := sVal s t c
    withEntries s t (((cmdFields i).map fun f => matrixEntries f.kind va vb vc).getD []) <|
    if queueFull s t.bench (iuAt t) then .park s .engq
    else if tok.extractLsb' 0 3 != 0 then misaligned 0x06 tok
    else match check s t va vb vc with
      | some x => x
      | none => match cmdFields i with
        | some f => .done (acceptCmd s t i f tok va vb vc) (t.ctx.pc + 12) .run
        | none => .skip s

/-! The engine save area (R357, R358). -/

/-- The number of an IU in the engine save area (R357). -/
def iuNo (b u : Nat) : Nat := b * Config.iusPerBench + u

/-- A saved command as it enters its queue again (R358): the same command, which comes after what its thread issued before it. -/
def cmdOfSave (asid : BitVec 16) (e : CmdSave) : Cmd :=
  let f := match Decode.decode e.iw with
    | .ok i => (cmdFields i).getD { kind := .cpy, ty := .b64 }
    | .error _ => { kind := .cpy, ty := .b64 }
  { id := e.id, key := ⟨asid, e.ctx⟩, uid := e.uid, lslot := e.lslot, bench := e.iu / Config.iusPerBench, iu := e.iu % Config.iusPerBench
    kind := f.kind, iw := e.iw, ty := f.ty, op := f.op, np := f.np, init := f.init, bank := f.bank, mode := e.mode, sig := f.sig
    tok := e.tok, a := e.a, b := e.b, c := e.c, sup := e.sup, pos := e.pos.toNat, status := e.status, ran := e.ran
    st := if e.status == 0 then .queued else .started }

/-- The address of a command slot (R357). -/
def cmdSlotVa (x : Space) (e : CmdSave) : Word :=
  (x.esave ++ (0 : BitVec 12)).setWidth 64 + BitVec.ofNat 64 (256 * e.iu + 64 * e.slot)

/-- Where a slot of the save area is: its location, which no host copy covers; the host is asked for one that does; or a fault
(R309, R357). -/
inductive SavePlace where
  | ok (s : State) (p : Phys)
  | busy (s : State)
  | fault

def savePlace (s : State) (b : Nat) (asid : BitVec 16) (va : Word) : SavePlace :=
  match translate s (.bench b) asid { write := true, sup := true } va with
  | .ok p s1 => match hostBlocks s1 (lineOf p) .home with
    | some inv => .busy (sendBisnp s1 (lineOf p) inv)
    | none => .ok s1 p
  | .busy s1 => .busy s1
  | .wait | .bad _ | .notHbm _ => .fault

/-- Writes the words of a slot, which lies in one line; none when the translation faults (R357). -/
def saveWords (s : State) (b : Nat) (asid : BitVec 16) (va : Word) (l : List Word) : Option State :=
  match savePlace s b asid va with
  | .ok s1 p => some (l.zipIdx.foldl (fun s x => writeHome s (physAdd p (8 * x.2)) 8 (x.1.setWidth 128)) s1)
  | .busy s1 => some s1
  | .fault => none

/-- The words of a command slot (R357). -/
def slotWords (e : CmdSave) : List Word :=
  [(1 : BitVec 1) ++ e.state ++ (0 : BitVec 29) ++ e.ctx, (e.tok.setWidth 57).setWidth 64, e.iw.setWidth 64,
    (0 : BitVec 29) ++ e.mode ++ e.iw.extractLsb' 64 32, e.a, e.b, e.c, e.pos]

/-- Word 0 of a slot with `SV` clear. -/
def slotFree0 (l : List Word) : List Word := l.take 1 |>.map fun w => w &&& ((BitVec.allOnes 63).setWidth 64)

/-- One saved slot enters an IU's queue, behind its entries; its `SV` clears (R358). -/
def enterSlot (s : State) (x : Space) (e : CmdSave) : State :=
  let b := e.iu / Config.iusPerBench
  let s1 := setSpace s { x with cmdSave := x.cmdSave.erase e }
  enqueueCmd ((saveWords s1 b x.asid (cmdSlotVa x e) (slotFree0 (slotWords e))).getD s1) (cmdOfSave x.asid e)

/-- The slot that enters an IU's queue next: of a space that runs, the lowest (R358). -/
def nextSlot (s : State) (b u : Nat) : Option (Space × CmdSave) :=
  (s.spaces.filter fun x => !x.susp).findSome? fun x =>
    (leastBy (·.slot) (x.cmdSave.filter fun e => e.iu == iuNo b u)).map fun e => (x, e)

/-- Saved slots of spaces that run enter an IU's queue while it has room, in slot order; one whose line the host holds waits
for it (R309, R358). -/
def enterSlots (b u : Nat) : Nat → State → State
  | 0, s => s
  | n + 1, s =>
    if decide (Config.queueEntries ≤ (getIu s b u).queue.length) then s
    else match nextSlot s b u with
      | some (x, e) => match savePlace s b x.asid (cmdSlotVa x e) with
        | .busy s1 => s1
        | _ => enterSlots b u n (enterSlot s x e)
      | none => s

/-- A queue has room again: saved slots enter it, then threads parked on it issue their command (R24, R214, R358). -/
def releaseEngq (s0 : State) (b u : Nat) : State :=
  let s := enterSlots b u 4 s0
  if queueFull s b u then s
  else ((s.threads.filter fun t => t.wait == .engq && !t.cancel && t.lastIu == some (b, u)).map (·.key)).foldl
    (fun s k => settle (onThread s k fun t => { t with wait := .run }) k) s

/-- Whether a queue of a group holds a command. -/
def groupHas (s : State) (b g : Nat) : Bool :=
  s.eng.cmds.any fun c => c.bench == b && groupOf c.iu == g && c.packet.isNone

/-- A group whose last command has left is idle from now on (R363). -/
def noteIdle (s : State) (b g : Nat) : State :=
  if groupHas s b g then s else putMat s { getMat s b g with idleSince := s.run.now }

/-- A command leaves its IU's queue. -/
def leaveQueue (s : State) (c : Cmd) : State :=
  let s1 := passCopies (leaveTurns { s with eng := { s.eng with cmds := s.eng.cmds.filter fun x => x.id != c.id } } (some (.cmd c.id)))
    c.bench
  if c.packet.isSome then s1
  else
    let s2 := onIu s1 c.bench c.iu fun x => { x with queue := x.queue.filter (· != c.id) }
    noteIdle (settleTurn s2 c.bench (groupOf c.iu)) c.bench (groupOf c.iu)

/-- Removes a command whose token is filled, or that fills none (R366). -/
def dropCmd (s : State) (c : Cmd) : State :=
  if c.packet.isSome then leaveQueue s c else releaseEngq (leaveQueue s c) c.bench c.iu

/-- The queue a launch came from (R386). -/
def queueOfLaunch (s : State) (lslot : BitVec 8) : Option (Nat × Nat) := (launchOf s lslot).map fun l => (l.fn, l.qid)

/-- Whether a queue is IDLE or ACTIVE (R378). -/
def queueState (q : Queue) : Queue :=
  match q.st with
  | .idle | .active =>
    { q with st := if q.ridx == q.widx && q.incomplete == 0 && q.pk.isNone then .idle else .active }
  | _ => q

def onQueue (s : State) (fn qid : Nat) (f : Queue → Queue) : State :=
  { s with queues := { s.queues with qs := modifyFirst (fun q => q.fn == fn && q.qid == qid) f s.queues.qs } }

/-- A packet has completed: `DONEPK` (R383). -/
def packetDone (s : State) (fn qid : Nat) : State :=
  onQueue s fn qid fun q => queueState { q with donepk := q.donepk + 1, doneAt := s.run.now, incomplete := q.incomplete - 1 }

/-! Translations of engines (R40, R237, R253). -/

inductive Eng where
  | ok (s : State) (p : Phys)
  | wait (s : State)
  | bad (status : BitVec 5)
  | notHbm (pa : Nat)

/-- A translation by the engine of a command; a recoverable fault makes the command wait for the page's wake. -/
def engAt (s : State) (c : Cmd) (k : Want) (va : Word) : Eng :=
  match translate s (.bench c.bench) c.key.asid k va with
  | .ok p s1 => .ok s1 p
  | .bad st => .bad st
  | .notHbm a => .notHbm a
  | .busy s1 => .wait s1
  | .wait =>
    let page := va.toNat / 4096
    match c.wakeSt with
    | some (p, st) => if p == page then .bad st
        else .wait (putCmd (noteFault s c.bench c.key.asid page (kindsOf k)) { c with faultPage := some page })
    | none => .wait (putCmd (noteFault s c.bench c.key.asid page (kindsOf k)) { c with faultPage := some page })

def engWant (c : Cmd) (write : Bool) : Want := { write := write, store := write, sup := c.sup }

/-- The token's location (R40); the host keeps no copy of its line from the start of the command on (R309, R310). -/
def tokenAt (s : State) (c : Cmd) : Eng :=
  match engAt s c (engWant c true) c.tok with
  | .ok s1 (.dev a) => match hostBlocks s1 (lineOf (.dev a)) .home with
    | some inv => .wait (sendBisnp s1 (lineOf (.dev a)) inv)
    | none => .ok s1 (.dev a)
  | .ok _ _ => .bad stTokenNomem
  | r => r

/-- A token word (R42). -/
def tokenWord (stat : BitVec 16) (det : BitVec 48) : Word := stat ++ det

/-- `TDET` of a DONE command (R115). -/
def doneDet (fl : Fl) (n : Nat) : BitVec 48 := fl ++ BitVec.ofNat 43 n

/-- Writes a word of device memory as full, and serves its waiters: a fill, which is a release (R41, R78, R185, R282). -/
def fillWord (s : State) (a : Nat) (v : Word) : State :=
  let s1 := obtain (dropStale s) 0 (lineOf (.dev a)) .home
  serveWord { s1 with mem := setFull { s1.mem with dev := writeVal s1.mem.dev a 8 (v.setWidth 128) } a } a

/-- The cycles in which an engine has had a command in progress (R224). -/
def activeCycles (now : Nat) (m : Mat) : Word :=
  match m.since with
  | some t => m.active + BitVec.ofNat 64 (now - t)
  | none => m.active

/-- The matrix engine is done with a command (R224). -/
def releaseMat (s : State) (c : Cmd) : State :=
  if !isMatrix c.kind || c.st != .started then s
  else
    let m := getMat s c.bench (groupOf c.iu)
    let mine := fun (o : Option Nat) => if o == some c.id then none else o
    if m.compute == some c.id || m.loading == some c.id then
      let m1 := { m with compute := mine m.compute, loading := mine m.loading }
      putMat s (if m1.compute.isNone && m1.loading.isNone then { m1 with active := activeCycles s.run.now m, since := none } else m1)
    else s

/-- Abandons the shadows of a command (R217). -/
def abandon (s : State) (c : Cmd) : State :=
  match c.out with
  | some i => onHandle s c.key.asid i fun h => { h with busy := false }
  | none => s

def getBank (m : Mat) (b : Bool) : Bank := if b then m.bank1 else m.bank0

def setBank (m : Mat) (b : Bool) (x : Bank) : Mat := if b then { m with bank1 := x } else { m with bank0 := x }

def setTag (s : State) (c : Cmd) (b : Bool) (t : Option Tag) : State :=
  let m := getMat s c.bench (groupOf c.iu)
  putMat s (setBank m b { getBank m b with tag := t })

/-- An `MLDW` that ends otherwise than DONE leaves its bank with the empty tag (R219). -/
def spoilBank (s : State) (c : Cmd) : State := if c.kind == .mldw then setTag s c c.bank none else s

/-- The end of a command: the engine is free, the entry leaves the queue, a packet's command completes the packet. -/
def retireCmd (s : State) (c : Cmd) : State :=
  let s1 := dropCmd (releaseMat s c) c
  match c.packet with
  | some p => packetDone s1 p.1 p.2
  | none => s1

/-- A token fault of a thread that is gone is reported to firmware, which freezes the queue of its launch (R40, log 91). -/
def reportToken (s : State) (c : Cmd) (status : BitVec 5) : State :=
  let s1 := { s with fw := { s.fw with tokFaults := s.fw.tokFaults ++ [(c.key, c.tok, status)] } }
  match queueOfLaunch s1 c.lslot with
  | some p => dueFreeze s1 p.1 p.2 0x03 c.tok
  | none => s1

/-- A token that cannot be written (R40): a FATAL record to the issuing thread, if it is that thread still; with no thread, or
for a packet, the queue is frozen with TOKFAULT. -/
def tokenFault (s0 : State) (c : Cmd) (status : BitVec 5) : State :=
  let s := retireCmd (spoilBank (abandon s0 c) c) c
  match c.packet with
  | some p => dueFreeze s p.1 p.2 0x03 c.tok
  | none => match (findThread s c.key).filter fun t => t.uid == c.uid with
    | none => reportToken s c status
    | some t =>
      let q := takeSeq s
      let r : Req := { newReq .token c.tok 0 .b64 (.nop {}) with
        id := q.1, key := c.key, bench := t.bench, iu := iuAt t, iw := c.iw, fva := c.tok, born := s.run.now }
      let s1 := { q.2 with flight := { q.2.flight with reqs := q.2.flight.reqs ++ [r] } }
      settle (writeRecord s1 r (c.tok.toNat / 4096) status) c.key

/-- Publishes a command's output and fills its token (R41, R217). `publish` runs when the status is DONE and the
token can be written; none means that the output was freed. -/
def fillToken (s : State) (c : Cmd) (stat : BitVec 16) (det : BitVec 48) (publish : State → Option State) :
    Host.Outcome State Fault Refusal :=
  let finish := fun (s : State) (fill : State → Word → State) =>
    if stat == 0 then
      match publish s with
      | some s1 => .next (retireCmd (fill s1 (tokenWord 0 det)) c)
      | none => .next (retireCmd (fill (abandon s c) (tokenWord 5 0)) c)
    else .next (retireCmd (fill (spoilBank (abandon s c) c) (tokenWord stat det)) c)
  if c.packet.isSome && c.tok == 0 then finish s fun s _ => s
  else match tokenAt s c with
    | .notHbm a => .fault (.notHbm a)
    | .wait s1 => .next s1
    | .bad st => .next (tokenFault s c st)
    | .ok s1 p => match homeTurn (keepLine s1 (lineOf p) (some (.cmd c.id))) p (.cmd c.id) with
      | .done s2 _ => finish s2 fun s v => fillWord s (devAddr p) v
      | .blocked s2 | .outside s2 => .next s2
      | .bad st => .next (tokenFault s c st)

/-- Whether an engine may work on a command: it waits for no page, its address space is not suspended, the thread's
earlier accesses are performed (R214), its die is up. -/
def cmdReady (s : State) (c : Cmd) : Bool :=
  running s && c.faultPage.isNone && !suspended s c.key.asid && !s.pkg.diesDown.contains (c.bench / Config.benchesPerDie) &&
    (c.packet.isSome || !(s.flight.reqs.any fun r => r.key == c.key && decide (r.id < c.id) && !(r.st == .peer && isStore r.op)))

end Sys2Proof.Machine
end

