-- ==== Sys2Proof/Machine/EngineMem.lean ====
section
/-! DEFINITION. Memory accesses of the engines of a bench: stream engine, copy engines, volume walker (R227, R236, R252,
R303 to R306, R342). -/

namespace Sys2Proof.Machine
open Sys2Proof.Forms

/-- What an engine does to a location; `whole`: the line is being written as a whole, `far`: at the line's home;
`home`: a read, and a write if there is a value, at the line's home; `cas`: a compare-and-swap there (R179, R239, R243, R304). -/
inductive EOp where
  | read
  | write (v : Vec) (whole : Bool := false)
  | amo (op : AOp) (ty : Ty) (v : Vec) (far : Bool)
  | home (v : Option Vec)
  | cas (old new : Vec)

/-- The outcome at a location. -/
inductive EAcc where
  | done (s : State) (v : Vec)
  | blocked (s : State)
  | bad (status : BitVec 5)

/-- Names of host requests that engines share, by place: cached, owned, uncached read, atomic, uncached write; and of the answer that
an atomic has failed. -/
def hostAskId (kind a : Nat) : Nat := 2 ^ 60 * (kind + 1) + a

/-- Asks the host once (R304, R306). -/
def askOnce (s : State) (id : Nat) (o : Out) : State :=
  if s.cache.asked.contains id then s else emit { s with cache := { s.cache with asked := s.cache.asked ++ [id] } } o

/-- Uses up an answer of the host. -/
def takeAnswer (s : State) (id : Nat) : Option State :=
  if s.cache.answered.contains id then some { s with cache := { s.cache with answered := s.cache.answered.erase id } }
  else none

/-- Applies an operation at a location whose line the engine may use. -/
def applyE (s : State) (p : Phys) (n : Nat) (o : EOp) : State × Vec :=
  let v := readCoherent s none p n
  match o with
  | .read => (s, v)
  | .write x _ => ({ s with mem := physWrite s.mem p n x }, 0)
  | .amo op ty x _ => ({ s with mem := physWrite s.mem p n (amoOper op ty v x) }, v)
  | .home x => match x with
    | some x => ({ s with mem := physWrite s.mem p n x }, v)
    | none => (s, v)
  | .cas old new => (if v == old then { s with mem := physWrite s.mem p n new } else s, v)

def needE : EOp → Need
  | .read => .read
  | .write .. => .write
  | .amo _ _ _ far => if far then .home else .write
  | .home _ | .cas .. => .home

/-- A PCIe AtomicOp of an engine on host memory, on the only copy of its line (R181, R304, R311). -/
def pcieE (s : State) (p : Phys) (n : Nat) (o : EOp) (a : Nat) : EAcc :=
  if !s.fw.atomicEnable then .bad stSysAtomic
  else match takeAnswer s (hostAskId 3 a), takeAnswer s (hostAskId 5 a) with
    | some s1, _ => let r := applyE (giveUp s1 (lineOf p)) p n o; .done r.1 r.2
    | none, some _ => .bad stSysAtomic
    | none, none => .blocked (askOnce (giveUp s (lineOf p)) (hostAskId 3 a) (.pcieOp (hostAskId 3 a)))

/-- Whether R181 carries out an atomic as a PCIe AtomicOp. -/
def pcieOpE (op : AOp) (n : Nat) : Bool := (op == .add || op == .swap) && (n == 4 || n == 8)

/-- An access of an engine to a host line that the device may cache (R181, R304). -/
def hostCachedE (s : State) (b : Nat) (p : Phys) (n : Nat) (o : EOp) (a : Nat) : EAcc :=
  let line := lineOf p
  let base := a / 128 * 128
  let own := hostAskId 1 base
  match o with
  | .read =>
    if hostCopy s line then let r := applyE (obtain s b line .read) p n o; .done r.1 r.2
    else .blocked (askOnce s (hostAskId 0 base) (.hostReq (hostAskId 0 base) .rdShared base))
  | .write _ whole =>
    if hostOwned s line then let r := applyE (obtain s b line .write) p n o; .done r.1 r.2
    else .blocked (askOnce s own (.hostReq own (if whole && !hostCopy s line then .itoMWr else .rdOwn) base))
  | .home _ => .bad stVolrec
  | .cas .. => pcieE s p n o a
  | .amo op _ _ _ =>
    if pcieOpE op n then pcieE s p n o a
    else if hostOwned s line then let r := applyE (obtain s llcAgent line .write) p n o; .done (llcDrop r.1 line) r.2
    else .blocked (askOnce s own (.hostReq own .rdOwn base))

/-- An access of an engine to uncacheable host memory (R181, R306). -/
def hostUncachedE (s : State) (p : Phys) (n : Nat) (o : EOp) (a : Nat) : EAcc :=
  let io := fun (kind : Nat) (k : D2h) => match takeAnswer s (hostAskId kind a) with
    | some s1 => let r := applyE s1 p n o; EAcc.done r.1 r.2
    | none => .blocked (askOnce s (hostAskId kind a) (.hostReq (hostAskId kind a) k a))
  match o with
  | .read => io 2 .ioRead
  | .write .. => io 4 .ioWrite
  | .home _ => .bad stVolrec
  | .cas .. => pcieE s p n o a
  | .amo op _ _ _ => if pcieOpE op n then pcieE s p n o a else .bad stSysAtomic

/-- One access of an engine of bench `b`, in the order of arrival at its line (R194, R302). -/
def engAccess (s : State) (b : Nat) (who : Option Asker) (p : Phys) (n : Nat) (o : EOp) : EAcc :=
  let line := lineOf p
  let wait := fun (s : State) => EAcc.blocked (queueUp s line who)
  let leave := fun (x : EAcc) => match x with
    | .done s v => EAcc.done (leaveLine s line who) v
    | x => x
  if (match line with
      | .dev a => s.mem.poison.contains a
      | .hostC _ | .hostU _ | .peer .. => false) then .bad stMemerr
  else if (lineHold s line).isSome || turnOver s line who then wait s
  else match p with
    | .dev _ => match hostBlocks s line (needE o), recallGate s (devAddr line) with
      | some inv, _ => wait (sendBisnp s line inv)
      | none, .wait => wait s
      | none, .snoop a => wait (sendBisnp s (.dev a) true)
      | none, .go => let r := applyE (obtain s b line (needE o)) p n o; leave (.done r.1 r.2)
    | .hostC a => leave (hostCachedE s b p n o a)
    | .hostU a => leave (hostUncachedE s p n o a)
    | .peer id win off => match o with
      | .read => .done (emit { s with run := { s.run with fresh := s.run.fresh + 1 } } (.peerRead id win off n))
          (Config.freeVec s.run.fresh &&& (BitVec.allOnes 128 >>> (128 - 8 * n)))
      | .write v _ => .done (emit s (.peerWrite id win off (bytesOfNat n v.toNat))) 0
      | .home _ => .bad stVolrec
      | .amo .. | .cas .. => .bad stLinkAtomic

/-- On whose behalf an engine works: bench, address space, mode; for a walk, the thread and the number of its request, whose
earlier accesses to the same bytes come first (R173); who waits at a line (R194). -/
structure Who where
  bench : Nat
  asid : BitVec 16
  sup : Bool
  own : Option (Key × Nat) := none
  asker : Option Asker := none
  deriving DecidableEq, Repr

/-- Whether an access that its thread issued before a walk has not yet been performed and is to bytes that the walk meets
(R173). -/
def ownBefore (s : State) (w : Who) (va : Word) (n : Nat) : Bool :=
  match w.own with
  | none => false
  | some x => s.flight.reqs.any fun e => e.key == x.1 && decide (e.id < x.2) && !isTile e.op && !isDep e.op &&
      (rangesOf e).any fun y => y.2 != 0 && decide (y.1 < va.toNat + n) && decide (va.toNat < y.1 + y.2)

/-- The outcome of an access by virtual address. -/
inductive VRes where
  | ok (s : State) (v : Vec)
  | wait (s : State) (va : Word) (k : Want)
  | blocked (s : State)
  | bad (va : Word) (status : BitVec 5)
  | notHbm (pa : Nat)

def writesE : EOp → Bool
  | .read | .home none => false
  | _ => true

/-- One access of an engine by virtual address, translated by the bench L2 TLB. -/
def vAccess (s : State) (w : Who) (va : Word) (n : Nat) (o : EOp) : VRes :=
  let k : Want := { write := writesE o, store := writesE o, sup := w.sup }
  if ownBefore s w va n then .blocked s
  else match translate s (.bench w.bench) w.asid k va with
  | .wait => .wait s va k
  | .busy s1 => .blocked s1
  | .bad st => .bad va st
  | .notHbm a => .notHbm a
  | .ok p s1 => match engAccess s1 w.bench w.asker p n o with
    | .done s2 v => .ok s2 (match o with
      | .read => softView s2 w.asid va.toNat n v
      | _ => v)
    | .blocked s2 => .blocked s2
    | .bad st => .bad va st

/-- Chains accesses. -/
def VRes.bind (r : VRes) (f : State → Vec → VRes) : VRes :=
  match r with
  | .ok s v => f s v
  | r => r

end Sys2Proof.Machine
end

