-- ==== Sys2Proof/Machine/Records.lean ====
section
/-! DEFINITION. Records and the record cache (R226, R227), volume and quarry descriptors (R238, R239), and the walk of a
coordinate volume (R240, R243). -/

namespace Sys2Proof.Machine
open Sys2Proof.Forms

/-- Why an access by virtual address does not go on. -/
inductive Stop where
  | wait (va : Word) (k : Want)
  | blocked (s : State)
  | bad (va : Word) (status : BitVec 5)
  | notHbm (pa : Nat)

/-- A result, or a stop. -/
inductive Res (α : Type) where
  | ok (s : State) (x : α)
  | stop (r : Stop)

def Res.bind {α β : Type} (r : Res α) (f : State → α → Res β) : Res β :=
  match r with
  | .ok s x => f s x
  | .stop r => .stop r

def ofVRes (r : VRes) : Res Vec :=
  match r with
  | .ok s v => .ok s v
  | .wait _ va k => .stop (.wait va k)
  | .blocked s => .stop (.blocked s)
  | .bad va st => .stop (.bad va st)
  | .notHbm a => .stop (.notHbm a)

/-- A 64-bit read by an engine. -/
def readWord (s : State) (w : Who) (va : Word) : Res Word :=
  (ofVRes (vAccess s w va 8 .read)).bind fun s v => .ok s (v.setWidth 64)

/-- A 64-bit write by an engine. -/
def writeWord (s : State) (w : Who) (va v : Word) : Res Unit :=
  (ofVRes (vAccess s w va 8 (.write (v.setWidth 128)))).bind fun s _ => .ok s ()

/-- A step that is given up keeps nothing but what it asked of the host and its places in the order of arrival (R194, R304,
R309). -/
def keepAsk (s x : State) : State :=
  { s with
    fw := { s.fw with out := x.fw.out }
    flight := { s.flight with turns := x.flight.turns }
    cache := { s.cache with asked := x.cache.asked, bisnp := x.cache.bisnp } }

/-- One indivisible step: when it stops, nothing of it has happened. -/
def atomically {α : Type} (s : State) (r : Res α) : Res α :=
  match r with
  | .stop (.blocked x) => .stop (.blocked (keepAsk s x))
  | r => r

/-! Records. -/

/-- Word i of a record. -/
def recW (d : BitVec 1024) (i : Nat) : Word := d.extractLsb' (64 * i) 64

def recKind (d : BitVec 1024) : BitVec 8 := d.setWidth 8

/-- Words from i on are zero. -/
def zeroFrom (d : BitVec 1024) (i : Nat) : Bool := d >>> (64 * i) == 0

/-- Reads a record from memory; a record that does not lie in device memory is none (R226). -/
def fetchBy (s : State) (w : Who) (va : Word) (o : EOp) : Res (BitVec 1024) :=
  match translate s (.bench w.bench) w.asid { sup := w.sup } va with
  | .wait => .stop (.wait va { sup := w.sup })
  | .busy s1 => .stop (.blocked s1)
  | .bad st => .stop (.bad va st)
  | .notHbm a => .stop (.notHbm a)
  | .ok p s1 =>
    if !isDev p then .ok s1 0
    else match engAccess s1 w.bench w.asker p 8 o with
      | .done s2 _ => .ok s2 (lineData s2.mem (lineOf p))
      | .blocked s2 => .stop (.blocked s2)
      | .bad st => .stop (.bad va st)

def fetchRecord (s : State) (w : Who) (va : Word) : Res (BitVec 1024) := fetchBy s w va .read

/-- Puts a copy in a bench record cache of 256 records; the oldest goes (R227). -/
def cacheRecord (s : State) (x : RecEnt) : State :=
  let mine := s.cache.recs.filter fun e => e.bench == x.bench
  let kept := s.cache.recs.filter fun e => !(e.bench == x.bench && e.asid == x.asid && e.va == x.va)
  let kept := if mine.length < Config.recordEntries then kept
    else match mine.head? with
      | some e => kept.erase e
      | none => kept
  { s with cache := { s.cache with recs := kept ++ [x] } }

/-- Words of two readings of a record, each from one or the other (R227). -/
def mixWords (pick : Nat) (x y : BitVec 1024) : BitVec 1024 :=
  (List.range 16).foldl (fun d i =>
    if pick.testBit i then (d &&& ~~~((BitVec.allOnes 64).setWidth 1024 <<< (64 * i))) ||| ((recW y i).setWidth 1024 <<< (64 * i)) else d) x

/-- Reads a record through the bench record cache: the copy that the cache holds, or each word as it stands there or in memory
(R227); which is free (log 2). -/
def readRecord (s : State) (w : Who) (va : Word) : Res (BitVec 1024) :=
  let hit := s.cache.recs.find? fun e => e.bench == w.bench && e.asid == w.asid && e.va == va.toNat
  let fresh := fun (s : State) (f : BitVec 1024 → BitVec 1024) => (fetchRecord s w va).bind fun s d =>
    .ok (cacheRecord s { bench := w.bench, asid := w.asid, va := va.toNat, data := d }) (f d)
  match hit with
  | some e =>
    let pick := Config.freePick s.run.fresh
    let s1 := { s with run := { s.run with fresh := s.run.fresh + 1 } }
    if pick % 2 == 0 then .ok s1 e.data else fresh s1 (mixWords (pick / 2) e.data)
  | none => fresh s id

/-! Volume descriptors (R238). -/

/-- A valid volume descriptor. -/
structure VolDesc where
  dims : Nat
  elog : Nat
  levels : Nat
  ls : List Nat
  ext : List Nat
  fb : List Nat
  root : Word
  quarry : Word
  bg : Vec
  noalloc : Bool
  deriving DecidableEq, Repr

def VolDesc.lsAt (v : VolDesc) (d : Nat) : Nat := v.ls.getD d 0

def VolDesc.fbAt (v : VolDesc) (l : Nat) : Nat := v.fb.getD l 0

/-- `G[d]` (R240); 1 beyond the dimensions. -/
def VolDesc.grid (v : VolDesc) (d : Nat) : Nat :=
  if d < v.dims then (v.ext.getD d 0 + 2 ^ v.lsAt d - 1) / 2 ^ v.lsAt d else 1

def VolDesc.sumFb (v : VolDesc) (l : Nat) : Nat := (v.fb.take l).sum

/-- Bytes of a leaf. -/
def VolDesc.leafBytes (v : VolDesc) : Nat := 2 ^ (v.ls.sum + v.elog)

/-- The descriptor in a record, if it is valid but for its quarry (R226, R238). -/
def volOf (r : BitVec 1024) : Option VolDesc :=
  let w0 := recW r 0
  let f := fun (lo n : Nat) => (w0 >>> lo).toNat % 2 ^ n
  let ext := [(recW r 4).toNat % 2 ^ 32, (recW r 4).toNat / 2 ^ 32, (recW r 5).toNat % 2 ^ 32, (recW r 5).toNat / 2 ^ 32]
  let v : VolDesc :=
    { dims := f 28 4, elog := f 32 4, levels := f 36 4, noalloc := w0.getLsbD 40
      ls := (List.range 4).map fun d => f (4 * d + 12) 4
      ext := ext
      fb := (List.range 6).map fun l => (recW r 2).toNat / 2 ^ (5 * l) % 32
      root := recW r 1, quarry := recW r 3, bg := recW r 7 ++ recW r 6 }
  let inDim := fun (d : Nat) => decide (d < v.dims)
  let ok := recKind r == 0x02 && zeroFrom r 8 && w0.extractLsb' 41 23 == 0 && w0.extractLsb' 8 4 == 0 &&
    (recW r 1).extractLsb' 57 7 == 0 && (recW r 1).extractLsb' 0 3 == 0 &&
    (recW r 2).extractLsb' 30 34 == 0 &&
    (recW r 3).extractLsb' 57 7 == 0 && (recW r 3).extractLsb' 0 7 == 0 &&
    decide (1 ≤ v.dims) && decide (v.dims ≤ 4) && decide (v.elog ≤ 4) && decide (1 ≤ v.levels) && decide (v.levels ≤ 6) &&
    (List.range 4).all (fun d => inDim d || v.lsAt d == 0) &&
    decide (6 ≤ v.ls.sum) && decide (v.ls.sum ≤ 12) &&
    (List.range 4).all (fun d => !inDim d || v.ext.getD d 0 != 0) &&
    (List.range 6).all (fun l => if l < v.levels then decide (1 ≤ v.fbAt l) && decide (v.fbAt l ≤ 16) else v.fbAt l == 0) &&
    decide (v.grid 0 * v.grid 1 * v.grid 2 * v.grid 3 ≤ 2 ^ v.sumFb v.levels)
  if ok then some v else none

/-! Quarries (R239). -/

/-- A valid quarry descriptor. -/
structure Quarry where
  psz : Nat
  free : Word
  fcount : Word
  bump : Word
  limit : Word
  cuts : Word
  deriving DecidableEq, Repr

def quarryOf (r : BitVec 1024) : Option Quarry :=
  let w0 := recW r 0
  let psz := (w0.extractLsb' 8 5).toNat
  if recKind r == 0x03 && w0.extractLsb' 13 51 == 0 && zeroFrom r 6 && decide (6 ≤ psz) && decide (psz ≤ 16) then
    some { psz := psz, free := recW r 1, fcount := recW r 2, bump := recW r 3, limit := recW r 4, cuts := recW r 5 }
  else none

/-- Reads a quarry descriptor at its home. -/
def readQuarry (s : State) (w : Who) (va : Word) : Res (Option Quarry) :=
  if ownBefore s w va 128 then .stop (.blocked s)
  else (fetchBy s w va (.home none)).bind fun s d => .ok s (quarryOf d)

/-- Writes the words of a quarry that a step changes, at its home (R239). -/
def writeQuarry (s : State) (w : Who) (va : Word) (q : Quarry) : Res Unit :=
  let put := fun (s : State) (o : Word) (v : Word) => ofVRes (vAccess s w (va + o) 8 (.home (some (v.setWidth 128))))
  (put s 8 q.free).bind fun s _ => (put s 16 q.fcount).bind fun s _ =>
    (put s 24 q.bump).bind fun s _ => (put s 40 q.cuts).bind fun s _ => .ok s ()

/-- The pieces of a pop, without its writes (R239). -/
def takePieces (s : State) (w : Who) (q : Quarry) : Nat → Res (Quarry × List Word)
  | 0 => .ok s (q, [])
  | k + 1 =>
    if q.free != 0 then
      (readWord s w q.free).bind fun s next =>
        (takePieces s w { q with free := next, fcount := q.fcount - 1, cuts := q.cuts + 1 } k).bind fun s r =>
          .ok s (r.1, q.free :: r.2)
    else
      (takePieces s w { q with bump := q.bump + BitVec.ofNat 64 (2 ^ q.psz), cuts := q.cuts + 1 } k).bind fun s r =>
        .ok s (r.1, q.bump :: r.2)

/-- `available` (R239). -/
def available (q : Quarry) : Nat := q.fcount.toNat + (q.limit.toNat - q.bump.toNat) / 2 ^ q.psz

/-- Pops k pieces in one step; none when the quarry is short of them (R239). -/
def popPieces (s : State) (w : Who) (va : Word) (q : Quarry) (k : Nat) : Res (Option (List Word)) :=
  if available q < k then .ok s none
  else (takePieces s w q k).bind fun s1 r => (writeQuarry s1 w va r.1).bind fun s2 _ => .ok s2 (some r.2)

/-- Whether an address is in HBM-backed memory. -/
def hbmBacked (s : State) (w : Who) (va : Word) : Res Bool :=
  match translate s (.bench w.bench) w.asid { sup := w.sup } va with
  | .wait => .stop (.wait va { sup := w.sup })
  | .busy s1 => .stop (.blocked s1)
  | .bad st => .stop (.bad va st)
  | .notHbm _ => .ok s false
  | .ok p s1 => .ok s1 (isDev p)

/-- Pushes a piece; false when it may not be pushed (R239). -/
def pushPiece (s : State) (w : Who) (va : Word) (q : Quarry) (p : Word) : Res Bool :=
  if p == 0 || p.toNat % 2 ^ q.psz != 0 then .ok s false
  else (hbmBacked s w p).bind fun s1 ok =>
    if !ok then .ok s1 false
    else (writeWord s1 w p q.free).bind fun s2 _ =>
      (writeQuarry s2 w va { q with free := p, fcount := q.fcount + 1 }).bind fun s3 _ => .ok s3 true

/-! The walk (R240). -/

/-- Lane d of a coordinate. -/
def coordAt (c : Vec) (d : Nat) : Nat := (c >>> (32 * d)).toNat % 2 ^ 32

/-- Whether the coordinate lies in the extent. -/
def inExtent (v : VolDesc) (c : Vec) : Bool := (List.range v.dims).all fun d => decide (coordAt c d < v.ext.getD d 0)

/-- The tile number t (R240). -/
def tileNo (v : VolDesc) (c : Vec) : Nat :=
  let tc := fun (d : Nat) => if d < v.dims then coordAt c d / 2 ^ v.lsAt d else 0
  tc 0 + v.grid 0 * (tc 1 + v.grid 1 * (tc 2 + v.grid 2 * tc 3))

/-- The offset of an element in its leaf (R240). -/
def leafOff (v : VolDesc) (c : Vec) : Nat :=
  let ic := fun (d : Nat) => if d < v.dims then coordAt c d % 2 ^ v.lsAt d else 0
  (ic 0 + 2 ^ v.lsAt 0 * (ic 1 + 2 ^ v.lsAt 1 * (ic 2 + 2 ^ v.lsAt 2 * ic 3))) * 2 ^ v.elog

/-- Where a walk of the tree ends. -/
inductive Leaf where
  | at (va : Word)
  | absent (level : Nat) (slot : Word)
  deriving DecidableEq, Repr

/-- The slot of a tile in the node at a level (R240). -/
def slotAt (v : VolDesc) (t l : Nat) (node : Word) : Word :=
  node + BitVec.ofNat 64 (8 * (t / 2 ^ (v.sumFb v.levels - v.sumFb (l + 1)) % 2 ^ v.fbAt l))

/-- The tree from level `levels - n` down (R240). -/
def walkTree (s : State) (w : Who) (v : VolDesc) (t : Nat) : Nat → Word → Res Leaf
  | 0, node => .ok s (.at node)
  | n + 1, node =>
    let l := v.levels - (n + 1)
    let slot := slotAt v t l node
    (readWord s w slot).bind fun s1 p => if p == 0 then .ok s1 (.absent l slot) else walkTree s1 w v t n p

/-- Enters a present leaf in the CLB of a bench as the entry used last; of a full CLB the one least recently used goes (R240, R360,
R372). -/
def clbAdd (s : State) (x : ClbEnt) : State :=
  let rest := s.cache.clb.filter fun e => !(e.bench == x.bench && e.asid == x.asid && e.recVa == x.recVa && e.t == x.t)
  let mine := rest.filter fun e => e.bench == x.bench
  let kept := if mine.length < Config.clbEntries then rest
    else match mine.head? with
      | some e => rest.erase e
      | none => rest
  { s with cache := { s.cache with clb := kept ++ [x] } }

/-- The leaf of tile t: from the CLB, else by the tree (R240). -/
def findLeaf (s : State) (w : Who) (v : VolDesc) (recVa t : Nat) : Res Leaf :=
  match s.cache.clb.find? fun e => e.bench == w.bench && e.asid == w.asid && e.recVa == recVa && e.t == t with
  | some e => .ok (clbAdd s e) (.at e.leaf)
  | none => (walkTree s w v t v.levels v.root).bind fun s1 r => match r with
    | .at va => .ok (clbAdd s1 { bench := w.bench, asid := w.asid, recVa := recVa, t := t, leaf := va }) (.at va)
    | r => .ok s1 r

/-- A valid volume with its quarry, or the record fault VOLREC (R238, R248). -/
def readVol (s : State) (w : Who) (va : Word) : Res (VolDesc × Quarry) :=
  (readRecord s w va).bind fun s1 d => match volOf d with
    | none => .stop (.bad va stVolrec)
    | some v => (readQuarry s1 w v.quarry).bind fun s2 q => match q with
      | none => .stop (.bad va stVolrec)
      | some q =>
        if decide (2 ^ q.psz < v.leafBytes) ||
            (List.range v.levels).any fun l => decide (0 < l) && decide (2 ^ q.psz < 8 * 2 ^ v.fbAt l) then
          .stop (.bad va stVolrec)
        else .ok s2 (v, q)

/-- Where a coordinate is. -/
inductive Coord where
  | out
  | present (ea : Word) (t : Nat)
  | absent (level : Nat) (slot : Word) (t : Nat)
  deriving DecidableEq, Repr

/-- Translates a coordinate (R240). -/
def findCoord (s : State) (w : Who) (recVa : Word) (v : VolDesc) (c : Vec) : Res Coord :=
  if !inExtent v c then .ok s .out
  else
    let t := tileNo v c
    (findLeaf s w v recVa.toNat t).bind fun s1 r => match r with
      | .at leaf => .ok s1 (.present (leaf + BitVec.ofNat 64 (leafOff v c)) t)
      | .absent l slot => .ok s1 (.absent l slot t)

/-! Allocation (R243). -/

/-- Writes 8-byte words from an address on; each is set full when `full` (R243). -/
def initWords (s : State) (w : Who) (v : Word) (full : Bool) : Nat → Word → Res Unit
  | 0, _ => .ok s ()
  | n + 1, va => (writeWord s w va v).bind fun s1 _ =>
    let s2 := if full then
        match translate s1 (.bench w.bench) w.asid { sup := w.sup } va with
        | .ok (.dev a) s2 => { s2 with mem := setFull s2.mem a }
        | _ => s1
      else s1
    initWords s2 w v full n (va + 8)

/-- The words of a leaf: every element is the background (R243). A 16-byte element takes two words in turn. -/
def initLeaf (s : State) (w : Who) (v : VolDesc) (va : Word) : Nat → Res Unit
  | 0 => .ok s ()
  | n + 1 => (initLeaf s w v va n).bind fun s1 _ =>
    let e := 8 * 2 ^ v.elog
    let x : Word := if e == 128 then (v.bg >>> (64 * (n % 2))).setWidth 64
      else (splat e (v.bg.setWidth e) (64 / e)).setWidth 64
    initWords s1 w x true 1 (va + BitVec.ofNat 64 (8 * n))

/-- The words of a piece beyond the leaf are set full (R243). -/
def fillFull (s : State) (w : Who) (va : Word) : Nat → State
  | 0 => s
  | n + 1 =>
    let s1 := fillFull s w va n
    match translate s1 (.bench w.bench) w.asid { sup := w.sup } (va + BitVec.ofNat 64 (8 * n)) with
    | .ok (.dev a) s2 => { s2 with mem := setFull s2.mem a }
    | _ => s1

/-- Initialises the piece of a level (R243). -/
def initPiece (s : State) (w : Who) (v : VolDesc) (q : Quarry) (l : Nat) (p : Word) : Res Unit :=
  if v.levels ≤ l + 1 then (initLeaf s w v p (v.leafBytes / 8)).bind fun s1 _ => .ok (fillFull s1 w p (2 ^ q.psz / 8)) ()
  else initWords s w 0 false (2 ^ v.fbAt (l + 1)) p

/-- Pushes the pieces of a walk that are not used (R243). -/
def pushAll (s : State) (w : Who) (va : Word) : List Word → Res Unit
  | [] => .ok s ()
  | p :: ps => (readQuarry s w va).bind fun s1 q => match q with
    | none => .stop (.bad va stVolrec)
    | some q => (pushPiece s1 w va q p).bind fun s2 ok => if ok then pushAll s2 w va ps else .stop (.bad va stVolrec)

/-- One level of an allocation (R243): its piece is initialised and linked by a compare-and-swap of the slot, a release; when
another walk has filled the slot, this piece and the rest go back to the quarry, and the walk goes on with what it finds. The
answer is the walk as it then stands, and the leaf when the last piece is linked. -/
def linkPiece (s : State) (w : Who) (v : VolDesc) (q : Quarry) (x : VolWalk) (p : Word) (ps : List Word) : Res (VolWalk × Option Word) :=
  (initPiece s w v q x.level p).bind fun s1 _ =>
    (ofVRes (vAccess (dropStale s1) w x.slot 8 (.cas 0 (p.setWidth 128)))).bind fun s2 old =>
      if old != 0 then (pushAll s2 w v.quarry (p :: ps)).bind fun s3 _ => .ok s3 ({ x with pieces := [] }, none)
      else if v.levels ≤ x.level + 1 then .ok s2 ({ x with pieces := [] }, some p)
      else .ok s2 ({ x with level := x.level + 1, slot := slotAt v x.t (x.level + 1) p, pieces := ps }, none)

end Sys2Proof.Machine
end

