-- ==== Sys2Proof/Machine/Volume.lean ====
section
/-! DEFINITION. Volume instructions and `RFENCE`, group 101 (R228, R241 to R248). -/

namespace Sys2Proof.Machine
open Sys2Proof.Forms

/-! `CLD`, `CPRB`, `CLBINV`, `QPOP`, `QPSH`: retired at issue, performed later (R242, R244, R245). -/

/-- `CLD` (R242). -/
def execCld (h : Hdr) (x : Vol) (s : State) : Host.Outcome State Fault Refusal :=
  issue s (.cld h x) h false [(1, x.d, x.ty == .b128), (2, x.base, false), (3, x.b, false)] fun s t =>
    let ea := eaBase t.ctx x.base x.disp
    limited s t (aligned ea 128 (if entriesFull s t then .skip s
      else .done (enter s t { newReq (.cld (opdVal s t 128 1 false x.b)) ea (bytes x.ty) x.ty (.cld h x) with
          ord := x.ord, scp := x.scp, dst := x.d } true true).1 (t.ctx.pc + 12) .run))

/-- `CPRB` (R242). -/
def execCprb (h : Hdr) (d base : Opd) (disp : BitVec 32) (b : Opd) (s : State) : Host.Outcome State Fault Refusal :=
  issue s (.cprb h d base disp b) h false [(1, d, false), (2, base, false), (3, b, false)] fun s t =>
    let ea := eaBase t.ctx base disp
    limited s t (aligned ea 128 (if entriesFull s t then .skip s
      else .done (enter s t { newReq (.cprb (opdVal s t 128 1 false b)) ea 0 .b64 (.cprb h d base disp b) with dst := d }
        true true).1 (t.ctx.pc + 12) .run))

/-- `CLBINV` (R245). -/
def execClbinv (h : Hdr) (scp : Scope) (d base : Opd) (disp : BitVec 32) (b : Opd) (s : State) :
    Host.Outcome State Fault Refusal :=
  issue s (.clbinv h scp d base disp b) h false [(1, d, false), (2, base, false), (3, b, false)] fun s t =>
    let ea := eaBase t.ctx base disp
    aligned ea 128 (if entriesFull s t then .skip s
      else .done (enter s t { newReq (.clbinv (opdVal s t 128 1 false b) (opdVal s t 128 1 false d)) ea 0 .b64
          (.clbinv h scp d base disp b) with scp := scp } false false).1 (t.ctx.pc + 12) .run)

/-- `QPOP` (R244). -/
def execQpop (h : Hdr) (d base : Opd) (disp : BitVec 32) (s : State) : Host.Outcome State Fault Refusal :=
  issue s (.qpop h d base disp) h false [(1, d, false), (2, base, false)] fun s t =>
    let ea := eaBase t.ctx base disp
    limited s t (aligned ea 128 (if entriesFull s t then .skip s
      else .done (enter s t { newReq .qpop ea 128 .b64 (.qpop h d base disp) with dst := d, ord := .ar } true true).1
        (t.ctx.pc + 12) .run))

/-- `QPSH` (R244). -/
def execQpsh (h : Hdr) (d base : Opd) (disp : BitVec 32) (s : State) : Host.Outcome State Fault Refusal :=
  issue s (.qpsh h d base disp) h false [(1, d, false), (2, base, false)] fun s t =>
    let ea := eaBase t.ctx base disp
    aligned ea 128 (if entriesFull s t then .skip s
      else .done (enter s t { newReq .qpsh ea 128 .b64 (.qpsh h d base disp) with
          dst := d, ord := .ar, dat := opdVal s t 64 1 false d } false false).1 (t.ctx.pc + 12) .run)

/-- The requester of a thread's walk. -/
def whoOf (r : Req) : Who := { bench := r.bench, asid := r.key.asid, sup := r.sup, own := some (r.key, r.id)
                               asker := some (.req r.id) }

/-- The end of a request's work by virtual address: done, or its stop (R176, R248). -/
def settleWork (s : State) (r : Req) (x : Res Vec) (fin : State → Vec → Sent) : Sent :=
  match x with
  | .ok s1 v => fin s1 v
  | .stop (.wait va k) => .ok (waitAccess s r va k)
  | .stop (.blocked s1) => .ok s1
  | .stop (.bad va st) => .ok (fatalAccess s r va st)
  | .stop (.notHbm a) => .notHbm a

/-- A volume descriptor whose element size is the access's (R241). -/
def volFor (s : State) (w : Who) (va : Word) (n : Nat) : Res (VolDesc × Quarry) :=
  (readVol s w va).bind fun s1 v => if 2 ^ v.1.elog == n then .ok s1 v else .stop (.bad va stVolrec)

/-! The walker of a bench (R372). -/

/-- When the walks that a bench has to serve came to it: those of `CLD` and `CPRB` requests that may be performed, and those of
threads that have not issued; one that waits for a page has left (R243, R372). -/
def walksAt (s : State) (b : Nat) : List Nat :=
  ((s.flight.reqs.filter fun r => r.bench == b && triable r && canPerform s r && match r.op with
    | .cld _ | .cprb _ => true
    | _ => false).map (·.id)) ++
  s.threads.filterMap fun t =>
    if t.bench == b && inCl1 t && isReady s t && (t.walkFault.map (·.2)) != some 0 then t.walk.map (·.arr) else none

/-- Whether a walk is among those that the walker of a bench serves: up to 16, in order of arrival (R360, R372). -/
def walkTurn (s : State) (b n : Nat) : Bool := decide (((walksAt s b).filter fun m => decide (m < n)).length < Config.walks)

/-- `CLD` finds its element: the request becomes the load of it, or the background is delivered (R242). -/
def performCld (s : State) (r : Req) (c : Vec) : Sent :=
  let w := whoOf r
  if !walkTurn s r.bench r.id then .ok s
  else match (volFor s w r.va r.n).bind fun s1 v => (findCoord s1 w r.va v.1 c).bind fun s2 p => .ok s2 (v.1, p) with
  | .ok s1 (_, .present ea t) =>
    let r1 := { r with op := .ld, va := ea, pa := none, st := .pending, via := some (r.va.toNat, t) }
    attempt (putReq s1 r1) r1
  | .ok s1 (v, _) => .ok (complete s1 r (lowBytes r.n v.bg))
  | .stop x => settleWork s r (.stop x) fun s _ => .ok s

/-- `CPRB` (R242). -/
def performCprb (s : State) (r : Req) (c : Vec) : Sent :=
  let w := whoOf r
  if !walkTurn s r.bench r.id then .ok s
  else settleWork s r ((readVol s w r.va).bind fun s1 v => (findCoord s1 w r.va v.1 c).bind fun s2 p =>
    match p with
    | .present ea _ => .ok s2 (ea.setWidth 128)
    | _ => .ok s2 0) fun s1 v => .ok (complete s1 r v)

/-- Whether a tile's leaf contains a coordinate of a box (R245). -/
def tileInBox (v : VolDesc) (lo hi : Vec) (t : Nat) : Bool :=
  (List.range v.dims).all fun d =>
    let before := ((List.range d).map v.grid).foldl (· * ·) 1
    let a := t / before % v.grid d * 2 ^ v.lsAt d
    decide (coordAt lo d ≤ coordAt hi d) && decide (coordAt lo d < a + 2 ^ v.lsAt d) && decide (a ≤ coordAt hi d)

/-- `CLBINV` (R245): it waits for the accesses translated through the entries it names. -/
def performClbinv (s : State) (r : Req) (lo hi : Vec) : Sent :=
  let at' := fun (b : Nat) => r.scp != .bench || b == r.bench
  match readVol s (whoOf r) r.va with
  | .ok s1 v =>
    let busy := s1.flight.reqs.any fun x => x.key.asid == r.key.asid && at' x.bench && match x.via with
      | some p => p.1 == r.va.toNat && tileInBox v.1 lo hi p.2
      | none => false
    if busy then .ok s1
    else .ok (complete { s1 with cache := { s1.cache with
      clb := s1.cache.clb.filter fun e => !(e.asid == r.key.asid && e.recVa == r.va.toNat && at' e.bench && tileInBox v.1 lo hi e.t) } } r 0)
  | .stop x => settleWork s r (.stop x) fun s _ => .ok s

/-- The write permission that a quarry step needs (R176). -/
def canWrite (s : State) (w : Who) (va : Word) : Res Unit :=
  match translate s (.bench w.bench) w.asid { write := true, store := true, sup := w.sup } va with
  | .wait => .stop (.wait va { write := true })
  | .busy s1 => .stop (.blocked s1)
  | .bad st => .stop (.bad va st)
  | .notHbm a => .stop (.notHbm a)
  | .ok _ s1 => .ok s1 ()

/-- `QPOP` (R239, R244). -/
def performQpop (s : State) (r : Req) : Sent :=
  let w := whoOf r
  settleWork s r (atomically s ((canWrite s w r.va).bind fun s0 _ => (readQuarry s0 w r.va).bind fun s1 q => match q with
    | none => .stop (.bad r.va stVolrec)
    | some q => (popPieces s1 w r.va q 1).bind fun s2 l => .ok s2 (((l.bind (·.head?)).getD 0).setWidth 128)))
    fun s1 v => .ok (complete s1 r v)

/-- `QPSH` (R239, R244). -/
def performQpsh (s : State) (r : Req) : Sent :=
  let w := whoOf r
  settleWork s r (atomically s ((canWrite s w r.va).bind fun s0 _ => (readQuarry s0 w r.va).bind fun s1 q => match q with
    | none => .stop (.bad r.va stVolrec)
    | some q => (pushPiece s1 w r.va q (r.dat.setWidth 64)).bind fun s2 ok =>
      if ok then .ok s2 0 else .stop (.bad r.va stVolrec)))
    fun s1 v => .ok (complete s1 r v)

/-! `CST` and `CAMO`: translated before they retire (R243). -/

/-- What one step of the walk of a `CST` or `CAMO` comes to: its element, a quarry that is short of pieces, or a walk that
goes on. -/
inductive Found where
  | at (ea : Word) (t : Nat)
  | valloc (level : Nat) (quarry : Word)
  | more (x : VolWalk)
  deriving DecidableEq, Repr

/-- One step of the walk (R243): the pieces that an allocation has cut are linked one by one; else the tree is searched, and an
absent tile's pieces are cut, all in one step. -/
def walkStep (s : State) (w : Who) (x : VolWalk) (va : Word) (n : Nat) (c : Vec) : Res Found :=
  (volFor s w va n).bind fun s1 v =>
    let leafAt := fun (s : State) (leaf : Word) (t : Nat) =>
      Res.ok (clbAdd s { bench := w.bench, asid := w.asid, recVa := va.toNat, t := t, leaf := leaf })
        (Found.at (leaf + BitVec.ofNat 64 (leafOff v.1 c)) t)
    match x.pieces with
    | p :: ps =>
      if x.va != va.toNat || x.t != tileNo v.1 c then .ok s1 (.more { x with pieces := [] })
      else (linkPiece s1 w v.1 v.2 x p ps).bind fun s2 r => match r.2 with
        | some leaf => leafAt s2 leaf x.t
        | none => .ok s2 (.more r.1)
    | [] => (findCoord s1 w va v.1 c).bind fun s2 p => match p with
      | .out => .stop (.bad va stVolbound)
      | .present ea t => .ok s2 (.at ea t)
      | .absent l slot t =>
        if v.1.noalloc then .stop (.bad va stVolabsent)
        else (popPieces s2 w v.1.quarry v.2 (v.1.levels - l)).bind fun s3 r => match r with
          | none => .ok s3 (.valloc l v.1.quarry)
          | some ps => .ok s3 (.more { x with va := va.toNat, t := t, level := l, slot := slot, pieces := ps })

def setWalkFault (s : State) (k : Key) (x : Option (Nat × BitVec 5)) : State :=
  onThread s k fun t => { t with walkFault := x }

def setWalk (s : State) (k : Key) (x : Option VolWalk) : State := onThread s k fun t => { t with walk := x }

/-- A walk is over, one way or the other. -/
def endWalk (s : State) (k : Key) : State := onThread s k fun t => { t with walkFault := none, walk := none }

/-- A `CST` or `CAMO` that retires without its access, with its fault (R248, R354). -/
def retireFaulted (s : State) (t : Thread) (r : Req) (pends counts : Bool) (va : Word) (st : BitVec 5) : Did :=
  let e := enter s t r pends counts
  .done (endWalk (fatalAccess e.1 e.2 va st) t.key) (t.ctx.pc + 12) .run

/-- The requester of the walk that a thread makes at issue. -/
def walker (s : State) (t : Thread) : Who :=
  { bench := t.bench, asid := t.key.asid, sup := t.ctx.sup, own := some (t.key, nextSeq s)
    asker := some (.thread t.key) }

/-- Whether a walk of the thread comes after an acquire that is not delivered, or after an earlier walk (R282, R284). -/
def walkHeld (s : State) (k : Key) : Bool :=
  s.flight.reqs.any fun e => e.key == k && (isAcq e || match e.op with
    | .cld _ | .cprb _ => true
    | _ => false)

/-- The walk goes on at a later try: the thread keeps what it has cut and its place at the walker. -/
def walkLater (s : State) (t : Thread) (x : VolWalk) : Did :=
  if t.walk.isSome then .skip (setWalk s t.key (some x))
  else
    let q := takeSeq s
    .skip (setWalk q.2 t.key (some { x with arr := q.1 }))

/-- The issue of a `CST` or `CAMO` (R243): the instruction waits, unissued, for its walk, for a page that it needs, and for the
accesses of its thread that come before it. -/
def volStore (s : State) (t : Thread) (r : Req) (pends counts : Bool) (c : Vec) : Did :=
  let x := t.walk.getD { arr := nextSeq s }
  if entriesFull s t || walkHeld s t.key || (t.walkFault.map (·.2)) == some 0 then .skip s
  else if !walkTurn s t.bench x.arr then walkLater s t x
  else match atomically s (walkStep s (walker s t) x r.va r.n c) with
    | .ok s1 (.at ea tile) =>
      submit (acquireL1 (endWalk s1 t.key) t.bench (iuAt t) .dev) { t with walkFault := none, walk := none }
        { r with va := ea, via := some (r.va.toNat, tile) } pends counts (t.ctx.pc + 12) .run
    | .ok _ (.valloc l q) => .trap 0x09 (BitVec.ofNat 24 l) q false
    | .ok s1 (.more y) => walkLater s1 t y
    | .stop (.wait va k) =>
      let page := va.toNat / 4096
      match t.walkFault with
      | some (p, st) => if p == page then retireFaulted s t r pends counts va st
          else walkLater (setWalkFault (noteFault s t.bench t.key.asid page (kindsOf k)) t.key (some (page, 0))) t x
      | none => walkLater (setWalkFault (noteFault s t.bench t.key.asid page (kindsOf k)) t.key (some (page, 0))) t x
    | .stop (.blocked s1) => walkLater s1 t x
    | .stop (.bad va st) => retireFaulted s t r pends counts va st
    | .stop (.notHbm a) => .notHbm a

/-- `CST` (R243). -/
def execCst (h : Hdr) (x : Vol) (s : State) : Host.Outcome State Fault Refusal :=
  issue s (.cst h x) h false [(1, x.d, x.ty == .b128), (2, x.base, false), (3, x.b, false)] fun s t =>
    let ea := eaBase t.ctx x.base x.disp
    aligned ea 128 (volStore s t { newReq .st ea (bytes x.ty) x.ty (.cst h x) with
      ord := x.ord, scp := x.scp, dst := x.d, dat := dataOf s t x.ty x.d } false false (opdVal s t 128 1 false x.b))

/-- `CAMO` (R243). -/
def execCamo (h : Hdr) (x : Camo) (s : State) : Host.Outcome State Fault Refusal :=
  issue s (.camo h x) h false [(1, x.d, x.ty == .b128), (2, x.base, false), (3, x.b, false)] fun s t =>
    let ea := eaBase t.ctx x.base x.disp
    limited s t (aligned ea 128 (volStore s t { newReq (.amo x.op) ea (bytes x.ty) x.ty (.camo h x) with
      ord := x.ord, scp := x.scp, far := x.far, dst := x.d, dat := dataOf s t x.ty x.d } true true
      (opdVal s t 128 1 false x.b)))

/-! `RFENCE` (R228). -/

/-- Discards records: one, or every one, of one bench or of every bench (R228). -/
def discardRecords (s : State) (b : Nat) (scp : Scope) (one : Option (BitVec 16 × Nat)) : State :=
  let hit := fun (e : RecEnt) => (scp != .bench || e.bench == b) && match one with
    | some x => e.asid == x.1 && e.va == x.2
    | none => true
  { s with cache := { s.cache with recs := s.cache.recs.filter fun e => !hit e } }

/-- `RFENCE` (R228): until its steps are done the IU skips the line. -/
def execRfence (h : Hdr) (scp : Scope) (base : Opd) (disp : BitVec 32) (s : State) : Host.Outcome State Fault Refusal :=
  issue s (.rfence h scp base disp) h false [(2, base, false)] fun s t =>
    if !storesDone s t.key .dev then .gone s
    else
      let ea := eaBase t.ctx base disp
      let one := if base == .zero && disp == 0 then none else some (t.key.asid, (ea &&& ~~~127).toNat)
      .done (discardRecords s t.bench scp one) (t.ctx.pc + 12) .run

end Sys2Proof.Machine
end

