-- ==== Sys2Proof/Machine/Streams.lean ====
section
/-! DEFINITION. Stream instructions, group 101 (R229 to R237, R369). -/

namespace Sys2Proof.Machine
open Sys2Proof.Forms

/-! Issue (R231). -/

-- Fields of a list descriptor (R230).
def listVa (v : Vec) : Word := v.setWidth 64
def listLen (v : Vec) : Nat := (v.extractLsb' 64 32).toNat
def listLb (v : Vec) : Word := (v.extractLsb' 96 32).setWidth 64

/-- The two checks of one list operand (R231). -/
def checkList (isSet : Bool) (field : BitVec 8) (w : Nat) (v : Vec) : Option Did :=
  if !isSet && listLb v != 0 then some (.trap 0x02 ((0x07 : BitVec 8) ++ (0 : BitVec 8) ++ field) 0 false)
  else if listLen v != 0 && (listVa v).toNat % w != 0 then some (misaligned 0x04 (listVa v))
  else none

def isSetOp : StrmKind → Bool
  | .sint | .sintc | .smrg | .sdiff => true
  | _ => false

/-- The checks of the operands in the order A, B, C (R231). -/
def checkLists (k : StrmKind) (ty : Ty) (a b c : Vec) : Option Did :=
  let w := strmBytes k ty
  match checkList (isSetOp k) 2 w.1 a with
  | some x => some x
  | none => match checkList (isSetOp k) 3 w.2.1 b with
    | some x => some x
    | none => checkList false 4 w.2.2 c

/-- The common issue of the stream instructions (R231); `SINTC` has no C (R229). -/
def strmWith (s : State) (i : Instr) (h : Hdr) (k : StrmKind) (x0 : Strm) : Host.Outcome State Fault Refusal :=
  let x := if k == .sintc then { x0 with c := .zero } else x0
  issue s i h false [(1, x.d, false), (2, x.a, false), (3, x.b, false), (4, x.c, false)] fun s t =>
    let v := fun (o : Opd) => opdVal s t 128 1 false o
    limited s t (match checkLists k x.ty (v x.a) (v x.b) (v x.c) with
      | some d => d
      | none => if entriesFull s t then .skip s
        else .done (enter s t { newReq (.strm k (v x.a) (v x.b) (v x.c) {}) 0 0 x.ty i with dst := x.d, ord := .rel }
          true true).1 (t.ctx.pc + 12) .run)

/-- `SINT` (R232). -/
def execSint (h : Hdr) (x : Strm) (s : State) : Host.Outcome State Fault Refusal := strmWith s (.sint h x) h .sint x
/-- `SINTC` (R232). -/
def execSintc (h : Hdr) (x : Strm) (s : State) : Host.Outcome State Fault Refusal := strmWith s (.sintc h x) h .sintc x
/-- `SMRG` (R232). -/
def execSmrg (h : Hdr) (x : Strm) (s : State) : Host.Outcome State Fault Refusal := strmWith s (.smrg h x) h .smrg x
/-- `SDIFF` (R232). -/
def execSdiff (h : Hdr) (x : Strm) (s : State) : Host.Outcome State Fault Refusal := strmWith s (.sdiff h x) h .sdiff x
/-- `SGATH` (R233). -/
def execSgath (h : Hdr) (x : Strm) (s : State) : Host.Outcome State Fault Refusal := strmWith s (.sgath h x) h .sgath x
/-- `SSCAT` (R234). -/
def execSscat (h : Hdr) (x : Strm) (s : State) : Host.Outcome State Fault Refusal := strmWith s (.sscat h x) h .sscat x
/-- `SCMP` (R235). -/
def execScmp (h : Hdr) (nz : Bool) (x : Strm) (s : State) : Host.Outcome State Fault Refusal :=
  strmWith s (.scmp h nz x) h (.scmp nz) x

/-! The stream engine (R232 to R237). -/

/-- What the engine does next for an instruction: an access and what follows from its value, a step without an access,
or the end. -/
inductive ElemStep where
  | read (va : Word) (n : Nat) (f : Word → StrmPos)
  | write (va : Word) (n : Nat) (v : Word) (p : StrmPos)
  | add (va : Word) (op : AOp) (v : Word) (p : StrmPos)
  | pure (p : StrmPos)
  | finish (v : Word)

/-- Address of element k (R230). -/
def elemVa (v : Vec) (w k : Nat) : Word := listVa v + BitVec.ofNat 64 (k * w)

/-- `emit` (R232): a write while the output has room, then one more counted. -/
def emitTurn (c : Vec) (w : Nat) (v : Word) (p : StrmPos) : ElemStep :=
  let q := { p with nout := p.nout + 1 }
  if p.nout < listLen c then .write (elemVa c w p.nout) w v q else .pure q

/-- An element of a set operand that was read: kept when it counts, else passed over (R230, R232). -/
def keepCounting (lb : Word) (x : Word) : Option Word := if lb.toNat ≤ x.toNat then some x else none

/-- The next step of a set instruction (R232). -/
def setTurn (k : StrmKind) (w : Nat) (a b c : Vec) (p : StrmPos) : ElemStep :=
  let readA : ElemStep := .read (elemVa a w p.ia) w fun x => match keepCounting (listLb a) x with
    | some x => { p with keepA := some x }
    | none => { p with ia := p.ia + 1 }
  let readB : ElemStep := .read (elemVa b w p.ib) w fun x => match keepCounting (listLb b) x with
    | some x => { p with keepB := some x }
    | none => { p with ib := p.ib + 1 }
  let nextA := { p with ia := p.ia + 1, keepA := none }
  let nextB := { p with ib := p.ib + 1, keepB := none }
  let endA := decide (listLen a ≤ p.ia)
  let endB := decide (listLen b ≤ p.ib)
  if !endA && p.keepA.isNone && listLb a != 0 then readA
  else if !endB && p.keepB.isNone && listLb b != 0 then readB
  else if endA || endB then
    if !endA && (k == .smrg || k == .sdiff) then
      match p.keepA with
      | some x => emitTurn c w x nextA
      | none => readA
    else if !endB && k == .smrg then
      match p.keepB with
      | some y => emitTurn c w y nextB
      | none => readB
    else .finish (BitVec.ofNat 64 p.nout)
  else match p.keepA, p.keepB with
    | none, _ => readA
    | _, none => readB
    | some x, some y =>
      let both := { p with ia := p.ia + 1, ib := p.ib + 1, keepA := none, keepB := none }
      if x == y then (if k == .sdiff then .pure both else emitTurn c w x both)
      else if x.toNat < y.toNat then
        (if k == .smrg || k == .sdiff then emitTurn c w x nextA else .pure nextA)
      else if k == .smrg then emitTurn c w y nextB else .pure nextB

/-- The next step of `SGATH`: of the orders that R233 allows, the ascending one, an element at a time (log 10). -/
def gathTurn (w : Nat) (a b c : Vec) (p : StrmPos) : ElemStep :=
  let m := min (listLen a) (listLen c)
  if m ≤ p.ia then .finish (BitVec.ofNat 32 p.oob ++ BitVec.ofNat 32 m)
  else match p.keepA, p.keepB with
    | none, _ => .read (elemVa a 4 p.ia) 4 fun x => { p with keepA := some x }
    | some k, none =>
      if k.toNat < listLen b then .read (elemVa b w k.toNat) w fun x => { p with keepB := some x }
      else .pure { p with keepB := some 0, oob := p.oob + 1 }
    | some _, some v => .write (elemVa c w p.ia) w v { p with ia := p.ia + 1, keepA := none, keepB := none }

/-- The next step of `SSCAT` (R234). -/
def scatTurn (ty : Ty) (a b c : Vec) (p : StrmPos) : ElemStep :=
  let w := bytes ty
  let m := min (listLen a) (listLen b)
  if m ≤ p.ia then .finish (BitVec.ofNat 32 p.oob ++ BitVec.ofNat 32 (m - p.oob))
  else match p.keepA, p.keepB with
    | none, _ => .read (elemVa a 4 p.ia) 4 fun x => { p with keepA := some x }
    | _, none => .read (elemVa b w p.ia) w fun x => { p with keepB := some x }
    | some k, some v =>
      let q := { p with ia := p.ia + 1, keepA := none, keepB := none }
      if k.toNat < listLen c then .add (elemVa c w k.toNat) (if isFloat ty then .fadd else .add) v q
      else .pure { q with oob := p.oob + 1 }

/-- The next step of `SCMP` (R235). -/
def cmpTurn (nz : Bool) (w : Nat) (a b c : Vec) (p : StrmPos) : ElemStep :=
  let q := { p with ia := p.ia + 1, keepA := none, keepB := none }
  if listLen a ≤ p.ia then .finish (BitVec.ofNat 64 p.nout)
  else match p.keepA with
    | none => .read (elemVa a w p.ia) w fun x => { p with keepA := some x }
    | some x =>
      if nz then (if x != 0 then emitTurn c w x q else .pure q)
      else if listLen b ≤ p.ia then .pure q
      else match p.keepB with
        | none => .read (elemVa b 1 p.ia) 1 fun y => { p with keepB := some y }
        | some y => if y != 0 then emitTurn c w x q else .pure q

def nextTurn (k : StrmKind) (ty : Ty) (a b c : Vec) (p : StrmPos) : ElemStep :=
  match k with
  | .sgath => gathTurn (bytes ty) a b c p
  | .sscat => scatTurn ty a b c p
  | .scmp nz => cmpTurn nz (bytes ty) a b c p
  | k => setTurn k (bytes ty) a b c p

/-- A list that is not canonical (R231). -/
def badList (v : Vec) : Bool := listLen v != 0 && (listVa v).extractLsb' 57 7 != 0

/-- The first list that is not canonical. -/
def firstBad (a b c : Vec) : Option Word := ([a, b, c].find? badList).map listVa

def withPos (r : Req) (p : StrmPos) : Req :=
  match r.op with
  | .strm k a b c _ => { r with op := .strm k a b c p }
  | _ => r

/-- One instruction for up to `left` elements (R232 to R237, R369). A recoverable fault suspends it where it is. -/
def strmRun (s : State) (r : Req) (left : Nat) : Nat → Sent
  | 0 => .ok s
  | n + 1 =>
    match r.op with
    | .strm k a b c p =>
      let w := whoOf r
      let go := fun (s : State) (q : StrmPos) =>
        let r1 := withPos r q
        let rest := if q.ia + q.ib == p.ia + p.ib then left else left - 1
        if rest == 0 then Sent.ok (putReq s r1) else strmRun (putReq s r1) r1 rest n
      let wait := fun (va : Word) (k : Want) =>
        let page := va.toNat / 4096
        Sent.ok (noteFault (putReq s { r with st := .fault page, fva := va }) r.bench r.key.asid page (kindsOf k))
      let by' := fun (x : VRes) (f : State → Vec → Sent) => match x with
        | .ok s v => f s v
        | .wait _ va k => wait va k
        | .blocked s => .ok s
        | .bad va st => .ok (fatalAccess s r va st)
        | .notHbm a => .notHbm a
      match nextTurn k r.ty a b c p with
      | .read va m f => by' (vAccess s w va m .read) fun s v => go s (f (v.setWidth 64))
      | .write va m v p => by' (vAccess s w va m (.write (v.setWidth 128))) fun s _ => go s p
      | .add va op v p => by' (vAccess s w va (bytes r.ty) (.amo op r.ty (v.setWidth 128) false)) fun s _ => go s p
      | .pure p => go s p
      | .finish v => .ok (complete s { r with ty := .b64 } (v.setWidth 128))
    | _ => .ok s

/-- The stream instructions in progress at a bench: the first 64 that have come to its engine, in order of arrival; those of a
suspended space are saved (R356, R369). -/
def strmInProgress (s : State) (b : Nat) : List Req :=
  (s.flight.reqs.filter fun r => r.bench == b && isStrm r.op && canPerform s r && !suspended s r.key.asid).take 64

/-- Whether an instruction in progress has been passed over as often as it may be, so that the next turn is its (R369). -/
def strmDue (l : List Req) (id : Nat) : Bool := l.any fun r => r.id != id && r.st == .pending && decide (63 ≤ r.passed)

/-- A turn of one instruction passes over the others that can proceed (R369). -/
def strmPass (s : State) (l : List Req) (id : Nat) : State :=
  { s with flight := { s.flight with
    reqs := s.flight.reqs.map fun r =>
      if r.id == id then { r with passed := 0 }
      else if r.st == .pending && l.any (fun x => x.id == r.id) then { r with passed := r.passed + 1 } else r } }

/-- Whether a die of compute is up. -/
def dieUp (s : State) (b : Nat) : Bool := !s.pkg.diesDown.contains (b / Config.benchesPerDie)

/-- `STREAM_EXECUTE` (R236, R369): a turn of at most 64 elements of one instruction. -/
def execStreamExecute (r n : Nat) (s : State) : Host.Outcome State Fault Refusal :=
  match findReq s r with
  | none => .next s
  | some q =>
    match q.op with
    | .strm _ a b c _ =>
      let l := strmInProgress s q.bench
      if q.st != .pending || !running s || !dieUp s q.bench || !(l.any fun x => x.id == r) || strmDue l r || n == 0 then .next s
      else match firstBad a b c with
        | some va => .next (fatalAccess s q va stNoncanon)
        | none => sentOut (strmRun (strmPass s l r) { q with passed := 0 } (min n 64) 256)
    | _ => .next s

end Sys2Proof.Machine
end

