-- ==== Sys2Proof/Machine/System.lean ====
section
/-! DEFINITION. Threads and system, group 110 (R257 to R275, R395). -/

namespace Sys2Proof.Machine
open Sys2Proof.Forms

/-- The registers that `SPAWN` copies, in order, for its HAZARD with field 5 (R258, R272). -/
def copyRegs (x : Spawn) : List (BitVec 8 × Opd × Bool) :=
  ((List.range 4).filter fun i => x.scopy.getLsbD i).map (fun i => (5, Opd.s (BitVec.ofNat 2 i), false)) ++
    ((List.range 4).filter fun i => x.vcopy.getLsbD i).map fun i => (5, Opd.v (BitVec.ofNat 2 i), false)

/-- What a `SPAWN` request carries, read at issue (R258). -/
def spawnReq (c : Ctx) (x : Spawn) : SpawnReq :=
  { entry := c.pc + 12 * x.edisp.signExtend 57, scopy := x.scopy, vcopy := x.vcopy
    s0 := c.s0, s1 := c.s1, s2 := c.s2, s3 := c.s3, v0 := c.v0, v1 := c.v1, v2 := c.v2, v3 := c.v3
    rm := c.rm, prio := c.prio, lslot := c.lslot, geo := c.geo, sup := c.sup, rad := x.rad, sbench := x.sbench }

/-- `SPAWN` (R258). -/
def execSpawn (h : Hdr) (x : Spawn) (s : State) : Host.Outcome State Fault Refusal :=
  issue s (.spawn h x) h false ((1, x.d, false) :: copyRegs x) fun s t =>
    limited s t (
      if entriesFull s t then .skip s
      else .done (enter s t { newReq (.spawn (spawnReq t.ctx x)) 0 0 .b64 (.spawn h x) with dst := x.d, ord := .rel }
        true true).1 (t.ctx.pc + 12) .run)

/-- Nothing keeps a switch-point instruction from completing: no result outstanding, no fatal record (R257,
R273). -/
def switchReady (t : Thread) : Bool := t.ctx.outst == 0 && (fatalRec t.trap).isNone

/-- `EXIT` may complete (R261). -/
def exitReady (s : State) (t : Thread) : Bool := switchReady t && storesDone s t.key .dev

/-- The completion of `EXIT`, a release (R78, R261). -/
def exitNow (s : State) (t : Thread) : State := retireThread (count (dropStale s) t.bench (iuAt t) 0) t

/-- What `EXIT` and `MOVE` do while they wait: the holds end before the release (R195, R261, R263). -/
def endWaiting (s : State) (t : Thread) : State := if switchReady t then endHolds s t.key else s

/-- `EXIT` (R261, R325). -/
def execExit (h : Hdr) (s : State) : Host.Outcome State Fault Refusal :=
  issue s (.exit h) h false [] fun s t =>
    if exitReady s t then .gone (exitNow (rotate s t.key) t) else .stay (endWaiting s t) .exit

/-- `YIELD` (R262). -/
def execYield (h : Hdr) (s : State) : Host.Outcome State Fault Refusal :=
  issue s (.yield h) h false [] fun s t =>
    .done (setThread s { t with yielded := t.yielded || !t.ctx.hact }) (t.ctx.pc + 12) .run

/-- The limit `BARW` of a thread's launch on barrier indices (R266). -/
def barLimit (s : State) (t : Thread) : Option (BitVec 16) := (launchOf s t.ctx.lslot).map (·.barw)

/-- `BAR` (R266). -/
def execBar (h : Hdr) (d a : Opd) (idx : BitVec 32) (s : State) : Host.Outcome State Fault Refusal :=
  issue s (.bar h d a idx) h false [(1, d, false), (2, a, false)] fun s t =>
    let ea := sVal s t a + 8 * idx.setWidth 64
    let go := aligned ea 8
      (submit s t { newReq .bar ea 8 .b64 (.bar h d a idx) with ord := .ar, dst := d } true true (t.ctx.pc + 12) .bar)
    limited s t (match barLimit s t with
      | some w => if w.toNat ≤ idx.toNat then .trap 0x08 (w.setWidth 24) (idx.setWidth 64) false else go
      | none => go)

/-- The value of `WHERE` (R264). -/
def whereVal (b u : Nat) : Word :=
  BitVec.ofNat 64 (b / Config.benchesPerDie * 2 ^ 18 + b * 2 ^ 8 + u)

/-- `WHERE` (R264). -/
def execWhereIu (h : Hdr) (d : Opd) (s : State) : Host.Outcome State Fault Refusal :=
  issue s (.whereIu h d) h false [(1, d, false)] fun s t =>
    limited s t (.done (enter s t { newReq .whereIu 0 0 .b64 (.whereIu h d) with
        dst := d, dat := (whereVal t.bench (iuAt t)).setWidth 128 } true true).1 (t.ctx.pc + 12) .run)

/-- `MOVE` may complete (R263). -/
def moveReady (s : State) (t : Thread) : Bool := switchReady t && storesDone s t.key .dev

/-- The completion of `MOVE`: it retires, and the line travels when a bench accepts it (R263). -/
def moveNow (s : State) (t : Thread) (h : Hdr) (rad : BitVec 6) (sbench : BitVec 10) : State :=
  let s1 := dropStale (endHolds s t.key)
  match findThread s1 t.key with
  | none => s1
  | some t1 => match moveGoal s1 t1 rad sbench with
    | none => retire s1 t.key h (t.ctx.pc + 12) .run
    | some b => moveTo (retire s1 t.key h (t.ctx.pc + 12) .transit) t.key t.bench b

/-- `MOVE` (R263). -/
def execMove (h : Hdr) (rad : BitVec 6) (sbench : BitVec 10) (s : State) : Host.Outcome State Fault Refusal :=
  issue s (.move h rad sbench) h false [] fun s t =>
    if moveReady s t then .gone (moveNow s t h rad sbench) else .stay (endWaiting s t) (.move rad sbench)

/-- `SYS` (R267). -/
def execSys (h : Hdr) (a : Opd) (code : BitVec 24) (s : State) : Host.Outcome State Fault Refusal :=
  issue s (.sys h a code) h false [(2, a, false)] fun s t => .trap 0x0C code (sVal s t a) true

/-- `TRAP` (R267). -/
def execTrap (h : Hdr) (a : Opd) (code : BitVec 24) (s : State) : Host.Outcome State Fault Refusal :=
  issue s (.trap h a code) h false [(2, a, false)] fun s t => .trap 0x0D code (sVal s t a) true

/-- A `BRK` that halts (R395). -/
def brkHalt (s : State) (k : Key) (code : BitVec 24) : State :=
  let s1 := refresh (onThread (endHolds s k) k fun t => { t with
    ctx := { t.ctx with cause := 0x0B, detail := code, dhalt := true } }) k
  triggerBy (debugEvent s1 4 k) k 1 (·.brkh)

/-- Whether the set of the thread's IU has `BRKH` (R395). -/
def brkHalts (s : State) (t : Thread) : Bool :=
  match setOfIu (getIu s t.bench (iuAt t)) with
  | some n => (getSet s n).brkh
  | none => false

/-- `BRK` (R267, R395). -/
def execBrk (h : Hdr) (code : BitVec 24) (s : State) : Host.Outcome State Fault Refusal :=
  issue s (.brk h code) h false [] fun s t =>
    if brkHalts s t then .gone (brkHalt (markIssue s t.key h) t.key code) else .trap 0x0B code 0 false

/-- `ERET` may complete: its earlier `CTXW`s have been performed (R268). -/
def eretReady (s : State) (t : Thread) : Bool :=
  switchReady t && !(s.flight.reqs.any fun r => r.key == t.key && isCtxw r.op)

/-- The completion of `ERET` (R268): a step that ran in the handler ends with it (R393). -/
def eretNow (s : State) (t : Thread) (h : Hdr) : State :=
  let s1 := settle (count (markIssue (setThread s (trapReturn t)) t.key h) t.bench (iuAt t) 0) t.key
  if t.ctx.step then stepEnd (endHolds s1 t.key) t.key 1 else s1

/-- `ERET` (R268). -/
def execEret (h : Hdr) (s : State) : Host.Outcome State Fault Refusal :=
  issue s (.eret h) h true [] fun s t => if eretReady s t && !t.cancel then .gone (eretNow s t h) else .stay s .eret

/-! CSRs (R43, R269). -/

/-- `PERF1`: the cycles of an IU in which it has issued nothing (R45). -/
def idleCycles (s : State) (b u : Nat) : Word := cycleOf s b u - BitVec.ofNat 64 (getIu s b u).issued

/-- The value of a CSR (R43). -/
def csrValue (s : State) (t : Thread) (n : BitVec 12) : Word :=
  let sp := findSpace s t.key.asid
  let of := fun (f : Space → Word) => (sp.map f).getD 0
  match n.toNat with
  | 0x001 => t.ctx.flags.setWidth 64
  | 0x002 => t.ctx.rm.setWidth 64
  | 0x003 => (t.ctx.rm ++ t.ctx.flags).setWidth 64
  | 0x010 => t.ctx.ctxid.setWidth 64
  | 0x011 => t.ctx.geo
  | 0x012 => t.ctx.prio.setWidth 64
  | 0x013 => t.ctx.lslot.setWidth 64
  | 0x020 => cycleOf s t.bench (iuAt t)
  | 0x100 => t.key.asid.setWidth 64
  | 0x101 => of fun x => x.fpte.setWidth 64
  | 0x102 => of fun x => (x.tvec ++ (0 : BitVec 2)).setWidth 64
  | 0x103 => of fun x => (x.ctxbase ++ (0 : BitVec 40)).setWidth 64
  | 0x104 => of fun x => (x.htbase ++ (0 : BitVec 12)).setWidth 64
  | 0x105 => of fun x => x.htsize.setWidth 64
  | 0x106 => of fun x => (x.tback ++ (0 : BitVec 41)).setWidth 64
  | 0x107 => of fun x => (x.esave ++ (0 : BitVec 12)).setWidth 64
  | 0x108 => of fun x => trapLineVa x t.key
  | 0x180 => (getIu s t.bench (iuAt t)).cfg
  | 0x201 => idleCycles s t.bench (iuAt t)
  | m => (getIu s t.bench (iuAt t)).perf.getD (m - 0x200) 0

/-- Whether a CSR is for supervisor mode here: those marked "—" for U, and `PERF` unless `PERFU` is set (R43). -/
def csrPriv (s : State) (n : BitVec 12) : Bool :=
  if 0x200 ≤ n.toNat then
    match current s with
    | some t => !(getIu s t.bench (iuAt t)).cfg.getLsbD 31
    | none => true
  else decide (0x100 ≤ n.toNat)

/-- `CSRR` (R269). -/
def execCsrr (h : Hdr) (d : Opd) (csr : BitVec 12) (s : State) : Host.Outcome State Fault Refusal :=
  issue s (.csrr h d csr) h (csrPriv s csr) [(1, d, false)] fun s t =>
    finish s t (setDst t.ctx d false ((csrValue s t csr).setWidth 128))

/-- A rounding mode written to the line: 5 to 7 are refused (R17). -/
def putRm (s : State) (t : Thread) (v : BitVec 3) (f : Ctx → Ctx) : Did :=
  if 4 < v.toNat then .trap 0x02 0x080006 0 false else finish s t (f { t.ctx with rm := v })

/-- `CSRW` (R269). -/
def execCsrw (h : Hdr) (a : Opd) (csr : BitVec 12) (s : State) : Host.Outcome State Fault Refusal :=
  issue s (.csrw h a csr) h (csrPriv s csr) [(2, a, false)] fun s t =>
    let v := sVal s t a
    match csr.toNat with
    | 0x001 => finish s t { t.ctx with flags := v.setWidth 5 }
    | 0x002 => putRm s t (v.setWidth 3) id
    | 0x003 => putRm s t (v.extractLsb' 5 3) fun c => { c with flags := v.setWidth 5 }
    | 0x012 => finish s t (if t.ctx.sup then { t.ctx with prio := v.setWidth 4 } else t.ctx)
    | 0x101 => finish (onSpace s t.key.asid fun x => { x with fpte := v.setWidth 5 }) t t.ctx
    | _ => finish s t t.ctx

/-- `CTXR` (R270). -/
def execCtxr (h : Hdr) (d a : Opd) (word : BitVec 5) (s : State) : Host.Outcome State Fault Refusal :=
  issue s (.ctxr h d a word) h true [(1, d, false), (2, a, false)] fun s t =>
    limited s t (.done (enter s t { newReq (.ctxr (sVal s t a) word) 0 0 .b64 (.ctxr h d a word) with dst := d }
      true true).1 (t.ctx.pc + 12) .run)

/-- Whether a `CTXW` would place its word in another thread's line (R271). -/
def placesWord (s : State) (t : Thread) (a : Word) : Bool :=
  a.extractLsb' 32 32 == 0 && a.setWidth 32 != t.key.ctx && (findThread s ⟨t.key.asid, a.setWidth 32⟩).isSome

/-- `CTXW` (R271): a rounding mode of 5 to 7 that it would place is refused (R17, R46). -/
def execCtxw (h : Hdr) (a b : Opd) (word : BitVec 5) (s : State) : Host.Outcome State Fault Refusal :=
  issue s (.ctxw h a b word) h true [(2, a, false), (3, b, false)] fun s t =>
    let v := sVal s t b
    if word == 2 && decide (4 < (v.extractLsb' 49 3).toNat) && placesWord s t (sVal s t a) then .trap 0x02 0x080006 0 false
    else .done (enter s t { newReq (.ctxw (sVal s t a) word) 0 0 .b64 (.ctxw h a b word) with dat := v.setWidth 128 }
      false false).1 (t.ctx.pc + 12) .run

end Sys2Proof.Machine
end

