-- ==== Sys2Proof/Machine/Issue.lean ====
section
/-! DEFINITION. Instruction fetch and the choice of a line (R48, R75 steps 1 to 7, R325, R329, R349), the completion of
instructions that waited (R183, R257, R261, R263, R268), and the entry of a trap that waited (R33, R273). -/

namespace Sys2Proof.Machine
open Sys2Proof.Forms

/-- Whether an IU issues: its die is up and no set has halted it (R397, R403). An IU with `IUEN` = 0 issues from the
lines it still has (R340). -/
def iuRuns (s : State) (b u : Nat) : Bool := running s && dieUp s b && !(getIu s b u).halted

/-! The choice of a line (R325). -/

/-- An IU's account of the present cycle: a new one when time has passed since it last issued or tried (R325). -/
def openCycle (s : State) (b u : Nat) : State :=
  onIu s b u fun x => if x.cyc == s.run.now then x else { x with cyc := s.run.now, spent := false, skips := [] }

/-- The present cycle of an IU is over without an issue. -/
def closeCycle (s : State) (b u : Nat) : State :=
  onIu s b u fun x => { x with cyc := s.run.now, spent := true, skips := skipsNow s x }

/-- The ready lines of a CL1. -/
def readyLines (s : State) (b u : Nat) : List Thread :=
  s.threads.filter fun t => t.bench == b && t.loc == .placed (.cl1 u) && isReady s t

/-- The ready lines of a CL1 that this cycle has not tried. -/
def candidatesOf (s : State) (b u : Nat) : List Thread :=
  (readyLines s b u).filter fun t => !(skipsNow s (getIu s b u)).contains t.key

/-- The next line in slot order, a held one first (R325). -/
def chooseLine (s : State) (b u : Nat) : Option Thread :=
  let x := getIu s b u
  let l := candidatesOf s b u
  match leastBy (fun t => (t.slot + 63 - x.lastHeld) % 64) (l.filter (·.ctx.hact)) with
  | some t => some t
  | none => leastBy (fun t => (t.slot + 63 - x.lastSlot) % 64) l

/-- Marks the candidate as tried in this cycle (R325). -/
def trySlot (s : State) (t : Thread) (u : Nat) : State :=
  onIu s t.bench u fun x => { x with skips := t.key :: skipsNow s x, spent := spentNow s x, cyc := s.run.now }

/-- The line that issues. One that `H.YP` marks is skipped for one cycle when another line is ready; a held one is not, so that its
lease is used (R191, R325, R331, log 83). -/
def pickLine (b u : Nat) : Nat → State → State × Option Thread
  | 0, s => (s, none)
  | n + 1, s => match chooseLine s b u with
    | none => (s, none)
    | some t =>
      if t.yp && !t.ctx.hact && (readyLines s b u).any fun x => x.key != t.key then
        pickLine b u n (trySlot (onThread s t.key fun t => { t with yp := false }) t u)
      else (s, some t)

/-! Fetch (R48). -/

/-- What fetching comes to. -/
inductive Fetched where
  | ok (s : State) (iw : IWord)
  | wait (s : State) (va : Word)
  | blocked (s : State)
  | bad (va : Word) (status : BitVec 5)
  | notHbm (pa : Nat)

/-- A word of a line that the instruction cache does not hold: it is read coherently, and the line enters the cache (R3, R45, R78). -/
def fetchMiss (s : State) (t : Thread) (u : Nat) (p : Phys) (ea : Word) (k : State → W32 → Fetched) : Fetched :=
  match engAccess s t.bench (some (.thread t.key)) p 4 .read with
  | .done s1 v => k (count (match p with
      | .dev _ | .hostC _ => iFill s1 t.bench u (lineOf p)
      | .hostU _ | .peer .. => s1) t.bench u 9) (v.setWidth 32)
  | .blocked s1 => .blocked (keepLine s1 (lineOf p) (some (.thread t.key)))
  | .bad st => .bad ea st

/-- One of the three words at its place: of the bytes that the thread has stored under its hold, of the instruction cache, or of
memory. A copy that a store has made stale is either used or gone (R48, R78). -/
def wordAt (s : State) (t : Thread) (u : Nat) (p : Phys) (ea : Word) (k : State → W32 → Fetched) : Fetched :=
  if ((lineHold s (lineOf p)).map fun h => h.key == t.key).getD false then k s ((readCoherent s (some t.key) p 4).setWidth 32)
  else match iFind s t.bench u (lineOf p) with
    | none => fetchMiss s t u p ea k
    | some x =>
      let old : W32 := (lineBytes x.data (lineOff p) 4).setWidth 32
      if old == (physRead s.mem p 4).setWidth 32 then k s old
      else
        let s1 := { s with run := { s.run with fresh := s.run.fresh + 1 } }
        if Config.freePick s.run.fresh % 2 == 0 then k s1 old
        else fetchMiss { s1 with cache := { s1.cache with icache := s1.cache.icache.erase x } } t u p ea k

/-- One of the three words (R48). -/
def fetchWord (s : State) (t : Thread) (u : Nat) (va : VAddr) (k : State → W32 → Fetched) : Fetched :=
  let ea : Word := va.setWidth 64
  match translate s (.instr t.bench u) t.key.asid { fetch := true, sup := t.ctx.sup } ea with
  | .wait => .wait s ea
  | .busy s1 => .blocked s1
  | .bad st => .bad ea st
  | .notHbm a => .notHbm a
  | .ok p s1 => wordAt s1 t u p ea k

/-- The 12 bytes at the PC, the first word lowest (R48). -/
def fetchInstr (s : State) (t : Thread) (u : Nat) : Fetched :=
  fetchWord s t u t.ctx.pc fun s w0 => fetchWord s t u (t.ctx.pc + 4) fun s w1 =>
    fetchWord s t u (t.ctx.pc + 8) fun s w2 => .ok s (w2 ++ w1 ++ w0)

/-- A recoverable fetch fault: the thread does not issue; its record (R349). -/
def fetchFault (s : State) (t : Thread) (u : Nat) (va : Word) : State :=
  let q := takeSeq s
  let page := va.toNat / 4096
  let r : Req := { newReq .fetch 0 0 .b64 (.nop {}) with
    id := q.1, key := t.key, bench := t.bench, iu := u, sup := t.ctx.sup, iw := 0, fva := va, born := s.run.now }
  let s1 := { q.2 with flight := { q.2.flight with reqs := q.2.flight.reqs ++ [r] } }
  let s2 := noteFault s1 t.bench t.key.asid page { f := true }
  settle (writeRecord (onThread s2 t.key fun t => { t with wait := .fetch }) r page 0) t.key

/-- Where the thread last issued matters when it is new to this IU: its stores there, and this IU's data L1 (R329). -/
def storesLeft (s : State) (k : Key) : Bool :=
  s.flight.reqs.any fun r => r.key == k && isStore r.op && !r.side && r.ri.isNone && r.st != .peer

/-- The first issue of a thread on an IU (R329). -/
def firstIssue (s : State) (t : Thread) (u : Nat) : Option State :=
  if t.lastIu == some (t.bench, u) then some s
  else if t.lastIu.isSome && storesLeft s t.key then none
  else some (acquireL1 (onThread s t.key fun t => { t with lastIu := some (t.bench, u) }) t.bench u .dev)

/-- A thread whose instruction is fetched has no walk under way, and waits at no line, but for the `CST` or `CAMO` that it walks
for (R194, R243). -/
def forgetWalk (s : State) (k : Key) (i : Instr) : State :=
  match i with
  | .cst .. | .camo .. => s
  | _ => leaveTurns (onThread s k fun t => { t with walk := none }) (some (.thread k))

/-- The chosen line's instruction: fetched, decoded, latched for issue, or its trap (R75 steps 1 to 7). -/
def fetchFor (s : State) (t : Thread) (u : Nat) : Host.Outcome State Fault Refusal :=
  let precise := fun (s : State) (x : TrapInfo) => Host.Outcome.next (raise (markIssue s t.key {}) t.key x)
  match fetchInstr s t u with
  | .notHbm a => .fault (.notHbm a)
  | .blocked s1 => .next s1
  | .wait s1 va => .next (fetchFault s1 t u va)
  | .bad va st => precise s
      { cause := 0x20, detail := st.setWidth 8 ++ (0x01 : BitVec 8) ++ (0 : BitVec 8), tval := va, resume := t.ctx.pc }
  | .ok s1 iw => match Decode.decode iw with
    | .error e => precise s1 { cause := e.cause, detail := e.detail, iw := iw, resume := t.ctx.pc }
    | .ok i => .next { forgetWalk s1 t.key i with run := { s1.run with ir := some i } }

/-- `INSTRUCTION_FETCH` (R48, R325): the IU chooses a line and fetches its instruction, once a cycle. With no candidate left the
cycle ends. -/
def execInstructionFetch (b u : Nat) (s0 : State) : Host.Outcome State Fault Refusal :=
  let s := openCycle { s0 with run := { s0.run with cur := none, ir := none } } b u
  if !iuRuns s b u || spentNow s (getIu s b u) then .next s
  else match pickLine b u 65 s with
    | (s1, none) => .next (closeCycle s1 b u)
    | (s1, some t) =>
      let s2 := trySlot { s1 with run := { s1.run with cur := some t.key } } t u
      match firstIssue s2 t u with
      | none => .next s2
      | some s3 => fetchFor s3 t u

/-! Completion of waits. -/

/-- The fence of a wait ends: it retires, or a trap that was taken at it takes its turn (R183, R273). -/
def endFence (s : State) (t : Thread) (o : Ord) (scp : Scope) : State :=
  let s1 := fenceEnd s t o scp
  let h : Hdr := { yp := t.yp, lh := t.lh }
  if t.pend.isSome then
    settle (count (onThread s1 t.key fun t => { t with wait := .drain }) t.bench (iuAt t) 0) t.key
  else retire s1 t.key h (t.ctx.pc + 12) .drain

/-- A wait that issues its instruction again (R75 step 11). -/
def reissue (s : State) (k : Key) : State := settle (onThread s k fun t => { t with wait := .run }) k

/-- Whether a tile frame is resident in an awake bank, or its handle is no longer bound (R201, R202). -/
def frameReady (s : State) (asid : BitVec 16) (idx j : Nat) : Bool :=
  match findSpace s asid with
  | none => true
  | some x =>
    let e := getHandle x idx
    !e.v || decide (e.nfr.toNat ≤ j) || (resident e j && bankAwake s e.hbench.toNat e.hiu.toNat (frameNo e j))

/-- Whether an instruction that has issued may complete: its line is not in transfer, frozen or halted; a suspension lets it
(R356). -/
def mayComplete (s : State) (t : Thread) : Bool :=
  !isMoving t && !t.ctx.frz && !t.ctx.dhalt && !t.cancel && t.pend.isNone && running s

/-- Whether an instruction that has not issued may issue again. -/
def mayResume (s : State) (t : Thread) : Bool := mayComplete s t && !suspended s t.key.asid

/-- The completion of an instruction that issued in an earlier cycle is no issue of its IU. -/
def quietly (s s1 : State) (b u : Nat) : State :=
  let o := getIu s b u
  onIu s1 b u fun x => { x with
    lastSlot := o.lastSlot, lastHeld := o.lastHeld, skips := o.skips, cyc := o.cyc, spent := o.spent, issued := o.issued }

/-- `INSTRUCTION_REISSUE` (R75 step 11, R183, R257, R261, R263, R268, R356): an instruction that waits completes or issues
again when its condition holds. -/
def execInstructionReissue (k : Key) (s : State) : Host.Outcome State Fault Refusal :=
  match findThread s k with
  | none => .next s
  | some t =>
    let done := fun (s1 : State) => Host.Outcome.next (quietly s s1 t.bench (iuAt t))
    let h : Hdr := { yp := t.yp, lh := t.lh }
    match t.wait with
    | .fence o scp =>
      if mayComplete s { t with pend := none } && fenceReady s t o scp then done (endFence s t o scp) else .next s
    | .exit => if !mayComplete s t then .next s else if exitReady s t then done (exitNow s t) else .next (endWaiting s t)
    | .move rad sb =>
      if !mayComplete s t then .next s else if moveReady s t then done (moveNow s t h rad sb) else .next (endWaiting s t)
    | .eret => if mayComplete s t && eretReady s t then done (eretNow s t h) else .next s
    | .limit => .next (if mayResume s t && decide (t.ctx.outst < 15) then reissue s k else s)
    | .engq => .next (if mayResume s t && !queueFull s t.bench (iuAt t) then reissue s k else s)
    | .tile idx j _ => .next (if mayResume s t && frameReady s t.key.asid idx j then reissue s k else s)
    | _ => .next s

/-- `TRAP_ENTRY` (R33, R273): a trap that waited for `OUTST` = 0 is entered. -/
def execTrapEntry (k : Key) (s : State) : Host.Outcome State Fault Refusal :=
  match findThread s k with
  | none => .next s
  | some t =>
    let fence := match t.wait with
      | .fence .. => true
      | _ => false
    if t.pend.isSome && t.ctx.outst == 0 && !isMoving t && !t.ctx.frz && !t.cancel && !fence then .next (finishTrap s k) else .next s

end Sys2Proof.Machine
end

