-- ==== Sys2Proof/Machine/Results.lean ====
section
/-! DEFINITION. Requests are performed and results are delivered: events of the memory units and homes (R26, R172 to
R199, R266, R270, R271, R322). -/

namespace Sys2Proof.Machine
open Sys2Proof.Forms

/-- Translates a request that has no location yet, then goes on (R24, R172, R173). -/
def withPlace (s : State) (r : Req) (f : State → Req → Phys → State) : Sent :=
  match r.pa with
  | some p => .ok (f s r p)
  | none => match resolve s r with
    | .notHbm a => .notHbm a
    | .ok s1 => match findReq s1 r.id with
      | some r1 => match r1.pa, r1.st with
        | some p, .pending => .ok (f s1 r1 p)
        | _, _ => .ok s1
      | none => .ok s1

/-- The thread that a `CTXR` or `CTXW` names, if its slot holds one (R270, R271). -/
def slotThread (s : State) (r : Req) (ctx : Word) : Option Thread :=
  if ctx.extractLsb' 32 32 != 0 then none else findThread s ⟨r.key.asid, ctx.setWidth 32⟩

/-- `CTXR` reads its word at the line's holder (R270, R324). -/
def performCtxr (s : State) (r : Req) (ctx : Word) (word : BitVec 5) : State :=
  match slotThread s r ctx with
  | none => complete s r ((BitVec.allOnes 64).setWidth 128)
  | some t => if isMoving t then s else complete s r ((slotWord t word.toNat).setWidth 128)

/-- `CTXW` is performed through the context home (R271, R322). -/
def performCtxw (s : State) (r : Req) (ctx : Word) (word : BitVec 5) : State :=
  let s1 := complete s r 0
  match slotThread s r ctx with
  | none => s1
  | some t => if t.key == r.key && decide (word.toNat < 16) then s1 else deliver s1 t.key (.word word (r.dat.setWidth 64))

/-- Whether a request may be performed now: its place in order, the state it waits in, the part that performs it. -/
def mayPerform (s : State) (r : Req) : Bool :=
  triable r && canPerform s r && running s && (r.key.ctx == 0 || dieUp s r.bench)

/-- Performs a request of any kind but a granted `HOLD`, a synchronising access, a `BAR` step and a stream
instruction. -/
def performReq (s : State) (r : Req) : Sent :=
  if !mayPerform s r then .ok s
  else match r.op with
    | .ld | .st | .amo _ | .cas | .addd _ | .cflush | .hold false | .ret => attempt s r
    | .hrel => .ok (complete (releaseHold s r.key r.va) r 0)
    | .tlde h o | .tste h o => performTile s r h o
    | .cld c => performCld s r c
    | .cprb c => performCprb s r c
    | .clbinv lo hi => performClbinv s r lo hi
    | .qpop => performQpop s r
    | .qpsh => performQpsh s r
    | .whereIu => .ok (complete s r r.dat)
    | .spawn x =>
      if poolBusy s r.key.asid then .ok s
      else let c := spawnChild s r.key.asid r.bench x; .ok (complete c.1 r (c.2.setWidth 128))
    | .ctxr ctx w => .ok (performCtxr s r ctx w)
    | .ctxw ctx w => .ok (performCtxw s r ctx w)
    | .hold true | .lde | .ldc | .stf | .sts | .sfe | .qfe | .dep .. | .bar | .strm .. | .token | .fetch => .ok s

/-- Requests with a result that `DELIVER_RESULT` performs. -/
def isResultOp : ReqOp → Bool
  | .ld | .amo _ | .cas | .hold false | .ret | .tlde .. | .cld _ | .cprb _ | .qpop | .whereIu | .spawn _ | .ctxr .. => true
  | _ => false

/-- Requests without a result that `STORE_PERFORM` performs. -/
def isStoreOp : ReqOp → Bool
  | .st | .addd _ | .cflush | .hrel | .tste .. | .ctxw .. | .qpsh | .clbinv .. => true
  | _ => false

/-- `DELIVER_RESULT` (R26): an access with a result is performed and its result lands in the line. -/
def execDeliverResult (r : Nat) (s : State) : Host.Outcome State Fault Refusal :=
  match findReq s r with
  | some q => if isResultOp q.op then sentOut (performReq s q) else .next s
  | none => .next s

/-- `STORE_PERFORM` (R173, R174). -/
def execStorePerform (r : Nat) (s : State) : Host.Outcome State Fault Refusal :=
  match findReq s r with
  | some q => if isStoreOp q.op then sentOut (performReq s q) else .next s
  | none => .next s

/-- The grant of a located `HOLD` (R189): a register of the IU and a slot of the thread are free; where no hold is possible it is
a load (R190). -/
def grantAt (s : State) (r : Req) (p : Phys) : State :=
  if !holdable p then attemptAt (putReq s (onlyLoads r p)) (onlyLoads r p) p
  else match if slotFree s r.key then freeHold s r.bench r.iu else none with
    | none => s
    | some reg => match access s r p with
      | .done s1 v => complete (grantHold s1 r p reg) r (seen s1 r v)
      | .blocked s1 | .outside s1 => s1
      | .bad st => fatalAccess s r r.va st

/-- `HOLD_GRANT` (R189, R191). -/
def execHoldGrant (r : Nat) (s : State) : Host.Outcome State Fault Refusal :=
  match findReq s r with
  | some q =>
    if q.op == .hold true && mayPerform s q && !((findThread s q.key).map isMoving).getD true then sentOut (withPlace s q grantAt)
    else .next s
  | none => .next s

/-- The end of a hold whose lease has run out (R191, R193). -/
def expire (s : State) (b u slot : Nat) : State :=
  match ((getIu s b u).holds[slot]?).join with
  | some h =>
    if leaseCount s.run.now h < Config.leaseCycles then s
    else count (refresh (endHoldAt s b u slot) h.key) b u 15
  | none => s

/-- `HOLD_EXPIRY` (R191, R193). -/
def execHoldExpiry (b u slot : Nat) (s : State) : Host.Outcome State Fault Refusal := .next (expire s b u slot)

/-- `SYNC_ACCESS_ARRIVAL` (R184, R185, R187). -/
def execSyncAccessArrival (r : Nat) (s : State) : Host.Outcome State Fault Refusal :=
  match findReq s r with
  | some q => if isSync q.op && mayPerform s q then sentOut (withPlace s q goHome) else .next s
  | none => .next s

/-- `BAR_STEP` (R265, R266). -/
def execBarStep (r : Nat) (s : State) : Host.Outcome State Fault Refusal :=
  match findReq s r with
  | some q => if q.op == .bar && mayPerform s q then sentOut (withPlace s q goHome) else .next s
  | none => .next s

/-- `SYNC_RETRY_RESEND` (R187, R266): no earlier than the interval after the retry. -/
def execSyncRetryResend (r : Nat) (s : State) : Host.Outcome State Fault Refusal :=
  match findReq s r with
  | some q => match q.st with
    | .retryAt t => .next (if t ≤ s.run.now then setReqSt s r .pending else s)
    | _ => .next s
  | none => .next s

end Sys2Proof.Machine
end

