-- ==== Sys2Proof/Machine/Faults.lean ====
section
/-! DEFINITION. Recoverable faults: messages and wakes of the combining tree (R350, R351), page migration (R38, R346,
R347), and the replay of records and side-log entries (R31, R352, R353). -/

namespace Sys2Proof.Machine
open Sys2Proof.Forms

/-! Messages (R350). -/

/-- The root router's number among the routers of the combining tree. -/
abbrev rootRouter : Nat := 9

def dieOf (b : Nat) : Nat := b / Config.benchesPerDie

def routerFind (s : State) (r : Nat) (asid : BitVec 16) (page : Nat) : Option RouterEnt :=
  s.mmu.router.find? fun e => e.router == r && e.asid == asid && e.page == page

def routerFull (s : State) (r : Nat) : Bool :=
  decide (Config.routerEntries ≤ (s.mmu.router.filter fun e => e.router == r).length)

def onMmu (s : State) (f : Mmu → Mmu) : State := { s with mmu := f s.mmu }

/-- A message reaches the root core. -/
def toRoot (s : State) (m : FaultMsg) : State := onMmu s fun x => { x with inbox := x.inbox ++ [m] }

/-- What a router does with a message: merged, passed on with an entry, or passed on uncombined. -/
inductive Merge where
  | merged (s : State)
  | passed (s : State)
  | full

def mergeAt (s : State) (r port : Nat) (asid : BitVec 16) (page : Nat) (k : Kinds) : Merge :=
  match routerFind s r asid page with
  | some e => .merged (onMmu s fun x => { x with
      router := modifyFirst (· == e) (fun e => { e with ports := if e.ports.contains port then e.ports else e.ports ++ [port], kinds := orKinds e.kinds k }) x.router })
  | none =>
    if routerFull s r then .full
    else .passed (onMmu s fun x => { x with
      router := x.router ++ [{ router := r, asid := asid, page := page, ports := [port], kinds := k }] })

/-- `FAULT_MESSAGE` (R350): the one message of a bench for a page climbs the tree. -/
def execFaultMessage (b : Nat) (asid : BitVec 16) (page : Nat) (s : State) : Host.Outcome State Fault Refusal :=
  match s.mmu.bench.find? fun x => x.bench == b && x.asid == asid && x.page == page with
  | none => .next s
  | some e =>
    if e.sent then .next s
    else
      let s1 := onMmu s fun x => { x with bench := modifyFirst (· == e) (fun e => { e with sent := true }) x.bench }
      let alone : FaultMsg := { asid := asid, page := page, kinds := e.kinds, src := some b }
      match mergeAt s1 (dieOf b) b asid page e.kinds with
      | .merged s2 => .next s2
      | .full => .next (toRoot s1 alone)
      | .passed s2 => match mergeAt s2 rootRouter (dieOf b) asid page e.kinds with
        | .merged s3 => .next s3
        | .full => .next (toRoot s2 alone)
        | .passed s3 => .next (toRoot s3 { alone with src := none })

/-! Page tables written by firmware, and migration (R38, R344, R346, R347). -/

/-- The leaf of an address, migrating or not: its level and entry. -/
def rawLeaf (m : Mem) (va : Nat) : Nat → Nat → Option (Nat × Word)
  | 0, _ => none
  | n + 1, table =>
    let e : Word := (readVal m.dev (table + 8 * (va / 2 ^ (12 + 9 * n) % 512)) 8).setWidth 64
    if !pteV e then none else if pteL e then some (n, e) else rawLeaf m va n (ptePfn e * 4096)

/-- The page of an address: its leaf, its size in bits, and where its first byte is. -/
def rawPage (s : State) (asid : BitVec 16) (page : Nat) : Option (Word × Nat × Phys) :=
  match findSpace s asid with
  | none => none
  | some x => (rawLeaf s.mem (page * 4096) 5 (x.ptroot.toNat * 4096)).map fun r =>
      let bits := pageBits r.1 (pteC64 r.2)
      (r.2, bits, leafPhys (page * 4096 / 2 ^ bits * 2 ^ bits) r.2 bits)

/-- Firmware's stores to page tables, at physical addresses (R346). -/
def applyMaps (s : State) (maps : List (Nat × Word)) : State :=
  { s with mem := { s.mem with dev := maps.foldl (fun d m => writeVal d m.1 8 (m.2.setWidth 128)) s.mem.dev } }

def inRange (lo n a : Nat) : Bool := decide (lo ≤ a) && decide (a < lo + n)

/-- The cells of a range, moved to another. -/
def movedCells (l : List Host.Cell) (src dst n : Nat) : List Host.Cell :=
  (l.filter fun c => inRange src n c.1).map fun c => (c.1 - src + dst, c.2)

/-- A list of cells with a range replaced. -/
def replaceRange (l new : List Host.Cell) (dst n : Nat) : List Host.Cell :=
  l.filter (fun c => decide (c.1 < dst)) ++ new ++ l.filter (fun c => decide (dst + n ≤ c.1))

/-- Numbers of words moved from one range to another. -/
def movedWords (l : List Nat) (src dst n : Nat) : List Nat :=
  let kept := l.filter fun w => !inRange (dst / 8) (n / 8) w
  ((l.filter (inRange (src / 8) (n / 8))).map fun w => w - src / 8 + dst / 8).foldl insertRising kept

/-- Whether a location lies in a range of the same memory. -/
def inSpan (p : Phys) (n : Nat) (q : Phys) : Bool :=
  match p, q with
  | .dev a, .dev b | .hostC a, .hostC b => inRange a n b
  | _, _ => false

/-- D copies of a range are merged and cached copies of it are given up. -/
def quietRange (s : State) (p : Phys) (n : Nat) : State :=
  let lines := (s.cache.dsums.map fun x => lineOf x.addr) ++ (s.cache.l2.map (·.line)) ++ s.cache.l1.map (·.line)
  ((lines.filter (inSpan p n)).eraseDups).foldl giveUp s

/-- The lines of device memory that the host holds and that firmware's stores to page tables, or the copy of a page, are
about (R309). -/
def hostHeld (s : State) (maps : List (Nat × Word)) (spans : List (Phys × Nat)) : List Nat :=
  (s.cache.hostState.filter fun x =>
    (maps.any fun m => m.1 / 128 * 128 == x.1) || spans.any fun y => inSpan y.1 y.2 (.dev x.1)).map (·.1)

/-- The host is asked for lines that it holds (R309). -/
def snoopAll (s : State) (l : List Nat) : State := l.foldl (fun s a => sendBisnp s (.dev a) true) s

/-- The copy of a migration: bytes, full/empty bits and waiters of a device page; a page from the host arrives full
(R38, R347). -/
def copyPage (s0 : State) (old new : Phys) (n : Nat) : State :=
  let s := quietRange (quietRange s0 old n) new n
  match old, new with
  | .dev a, .dev b => { s with
      mem := { s.mem with dev := replaceRange s.mem.dev (movedCells s.mem.dev a b n) b n, empty := movedWords s.mem.empty a b n }
      flight := { s.flight with
        waiters := s.flight.waiters.map fun w => if inRange a n w.pa then { w with pa := w.pa - a + b } else w } }
  | .hostC a, .dev b | .hostU a, .dev b => { s with
      mem := { s.mem with
        dev := replaceRange s.mem.dev (movedCells s.mem.host a b n) b n
        empty := s.mem.empty.filter fun w => !inRange (b / 8) (n / 8) w } }
  | .dev a, .hostC b | .dev a, .hostU b => { s with
      mem := { s.mem with host := replaceRange s.mem.host (movedCells s.mem.dev a b n) b n } }
  | _, _ => s

/-- The pages that firmware's stores copy: the old place, the new one, and their size (R346, R347). -/
def moveOf (s : State) (asid : BitVec 16) (page : Nat) (maps : List (Nat × Word)) : Option (Phys × Phys × Nat) :=
  match rawPage s asid page, rawPage (applyMaps s maps) asid page with
  | some (e0, _, old), some (e1, bits, new) => if pteMig e0 && !pteMig e1 && old != new then some (old, new, 2 ^ bits) else none
  | _, _ => none

/-- Firmware maps a page: its stores; a page that it allocates is full; a page that it migrates is copied (R38,
R346). -/
def mapPage (s : State) (asid : BitVec 16) (page : Nat) (maps : List (Nat × Word)) : State :=
  let s1 := applyMaps s maps
  match moveOf s asid page maps, rawPage s asid page, rawPage s1 asid page with
  | some (old, new, n), _, _ => copyPage s1 old new n
  | none, none, some (_, bits, .dev a) =>
    { s1 with mem := { s1.mem with empty := s1.mem.empty.filter fun w => !inRange (a / 8) (2 ^ bits / 8) w } }
  | _, _, _ => s1

/-- What firmware asks of the host before it maps a page: the lines that the host holds (R309). -/
def mapAsks (s : State) (asid : BitVec 16) (page : Nat) (maps : List (Nat × Word)) : List Nat :=
  hostHeld s maps (match moveOf s asid page maps with
    | some (old, new, n) => [(old, n), (new, n)]
    | none => [])

/-! Wakes (R351). -/

/-- The bench whose translation a queue's packets use: the first of its agent die. -/
def queueBench (q : Queue) : Nat := agentDie q * Config.benchesPerDie

/-- One waiting request of a woken bench (R351, R352). -/
def wakeReq (s : State) (page : Nat) (status : BitVec 5) (r : Req) : State :=
  if r.fva.toNat / 4096 != page then s
  else match r.st with
    | .fault _ => if status == 0 then setReqSt s r.id .pending else fatalAccess s r r.fva status
    | .side _ => if status == 0 then setReqSt s r.id .sideReplay else fatalAccess s r r.fva status
    | .record i _ =>
      if status == 0 then setReqSt s r.id (.replay (some i))
      else if r.op == .fetch then setReqSt s r.id (.ended (some i) status)
      else fatalAccess s r r.fva status
    | .unrecorded _ 0 =>
      if r.op == .fetch then
        if status == 0 then refresh (onThread (dropReq s r.id) r.key fun t => { t with wait := .run }) r.key
        else setReqSt s r.id (.ended none status)
      else if status == 0 then setReqSt s r.id .pending
      else fatalAccess s r r.fva status
    | _ => s

/-- A thread of a woken bench whose volume walk waits for the page (R243). -/
def wakeThread (s : State) (page : Nat) (status : BitVec 5) (t : Thread) : State :=
  match t.walkFault with
  | some (p, _) => if p == page then setWalkFault s t.key (if status == 0 then none else some (page, status)) else s
  | none => s

/-- Commands of a woken bench (R217, R253). -/
def wakeCmd (page : Nat) (status : BitVec 5) (c : Cmd) : Cmd :=
  if c.faultPage == some page then { c with faultPage := none, wakeSt := if status == 0 then none else some (page, status) } else c

/-- The packet at `RIDX` has finished its part (R377). -/
def passPacket (q : Queue) : Queue :=
  { q with ridx := q.ridx + 1, pk := none, fes := [], clslot := 0xFF, depdec := 0, depst := 0, lprog := List.replicate 9 0 }

/-- The packet at `RIDX` completes (R377, R383). -/
def donePacket (s : State) (q : Queue) : State :=
  onQueue (leaveTurns s (some (.queue q.fn q.qid))) q.fn q.qid fun q => queueState { passPacket q with donepk := q.donepk + 1, doneAt := s.run.now }

def finishing : PkSt → Bool
  | .finishing _ => true
  | _ => false

/-- A front end whose packet waits for a page (R383, R384, R388); a packet whose token cannot be filled completes
without. -/
def wakeQueue (s : State) (page : Nat) (status : BitVec 5) (q : Queue) : State :=
  match q.pk with
  | none => s
  | some p => match p.fault with
    | none => s
    | some va =>
      if va / 4096 != page then s
      else
        let s1 := onQueue s q.fn q.qid fun q => { q with pk := q.pk.map fun p => { p with fault := none } }
        let reason : BitVec 8 := match p.st with
          | .unread => 0x04
          | .ctok | .finishing _ => 0x03
          | _ => 0x07
        if status == 0 then s1
        else dueFreeze (if finishing p.st then donePacket s1 q else s1) q.fn q.qid reason (BitVec.ofNat 64 va)

/-- A front end that cancels the packets of a frozen queue waits for a page (R388). -/
def wakeCancels (s : State) (page : Nat) (status : BitVec 5) (q : Queue) : State :=
  match q.cfault with
  | none => s
  | some va =>
    if va / 4096 != page then s
    else onQueue s q.fn q.qid fun q =>
      { q with cfault := none, cancels := if status == 0 then q.cancels else q.cancels.drop 1 }

/-- A launch whose token's page is waited for (R386, R388); a token that cannot be written freezes the queue. -/
def wakeLaunch (s : State) (page : Nat) (status : BitVec 5) (l : LaunchSlot) : State :=
  match l.fault with
  | none => s
  | some va =>
    if va / 4096 != page then s
    else
      let ls := s.queues.launches.map fun x =>
        if x.n == l.n then { x with fault := none, filled := x.filled || status != 0 } else x
      let s1 := { s with queues := { s.queues with launches := ls } }
      if status == 0 then s1 else dueFreeze (packetDone s1 l.fn l.qid) l.fn l.qid 0x03 (BitVec.ofNat 64 va)

/-- The inbound window accesses that a page stalls go on, or are refused (R314, R351); the I/O dies' translations use the fault
table of bench 0 (log 50). -/
def wakeInbound (s : State) (asid : BitVec 16) (page : Nat) (status : BitVec 5) : State :=
  let hit := fun (a : Accepted) => a.asid == asid && a.page == some page
  if status == 0 then
    { s with fw := { s.fw with inbound := s.fw.inbound.map fun a => if hit a then { a with page := none } else a } }
  else
    (s.fw.inbound.filter hit).foldl (fun s a => emit (leaveTurns s (some (.outside (.inboundLinkAccess a.x)))) .linkRefused)
      { s with fw := { s.fw with inbound := s.fw.inbound.filter fun a => !hit a } }

/-- One bench releases every requester that waits on the page (R351). -/
def wakeBench (s0 : State) (asid : BitVec 16) (page : Nat) (status : BitVec 5) (b : Nat) : State :=
  let s := if b == 0 then wakeInbound s0 asid page status else s0
  let s1 := onMmu s fun x => { x with bench := x.bench.filter fun e => !(e.bench == b && e.asid == asid && e.page == page) }
  let s2 := (s1.flight.reqs.filter fun r => r.bench == b && r.key.asid == asid).foldl (fun s r => wakeReq s page status r) s1
  let s3 := (s2.threads.filter fun t => t.bench == b && t.key.asid == asid).foldl (fun s t => wakeThread s page status t) s2
  let s4 := { s3 with eng := { s3.eng with
    cmds := s3.eng.cmds.map fun (c : Cmd) => if c.bench == b && c.key.asid == asid then wakeCmd page status c else c } }
  let qs := s4.queues.qs.filter fun q => queueBench q == b && q.asid == asid
  let ls := s4.queues.launches.filter fun l => qs.any fun q => q.fn == l.fn && q.qid == l.qid
  let s5 := qs.foldl (fun s q => wakeCancels (wakeQueue s page status q) page status q) s4
  ls.foldl (fun s l => wakeLaunch s page status l) s5

/-- The ports under a router's entry, and the entry cleared. -/
def takePorts (s : State) (r : Nat) (asid : BitVec 16) (page : Nat) : List Nat × State :=
  match routerFind s r asid page with
  | some e => (e.ports, onMmu s fun x => { x with router := x.router.filter (· != e) })
  | none => ([], s)

/-- Wakes the benches recorded under a die router's entry. -/
def wakeDie (s : State) (asid : BitVec 16) (page : Nat) (status : BitVec 5) (d : Nat) : State :=
  let x := takePorts s d asid page
  x.1.foldl (fun s b => wakeBench s asid page status b) x.2

/-- `WAKE` (R351): firmware answers a message that it holds, after the page-table stores it made for it; they wait for lines that
the host holds (R309). -/
def execWake (asid : BitVec 16) (page : Nat) (status : BitVec 5) (maps : List (Nat × Word)) (s : State) :
    Host.Outcome State Fault Refusal :=
  match s.mmu.inbox.find? fun m => m.asid == asid && m.page == page with
  | none => .next s
  | some m =>
    let asks := mapAsks s asid page maps
    let s1 := onMmu (mapPage s asid page maps) fun x => { x with inbox := x.inbox.erase m }
    if !asks.isEmpty then .next (snoopAll s asks)
    else match m.src with
    | some b => .next (wakeDie (wakeBench s1 asid page status b) asid page status (dieOf b))
    | none =>
      let x := takePorts s1 rootRouter asid page
      .next (x.1.foldl (fun s d => wakeDie s asid page status d) x.2)

/-! Replay (R352, R353). -/

/-- A fetch record ends: it clears and the count goes down; the thread fetches again, or takes the precise trap of its
status (R352, R354). -/
def endFetch (s : State) (r : Req) (i : Option (BitVec 2)) (status : BitVec 5) : State :=
  let s0 := onThread (dropReq s r.id) r.key fun t => { t with wait := if t.wait == .fetch then .run else t.wait }
  let s1 := match i with
    | some i => deliver s0 r.key (.clearRec i true)
    | none => refresh s0 r.key
  if status == 0 then s1
  else match findThread s1 r.key with
    | none => s1
    | some t => raise s1 r.key
        { cause := 0x20, detail := status.setWidth 8 ++ (0x01 : BitVec 8) ++ (0 : BitVec 8), tval := r.fva, resume := t.ctx.pc }

/-- A replay: the request is tried again, with a fresh walk. -/
def replayReq (s : State) (r : Req) : Sent :=
  let r1 := { r with st := .pending, pa := none }
  let s1 := putReq s r1
  match r.op with
  | .hold true => match findThread s r.key with
    | some _ => match resolve s1 r1 with
      | .ok s2 => .ok s2
      | .notHbm a => .notHbm a
    | none => .ok s1
  | .bar => resolve s1 r1
  | o => if isSync o then resolve s1 r1 else performReq s1 r1

/-- `RETRY_RECORD_REPLAY` (R31, R352): after the wake of its page. -/
def execRetryRecordReplay (k : Key) (i : BitVec 2) (s : State) : Host.Outcome State Fault Refusal :=
  let mine := fun (r : Req) => r.key == k && (r.st == .replay (some i) || match r.st with
    | .ended j _ => j == none || j == some i
    | _ => false)
  match s.flight.reqs.find? mine with
  | none => .next s
  | some r =>
    if !(findThread s k).all fun t => r.op != .fetch || !isMoving t then .next s
    else match r.op, r.st with
      | .fetch, .ended j st => .next (endFetch s r j st)
      | .fetch, _ => .next (endFetch s r (some i) 0)
      | _, _ => if canPerform s r then sentOut (replayReq s r) else .next s

/-- `SIDE_LOG_REPLAY` (R352, R353): after the wake of its page. -/
def execSideLogReplay (r : Nat) (s : State) : Host.Outcome State Fault Refusal :=
  match findReq s r with
  | some q => if q.st == .sideReplay && canPerform s q then sentOut (replayReq s q) else .next s
  | none => .next s

end Sys2Proof.Machine
end

