-- ==== Sys2Proof/Machine/Lines.lean ====
section
/-! DEFINITION. Context caching and the scheduler: pulls, evictions, transfers, the ready list, rebalancing, and the
configuration of issue units (R317 to R340, R397, R398). -/

namespace Sys2Proof.Machine
open Sys2Proof.Forms

/-! CL1 room (R320, R339). -/

/-- The line limit of an IU: none while `IUEN` is 0 (R339, R340). -/
def cl1Cap (x : Iu) : Nat := if iuEnabled x then cl1Limit x else 0

/-- Lines in a CL1 or on their way into it. -/
def inCl1Of (t : Thread) (b u : Nat) : Bool :=
  match t.loc with
  | .placed (.cl1 v) => t.bench == b && v == u
  | .moving (.cl1 v) c => c == b && v == u
  | _ => false

def cl1Lines (s : State) (b u : Nat) : List Thread := s.threads.filter fun t => inCl1Of t b u

/-- The lowest CL1 slot that no line takes. -/
def freeSlot (s : State) (b u : Nat) : Nat :=
  ((List.range 64).find? fun i => !((cl1Lines s b u).any fun t => t.slot == i)).getD 0

/-- The lines of a CL1 that may be evicted: not held, not on their way (R319). -/
def evictable (s : State) (b u : Nat) : List Thread :=
  s.threads.filter fun t => t.bench == b && t.loc == .placed (.cl1 u) && !t.ctx.hact

/-- The parked victim of a CL1: the one issued least recently, one that `H.LH` marks only when no other is left
(R320). -/
def parkedVictim (s : State) (b u : Nat) : Option Thread :=
  let l := (evictable s b u).filter (parkedClass s)
  match leastBy (·.lastIssue) (l.filter fun t => !t.lh) with
  | some t => some t
  | none => leastBy (·.lastIssue) l

/-- The ready victim: the one issued least recently (R320, R330, R340). -/
def readyVictim (s : State) (b u : Nat) : Option Thread :=
  leastBy (·.lastIssue) ((evictable s b u).filter fun t => !parkedClass s t)

/-- An eviction from a CL1 begins, and is counted (R45, R320). -/
def evict (s : State) (t : Thread) : State :=
  onThread (startMove (count s t.bench (iuAt t) 3) t.key .cl2 t.bench) t.key fun t => { t with marked := false }

/-! The ready list (R326 to R328). -/

/-- The lines on a bench's list that may be pulled: a suspended space's lines stay (R341). -/
def listedAt (s : State) (b : Nat) : List Thread :=
  s.threads.filter fun t => t.bench == b && t.ready.isSome && !isMoving t && !inCl1 t && !suspended s t.key.asid

/-- The level of an entry: one more for every 65,536 cycles on the list, up to 15 (R327). -/
def levelNow (now : Nat) (r : ReadyEnt) : Nat := min 15 (r.level + (now - r.since) / 65536)

/-- Whether an entry has been at level 15 for 65,536 cycles (R330). -/
def lateEntry (now : Nat) (r : ReadyEnt) : Bool := decide (r.since + (16 - r.level) * 65536 ≤ now)

/-- The head of the list: the highest level, then the order of joining (R327). -/
def listHead (s : State) (b : Nat) : Option Thread :=
  leastBy (fun t => match t.ready with
    | some r => (15 - levelNow s.run.now r) * 2 ^ 64 + r.join
    | none => 0) (listedAt s b)

/-- Whether an IU can take a line under rule 1 of R320 (R328, R398). -/
def canPull (s : State) (b u : Nat) : Bool :=
  let x := getIu s b u
  iuEnabled x && iuRuns s b u && decide ((cl1Lines s b u).length ≤ cl1Cap x) &&
    (decide ((cl1Lines s b u).length < cl1Cap x) || (parkedVictim s b u).isSome)

/-- Brings a line into a CL1, and counts it: its list entry is gone, its slot is fixed (R45, R327, R328). -/
def bringIn (s0 : State) (t : Thread) (b u : Nat) : State :=
  let s := count s0 b u 2
  let s1 := if inCl2 t b then s else cl2Room s b
  let i := freeSlot s1 b u
  onThread (startMove s1 t.key (.cl1 u) b) t.key fun t => { t with ready := none, slot := i }

/-- `LINE_PULL` (R320, R328, R340): the lowest-numbered IU that can pull takes the head; an IU over its limit evicts
instead. -/
def execLinePull (b u : Nat) (s : State) : Host.Outcome State Fault Refusal :=
  let x := getIu s b u
  let full := decide (cl1Cap x < (cl1Lines s b u).length)
  if full then
    if x.halted || !running s then .next s
    else match parkedVictim s b u with
      | some v => .next (evict s v)
      | none => match readyVictim s b u with
        | some v => .next (evict s v)
        | none => .next s
  else if !canPull s b u || (List.range u).any (canPull s b) then .next s
  else match listHead s b with
    | none => .next s
    | some t =>
      let s1 := if (cl1Lines s b u).length < cl1Cap x then s
        else match parkedVictim s b u with
          | some v => evict s v
          | none => s
      .next (bringIn s1 t b u)

/-- A line that lands in the LLC after its partition has shrunk goes on to HBM (R296). -/
def leavePart (s : State) (k : Key) : State :=
  match findThread s k with
  | some t => if t.loc == .placed .llc && decide (llcCapacity s < partUsed s (slotSlice s t)) then startMove s k .hbm t.bench else s
  | none => s

/-- `LINE_TRANSFER_ARRIVAL` (R323, R341): the line lands and the waiting updates are applied in order, before anything
else. -/
def execLineTransferArrival (k : Key) (s : State) : Host.Outcome State Fault Refusal :=
  match findThread s k with
  | none => .next s
  | some t => match t.loc with
    | .placed _ => .next s
    | .moving p b =>
      let t1 := { t with
        loc := .placed p, bench := b, inbox := [], wait := if t.wait == .transit then .run else t.wait }
      .next (leavePart (settle (setThread s (t.inbox.foldl applyUpd t1)) k) k)

/-- `READY_LIST_AGEING` (R327): the entry is brought to its level. -/
def execReadyListAgeing (k : Key) (s : State) : Host.Outcome State Fault Refusal :=
  match findThread s k with
  | none => .next s
  | some t => match t.ready with
    | none => .next s
    | some r =>
      if r.level < 15 && decide (r.since + 65536 ≤ s.run.now) then
        .next (setThread s { t with ready := some { r with level := r.level + 1, since := r.since + 65536 } })
      else .next s

/-- Whether a line has been at level 15 of a bench's list for 65,536 cycles (R330). -/
def lateLine (s : State) (b : Nat) : Bool := (listedAt s b).any fun t => (t.ready.map (lateEntry s.run.now)).getD false

/-- `READY_LIST_SWAP` (R330). -/
def execReadyListSwap (b : Nat) (s : State) : Host.Outcome State Fault Refusal :=
  match listHead s b with
  | none => .next s
  | some t =>
    let spaced := match s.cache.swaps.find? fun x => x.1 == b with
      | some x => decide (x.2 + 256 ≤ s.run.now)
      | none => true
    if !lateLine s b || !spaced || (List.range Config.iusPerBench).any (canPull s b) then .next s
    else
      let victims := ((List.range Config.iusPerBench).filter fun u => iuEnabled (getIu s b u) && iuRuns s b u).filterMap
        fun u => (readyVictim s b u).map fun v => (u, v)
      match leastBy (fun x => x.2.lastIssue) victims with
      | none => .next s
      | some (u, v) =>
        let s1 := bringIn (evict s v) t b u
        .next { s1 with cache := { s1.cache with swaps := upsert (fun x => x.1 == b) (b, s1.run.now) s1.cache.swaps } }

/-- Whether leaving a bench, a release at device scope, need not wait: the thread's stores are performed, those of its side log
included (R282, R289, R338). -/
def leavesFree (s : State) (k : Key) : Bool := storesDone s k .dev

/-- A line goes to another bench (R282, R323, R327, R338): it joins its list anew, and reads what is current there. -/
def rehome (s : State) (k : Key) (b : Nat) : State :=
  onThread (startMove (cl2Room (dropStale s) b) k .cl2 b) k fun t => { t with ready := none, lastIu := none, marked := false }

/-- `FIRMWARE_REBALANCE` (R338): a parked or listed line that is not held goes to another bench, and joins its list anew (R327). -/
def execFirmwareRebalance (k : Key) (b : Nat) (s : State) : Host.Outcome State Fault Refusal :=
  match findThread s k with
  | none => .next s
  | some t =>
    let may := (parkedClass s t || t.ready.isSome) && !t.ctx.hact && !isMoving t && leavesFree s k && t.bench != b &&
      decide (b < Config.benches) && accepts s b
    .next (if may then rehome s k b else s)

/-! Configuration of issue units (R6, R339, R340, R397, R398). -/

/-- Lines that no longer fit are evicted: parked ones first, then ready ones (R340). -/
def shrinkCl1 (b u : Nat) : Nat → State → State
  | 0, s => s
  | n + 1, s =>
    if (cl1Lines s b u).length ≤ cl1Cap (getIu s b u) then s
    else match parkedVictim s b u with
      | some v => shrinkCl1 b u n (evict s v)
      | none => match readyVictim s b u with
        | some v => shrinkCl1 b u n (evict s v)
        | none => s

/-- An IU that is switched off may be gated, which empties its TLBs (R347). -/
def dropIuTlbs (s : State) (b u : Nat) : State :=
  { s with mmu := { s.mmu with tlb := s.mmu.tlb.filter fun e => e.loc != .data b u && e.loc != .instr b u } }

/-- `IUCFG_WRITE` (R339, R340): reserved bits stay 0; a halted IU evicts later (R398). -/
def execIucfgWrite (b u : Nat) (v : Word) (s : State) : Host.Outcome State Fault Refusal :=
  let s0 := onIu s b u fun x => { x with cfg := v &&& 0x8F0000FF }
  let s1 := if v.getLsbD 7 then s0 else dropIuTlbs s0 b u
  .next (if (getIu s1 b u).halted then s1 else shrinkCl1 b u (cl1Lines s1 b u).length s1)

/-- An IU goes on after a halt: marked lines still in its CL1 lose `DHALT` (R398). -/
def unhaltIu (s : State) (b u : Nat) : State :=
  let ks := (s.threads.filter fun t => t.bench == b && t.loc == .placed (.cl1 u) && t.marked).map (·.key)
  let s1 := ks.foldl (fun s k => refresh (onThread s k fun t =>
    { t with ctx := { t.ctx with dhalt := false }, marked := false }) k) s
  onIu s1 b u fun x => { x with halted := false, haltDue := none }

/-- The release of a set (R398). -/
def releaseSet (s : State) (n : BitVec 6) : State :=
  if !(getSet s n).halted then s
  else
    let s1 := putSet s { getSet s n with halted := false }
    ((s1.ius.filter fun x => setOfIu x == some n).map fun x => (x.bench, x.iu)).foldl (fun s x => unhaltIu s x.1 x.2) s1

/-- A firmware request halts a set; it has no triggering IU, so those fields are free (R397, log 2). -/
def requestHalt (s : State) (n : BitVec 6) : State :=
  let x := takeFree s
  triggerSet x.2 n 4 (x.1.setWidth 10).toNat (x.1.extractLsb' 10 8).toNat none

/-- `SET_HALT_REQUEST` (R397, R398). -/
def execSetHaltRequest (set : BitVec 6) (s : State) : Host.Outcome State Fault Refusal := .next (requestHalt s set)

/-- `SET_RELEASE` (R398). -/
def execSetRelease (set : BitVec 6) (s : State) : Host.Outcome State Fault Refusal := .next (releaseSet s set)

/-- A range of frames becomes firmware-reserved, or no longer is (R348). -/
def reserve (s : State) (first frames : Nat) (on : Bool) : State :=
  let rest := s.mmu.reserved.filter fun r => r != (first, frames)
  { s with mmu := { s.mmu with reserved := if on then rest ++ [(first, frames)] else rest } }

/-- `REGISTER_WRITE` (R6, R44, R45, R311, R348, R397): `IUDBG`, `SETCTL`, the AtomicOp Requester Enable and the reserved ranges by
firmware; read-only registers keep their value. -/
def execRegisterWrite (r : RegName) (v : Word) (s : State) : Host.Outcome State Fault Refusal :=
  match r with
  | .iudbg b u =>
    let was := setOfIu (getIu s b u)
    let s1 := onIu s b u fun x => { x with dbg := v &&& 0xBF }
    .next (if ((getIu s1 b u).halted || (getIu s1 b u).haltDue.isSome) && setOfIu (getIu s1 b u) != was then unhaltIu s1 b u else s1)
  | .setctl n =>
    let s1 := putSet s { getSet s n with frzh := v.getLsbD 2, steph := v.getLsbD 1, brkh := v.getLsbD 0 }
    let s2 := if v.getLsbD 63 then releaseSet s1 n else s1
    .next (if v.getLsbD 3 then requestHalt s2 n else s2)
  | .atomicRequester => .next { s with fw := { s.fw with atomicEnable := v.getLsbD 0 } }
  | .reserved first frames => .next (reserve s first frames (v.getLsbD 0))
  | .perf .. | .cycle .. => .next s

end Sys2Proof.Machine
end

