-- ==== Sys2Proof/Machine/Matrix.lean ====
section
/-! DEFINITION. Matrix engines: their commands, banks, turns and state (R212 to R224, R360 to R368). -/

namespace Sys2Proof.Machine
open Sys2Proof.Forms

/-! Tile references (R213, R216). -/

def refRow (v : Word) : Nat := (v.extractLsb' 32 16).toNat

def refAux (v : Word) : Nat := (v.extractLsb' 48 16).toNat

/-- What a role asks of a reference (R216). -/
structure Role216 where
  field : BitVec 8
  v : Word
  auxZero : Bool
  fmtOk : BitVec 8 → Bool
  cols : Option Nat
  rowsOk : Nat → Bool
  colsOk : Nat → Bool := fun _ => true

/-- The first failing condition of a reference, in the order of R216. -/
def roleFails (x : Space) (r : Role216) : Option (BitVec 8) :=
  match validHandle x (r.v.setWidth 32) with
  | none => some 0x01
  | some h =>
    if r.auxZero && refAux r.v != 0 then some 0x08
    else if !r.fmtOk h.fmt then some 0x05
    else if (r.cols.map fun n => h.cols.toNat != n).getD false then some 0x03
    else if !r.rowsOk h.rows.toNat then some 0x06
    else if !r.colsOk h.cols.toNat then some 0x07
    else none

def isTyFmt (t : Ty) (f : BitVec 8) : Bool := f == (tyCode t).setWidth 8

def isSbfFmt (f : BitVec 8) : Bool := decide (0x11 ≤ f.toNat) && decide (f.toNat ≤ 0x14)

/-- Rows `ROW0` to `ROW0` + n - 1 lie in the tile, and the count is one that R213 allows; the table of R216 bounds it only for an
`MMA` activation, so the reason for a larger one of `MACC` or `MCVT` is the model's choice (log 92). -/
def rowsIn (v : Word) (n rows : Nat) : Bool := decide (refRow v + n ≤ rows) && decide (n ≤ 4096)

/-- The references of a matrix command and their roles, in the order A, B, C (R214, R216). -/
def rolesOf (k : CmdKind) (ty : Ty) (a b c : Word) : List Role216 :=
  let n := refAux a
  match k with
  | .mldw => [⟨2, a, true, isTyFmt ty, some 128, fun r => decide (refRow a < r), fun _ => true⟩]
  | .mma =>
    [⟨2, a, false, isTyFmt ty, some 128, rowsIn a n, fun _ => true⟩,
     ⟨3, b, false, (· == 0x20), some 16, rowsIn b n, fun _ => true⟩,
     ⟨4, c, true, isSbfFmt, some 128, fun r => decide (refRow c < r), fun _ => true⟩]
  | .macc =>
    [⟨2, a, false, (· == 0x20), some 16, rowsIn a n, fun _ => true⟩,
     ⟨3, b, false, isTyFmt ty, none, rowsIn b n,
      fun w => (List.range 16).all fun i => !c.getLsbD i || decide (refAux b + i < w)⟩]
  | .mcvt =>
    [⟨2, a, false, fun f => decide (0x0D ≤ f.toNat) && decide (f.toNat ≤ 0x10), none, rowsIn a n,
      fun w => decide ((c.setWidth 16).toNat < w)⟩,
     ⟨3, b, true, isTyFmt ty, some 128, rowsIn b n, fun _ => true⟩]
  | _ => []

/-- The first reference that fails, with its reason. -/
def rolesFail (x : Space) (l : List Role216) : Option (Role216 × BitVec 8) :=
  match l with
  | [] => none
  | r :: l => match roleFails x r with
    | some e => some (r, e)
    | none => rolesFail x l

/-- The checks of a matrix command at issue (R214, R216). -/
def matrixCheck (k : CmdKind) (ty : Ty) (s : State) (t : Thread) (a b c : Word) : Option Did :=
  match findSpace s t.key.asid with
  | none => none
  | some x => (rolesFail x (rolesOf k ty a b c)).map fun r => tileBound r.2 r.1.field r.1.v

/-- `MLDW` (R212, R214). -/
def execMldw (h : Hdr) (x : Mtx) (s : State) : Host.Outcome State Fault Refusal :=
  engineIssue s (.mldw h x) h [(1, x.d, false), (2, x.a, false)] x.d x.a .zero .zero (matrixCheck .mldw x.ty)

/-- `MMA` (R212, R214). -/
def execMma (h : Hdr) (x : Mtx) (s : State) : Host.Outcome State Fault Refusal :=
  engineIssue s (.mma h x) h [(1, x.d, false), (2, x.a, false), (3, x.b, false), (4, x.c, false)] x.d x.a x.b x.c
    (matrixCheck .mma x.ty)

/-- `MACC` (R212, R214). -/
def execMacc (h : Hdr) (rm : Option RMode) (x : Mtx) (s : State) : Host.Outcome State Fault Refusal :=
  engineIssue s (.macc h rm x) h [(1, x.d, false), (2, x.a, false), (3, x.b, false), (4, x.c, false)] x.d x.a x.b x.c
    (matrixCheck .macc x.ty)

/-- `MCVT` (R212, R214). -/
def execMcvt (h : Hdr) (x : Mtx) (s : State) : Host.Outcome State Fault Refusal :=
  engineIssue s (.mcvt h x) h [(1, x.d, false), (2, x.a, false), (3, x.b, false), (4, x.c, false)] x.d x.a x.b x.c
    (matrixCheck .mcvt x.ty)

/-! Turns (R367, R368). -/

/-- Whether an earlier command of the IU's queue has still to publish the tile that an `MLDW` loads (R284). -/
def unpublished (s : State) (c : Cmd) : Bool :=
  (((getIu s c.bench c.iu).queue.filterMap (findCmd s)).takeWhile fun x => x.id != c.id).any fun x =>
    x.key.asid == c.key.asid && outOf x == some (refIdx c.a)

/-- Whether the command at the head of the turn may start (R218, R284, R368). -/
def canStart (s : State) (m : Mat) (c : Cmd) : Bool :=
  match c.kind with
  | .mldw => m.loading.isNone && !unpublished s c
  | .mma => m.compute.isNone && !((m.loading.bind (findCmd s)).map fun l => l.bank == c.bank).getD false
  | _ => m.compute.isNone

/-- Plane-steps counted in windows of 65,536 cycles (R224). -/
def matTick (now : Nat) (m : Mat) : Mat :=
  let w := now / 65536
  if m.window < w then
    { m with rate := if w == m.window + 1 then m.inWindow else 0, inWindow := 0, window := w }
  else m

/-! Starting (R215, R217). -/

/-- Frames of a binding moved to another home (R215). -/
def migrateFrames (b u : Nat) (asid : BitVec 16) (idx : Nat) (s : State) : List Nat → State
  | [] => s
  | j :: l => match takeFrame s b u with
    | some (s1, n) => migrateFrames b u asid idx (onHandle s1 asid idx fun h => setFrame h j n) l
    | none => migrateFrames b u asid idx s l

/-- Migrates a tile to the issuing IU when its home is not in the engine's group; none while it is `BUSY` (R215). -/
def migrate (s : State) (c : Cmd) (idx : Nat) : Option State :=
  match findSpace s c.key.asid with
  | none => some s
  | some x =>
    let h := getHandle x idx
    if h.hbench.toNat == c.bench && groupOf h.hiu.toNat == groupOf c.iu then some s
    else if h.busy then none
    else
      let js := (List.range h.nfr.toNat).filter (resident h)
      let s1 := onHandle s c.key.asid idx fun h =>
        { h with hbench := BitVec.ofNat 10 c.bench, hiu := BitVec.ofNat 8 c.iu, pin := 0, frames := BitVec.allOnes 40 }
      let s2 := count (migrateFrames c.bench c.iu c.key.asid idx s1 js) c.bench c.iu 13
      let m := getMat s2 c.bench (groupOf c.iu)
      some (putMat s2 { m with migr := m.migr + 1 })

def migrateAll (s : State) (c : Cmd) : List Nat → Option State
  | [] => some s
  | i :: l => (migrate s c i).bind fun s1 => migrateAll s1 c l

/-- The tiles a command names, each once. -/
def tilesOf (c : Cmd) : List Nat := ((rolesOf c.kind c.ty c.a c.b c.c).map fun r => refIdx r.v).eraseDups

/-- Makes every frame of a command's tiles resident (R201). -/
def loadTiles (s : State) (c : Cmd) : List Nat → Refill
  | [] => .ok s
  | i :: l =>
    match refillFrames s c.bench c.key.asid i
        (List.range (((findSpace s c.key.asid).map fun x => (getHandle x i).nfr.toNat).getD 0)) with
    | .ok s1 => loadTiles s1 c l
    | r => r

/-! Computing (R219 to R222). -/

/-- Bytes of a row of a tile. -/
def tileRow (s : State) (asid : BitVec 16) (h : Handle) (r : Nat) : List Byte :=
  let n := fmtRowBytes h.fmt h.cols.toNat
  readTile s asid h.idx (r * n) n

def fmtTy (f : BitVec 8) : Ty := (tyOf (f.setWidth 5)).getD .b64

def blockRow (s : State) (asid : BitVec 16) (h : Handle) (r : Nat) : Block := blockOf (fmtTy h.fmt) (tileRow s asid h r)

/-- A block of 128 zero elements (R219). -/
def zeroBlock (t : Ty) : Block := { hdr := sbfCode t * 2 ^ 40, planes := List.replicate (2 + sbfM t) 0 }

/-- The sixteen columns of a bank, with whether every header read is valid (R219). -/
def bankCols (s : State) (asid : BitVec 16) (h : Handle) (row0 : Nat) : List Block × Bool :=
  let bs := (List.range 16).map fun n =>
    if row0 + n < h.rows.toNat then (blockRow s asid h (row0 + n), true) else (zeroBlock (fmtTy h.fmt), false)
  (bs.map (·.1), bs.all fun b => !b.2 || blkOk (fmtTy h.fmt) b.1)

/-- Loads a bank without a tag (R219). -/
def loadBank (s : State) (c : Cmd) (h : Handle) (row0 : Nat) (b : Bool) : State × Bool :=
  let x := bankCols s c.key.asid h row0
  let m := getMat s c.bench (groupOf c.iu)
  (putMat s (setBank m b { tag := none, fmt := fmtTy h.fmt, cols := x.1.map bytesOfBlock }), x.2)

def tagOf (asid : BitVec 16) (h : Handle) (row0 : Nat) : Tag := { asid := asid, idx := h.idx, gen := h.gen, row0 := row0 }

/-- A list of bytes with some replaced from an offset. -/
def setBytes (l : List Byte) (off : Nat) (bs : List Byte) : List Byte := l.take off ++ bs ++ l.drop (off + bs.length)

/-- One row of accumulators after a row of activations (R220). -/
def mmaRow (init : Bool) (p mw : Nat) (mask : Nat) (cols : List Block) (act : Block) (old : List Byte) : List Byte :=
  (cols.zipIdx).flatMap fun x =>
    let bytes := (old.drop (16 * x.2)).take 16
    if mask.testBit x.2 then
      let a := if init then {} else accOf (BitVec.ofNat 128 (natOfBytes bytes))
      bytesOfNat 16 (accVec (accAdd a (blockSum p act mw x.1))).toNat
    else bytes

/-- What a computation gives: the new bytes of the output tile, flags and status. -/
structure Computed where
  shadow : List Byte := []
  fl : Fl := 0
  status : BitVec 16 := 0
  deriving DecidableEq, Repr

def readAll (s : State) (asid : BitVec 16) (h : Handle) : List Byte := readTile s asid h.idx 0 (tileSize h)

/-- `MMA` (R220) with the columns of its bank. -/
def computeMma (s : State) (c : Cmd) (ha hb : Handle) (fmt : Ty) (cols : List Block) : Computed :=
  let n := refAux c.a
  let acts := (List.range n).map fun r => blockRow s c.key.asid ha (refRow c.a + r)
  let old := readAll s c.key.asid hb
  let base := refRow c.b * 256
  let rows := acts.zipIdx.flatMap fun x =>
    mmaRow c.init c.np.toNat (sbfM fmt) (refAux c.b) cols x.1 ((old.drop (base + 256 * x.2)).take 256)
  if acts.all (blkOk c.ty) then { shadow := setBytes old base rows } else { status := 5 }

/-- `MACC` (R221). -/
def computeMacc (s : State) (c : Cmd) (ha hb : Handle) : Computed :=
  let e := bytes c.ty
  let rb := fmtRowBytes hb.fmt hb.cols.toNat
  let one := fun (acc : List Byte × Fl) (rk : Nat × Nat) =>
    if c.c.getLsbD rk.2 then
      let src := accOf (BitVec.ofNat 128 (natOfBytes (readTile s c.key.asid ha.idx ((refRow c.a + rk.1) * 256 + 16 * rk.2) 16)))
      let v := accConv c.ty (modeOf c.mode) src
      (setBytes acc.1 ((refRow c.b + rk.1) * rb + (refAux c.b + rk.2) * e) (bytesOfNat e v.1), acc.2 ||| v.2)
    else acc
  let r := ((List.range (refAux c.a)).flatMap fun r => (List.range 16).map fun k => (r, k)).foldl one
    (readAll s c.key.asid hb, 0)
  { shadow := r.1, fl := r.2 }

/-- Elements of a row from a column on, completed with +0 (R114, R222). -/
def rowVals (t : Ty) (row : List Byte) (cols k0 : Nat) : List (Option SVal) :=
  let e := bytes t
  (List.range 128).map fun i =>
    if k0 + i < cols then svalOf t (natOfBytes ((row.drop ((k0 + i) * e)).take e)) else some { neg := false }

/-- `MCVT` (R222). -/
def computeMcvt (s : State) (c : Cmd) (ha hb : Handle) : Computed :=
  let k0 := (c.c.setWidth 16).toNat
  let rb := fmtRowBytes hb.fmt hb.cols.toNat
  let one := fun (acc : List Byte × Fl) (r : Nat) =>
    let x := toBlock c.ty c.np.toNat (rowVals (fmtTy ha.fmt) (tileRow s c.key.asid ha (refRow c.a + r)) ha.cols.toNat k0)
    (setBytes acc.1 ((refRow c.b + r) * rb) (bytesOfBlock x.1), acc.2 ||| x.2)
  let r := (List.range (refAux c.a)).foldl one (readAll s c.key.asid hb, 0)
  { shadow := r.1, fl := r.2 }

/-! One command, step by step (R215, R217, R219 to R222, R361, R367, R368; log 89). -/

/-- The outcome of a command's loading: what a fault of a tile's backing makes of it (R217, R219). -/
def loadedThen (s : State) (c : Cmd) (r : Refill) (spoil : State → State) (f : State → Host.Outcome State Fault Refusal) :
    Host.Outcome State Fault Refusal :=
  match r with
  | .ok s1 => f s1
  | .notHbm a => .fault (.notHbm a)
  | .busy s1 => .next s1
  | .wait s1 va =>
    let page := va.toNat / 4096
    if (c.wakeSt.map (·.1)) == some page then .next (putCmd (spoil s) { c with status := 2, count := page % 2 ^ 45 })
    else .next (putCmd (noteFault s1 c.bench c.key.asid page { r := true }) { c with faultPage := some page })
  | .bad va st =>
    .next (putCmd (spoil s) { c with status := if st == stMemerr then 3 else 2, count := va.toNat / 4096 % 2 ^ 45 })

/-- A result stands in shadow frames and its tile is `BUSY`; or the command ends with a status (R217). -/
def shadowed (s : State) (c : Cmd) (out : Handle) (r : Computed) (steps : Nat) : State :=
  if r.status == 0 then
    putCmd (onHandle s c.key.asid out.idx fun h => { h with busy := true })
      { c with out := some out.idx, shadow := r.shadow, flags := r.fl, count := refAux c.a, ran := true, todo := steps }
  else putCmd s { c with status := r.status }

/-- The reading of the activations and accumulators of an `MMA` whose bank is loaded (R220). -/
def runMma (s : State) (c : Cmd) (x : Space) : Host.Outcome State Fault Refusal :=
  let ha := getHandle x (refIdx c.a)
  let hb := getHandle x (refIdx c.b)
  loadedThen s c (loadTiles s c [ha.idx, hb.idx]) id fun s1 =>
    let bank := getBank (getMat s1 c.bench (groupOf c.iu)) c.bank
    .next (shadowed s1 c hb (computeMma s1 c ha hb bank.fmt (bank.cols.map (blockOf bank.fmt))) (refAux c.a * (c.np.toNat + 1)))

/-- `MMA` (R219, R220): the bank is loaded when its tag does not match; a load that fails leaves the empty tag. -/
def loadMma (s : State) (c : Cmd) (x : Space) : Host.Outcome State Fault Refusal :=
  let hc := getHandle x (refIdx c.c)
  let tag := tagOf c.key.asid hc (refRow c.c)
  if (getBank (getMat s c.bench (groupOf c.iu)) c.bank).tag == some tag then runMma s c x
  else loadedThen s c (loadTiles s c [hc.idx]) (fun s => setTag s c c.bank none) fun s1 =>
    let r := loadBank s1 c hc (refRow c.c) c.bank
    if r.2 then runMma (setTag r.1 c c.bank (some tag)) c x else .next (putCmd r.1 { c with status := 5 })

/-- `MLDW` (R219). -/
def loadMldw (s : State) (c : Cmd) (x : Space) : Host.Outcome State Fault Refusal :=
  let ha := getHandle x (refIdx c.a)
  loadedThen s c (loadTiles s c [ha.idx]) (fun s => spoilBank s c) fun s1 =>
    let r := loadBank s1 c ha (refRow c.a) c.bank
    .next (putCmd r.1 (if r.2 then { c with count := 16, gen := ha.gen, ran := true } else { c with status := 5 }))

/-- `MACC` and `MCVT` (R221, R222). -/
def loadConvert (s : State) (c : Cmd) (x : Space) : Host.Outcome State Fault Refusal :=
  let ha := getHandle x (refIdx c.a)
  let hb := getHandle x (refIdx c.b)
  loadedThen s c (loadTiles s c [ha.idx, hb.idx]) id fun s1 =>
    .next (shadowed s1 c hb (if c.kind == .macc then computeMacc s1 c ha hb else computeMcvt s1 c ha hb) 0)

/-- Whether an `MMA` still streams through the bank that an `MLDW` is to load (R219). -/
def bankBusy (s : State) (c : Cmd) : Bool :=
  c.kind == .mldw && (((getMat s c.bench (groupOf c.iu)).compute.bind (findCmd s)).map fun m =>
    m.kind == .mma && m.bank == c.bank && m.status == 0 && !(m.ran && m.todo == 0)).getD false

/-- The work of a started command up to its result (R40, R215, R217): the token's translation, the checks again, the migration of its
tiles, then its reads; a row count of 0 ends it at once. -/
def loadMatrix (s : State) (c : Cmd) : Host.Outcome State Fault Refusal :=
  match findSpace s c.key.asid, tokenAt s c with
  | none, _ => .next s
  | _, .notHbm a => .fault (.notHbm a)
  | _, .wait s1 => .next s1
  | _, .bad st => .next (tokenFault s c st)
  | some x, .ok s1 _ =>
    if (rolesFail x (rolesOf c.kind c.ty c.a c.b c.c)).isSome then .next (putCmd (spoilBank s1 c) { c with status := 5 })
    else if c.kind != .mldw && refAux c.a == 0 then .next (putCmd s1 { c with ran := true })
    else match migrateAll s1 c (tilesOf c) with
      | none => .next s1
      | some s2 =>
        if isBusy s2 c || bankBusy s2 c then .next s2
        else match findSpace s2 c.key.asid, c.kind with
          | some x2, .mldw => loadMldw s2 c x2
          | some x2, .mma => loadMma s2 c x2
          | some x2, _ => loadConvert s2 c x2
          | none, _ => .next s2

/-- A command starts on its engine, as one of its queue's turn (R224, R367, R368). -/
def beginMatrix (s : State) (c : Cmd) : State :=
  let m := getMat s c.bench (groupOf c.iu)
  let m1 := { m with turnLeft := m.turnLeft - 1, gated := false, since := m.since.orElse fun _ => some s.run.now }
  let m2 := if c.kind == .mldw then { m1 with loading := some c.id } else { m1 with compute := some c.id }
  settleTurn (putCmd (putMat s m2) { c with st := .started, began := s.run.now }) c.bench (groupOf c.iu)

/-- Some of the plane-steps that are left, a free number but at least one (R361, R362). -/
def planeSteps (s : State) (c : Cmd) : State :=
  let k := c.todo - Config.freePick s.run.fresh % c.todo
  let m := matTick s.run.now (getMat s c.bench (groupOf c.iu))
  putCmd (putMat { s with run := { s.run with fresh := s.run.fresh + 1 } }
    { m with steps := m.steps + BitVec.ofNat 64 k, inWindow := m.inWindow + BitVec.ofNat 64 k }) { c with todo := c.todo - k }

/-- New frames for a published tile (R217). -/
def shadowFrames (asid : BitVec 16) (idx : Nat) (s : State) : List Nat → State
  | [] => s
  | j :: l =>
    let h := ((findSpace s asid).map fun x => getHandle x idx).getD { idx := idx }
    match takeFrame s h.hbench.toNat h.hiu.toNat with
    | some (s1, n) => shadowFrames asid idx (onHandle s1 asid idx fun h => setFrame h j n) l
    | none => shadowFrames asid idx s l

/-- Publishes a tile: new content and frames, `GEN` + 1, not `BUSY`, in one update (R37, R217); none when the handle
was freed. -/
def publishTile (s : State) (c : Cmd) : Option State :=
  match c.out, findSpace s c.key.asid with
  | some i, some x =>
    if !(getHandle x i).v then none
    else
      let s1 := shadowFrames c.key.asid i (writeTile s c.key.asid i 0 c.shadow) (List.range (getHandle x i).nfr.toNat)
      some (onHandle s1 c.key.asid i fun h => { h with gen := h.gen + 1, busy := false, lost := 0 })
  | _, _ => some s

/-- The end of a started matrix command: its publish and its token, in queue order (R217, R218, R219). -/
def finishMatrix (s : State) (c : Cmd) : Host.Outcome State Fault Refusal :=
  let first := ((getIu s c.bench c.iu).queue.filterMap (findCmd s)).find? fun x => isMatrix x.kind
  if (first.map (·.id)) != some c.id then .next s
  else
    let det := if c.status == 0 then doneDet c.flags c.count else if c.status == 2 then BitVec.ofNat 48 c.count else 0
    fillToken s c c.status det fun s =>
      if c.kind == .mldw then
        some (setTag s c c.bank (some { asid := c.key.asid, idx := refIdx c.a, gen := c.gen, row0 := refRow c.a }))
      else publishTile s c

/-- One step of a matrix command: its start when it has the turn, its loading, its plane-steps, or its end. -/
def matrixExecute (s : State) (id : Nat) (kind : CmdKind) : Host.Outcome State Fault Refusal :=
  match findCmd s id with
  | none => .next s
  | some c =>
    if c.kind != kind || !cmdReady s c || (s.pkg.mode == .memory && c.status != 1) then .next s
    else match c.st with
      | .started =>
        if c.status != 0 || (c.ran && c.todo == 0) then finishMatrix s c
        else if c.ran then .next (planeSteps s c)
        else loadMatrix s c
      | .queued =>
        let s1 := settleTurn s c.bench (groupOf c.iu)
        let m := getMat s1 c.bench (groupOf c.iu)
        if m.turnLeft != 0 && (headCmd s1 c.bench (8 * m.group + m.turn)).map (·.id) == some c.id && canStart s1 m c then
          loadMatrix (beginMatrix s1 c) { c with st := .started, began := s1.run.now }
        else .next s1

/-- `MLDW_EXECUTE` (R219). -/
def execMldwExecute (c : Nat) (s : State) : Host.Outcome State Fault Refusal := matrixExecute s c .mldw
/-- `MMA_EXECUTE` (R220). -/
def execMmaExecute (c : Nat) (s : State) : Host.Outcome State Fault Refusal := matrixExecute s c .mma
/-- `MACC_EXECUTE` (R221). -/
def execMaccExecute (c : Nat) (s : State) : Host.Outcome State Fault Refusal := matrixExecute s c .macc
/-- `MCVT_EXECUTE` (R222). -/
def execMcvtExecute (c : Nat) (s : State) : Host.Outcome State Fault Refusal := matrixExecute s c .mcvt

/-! State of an engine (R224). -/

/-- A bank's tag as `MQRY` shows it (R224); an empty one reads all 0, which the spec leaves open (log 93). -/
def bankWord (b : Bank) : Word :=
  match b.tag with
  | none => 0
  | some t => (1 : BitVec 1) ++ (0 : BitVec 15) ++ BitVec.ofNat 16 t.row0 ++ BitVec.ofNat 8 (sbfCode b.fmt) ++ BitVec.ofNat 24 t.idx

/-- `MQRY` (R224). -/
def execMqry (h : Hdr) (sel : BitVec 3) (d : Opd) (s : State) : Host.Outcome State Fault Refusal :=
  issue s (.mqry h sel d) h false [(1, d, false)] fun s t =>
    let u := iuAt t
    let g := groupOf u
    let m := matTick s.run.now (getMat s t.bench g)
    let qlen := fun (u : Nat) => (getIu s t.bench u).queue.length
    let total := ((List.range 8).map fun i => qlen (8 * g + i)).sum
    let v : Word := match sel.toNat with
      | 0 => BitVec.ofNat 64 (g * 1024 + t.bench)
      | 1 => m.steps
      | 2 => activeCycles s.run.now m
      | 3 => BitVec.ofNat 64 (total * 8 + qlen u)
      | 4 => bankWord m.bank0
      | 5 => bankWord m.bank1
      | 6 => m.migr
      | _ => m.rate
    finish s t (setDst t.ctx d false (v.setWidth 128))

end Sys2Proof.Machine
end

