-- ==== Sys2Proof/Machine/Copy.lean ====
section
/-! DEFINITION. Copy and link commands, group 101 (R249 to R255, R366, R370, R371). -/

namespace Sys2Proof.Machine
open Sys2Proof.Forms

/-! Issue (R214, R249). -/

/-- The alignment of A, then B (R249). -/
def recordsAligned (_ : State) (_ : Thread) (a b _c : Word) : Option Did :=
  if a.toNat % 128 != 0 then some (misaligned 0x05 a)
  else if b.toNat % 128 != 0 then some (misaligned 0x05 b)
  else none

/-- `CPY` (R249, R251). -/
def execCpy (h : Hdr) (x : Cpy) (s : State) : Host.Outcome State Fault Refusal :=
  engineIssue s (.cpy h x) h [(1, x.d, false), (2, x.a, false), (3, x.b, false)] x.d x.a x.b .zero recordsAligned

/-- `CRED` (R249, R252). -/
def execCred (h : Hdr) (x : Cpy) (s : State) : Host.Outcome State Fault Refusal :=
  engineIssue s (.cred h x) h [(1, x.d, false), (2, x.a, false), (3, x.b, false)] x.d x.a x.b .zero recordsAligned

/-- `XCPY` (R249, R255). -/
def execXcpy (h : Hdr) (x : Cpy) (s : State) : Host.Outcome State Fault Refusal :=
  engineIssue s (.xcpy h x) h [(1, x.d, false), (2, x.a, false), (3, x.b, false), (4, x.c, false)] x.d x.a x.b x.c
    recordsAligned

/-- `XRED` (R249, R255). -/
def execXred (h : Hdr) (x : Cpy) (s : State) : Host.Outcome State Fault Refusal :=
  engineIssue s (.xred h x) h [(1, x.d, false), (2, x.a, false), (3, x.b, false), (4, x.c, false)] x.d x.a x.b x.c
    recordsAligned

/-! Descriptors (R250, R254). -/

/-- A tensor descriptor that is valid but for its handle. -/
structure Tensor where
  base : Word
  tile : Bool
  ety : Ty
  ndim : Nat
  e0 : Nat
  e1 : Nat
  e2 : Nat
  str1 : Word
  str2 : Word
  rmode : BitVec 3
  ddef : Bool
  delta : Nat
  deriving DecidableEq, Repr

/-- Bytes of an element; of a row for an SBF type (R250). -/
def unitBytes (t : Ty) : Nat := if isSbf t then sbfRowBytes t else bytes t

def tensorOf (d : BitVec 1024) : Option Tensor :=
  let w0 := recW d 0
  match tyOf (w0.extractLsb' 16 5) with
  | none => none
  | some ty =>
    let nd := (w0.extractLsb' 8 2).toNat
    let tile := w0.getLsbD 10
    let x0 := ((recW d 2).setWidth 32).toNat
    let x1 := ((recW d 2).extractLsb' 32 32).toNat
    let x2 := ((recW d 3).setWidth 32).toNat
    let t : Tensor :=
      { base := recW d 1, tile := tile, ety := ty, ndim := nd, e0 := x0
        e1 := if 1 ≤ nd then x1 else 1, e2 := if 2 ≤ nd then x2 else 1
        str1 := if 1 ≤ nd then recW d 4 else 0, str2 := if 2 ≤ nd then recW d 5 else 0
        rmode := w0.extractLsb' 26 3, ddef := w0.getLsbD 25, delta := (w0.extractLsb' 21 4).toNat }
    let e := if isSbf ty then 8 else bytes ty
    let ok := recKind d == 0x01 && zeroFrom d 6 && w0.extractLsb' 29 35 == 0 && w0.extractLsb' 11 5 == 0 &&
      (recW d 3).extractLsb' 32 32 == 0 && decide (nd ≤ 2) && (!tile || decide (nd ≤ 1)) && decide (t.rmode.toNat ≤ 5) &&
      t.e0 != 0 && t.e1 != 0 && t.e2 != 0 && (!isSbf ty || t.e0 == 128) &&
      (tile || (t.base.toNat % e == 0 && t.str1.toNat % e == 0 && t.str2.toNat % e == 0))
    if ok then some t else none

/-- The extents of two tensors agree; beyond `NDIM` they are 1 (R250). -/
def sameShape (a b : Tensor) : Bool := a.e0 == b.e0 && a.e1 == b.e1 && a.e2 == b.e2

/-- Elements (R251). -/
def elements (t : Tensor) : Nat := t.e0 * t.e1 * t.e2

/-- Elements moved at once: one, or the 128 of a row. -/
def perUnit (a b : Ty) : Nat := if isSbf a || isSbf b then 128 else 1

-- Fields of the `BASE` of a tile (R250).
def tileHandle (t : Tensor) : BitVec 32 := t.base.setWidth 32
def tileRow0 (t : Tensor) : Nat := (t.base.extractLsb' 32 16).toNat
def tileCol0 (t : Tensor) : Nat := (t.base.extractLsb' 48 16).toNat

/-- The entry of a tile tensor, when it matches its format and shape (R250). -/
def tensorHandle (x : Space) (t : Tensor) : Option Handle :=
  match validHandle x (tileHandle t) with
  | none => none
  | some h =>
    if h.fmt == (tyCode t.ety).setWidth 8 && decide (tileCol0 t + t.e0 ≤ h.cols.toNat) && decide (tileRow0 t + t.e1 ≤ h.rows.toNat)
    then some h else none

/-- The indices of element k in linear order. -/
def indexOf (t : Tensor) (k : Nat) : Nat × Nat × Nat := (k % t.e0, k / t.e0 % t.e1, k / (t.e0 * t.e1))

/-- The address of element k of a memory tensor; of its row for an SBF type (R250). -/
def tensorVa (t : Tensor) (k : Nat) : Word :=
  let i := indexOf t k
  t.base + BitVec.ofNat 64 (if isSbf t.ety then 0 else i.1 * bytes t.ety) + BitVec.ofNat 64 i.2.1 * t.str1 + BitVec.ofNat 64 i.2.2 * t.str2

/-- The offset of element k in its tile. -/
def tensorOff (t : Tensor) (h : Handle) (k : Nat) : Nat :=
  let i := indexOf t k
  (tileRow0 t + i.2.1) * fmtRowBytes h.fmt h.cols.toNat + (if isSbf t.ety then 0 else (tileCol0 t + i.1) * bytes t.ety)

/-- A link peer descriptor (R254). -/
structure Peer where
  id : BitVec 16
  win : Nat
  len : Nat
  rsig : Nat
  sigen : Bool
  ports : List Nat
  deriving DecidableEq, Repr

def peerOf (d : BitVec 1024) : Option Peer :=
  let w0 := recW d 0
  let ports := (List.range 16).filter fun i => w0.getLsbD (16 + i)
  let p : Peer :=
    { id := w0.extractLsb' 32 16, win := ((recW d 1).setWidth 16).toNat, len := (recW d 2).toNat, rsig := (recW d 3).toNat
      sigen := w0.getLsbD 48, ports := ports }
  if recKind d == 0x04 && zeroFrom d 4 && w0.extractLsb' 49 15 == 0 && w0.extractLsb' 8 8 == 0 &&
    (recW d 1).extractLsb' 16 48 == 0 && p.rsig % 8 == 0 && !ports.isEmpty then some p else none

/-! Bytes of the sources and destinations. -/

/-- Bytes from an address to the end of its 8-byte word, at most `n`: what is accessed at once. -/
def chunk (va : Word) (n : Nat) : Nat := min n (8 - va.toNat % 8)

/-- Reads `n` bytes, each 8-byte word at once. -/
def readMany (s : State) (w : Who) (va : Word) (n : Nat) : Nat → Res (List Byte)
  | 0 => .ok s []
  | k + 1 =>
    if n == 0 then .ok s []
    else
      let m := chunk va n
      (ofVRes (vAccess s w va m .read)).bind fun s1 v =>
        (readMany s1 w (va + BitVec.ofNat 64 m) (n - m) k).bind fun s2 l => .ok s2 (bytesOfNat m v.toNat ++ l)

/-- Whether the line of an address lies in a run of bytes. -/
def wholeLine (va start : Word) (n : Nat) : Bool :=
  decide (start.toNat ≤ va.toNat / 128 * 128) && decide (va.toNat / 128 * 128 + 128 ≤ start.toNat + n)

/-- Writes the bytes of a run from an address on, each 8-byte word at once. -/
def writeMany (s : State) (w : Who) (start : Word) (n : Nat) (va : Word) (l : List Byte) : Nat → Res Unit
  | 0 => .ok s ()
  | k + 1 =>
    if l.isEmpty then .ok s ()
    else
      let m := chunk va l.length
      (ofVRes (vAccess s w va m (.write (BitVec.ofNat 128 (natOfBytes (l.take m))) (wholeLine va start n)))).bind fun s1 _ =>
        writeMany s1 w start n (va + BitVec.ofNat 64 m) (l.drop m) k

/-- The requester of a command's accesses. -/
def whoCmd (c : Cmd) : Who := { bench := c.bench, asid := c.key.asid, sup := c.sup, asker := some (.cmd c.id) }

/-- Bytes that one unit takes at the source (R250, R251). -/
def sourceBytes (a b : Ty) : Nat := if isSbf a then sbfRowBytes a else bytes a * perUnit a b

/-- The bytes of unit u of the source: of the tile taken at the start, or of memory. -/
def readUnit (s : State) (c : Cmd) (t : Tensor) (u per n : Nat) : Res (List Byte) :=
  if t.tile then .ok s ((c.src.drop (u * n)).take n) else readMany s (whoCmd c) (tensorVa t (u * per)) n (n + 1)

/-! Conversions (R251). -/

/-- Whether `CPY` converts between the types (R251). -/
def copyable (a b : Ty) : Bool := a == b || (isFloat a && (isFloat b || isSbf b)) || (isSbf a && isFloat b)

/-- The destination's rounding mode (R250). -/
def copyMode (c : Cmd) (t : Tensor) : RMode := modeOf (if t.rmode == 0 then c.mode else t.rmode - 1)

/-- Elements of a list of bytes. -/
def elemsOf (n : Nat) (l : List Byte) : Nat → List Nat
  | 0 => []
  | k + 1 => natOfBytes (l.take n) :: elemsOf n (l.drop n) k

/-- One unit converted: the bytes and the flags (R251). -/
def convUnit (c : Cmd) (a b : Tensor) (l : List Byte) : List Byte × Fl :=
  let m := copyMode c b
  if a.ety == b.ety then (l, 0)
  else if isSbf b.ety then
    let x := toBlock b.ety (if b.ddef then sbfM b.ety else b.delta) ((elemsOf (bytes a.ety) l 128).map (svalOf a.ety))
    (bytesOfBlock x.1, x.2)
  else if isSbf a.ety then
    let r := (List.range 128).map (blkToIeee a.ety b.ety m (blockOf a.ety l))
    (r.flatMap fun x => bytesOfNat (bytes b.ety) x.1, flAll r)
  else
    let r := ffConv (ffOf a.ety) (ffOf b.ety) { mode := m } (natOfBytes l)
    (bytesOfNat (bytes b.ety) r.1, r.2)

/-- A block that a conversion reads must have a valid header (R113). -/
def unitOk (a b : Ty) (l : List Byte) : Bool := !(isSbf a && isFloat b) || blkOk a (blockOf a l)

/-! The engines. -/

/-- The number of the link engine of a set of ports: 1 or 2, by the die of the lowest (R371). -/
def linkEngine (ports : List Nat) : Nat :=
  match leastBy id ports with
  | some p => if p < 8 then 1 else 2
  | none => 1

/-- Whether a command may start at its link engine: it has capacity, and no command waits there longer (R371). -/
def linkRoom (s : State) (c : Cmd) : Bool :=
  let mine := s.eng.cmds.filter fun x => isLink x.kind && x.home == c.home
  decide ((mine.filter fun x => x.st == .started).length < 256) && !(mine.any fun x => x.st == .queued && decide (x.arr < c.arr))

/-- A command waits for the page of a recoverable fault, or takes the status that a wake gave it (R253, R351). -/
def engStop (s : State) (c : Cmd) (x : Stop) : Host.Outcome State Fault Refusal :=
  let bad := fun (va : Word) (st : BitVec 5) =>
    Host.Outcome.next (putCmd s { c with
      st := .started, status := if st == stMemerr then 3 else 2
      count := if st == stMemerr then 0 else va.toNat / 4096 % 2 ^ 45 })
  match x with
  | .notHbm a => .fault (.notHbm a)
  | .blocked s1 => .next s1
  | .bad va st => bad va st
  | .wait va k =>
    let page := va.toNat / 4096
    match c.wakeSt with
    | some (p, st) => if p == page then bad va st
        else .next (putCmd (noteFault s c.bench c.key.asid page (kindsOf k)) { c with faultPage := some page })
    | none => .next (putCmd (noteFault s c.bench c.key.asid page (kindsOf k)) { c with faultPage := some page })

def badrec (s : State) (c : Cmd) : Host.Outcome State Fault Refusal := .next (putCmd s { c with st := .started, status := 5 })

/-- The token's translation at the start (R40), then the rest. -/
def withToken (s : State) (c : Cmd) (f : State → Host.Outcome State Fault Refusal) : Host.Outcome State Fault Refusal :=
  if c.packet.isSome && c.tok == 0 then f s
  else match tokenAt s c with
    | .ok s1 _ => f s1
    | .wait s1 => .next s1
    | .bad st => .next (tokenFault s c st)
    | .notHbm a => .fault (.notHbm a)

/-- A tile source is taken at the start (R211, R249): its frames are made resident, the bytes of its units are kept. -/
def takeSource (s : State) (c : Cmd) (t : Tensor) (per n : Nat) : Res (List Byte) :=
  if !t.tile then .ok s []
  else match (findSpace s c.key.asid).bind fun x => tensorHandle x t with
    | none => .ok s []
    | some h => match refillFrames s c.bench c.key.asid h.idx (List.range h.nfr.toNat) with
      | .ok s1 => .ok s1 ((List.range (elements t / per)).flatMap fun u => readTile s1 c.key.asid h.idx (tensorOff t h (u * per)) n)
      | .wait _ va => .stop (.wait va { sup := true })
      | .busy s1 => .stop (.blocked s1)
      | .bad va st => .stop (.bad va st)
      | .notHbm a => .stop (.notHbm a)

/-- Whether a tensor names a tile that it does not fit (R250). -/
def badTile (s : State) (c : Cmd) (t : Tensor) : Bool :=
  t.tile && ((findSpace s c.key.asid).bind fun x => tensorHandle x t).isNone

/-- The destination tile, when it is one. -/
def destTile (t : Tensor) : Option Nat := if t.tile then some ((tileHandle t).setWidth 24).toNat else none

/-- Marks a command as started, with its records and its source. -/
def begin (s : State) (c : Cmd) (r1 r2 : BitVec 1024) (src : List Byte) : Cmd :=
  { c with st := .started, began := s.run.now, rec1 := r1, rec2 := r2, src := src }

/-- The start of `CPY` and `CRED` (R217, R249, R250, R252). -/
def startCopy (s0 : State) (c : Cmd) : Host.Outcome State Fault Refusal :=
  withToken s0 c fun s =>
    match (readRecord s (whoCmd c) c.a).bind fun s1 r1 => (readRecord s1 (whoCmd c) c.b).bind fun s2 r2 => .ok s2 (r1, r2) with
    | .stop x => engStop s c x
    | .ok s1 (r1, r2) =>
      match tensorOf r1, tensorOf r2 with
      | some a, some b =>
        let fits := sameShape a b && !badTile s1 c a && !badTile s1 c b &&
          (if c.kind == .cred then !b.tile && a.ety == b.ety && b.ety == c.ty else copyable a.ety b.ety)
        if !fits then badrec s1 c
        else match takeSource s1 c a (perUnit a.ety b.ety) (sourceBytes a.ety b.ety) with
          | .stop x => engStop s1 c x
          | .ok s2 src =>
            let c1 := begin s2 c r1 r2 src
            match destTile b with
            | none => .next (putCmd s2 c1)
            | some i =>
              let h := ((findSpace s2 c.key.asid).map fun x => getHandle x i).getD { idx := i }
              if h.busy then .next s2
              else match refillFrames s2 c.bench c.key.asid i (List.range h.nfr.toNat) with
                | .ok s3 => .next (putCmd (onHandle s3 c.key.asid i fun h => { h with busy := true })
                    { c1 with out := some i, shadow := readTile s3 c.key.asid i 0 (tileSize h) })
                | .wait _ va => engStop s2 c (.wait va { sup := true })
                | .busy s3 => .next s3
                | .bad va st => engStop s2 c (.bad va st)
                | .notHbm a => .fault (.notHbm a)
      | _, _ => badrec s1 c

/-- The command's count and flags at its end (R115). -/
def copyEnd (s : State) (c : Cmd) (n : Nat) : Host.Outcome State Fault Refusal :=
  let det := if c.status == 0 then doneDet c.flags n else if c.status == 2 then BitVec.ofNat 48 c.count else 0
  fillToken s c c.status det fun s => publishTile s c

/-- One unit of `CPY` (R251). -/
def copyUnit (s : State) (c : Cmd) (a b : Tensor) : Host.Outcome State Fault Refusal :=
  let per := perUnit a.ety b.ety
  let k := c.pos * per
  let x := atomically s ((readUnit s c a c.pos per (sourceBytes a.ety b.ety)).bind fun s1 l =>
    if !unitOk a.ety b.ety l then .ok s1 (none : Option (List Byte × Fl))
    else
      let r := convUnit c a b l
      if b.tile then .ok s1 (some r)
      else (writeMany s1 (whoCmd c) (tensorVa b k) r.1.length (tensorVa b k) r.1 (r.1.length + 1)).bind fun s2 _ => .ok s2 (some r))
  match x with
  | .stop y => engStop s c y
  | .ok s1 none => .next (putCmd s1 { c with status := 5 })
  | .ok s1 (some r) =>
    let c1 := { c with pos := c.pos + 1, flags := c.flags ||| r.2 }
    if b.tile then
      let h := ((findSpace s1 c.key.asid).map fun x => getHandle x ((tileHandle b).setWidth 24).toNat).getD { idx := 0 }
      .next (putCmd s1 { c1 with shadow := setBytes c.shadow (tensorOff b h k) r.1 })
    else .next (putCmd s1 c1)

/-- One element of `CRED`: one far atomic at the element's home (R252). -/
def reduceUnit (s : State) (c : Cmd) (a b : Tensor) : Host.Outcome State Fault Refusal :=
  let n := bytes a.ety
  let x := atomically s ((readUnit s c a c.pos 1 n).bind fun s1 l =>
    ofVRes (vAccess s1 (whoCmd c) (tensorVa b c.pos) n (.amo c.op c.ty (BitVec.ofNat 128 (natOfBytes l)) true)))
  match x with
  | .stop y => engStop s c y
  | .ok s1 _ => .next (putCmd s1 { c with pos := c.pos + 1 })

/-- One step of a copy command in an engine: its start, one element or row, or its end (R370). -/
def copyExecute (s : State) (id : Nat) (kind : CmdKind) : Host.Outcome State Fault Refusal :=
  match findCmd s id with
  | none => .next s
  | some c =>
    if c.kind != kind || !cmdReady s c then .next s
    else match c.st with
      | .queued => if c.home != 0 then startCopy s c else .next s
      | .started =>
        if c.status != 0 then copyEnd s c 0
        else match tensorOf c.rec1, tensorOf c.rec2 with
          | some a, some b =>
            if elements a ≤ c.pos * perUnit a.ety b.ety then copyEnd s c (elements a)
            else if c.kind == .cred then reduceUnit s c a b else copyUnit s c a b
          | _, _ => .next s

/-- `CPY_EXECUTE` (R251). -/
def execCpyExecute (c : Nat) (s : State) : Host.Outcome State Fault Refusal := copyExecute s c .cpy
/-- `CRED_EXECUTE` (R252). -/
def execCredExecute (c : Nat) (s : State) : Host.Outcome State Fault Refusal := copyExecute s c .cred

/-! Link commands (R255, R371). -/

/-- Bytes that a link command moves. -/
def linkBytes (t : Tensor) : Nat := elements t / perUnit t.ety t.ety * unitBytes t.ety

/-- A link command at its engine starts when there is capacity (R371). -/
def beginLink (s : State) (c : Cmd) : Host.Outcome State Fault Refusal :=
  if !linkRoom s c then .next s
  else .next (putCmd s { begin s c c.rec1 c.rec2 [] with downSince := s.run.now })

/-- The records of a link command are read, which name its ports and so its engine; it comes there (R254, R255, R371). -/
def startLink (s0 : State) (c : Cmd) : Host.Outcome State Fault Refusal :=
  withToken s0 c fun s =>
    match (readRecord s (whoCmd c) c.a).bind fun s1 r1 => (readRecord s1 (whoCmd c) c.b).bind fun s2 r2 => .ok s2 (r1, r2) with
    | .stop x => engStop s c x
    | .ok s1 (r1, r2) =>
      match tensorOf r1, peerOf r2 with
      | some a, some p =>
        if a.tile || decide (p.len < c.c.toNat + linkBytes a) || (c.kind == .xred && a.ety != c.ty) then badrec s1 c
        else
          let q := takeSeq s1
          let c1 := { c with rec1 := r1, rec2 := r2, ports := p.ports, home := linkEngine p.ports, arr := q.1 }
          beginLink (putCmd q.2 c1) c1
      | _, _ => badrec s1 c

/-- Whether a port of the command's set is up (R371). -/
def portUp (s : State) (c : Cmd) : Bool := c.ports.any fun p => s.fw.portsUp.contains p

/-- One element sent to the peer, with the peer's answer (R255). -/
def linkUnit (s : State) (c : Cmd) (a : Tensor) (p : Peer) (ans : PeerAnswer) : Host.Outcome State Fault Refusal :=
  let per := perUnit a.ety a.ety
  let n := unitBytes a.ety
  if ans == .refusedAt c.pos then .next (putCmd s { c with status := 2, count := 0 })
  else match readUnit s c a c.pos per n with
    | .stop y => engStop s c y
    | .ok s1 l =>
      let off := c.c.toNat + c.pos * n
      let out := if c.kind == .xred then Out.peerReduce p.id p.win off c.op c.ty l else .peerWrite p.id p.win off l
      .next (putCmd (emit s1 out) { c with pos := c.pos + 1 })

/-- The token of a link command (R255). -/
def linkFill (s : State) (c : Cmd) (a : Tensor) : Host.Outcome State Fault Refusal :=
  fillToken s c 0 (doneDet 0 (elements a)) some

/-- The end of a link command: the signal at the peer after every element, then the token (R255); a signal that the peer
refuses is refused after the last element. -/
def linkEnd (s : State) (c : Cmd) (a : Tensor) (p : Peer) (ans : PeerAnswer) : Host.Outcome State Fault Refusal :=
  if !p.sigen || c.ran then linkFill s c a
  else if !portUp s c then .next s
  else if ans == .refusedAt c.pos then .next (putCmd s { c with status := 2, count := 0 })
  else
    let c1 := { c with ran := true }
    linkFill (putCmd (emit s (.peerSignal p.id p.win p.rsig (c.sig.setWidth 64))) c1) c1 a

/-- One step of a link command: its start, one element, or its end. -/
def linkExecute (s : State) (id : Nat) (kind : CmdKind) (ans : PeerAnswer) : Host.Outcome State Fault Refusal :=
  match findCmd s id with
  | none => .next s
  | some c =>
    if c.kind != kind || !cmdReady s c then .next s
    else match c.st with
      | .queued => if c.home == 0 then startLink s c else beginLink s c
      | .started =>
        if c.status != 0 then copyEnd s c 0
        else match tensorOf c.rec1, peerOf c.rec2 with
          | some a, some p =>
            if elements a ≤ c.pos * perUnit a.ety a.ety then linkEnd s c a p ans
            else if portUp s c then linkUnit s c a p ans
            else .next s
          | _, _ => .next s

/-- `XCPY_EXECUTE` (R255). -/
def execXcpyExecute (c : Nat) (ans : PeerAnswer) (s : State) : Host.Outcome State Fault Refusal := linkExecute s c .xcpy ans
/-- `XRED_EXECUTE` (R255). -/
def execXredExecute (c : Nat) (ans : PeerAnswer) (s : State) : Host.Outcome State Fault Refusal := linkExecute s c .xred ans

/-- `LINK_DOWN_TIMEOUT` (R314, R371): no port of a command's set, or no port for a thread's access, has been up for 2^24
cycles. -/
def execLinkDownTimeout (c : Nat) (s : State) : Host.Outcome State Fault Refusal :=
  match findCmd s c, findReq s c with
  | some x, _ =>
    if isLink x.kind && x.st == .started && x.status == 0 && !portUp s x && decide (x.downSince + 2 ^ 24 ≤ s.run.now) then
      .next (putCmd s { x with status := 3 })
    else .next s
  | none, some r =>
    if r.st == .peer && s.fw.portsUp.isEmpty && decide (s.fw.portsDownSince + 2 ^ 24 ≤ s.run.now) then
      .next (fatalAccess s r r.va stMemerr)
    else .next s
  | none, none => .next s

/-- `LINK_PORT_DROP` (R371): the port leaves the sets of the commands in progress. -/
def execLinkPortDrop (port : Nat) (s : State) : Host.Outcome State Fault Refusal :=
  let f := { s.fw with
    portsUp := s.fw.portsUp.filter (· != port)
    portsDownSince := if s.fw.portsUp == [port] then s.run.now else s.fw.portsDownSince }
  let drop := fun (c : Cmd) =>
    if isLink c.kind && c.ports.contains port then
      let ps := c.ports.filter (· != port)
      { c with ports := ps, downSince := if c.ports.any f.portsUp.contains then c.downSince else s.run.now }
    else c
  .next { s with fw := f, eng := { s.eng with cmds := s.eng.cmds.map drop } }

/-- `LINK_PORT_UP` (R371): ports 0 to 15. -/
def execLinkPortUp (port : Nat) (s : State) : Host.Outcome State Fault Refusal :=
  if decide (16 ≤ port) || s.fw.portsUp.contains port then .next s
  else .next { s with fw := { s.fw with portsUp := s.fw.portsUp ++ [port] } }

end Sys2Proof.Machine
end

