-- ==== Sys2Proof/Machine/Rest.lean ====
section
/-! DEFINITION. Rest points, gating and cancellation of engine commands (R217, R223, R253, R363 to R365), and the frames
and banks of scratchpads (R201, R202). -/

namespace Sys2Proof.Machine
open Sys2Proof.Forms

/-! Rest points. -/

/-- A command as it was accepted: its work so far is forgotten (R223); of one that has ended and has not filled its token, its
status is kept (R253, R364). -/
def unstart (c : Cmd) : Cmd :=
  let c1 := { c with out := none, shadow := [], src := [], faultPage := none, wakeSt := none, todo := 0 }
  if c.status != 0 then c1 else { c1 with st := .queued, pos := 0, count := 0, flags := 0, ran := false }

/-- The engine stops work on a command in progress: its shadows are abandoned and the bank that an `MLDW` was loading takes the
empty tag (R217, R364). -/
def stopCmd (s : State) (c : Cmd) : State :=
  if c.st != .started then s else spoilBank (releaseMat (abandon s c) c) c

/-- Both tags of an engine become empty (R363, R365). -/
def emptyTags (m : Mat) : Mat := { m with bank0 := { m.bank0 with tag := none }, bank1 := { m.bank1 with tag := none } }

/-- The commands of an engine group that are matrix commands in progress. -/
def inProgress (s : State) (b g : Nat) : List Cmd :=
  s.eng.cmds.filter fun c => c.bench == b && groupOf c.iu == g && isMatrix c.kind && c.st == .started

/-- A command in progress returns to the head of its queue (R363). -/
def restOne (s : State) (c : Cmd) : State := putCmd (stopCmd s c) (unstart c)

/-- An engine at its rest point, its array powered down (R363, R364). -/
def gateEngine (s : State) (b g : Nat) : State :=
  let s1 := (inProgress s b g).foldl restOne s
  putMat s1 { emptyTags (getMat s1 b g) with gated := true }

/-- `ENGINE_REST_POINT` (R363, R364): in Memory mode an engine comes to its rest point. The rest points of a suspension,
of a cancellation and of a reset are part of those events. -/
def execEngineRestPoint (b g : Nat) (s : State) : Host.Outcome State Fault Refusal :=
  if s.pkg.mode == .memory && !(getMat s b g).gated then .next (gateEngine s b g) else .next s

/-- `ENGINE_IDLE_GATE` (R363): no queue of the group has held a command for 2^16 cycles. -/
def execEngineIdleGate (b g : Nat) (s : State) : Host.Outcome State Fault Refusal :=
  let m := getMat s b g
  if groupHas s b g || m.gated || decide (s.run.now < m.idleSince + 65536) then .next s else .next (gateEngine s b g)

/-! Cancellation (R253, R364, R389). -/

/-- Commands end with CANCELLED; each fills its token at its next step (R42). -/
def markCancelled (s : State) (hit : Cmd → Bool) : State :=
  (s.eng.cmds.filter hit).foldl (fun s c => putCmd (stopCmd s c) { unstart c with st := .started, status := 1 }) s

/-! Frames and banks (R201, R202). -/

/-- The threads that wait for a frame. -/
def frameWaiters (s : State) (asid : BitVec 16) (idx frame : Nat) : List Thread :=
  s.threads.filter fun t => t.key.asid == asid && match t.wait with
    | .tile i j _ => i == idx && j == frame
    | _ => false

/-- Waiting threads whose frame is there issue again (R201). -/
def releaseFrame (s : State) (asid : BitVec 16) (idx frame : Nat) : State :=
  (frameWaiters s asid idx frame).foldl (fun s t =>
    if mayResume s t && t.pend.isNone && frameReady s asid idx frame then reissue s t.key else s) s

/-- The access of a parked `TLDE` or `TSTE`, from its words and its thread's registers as they are: its header, request, and
whether it counts as a result. -/
def parkedReq (s : State) (t : Thread) (iw : IWord) (idx : Nat) : Option (Hdr × Req × Bool) :=
  let o := fun (x : MemT) => ((eaOf t.ctx x.mem).setWidth 32).toNat
  match Decode.decode iw with
  | .ok (.tlde h x) => some (h, tldeReq t h x idx (o x), true)
  | .ok (.tste h x) => some (h, tsteReq s t h x idx (o x), false)
  | _ => none

/-- Whether a tile access lies in a frame of the tile that its address names (R210). -/
def inFrame (s : State) (r : Req) (idx frame : Nat) : Bool :=
  let o := (r.va.setWidth 32).toNat
  match (findSpace s r.key.asid).bind fun x => validHandle x (r.va.extractLsb' 32 32) with
  | some e => e.idx == idx && o / 16384 == frame && o % r.n == 0 && decide (o + r.n ≤ tileSize e)
  | none => false

/-- A parked access whose frame's backing faults issues, and the fault is its own (R176, R210, log 88); one that can no longer
issue as it stands issues again from its first step. -/
def issueFaulted (fault : State → Req → State) (idx frame : Nat) (s : State) (t : Thread) : State :=
  match t.wait with
  | .tile _ _ iw => match parkedReq s t iw idx with
    | none => s
    | some (h, r, counts) =>
      if !mayResume s t then s
      else if !inFrame s { r with key := t.key } idx frame then reissue s t.key
      else if (counts && t.ctx.outst == 15) || entriesFull s t then s
      else
        let e := enter s t r counts counts
        fault (quietly s (retire e.1 t.key h (t.ctx.pc + 12) .run) t.bench (iuAt t)) e.2
  | _ => s

/-- `TILE_FRAME_REFILL` (R201, R210): a frame becomes resident; a fault of its backing is a fault of the accesses that wait for
it. -/
def execTileFrameRefill (asid : BitVec 16) (idx frame : Nat) (s : State) : Host.Outcome State Fault Refusal :=
  let ws := frameWaiters s asid idx frame
  let home := ((findSpace s asid).map fun x => (getHandle x idx).hbench.toNat).getD 0
  match refillFrame s ((ws.head?.map (·.bench)).getD home) asid idx frame with
  | .ok s1 => .next (releaseFrame s1 asid idx frame)
  | .busy s1 => .next s1
  | .notHbm a => .fault (.notHbm a)
  | .wait s1 va => .next (ws.foldl (issueFaulted (fun s r => waitAccess s r va { sup := true }) idx frame) s1)
  | .bad va st => .next (ws.foldl (issueFaulted (fun s r => fatalAccess s r va st) idx frame) s)

/-- `TILE_FRAME_WRITEBACK` (R201): an unpinned resident frame is written back; no byte changes. -/
def execTileFrameWriteback (asid : BitVec 16) (idx frame : Nat) (s : State) : Host.Outcome State Fault Refusal :=
  match (findSpace s asid).map fun x => getHandle x idx with
  | none => .next s
  | some h => .next (if h.v && decide (frame < h.nfr.toNat) && resident h frame && !h.pin.getLsbD frame then dropFrame s asid h frame
      else s)

/-- `SCRATCHPAD_BANK_WAKE` (R202): a waking bank is awake, and the threads that wait for its frames issue again. -/
def execScratchpadBankWake (b u bank : Nat) (s : State) : Host.Outcome State Fault Refusal :=
  let waking := (getIu s b u).banks.any fun x => x.1 == bank && x.2 != .down
  if !waking then .next s
  else
    let s1 := onIu s b u fun x => { x with banks := x.banks.filter fun y => y.1 != bank }
    .next ((residents s1 b u).foldl (fun s r => if r.2.2.2 == bank then releaseFrame s r.1 r.2.1.idx r.2.2.1 else s) s1)

/-- `SCRATCHPAD_BANK_POWER_DOWN` (R202): a bank that holds no pinned frame; its frames are written back. -/
def execScratchpadBankPowerDown (b u bank : Nat) (s : State) : Host.Outcome State Fault Refusal :=
  let here := (residents s b u).filter fun r => r.2.2.2 == bank
  if decide (24 ≤ bank) || here.any (fun r => r.2.1.pin.getLsbD r.2.2.1) || !bankAwake s b u bank then .next s
  else .next (onIu (here.foldl (fun s r => dropFrame s r.1 r.2.1 r.2.2.1) s) b u fun x => { x with banks := x.banks ++ [(bank, .down)] })

end Sys2Proof.Machine
end

