-- ==== Sys2Proof/Machine/Space.lean ====
section
/-! DEFINITION. Address spaces under firmware: creation, suspension, resume, shoot-down, retirement, and firmware's writes
to context slots (R20, R34, R46, R335, R347, R356 to R358, R373). -/

namespace Sys2Proof.Machine
open Sys2Proof.Forms

/-! Creation (R34, R38, R335). -/

/-- The level of the entries of a table that lies at an address, from the stores that build the tree. -/
def tableLevel (root : Nat) (maps : List (Nat × Word)) : Nat → Nat → Option Nat
  | 0, _ => none
  | f + 1, table =>
    if table == root then some 4
    else (maps.find? fun m => pteV m.2 && !pteL m.2 && ptePfn m.2 * 4096 == table).bind fun m =>
      (tableLevel root maps f (m.1 / 4096 * 4096)).map (· - 1)

/-- A page that firmware allocates is full (R38). -/
def allocPage (root : Nat) (maps : List (Nat × Word)) (s : State) (m : Nat × Word) : State :=
  match tableLevel root maps 5 (m.1 / 4096 * 4096) with
  | some lv =>
    if pteV m.2 && pteL m.2 && pteMk m.2 == 0 then
      let n := 2 ^ pageBits lv (pteC64 m.2)
      let a := ptePfn m.2 * 4096 / n * n
      { s with mem := { s.mem with empty := s.mem.empty.filter fun w => !inRange (a / 8) (n / 8) w } }
    else s
  | none => s

/-- The descriptor and context pool of a new address space (R34, R335). -/
def newSpace (x : SpaceNew) : Space :=
  { asid := x.asid, ptroot := x.ptroot, ctxbase := x.ctxbase, tvec := x.tvec, htbase := x.htbase, htsize := x.htsize
    tback := x.tback, esave := x.esave, limit := x.limit }

/-- `ADDRESS_SPACE_CREATE` (R34, R335): an identifier in use is not created again. -/
def execAddressSpaceCreate (x : SpaceNew) (s : State) : Host.Outcome State Fault Refusal :=
  if (findSpace s x.asid).isSome then .next s
  else if !(hostHeld s x.maps []).isEmpty then .next (snoopAll s (hostHeld s x.maps []))
  else
    let s1 := applyMaps { s with spaces := s.spaces ++ [newSpace x] } x.maps
    .next (x.maps.foldl (allocPage (x.ptroot.toNat * 4096) x.maps) s1)

/-- The context line of a service thread (R20). -/
def serviceCtx (x : ServiceNew) (id : BitVec 32) : Ctx :=
  { sup := true, pc := x.pc &&& ~~~3, prio := x.prio, lslot := 0xFF, ctxid := id, s0 := x.s0, s1 := x.s1, s2 := x.s2, s3 := x.s3 }

/-- `FIRMWARE_SERVICE_THREAD_CREATE` (R20, R336): on a bench whose CL2 has room, with an id that the pool has; no placement
walk is made, so an enabled IU is not asked for (log 80). An id that a write still goes to is not used yet (R337). -/
def execFirmwareServiceThreadCreate (asid : BitVec 16) (x : ServiceNew) (s : State) : Host.Outcome State Fault Refusal :=
  if !decide (x.bench < Config.benches) || !hasRoom s x.bench || poolBusy s asid then .next s
  else match (findSpace s asid).bind allocId with
    | some (id, sp) => .next (createThread (setSpace s sp) ⟨asid, id⟩ (serviceCtx x id) x.bench)
    | none => .next s

/-! Firmware's writes to a slot (R46, R274, R400). -/

/-- A retry record from its two words (R31). -/
def recOfWords (a b : Word) : RetryRec :=
  { valid := b.getLsbD 63, fatal := b.getLsbD 62, str := b.getLsbD 61, rstat := b.extractLsb' 56 5, mods := b.extractLsb' 32 24
    iw0 := b.setWidth 32, opnd := a.extractLsb' 57 7, va := a.setWidth 57 }

/-- A write of a word of the trap line (R29, R31): word 7 and the reserved bits of word 4 stay zero. -/
def setTrapWord (t : TrapLine) (n : Nat) (v : Word) : TrapLine :=
  match n with
  | 0 => { t with saveW0 := v }
  | 1 => { t with tw1 := v }
  | 2 => { t with tval := v }
  | 3 => { t with iw01 := v }
  | 4 => { t with iw2 := v &&& 0x7FFFFFFFF }
  | 5 => { t with saveS2 := v }
  | 6 => { t with saveS3 := v }
  | 7 => t
  | _ =>
    let i := BitVec.ofNat 2 ((n - 8) / 2)
    let r := getRec t i
    setRec t i (if n % 2 == 0 then recOfWords v (recSecond r) else recOfWords (recFirst r) v)

/-- Firmware's write to the context pool in slot 0: `LIMIT` in its range; hardware writes the other fields (R335). -/
def setLimit (x : Space) (word : BitVec 5) (v : Word) : Space :=
  if word == 3 && decide (2 ≤ (v.setWidth 33).toNat) && decide ((v.setWidth 33).toNat ≤ 2 ^ 32) then { x with limit := v.setWidth 33 } else x

/-- `FIRMWARE_CONTEXT_WRITE` (R46, R274, R335): a line in transfer is written when it has landed. -/
def execFirmwareContextWrite (k : Key) (word : BitVec 5) (v : Word) (s : State) : Host.Outcome State Fault Refusal :=
  if k.ctx == 0 then .next (onSpace s k.asid fun x => setLimit x word v)
  else match findThread s k with
  | none => .next s
  | some t =>
    if isMoving t then .next s
    else
      let n := word.toNat
      let t1 := if n < 16 then { t with ctx := firmwareWord t.ctx n v }
        else if t.ctx.frz then { t with trap := setTrapWord t.trap (n - 16) v }
        else applyUpd t (.word word v)
      .next (settle (setThread s t1) k)

/-! Suspension (R202, R223, R237, R253, R356, R357). -/

/-- The slot of a command (R357): what it restarts from; a cancelled one keeps that (R253, log 90). -/
def saveOf (c : Cmd) (slot : Nat) : CmdSave :=
  let cont := (c.st == .started || c.pos != 0) && (c.kind == .cred || isLink c.kind)
  { iu := iuNo c.bench c.iu, slot := slot, ctx := c.key.ctx, lslot := c.lslot, sup := c.sup, tok := c.tok, iw := c.iw
    mode := c.mode, a := c.a, b := c.b, c := c.c
    state := if cont then 2 else if c.st == .queued then 0 else 1
    pos := if cont then BitVec.ofNat 64 c.pos else 0
    id := c.id, uid := c.uid, status := if c.status == 1 then 1 else 0, ran := cont && c.ran }

/-- The words of a stream slot (R357). -/
def strmWords (r : Req) (a b c : Vec) (p : StrmPos) : List Word :=
  [(1 : BitVec 1) ++ (0 : BitVec 24) ++ opdCode r.dst ++ r.key.ctx, r.iw.setWidth 64, (0 : BitVec 32) ++ r.iw.extractLsb' 64 32,
    a.setWidth 64, a.extractLsb' 64 64, b.setWidth 64, b.extractLsb' 64 64, c.setWidth 64, c.extractLsb' 64 64,
    BitVec.ofNat 32 p.ib ++ BitVec.ofNat 32 p.ia, BitVec.ofNat 32 p.oob ++ BitVec.ofNat 32 p.nout, 0, 0, 0, 0, 0]

/-- The address of a stream slot (R357). -/
def strmSlotVa (x : Space) (b i : Nat) : Word :=
  (x.esave ++ (0 : BitVec 12)).setWidth 64 + BitVec.ofNat 64 (2 ^ 26 + 8192 * b + 128 * i)

/-- A save that faults freezes every queue of the address space (R357, R388). -/
def saveFault (s : State) (asid : BitVec 16) (va : Word) : State :=
  (s.queues.qs.filter fun q => q.asid == asid).foldl (fun s q => dueFreeze s q.fn q.qid 0x08 va) s

/-- Writes words to the save area, or reports the fault. -/
def saveAt (s : State) (b : Nat) (asid : BitVec 16) (va : Word) (l : List Word) : State :=
  (saveWords s b asid va l).getD (saveFault s asid va)

/-- Saves one command of a queue and frees its entry (R356). -/
def saveCmd (x : Space) (s : State) (c : Cmd × Nat) : State :=
  let e := saveOf c.1 c.2
  let s1 := onSpace (leaveQueue (stopCmd s c.1) c.1) x.asid fun x => { x with cmdSave := x.cmdSave ++ [e] }
  saveAt s1 c.1.bench x.asid (cmdSlotVa x e) (slotWords e)

/-- The commands of an address space in the queues of IUs, with their slots: slots of an earlier suspension that have not entered
again are behind them (R357, R358). -/
def queuedOf (s : State) (asid : BitVec 16) : List (Cmd × Nat) :=
  s.ius.flatMap fun iu => ((iu.queue.filterMap (findCmd s)).filter fun c => c.key.asid == asid).zipIdx

/-- A packet's command stays with its front end: `CPY` restarts, the others continue (R253). -/
def pausePacket (s : State) (c : Cmd) : State :=
  if c.kind == .cpy then restOne s c else s

/-- The stream instructions of an address space in progress, with their slots. -/
def streamsOf (s : State) (asid : BitVec 16) : List (Req × Nat) :=
  let l := s.flight.reqs.filter fun r => r.key.asid == asid && isStrm r.op && (strmInProgress s r.bench).any fun x => x.id == r.id
  l.zipIdx.map fun x => (x.1, ((l.take x.2).filter fun y => y.bench == x.1.bench).length)

/-- The words of the slot of a stream instruction. -/
def strmSlot (r : Req) : List Word :=
  match r.op with
  | .strm _ a b c p => strmWords r a b c p
  | _ => []

/-- Saves a stream instruction in progress (R237, R357). -/
def saveStrm (x : Space) (s : State) (r : Req × Nat) : State :=
  match r.1.op with
  | .strm _ _ _ _ p =>
    let s1 := onSpace s x.asid fun y => { y with strmSave := y.strmSave ++ [{ bench := r.1.bench, req := r.1.id, pos := p }] }
    saveAt s1 r.1.bench x.asid (strmSlotVa x r.1.bench r.2) (strmSlot r.1)
  | _ => s

/-- The host holds a line of a slot: it is asked for it, and the save or the resume waits (R309). -/
def saveGate (s : State) (asid : BitVec 16) : List (Nat × Word) → Option State
  | [] => none
  | x :: l => match savePlace s x.1 asid x.2 with
    | .busy s1 => some s1
    | _ => saveGate s asid l

/-- The slots that a suspension writes: bench and address. -/
def suspendSlots (s : State) (x : Space) : List (Nat × Word) :=
  (queuedOf s x.asid).map (fun c => (c.1.bench, cmdSlotVa x (saveOf c.1 c.2))) ++
    (streamsOf s x.asid).map fun r => (r.1.bench, strmSlotVa x r.1.bench r.2)

/-- Empties the tags that hold an `ASID` (R219, R365). -/
def dropTags (s : State) (asid : BitVec 16) : State :=
  let f := fun (k : Bank) => if (k.tag.map (·.asid)) == some asid then { k with tag := none } else k
  { s with eng := { s.eng with mats := s.eng.mats.map fun m => { m with bank0 := f m.bank0, bank1 := f m.bank1 } } }

/-- The keys of an address space's threads. -/
def keysOf (s : State) (asid : BitVec 16) : List Key := (s.threads.filter fun t => t.key.asid == asid).map (·.key)

/-- Suspends an address space (R356): holds end, tiles unpin, engines come to rest and their work is saved; queues that have room
again take what waits for them. -/
def suspendNow (s : State) (x : Space) : State :=
  let cmds := queuedOf s x.asid
  let strms := streamsOf s x.asid
  let s1 := onSpace s x.asid fun x => { x with susp := true, handles := x.handles.map fun h => { h with pin := 0 } }
  let s2 := (keysOf s1 x.asid).foldl (fun s k => refresh (endHolds s k) k) s1
  let s3 := cmds.foldl (saveCmd x) s2
  let s4 := (s3.eng.cmds.filter fun c => c.key.asid == x.asid && c.packet.isSome).foldl pausePacket s3
  let s5 := dropTags (strms.foldl (saveStrm x) s4) x.asid
  ((cmds.map fun c => (c.1.bench, c.1.iu)).eraseDups).foldl (fun s p => releaseEngq s p.1 p.2) s5

/-- Suspends an address space when the lines of its save slots are there (R309, R356). -/
def suspendSpace (s : State) (asid : BitVec 16) : State :=
  match (findSpace s asid).filter fun x => !x.susp with
  | none => s
  | some x => (saveGate s asid (suspendSlots s x)).getD (suspendNow s x)

/-- The saved stream instructions of a space with their slots. -/
def savedStreams (x : Space) : List (StrmSave × Nat) :=
  x.strmSave.zipIdx.map fun e => (e.1, ((x.strmSave.take e.2).filter fun y => y.bench == e.1.bench).length)

/-- A stream slot's `SV` clears (R358). -/
def freeStrmSlot (x : Space) (s : State) (e : StrmSave × Nat) : State :=
  (saveWords s e.1.bench x.asid (strmSlotVa x e.1.bench e.2)
    (slotFree0 (((findReq s e.1.req).map strmSlot).getD [0]))).getD s

/-- A line that has left its bench's CL2 resumes there, or, a free choice, at another bench that accepts it (R321, R338,
log 94). -/
def resumeLine (s : State) (k : Key) : State :=
  match findThread s k with
  | none => s
  | some t =>
    let b := Config.freePick s.run.fresh % Config.benches
    let s1 := { s with run := { s.run with fresh := s.run.fresh + 1 } }
    if t.loc != .placed .llc && t.loc != .placed .hbm then refresh s k
    else if b != t.bench && leavesFree s k && accepts s b then rehome s1 k b else refresh s1 k

/-- Resumes an address space (R358): its slots are taken back, its lines may issue and are listed. -/
def resumeNow (s : State) (x : Space) : State :=
  let s1 := onSpace s x.asid fun x => { x with susp := false, strmSave := [] }
  let s2 := (savedStreams x).foldl (freeStrmSlot x) s1
  let s3 := ((x.cmdSave.map (·.iu)).eraseDups).foldl
    (fun s i => enterSlots (i / Config.iusPerBench) (i % Config.iusPerBench) 4 s) s2
  (keysOf s3 x.asid).foldl resumeLine s3

/-- Resumes an address space when the lines of its stream slots are there (R309, R358). -/
def resumeSpace (s : State) (asid : BitVec 16) : State :=
  match (findSpace s asid).filter (·.susp) with
  | none => s
  | some x => (saveGate s asid ((savedStreams x).map fun e => (e.1.bench, strmSlotVa x e.1.bench e.2))).getD (resumeNow s x)

/-- `ADDRESS_SPACE_SUSPEND` (R356). -/
def execAddressSpaceSuspend (asid : BitVec 16) (s : State) : Host.Outcome State Fault Refusal := .next (suspendSpace s asid)

/-- `ADDRESS_SPACE_RESUME` (R358). -/
def execAddressSpaceResume (asid : BitVec 16) (s : State) : Host.Outcome State Fault Refusal := .next (resumeSpace s asid)

/-! Shoot-down (R346, R347) and retirement of an `ASID` (R373). -/

/-- Whether a virtual address lies in a range of pages. -/
def inPages (lo hi : Nat) (va : Word) : Bool := decide (lo ≤ va.toNat / 4096) && decide (va.toNat / 4096 < hi)

/-- Whether an access is in progress: outside the module, or half performed. -/
def underWay (r : Req) : Bool := r.st == .host || r.st == .hostDone || r.st == .peer || r.half.isSome

/-- Whether a TLB's acknowledgement still waits: for an access in progress, or a hold on a line of the range (R347). -/
def shootWaits (s : State) (asid : BitVec 16) (lo hi : Nat) : Bool :=
  (s.flight.reqs.any fun r => r.key.asid == asid && inPages lo hi r.va && underWay r) ||
    ((holdsOf s).any fun h => h.2.2.key.asid == asid && inPages lo hi h.2.2.va)

/-- An access of the range that has not begun. -/
def notBegun (asid : BitVec 16) (lo hi : Nat) (r : Req) : Bool :=
  r.key.asid == asid && inPages lo hi r.va && !underWay r && match r.st with
    | .pending | .retryAt _ => true
    | _ => false

/-- Accesses of the range that have not begun translate again. -/
def untranslate (s : State) (asid : BitVec 16) (lo hi : Nat) : State :=
  let l := (s.flight.reqs.filter (notBegun asid lo hi)).map (·.id)
  { s with flight := { s.flight with
    reqs := s.flight.reqs.map fun r => if notBegun asid lo hi r then { r with pa := none } else r
    turns := s.flight.turns.filter fun x => !(l.any fun i => x.who == .req i) } }

/-- `TLB_SHOOTDOWN` (R346, R347): firmware's page-table stores, then every TLB discards the range of pages from `lo` up to
`hi` and acknowledges. -/
def execTlbShootdown (asid : BitVec 16) (lo hi : Nat) (maps : List (Nat × Word)) (s : State) : Host.Outcome State Fault Refusal :=
  if shootWaits s asid lo hi then .next s
  else if !(hostHeld s maps []).isEmpty then .next (snoopAll s (hostHeld s maps []))
  else
    let s1 := applyMaps s maps
    let out := fun (e : TlbEnt) =>
      e.asid == asid && decide (e.base / 4096 < hi) && decide (lo * 4096 < e.base + e.size)
    .next (untranslate { s1 with mmu := { s1.mmu with tlb := s1.mmu.tlb.filter fun e => !out e } } asid lo hi)

/-- `ASID_RETIRE_DISCARD` (R373): when no thread of the space is left, everything that carries its `ASID` goes, its
descriptor with it. -/
def execAsidRetireDiscard (asid : BitVec 16) (s : State) : Host.Outcome State Fault Refusal :=
  if s.threads.any fun t => t.key.asid == asid then .next s
  else
    let s1 := dropTags s asid
    let gone := s1.eng.cmds.filter fun c => c.key.asid == asid
    let s2 := gone.foldl (fun s c => leaveQueue (stopCmd s c) c) s1
    let s3 := (s2.flight.reqs.filter fun r => r.key.asid == asid && isStrm r.op).foldl (fun s r => dropReq s r.id) s2
    let s4 := { s3 with
      spaces := s3.spaces.filter fun x => x.asid != asid
      mmu := { s3.mmu with tlb := s3.mmu.tlb.filter fun e => e.asid != asid }
      cache := { s3.cache with
        clb := s3.cache.clb.filter fun e => e.asid != asid, recs := s3.cache.recs.filter fun e => e.asid != asid
        handles := s3.cache.handles.filter fun x => x.2.1 != asid, reserve := s3.cache.reserve.filter fun x => x.2.1 != asid } }
    .next (((gone.map fun c => (c.bench, c.iu)).eraseDups).foldl (fun s p => releaseEngq s p.1 p.2) s4)

end Sys2Proof.Machine
end

