-- ==== Sys2Proof/Machine/HostLinks.lean ====
section
/-! DEFINITION. The host's snoops and requests, PCIe AtomicOps, links, the directory's merges and power-gated ways
(R296, R300, R304 to R316). -/

namespace Sys2Proof.Machine
open Sys2Proof.Forms

/-! Host memory cached by the device (R304, R305). -/

/-- The line of a physical address. -/
def lineAddr (a : Nat) : Nat := a / 128 * 128

/-- Whether a device copy of a host line is dirty (R304). -/
def hostDirty (s : State) (line : Phys) : Bool :=
  s.cache.l2.any fun x => x.line == line && (x.st == .m || x.st == .o)

/-- The answer to a snoop: whether the data is dirty, and the line's bytes. -/
def snoopAnswer (s : State) (a : Nat) : State :=
  emit s (.snoop a (hostDirty s (.hostC a)) (readBytes s.mem.host a 128))

/-- What a host request comes to when the module does not run: an error completion in the fatal state (R408), nothing
while no link is up (R406, R409). -/
def linkAnswer (s : State) : State := if s.pkg.stage == 7 && s.pkg.rails then emit s .errorCompletion else s

/-- Something from outside the module waits at a line, or takes its turn there (R194, R302). -/
def outsideWaits (s : State) (line : Phys) (i : Instr) : Bool :=
  (lineHold s line).isSome || turnOver s line (some (.outside i))

/-- A snoop takes its turn at its line, after a hold (R194, R305). -/
def snooped (s : State) (i : Instr) (line : Nat) (f : State → Nat → State) : Host.Outcome State Fault Refusal :=
  let a := lineAddr line
  if !running s then .next (linkAnswer s)
  else if outsideWaits s (.hostC a) i then .next (queueUp s (.hostC a) (some (.outside i)))
  else .next (f (snoopAnswer (leaveTurns s (some (.outside i))) a) a)

/-- `SNP_INV` (R305): the data L1s, which coherence does not reach, keep what they have (R294). -/
def execSnpInv (line : Nat) (s : State) : Host.Outcome State Fault Refusal :=
  snooped s (.snpInv line) line fun s a => l2DropOthers s none (.hostC a)

/-- `SNP_DATA` (R305): O, E and M copies become S. -/
def execSnpData (line : Nat) (s : State) : Host.Outcome State Fault Refusal :=
  snooped s (.snpData line) line fun s a => { s with cache := { s.cache with
    l2 := s.cache.l2.map fun x => if x.line == .hostC a then { x with st := .s } else x } }

/-- `SNP_CUR` (R305). -/
def execSnpCur (line : Nat) (s : State) : Host.Outcome State Fault Refusal := snooped s (.snpCur line) line fun s _ => s

/-- The host's data for a line. -/
def hostData (s : State) (a : Nat) (d : Option (BitVec 1024)) : State :=
  match d with
  | some x => { s with mem := { s.mem with host := writeBytes s.mem.host (lineAddr a) (bytesOfNat 128 x.toNat) } }
  | none => s

/-- Completes a line request: the host's data is the line's, and the agent holds the line clean or exclusive (R304). -/
def installLine (s : State) (agent : Nat) (a : Nat) (own : Bool) (d : Option (BitVec 1024)) : State :=
  let line : Phys := .hostC (lineAddr a)
  let s1 := if hostDirty s line then s else hostData s a d
  l2Put s1 agent line (if own then .e else (l2Find s1 agent line).getD .s)

/-- The answer to what an engine asked of the host (R304, R306): lines enter the LLC, an uncached read brings its bytes. -/
def engineAnswer (s : State) (id : Nat) (d : Option (BitVec 1024)) : State :=
  let kind := id / 2 ^ 60 - 1
  let a := id % 2 ^ 60
  let s1 := { s with cache := { s.cache with asked := s.cache.asked.erase id } }
  match kind with
  | 0 => installLine s1 llcAgent a false d
  | 1 => installLine s1 llcAgent a true d
  | _ =>
    let s2 := if kind == 2 then hostData s1 a d else s1
    { s2 with cache := { s2.cache with answered := s2.cache.answered ++ [id] } }

/-- Which agent a request's line comes to: an atomic that no PCIe AtomicOp carries is performed in the LLC (R181, R304). -/
def lineAgent (q : Req) : Nat :=
  match q.op with
  | .amo _ | .addd _ => llcAgent
  | _ => q.bench

/-- `HOST_MEMORY_COMPLETION` (R304, R306): the host's answer to a request of a thread or an engine. -/
def execHostMemoryCompletion (r : Nat) (line : Option (BitVec 1024)) (s : State) : Host.Outcome State Fault Refusal :=
  if s.cache.asked.contains r then .next (engineAnswer s r line)
  else match findReq s r with
    | none => .next s
    | some q =>
      if q.st != .host then .next s
      else match q.pa with
        | some (.hostC a) =>
          if isPcie q then .next s
          else
            let own := match q.op with
              | .ld | .ret | .hold false => false
              | _ => true
            .next (setReqSt (installLine s (lineAgent q) a own line) r .pending)
        | some (.hostU a) =>
          .next (if isPcie q then s else setReqSt (hostData s a line) r .hostDone)
        | _ => .next s

/-- `ATOMICOP_COMPLETION` (R181, R311): the old value, and the write that the host performed; or a fault. -/
def execAtomicopCompletion (r : Nat) (ok : Bool) (old : Vec) (s : State) : Host.Outcome State Fault Refusal :=
  if s.cache.asked.contains r then
    .next (if ok then engineAnswer s r none else { s with cache := { s.cache with
      asked := s.cache.asked.erase r, answered := s.cache.answered ++ [hostAskId 5 (r % 2 ^ 60)] } })
  else match findReq s r with
    | none => .next s
    | some q =>
      if q.st != .host || !isPcie q then .next s
      else match ok, q.pa with
        | false, _ => .next (fatalAccess s q q.va stSysAtomic)
        | true, some (.hostC a) | true, some (.hostU a) =>
          let v := lowBytes q.n old
          let s1 := (q.pa.map fun p => giveUp s (lineOf p)).getD s
          .next (complete { s1 with mem := { s1.mem with host := writeVal s1.mem.host a q.n ((atomicNew q v).getD v) } } q v)
        | true, _ => .next s

/-! HBM toward the host (R307 to R310). -/

/-- Whether an exchange on the line keeps a host request waiting (R307, R309). -/
def exchanging (s : State) (a : Nat) : Bool := s.cache.bisnp.any fun x => x.line == lineAddr a && !x.repeated

/-- Whether the host has answered an exchange on the line with a conflict: its request is served first (R309). -/
def conflicting (s : State) (a : Nat) : Bool := s.cache.bisnp.any fun x => x.line == lineAddr a && x.repeated

/-- After a host request that conflicted with an exchange, the snoop is repeated (R309). -/
def repeatBisnp (s : State) (a : Nat) : State :=
  match s.cache.bisnp.find? fun x => x.line == lineAddr a && x.repeated with
  | none => s
  | some x => emit { s with cache := { s.cache with
      bisnp := modifyFirst (· == x) (fun y => { y with repeated := false }) s.cache.bisnp } } (.bisnp x.line x.inv)

/-- A line with a token word of a command, which is outstanding. -/
def tokenAtLine (s : State) (a b : Nat) (asid : BitVec 16) (sup : Bool) (tok : Word) : Bool :=
  match translate s (.bench b) asid { sup := sup } tok with
  | .ok (.dev t) _ => lineAddr t == lineAddr a
  | _ => false

/-- Lines that the host never caches (R310): with waiters, or with a token word of a command, saved ones included. -/
def neverCached (s : State) (a : Nat) : Bool :=
  (s.flight.waiters.any fun w => lineAddr w.pa == lineAddr a) ||
    (s.eng.cmds.any fun c => tokenAtLine s a c.bench c.key.asid c.sup c.tok) ||
    s.spaces.any fun x => x.cmdSave.any fun e => tokenAtLine s a (e.iu / Config.iusPerBench) x.asid e.sup e.tok

/-- The host's state of a line changes; a line that the host holds is never untracked (R307). -/
def hostTakes (s : State) (a : Nat) (h : Option HostSt) : State := dirPut (setHostSt s a h) (lineAddr a)

/-- The owners of a line write back and keep a shared copy (R308). -/
def shareAll (s : State) (a : Nat) : State :=
  let line : Phys := .dev (lineAddr a)
  let s1 := mergeLine (dirRoom (lineAddr a) 16 s) line
  let dirty := s1.cache.l2.any fun x => x.line == line && (x.st == .m || x.st == .o)
  llcPut { s1 with cache := { s1.cache with
    l2 := s1.cache.l2.map fun x => if x.line == line then { x with st := .s } else x } } (lineAddr a) dirty

/-- Every device copy of a line is given up (R308). -/
def takeAll (s : State) (a : Nat) : State := obtain s 0 (.dev (lineAddr a)) .home

/-- The 64 bytes of a host request. -/
def hostBytes (s : State) (a : Nat) : List Byte := readBytes s.mem.dev (a / 64 * 64) 64

/-- Serves a host request on HBM in its turn (R302), one that conflicted with an exchange first, then repeats the snoop (R309). -/
def hostServe (s : State) (i : Instr) (pa : Nat) (f : State → State) : Host.Outcome State Fault Refusal :=
  let line : Phys := .dev (lineAddr pa)
  let who := some (Asker.outside i)
  let go := fun (s : State) => Host.Outcome.next (repeatBisnp (f (leaveTurns s who)) pa)
  if !running s then .next (linkAnswer s)
  else if decide (Config.hbmBytes ≤ pa) then .next s
  else if (lineHold s line).isSome || exchanging s pa || (!conflicting s pa && turnOver s line who) then .next (queueUp s line who)
  else match recallGate s (lineAddr pa) with
    | .go => go s
    | .wait => .next (queueUp s line who)
    | .snoop a => .next (queueUp (sendBisnp s (.dev a) true) line who)

/-- The D copies of a line are merged, and leave the directory (R198). -/
def mergedAt (s : State) (a : Nat) : State :=
  let line : Phys := .dev (lineAddr a)
  if s.cache.dsums.any fun x => lineOf x.addr == line then dirPut (mergeLine s line) (lineAddr a) else s

/-- A read without a change of the host state (R308, R310). -/
def readNoOp (s : State) (pa : Nat) : State :=
  let s1 := mergedAt s pa
  emit s1 (.data (pa / 64 * 64) (hostBytes s1 pa))

/-- A read that leaves the host a shared copy (R308). -/
def readShared (s : State) (pa : Nat) : State :=
  if neverCached s pa then readNoOp s pa
  else
    let s1 := hostTakes (shareAll s pa) pa (some .hs)
    emit (emit s1 (.cmpS (pa / 64 * 64))) (.data (pa / 64 * 64) (hostBytes s1 pa))

/-- A read that leaves the host the only copy (R308). -/
def readOwn (s : State) (pa : Nat) : State :=
  if neverCached s pa then readNoOp s pa
  else
    let s1 := hostTakes (takeAll s pa) pa (some .he)
    emit (emit s1 (.cmpE (pa / 64 * 64))) (.data (pa / 64 * 64) (hostBytes s1 pa))

/-- `MEM_RD` (R308). -/
def execMemRd (pa : Nat) (snp : SnpType) (s : State) : Host.Outcome State Fault Refusal :=
  hostServe s (.memRd pa snp) pa fun s => match snp with
    | .noOp => readNoOp s pa
    | .data => readShared s pa
    | .inv => readOwn s pa

/-- `MEM_RD_DATA` (R308). -/
def execMemRdData (pa : Nat) (s : State) : Host.Outcome State Fault Refusal :=
  hostServe s (.memRdData pa) pa fun s => readShared s pa

/-- `MEM_INV` (R308). -/
def execMemInv (pa : Nat) (s : State) : Host.Outcome State Fault Refusal :=
  hostServe s (.memInv pa) pa fun s =>
    if neverCached s pa then emit (mergedAt s pa) (.cmp (pa / 64 * 64))
    else emit (hostTakes (takeAll s pa) pa (some .he)) (.cmpE (pa / 64 * 64))

/-- `MEM_INV_NT` (R308). -/
def execMemInvNt (pa : Nat) (s : State) : Host.Outcome State Fault Refusal :=
  hostServe s (.memInvNt pa) pa fun s => emit (hostTakes (takeAll s pa) pa none) (.cmp (pa / 64 * 64))

/-- The bytes of a line that a mask selects are written (R308). -/
def putMasked (s : State) (base : Nat) (data : BitVec 512) (mask : BitVec 64) : State :=
  let put := fun (d : List Host.Cell) (i : Nat) =>
    if mask.getLsbD i then cellWrite d (base + i) (data.extractLsb' (8 * i) 8) else d
  { s with mem := { s.mem with dev := (List.range 64).foldl put s.mem.dev } }

/-- A host write (R308): it leaves the full/empty bits; what an earlier host write made stale in an instruction cache is gone
(R78). -/
def hostWrite (s : State) (pa : Nat) (data : BitVec 512) (mask : BitVec 64) : State :=
  emit (hostTakes (putMasked (takeAll (dropStale s) pa) (pa / 64 * 64) data mask) pa none) (.cmp (pa / 64 * 64))

/-- `MEM_WR` (R308). -/
def execMemWr (pa : Nat) (data : BitVec 512) (s : State) : Host.Outcome State Fault Refusal :=
  hostServe s (.memWr pa data) pa fun s => hostWrite s pa data (BitVec.allOnes 64)

/-- `MEM_WR_PTL` (R308). -/
def execMemWrPtl (pa : Nat) (data : BitVec 512) (mask : BitVec 64) (s : State) : Host.Outcome State Fault Refusal :=
  hostServe s (.memWrPtl pa data mask) pa fun s => hostWrite s pa data mask

/-- `MEM_SPEC_RD` (R308): a hint, with no reply. -/
def execMemSpecRd (_pa : Nat) (s : State) : Host.Outcome State Fault Refusal := .next s

/-- Saved commands that wait for a line of the save area enter their queues (R309, R358). -/
def enterWaiting (s : State) : State :=
  let ius := ((s.spaces.filter fun x => !x.susp).flatMap fun x => x.cmdSave.map (·.iu)).eraseDups
  ius.foldl (fun s i => releaseEngq s (i / Config.iusPerBench) (i % Config.iusPerBench)) s

/-- The host's response ends an exchange: its data is written back first, its state goes down (R309). -/
def endBisnp (s : State) (line : Nat) (data : Option (BitVec 1024)) (h : Option HostSt) : State :=
  let a := lineAddr line
  let s1 := match data with
    | some x => { s with mem := { s.mem with dev := writeBytes s.mem.dev a (bytesOfNat 128 x.toNat) } }
    | none => s
  let s2 := hostTakes s1 a h
  enterWaiting { s2 with cache := { s2.cache with bisnp := s2.cache.bisnp.filter fun x => x.line != a } }

/-- `BIRSP_S` (R309): it answers a snoop that does not invalidate. -/
def execBirspS (line : Nat) (data : Option (BitVec 1024)) (s : State) : Host.Outcome State Fault Refusal :=
  .next (if s.cache.bisnp.any fun x => x.line == lineAddr line && !x.inv then endBisnp s line data (some .hs) else s)

/-- `BIRSP_I` (R309). -/
def execBirspI (line : Nat) (data : Option (BitVec 1024)) (s : State) : Host.Outcome State Fault Refusal :=
  .next (if s.cache.bisnp.any fun x => x.line == lineAddr line then endBisnp s line data none else s)

/-- `BICONFLICT` (R309): the host's request is served first. -/
def execBiconflict (line : Nat) (s : State) : Host.Outcome State Fault Refusal :=
  .next { s with cache := { s.cache with
    bisnp := s.cache.bisnp.map fun x => if x.line == lineAddr line then { x with repeated := true } else x } }

/-! Inbound PCIe AtomicOps (R312). -/

/-- The sizes an AtomicOp may have (R312). -/
def atomicSize (op : PcieOp) (n : Nat) : Bool := n == 4 || n == 8 || (op == .cas && n == 16)

/-- The value that an AtomicOp writes. -/
def pcieNew (op : PcieOp) (n : Nat) (old v cmp : Vec) : Vec :=
  match op with
  | .fetchAdd => lowBytes n (old + v)
  | .swap => lowBytes n v
  | .cas => if old == lowBytes n cmp then lowBytes n v else old

/-- Why the home makes an outside access wait, which keeps its place: a hold, an earlier arrival, the host's copy, a recall (R194,
R302, R309). -/
def homeGate (s : State) (i : Instr) (a : Nat) (need : Need) : Option State :=
  let line : Phys := .dev (lineAddr a)
  let who := some (Asker.outside i)
  if outsideWaits s line i then some (queueUp s line who)
  else match hostBlocks s line need, recallGate s (lineAddr a) with
    | some inv, _ => some (queueUp (sendBisnp s line inv) line who)
    | none, .wait => some (queueUp s line who)
    | none, .snoop b => some (queueUp (sendBisnp s (.dev b) true) line who)
    | none, .go => none

/-- `INBOUND_ATOMICOP` (R312). -/
def execInboundAtomicop (op : PcieOp) (n pa : Nat) (v cmp : Vec) (s : State) : Host.Outcome State Fault Refusal :=
  let i : Instr := .inboundAtomicop op n pa v cmp
  if !running s then .next (linkAnswer s)
  else if !atomicSize op n || pa % n != 0 || decide (Config.hbmBytes ≤ pa) then .next (emit s .unsupported)
  else match homeGate s i pa .home with
    | some s1 => .next s1
    | none =>
      let s0 := leaveTurns s (some (.outside i))
      if s0.mem.poison.contains (lineAddr pa) then .next (emit s0 .errorCompletion)
      else
        let s1 := takeAll (dropStale s0) pa
        let old := readVal s1.mem.dev pa n
        .next (emit { s1 with mem := { s1.mem with dev := writeVal s1.mem.dev pa n (pcieNew op n old v cmp) } } (.atomicOld old))

/-! Links (R291, R313, R314). -/

/-- An entry of the inbound window table; one that was never written is closed (R313). -/
def getWindow (s : State) (n : Nat) : Window := (s.fw.windows.find? fun x => x.n == n).getD { n := n, w0 := 0, w1 := 0, w2 := 0 }

/-- The permission bit an access needs (R313). -/
def windowAllows (w : Window) (k : LinkKind) : Bool :=
  match k with
  | .read => w.w0.getLsbD 62
  | .write => w.w0.getLsbD 61
  | .reduce .. => w.w0.getLsbD 60
  | .signal => w.w0.getLsbD 59

/-- Whether an inbound access is refused by its window (R313, R314). -/
def windowRefuses (w : Window) (x : LinkAccess) : Bool :=
  let peer := w.w0.extractLsb' 32 16
  decide (4096 ≤ x.win) || !w.w0.getLsbD 63 || (peer != 0xFFFF && peer != x.peer) || !windowAllows w x.kind ||
    decide (w.w2.toNat < x.off + x.len)

/-- What one part of an inbound access comes to: it is performed; refused; it waits for a page, or at the home. -/
inductive Inbound where
  | ok (s : State) (bytes : List Byte)
  | refused
  | page (va : Word)
  | stall (s : State)
  | notHbm (pa : Nat)

/-- Translates one part and performs it at its home (R314). A page of host memory or of another peer's window, and a poisoned line,
refuse the access, which the spec does not say (log 50). -/
def inboundPart (s : State) (a : Accepted) (va : Word) (f : State → Nat → State × List Byte) : Inbound :=
  let write := a.x.kind != .read
  match translate s (.bench Config.benches) a.asid { write := write, store := write } va with
  | .wait => .page va
  | .busy s1 => .stall s1
  | .bad _ => .refused
  | .notHbm p => .notHbm p
  | .ok (.dev p) s1 => match homeGate s1 (.inboundLinkAccess a.x) p (if write then .home else .read) with
    | some s2 => .stall s2
    | none => if s1.mem.poison.contains (lineAddr p) then .refused else let r := f s1 p; .ok r.1 r.2
  | .ok _ _ => .refused

/-- The parts of an inbound access, `m` bytes at a time; one that does not end keeps nothing but what it asked for. -/
def inboundParts (s : State) (a : Accepted) (m : Nat) (f : State → Nat → List Byte → State × List Byte) :
    Nat → Word → List Byte → Inbound
  | 0, _, _ => .ok s []
  | n + 1, va, l =>
    match inboundPart s a va fun s p => f s p (l.take m) with
    | .ok s1 out => match inboundParts s1 a m f n (va + BitVec.ofNat 64 m) (l.drop m) with
      | .ok s2 rest => .ok s2 (out ++ rest)
      | .stall s2 => .stall (keepAsk s s2)
      | r => r
    | r => r

/-- What one part of an inbound access does at the home (R314). -/
def inboundDo (k : LinkKind) (s : State) (a : Nat) (l : List Byte) : State × List Byte :=
  match k with
  | .read =>
    let s1 := mergedAt s a
    (s1, readBytes s1.mem.dev a 1)
  | .write =>
    let s1 := takeAll (dropStale s) a
    ({ s1 with mem := { s1.mem with dev := writeBytes s1.mem.dev a l } }, [])
  | .reduce op ty =>
    let s1 := takeAll s a
    let v := amoOper op ty (readVal s1.mem.dev a (bytes ty)) (BitVec.ofNat 128 (natOfBytes l))
    ({ s1 with mem := { s1.mem with dev := writeVal s1.mem.dev a (bytes ty) v } }, [])
  | .signal => (fillWord s a (BitVec.ofNat 64 (natOfBytes l)), [])

/-- Bytes of one part. -/
def partBytes : LinkKind → Nat
  | .reduce _ ty => bytes ty
  | .signal => 8
  | _ => 1

/-- The first access that a window has accepted and that is not performed: those behind it wait (R314). -/
def windowHead (s : State) (win : Nat) : Option Accepted := s.fw.inbound.find? fun a => a.x.win == win

/-- An accepted access is over. -/
def endAccepted (s : State) (a : Accepted) (o : Out) : State :=
  let s1 := leaveTurns s (some (.outside (.inboundLinkAccess a.x)))
  emit { s1 with fw := { s1.fw with inbound := s1.fw.inbound.erase a } } o

/-- An accepted access at the head of its window's stream is performed, refused for a fault, or stays (R314). -/
def performAccepted (s : State) (a : Accepted) : Host.Outcome State Fault Refusal :=
  let m := partBytes a.x.kind
  match inboundParts s a m (inboundDo a.x.kind) ((a.x.len + m - 1) / m) (a.base + BitVec.ofNat 64 a.x.off) a.x.data with
  | .ok s1 out => .next (endAccepted s1 a (if a.x.kind == .read then .linkData out else .linkDone))
  | .refused => .next (endAccepted s a .linkRefused)
  | .page va =>
    let s0 := leaveTurns s (some (.outside (.inboundLinkAccess a.x)))
    let s1 := noteFault s0 0 a.asid (va.toNat / 4096) { r := a.x.kind == .read, w := a.x.kind != .read }
    .next { s1 with fw := { s1.fw with
      inbound := modifyFirst (· == a) (fun a => { a with page := some (va.toNat / 4096) }) s1.fw.inbound } }
  | .stall s1 => .next s1
  | .notHbm p => .fault (.notHbm p)

/-- `INBOUND_LINK_ACCESS` (R313, R314): the window refuses the access or accepts it; it is performed when those that the window has
accepted before are. The event of an accepted access takes it further. -/
def execInboundLinkAccess (x : LinkAccess) (s : State) : Host.Outcome State Fault Refusal :=
  let w := getWindow s x.win
  let s1 := if s.fw.inbound.any fun a => a.x == x then s
    else { s with fw := { s.fw with
      inbound := s.fw.inbound ++ [{ x := x, asid := w.w0.setWidth 16, base := w.w1 &&& 0x01FFFFFFFFFFF000 }] } }
  if !(s.fw.inbound.any fun a => a.x == x) && windowRefuses w x then .next (emit s .linkRefused)
  else match windowHead s1 x.win with
    | some a => if a.x == x && a.page.isNone && running s then performAccepted s1 a else .next s1
    | none => .next s1

/-- `INBOUND_WINDOW_TABLE_WRITE` (R313, R314): reserved fields stay 0. -/
def execInboundWindowTableWrite (n : Nat) (w0 w1 w2 : Word) (s : State) : Host.Outcome State Fault Refusal :=
  if 4096 ≤ n then .next s
  else
    let x : Window := { n := n, w0 := w0 &&& 0xF800FFFF0000FFFF, w1 := w1 &&& 0x01FFFFFFFFFFF000, w2 := w2 }
    .next { s with fw := { s.fw with windows := upsert (fun y => y.n == n) x s.fw.windows } }

/-- `LINK_REFUSAL` (R314): the peer refuses a thread's access. -/
def execLinkRefusal (r : Nat) (s : State) : Host.Outcome State Fault Refusal :=
  match findReq s r with
  | some q => .next (if q.st == .peer then fatalAccess s q q.va stLinkRefused else s)
  | none => .next s

/-- What a peer's answer does to the copies of a window line: a write shows in those of its IU and bench, a line that is read enters
the bench L2 and, unless `.nt` or an acquire, the data L1 (R291, R294). -/
def peerCopies (s : State) (q : Req) (p : Phys) (v : BitVec 1024) : State :=
  if isStore q.op then ownPeerCopies s q.bench q.iu p q.n q.dat
  else
    let s1 := l2Keep s q.bench (lineOf p) v
    if q.nt || isAcqOrd q.ord then s1 else l1Put s1 q.bench q.iu (lineOf p) v

/-- `PEER_ACKNOWLEDGEMENT` (R291): a write-through is acknowledged; a read's line, which is the peer's, comes with the event
(log 50). -/
def execPeerAcknowledgement (r : Nat) (v : BitVec 1024) (s : State) : Host.Outcome State Fault Refusal :=
  match findReq s r with
  | some q => match q.st, q.pa with
    | .peer, some p => .next (complete (peerCopies s q p v) q (if isStore q.op then 0 else lineBytes v (lineOff p) q.n))
    | _, _ => .next s
  | none => .next s

/-! The directory, the partition and the ways (R296, R300, R316). -/

/-- The kind of two merged entries; none when they name two owners or one is DEL (R300). -/
def mergeKind (x y : DirKind) : Option DirKind :=
  match x, y with
  | .shr a, .shr b => some (.shr (joinSharers a b))
  | .own a, .shr b | .shr b, .own a => some (.osh a (withoutBench b a))
  | .osh a c, .shr b | .shr b, .osh a c => some (.osh a (joinSharers c (withoutBench b a)))
  | .own a, .own b => if a == b then some (.own a) else none
  | .own a, .osh b c | .osh b c, .own a => if a == b then some (.osh a c) else none
  | .osh a c, .osh b d => if a == b then some (.osh a (joinSharers c d)) else none
  | _, _ => none

/-- `DIRECTORY_REGION_MERGE` (R300): the entry at `base` of `size` bytes and its sibling. -/
def execDirectoryRegionMerge (base size : Nat) (s : State) : Host.Outcome State Fault Refusal :=
  let at' := fun (b : Nat) => s.cache.dir.find? fun e => e.base == b && e.size == size
  match at' base, at' (base + size) with
  | some x, some y =>
    let quiet := fun (e : DirEnt) => decide (e.since + 2 ^ 20 ≤ s.run.now)
    let held := (holdsOf s).any fun h => match h.2.2.line with
      | .dev a => decide (base ≤ a) && decide (a < base + 2 * size)
      | _ => false
    match mergeKind x.kind y.kind with
    | some k =>
      if size == 0 || base % (2 * size) != 0 || decide (32768 < size) || !quiet x || !quiet y || held then .next s
      else .next { s with cache := { s.cache with
        dir := (s.cache.dir.filter fun e => e != x && e != y) ++
          [{ base := base, size := 2 * size, kind := k, since := max x.since y.since }] } }
    | none => .next s
  | _, _ => .next s

/-- Lines of a slice that no longer fit the partition leave it for HBM (R296, R321). -/
def shrinkSlice (slice : Nat) : Nat → State → State
  | 0, s => s
  | n + 1, s =>
    if partUsed s slice ≤ llcCapacity s then s
    else match partVictim s slice with
      | some v => shrinkSlice slice n (startMove s v.key .hbm v.bench)
      | none => s

/-- Lines that no longer fit the data ways of their LLC slice leave it (R296). -/
def fitLlc (s : State) : State :=
  ((s.cache.llc.map fun x => Phys.dev x.addr) ++ (s.cache.l2.filter fun x => x.bench == llcAgent).map (·.line)).foldl
    (fun s p => if (llcRivals s p).length < llcDataWays s (Config.sliceOf (lineNo p)) then s else llcDrop s p) s

/-- `LLC_CONTEXT_PARTITION_RESIZE` (R296): steps of 64 MiB, at most 16, split evenly over the four slices; ways that become context
ways give up their data. -/
def execLlcContextPartitionResize (steps : Nat) (s : State) : Host.Outcome State Fault Refusal :=
  if 16 < steps then .next s
  else
    let s1 := (List.range 4).foldl (fun s i => shrinkSlice i (partUsed s i) s) { s with cache := { s.cache with part := steps } }
    .next (fitLlc s1)

/-- Whether the line with number `i` lies in the way that is gated: free (R316, log 2). -/
def inWay (f i : Nat) : Bool := Config.freePick (f + i) % 2 == 0

/-- The lines of an LLC slice: device lines, and host lines that stand in it (R292, R295). -/
def sliceLines (s : State) (slice : Nat) : List Phys :=
  ((s.cache.llc.map fun x => Phys.dev x.addr) ++ (s.cache.l2.filter fun x => x.bench == llcAgent).map (·.line)).filter fun p =>
    Config.sliceOf (lineNo p) == slice

/-- The lines of a level that lie in the way. -/
def wayLines (s : State) (lvl : CacheLevel) : List Phys :=
  let l : List Phys := match lvl with
    | .l1 b u => (s.cache.l1.filter fun (x : L1Line) => x.bench == b && x.iu == u).map L1Line.line
    | .l2 b => (s.cache.l2.filter fun (x : L2Line) => x.bench == b).map L2Line.line
    | .llc d => sliceLines s d
  (l.zipIdx.filter fun x => inWay s.run.fresh x.2).map (·.1)

/-- Gives up one line of a gated way: D copies are merged, host lines resolved, the directory follows (R304, R316). -/
def gateLine (lvl : CacheLevel) (s : State) (p : Phys) : State :=
  match lvl with
  | .l1 b u => { s with cache := { s.cache with l1 := s.cache.l1.filter fun y => !(y.bench == b && y.iu == u && y.line == p) } }
  | .l2 b => match s.cache.l2.find? fun x => x.bench == b && x.line == p with
    | some x =>
      let s1 := l2Evict s x
      match p with
      | .dev a => dirPut s1 a
      | _ => s1
    | none => s
  | .llc _ => llcDrop s p

/-- Whether a level has a way of a number (R292). -/
def wayExists (lvl : CacheLevel) (way : Nat) : Bool :=
  match lvl with
  | .l1 b u => decide (b < Config.benches) && decide (u < Config.iusPerBench) && decide (way < Config.l1Ways)
  | .l2 b => decide (b < Config.benches) && decide (way < Config.l2Ways)
  | .llc d => decide (d < 4) && decide (way < Config.llcWays)

/-- `CACHE_WAY_GATE` (R316): a way with a line under a hold is not gated; a re-enabled way holds nothing. -/
def execCacheWayGate (lvl : CacheLevel) (way : Nat) (off : Bool) (s : State) : Host.Outcome State Fault Refusal :=
  if !wayExists lvl way then .next s
  else if !off then .next { s with cache := { s.cache with gated := s.cache.gated.erase (lvl, way) } }
  else if s.cache.gated.contains (lvl, way) then .next s
  else
    let ls := wayLines s lvl
    if ls.any fun x => (lineHold s x).isSome then .next s
    else
      let n := s.cache.l1.length + s.cache.l2.length + s.cache.llc.length
      let s1 := ls.foldl (gateLine lvl) { s with run := { s.run with fresh := s.run.fresh + n } }
      .next { s1 with cache := { s1.cache with gated := s1.cache.gated ++ [(lvl, way)] } }

end Sys2Proof.Machine
end

