-- ==== Sys2Proof/Machine/Clock.lean ====
section
/-! DEFINITION. Time: what a cycle is, what has to happen before and when it passes (R191, R196, R325, R330, R331, log 83), and the move
that is made when the agenda names none (log 1). -/

namespace Sys2Proof.Machine
open Sys2Proof.Forms

/-! The passing of time. -/

/-- Whether a held line has had its turn in this cycle: its IU has issued, or has tried the line in vain (R191, R325). -/
def heldServed (s : State) (t : Thread) : Bool :=
  let x := getIu s t.bench (iuAt t)
  spentNow s x || (skipsNow s x).contains t.key

/-- Whether a line may issue now on an IU that runs. -/
def readyHere (s : State) (t : Thread) : Bool := inCl1 t && isReady s t && iuRuns s t.bench (iuAt t)

/-- A held line that is ready and waits for its turn in this cycle. -/
def heldWaits (s : State) (t : Thread) : Bool := t.ctx.hact && readyHere s t && !heldServed s t

/-- A request that may be performed and has not been tried in this cycle. -/
def untried (s : State) (r : Req) : Bool := mayPerform s r && !s.run.tried.contains r.id

/-- An access of a thread that holds a line, which this cycle still has to try. -/
def holderAccess (s : State) (r : Req) : Bool := untried s r && ((findThread s r.key).map (·.ctx.hact)).getD false

/-- Whether the cycle may end: ready held lines have had their turn and their accesses were tried, so that a sequence of R196 is over
before its lease is (log 83). -/
def mayPass (s : State) : Bool := !(s.threads.any (heldWaits s)) && !(s.flight.reqs.any (holderAccess s))

/-- Every hold whose lease has run out ends (R191). -/
def expireAll (s : State) : State :=
  s.ius.foldl (fun s x => (List.range Config.holdRegs).foldl (fun s i => expire s x.bench x.iu i) s) s

/-- The state that an event gives, which neither faults nor refuses. -/
def stateOf (s : State) (o : Host.Outcome State Fault Refusal) : State :=
  match o with
  | .next s1 => s1
  | _ => s

/-- What a bench owes a line that has been at level 15 for 65,536 cycles: a pull by an IU that can, else a swap (R328, R330, R331). -/
def serveLate (s : State) (b : Nat) : State :=
  match (List.range Config.iusPerBench).find? (canPull s b) with
  | some u => stateOf s (execLinePull b u s)
  | none => stateOf s (execReadyListSwap b s)

/-- The benches that owe a line its place. -/
def lateBenches (s : State) : List Nat :=
  (((s.threads.filter fun t => t.ready.isSome).map (·.bench)).eraseDups).filter (lateLine s)

/-- Whether a set's halt is on its way to an IU. -/
def haltPending (s : State) : Bool := s.ius.any fun x => x.haltDue.isSome

/-- IUs whose set's halt arrives in this cycle stop (R398). -/
def haltDueIus (s : State) : State :=
  (s.ius.filter fun x => (x.haltDue.map fun t => decide (t ≤ s.run.now)).getD false).foldl (fun s x => haltIu s x.bench x.iu) s

/-- Some cycles pass: leases run out, halts arrive, benches do what they owe. -/
def passCycles (s : State) (n : Nat) : State :=
  let s1 := haltDueIus <| expireAll { s with run := { s.run with now := s.run.now + n, tried := [] } }
  (lateBenches s1).foldl serveLate s1

/-- Time passes: one cycle at a time while a line is held, a halt is on its way or a bench owes a line its place, and not before
the present cycle may end. -/
def passTime (s : State) (n : Nat) : State :=
  if n == 0 || !mayPass s then s
  else passCycles s (if (holdsOf s).isEmpty && !haltPending s && (lateBenches s).isEmpty then n else 1)

/-- An IU that has used up the present cycle issues in the next one (R325). -/
def openIssue (s : State) (b u : Nat) : State := if spentNow s (getIu s b u) then passTime s 1 else s

/-! Events. -/

/-- The request that an event tries. -/
def triedBy (i : Instr) : Option Nat :=
  match i with
  | .deliverResult r | .storePerform r | .holdGrant r | .syncAccessArrival r | .barStep r | .streamExecute r _ => some r
  | _ => none

/-- An event is no issue; the request that it tries is tried in this cycle. -/
def beginEvent (s : State) (i : Instr) : State :=
  { s with run := { s.run with cur := none, ir := none, tried := (triedBy i).toList ++ s.run.tried } }

/-- The event that takes a request further. -/
def reqEvent (r : Req) : Instr :=
  match r.op with
  | .hold true => .holdGrant r.id
  | .bar => .barStep r.id
  | .strm .. => .streamExecute r.id 64
  | o => if isSync o then .syncAccessArrival r.id else if isStoreOp o then .storePerform r.id else .deliverResult r.id

/-! The default move (log 1). -/

/-- Whether an instruction that waits can complete or issue again. -/
def canReissue (s : State) (t : Thread) : Bool :=
  match t.wait with
  | .fence o scp => mayComplete s { t with pend := none } && fenceReady s t o scp
  | .exit => mayComplete s t && (exitReady s t || t.ctx.hact)
  | .move .. => mayComplete s t && (moveReady s t || t.ctx.hact)
  | .eret => mayComplete s t && eretReady s t
  | .limit => mayResume s t && decide (t.ctx.outst < 15)
  | .engq => mayResume s t && !queueFull s t.bench (iuAt t)
  | .tile idx j _ => mayResume s t && frameReady s t.key.asid idx j
  | _ => false

/-- Whether a trap that waited for `OUTST` = 0 can be entered (R33). -/
def canEnter (t : Thread) : Bool :=
  t.pend.isSome && t.ctx.outst == 0 && !isMoving t && !t.ctx.frz && !t.cancel && t.wait == .drain

/-- The pull that is due at a bench with listed lines. -/
def pullDue (s : State) : Option Move :=
  (((s.threads.filter fun t => t.ready.isSome).map (·.bench)).eraseDups).findSome? fun b =>
    if (listHead s b).isNone then none else ((List.range Config.iusPerBench).find? (canPull s b)).map fun u => .event (.linePull b u)

/-- What comes next when no thread can issue and no request can be tried: a wait that ends, a trap that waited, a line that lands, a
pull, else a cycle passes. -/
def quietMove (s : State) : Move :=
  match s.threads.find? (canReissue s) with
  | some t => .event (.instructionReissue t.key)
  | none => match s.threads.find? canEnter with
    | some t => .event (.trapEntry t.key)
    | none => match s.threads.find? isMoving with
      | some t => .event (.lineTransferArrival t.key)
      | none => (pullDue s).getD (.idle 1)

/-- What happens next when the agenda names nothing: a held line issues, else the oldest request that can be tried is, else the first
ready line whose IU has the cycle left issues, else what `quietMove` says (log 1). -/
def defaultMove (s : State) : Move :=
  match s.threads.find? (heldWaits s) with
  | some t => .issue t.bench (iuAt t)
  | none => match s.flight.reqs.find? (untried s) with
    | some r => .event (reqEvent r)
    | none => match s.threads.find? fun t => readyHere s t && !heldServed s t with
      | some t => .issue t.bench (iuAt t)
      | none => quietMove s

end Sys2Proof.Machine
end

