-- ==== Sys2Proof/Machine/Control.lean ====
section
/-! DEFINITION. Predicates and control transfer, group 001 (R137 to R146). -/

namespace Sys2Proof.Machine
open Sys2Proof.Forms

/-- `PLOG` (R137). -/
def execPlog (h : Hdr) (d a b c : BitVec 3) (tt : BitVec 8) (s : State) : Host.Outcome State Fault Refusal :=
  issue s (.plog h d a b c tt) h false [] fun s t =>
    let n := fun (p : BitVec 3) => if getP t.ctx p then 1 else 0
    finish s t (setP t.ctx d (tt.getLsbD (4 * n a + 2 * n b + n c)))

/-- `PMOV.get` (R138). -/
def execPmovGet (h : Hdr) (d : Opd) (s : State) : Host.Outcome State Fault Refusal :=
  issue s (.pmovGet h d) h false [(1, d, false)] fun s t =>
    finish s t (setDst t.ctx d false ((t.ctx.p ||| 1).setWidth 128))

/-- `PMOV.set`: bit n of the mask is AUX bit n, so bit n - 1 of `PM` (R138). -/
def execPmovSet (h : Hdr) (a : Opd) (pm : BitVec 7) (s : State) : Host.Outcome State Fault Refusal :=
  issue s (.pmovSet h a pm) h false [(2, a, false)] fun s t =>
    let m : BitVec 8 := pm ++ (0 : BitVec 1)
    let v : BitVec 8 := (sVal s t a).setWidth 8
    finish s t { t.ctx with p := (t.ctx.p &&& ~~~m) ||| (v &&& m) }

/-- The target of a class B instruction (R69, R139). -/
def branchTarget (pc : VAddr) (disp : BitVec 32) : VAddr := pc + 12 * disp.signExtend 57

/-- The reason a register target is refused (R139). -/
def badTarget (v : Word) : Option (BitVec 8) :=
  if v.extractLsb' 0 2 != 0 then some 0x01 else if v.extractLsb' 57 7 != 0 then some 0x02 else none

/-- A jump after the register checks. -/
def jumpTo (s : State) (t : Thread) (c : Ctx) (pc : VAddr) : Did := .done (setThread s { t with ctx := c }) pc .run

/-- `BR` (R140). -/
def execBr (h : Hdr) (disp : BitVec 32) (s : State) : Host.Outcome State Fault Refusal :=
  issue s (.br h disp) h false [] fun s t => jumpTo s t t.ctx (branchTarget t.ctx.pc disp)

/-- `JMP` (R140). -/
def execJmp (h : Hdr) (a : Opd) (s : State) : Host.Outcome State Fault Refusal :=
  issue s (.jmp h a) h false [(2, a, false)] fun s t =>
    let v := sVal s t a
    match badTarget v with
    | some r => misaligned r v
    | none => jumpTo s t t.ctx (v.setWidth 57)

/-- One of the two stores of a return entry (R141). -/
def pushWord (s : State) (k : Key) (i : Instr) (va v : Word) : Sent :=
  match findThread s k with
  | none => .ok s
  | some t =>
    let e := enter s t { newReq .st va 8 .b64 i with dat := v.setWidth 128 } false false
    resolve e.1 e.2

/-- The push and the jump of `CALL` and `CALLR` (R141). -/
def callTo (s : State) (t : Thread) (i : Instr) (target : VAddr) : Did :=
  if t.ctx.s3.extractLsb' 0 4 != 0 then misaligned 0x03 t.ctx.s3
  else if decide (Config.reqEntries < entriesUsed s t.bench (iuAt t) + 2) then .skip s
  else
    let sp := t.ctx.s3 - 16
    match pushWord s t.key i sp ((t.ctx.pc + 12).setWidth 64) with
    | .notHbm a => .notHbm a
    | .ok s1 => match pushWord s1 t.key i (sp + 8) 0 with
      | .notHbm a => .notHbm a
      | .ok s2 => .done (onThread s2 t.key fun t => { t with ctx := { t.ctx with s3 := sp } }) target .run

/-- `CALL` (R141). -/
def execCall (h : Hdr) (disp : BitVec 32) (s : State) : Host.Outcome State Fault Refusal :=
  issue s (.call h disp) h false [(6, .s 3, false)] fun s t =>
    callTo s t (.call h disp) (branchTarget t.ctx.pc disp)

/-- `CALLR` (R141). -/
def execCallr (h : Hdr) (a : Opd) (s : State) : Host.Outcome State Fault Refusal :=
  issue s (.callr h a) h false [(2, a, false), (6, .s 3, false)] fun s t =>
    let v := sVal s t a
    match badTarget v with
    | some r => misaligned r v
    | none => callTo s t (.callr h a) (v.setWidth 57)

/-- `RET` (R142). -/
def execRet (h : Hdr) (s : State) : Host.Outcome State Fault Refusal :=
  issue s (.ret h) h false [(6, .s 3, false)] fun s t =>
    limited s t (
      if t.ctx.s3.extractLsb' 0 4 != 0 then misaligned 0x03 t.ctx.s3
      else submit s t { newReq .ret t.ctx.s3 8 .b64 (.ret h) with dst := .s 3 } true true t.ctx.pc .ret)

/-- `DBNZ` (R144). -/
def execDbnz (h : Hdr) (d : Opd) (disp : BitVec 32) (s : State) : Host.Outcome State Fault Refusal :=
  issue s (.dbnz h d disp) h false [(1, d, false)] fun s t =>
    let v := sVal s t d - 1
    jumpTo s t (setDst t.ctx d false (v.setWidth 128))
      (if v != 0 then branchTarget t.ctx.pc disp else t.ctx.pc + 12)

/-- `NOP` (R145). -/
def execNop (h : Hdr) (s : State) : Host.Outcome State Fault Refusal :=
  issue s (.nop h) h false [] fun s t => finish s t t.ctx

end Sys2Proof.Machine
end

