-- ==== Sys2Proof/Machine/Freeze.lean ====
section
/-! DEFINITION. Front ends: their accesses and token fills, freezing a queue, cancelling its packets, launches and threads,
and destruction (R377, R382, R383, R386, R388 to R392). -/

namespace Sys2Proof.Machine
open Sys2Proof.Forms

def findQueue (s : State) (fn qid : Nat) : Option Queue := s.queues.qs.find? fun q => q.fn == fn && q.qid == qid

/-- On whose behalf the front end of a queue works (R376; log 60). -/
def feWho (q : Queue) : Who := { bench := queueBench q, asid := q.asid, sup := true, asker := some (.queue q.fn q.qid) }

/-- A field of a packet: `n` bits from bit `lo` of word `i`. -/
def pkFld (p : Packet) (i lo n : Nat) : Word := (p.words.getD i 0).extractLsb' lo n |>.setWidth 64

/-- `CTOK` (R382). -/
def pkCtok (p : Packet) : Word := pkFld p 13 0 57

/-- The address of the ring entry of a packet index (R377). -/
def ringVa (q : Queue) (k : BitVec 32) : Word :=
  (q.rbase &&& ~~~127).setWidth 64 + BitVec.ofNat 64 (128 * (k.toNat % 2 ^ q.rsize.toNat))

def setPk (s : State) (q : Queue) (p : Option Packet) : State := onQueue s q.fn q.qid fun q => queueState { q with pk := p }

/-- The front end waits for a page of its packet's access. -/
def fePage (s : State) (q : Queue) (p : Packet) (va : Word) (k : Want) : State :=
  setPk (noteFault s (queueBench q) q.asid (va.toNat / 4096) (kindsOf k)) q (some { p with fault := some va.toNat })

/-- A front end's translation for a token (R382, R383). -/
def tokenWant : Want := { write := true, store := true, sup := true }

/-- A fill of a token by a front end (R41, R383): a device-scope release. -/
def feFill (s : State) (q : Queue) (tok v : Word) : Res Unit :=
  if tok == 0 then .ok s ()
  else if tok.extractLsb' 0 3 != 0 then .stop (.bad tok stTokenNomem)
  else match translate s (.bench (queueBench q)) q.asid tokenWant tok with
    | .wait => .stop (.wait tok tokenWant)
    | .busy s1 => .stop (.blocked s1)
    | .bad st => .stop (.bad tok st)
    | .notHbm a => .stop (.notHbm a)
    | .ok p s1 =>
      if !isDev p then .stop (.bad tok stTokenNomem)
      else match homeTurn s1 p (.queue q.fn q.qid) with
        | .done s2 _ => .ok (fillWord s2 (devAddr p) v) ()
        | .blocked s2 | .outside s2 => .stop (.blocked s2)
        | .bad st => .stop (.bad tok st)

/-! Freezing (R388). -/

/-- Reads of a queue's front ends, and their places at lines, are given up. -/
def dropDeps (s : State) (fn qid : Nat) : State :=
  let mine := fun (r : Req) => match r.op with
    | .dep f q _ => f == fn && q == qid
    | _ => false
  leaveTurns ((s.flight.reqs.filter mine).foldl (fun s r => dropReq s r.id) s) (some (.queue fn qid))

/-- `CTOK` of a ring entry as it stands, when its page is there (R388). -/
def readCtok (s : State) (q : Queue) (va : Word) : Option Word :=
  match readWord s (feWho q) (va + 104) with
  | .ok _ w => some ((w.setWidth 57).setWidth 64)
  | .stop _ => none

/-- The packets that a freeze cancels: those from `RIDX` up, at most one ring, but for a launch that is being written and a
packet whose token is about to be filled (R388). -/
def toCancel (s : State) (q : Queue) : List (Word × Option Word) :=
  let n := min (q.widx - q.ridx).toNat (2 ^ q.rsize.toNat)
  let all := (List.range n).map fun i => ringVa q (q.ridx + BitVec.ofNat 32 i)
  let rest := fun (l : List Word) => l.map fun va => (va, readCtok s q va)
  match q.pk with
  | some p => match p.st with
    | .writing | .finishing _ => rest (all.drop 1)
    | .unread => rest all
    | _ => (all.take 1).map (fun va => (va, some (pkCtok p))) ++ rest (all.drop 1)
  | none => rest all

/-- What stays of the packet at `RIDX` when the queue stops: a launch loses its uncreated crews and passes; a token that is
about to be filled is filled (R388, R390). -/
def stopPacket (q : Queue) : Queue :=
  match q.pk with
  | some p => match p.st with
    | .writing => { passPacket q with incomplete := q.incomplete + 1 }
    | .finishing _ => q
    | _ => { q with pk := none, fes := [], depdec := 0, depst := 0 }
  | none => q

/-- The launches of a queue that hold a launch slot. -/
def launchesOf (s : State) (fn qid : Nat) : List LaunchSlot :=
  s.queues.launches.filter fun l => l.fn == fn && l.qid == qid

/-- Whether a thread belongs to one of some launches. -/
def ofLaunches (ls : List LaunchSlot) (t : Thread) : Bool :=
  ls.any fun l => l.asid == t.key.asid && l.n == t.ctx.lslot.toNat && t.ctx.lslot != 0xFF

/-- The front ends return the ids that they hold for crews of a launch (R334, R336). -/
def returnHeld (s : State) (l : LaunchSlot) : State :=
  let s1 := onSpace s l.asid fun x => (l.held.flatMap (·.2)).foldr (fun i x => returnId x i) x
  { s1 with queues := { s1.queues with
    launches := s1.queues.launches.map fun x => if x.n == l.n then { x with held := [] } else x } }

/-- The launches of a queue are cancelled: no further crew, and their threads that are not frozen are to be cancelled
(R388, R389). -/
def cancelLaunches (s0 : State) (fn qid : Nat) : State :=
  let ls := launchesOf s0 fn qid
  let s := ls.foldl returnHeld s0
  let stop := fun (l : LaunchSlot) =>
    if l.fn == fn && l.qid == qid then { l with written := true, cancelled := l.cancelled || !l.filled } else l
  { s with
    queues := { s.queues with launches := s.queues.launches.map stop }
    threads := s.threads.map fun t => if ofLaunches ls t && !t.ctx.frz then { t with cancel := true } else t }

/-- Whether a command is in progress for a launch of the queue, or is a `COPY` of it (R253, R364). -/
def freezesCmd (ls : List LaunchSlot) (fn qid : Nat) (c : Cmd) : Bool :=
  c.packet == some (fn, qid) ||
    (c.packet.isNone && c.st == .started && ls.any fun l => l.asid == c.key.asid && l.n == c.lslot.toNat)

/-- Freezes a queue (R388); a queue that is frozen or being destroyed stays so. -/
def freezeQueue (s : State) (fn qid : Nat) (reason : BitVec 8) (va : Word) : State :=
  match findQueue s fn qid with
  | none => s
  | some q =>
    if q.st == .frozen || q.st == .destroying then s
    else
      let ls := launchesOf s fn qid
      let l := toCancel s q
      let s1 := onQueue (dropDeps s fn qid) fn qid fun q =>
        { stopPacket q with st := .frozen, qerr := reason, qeva := va, pending := false, cancels := l }
      markCancelled (cancelLaunches s1 fn qid) (freezesCmd ls fn qid)

/-- The outcome of a front end's access that does not go on. -/
def feStop (s : State) (q : Queue) (p : Packet) (reason : BitVec 8) (x : Stop) : Host.Outcome State Fault Refusal :=
  match x with
  | .notHbm a => .fault (.notHbm a)
  | .blocked s1 => .next s1
  | .wait va k => .next (fePage s q p va k)
  | .bad va _ => .next (freezeQueue s q.fn q.qid reason va)

/-- The packet at `RIDX` completes with a status: its token, then `DONEPK`; a token that cannot be filled freezes the queue
(R383, R388). -/
def finishPacket (s : State) (q : Queue) (p : Packet) (stat : BitVec 16) : Host.Outcome State Fault Refusal :=
  let p1 := { p with st := .finishing stat }
  match feFill s q (pkCtok p) (tokenWord stat 0) with
  | .ok s1 _ => .next (donePacket s1 q)
  | .stop (.bad va _) => .next (freezeQueue (donePacket s q) q.fn q.qid 0x03 va)
  | .stop (.blocked s1) => .next (setPk s1 q (some p1))
  | .stop x => feStop s q p1 0x03 x

/-! Cancelled packets (R388). -/

/-- The first cancelled packet is completed. -/
def popCancel (s : State) (q : Queue) : State :=
  onQueue s q.fn q.qid fun q =>
    let q1 := { q with cancels := q.cancels.drop 1, donepk := q.donepk + 1, doneAt := s.run.now }
    if q.st == .frozen then { q1 with ridx := q.ridx + 1 } else q1

/-- Completes the next cancelled packet of a queue with CANCELLED; an entry or token that cannot be reached is passed. -/
def cancelNext (s : State) (q : Queue) : Host.Outcome State Fault Refusal :=
  match q.cancels with
  | [] => .next s
  | (va, tok) :: _ =>
    if q.cfault.isSome then .next s
    else
      let r := match tok with
        | some t => feFill s q t (tokenWord 1 0)
        | none => (readWord s (feWho q) (va + 104)).bind fun s w => feFill s q ((w.setWidth 57).setWidth 64) (tokenWord 1 0)
      match r with
      | .ok s1 _ => .next (popCancel s1 q)
      | .stop (.bad _ _) => .next (popCancel s q)
      | .stop (.blocked s1) => .next s1
      | .stop (.notHbm a) => .fault (.notHbm a)
      | .stop (.wait va k) => .next (onQueue (noteFault s (queueBench q) q.asid (va.toNat / 4096) (kindsOf k)) q.fn q.qid
          fun q => { q with cfault := some va.toNat })

/-- The reason of a freeze that is due: one that an access gave, a frozen thread of a launch, else firmware's request
(R274, R388). -/
def freezeReason (s : State) (fn qid : Nat) : BitVec 8 × Word :=
  match s.queues.due.find? fun x => x.1 == fn && x.2.1 == qid with
  | some x => x.2.2
  | none =>
    if s.threads.any fun t => t.ctx.frz && ofLaunches (launchesOf s fn qid) t then (0x01, 0) else (0x09, 0)

/-- `QUEUE_FREEZE` (R274, R388): the queue is frozen for the reason that is due, or at firmware's request; then its cancelled
packets complete one by one. -/
def execQueueFreeze (fn qid : Nat) (s : State) : Host.Outcome State Fault Refusal :=
  match findQueue s fn qid with
  | none => .next s
  | some q =>
    if q.st == .frozen || q.st == .destroying then cancelNext s q
    else
      let x := freezeReason s fn qid
      let s1 := freezeQueue s fn qid x.1 x.2
      .next { s1 with queues := { s1.queues with due := s1.queues.due.filter fun y => !(y.1 == fn && y.2.1 == qid) } }

/-- `QUEUE_HANG_TIMEOUT` (R388): the watchdog. -/
def execQueueHangTimeout (fn qid : Nat) (s : State) : Host.Outcome State Fault Refusal :=
  match findQueue s fn qid with
  | none => .next s
  | some q =>
    if q.st == .active && q.tmo != 0 && decide (q.doneAt + q.tmo.toNat * 2 ^ 20 ≤ s.run.now) then
      .next (freezeQueue s fn qid 0x06 0)
    else .next s

/-! Cancelling a thread (R188, R389). -/

/-- What is left of a thread's requests when its line is gone: stores and waiters go on without it; holds that were asked
for, records and fetches go with the line. -/
def released (k : Key) (r : Req) : Option Req :=
  if r.key != k then some r
  else
    let gone := r.op == .hold true || r.op == .fetch || r.op == .ret || r.op == .token || match r.st with
      | .record .. | .unrecorded .. | .ended .. | .replay (some _) => true
      | _ => false
    if gone then none else some { r with key := ⟨k.asid, 0⟩, ri := none }

/-- The requests of a thread whose line is released. -/
def orphanReqs (s : State) (k : Key) : State :=
  let s1 := (s.flight.reqs.filter fun r => (released k r).isNone).foldl (fun s r => dropReq s r.id) s
  { s1 with flight := { s1.flight with reqs := s1.flight.reqs.filterMap (released k) } }

/-- Saved commands are to end with CANCELLED, like queued ones: their tokens are filled when they are in their queue again (R357,
R358, R389, log 90). -/
def cancelSaved (s : State) (hit : Space → CmdSave → Bool) : State :=
  { s with spaces := s.spaces.map fun x => { x with cmdSave := x.cmdSave.map fun e => if hit x e then { e with status := 1 } else e } }

/-- Cancels a thread (R389): its holds end, its commands end with CANCELLED, its line is released, its id returned. -/
def cancelThread (s : State) (t : Thread) : State :=
  let s1 := markCancelled (endHolds s t.key) fun c => c.key == t.key && c.uid == t.uid && c.packet.isNone
  let s2 := cancelSaved s1 fun x e => x.asid == t.key.asid && e.ctx == t.key.ctx && e.uid == t.uid
  retireThread (orphanReqs s2 t.key) t

/-- Whether a thread that is to be cancelled is at a switch point: it is parked, or cannot issue (R389). -/
def cancelNow (s : State) (t : Thread) : Bool := parked t || t.ctx.dhalt || suspended s t.key.asid

/-- `THREAD_CANCEL` (R389). -/
def execThreadCancel (k : Key) (s : State) : Host.Outcome State Fault Refusal :=
  match findThread s k with
  | none => .next s
  | some t => if t.cancel && !t.ctx.frz && cancelNow s t then .next (cancelThread s t) else .next s

/-! Destruction (R390). -/

/-- A started `WAIT` completes with CANCELLED when its queue is destroyed (log 61). -/
def destroyCancels (q : Queue) : List (Word × Option Word) :=
  match q.pk with
  | some p => match p.st with
    | .reading | .rereadAt _ => [(0, some (pkCtok p))]
    | _ => []
  | none => []

/-- Firmware releases the frozen threads of a queue. -/
def releaseFrozen (s : State) (fn qid : Nat) : State :=
  let ls := launchesOf s fn qid
  (s.threads.filter fun t => t.ctx.frz && ofLaunches ls t).foldl cancelThread s

/-- The beginning of a destruction. -/
def beginDestroy (s : State) (q : Queue) : State :=
  let ls := launchesOf s q.fn q.qid
  let mine := fun (asid : BitVec 16) (n : BitVec 8) => ls.any fun l => l.asid == asid && l.n == n.toNat
  let s1 := onQueue (dropDeps s q.fn q.qid) q.fn q.qid fun q =>
    { stopPacket q with st := .destroying, pending := false, cancels := q.cancels ++ destroyCancels q }
  let s2 := markCancelled (cancelLaunches s1 q.fn q.qid) fun c =>
    c.packet == some (q.fn, q.qid) || (c.packet.isNone && mine c.key.asid c.lslot)
  releaseFrozen (cancelSaved s2 fun x e => mine x.asid e.lslot) q.fn q.qid

/-- Whether a destruction is complete (R390). -/
def destroyed (s : State) (q : Queue) : Bool :=
  q.cancels.isEmpty && q.pk.isNone && (launchesOf s q.fn q.qid).isEmpty &&
    !(s.eng.cmds.any fun c => c.packet == some (q.fn, q.qid))

/-- `QUEUE_DESTROY` (R390): the destruction begins; when nothing of the queue is left, its slot and control block are freed. -/
def execQueueDestroy (fn qid : Nat) (s : State) : Host.Outcome State Fault Refusal :=
  match findQueue s fn qid with
  | none => .next s
  | some q =>
    if q.st != .destroying then .next (beginDestroy s q)
    else if destroyed s q then
      .next { s with queues := { s.queues with
        qs := s.queues.qs.filter fun x => !(x.fn == fn && x.qid == qid)
        due := s.queues.due.filter fun y => !(y.1 == fn && y.2.1 == qid) } }
    else .next (releaseFrozen s fn qid)

end Sys2Proof.Machine
end

