-- ==== Sys2Proof/Machine/Integer.lean ====
section
/-! DEFINITION. Integer instructions, group 000 (05_integer_and_control R125 to R136). -/

namespace Sys2Proof.Machine
open Sys2Proof.Forms

/-- `OPER` of an instruction of two operands: width, signed reading, a, b (R129). -/
abbrev Oper2 := (w : Nat) → Bool → BitVec w → BitVec w → BitVec w

/-- `OPER` of a unary instruction. -/
abbrev Oper1 := (w : Nat) → BitVec w → BitVec w

/-- Number of leading zero bits among the low `k` bits (R129). -/
def clzBits {w : Nat} (a : BitVec w) : Nat → Nat
  | 0 => 0
  | k + 1 => if a.getLsbD k then 0 else 1 + clzBits a k

/-- Number of trailing zero bits from bit `i` on, over `k` bits. -/
def ctzBits {w : Nat} (a : BitVec w) (i : Nat) : Nat → Nat
  | 0 => 0
  | k + 1 => if a.getLsbD i then 0 else 1 + ctzBits a (i + 1) k

/-- Number of one bits among the low `k` bits. -/
def popBits {w : Nat} (a : BitVec w) : Nat → Nat
  | 0 => 0
  | k + 1 => (if a.getLsbD k then 1 else 0) + popBits a k

/-- The value whose bit `j` is bit `w - 1 - j` (R129). -/
def revBits {w : Nat} (a : BitVec w) : Nat → BitVec w
  | 0 => 0
  | k + 1 => (revBits a k) ||| (BitVec.ofNat w (if a.getLsbD (w - 1 - k) then 1 else 0) <<< k)

/-- The value whose byte `j` is byte `w/8 - 1 - j` (R129). -/
def revBytes {w : Nat} (a : BitVec w) : Nat → BitVec w
  | 0 => 0
  | k + 1 => (revBytes a k) ||| (((a >>> (8 * (w / 8 - 1 - k))) &&& 0xFF) <<< (8 * k))

/-- The shift count (R130). -/
def shiftCount {w : Nat} (b : BitVec w) : Nat := b.toNat % w

def operAdd : Oper2 := fun _ _ a b => a + b
def operSub : Oper2 := fun _ _ a b => a - b
def operMul : Oper2 := fun _ _ a b => a * b

/-- The high half of the exact product (R129). -/
def operMulh : Oper2 := fun w sg a b =>
  if sg then BitVec.ofInt w (a.toInt * b.toInt / (2 ^ w : Nat)) else BitVec.ofNat w (a.toNat * b.toNat / 2 ^ w)

/-- Quotients (R99). -/
def operDiv : Oper2 := fun w sg a b =>
  if b = 0 then BitVec.allOnes w
  else if sg then BitVec.ofInt w (a.toInt.tdiv b.toInt) else BitVec.ofNat w (a.toNat / b.toNat)

/-- Remainders (R99). -/
def operRem : Oper2 := fun w sg a b =>
  if b = 0 then a
  else if sg then BitVec.ofInt w (a.toInt.tmod b.toInt) else BitVec.ofNat w (a.toNat % b.toNat)

def operAnd : Oper2 := fun _ _ a b => a &&& b
def operOr : Oper2 := fun _ _ a b => a ||| b
def operXor : Oper2 := fun _ _ a b => a ^^^ b
def operAndn : Oper2 := fun _ _ a b => a &&& ~~~b
def operOrn : Oper2 := fun _ _ a b => a ||| ~~~b
def operShl : Oper2 := fun _ _ a b => a <<< shiftCount b
def operShr : Oper2 := fun _ _ a b => a >>> shiftCount b
def operSar : Oper2 := fun _ _ a b => a.sshiftRight (shiftCount b)
def operRol : Oper2 := fun _ _ a b => a.rotateLeft (shiftCount b)
def operRor : Oper2 := fun _ _ a b => a.rotateRight (shiftCount b)
def operMin : Oper2 := fun _ sg a b => if (if sg then a.slt b else a.ult b) then a else b
def operMax : Oper2 := fun _ sg a b => if (if sg then a.slt b else a.ult b) then b else a
def operClz : Oper1 := fun w a => BitVec.ofNat w (clzBits a w)
def operCtz : Oper1 := fun w a => BitVec.ofNat w (ctzBits a 0 w)
def operPopc : Oper1 := fun w a => BitVec.ofNat w (popBits a w)
def operBrev : Oper1 := fun w a => revBits a w
def operBswap : Oper1 := fun w a => revBytes a (w / 8)
def operAbs : Oper1 := fun _ a => if a.msb then -a else a

/-- The condition of `CMP` on one lane (R60, R136). -/
def condHolds {w : Nat} (c : Cond) (sg : Bool) (a b : BitVec w) : Bool :=
  let lt := if sg then a.slt b else a.ult b
  match c with
  | .eq => a == b
  | .ne => a != b
  | .lt => lt
  | .ge => !lt
  | .gt => !lt && a != b
  | .le => lt || a == b
  | .any => (a &&& b) != 0
  | .none => (a &&& b) == 0

/-- The HAZARD list of D, A and B (R23). -/
def dab (t : Ty) (sh : Shape) (d a : Opd) (b : Src) : List (BitVec 8 × Opd × Bool) :=
  [(1, d, wideOf t sh), (2, a, wideOf t sh), (3, srcOpd b, wideOf t sh)]

/-- The common effect of R128 for two sources. -/
def alu2 (s : State) (i : Instr) (h : Hdr) (x : Alu2) (f : Oper2) : Host.Outcome State Fault Refusal :=
  issue s i h false (dab x.ty x.sh x.d x.a x.b) fun s t =>
    let w := width x.ty
    let n := lanes x.sh
    let a := opdVal s t w n (wideOf x.ty x.sh) x.a
    let b := srcVal s t w n (wideOf x.ty x.sh) x.b
    let r := ofLanes w (((lanesOf w a n).zip (lanesOf w b n)).map fun p => f w (signed x.ty) p.1 p.2)
    finish s t (putInt t.ctx x.ty x.sh x.d r)

/-- The common effect of R128 for one source. -/
def alu1 (s : State) (i : Instr) (h : Hdr) (x : Alu1) (f : Oper1) : Host.Outcome State Fault Refusal :=
  issue s i h false (dab x.ty x.sh x.d x.a (.opd .zero)) fun s t =>
    let w := width x.ty
    let n := lanes x.sh
    let a := opdVal s t w n (wideOf x.ty x.sh) x.a
    finish s t (putInt t.ctx x.ty x.sh x.d (ofLanes w ((lanesOf w a n).map (f w))))

def execAdd (h : Hdr) (x : Alu2) (s : State) : Host.Outcome State Fault Refusal := alu2 s (.add h x) h x operAdd
def execSub (h : Hdr) (x : Alu2) (s : State) : Host.Outcome State Fault Refusal := alu2 s (.sub h x) h x operSub
def execMul (h : Hdr) (x : Alu2) (s : State) : Host.Outcome State Fault Refusal := alu2 s (.mul h x) h x operMul
def execMulh (h : Hdr) (x : Alu2) (s : State) : Host.Outcome State Fault Refusal := alu2 s (.mulh h x) h x operMulh
def execDiv (h : Hdr) (x : Alu2) (s : State) : Host.Outcome State Fault Refusal := alu2 s (.div h x) h x operDiv
def execRem (h : Hdr) (x : Alu2) (s : State) : Host.Outcome State Fault Refusal := alu2 s (.rem h x) h x operRem
def execAnd (h : Hdr) (x : Alu2) (s : State) : Host.Outcome State Fault Refusal := alu2 s (.and h x) h x operAnd
def execOr (h : Hdr) (x : Alu2) (s : State) : Host.Outcome State Fault Refusal := alu2 s (.or h x) h x operOr
def execXor (h : Hdr) (x : Alu2) (s : State) : Host.Outcome State Fault Refusal := alu2 s (.xor h x) h x operXor
def execAndn (h : Hdr) (x : Alu2) (s : State) : Host.Outcome State Fault Refusal := alu2 s (.andn h x) h x operAndn
def execOrn (h : Hdr) (x : Alu2) (s : State) : Host.Outcome State Fault Refusal := alu2 s (.orn h x) h x operOrn
def execShl (h : Hdr) (x : Alu2) (s : State) : Host.Outcome State Fault Refusal := alu2 s (.shl h x) h x operShl
def execShr (h : Hdr) (x : Alu2) (s : State) : Host.Outcome State Fault Refusal := alu2 s (.shr h x) h x operShr
def execSar (h : Hdr) (x : Alu2) (s : State) : Host.Outcome State Fault Refusal := alu2 s (.sar h x) h x operSar
def execRol (h : Hdr) (x : Alu2) (s : State) : Host.Outcome State Fault Refusal := alu2 s (.rol h x) h x operRol
def execRor (h : Hdr) (x : Alu2) (s : State) : Host.Outcome State Fault Refusal := alu2 s (.ror h x) h x operRor
def execMin (h : Hdr) (x : Alu2) (s : State) : Host.Outcome State Fault Refusal := alu2 s (.min h x) h x operMin
def execMax (h : Hdr) (x : Alu2) (s : State) : Host.Outcome State Fault Refusal := alu2 s (.max h x) h x operMax
def execClz (h : Hdr) (x : Alu1) (s : State) : Host.Outcome State Fault Refusal := alu1 s (.clz h x) h x operClz
def execCtz (h : Hdr) (x : Alu1) (s : State) : Host.Outcome State Fault Refusal := alu1 s (.ctz h x) h x operCtz
def execPopc (h : Hdr) (x : Alu1) (s : State) : Host.Outcome State Fault Refusal := alu1 s (.popc h x) h x operPopc
def execBrev (h : Hdr) (x : Alu1) (s : State) : Host.Outcome State Fault Refusal := alu1 s (.brev h x) h x operBrev
def execBswap (h : Hdr) (x : Alu1) (s : State) : Host.Outcome State Fault Refusal := alu1 s (.bswap h x) h x operBswap
def execAbs (h : Hdr) (x : Alu1) (s : State) : Host.Outcome State Fault Refusal := alu1 s (.abs h x) h x operAbs

/-- The sum or difference with a carry, and the carry out (R131). -/
def carryOp (sub : Bool) (w : Nat) (a b : BitVec w) (c : Bool) : BitVec w × Bool :=
  let k := if c then 1 else 0
  if sub then (BitVec.ofInt w ((a.toNat : Int) - b.toNat - (k : Nat)), decide (a.toNat < b.toNat + k))
  else (BitVec.ofNat w (a.toNat + b.toNat + k), decide (2 ^ w ≤ a.toNat + b.toNat + k))

/-- The common effect of `ADDX` and `SUBX` (R131). -/
def carryAlu (s : State) (i : Instr) (h : Hdr) (x : AluX) (sub : Bool) : Host.Outcome State Fault Refusal :=
  issue s i h false (dab x.ty .sc x.d x.a x.b) fun s t =>
    let w := width x.ty
    let a := (opdVal s t w 1 false x.a).setWidth w
    let b := (srcVal s t w 1 false x.b).setWidth w
    let r := carryOp sub w a b (getP t.ctx x.px)
    finish s t (setP (putInt t.ctx x.ty .sc x.d (r.1.setWidth 128)) x.px r.2)

def execAddx (h : Hdr) (x : AluX) (s : State) : Host.Outcome State Fault Refusal := carryAlu s (.addx h x) h x false
def execSubx (h : Hdr) (x : AluX) (s : State) : Host.Outcome State Fault Refusal := carryAlu s (.subx h x) h x true

/-- The low `k` bits of a value, sign- or zero-extended to its width (R132). -/
def extBits (sg : Bool) (k w : Nat) (a : BitVec w) : BitVec w :=
  if sg then (a.setWidth k).signExtend w else (a.setWidth k).setWidth w

/-- `SEXT` (R132). -/
def execSext (h : Hdr) (x : Ext) (s : State) : Host.Outcome State Fault Refusal :=
  alu1 s (.sext h x) h { ty := x.ty, sh := x.sh, d := x.d, a := x.a } fun w a => extBits true x.nb.toNat w a

/-- `ZEXT` (R132). -/
def execZext (h : Hdr) (x : Ext) (s : State) : Host.Outcome State Fault Refusal :=
  alu1 s (.zext h x) h { ty := x.ty, sh := x.sh, d := x.d, a := x.a } fun w a => extBits false x.nb.toNat w a

/-- `BFX` (R132). -/
def execBfx (h : Hdr) (x : Bfx) (s : State) : Host.Outcome State Fault Refusal :=
  alu1 s (.bfx h x) h { ty := x.ty, sh := x.sh, d := x.d, a := x.a } fun w a =>
    extBits (signed x.ty) x.len.toNat w (a >>> x.pos.toNat)

/-- The bits of b with a field of them replaced by the low bits of a (R132). -/
def operBfi (pos len : Nat) : Oper2 := fun w _ a b =>
  let m : BitVec w := ((BitVec.allOnes len).setWidth w) <<< pos
  (b &&& ~~~m) ||| ((a <<< pos) &&& m)

/-- `BFI` (R132). -/
def execBfi (h : Hdr) (x : Bfi) (s : State) : Host.Outcome State Fault Refusal :=
  alu2 s (.bfi h x) h { ty := x.ty, sh := x.sh, d := x.d, a := x.a, b := .opd x.b } (operBfi x.pos.toNat x.len.toNat)

/-- `SEL`: the predicate selects the whole operand (R133). -/
def execSel (h : Hdr) (x : AluX) (s : State) : Host.Outcome State Fault Refusal :=
  issue s (.sel h x) h false (dab x.ty x.sh x.d x.a x.b) fun s t =>
    let w := width x.ty
    let n := lanes x.sh
    let v := if getP t.ctx x.px then opdVal s t w n (wideOf x.ty x.sh) x.a
      else srcVal s t w n (wideOf x.ty x.sh) x.b
    finish s t (putInt t.ctx x.ty x.sh x.d v)

/-- `MOV` (R134). -/
def execMov (h : Hdr) (x : Mov) (s : State) : Host.Outcome State Fault Refusal :=
  issue s (.mov h x) h false (dab x.ty x.sh x.d (srcOpd x.a) (.opd .zero)) fun s t =>
    finish s t (putInt t.ctx x.ty x.sh x.d (srcVal s t (width x.ty) (lanes x.sh) (wideOf x.ty x.sh) x.a))

/-- `LI` (R134). -/
def execLi (h : Hdr) (d : Opd) (imm : BitVec 56) (s : State) : Host.Outcome State Fault Refusal :=
  issue s (.li h d imm) h false [(1, d, false)] fun s t =>
    finish s t (setDst t.ctx d false ((imm.signExtend 64).setWidth 128))

/-- `LEA` (R135). -/
def execLea (h : Hdr) (x : MemD) (s : State) : Host.Outcome State Fault Refusal :=
  issue s (.lea h x) h false [(1, x.d, false), (2, x.mem.base, false), (3, x.mem.idx, false)] fun s t =>
    finish s t (setDst t.ctx x.d false ((eaOf t.ctx x.mem).setWidth 128))

/-- `CMP` (R136). -/
def execCmp (h : Hdr) (x : Cmp) (s : State) : Host.Outcome State Fault Refusal :=
  issue s (.cmp h x) h false (dab x.ty x.sh x.d x.a x.b) fun s t =>
    let w := width x.ty
    let n := lanes x.sh
    let a := opdVal s t w n false x.a
    let b := srcVal s t w n false x.b
    let r := ((lanesOf w a n).zip (lanesOf w b n)).map fun p =>
      if condHolds x.cond (signed x.ty) p.1 p.2 then BitVec.allOnes w else 0
    finish s t (setDst t.ctx x.d false (ofLanes w r))

end Sys2Proof.Machine
end

