-- ==== Sys2Proof/Machine/Queues.lean ====
section
/-! DEFINITION. Creation of queues, kicks, the mapping of queues onto slots, arbitration between functions, and the packets
that the agent die's front end carries out (R375 to R383, R387). -/

namespace Sys2Proof.Machine
open Sys2Proof.Forms

/-! Slots (R376, R380, R381). -/

/-- `QSLOTS` of a function (R376). -/
def qslotsOf (s : State) (fn : Nat) : Nat := ((s.queues.qslots.find? fun x => x.1 == fn).map (·.2)).getD 64

/-- `EPRIO` of a waiting queue (R380). -/
def eprioNow (now : Nat) (q : Queue) : Nat := min 15 (q.qprio.toNat + (now - q.wstart) / 2 ^ 20)

/-- Whether a queue can be kept by its driver: not frozen, not being destroyed. -/
def queueLive (q : Queue) : Bool := q.st == .idle || q.st == .active

/-- Waiting for a slot (R380). -/
def isWaiting (q : Queue) : Bool := q.pending && q.slot.isNone && queueLive q

/-- Whether nothing of the queue has to run to completion before its save (R381): a `WAIT` that has read, a token about to
be filled, a `COPY`. -/
def canSave (s : State) (q : Queue) : Bool :=
  !(s.eng.cmds.any fun c => c.packet == some (q.fn, q.qid)) && match q.pk with
    | some p => match p.st with
      | .reading | .rereadAt _ | .finishing _ => false
      | _ => true
    | none => true

/-- The save of a queue (R381): a packet that has not started is read again after the restore; ids that its front ends hold for
crews go back (R336). -/
def saveQueue (s : State) (q : Queue) : State :=
  onQueue ((launchesOf s q.fn q.qid).foldl returnHeld (dropDeps s q.fn q.qid)) q.fn q.qid fun q =>
    let kept := q.pk.bind fun p => if p.st == .writing then some p else none
    let q1 := { q with slot := none, saving := false, pk := kept, fes := [] }
    if q.st == .active then { q1 with pending := true, wstart := s.run.now, eprio := q.qprio } else { q1 with pending := false }

/-- A waiting queue takes a slot: the restore (R380, R381). -/
def mapQueue (s : State) (q : Queue) (n : Nat) : State :=
  let x := takeSeq s
  onQueue x.2 q.fn q.qid fun q =>
    { q with slot := some n, mappedAt := x.1, eprio := BitVec.ofNat 4 (eprioNow s.run.now q), pending := false }

/-- The waiting queue that comes first: the highest `EPRIO`, then the earliest `WSTART` (R380). -/
def firstWaiting (s : State) (fn : Nat) : Option Queue :=
  let l := s.queues.qs.filter fun q => q.fn == fn && isWaiting q
  match leastBy (fun q => 15 - eprioNow s.run.now q) l with
  | none => none
  | some m => leastBy (·.wstart) (l.filter fun q => eprioNow s.run.now q == eprioNow s.run.now m)

/-- The mapped queues of a function, in slot order. -/
def mappedQueues (s : State) (fn : Nat) : List (Nat × Queue) :=
  (List.range 64).flatMap fun n => (s.queues.qs.filter fun q => q.fn == fn && q.slot == some n).map fun q => (n, q)

/-- Starts a save; it is complete at once when nothing of the queue has to run to completion (R381). -/
def startSave (s : State) (q : Queue) : State :=
  if canSave s q then saveQueue s q else onQueue s q.fn q.qid fun q => { q with saving := true }

/-- One step of an evaluation (R380); none when nothing applies. -/
def evalStep (s : State) (fn : Nat) : Option State :=
  let ms := mappedQueues s fn
  let limit := qslotsOf s fn
  match firstWaiting s fn with
  | none => none
  | some w =>
    match (List.range limit).find? fun n => ms.all fun m => m.1 != n with
    | some n => some (mapQueue s w n)
    | none => match ms.find? fun m => decide (m.1 < limit) && m.2.st == .idle with
      | some m => some (mapQueue (saveQueue s m.2) w m.1)
      | none =>
        let low := leastBy (fun (m : Nat × Queue) => m.2.eprio.toNat) ms
        match low.bind fun l => leastBy (fun m => m.2.mappedAt) (ms.filter fun m => m.2.eprio == l.2.eprio) with
        | none => none
        | some v =>
          if ms.any (fun m => m.2.saving) || decide (eprioNow s.run.now w ≤ v.2.eprio.toNat) then none
          else if canSave s v.2 then some (mapQueue (saveQueue s v.2) w v.1)
          else some (startSave s v.2)

def evalLoop (fn : Nat) : Nat → State → State
  | 0, s => s
  | n + 1, s => match evalStep s fn with
    | some s1 => evalLoop fn n s1
    | none => s

/-- An evaluation of a function's slots (R380), after the saves that can be completed. -/
def evaluate (s : State) (fn : Nat) : State :=
  let done := (mappedQueues s fn).filter fun m => m.2.saving && canSave s m.2
  evalLoop fn 4096 (done.foldl (fun s m => saveQueue s m.2) s)

/-- `QUEUE_SLOT_EVALUATE` (R380, R381). -/
def execQueueSlotEvaluate (fn : Nat) (s : State) : Host.Outcome State Fault Refusal := .next (evaluate s fn)

/-- `QSLOTS_WRITE` (R376): queues in slots at and above the new value are saved, in slot order. -/
def execQslotsWrite (fn v : Nat) (s : State) : Host.Outcome State Fault Refusal :=
  if decide (64 < v) || decide (16 < fn) then .next s
  else
    let s1 := ((mappedQueues s fn).filter fun m => decide (v ≤ m.1)).foldl (fun s m => startSave s m.2) s
    .next (evaluate { s1 with queues := { s1.queues with qslots := upsert (fun x => x.1 == fn) (fn, v) s1.queues.qslots } } fn)

/-! Creation and kicks (R378, R379). -/

/-- `QUEUE_CREATE` (R378). -/
def execQueueCreate (fn qid : Nat) (x : QueueNew) (s : State) : Host.Outcome State Fault Refusal :=
  let ok := decide (fn ≤ 16) && decide (qid < 4096) && decide (4 ≤ x.rsize.toNat) && decide (x.rsize.toNat ≤ 20)
  if !ok || s.pkg.verifyFailed || !running s || (findQueue s fn qid).isSome then .next s
  else
    let q : Queue :=
      { fn := fn, qid := qid, asid := x.asid, rbase := x.rbase &&& ~~~127, rsize := x.rsize, qprio := x.qprio, eprio := x.qprio
        tmo := x.tmo }
    .next { s with queues := { s.queues with qs := s.queues.qs ++ [q] } }

/-- One kick (R379). -/
def kick (s : State) (fn qid : Nat) (v : BitVec 32) : State :=
  match findQueue s fn qid with
  | none => s
  | some q =>
    let s1 := onQueue s fn qid fun q =>
      let q1 := queueState { q with widx := v }
      if q.st == .idle && q1.st == .active then { q1 with doneAt := s.run.now } else q1
    if !queueLive q then s1
    else if decide (2 ^ q.rsize.toNat < (v - q.ridx).toNat) then freezeQueue s1 fn qid 0x05 0
    else if q.slot.isSome then s1
    else evaluate (onQueue s1 fn qid fun q =>
      if q.pending then q else { q with pending := true, wstart := s.run.now, eprio := q.qprio }) fn

/-- A write of the doorbells of a function: one of 64 bits, or one of 32 bits to the low half, naturally aligned (R379). -/
def doorbellWrite (s : State) (fn off width : Nat) (v : Word) : State :=
  let low := v.setWidth 32
  if off % 8 != 0 || decide (32768 ≤ off) then s
  else if width == 4 || (width == 8 && v.extractLsb' 32 32 == 0) then kick s fn (off / 8) low
  else s

/-- `DOORBELL_KICK` (R379): a wider write is taken as its aligned parts of 64 bits, in increasing order. -/
def execDoorbellKick (fn off width : Nat) (v : Vec) (s : State) : Host.Outcome State Fault Refusal :=
  if width == 16 then
    .next (doorbellWrite (doorbellWrite s fn off 8 (v.setWidth 64)) fn (off + 8) 8 (v.extractLsb' 64 64))
  else .next (doorbellWrite s fn off width (v.setWidth 64))

/-! Arbitration between functions (R375). -/

/-- The address spaces of a function: those of its queues. -/
def spacesOf (s : State) (fn : Nat) : List (BitVec 16) := ((s.queues.qs.filter fun q => q.fn == fn).map (·.asid)).eraseDups

/-- Whether an address space exists and runs. -/
def spaceRuns (s : State) (a : BitVec 16) : Bool := ((findSpace s a).map fun x => !x.susp).getD false

/-- One function's address spaces run; those of the others are suspended first (R375). -/
def runOnly (s : State) (fn : Nat) : State :=
  let mine := spacesOf s fn
  let others := ((s.queues.qs.map (·.asid)).eraseDups).filter fun a => !mine.contains a
  let s1 := others.foldl suspendSpace s
  if others.any (spaceRuns s1) then s1
  else
    let s2 := mine.foldl resumeSpace s1
    if mine.any (suspended s2) then s2 else { s2 with fw := { s2.fw with function := fn } }

/-- `TIME_SLICE_EXPIRY` (R375): in exclusive mode the next function's address spaces run. -/
def execTimeSliceExpiry (fn : Nat) (s : State) : Host.Outcome State Fault Refusal :=
  .next (if s.fw.exclusive && decide (fn ≤ 16) then runOnly s fn else s)

/-- `EXCLUSIVE_MODE_SELECT` (R375): the arbitration, and a slice of 1 to 1,000 ms. -/
def execExclusiveModeSelect (on : Bool) (sliceMs : Nat) (s : State) : Host.Outcome State Fault Refusal :=
  if sliceMs == 0 || decide (1000 < sliceMs) then .next s
  else
    let s1 := { s with fw := { s.fw with exclusive := on, sliceMs := sliceMs } }
    if on then .next (runOnly s1 s.fw.function)
    else if !s.fw.exclusive then .next s1
    else
      let all := (s1.queues.qs.map (·.asid)).eraseDups
      let s2 := all.foldl resumeSpace s1
      .next (if all.any (suspended s2) then { s2 with fw := { s2.fw with exclusive := true } } else s2)

/-! Packets: fetch, checks, fence, dependences (R382, R383). -/

/-- The types of packet (R382). -/
inductive PkTy where
  | launch | copy | wait | signal | barrier
  deriving DecidableEq, Repr

def pkTy (w0 : Word) : Option PkTy :=
  match (w0.setWidth 8 : BitVec 8).toNat with
  | 1 => some .launch
  | 2 => some .copy
  | 3 => some .wait
  | 4 => some .signal
  | 5 => some .barrier
  | _ => none

/-- Bits lo to hi. -/
def bitsMask (lo hi : Nat) : Word := BitVec.ofNat 64 (2 ^ (hi + 1) - 2 ^ lo)

/-- The bits of a word that a packet of a type defines; the others are reserved (R382, R384, R387). -/
def pkDefined (t : PkTy) (i : Nat) : Word :=
  let common : Word := if i == 0 then bitsMask 0 8 else if decide (9 ≤ i) && decide (i ≤ 13) then bitsMask 0 56 else 0
  let own : Word := match t, i with
    | .launch, 0 => bitsMask 12 15 ||| bitsMask 16 26 ||| bitsMask 32 39
    | .launch, 1 => bitsMask 2 56
    | .launch, 2 => bitsMask 6 56
    | .launch, 3 => bitsMask 0 47
    | .launch, 4 => bitsMask 0 31
    | .launch, 5 | .launch, 6 | .launch, 7 | .launch, 8 => BitVec.allOnes 64
    | .copy, 0 => bitsMask 16 25
    | .wait, 0 | .signal, 0 => bitsMask 16 18
    | .copy, 1 | .copy, 2 | .wait, 1 | .wait, 2 | .signal, 1 | .signal, 2 => BitVec.allOnes 64
    | .barrier, 1 | .barrier, 2 | .barrier, 3 | .barrier, 4 => bitsMask 0 56
    | _, _ => 0
  common ||| own

/-- The dependences of a packet with their numbers; 0 names none (R382, R387). -/
def pkDeps (t : PkTy) (p : Packet) : List (Nat × Word) :=
  let four := (List.range 4).map fun i => (i, pkFld p (9 + i) 0 57)
  let more := if t == .barrier then (List.range 4).map fun i => (4 + i, pkFld p (1 + i) 0 57) else []
  (four ++ more).filter fun d => d.2 != 0

def pkFence (t : PkTy) (p : Packet) : Bool := t == .barrier || pkFld p 0 8 1 == 1

def gx (p : Packet) : Nat := (pkFld p 3 0 16).toNat + 1
def gy (p : Packet) : Nat := (pkFld p 3 16 16).toNat + 1
def gz (p : Packet) : Nat := (pkFld p 3 32 16).toNat + 1
def tcount (p : Packet) : Nat := (pkFld p 4 0 32).toNat
def crewSize (p : Packet) : Nat := (pkFld p 0 16 11).toNat
def quota (p : Packet) : Nat := (pkFld p 0 32 8).toNat

/-- The fields that a type checks at fetch (R384, R387). -/
def pkFieldsOk (t : PkTy) (p : Packet) : Bool :=
  match t with
  | .launch =>
    tcount p == gx p * gy p * gz p && decide (1 ≤ tcount p) && decide (1 ≤ crewSize p) && decide (crewSize p ≤ 1024) &&
      decide (1 ≤ quota p) && decide (quota p ≤ 128) && pkFld p 5 0 4 == 0
  | .copy =>
    pkFld p 1 0 7 == 0 && pkFld p 2 0 7 == 0 && (pkFld p 0 16 1 == 0 ||
      match opOf ((pkFld p 0 17 4).setWidth 4), tyOf ((pkFld p 0 21 5).setWidth 5) with
      | some o, some t => redOk o t
      | _, _ => false)
  | .wait => decide ((pkFld p 0 16 3).toNat ≤ 4) && pkFld p 1 0 3 == 0
  | .signal => pkFld p 1 0 3 == 0
  | .barrier => true

/-- A packet without an invalid field (R382). -/
def pkOk (t : PkTy) (p : Packet) : Bool :=
  ((List.range 16).all fun i => (p.words.getD i 0) &&& ~~~(pkDefined t i) == 0) &&
    ((pkDeps t p).all fun d => d.2.extractLsb' 0 3 == 0) && pkFieldsOk t p

/-- Whether front ends of the queue's die work on it: the module runs, the queue is mapped, it is not frozen. -/
def feRuns (s : State) (q : Queue) : Bool :=
  queueLive q && feUp s q

/-- A read of a dependence or of the word of a `WAIT`, as `LDE` (R383, R387). -/
def depReq (s : State) (q : Queue) (n : Nat) (va : Word) : State :=
  let x := takeSeq s
  let r : Req := { newReq (.dep q.fn q.qid n) va 8 .b64 (.nop {}) with
    id := x.1, key := ⟨q.asid, 0⟩, bench := queueBench q, sup := true, born := s.run.now }
  { x.2 with flight := { x.2.flight with reqs := x.2.flight.reqs ++ [r] } }

/-- The statuses that the dependences carry, in order (R383). -/
def depStats (ds : List (Nat × Word)) (p : Packet) : List (BitVec 16) :=
  ds.filterMap fun d => (p.deps.find? fun x => x.1 == d.1).map fun x => x.2.extractLsb' 48 16

/-- The decision of a packet (R383): an error completes it with DEPERR. -/
def decideDeps (s : State) (q : Queue) (p : Packet) (l : List (BitVec 16)) : Host.Outcome State Fault Refusal :=
  match l.find? (· != 0) with
  | some e =>
    let s1 := onQueue s q.fn q.qid fun q => { q with depdec := 2, depst := e }
    finishPacket s1 q p 4
  | none => .next (setPk (onQueue s q.fn q.qid fun q => { q with depdec := 1 }) q (some { p with st := .ready }))

/-- The fence and the dependences of a packet that waits for them (R383). -/
def depsStep (s : State) (q : Queue) (t : PkTy) (p : Packet) : Host.Outcome State Fault Refusal :=
  let ds := pkDeps t p
  if pkFence t p && q.incomplete != 0 then .next s
  else if q.depdec == 1 || ds.isEmpty then decideDeps s q p []
  else if q.depdec == 2 then finishPacket s q p 4
  else if !p.asked then .next (setPk (ds.foldl (fun s d => depReq s q d.1 d.2) s) q (some { p with asked := true }))
  else if (depStats ds p).length == ds.length then decideDeps s q p (depStats ds p)
  else .next s

/-- The checks of a fetched packet: its `CTOK`, then its other fields (R382, R383). -/
def checkPacket (s : State) (q : Queue) (t : PkTy) (p : Packet) : Host.Outcome State Fault Refusal :=
  let fields := fun (s : State) =>
    if !pkOk t p then finishPacket s q p 5
    else depsStep (setPk s q (some { p with st := .waiting })) q t { p with st := .waiting }
  let tok := pkCtok p
  if tok == 0 then fields s
  else if tok.extractLsb' 0 3 != 0 then .next (freezeQueue s q.fn q.qid 0x03 tok)
  else match translate s (.bench (queueBench q)) q.asid tokenWant tok with
    | .wait => .next (fePage s q p tok tokenWant)
    | .busy s1 => .next s1
    | .bad _ => .next (freezeQueue s q.fn q.qid 0x03 tok)
    | .notHbm a => .fault (.notHbm a)
    | .ok x s1 => if isDev x then fields s1 else .next (freezeQueue s1 q.fn q.qid 0x03 tok)

/-- Words of a packet or header (R377). -/
def feWords (s : State) (w : Who) (va : Word) : Nat → Res (List Word)
  | 0 => .ok s []
  | n + 1 => (readWord s w va).bind fun s1 x => (feWords s1 w (va + 8) n).bind fun s2 l => .ok s2 (x :: l)

/-- The fetch of the packet at `RIDX` by the row of its type (R377, R382, R388). -/
def fetchPacket (s : State) (q : Queue) (t : PkTy) : Host.Outcome State Fault Refusal :=
  if q.ridx == q.widx || q.saving then .next s
  else
    let none' : Packet := { words := [], st := .unread }
    match atomically s (feWords s (feWho q) (ringVa q q.ridx) 16) with
    | .stop x => feStop s q none' 0x04 x
    | .ok s0 ws =>
      let s1 := leaveTurns s0 (some (.queue q.fn q.qid))
      let p : Packet := { words := ws, st := .ctok }
      match pkTy (ws.headD 0) with
      | none => .next (freezeQueue s1 q.fn q.qid 0x02 0)
      | some x => if x == t then checkPacket (setPk s1 q (some p)) q t p else .next s

/-! Service among slots (R383). -/

/-- The launch that a queue is writing (R385). -/
def writingLaunch (s : State) (q : Queue) : Option LaunchSlot :=
  match q.pk with
  | some p => if p.st == .writing then s.queues.launches.find? fun l => l.n == q.clslot.toNat else none
  | none => none

/-- Crews of a launch. -/
def crewCount (l : LaunchSlot) : Nat := (l.tcount.toNat + l.crew - 1) / l.crew

/-- The global slot number of a mapped queue (R376). -/
def globalSlot (q : Queue) : Nat := 64 * q.fn + q.slot.getD 0

/-- Whether a front end has work to begin for a queue: its die's next packet, or its share of a launch. -/
def feWants (s : State) (d : Nat) (q : Queue) : Bool :=
  feRuns s q && !q.saving && !q.fes.contains d &&
    ((q.pk.isNone && agentDie q == d && q.ridx != q.widx) ||
      ((writingLaunch s q).map fun l => decide ((q.lprog.getD d 0).toNat < crewCount l)).getD false)

/-- The global slot that a front end began on last. -/
def servedAt (s : State) (d : Nat) : Nat := ((s.queues.served.find? fun x => x.1 == d).map (·.2)).getD 1087

/-- The queue that a front end begins on next: the highest `EPRIO`, round robin among equals (R383). -/
def feNext (s : State) (d : Nat) : Option Queue :=
  let l := s.queues.qs.filter (feWants s d)
  match leastBy (fun q => 15 - q.eprio.toNat) l with
  | none => none
  | some m => leastBy (fun q => (globalSlot q + 1087 - servedAt s d) % 1088) (l.filter fun q => q.eprio == m.eprio)

/-- A front end works on a queue's packet: it has begun, or begins, being at work on fewer than sixteen (R383). -/
def feBegin (s : State) (d : Nat) (q : Queue) : Option State :=
  if q.fes.contains d then some s
  else if decide (16 ≤ (s.queues.qs.filter fun x => x.fes.contains d).length) ||
      (feNext s d).map (fun x => (x.fn, x.qid)) != some (q.fn, q.qid) then none
  else
    let s1 := onQueue s q.fn q.qid fun q => { q with fes := q.fes ++ [d] }
    some { s1 with queues := { s1.queues with served := upsert (fun x => x.1 == d) (d, globalSlot q) s1.queues.served } }

/-- A packet of a type: it is fetched, or taken further by `go`. -/
def packetRow (s : State) (fn qid : Nat) (t : PkTy) (go : State → Queue → Packet → Host.Outcome State Fault Refusal) :
    Host.Outcome State Fault Refusal :=
  match findQueue s fn qid with
  | none => .next s
  | some q => match q.pk with
    | none => ((feBegin s (agentDie q) q).map fun s1 => fetchPacket s1 q t).getD (.next s)
    | some p =>
      if p.fault.isSome || !running s then .next s
      else if p.st == .unread then (if feRuns s q then fetchPacket s q t else .next s)
      else if pkTy (p.words.headD 0) != some t then .next s
      else match p.st with
        | .finishing stat => finishPacket s q p stat
        | .ctok => if feRuns s q then checkPacket s q t p else .next s
        | .unread | .waiting => .next s
        | .ready | .slotWait | .writing | .reading | .rereadAt _ => if feRuns s q then go s q p else .next s

/-- `DEPENDENCE_RESOLVE` (R383): the fence and the dependences of the packet at `RIDX`. -/
def execDependenceResolve (fn qid : Nat) (s : State) : Host.Outcome State Fault Refusal :=
  match findQueue s fn qid with
  | none => .next s
  | some q => match q.pk with
    | none => .next s
    | some p =>
      if p.fault.isSome || !feRuns s q || p.st != .waiting then .next s
      else match pkTy (p.words.headD 0) with
        | some t => depsStep s q t p
        | none => .next s

/-! COPY, WAIT, SIGNAL, BARRIER (R387). -/

/-- `BARRIER` (R387). -/
def execBarrier (fn qid : Nat) (s : State) : Host.Outcome State Fault Refusal :=
  packetRow s fn qid .barrier fun s q p => finishPacket s q p 0

/-- The condition of a `WAIT` (R387). -/
def waitHolds (p : Packet) (v : Word) : Bool :=
  let k := pkFld p 2 0 64
  match (pkFld p 0 16 3).toNat with
  | 0 => true
  | 1 => v == k
  | 2 => v != k
  | 3 => decide (k.toNat ≤ v.toNat)
  | _ => decide (v.toNat < k.toNat)

/-- `WAIT` (R387): the word is read when it is full, and tested. -/
def execWait (fn qid : Nat) (s : State) : Host.Outcome State Fault Refusal :=
  packetRow s fn qid .wait fun s q p =>
    match p.st with
    | .ready => .next (setPk (depReq s q 8 (pkFld p 1 0 64)) q (some { p with st := .reading }))
    | .reading => match p.deps.find? fun d => d.1 == 8 with
      | none => .next s
      | some d =>
        if waitHolds p d.2 then finishPacket s q p 0
        else .next (setPk s q (some { p with
          st := .rereadAt (s.run.now + 4096), deps := p.deps.filter fun x => x.1 != 8 }))
    | _ => .next s

/-- `WAIT_REREAD` (R387): no earlier than 4,096 cycles later. -/
def execWaitReread (fn qid : Nat) (s : State) : Host.Outcome State Fault Refusal :=
  match findQueue s fn qid with
  | none => .next s
  | some q => match q.pk with
    | none => .next s
    | some p => match p.st with
      | .rereadAt t =>
        if decide (t ≤ s.run.now) && feRuns s q then
          .next (setPk (depReq s q 8 (pkFld p 1 0 64)) q (some { p with st := .reading }))
        else .next s
      | _ => .next s

/-- A synchronising write of a front end: `STS` or `SFE` (R39, R184, R387). -/
def feSync (s : State) (q : Queue) (va : Word) (put : State → Nat → State) : Res Unit :=
  match translate s (.bench (queueBench q)) q.asid tokenWant va with
  | .wait => .stop (.wait va tokenWant)
  | .busy s1 => .stop (.blocked s1)
  | .bad st => .stop (.bad va st)
  | .notHbm a => .stop (.notHbm a)
  | .ok p s1 =>
    if !isDev p then .stop (.bad va stSyncNomem)
    else match homeTurn s1 p (.queue q.fn q.qid) with
      | .done s2 _ => .ok (serveWord (put (obtain (dropStale s2) 0 (lineOf p) .home) (devAddr p)) (devAddr p)) ()
      | .blocked s2 | .outside s2 => .stop (.blocked s2)
      | .bad st => .stop (.bad va st)

/-- The one access of a `SIGNAL`, a release (R78, R387). -/
def signalAccess (s : State) (q : Queue) (p : Packet) : Res Unit :=
  let va := pkFld p 1 0 64
  let v := (pkFld p 2 0 64).setWidth 128
  let plain := fun (o : EOp) => (atomically s (ofVRes (vAccess (dropStale s) (feWho q) va 8 o))).bind fun s1 _ => Res.ok s1 ()
  match (pkFld p 0 16 2).toNat with
  | 0 => feSync s q va fun s a => { s with mem := setFull { s.mem with dev := writeVal s.mem.dev a 8 v } a }
  | 1 => plain (.amo .add .b64 v true)
  | 2 => feSync s q va fun s a => { s with mem := setEmpty s.mem a }
  | _ => plain (.write v)

/-- `SIGNAL` (R387). -/
def execSignal (fn qid : Nat) (s : State) : Host.Outcome State Fault Refusal :=
  packetRow s fn qid .signal fun s q p =>
    match signalAccess s q p with
    | .ok s1 _ => finishPacket s1 q p 0
    | .stop x => feStop s q p 0x07 x

/-- The lowest-numbered enabled bench of a die (R387). -/
def enabledBench (s : State) (die : Nat) : Option Nat :=
  ((List.range Config.benchesPerDie).map fun i => die * Config.benchesPerDie + i).find? fun b => decide (0 < enabledIus s b)

/-- The command of a `COPY` (R387): `CPY` or `CRED`, its token the packet's, dynamic rounding as RNE. -/
def copyCmd (q : Queue) (p : Packet) (id b : Nat) : Cmd :=
  let red := pkFld p 0 16 1 == 1
  { id := id, key := ⟨q.asid, 0⟩, lslot := 0xFF, bench := b, iu := 0, kind := if red then .cred else .cpy, iw := 0
    ty := if red then (tyOf ((pkFld p 0 21 5).setWidth 5)).getD .b64 else .b64
    op := if red then (opOf ((pkFld p 0 17 4).setWidth 4)).getD .add else .add
    tok := pkCtok p, a := pkFld p 1 0 64, b := pkFld p 2 0 64, c := 0, sup := true, packet := some (q.fn, q.qid) }

/-- `COPY` (R387): a copy engine accepts the command, and `RIDX` passes the packet. -/
def execCopy (fn qid : Nat) (s : State) : Host.Outcome State Fault Refusal :=
  packetRow s fn qid .copy fun s q p =>
    match enabledBench s (agentDie q) with
    | none => .next s
    | some b =>
      let x := takeSeq s
      .next (onQueue (addCmd x.2 (copyCmd q p x.1 b)) fn qid fun q => queueState { passPacket q with incomplete := q.incomplete + 1 })

end Sys2Proof.Machine
end

