-- ==== Sys2Proof/Machine/Launch.lean ====
section
/-! DEFINITION. Launches: the kernel header, the launch slot, the writing of crews, completion (R20, R89, R334, R336, R384 to
R386). -/

namespace Sys2Proof.Machine
open Sys2Proof.Forms

/-! The kernel header (R89). -/

def khdrVa (p : Packet) : Word := pkFld p 2 6 51 <<< 6

/-- The bits of a header word that are not reserved (R89). -/
def hdrDefined (i : Nat) : Word :=
  match i with
  | 0 => bitsMask 0 15 ||| bitsMask 32 63
  | 1 => bitsMask 0 39
  | 2 => bitsMask 0 31
  | 3 => bitsMask 0 15
  | 4 => 1
  | 5 => bitsMask 0 56
  | 6 => bitsMask 0 31
  | _ => 0

def hdrFld (h : List Word) (i lo n : Nat) : Nat := ((h.getD i 0).extractLsb' lo n).toNat

/-- Whether a front end takes a header (R89). -/
def hdrOk (h : List Word) : Bool :=
  hdrFld h 0 0 16 == 1 && ((List.range 8).all fun i => (h.getD i 0) &&& ~~~(hdrDefined i) == 0) &&
    hdrFld h 2 0 32 % 16 == 0 && decide (hdrFld h 1 0 32 ≤ 131072)

/-! The launch slot (R385, R386). -/

/-- The lowest launch slot that is free (R385; log 62). -/
def freeLaunchSlot (s : State) : Option Nat := (List.range 255).find? fun n => s.queues.launches.all fun l => l.n != n

/-- What a launch slot keeps of its packet and header. -/
def launchSlot (q : Queue) (p : Packet) (h : List Word) (n : Nat) : LaunchSlot :=
  { n := n, fn := q.fn, qid := q.qid, asid := q.asid, ctok := (pkCtok p).setWidth 57, tcount := (pkFld p 4 0 32).setWidth 32
    crew := crewSize p, quota := quota p, entry := (pkFld p 1 2 55).setWidth 55, prio := (pkFld p 0 12 4).setWidth 4
    gx := gx p, gy := gy p, seed0 := p.words.getD 6 0, seed1 := p.words.getD 7 0, seed2 := p.words.getD 8 0
    sbase := p.words.getD 5 0, stack := (h.getD 2 0).setWidth 32, tbytes := (h.getD 1 0).setWidth 32
    ntile := ((h.getD 1 0).extractLsb' 32 8), barw := (h.getD 3 0).setWidth 16 }

/-- The launch takes a slot; die d's share begins at crew d (R378, R385). -/
def takeSlot (s : State) (q : Queue) (p : Packet) (h : List Word) (n : Nat) : State :=
  let s1 := { s with queues := { s.queues with launches := s.queues.launches ++ [launchSlot q p h n] } }
  onQueue s1 q.fn q.qid fun q => { q with
    clslot := BitVec.ofNat 8 n, lprog := (List.range 9).map (BitVec.ofNat 32), pk := some { p with st := .writing } }

/-- `LAUNCH` (R384, R385): fetched and checked; then its header is read, and it takes a launch slot. -/
def execLaunch (fn qid : Nat) (s : State) : Host.Outcome State Fault Refusal :=
  packetRow s fn qid .launch fun s q p =>
    if p.st != .ready && p.st != .slotWait then .next s
    else if q.saving then .next s
    else match atomically s (feWords s (feWho q) (khdrVa p) 8) with
      | .stop x => feStop s q p 0x07 x
      | .ok s0 h =>
        let s1 := leaveTurns s0 (some (.queue q.fn q.qid))
        if !hdrOk h then finishPacket s1 q p 5
        else match freeLaunchSlot s1 with
          | some n => .next (takeSlot s1 q p h n)
          | none => .next (setPk s1 q (some { p with st := .slotWait }))

/-! Crews (R334, R336, R385). -/

/-- The thread indices of a crew. -/
def crewThreads (l : LaunchSlot) (c : Nat) : List Nat :=
  (List.range (min l.crew (l.tcount.toNat - c * l.crew))).map fun i => c * l.crew + i

/-- Allocates ids in succession (R336). -/
def allocIds : Nat → Space → Option (List (BitVec 32) × Space)
  | 0, x => some ([], x)
  | n + 1, x => (allocId x).bind fun a => (allocIds n a.2).map fun r => (a.1 :: r.1, r.2)

def onSlot (s : State) (n : Nat) (f : LaunchSlot → LaunchSlot) : State :=
  { s with queues := { s.queues with launches := modifyFirst (fun l => l.n == n) f s.queues.launches } }

/-- The ids that a die's front end holds for its next crew (R334). -/
def heldIds (l : LaunchSlot) (die : Nat) : Option (List (BitVec 32)) := (l.held.find? fun x => x.1 == die).map (·.2)

/-- The front end of a die allocates the ids of its next crew, all of them in one step, or none (R334, R336); none is used while a
write still goes to it (R337). -/
def allocCrew (s : State) (l : LaunchSlot) (die k : Nat) : State :=
  match (findSpace s l.asid).bind (allocIds k) with
  | none => s
  | some (ids, x) =>
    if ids.any (idBusy s l.asid) then s
    else onSlot (setSpace s x) l.n fun l => { l with held := l.held ++ [(die, ids)] }

/-- Whether a bench accepts `k` lines (R333, R334). -/
def acceptsMany (s : State) (b k : Nat) : Bool :=
  decide (0 < enabledIus s b) && !s.pkg.diesDown.contains (b / Config.benchesPerDie) &&
    decide (cl2Used s b + k ≤ Config.cl2Lines + ((spillable s b).filter (parkedClass s)).length)

/-- Live threads of a launch on a bench. -/
def launchOn (s : State) (l : LaunchSlot) (b : Nat) : Nat :=
  (s.threads.filter fun t => ofLaunches [l] t && t.bench == b).length

/-- The rotation position of a die: the bench where its next offer starts (R334). -/
def rotationOf (s : State) (die : Nat) : Nat := ((s.queues.rotation.find? fun x => x.1 == die).map (·.2)).getD 0

/-- The bench that takes a crew (R334). -/
def crewBench (s : State) (l : LaunchSlot) (die k : Nat) : Option Nat :=
  let order := (List.range Config.benchesPerDie).map fun i =>
    die * Config.benchesPerDie + (rotationOf s die + i) % Config.benchesPerDie
  order.find? fun b => decide (launchOn s l b + l.crew ≤ max (256 * l.quota) l.crew) && acceptsMany s b k

/-- The context line of thread index `i` of crew `c` (R20, R385). -/
def launchCtx (l : LaunchSlot) (c i : Nat) (id : BitVec 32) : Ctx :=
  { pc := l.entry ++ (0 : BitVec 2), prio := l.prio, lslot := BitVec.ofNat 8 l.n, ctxid := id
    geo := BitVec.ofNat 16 (c % 65535) ++ BitVec.ofNat 16 (i / (l.gx * l.gy)) ++ BitVec.ofNat 16 (i / l.gx % l.gy) ++
      BitVec.ofNat 16 (i % l.gx)
    s0 := l.seed0, s1 := l.seed1, s2 := l.seed2, s3 := stackTop l id }

/-- Writes one crew's lines in a bench's CL2, with the ids held for it (R334, R385). -/
def writeCrew (s : State) (l : LaunchSlot) (c b : Nat) (ids : List (BitVec 32)) : State :=
  let s1 := ((crewThreads l c).zip ids).foldl (fun s x =>
    createThread s ⟨l.asid, x.2⟩ (launchCtx l c x.1 x.2) b) s
  let ls := s1.queues.launches.map fun x =>
    if x.n == l.n then { x with live := x.live + ids.length, held := x.held.filter fun h => h.1 != b / Config.benchesPerDie } else x
  { s1 with queues := { s1.queues with
      launches := ls
      rotation := upsert (fun x => x.1 == b / Config.benchesPerDie)
        (b / Config.benchesPerDie, (b % Config.benchesPerDie + 1) % Config.benchesPerDie) s1.queues.rotation } }

/-- The packet of a launch whose every share is written passes (R377, R385); a front end whose share is written is done with it. -/
def passWritten (s : State) (q : Queue) (l : LaunchSlot) (lprog : List (BitVec 32)) : State :=
  if lprog.all fun c => decide (crewCount l ≤ c.toNat) then
    let ls := s.queues.launches.map fun x => if x.n == l.n then { x with written := true } else x
    onQueue { s with queues := { s.queues with launches := ls } } q.fn q.qid
      fun q => queueState { passPacket q with incomplete := q.incomplete + 1 }
  else onQueue s q.fn q.qid fun q => { q with
    lprog := lprog, fes := q.fes.filter fun d => decide ((lprog.getD d 0).toNat < crewCount l) }

/-- The offer of a crew whose ids are held (R334). -/
def offerCrew (s : State) (q : Queue) (l : LaunchSlot) (die c : Nat) (ids : List (BitVec 32)) : State :=
  match crewBench s l die ids.length with
  | some b => passWritten (writeCrew s l c b ids) q l (q.lprog.set die (BitVec.ofNat 32 (c + 9)))
  | none => s

/-- `LAUNCH_CREW_PLACE` (R20, R334, R336, R385): the front end of a die allocates the ids of the next crew of its share, then offers
it to benches; one bench takes all of it, or the front end waits with the ids. -/
def execLaunchCrewPlace (die fn qid : Nat) (s : State) : Host.Outcome State Fault Refusal :=
  match findQueue s fn qid with
  | none => .next s
  | some q => match writingLaunch s q with
    | none => .next s
    | some l =>
      let c := (q.lprog.getD die 0).toNat
      if decide (9 ≤ die) || !feRuns s q || q.saving || s.pkg.diesDown.contains die || decide (crewCount l ≤ c) then .next s
      else match feBegin s die q with
      | none => .next s
      | some s0 =>
        let s1 := if (heldIds l die).isSome then s0 else allocCrew s0 l die (crewThreads l c).length
        match (s1.queues.launches.find? fun x => x.n == l.n).bind fun x => heldIds x die with
        | some ids => .next (offerCrew s1 q l die c ids)
        | none => .next s1

/-! Completion (R386, R388). -/

/-- Frozen threads of a launch. -/
def frozenOf (s : State) (l : LaunchSlot) : Nat := (s.threads.filter fun t => t.ctx.frz && ofLaunches [l] t).length

/-- Frees a launch slot whose token is filled and whose threads are gone (R386); for a queue that is being destroyed also
its commands must have ended (R390). -/
def freeLaunch (s : State) (n : Nat) : State :=
  match s.queues.launches.find? fun l => l.n == n with
  | none => s
  | some l =>
    let dying := ((findQueue s l.fn l.qid).map fun q => q.st == .destroying).getD false
    let busy := dying && ((s.eng.cmds.any fun c => c.packet.isNone && c.key.asid == l.asid && c.lslot.toNat == n) ||
      s.spaces.any fun x => x.asid == l.asid && x.cmdSave.any fun c => c.lslot.toNat == n)
    if l.filled && l.live == 0 && !busy then
      { s with queues := { s.queues with launches := s.queues.launches.filter fun x => x.n != n } }
    else s

/-- The launch's token is filled, or cannot be. -/
def endLaunch (s : State) (l : LaunchSlot) : State :=
  freeLaunch (packetDone (onSlot s l.n fun l => { l with filled := true }) l.fn l.qid) l.n

/-- `LAUNCH_COMPLETE` (R386, R388): the token is filled, with DONE and the count of threads, or with CANCELLED. -/
def execLaunchComplete (slot : Nat) (s : State) : Host.Outcome State Fault Refusal :=
  match s.queues.launches.find? fun l => l.n == slot with
  | none => .next s
  | some l =>
    if l.filled then .next (freeLaunch s slot)
    else
      let ready := if l.cancelled then decide (l.live ≤ frozenOf s l) else l.written && l.live == 0
      if !ready || l.fault.isSome || !running s then .next s
      else match findQueue s l.fn l.qid with
        | none => .next s
        | some q =>
          let w := if l.cancelled then tokenWord 1 0 else tokenWord 0 (l.tcount.setWidth 48)
          match feFill s q (l.ctok.setWidth 64) w with
          | .ok s1 _ => .next (endLaunch s1 l)
          | .stop (.notHbm a) => .fault (.notHbm a)
          | .stop (.blocked s1) => .next s1
          | .stop (.wait va k) =>
            .next (onSlot (noteFault s (queueBench q) q.asid (va.toNat / 4096) (kindsOf k)) slot fun l =>
              { l with fault := some va.toNat })
          | .stop (.bad va _) => .next (freezeQueue (endLaunch s l) q.fn q.qid 0x03 va)

end Sys2Proof.Machine
end

