-- ==== Sys2Proof/Machine/Package.lean ====
section
/-! DEFINITION. Power, clock, thermal limits, die reset, the fatal state, bring-up, management and the SPDM responder
(R334, R364, R401 to R412). -/

namespace Sys2Proof.Machine
open Sys2Proof.Forms

def onPkg (s : State) (f : Package → Package) : State := { s with pkg := f s.pkg }

/-! Power, clock and thermal limits (R404 to R406). -/

/-- `POWER_MODE_CHANGE` (R404): in Memory mode engines then come to their rest points. -/
def execPowerModeChange (m : PowerMode) (s : State) : Host.Outcome State Fault Refusal :=
  .next (if running s then onPkg s fun p => { p with mode := m } else s)

/-- The clock one step lower, not below 0.8 GHz (R405). -/
def clockDown (s : State) : State := onPkg s fun p => { p with clockMHz := max 800 (p.clockMHz - 100) }

/-- `CLOCK_STEP_DOWN` (R405). -/
def execClockStepDown (s : State) : Host.Outcome State Fault Refusal := .next (if running s then clockDown s else s)

/-- `CLOCK_STEP_UP` (R405): not above the nominal 1.6 GHz. -/
def execClockStepUp (s : State) : Host.Outcome State Fault Refusal :=
  .next (if running s then onPkg s fun p => { p with clockMHz := min 1600 (p.clockMHz + 100) } else s)

/-- `THERMAL_THROTTLE` (R406): the clock is lowered as R405 lowers it. -/
def execThermalThrottle (s : State) : Host.Outcome State Fault Refusal := .next (if running s then clockDown s else s)

/-- `THERMAL_TRIP` (R406): every rail is off, and the host sees the link go down. -/
def execThermalTrip (s : State) : Host.Outcome State Fault Refusal :=
  .next (if s.pkg.rails then emit (onPkg s fun p => { p with rails := false }) .surpriseDown else s)

/-! Reset of a compute die (R403). -/

def onDie (d b : Nat) : Bool := b / Config.benchesPerDie == d

/-- Whether a thread's line is in a CL1 or CL2 of the die, or on its way there. -/
def lineOnDie (d : Nat) (t : Thread) : Bool :=
  match t.loc with
  | .placed (.cl1 _) | .placed .cl2 => onDie d t.bench
  | .moving (.cl1 _) b | .moving .cl2 b => onDie d b
  | _ => false

/-- A lost line: its thread counts as cancelled; its id returns when the die is back (R389, R403). -/
def loseLine (d : Nat) (s : State) (t : Thread) : State :=
  let s1 := orphanReqs (onPkg s fun p => { p with lostIds := p.lostIds ++ [(d, t.key)] }) t.key
  let s2 := onSpace s1 t.key.asid fun sp =>
    { sp with handles := sp.handles.map fun h => if h.v && h.owner == t.ctx.ctxid then { h with owner := 0 } else h }
  dropThread (onLaunch (leaveTurns s2 (some (.thread t.key))) t.ctx.lslot fun l => { l with live := l.live - 1 }) t.key

/-- The frames of a tile that were resident on the die are lost; an engine of the die no longer holds the tile (R403). -/
def loseFrames (d : Nat) (h : Handle) : Handle :=
  if !h.v || !onDie d h.hbench.toNat then h
  else
    let gone := (List.range h.nfr.toNat).filter (resident h)
    gone.foldl (fun h j => { setFrame h j 31 with lost := h.lost ||| ((1 : BitVec 8) <<< j) }) { h with pin := 0 }

/-- The die's only dirty copies are lost: those lines are poisoned at their homes; its copies are gone (R403). -/
def loseCopies (d : Nat) (s : State) : State :=
  let dirty := s.cache.l2.filterMap fun x =>
    match x.line with
    | .dev a => if onDie d x.bench && x.bench != llcAgent && (x.st == .m || x.st == .o || x.st == .d) then some a else none
    | _ => none
  { s with
    mem := { s.mem with poison := dirty.foldl (fun l a => if l.contains a then l else l ++ [a]) s.mem.poison }
    cache := { s.cache with
      l1 := s.cache.l1.filter fun x => !onDie d x.bench
      icache := s.cache.icache.filter fun x => !onDie d x.bench
      handles := s.cache.handles.filter fun x => !onDie d x.1
      reserve := s.cache.reserve.filter fun x => !onDie d x.1
      l2 := s.cache.l2.filter fun x => !(onDie d x.bench && x.bench != llcAgent)
      dsums := s.cache.dsums.filter fun x => !onDie d x.bench
      recs := s.cache.recs.filter fun x => !onDie d x.bench
      clb := s.cache.clb.filter fun x => !onDie d x.bench } }

/-- Translations, fault-table and router entries of the die are lost (R403). -/
def loseTables (d : Nat) (s : State) : State :=
  let at' := fun (l : TlbAt) => match l with
    | .data b _ | .instr b _ | .bench b => onDie d b && b != Config.benches
  let entry := fun (e : RouterEnt) => if e.router == rootRouter then { e with ports := e.ports.filter (· != d) } else e
  onMmu s fun x => { x with
    tlb := x.tlb.filter fun e => !at' e.loc
    bench := x.bench.filter fun e => !onDie d e.bench
    router := ((x.router.filter fun e => e.router != d).map entry).filter fun e => !e.ports.isEmpty }

/-- The engine queues of the die and the saved slots of its IUs are lost; tokens are not filled (R364, R403, R412). -/
def loseCommands (d : Nat) (s : State) : State :=
  let s1 := (s.eng.cmds.filter fun c => onDie d c.bench).foldl (fun s c => leaveTurns (stopCmd s c) (some (.cmd c.id))) s
  { s1 with
    eng := { s1.eng with
      cmds := s1.eng.cmds.filter fun c => !onDie d c.bench
      mats := s1.eng.mats.filter fun m => !onDie d m.bench }
    spaces := s1.spaces.map fun x => { x with
      cmdSave := x.cmdSave.filter fun e => !onDie d (e.iu / Config.iusPerBench)
      strmSave := x.strmSave.filter fun e => !onDie d e.bench } }

/-- Requests that the memory units of the die carried are lost; entries of wait lists stay at their homes. -/
def loseRequests (d : Nat) (s : State) : State :=
  (s.flight.reqs.filter fun r => !isDep r.op && r.st != .listed && onDie d r.bench).foldl (fun s r => dropReq s r.id) s

/-- Queues with a thread, a saved slot or an unfinished launch share on the die (R392, R403, R412). -/
def dieQueues (d : Nat) (s : State) : List (Nat × Nat) :=
  let lost := s.threads.filter (lineOnDie d)
  let saved := fun (l : LaunchSlot) => s.spaces.any fun x => x.asid == l.asid && x.cmdSave.any fun e =>
    onDie d (e.iu / Config.iusPerBench) && e.lslot.toNat == l.n
  let byThread := s.queues.launches.filter fun l => lost.any (ofLaunches [l]) || saved l
  let byShare := s.queues.qs.filter fun q => match writingLaunch s q with
    | some l => decide ((q.lprog.getD d 0).toNat < crewCount l)
    | none => false
  (byThread.map fun l => (l.fn, l.qid)) ++ byShare.map fun q => (q.fn, q.qid)

/-- `COMPUTE_DIE_RESET` (R403, R412). -/
def resetDie (d : Nat) (s : State) : State :=
  if !decide (d < 9) || s.pkg.diesDown.contains d || !running s then s
  else
    let qs := dieQueues d s
    let s1 := loseTables d (loseCopies d (loseRequests d (loseCommands d s)))
    let s2 := (s1.threads.filter (lineOnDie d)).foldl (loseLine d) s1
    let s3 := { s2 with
      ius := s2.ius.filter fun x => !onDie d x.bench
      spaces := s2.spaces.map fun (x : Space) => { x with handles := x.handles.map (loseFrames d) }
      queues := { s2.queues with rotation := s2.queues.rotation.filter fun r => r.1 != d } }
    let s4 := s3.threads.foldl (fun (s : State) (t : Thread) => if onDie d t.bench then onThread s t.key (fun t => { t with lastIu := none }) else s) s3
    onPkg (qs.foldl (fun s q => freezeQueue s q.1 q.2 0x09 0) s4) fun p => { p with diesDown := p.diesDown ++ [d] }

/-- `COMPUTE_DIE_RESET` (R403). -/
def execComputeDieReset (d : Nat) (s : State) : Host.Outcome State Fault Refusal := .next (resetDie d s)

/-- `COMPUTE_DIE_RESET_COMPLETE` (R403, R336): the die is back at its reset values, and the ids of its lost lines return. -/
def execComputeDieResetComplete (d : Nat) (s : State) : Host.Outcome State Fault Refusal :=
  if !s.pkg.diesDown.contains d then .next s
  else
    let back := (s.pkg.lostIds.filter fun x => x.1 == d).map (·.2)
    let s1 := back.foldl (fun s k => onSpace s k.asid fun x => returnId x k.ctx) s
    .next (onPkg s1 fun p => { p with
      diesDown := p.diesDown.filter (· != d), lostIds := p.lostIds.filter fun x => x.1 != d
      dieStart := upsert (fun x => x.1 == d) (d, s.run.now) p.dieStart })

/-! The fatal state (R408) and link replays (R407). -/

/-- The module enters its fatal state (R408): nothing issues, engines come to rest, every queue is frozen. -/
def goFatal (cause : Nat) (s : State) : State :=
  if !running s then s
  else
    let s1 := s.eng.mats.foldl (fun s m => gateEngine s m.bench m.group) s
    let s2 := s1.queues.qs.foldl (fun s q => freezeQueue s q.fn q.qid 0x09 0) s1
    emit (onPkg s2 fun p => { p with fatal := some cause }) .aer

/-- `MODULE_FATAL` (R408). -/
def execModuleFatal (cause : Nat) (s : State) : Host.Outcome State Fault Refusal := .next (goFatal cause s)

/-- The failed replays of a socket's link so far. -/
def flitCount (s : State) (socket : Nat) : Nat := ((s.pkg.flitFails.find? fun x => x.1 == socket).map (·.2)).getD 0

/-- Whether a socket holds a die or stack (R401). -/
def socketUsed (n : Nat) : Bool := decide (n ≤ 14) || (decide (16 ≤ n) && decide (n ≤ 27))

/-- `LINK_FLIT_REPLAY` (R407): a replay arrives or fails, which is free (log 2); the sixteenth failure resets a compute die,
or is fatal. -/
def execLinkFlitReplay (socket : Nat) (s : State) : Host.Outcome State Fault Refusal :=
  if !socketUsed socket || !running s then .next s
  else
    let good := Config.freePick s.run.fresh % 2 == 0
    let n := if good then 0 else flitCount s socket + 1
    let s1 := { s with run := { s.run with fresh := s.run.fresh + 1 } }
    let s2 := onPkg s1 fun p => { p with
      corrected := if good then p.corrected + 1 else p.corrected
      flitFails := upsert (fun x => x.1 == socket) (socket, if n == 16 then 0 else n) p.flitFails }
    .next (if n != 16 then s2 else if decide (socket ≤ 8) then resetDie socket s2 else goFatal socket s2)

/-- Whether a command reads a weight bank of its engine: an `MMA` whose rows still stream through it (R219, R220). -/
def readsBank (s : State) (b g : Nat) (bank : Bool) (c : Cmd) : Bool :=
  (getMat s b g).compute == some c.id && c.kind == .mma && c.bank == bank && c.status == 0 && !(c.ran && c.todo == 0)

/-- An uncorrectable error in a weight bank: it takes the empty tag, and the command that reads it ends with MEMERR (R365, R374). -/
def weightError (s : State) (b g : Nat) (bank : Bool) : State :=
  let s1 := (s.eng.cmds.filter (readsBank s b g bank)).foldl (fun s c => putCmd s { c with status := 3 }) s
  let m := getMat s1 b g
  putMat s1 (setBank m bank { getBank m bank with tag := none })

/-- What an error found in storage does (R359, R365, R407, log 95): a corrected one is counted; an uncorrectable one poisons its line
of memory or frame of a tile, freezes the thread of its context line, or empties its weight bank. -/
def takeDamage (s : State) (x : Damage) : State :=
  match x with
  | .corrected n => onPkg s fun p => { p with corrected := p.corrected + n }
  | .line a =>
    let l := lineAddr a
    if decide (Config.hbmBytes ≤ a) || s.mem.poison.contains l then s else { s with mem := { s.mem with poison := s.mem.poison ++ [l] } }
  | .context k => if ((findThread s k).map (·.ctx.frz)).getD true then s else freeze s k 0x21 0 0
  | .frame asid idx j => onHandle s asid idx fun h =>
      if h.v && decide (j < h.nfr.toNat) then { setFrame h j 31 with lost := h.lost ||| ((1 : BitVec 8) <<< j) } else h
  | .weights b g bank => weightError s b g bank

/-- Whether what the scrub meets is a line of HBM under a hold (R194, R412). -/
def scrubWaits (s : State) (x : Damage) : Bool :=
  match x with
  | .corrected _ => (holdsOf s).any fun h => isDev h.2.2.line
  | .line a => (lineHold s (.dev (lineAddr a))).isSome
  | .context _ | .frame .. | .weights .. => false

/-- `PATROL_SCRUB` (R407, R412): it meets the next error in storage; where none is to come, corrected bits of a free number (log 95). -/
def execPatrolScrub (s : State) : Host.Outcome State Fault Refusal :=
  match s.run.damages with
  | [] =>
    .next (if !running s || scrubWaits s (.corrected 0) then s
      else takeDamage { s with run := { s.run with fresh := s.run.fresh + 1 } } (.corrected (Config.freePick s.run.fresh)))
  | x :: rest => .next (if !running s || scrubWaits s x then s else takeDamage { s with run := { s.run with damages := rest } } x)

/-! Reset and bring-up (R409). -/

/-- The module with its power just good: everything at its reset value, no step of the bring-up complete. -/
def powerGood (s : State) : State :=
  { State.reset with
    run := { agenda := s.run.agenda, fresh := s.run.fresh, seq := s.run.seq, damages := s.run.damages }
    pkg := { stage := 0 } }

/-- The next step of the bring-up; at steps 1 and 6 an image is verified, with an outcome that is free (log 2). A failed
verification ends it: the module shows the physical function only (R409). -/
def bringUp (s : State) : State :=
  let n := s.pkg.stage + 1
  let ok := (n != 1 && n != 6) || Config.freePick s.run.fresh % 2 == 0
  let s1 := { s with run := { s.run with fresh := s.run.fresh + 1 } }
  onPkg s1 fun p => if ok then { p with stage := n } else { p with stage := 7, verifyFailed := true }

/-- `POWER_ON_RESET` (R409): one step of the bring-up, from power-good on; a full reset begins it anew. -/
def execPowerOnReset (s : State) : Host.Outcome State Fault Refusal :=
  .next (bringUp (if s.pkg.stage == 7 then powerGood s else s))

/-- `RECOVERY_IMAGE_LOAD` (R409): a signed image is accepted after a failed verification. -/
def execRecoveryImageLoad (ok : Bool) (s : State) : Host.Outcome State Fault Refusal :=
  .next (if s.pkg.verifyFailed && ok then onPkg s fun p => { p with verifyFailed := false } else s)

/-- `CONFIGURATION_REQUEST` (R409). -/
def execConfigurationRequest (s : State) : Host.Outcome State Fault Refusal :=
  if !s.pkg.rails then .next s else .next (emit s (if s.pkg.stage == 7 then .configDone else .configRetry))

/-! Management (R410). -/

def modeCode (m : PowerMode) : Nat :=
  match m with
  | .full => 0
  | .balanced => 1
  | .memory => 2

/-- A report with a value that the spec does not give (log 2). -/
def freeReport (s : State) (code : Nat) : State :=
  emit { s with run := { s.run with fresh := s.run.fresh + 1 } } (.mgmt code [(Config.freeWord s.run.fresh).toNat])

/-- `MCTP_MANAGEMENT_MESSAGE` (R404, R410). -/
def execMctpManagementMessage (m : MctpMsg) (s : State) : Host.Outcome State Fault Refusal :=
  if !s.pkg.rails then .next s
  else match m with
    | .temperatures => .next (freeReport s 0)
    | .draw => .next (freeReport s 1)
    | .mode => .next (emit s (.mgmt 2 [modeCode s.pkg.mode]))
    | .clock => .next (emit s (.mgmt 3 [s.pkg.clockMHz]))
    | .errors => .next (emit s (.mgmt 4 [s.pkg.corrected, s.pkg.fatal.getD 0]))
    | .setMode x => .next (if running s then onPkg s fun p => { p with mode := x } else s)

/-! The SPDM responder (R411). -/

/-- An answer whose bytes the spec leaves to the device (log 2). -/
def spdmAnswer (s : State) (code : Nat) (f : Spdm → Spdm) : Host.Outcome State Fault Refusal :=
  let s1 := emit { s with run := { s.run with fresh := s.run.fresh + 1 } } (.spdm code (Config.spdmBytes code s.run.fresh))
  .next (onPkg s1 fun p => { p with spdm := f p.spdm })

/-- A request is answered when its condition holds, else with ERROR; nothing answers without power. -/
def spdmRow (s : State) (ok : Spdm → Bool) (code : Nat) (f : Spdm → Spdm) : Host.Outcome State Fault Refusal :=
  if !s.pkg.rails then .next s else if ok s.pkg.spdm then spdmAnswer s code f else .next (emit s .spdmError)

/-- `GET_VERSION` (R411): it begins a connection. -/
def execGetVersion (s : State) : Host.Outcome State Fault Refusal := spdmRow s (fun _ => true) 0x04 fun _ => { version := true }
/-- `GET_CAPABILITIES` (R411). -/
def execGetCapabilities (s : State) : Host.Outcome State Fault Refusal := spdmRow s (·.version) 0x61 fun x => { x with caps := true }
/-- `NEGOTIATE_ALGORITHMS` (R411): P-384 and SHA-384 only. -/
def execNegotiateAlgorithms (p384 sha384 : Bool) (s : State) : Host.Outcome State Fault Refusal :=
  spdmRow s (fun x => x.caps && p384 && sha384) 0x63 fun x => { x with algs := true }
/-- `GET_DIGESTS` (R411). -/
def execGetDigests (s : State) : Host.Outcome State Fault Refusal := spdmRow s (·.algs) 0x01 id
/-- `GET_CERTIFICATE` (R411): slot 0 only. -/
def execGetCertificate (slot : Nat) (s : State) : Host.Outcome State Fault Refusal := spdmRow s (fun x => x.algs && slot == 0) 0x02 id
/-- `CHALLENGE` (R411): slot 0 only. -/
def execChallenge (slot : Nat) (s : State) : Host.Outcome State Fault Refusal := spdmRow s (fun x => x.algs && slot == 0) 0x03 id
/-- `GET_MEASUREMENTS` (R411): indices 1 to 4. -/
def execGetMeasurements (idx : Nat) (s : State) : Host.Outcome State Fault Refusal :=
  spdmRow s (fun x => x.algs && decide (1 ≤ idx) && decide (idx ≤ 4)) 0x60 id
/-- `KEY_EXCHANGE` (R411). -/
def execKeyExchange (s : State) : Host.Outcome State Fault Refusal :=
  spdmRow s (·.algs) 0x64 fun x => { x with session := true, finished := false }
/-- `FINISH` (R411). -/
def execFinish (s : State) : Host.Outcome State Fault Refusal := spdmRow s (·.session) 0x65 fun x => { x with finished := true }
/-- `END_SESSION` (R411). -/
def execEndSession (s : State) : Host.Outcome State Fault Refusal :=
  spdmRow s (fun x => x.session && x.finished) 0x6C fun x => { x with session := false, finished := false }

end Sys2Proof.Machine
end

