-- ==== Sys2Proof/Machine/Dispatch.lean ====
section
/-! DEFINITION. One arm for each row of the opcode table. -/

namespace Sys2Proof.Machine

/-- The meaning of one instruction or event. -/
def exec (i : Instr) (s : State) : Host.Outcome State Fault Refusal :=
  match i with
  | .add h x => Sys2Proof.Machine.execAdd h x s
  | .sub h x => Sys2Proof.Machine.execSub h x s
  | .addx h x => Sys2Proof.Machine.execAddx h x s
  | .subx h x => Sys2Proof.Machine.execSubx h x s
  | .mul h x => Sys2Proof.Machine.execMul h x s
  | .mulh h x => Sys2Proof.Machine.execMulh h x s
  | .div h x => Sys2Proof.Machine.execDiv h x s
  | .rem h x => Sys2Proof.Machine.execRem h x s
  | .and h x => Sys2Proof.Machine.execAnd h x s
  | .or h x => Sys2Proof.Machine.execOr h x s
  | .xor h x => Sys2Proof.Machine.execXor h x s
  | .andn h x => Sys2Proof.Machine.execAndn h x s
  | .orn h x => Sys2Proof.Machine.execOrn h x s
  | .shl h x => Sys2Proof.Machine.execShl h x s
  | .shr h x => Sys2Proof.Machine.execShr h x s
  | .sar h x => Sys2Proof.Machine.execSar h x s
  | .rol h x => Sys2Proof.Machine.execRol h x s
  | .ror h x => Sys2Proof.Machine.execRor h x s
  | .clz h x => Sys2Proof.Machine.execClz h x s
  | .ctz h x => Sys2Proof.Machine.execCtz h x s
  | .popc h x => Sys2Proof.Machine.execPopc h x s
  | .brev h x => Sys2Proof.Machine.execBrev h x s
  | .bswap h x => Sys2Proof.Machine.execBswap h x s
  | .min h x => Sys2Proof.Machine.execMin h x s
  | .max h x => Sys2Proof.Machine.execMax h x s
  | .abs h x => Sys2Proof.Machine.execAbs h x s
  | .sext h x => Sys2Proof.Machine.execSext h x s
  | .zext h x => Sys2Proof.Machine.execZext h x s
  | .bfx h x => Sys2Proof.Machine.execBfx h x s
  | .bfi h x => Sys2Proof.Machine.execBfi h x s
  | .sel h x => Sys2Proof.Machine.execSel h x s
  | .mov h x => Sys2Proof.Machine.execMov h x s
  | .li h d imm => Sys2Proof.Machine.execLi h d imm s
  | .lea h x => Sys2Proof.Machine.execLea h x s
  | .cmp h x => Sys2Proof.Machine.execCmp h x s
  | .plog h d a b c tt => Sys2Proof.Machine.execPlog h d a b c tt s
  | .pmovGet h d => Sys2Proof.Machine.execPmovGet h d s
  | .pmovSet h a pm => Sys2Proof.Machine.execPmovSet h a pm s
  | .br h disp => Sys2Proof.Machine.execBr h disp s
  | .jmp h a => Sys2Proof.Machine.execJmp h a s
  | .call h disp => Sys2Proof.Machine.execCall h disp s
  | .callr h a => Sys2Proof.Machine.execCallr h a s
  | .ret h => Sys2Proof.Machine.execRet h s
  | .dbnz h d disp => Sys2Proof.Machine.execDbnz h d disp s
  | .nop h => Sys2Proof.Machine.execNop h s
  | .fadd h x => Sys2Proof.Machine.execFadd h x s
  | .fsub h x => Sys2Proof.Machine.execFsub h x s
  | .fmul h x => Sys2Proof.Machine.execFmul h x s
  | .fma h x => Sys2Proof.Machine.execFma h x s
  | .fnma h x => Sys2Proof.Machine.execFnma h x s
  | .fdiv h x => Sys2Proof.Machine.execFdiv h x s
  | .fsqrt h x => Sys2Proof.Machine.execFsqrt h x s
  | .fmin h x => Sys2Proof.Machine.execFmin h x s
  | .fmax h x => Sys2Proof.Machine.execFmax h x s
  | .fsgn h x => Sys2Proof.Machine.execFsgn h x s
  | .fcmp h x => Sys2Proof.Machine.execFcmp h x s
  | .fclass h x => Sys2Proof.Machine.execFclass h x s
  | .fcvt h x => Sys2Proof.Machine.execFcvt h x s
  | .fcvi h x => Sys2Proof.Machine.execFcvi h x s
  | .icvf h x => Sys2Proof.Machine.execIcvf h x s
  | .frnd h x => Sys2Proof.Machine.execFrnd h x s
  | .shuf h x => Sys2Proof.Machine.execShuf h x s
  | .vext h x => Sys2Proof.Machine.execVext h x s
  | .vins h x => Sys2Proof.Machine.execVins h x s
  | .vbc h x => Sys2Proof.Machine.execVbc h x s
  | .vred h x => Sys2Proof.Machine.execVred h x s
  | .vdot h x => Sys2Proof.Machine.execVdot h x s
  | .vmskGet h x => Sys2Proof.Machine.execVmskGet h x s
  | .vmskSet h x => Sys2Proof.Machine.execVmskSet h x s
  | .vmskAny h x => Sys2Proof.Machine.execVmskAny h x s
  | .vmskAll h x => Sys2Proof.Machine.execVmskAll h x s
  | .vscan h x => Sys2Proof.Machine.execVscan h x s
  | .ld h x => Sys2Proof.Machine.execLd h x s
  | .st h x => Sys2Proof.Machine.execSt h x s
  | .amo h x => Sys2Proof.Machine.execAmo h x s
  | .cas h x => Sys2Proof.Machine.execCas h x s
  | .cas2 h x => Sys2Proof.Machine.execCas2 h x s
  | .fence h ord scp => Sys2Proof.Machine.execFence h ord scp s
  | .lde h x => Sys2Proof.Machine.execLde h x s
  | .ldc h x => Sys2Proof.Machine.execLdc h x s
  | .stf h x => Sys2Proof.Machine.execStf h x s
  | .sts h x => Sys2Proof.Machine.execSts h x s
  | .sfe h mem => Sys2Proof.Machine.execSfe h mem s
  | .qfe h x => Sys2Proof.Machine.execQfe h x s
  | .hold h x => Sys2Proof.Machine.execHold h x s
  | .hst h x => Sys2Proof.Machine.execHst h x s
  | .hrel h x => Sys2Proof.Machine.execHrel h x s
  | .addd h x => Sys2Proof.Machine.execAddd h x s
  | .cflush h x => Sys2Proof.Machine.execCflush h x s
  | .talloc h fmt d a => Sys2Proof.Machine.execTalloc h fmt d a s
  | .tfree h a => Sys2Proof.Machine.execTfree h a s
  | .tpin h px a mask => Sys2Proof.Machine.execTpin h px a mask s
  | .tunpin h a mask => Sys2Proof.Machine.execTunpin h a mask s
  | .tlde h x => Sys2Proof.Machine.execTlde h x s
  | .tste h x => Sys2Proof.Machine.execTste h x s
  | .tinfo h n d a => Sys2Proof.Machine.execTinfo h n d a s
  | .mldw h x => Sys2Proof.Machine.execMldw h x s
  | .mma h x => Sys2Proof.Machine.execMma h x s
  | .macc h rm x => Sys2Proof.Machine.execMacc h rm x s
  | .mcvt h x => Sys2Proof.Machine.execMcvt h x s
  | .mqry h sel d => Sys2Proof.Machine.execMqry h sel d s
  | .sint h x => Sys2Proof.Machine.execSint h x s
  | .sintc h x => Sys2Proof.Machine.execSintc h x s
  | .smrg h x => Sys2Proof.Machine.execSmrg h x s
  | .sdiff h x => Sys2Proof.Machine.execSdiff h x s
  | .sgath h x => Sys2Proof.Machine.execSgath h x s
  | .sscat h x => Sys2Proof.Machine.execSscat h x s
  | .scmp h nz x => Sys2Proof.Machine.execScmp h nz x s
  | .cld h x => Sys2Proof.Machine.execCld h x s
  | .cst h x => Sys2Proof.Machine.execCst h x s
  | .camo h x => Sys2Proof.Machine.execCamo h x s
  | .cprb h d base disp b => Sys2Proof.Machine.execCprb h d base disp b s
  | .clbinv h scp d base disp b => Sys2Proof.Machine.execClbinv h scp d base disp b s
  | .qpop h d base disp => Sys2Proof.Machine.execQpop h d base disp s
  | .qpsh h d base disp => Sys2Proof.Machine.execQpsh h d base disp s
  | .cpy h x => Sys2Proof.Machine.execCpy h x s
  | .cred h x => Sys2Proof.Machine.execCred h x s
  | .xcpy h x => Sys2Proof.Machine.execXcpy h x s
  | .xred h x => Sys2Proof.Machine.execXred h x s
  | .rfence h scp base disp => Sys2Proof.Machine.execRfence h scp base disp s
  | .spawn h x => Sys2Proof.Machine.execSpawn h x s
  | .exit h => Sys2Proof.Machine.execExit h s
  | .yield h => Sys2Proof.Machine.execYield h s
  | .bar h d a idx => Sys2Proof.Machine.execBar h d a idx s
  | .whereIu h d => Sys2Proof.Machine.execWhereIu h d s
  | .move h rad sbench => Sys2Proof.Machine.execMove h rad sbench s
  | .sys h a code => Sys2Proof.Machine.execSys h a code s
  | .trap h a code => Sys2Proof.Machine.execTrap h a code s
  | .brk h code => Sys2Proof.Machine.execBrk h code s
  | .eret h => Sys2Proof.Machine.execEret h s
  | .csrr h d csr => Sys2Proof.Machine.execCsrr h d csr s
  | .csrw h a csr => Sys2Proof.Machine.execCsrw h a csr s
  | .ctxr h d a word => Sys2Proof.Machine.execCtxr h d a word s
  | .ctxw h a b word => Sys2Proof.Machine.execCtxw h a b word s
  | .instructionFetch b u => Sys2Proof.Machine.execInstructionFetch b u s
  | .instructionReissue k => Sys2Proof.Machine.execInstructionReissue k s
  | .deliverResult r => Sys2Proof.Machine.execDeliverResult r s
  | .storePerform r => Sys2Proof.Machine.execStorePerform r s
  | .faultMessage b asid page => Sys2Proof.Machine.execFaultMessage b asid page s
  | .wake asid page status maps => Sys2Proof.Machine.execWake asid page status maps s
  | .retryRecordReplay k j => Sys2Proof.Machine.execRetryRecordReplay k j s
  | .sideLogReplay r => Sys2Proof.Machine.execSideLogReplay r s
  | .trapEntry k => Sys2Proof.Machine.execTrapEntry k s
  | .holdGrant r => Sys2Proof.Machine.execHoldGrant r s
  | .holdExpiry b u slot => Sys2Proof.Machine.execHoldExpiry b u slot s
  | .syncAccessArrival r => Sys2Proof.Machine.execSyncAccessArrival r s
  | .syncRetryResend r => Sys2Proof.Machine.execSyncRetryResend r s
  | .barStep r => Sys2Proof.Machine.execBarStep r s
  | .directoryRegionMerge base size => Sys2Proof.Machine.execDirectoryRegionMerge base size s
  | .mldwExecute c => Sys2Proof.Machine.execMldwExecute c s
  | .mmaExecute c => Sys2Proof.Machine.execMmaExecute c s
  | .maccExecute c => Sys2Proof.Machine.execMaccExecute c s
  | .mcvtExecute c => Sys2Proof.Machine.execMcvtExecute c s
  | .cpyExecute c => Sys2Proof.Machine.execCpyExecute c s
  | .credExecute c => Sys2Proof.Machine.execCredExecute c s
  | .xcpyExecute c ans => Sys2Proof.Machine.execXcpyExecute c ans s
  | .xredExecute c ans => Sys2Proof.Machine.execXredExecute c ans s
  | .streamExecute r n => Sys2Proof.Machine.execStreamExecute r n s
  | .engineRestPoint b g => Sys2Proof.Machine.execEngineRestPoint b g s
  | .engineIdleGate b g => Sys2Proof.Machine.execEngineIdleGate b g s
  | .tileFrameRefill asid idx frame => Sys2Proof.Machine.execTileFrameRefill asid idx frame s
  | .tileFrameWriteback asid idx frame => Sys2Proof.Machine.execTileFrameWriteback asid idx frame s
  | .scratchpadBankWake b u bank => Sys2Proof.Machine.execScratchpadBankWake b u bank s
  | .linePull b u => Sys2Proof.Machine.execLinePull b u s
  | .lineTransferArrival k => Sys2Proof.Machine.execLineTransferArrival k s
  | .readyListAgeing k => Sys2Proof.Machine.execReadyListAgeing k s
  | .readyListSwap b => Sys2Proof.Machine.execReadyListSwap b s
  | .firmwareRebalance k b => Sys2Proof.Machine.execFirmwareRebalance k b s
  | .addressSpaceSuspend asid => Sys2Proof.Machine.execAddressSpaceSuspend asid s
  | .addressSpaceResume asid => Sys2Proof.Machine.execAddressSpaceResume asid s
  | .tlbShootdown asid lo hi maps => Sys2Proof.Machine.execTlbShootdown asid lo hi maps s
  | .asidRetireDiscard asid => Sys2Proof.Machine.execAsidRetireDiscard asid s
  | .iucfgWrite b u v => Sys2Proof.Machine.execIucfgWrite b u v s
  | .registerWrite r v => Sys2Proof.Machine.execRegisterWrite r v s
  | .snpInv line => Sys2Proof.Machine.execSnpInv line s
  | .snpData line => Sys2Proof.Machine.execSnpData line s
  | .snpCur line => Sys2Proof.Machine.execSnpCur line s
  | .memRd pa snp => Sys2Proof.Machine.execMemRd pa snp s
  | .memRdData pa => Sys2Proof.Machine.execMemRdData pa s
  | .memInv pa => Sys2Proof.Machine.execMemInv pa s
  | .memInvNt pa => Sys2Proof.Machine.execMemInvNt pa s
  | .memWr pa data => Sys2Proof.Machine.execMemWr pa data s
  | .memWrPtl pa data mask => Sys2Proof.Machine.execMemWrPtl pa data mask s
  | .memSpecRd pa => Sys2Proof.Machine.execMemSpecRd pa s
  | .birspS line data => Sys2Proof.Machine.execBirspS line data s
  | .birspI line data => Sys2Proof.Machine.execBirspI line data s
  | .biconflict line => Sys2Proof.Machine.execBiconflict line s
  | .inboundAtomicop op n pa v cmp => Sys2Proof.Machine.execInboundAtomicop op n pa v cmp s
  | .atomicopCompletion r ok old => Sys2Proof.Machine.execAtomicopCompletion r ok old s
  | .inboundLinkAccess x => Sys2Proof.Machine.execInboundLinkAccess x s
  | .linkRefusal r => Sys2Proof.Machine.execLinkRefusal r s
  | .linkPortDrop port => Sys2Proof.Machine.execLinkPortDrop port s
  | .linkDownTimeout c => Sys2Proof.Machine.execLinkDownTimeout c s
  | .llcContextPartitionResize steps => Sys2Proof.Machine.execLlcContextPartitionResize steps s
  | .cacheWayGate lvl way off => Sys2Proof.Machine.execCacheWayGate lvl way off s
  | .doorbellKick fn off width v => Sys2Proof.Machine.execDoorbellKick fn off width v s
  | .qslotsWrite fn v => Sys2Proof.Machine.execQslotsWrite fn v s
  | .queueCreate fn qid x => Sys2Proof.Machine.execQueueCreate fn qid x s
  | .queueDestroy fn qid => Sys2Proof.Machine.execQueueDestroy fn qid s
  | .queueSlotEvaluate fn => Sys2Proof.Machine.execQueueSlotEvaluate fn s
  | .launch fn qid => Sys2Proof.Machine.execLaunch fn qid s
  | .launchCrewPlace die fn qid => Sys2Proof.Machine.execLaunchCrewPlace die fn qid s
  | .launchComplete slot => Sys2Proof.Machine.execLaunchComplete slot s
  | .copy fn qid => Sys2Proof.Machine.execCopy fn qid s
  | .wait fn qid => Sys2Proof.Machine.execWait fn qid s
  | .waitReread fn qid => Sys2Proof.Machine.execWaitReread fn qid s
  | .signal fn qid => Sys2Proof.Machine.execSignal fn qid s
  | .barrier fn qid => Sys2Proof.Machine.execBarrier fn qid s
  | .dependenceResolve fn qid => Sys2Proof.Machine.execDependenceResolve fn qid s
  | .queueFreeze fn qid => Sys2Proof.Machine.execQueueFreeze fn qid s
  | .queueHangTimeout fn qid => Sys2Proof.Machine.execQueueHangTimeout fn qid s
  | .threadCancel k => Sys2Proof.Machine.execThreadCancel k s
  | .timeSliceExpiry fn => Sys2Proof.Machine.execTimeSliceExpiry fn s
  | .setHaltRequest set => Sys2Proof.Machine.execSetHaltRequest set s
  | .setRelease set => Sys2Proof.Machine.execSetRelease set s
  | .powerModeChange m => Sys2Proof.Machine.execPowerModeChange m s
  | .clockStepDown => Sys2Proof.Machine.execClockStepDown s
  | .clockStepUp => Sys2Proof.Machine.execClockStepUp s
  | .thermalThrottle => Sys2Proof.Machine.execThermalThrottle s
  | .thermalTrip => Sys2Proof.Machine.execThermalTrip s
  | .computeDieReset d => Sys2Proof.Machine.execComputeDieReset d s
  | .moduleFatal cause => Sys2Proof.Machine.execModuleFatal cause s
  | .powerOnReset => Sys2Proof.Machine.execPowerOnReset s
  | .patrolScrub => Sys2Proof.Machine.execPatrolScrub s
  | .linkFlitReplay socket => Sys2Proof.Machine.execLinkFlitReplay socket s
  | .recoveryImageLoad ok => Sys2Proof.Machine.execRecoveryImageLoad ok s
  | .mctpManagementMessage m => Sys2Proof.Machine.execMctpManagementMessage m s
  | .firmwareContextWrite k word v => Sys2Proof.Machine.execFirmwareContextWrite k word v s
  | .firmwareServiceThreadCreate asid x => Sys2Proof.Machine.execFirmwareServiceThreadCreate asid x s
  | .addressSpaceCreate x => Sys2Proof.Machine.execAddressSpaceCreate x s
  | .scratchpadBankPowerDown b u bank => Sys2Proof.Machine.execScratchpadBankPowerDown b u bank s
  | .computeDieResetComplete d => Sys2Proof.Machine.execComputeDieResetComplete d s
  | .linkPortUp port => Sys2Proof.Machine.execLinkPortUp port s
  | .hostMemoryCompletion r line => Sys2Proof.Machine.execHostMemoryCompletion r line s
  | .peerAcknowledgement r v => Sys2Proof.Machine.execPeerAcknowledgement r v s
  | .inboundWindowTableWrite n w0 w1 w2 => Sys2Proof.Machine.execInboundWindowTableWrite n w0 w1 w2 s
  | .configurationRequest => Sys2Proof.Machine.execConfigurationRequest s
  | .exclusiveModeSelect on sliceMs => Sys2Proof.Machine.execExclusiveModeSelect on sliceMs s
  | .getVersion => Sys2Proof.Machine.execGetVersion s
  | .getCapabilities => Sys2Proof.Machine.execGetCapabilities s
  | .negotiateAlgorithms p384 sha384 => Sys2Proof.Machine.execNegotiateAlgorithms p384 sha384 s
  | .getDigests => Sys2Proof.Machine.execGetDigests s
  | .getCertificate slot => Sys2Proof.Machine.execGetCertificate slot s
  | .challenge slot => Sys2Proof.Machine.execChallenge slot s
  | .getMeasurements idx => Sys2Proof.Machine.execGetMeasurements idx s
  | .keyExchange => Sys2Proof.Machine.execKeyExchange s
  | .finish => Sys2Proof.Machine.execFinish s
  | .endSession => Sys2Proof.Machine.execEndSession s

end Sys2Proof.Machine
end

