-- ==== Sys2Proof/Machine/Step.lean ====
section
/-! DEFINITION. One step of the machine (log 1), and an instruction put where the next step fetches it. -/

namespace Sys2Proof.Machine

/-- Goes on with the next state. -/
def andThen (o : Host.Outcome State Fault Refusal) (f : State → Host.Outcome State Fault Refusal) :
    Host.Outcome State Fault Refusal :=
  match o with
  | .next s => f s
  | o => o

/-- An issue of an IU: the fetch, then the instruction that it latched (R325). -/
def issueCycle (b u : Nat) (s : State) : Host.Outcome State Fault Refusal :=
  andThen (exec (.instructionFetch b u) (openIssue s b u)) fun s1 =>
    match s1.run.ir with
    | some i => exec i { s1 with run := { s1.run with ir := none } }
    | none => .next s1

/-- One move. -/
def runMove (m : Move) (s : State) : Host.Outcome State Fault Refusal :=
  match m with
  | .issue b u => issueCycle b u s
  | .event i => exec i (beginEvent s i)
  | .idle n => .next (passTime s n)

/-- One step: the first move of the agenda, or the default one (log 1). -/
def step (s : State) : Host.Outcome State Fault Refusal :=
  match s.run.agenda with
  | m :: l => runMove m { s with run := { s.run with agenda := l } }
  | [] => runMove (defaultMove s) s

/-! An instruction put where the next step fetches it (log 9). -/

/-- The page-table word of an interior entry. -/
def interiorPte (pfn : Nat) : Word := (1 : Word) <<< 63 ||| BitVec.ofNat 64 (pfn * 4096)

/-- A leaf with every permission, in device memory. -/
def leafPte (pfn : Nat) : Word := interiorPte pfn ||| (0x1F : Word) <<< 55

/-- Five tables at frames 1 to 5 that map the page at address 0 to frame 6. -/
def fetchTables : List (Nat × Word) :=
  [(0x1000, interiorPte 2), (0x2000, interiorPte 3), (0x3000, interiorPte 4), (0x4000, interiorPte 5), (0x5000, leafPte 6)]

/-- The address space of the placed instruction. -/
def fetchSpace : Space :=
  { asid := 1, ptroot := 1, ctxbase := 1, tvec := 0x400, htbase := 0x100, htsize := 2, tback := 2, esave := 0x200, limit := 16
    hwm := 2, live := 1 }

/-- The thread of the placed instruction, in the CL1 of IU 0 of bench 0, in supervisor mode. -/
def fetchThread : Thread :=
  { key := ⟨1, 1⟩, ctx := { sup := true, ctxid := 1, lslot := 0xFF }
    trap := { saveW0 := 0, tw1 := 0, tval := 0, iw01 := 0, iw2 := 0, saveS2 := 0, saveS3 := 0 }
    bench := 0, loc := .placed (.cl1 0), lastIu := some (0, 0) }

/-- `s` with an instruction stored at the PC of a thread that issues next: its bits above `nbits` are 0. -/
def State.withFetchWord (s : State) (nbits w : Nat) : State :=
  let iw : IWord := BitVec.ofNat 96 (w % 2 ^ nbits)
  let mem := fetchTables.foldl (fun d m => writeVal d m.1 8 (m.2.setWidth 128)) s.mem.dev
  { s with
    run := { s.run with agenda := .issue 0 0 :: s.run.agenda }
    threads := fetchThread :: s.threads.filter fun t => t.key != fetchThread.key
    spaces := fetchSpace :: s.spaces.filter fun x => x.asid != fetchSpace.asid
    mem := { s.mem with dev := writeBytes mem 0x6000 (Decode.bytesOfWord iw) } }

end Sys2Proof.Machine
end

