-- ==== Sys2Proof/Safety.lean ====
section
/-! DEFINITION. What statements about the machine speak of: the canonical form of memory, the parts of a line that
hardware keeps fixed, an outcome that goes on, an instruction that nothing keeps from its own effect, and its retirement. -/

namespace Sys2Proof.Machine
open Sys2Proof.Forms

/-- The bytes, the full/empty bits and the tile bytes are in canonical form. -/
def State.memOk (s : State) : Bool := Memory.wf s.mem

/-- A context line as hardware keeps it: the PC is a multiple of 4 and p0 reads 1 (R13, R21). -/
def Ctx.ok (c : Ctx) : Bool := c.pc.extractLsb' 0 2 == 0 && c.p.getLsbD 0

/-- Every thread's line is as hardware keeps it. -/
def State.linesOk (s : State) : Bool := s.threads.all fun t => t.ctx.ok

/-- The machine goes on, to a state of which something holds. -/
def Goes (o : Host.Outcome State Fault Refusal) (p : State → Prop) : Prop := ∃ s, o = .next s ∧ p s

/-- A run of steps is safe when no step of it ends in a fault or a refusal. -/
def SafeFor : Nat → State → Prop
  | 0, _ => True
  | n + 1, s => Goes (step s) (SafeFor n)

/-- A request that waits for a free retry record (R24). -/
def isUnrecorded (r : Req) : Bool :=
  match r.st with
  | .unrecorded .. => true
  | _ => false

/-- Nothing is due on the thread's line: it runs in a CL1, waits for nothing, no step, no trap, no FATAL record and no
request without a record. -/
def quiet (s : State) (t : Thread) : Bool :=
  inCl1 t && t.wait == .run && t.pend.isNone && !t.ctx.frz && !t.cancel && !t.ctx.step && (fatalRec t.trap).isNone &&
    !(s.flight.reqs.any fun r => r.key == t.key && isUnrecorded r)

/-- The thread is the one that issues, nothing is due on its line, and the guard holds (R75 steps 8 and 9). -/
def issues (s : State) (t : Thread) (h : Hdr) : Bool :=
  current s == some t && quiet s t && (getP t.ctx h.g ^^ h.n)

/-- None of the registers is pending (R23, R75 step 10); the flag says that the operand is a pair. -/
def noneFrom (c : Ctx) (l : List (Opd × Bool)) : Bool := l.all fun o => !isPend c o.1 o.2

/-- Two issue units alike but for what issuing counts and rotates (R45, R325) and for the pauses of leases (R191). -/
structure IuSame (x y : Iu) : Prop where
  cfg : x.cfg = y.cfg
  start : x.start = y.start
  dbg : x.dbg = y.dbg
  halted : x.halted = y.halted
  queue : x.queue = y.queue
  banks : x.banks = y.banks
  holds : x.holds.map (Option.map fun r => (r.key, r.line, r.va, r.bytes)) =
    y.holds.map (Option.map fun r => (r.key, r.line, r.va, r.bytes))

/-- The line of a thread after an instruction of it retired: registers `c` with the next PC, a wait for its results when
the switch marker asks for it (R25, R75 step 12). -/
structure LineIs (s : State) (t : Thread) (h : Hdr) (c : Ctx) (pc : VAddr) : Prop where
  line : ∃ x, findThread s t.key = some x ∧ x.ctx = { c with pc := pc, wkind := x.ctx.wkind } ∧ x.trap = t.trap ∧
    x.wait = (if h.w && c.outst != 0 then .drain else .run) ∧ (x.wait = .run → x.ctx.wkind = 0) ∧ x.bench = t.bench ∧
    x.loc = t.loc

/-- The instruction has retired with registers `c`, and nothing else has changed: other threads, memory, caches,
translations, requests, engines, queues, address spaces, sets and package stay; one retirement is counted (R45). -/
structure Retired (s s' : State) (t : Thread) (h : Hdr) (c : Ctx) (pc : VAddr) : Prop where
  line : LineIs s' t h c pc
  others : ∀ k, k ≠ t.key → findThread s' k = findThread s k
  mem : s'.mem = s.mem
  cache : s'.cache = s.cache
  mmu : s'.mmu = s.mmu
  flight : s'.flight = s.flight
  spaces : s'.spaces = s.spaces
  eng : s'.eng = s.eng
  queues : s'.queues = s.queues
  fw : s'.fw = s.fw
  pkg : s'.pkg = s.pkg
  run : s'.run = s.run
  ius : ∀ b u, IuSame (getIu s' b u) (getIu s b u)
  perf : ∀ b u, (getIu s' b u).perf =
    if b = t.bench ∧ u = iuAt t then (getIu s b u).perf.modify 0 (· + 1) else (getIu s b u).perf

/-- A request as it stands after its issue: its number, its thread and where the thread runs (R172). -/
def entry (s : State) (t : Thread) (r : Req) : Req :=
  { r with id := nextSeq s, key := t.key, bench := t.bench, iu := iuAt t, sup := t.ctx.sup, born := s.run.now }

/-- A request as it stands after an issue that located it; a `HOLD` where no hold is possible only loads (R190). -/
def handed (s : State) (t : Thread) (r : Req) (p : Phys) : Req := { onlyLoads (entry s t r) p with pa := some p, st := .pending }

/-- The line's registers after a request has entered: its destination is pending when it has a result, and it counts (R22). -/
def enteredCtx (c : Ctx) (r : Req) (pends counts : Bool) : Ctx :=
  let c0 := if pends then setPend c r.dst (r.ty == .b128) else c
  if counts then incOutst c0 else c0

/-- The instruction has retired with registers `c` and has handed over the requests `rs`, at the end of the list; memory
and the translation structures are as the translations left them (`m`: accessed and dirty bits, cached leaves), and nothing
else has changed. -/
structure Handed (s s' m : State) (t : Thread) (h : Hdr) (c : Ctx) (pc : VAddr) (rs : List Req) : Prop where
  line : LineIs s' t h c pc
  others : ∀ k, k ≠ t.key → findThread s' k = findThread s k
  reqs : s'.flight.reqs = s.flight.reqs ++ rs
  waiters : s'.flight.waiters = s.flight.waiters
  turns : s'.flight.turns = s.flight.turns
  mem : s'.mem = m.mem
  mmu : s'.mmu = m.mmu
  cache : s'.cache = s.cache
  spaces : s'.spaces = s.spaces
  eng : s'.eng = s.eng
  queues : s'.queues = s.queues
  fw : s'.fw = s.fw
  pkg : s'.pkg = s.pkg
  ius : ∀ b u, IuSame (getIu s' b u) (getIu s b u)

/-- The parts that ending holds leaves: everything but memory, data L1s, issue units and threads. -/
structure HoldsKeep (s s' : State) : Prop where
  run : s'.run = s.run
  spaces : s'.spaces = s.spaces
  mmu : s'.mmu = s.mmu
  flight : s'.flight = s.flight
  eng : s'.eng = s.eng
  queues : s'.queues = s.queues
  fw : s'.fw = s.fw
  pkg : s'.pkg = s.pkg
  empty : s'.mem.empty = s.mem.empty

/-- The line after the entry of a trap whose thread has nothing outstanding (R33). -/
structure TrapTaken (s s' : State) (t : Thread) (sp : Space) (p : PendTrap) : Prop where
  line : ∃ x, findThread s' t.key = some x ∧ x.ctx.cause = p.cause ∧ x.ctx.detail = p.detail ∧
    x.ctx.s2 = trapLineVa sp t.key ∧ x.ctx.sup = true ∧ x.ctx.intrap = true ∧ x.ctx.pc = sp.tvec ++ (0 : BitVec 2) ∧
    x.ctx.s0 = t.ctx.s0 ∧ x.ctx.s1 = t.ctx.s1 ∧ x.ctx.s3 = t.ctx.s3 ∧ x.ctx.v0 = t.ctx.v0 ∧ x.ctx.v1 = t.ctx.v1 ∧
    x.ctx.v2 = t.ctx.v2 ∧ x.ctx.v3 = t.ctx.v3 ∧ x.ctx.p = t.ctx.p ∧ x.ctx.rm = t.ctx.rm ∧ x.ctx.flags = t.ctx.flags ∧
    x.ctx.prio = t.ctx.prio ∧ x.ctx.lslot = t.ctx.lslot ∧ x.ctx.ctxid = t.ctx.ctxid ∧ x.ctx.geo = t.ctx.geo ∧
    x.trap = { t.trap with
      saveW0 := (p.word0 &&& ~~~((BitVec.allOnes 57).setWidth 64)) ||| p.resume.setWidth 64
      tw1 := p.cause ++ p.detail ++ p.w1lo
      tval := p.tval
      iw01 := p.iw.setWidth 64
      iw2 := (0 : BitVec 29) ++ bit p.rvalid ++ p.ridx ++ p.iw.extractLsb' 64 32
      saveS2 := t.ctx.s2
      saveS3 := t.ctx.s3 } ∧ x.wait = .run ∧ x.pend = none
  keeps : HoldsKeep s s'

end Sys2Proof.Machine
end

