-- ==== Sys2Proof/Certificates/Slice0/Obligations.lean ====
section
/-! DEFINITION. The statements for the provers: one definition for each, and the rules they are stated with. -/

section

/-! Integer instructions (05_integer_and_control). -/

namespace Sys2Proof.Spec
open Sys2Proof.Machine Sys2Proof.Forms

/-- A lane read as the type reads it: two's complement or unsigned (R98, R129). -/
def reading {w : Nat} (sg : Bool) (a : BitVec w) : Int := if sg then a.toInt else (a.toNat : Int)

/-- What a row of R129 with two sources says of one lane: width, signed reading, a, b, result. -/
abbrev Rule2 := (w : Nat) → Bool → BitVec w → BitVec w → BitVec w → Prop

/-- What a row of R129 with one source says of one lane. -/
abbrev Rule1 := (w : Nat) → BitVec w → BitVec w → Prop

/-- The rows of R129 with two sources, with the shift count of R130 and the division of R99. -/
def twoSource : List ((Hdr → Alu2 → Instr) × Rule2) :=
  [(Instr.add, fun w sg a b r => r = BitVec.ofInt w (reading sg a + reading sg b)),
   (Instr.sub, fun w sg a b r => r = BitVec.ofInt w (reading sg a - reading sg b)),
   (Instr.mul, fun w sg a b r => r = BitVec.ofInt w (reading sg a * reading sg b)),
   (Instr.mulh, fun w sg a b r => r = BitVec.ofInt w (reading sg a * reading sg b / 2 ^ w)),
   (Instr.div, fun w sg a b r => if b = 0 then r = BitVec.allOnes w else r = BitVec.ofInt w ((reading sg a).tdiv (reading sg b))),
   (Instr.rem, fun w sg a b r => if b = 0 then r = a else r = BitVec.ofInt w ((reading sg a).tmod (reading sg b))),
   (Instr.and, fun w _ a b r => ∀ j < w, r.getLsbD j = (a.getLsbD j && b.getLsbD j)),
   (Instr.or, fun w _ a b r => ∀ j < w, r.getLsbD j = (a.getLsbD j || b.getLsbD j)),
   (Instr.xor, fun w _ a b r => ∀ j < w, r.getLsbD j = (a.getLsbD j ^^ b.getLsbD j)),
   (Instr.andn, fun w _ a b r => ∀ j < w, r.getLsbD j = (a.getLsbD j && !b.getLsbD j)),
   (Instr.orn, fun w _ a b r => ∀ j < w, r.getLsbD j = (a.getLsbD j || !b.getLsbD j)),
   (Instr.shl, fun w _ a b r => ∀ j < w, r.getLsbD j = (decide (b.toNat % w ≤ j) && a.getLsbD (j - b.toNat % w))),
   (Instr.shr, fun w _ a b r => ∀ j < w, r.getLsbD j = (decide (j + b.toNat % w < w) && a.getLsbD (j + b.toNat % w))),
   (Instr.sar, fun w _ a b r => ∀ j < w, r.getLsbD j = a.getLsbD (if j + b.toNat % w < w then j + b.toNat % w else w - 1)),
   (Instr.rol, fun w _ a b r => ∀ j < w, r.getLsbD ((j + b.toNat % w) % w) = a.getLsbD j),
   (Instr.ror, fun w _ a b r => ∀ j < w, r.getLsbD j = a.getLsbD ((j + b.toNat % w) % w)),
   (Instr.min, fun _ sg a b r => r = if reading sg a < reading sg b then a else b),
   (Instr.max, fun _ sg a b r => r = if reading sg a < reading sg b then b else a)]

/-- The rows of R129 with one source, but `MOV`. -/
def oneSource : List ((Hdr → Alu1 → Instr) × Rule1) :=
  [(Instr.clz, fun w a r => r.toNat ≤ w ∧ (∀ j < w, w - r.toNat ≤ j → a.getLsbD j = false) ∧
      (r.toNat < w → a.getLsbD (w - 1 - r.toNat) = true)),
   (Instr.ctz, fun w a r => r.toNat ≤ w ∧ (∀ j < r.toNat, a.getLsbD j = false) ∧ (r.toNat < w → a.getLsbD r.toNat = true)),
   (Instr.popc, fun w a r => r.toNat = ((List.range w).filter fun j => a.getLsbD j).length),
   (Instr.brev, fun w a r => ∀ j < w, r.getLsbD j = a.getLsbD (w - 1 - j)),
   (Instr.bswap, fun w a r => ∀ j < w, r.getLsbD j = a.getLsbD (8 * (w / 8 - 1 - j / 8) + j % 8)),
   (Instr.abs, fun w a r => r = BitVec.ofInt w (if a.toInt < 0 then -a.toInt else a.toInt))]

/-- The result of an integer instruction: each lane by a rule, and the retirement with D written under R127. -/
def intDone (s : State) (t : Thread) (h : Hdr) (ty : Ty) (sh : Shape) (d : Opd) (i : Instr)
    (rule : Nat → BitVec (width ty) → Prop) : Prop :=
  ∃ (v : Vec) (s' : State), exec i s = .next s' ∧ (∀ j < lanes sh, rule j (laneOf (width ty) v j)) ∧
    Retired s s' t h (putInt t.ctx ty sh d v) (t.ctx.pc + 12)

/-- The operands of a register instruction that must not be pending: D, A and B. -/
def free3 (c : Ctx) (ty : Ty) (sh : Shape) (d a b : Opd) : Bool :=
  noneFrom c [(d, wideOf ty sh), (a, wideOf ty sh), (b, wideOf ty sh)]

end Sys2Proof.Spec

open Sys2Proof Sys2Proof.Machine Sys2Proof.Forms Sys2Proof.Spec

/-- The two-source rows of R129 complete with the result the row gives, lane by lane (R99, R127 to R130), and change nothing
else. -/
def Sys2Proof.Spec.IntTwoSource : Prop :=
  ∀ p ∈ twoSource, ∀ (s : State) (t : Thread) (h : Hdr) (x : Alu2), wellFormed (p.1 h x) = true → issues s t h = true →
    free3 t.ctx x.ty x.sh x.d x.a (srcOpd x.b) = true →
    intDone s t h x.ty x.sh x.d (p.1 h x) fun j r =>
      p.2 (width x.ty) (signed x.ty) (laneOf _ (opdVal s t (width x.ty) (lanes x.sh) (wideOf x.ty x.sh) x.a) j)
        (laneOf _ (srcVal s t (width x.ty) (lanes x.sh) (wideOf x.ty x.sh) x.b) j) r

/-- The one-source rows of R129 but `MOV` complete with the result the row gives. -/
def Sys2Proof.Spec.IntOneSource : Prop :=
  ∀ p ∈ oneSource, ∀ (s : State) (t : Thread) (h : Hdr) (x : Alu1), wellFormed (p.1 h x) = true → issues s t h = true →
    free3 t.ctx x.ty x.sh x.d x.a .zero = true →
    intDone s t h x.ty x.sh x.d (p.1 h x) fun j r =>
      p.2 (width x.ty) (laneOf _ (opdVal s t (width x.ty) (lanes x.sh) (wideOf x.ty x.sh) x.a) j) r

/-- The rows of R129 with two sources and with one, but `MOV`. -/
def Obligations.IntegerResults : Prop := Sys2Proof.Spec.IntTwoSource ∧ Sys2Proof.Spec.IntOneSource

/-- `SEXT`, `ZEXT`, `BFX` and `BFI` complete with the lane results of R132. -/
def Sys2Proof.Spec.IntFields : Prop :=
  (∀ (s : State) (t : Thread) (h : Hdr) (x : Ext), wellFormed (.sext h x) = true → issues s t h = true →
    free3 t.ctx x.ty x.sh x.d x.a .zero = true →
    intDone s t h x.ty x.sh x.d (.sext h x) (fun j r =>
      let a := laneOf (width x.ty) (opdVal s t (width x.ty) (lanes x.sh) (wideOf x.ty x.sh) x.a) j
      ∀ k < width x.ty, r.getLsbD k = a.getLsbD (if k < x.nb.toNat then k else x.nb.toNat - 1)) ∧
    intDone s t h x.ty x.sh x.d (.zext h x) (fun j r =>
      let a := laneOf (width x.ty) (opdVal s t (width x.ty) (lanes x.sh) (wideOf x.ty x.sh) x.a) j
      ∀ k < width x.ty, r.getLsbD k = (decide (k < x.nb.toNat) && a.getLsbD k))) ∧
  (∀ (s : State) (t : Thread) (h : Hdr) (x : Bfx), wellFormed (.bfx h x) = true → issues s t h = true →
    free3 t.ctx x.ty x.sh x.d x.a .zero = true →
    intDone s t h x.ty x.sh x.d (.bfx h x) fun j r =>
      let a := laneOf (width x.ty) (opdVal s t (width x.ty) (lanes x.sh) (wideOf x.ty x.sh) x.a) j
      ∀ k < width x.ty, r.getLsbD k = if k < x.len.toNat then a.getLsbD (x.pos.toNat + k)
        else (signed x.ty && a.getLsbD (x.pos.toNat + x.len.toNat - 1))) ∧
  (∀ (s : State) (t : Thread) (h : Hdr) (x : Bfi), wellFormed (.bfi h x) = true → issues s t h = true →
    free3 t.ctx x.ty x.sh x.d x.a x.b = true →
    intDone s t h x.ty x.sh x.d (.bfi h x) fun j r =>
      let a := laneOf (width x.ty) (opdVal s t (width x.ty) (lanes x.sh) (wideOf x.ty x.sh) x.a) j
      let b := laneOf (width x.ty) (opdVal s t (width x.ty) (lanes x.sh) (wideOf x.ty x.sh) x.b) j
      ∀ k < width x.ty, r.getLsbD k =
        if x.pos.toNat ≤ k ∧ k < x.pos.toNat + x.len.toNat then a.getLsbD (k - x.pos.toNat) else b.getLsbD k)

/-- `ADDX` and `SUBX` add or subtract with the carry of the predicate and write the carry back; p0 reads 1 and discards
(R131). -/
def Sys2Proof.Spec.IntCarry : Prop :=
  ∀ (s : State) (t : Thread) (h : Hdr) (x : AluX), wellFormed (.addx h x) = true → issues s t h = true →
    free3 t.ctx x.ty .sc x.d x.a (srcOpd x.b) = true →
    let w := width x.ty
    let a : Int := ((opdVal s t w 1 false x.a).setWidth w).toNat
    let b : Int := ((srcVal s t w 1 false x.b).setWidth w).toNat
    let c : Int := if x.px = 0 ∨ t.ctx.p.getLsbD x.px.toNat = true then 1 else 0
    (∃ s', exec (.addx h x) s = .next s' ∧ Retired s s' t h
      (setP (putInt t.ctx x.ty .sc x.d ((BitVec.ofInt w (a + b + c)).setWidth 128)) x.px (decide (2 ^ w ≤ a + b + c))) (t.ctx.pc + 12)) ∧
    (∃ s', exec (.subx h x) s = .next s' ∧ Retired s s' t h
      (setP (putInt t.ctx x.ty .sc x.d ((BitVec.ofInt w (a - b - c)).setWidth 128)) x.px (decide (a - b - c < 0))) (t.ctx.pc + 12))

/-- Bit fields and extensions (R132), and addition and subtraction with carry (R131). -/
def Obligations.IntegerFieldsAndCarry : Prop := Sys2Proof.Spec.IntFields ∧ Sys2Proof.Spec.IntCarry

/-- `SEL`, `MOV`, `LI` and `LEA` complete with the value their rule gives (R133 to R135). -/
def Sys2Proof.Spec.IntMoves : Prop :=
  (∀ (s : State) (t : Thread) (h : Hdr) (x : AluX), wellFormed (.sel h x) = true → issues s t h = true →
    free3 t.ctx x.ty x.sh x.d x.a (srcOpd x.b) = true →
    ∃ s', exec (.sel h x) s = .next s' ∧ Retired s s' t h (putInt t.ctx x.ty x.sh x.d
      (if x.px = 0 ∨ t.ctx.p.getLsbD x.px.toNat = true then opdVal s t (width x.ty) (lanes x.sh) (wideOf x.ty x.sh) x.a
        else srcVal s t (width x.ty) (lanes x.sh) (wideOf x.ty x.sh) x.b)) (t.ctx.pc + 12)) ∧
  (∀ (s : State) (t : Thread) (h : Hdr) (x : Mov), wellFormed (.mov h x) = true → issues s t h = true →
    free3 t.ctx x.ty x.sh x.d (srcOpd x.a) .zero = true →
    ∃ s', exec (.mov h x) s = .next s' ∧ Retired s s' t h
      (putInt t.ctx x.ty x.sh x.d (srcVal s t (width x.ty) (lanes x.sh) (wideOf x.ty x.sh) x.a)) (t.ctx.pc + 12)) ∧
  (∀ (s : State) (t : Thread) (h : Hdr) (d : Opd) (imm : BitVec 56), issues s t h = true → noneFrom t.ctx [(d, false)] = true →
    ∃ s', exec (.li h d imm) s = .next s' ∧
      Retired s s' t h (setDst t.ctx d false ((BitVec.ofInt 64 imm.toInt).setWidth 128)) (t.ctx.pc + 12)) ∧
  (∀ (s : State) (t : Thread) (h : Hdr) (x : MemD), wellFormed (.lea h x) = true → issues s t h = true →
    noneFrom t.ctx [(x.d, false), (x.mem.base, false), (x.mem.idx, false)] = true →
    ∃ s', exec (.lea h x) s = .next s' ∧ Retired s s' t h (setDst t.ctx x.d false
      ((BitVec.ofInt 64 ((sVal s t x.mem.base).toNat + (sVal s t x.mem.idx).toNat * 2 ^ x.mem.sh.toNat + x.mem.disp.toInt)).setWidth 128))
      (t.ctx.pc + 12))

/-- `CMP` writes its condition to a predicate, or a mask of all ones and zeros to the lanes (R60, R136). -/
def Sys2Proof.Spec.IntCompare : Prop :=
  ∀ (s : State) (t : Thread) (h : Hdr) (x : Sys2Proof.Cmp), wellFormed (.cmp h x) = true → issues s t h = true →
    free3 t.ctx x.ty x.sh x.d x.a (srcOpd x.b) = true →
    let w := width x.ty
    let lane := fun (v : Vec) j => laneOf w v j
    let a := opdVal s t w (lanes x.sh) false x.a
    let b := srcVal s t w (lanes x.sh) false x.b
    let holds := fun (j : Nat) =>
      let p := reading (signed x.ty) (lane a j)
      let q := reading (signed x.ty) (lane b j)
      match x.cond with
      | .eq => lane a j = lane b j
      | .ne => lane a j ≠ lane b j
      | .lt => p < q
      | .ge => q ≤ p
      | .gt => q < p
      | .le => p ≤ q
      | .any => lane a j &&& lane b j ≠ 0
      | .none => lane a j &&& lane b j = 0
    ∃ (v : Vec) (s' : State), exec (.cmp h x) s = .next s' ∧ Retired s s' t h (setDst t.ctx x.d false v) (t.ctx.pc + 12) ∧
      (v.getLsbD 0 = true ↔ holds 0) ∧
      ∀ j < lanes x.sh, (holds j → lane v j = BitVec.allOnes w) ∧ (¬ holds j → lane v j = 0)

/-- Moves, immediates and addresses (R133 to R135), and comparisons (R60, R136). -/
def Obligations.IntegerMovesAndCompare : Prop := Sys2Proof.Spec.IntMoves ∧ Sys2Proof.Spec.IntCompare

/-! Registers, operands, predicates and control transfer (01, 02, 05). -/

/-- What operands read (R52, R53, R55): registers, pairs, `ZERO`, `ID`, `GEO`, `PCV`, `CLK`, and immediates, which are
sign-extended to the element width and fill every lane. -/
def Sys2Proof.Spec.OperandRead : Prop :=
  ∀ (s : State) (t : Thread) (w n : Nat),
    (∀ r, opdVal s t w n false (.s r) = (getS t.ctx r).setWidth 128) ∧
    (∀ r, opdVal s t w n true (.s r) = getS t.ctx (r + 1) ++ getS t.ctx r) ∧
    (∀ r wide, opdVal s t w n wide (.v r) = getV t.ctx r) ∧
    (∀ wide, opdVal s t w n wide .zero = 0 ∧ opdVal s t w n wide .id = t.ctx.ctxid.setWidth 128 ∧
      opdVal s t w n wide .geo = t.ctx.geo.setWidth 128 ∧ opdVal s t w n wide .pcv = t.ctx.pc.setWidth 128 ∧
      opdVal s t w n wide .clk =
        ((BitVec.ofNat 64 (s.run.now - (getIu s t.bench (iuAt t)).start)).setWidth 128)) ∧
    (∀ (v : BitVec 6) wide, 0 < w → w * n ≤ 128 → ∀ j < n, laneOf w (opdVal s t w n wide (.imm v)) j = BitVec.ofInt w v.toInt) ∧
    (∀ (v : BitVec 32) wide, 0 < w → w * n ≤ 128 → ∀ j < n, laneOf w (srcVal s t w n wide (.imm32 v)) j = BitVec.ofInt w v.toInt)

/-- What writing a result does (R19, R21, R54, R55, R127): the destination takes the value, sign- or zero-extended by the type
when it is a narrow scalar; a pair takes its low half in the even register; `ZERO` and p0 discard; no other register changes;
p0 reads 1. -/
def Sys2Proof.Spec.RegisterWrite : Prop :=
  ∀ (c : Ctx) (ty : Ty) (v : Vec),
    (∀ n m, ty ≠ .b128 → getS (putInt c ty .sc (.s n) v) m =
      if m = n then BitVec.ofInt 64 (reading (signed ty) (v.setWidth (width ty))) else getS c m) ∧
    (∀ n m, n = 0 ∨ n = 2 → getS (putInt c .b128 .sc (.s n) v) m =
      if m = n then v.extractLsb' 0 64 else if m = n + 1 then v.extractLsb' 64 64 else getS c m) ∧
    (∀ sh n m, sh ≠ .sc → getV (putInt c ty sh (.v n) v) m = if m = n then v else getV c m) ∧
    (∀ sh n m, getV (putInt c ty sh (.s n) v) m = getV c m ∧ getS (putInt c ty sh (.v n) v) m = getS c m) ∧
    (∀ sh, putInt c ty sh .zero v = c) ∧
    (∀ n b m, getP (setP c n b) m = if m = 0 then true else if m = n then b else getP c m) ∧
    (∀ n b m, getS (setP c n b) m = getS c m ∧ getV (setP c n b) m = getV c m) ∧
    (∀ b, setP c 0 b = c)

/-- What operands read (R52, R53, R55) and what a result write does (R19, R21, R54, R55, R127). -/
def Obligations.OperandsAndRegisters : Prop := Sys2Proof.Spec.OperandRead ∧ Sys2Proof.Spec.RegisterWrite

/-- `PLOG`, `PMOV` and `NOP` complete (R137, R138, R145). -/
def Sys2Proof.Spec.Predicates : Prop :=
  ∀ (s : State) (t : Thread) (h : Hdr), issues s t h = true →
    (∀ (d a b c : BitVec 3) (tt : BitVec 8),
      let bitOf := fun (p : BitVec 3) => if p = 0 ∨ t.ctx.p.getLsbD p.toNat = true then 1 else 0
      ∃ s', exec (.plog h d a b c tt) s = .next s' ∧
        Retired s s' t h (setP t.ctx d (tt.getLsbD (4 * bitOf a + 2 * bitOf b + bitOf c))) (t.ctx.pc + 12)) ∧
    (∀ d, noneFrom t.ctx [(d, false)] = true → ∃ s', exec (.pmovGet h d) s = .next s' ∧
      Retired s s' t h (setDst t.ctx d false ((t.ctx.p ||| 1).setWidth 128)) (t.ctx.pc + 12)) ∧
    (∀ a pm, noneFrom t.ctx [(a, false)] = true → ∃ c s', exec (.pmovSet h a pm) s = .next s' ∧
      Retired s s' t h c (t.ctx.pc + 12) ∧ c = { t.ctx with p := c.p } ∧ c.p.getLsbD 0 = t.ctx.p.getLsbD 0 ∧
      ∀ n, 1 ≤ n → n < 8 → c.p.getLsbD n = if pm.getLsbD (n - 1) then (sVal s t a).getLsbD n else t.ctx.p.getLsbD n) ∧
    (∃ s', exec (.nop h) s = .next s' ∧ Retired s s' t h t.ctx (t.ctx.pc + 12))

/-- `BR`, `JMP` and `DBNZ` transfer control (R139, R140, R144): a class B target counts in instructions from the branch,
modulo 2^57; `DBNZ` decrements and branches while the new value is not zero. -/
def Sys2Proof.Spec.Jumps : Prop :=
  ∀ (s : State) (t : Thread) (h : Hdr), issues s t h = true →
    (∀ disp, ∃ s', exec (.br h disp) s = .next s' ∧
      Retired s s' t h t.ctx (BitVec.ofInt 57 (t.ctx.pc.toNat + 12 * disp.toInt))) ∧
    (∀ a, noneFrom t.ctx [(a, false)] = true → (sVal s t a).toNat < 2 ^ 57 → (sVal s t a).toNat % 4 = 0 →
      ∃ s', exec (.jmp h a) s = .next s' ∧ Retired s s' t h t.ctx (BitVec.ofNat 57 (sVal s t a).toNat)) ∧
    (∀ n disp, noneFrom t.ctx [(.s n, false)] = true → ∃ s', exec (.dbnz h (.s n) disp) s = .next s' ∧
      Retired s s' t h (setS t.ctx n (getS t.ctx n - 1))
        (if getS t.ctx n = 1 then t.ctx.pc + 12 else BitVec.ofInt 57 (t.ctx.pc.toNat + 12 * disp.toInt)))

/-- Predicate instructions and `NOP` (R137, R138, R145), and `BR`, `JMP`, `DBNZ` (R139, R140, R144). -/
def Obligations.PredicatesAndJumps : Prop := Sys2Proof.Spec.Predicates ∧ Sys2Proof.Spec.Jumps

namespace Sys2Proof.Spec

/-- A store of a return entry (R141). -/
def pushReq (i : Instr) (va v : Word) : Req := { newReq .st va 8 .b64 i with dat := v.setWidth 128 }

/-- A call with an aligned stack pointer and room for its two stores pushes the return entry and goes to its target. -/
def callDone (s : State) (t : Thread) (h : Hdr) (i : Instr) (target : VAddr) : Prop :=
  t.ctx.s3.toNat % 16 = 0 → entriesUsed s t.bench (iuAt t) + 2 ≤ Config.reqEntries → t.key.ctx ≠ 0 →
  ∀ p s1 q s2, translate s (.data t.bench (iuAt t)) t.key.asid (wantOf .st t.ctx.sup) (t.ctx.s3 - 16) = .ok p s1 →
    translate s1 (.data t.bench (iuAt t)) t.key.asid (wantOf .st t.ctx.sup) (t.ctx.s3 - 8) = .ok q s2 →
    ∃ s', exec i s = .next s' ∧ Handed s s' s2 t h { t.ctx with s3 := t.ctx.s3 - 16 } target
      [handed s t (pushReq i (t.ctx.s3 - 16) ((t.ctx.pc + 12).setWidth 64)) p,
        { handed s t (pushReq i (t.ctx.s3 - 8) 0) q with id := nextSeq s + 1 }]

end Sys2Proof.Spec

/-- `CALL` and `CALLR` push the return PC and a zero word below s3 and jump; `RET` loads the entry into the PC and s3, and
waits for it (R141, R142). -/
def Sys2Proof.Spec.CallReturn : Prop :=
  ∀ (s : State) (t : Thread) (h : Hdr), issues s t h = true → noneFrom t.ctx [(.s 3, false)] = true →
    (∀ disp, callDone s t h (.call h disp) (BitVec.ofInt 57 (t.ctx.pc.toNat + 12 * disp.toInt))) ∧
    (∀ a, noneFrom t.ctx [(a, false)] = true → (sVal s t a).toNat < 2 ^ 57 → (sVal s t a).toNat % 4 = 0 →
      callDone s t h (.callr h a) (BitVec.ofNat 57 (sVal s t a).toNat)) ∧
    (t.ctx.s3.toNat % 16 = 0 → entriesFull s t = false → t.key.ctx ≠ 0 → t.ctx.outst ≠ 15 →
      ∀ p s1, translate s (.data t.bench (iuAt t)) t.key.asid (wantOf .ret t.ctx.sup) t.ctx.s3 = .ok p s1 →
      ∃ s' x, exec (.ret h) s = .next s' ∧ findThread s' t.key = some x ∧ x.wait = .ret ∧
        x.ctx = { t.ctx with pends := t.ctx.pends ||| 8, outst := t.ctx.outst + 1, wkind := x.ctx.wkind } ∧
        s'.flight.reqs = s.flight.reqs ++ [handed s t { newReq .ret t.ctx.s3 8 .b64 (.ret h) with dst := .s 3 } p])

/-- A control transfer to a bad register target or with a misaligned stack pointer raises MISALIGNED at the instruction, with the
value and the reason (R139). -/
def Sys2Proof.Spec.BadTargets : Prop :=
  ∀ (s : State) (t : Thread) (h : Hdr) (a : Opd), issues s t h = true →
    noneFrom t.ctx [(a, false), (.s 3, false)] = true → t.ctx.intrap = false → t.ctx.outst = 0 → ∀ sp, findSpace s t.key.asid = some sp →
    let trapped := fun (i : Instr) (reason : BitVec 8) (v : Word) =>
      ∃ s' x, exec i s = .next s' ∧ findThread s' t.key = some x ∧ x.ctx.cause = 0x05 ∧
        x.ctx.detail = reason ++ (0 : BitVec 16) ∧ x.trap.tval = v ∧ x.ctx.pc = sp.tvec ++ (0 : BitVec 2) ∧
        x.trap.saveW0.setWidth 57 = t.ctx.pc
    let reason : BitVec 8 := if (sVal s t a).toNat % 4 ≠ 0 then 0x01 else 0x02
    ((sVal s t a).toNat % 4 ≠ 0 ∨ 2 ^ 57 ≤ (sVal s t a).toNat →
      trapped (.jmp h a) reason (sVal s t a) ∧ trapped (.callr h a) reason (sVal s t a)) ∧
    (t.ctx.s3.toNat % 16 ≠ 0 → (∀ disp, trapped (.call h disp) 0x03 t.ctx.s3) ∧ trapped (.ret h) 0x03 t.ctx.s3)

/-- Calls and returns (R141, R142), and the traps of bad targets and stack pointers (R139). -/
def Obligations.CallsAndTargets : Prop := Sys2Proof.Spec.CallReturn ∧ Sys2Proof.Spec.BadTargets

/-! Floating-point and short-vector instructions (06_float_and_vector). -/

namespace Sys2Proof.Spec

/-- Lane `j` of a floating-point operand as a bit pattern (R149). -/
def fLane (s : State) (t : Thread) (ty : Ty) (sh : Shape) (o : Opd) (j : Nat) : Nat :=
  (laneOf (width ty) (fVal s t ty (lanes sh) o) j).toNat

/-- Lane `j` of an operand of an integer or raw type. -/
def vLane (s : State) (t : Thread) (ty : Ty) (sh : Shape) (o : Opd) (j : Nat) : BitVec (width ty) :=
  laneOf (width ty) (opdVal s t (width ty) (lanes sh) false o) j

/-- The union of the lanes' flags (R107). -/
def unionOf (r : List (Nat × Fl)) : Fl := r.foldl (fun f x => f ||| x.2) 0

/-- A floating-point instruction with lane results `r`: it completes and ORs its flags, or, when one of them is enabled, traps
with nothing changed (R107, R150). -/
def fpDone (s : State) (t : Thread) (h : Hdr) (i : Instr) (r : List (Nat × Fl)) (put : Ctx → Ctx) : Prop :=
  (unionOf r &&& fpte s t = 0 → ∃ s', exec i s = .next s' ∧
    Retired s s' t h (put { t.ctx with flags := t.ctx.flags ||| unionOf r }) (t.ctx.pc + 12)) ∧
  (unionOf r &&& fpte s t ≠ 0 → t.ctx.intrap = false → t.ctx.outst = 0 → ∀ sp, findSpace s t.key.asid = some sp →
    ∃ s', exec i s = .next s' ∧ TrapTaken s s' t sp (pendTrap t
      { cause := 0x0A, detail := (unionOf r).setWidth 24, iw := Decode.encode i, resume := t.ctx.pc } none))

/-- The vector whose lanes are numbers. -/
def packed (w n : Nat) (f : Nat → Nat) : Vec := ofLanes w ((List.range n).map fun j => BitVec.ofNat w (f j))

/-- The floating-point instructions with two sources: `FMIN` and `FMAX` do not round. -/
def fpTwo : List ((Hdr → Flt2 → Instr) × (Ffmt → Fenv → Nat → Nat → Nat × Fl)) :=
  [(Instr.fadd, fun f v => ffAdd f v false), (Instr.fsub, fun f v => ffAdd f v true), (Instr.fmul, ffMul), (Instr.fdiv, ffDiv),
   (fun h x => Instr.fmin h ⟨x.ty, x.sh, x.d, x.a, x.b⟩, fun f _ => ffMinMax f false),
   (fun h x => Instr.fmax h ⟨x.ty, x.sh, x.d, x.a, x.b⟩, fun f _ => ffMinMax f true)]

end Sys2Proof.Spec

/-- The arithmetic of R150 and `FMIN`, `FMAX` (R151): each lane's result and flags, the union of the flags into the sticky ones,
the FP trap with nothing changed when one of them is enabled (R107), and the result written under R149. -/
def Sys2Proof.Spec.FloatArith : Prop :=
  ∀ (s : State) (t : Thread) (h : Hdr), issues s t h = true →
    (∀ p ∈ fpTwo, ∀ x : Flt2, wellFormed (p.1 h x) = true → free3 t.ctx x.ty x.sh x.d x.a x.b = true →
      let lane := fun j => p.2 (ffOf x.ty) (fenvOf s t x.rm) (fLane s t x.ty x.sh x.a j) (fLane s t x.ty x.sh x.b j)
      fpDone s t h (p.1 h x) ((List.range (lanes x.sh)).map lane) fun c =>
        putF c x.ty x.sh x.d (packed (width x.ty) (lanes x.sh) fun j => (lane j).1)) ∧
    (∀ (sub : Bool) (x : Flt3), wellFormed (if sub then .fnma h x else .fma h x) = true →
      free3 t.ctx x.ty x.sh x.d x.a x.b = true → noneFrom t.ctx [(x.c, false)] = true →
      let lane := fun j => ffFma (ffOf x.ty) (fenvOf s t x.rm) sub (fLane s t x.ty x.sh x.a j) (fLane s t x.ty x.sh x.b j)
        (fLane s t x.ty x.sh x.c j)
      fpDone s t h (if sub then .fnma h x else .fma h x) ((List.range (lanes x.sh)).map lane) fun c =>
        putF c x.ty x.sh x.d (packed (width x.ty) (lanes x.sh) fun j => (lane j).1)) ∧
    (∀ x : Flt1, wellFormed (.fsqrt h x) = true → free3 t.ctx x.ty x.sh x.d x.a .zero = true →
      let lane := fun j => ffSqrt (ffOf x.ty) (fenvOf s t x.rm) (fLane s t x.ty x.sh x.a j)
      fpDone s t h (.fsqrt h x) ((List.range (lanes x.sh)).map lane) fun c =>
        putF c x.ty x.sh x.d (packed (width x.ty) (lanes x.sh) fun j => (lane j).1))

/-- `FSGN` gives A the sign its suffix names and changes no other bit; `FCLASS` writes the class; `FRND` rounds to an integral
value; `FCMP` writes its condition to a predicate or to lanes (R152 to R155). -/
def Sys2Proof.Spec.FloatUnary : Prop :=
  ∀ (s : State) (t : Thread) (h : Hdr), issues s t h = true →
    (∀ x : Fsgn, wellFormed (.fsgn h x) = true → free3 t.ctx x.ty x.sh x.d x.a x.b = true →
      ∃ (v : Vec) (s' : State), exec (.fsgn h x) s = .next s' ∧ Retired s s' t h (putF t.ctx x.ty x.sh x.d v) (t.ctx.pc + 12) ∧
        ∀ j < lanes x.sh, ∀ k < width x.ty,
          let a := fLane s t x.ty x.sh x.a j
          let b := fLane s t x.ty x.sh x.b j
          let top := width x.ty - 1
          (laneOf (width x.ty) v j).getLsbD k = if k < top then a.testBit k
            else match x.op with
              | .cp => b.testBit top
              | .cn => !b.testBit top
              | .cx => a.testBit top ^^ b.testBit top) ∧
    (∀ x : Alu1, wellFormed (.fclass h x) = true → free3 t.ctx x.ty x.sh x.d x.a .zero = true →
      ∃ s', exec (.fclass h x) s = .next s' ∧ Retired s s' t h (putF t.ctx x.ty x.sh x.d
        (packed (width x.ty) (lanes x.sh) fun j => ffClass (ffOf x.ty) (fLane s t x.ty x.sh x.a j))) (t.ctx.pc + 12)) ∧
    (∀ x : Frnd, wellFormed (.frnd h x) = true → free3 t.ctx x.ty x.sh x.d x.a .zero = true →
      let lane := fun j => ffRnd (ffOf x.ty) (fenvOf s t x.rm) x.nx (fLane s t x.ty x.sh x.a j)
      fpDone s t h (.frnd h x) ((List.range (lanes x.sh)).map lane) fun c =>
        putF c x.ty x.sh x.d (packed (width x.ty) (lanes x.sh) fun j => (lane j).1)) ∧
    (∀ x : Fcmp, wellFormed (.fcmp h x) = true → free3 t.ctx x.ty x.sh x.d x.a x.b = true →
      let lane := fun j => ffCond (ffOf x.ty) x.cond (fLane s t x.ty x.sh x.a j) (fLane s t x.ty x.sh x.b j)
      fpDone s t h (.fcmp h x) ((List.range (lanes x.sh)).map fun j => (0, (lane j).2)) fun c =>
        setDst c x.d false (packed (width x.ty) (lanes x.sh) fun j => if (lane j).1 then 2 ^ width x.ty - 1 else 0))

/-- Floating-point arithmetic (R150, R151), and sign, class, rounding and comparison (R152 to R155). -/
def Obligations.FloatOperations : Prop := Sys2Proof.Spec.FloatArith ∧ Sys2Proof.Spec.FloatUnary

namespace Sys2Proof.Spec

/-- What a conversion writes (R157): a narrowing shaped one merges its lanes into D from lane L × PART on, and any other writes
D whole. -/
def putCvt (s : State) (t : Thread) (x : Cvt) (intDst : Bool) (f : Nat → Nat) (c : Ctx) : Ctx :=
  let dty := if x.dir then x.oty else x.ty
  let n := lanes x.sh
  if x.dir = true ∧ x.sh ≠ .sc then
    setDst c x.d false ((List.range n).foldl (fun v j => setLane (width dty) v (n * x.part.toNat + j) (BitVec.ofNat _ (f j)))
      (opdVal s t 64 1 false x.d))
  else if intDst then putInt c dty x.sh x.d (packed (width dty) n f)
  else putF c dty x.sh x.d (packed (width dty) n f)

/-- The lane of A that a conversion reads for lane `j` (R157), with an immediate in every lane. -/
def cvtLane (s : State) (t : Thread) (x : Cvt) (imm : BitVec 6 → Nat) (j : Nat) : Nat :=
  let w := width (if x.dir then x.ty else x.oty)
  match x.a with
  | .imm v => imm v % 2 ^ w
  | o => (laneOf w (opdVal s t w (lanes x.sh) false o) (if x.dir = true ∨ x.sh = .sc then j else lanes x.sh * x.part.toNat + j)).toNat

end Sys2Proof.Spec

/-- `FCVT`, `FCVI` and `ICVF` convert each lane and write it (R156, R157). -/
def Obligations.Conversions : Prop :=
  ∀ (s : State) (t : Thread) (h : Hdr) (x : Cvt), issues s t h = true → noneFrom t.ctx [(x.d, false), (x.a, false)] = true →
    let sty := if x.dir then x.ty else x.oty
    let dty := if x.dir then x.oty else x.ty
    let v := fenvOf s t x.rm
    (wellFormed (.fcvt h x) = true →
      let lane := fun j => ffConv (ffOf sty) (ffOf dty) v (cvtLane s t x (ffImm (ffOf sty)) j)
      fpDone s t h (.fcvt h x) ((List.range (lanes x.sh)).map lane) (putCvt s t x false fun j => (lane j).1)) ∧
    (wellFormed (.fcvi h x) = true →
      let lane := fun j => ffToInt (ffOf sty) v (signed dty) (width dty) (cvtLane s t x (ffImm (ffOf sty)) j)
      fpDone s t h (.fcvi h x) ((List.range (lanes x.sh)).map lane) (putCvt s t x true fun j => (lane j).1)) ∧
    (wellFormed (.icvf h x) = true →
      let lane := fun j => ffOfInt (ffOf dty) v (reading (signed sty)
        (BitVec.ofNat (width sty) (cvtLane s t x (fun i => (BitVec.ofInt (width sty) i.toInt).toNat) j)))
      fpDone s t h (.icvf h x) ((List.range (lanes x.sh)).map lane) (putCvt s t x false fun j => (lane j).1))

/-- `SHUF`, `VEXT`, `VINS` and `VBC` move lanes (R159, R160). -/
def Sys2Proof.Spec.LaneMoves : Prop :=
  ∀ (s : State) (t : Thread) (h : Hdr), issues s t h = true →
    (∀ x : Vec3, wellFormed (.shuf h x) = true → free3 t.ctx x.ty x.sh x.d x.a x.b = true → noneFrom t.ctx [(x.c, false)] = true →
      ∃ (v : Vec) (s' : State), exec (.shuf h x) s = .next s' ∧ Retired s s' t h (setDst t.ctx x.d false v) (t.ctx.pc + 12) ∧
        ∀ j < lanes x.sh,
          let c := (vLane s t x.ty x.sh x.c j).toNat
          let k := c % (2 * lanes x.sh)
          laneOf (width x.ty) v j = if c.testBit (width x.ty - 1) then 0
            else if k < lanes x.sh then vLane s t x.ty x.sh x.a k else vLane s t x.ty x.sh x.b (k - lanes x.sh)) ∧
    (∀ x : Vec2, free3 t.ctx x.ty x.sh x.d x.a x.b = true →
      let k := (sVal s t x.b).toNat % lanes x.sh
      let w := width x.ty
      (wellFormed (.vext h x) = true → ∃ s', exec (.vext h x) s = .next s' ∧ Retired s s' t h (setDst t.ctx x.d false
        ((BitVec.ofInt 64 (reading (signed x.ty) (vLane s t x.ty x.sh x.a k))).setWidth 128)) (t.ctx.pc + 12)) ∧
      (wellFormed (.vins h x) = true → ∃ (v : Vec) (s' : State), exec (.vins h x) s = .next s' ∧
        Retired s s' t h (setDst t.ctx x.d false v) (t.ctx.pc + 12) ∧
        ∀ j < lanes x.sh, laneOf w v j =
          if j = k then (opdVal s t w 1 false x.a).setWidth w else vLane s t x.ty x.sh x.d j)) ∧
    (∀ x : Alu1, wellFormed (.vbc h x) = true → free3 t.ctx x.ty x.sh x.d x.a .zero = true →
      ∃ (v : Vec) (s' : State), exec (.vbc h x) s = .next s' ∧ Retired s s' t h (setDst t.ctx x.d false v) (t.ctx.pc + 12) ∧
        ∀ j < lanes x.sh, laneOf (width x.ty) v j = (opdVal s t (width x.ty) 1 false x.a).setWidth (width x.ty))

/-- The four forms of `VMSK` (R163). -/
def Sys2Proof.Spec.VectorMasks : Prop :=
  ∀ (s : State) (t : Thread) (h : Hdr) (x : Alu1), issues s t h = true → noneFrom t.ctx [(x.d, false), (x.a, false)] = true →
    let isSet := fun j => (vLane s t x.ty x.sh x.a j).getLsbD (width x.ty - 1)
    let done := fun (i : Instr) (v : Vec) => ∃ s', exec i s = .next s' ∧ Retired s s' t h (setDst t.ctx x.d false v) (t.ctx.pc + 12)
    (wellFormed (.vmskGet h x) = true → ∃ v, done (.vmskGet h x) v ∧
      ∀ j < 128, v.getLsbD j = (decide (j < lanes x.sh) && isSet j)) ∧
    (wellFormed (.vmskSet h x) = true → ∃ v, done (.vmskSet h x) v ∧
      ∀ j < lanes x.sh, laneOf (width x.ty) v j = if (sVal s t x.a).getLsbD j then BitVec.allOnes _ else 0) ∧
    (wellFormed (.vmskAny h x) = true → ∃ v, done (.vmskAny h x) v ∧ (v.getLsbD 0 = true ↔ ∃ j < lanes x.sh, isSet j = true)) ∧
    (wellFormed (.vmskAll h x) = true → ∃ v, done (.vmskAll h x) v ∧ (v.getLsbD 0 = true ↔ ∀ j < lanes x.sh, isSet j = true))

/-- Lane moves (R159, R160) and masks (R163). -/
def Obligations.LaneMovesAndMasks : Prop := Sys2Proof.Spec.LaneMoves ∧ Sys2Proof.Spec.VectorMasks

namespace Sys2Proof.Spec

/-- The tree of R120 on 2^k lanes from lane `i` on. -/
def tree {α : Type} (f : α → α → α) (l : Nat → α) : Nat → Nat → α
  | 0, i => l i
  | k + 1, i => f (tree f l k i) (tree f l k (i + 2 ^ k))

/-- The scan of R121: `n` lanes as ranges of powers of two from the highest down, their trees combined from left to right. -/
def scan {α : Type} (f : α → α → α) (l : Nat → α) (n : Nat) : α :=
  let hi := Nat.log2 n
  let rec go (acc : α) (start : Nat) : Nat → α
    | 0 => acc
    | k + 1 => if n.testBit k then go (f acc (tree f l k start)) (start + 2 ^ k) k else go acc start k
  go (tree f l hi 0) (2 ^ hi) hi

/-- A lane of a reduction: integer and raw lanes as numbers, floating ones as bit patterns; no flags yet. -/
def redLane (s : State) (t : Thread) (x : Vred) (j : Nat) : Nat × Fl :=
  (if isFloat x.ty then fLane s t x.ty x.sh x.a j else (vLane s t x.ty x.sh x.a j).toNat, 0)

/-- One node: the operation, and the flags of both sides and its own. -/
def redOp (s : State) (t : Thread) (x : Vred) (a b : Nat × Fl) : Nat × Fl :=
  let r := aop x.op x.ty (fenvOf s t x.rm) a.1 b.1
  (r.1, a.2 ||| b.2 ||| r.2)

end Sys2Proof.Spec

/-- `VRED` combines the lanes in the pairwise tree of R120, `VSCAN` writes the scans of R121, and `VDOT` the sums of R122
(R161, R162); flags follow R107. -/
def Obligations.VectorReduce : Prop :=
  ∀ (s : State) (t : Thread) (h : Hdr), issues s t h = true →
    (∀ x : Vred, noneFrom t.ctx [(x.d, false), (x.a, false)] = true →
      let put := fun (c : Ctx) (sh : Shape) (v : Vec) => if isFloat x.ty then putF c x.ty sh x.d v else putInt c x.ty sh x.d v
      (wellFormed (.vred h x) = true →
        let r := tree (redOp s t x) (redLane s t x) (Nat.log2 (lanes x.sh)) 0
        fpDone s t h (.vred h x) [r] fun c => put c .sc (BitVec.ofNat 128 r.1)) ∧
      (wellFormed (.vscan h x) = true →
        let lane := fun j => scan (redOp s t x) (redLane s t x) (j + 1)
        fpDone s t h (.vscan h x) ((List.range (lanes x.sh)).map lane) fun c =>
          put c x.sh (packed (width x.ty) (lanes x.sh) fun j => (lane j).1))) ∧
    (∀ x : Flt3, wellFormed (.vdot h x) = true → free3 t.ctx x.ty x.sh x.d x.a x.b = true → noneFrom t.ctx [(x.c, false)] = true →
      let per := lanes x.sh / 4
      let lane : Nat → Nat × Fl := fun j =>
        let c := (laneOf 32 (if isFloat x.ty then fVal s t .f32 4 x.c else opdVal s t 32 4 false x.c) j).toNat
        if isFloat x.ty then
          ffDot (ffOf x.ty) (fenvOf s t x.rm)
            ((List.range per).map fun k => (fLane s t x.ty x.sh x.a (per * j + k), fLane s t x.ty x.sh x.b (per * j + k))) c
        else
          ((BitVec.ofInt 32 (((List.range per).map fun k => reading (signed x.ty) (vLane s t x.ty x.sh x.a (per * j + k)) *
            reading (signed x.ty) (vLane s t x.ty x.sh x.b (per * j + k))).sum + c)).toNat, 0)
      fpDone s t h (.vdot h x) ((List.range 4).map lane) fun c => setDst c x.d false (packed 32 4 fun j => (lane j).1))

/-! Memory instructions (07_memory_instructions). -/

namespace Sys2Proof.Spec

/-- The access with nothing in its way is handed over: it completes, its request is in flight with the location that the
translation gave, D is pending when it has a register result, and it counts in `OUTST` when it has a result. `al` is the
alignment that it needs. -/
def asks (s : State) (t : Thread) (h : Hdr) (i : Instr) (regs : List (Opd × Bool)) (al : Nat) (r : Req) (pends counts : Bool) : Prop :=
  noneFrom t.ctx regs = true → r.va.toNat % al = 0 → (counts = true → t.ctx.outst ≠ 15) → entriesFull s t = false → t.key.ctx ≠ 0 →
  ∀ p s1, translate s (.data t.bench (iuAt t)) t.key.asid (wantOf r.op t.ctx.sup) r.va = .ok p s1 → badKind s r p = none →
  ∃ s', exec i s = .next s' ∧
    Handed s s' s1 t h (enteredCtx t.ctx r pends counts) (t.ctx.pc + 12) [handed s t r p]

/-- A misaligned access traps at issue, before any translation (R169). -/
def misalignedTrap (s : State) (t : Thread) (i : Instr) (regs : List (Opd × Bool)) (ea : Word) (n : Nat) : Prop :=
  noneFrom t.ctx regs = true → ea.toNat % n ≠ 0 → t.ctx.intrap = false → t.ctx.outst = 0 → ∀ sp, findSpace s t.key.asid = some sp →
  ∃ s', exec i s = .next s' ∧ TrapTaken s s' t sp (pendTrap t
    { cause := 0x05, detail := 0x040000, tval := ea, iw := Decode.encode i, resume := t.ctx.pc } none)

/-- The registers that a memory instruction must find free: data or destination, base, index. -/
def memFree (d : Opd) (wide : Bool) (m : MemOp) : List (Opd × Bool) := [(d, wide), (m.base, false), (m.idx, false)]

/-- The low n bytes of the data register (R167). -/
def data (s : State) (t : Thread) (ty : Ty) (o : Opd) : Vec := opdVal s t (width ty) 1 (ty == .b128) o &&& (BitVec.allOnes 128 >>> (128 - width ty))

/-- No access of the thread that a store under its hold, with this address, size and location, has to follow is still on its
way (R173, R174). -/
def noneBefore (s : State) (t : Thread) (r : Req) (p : Phys) : Prop :=
  ∀ e ∈ s.flight.reqs, e.key = t.key → holdsBack e { r with id := nextSeq s, key := t.key, pa := some p } = false

/-- Where the bytes of an address under a hold lie. -/
def heldAt (r : HoldReg) (ea : Word) : Phys := physAdd r.line (ea.toNat % 128)

end Sys2Proof.Spec

/-- `LD`, `HOLD`, `AMO`, `CAS` and `CAS2` hand over an access with a register result (R171, R175, R178, R189). -/
def Sys2Proof.Spec.MemoryLoads : Prop :=
  ∀ (s : State) (t : Thread) (h : Hdr), issues s t h = true →
    (∀ x : MemAcc, asks s t h (.ld h x) (memFree x.d (x.ty == .b128) x.mem) (width x.ty / 8)
      { newReq .ld (eaOf t.ctx x.mem) (width x.ty / 8) x.ty (.ld h x) with ord := x.ord, scp := x.scp, nt := x.nt, dst := x.d } true true) ∧
    (∀ x : MemT, asks s t h (.hold h x) (memFree x.d (x.ty == .b128) x.mem) (width x.ty / 8)
      { newReq (.hold (wantsHold s t (eaOf t.ctx x.mem))) (eaOf t.ctx x.mem) (width x.ty / 8) x.ty (.hold h x) with dst := x.d } true true) ∧
    (∀ x : Amo, asks s t h (.amo h x) (memFree x.d (x.ty == .b128) x.mem) (width x.ty / 8)
      { newReq (.amo x.op) (eaOf t.ctx x.mem) (width x.ty / 8) x.ty (.amo h x) with
        ord := x.ord, scp := x.scp, far := x.far, dst := x.d, dat := data s t x.ty x.d } true true) ∧
    (∀ x : Cas, ∀ i ∈ [Instr.cas h x, Instr.cas2 h x],
      asks s t h i [(x.d, x.ty == .b128), (x.base, false), (x.b, x.ty == .b128)] (width x.ty / 8)
        { newReq .cas (eaBase t.ctx x.base x.disp) (width x.ty / 8) x.ty i with
          ord := x.ord, scp := x.scp, far := x.far, dst := x.d, dat := data s t x.ty x.d, dat2 := data s t x.ty x.b } true true)

/-- `ST`, `CFLUSH` and, to a line that its thread does not hold, `ADDD` hand over an access without a result; `ADDD` to a line that
it holds adds into it at once (R171, R175, R197, R199). -/
def Sys2Proof.Spec.MemoryStores : Prop :=
  ∀ (s : State) (t : Thread) (h : Hdr), issues s t h = true →
    (∀ x : MemAcc, asks s t h (.st h x) (memFree x.d (x.ty == .b128) x.mem) (width x.ty / 8)
      { newReq .st (eaOf t.ctx x.mem) (width x.ty / 8) x.ty (.st h x) with
        ord := x.ord, scp := x.scp, nt := x.nt, dst := x.d, dat := data s t x.ty x.d } false false) ∧
    (∀ x : Addd,
      let ea := eaOf t.ctx x.mem
      let n := width x.ty / 8
      let q := { newReq (.addd x.op) ea n x.ty (.addd h x) with dst := x.d, dat := data s t x.ty x.d }
      (holdOn s t.key ea = none → asks s t h (.addd h x) (memFree x.d (x.ty == .b128) x.mem) n q false false) ∧
      (∀ b u i r, holdOn s t.key ea = some (b, u, i, r) → noneFrom t.ctx (memFree x.d (x.ty == .b128) x.mem) = true →
        ea.toNat % n = 0 → entriesFull s t = false → (∀ sp, findSpace s t.key.asid = some sp → isolated sp ea.toNat = false) →
        noneBefore s t q (heldAt r ea) →
        ∃ s', exec (.addd h x) s = .next s' ∧
          Retired (holdPut s t.key (heldAt r ea) n
            (amoOper x.op x.ty (readCoherent s (some t.key) (heldAt r ea) n) (data s t x.ty x.d))) s' t h t.ctx (t.ctx.pc + 12))) ∧
    (∀ x : MemO, asks s t h (.cflush h x) [(x.mem.base, false), (x.mem.idx, false)] 1
      { newReq .cflush (eaOf t.ctx x.mem) 0 .b64 (.cflush h x) with ord := x.ord, scp := x.scp } false false)

/-- Accesses with a register result (R171, R175, R178, R189) and without (R197, R199). -/
def Obligations.MemoryAccesses : Prop := Sys2Proof.Spec.MemoryLoads ∧ Sys2Proof.Spec.MemoryStores

/-- The synchronising class hands over an access to an aligned word with acquire and release order: `LDE`, `LDC` and `QFE` with a
register result, `STF` with an acknowledgement, `STS` and `SFE` without a result (R171, R184). -/
def Obligations.SyncIssue : Prop :=
  ∀ (s : State) (t : Thread) (h : Hdr), issues s t h = true →
    (∀ x : MemD, ∀ p ∈ [(Instr.lde h x, ReqOp.lde, true, true), (Instr.ldc h x, ReqOp.ldc, true, true), (Instr.qfe h x, ReqOp.qfe, true, true),
        (Instr.stf h x, ReqOp.stf, false, true), (Instr.sts h x, ReqOp.sts, false, false)],
      asks s t h p.1 (memFree x.d false x.mem) 8
        { newReq p.2.1 (eaOf t.ctx x.mem) 8 .b64 p.1 with ord := .ar, dst := x.d, dat := opdVal s t 64 1 false x.d } p.2.2.1 p.2.2.2) ∧
    (∀ m : MemOp, asks s t h (.sfe h m) [(m.base, false), (m.idx, false)] 8
      { newReq .sfe (eaOf t.ctx m) 8 .b64 (.sfe h m) with ord := .ar } false false)

/-- A misaligned access raises MISALIGNED at issue with its address and reason 0x04, before any translation (R169). -/
def Obligations.MisalignedAccess : Prop :=
  ∀ (s : State) (t : Thread) (h : Hdr), issues s t h = true →
    (∀ x : MemAcc, ∀ i ∈ [Instr.ld h x, Instr.st h x],
      misalignedTrap s t i (memFree x.d (x.ty == .b128) x.mem) (eaOf t.ctx x.mem) (width x.ty / 8)) ∧
    (∀ x : Amo, misalignedTrap s t (.amo h x) (memFree x.d (x.ty == .b128) x.mem) (eaOf t.ctx x.mem) (width x.ty / 8)) ∧
    (∀ x : Cas, ∀ i ∈ [Instr.cas h x, Instr.cas2 h x],
      misalignedTrap s t i [(x.d, x.ty == .b128), (x.base, false), (x.b, x.ty == .b128)] (eaBase t.ctx x.base x.disp) (width x.ty / 8)) ∧
    (∀ x : Addd, misalignedTrap s t (.addd h x) (memFree x.d (x.ty == .b128) x.mem) (eaOf t.ctx x.mem) (width x.ty / 8)) ∧
    (∀ x : MemT, misalignedTrap s t (.hold h x) (memFree x.d (x.ty == .b128) x.mem) (eaOf t.ctx x.mem) (width x.ty / 8)) ∧
    (∀ x : Hst, misalignedTrap s t (.hst h x) (memFree x.d (x.ty == .b128) x.mem) (eaOf t.ctx x.mem) (width x.ty / 8)) ∧
    (∀ x : MemD, ∀ i ∈ [Instr.lde h x, Instr.ldc h x, Instr.qfe h x, Instr.stf h x, Instr.sts h x],
      misalignedTrap s t i (memFree x.d false x.mem) (eaOf t.ctx x.mem) 8) ∧
    (∀ m : MemOp, misalignedTrap s t (.sfe h m) [(m.base, false), (m.idx, false)] (eaOf t.ctx m) 8)

namespace Sys2Proof.Spec

/-- The thread has a store that is not performed at the scope (R183). -/
def storeLeft (s : State) (k : Key) (scp : Scope) : Prop :=
  ∃ r ∈ s.flight.reqs, r.key = k ∧ isStore r.op = true ∧ (r.st ≠ .peer ∨ scp = .sys)

end Sys2Proof.Spec

/-- `FENCE` with nothing outstanding completes: an acquiring one empties the issuing IU's data L1, at `.sys` also its bench L2 of
link-window lines, a releasing one ends the stale instruction copies. With stores or results still out it waits, its line
parked, and nothing else changes (R78, R183, R291). -/
def Sys2Proof.Spec.Fences : Prop :=
  ∀ (s : State) (t : Thread) (h : Hdr) (o : Ord) (scp : Scope), issues s t h = true → entriesFull s t = false →
    let isRel := o = .rel ∨ o = .ar
    let isAcq := o = .acq ∨ o = .ar
    (t.ctx.outst = 0 → ¬(isRel ∧ storeLeft s t.key scp) →
      ∃ s', exec (.fence h o scp) s = .next s' ∧ Retired { s with cache := s'.cache } s' t h t.ctx (t.ctx.pc + 12) ∧
        s'.cache = { s.cache with l1 := s'.cache.l1, l2 := s'.cache.l2, icache := s'.cache.icache } ∧
        (∀ x, x ∈ s'.cache.l1 ↔ x ∈ s.cache.l1 ∧ ¬(isAcq ∧ x.bench = t.bench ∧ x.iu = iuAt t)) ∧
        (∀ x, x ∈ s'.cache.l2 ↔ x ∈ s.cache.l2 ∧ ¬(isAcq ∧ scp = .sys ∧ x.bench = t.bench ∧ isPeer x.line = true)) ∧
        (∀ x, x ∈ s'.cache.icache ↔ x ∈ s.cache.icache ∧ ¬(isRel ∧ x.data ≠ lineData s.mem x.line))) ∧
    (t.ctx.outst ≠ 0 ∨ (isRel ∧ storeLeft s t.key scp) →
      ∃ s' x, exec (.fence h o scp) s = .next s' ∧ findThread s' t.key = some x ∧ x.wait = .fence o scp ∧
        x.ctx = { t.ctx with wkind := x.ctx.wkind } ∧ s'.mem = s.mem ∧ s'.cache = s.cache ∧ s'.flight = s.flight)

/-- `HST` without a valid hold writes its predicate 0 and stores nothing; under one it writes 1 and keeps the bytes in the hold
register of the line; `HREL` hands over the end of the hold (R192, R193). -/
def Obligations.HoldStore : Prop :=
  ∀ (s : State) (t : Thread) (h : Hdr), issues s t h = true → entriesFull s t = false →
    (∀ x : Hst,
      let ea := eaOf t.ctx x.mem
      let n := width x.ty / 8
      noneFrom t.ctx (memFree x.d (x.ty == .b128) x.mem) = true → ea.toNat % n = 0 →
      (holdOn s t.key ea = none →
        ∃ s', exec (.hst h x) s = .next s' ∧ Retired s s' t h (setP t.ctx x.px false) (t.ctx.pc + 12)) ∧
      (∀ b u i r, holdOn s t.key ea = some (b, u, i, r) → (∀ sp, findSpace s t.key.asid = some sp → isolated sp ea.toNat = false) →
        noneBefore s t { newReq .st ea n x.ty (.hst h x) with dst := x.d, dat := data s t x.ty x.d } (heldAt r ea) →
        ∃ s', exec (.hst h x) s = .next s' ∧
          Retired (holdPut s t.key (heldAt r ea) n (data s t x.ty x.d)) s' t h (setP t.ctx x.px true) (t.ctx.pc + 12))) ∧
    (∀ x : MemO, noneFrom t.ctx [(x.mem.base, false), (x.mem.idx, false)] = true →
      ∃ s', exec (.hrel h x) s = .next s' ∧ Handed s s' s t h t.ctx (t.ctx.pc + 12)
        [entry s t { newReq .hrel (eaOf t.ctx x.mem) 0 .b64 (.hrel h x) with ord := x.ord, scp := x.scp }])

/-- `RFENCE`, when the thread's stores are performed, discards copies of records: one record or all, of this bench or of
every bench (R228). -/
def Sys2Proof.Spec.RecordFence : Prop :=
  ∀ (s : State) (t : Thread) (h : Hdr) (scp : Scope) (base : Opd) (disp : BitVec 32), issues s t h = true →
    noneFrom t.ctx [(base, false)] = true → ¬storeLeft s t.key .dev →
    ∃ s', exec (.rfence h scp base disp) s = .next s' ∧ Retired { s with cache := s'.cache } s' t h t.ctx (t.ctx.pc + 12) ∧
      s'.cache = { s.cache with recs := s'.cache.recs } ∧
      ∀ e, e ∈ s'.cache.recs ↔ e ∈ s.cache.recs ∧ ¬((scp ≠ .bench ∨ e.bench = t.bench) ∧
        ((base = .zero ∧ disp = 0) ∨ (e.asid = t.key.asid ∧ e.va = ((eaBase t.ctx base disp) &&& ~~~127).toNat)))

/-- `FENCE` (R183) and `RFENCE` (R228). -/
def Obligations.FencesOfBothKinds : Prop := Sys2Proof.Spec.Fences ∧ Sys2Proof.Spec.RecordFence

/-! Tiles, engine commands, streams and volumes (08_tiles_and_matrix, 09_streams_volumes_copies). -/

namespace Sys2Proof.Spec

/-- The bench handle cache holds the entries of the address space's table among these indices (R203). -/
def entriesIn (s : State) (t : Thread) (l : List Nat) : Prop :=
  ∀ i ∈ l, i ≠ 0 → ∀ x, findSpace s t.key.asid = some x → i < x.htsize.toNat → entryHere s t.bench t.key.asid i = true

/-- Two commands alike but for the copy engine to which the intake passed them (R370). -/
def sameCmd (x y : Cmd) : Prop :=
  y = { x with home := y.home } ∧ (y.home ≠ x.home → x.home = 0 ∧ isCopy x.kind = true ∧ (y.home = 1 ∨ y.home = 2))

/-- An engine command that passes its checks is accepted: it completes at once with every register as it was, and stands at the
end of its IU's queue (R214); the token's line is in no host cache, else the host is asked for it (R310). -/
def accepts (s : State) (t : Thread) (h : Hdr) (i : Instr) (d a b c : Opd) (cmd : Cmd) : Prop :=
  noneFrom t.ctx [(d, false), (a, false), (b, false), (c, false)] = true → queueFull s t.bench (iuAt t) = false →
  (sVal s t d).toNat % 8 = 0 → entriesIn s t (matrixEntries cmd.kind (sVal s t a) (sVal s t b) (sVal s t c)) →
  (∀ p s1, translate s (.bench t.bench) t.key.asid { sup := t.ctx.sup } (sVal s t d) = .ok p s1 → hostBlocks s (lineOf p) .home = none) →
  ∃ s', exec i s = .next s' ∧ LineIs s' t h t.ctx (t.ctx.pc + 12) ∧ (∀ k, k ≠ t.key → findThread s' k = findThread s k) ∧
    List.Forall₂ sameCmd (s.eng.cmds ++ [{ cmd with
      id := nextSeq s, key := t.key, uid := t.uid, lslot := t.ctx.lslot, bench := t.bench, iu := iuAt t, iw := Decode.encode i
      tok := sVal s t d, a := sVal s t a, b := sVal s t b, c := sVal s t c, sup := t.ctx.sup }])
      s'.eng.cmds ∧
    (∀ b g, getMat s' b g = { getMat s b g with turn := (getMat s' b g).turn, turnLeft := (getMat s' b g).turnLeft }) ∧
    (∀ b g, ¬(b = t.bench ∧ g = iuAt t / 8) → getMat s' b g = getMat s b g) ∧
    (∀ b u, (getIu s' b u).queue = (getIu s b u).queue ++ if b = t.bench ∧ u = iuAt t then [nextSeq s] else []) ∧
    s'.mem = s.mem ∧ s'.cache = s.cache ∧ s'.mmu = s.mmu ∧ s'.flight = s.flight ∧ s'.spaces = s.spaces ∧ s'.queues = s.queues ∧
    s'.fw = s.fw ∧ s'.pkg = s.pkg

/-- A command of a kind with nothing but its type. -/
def plainCmd (k : CmdKind) (ty : Ty) (mode : BitVec 3) : Cmd :=
  { id := 0, key := ⟨0, 0⟩, lslot := 0, bench := 0, iu := 0, kind := k, iw := 0, ty := ty, mode := mode, tok := 0, a := 0, b := 0, c := 0 }

/-- The rounding mode that a command keeps from its issue (R103, R214). -/
def keptMode (rm : Option RMode) (dyn : BitVec 3) : BitVec 3 :=
  match rm with
  | none => dyn
  | some .rne => 0
  | some .rtz => 1
  | some .rdn => 2
  | some .rup => 3
  | some .rmm => 4

end Sys2Proof.Spec

/-- `MLDW`, `MMA`, `MACC`, `MCVT`, `CPY`, `CRED`, `XCPY` and `XRED` are accepted into the queue of their IU with the operand
values and the rounding mode of the moment (R214, R216, R249). -/
def Sys2Proof.Spec.EngineIssue : Prop :=
  ∀ (s : State) (t : Thread) (h : Hdr), issues s t h = true →
    let v := sVal s t
    let m := t.ctx.rm
    (∀ x : Mtx, matrixCheck .mldw x.ty s t (v x.a) (v .zero) (v .zero) = none →
      accepts s t h (.mldw h x) x.d x.a .zero .zero { plainCmd .mldw x.ty m with bank := x.bank }) ∧
    (∀ x : Mtx, matrixCheck .mma x.ty s t (v x.a) (v x.b) (v x.c) = none →
      accepts s t h (.mma h x) x.d x.a x.b x.c { plainCmd .mma x.ty m with np := x.np, init := x.init, bank := x.bank }) ∧
    (∀ (x : Mtx) (rm : Option RMode), matrixCheck .macc x.ty s t (v x.a) (v x.b) (v x.c) = none →
      accepts s t h (.macc h rm x) x.d x.a x.b x.c (plainCmd .macc x.ty (keptMode rm m))) ∧
    (∀ x : Mtx, matrixCheck .mcvt x.ty s t (v x.a) (v x.b) (v x.c) = none →
      accepts s t h (.mcvt h x) x.d x.a x.b x.c { plainCmd .mcvt x.ty m with np := x.np }) ∧
    (∀ x : Cpy, (v x.a).toNat % 128 = 0 → (v x.b).toNat % 128 = 0 →
      accepts s t h (.cpy h x) x.d x.a x.b .zero (plainCmd .cpy x.ty m) ∧
      accepts s t h (.cred h x) x.d x.a x.b .zero { plainCmd .cred x.ty m with op := x.op } ∧
      accepts s t h (.xcpy h x) x.d x.a x.b x.c { plainCmd .xcpy x.ty m with sig := x.sig } ∧
      accepts s t h (.xred h x) x.d x.a x.b x.c { plainCmd .xred x.ty m with op := x.op, sig := x.sig })

namespace Sys2Proof.Spec

/-- The handle table of the thread's address space gives the entry for a register value (R35, R204). -/
def namesTile (s : State) (t : Thread) (a : Opd) (x : Space) (e : Handle) : Prop :=
  findSpace s t.key.asid = some x ∧ validReg x (sVal s t a) = some e

/-- Everything but the line, the address space's handles, the bench's reserve of free indices and the tile bytes stays. -/
structure TileKeep (s s' : State) (t : Thread) : Prop where
  others : ∀ k, k ≠ t.key → findThread s' k = findThread s k
  dev : s'.mem.dev = s.mem.dev
  host : s'.mem.host = s.mem.host
  empty : s'.mem.empty = s.mem.empty
  poison : s'.mem.poison = s.mem.poison
  cache : s'.cache = { s.cache with reserve := s'.cache.reserve }
  reserve : ∀ b a, ¬(b = t.bench ∧ a = t.key.asid) → reserveOf s' b a = reserveOf s b a
  mmu : s'.mmu = s.mmu
  flight : s'.flight = s.flight
  eng : s'.eng = s.eng
  queues : s'.queues = s.queues
  spaces : ∀ a, a ≠ t.key.asid → findSpace s' a = findSpace s a

/-- One entry of a table is replaced, and the others stay. -/
def entryIs (s' : State) (t : Thread) (x : Space) (i : Nat) (e : Handle) : Prop :=
  ∃ x', findSpace s' t.key.asid = some x' ∧ x' = { x with handles := x'.handles } ∧
    ∀ j, getHandle x' j = if j = i then e else getHandle x j

end Sys2Proof.Spec

/-- `TALLOC` binds the lowest free index to an empty tile of the issuing IU, from the bench's reserve (R203), and returns it, or 0
when every entry is in use; the index is the model's choice (log 11), the rest is R205. -/
def Obligations.TileAlloc : Prop :=
  ∀ (s : State) (t : Thread) (h : Hdr) (fmt : BitVec 6) (d a : Opd) (x : Space), issues s t h = true →
    noneFrom t.ctx [(d, false), (a, false)] = true → findSpace s t.key.asid = some x →
    let v := (sVal s t a).toNat
    let rows := v / 2 ^ 16
    let cols := v % 2 ^ 16
    let size := rows * fmtRowBytes (fmt.setWidth 8) cols
    v < 2 ^ 32 → rows ≠ 0 → cols ≠ 0 → (0x11 ≤ fmt.toNat ∧ fmt.toNat ≤ 0x14 → cols = 128) → size ≤ 131072 →
    (∀ l, launchOf s t.ctx.lslot = some l → size ≤ l.tbytes.toNat ∧ ownedTiles x t.ctx.ctxid < l.ntile.toNat) →
    (x.htsize.toNat ≤ (x.handles.filter (·.v)).length + 1 →
      ∃ s', exec (.talloc h fmt d a) s = .next s' ∧ Retired s s' t h (setDst t.ctx d false 0) (t.ctx.pc + 12)) ∧
    (∀ i, (x.handles.filter (·.v)).length + 1 < x.htsize.toNat → freeIndex s x = some i → reserveOf s t.bench t.key.asid ≠ 0 →
      ∃ s', exec (.talloc h fmt d a) s = .next s' ∧ LineIs s' t h (setDst t.ctx d false (BitVec.ofNat 128 i)) (t.ctx.pc + 12) ∧
        TileKeep s s' t ∧ reserveOf s' t.bench t.key.asid + 1 = reserveOf s t.bench t.key.asid ∧ 0 < i ∧ i < x.htsize.toNat ∧ (getHandle x i).v = false ∧
        entryIs s' t x i { getHandle x i with
          v := true, busy := false, pin := 0, nfr := BitVec.ofNat 4 ((size + 16383) / 16384), hbench := BitVec.ofNat 10 t.bench
          hiu := BitVec.ofNat 8 (iuAt t), frames := BitVec.allOnes 40, rows := BitVec.ofNat 16 rows, cols := BitVec.ofNat 16 cols
          fmt := fmt.setWidth 8, owner := t.ctx.ctxid, lost := 0 } ∧
        (∀ o, o < 131072 → cellRead s'.mem.tiles (tileAddr t.key.asid i o) = 0) ∧
        ∀ n, (n < tileAddr t.key.asid i 0 ∨ tileAddr t.key.asid i 131072 ≤ n) → cellRead s'.mem.tiles n = cellRead s.mem.tiles n)

/-- `TFREE` ends a binding and counts its `GEN`; `TPIN` and `TUNPIN` change pins; `TINFO` reads a word of the entry (R206 to
R208). -/
def Sys2Proof.Spec.TileHandles : Prop :=
  ∀ (s : State) (t : Thread) (h : Hdr) (a : Opd) (x : Space) (e : Handle), issues s t h = true →
    noneFrom t.ctx [(a, false)] = true → namesTile s t a x e → entryHere s t.bench t.key.asid e.idx = true →
    ((∀ u ∈ s.threads, u.key.asid = t.key.asid → ∀ j w, u.wait ≠ .tile e.idx j w) →
      ∃ s', exec (.tfree h a) s = .next s' ∧ LineIs s' t h t.ctx (t.ctx.pc + 12) ∧ TileKeep s s' t ∧ s'.cache = s.cache ∧ s'.mem = s.mem ∧
        entryIs s' t x e.idx { e with v := false, pin := 0, gen := e.gen + 1 }) ∧
    (∀ (px : BitVec 3) (mask : BitVec 8),
      let new := frameMask e mask &&& ~~~e.pin
      let fits := pinnedAt s e.hbench.toNat e.hiu.toNat + ((List.range 8).filter fun j => new.getLsbD j).length ≤ 16
      ∃ s', exec (.tpin h px a mask) s = .next s' ∧ LineIs s' t h (setP t.ctx px (decide fits)) (t.ctx.pc + 12) ∧ TileKeep s s' t ∧
        s'.cache = s.cache ∧ s'.mem = s.mem ∧ entryIs s' t x e.idx { e with pin := if fits then e.pin ||| new else e.pin }) ∧
    (∀ mask : BitVec 8, ∃ s', exec (.tunpin h a mask) s = .next s' ∧ LineIs s' t h t.ctx (t.ctx.pc + 12) ∧ TileKeep s s' t ∧
      s'.cache = s.cache ∧ s'.mem = s.mem ∧ entryIs s' t x e.idx { e with pin := e.pin &&& ~~~frameMask e mask }) ∧
    (∀ (n : BitVec 2) (d : Opd), noneFrom t.ctx [(d, false)] = true →
      ∃ s', exec (.tinfo h n d a) s = .next s' ∧
        Retired s s' t h (setDst t.ctx d false ((handleWord e n.toNat).setWidth 128)) (t.ctx.pc + 12))

/-- A handle that names no valid entry raises TILE BOUND with reason 0x01: in `TFREE`, `TPIN` and `TUNPIN` a register value, in `TINFO`
one that names no entry of the table, in `TLDE` and `TSTE` the upper half of the address, of which a range past the tile raises it
with reason 0x02 (R35, R204, R208 to R210). The field number of an address is the model's choice (log 84). -/
def Sys2Proof.Spec.TileBound : Prop :=
  ∀ (s : State) (t : Thread) (h : Hdr) (x : Space), issues s t h = true → findSpace s t.key.asid = some x → t.ctx.intrap = false →
    t.ctx.outst = 0 →
    let traps := fun (i : Instr) (detail : BitVec 24) (v : Word) => ∃ s', exec i s = .next s' ∧ TrapTaken s s' t x (pendTrap t
      { cause := 0x07, detail := detail, tval := v, iw := Decode.encode i, resume := t.ctx.pc } none)
    (∀ a, noneFrom t.ctx [(a, false)] = true →
      let v := sVal s t a
      (v.toNat < 2 ^ 24 → entriesIn s t [v.toNat]) →
      (validReg x v = none → traps (.tfree h a) 0x010002 v ∧
        ∀ m, traps (.tunpin h a m) 0x010002 v ∧ ∀ px, traps (.tpin h px a m) 0x010002 v) ∧
      (v.toNat = 0 ∨ x.htsize.toNat ≤ v.toNat ∨ 2 ^ 24 ≤ v.toNat →
        ∀ n d, noneFrom t.ctx [(d, false)] = true → traps (.tinfo h n d a) 0x010002 v)) ∧
    (∀ y : MemT, noneFrom t.ctx (memFree y.d (y.ty == .b128) y.mem) = true →
      let ea := eaOf t.ctx y.mem
      let hv := BitVec.ofNat 32 (ea.toNat / 2 ^ 32)
      let o := ea.toNat % 2 ^ 32
      (hv.toNat < 2 ^ 24 → entriesIn s t [hv.toNat]) →
      ∀ i ∈ [Instr.tlde h y, .tste h y],
        (validHandle x hv = none → traps i 0x010002 ea) ∧
        (∀ e, validHandle x hv = some e → o % (width y.ty / 8) = 0 → tileSize e < o + width y.ty / 8 → traps i 0x020002 ea))

/-- `TFREE`, `TPIN`, `TUNPIN`, `TINFO` (R206 to R208), and a handle that names no entry (R35, R204, R209). -/
def Obligations.TileHandlesAndBound : Prop := Sys2Proof.Spec.TileHandles ∧ Sys2Proof.Spec.TileBound

/-- `TLDE` and `TSTE` to a byte range of a resident tile hand over an access to the tile's home; while its frame is not resident the
instruction waits for it, unissued (R201, R210). -/
def Obligations.TileAccess : Prop :=
  ∀ (s : State) (t : Thread) (h : Hdr) (y : MemT) (x : Space) (e : Handle), issues s t h = true →
    noneFrom t.ctx (memFree y.d (y.ty == .b128) y.mem) = true → findSpace s t.key.asid = some x →
    let ea := eaOf t.ctx y.mem
    let o := ea.toNat % 2 ^ 32
    let n := width y.ty / 8
    validHandle x (BitVec.ofNat 32 (ea.toNat / 2 ^ 32)) = some e → entryHere s t.bench t.key.asid (ea.toNat / 2 ^ 32) = true →
    o % n = 0 → o + n ≤ tileSize e →
    (∀ l, launchOf s t.ctx.lslot = some l → o + n ≤ l.tbytes.toNat) →
    (resident e (o / 16384) = true → bankAwake s e.hbench.toNat e.hiu.toNat (frameNo e (o / 16384)) = true → entriesFull s t = false →
      (t.ctx.outst ≠ 15 → ∃ s', exec (.tlde h y) s = .next s' ∧
        Handed s s' s t h (incOutst (setPend t.ctx y.d (y.ty == .b128))) (t.ctx.pc + 12)
          [entry s t { newReq (.tlde e.idx o) ea n y.ty (.tlde h y) with dst := y.d }]) ∧
      (∃ s', exec (.tste h y) s = .next s' ∧ Handed s s' s t h t.ctx (t.ctx.pc + 12)
        [entry s t { newReq (.tste e.idx o) ea n y.ty (.tste h y) with dst := y.d, dat := data s t y.ty y.d }])) ∧
    (resident e (o / 16384) = false → ∀ i ∈ [Instr.tlde h y, .tste h y], (i = .tlde h y → t.ctx.outst ≠ 15) →
      ∃ s' x, exec i s = .next s' ∧ findThread s' t.key = some x ∧ x.wait = .tile e.idx (o / 16384) (Decode.encode i) ∧
        x.ctx = { t.ctx with wkind := x.ctx.wkind } ∧ x.trap = t.trap ∧ (∀ k, k ≠ t.key → findThread s' k = findThread s k) ∧
        s'.mem = s.mem ∧ s'.cache = s.cache ∧ s'.flight = s.flight ∧ s'.spaces = s.spaces)

/-- `MQRY` reads the engine of its group (R224); its counters and banks are implementation parameters (R1). -/
def Sys2Proof.Spec.MatrixQuery : Prop :=
  ∀ (s : State) (t : Thread) (h : Hdr) (sel : BitVec 3) (d : Opd), issues s t h = true → noneFrom t.ctx [(d, false)] = true →
    ∃ (v : Word) (s' : State), exec (.mqry h sel d) s = .next s' ∧ Retired s s' t h (setDst t.ctx d false (v.setWidth 128)) (t.ctx.pc + 12) ∧
      (sel = 0 → v = BitVec.ofNat 64 (iuAt t / 8 * 2 ^ 10 + t.bench)) ∧
      (sel = 3 → v = BitVec.ofNat 64
        ((((List.range 8).map fun i => (getIu s t.bench (iuAt t / 8 * 8 + i)).queue.length).sum) * 8 + (getIu s t.bench (iuAt t)).queue.length)) ∧
      (sel = 4 ∨ sel = 5 → v.extractLsb' 48 15 = 0)

/-- Engine commands are accepted (R214, R216, R249); `MQRY` reads the engine (R224). -/
def Obligations.EngineIssueAndQuery : Prop := Sys2Proof.Spec.EngineIssue ∧ Sys2Proof.Spec.MatrixQuery

/-- The stream instructions that pass the checks of R231 hand over one request with a result, ordered after the thread's earlier
accesses; `SINTC` has no C (R229). -/
def Obligations.StreamIssue : Prop :=
  ∀ (s : State) (t : Thread) (h : Hdr) (x : Strm), issues s t h = true →
    noneFrom t.ctx [(x.d, false), (x.a, false), (x.b, false)] = true → entriesFull s t = false → t.ctx.outst ≠ 15 →
    let v := opdVal s t 128 1 false
    let ok := fun (set : Bool) (w : Nat) (l : Vec) =>
      (set = true ∨ l.extractLsb' 96 32 = 0) ∧ ((l.extractLsb' 64 32).toNat = 0 ∨ (l.setWidth 64).toNat % w = 0)
    ∀ p ∈ [(StrmKind.sint, Instr.sint h x), (.sintc, .sintc h x), (.smrg, .smrg h x), (.sdiff, .sdiff h x), (.sgath, .sgath h x),
        (.sscat, .sscat h x), (.scmp false, .scmp h false x), (.scmp true, .scmp h true x)],
      let c := if p.1 = .sintc then 0 else v x.c
      let set := p.1 = .sint ∨ p.1 = .sintc ∨ p.1 = .smrg ∨ p.1 = .sdiff
      ok (decide set) (strmBytes p.1 x.ty).1 (v x.a) → ok (decide set) (strmBytes p.1 x.ty).2.1 (v x.b) →
      ok false (strmBytes p.1 x.ty).2.2 c → (p.1 ≠ .sintc → noneFrom t.ctx [(x.c, false)] = true) →
      ∃ s', exec p.2 s = .next s' ∧ Handed s s' s t h (enteredCtx t.ctx { newReq .ret 0 0 x.ty p.2 with dst := x.d } true true) (t.ctx.pc + 12)
        [entry s t { newReq (.strm p.1 (v x.a) (v x.b) c {}) 0 0 x.ty p.2 with dst := x.d, ord := .rel }]

/-- `CLD`, `CPRB`, `CLBINV`, `QPOP` and `QPSH` on an aligned record hand over their request (R242, R244, R245). -/
def Sys2Proof.Spec.VolumeIssue : Prop :=
  ∀ (s : State) (t : Thread) (h : Hdr) (d base : Opd) (disp : BitVec 32), issues s t h = true → entriesFull s t = false →
    let ea := eaBase t.ctx base disp
    ea.toNat % 128 = 0 →
    (∀ x : Vol, x.base = base → x.disp = disp → noneFrom t.ctx [(x.d, x.ty == .b128), (base, false), (x.b, false)] = true → t.ctx.outst ≠ 15 →
      ∃ s', exec (.cld h x) s = .next s' ∧ Handed s s' s t h (incOutst (setPend t.ctx x.d (x.ty == .b128))) (t.ctx.pc + 12)
        [entry s t { newReq (.cld (opdVal s t 128 1 false x.b)) ea (width x.ty / 8) x.ty (.cld h x) with
          ord := x.ord, scp := x.scp, dst := x.d }]) ∧
    (∀ b, noneFrom t.ctx [(d, false), (base, false), (b, false)] = true →
      (t.ctx.outst ≠ 15 → ∃ s', exec (.cprb h d base disp b) s = .next s' ∧
        Handed s s' s t h (incOutst (setPend t.ctx d false)) (t.ctx.pc + 12)
          [entry s t { newReq (.cprb (opdVal s t 128 1 false b)) ea 0 .b64 (.cprb h d base disp b) with dst := d }]) ∧
      ∀ scp, ∃ s', exec (.clbinv h scp d base disp b) s = .next s' ∧ Handed s s' s t h t.ctx (t.ctx.pc + 12)
        [entry s t { newReq (.clbinv (opdVal s t 128 1 false b) (opdVal s t 128 1 false d)) ea 0 .b64 (.clbinv h scp d base disp b) with
          scp := scp }]) ∧
    (noneFrom t.ctx [(d, false), (base, false)] = true →
      (t.ctx.outst ≠ 15 → ∃ s', exec (.qpop h d base disp) s = .next s' ∧
        Handed s s' s t h (incOutst (setPend t.ctx d false)) (t.ctx.pc + 12)
          [entry s t { newReq .qpop ea 128 .b64 (.qpop h d base disp) with dst := d, ord := .ar }]) ∧
      (∃ s', exec (.qpsh h d base disp) s = .next s' ∧ Handed s s' s t h t.ctx (t.ctx.pc + 12)
        [entry s t { newReq .qpsh ea 128 .b64 (.qpsh h d base disp) with dst := d, ord := .ar, dat := opdVal s t 64 1 false d }]))

/-- `CST` and `CAMO` whose walk finds the element retire, after its acquire, as the store or the atomic of its address (R243). -/
def Sys2Proof.Spec.VolumeStores : Prop :=
  ∀ (s : State) (t : Thread) (h : Hdr), issues s t h = true → entriesFull s t = false → walkHeld s t.key = false → t.key.ctx ≠ 0 → t.walkFault = none →
    let via := fun (i : Instr) (regs : List (Opd × Bool)) (va : Word) (c : Vec) (pends : Bool) (r : Req) =>
      noneFrom t.ctx regs = true → va.toNat % 128 = 0 → (pends = true → t.ctx.outst ≠ 15) →
      let w := t.walk.getD { arr := nextSeq s }
      walkTurn s t.bench w.arr = true →
      ∀ s1 ea tile, atomically s (walkStep s (walker s t) w va r.n c) = .ok s1 (.at ea tile) →
        findThread s1 t.key = some t → s1.flight.reqs = s.flight.reqs →
        let s2 := acquireL1 (endWalk s1 t.key) t.bench (iuAt t) .dev
        ∀ p s3, translate s2 (.data t.bench (iuAt t)) t.key.asid (wantOf r.op t.ctx.sup) ea = .ok p s3 → badKind s2 r p = none →
          ∃ s', exec i s = .next s' ∧ Handed s2 s' s3 t h (enteredCtx t.ctx r pends pends) (t.ctx.pc + 12)
            [handed s2 t { r with va := ea, via := some (va.toNat, tile) } p]
    (∀ x : Vol, via (.cst h x) [(x.d, x.ty == .b128), (x.base, false), (x.b, false)] (eaBase t.ctx x.base x.disp)
      (opdVal s t 128 1 false x.b) false { newReq .st (eaBase t.ctx x.base x.disp) (width x.ty / 8) x.ty (.cst h x) with
        ord := x.ord, scp := x.scp, dst := x.d, dat := data s t x.ty x.d }) ∧
    (∀ x : Camo, via (.camo h x) [(x.d, x.ty == .b128), (x.base, false), (x.b, false)] (eaBase t.ctx x.base x.disp)
      (opdVal s t 128 1 false x.b) true { newReq (.amo x.op) (eaBase t.ctx x.base x.disp) (width x.ty / 8) x.ty (.camo h x) with
        ord := x.ord, scp := x.scp, far := x.far, dst := x.d, dat := data s t x.ty x.d })

/-- The volume instructions at issue (R242 to R245). -/
def Obligations.VolumeInstructions : Prop := Sys2Proof.Spec.VolumeIssue ∧ Sys2Proof.Spec.VolumeStores

/-! Threads and system (10_threads_and_system). -/

namespace Sys2Proof.Spec

/-- The registers that the masks of a `SPAWN` name (R258). -/
def maskRegs (x : Spawn) : List (Opd × Bool) :=
  ((List.range 4).filter fun i => x.scopy.getLsbD i).map (fun i => (Opd.s (BitVec.ofNat 2 i), false)) ++
    ((List.range 4).filter fun i => x.vcopy.getLsbD i).map fun i => (Opd.v (BitVec.ofNat 2 i), false)

end Sys2Proof.Spec

/-- `SPAWN`, `WHERE`, `CTXR` and `CTXW` hand over their request with the values read at issue (R258, R264, R270, R271). -/
def Sys2Proof.Spec.ThreadRequests : Prop :=
  ∀ (s : State) (t : Thread) (h : Hdr), issues s t h = true →
    (∀ x : Spawn, noneFrom t.ctx ((x.d, false) :: maskRegs x) = true → t.ctx.outst ≠ 15 → entriesFull s t = false →
      ∃ s', exec (.spawn h x) s = .next s' ∧ Handed s s' s t h (incOutst (setPend t.ctx x.d false)) (t.ctx.pc + 12)
        [entry s t { newReq (.spawn {
            entry := t.ctx.pc + 12 * x.edisp.signExtend 57, scopy := x.scopy, vcopy := x.vcopy, s0 := t.ctx.s0, s1 := t.ctx.s1
            s2 := t.ctx.s2, s3 := t.ctx.s3, v0 := t.ctx.v0, v1 := t.ctx.v1, v2 := t.ctx.v2, v3 := t.ctx.v3, rm := t.ctx.rm
            prio := t.ctx.prio, lslot := t.ctx.lslot, geo := t.ctx.geo, sup := t.ctx.sup, rad := x.rad, sbench := x.sbench })
          0 0 .b64 (.spawn h x) with dst := x.d, ord := .rel }]) ∧
    (∀ d, noneFrom t.ctx [(d, false)] = true → t.ctx.outst ≠ 15 →
      ∃ s', exec (.whereIu h d) s = .next s' ∧ Handed s s' s t h (incOutst (setPend t.ctx d false)) (t.ctx.pc + 12)
        [entry s t { newReq .whereIu 0 0 .b64 (.whereIu h d) with
          dst := d, dat := BitVec.ofNat 128 ((t.bench / 112 * 2 ^ 18 + t.bench * 2 ^ 8 + iuAt t) % 2 ^ 64) }]) ∧
    (∀ d a word, noneFrom t.ctx [(d, false), (a, false)] = true → t.ctx.sup = true → t.ctx.outst ≠ 15 →
      ∃ s', exec (.ctxr h d a word) s = .next s' ∧ Handed s s' s t h (incOutst (setPend t.ctx d false)) (t.ctx.pc + 12)
        [entry s t { newReq (.ctxr (sVal s t a) word) 0 0 .b64 (.ctxr h d a word) with dst := d }]) ∧
    (∀ a b word, noneFrom t.ctx [(a, false), (b, false)] = true → t.ctx.sup = true →
      (word = 2 → (sVal s t b).toNat / 2 ^ 49 % 8 ≤ 4 ∨ 2 ^ 32 ≤ (sVal s t a).toNat ∨ (sVal s t a).setWidth 32 = t.key.ctx ∨
        findThread s ⟨t.key.asid, (sVal s t a).setWidth 32⟩ = none) →
      ∃ s', exec (.ctxw h a b word) s = .next s' ∧ Handed s s' s t h t.ctx (t.ctx.pc + 12)
        [entry s t { newReq (.ctxw (sVal s t a) word) 0 0 .b64 (.ctxw h a b word) with dat := (sVal s t b).setWidth 128 }])

/-- `BAR` on an aligned barrier word within its launch's bound hands over its arrival, its destination pending, and waits for
`OUTST` = 0; an index at or above `BARW` raises BARRIER BOUND (R266). -/
def Sys2Proof.Spec.BarrierIssue : Prop :=
  ∀ (s : State) (t : Thread) (h : Hdr) (d a : Opd) (idx : BitVec 32), issues s t h = true →
    noneFrom t.ctx [(d, false), (a, false)] = true → t.ctx.outst ≠ 15 →
    let ea := sVal s t a + 8 * idx.setWidth 64
    let r : Req := { newReq .bar ea 8 .b64 (.bar h d a idx) with ord := .ar, dst := d }
    ((∀ l, launchOf s t.ctx.lslot = some l → idx.toNat < l.barw.toNat) → ea.toNat % 8 = 0 → entriesFull s t = false → t.key.ctx ≠ 0 →
      ∀ p s1, translate s (.data t.bench (iuAt t)) t.key.asid (wantOf .bar t.ctx.sup) ea = .ok p s1 → badKind s r p = none →
        ∃ s', exec (.bar h d a idx) s = .next s' ∧
          (∃ x, findThread s' t.key = some x ∧ x.wait = .bar ∧ x.trap = t.trap ∧ x.ctx =
            { incOutst (setPend t.ctx d false) with pc := t.ctx.pc + 12, wkind := x.ctx.wkind }) ∧
          (∀ k, k ≠ t.key → findThread s' k = findThread s k) ∧ s'.flight.reqs = s.flight.reqs ++ [handed s t r p] ∧
          s'.mem = s1.mem ∧ s'.mmu = s1.mmu ∧ s'.cache = s.cache ∧ s'.eng = s.eng ∧ s'.queues = s.queues) ∧
    (∀ l x, launchOf s t.ctx.lslot = some l → l.barw.toNat ≤ idx.toNat → findSpace s t.key.asid = some x →
      t.ctx.intrap = false → t.ctx.outst = 0 →
      ∃ s', exec (.bar h d a idx) s = .next s' ∧ TrapTaken s s' t x (pendTrap t
        { cause := 0x08, detail := l.barw.setWidth 24, tval := idx.setWidth 64, iw := Decode.encode (.bar h d a idx)
          resume := t.ctx.pc } none))

/-- `SPAWN`, `WHERE`, `CTXR`, `CTXW` (R258, R264, R270, R271) and `BAR` (R266) at issue. -/
def Obligations.ThreadRequestsAndBarriers : Prop := Sys2Proof.Spec.ThreadRequests ∧ Sys2Proof.Spec.BarrierIssue

/-- `SYS`, `TRAP` and `BRK` enter the trap handler with their cause, code and resume PC (R267). -/
def Obligations.SoftwareTraps : Prop :=
  ∀ (s : State) (t : Thread) (h : Hdr) (a : Opd) (code : BitVec 24) (x : Space), issues s t h = true →
    findSpace s t.key.asid = some x → t.ctx.intrap = false → t.ctx.outst = 0 →
    (noneFrom t.ctx [(a, false)] = true →
      (∃ s', exec (.sys h a code) s = .next s' ∧ TrapTaken s s' t x (pendTrap t
        { cause := 0x0C, detail := code, tval := sVal s t a, iw := Decode.encode (.sys h a code), resume := t.ctx.pc + 12 } none)) ∧
      (∃ s', exec (.trap h a code) s = .next s' ∧ TrapTaken s s' t x (pendTrap t
        { cause := 0x0D, detail := code, tval := sVal s t a, iw := Decode.encode (.trap h a code), resume := t.ctx.pc + 12 } none))) ∧
    ((∀ n, setOfIu (getIu s t.bench (iuAt t)) = some n → (getSet s n).brkh = false) →
      ∃ s', exec (.brk h code) s = .next s' ∧ TrapTaken s s' t x (pendTrap t
        { cause := 0x0B, detail := code, tval := 0, iw := Decode.encode (.brk h code), resume := t.ctx.pc } none))

/-- `ERET` in supervisor mode with nothing outstanding restores the PC, S, STEP, the predicates, s2 and s3 from the trap line
and clears INTRAP; no other field is restored (R268). -/
def Obligations.TrapReturn : Prop :=
  ∀ (s : State) (t : Thread) (h : Hdr), issues s t h = true → t.ctx.sup = true → t.ctx.outst = 0 →
    (∀ r ∈ s.flight.reqs, r.key = t.key → ∀ a n, r.op ≠ .ctxw a n) →
    ∃ s' x, exec (.eret h) s = .next s' ∧ findThread s' t.key = some x ∧ x.wait = .run ∧ x.trap = t.trap ∧ x.bench = t.bench ∧
      x.loc = t.loc ∧ x.ctx = { t.ctx with
        pc := (t.trap.saveW0.extractLsb' 2 55 ++ (0 : BitVec 2)), sup := t.trap.saveW0.getLsbD 57, step := t.trap.saveW0.getLsbD 58
        p := t.trap.tw1.extractLsb' 1 7 ++ (1 : BitVec 1), s2 := t.trap.saveS2, s3 := t.trap.saveS3, intrap := false, wkind := 0 } ∧
      (∀ k, k ≠ t.key → findThread s' k = findThread s k) ∧ s'.mem = s.mem ∧ s'.cache = s.cache ∧ s'.flight = s.flight ∧
      s'.spaces = s.spaces ∧ s'.eng = s.eng ∧ s'.queues = s.queues

/-- `CSRR` reads each CSR that the table of R43 gives, and `CSRW` writes those that can be written and ignores the others (R43,
R269). -/
def Obligations.CsrAccess : Prop :=
  ∀ (s : State) (t : Thread) (h : Hdr) (o : Opd) (x : Space), issues s t h = true → noneFrom t.ctx [(o, false)] = true →
    findSpace s t.key.asid = some x →
    let u := getIu s t.bench (iuAt t)
    let c := t.ctx
    let reads := fun (n : BitVec 12) (v : Word) =>
      ∃ s', exec (.csrr h o n) s = .next s' ∧ Retired s s' t h (setDst c o false (v.setWidth 128)) (c.pc + 12)
    let v := sVal s t o
    let writes := fun (n : BitVec 12) (c' : Ctx) =>
      ∃ s', exec (.csrw h o n) s = .next s' ∧ Retired s s' t h c' (c.pc + 12)
    (∀ p ∈ [((0x001 : BitVec 12), c.flags.setWidth 64), (0x002, c.rm.setWidth 64), (0x003, (c.rm ++ c.flags).setWidth 64),
        (0x010, c.ctxid.setWidth 64), (0x011, c.geo), (0x012, c.prio.setWidth 64), (0x013, c.lslot.setWidth 64),
        (0x020, cycleOf s t.bench (iuAt t))], reads p.1 p.2) ∧
    (c.sup = true → ∀ p ∈ [((0x100 : BitVec 12), t.key.asid.setWidth 64), (0x101, x.fpte.setWidth 64),
        (0x102, x.tvec.setWidth 64 <<< 2), (0x103, x.ctxbase.setWidth 64 <<< 40), (0x104, x.htbase.setWidth 64 <<< 12),
        (0x105, x.htsize.setWidth 64), (0x106, x.tback.setWidth 64 <<< 41), (0x107, x.esave.setWidth 64 <<< 12),
        (0x108, trapLineVa x t.key), (0x180, u.cfg)], reads p.1 p.2) ∧
    (c.sup = true ∨ u.cfg.getLsbD 31 = true → (∀ i, i < 16 → i ≠ 1 → reads (BitVec.ofNat 12 (0x200 + i)) (u.perf.getD i 0)) ∧
      reads 0x201 (cycleOf s t.bench (iuAt t) - BitVec.ofNat 64 u.issued)) ∧
    writes 0x001 { c with flags := v.setWidth 5 } ∧
    (v.toNat % 8 ≤ 4 → writes 0x002 { c with rm := v.setWidth 3 }) ∧
    (v.toNat / 32 % 8 ≤ 4 → writes 0x003 { c with flags := v.setWidth 5, rm := v.extractLsb' 5 3 }) ∧
    (c.sup = true → writes 0x012 { c with prio := v.setWidth 4 }) ∧
    (c.sup = false → writes 0x012 c) ∧
    (∀ n ∈ [(0x010 : BitVec 12), 0x011, 0x013, 0x020], writes n c) ∧
    (c.sup = true → ∀ n ∈ [(0x100 : BitVec 12), 0x102, 0x103, 0x104, 0x105, 0x106, 0x107, 0x108, 0x180], writes n c) ∧
    (c.sup = true → ∃ s', exec (.csrw h o 0x101) s = .next s' ∧ LineIs s' t h c (c.pc + 12) ∧
      findSpace s' t.key.asid = some { x with fpte := v.setWidth 5 } ∧ (∀ a, a ≠ t.key.asid → findSpace s' a = findSpace s a) ∧
      s'.mem = s.mem ∧ s'.mmu = s.mmu ∧ s'.flight = s.flight)

namespace Sys2Proof.Spec

/-- The caches are as before, but that stale instruction copies are gone, as before the end of a release (R78). -/
structure StaleGone (s s' : State) : Prop where
  rest : s'.cache = { s.cache with icache := s'.cache.icache }
  icache : ∀ x, x ∈ s'.cache.icache ↔ x ∈ s.cache.icache ∧ x.data = lineData s.mem x.line

end Sys2Proof.Spec

/-- `YIELD` changes no register and marks the line for its IU, unless `HACT` is set (R262); `EXIT` with nothing outstanding and no
store left retires the thread and returns its id, its handles lose their owner and its launch counts one thread less (R261). -/
def Sys2Proof.Spec.YieldExit : Prop :=
  ∀ (s : State) (t : Thread) (h : Hdr), issues s t h = true →
    (∃ s', exec (.yield h) s = .next s' ∧ Retired s s' t h t.ctx (t.ctx.pc + 12) ∧
      ∃ y, findThread s' t.key = some y ∧ y.yielded = (t.yielded || !t.ctx.hact)) ∧
    (∀ x, findSpace s t.key.asid = some x → t.ctx.outst = 0 → ¬ storeLeft s t.key .dev →
      ∃ s' x', exec (.exit h) s = .next s' ∧ findThread s' t.key = none ∧
        ((∀ u ∈ s.ius, ∀ r, some r ∈ u.holds → r.key ≠ t.key) →
          (∀ k, k ≠ t.key → findThread s' k = findThread s k) ∧ s'.mem = s.mem ∧ StaleGone s s') ∧
        findSpace s' t.key.asid = some x' ∧ x'.free = t.key.ctx :: x.free ∧ x'.live = x.live - 1 ∧ x'.hwm = x.hwm ∧ x'.limit = x.limit ∧
        x'.handles = x.handles.map (fun e => if e.v = true ∧ e.owner = t.ctx.ctxid then { e with owner := 0 } else e) ∧
        (∀ a, a ≠ t.key.asid → findSpace s' a = findSpace s a) ∧
        (∀ l, s.queues.launches.find? (fun l => l.n == t.ctx.lslot.toNat) = some l →
          s'.queues.launches.find? (fun l => l.n == t.ctx.lslot.toNat) = some { l with live := l.live - 1 }) ∧
        s'.eng = s.eng ∧ s'.flight.waiters = s.flight.waiters ∧
        ((∀ r ∈ s.flight.reqs, r.key ≠ t.key) → s'.flight.reqs = s.flight.reqs))

/-- `MOVE` with nothing outstanding and no store left continues at PC + 12: with `SBENCH` = 0x3FF, or when no bench accepts, the
line stays on its IU; otherwise it is on its way to the first bench of the walk that accepts (R259, R263). -/
def Sys2Proof.Spec.MoveThread : Prop :=
  ∀ (s : State) (t : Thread) (h : Hdr) (rad : BitVec 6) (sbench : BitVec 10), issues s t h = true → t.ctx.outst = 0 →
    ¬ storeLeft s t.key .dev → (∀ u ∈ s.ius, ∀ r, some r ∈ u.holds → r.key ≠ t.key) →
    let walk := placementWalk s t.bench sbench rad
    (sbench = 0x3FF ∨ walk = none → ∃ s', exec (.move h rad sbench) s = .next s' ∧ Retired { s with cache := s'.cache } s' t h t.ctx (t.ctx.pc + 12) ∧
      StaleGone s s') ∧
    ∀ b, sbench ≠ 0x3FF → walk = some b → ∃ s' x, exec (.move h rad sbench) s = .next s' ∧ findThread s' t.key = some x ∧
      x.ctx = { t.ctx with pc := t.ctx.pc + 12, wkind := x.ctx.wkind } ∧ x.trap = t.trap ∧ x.wait = .transit ∧
      x.loc = .moving .cl2 b ∧ s'.mem = s.mem ∧ StaleGone s s' ∧ s'.flight = s.flight ∧ s'.spaces = s.spaces ∧
      s'.eng = s.eng ∧ s'.queues = s.queues

/-- `YIELD`, `EXIT` (R261, R262) and `MOVE` (R259, R263). -/
def Obligations.YieldExitMove : Prop := Sys2Proof.Spec.YieldExit ∧ Sys2Proof.Spec.MoveThread

/-! Issue, waits and traps as events (03_encoding, 01_machine_state, 10_threads_and_system). -/

namespace Sys2Proof.Spec

/-- The state in which an issue unit begins an issue cycle: nothing is latched, and its account is of the present cycle. -/
def cycleStart (s : State) (b u : Nat) : State := openCycle { s with run := { s.run with cur := none, ir := none } } b u

/-- The state in which the chosen line fetches. -/
def chosen (s : State) (t : Thread) (u : Nat) : State := trySlot { s with run := { s.run with cur := some t.key } } t u

/-- The issue unit runs and has issued nothing in this cycle. -/
def cycleFree (s : State) (b u : Nat) : Prop :=
  iuRuns (cycleStart s b u) b u = true ∧ spentNow (cycleStart s b u) (getIu (cycleStart s b u) b u) = false

/-- Fetching for the line that an issue unit chooses, which no `H.YP` skips, gives an instruction word (R48, R325). -/
def fetches (s : State) (b u : Nat) (t : Thread) (s1 : State) (iw : IWord) : Prop :=
  cycleFree s b u ∧ chooseLine (cycleStart s b u) b u = some t ∧ t.yp = false ∧ t.lastIu = some (b, u) ∧
    fetchInstr (chosen (cycleStart s b u) t u) t u = .ok s1 iw

/-- The state after the fetch of an instruction: it may be latched, and a walk of the line that is not the instruction's own is over. -/
def afterFetch (s1 : State) (t : Thread) (i : Instr) (ir : Option Instr) : State :=
  { forgetWalk s1 t.key i with run := { s1.run with ir := ir } }

end Sys2Proof.Spec

/-- `INSTRUCTION_FETCH` latches the decoded instruction of the line that the issue unit chose; words that decode to none raise the
trap of the decoder; with no line to choose the cycle goes by without an issue (R45, R48, R75, R77, R325). -/
def Obligations.InstructionFetch : Prop :=
  ∀ (s : State) (b u : Nat),
    (cycleFree s b u → chooseLine (cycleStart s b u) b u = none →
      ∃ s', exec (.instructionFetch b u) s = .next s' ∧ s'.run.ir = none ∧ s'.threads = s.threads ∧ s'.mem = s.mem ∧
        s'.mmu = s.mmu ∧ s'.cache = s.cache ∧ s'.flight = s.flight ∧ spentNow s' (getIu s' b u) = true ∧
        (getIu s' b u).perf = (getIu s b u).perf ∧ (getIu s' b u).issued = (getIu s b u).issued) ∧
    (∀ t s1 iw i, fetches s b u t s1 iw → Decode.decode iw = .ok i →
      exec (.instructionFetch b u) s = .next (afterFetch s1 t i (some i))) ∧
    (∀ t s1 iw e x, fetches s b u t s1 iw → Decode.decode iw = .error e → findThread s1 t.key = some t → quiet s1 t = true →
      findSpace s1 t.key.asid = some x → t.ctx.intrap = false → t.ctx.outst = 0 →
      ∃ s', exec (.instructionFetch b u) s = .next s' ∧ TrapTaken s1 s' t x (pendTrap t
        { cause := e.cause, detail := e.detail, tval := 0, iw := iw, resume := t.ctx.pc } none))

/-- A step whose move is an issue of a unit runs exactly the instruction that the bytes at the chosen line's PC decode to; a step
whose move is an event runs that event, and one whose move is to idle lets time pass; with no move named and nothing to do, a
cycle passes (log 1, log 83). -/
def Obligations.StepRunsDecoded : Prop :=
  ∀ (s : State) (l : List Move),
    let s0 : State := { s with run := { s.run with agenda := l } }
    (∀ b u t s1 iw i, s.run.agenda = .issue b u :: l → fetches (openIssue s0 b u) b u t s1 iw → Decode.decode iw = .ok i →
      step s = exec i (afterFetch s1 t i none)) ∧
    (∀ i, s.run.agenda = .event i :: l → step s = exec i (beginEvent s0 i)) ∧
    (∀ n, s.run.agenda = .idle n :: l → step s = .next (passTime s0 n)) ∧
    (s.run.agenda = [] → (∀ t ∈ s.threads, readyHere s t = true → heldServed s t = true) →
      (∀ r ∈ s.flight.reqs, mayPerform s r = true → r.id ∈ s.run.tried) →
      (∀ t ∈ s.threads, canReissue s t = false ∧ canEnter t = false ∧ isMoving t = false ∧ t.ready = none) →
      step s = .next (passTime s 1))

/-- `INSTRUCTION_REISSUE` lets an instruction that waited go on: at the outstanding limit, for room in an engine queue and for a tile
frame it issues again; a `FENCE` whose conditions hold completes (R75, R183, R202, R214). -/
def Obligations.InstructionReissue : Prop :=
  ∀ (s : State) (t : Thread), findThread s t.key = some t → mayResume s t = true → inCl1 t = true → t.pend = none →
    t.ctx.step = false → fatalRec t.trap = none → (∀ r ∈ s.flight.reqs, r.key = t.key → isUnrecorded r = false) →
    ((t.wait = .limit ∧ t.ctx.outst < 15) ∨ (t.wait = .engq ∧ queueFull s t.bench (iuAt t) = false) ∨
        (∃ i j iw, t.wait = .tile i j iw ∧ frameReady s t.key.asid i j = true) →
      ∃ s' x, exec (.instructionReissue t.key) s = .next s' ∧ findThread s' t.key = some x ∧ x.wait = .run ∧ x.trap = t.trap ∧
        x.ctx = { t.ctx with wkind := 0 } ∧ (∀ k, k ≠ t.key → findThread s' k = findThread s k) ∧ s'.mem = s.mem ∧
        s'.cache = s.cache ∧ s'.flight = s.flight ∧ s'.eng = s.eng) ∧
    (∀ o scp, t.wait = .fence o scp → fenceReady s t o scp = true →
      ∃ s' x, exec (.instructionReissue t.key) s = .next s' ∧ findThread s' t.key = some x ∧ x.wait = .run ∧ x.trap = t.trap ∧
        x.ctx = { t.ctx with pc := t.ctx.pc + 12, wkind := 0 } ∧ (∀ k, k ≠ t.key → findThread s' k = findThread s k) ∧
        s'.mem = s.mem ∧ s'.flight = s.flight ∧
        (o = .acq ∨ o = .ar → ∀ y ∈ s'.cache.l1, ¬ (y.bench = t.bench ∧ y.iu = iuAt t)))

/-- `TRAP_ENTRY` enters a trap that waited, once `OUTST` is zero: frame, status, handler (R33). -/
def Sys2Proof.Spec.TrapEntry : Prop :=
  ∀ (s : State) (t : Thread) (p : PendTrap) (x : Space), findThread s t.key = some t → inCl1 t = true → t.pend = some p →
    t.wait = .drain → t.ctx.outst = 0 → t.ctx.frz = false → t.cancel = false → t.ctx.step = false →
    findSpace s t.key.asid = some x → ∃ s', exec (.trapEntry t.key) s = .next s' ∧ TrapTaken s s' t x p

/-- A trap raised while `INTRAP` is set freezes the thread: no frame is written, firmware is told (R33, R267, R274). -/
def Sys2Proof.Spec.NestedTrap : Prop :=
  ∀ (s : State) (t : Thread) (h : Hdr) (a : Opd) (code : BitVec 24), issues s t h = true → t.ctx.intrap = true →
    noneFrom t.ctx [(a, false)] = true → (∀ n, setOfIu (getIu s t.bench (iuAt t)) = some n → (getSet s n).frzh = false ∧ (getSet s n).brkh = false) →
    ∀ p ∈ [(Instr.sys h a code, (0x0C : BitVec 8)), (.trap h a code, 0x0D), (.brk h code, 0x0B)],
      ∃ s' x, exec p.1 s = .next s' ∧ findThread s' t.key = some x ∧ x.ctx.frz = true ∧ x.ctx.pc = t.ctx.pc ∧ x.ctx.outst = t.ctx.outst ∧
        x.trap = t.trap ∧ x.ctx.s2 = t.ctx.s2 ∧ x.ctx.sup = t.ctx.sup ∧
        s'.fw.notes = s.fw.notes ++ [{ cause := 0x22, detail := p.2.setWidth 24, va := 0, key := t.key, lslot := t.ctx.lslot
                                       bench := t.bench }] ∧
        s'.spaces = s.spaces ∧ s'.flight = s.flight ∧ s'.eng = s.eng ∧ s'.queues = s.queues

/-- A trap that waited is entered (R33); a trap inside a trap freezes (R274). -/
def Obligations.TrapsWaitingAndNested : Prop := Sys2Proof.Spec.TrapEntry ∧ Sys2Proof.Spec.NestedTrap

/-- The checks that come before every instruction's own: a false guard makes it an advance of the PC, a privileged instruction in user
mode raises PRIVILEGE, a pending operand raises HAZARD with the number of its field (R23, R28, R51, R75, R272). -/
def Obligations.IssueChecks : Prop :=
  ∀ (s : State) (t : Thread) (h : Hdr) (x : Space) (d a b : Opd) (w : BitVec 5) (n : BitVec 12), findSpace s t.key.asid = some x →
    (current s = some t → quiet s t = true → (getP t.ctx h.g ^^ h.n) = false →
      ∀ i ∈ [Instr.eret h, .ctxr h d a w, .ctxw h a b w, .exit h, .yield h, .sys h a 0, .brk h 0, .nop h, .whereIu h d],
        ∃ s', exec i s = .next s' ∧ Retired s s' t h t.ctx (t.ctx.pc + 12)) ∧
    (issues s t h = true → t.ctx.intrap = false → t.ctx.outst = 0 →
      (t.ctx.sup = false → (0x100 ≤ n.toNat ∧ n.toNat < 0x200) →
        ∀ i ∈ [Instr.eret h, .ctxr h d a w, .ctxw h a b w, .csrr h d n, .csrw h a n],
          ∃ s', exec i s = .next s' ∧ TrapTaken s s' t x (pendTrap t
            { cause := 0x03, detail := 0, tval := 0, iw := Decode.encode i, resume := t.ctx.pc } none)) ∧
      (isPend t.ctx a false = true → isPend t.ctx d false = false → t.ctx.sup = true →
        ∀ i ∈ [Instr.sys h a 0, .trap h a 0, .csrw h a n, .bar h d a 0, .ctxr h d a w, .ctxw h a b w],
          ∃ s', exec i s = .next s' ∧ TrapTaken s s' t x (pendTrap t
            { cause := 0x04, detail := 2, tval := 0, iw := Decode.encode i, resume := t.ctx.pc } none)))

/-! Accesses are performed, results land, words synchronise, holds are granted and end (07_memory, 08, 12). -/

namespace Sys2Proof.Spec

/-- A request of a thread in a CL1 may be performed now on a device line that nothing keeps: no hold, no copy of the host, no
poison, no recall of a region before it; no D copy waits for its merge. -/
structure Plain (s : State) (t : Thread) (r : Req) (a : Nat) : Prop where
  listed : findReq s r.id = some r
  may : mayPerform s r = true
  place : r.pa = some (.dev a)
  fits : a % 128 + r.n ≤ 128
  sound : s.mem.poison.contains (a / 128 * 128) = false
  free : lineHold s (lineOf (.dev a)) = none
  turn : turnOver s (lineOf (.dev a)) (some (.req r.id)) = false
  host : hostStOf s (a / 128 * 128) = none
  deltas : s.cache.dsums = []
  room : recallGate s (a / 128 * 128) = .go
  unrecorded : r.ri = none
  thread : findThread s r.key = some t
  cl1 : inCl1 t = true
  pend : t.pend = none
  frz : t.ctx.frz = false
  cancel : t.cancel = false
  sane : fatalRec t.trap = none
  kept : ∀ q ∈ s.flight.reqs, q.key = r.key → isUnrecorded q = false

/-- The result lands in one update of the line: D is written, its pending bits clear, `OUTST` counts down; the request is gone, and
other threads stay as they were (R26). -/
structure Landed (s s' : State) (t : Thread) (r : Req) (v : Vec) : Prop where
  line : ∃ x, findThread s' t.key = some x ∧ x.trap = t.trap ∧ x.ctx =
    { decOutst (clearPend (setDst t.ctx r.dst (r.ty == .b128) (extend r.ty v)) r.dst (r.ty == .b128)) with wkind := x.ctx.wkind }
  gone : findReq s' r.id = none
  others : ∀ k, k ≠ t.key → findThread s' k = findThread s k

/-- What performing an access leaves as it was: address spaces, translations, engines, queues, sets and package; host lines that make
room are told to the host (R304). -/
structure Around (s s' : State) : Prop where
  spaces : s'.spaces = s.spaces
  mmu : s'.mmu = s.mmu
  eng : s'.eng = s.eng
  queues : s'.queues = s.queues
  fw : s'.fw = { s.fw with out := s'.fw.out }
  pkg : s'.pkg = s.pkg

/-- No range that hardware keeps covers the bytes of a load (R12, R36). -/
def plainBytes (s : State) (r : Req) : Prop := ∀ v, softView s r.key.asid r.va.toNat r.n v = v

/-- Half `i` of a 128-bit access and the other one, put together (R279). -/
def joined (i : Nat) (v w : Vec) : Vec := if i = 0 then v ||| w <<< 64 else w ||| v <<< 64

end Sys2Proof.Spec

/-- `DELIVER_RESULT` of a load of device memory delivers the bytes as memory holds them, or those of a copy that the IU's data L1
has, a 128-bit one half by half; of an atomic and a compare-and-swap, the old bytes, and the new ones are written (R26, R173,
R175, R178, R179, R279, R294). -/
def Obligations.LoadsAndAtomics : Prop :=
  ∀ (s : State) (t : Thread) (r : Req) (a : Nat), Plain s t r a →
    let old := physRead s.mem (.dev a) r.n
    let past := r.ord = .acq ∨ r.ord = .ar ∨ l1Find s r.bench r.iu (lineOf (.dev a)) = none
    (r.op = .ld → plainBytes s r →
      (splits r (.dev a) = false → ∃ s' v, exec (.deliverResult r.id) s = .next s' ∧ Landed s s' t r v ∧ Around s s' ∧ s'.mem = s.mem ∧
        (past → v = old) ∧
        (∀ x, ¬ (r.ord = .acq ∨ r.ord = .ar) → r.via = none → l1Find s r.bench r.iu (lineOf (.dev a)) = some x →
          v = lineBytes x.data (a % 128) r.n)) ∧
      (splits r (.dev a) = true → r.half = none → ∃ s' i v, exec (.deliverResult r.id) s = .next s' ∧ i < 2 ∧
        findReq s' r.id = some { r with half := some (i, v) } ∧ s'.threads = s.threads ∧ Around s s' ∧ s'.mem = s.mem ∧
        (past → v = physRead s.mem (.dev (a + 8 * i)) 8)) ∧
      (∀ i v, splits r (.dev a) = true → i < 2 → r.half = some (i, v) →
        ∃ s' w, exec (.deliverResult r.id) s = .next s' ∧ Landed s s' t r (joined i v w) ∧ Around s s' ∧ s'.mem = s.mem ∧
          (past → w = physRead s.mem (.dev (a + 8 * (1 - i))) 8))) ∧
    (∀ op, r.op = .amo op →
      ∃ s', exec (.deliverResult r.id) s = .next s' ∧ Landed s s' t r old ∧ Around s s' ∧
        s'.mem = physWrite s.mem (.dev a) r.n (amoOper op r.ty old r.dat)) ∧
    (r.op = .cas →
      ∃ s', exec (.deliverResult r.id) s = .next s' ∧ Landed s s' t r old ∧ Around s s' ∧
        s'.mem = if old = r.dat then physWrite s.mem (.dev a) r.n r.dat2 else s.mem)

/-- `STORE_PERFORM` of a store writes exactly its bytes, a 128-bit one half by half, with no line changed; an `ADDD` joins a D copy
and leaves memory as it is until the merge; a `CFLUSH` leaves no data L1 copy of its line at device scope (R173, R197 to R199,
R279). -/
def Obligations.StoresPerform : Prop :=
  ∀ (s : State) (t : Thread) (r : Req) (a : Nat), Plain s t r a → (r.ord = .rlx ∨ r.ord = .rel) →
    (r.op = .st →
      let wrote := fun (n : Nat) (p : Nat) (v : Vec) (left : Option Req) =>
        ∃ s', exec (.storePerform r.id) s = .next s' ∧ s'.threads = s.threads ∧ Around s s' ∧ s'.mem = physWrite s.mem (.dev p) n v ∧
          findReq s' r.id = left
      (splits r (.dev a) = false → wrote r.n a r.dat none) ∧
      (splits r (.dev a) = true → r.half = none →
        ∃ i, i < 2 ∧ wrote 8 (a + 8 * i) (r.dat >>> (64 * i)) (some { r with half := some (i, 0) })) ∧
      (∀ i v, splits r (.dev a) = true → i < 2 → r.half = some (i, v) →
        wrote 8 (a + 8 * (1 - i)) (r.dat >>> (64 * (1 - i))) none)) ∧
    (r.op = .cflush →
      ∃ s', exec (.storePerform r.id) s = .next s' ∧ s'.threads = s.threads ∧ findReq s' r.id = none ∧ Around s s' ∧ s'.mem = s.mem ∧
        (r.scp = .dev → ∀ x ∈ s'.cache.l1, x.line ≠ lineOf (.dev a))) ∧
    (∀ op, r.op = .addd op →
      ∃ s', exec (.storePerform r.id) s = .next s' ∧ s'.threads = s.threads ∧ findReq s' r.id = none ∧ Around s s' ∧ s'.mem = s.mem ∧
        ∃ d ∈ s'.cache.dsums, d.bench = r.bench ∧ d.addr = .dev a ∧ d.op = op ∧ d.ty = r.ty ∧
          d.sum = (amoOper op r.ty ((deltaZero op r.ty).setWidth 128) ((r.dat.setWidth 64).setWidth 128)).setWidth 64)

/-- A synchronising access at its word's home, where nobody waits (R184): the value and the full/empty bit change as the access says; an
access whose condition fails waits on the word's list, and nothing else happens (R185, R187). -/
def Sys2Proof.Spec.SyncWords : Prop :=
  ∀ (s : State) (t : Thread) (r : Req) (a : Nat), Plain s t r a → r.n = 8 → (∀ w ∈ s.flight.waiters, w.pa ≠ a) →
    let old := readVal s.mem.dev a 8
    let put := fun (m : Mem) => { m with dev := writeVal m.dev a 8 r.dat }
    let done := fun (v : Vec) (m : Mem) =>
      ∃ s', exec (.syncAccessArrival r.id) s = .next s' ∧ Landed s s' t r v ∧ Around s s' ∧ s'.mem = m
    let quiet := fun (m : Mem) => ∃ s', exec (.syncAccessArrival r.id) s = .next s' ∧ s'.threads = s.threads ∧
      findReq s' r.id = none ∧ Around s s' ∧ s'.mem = m
    let waits := ∃ s', exec (.syncAccessArrival r.id) s = .next s' ∧ s'.mem = s.mem ∧ Around s s' ∧
      s'.flight.waiters = s.flight.waiters ++ [{ pa := a, req := r.id }] ∧ (findReq s' r.id).map (·.st) = some .listed
    (r.op = .lde → isFull s.mem a = true → done old s.mem) ∧
    (r.op = .ldc → isFull s.mem a = true → done old (setEmpty s.mem a)) ∧
    (r.op = .qfe → done (if isFull s.mem a then 1 else 0) s.mem) ∧
    (r.op = .sts → quiet (setFull (put s.mem) a)) ∧
    (r.op = .sfe → quiet (setEmpty s.mem a)) ∧
    (r.op = .stf → isFull s.mem a = false →
      ∃ s' x, exec (.syncAccessArrival r.id) s = .next s' ∧ findThread s' t.key = some x ∧
        x.ctx = { decOutst t.ctx with wkind := x.ctx.wkind } ∧ findReq s' r.id = none ∧ Around s s' ∧ s'.mem = setFull (put s.mem) a) ∧
    (dieWaiters s (Config.homeDie a) < Config.waitersPerDie →
      (r.op = .lde ∨ r.op = .ldc → isFull s.mem a = false → waits) ∧ (r.op = .stf → isFull s.mem a = true → waits))

/-- One arrival at a barrier word where nobody waits (R265, R266): the last arrival advances the phase and receives the one that
completed; an earlier one is counted and waits. -/
def Sys2Proof.Spec.BarrierStep : Prop :=
  ∀ (s : State) (t : Thread) (r : Req) (a : Nat) (phase : BitVec 16) (target arrived : BitVec 24), Plain s t r a → r.op = .bar →
    (∀ w ∈ s.flight.waiters, w.pa ≠ a) → readVal s.mem.dev a 8 = (phase ++ target ++ arrived).setWidth 128 →
    let put := fun (x : BitVec 64) => { s.mem with dev := writeVal s.mem.dev a 8 (x.setWidth 128) }
    (arrived.toNat + 1 = target.toNat →
      ∃ s', exec (.barStep r.id) s = .next s' ∧ Landed s s' t r (phase.setWidth 128) ∧ Around s s' ∧
        s'.mem = put ((phase + 1) ++ target ++ (0 : BitVec 24))) ∧
    (arrived.toNat + 1 < target.toNat → dieWaiters s (Config.homeDie a) < Config.waitersPerDie →
      ∃ s', exec (.barStep r.id) s = .next s' ∧ s'.mem = put (phase ++ target ++ (arrived + 1)) ∧ Around s s' ∧
        s'.flight.waiters = s.flight.waiters ++ [{ pa := a, req := r.id }] ∧ (findReq s' r.id).map (·.st) = some .listed)

/-- Synchronising words (R184, R185, R187) and barrier words (R265, R266) at their home. -/
def Obligations.SyncWordsAndBarriers : Prop := Sys2Proof.Spec.SyncWords ∧ Sys2Proof.Spec.BarrierStep

/-- `HOLD_GRANT` gives the line to the thread and delivers the value; while another thread holds a line a store to it is not performed;
`HOLD_EXPIRY` ends a hold whose lease has run out; `SYNC_RETRY_RESEND` sends an access again once its interval has passed (R187, R189,
R191, R194). -/
def Obligations.HoldEvents : Prop :=
  ∀ (s : State) (t : Thread) (r : Req) (a : Nat),
    (∀ reg, Plain s t r a → r.op = .hold true → plainBytes s r → a < Config.hbmBytes → freeHold s r.bench r.iu = some reg →
      (t.ctx.hslot0.getLsbD 3 = false ∨ t.ctx.hslot1.getLsbD 3 = false) →
      let slot : BitVec 4 := 0x8 ||| BitVec.ofNat 4 reg
      let c := if t.ctx.hslot0.getLsbD 3 then { t.ctx with hslot1 := slot, hact := true } else { t.ctx with hslot0 := slot, hact := true }
      ∃ s' x, exec (.holdGrant r.id) s = .next s' ∧ findThread s' t.key = some x ∧ x.trap = t.trap ∧ x.ctx =
          { decOutst (clearPend (setDst c r.dst (r.ty == .b128) (extend r.ty (physRead s.mem (.dev a) r.n))) r.dst (r.ty == .b128)) with
            wkind := x.ctx.wkind } ∧
        (((getIu s' r.bench r.iu).holds[reg]?).join).map (fun h => (h.key, h.line, h.va, h.bytes)) =
          some (r.key, lineOf (.dev a), r.va &&& ~~~127, []) ∧
        s'.mem = s.mem ∧ findReq s' r.id = none) ∧
    (∀ h, findReq s r.id = some r → r.op = .st → r.pa = some (.dev a) → mayPerform s r = true →
      s.mem.poison.contains (a / 128 * 128) = false → lineHold s (lineOf (.dev a)) = some h → h.key ≠ r.key →
      ∃ s', exec (.storePerform r.id) s = .next s' ∧ s'.mem = s.mem ∧ s'.threads = s.threads ∧ s'.cache = s.cache ∧ s'.ius = s.ius ∧
        (findReq s' r.id).isSome = true) ∧
    (∀ b u slot h, (getIu s b u).holds[slot]? = some (some h) → Config.leaseCycles ≤ leaseCount s.run.now h →
      ∃ s', exec (.holdExpiry b u slot) s = .next s' ∧ (getIu s' b u).holds[slot]? = some none ∧
        (h.bytes = [] → s'.mem = s.mem) ∧ s'.flight = s.flight) ∧
    (∀ n, findReq s r.id = some r → r.st = .retryAt n → n ≤ s.run.now →
      ∃ s', exec (.syncRetryResend r.id) s = .next s' ∧ findReq s' r.id = some { r with st := .pending } ∧ s'.mem = s.mem ∧
        s'.threads = s.threads ∧ s'.flight.waiters = s.flight.waiters)

/-! Recoverable faults: messages, wakes and replays (14_faults_translation_preemption). -/

namespace Sys2Proof.Spec

/-- The bench's entry for a page whose one message has left (R350). -/
def left (s : State) (e : BenchFault) : List BenchFault := modifyFirst (· == e) (fun e => { e with sent := true }) s.mmu.bench

/-- What a message adds when neither router on its way knows the page: an entry in both, and one message that they combine (R350). -/
def climbed (s : State) (e : BenchFault) : Mmu :=
  { s.mmu with
    bench := left s e
    router := s.mmu.router ++
      [{ router := dieOf e.bench, asid := e.asid, page := e.page, ports := [e.bench], kinds := e.kinds },
       { router := rootRouter, asid := e.asid, page := e.page, ports := [dieOf e.bench], kinds := e.kinds }]
    inbox := s.mmu.inbox ++ [{ asid := e.asid, page := e.page, kinds := e.kinds, src := none }] }

/-- What a message changes at a router that knows the page: its port and kinds join the entry, and no further message leaves. -/
def joinedAt (s : State) (e : BenchFault) (x : RouterEnt) : Mmu :=
  { s.mmu with
    bench := left s e
    router := modifyFirst (· == x) (fun x => { x with
      ports := if x.ports.contains e.bench then x.ports else x.ports ++ [e.bench], kinds := orKinds x.kinds e.kinds }) s.mmu.router }

/-- A request of a bench that waits for a page, and no other has its number. -/
def waitsFor (s : State) (r : Req) (b : Nat) (asid : BitVec 16) (page : Nat) : Prop :=
  r ∈ s.flight.reqs ∧ (∀ q ∈ s.flight.reqs, q.id = r.id → q = r) ∧ r.bench = b ∧ r.key.asid = asid ∧ r.fva.toNat / 4096 = page

/-- A store that waits in the side log for the replay of its page, now translated to a device line that nothing keeps. -/
structure Replayable (s s1 : State) (t : Thread) (r : Req) (a : Nat) : Prop where
  listed : findReq s r.id = some r
  state : r.st = .sideReplay
  order : canPerform s r = true
  key : r.key.ctx ≠ 0
  place : translate s (.data r.bench r.iu) r.key.asid (wantOf r.op r.sup) r.va = .ok (.dev a) s1
  plain : Plain { s1 with flight := (putReq s { r with st := .pending, pa := some (.dev a) }).flight } t
    { r with st := .pending, pa := some (.dev a) } a

end Sys2Proof.Spec

/-- Recoverable faults (R350 to R353). `FAULT_MESSAGE`: the one message of a bench climbs both routers to the root core, joins the
entry of a router that knows the page, or passes a full one alone. `WAKE` of a message that no router combined: the message and
the bench's entry are gone, and every request that waited on the page goes on: an access to be tried again, a side-log store and
a record to their replay; the others stay as they were. `RETRY_RECORD_REPLAY`: a fetch's record clears, the count goes down and
the thread runs; a data access is tried again with a fresh walk. `SIDE_LOG_REPLAY`: a store is performed. -/
def Obligations.FaultEvents : Prop :=
  (∀ (s : State) (e : BenchFault),
    (s.mmu.bench.find? fun x => x.bench == e.bench && x.asid == e.asid && x.page == e.page) = some e → e.sent = false →
    e.bench < Config.benches →
    (routerFind s (dieOf e.bench) e.asid e.page = none → routerFull s (dieOf e.bench) = false →
      routerFind s rootRouter e.asid e.page = none → routerFull s rootRouter = false →
      exec (.faultMessage e.bench e.asid e.page) s = .next { s with mmu := climbed s e }) ∧
    (∀ x, routerFind s (dieOf e.bench) e.asid e.page = some x →
      exec (.faultMessage e.bench e.asid e.page) s = .next { s with mmu := joinedAt s e x }) ∧
    (routerFind s (dieOf e.bench) e.asid e.page = none → routerFull s (dieOf e.bench) = true →
      exec (.faultMessage e.bench e.asid e.page) s = .next { s with mmu := { s.mmu with
        bench := left s e
        inbox := s.mmu.inbox ++ [{ asid := e.asid, page := e.page, kinds := e.kinds, src := some e.bench }] } })) ∧
  (∀ (s : State) (m : FaultMsg) (b : Nat), (s.mmu.inbox.find? fun x => x.asid == m.asid && x.page == m.page) = some m →
    m.src = some b → routerFind s (dieOf b) m.asid m.page = none →
    ∃ s', exec (.wake m.asid m.page 0 []) s = .next s' ∧ s'.mmu.inbox = s.mmu.inbox.erase m ∧ s'.mem = s.mem ∧
      (∀ e, e ∈ s'.mmu.bench ↔ e ∈ s.mmu.bench ∧ ¬ (e.bench = b ∧ e.asid = m.asid ∧ e.page = m.page)) ∧
      (∀ r, waitsFor s r b m.asid m.page →
        (∀ p, r.st = .fault p → findReq s' r.id = some { r with st := .pending }) ∧
        (∀ p, r.st = .side p → findReq s' r.id = some { r with st := .sideReplay }) ∧
        (∀ i p, r.st = .record i p → findReq s' r.id = some { r with st := .replay (some i) })) ∧
      (∀ r ∈ s.flight.reqs, (∀ q ∈ s.flight.reqs, q.id = r.id → q = r) →
        r.bench ≠ b ∨ r.key.asid ≠ m.asid ∨ r.fva.toNat / 4096 ≠ m.page → findReq s' r.id = some r) ∧
      (∀ c ∈ s'.eng.cmds, ¬ (c.bench = b ∧ c.key.asid = m.asid ∧ c.faultPage = some m.page))) ∧
  (∀ (s : State) (t : Thread) (r : Req) (i : BitVec 2), findThread s t.key = some t → inCl1 t = true → t.pend = none →
    t.ctx.frz = false → t.cancel = false → fatalRec t.trap = none → t.wait = .fetch → r ∈ s.flight.reqs → r.key = t.key →
    r.op = .fetch → r.st = .replay (some i) →
    (∀ q ∈ s.flight.reqs, q.key = t.key → isUnrecorded q = false ∧ (q = r ∨ (q.st ≠ .replay (some i) ∧ ∀ j st, q.st ≠ .ended j st))) →
    ∃ s' x, exec (.retryRecordReplay t.key i) s = .next s' ∧ findThread s' t.key = some x ∧ x.wait = .run ∧
      x.ctx = { decOutst t.ctx with wkind := 0 } ∧ x.trap = setRec t.trap i { getRec t.trap i with valid := false } ∧
      findReq s' r.id = none ∧ s'.mem = s.mem) ∧
  (∀ (s : State) (r : Req) (i : BitVec 2), findReq s r.id = some r →
    (∀ q ∈ s.flight.reqs, q.key = r.key → q = r ∨ (q.st ≠ .replay (some i) ∧ ∀ j st, q.st ≠ .ended j st)) → canPerform s r = true →
    r.st = .replay (some i) → isResultOp r.op = true →
    exec (.retryRecordReplay r.key i) s = exec (.deliverResult r.id) (putReq s { r with st := .pending, pa := none })) ∧
  (∀ (s s1 : State) (t : Thread) (r : Req) (a : Nat), Replayable s s1 t r a → r.op = .st → r.half = none → (r.ord = .rlx ∨ r.ord = .rel) →
    (splits r (.dev a) = false →
      ∃ s', exec (.sideLogReplay r.id) s = .next s' ∧ s'.mem = physWrite s1.mem (.dev a) r.n r.dat ∧ s'.threads = s.threads ∧
        findReq s' r.id = none) ∧
    (splits r (.dev a) = true →
      ∃ s' i q, exec (.sideLogReplay r.id) s = .next s' ∧ i < 2 ∧ s'.threads = s.threads ∧
        s'.mem = physWrite s1.mem (.dev (a + 8 * i)) 8 (r.dat >>> (64 * i)) ∧ findReq s' r.id = some q ∧ q.half = some (i, 0) ∧
        q.st = .pending ∧ q.pa = some (.dev a)))

/-! Engine commands: their end, their steps, stream turns, and the engines' rests (10_matrix_engines, 11, 12, 15). -/

namespace Sys2Proof.Spec

/-- The event that runs a command, with what a link command's peer answers. -/
def runsCmd (k : CmdKind) (id : Nat) (ans : PeerAnswer := .performed) : Instr :=
  match k with
  | .mldw => .mldwExecute id
  | .mma => .mmaExecute id
  | .macc => .maccExecute id
  | .mcvt => .mcvtExecute id
  | .cpy => .cpyExecute id
  | .cred => .credExecute id
  | .xcpy => .xcpyExecute id ans
  | .xred => .xredExecute id ans

/-- A thread's command in progress that no status has ended, on an engine that may work (R214, R217). -/
structure Working (s : State) (c : Cmd) : Prop where
  listed : findCmd s c.id = some c
  ready : cmdReady s c = true
  started : c.st = .started
  own : c.packet = none
  status : c.status = 0

/-- The token word is in device memory and nothing keeps it: no poison, hold, turn of another, copy of the host, D copy or waiter;
no thread and no saved command waits for room in an engine queue. -/
structure TokenFree (s s1 : State) (c : Cmd) (a : Nat) : Prop where
  place : tokenAt s c = .ok s1 (.dev a)
  turn : turnOver (keepLine s1 (lineOf (.dev a)) (some (.cmd c.id))) (lineOf (.dev a)) (some (.cmd c.id)) = false
  sound : s1.mem.poison.contains (a / 128 * 128) = false
  free : lineHold s1 (lineOf (.dev a)) = none
  room : recallGate s1 (a / 128 * 128) = .go
  deltas : s1.cache.dsums = []
  waiters : ∀ w ∈ s1.flight.waiters, w.pa ≠ a
  engq : ∀ t ∈ s1.threads, t.wait ≠ .engq
  saved : ∀ x ∈ s1.spaces, x.cmdSave = []

/-- The command at the home of its token's line: it has had its turn there (R194, R302). -/
def atHome (s1 : State) (c : Cmd) (a : Nat) : State :=
  leaveLine (keepLine s1 (lineOf (.dev a)) (some (.cmd c.id))) (lineOf (.dev a)) (some (.cmd c.id))

/-- The token holds DONE with a detail and is full, the command is gone, threads and requests are as they were (R41, R366);
`s3` is the state before the fill. -/
structure TokenDone (s s3 s' : State) (c : Cmd) (a : Nat) (det : BitVec 48) : Prop where
  mem : s'.mem = setFull { s3.mem with dev := writeVal s3.mem.dev a 8 ((tokenWord 0 det).setWidth 128) } a
  gone : findCmd s' c.id = none
  spaces : s'.spaces = s3.spaces
  threads : s'.threads = s.threads
  reqs : s'.flight.reqs = s.flight.reqs
  waiters : s'.flight.waiters = s.flight.waiters

/-- The command is the first matrix command of its queue, and the module is not in Memory mode (R217, R364). -/
def firstMatrix (s : State) (c : Cmd) : Prop :=
  (((getIu s c.bench c.iu).queue.filterMap (findCmd s)).find? fun x => isMatrix x.kind).map (·.id) = some c.id ∧ s.pkg.mode ≠ .memory

end Sys2Proof.Spec

/-- The end of a command fills its token with DONE, its flags and its count (R41, R42, R115, R366). `CPY` and `CRED` end after
the last element; `XCPY` and `XRED` likewise, with no flags, after the signal if there is one; `MLDW` sets the tag of its bank;
`MMA`, `MACC`, `MCVT`, and `CPY` to a tile, publish their output: the tile's bytes change in one update, `GEN` goes up and `BUSY`
clears (R217, R219). -/
def Obligations.EngineCommandsEnd : Prop :=
  (∀ (s s1 : State) (c : Cmd) (a : Nat), Working s c → TokenFree s s1 c a →
    (∀ s3 x y, (c.kind = .cpy ∨ c.kind = .cred) → publishTile (atHome s1 c a) c = some s3 → tensorOf c.rec1 = some x →
      tensorOf c.rec2 = some y → elements x ≤ c.pos * perUnit x.ety y.ety →
      ∃ s', exec (runsCmd c.kind c.id) s = .next s' ∧ TokenDone s s3 s' c a (doneDet c.flags (elements x))) ∧
    (∀ x p ans, (c.kind = .xcpy ∨ c.kind = .xred) → tensorOf c.rec1 = some x → peerOf c.rec2 = some p →
      (p.sigen = false ∨ c.ran = true) → elements x ≤ c.pos * perUnit x.ety x.ety →
      ∃ s', exec (runsCmd c.kind c.id ans) s = .next s' ∧ TokenDone s (atHome s1 c a) s' c a (doneDet 0 (elements x))) ∧
    (firstMatrix s c → c.kind = .mldw → c.ran = true → c.todo = 0 →
      ∃ s', exec (runsCmd c.kind c.id) s = .next s' ∧ TokenDone s (atHome s1 c a) s' c a (doneDet c.flags c.count) ∧
        (getBank (getMat s' c.bench (groupOf c.iu)) c.bank).tag =
          some { asid := c.key.asid, idx := refIdx c.a, gen := c.gen, row0 := refRow c.a }) ∧
    (∀ s3, firstMatrix s c → (c.kind = .mma ∨ c.kind = .macc ∨ c.kind = .mcvt) → c.ran = true → c.todo = 0 →
      publishTile (atHome s1 c a) c = some s3 →
      ∃ s', exec (runsCmd c.kind c.id) s = .next s' ∧ TokenDone s s3 s' c a (doneDet c.flags c.count))) ∧
  (∀ (s s1 : State) (c : Cmd) (a : Nat) (x : Tensor) (p : Peer), Working s c → (c.kind = .xcpy ∨ c.kind = .xred) →
    tensorOf c.rec1 = some x → peerOf c.rec2 = some p → p.sigen = true → c.ran = false → portUp s c = true →
    elements x ≤ c.pos * perUnit x.ety x.ety →
    let signal := Out.peerSignal p.id p.win p.rsig (c.sig.setWidth 64)
    let c1 := { c with ran := true }
    TokenFree (putCmd (emit s signal) c1) s1 c1 a →
    ∃ s', exec (runsCmd c.kind c.id) s = .next s' ∧ TokenDone s (atHome s1 c1 a) s' c1 a (doneDet 0 (elements x)) ∧
      signal ∈ s'.fw.out) ∧
  (∀ (s s3 : State) (c : Cmd) (i : Nat) (x : Space), publishTile s c = some s3 → c.out = some i →
    findSpace s c.key.asid = some x → (getHandle x i).v = true ∧
      s3.mem.tiles = writeBytes s.mem.tiles (tileAddr c.key.asid i 0) c.shadow ∧
      ∃ y, findSpace s3 c.key.asid = some y ∧ (getHandle y i).gen = (getHandle x i).gen + 1 ∧ (getHandle y i).busy = false ∧
        (getHandle y i).v = true)

namespace Sys2Proof.Spec

/-- A stream instruction that may take a turn now: its thread's earlier accesses are performed, its lists are canonical, no other
has been passed over too often (R231, R369). -/
structure Turning (s : State) (r : Req) (k : StrmKind) (a b c : Vec) (p : StrmPos) : Prop where
  listed : findReq s r.id = some r
  op : r.op = .strm k a b c p
  pending : r.st = .pending
  order : canPerform s r = true
  up : running s = true
  space : suspended s r.key.asid = false
  die : dieUp s r.bench = true
  slot : (strmInProgress s r.bench).any (fun x => x.id == r.id) = true
  due : strmDue (strmInProgress s r.bench) r.id = false
  lists : firstBad a b c = none

/-- The state and the instruction at the start of its turn (R369). -/
def turnOpens (s : State) (r : Req) : State × Req := (strmPass s (strmInProgress s r.bench) r.id, { r with passed := 0 })

/-- One access, or one step without an access, of a stream instruction: what it asks for next, at its positions (R232 to R235);
`q` are the positions after it. -/
inductive ElemMove (s : State) (r : Req) (q : StrmPos) : State → Prop where
  | pure (k : StrmKind) (a b c : Vec) (p : StrmPos) : r.op = .strm k a b c p → nextTurn k r.ty a b c p = .pure q →
      ElemMove s r q (putReq s (withPos r q))
  | read (k : StrmKind) (a b c : Vec) (p : StrmPos) (va : Word) (m : Nat) (f : Word → StrmPos) (s1 : State) (v : Vec) :
      r.op = .strm k a b c p → nextTurn k r.ty a b c p = .read va m f → vAccess s (whoOf r) va m .read = .ok s1 v →
      q = f (v.setWidth 64) → ElemMove s r q (putReq s1 (withPos r q))
  | write (k : StrmKind) (a b c : Vec) (p : StrmPos) (va : Word) (m : Nat) (v : Word) (s1 : State) (w : Vec) :
      r.op = .strm k a b c p → nextTurn k r.ty a b c p = .write va m v q →
      vAccess s (whoOf r) va m (.write (v.setWidth 128)) = .ok s1 w → ElemMove s r q (putReq s1 (withPos r q))
  | add (k : StrmKind) (a b c : Vec) (p : StrmPos) (va : Word) (op : AOp) (v : Word) (s1 : State) (w : Vec) :
      r.op = .strm k a b c p → nextTurn k r.ty a b c p = .add va op v q →
      vAccess s (whoOf r) va (bytes r.ty) (.amo op r.ty (v.setWidth 128) false) = .ok s1 w → ElemMove s r q (putReq s1 (withPos r q))

/-- Where an instruction is in its lists. -/
def placeOf (r : Req) : Nat :=
  match r.op with
  | .strm _ _ _ _ p => p.ia + p.ib
  | _ => 0

/-- `n` moves within an element, then one that goes on to another element. -/
def ElemMoves : Nat → State → Req → State → Prop
  | 0, s, r, s1 => ∃ q, ElemMove s r q s1 ∧ q.ia + q.ib ≠ placeOf r
  | n + 1, s, r, s1 => ∃ q s2, ElemMove s r q s2 ∧ q.ia + q.ib = placeOf r ∧ ElemMoves n s2 (withPos r q) s1

/-- A matrix command that starts now: it is the head of the queue that has the turn (R215, R218, R367, R368). -/
structure Starts (s : State) (c : Cmd) : Prop where
  listed : findCmd s c.id = some c
  ready : cmdReady s c = true
  queued : c.st = .queued
  turn : (getMat (settleTurn s c.bench (groupOf c.iu)) c.bench (groupOf c.iu)).turnLeft ≠ 0
  head : (headCmd (settleTurn s c.bench (groupOf c.iu)) c.bench (8 * groupOf c.iu +
    (getMat (settleTurn s c.bench (groupOf c.iu)) c.bench (groupOf c.iu)).turn)).map (·.id) = some c.id
  free : canStart (settleTurn s c.bench (groupOf c.iu)) (getMat (settleTurn s c.bench (groupOf c.iu)) c.bench (groupOf c.iu)) c = true

/-- Where the loading of a command goes on from: it starts now, or has started and has still to read its tiles. -/
def LoadsFrom (s : State) (c : Cmd) (s0 : State) (c0 : Cmd) : Prop :=
  isMatrix c.kind = true ∧ s.pkg.mode ≠ .memory ∧
    ((Starts s c ∧ s0 = beginMatrix (settleTurn s c.bench (groupOf c.iu)) c ∧
      c0 = { c with st := .started, began := (settleTurn s c.bench (groupOf c.iu)).run.now }) ∨
     (Working s c ∧ c.ran = false ∧ s0 = s ∧ c0 = c))

/-- Its token translates, its references hold, its tiles are at home in `s2`, nothing keeps its output or its bank (R40, R215,
R217). -/
structure Loads (s0 s2 : State) (c : Cmd) (x : Space) : Prop where
  refs : ∃ y, findSpace s0 c.key.asid = some y ∧ rolesFail y (rolesOf c.kind c.ty c.a c.b c.c) = none
  rows : c.kind = .mldw ∨ refAux c.a ≠ 0
  tiles : ∃ s1 p, tokenAt s0 c = .ok s1 p ∧ migrateAll s1 c (tilesOf c) = some s2
  output : isBusy s2 c = false
  bank : bankBusy s2 c = false
  space : findSpace s2 c.key.asid = some x

/-- The bank of an `MMA` has its columns: by its tag, or loaded now (R219). -/
def BankReady (s2 s3 : State) (c : Cmd) (x : Space) : Prop :=
  let hc := getHandle x (refIdx c.c)
  let tag := tagOf c.key.asid hc (refRow c.c)
  let has := (getBank (getMat s2 c.bench (groupOf c.iu)) c.bank).tag = some tag
  (has ∧ s3 = s2) ∨ (¬ has ∧ ∃ s4, loadTiles s2 c [hc.idx] = .ok s4 ∧ (loadBank s4 c hc (refRow c.c) c.bank).2 = true ∧
    s3 = setTag (loadBank s4 c hc (refRow c.c) c.bank).1 c c.bank (some tag))

/-- The command has the output `r` in its shadow and `steps` plane-steps to make; no byte of memory or of a tile has changed
(R217, R361). -/
def Begun (s3 s' : State) (c : Cmd) (r : Computed) (steps : Nat) : Prop :=
  ∃ c' y, findCmd s' c.id = some c' ∧ c'.st = .started ∧ c'.out = some (refIdx c.b) ∧ c'.shadow = r.shadow ∧ c'.flags = r.fl ∧
    c'.count = refAux c.a ∧ c'.ran = true ∧ c'.todo = steps ∧ s'.mem = s3.mem ∧ findSpace s' c.key.asid = some y ∧
    (getHandle y (refIdx c.b)).busy = true

end Sys2Proof.Spec

/-- One step of an engine command. `CPY` moves one unit, converted, and keeps its flags (R251); `CRED` makes one atomic at the
element's home (R252); a link command sends one element, or takes the peer's refusal of an element or of the signal (R255); `MMA`,
`MACC` and `MCVT` compute their output from their tiles and mark it `BUSY`, `MLDW` reads its bank (R217, R219 to R222); a row count
of 0 has nothing to do; an `MMA` makes some of its plane-steps (R361). -/
def Obligations.EngineCommandsWork : Prop :=
  (∀ (s s1 : State) (c : Cmd) (x y : Tensor) (l : List Byte), Working s c → tensorOf c.rec1 = some x → tensorOf c.rec2 = some y →
    c.pos * perUnit x.ety y.ety < elements x →
    readUnit s c x c.pos (perUnit x.ety y.ety) (sourceBytes x.ety y.ety) = .ok s1 l → unitOk x.ety y.ety l = true →
    (∀ s2, c.kind = .cpy → y.tile = false →
      let va := tensorVa y (c.pos * perUnit x.ety y.ety)
      let out := (convUnit c x y l).1
      writeMany s1 (whoCmd c) va out.length va out (out.length + 1) = .ok s2 () →
      exec (.cpyExecute c.id) s =
        .next (putCmd s2 { c with pos := c.pos + 1, flags := c.flags ||| (convUnit c x y l).2 })) ∧
    (∀ z h, c.kind = .cpy → y.tile = true → findSpace s1 c.key.asid = some z →
      h = getHandle z ((tileHandle y).setWidth 24).toNat →
      exec (.cpyExecute c.id) s = .next (putCmd s1 { c with
        pos := c.pos + 1, flags := c.flags ||| (convUnit c x y l).2
        shadow := setBytes c.shadow (tensorOff y h (c.pos * perUnit x.ety y.ety)) (convUnit c x y l).1 })) ∧
    (∀ s2 v, c.kind = .cred → perUnit x.ety y.ety = 1 →
      vAccess s1 (whoCmd c) (tensorVa y c.pos) (bytes x.ety) (.amo c.op c.ty (BitVec.ofNat 128 (natOfBytes l)) true) = .ok s2 v →
      exec (.credExecute c.id) s = .next (putCmd s2 { c with pos := c.pos + 1 }))) ∧
  (∀ (s s1 : State) (c : Cmd) (x : Tensor) (p : Peer) (l : List Byte), Working s c → tensorOf c.rec1 = some x →
    peerOf c.rec2 = some p → c.pos * perUnit x.ety x.ety < elements x → portUp s c = true →
    readUnit s c x c.pos (perUnit x.ety x.ety) (unitBytes x.ety) = .ok s1 l →
    (c.kind = .xcpy → exec (.xcpyExecute c.id .performed) s =
      .next (putCmd (emit s1 (.peerWrite p.id p.win (c.c.toNat + c.pos * unitBytes x.ety) l)) { c with pos := c.pos + 1 })) ∧
    (c.kind = .xred → exec (.xredExecute c.id .performed) s =
      .next (putCmd (emit s1 (.peerReduce p.id p.win (c.c.toNat + c.pos * unitBytes x.ety) c.op c.ty l)) { c with pos := c.pos + 1 })) ∧
    ((c.kind = .xcpy ∨ c.kind = .xred) →
      exec (runsCmd c.kind c.id (.refusedAt c.pos)) s = .next (putCmd s { c with status := 2, count := 0 }))) ∧
  (∀ (s : State) (c : Cmd) (x : Tensor) (p : Peer), Working s c → tensorOf c.rec1 = some x → peerOf c.rec2 = some p →
    elements x ≤ c.pos * perUnit x.ety x.ety → p.sigen = true → c.ran = false → portUp s c = true → (c.kind = .xcpy ∨ c.kind = .xred) →
    exec (runsCmd c.kind c.id (.refusedAt c.pos)) s = .next (putCmd s { c with status := 2, count := 0 })) ∧
  (∀ (s s0 s2 s3 : State) (c c0 : Cmd) (x : Space), LoadsFrom s c s0 c0 → Loads s0 s2 c0 x →
    let ha := getHandle x (refIdx c.a)
    let hb := getHandle x (refIdx c.b)
    (c.kind = .macc → loadTiles s2 c0 [ha.idx, hb.idx] = .ok s3 →
      ∃ s', exec (.maccExecute c.id) s = .next s' ∧ Begun s3 s' c (computeMacc s3 c0 ha hb) 0) ∧
    (c.kind = .mcvt → loadTiles s2 c0 [ha.idx, hb.idx] = .ok s3 →
      ∃ s', exec (.mcvtExecute c.id) s = .next s' ∧ Begun s3 s' c (computeMcvt s3 c0 ha hb) 0) ∧
    (∀ s4, c.kind = .mma → BankReady s2 s4 c0 x → loadTiles s4 c0 [ha.idx, hb.idx] = .ok s3 →
      let bank := getBank (getMat s3 c.bench (groupOf c.iu)) c.bank
      let r := computeMma s3 c0 ha hb bank.fmt (bank.cols.map (blockOf bank.fmt))
      r.status = 0 → ∃ s', exec (.mmaExecute c.id) s = .next s' ∧ Begun s3 s' c r (refAux c.a * (c.np.toNat + 1))) ∧
    (c.kind = .mldw → loadTiles s2 c0 [ha.idx] = .ok s3 → (bankCols s3 c.key.asid ha (refRow c.a)).2 = true →
      ∃ s' c', exec (.mldwExecute c.id) s = .next s' ∧ findCmd s' c.id = some c' ∧ c'.st = .started ∧ c'.count = 16 ∧
        c'.gen = ha.gen ∧ c'.ran = true ∧ (getBank (getMat s' c.bench (groupOf c.iu)) c.bank).tag = none ∧
        (getBank (getMat s' c.bench (groupOf c.iu)) c.bank).cols = (bankCols s3 c.key.asid ha (refRow c.a)).1.map bytesOfBlock ∧
        s'.mem = s3.mem)) ∧
  (∀ (s s0 s1 : State) (c c0 : Cmd) (p : Phys) (y : Space), LoadsFrom s c s0 c0 → tokenAt s0 c0 = .ok s1 p →
    findSpace s0 c.key.asid = some y → rolesFail y (rolesOf c.kind c.ty c.a c.b c.c) = none → c.kind ≠ .mldw → refAux c.a = 0 →
    exec (runsCmd c.kind c.id) s = .next (putCmd s1 { c0 with ran := true })) ∧
  (∀ (s : State) (c : Cmd), isMatrix c.kind = true → s.pkg.mode ≠ .memory → Working s c → c.ran = true → c.todo ≠ 0 →
    ∃ s' c' k, exec (runsCmd c.kind c.id) s = .next s' ∧ 0 < k ∧ k ≤ c.todo ∧ findCmd s' c.id = some c' ∧ c'.todo = c.todo - k ∧
      (getMat s' c.bench (groupOf c.iu)).steps = (getMat s c.bench (groupOf c.iu)).steps + BitVec.ofNat 64 k ∧ s'.mem = s.mem)

/-- `STREAM_EXECUTE` (R232 to R237, R369): a turn for one element makes the accesses that its instruction asks for, one after the
other, and keeps its positions; the set instructions go through the heads of their lists in order, an equal pair once; at the end
the count is delivered. -/
def Obligations.StreamTurns : Prop :=
  (∀ (s s1 : State) (r : Req) (k : StrmKind) (a b c : Vec) (p : StrmPos), Turning s r k a b c p →
    (∀ n, n < 256 → ElemMoves n (turnOpens s r).1 (turnOpens s r).2 s1 → exec (.streamExecute r.id 1) s = .next s1) ∧
    (∀ v t, nextTurn k r.ty a b c p = .finish v → findThread s r.key = some t → inCl1 t = true → t.pend = none → t.ctx.frz = false →
      t.cancel = false → fatalRec t.trap = none → r.ri = none → (∀ q ∈ s.flight.reqs, q.key = r.key → isUnrecorded q = false) →
      ∃ s', exec (.streamExecute r.id 1) s = .next s' ∧ Landed s s' t { r with ty := .b64 } (v.setWidth 128) ∧ s'.mem = s.mem)) ∧
  (∀ (ty : Ty) (a b c : Vec) (p : StrmPos) (x y : Word), listLb a = 0 → listLb b = 0 → p.ia < listLen a → p.ib < listLen b →
    p.keepA = some x → p.keepB = some y → p.nout < listLen c →
    let put := fun (v : Word) (q : StrmPos) => ElemStep.write (elemVa c (bytes ty) p.nout) (bytes ty) v { q with nout := p.nout + 1 }
    let both := { p with ia := p.ia + 1, ib := p.ib + 1, keepA := none, keepB := none }
    let nextA := { p with ia := p.ia + 1, keepA := none }
    let nextB := { p with ib := p.ib + 1, keepB := none }
    (x = y → nextTurn .sint ty a b c p = put x both ∧ nextTurn .smrg ty a b c p = put x both ∧ nextTurn .sdiff ty a b c p = .pure both) ∧
    (x.toNat < y.toNat → nextTurn .sint ty a b c p = .pure nextA ∧ nextTurn .smrg ty a b c p = put x nextA ∧
      nextTurn .sdiff ty a b c p = put x nextA) ∧
    (y.toNat < x.toNat → nextTurn .sint ty a b c p = .pure nextB ∧ nextTurn .smrg ty a b c p = put y nextB ∧
      nextTurn .sdiff ty a b c p = .pure nextB)) ∧
  (∀ (ty : Ty) (a b c : Vec) (p : StrmPos), listLb a = 0 → listLb b = 0 → listLen a ≤ p.ia →
    (nextTurn .sint ty a b c p = .finish (BitVec.ofNat 64 p.nout)) ∧ (nextTurn .sdiff ty a b c p = .finish (BitVec.ofNat 64 p.nout)))

/-- Engines at rest and scratchpads (R201, R202, R223, R363). `ENGINE_REST_POINT` in Memory mode and `ENGINE_IDLE_GATE` after 2^16
idle cycles empty both tags and gate the engine, and a command in progress is as it was accepted; a frame becomes resident, and
the threads that wait for it issue again, or is written back, and no byte of a tile changes; a waking bank wakes, a bank without a
pinned frame powers down. -/
def Obligations.EngineRests : Prop :=
  (∀ (s : State) (b g : Nat), s.pkg.mode = .memory → (getMat s b g).gated = false →
    (inProgress s b g = [] →
      exec (.engineRestPoint b g) s = .next (putMat s { emptyTags (getMat s b g) with gated := true })) ∧
    (∀ c, inProgress s b g = [c] → findCmd s c.id = some c → c.out = none →
      ∃ s', exec (.engineRestPoint b g) s = .next s' ∧ findCmd s' c.id = some (unstart c) ∧ (getMat s' b g).gated = true ∧
        (getMat s' b g).bank0.tag = none ∧ (getMat s' b g).bank1.tag = none ∧ s'.mem = s.mem)) ∧
  (∀ (s : State) (b g : Nat), groupHas s b g = false → (getMat s b g).gated = false → (getMat s b g).idleSince + 65536 ≤ s.run.now →
    inProgress s b g = [] →
    exec (.engineIdleGate b g) s = .next (putMat s { emptyTags (getMat s b g) with gated := true })) ∧
  (∀ (s s1 s2 : State) (asid : BitVec 16) (x : Space) (i j n : Nat), findSpace s asid = some x →
    let h := getHandle x i
    h.v = true → resident h j = false → j < h.nfr.toNat → h.lost.getLsbD j = false →
    backingPages s (((frameWaiters s asid i j).head?.map (·.bench)).getD h.hbench.toNat) asid x i j (tileSize h) 4 = .ok s1 →
    takeFrame s1 h.hbench.toNat h.hiu.toNat = some (s2, n) →
    exec (.tileFrameRefill asid i j) s = .next (releaseFrame (onHandle s2 asid i fun h => setFrame h j n) asid i j) ∧
      s2.mem.tiles = s.mem.tiles) ∧
  (∀ (s : State) (asid : BitVec 16) (x : Space) (i j : Nat), findSpace s asid = some x → (getHandle x i).v = true →
    j < (getHandle x i).nfr.toNat → resident (getHandle x i) j = true → (getHandle x i).pin.getLsbD j = false →
    ∃ s' y, exec (.tileFrameWriteback asid i j) s = .next s' ∧ findSpace s' asid = some y ∧
      getHandle y i = setFrame (getHandle x i) j 31 ∧ s'.mem.tiles = s.mem.tiles ∧ s'.threads = s.threads) ∧
  (∀ (s : State) (b u bank since : Nat), (bank, BankSt.waking since) ∈ (getIu s b u).banks →
    (∃ s', exec (.scratchpadBankWake b u bank) s = .next s') ∧
    ((∀ r ∈ residents s b u, r.2.2.2 ≠ bank) →
      ∃ s', exec (.scratchpadBankWake b u bank) s = .next s' ∧ bankAwake s' b u bank = true ∧ s'.threads = s.threads ∧ s'.mem = s.mem)) ∧
  (∀ (s : State) (b u bank : Nat), bank < 24 → bankAwake s b u bank = true →
    (∀ r ∈ residents s b u, r.2.2.2 = bank → r.2.1.pin.getLsbD r.2.2.1 = false) →
    ∃ s', exec (.scratchpadBankPowerDown b u bank) s = .next s' ∧ bankAwake s' b u bank = false ∧ s'.threads = s.threads ∧
      s'.mem.tiles = s.mem.tiles)

/-! Context lines on the move, address spaces, sets and issue units (13_contexts, 14, 17). -/

namespace Sys2Proof.Spec

/-- Nothing but threads, and the order of ready lists, has changed. -/
structure LinesOnly (s s' : State) : Prop where
  mem : s'.mem = s.mem
  spaces : s'.spaces = s.spaces
  flight : s'.flight = s.flight
  eng : s'.eng = s.eng
  queues : s'.queues = s.queues
  mmu : s'.mmu = s.mmu
  pkg : s'.pkg = s.pkg

end Sys2Proof.Spec

/-- Lines move (R320, R323, R327, R328, R330, R338, R340). `LINE_PULL`: the lowest-numbered unit that can pull takes the head of the
bench's list, into its lowest free slot; a unit over its limit evicts a parked line. `LINE_TRANSFER_ARRIVAL`: the line is in its new
place, and the updates that waited are applied in order. `READY_LIST_AGEING`: one level up after 65,536 cycles. `READY_LIST_SWAP`: with a
line at level 15 for 65,536 cycles the head takes the place of the least recently issued ready line. `FIRMWARE_REBALANCE`: a line goes to another bench. -/
def Obligations.LineMovement : Prop :=
  (∀ (s : State) (b u : Nat) (t : Thread), canPull s b u = true → (∀ v < u, canPull s b v = false) →
    (cl1Lines s b u).length < cl1Cap (getIu s b u) → listHead s b = some t → findThread s t.key = some t → inCl2 t b = true →
    ∃ s', exec (.linePull b u) s = .next s' ∧ LinesOnly s s' ∧ (∀ k, k ≠ t.key → findThread s' k = findThread s k) ∧
      findThread s' t.key = some { t with loc := .moving (.cl1 u) b, ready := none, slot := freeSlot s b u }) ∧
  (∀ (s : State) (b u : Nat) (v : Thread), cl1Cap (getIu s b u) < (cl1Lines s b u).length → (getIu s b u).halted = false →
    running s = true → parkedVictim s b u = some v → findThread s v.key = some v →
    ∃ s' x, exec (.linePull b u) s = .next s' ∧ LinesOnly s s' ∧ (∀ k, k ≠ v.key → findThread s' k = findThread s k) ∧
      findThread s' v.key = some x ∧ x.loc = .moving .cl2 v.bench ∧ x.marked = false ∧ x.ctx = v.ctx ∧ x.trap = v.trap) ∧
  (∀ (s : State) (t : Thread) (b u : Nat), findThread s t.key = some t → t.loc = .moving (.cl1 u) b →
    let x := t.inbox.foldl applyUpd
      { t with loc := .placed (.cl1 u), bench := b, inbox := [], wait := if t.wait == .transit then .run else t.wait }
    x.pend = none → x.ctx.frz = false → x.cancel = false → fatalRec x.trap = none →
    (∀ r ∈ s.flight.reqs, r.key = t.key → isUnrecorded r = false) →
    ∃ s' y, exec (.lineTransferArrival t.key) s = .next s' ∧ LinesOnly s s' ∧ (∀ k, k ≠ t.key → findThread s' k = findThread s k) ∧
      findThread s' t.key = some y ∧ y.loc = .placed (.cl1 u) ∧ y.bench = b ∧ y.inbox = [] ∧ y.trap = x.trap ∧
      y.ctx = { x.ctx with wkind := y.ctx.wkind }) ∧
  (∀ (s : State) (t : Thread) (r : ReadyEnt), findThread s t.key = some t → t.ready = some r → r.level < 15 →
    r.since + 65536 ≤ s.run.now →
    exec (.readyListAgeing t.key) s =
      .next (setThread s { t with ready := some { r with level := r.level + 1, since := r.since + 65536 } })) ∧
  (∀ (s : State) (b u : Nat) (t v : Thread), listHead s b = some t → lateLine s b = true → (s.cache.swaps.find? fun x => x.1 == b) = none →
    (∀ w < Config.iusPerBench, canPull s b w = false) → findThread s t.key = some t → findThread s v.key = some v →
    t.key ≠ v.key → inCl2 t b = true →
    leastBy (fun x => x.2.lastIssue) (((List.range Config.iusPerBench).filter fun u => iuEnabled (getIu s b u) && iuRuns s b u).filterMap
      fun u => (readyVictim s b u).map fun v => (u, v)) = some (u, v) →
    ∃ s' x y, exec (.readyListSwap b) s = .next s' ∧ LinesOnly s s' ∧
      findThread s' t.key = some x ∧ x.loc = .moving (.cl1 u) b ∧ x.ready = none ∧ x.ctx = t.ctx ∧
      findThread s' v.key = some y ∧ y.loc = .moving .cl2 v.bench ∧ y.ctx = v.ctx ∧ (b, s.run.now) ∈ s'.cache.swaps) ∧
  (∀ (s : State) (t : Thread) (b : Nat), findThread s t.key = some t → t.ready.isSome = true → t.ctx.hact = false → isMoving t = false →
    leavesFree s t.key = true → t.bench ≠ b → b < Config.benches → accepts s b = true → cl2Used s b < Config.cl2Lines →
    ∃ s' x, exec (.firmwareRebalance t.key b) s = .next s' ∧ (t.loc ≠ .placed .hbm → LinesOnly s s') ∧
      (∀ k, k ≠ t.key → findThread s' k = findThread s k) ∧ s'.flight = s.flight ∧ s'.spaces = s.spaces ∧
      findThread s' t.key = some x ∧ x.loc = .moving .cl2 b ∧ x.ctx = t.ctx ∧ x.trap = t.trap ∧ x.lastIu = none ∧ x.ready = none)

/-- Address spaces under firmware (R20, R34, R46, R346, R347, R356, R358, R373): a space is created with its descriptor and an empty
pool; a service thread is created with its registers and an id of the pool; a quiet space is suspended, its pins cleared, and
resumed; a shoot-down makes the stores of the page tables and leaves no entry of the range in any TLB; an `ASID` without threads
leaves nothing behind; firmware writes a slot, and `LIMIT` of the pool. -/
def Obligations.SpaceEvents : Prop :=
  (∀ (s : State) (x : SpaceNew), findSpace s x.asid = none → hostHeld s x.maps [] = [] →
    ∃ s', exec (.addressSpaceCreate x) s = .next s' ∧ s'.spaces = s.spaces ++ [newSpace x] ∧ s'.threads = s.threads ∧
      s'.flight = s.flight ∧ s'.mmu = s.mmu ∧ (x.maps = [] → s'.mem = s.mem)) ∧
  (∀ (s : State) (asid : BitVec 16) (x : ServiceNew) (y sp : Space) (id : BitVec 32), x.bench < Config.benches → hasRoom s x.bench = true →
    findSpace s asid = some y → allocId y = some (id, sp) → y.susp = false → poolBusy s asid = false → cl2Used s x.bench < Config.cl2Lines →
    findThread s ⟨asid, id⟩ = none →
    ∃ s' t, exec (.firmwareServiceThreadCreate asid x) s = .next s' ∧ findThread s' ⟨asid, id⟩ = some t ∧ t.ctx = serviceCtx x id ∧
      t.bench = x.bench ∧ t.loc = .placed .cl2 ∧ t.ready.isSome = true ∧ (∀ i, (getRec t.trap i).valid = false) ∧
      findSpace s' asid = some sp ∧ s'.mem = s.mem) ∧
  (∀ (s : State) (asid : BitVec 16) (x : Space), findSpace s asid = some x →
    let alone := (∀ t ∈ s.threads, t.key.asid ≠ asid) ∧ (∀ r ∈ s.flight.reqs, r.key.asid ≠ asid) ∧ ∀ c ∈ s.eng.cmds, c.key.asid ≠ asid
    (x.susp = false → saveGate s asid (suspendSlots s x) = none →
      ∃ s' y, exec (.addressSpaceSuspend asid) s = .next s' ∧ findSpace s' asid = some y ∧ y.susp = true ∧ (∀ h ∈ y.handles, h.pin = 0) ∧
        (∀ m ∈ s'.eng.mats, ∀ k ∈ [m.bank0, m.bank1], k.tag.map (·.asid) ≠ some asid) ∧
        (alone → s'.threads = s.threads ∧ s'.mem = s.mem)) ∧
    (x.susp = true → saveGate s asid ((savedStreams x).map fun e => (e.1.bench, strmSlotVa x e.1.bench e.2)) = none →
      ∃ s' y, exec (.addressSpaceResume asid) s = .next s' ∧ findSpace s' asid = some y ∧ y.susp = false ∧ y.strmSave = [] ∧
        (alone → x.cmdSave = [] → x.strmSave = [] → y = { x with susp := false } ∧ s'.threads = s.threads ∧ s'.mem = s.mem))) ∧
  (∀ (s : State) (asid : BitVec 16) (lo hi : Nat) (maps : List (Nat × Word)), shootWaits s asid lo hi = false → hostHeld s maps [] = [] →
    ∃ s', exec (.tlbShootdown asid lo hi maps) s = .next s' ∧
      s'.mem.dev = maps.foldl (fun d m => writeVal d m.1 8 (m.2.setWidth 128)) s.mem.dev ∧ s'.threads = s.threads ∧
      (∀ e ∈ s'.mmu.tlb, e ∈ s.mmu.tlb ∧ ¬ (e.asid = asid ∧ e.base / 4096 < hi ∧ lo * 4096 < e.base + e.size)) ∧
      (∀ e ∈ s.mmu.tlb, e.asid ≠ asid → e ∈ s'.mmu.tlb)) ∧
  (∀ (s : State) (asid : BitVec 16), (∀ t ∈ s.threads, t.key.asid ≠ asid) → (∀ c ∈ s.eng.cmds, c.key.asid ≠ asid) →
    ∃ s', exec (.asidRetireDiscard asid) s = .next s' ∧ findSpace s' asid = none ∧ (∀ e ∈ s'.mmu.tlb, e.asid ≠ asid) ∧
      (∀ e ∈ s'.cache.clb, e.asid ≠ asid) ∧ (∀ e ∈ s'.cache.recs, e.asid ≠ asid) ∧
      (∀ b i, entryHere s' b asid i = false ∧ reserveOf s' b asid = 0) ∧ s'.threads = s.threads ∧ s'.mem = s.mem ∧
      (∀ b, b ≠ asid → findSpace s' b = findSpace s b)) ∧
  (∀ (s : State) (t : Thread) (w : BitVec 5) (v : Word), findThread s t.key = some t → t.key.ctx ≠ 0 → inCl1 t = true → t.ctx.frz = true →
    (∀ r ∈ s.flight.reqs, r.key = t.key → isUnrecorded r = false) →
    (16 ≤ w.toNat → ∃ s' x, exec (.firmwareContextWrite t.key w v) s = .next s' ∧ LinesOnly s s' ∧ findThread s' t.key = some x ∧
      x.trap = setTrapWord t.trap (w.toNat - 16) v ∧ x.ctx = { t.ctx with wkind := x.ctx.wkind }) ∧
    (w.toNat < 16 → (firmwareWord t.ctx w.toNat v).frz = true →
      ∃ s' x, exec (.firmwareContextWrite t.key w v) s = .next s' ∧ LinesOnly s s' ∧ findThread s' t.key = some x ∧
        x.trap = t.trap ∧ x.ctx = { firmwareWord t.ctx w.toNat v with wkind := x.ctx.wkind })) ∧
  (∀ (s : State) (asid : BitVec 16) (x : Space) (v : BitVec 33), findSpace s asid = some x → 2 ≤ v.toNat → v.toNat ≤ 2 ^ 32 →
    ∃ s', exec (.firmwareContextWrite ⟨asid, 0⟩ 3 (v.setWidth 64)) s = .next s' ∧ findSpace s' asid = some { x with limit := v } ∧
      s'.threads = s.threads ∧ s'.mem = s.mem)

/-- Issue units and sets (R6, R44, R311, R339, R340, R347, R348, R397, R398). `IUCFG_WRITE` keeps the defined bits, takes effect, and
empties the TLBs of a unit that it switches off; lines that fit stay. A register write sets `IUDBG`, the enables of `SETCTL` and
asks for what its other bits say, sets the AtomicOp enable or a reserved range, and leaves a read-only register. A requested halt
halts the set, with trigger 4, and each of its units within 1,024 cycles; a release lets them and their lines go on. -/
def Obligations.UnitsAndSets : Prop :=
  (∀ (s : State) (b u : Nat) (v : Word),
    ∃ s', exec (.iucfgWrite b u v) s = .next s' ∧ (getIu s' b u).cfg = v &&& 0x8F0000FF ∧
      (∀ c w, ¬ (c = b ∧ w = u) → (getIu s' c w).cfg = (getIu s c w).cfg) ∧ s'.flight = s.flight ∧ s'.eng = s.eng ∧
      s'.queues = s.queues ∧ s'.spaces = s.spaces ∧ s'.fw = s.fw ∧ s'.pkg = s.pkg ∧
      (v.getLsbD 7 = false → ∀ e ∈ s'.mmu.tlb, e.loc ≠ .data b u ∧ e.loc ≠ .instr b u) ∧
      ((getIu s b u).halted = true ∨ (cl1Lines s b u).length ≤ (if v.getLsbD 7 then cl1Limit { getIu s b u with cfg := v &&& 0x8F0000FF } else 0) →
        s'.threads = s.threads ∧ s'.mem = s.mem ∧ (v.getLsbD 7 = true → s'.mmu = s.mmu))) ∧
  (∀ (s : State) (b u : Nat) (v : Word),
    let held := (getIu s b u).halted = true ∨ (getIu s b u).haltDue.isSome = true
    let same := setOfIu { getIu s b u with dbg := v &&& 0xBF } = setOfIu (getIu s b u)
    ∃ s', exec (.registerWrite (.iudbg b u) v) s = .next s' ∧ (getIu s' b u).dbg = v &&& 0xBF ∧ s'.mem = s.mem ∧
      (¬ held ∨ same → s' = onIu s b u fun x => { x with dbg := v &&& 0xBF }) ∧
      (held ∧ ¬ same → (getIu s' b u).halted = false ∧ (getIu s' b u).haltDue = none)) ∧
  (∀ (s : State) (n : BitVec 6) (v : Word),
    let s1 := putSet s { getSet s n with frzh := v.getLsbD 2, steph := v.getLsbD 1, brkh := v.getLsbD 0 }
    let i : Instr := .registerWrite (.setctl n) v
    (v.getLsbD 63 = false → v.getLsbD 3 = false → exec i s = .next s1) ∧
    (v.getLsbD 63 = true → v.getLsbD 3 = false → exec i s = exec (.setRelease n) s1) ∧
    (v.getLsbD 63 = false → v.getLsbD 3 = true → exec i s = exec (.setHaltRequest n) s1)) ∧
  (∀ (s : State) (v : Word),
    exec (.registerWrite .atomicRequester v) s = .next { s with fw := { s.fw with atomicEnable := v.getLsbD 0 } } ∧
    (∀ first frames, ∃ s', exec (.registerWrite (.reserved first frames) v) s = .next s' ∧ s' = { s with mmu := s'.mmu } ∧
      s'.mmu = { s.mmu with reserved := s'.mmu.reserved } ∧
      ∀ r, r ∈ s'.mmu.reserved ↔ (r ∈ s.mmu.reserved ∧ r ≠ (first, frames)) ∨ (v.getLsbD 0 = true ∧ r = (first, frames))) ∧
    ∀ b u, exec (.registerWrite (.cycle b u) v) s = .next s ∧ ∀ i, exec (.registerWrite (.perf b u i) v) s = .next s) ∧
  (∀ (s : State) (n : BitVec 6),
    ((getSet s n).halted = false → ∃ s', exec (.setHaltRequest n) s = .next s' ∧ (getSet s' n).halted = true ∧ (getSet s' n).trig = 4 ∧
      (∀ x ∈ s.ius, setOfIu x = some n → (getIu s' x.bench x.iu).halted = true ∨
        ∃ d, (getIu s' x.bench x.iu).haltDue = some d ∧ d ≤ s.run.now + 1024) ∧
      s'.flight = s.flight ∧ s'.spaces = s.spaces ∧ s'.eng = s.eng ∧ s'.queues = s.queues) ∧
    ((getSet s n).halted = true → ∃ s', exec (.setHaltRequest n) s = .next s' ∧ s' = { s with run := s'.run })) ∧
  (∀ (s : State) (n : BitVec 6),
    ((getSet s n).halted = true → ∃ s', exec (.setRelease n) s = .next s' ∧ (getSet s' n).halted = false ∧
      (∀ x ∈ s.ius, setOfIu x = some n → (getIu s' x.bench x.iu).halted = false ∧ (getIu s' x.bench x.iu).haltDue = none) ∧
      (∀ t u, findThread s t.key = some t → t.loc = .placed (.cl1 u) → t.marked = true →
        (∃ x ∈ s.ius, x.bench = t.bench ∧ x.iu = u ∧ setOfIu x = some n) →
        ∃ y, findThread s' t.key = some y ∧ y.ctx = { t.ctx with dhalt := false, wkind := y.ctx.wkind } ∧ y.marked = false ∧ y.trap = t.trap) ∧
      s'.mem = s.mem) ∧
    ((getSet s n).halted = false → exec (.setRelease n) s = .next s))

/-! The host, its links and the caches under them (12_caches_and_links). -/

namespace Sys2Proof.Spec

/-- Nothing that waits at a line can go before an arrival there (R194, R302). -/
def noneWaits (s : State) (line : Phys) : Prop := ∀ x ∈ s.flight.turns, x.line = line → canTurn s x = false

/-- A device line that the module may serve to the host now: the module runs, no hold, no exchange, no earlier arrival, no D copy,
no waiter and no token on the line, and the directory has room for it (R301, R302, R308 to R310). -/
structure HostFree (s : State) (pa : Nat) : Prop where
  run : running s = true
  inside : pa < Config.hbmBytes
  hold : lineHold s (.dev (lineAddr pa)) = none
  turn : noneWaits s (.dev (lineAddr pa))
  bisnp : ∀ x ∈ s.cache.bisnp, x.line ≠ lineAddr pa
  deltas : s.cache.dsums = []
  room : recallGate s (lineAddr pa) = .go
  free : neverCached s pa = false

/-- Messages that a host line has left the device, which another line's coming may cause (R292, R304). -/
def evictions (l : List Out) : Prop := ∀ o ∈ l, (∃ a d, o = .dirtyEvict a d) ∨ ∃ a, o = .cleanEvict a

/-- The host has been answered with `os`; the state it holds the line in is `h`; threads, requests, engines and address spaces are
as they were (R308). -/
structure Served (s s' : State) (pa : Nat) (h : Option HostSt) (os : List Out) : Prop where
  out : ∃ l, evictions l ∧ s'.fw.out = s.fw.out ++ l ++ os
  host : hostStOf s' pa = h
  threads : s'.threads = s.threads
  reqs : s'.flight.reqs = s.flight.reqs
  waiters : s'.flight.waiters = s.flight.waiters
  eng : s'.eng = s.eng
  spaces : s'.spaces = s.spaces

/-- An inbound access as its window accepts it, and the state in which it is the last one accepted (R313, R314). -/
def acceptedAs (s : State) (x : LinkAccess) : Accepted :=
  { x := x, asid := (getWindow s x.win).w0.setWidth 16, base := (getWindow s x.win).w1 &&& 0x01FFFFFFFFFFF000 }

def accepting (s : State) (x : LinkAccess) : State :=
  { s with fw := { s.fw with inbound := s.fw.inbound ++ [acceptedAs s x] } }

/-- A running thread of a CL1 whose line can take a FATAL record `i` (R24, R33). -/
structure Recordable (s : State) (t : Thread) (r : Req) (i : BitVec 2) : Prop where
  listed : findReq s r.id = some r
  thread : findThread s r.key = some t
  cl1 : inCl1 t = true
  runs : t.wait = .run
  pend : t.pend = none
  frz : t.ctx.frz = false
  cancel : t.cancel = false
  rec1 : freeRec t.trap = some i
  count : countsRec r.op = true → t.ctx.outst ≠ 15
  kind : ∀ f q n, r.op ≠ .dep f q n
  unrecorded : r.ri = none
  only : ∀ q ∈ s.flight.reqs, q.key = r.key → q.id = r.id

/-- The access has ended with a FATAL record of `status` (R354). -/
def EndsFatal (s' : State) (t : Thread) (r : Req) (i : BitVec 2) (status : BitVec 5) : Prop :=
  findReq s' r.id = none ∧ ∃ x, findThread s' t.key = some x ∧ x.trap = setRec t.trap i (recordOf { r with fva := r.va } status) ∧
    x.ctx = { (if countsRec r.op then incOutst t.ctx else t.ctx) with wkind := x.ctx.wkind }

end Sys2Proof.Spec

/-- The host's snoops of a host line (R304, R305): the answer says whether a copy is dirty and carries the line; `SNP_INV` leaves no
copy in the bench L2s and the LLC, `SNP_DATA` leaves shared ones, `SNP_CUR` leaves all; the data L1s keep what they have (R294).
`HOST_MEMORY_COMPLETION` gives the line's bytes to memory and lets the request go on; `ATOMICOP_COMPLETION` writes what the host
computed and delivers the old value (R181, R306, R311). -/
def Obligations.HostSnoops : Prop :=
  (∀ (s : State) (line : Nat), running s = true → lineHold s (.hostC (lineAddr line)) = none → noneWaits s (.hostC (lineAddr line)) →
    let a := lineAddr line
    let said := s.fw.out ++ [.snoop a (s.cache.l2.any fun x => x.line == .hostC a && (x.st == .m || x.st == .o)) (readBytes s.mem.host a 128)]
    (∃ s', exec (.snpInv line) s = .next s' ∧ s'.fw.out = said ∧ s'.mem = s.mem ∧ s'.threads = s.threads ∧
      (∀ x ∈ s'.cache.l2, x.line ≠ .hostC a) ∧ s'.cache.l1 = s.cache.l1) ∧
    (∃ s', exec (.snpData line) s = .next s' ∧ s'.fw.out = said ∧ s'.mem = s.mem ∧ s'.threads = s.threads ∧
      (∀ x ∈ s'.cache.l2, x.line = .hostC a → x.st = .s) ∧ s'.cache.l1 = s.cache.l1) ∧
    (∃ s', exec (.snpCur line) s = .next s' ∧ s'.fw.out = said ∧ s'.mem = s.mem ∧ s'.threads = s.threads ∧ s'.cache = s.cache)) ∧
  (∀ (s : State) (r : Req) (a : Nat) (d : BitVec 1024), findReq s r.id = some r → r.st = .host → r.id ∉ s.cache.asked → isPcie r = false →
    (∀ x ∈ s.cache.dsums, ∃ p, x.addr = .dev p) →
    (r.pa = some (.hostC a) → hostDirty s (.hostC (lineAddr a)) = false →
      ∃ s', exec (.hostMemoryCompletion r.id (some d)) s = .next s' ∧
        s'.mem.host = writeBytes s.mem.host (lineAddr a) (bytesOfNat 128 d.toNat) ∧ findReq s' r.id = some { r with st := .pending } ∧
        hostCopy s' (.hostC (lineAddr a)) = true ∧ s'.threads = s.threads) ∧
    (r.pa = some (.hostU a) →
      ∃ s', exec (.hostMemoryCompletion r.id (some d)) s = .next s' ∧
        s'.mem.host = writeBytes s.mem.host (lineAddr a) (bytesOfNat 128 d.toNat) ∧ findReq s' r.id = some { r with st := .hostDone } ∧
        s'.cache = s.cache ∧ s'.threads = s.threads)) ∧
  (∀ (s : State) (t : Thread) (r : Req) (a : Nat) (old : Vec), findReq s r.id = some r → r.st = .host → r.id ∉ s.cache.asked →
    (r.pa = some (.hostC a) ∨ r.pa = some (.hostU a)) → isPcie r = true → r.ri = none → findThread s r.key = some t → inCl1 t = true →
    t.pend = none → t.ctx.frz = false → t.cancel = false → fatalRec t.trap = none →
    (∀ q ∈ s.flight.reqs, q.key = r.key → isUnrecorded q = false) → (∀ x ∈ s.cache.dsums, ∃ p, x.addr = .dev p) →
    ∃ s', exec (.atomicopCompletion r.id true old) s = .next s' ∧ Landed s s' t r (lowBytes r.n old) ∧
      s'.mem.host = writeVal s.mem.host a r.n ((atomicNew r (lowBytes r.n old)).getD (lowBytes r.n old))) ∧
  (∀ (s : State) (t : Thread) (r : Req) (i : BitVec 2) (old : Vec), Recordable s t r i → r.st = .host → isPcie r = true →
    r.id ∉ s.cache.asked →
    ∃ s', exec (.atomicopCompletion r.id false old) s = .next s' ∧ EndsFatal s' t r i stSysAtomic ∧ s'.mem = s.mem)

/-- Host requests on device memory (R308 to R310, R312): reads answer with the bytes, `MEM_RD_DATA` leaves the host a shared copy and
`MEM_INV` the only one; a write changes exactly its bytes and no full/empty bit; `MEM_SPEC_RD` is a hint; the answer to a snoop
ends the exchange with the host's data; a conflict serves the host first; an AtomicOp answers with the old value. -/
def Obligations.HostRequests : Prop :=
  (∀ (s : State) (pa : Nat), HostFree s pa →
    let base := pa / 64 * 64
    let bytes := readBytes s.mem.dev base 64
    (∃ s', exec (.memRd pa .noOp) s = .next s' ∧ s'.mem = s.mem ∧ Served s s' pa (hostStOf s pa) [.data base bytes]) ∧
    (∀ i ∈ [Instr.memRd pa .data, .memRdData pa],
      ∃ s', exec i s = .next s' ∧ s'.mem = s.mem ∧ Served s s' pa (some .hs) [.cmpS base, .data base bytes]) ∧
    (∃ s', exec (.memRd pa .inv) s = .next s' ∧ s'.mem = s.mem ∧ Served s s' pa (some .he) [.cmpE base, .data base bytes]) ∧
    (∃ s', exec (.memInv pa) s = .next s' ∧ s'.mem = s.mem ∧ Served s s' pa (some .he) [.cmpE base]) ∧
    (∃ s', exec (.memInvNt pa) s = .next s' ∧ s'.mem = s.mem ∧ Served s s' pa none [.cmp base]) ∧
    (∀ data mask i, (i = .memWrPtl pa data mask ∨ (i = .memWr pa data ∧ mask = BitVec.allOnes 64)) → cellsWf s.mem.dev = true →
      ∃ s', exec i s = .next s' ∧ Served s s' pa none [.cmp base] ∧ s'.mem.empty = s.mem.empty ∧
        s'.mem.host = s.mem.host ∧
        (∀ i < 64, cellRead s'.mem.dev (base + i) = if mask.getLsbD i then data.extractLsb' (8 * i) 8 else cellRead s.mem.dev (base + i)) ∧
        (∀ x, x < base ∨ base + 64 ≤ x → cellRead s'.mem.dev x = cellRead s.mem.dev x)) ∧
    exec (.memSpecRd pa) s = .next s) ∧
  (∀ (s : State) (line : Nat) (d : BitVec 1024), (∃ x ∈ s.cache.bisnp, x.line = lineAddr line ∧ x.inv = false) →
    (∀ x ∈ s.spaces, x.susp = true ∨ x.cmdSave = []) →
    (∃ s', exec (.birspS line (some d)) s = .next s' ∧ s'.mem.dev = writeBytes s.mem.dev (lineAddr line) (bytesOfNat 128 d.toNat) ∧
      hostStOf s' line = some .hs ∧ (∀ x ∈ s'.cache.bisnp, x.line ≠ lineAddr line) ∧ s'.threads = s.threads) ∧
    (∃ s', exec (.birspI line none) s = .next s' ∧ s'.mem = s.mem ∧ hostStOf s' line = none ∧
      (∀ x ∈ s'.cache.bisnp, x.line ≠ lineAddr line) ∧ s'.threads = s.threads) ∧
    (∃ s', exec (.biconflict line) s = .next s' ∧ s'.mem = s.mem ∧ s'.threads = s.threads ∧
      (∀ x ∈ s'.cache.bisnp, x.line = lineAddr line → x.repeated = true))) ∧
  (∀ (s : State) (op : PcieOp) (n pa : Nat) (v cmp : Vec), running s = true → pa < Config.hbmBytes → pa % n = 0 →
    (n = 4 ∨ n = 8 ∨ (op = .cas ∧ n = 16)) → lineHold s (.dev (lineAddr pa)) = none → noneWaits s (.dev (lineAddr pa)) →
    hostStOf s (lineAddr pa) = none → recallGate s (lineAddr pa) = .go → s.mem.poison.contains (lineAddr pa) = false →
    s.cache.dsums = [] →
    let old := readVal s.mem.dev pa n
    ∃ s' l, exec (.inboundAtomicop op n pa v cmp) s = .next s' ∧ evictions l ∧ s'.fw.out = s.fw.out ++ l ++ [.atomicOld old] ∧
      s'.threads = s.threads ∧ s'.mem = { s.mem with dev := writeVal s.mem.dev pa n (match op with
        | .fetchAdd => lowBytes n (old + v)
        | .swap => lowBytes n v
        | .cas => if old = lowBytes n cmp then lowBytes n v else old) })

/-- Links and caches under firmware (R291, R296, R300, R313, R314, R316, R371): a write of a peer through an open window lands, through
a closed one it is refused; a peer's refusal, and no port for 2^24 cycles, end an access with a FATAL record; ports leave and join
the sets; an acknowledged store is performed; two equal neighbouring regions of the directory merge; the partition is resized and
an empty way is gated. -/
def Obligations.LinksAndCaches : Prop :=
  (∀ (s : State) (n : Nat) (w0 w1 w2 : Word), n < 4096 →
    ∃ s', exec (.inboundWindowTableWrite n w0 w1 w2) s = .next s' ∧
      getWindow s' n = { n := n, w0 := w0 &&& 0xF800FFFF0000FFFF, w1 := w1 &&& 0x01FFFFFFFFFFF000, w2 := w2 } ∧
      (∀ m, m ≠ n → getWindow s' m = getWindow s m) ∧ s'.mem = s.mem ∧ s'.threads = s.threads) ∧
  (∀ (s s1 : State) (x : LinkAccess) (b : Byte) (a : Nat), (∀ y ∈ s.fw.inbound, y.x ≠ x) →
    (windowRefuses (getWindow s x.win) x = true → exec (.inboundLinkAccess x) s = .next (emit s .linkRefused)) ∧
    (windowRefuses (getWindow s x.win) x = false → (∃ y ∈ s.fw.inbound, y.x.win = x.win) →
      exec (.inboundLinkAccess x) s = .next (accepting s x)) ∧
    (windowRefuses (getWindow s x.win) x = false → x.kind = .write → x.len = 1 → x.data = [b] → running s = true →
      (∀ y ∈ s.fw.inbound, y.x.win ≠ x.win) →
      translate (accepting s x) (.bench Config.benches) (acceptedAs s x).asid { write := true, store := true }
        ((acceptedAs s x).base + BitVec.ofNat 64 x.off) = .ok (.dev a) s1 →
      lineHold s1 (.dev (lineAddr a)) = none → noneWaits s1 (.dev (lineAddr a)) → hostStOf s1 (lineAddr a) = none →
      recallGate s1 (lineAddr a) = .go → s1.mem.poison.contains (lineAddr a) = false → s1.cache.dsums = [] →
      ∃ s' l, exec (.inboundLinkAccess x) s = .next s' ∧ s'.mem = { s1.mem with dev := writeBytes s1.mem.dev a [b] } ∧ evictions l ∧
        s'.fw.out = s.fw.out ++ l ++ [.linkDone] ∧ s'.fw.inbound = s.fw.inbound ∧ s'.threads = s.threads)) ∧
  (∀ (s : State) (t : Thread) (r : Req) (i : BitVec 2), Recordable s t r i → r.st = .peer →
    (∃ s', exec (.linkRefusal r.id) s = .next s' ∧ EndsFatal s' t r i stLinkRefused ∧ s'.mem = s.mem) ∧
    (findCmd s r.id = none → s.fw.portsUp = [] → s.fw.portsDownSince + 2 ^ 24 ≤ s.run.now →
      ∃ s', exec (.linkDownTimeout r.id) s = .next s' ∧ EndsFatal s' t r i stMemerr ∧ s'.mem = s.mem)) ∧
  (∀ (s : State) (c : Cmd), findCmd s c.id = some c → isLink c.kind = true → c.st = .started → c.status = 0 → portUp s c = false →
    c.downSince + 2 ^ 24 ≤ s.run.now → exec (.linkDownTimeout c.id) s = .next (putCmd s { c with status := 3 })) ∧
  (∀ (s : State) (port : Nat),
    (∃ s', exec (.linkPortDrop port) s = .next s' ∧ s'.fw.portsUp = s.fw.portsUp.filter (· != port) ∧ s'.threads = s.threads ∧
      s'.mem = s.mem ∧ (∀ c ∈ s'.eng.cmds, isLink c.kind = true → c.st = .started → port ∉ c.ports)) ∧
    (port < 16 → port ∉ s.fw.portsUp →
      exec (.linkPortUp port) s = .next { s with fw := { s.fw with portsUp := s.fw.portsUp ++ [port] } })) ∧
  (∀ (s : State) (r : Req) (p : Phys) (v : BitVec 1024), findReq s r.id = some r → r.st = .peer → r.pa = some p → r.ri = none →
    (r.op = .st →
      ∃ s', exec (.peerAcknowledgement r.id v) s = .next s' ∧ findReq s' r.id = none ∧ s'.threads = s.threads ∧ s'.mem = s.mem) ∧
    (∀ t, r.op = .ld → findThread s r.key = some t → inCl1 t = true → t.pend = none → t.ctx.frz = false → t.cancel = false →
      fatalRec t.trap = none → (∀ q ∈ s.flight.reqs, q.key = r.key → isUnrecorded q = false) →
      ∃ s', exec (.peerAcknowledgement r.id v) s = .next s' ∧ Landed s s' t r (lineBytes v (lineOff p) r.n))) ∧
  (∀ (s : State) (base size : Nat) (x y : DirEnt) (k : DirKind),
    (s.cache.dir.find? fun e => e.base == base && e.size == size) = some x →
    (s.cache.dir.find? fun e => e.base == base + size && e.size == size) = some y → mergeKind x.kind y.kind = some k →
    0 < size → size ≤ 32768 → base % (2 * size) = 0 → x.since + 2 ^ 20 ≤ s.run.now → y.since + 2 ^ 20 ≤ s.run.now →
    (∀ h ∈ holdsOf s, ∀ a, h.2.2.line = .dev a → a < base ∨ base + 2 * size ≤ a) →
    ∃ s', exec (.directoryRegionMerge base size) s = .next s' ∧ s'.cache.dir = (s.cache.dir.filter fun e => e != x && e != y) ++
      [{ base := base, size := 2 * size, kind := k, since := max x.since y.since }] ∧ s'.cache.l2 = s.cache.l2 ∧ s'.mem = s.mem) ∧
  (∀ (s : State) (steps : Nat), steps ≤ 16 →
    let s0 := { s with cache := { s.cache with part := steps } }
    (∃ s', exec (.llcContextPartitionResize steps) s = .next s' ∧ s'.cache.part = steps ∧ s'.mem.tiles = s.mem.tiles) ∧
    ((∀ i < 4, partUsed s0 i ≤ steps * 131072) → s.cache.llc = [] → (∀ x ∈ s.cache.l2, x.bench ≠ llcAgent) →
      exec (.llcContextPartitionResize steps) s = .next s0)) ∧
  (∀ (s : State) (lvl : CacheLevel) (way : Nat), wayExists lvl way = true →
    (s.cache.gated.contains (lvl, way) = false → (∀ p ∈ wayLines s lvl, lineHold s p = none) →
      ∃ s', exec (.cacheWayGate lvl way true) s = .next s' ∧ s'.cache.gated = s.cache.gated ++ [(lvl, way)] ∧ s'.threads = s.threads ∧
        (wayLines s lvl = [] → s'.cache = { s.cache with gated := s.cache.gated ++ [(lvl, way)] } ∧ s'.mem = s.mem)) ∧
    exec (.cacheWayGate lvl way false) s = .next { s with cache := { s.cache with gated := s.cache.gated.erase (lvl, way) } })

/-! Queues, packets, launches (16_queues_and_firmware). -/

namespace Sys2Proof.Spec

/-- The packet at the front of a queue whose front end works; the packet has no completion token. -/
structure AtFront (s : State) (q : Queue) (p : Packet) (t : PkTy) : Prop where
  queue : findQueue s q.fn q.qid = some q
  pk : q.pk = some p
  fault : p.fault = none
  runs : feRuns s q = true
  type : pkTy (p.words.headD 0) = some t
  token : pkCtok p = 0

/-- The packet at the front has completed: `RIDX` and `DONEPK` go up, no packet is fetched; nothing else but queues has
changed since `s` (R377, R383). -/
structure Passed (s s' : State) (q : Queue) : Prop where
  queue : ∃ x, findQueue s' q.fn q.qid = some x ∧ x.ridx = q.ridx + 1 ∧ x.donepk = q.donepk + 1 ∧ x.pk = none ∧ x.widx = q.widx ∧
    x.clslot = 0xFF ∧ x.doneAt = s.run.now
  others : ∀ f i, ¬ (f = q.fn ∧ i = q.qid) → findQueue s' f i = findQueue s f i
  mem : s'.mem = s.mem
  threads : s'.threads = s.threads
  reqs : s'.flight.reqs = s.flight.reqs
  waiters : s'.flight.waiters = s.flight.waiters
  eng : s'.eng = s.eng

/-- `RIDX` and `DONEPK` of the queue have gone up, and no packet is fetched (R377, R383). -/
def passes (s' : State) (q : Queue) : Prop :=
  ∃ x, findQueue s' q.fn q.qid = some x ∧ x.ridx = q.ridx + 1 ∧ x.donepk = q.donepk + 1 ∧ x.pk = none

/-- The queue is frozen with a reason and an address; memory and threads are as they were (R388). -/
def Frozen (s s' : State) (q : Queue) (reason : BitVec 8) (va : Word) : Prop :=
  (∃ x, findQueue s' q.fn q.qid = some x ∧ x.st = .frozen ∧ x.qerr = reason ∧ x.qeva = va) ∧ s'.mem = s.mem

end Sys2Proof.Spec

/-- Queues (R376, R378 to R380, R388, R390): a queue is created idle; a doorbell sets `WIDX` and makes it active, one that overruns the
ring freezes it; a waiting queue takes a free slot; a freeze and the watchdog give their reason; a destroyed queue without work is
gone. -/
def Obligations.QueueEvents : Prop :=
  (∀ (s : State) (fn qid : Nat) (x : QueueNew), fn ≤ 16 → qid < 4096 → 4 ≤ x.rsize.toNat → x.rsize.toNat ≤ 20 →
    s.pkg.verifyFailed = false → running s = true → findQueue s fn qid = none →
    ∃ s' q, exec (.queueCreate fn qid x) s = .next s' ∧ findQueue s' fn qid = some q ∧ q.st = .idle ∧ q.ridx = 0 ∧ q.widx = 0 ∧
      q.asid = x.asid ∧ q.rbase = x.rbase &&& ~~~127 ∧ q.rsize = x.rsize ∧ q.qprio = x.qprio ∧ q.tmo = x.tmo ∧ q.slot = none ∧
      s'.mem = s.mem ∧ s'.threads = s.threads) ∧
  (∀ (s : State) (q : Queue) (v : BitVec 32), findQueue s q.fn q.qid = some q → q.qid < 4096 → queueLive q = true →
    ((v - q.ridx).toNat ≤ 2 ^ q.rsize.toNat → q.slot.isSome = true →
      ∃ s' x, exec (.doorbellKick q.fn (8 * q.qid) 4 (v.setWidth 128)) s = .next s' ∧ findQueue s' q.fn q.qid = some x ∧
        x.widx = v ∧ x.ridx = q.ridx ∧ (q.ridx ≠ v → x.st = .active) ∧ s'.mem = s.mem ∧ s'.threads = s.threads) ∧
    (2 ^ q.rsize.toNat < (v - q.ridx).toNat →
      ∃ s', exec (.doorbellKick q.fn (8 * q.qid) 4 (v.setWidth 128)) s = .next s' ∧ Frozen s s' q 0x05 0)) ∧
  (∀ (s : State) (fn v : Nat), v ≤ 64 → fn ≤ 16 →
    ∃ s', exec (.qslotsWrite fn v) s = .next s' ∧ qslotsOf s' fn = v ∧ (∀ f, f ≠ fn → qslotsOf s' f = qslotsOf s f) ∧ s'.mem = s.mem) ∧
  (∀ (s : State) (q : Queue), s.queues.qs = [q] → isWaiting q = true → 0 < qslotsOf s q.fn →
    ∃ s' x, exec (.queueSlotEvaluate q.fn) s = .next s' ∧ findQueue s' q.fn q.qid = some x ∧ x.slot = some 0 ∧ x.pending = false ∧
      x.st = q.st ∧ x.ridx = q.ridx ∧ s'.mem = s.mem) ∧
  (∀ (s : State) (q : Queue), findQueue s q.fn q.qid = some q → queueLive q = true →
    (∀ r va, s.queues.due = [(q.fn, q.qid, r, va)] →
      ∃ s', exec (.queueFreeze q.fn q.qid) s = .next s' ∧ Frozen s s' q r va ∧ s'.queues.due = []) ∧
    (s.queues.due = [] → (∀ t ∈ s.threads, (t.ctx.frz && ofLaunches (launchesOf s q.fn q.qid) t) = false) →
      ∃ s', exec (.queueFreeze q.fn q.qid) s = .next s' ∧ Frozen s s' q 0x09 0) ∧
    (q.st = .active → q.tmo ≠ 0 → q.doneAt + q.tmo.toNat * 2 ^ 20 ≤ s.run.now →
      ∃ s', exec (.queueHangTimeout q.fn q.qid) s = .next s' ∧ Frozen s s' q 0x06 0) ∧
    (launchesOf s q.fn q.qid = [] → s.eng.cmds = [] →
      ∃ s' x, exec (.queueDestroy q.fn q.qid) s = .next s' ∧ findQueue s' q.fn q.qid = some x ∧ x.st = .destroying ∧
        s'.threads = s.threads ∧ s'.mem = s.mem)) ∧
  (∀ (s : State) (q : Queue), findQueue s q.fn q.qid = some q → q.st = .destroying → destroyed s q = true →
    ∃ s', exec (.queueDestroy q.fn q.qid) s = .next s' ∧ findQueue s' q.fn q.qid = none ∧ s'.threads = s.threads ∧ s'.mem = s.mem)

/-- Packets (R382 to R387). A packet without dependences is ready; a `BARRIER` completes; a `WAIT` reads its word, completes when its
condition holds and else reads again after 4,096 cycles; a `SIGNAL` makes its one access and completes; a `COPY` hands its command to
a copy engine and is passed. -/
def Obligations.PacketEvents : Prop :=
  (∀ (s : State) (q : Queue) (p : Packet) (t : PkTy), AtFront s q p t → p.st = .waiting → pkDeps t p = [] → q.incomplete = 0 →
    q.depdec ≠ 2 →
    ∃ s' x, exec (.dependenceResolve q.fn q.qid) s = .next s' ∧ findQueue s' q.fn q.qid = some x ∧ x.pk = some { p with st := .ready } ∧
      x.depdec = 1 ∧ x.ridx = q.ridx ∧ s'.mem = s.mem ∧ s'.flight = s.flight) ∧
  (∀ (s : State) (q : Queue) (p : Packet), AtFront s q p .barrier → p.st = .ready →
    ∃ s', exec (.barrier q.fn q.qid) s = .next s' ∧ Passed s s' q) ∧
  (∀ (s : State) (q : Queue) (p : Packet), AtFront s q p .wait →
    let reads := fun (s' : State) => ∃ x r, findQueue s' q.fn q.qid = some x ∧ x.pk = some { p with st := .reading } ∧
      s'.flight.reqs = s.flight.reqs ++ [r] ∧ r.op = .dep q.fn q.qid 8 ∧ r.va = pkFld p 1 0 64 ∧ r.n = 8 ∧ s'.mem = s.mem
    (p.st = .ready → ∃ s', exec (.wait q.fn q.qid) s = .next s' ∧ reads s') ∧
    (∀ v, p.st = .reading → (p.deps.find? fun d => d.1 == 8) = some (8, v) →
      (waitHolds p v = true → ∃ s', exec (.wait q.fn q.qid) s = .next s' ∧ Passed s s' q) ∧
      (waitHolds p v = false → ∃ s' x, exec (.wait q.fn q.qid) s = .next s' ∧ findQueue s' q.fn q.qid = some x ∧
        x.ridx = q.ridx ∧ (x.pk.map (·.st)) = some (.rereadAt (s.run.now + 4096)) ∧ s'.mem = s.mem)) ∧
    (∀ n, p.st = .rereadAt n → n ≤ s.run.now → ∃ s', exec (.waitReread q.fn q.qid) s = .next s' ∧ reads s')) ∧
  (∀ (s s1 : State) (q : Queue) (p : Packet) (a : Nat), AtFront s q p .signal → p.st = .ready →
    translate s (.bench (queueBench q)) q.asid tokenWant (pkFld p 1 0 64) = .ok (.dev a) s1 →
    s1.mem.poison.contains (a / 128 * 128) = false → lineHold s1 (lineOf (.dev a)) = none → noneWaits s1 (lineOf (.dev a)) →
    hostStOf s1 (a / 128 * 128) = none → recallGate s1 (a / 128 * 128) = .go → s1.cache.dsums = [] →
    (∀ w ∈ s1.flight.waiters, w.pa ≠ a) →
    (pkFld p 0 16 2 = 0 →
      ∃ s', exec (.signal q.fn q.qid) s = .next s' ∧
        s'.mem = setFull { s1.mem with dev := writeVal s1.mem.dev a 8 ((pkFld p 2 0 64).setWidth 128) } a ∧ passes s' q) ∧
    (pkFld p 0 16 2 = 2 →
      ∃ s', exec (.signal q.fn q.qid) s = .next s' ∧ s'.mem = setEmpty s1.mem a ∧ passes s' q)) ∧
  (∀ (s s1 : State) (q : Queue) (p : Packet) (w : Vec), AtFront s q p .signal → p.st = .ready →
    let v := (pkFld p 2 0 64).setWidth 128
    ((pkFld p 0 16 2 = 1 ∧ vAccess (dropStale s) (feWho q) (pkFld p 1 0 64) 8 (.amo .add .b64 v true) = .ok s1 w) ∨
      (pkFld p 0 16 2 = 3 ∧ vAccess (dropStale s) (feWho q) (pkFld p 1 0 64) 8 (.write v) = .ok s1 w)) →
    findQueue s1 q.fn q.qid = some q →
    ∃ s', exec (.signal q.fn q.qid) s = .next s' ∧ s'.mem = s1.mem ∧ passes s' q) ∧
  (∀ (s : State) (q : Queue) (p : Packet) (b : Nat), AtFront s q p .copy → p.st = .ready → enabledBench s (agentDie q) = some b →
    ∃ s' x c, exec (.copy q.fn q.qid) s = .next s' ∧ findQueue s' q.fn q.qid = some x ∧ x.ridx = q.ridx + 1 ∧
      x.incomplete = q.incomplete + 1 ∧ x.donepk = q.donepk ∧ x.pk = none ∧ c ∈ s'.eng.cmds ∧
      s'.eng.cmds.map (·.id) = s.eng.cmds.map (·.id) ++ [c.id] ∧
      c.kind = (if pkFld p 0 16 1 = 1 then .cred else .cpy) ∧ c.a = pkFld p 1 0 64 ∧ c.b = pkFld p 2 0 64 ∧ c.bench = b ∧
      c.packet = some (q.fn, q.qid) ∧ s'.mem = s.mem)

/-- Launches, cancellation and arbitration (R20, R334, R375, R385, R386, R389): a launch takes a slot; a crew of one thread, whose id the
front end holds or allocates now, is written with the registers of R385; the launch completes when its threads are gone; a cancelled thread's line is gone and its id returns; a time
slice lets one function's spaces run and suspends the others. -/
def Obligations.LaunchEvents : Prop :=
  (∀ (s s1 : State) (q : Queue) (p : Packet) (h : List Word) (n : Nat), AtFront s q p .launch → p.st = .ready → q.saving = false →
    feWords s (feWho q) (khdrVa p) 8 = .ok s1 h → hdrOk h = true → freeLaunchSlot s1 = some n → s1.queues = s.queues → n < 255 →
    ∃ s' x, exec (.launch q.fn q.qid) s = .next s' ∧ s'.queues.launches = s.queues.launches ++ [launchSlot q p h n] ∧
      findQueue s' q.fn q.qid = some x ∧ x.clslot.toNat = n ∧ x.pk = some { p with st := .writing } ∧ x.ridx = q.ridx ∧
      s'.threads = s1.threads ∧ s'.mem = s1.mem) ∧
  (∀ (s s0 s1 : State) (q : Queue) (l : LaunchSlot) (die b i : Nat) (id : BitVec 32), findQueue s q.fn q.qid = some q →
    writingLaunch s q = some l → die < 9 → feRuns s q = true → q.saving = false → s.pkg.diesDown.contains die = false →
    let c := (q.lprog.getD die 0).toNat
    c < crewCount l → crewThreads l c = [i] → feBegin s die q = some s0 →
    ((heldIds l die = some [id] ∧ s1 = s0) ∨
      (heldIds l die = none ∧ s1 = allocCrew s0 l die 1 ∧ idBusy s0 l.asid id = false ∧
        ∃ y, (findSpace s0 l.asid).bind (allocIds 1) = some ([id], y))) →
    crewBench s1 l die 1 = some b → cl2Used s1 b < Config.cl2Lines → findThread s1 ⟨l.asid, id⟩ = none →
    ∃ s' t, exec (.launchCrewPlace die q.fn q.qid) s = .next s' ∧ findThread s' ⟨l.asid, id⟩ = some t ∧ t.ctx = launchCtx l c i id ∧
      t.bench = b ∧ t.loc = .placed .cl2 ∧ findSpace s' l.asid = findSpace s1 l.asid ∧ s'.mem = s.mem) ∧
  (∀ (s : State) (q : Queue) (l : LaunchSlot), findQueue s q.fn q.qid = some q → l.fn = q.fn → l.qid = q.qid →
    s.queues.launches.find? (fun x => x.n == l.n) = some l → l.filled = false → l.cancelled = false → l.written = true → l.live = 0 →
    l.fault = none → l.ctok = 0 → running s = true → q.st ≠ .destroying →
    ∃ s' x, exec (.launchComplete l.n) s = .next s' ∧ (∀ y ∈ s'.queues.launches, y.n ≠ l.n) ∧ findQueue s' q.fn q.qid = some x ∧
      x.donepk = q.donepk + 1 ∧ x.incomplete = q.incomplete - 1 ∧ x.ridx = q.ridx ∧ s'.mem = s.mem ∧ s'.threads = s.threads) ∧
  (∀ (s : State) (t : Thread) (x : Space), findThread s t.key = some t → t.cancel = true → t.ctx.frz = false → cancelNow s t = true →
    findSpace s t.key.asid = some x → holdPlaces s t.key = [] → (∀ c ∈ s.eng.cmds, c.key ≠ t.key) → (∀ y ∈ s.spaces, y.cmdSave = []) →
    ∃ s' y, exec (.threadCancel t.key) s = .next s' ∧ findThread s' t.key = none ∧ (∀ k, k ≠ t.key → findThread s' k = findThread s k) ∧
      findSpace s' t.key.asid = some y ∧ y.free = t.key.ctx :: x.free ∧ y.live = x.live - 1 ∧ s'.mem = s.mem) ∧
  (∀ (s : State) (p q : Queue) (x y : Space), s.queues.qs = [p, q] → p.fn ≤ 16 → p.fn ≠ q.fn → p.asid ≠ q.asid → s.threads = [] →
    s.flight.reqs = [] → s.eng.cmds = [] → findSpace s p.asid = some x → findSpace s q.asid = some y → x.cmdSave = [] → x.strmSave = [] →
    (s.fw.exclusive = true →
      ∃ s' x' y', exec (.timeSliceExpiry p.fn) s = .next s' ∧ findSpace s' p.asid = some x' ∧ x'.susp = false ∧
        findSpace s' q.asid = some y' ∧ y'.susp = true ∧ s'.fw.function = p.fn ∧ s'.mem = s.mem) ∧
    (∀ ms, 1 ≤ ms → ms ≤ 1000 → s.fw.function = p.fn →
      ∃ s' x' y', exec (.exclusiveModeSelect true ms) s = .next s' ∧ s'.fw.exclusive = true ∧ s'.fw.sliceMs = ms ∧
        findSpace s' p.asid = some x' ∧ x'.susp = false ∧ findSpace s' q.asid = some y' ∧ y'.susp = true ∧ s'.mem = s.mem)) ∧
  (∀ (s : State) (ms : Nat), 1 ≤ ms → ms ≤ 1000 → s.fw.exclusive = false →
    exec (.exclusiveModeSelect false ms) s = .next { s with fw := { s.fw with exclusive := false, sliceMs := ms } })

/-! Power, resets, management, the SPDM responder (18_package_power_bringup). -/

/-- Power, clock, thermal limits, errors and management (R404 to R410): each event changes its own part of the package, within the
limits of the clock; a thermal trip turns the rails off and the host sees the link go down; the fatal state stops the module; a
corrected error is counted, an uncorrectable one poisons its line, freezes the thread of its context line, loses its frame, or
empties its weight bank (R365, R374; which error is met comes from outside the machine, `run.damages`,
log 95); a replay is counted, or a failure is. -/
def Obligations.PowerEvents : Prop :=
  ∀ (s : State),
    (∀ m, running s = true → exec (.powerModeChange m) s = .next { s with pkg := { s.pkg with mode := m } }) ∧
    (running s = true → ∀ i ∈ [Instr.clockStepDown, .thermalThrottle],
      exec i s = .next { s with pkg := { s.pkg with clockMHz := max 800 (s.pkg.clockMHz - 100) } }) ∧
    (running s = true → exec .clockStepUp s = .next { s with pkg := { s.pkg with clockMHz := min 1600 (s.pkg.clockMHz + 100) } }) ∧
    (s.pkg.rails = true → ∃ s', exec .thermalTrip s = .next s' ∧ s'.pkg = { s.pkg with rails := false } ∧ running s' = false ∧
      s'.fw.out = s.fw.out ++ [.surpriseDown] ∧ s'.mem = s.mem ∧ s'.threads = s.threads) ∧
    (∀ cause, running s = true →
      ∃ s', exec (.moduleFatal cause) s = .next s' ∧ s'.pkg = { s.pkg with fatal := some cause } ∧ running s' = false ∧
        s'.fw.out = s.fw.out ++ [.aer] ∧ s'.mem = s.mem ∧ (s.queues.qs = [] → s'.threads = s.threads)) ∧
    (running s = true → (∀ h ∈ holdsOf s, isDev h.2.2.line = false) → s.run.damages = [] →
      ∃ n, exec .patrolScrub s = .next { s with
        run := { s.run with fresh := s.run.fresh + 1 }, pkg := { s.pkg with corrected := s.pkg.corrected + n } }) ∧
    (∀ n rest, running s = true → (∀ h ∈ holdsOf s, isDev h.2.2.line = false) → s.run.damages = .corrected n :: rest →
      exec .patrolScrub s = .next { s with
        run := { s.run with damages := rest }, pkg := { s.pkg with corrected := s.pkg.corrected + n } }) ∧
    (∀ a rest, running s = true → s.run.damages = .line a :: rest → lineHold s (.dev (lineAddr a)) = none →
      a < Config.hbmBytes → lineAddr a ∉ s.mem.poison →
      exec .patrolScrub s = .next { s with
        run := { s.run with damages := rest }, mem := { s.mem with poison := s.mem.poison ++ [lineAddr a] } }) ∧
    (∀ t rest, running s = true → s.run.damages = .context t.key :: rest → findThread s t.key = some t → t.ctx.frz = false →
      ∃ s' x, exec .patrolScrub s = .next s' ∧ findThread s' t.key = some x ∧ x.ctx.frz = true ∧ x.trap = t.trap ∧
        s'.fw.notes = s.fw.notes ++ [{ cause := 0x21, detail := 0, va := 0, key := t.key, lslot := t.ctx.lslot, bench := t.bench }]) ∧
    (∀ asid x i j rest, running s = true → s.run.damages = .frame asid i j :: rest → findSpace s asid = some x →
      (getHandle x i).v = true → j < (getHandle x i).nfr.toNat → j < 8 →
      ∃ s' y, exec .patrolScrub s = .next s' ∧ findSpace s' asid = some y ∧ (getHandle y i).lost.getLsbD j = true ∧
        resident (getHandle y i) j = false ∧ s'.mem = s.mem ∧ s'.threads = s.threads) ∧
    (∀ b g bank rest, running s = true → s.run.damages = .weights b g bank :: rest →
      ∃ s', exec .patrolScrub s = .next s' ∧ (getBank (getMat s' b g) bank).tag = none ∧ s'.mem = s.mem ∧
        s'.threads = s.threads ∧ ∀ c, findCmd s c.id = some c → (∀ d ∈ s.eng.cmds, d.id = c.id → d = c) → readsBank s b g bank c = true →
          findCmd s' c.id = some { c with status := 3 }) ∧
    (∀ socket, running s = true → socketUsed socket = true → flitCount s socket + 1 < 16 →
      ∃ s', exec (.linkFlitReplay socket) s = .next s' ∧ s'.mem = s.mem ∧ s'.threads = s.threads ∧
        ((s'.pkg.corrected = s.pkg.corrected + 1 ∧ flitCount s' socket = 0) ∨
          (s'.pkg.corrected = s.pkg.corrected ∧ flitCount s' socket = flitCount s socket + 1))) ∧
    (s.pkg.rails = true →
      exec .configurationRequest s = .next (emit s (if s.pkg.stage = 7 then .configDone else .configRetry)) ∧
      exec (.mctpManagementMessage .mode) s = .next (emit s (.mgmt 2 [modeCode s.pkg.mode])) ∧
      exec (.mctpManagementMessage .clock) s = .next (emit s (.mgmt 3 [s.pkg.clockMHz]))) ∧
    (s.pkg.verifyFailed = true → exec (.recoveryImageLoad true) s = .next { s with pkg := { s.pkg with verifyFailed := false } })

/-- Resets (R403, R409): a die reset takes the lines, copies, translations and commands of the die, and poisons the lines of which
it had the only dirty copy; afterwards the die is up and the ids return. A full reset empties the machine and begins the bring-up,
whose steps follow in order, with an image verified at steps 1 and 6. -/
def Obligations.ResetEvents : Prop :=
  (∀ (s : State) (d : Nat), d < 9 → s.pkg.diesDown.contains d = false → running s = true →
    ∃ s', exec (.computeDieReset d) s = .next s' ∧ s'.pkg.diesDown = s.pkg.diesDown ++ [d] ∧
      (∀ t ∈ s'.threads, lineOnDie d t = false) ∧ (∀ x ∈ s'.cache.l1, onDie d x.bench = false) ∧
      (∀ x ∈ s'.cache.icache, onDie d x.bench = false) ∧ (∀ x ∈ s'.cache.dsums, onDie d x.bench = false) ∧
      (∀ c ∈ s'.eng.cmds, onDie d c.bench = false) ∧
      (∀ x ∈ s.cache.l2, ∀ a, x.line = .dev a → onDie d x.bench = true → x.bench ≠ llcAgent → (x.st = .m ∨ x.st = .o ∨ x.st = .d) →
        a ∈ s'.mem.poison) ∧
      s'.mem.dev = s.mem.dev ∧ s'.mem.empty = s.mem.empty) ∧
  (∀ (s : State) (d : Nat), s.pkg.diesDown.contains d = true →
    ∃ s', exec (.computeDieResetComplete d) s = .next s' ∧ s'.pkg.diesDown = s.pkg.diesDown.filter (· != d) ∧
      s'.pkg.lostIds = s.pkg.lostIds.filter (·.1 != d) ∧ s'.mem = s.mem ∧ s'.threads = s.threads ∧
      (∀ k, (d, k) ∈ s.pkg.lostIds → ∀ x, findSpace s' k.asid = some x → k.ctx ∈ x.free) ∧
      ((∀ k, (d, k) ∉ s.pkg.lostIds) → s'.spaces = s.spaces)) ∧
  (∀ (s : State),
    (s.pkg.stage = 7 →
      ∃ s', exec .powerOnReset s = .next s' ∧ s'.threads = [] ∧ s'.spaces = [] ∧ s'.mem = State.reset.mem ∧
        s'.queues = State.reset.queues ∧ s'.flight = State.reset.flight ∧ s'.ius = [] ∧
        (s'.pkg.stage = 1 ∧ s'.pkg.verifyFailed = false ∨ s'.pkg.stage = 7 ∧ s'.pkg.verifyFailed = true)) ∧
    (s.pkg.stage ∈ [1, 2, 3, 4, 6] →
      ∃ s', exec .powerOnReset s = .next s' ∧ s'.pkg = { s.pkg with stage := s.pkg.stage + 1 } ∧ s'.mem = s.mem ∧ s'.threads = s.threads) ∧
    (s.pkg.stage ∈ [0, 5] →
      ∃ s', exec .powerOnReset s = .next s' ∧ s'.mem = s.mem ∧ s'.threads = s.threads ∧
        (s'.pkg = { s.pkg with stage := s.pkg.stage + 1 } ∨ s'.pkg = { s.pkg with stage := 7, verifyFailed := true })))

/-- The SPDM responder (R411): a connection begins with `GET_VERSION` and negotiates P-384 and SHA-384; a session begins with
`KEY_EXCHANGE`, `FINISH` completes it and `END_SESSION` ends it; a request out of order is answered with ERROR, and so is a slot other
than 0. The bytes of an answer are the device's own. -/
def Obligations.SpdmResponder : Prop :=
  ∀ (s : State), s.pkg.rails = true →
    let answers := fun (i : Instr) (code : Nat) (x : Spdm) => ∃ s' bs, exec i s = .next s' ∧ s'.fw.out = s.fw.out ++ [.spdm code bs] ∧
      s'.pkg = { s.pkg with spdm := x } ∧ s'.mem = s.mem ∧ s'.threads = s.threads
    let refuses := fun (i : Instr) => exec i s = .next (emit s .spdmError)
    let d := s.pkg.spdm
    answers .getVersion 0x04 { version := true } ∧
    (if d.version then answers .getCapabilities 0x61 { d with caps := true } else refuses .getCapabilities) ∧
    (if d.caps then answers (.negotiateAlgorithms true true) 0x63 { d with algs := true } else refuses (.negotiateAlgorithms true true)) ∧
    refuses (.negotiateAlgorithms false true) ∧
    (if d.algs then answers .getDigests 0x01 d ∧ answers (.getCertificate 0) 0x02 d ∧ answers (.challenge 0) 0x03 d ∧
        (∀ i, 1 ≤ i → i ≤ 4 → answers (.getMeasurements i) 0x60 d) ∧ answers .keyExchange 0x64 { d with session := true, finished := false }
      else refuses .getDigests ∧ refuses (.getCertificate 0) ∧ refuses (.challenge 0) ∧ refuses .keyExchange) ∧
    (∀ n, n ≠ 0 → refuses (.getCertificate n) ∧ refuses (.challenge n)) ∧
    (if d.session then answers .finish 0x65 { d with finished := true } else refuses .finish) ∧
    (if d.session && d.finished then answers .endSession 0x6C { d with session := false, finished := false } else refuses .endSession)

/-! The machine as a whole: encodings, illegal words, reset, memory, rounding, translation (00 to 04, 11, 14). -/

namespace Sys2Proof.Spec

/-- An instruction word from its three 32-bit words, the one at the PC first (R48). -/
def word (w0 w1 w2 : BitVec 32) : IWord := w2 ++ w1 ++ w0

/-- Words written out from the encoding tables, with the instructions they stand for: opcode and header in bits 16 to 0, D in
25:19, A in 32:26, B in 39:33 (R49), the rest by class (R57, R63 to R65, R70). -/
def writtenOut : List (IWord × Instr) :=
  -- ADD.n64 s1, s2, 100: D 1, A 2, TY 0x09, F 1, IMM32 100
  [(word 0x08080001 0x80240000 100, .add {} { ty := .n64, d := .s 1, a := .s 2, b := .imm32 100 }),
   -- DBNZ s1, -3
   (word 0x00080087 0 0xFFFFFFFD, .dbnz {} (.s 1) 0xFFFFFFFD),
   -- CALL -6
   (word 0x00000084 0 0xFFFFFFFA, .call {} 0xFFFFFFFA),
   -- FADD.f32.x4.rup v1, v2, v3: codes 5, 6, 7, TY 0x10, SH 2, F3 4
   (word 0x18280100 0x1140000E 0, .fadd {} { ty := .f32, sh := .x4, rm := some .rup, d := .v 1, a := .v 2, b := .v 3 }),
   -- LD.b64.acq s1, s2 + s0 * 8 + 64: SC 3, SCP 1, ORD 1
   (word 0x08080180 0x51800000 64,
     .ld {} { ty := .b64, ord := .acq, scp := .bench, d := .s 1, mem := { base := .s 2, idx := .s 0, sh := 3, disp := 64 } }),
   -- FENCE.ar.sys with the guard not p3
   (word 0x00002D85 0xE0000000 0, .fence { g := 3, n := true } .ar .sys),
   -- STF s3 into the word at s1
   (word 0x04180188 0x00000020 0, .stf {} { d := .s 3, mem := { base := .s 1 } }),
   -- MMA.sbf8 s0, s1, s2 with C s3, NP 4, INIT
   (word 0x04000211 0x07340004 1, .mma {} { ty := .sbf8, np := 4, init := true, d := .s 0, a := .s 1, b := .s 2, c := .s 3 }),
   -- CPRB s1 in the volume at s2, coordinates v3
   (word 0x08080293 0x0000000E 0, .cprb {} (.s 1) (.s 2) 0 (.v 3)),
   -- TRAP s2, 5, with the switch marker
   (word 0x08004307 0 5, .trap { w := true } (.s 2) 5),
   -- CSRW 0x101 from s1
   (word 0x0400030B 0 0x101, .csrw {} (.s 1) 0x101)]

/-- The scalar form of `ADD.b64` with any codes in D, A and B, and with any X. -/
def addWord (d a b : BitVec 7) (x : BitVec 56) : IWord := x ++ b ++ a ++ d ++ (0x00001 : BitVec 19)

/-- The reason of R77 for a code in a source of kind scalar, if it is refused (R52, R54). -/
def srcReason (c : BitVec 7) : Option (BitVec 8) :=
  if 4 ≤ c.toNat ∧ c.toNat < 16 then some 0x06 else if 0x15 ≤ c.toNat ∧ c.toNat < 0x40 then some 0x01 else none

/-- The same for a destination. -/
def dstReason (c : BitVec 7) : Option (BitVec 8) :=
  if 0x40 ≤ c.toNat then some 0x02 else if 0x11 ≤ c.toNat ∧ c.toNat < 0x15 then some 0x03 else srcReason c

/-- The unassigned opcodes of R73. -/
def unassigned (o : Nat) : Prop :=
  (0x024 ≤ o ∧ o ≤ 0x07F) ∨ (0x089 ≤ o ∧ o ≤ 0x0FF) ∨ (0x118 ≤ o ∧ o ≤ 0x17F) ∨ (0x191 ≤ o ∧ o ≤ 0x1FF) ∨ (0x207 ≤ o ∧ o ≤ 0x20F) ∨
    (0x215 ≤ o ∧ o ≤ 0x27F) ∨ (0x287 ≤ o ∧ o ≤ 0x28F) ∨ (0x297 ≤ o ∧ o ≤ 0x29F) ∨ (0x2A5 ≤ o ∧ o ≤ 0x2FF) ∨ (0x30E ≤ o ∧ o ≤ 0x3FF)

end Sys2Proof.Spec

/-- Words written out from the encoding tables decode to the instructions they stand for (R48, R49, R57, R65, R70). -/
def Obligations.DecodingRight : Prop := ∀ p ∈ writtenOut, Decode.decode p.1 = .ok p.2

/-- Encoding and decoding agree: the word of every well-formed instruction, with every operand at every value, decodes to it, and so
do its 12 bytes at the front of any bytes. -/
def Obligations.DecodeEncode : Prop :=
  ∀ i, wellFormed i = true → Decode.decode (Decode.encode i) = .ok i ∧
    ∀ l, Decode.decodeBytes (Decode.bytesOfWord (Decode.encode i) ++ l) = .ok (i, l)

/-- Words that are no instruction (R71, R73 to R77): a zero opcode, an unassigned one, bit 63 in a class R instruction, the lowest
reserved bit, a reserved type, and the first refused operand, each with its cause and detail. -/
def Obligations.IllegalWords : Prop :=
  (∀ w : IWord, (w.toNat % 1024 = 0 → Decode.decode w = .error ⟨0x01, 0x010000⟩) ∧
    (unassigned (w.toNat % 1024) → Decode.decode w = .error ⟨0x01, 0x020000⟩) ∧
    (0x100 ≤ w.toNat % 1024 → w.toNat % 1024 ≤ 0x117 → w.getLsbD 63 = true → Decode.decode w = .error ⟨0x01, 0x030000⟩) ∧
    (∀ k, 0x005 ≤ w.toNat % 1024 → w.toNat % 1024 ≤ 0x012 → w.getLsbD 63 = false →
      let reserved := fun j => j = 17 ∨ j = 18 ∨ (40 ≤ j ∧ j ≤ 49) ∨ (58 ≤ j ∧ j ≤ 62) ∨ (64 ≤ j ∧ j ≤ 95)
      reserved k → w.getLsbD k = true → (∀ j < k, reserved j → w.getLsbD j = false) →
      Decode.decode w = .error ⟨0x01, (0x04 : BitVec 8) ++ BitVec.ofNat 8 k ++ (0 : BitVec 8)⟩)) ∧
  (∀ (d a b : BitVec 7) (ty : BitVec 5), 0x15 ≤ ty.toNat →
    Decode.decode (addWord d a b ((0 : BitVec 41) ++ ty ++ (0 : BitVec 10))) = .error ⟨0x01, 0x053200⟩) ∧
  (∀ d a b : BitVec 7,
    Decode.decode (addWord d a b 0) = match dstReason d, srcReason a, srcReason b with
      | some r, _, _ => .error ⟨0x02, r ++ (0x0001 : BitVec 16)⟩
      | none, some r, _ => .error ⟨0x02, r ++ (0x0002 : BitVec 16)⟩
      | none, none, some r => .error ⟨0x02, r ++ (0x0003 : BitVec 16)⟩
      | none, none, none => .ok (.add {} { ty := .b64, d := Decode.opd d, a := Decode.opd a, b := .opd (Decode.opd b) }))

/-- What bring-up leaves (R38, R339, R404, R405, R409): every byte of device memory zero, every full/empty bit set, caches, directories,
wait lists and TLBs empty, context partition 0, issue units at their reset values, no thread, Full mode at 1,600 MHz. That host
memory, too, reads zero and that reset is the state after step 7 are the model's choices (log 3, log 9). -/
def Obligations.ResetState : Prop :=
  let s := State.reset
  (∀ a, cellRead s.mem.dev a = 0 ∧ isFull s.mem a = true) ∧ s.mem.poison = [] ∧ s.threads = [] ∧ s.spaces = [] ∧
    s.cache.l1 = [] ∧ s.cache.l2 = [] ∧ s.cache.dsums = [] ∧ s.cache.dir = [] ∧ s.cache.part = 0 ∧ s.flight.waiters = [] ∧ s.mmu.tlb = [] ∧
    (∀ b u, (getIu s b u).cfg = 0x010000C0 ∧ iuEnabled (getIu s b u) = true ∧ (∀ i, i < 16 → (getIu s b u).perf.getD i 1 = 0) ∧
      (getIu s b u).queue = [] ∧ cycleOf s b u = 0) ∧
    (∀ b g, (getMat s b g).bank0.tag = none ∧ (getMat s b g).bank1.tag = none) ∧
    s.pkg.stage = 7 ∧ s.pkg.mode = .full ∧ s.pkg.clockMHz = 1600 ∧ running s = true ∧ s.memOk = true ∧ s.linesOk = true

/-- Memory (R5, R38, R276): what is written is read back, little-endian; every other byte, and every full/empty bit, stays; a full/empty
bit is what was last put there; every write keeps the one canonical form, in which equal memories are equal lists. -/
def Obligations.MemoryLaws : Prop :=
  (∀ (l : List Host.Cell) (a n : Nat) (v : Vec), cellsWf l = true → n ≤ 16 →
    cellsWf (writeVal l a n v) = true ∧ readVal (writeVal l a n v) a n = v &&& (BitVec.allOnes 128 >>> (128 - 8 * n)) ∧
    (∀ i < n, cellRead (writeVal l a n v) (a + i) = v.extractLsb' (8 * i) 8) ∧
    (∀ x, (x < a ∨ a + n ≤ x) → cellRead (writeVal l a n v) x = cellRead l x)) ∧
  (∀ (m : Mem) (p : Phys) (n : Nat) (v : Vec), Memory.wf m = true →
    Memory.wf (physWrite m p n v) = true ∧ ∀ a, isFull (physWrite m p n v) a = isFull m a) ∧
  (∀ (m : Mem) (a b : Nat), Memory.wf m = true → Memory.wf (setFull m a) = true ∧ Memory.wf (setEmpty m a) = true ∧
    isFull (setFull m a) b = (decide (a / 8 = b / 8) || isFull m b) ∧
    isFull (setEmpty m a) b = (decide (a / 8 ≠ b / 8) && isFull m b)) ∧
  (∀ l k : List Host.Cell, cellsWf l = true → cellsWf k = true → (∀ a, cellRead l a = cellRead k a) → l = k)

namespace Sys2Proof.Spec

/-- The sign that a magnitude has. -/
def signed (neg : Bool) (n : Nat) : Int := if neg then -(n : Int) else n

end Sys2Proof.Spec

/-- Rounding (R101, R103 to R105): an exact value `n / 2^k` is rounded once, to the integer that the mode names, and is inexact when
bits are lost; a value of a format rounds to its own pattern with no flag; a NaN operand gives the first NaN, quietened, and NV
when any is signalling; ∞ − ∞, 0 × ∞, 0 / 0, ∞ / ∞ give the canonical NaN with NV, and a division of a number by 0 gives ∞
with DZ. -/
def Obligations.FloatRules : Prop :=
  (∀ (m : RMode) (neg : Bool) (n k : Nat),
    let r := roundShift m neg n k
    let v := Spec.signed neg n
    let w : Int := Spec.signed neg r.1 * 2 ^ k
    (r.2 = true ↔ n % 2 ^ k ≠ 0) ∧ (r.2 = false → w = v) ∧ (w - v < 2 ^ k ∧ v - w < 2 ^ k) ∧
    (m = .rtz → w.natAbs ≤ v.natAbs) ∧ (m = .rdn → w ≤ v) ∧ (m = .rup → v ≤ w) ∧
    (m = .rne → 2 * (w - v).natAbs ≤ 2 ^ k ∧ (2 * (w - v).natAbs = 2 ^ k → r.1 % 2 = 0)) ∧
    (m = .rmm → 2 * (w - v).natAbs ≤ 2 ^ k ∧ (2 * (w - v).natAbs = 2 ^ k → v.natAbs < w.natAbs))) ∧
  (∀ ty ∈ [Ty.f16, .bf16, .f32, .f64], let f := ffOf ty
    (∀ (v : Fenv) (b n : Nat) (neg : Bool) (x : Int), b < 2 ^ width ty → ffVal f b = .num neg n x → v.ufEn = false →
      ffRound f v neg n x = (b, 0)) ∧
    (∀ (v : Fenv) (sub : Bool) (a b : Nat) (p q : Bool),
      (ffVal f a = .nan p → (ffAdd f v sub a b).1 = ffQuiet f a ∧ (ffMul f v a b).1 = ffQuiet f a ∧ (ffDiv f v a b).1 = ffQuiet f a) ∧
      (ffVal f a = .nan p → ffVal f b = .nan q → (ffAdd f v sub a b).2 = if p || q then 16 else 0) ∧
      (ffVal f a = .inf p → ffVal f b = .inf q →
        ffAdd f v true a b = (if p = q then (ffQnan f, 16) else (ffInf f p, 0)) ∧ ffDiv f v a b = (ffQnan f, 16)) ∧
      (∀ x, ffVal f a = .inf p → ffVal f b = .num q 0 x → ffMul f v a b = (ffQnan f, 16) ∧ ffMul f v b a = (ffQnan f, 16)) ∧
      (∀ x n y, ffVal f a = .num p n x → ffVal f b = .num q 0 y →
        ffDiv f v a b = if n = 0 then (ffQnan f, 16) else (ffInf f (p ^^ q), 8))))

/-- No access reaches a location without a leaf of its address space that permits it, and translating writes nothing but the bits `A`
and `D` of one page-table entry (R176, R342 to R345, R348): the leaf is a cached one of the same `ASID` that covers the address, or the
one that the walk from `PTROOT` ends in. A non-canonical address, and a store to an isolated range, end before any walk. -/
def Obligations.TranslationPermits : Prop :=
  ∀ (s : State) (l : TlbAt) (asid : BitVec 16) (k : Want) (va : Word) (sp : Space), findSpace s asid = some sp →
    (2 ^ 57 ≤ va.toNat → translate s l asid k va = .bad 0x03) ∧
    (va.toNat < 2 ^ 57 → k.store = true → isolated sp va.toNat = true → translate s l asid k va = .bad 0x02) ∧
    (∀ p s1, cellsWf s.mem.dev = true → translate s l asid k va = .ok p s1 →
      va.toNat < 2 ^ 57 ∧ (k.store = true → isolated sp va.toNat = false) ∧
      (∃ e bits, permits e k = true ∧ p = leafPhys va.toNat e bits ∧
        ((∃ x ∈ s.mmu.tlb, x.asid = asid ∧ x.base ≤ va.toNat ∧ va.toNat < x.base + x.size ∧ x.pte = e) ∨
          (∃ lv a, walk s va.toNat 5 (sp.ptroot.toNat * 4096) = .leaf lv a e ∧ bits = pageBits lv (pteC64 e)))) ∧
      (∃ (a : Nat) (m : Byte), (m = 0 ∨ m = 0x40 ∨ m = 0x60) ∧
        ∀ x, cellRead s1.mem.dev x = if x = a then cellRead s.mem.dev x ||| m else cellRead s.mem.dev x) ∧
      s1.mem = { s.mem with dev := s1.mem.dev } ∧ s1.threads = s.threads ∧ s1.spaces = s.spaces ∧ s1.flight = s.flight ∧
      s1.cache = s.cache ∧ s1.eng = s.eng ∧ s1.queues = s.queues ∧ s1.fw = s.fw ∧ s1.pkg = s.pkg)

/-! An invariant of every step. -/

/-- Every instruction, every event and every step keeps memory in its one canonical form: no byte is listed twice, none that reads as an
unlisted one, and the empty words rise strictly; so equal memories stay equal states (the form is the model's, log 77). -/
def Obligations.StepKeepsMemory : Prop :=
  (∀ (i : Instr) (s s' : State), s.memOk = true → exec i s = .next s' → s'.memOk = true) ∧
  (∀ s s' : State, s.memOk = true → step s = .next s' → s'.memOk = true)

end
end

