-- ==== Sys2Proof/Laws/State.lean ====
section
/-! SUPPORT. What the small updates of the state leave as it is: one lemma a field. -/

namespace Sys2Proof.Machine

@[simp] theorem setThread_run (s : State) (t : Thread) : (setThread s t).run = s.run := rfl
@[simp] theorem setThread_spaces (s : State) (t : Thread) : (setThread s t).spaces = s.spaces := rfl
@[simp] theorem setThread_mem (s : State) (t : Thread) : (setThread s t).mem = s.mem := rfl
@[simp] theorem setThread_cache (s : State) (t : Thread) : (setThread s t).cache = s.cache := rfl
@[simp] theorem setThread_mmu (s : State) (t : Thread) : (setThread s t).mmu = s.mmu := rfl
@[simp] theorem setThread_flight (s : State) (t : Thread) : (setThread s t).flight = s.flight := rfl
@[simp] theorem setThread_ius (s : State) (t : Thread) : (setThread s t).ius = s.ius := rfl
@[simp] theorem setThread_eng (s : State) (t : Thread) : (setThread s t).eng = s.eng := rfl
@[simp] theorem setThread_queues (s : State) (t : Thread) : (setThread s t).queues = s.queues := rfl
@[simp] theorem setThread_fw (s : State) (t : Thread) : (setThread s t).fw = s.fw := rfl
@[simp] theorem setThread_pkg (s : State) (t : Thread) : (setThread s t).pkg = s.pkg := rfl

@[simp] theorem addThread_run (s : State) (t : Thread) : (addThread s t).run = s.run := rfl
@[simp] theorem addThread_spaces (s : State) (t : Thread) : (addThread s t).spaces = s.spaces := rfl
@[simp] theorem addThread_mem (s : State) (t : Thread) : (addThread s t).mem = s.mem := rfl
@[simp] theorem addThread_cache (s : State) (t : Thread) : (addThread s t).cache = s.cache := rfl
@[simp] theorem addThread_mmu (s : State) (t : Thread) : (addThread s t).mmu = s.mmu := rfl
@[simp] theorem addThread_flight (s : State) (t : Thread) : (addThread s t).flight = s.flight := rfl
@[simp] theorem addThread_ius (s : State) (t : Thread) : (addThread s t).ius = s.ius := rfl
@[simp] theorem addThread_eng (s : State) (t : Thread) : (addThread s t).eng = s.eng := rfl
@[simp] theorem addThread_queues (s : State) (t : Thread) : (addThread s t).queues = s.queues := rfl
@[simp] theorem addThread_fw (s : State) (t : Thread) : (addThread s t).fw = s.fw := rfl
@[simp] theorem addThread_pkg (s : State) (t : Thread) : (addThread s t).pkg = s.pkg := rfl

@[simp] theorem dropThread_run (s : State) (k : Key) : (dropThread s k).run = s.run := rfl
@[simp] theorem dropThread_spaces (s : State) (k : Key) : (dropThread s k).spaces = s.spaces := rfl
@[simp] theorem dropThread_mem (s : State) (k : Key) : (dropThread s k).mem = s.mem := rfl
@[simp] theorem dropThread_cache (s : State) (k : Key) : (dropThread s k).cache = s.cache := rfl
@[simp] theorem dropThread_mmu (s : State) (k : Key) : (dropThread s k).mmu = s.mmu := rfl
@[simp] theorem dropThread_flight (s : State) (k : Key) : (dropThread s k).flight = s.flight := rfl
@[simp] theorem dropThread_ius (s : State) (k : Key) : (dropThread s k).ius = s.ius := rfl
@[simp] theorem dropThread_eng (s : State) (k : Key) : (dropThread s k).eng = s.eng := rfl
@[simp] theorem dropThread_queues (s : State) (k : Key) : (dropThread s k).queues = s.queues := rfl
@[simp] theorem dropThread_fw (s : State) (k : Key) : (dropThread s k).fw = s.fw := rfl
@[simp] theorem dropThread_pkg (s : State) (k : Key) : (dropThread s k).pkg = s.pkg := rfl

@[simp] theorem onThread_run (s : State) (k : Key) (f : Thread → Thread) : (onThread s k f).run = s.run := rfl
@[simp] theorem onThread_spaces (s : State) (k : Key) (f : Thread → Thread) : (onThread s k f).spaces = s.spaces := rfl
@[simp] theorem onThread_mem (s : State) (k : Key) (f : Thread → Thread) : (onThread s k f).mem = s.mem := rfl
@[simp] theorem onThread_cache (s : State) (k : Key) (f : Thread → Thread) : (onThread s k f).cache = s.cache := rfl
@[simp] theorem onThread_mmu (s : State) (k : Key) (f : Thread → Thread) : (onThread s k f).mmu = s.mmu := rfl
@[simp] theorem onThread_flight (s : State) (k : Key) (f : Thread → Thread) : (onThread s k f).flight = s.flight := rfl
@[simp] theorem onThread_ius (s : State) (k : Key) (f : Thread → Thread) : (onThread s k f).ius = s.ius := rfl
@[simp] theorem onThread_eng (s : State) (k : Key) (f : Thread → Thread) : (onThread s k f).eng = s.eng := rfl
@[simp] theorem onThread_queues (s : State) (k : Key) (f : Thread → Thread) : (onThread s k f).queues = s.queues := rfl
@[simp] theorem onThread_fw (s : State) (k : Key) (f : Thread → Thread) : (onThread s k f).fw = s.fw := rfl
@[simp] theorem onThread_pkg (s : State) (k : Key) (f : Thread → Thread) : (onThread s k f).pkg = s.pkg := rfl

@[simp] theorem setSpace_run (s : State) (x : Space) : (setSpace s x).run = s.run := rfl
@[simp] theorem setSpace_threads (s : State) (x : Space) : (setSpace s x).threads = s.threads := rfl
@[simp] theorem setSpace_mem (s : State) (x : Space) : (setSpace s x).mem = s.mem := rfl
@[simp] theorem setSpace_cache (s : State) (x : Space) : (setSpace s x).cache = s.cache := rfl
@[simp] theorem setSpace_mmu (s : State) (x : Space) : (setSpace s x).mmu = s.mmu := rfl
@[simp] theorem setSpace_flight (s : State) (x : Space) : (setSpace s x).flight = s.flight := rfl
@[simp] theorem setSpace_ius (s : State) (x : Space) : (setSpace s x).ius = s.ius := rfl
@[simp] theorem setSpace_eng (s : State) (x : Space) : (setSpace s x).eng = s.eng := rfl
@[simp] theorem setSpace_queues (s : State) (x : Space) : (setSpace s x).queues = s.queues := rfl
@[simp] theorem setSpace_fw (s : State) (x : Space) : (setSpace s x).fw = s.fw := rfl
@[simp] theorem setSpace_pkg (s : State) (x : Space) : (setSpace s x).pkg = s.pkg := rfl

@[simp] theorem onSpace_run (s : State) (a : BitVec 16) (f : Space → Space) : (onSpace s a f).run = s.run := rfl
@[simp] theorem onSpace_threads (s : State) (a : BitVec 16) (f : Space → Space) : (onSpace s a f).threads = s.threads := rfl
@[simp] theorem onSpace_mem (s : State) (a : BitVec 16) (f : Space → Space) : (onSpace s a f).mem = s.mem := rfl
@[simp] theorem onSpace_cache (s : State) (a : BitVec 16) (f : Space → Space) : (onSpace s a f).cache = s.cache := rfl
@[simp] theorem onSpace_mmu (s : State) (a : BitVec 16) (f : Space → Space) : (onSpace s a f).mmu = s.mmu := rfl
@[simp] theorem onSpace_flight (s : State) (a : BitVec 16) (f : Space → Space) : (onSpace s a f).flight = s.flight := rfl
@[simp] theorem onSpace_ius (s : State) (a : BitVec 16) (f : Space → Space) : (onSpace s a f).ius = s.ius := rfl
@[simp] theorem onSpace_eng (s : State) (a : BitVec 16) (f : Space → Space) : (onSpace s a f).eng = s.eng := rfl
@[simp] theorem onSpace_queues (s : State) (a : BitVec 16) (f : Space → Space) : (onSpace s a f).queues = s.queues := rfl
@[simp] theorem onSpace_fw (s : State) (a : BitVec 16) (f : Space → Space) : (onSpace s a f).fw = s.fw := rfl
@[simp] theorem onSpace_pkg (s : State) (a : BitVec 16) (f : Space → Space) : (onSpace s a f).pkg = s.pkg := rfl

@[simp] theorem onHandle_run (s : State) (a : BitVec 16) (n : Nat) (f : Handle → Handle) : (onHandle s a n f).run = s.run := rfl
@[simp] theorem onHandle_threads (s : State) (a : BitVec 16) (n : Nat) (f : Handle → Handle) : (onHandle s a n f).threads = s.threads := rfl
@[simp] theorem onHandle_mem (s : State) (a : BitVec 16) (n : Nat) (f : Handle → Handle) : (onHandle s a n f).mem = s.mem := rfl
@[simp] theorem onHandle_cache (s : State) (a : BitVec 16) (n : Nat) (f : Handle → Handle) : (onHandle s a n f).cache = s.cache := rfl
@[simp] theorem onHandle_mmu (s : State) (a : BitVec 16) (n : Nat) (f : Handle → Handle) : (onHandle s a n f).mmu = s.mmu := rfl
@[simp] theorem onHandle_flight (s : State) (a : BitVec 16) (n : Nat) (f : Handle → Handle) : (onHandle s a n f).flight = s.flight := rfl
@[simp] theorem onHandle_ius (s : State) (a : BitVec 16) (n : Nat) (f : Handle → Handle) : (onHandle s a n f).ius = s.ius := rfl
@[simp] theorem onHandle_eng (s : State) (a : BitVec 16) (n : Nat) (f : Handle → Handle) : (onHandle s a n f).eng = s.eng := rfl
@[simp] theorem onHandle_queues (s : State) (a : BitVec 16) (n : Nat) (f : Handle → Handle) : (onHandle s a n f).queues = s.queues := rfl
@[simp] theorem onHandle_fw (s : State) (a : BitVec 16) (n : Nat) (f : Handle → Handle) : (onHandle s a n f).fw = s.fw := rfl
@[simp] theorem onHandle_pkg (s : State) (a : BitVec 16) (n : Nat) (f : Handle → Handle) : (onHandle s a n f).pkg = s.pkg := rfl

@[simp] theorem setIu_run (s : State) (x : Iu) : (setIu s x).run = s.run := rfl
@[simp] theorem setIu_threads (s : State) (x : Iu) : (setIu s x).threads = s.threads := rfl
@[simp] theorem setIu_spaces (s : State) (x : Iu) : (setIu s x).spaces = s.spaces := rfl
@[simp] theorem setIu_mem (s : State) (x : Iu) : (setIu s x).mem = s.mem := rfl
@[simp] theorem setIu_cache (s : State) (x : Iu) : (setIu s x).cache = s.cache := rfl
@[simp] theorem setIu_mmu (s : State) (x : Iu) : (setIu s x).mmu = s.mmu := rfl
@[simp] theorem setIu_flight (s : State) (x : Iu) : (setIu s x).flight = s.flight := rfl
@[simp] theorem setIu_eng (s : State) (x : Iu) : (setIu s x).eng = s.eng := rfl
@[simp] theorem setIu_queues (s : State) (x : Iu) : (setIu s x).queues = s.queues := rfl
@[simp] theorem setIu_fw (s : State) (x : Iu) : (setIu s x).fw = s.fw := rfl
@[simp] theorem setIu_pkg (s : State) (x : Iu) : (setIu s x).pkg = s.pkg := rfl

@[simp] theorem onIu_run (s : State) (b u : Nat) (f : Iu → Iu) : (onIu s b u f).run = s.run := rfl
@[simp] theorem onIu_threads (s : State) (b u : Nat) (f : Iu → Iu) : (onIu s b u f).threads = s.threads := rfl
@[simp] theorem onIu_spaces (s : State) (b u : Nat) (f : Iu → Iu) : (onIu s b u f).spaces = s.spaces := rfl
@[simp] theorem onIu_mem (s : State) (b u : Nat) (f : Iu → Iu) : (onIu s b u f).mem = s.mem := rfl
@[simp] theorem onIu_cache (s : State) (b u : Nat) (f : Iu → Iu) : (onIu s b u f).cache = s.cache := rfl
@[simp] theorem onIu_mmu (s : State) (b u : Nat) (f : Iu → Iu) : (onIu s b u f).mmu = s.mmu := rfl
@[simp] theorem onIu_flight (s : State) (b u : Nat) (f : Iu → Iu) : (onIu s b u f).flight = s.flight := rfl
@[simp] theorem onIu_eng (s : State) (b u : Nat) (f : Iu → Iu) : (onIu s b u f).eng = s.eng := rfl
@[simp] theorem onIu_queues (s : State) (b u : Nat) (f : Iu → Iu) : (onIu s b u f).queues = s.queues := rfl
@[simp] theorem onIu_fw (s : State) (b u : Nat) (f : Iu → Iu) : (onIu s b u f).fw = s.fw := rfl
@[simp] theorem onIu_pkg (s : State) (b u : Nat) (f : Iu → Iu) : (onIu s b u f).pkg = s.pkg := rfl

@[simp] theorem count_run (s : State) (b u n : Nat) : (count s b u n).run = s.run := rfl
@[simp] theorem count_threads (s : State) (b u n : Nat) : (count s b u n).threads = s.threads := rfl
@[simp] theorem count_spaces (s : State) (b u n : Nat) : (count s b u n).spaces = s.spaces := rfl
@[simp] theorem count_mem (s : State) (b u n : Nat) : (count s b u n).mem = s.mem := rfl
@[simp] theorem count_cache (s : State) (b u n : Nat) : (count s b u n).cache = s.cache := rfl
@[simp] theorem count_mmu (s : State) (b u n : Nat) : (count s b u n).mmu = s.mmu := rfl
@[simp] theorem count_flight (s : State) (b u n : Nat) : (count s b u n).flight = s.flight := rfl
@[simp] theorem count_eng (s : State) (b u n : Nat) : (count s b u n).eng = s.eng := rfl
@[simp] theorem count_queues (s : State) (b u n : Nat) : (count s b u n).queues = s.queues := rfl
@[simp] theorem count_fw (s : State) (b u n : Nat) : (count s b u n).fw = s.fw := rfl
@[simp] theorem count_pkg (s : State) (b u n : Nat) : (count s b u n).pkg = s.pkg := rfl

@[simp] theorem takeFree_threads (s : State) : (takeFree s).2.threads = s.threads := rfl
@[simp] theorem takeFree_spaces (s : State) : (takeFree s).2.spaces = s.spaces := rfl
@[simp] theorem takeFree_mem (s : State) : (takeFree s).2.mem = s.mem := rfl
@[simp] theorem takeFree_cache (s : State) : (takeFree s).2.cache = s.cache := rfl
@[simp] theorem takeFree_mmu (s : State) : (takeFree s).2.mmu = s.mmu := rfl
@[simp] theorem takeFree_flight (s : State) : (takeFree s).2.flight = s.flight := rfl
@[simp] theorem takeFree_ius (s : State) : (takeFree s).2.ius = s.ius := rfl
@[simp] theorem takeFree_eng (s : State) : (takeFree s).2.eng = s.eng := rfl
@[simp] theorem takeFree_queues (s : State) : (takeFree s).2.queues = s.queues := rfl
@[simp] theorem takeFree_fw (s : State) : (takeFree s).2.fw = s.fw := rfl
@[simp] theorem takeFree_pkg (s : State) : (takeFree s).2.pkg = s.pkg := rfl

@[simp] theorem takeSeq_threads (s : State) : (takeSeq s).2.threads = s.threads := rfl
@[simp] theorem takeSeq_spaces (s : State) : (takeSeq s).2.spaces = s.spaces := rfl
@[simp] theorem takeSeq_mem (s : State) : (takeSeq s).2.mem = s.mem := rfl
@[simp] theorem takeSeq_cache (s : State) : (takeSeq s).2.cache = s.cache := rfl
@[simp] theorem takeSeq_mmu (s : State) : (takeSeq s).2.mmu = s.mmu := rfl
@[simp] theorem takeSeq_flight (s : State) : (takeSeq s).2.flight = s.flight := rfl
@[simp] theorem takeSeq_ius (s : State) : (takeSeq s).2.ius = s.ius := rfl
@[simp] theorem takeSeq_eng (s : State) : (takeSeq s).2.eng = s.eng := rfl
@[simp] theorem takeSeq_queues (s : State) : (takeSeq s).2.queues = s.queues := rfl
@[simp] theorem takeSeq_fw (s : State) : (takeSeq s).2.fw = s.fw := rfl
@[simp] theorem takeSeq_pkg (s : State) : (takeSeq s).2.pkg = s.pkg := rfl

@[simp] theorem emit_run (s : State) (o : Out) : (emit s o).run = s.run := rfl
@[simp] theorem emit_threads (s : State) (o : Out) : (emit s o).threads = s.threads := rfl
@[simp] theorem emit_spaces (s : State) (o : Out) : (emit s o).spaces = s.spaces := rfl
@[simp] theorem emit_mem (s : State) (o : Out) : (emit s o).mem = s.mem := rfl
@[simp] theorem emit_cache (s : State) (o : Out) : (emit s o).cache = s.cache := rfl
@[simp] theorem emit_mmu (s : State) (o : Out) : (emit s o).mmu = s.mmu := rfl
@[simp] theorem emit_flight (s : State) (o : Out) : (emit s o).flight = s.flight := rfl
@[simp] theorem emit_ius (s : State) (o : Out) : (emit s o).ius = s.ius := rfl
@[simp] theorem emit_eng (s : State) (o : Out) : (emit s o).eng = s.eng := rfl
@[simp] theorem emit_queues (s : State) (o : Out) : (emit s o).queues = s.queues := rfl
@[simp] theorem emit_pkg (s : State) (o : Out) : (emit s o).pkg = s.pkg := rfl

@[simp] theorem putSet_run (s : State) (x : SetCtl) : (putSet s x).run = s.run := rfl
@[simp] theorem putSet_threads (s : State) (x : SetCtl) : (putSet s x).threads = s.threads := rfl
@[simp] theorem putSet_spaces (s : State) (x : SetCtl) : (putSet s x).spaces = s.spaces := rfl
@[simp] theorem putSet_mem (s : State) (x : SetCtl) : (putSet s x).mem = s.mem := rfl
@[simp] theorem putSet_cache (s : State) (x : SetCtl) : (putSet s x).cache = s.cache := rfl
@[simp] theorem putSet_mmu (s : State) (x : SetCtl) : (putSet s x).mmu = s.mmu := rfl
@[simp] theorem putSet_flight (s : State) (x : SetCtl) : (putSet s x).flight = s.flight := rfl
@[simp] theorem putSet_ius (s : State) (x : SetCtl) : (putSet s x).ius = s.ius := rfl
@[simp] theorem putSet_eng (s : State) (x : SetCtl) : (putSet s x).eng = s.eng := rfl
@[simp] theorem putSet_queues (s : State) (x : SetCtl) : (putSet s x).queues = s.queues := rfl
@[simp] theorem putSet_pkg (s : State) (x : SetCtl) : (putSet s x).pkg = s.pkg := rfl

@[simp] theorem putReq_run (s : State) (r : Req) : (putReq s r).run = s.run := rfl
@[simp] theorem putReq_threads (s : State) (r : Req) : (putReq s r).threads = s.threads := rfl
@[simp] theorem putReq_spaces (s : State) (r : Req) : (putReq s r).spaces = s.spaces := rfl
@[simp] theorem putReq_mem (s : State) (r : Req) : (putReq s r).mem = s.mem := rfl
@[simp] theorem putReq_cache (s : State) (r : Req) : (putReq s r).cache = s.cache := rfl
@[simp] theorem putReq_mmu (s : State) (r : Req) : (putReq s r).mmu = s.mmu := rfl
@[simp] theorem putReq_ius (s : State) (r : Req) : (putReq s r).ius = s.ius := rfl
@[simp] theorem putReq_eng (s : State) (r : Req) : (putReq s r).eng = s.eng := rfl
@[simp] theorem putReq_queues (s : State) (r : Req) : (putReq s r).queues = s.queues := rfl
@[simp] theorem putReq_fw (s : State) (r : Req) : (putReq s r).fw = s.fw := rfl
@[simp] theorem putReq_pkg (s : State) (r : Req) : (putReq s r).pkg = s.pkg := rfl

@[simp] theorem setReqSt_run (s : State) (n : Nat) (x : ReqSt) : (setReqSt s n x).run = s.run := rfl
@[simp] theorem setReqSt_threads (s : State) (n : Nat) (x : ReqSt) : (setReqSt s n x).threads = s.threads := rfl
@[simp] theorem setReqSt_spaces (s : State) (n : Nat) (x : ReqSt) : (setReqSt s n x).spaces = s.spaces := rfl
@[simp] theorem setReqSt_mem (s : State) (n : Nat) (x : ReqSt) : (setReqSt s n x).mem = s.mem := rfl
@[simp] theorem setReqSt_cache (s : State) (n : Nat) (x : ReqSt) : (setReqSt s n x).cache = s.cache := rfl
@[simp] theorem setReqSt_mmu (s : State) (n : Nat) (x : ReqSt) : (setReqSt s n x).mmu = s.mmu := rfl
@[simp] theorem setReqSt_ius (s : State) (n : Nat) (x : ReqSt) : (setReqSt s n x).ius = s.ius := rfl
@[simp] theorem setReqSt_eng (s : State) (n : Nat) (x : ReqSt) : (setReqSt s n x).eng = s.eng := rfl
@[simp] theorem setReqSt_queues (s : State) (n : Nat) (x : ReqSt) : (setReqSt s n x).queues = s.queues := rfl
@[simp] theorem setReqSt_fw (s : State) (n : Nat) (x : ReqSt) : (setReqSt s n x).fw = s.fw := rfl
@[simp] theorem setReqSt_pkg (s : State) (n : Nat) (x : ReqSt) : (setReqSt s n x).pkg = s.pkg := rfl

@[simp] theorem dropReq_run (s : State) (n : Nat) : (dropReq s n).run = s.run := rfl
@[simp] theorem dropReq_threads (s : State) (n : Nat) : (dropReq s n).threads = s.threads := rfl
@[simp] theorem dropReq_spaces (s : State) (n : Nat) : (dropReq s n).spaces = s.spaces := rfl
@[simp] theorem dropReq_mem (s : State) (n : Nat) : (dropReq s n).mem = s.mem := rfl
@[simp] theorem dropReq_cache (s : State) (n : Nat) : (dropReq s n).cache = s.cache := rfl
@[simp] theorem dropReq_mmu (s : State) (n : Nat) : (dropReq s n).mmu = s.mmu := rfl
@[simp] theorem dropReq_ius (s : State) (n : Nat) : (dropReq s n).ius = s.ius := rfl
@[simp] theorem dropReq_eng (s : State) (n : Nat) : (dropReq s n).eng = s.eng := rfl
@[simp] theorem dropReq_queues (s : State) (n : Nat) : (dropReq s n).queues = s.queues := rfl
@[simp] theorem dropReq_fw (s : State) (n : Nat) : (dropReq s n).fw = s.fw := rfl
@[simp] theorem dropReq_pkg (s : State) (n : Nat) : (dropReq s n).pkg = s.pkg := rfl

@[simp] theorem dueFreeze_run (s : State) (f q : Nat) (r : BitVec 8) (v : Word) : (dueFreeze s f q r v).run = s.run := rfl
@[simp] theorem dueFreeze_threads (s : State) (f q : Nat) (r : BitVec 8) (v : Word) : (dueFreeze s f q r v).threads = s.threads := rfl
@[simp] theorem dueFreeze_spaces (s : State) (f q : Nat) (r : BitVec 8) (v : Word) : (dueFreeze s f q r v).spaces = s.spaces := rfl
@[simp] theorem dueFreeze_mem (s : State) (f q : Nat) (r : BitVec 8) (v : Word) : (dueFreeze s f q r v).mem = s.mem := rfl
@[simp] theorem dueFreeze_cache (s : State) (f q : Nat) (r : BitVec 8) (v : Word) : (dueFreeze s f q r v).cache = s.cache := rfl
@[simp] theorem dueFreeze_mmu (s : State) (f q : Nat) (r : BitVec 8) (v : Word) : (dueFreeze s f q r v).mmu = s.mmu := rfl
@[simp] theorem dueFreeze_flight (s : State) (f q : Nat) (r : BitVec 8) (v : Word) : (dueFreeze s f q r v).flight = s.flight := rfl
@[simp] theorem dueFreeze_ius (s : State) (f q : Nat) (r : BitVec 8) (v : Word) : (dueFreeze s f q r v).ius = s.ius := rfl
@[simp] theorem dueFreeze_eng (s : State) (f q : Nat) (r : BitVec 8) (v : Word) : (dueFreeze s f q r v).eng = s.eng := rfl
@[simp] theorem dueFreeze_fw (s : State) (f q : Nat) (r : BitVec 8) (v : Word) : (dueFreeze s f q r v).fw = s.fw := rfl
@[simp] theorem dueFreeze_pkg (s : State) (f q : Nat) (r : BitVec 8) (v : Word) : (dueFreeze s f q r v).pkg = s.pkg := rfl

@[simp] theorem putCmd_run (s : State) (c : Cmd) : (putCmd s c).run = s.run := rfl
@[simp] theorem putCmd_threads (s : State) (c : Cmd) : (putCmd s c).threads = s.threads := rfl
@[simp] theorem putCmd_spaces (s : State) (c : Cmd) : (putCmd s c).spaces = s.spaces := rfl
@[simp] theorem putCmd_mem (s : State) (c : Cmd) : (putCmd s c).mem = s.mem := rfl
@[simp] theorem putCmd_cache (s : State) (c : Cmd) : (putCmd s c).cache = s.cache := rfl
@[simp] theorem putCmd_mmu (s : State) (c : Cmd) : (putCmd s c).mmu = s.mmu := rfl
@[simp] theorem putCmd_flight (s : State) (c : Cmd) : (putCmd s c).flight = s.flight := rfl
@[simp] theorem putCmd_ius (s : State) (c : Cmd) : (putCmd s c).ius = s.ius := rfl
@[simp] theorem putCmd_queues (s : State) (c : Cmd) : (putCmd s c).queues = s.queues := rfl
@[simp] theorem putCmd_fw (s : State) (c : Cmd) : (putCmd s c).fw = s.fw := rfl
@[simp] theorem putCmd_pkg (s : State) (c : Cmd) : (putCmd s c).pkg = s.pkg := rfl

@[simp] theorem putMat_run (s : State) (m : Mat) : (putMat s m).run = s.run := rfl
@[simp] theorem putMat_threads (s : State) (m : Mat) : (putMat s m).threads = s.threads := rfl
@[simp] theorem putMat_spaces (s : State) (m : Mat) : (putMat s m).spaces = s.spaces := rfl
@[simp] theorem putMat_mem (s : State) (m : Mat) : (putMat s m).mem = s.mem := rfl
@[simp] theorem putMat_cache (s : State) (m : Mat) : (putMat s m).cache = s.cache := rfl
@[simp] theorem putMat_mmu (s : State) (m : Mat) : (putMat s m).mmu = s.mmu := rfl
@[simp] theorem putMat_flight (s : State) (m : Mat) : (putMat s m).flight = s.flight := rfl
@[simp] theorem putMat_ius (s : State) (m : Mat) : (putMat s m).ius = s.ius := rfl
@[simp] theorem putMat_queues (s : State) (m : Mat) : (putMat s m).queues = s.queues := rfl
@[simp] theorem putMat_fw (s : State) (m : Mat) : (putMat s m).fw = s.fw := rfl
@[simp] theorem putMat_pkg (s : State) (m : Mat) : (putMat s m).pkg = s.pkg := rfl

@[simp] theorem onQueue_run (s : State) (f q : Nat) (g : Queue → Queue) : (onQueue s f q g).run = s.run := rfl
@[simp] theorem onQueue_threads (s : State) (f q : Nat) (g : Queue → Queue) : (onQueue s f q g).threads = s.threads := rfl
@[simp] theorem onQueue_spaces (s : State) (f q : Nat) (g : Queue → Queue) : (onQueue s f q g).spaces = s.spaces := rfl
@[simp] theorem onQueue_mem (s : State) (f q : Nat) (g : Queue → Queue) : (onQueue s f q g).mem = s.mem := rfl
@[simp] theorem onQueue_cache (s : State) (f q : Nat) (g : Queue → Queue) : (onQueue s f q g).cache = s.cache := rfl
@[simp] theorem onQueue_mmu (s : State) (f q : Nat) (g : Queue → Queue) : (onQueue s f q g).mmu = s.mmu := rfl
@[simp] theorem onQueue_flight (s : State) (f q : Nat) (g : Queue → Queue) : (onQueue s f q g).flight = s.flight := rfl
@[simp] theorem onQueue_ius (s : State) (f q : Nat) (g : Queue → Queue) : (onQueue s f q g).ius = s.ius := rfl
@[simp] theorem onQueue_eng (s : State) (f q : Nat) (g : Queue → Queue) : (onQueue s f q g).eng = s.eng := rfl
@[simp] theorem onQueue_fw (s : State) (f q : Nat) (g : Queue → Queue) : (onQueue s f q g).fw = s.fw := rfl
@[simp] theorem onQueue_pkg (s : State) (f q : Nat) (g : Queue → Queue) : (onQueue s f q g).pkg = s.pkg := rfl

@[simp] theorem onLaunch_run (s : State) (n : BitVec 8) (f : LaunchSlot → LaunchSlot) : (onLaunch s n f).run = s.run := rfl
@[simp] theorem onLaunch_threads (s : State) (n : BitVec 8) (f : LaunchSlot → LaunchSlot) : (onLaunch s n f).threads = s.threads := rfl
@[simp] theorem onLaunch_spaces (s : State) (n : BitVec 8) (f : LaunchSlot → LaunchSlot) : (onLaunch s n f).spaces = s.spaces := rfl
@[simp] theorem onLaunch_mem (s : State) (n : BitVec 8) (f : LaunchSlot → LaunchSlot) : (onLaunch s n f).mem = s.mem := rfl
@[simp] theorem onLaunch_cache (s : State) (n : BitVec 8) (f : LaunchSlot → LaunchSlot) : (onLaunch s n f).cache = s.cache := rfl
@[simp] theorem onLaunch_mmu (s : State) (n : BitVec 8) (f : LaunchSlot → LaunchSlot) : (onLaunch s n f).mmu = s.mmu := rfl
@[simp] theorem onLaunch_flight (s : State) (n : BitVec 8) (f : LaunchSlot → LaunchSlot) : (onLaunch s n f).flight = s.flight := rfl
@[simp] theorem onLaunch_ius (s : State) (n : BitVec 8) (f : LaunchSlot → LaunchSlot) : (onLaunch s n f).ius = s.ius := rfl
@[simp] theorem onLaunch_eng (s : State) (n : BitVec 8) (f : LaunchSlot → LaunchSlot) : (onLaunch s n f).eng = s.eng := rfl
@[simp] theorem onLaunch_fw (s : State) (n : BitVec 8) (f : LaunchSlot → LaunchSlot) : (onLaunch s n f).fw = s.fw := rfl
@[simp] theorem onLaunch_pkg (s : State) (n : BitVec 8) (f : LaunchSlot → LaunchSlot) : (onLaunch s n f).pkg = s.pkg := rfl

@[simp] theorem onMmu_run (s : State) (f : Mmu → Mmu) : (onMmu s f).run = s.run := rfl
@[simp] theorem onMmu_threads (s : State) (f : Mmu → Mmu) : (onMmu s f).threads = s.threads := rfl
@[simp] theorem onMmu_spaces (s : State) (f : Mmu → Mmu) : (onMmu s f).spaces = s.spaces := rfl
@[simp] theorem onMmu_mem (s : State) (f : Mmu → Mmu) : (onMmu s f).mem = s.mem := rfl
@[simp] theorem onMmu_cache (s : State) (f : Mmu → Mmu) : (onMmu s f).cache = s.cache := rfl
@[simp] theorem onMmu_flight (s : State) (f : Mmu → Mmu) : (onMmu s f).flight = s.flight := rfl
@[simp] theorem onMmu_ius (s : State) (f : Mmu → Mmu) : (onMmu s f).ius = s.ius := rfl
@[simp] theorem onMmu_eng (s : State) (f : Mmu → Mmu) : (onMmu s f).eng = s.eng := rfl
@[simp] theorem onMmu_queues (s : State) (f : Mmu → Mmu) : (onMmu s f).queues = s.queues := rfl
@[simp] theorem onMmu_fw (s : State) (f : Mmu → Mmu) : (onMmu s f).fw = s.fw := rfl
@[simp] theorem onMmu_pkg (s : State) (f : Mmu → Mmu) : (onMmu s f).pkg = s.pkg := rfl

@[simp] theorem onPkg_run (s : State) (f : Package → Package) : (onPkg s f).run = s.run := rfl
@[simp] theorem onPkg_threads (s : State) (f : Package → Package) : (onPkg s f).threads = s.threads := rfl
@[simp] theorem onPkg_spaces (s : State) (f : Package → Package) : (onPkg s f).spaces = s.spaces := rfl
@[simp] theorem onPkg_mem (s : State) (f : Package → Package) : (onPkg s f).mem = s.mem := rfl
@[simp] theorem onPkg_cache (s : State) (f : Package → Package) : (onPkg s f).cache = s.cache := rfl
@[simp] theorem onPkg_mmu (s : State) (f : Package → Package) : (onPkg s f).mmu = s.mmu := rfl
@[simp] theorem onPkg_flight (s : State) (f : Package → Package) : (onPkg s f).flight = s.flight := rfl
@[simp] theorem onPkg_ius (s : State) (f : Package → Package) : (onPkg s f).ius = s.ius := rfl
@[simp] theorem onPkg_eng (s : State) (f : Package → Package) : (onPkg s f).eng = s.eng := rfl
@[simp] theorem onPkg_queues (s : State) (f : Package → Package) : (onPkg s f).queues = s.queues := rfl
@[simp] theorem onPkg_fw (s : State) (f : Package → Package) : (onPkg s f).fw = s.fw := rfl

@[simp] theorem leaveLine_run (s : State) (l : Phys) (w : Option Asker) : (leaveLine s l w).run = s.run := rfl
@[simp] theorem leaveLine_threads (s : State) (l : Phys) (w : Option Asker) : (leaveLine s l w).threads = s.threads := rfl
@[simp] theorem leaveLine_spaces (s : State) (l : Phys) (w : Option Asker) : (leaveLine s l w).spaces = s.spaces := rfl
@[simp] theorem leaveLine_mem (s : State) (l : Phys) (w : Option Asker) : (leaveLine s l w).mem = s.mem := rfl
@[simp] theorem leaveLine_cache (s : State) (l : Phys) (w : Option Asker) : (leaveLine s l w).cache = s.cache := rfl
@[simp] theorem leaveLine_mmu (s : State) (l : Phys) (w : Option Asker) : (leaveLine s l w).mmu = s.mmu := rfl
@[simp] theorem leaveLine_ius (s : State) (l : Phys) (w : Option Asker) : (leaveLine s l w).ius = s.ius := rfl
@[simp] theorem leaveLine_eng (s : State) (l : Phys) (w : Option Asker) : (leaveLine s l w).eng = s.eng := rfl
@[simp] theorem leaveLine_queues (s : State) (l : Phys) (w : Option Asker) : (leaveLine s l w).queues = s.queues := rfl
@[simp] theorem leaveLine_fw (s : State) (l : Phys) (w : Option Asker) : (leaveLine s l w).fw = s.fw := rfl
@[simp] theorem leaveLine_pkg (s : State) (l : Phys) (w : Option Asker) : (leaveLine s l w).pkg = s.pkg := rfl

@[simp] theorem keepLine_run (s : State) (l : Phys) (w : Option Asker) : (keepLine s l w).run = s.run := rfl
@[simp] theorem keepLine_threads (s : State) (l : Phys) (w : Option Asker) : (keepLine s l w).threads = s.threads := rfl
@[simp] theorem keepLine_spaces (s : State) (l : Phys) (w : Option Asker) : (keepLine s l w).spaces = s.spaces := rfl
@[simp] theorem keepLine_mem (s : State) (l : Phys) (w : Option Asker) : (keepLine s l w).mem = s.mem := rfl
@[simp] theorem keepLine_cache (s : State) (l : Phys) (w : Option Asker) : (keepLine s l w).cache = s.cache := rfl
@[simp] theorem keepLine_mmu (s : State) (l : Phys) (w : Option Asker) : (keepLine s l w).mmu = s.mmu := rfl
@[simp] theorem keepLine_ius (s : State) (l : Phys) (w : Option Asker) : (keepLine s l w).ius = s.ius := rfl
@[simp] theorem keepLine_eng (s : State) (l : Phys) (w : Option Asker) : (keepLine s l w).eng = s.eng := rfl
@[simp] theorem keepLine_queues (s : State) (l : Phys) (w : Option Asker) : (keepLine s l w).queues = s.queues := rfl
@[simp] theorem keepLine_fw (s : State) (l : Phys) (w : Option Asker) : (keepLine s l w).fw = s.fw := rfl
@[simp] theorem keepLine_pkg (s : State) (l : Phys) (w : Option Asker) : (keepLine s l w).pkg = s.pkg := rfl

@[simp] theorem setHostSt_run (s : State) (a : Nat) (h : Option HostSt) : (setHostSt s a h).run = s.run := rfl
@[simp] theorem setHostSt_threads (s : State) (a : Nat) (h : Option HostSt) : (setHostSt s a h).threads = s.threads := rfl
@[simp] theorem setHostSt_spaces (s : State) (a : Nat) (h : Option HostSt) : (setHostSt s a h).spaces = s.spaces := rfl
@[simp] theorem setHostSt_mem (s : State) (a : Nat) (h : Option HostSt) : (setHostSt s a h).mem = s.mem := rfl
@[simp] theorem setHostSt_mmu (s : State) (a : Nat) (h : Option HostSt) : (setHostSt s a h).mmu = s.mmu := rfl
@[simp] theorem setHostSt_flight (s : State) (a : Nat) (h : Option HostSt) : (setHostSt s a h).flight = s.flight := rfl
@[simp] theorem setHostSt_ius (s : State) (a : Nat) (h : Option HostSt) : (setHostSt s a h).ius = s.ius := rfl
@[simp] theorem setHostSt_eng (s : State) (a : Nat) (h : Option HostSt) : (setHostSt s a h).eng = s.eng := rfl
@[simp] theorem setHostSt_queues (s : State) (a : Nat) (h : Option HostSt) : (setHostSt s a h).queues = s.queues := rfl
@[simp] theorem setHostSt_fw (s : State) (a : Nat) (h : Option HostSt) : (setHostSt s a h).fw = s.fw := rfl
@[simp] theorem setHostSt_pkg (s : State) (a : Nat) (h : Option HostSt) : (setHostSt s a h).pkg = s.pkg := rfl

@[simp] theorem dropStale_run (s : State) : (dropStale s).run = s.run := rfl
@[simp] theorem dropStale_threads (s : State) : (dropStale s).threads = s.threads := rfl
@[simp] theorem dropStale_spaces (s : State) : (dropStale s).spaces = s.spaces := rfl
@[simp] theorem dropStale_mem (s : State) : (dropStale s).mem = s.mem := rfl
@[simp] theorem dropStale_mmu (s : State) : (dropStale s).mmu = s.mmu := rfl
@[simp] theorem dropStale_flight (s : State) : (dropStale s).flight = s.flight := rfl
@[simp] theorem dropStale_ius (s : State) : (dropStale s).ius = s.ius := rfl
@[simp] theorem dropStale_eng (s : State) : (dropStale s).eng = s.eng := rfl
@[simp] theorem dropStale_queues (s : State) : (dropStale s).queues = s.queues := rfl
@[simp] theorem dropStale_fw (s : State) : (dropStale s).fw = s.fw := rfl
@[simp] theorem dropStale_pkg (s : State) : (dropStale s).pkg = s.pkg := rfl

@[simp] theorem acquireL1_run (s : State) (b u : Nat) (x : Scope) : (acquireL1 s b u x).run = s.run := rfl
@[simp] theorem acquireL1_threads (s : State) (b u : Nat) (x : Scope) : (acquireL1 s b u x).threads = s.threads := rfl
@[simp] theorem acquireL1_spaces (s : State) (b u : Nat) (x : Scope) : (acquireL1 s b u x).spaces = s.spaces := rfl
@[simp] theorem acquireL1_mem (s : State) (b u : Nat) (x : Scope) : (acquireL1 s b u x).mem = s.mem := rfl
@[simp] theorem acquireL1_mmu (s : State) (b u : Nat) (x : Scope) : (acquireL1 s b u x).mmu = s.mmu := rfl
@[simp] theorem acquireL1_flight (s : State) (b u : Nat) (x : Scope) : (acquireL1 s b u x).flight = s.flight := rfl
@[simp] theorem acquireL1_ius (s : State) (b u : Nat) (x : Scope) : (acquireL1 s b u x).ius = s.ius := rfl
@[simp] theorem acquireL1_eng (s : State) (b u : Nat) (x : Scope) : (acquireL1 s b u x).eng = s.eng := rfl
@[simp] theorem acquireL1_queues (s : State) (b u : Nat) (x : Scope) : (acquireL1 s b u x).queues = s.queues := rfl
@[simp] theorem acquireL1_fw (s : State) (b u : Nat) (x : Scope) : (acquireL1 s b u x).fw = s.fw := rfl
@[simp] theorem acquireL1_pkg (s : State) (b u : Nat) (x : Scope) : (acquireL1 s b u x).pkg = s.pkg := rfl

@[simp] theorem l1Drop_run (s : State) (b : Option Nat) (l : Phys) : (l1Drop s b l).run = s.run := rfl
@[simp] theorem l1Drop_threads (s : State) (b : Option Nat) (l : Phys) : (l1Drop s b l).threads = s.threads := rfl
@[simp] theorem l1Drop_spaces (s : State) (b : Option Nat) (l : Phys) : (l1Drop s b l).spaces = s.spaces := rfl
@[simp] theorem l1Drop_mem (s : State) (b : Option Nat) (l : Phys) : (l1Drop s b l).mem = s.mem := rfl
@[simp] theorem l1Drop_mmu (s : State) (b : Option Nat) (l : Phys) : (l1Drop s b l).mmu = s.mmu := rfl
@[simp] theorem l1Drop_flight (s : State) (b : Option Nat) (l : Phys) : (l1Drop s b l).flight = s.flight := rfl
@[simp] theorem l1Drop_ius (s : State) (b : Option Nat) (l : Phys) : (l1Drop s b l).ius = s.ius := rfl
@[simp] theorem l1Drop_eng (s : State) (b : Option Nat) (l : Phys) : (l1Drop s b l).eng = s.eng := rfl
@[simp] theorem l1Drop_queues (s : State) (b : Option Nat) (l : Phys) : (l1Drop s b l).queues = s.queues := rfl
@[simp] theorem l1Drop_fw (s : State) (b : Option Nat) (l : Phys) : (l1Drop s b l).fw = s.fw := rfl
@[simp] theorem l1Drop_pkg (s : State) (b : Option Nat) (l : Phys) : (l1Drop s b l).pkg = s.pkg := rfl

@[simp] theorem l2Drop_run (s : State) (b : Nat) (l : Phys) : (l2Drop s b l).run = s.run := rfl
@[simp] theorem l2Drop_threads (s : State) (b : Nat) (l : Phys) : (l2Drop s b l).threads = s.threads := rfl
@[simp] theorem l2Drop_spaces (s : State) (b : Nat) (l : Phys) : (l2Drop s b l).spaces = s.spaces := rfl
@[simp] theorem l2Drop_mem (s : State) (b : Nat) (l : Phys) : (l2Drop s b l).mem = s.mem := rfl
@[simp] theorem l2Drop_mmu (s : State) (b : Nat) (l : Phys) : (l2Drop s b l).mmu = s.mmu := rfl
@[simp] theorem l2Drop_flight (s : State) (b : Nat) (l : Phys) : (l2Drop s b l).flight = s.flight := rfl
@[simp] theorem l2Drop_ius (s : State) (b : Nat) (l : Phys) : (l2Drop s b l).ius = s.ius := rfl
@[simp] theorem l2Drop_eng (s : State) (b : Nat) (l : Phys) : (l2Drop s b l).eng = s.eng := rfl
@[simp] theorem l2Drop_queues (s : State) (b : Nat) (l : Phys) : (l2Drop s b l).queues = s.queues := rfl
@[simp] theorem l2Drop_fw (s : State) (b : Nat) (l : Phys) : (l2Drop s b l).fw = s.fw := rfl
@[simp] theorem l2Drop_pkg (s : State) (b : Nat) (l : Phys) : (l2Drop s b l).pkg = s.pkg := rfl

@[simp] theorem l2Set_run (s : State) (b : Nat) (l : Phys) (x : L2State) : (l2Set s b l x).run = s.run := rfl
@[simp] theorem l2Set_threads (s : State) (b : Nat) (l : Phys) (x : L2State) : (l2Set s b l x).threads = s.threads := rfl
@[simp] theorem l2Set_spaces (s : State) (b : Nat) (l : Phys) (x : L2State) : (l2Set s b l x).spaces = s.spaces := rfl
@[simp] theorem l2Set_mem (s : State) (b : Nat) (l : Phys) (x : L2State) : (l2Set s b l x).mem = s.mem := rfl
@[simp] theorem l2Set_mmu (s : State) (b : Nat) (l : Phys) (x : L2State) : (l2Set s b l x).mmu = s.mmu := rfl
@[simp] theorem l2Set_flight (s : State) (b : Nat) (l : Phys) (x : L2State) : (l2Set s b l x).flight = s.flight := rfl
@[simp] theorem l2Set_ius (s : State) (b : Nat) (l : Phys) (x : L2State) : (l2Set s b l x).ius = s.ius := rfl
@[simp] theorem l2Set_eng (s : State) (b : Nat) (l : Phys) (x : L2State) : (l2Set s b l x).eng = s.eng := rfl
@[simp] theorem l2Set_queues (s : State) (b : Nat) (l : Phys) (x : L2State) : (l2Set s b l x).queues = s.queues := rfl
@[simp] theorem l2Set_fw (s : State) (b : Nat) (l : Phys) (x : L2State) : (l2Set s b l x).fw = s.fw := rfl
@[simp] theorem l2Set_pkg (s : State) (b : Nat) (l : Phys) (x : L2State) : (l2Set s b l x).pkg = s.pkg := rfl

@[simp] theorem onSlot_run (s : State) (n : Nat) (f : LaunchSlot → LaunchSlot) : (onSlot s n f).run = s.run := rfl
@[simp] theorem onSlot_threads (s : State) (n : Nat) (f : LaunchSlot → LaunchSlot) : (onSlot s n f).threads = s.threads := rfl
@[simp] theorem onSlot_spaces (s : State) (n : Nat) (f : LaunchSlot → LaunchSlot) : (onSlot s n f).spaces = s.spaces := rfl
@[simp] theorem onSlot_mem (s : State) (n : Nat) (f : LaunchSlot → LaunchSlot) : (onSlot s n f).mem = s.mem := rfl
@[simp] theorem onSlot_cache (s : State) (n : Nat) (f : LaunchSlot → LaunchSlot) : (onSlot s n f).cache = s.cache := rfl
@[simp] theorem onSlot_mmu (s : State) (n : Nat) (f : LaunchSlot → LaunchSlot) : (onSlot s n f).mmu = s.mmu := rfl
@[simp] theorem onSlot_flight (s : State) (n : Nat) (f : LaunchSlot → LaunchSlot) : (onSlot s n f).flight = s.flight := rfl
@[simp] theorem onSlot_ius (s : State) (n : Nat) (f : LaunchSlot → LaunchSlot) : (onSlot s n f).ius = s.ius := rfl
@[simp] theorem onSlot_eng (s : State) (n : Nat) (f : LaunchSlot → LaunchSlot) : (onSlot s n f).eng = s.eng := rfl
@[simp] theorem onSlot_fw (s : State) (n : Nat) (f : LaunchSlot → LaunchSlot) : (onSlot s n f).fw = s.fw := rfl
@[simp] theorem onSlot_pkg (s : State) (n : Nat) (f : LaunchSlot → LaunchSlot) : (onSlot s n f).pkg = s.pkg := rfl

@[simp] theorem noteFault_run (s : State) (b : Nat) (a : BitVec 16) (p : Nat) (k : Kinds) : (noteFault s b a p k).run = s.run := rfl
@[simp] theorem noteFault_threads (s : State) (b : Nat) (a : BitVec 16) (p : Nat) (k : Kinds) : (noteFault s b a p k).threads = s.threads := rfl
@[simp] theorem noteFault_spaces (s : State) (b : Nat) (a : BitVec 16) (p : Nat) (k : Kinds) : (noteFault s b a p k).spaces = s.spaces := rfl
@[simp] theorem noteFault_mem (s : State) (b : Nat) (a : BitVec 16) (p : Nat) (k : Kinds) : (noteFault s b a p k).mem = s.mem := rfl
@[simp] theorem noteFault_cache (s : State) (b : Nat) (a : BitVec 16) (p : Nat) (k : Kinds) : (noteFault s b a p k).cache = s.cache := rfl
@[simp] theorem noteFault_flight (s : State) (b : Nat) (a : BitVec 16) (p : Nat) (k : Kinds) : (noteFault s b a p k).flight = s.flight := rfl
@[simp] theorem noteFault_ius (s : State) (b : Nat) (a : BitVec 16) (p : Nat) (k : Kinds) : (noteFault s b a p k).ius = s.ius := rfl
@[simp] theorem noteFault_eng (s : State) (b : Nat) (a : BitVec 16) (p : Nat) (k : Kinds) : (noteFault s b a p k).eng = s.eng := rfl
@[simp] theorem noteFault_queues (s : State) (b : Nat) (a : BitVec 16) (p : Nat) (k : Kinds) : (noteFault s b a p k).queues = s.queues := rfl
@[simp] theorem noteFault_fw (s : State) (b : Nat) (a : BitVec 16) (p : Nat) (k : Kinds) : (noteFault s b a p k).fw = s.fw := rfl
@[simp] theorem noteFault_pkg (s : State) (b : Nat) (a : BitVec 16) (p : Nat) (k : Kinds) : (noteFault s b a p k).pkg = s.pkg := rfl

end Sys2Proof.Machine
end

