-- ==== Sys2Proof/Laws/Lists.lean ====
section
/-! SUPPORT. What the small list operations and the accessors of threads and issue units find after an update. -/

namespace Sys2Proof.Machine

theorem find?_modifyFirst {α : Type} (p : α → Bool) (f : α → α) (l : List α) (hf : ∀ x, p x = true → p (f x) = true) :
    (modifyFirst p f l).find? p = (l.find? p).map f := by
  induction l with
  | nil => rfl
  | cons y l ih =>
    by_cases h : p y = true
    · simp [modifyFirst, h, hf y h]
    · simp [modifyFirst, h, ih]

theorem find?_modifyFirst_other {α : Type} (p q : α → Bool) (f : α → α) (l : List α) (h : ∀ x, p x = true → q x = false)
    (hf : ∀ x, p x = true → q (f x) = false) : (modifyFirst p f l).find? q = l.find? q := by
  induction l with
  | nil => rfl
  | cons y l ih =>
    by_cases hp : p y = true
    · simp [modifyFirst, hp, h y hp, hf y hp]
    · by_cases hq : q y = true <;> simp [modifyFirst, hp, hq, ih]

theorem find?_upsert_same {α : Type} (p : α → Bool) (x : α) (l : List α) (hx : p x = true) : (upsert p x l).find? p = some x := by
  induction l with
  | nil => simp [upsert, hx]
  | cons y l ih => by_cases h : p y = true <;> simp [upsert, h, hx, ih]

theorem find?_upsert_other {α : Type} (p q : α → Bool) (x : α) (l : List α) (h : ∀ y, p y = true → q y = false)
    (hx : q x = false) : (upsert p x l).find? q = l.find? q := by
  induction l with
  | nil => simp [upsert, hx]
  | cons y l ih =>
    by_cases hp : p y = true
    · simp [upsert, hp, h y hp, hx]
    · by_cases hq : q y = true <;> simp [upsert, hp, hq, ih]

theorem findThread_key {s : State} {k : Key} {t : Thread} (h : findThread s k = some t) : t.key = k := by
  simpa using List.find?_some h

theorem findThread_onThread (s : State) (k : Key) (f : Thread → Thread) (hf : ∀ t, t.key = k → (f t).key = k) :
    findThread (onThread s k f) k = (findThread s k).map f := by
  simp only [findThread, onThread]
  exact find?_modifyFirst _ _ _ (by simpa using hf)

theorem findThread_onThread_other (s : State) (k j : Key) (f : Thread → Thread) (hj : j ≠ k)
    (hf : ∀ t, t.key = k → (f t).key = k) : findThread (onThread s k f) j = findThread s j := by
  simp only [findThread, onThread]
  refine find?_modifyFirst_other _ _ _ _ ?_ ?_ <;> intro x hx <;> simp at hx ⊢
  · rw [hx]; exact fun h => hj h.symm
  · rw [hf x hx]; exact fun h => hj h.symm

theorem findThread_setThread (s : State) (t : Thread) : findThread (setThread s t) t.key = (findThread s t.key).map fun _ => t := by
  simp only [findThread, setThread]
  exact find?_modifyFirst _ _ _ (by simp)

theorem findThread_setThread_other (s : State) (t : Thread) (k : Key) (hk : k ≠ t.key) :
    findThread (setThread s t) k = findThread s k := by
  simp only [findThread, setThread]
  refine find?_modifyFirst_other _ _ _ _ ?_ ?_ <;> intro x hx <;> simp at hx ⊢
  · rw [hx]; exact fun h => hk h.symm
  · exact fun h => hk h.symm

@[simp] theorem getIu_bench (s : State) (b u : Nat) : (getIu s b u).bench = b := by
  simp only [getIu]
  cases h : s.ius.find? (fun x => x.bench == b && x.iu == u) with
  | none => rfl
  | some x => have := List.find?_some h; simp at this; simp [this]

@[simp] theorem getIu_iu (s : State) (b u : Nat) : (getIu s b u).iu = u := by
  simp only [getIu]
  cases h : s.ius.find? (fun x => x.bench == b && x.iu == u) with
  | none => rfl
  | some x => have := List.find?_some h; simp at this; simp [this]

theorem getIu_setIu_same (s : State) (x : Iu) : getIu (setIu s x) x.bench x.iu = x := by
  simp only [getIu, setIu]
  rw [find?_upsert_same _ _ _ (by simp)]; rfl

theorem getIu_setIu_other (s : State) (x : Iu) (b u : Nat) (h : ¬ (b = x.bench ∧ u = x.iu)) :
    getIu (setIu s x) b u = getIu s b u := by
  simp only [getIu, setIu]
  rw [find?_upsert_other]
  · intro y hy
    simp at hy ⊢
    rintro h1 h2
    exact h ⟨by omega, by omega⟩
  · simp
    intro h1 h2
    exact h ⟨h1.symm, h2.symm⟩

theorem getIu_onIu (s : State) (b u c v : Nat) (f : Iu → Iu) (hf : ∀ x, (f x).bench = x.bench ∧ (f x).iu = x.iu) :
    getIu (onIu s b u f) c v = if c = b ∧ v = u then f (getIu s b u) else getIu s c v := by
  have hb := hf (getIu s b u)
  simp at hb
  by_cases h : c = b ∧ v = u
  · obtain ⟨rfl, rfl⟩ := h
    have := getIu_setIu_same s (f (getIu s c v))
    rw [hb.1, hb.2] at this
    simpa [onIu] using this
  · rw [if_neg h, onIu, getIu_setIu_other]
    rwa [hb.1, hb.2]

theorem getIu_of_ius (s s' : State) (h : s'.ius = s.ius) (hp : s'.pkg = s.pkg) (b u : Nat) : getIu s' b u = getIu s b u := by
  simp [getIu, h, hp]

theorem findThread_of_threads (s s' : State) (h : s'.threads = s.threads) (k : Key) : findThread s' k = findThread s k := by
  simp [findThread, h]

end Sys2Proof.Machine
end

