-- ==== Sys2Proof/Laws/Issue.lean ====
section
/-! SUPPORT. What settling and retirement do: one lemma for each of the shared operations of issue. -/

namespace Sys2Proof.Machine
open Sys2Proof.Forms

theorem quiet_iff (s : State) (t : Thread) : quiet s t = true ↔
    inCl1 t = true ∧ t.wait = .run ∧ t.pend = none ∧ t.ctx.frz = false ∧ t.cancel = false ∧ t.ctx.step = false ∧
      fatalRec t.trap = none ∧ ∀ r ∈ s.flight.reqs, r.key = t.key → isUnrecorded r = false := by
  simp [quiet, Bool.and_eq_true]
  tauto

theorem issues_iff (s : State) (t : Thread) (h : Hdr) : issues s t h = true ↔
    current s = some t ∧ quiet s t = true ∧ (getP t.ctx h.g ^^ h.n) = true := by
  simp [issues, Bool.and_eq_true, and_assoc]

theorem current_find {s : State} {t : Thread} (h : current s = some t) : findThread s t.key = some t := by
  obtain ⟨k, _, h2⟩ := Option.bind_eq_some_iff.mp h
  rwa [findThread_key h2]

theorem inCl1_loc {t : Thread} (h : inCl1 t = true) : ∃ u, t.loc = .placed (.cl1 u) := by
  unfold inCl1 at h
  split at h
  · exact ⟨_, ‹_›⟩
  · cases h

theorem writeUnrecorded_id (s : State) (k : Key) (h : ∀ r ∈ s.flight.reqs, r.key = k → isUnrecorded r = false) :
    writeUnrecorded s k = s := by
  unfold writeUnrecorded
  have : ∀ l : List Req, (∀ r ∈ l, isUnrecorded r = false) →
      l.foldl (fun s r => match r.st with
        | .unrecorded p st => writeRecord s r p st
        | _ => s) s = s := by
    intro l
    induction l with
    | nil => intro _; rfl
    | cons r l ih =>
      intro hl
      have hr := hl r (by simp)
      simp only [List.foldl_cons]
      have e : (match r.st with
        | .unrecorded p st => writeRecord s r p st
        | _ => s) = s := by
        unfold isUnrecorded at hr
        split <;> simp_all
      rw [e]
      exact ih fun r h => hl r (by simp [h])
  apply this
  intro r hr
  simp at hr
  exact h r hr.1 hr.2

/-! Pauses of leases. -/

@[simp] theorem pauseHold_parts (n : Nat) (on : Bool) (h : HoldReg) :
    ((pauseHold n on h).key, (pauseHold n on h).line, (pauseHold n on h).va, (pauseHold n on h).bytes) =
      (h.key, h.line, h.va, h.bytes) := by
  unfold pauseHold
  split <;> rfl

theorem pauseHolds_eq (s : State) (t : Thread) :
    ∃ f : Option HoldReg → Option HoldReg, pauseHolds s t = { s with ius := s.ius.map fun x => { x with holds := x.holds.map f } } ∧
      ∀ o, (f o).map (fun r => (r.key, r.line, r.va, r.bytes)) = o.map fun r => (r.key, r.line, r.va, r.bytes) := by
  unfold pauseHolds
  split
  · refine ⟨_, rfl, fun o => ?_⟩
    cases o with
    | none => rfl
    | some r =>
      by_cases h : r.key == t.key <;> simp only [Option.map_some, h, if_true]
      · rw [pauseHold_parts]
      · rfl
  · exact ⟨id, by simp, fun _ => rfl⟩

theorem find?_map {α : Type} (p : α → Bool) (f : α → α) (l : List α) (h : ∀ x, p (f x) = p x) :
    (l.map f).find? p = (l.find? p).map f := by
  induction l with
  | nil => rfl
  | cons y l ih => by_cases hp : p y = true <;> simp [h, hp, ih]

theorem iuSame_refl (x : Iu) : IuSame x x := ⟨rfl, rfl, rfl, rfl, rfl, rfl, rfl⟩

theorem IuSame.trans {x y z : Iu} (h : IuSame x y) (g : IuSame y z) : IuSame x z :=
  ⟨h.1.trans g.1, h.2.trans g.2, h.3.trans g.3, h.4.trans g.4, h.5.trans g.5, h.6.trans g.6, h.7.trans g.7⟩

theorem getIu_pauseHolds (s : State) (t : Thread) (b u : Nat) :
    IuSame (getIu (pauseHolds s t) b u) (getIu s b u) ∧ (getIu (pauseHolds s t) b u).perf = (getIu s b u).perf := by
  obtain ⟨f, h1, h2⟩ := pauseHolds_eq s t
  rw [h1]
  simp only [getIu]
  rw [find?_map _ (fun x : Iu => { x with holds := x.holds.map f }) _ (fun _ => rfl)]
  cases s.ius.find? (fun x => x.bench == b && x.iu == u) with
  | none => exact ⟨iuSame_refl _, rfl⟩
  | some x =>
    refine ⟨⟨rfl, rfl, rfl, rfl, rfl, rfl, ?_⟩, rfl⟩
    simp [List.map_map, Function.comp_def, h2]

/-- Everything but threads and issue units is as it was. -/
structure RestSame (s s' : State) : Prop where
  mem : s'.mem = s.mem
  cache : s'.cache = s.cache
  mmu : s'.mmu = s.mmu
  flight : s'.flight = s.flight
  spaces : s'.spaces = s.spaces
  eng : s'.eng = s.eng
  queues : s'.queues = s.queues
  fw : s'.fw = s.fw
  pkg : s'.pkg = s.pkg
  run : s'.run = s.run

theorem RestSame.trans {a b c : State} (h : RestSame a b) (g : RestSame b c) : RestSame a c :=
  ⟨g.1.trans h.1, g.2.trans h.2, g.3.trans h.3, g.4.trans h.4, g.5.trans h.5, g.6.trans h.6, g.7.trans h.7, g.8.trans h.8,
    g.9.trans h.9, g.10.trans h.10⟩

theorem restSame_onIu (s : State) (b u : Nat) (f : Iu → Iu) : RestSame s (onIu s b u f) := ⟨rfl, rfl, rfl, rfl, rfl, rfl, rfl, rfl, rfl, rfl⟩

theorem restSame_onThread (s : State) (k : Key) (f : Thread → Thread) : RestSame s (onThread s k f) :=
  ⟨rfl, rfl, rfl, rfl, rfl, rfl, rfl, rfl, rfl, rfl⟩

theorem restSame_setThread (s : State) (t : Thread) : RestSame s (setThread s t) := ⟨rfl, rfl, rfl, rfl, rfl, rfl, rfl, rfl, rfl, rfl⟩

/-- The line and the unit changes that `refresh` makes to a thread in a CL1 (R27, R326). -/
theorem refresh_cl1 (s : State) (t : Thread) (hf : findThread s t.key = some t) (hc : inCl1 t = true) :
    findThread (refresh s t.key) t.key =
        some { t with ctx := { t.ctx with wkind := wkindOf (pauseHolds s t) t }, ready := none } ∧
      (∀ j, j ≠ t.key → findThread (refresh s t.key) j = findThread s j) ∧ RestSame s (refresh s t.key) ∧
      ∀ b u, IuSame (getIu (refresh s t.key) b u) (getIu s b u) ∧ (getIu (refresh s t.key) b u).perf = (getIu s b u).perf := by
  obtain ⟨f, h1, h2⟩ := pauseHolds_eq s t
  have ht : ∀ k, findThread (pauseHolds s t) k = findThread s k := fun k => by rw [h1]; rfl
  have hl : ∀ c, listable { t with ctx := c } = false := fun c => by
    have : inCl1 { t with ctx := c } = inCl1 t := rfl
    simp [listable, this, hc]
  have e : refresh s t.key = setThread (pauseHolds s t)
      { t with ctx := { t.ctx with wkind := wkindOf (pauseHolds s t) t }, ready := none } := by
    have hm : isMoving { t with ctx := { t.ctx with wkind := wkindOf (pauseHolds s t) t } } = false := by
      simp only [inCl1] at hc
      cases hloc : t.loc <;> simp_all [isMoving]
    unfold refresh
    rw [hf]
    simp [hl, hm]
  rw [e]
  refine ⟨?_, ?_, ?_, ?_⟩
  · have := findThread_setThread (pauseHolds s t)
      { t with ctx := { t.ctx with wkind := wkindOf (pauseHolds s t) t }, ready := none }
    rw [this, ht, hf]; rfl
  · intro j hj
    exact (findThread_setThread_other (pauseHolds s t)
      { t with ctx := { t.ctx with wkind := wkindOf (pauseHolds s t) t }, ready := none } j hj).trans (ht j)
  · rw [h1]; exact ⟨rfl, rfl, rfl, rfl, rfl, rfl, rfl, rfl, rfl, rfl⟩
  · intro b u
    exact getIu_pauseHolds s t b u

/-- A line with nothing due settles to its refreshed form (R24 to R27). -/
theorem settle_quiet (s : State) (t : Thread) (hf : findThread s t.key = some t) (hc : inCl1 t = true) (hp : t.pend = none)
    (hr : fatalRec t.trap = none) (hz : t.ctx.frz = false) (hn : t.cancel = false)
    (hq : ∀ r ∈ s.flight.reqs, r.key = t.key → isUnrecorded r = false) :
    settle s t.key = refresh (setThread s (unpark t)) t.key := by
  obtain ⟨u, hu⟩ := inCl1_loc hc
  have hm : isMoving t = false := by simp [isMoving, hu]
  unfold settle
  rw [writeUnrecorded_id s t.key hq]
  simp only [hf, hm, hz, hn, hp, hr, Bool.or_self, Bool.false_eq_true, if_false]

theorem unpark_parts (t : Thread) : unpark t = { t with wait := (unpark t).wait } := by
  unfold unpark
  split
  · rfl
  · split <;> (try split) <;> rfl

/-- A line with nothing due settles: where its wait ends, and what its line is after (R24 to R27). -/
theorem settle_line (s : State) (t : Thread) (hf : findThread s t.key = some t) (hc : inCl1 t = true) (hp : t.pend = none)
    (hr : fatalRec t.trap = none) (hz : t.ctx.frz = false) (hn : t.cancel = false)
    (hq : ∀ r ∈ s.flight.reqs, r.key = t.key → isUnrecorded r = false) :
    (∃ x, findThread (settle s t.key) t.key = some x ∧ x = { unpark t with ctx := { t.ctx with wkind := x.ctx.wkind }, ready := none } ∧
        (x.wait = .run → x.ctx.wkind = 0)) ∧
      (∀ j, j ≠ t.key → findThread (settle s t.key) j = findThread s j) ∧ RestSame s (settle s t.key) ∧
      ∀ b u, IuSame (getIu (settle s t.key) b u) (getIu s b u) ∧ (getIu (settle s t.key) b u).perf = (getIu s b u).perf := by
  rw [settle_quiet s t hf hc hp hr hz hn hq]
  have hu := unpark_parts t
  have hk : (unpark t).key = t.key := by rw [hu]
  have h1 : findThread (setThread s (unpark t)) (unpark t).key = some (unpark t) := by
    rw [findThread_setThread, hk, hf]; rfl
  have h2 : inCl1 (unpark t) = true := by rw [hu]; exact hc
  have h := refresh_cl1 (setThread s (unpark t)) (unpark t) h1 h2
  rw [hk] at h
  obtain ⟨ha, hb, hd, he⟩ := h
  refine ⟨⟨_, ha, ?_, ?_⟩, ?_, ?_, ?_⟩
  · rw [hu]
  · intro hw
    have hp2 : parked (unpark t) = false := by
      have : (unpark t).pend = none := by rw [hu]; exact hp
      have hw' : (unpark t).wait = .run := hw
      simp [parked, this, hw']
    simp [wkindOf, hp2, h2]
  · intro j hj
    rw [hb j hj, findThread_setThread_other _ _ _ (by rwa [hk])]
  · exact (restSame_setThread s (unpark t)).trans hd
  · intro b u
    have := he b u
    rwa [getIu_of_ius s (setThread s (unpark t)) rfl rfl] at this

/-- What marking an issue does: hints, time and rotation (R50, R325). -/
theorem markIssue_spec (s : State) (t : Thread) (h : Hdr) (hf : findThread s t.key = some t) :
    findThread (markIssue s t.key h) t.key =
        some { t with yp := h.yp, lh := h.lh, lastIssue := s.run.now, lastIu := some (t.bench, iuAt t) } ∧
      (∀ j, j ≠ t.key → findThread (markIssue s t.key h) j = findThread s j) ∧ RestSame s (markIssue s t.key h) ∧
      ∀ b u, IuSame (getIu (markIssue s t.key h) b u) (getIu s b u) ∧ (getIu (markIssue s t.key h) b u).perf = (getIu s b u).perf := by
  have hr : ∃ b u f, (rotate s t.key = s ∨ rotate s t.key = onIu s b u f) ∧
      ∀ x : Iu, (f x).bench = x.bench ∧ (f x).iu = x.iu ∧ IuSame (f x) x ∧ (f x).perf = x.perf := by
    unfold rotate
    rw [hf]
    dsimp only
    cases hu : iuOf t with
    | none => exact ⟨0, 0, id, Or.inl rfl, fun x => ⟨rfl, rfl, iuSame_refl x, rfl⟩⟩
    | some u =>
      refine ⟨t.bench, u, _, Or.inr rfl, fun x => ?_⟩
      split <;> exact ⟨rfl, rfl, ⟨rfl, rfl, rfl, rfl, rfl, rfl, rfl⟩, rfl⟩
  obtain ⟨b0, u0, f, hrot, hfx⟩ := hr
  have hth : ∀ k, findThread (rotate s t.key) k = findThread s k := fun k => by
    rcases hrot with h | h <;> rw [h]
    rfl
  have hrs : RestSame s (rotate s t.key) := by
    rcases hrot with h | h <;> rw [h]
    · exact ⟨rfl, rfl, rfl, rfl, rfl, rfl, rfl, rfl, rfl, rfl⟩
    · exact restSame_onIu _ _ _ _
  have hrun : (rotate s t.key).run = s.run := hrs.run
  refine ⟨?_, ?_, ?_, ?_⟩
  · unfold markIssue
    rw [findThread_onThread _ _ _ (by intro x hx; exact hx), hth, hf]
    rfl
  · intro j hj
    unfold markIssue
    rw [findThread_onThread_other _ _ _ _ hj (by intro x hx; exact hx), hth]
  · exact hrs.trans (restSame_onThread _ _ _)
  · intro b u
    have e : getIu (markIssue s t.key h) b u = getIu (rotate s t.key) b u := rfl
    rw [e]
    rcases hrot with h | h <;> rw [h]
    · exact ⟨iuSame_refl _, rfl⟩
    · rw [getIu_onIu _ _ _ _ _ _ (by intro x; exact ⟨(hfx x).1, (hfx x).2.1⟩)]
      split
      · rename_i e; obtain ⟨rfl, rfl⟩ := e; exact ⟨(hfx _).2.2.1, (hfx _).2.2.2⟩
      · exact ⟨iuSame_refl _, rfl⟩

/-- Counting an event changes one counter of one unit (R45). -/
theorem count_spec (s : State) (b u n : Nat) :
    (∀ k, findThread (count s b u n) k = findThread s k) ∧ RestSame s (count s b u n) ∧
      ∀ c v, IuSame (getIu (count s b u n) c v) (getIu s c v) ∧ (getIu (count s b u n) c v).perf =
        if c = b ∧ v = u then (getIu s c v).perf.modify n (· + 1) else (getIu s c v).perf := by
  refine ⟨fun _ => rfl, ⟨rfl, rfl, rfl, rfl, rfl, rfl, rfl, rfl, rfl, rfl⟩, fun c v => ?_⟩
  unfold count
  rw [getIu_onIu _ _ _ _ _ _ (by intro x; exact ⟨rfl, rfl⟩)]
  by_cases h : c = b ∧ v = u
  · obtain ⟨rfl, rfl⟩ := h
    simp only [and_self, if_true]
    exact ⟨⟨rfl, rfl, rfl, rfl, rfl, rfl, rfl⟩, trivial⟩
  · simp only [h, if_false]
    exact ⟨iuSame_refl _, trivial⟩

/-- Where a wait stands after its condition has been looked at (R24, R25). -/
theorem unpark_wait (t : Thread) (h : t.pend = none) : (unpark t).wait =
    match t.wait with
    | .drain | .ret | .bar => if t.ctx.outst == 0 then .run else t.wait
    | .limit => if t.ctx.outst < 15 then .run else t.wait
    | _ => t.wait := by
  unfold unpark
  rw [h]
  simp only [Option.isSome_none, Bool.false_eq_true, if_false]
  split <;> (try split) <;> simp_all

/-- Retirement of an instruction of a line with nothing due, with the wait that it begins (R25, R75 step 12): the state `s` is
that of the instruction's effect, in which its thread is `x`. -/
theorem retire_line (s : State) (x : Thread) (h : Hdr) (pc : VAddr) (w : Wait) (hf : findThread s x.key = some x)
    (hc : inCl1 x = true) (hp : x.pend = none) (hz : x.ctx.frz = false) (hn : x.cancel = false) (hst : x.ctx.step = false)
    (hr : fatalRec x.trap = none) (hu : ∀ r ∈ s.flight.reqs, r.key = x.key → isUnrecorded r = false) :
    (∃ y, findThread (retire s x.key h pc w) x.key = some y ∧ y.ctx = { x.ctx with pc := pc, wkind := y.ctx.wkind } ∧ y.trap = x.trap ∧
        y.wait = (unpark { x with wait := if w == .run && h.w then .drain else w }).wait ∧ (y.wait = .run → y.ctx.wkind = 0) ∧
        y.bench = x.bench ∧ y.loc = x.loc) ∧
      (∀ k, k ≠ x.key → findThread (retire s x.key h pc w) k = findThread s k) ∧ RestSame s (retire s x.key h pc w) ∧
      ∀ b u, IuSame (getIu (retire s x.key h pc w) b u) (getIu s b u) ∧ (getIu (retire s x.key h pc w) b u).perf =
        if b = x.bench ∧ u = iuAt x then (getIu s b u).perf.modify 0 (· + 1) else (getIu s b u).perf := by
  let wt : Wait := if w == .run && h.w then .drain else w
  let x1 : Thread := { x with ctx := { x.ctx with pc := pc }, wait := wt }
  let s1 := setThread s x1
  have f1 : findThread s1 x1.key = some x1 := by
    show findThread (setThread s x1) x1.key = _
    rw [findThread_setThread]
    show (findThread s x.key).map _ = _
    rw [hf]; rfl
  obtain ⟨m1, m2, m3, m4⟩ := markIssue_spec s1 x1 h f1
  let x2 : Thread := { x1 with yp := h.yp, lh := h.lh, lastIssue := s1.run.now, lastIu := some (x1.bench, iuAt x1) }
  let s2 := count (markIssue s1 x.key h) x.bench (iuAt x) 0
  obtain ⟨c1, c2, c3⟩ := count_spec (markIssue s1 x.key h) x.bench (iuAt x) 0
  have f2 : findThread s2 x2.key = some x2 := (c1 _).trans m1
  have fl : s2.flight = s.flight := (c2.flight.trans m3.flight)
  obtain ⟨⟨y, y1, y2, y3⟩, z1, z2, z3⟩ := settle_line s2 x2 f2 hc hp hr hz hn (by rw [fl]; exact hu)
  have e : retire s x.key h pc w = settle s2 x.key := by
    unfold retire
    rw [hf]
    have : (x.ctx.step = true) = False := by simp [hst]
    simp only [this, if_false]
    rfl
  rw [e]
  have yu : y = { unpark x2 with ctx := { x2.ctx with wkind := y.ctx.wkind }, ready := none } := y2
  have yw : y.wait = (unpark x2).wait := by rw [yu]
  rw [unpark_parts x2] at yu
  refine ⟨⟨y, y1, ?_, ?_, ?_, y3, ?_, ?_⟩, ?_, (show RestSame s s1 from restSame_setThread s x1).trans (m3.trans (c2.trans z2)), ?_⟩
  · rw [yu]
  · rw [yu]
  · rw [yw]
    have hp2 : x2.pend = none := hp
    rw [unpark_wait x2 hp2, unpark_wait { x with wait := wt } hp]
  · rw [yu]
  · rw [yu]
  · intro j hj
    rw [z1 j hj]
    exact (c1 j).trans ((m2 j hj).trans (findThread_setThread_other s x1 j hj))
  · intro b u
    refine ⟨((z3 b u).1.trans (c3 b u).1).trans (m4 b u).1, ?_⟩
    rw [(z3 b u).2, (c3 b u).2, (m4 b u).2]
    rfl

/-- The same for a line that runs. -/
theorem retire_wait (s : State) (x : Thread) (h : Hdr) (pc : VAddr) (w : Wait) (hf : findThread s x.key = some x)
    (hq : quiet s x = true) :
    (∃ y, findThread (retire s x.key h pc w) x.key = some y ∧ y.ctx = { x.ctx with pc := pc, wkind := y.ctx.wkind } ∧ y.trap = x.trap ∧
        y.wait = (unpark { x with wait := if w == .run && h.w then .drain else w }).wait ∧ (y.wait = .run → y.ctx.wkind = 0) ∧
        y.bench = x.bench ∧ y.loc = x.loc) ∧
      (∀ k, k ≠ x.key → findThread (retire s x.key h pc w) k = findThread s k) ∧ RestSame s (retire s x.key h pc w) ∧
      ∀ b u, IuSame (getIu (retire s x.key h pc w) b u) (getIu s b u) ∧ (getIu (retire s x.key h pc w) b u).perf =
        if b = x.bench ∧ u = iuAt x then (getIu s b u).perf.modify 0 (· + 1) else (getIu s b u).perf := by
  rw [quiet_iff] at hq
  obtain ⟨hc, -, hp, hz, hn, hst, hr, hu⟩ := hq
  exact retire_line s x h pc w hf hc hp hz hn hst hr hu

/-- Retirement of an instruction that begins no wait of its own (R25, R75 step 12). -/
theorem retire_spec (s : State) (x : Thread) (h : Hdr) (pc : VAddr) (hf : findThread s x.key = some x) (hq : quiet s x = true) :
    Retired s (retire s x.key h pc .run) x h x.ctx pc := by
  obtain ⟨⟨y, y1, y2, y3, y4, y5, y6, y7⟩, z1, z2, z3⟩ := retire_wait s x h pc .run hf hq
  have hp : x.pend = none := ((quiet_iff _ _).mp hq).2.2.1
  refine ⟨⟨y, y1, y2, y3, ?_, y5, y6, y7⟩, z1, z2.mem, z2.cache, z2.mmu, z2.flight, z2.spaces, z2.eng, z2.queues, z2.fw, z2.pkg, z2.run,
    fun b u => (z3 b u).1, fun b u => (z3 b u).2⟩
  rw [y4]
  rw [unpark_wait { x with wait := if Wait.run == Wait.run && h.w then Wait.drain else Wait.run } hp]
  cases h.w with
  | false => rfl
  | true =>
    simp only [beq_self_eq_true, Bool.and_self, if_true, Bool.true_and, bne_iff_ne, ne_eq]
    by_cases h0 : x.ctx.outst = 0
    · simp only [h0, beq_self_eq_true, if_true, not_true_eq_false, if_false]
    · simp only [h0, beq_iff_eq, if_false, not_false_eq_true, if_true]

/-- An instruction that waits for results retires as one with the switch marker does (R183). -/
theorem retire_drain (s : State) (k : Key) (h : Hdr) (pc : VAddr) : retire s k h pc .drain = retire s k { h with w := true } pc .run := rfl

theorem hazard_none (c : Ctx) (l : List (BitVec 8 × Opd × Bool)) (h : noneFrom c (l.map (·.2)) = true) : hazard c l = none := by
  simp only [noneFrom, List.all_map, List.all_eq_true, Function.comp_apply, Bool.not_eq_true'] at h
  simp only [hazard, Option.map_eq_none_iff, List.find?_eq_none, Bool.not_eq_true]
  exact h

/-- The common checks pass: the instruction's body runs (R75 steps 8 to 10). -/
theorem issue_body {s : State} {t : Thread} {i : Instr} {h : Hdr} {priv : Bool} {regs : List (BitVec 8 × Opd × Bool)}
    {body : State → Thread → Did} (hi : issues s t h = true) (hr : noneFrom t.ctx (regs.map (·.2)) = true)
    (hp : priv = true → t.ctx.sup = true) {s1 : State} {pc : VAddr} {w : Wait} (hb : body s t = .done s1 pc w) :
    issue s i h priv regs body = .next (retire s1 t.key h pc w) := by
  rw [issues_iff] at hi
  obtain ⟨hc, -, hg⟩ := hi
  unfold issue
  rw [hc]
  have h1 : ((getP t.ctx h.g ^^ h.n) == false) = false := by simp [hg]
  have h2 : (priv && !t.ctx.sup) = false := by
    cases hpv : priv with
    | false => rfl
    | true => simp [hp hpv]
  simp only [h1, h2, Bool.false_eq_true, if_false, hazard_none _ _ hr, hb]

/-- An instruction that only writes registers of its thread completes (R21, R25). -/
theorem issue_regs {s : State} {t : Thread} {i : Instr} {h : Hdr} {priv : Bool} {regs : List (BitVec 8 × Opd × Bool)}
    {body : State → Thread → Did} (hi : issues s t h = true) (hr : noneFrom t.ctx (regs.map (·.2)) = true)
    (hp : priv = true → t.ctx.sup = true) {c : Ctx} {pc : VAddr}
    (hb : body s t = .done (setThread s { t with ctx := c }) pc .run) (hz : c.frz = t.ctx.frz) (hs : c.step = t.ctx.step) :
    ∃ s', issue s i h priv regs body = .next s' ∧ Retired s s' t h c pc := by
  refine ⟨_, issue_body hi hr hp hb, ?_⟩
  have hf := current_find ((issues_iff _ _ _).mp hi).1
  have hq := ((issues_iff _ _ _).mp hi).2.1
  let x : Thread := { t with ctx := c }
  have f1 : findThread (setThread s x) x.key = some x := by
    rw [findThread_setThread]
    show (findThread s t.key).map _ = _
    rw [hf]; rfl
  have q1 : quiet (setThread s x) x = true := by
    rw [quiet_iff] at hq ⊢
    exact ⟨hq.1, hq.2.1, hq.2.2.1, hz.trans hq.2.2.2.1, hq.2.2.2.2.1, hs.trans hq.2.2.2.2.2.1, hq.2.2.2.2.2.2.1, hq.2.2.2.2.2.2.2⟩
  have r := retire_spec (setThread s x) x h pc f1 q1
  exact ⟨⟨r.line.line⟩, fun k hk => (r.others k hk).trans (findThread_setThread_other s x k hk), r.mem, r.cache, r.mmu, r.flight,
    r.spaces, r.eng, r.queues, r.fw, r.pkg, r.run, r.ius, r.perf⟩

/-! What the setters of a line keep. -/

section setters
variable (c : Ctx) (n : BitVec 2) (m : BitVec 3) (v : Word) (x : Vec) (o : Opd) (w b : Bool) (t : Ty) (sh : Shape)

@[simp] theorem setS_pc : (setS c n v).pc = c.pc := by unfold setS; split <;> rfl
@[simp] theorem setS_frz : (setS c n v).frz = c.frz := by unfold setS; split <;> rfl
@[simp] theorem setS_step : (setS c n v).step = c.step := by unfold setS; split <;> rfl
@[simp] theorem setS_outst : (setS c n v).outst = c.outst := by unfold setS; split <;> rfl
@[simp] theorem setV_pc : (setV c n x).pc = c.pc := by unfold setV; split <;> rfl
@[simp] theorem setV_frz : (setV c n x).frz = c.frz := by unfold setV; split <;> rfl
@[simp] theorem setV_step : (setV c n x).step = c.step := by unfold setV; split <;> rfl
@[simp] theorem setP_pc : (setP c m b).pc = c.pc := by unfold setP; split <;> rfl
@[simp] theorem setP_frz : (setP c m b).frz = c.frz := by unfold setP; split <;> rfl
@[simp] theorem setP_step : (setP c m b).step = c.step := by unfold setP; split <;> rfl
@[simp] theorem setDst_pc : (setDst c o w x).pc = c.pc := by unfold setDst; split <;> (try split) <;> simp [setPair]
@[simp] theorem setDst_frz : (setDst c o w x).frz = c.frz := by unfold setDst; split <;> (try split) <;> simp [setPair]
@[simp] theorem setDst_step : (setDst c o w x).step = c.step := by unfold setDst; split <;> (try split) <;> simp [setPair]
@[simp] theorem putInt_pc : (putInt c t sh o x).pc = c.pc := by unfold putInt; split <;> simp
@[simp] theorem putInt_frz : (putInt c t sh o x).frz = c.frz := by unfold putInt; split <;> simp
@[simp] theorem putInt_step : (putInt c t sh o x).step = c.step := by unfold putInt; split <;> simp
@[simp] theorem putF_pc : (putF c t sh o x).pc = c.pc := by unfold putF; simp
@[simp] theorem putF_frz : (putF c t sh o x).frz = c.frz := by unfold putF; simp
@[simp] theorem putF_step : (putF c t sh o x).step = c.step := by unfold putF; simp

end setters

end Sys2Proof.Machine
end

