-- ==== Sys2Proof/Laws/Access.lean ====
section
/-! SUPPORT. What translating, entering a request and handing it over do to the state. -/

namespace Sys2Proof.Machine
open Sys2Proof.Forms

/-- The state with every part that a translation does not touch replaced. -/
def around (run : Run) (th : List Thread) (fl : Flight) (en : Engines) (qs : Queues) (s : State) : State :=
  { s with run := run, threads := th, flight := fl, eng := en, queues := qs }

/-- The outcome of a translation, its state changed by a function. -/
def onTrans (f : State → State) : Trans → Trans
  | .ok p s => .ok p (f s)
  | .wait => .wait
  | .busy s => .busy (f s)
  | .bad st => .bad st
  | .notHbm a => .notHbm a

section
variable (run : Run) (th : List Thread) (fl : Flight) (en : Engines) (qs : Queues)

theorem sendBisnp_around (s : State) (line : Phys) (inv : Bool) :
    sendBisnp (around run th fl en qs s) line inv = around run th fl en qs (sendBisnp s line inv) := by
  unfold sendBisnp
  dsimp only
  split <;> split <;> simp_all [around, emit]

theorem walk_around (s : State) (va n table : Nat) : walk (around run th fl en qs s) va n table = walk s va n table := by
  induction n generalizing table with
  | zero => rfl
  | succ n ih =>
    unfold walk
    simp only [ih]
    rfl

theorem useLeaf_around (s : State) (e : TlbEnt) (k : Want) (a : Nat) :
    useLeaf (around run th fl en qs s) e k a = onTrans (around run th fl en qs) (useLeaf s e k a) := by
  unfold useLeaf
  have h1 : ∀ f, reservedFrame (around run th fl en qs s) f = reservedFrame s f := fun _ => rfl
  have h2 : ∀ x d, markWaits (around run th fl en qs s) x d = markWaits s x d := fun _ _ => rfl
  simp only [h1, h2, sendBisnp_around]
  split
  · rfl
  · split
    · rfl
    · split
      · rfl
      · cases leafPhys a e.pte (Nat.log2 e.size) with
        | dev x =>
          by_cases hx : x < Config.hbmBytes
          · cases k.write <;> simp only [hx, if_true, if_false, Bool.false_eq_true] <;> rfl
          · simp only [hx, if_false]; rfl
        | hostC _ => cases k.write <;> rfl
        | hostU _ => cases k.write <;> rfl
        | peer _ _ _ => cases k.write <;> rfl

theorem tlbAdd_around (s : State) (x : TlbEnt) :
    tlbAdd (around run th fl en qs s) x = around run th fl en qs (tlbAdd s x) := rfl

theorem countMiss_around (s : State) (l : TlbAt) :
    countMiss (around run th fl en qs s) l = around run th fl en qs (countMiss s l) := by cases l <;> rfl

theorem markPte_around (s : State) (a : Nat) (d : Bool) :
    markPte (around run th fl en qs s) a d = around run th fl en qs (markPte s a d) := rfl

/-- A translation reads and writes memory, TLBs, miss counts and the host's copies of page tables only: it commutes with every
other part (R342, R344). -/
theorem translate_around (s : State) (l : TlbAt) (asid : BitVec 16) (k : Want) (va : Word) :
    translate (around run th fl en qs s) l asid k va = onTrans (around run th fl en qs) (translate s l asid k va) := by
  unfold translate
  have h1 : findSpace (around run th fl en qs s) asid = findSpace s asid := rfl
  have h2 : ∀ l, tlbFind (around run th fl en qs s) l asid va.toNat = tlbFind s l asid va.toNat := fun _ => rfl
  have h3 : ∀ x d, markWaits (around run th fl en qs s) x d = markWaits s x d := fun _ _ => rfl
  rw [h1]
  cases findSpace s asid with
  | none => rfl
  | some sp =>
    dsimp only
    split
    · rfl
    · split
      · rfl
      · simp only [h2, h3, walk_around, sendBisnp_around]
        cases tlbFind s l asid va.toNat with
        | some e => exact useLeaf_around run th fl en qs s e k _
        | none =>
          dsimp only
          cases (tlbBack l).bind (fun b => tlbFind s b asid va.toNat) with
          | some e =>
            dsimp only
            rw [countMiss_around, tlbAdd_around, useLeaf_around]
          | none =>
            dsimp only
            cases walk s va.toNat 5 (sp.ptroot.toNat * 4096) with
            | leaf lv addr e =>
              dsimp only
              split
              · rfl
              · rw [countMiss_around, tlbAdd_around, markPte_around]
                cases tlbBack l with
                | none => dsimp only; rw [useLeaf_around]
                | some b => dsimp only; rw [tlbAdd_around, useLeaf_around]
            | _ => rfl
end

/-- What a translation leaves as it is. -/
structure TransKeeps (s s1 : State) : Prop where
  eq : s1 = { s with mem := s1.mem, mmu := s1.mmu, ius := s1.ius }
  ius : ∀ b u, IuSame (getIu s1 b u) (getIu s b u)

theorem TransKeeps.refl (s : State) : TransKeeps s s := ⟨rfl, fun _ _ => iuSame_refl _⟩

theorem TransKeeps.trans {a b c : State} (h : TransKeeps a b) (g : TransKeeps b c) : TransKeeps a c :=
  ⟨by have h1 := h.eq; have g1 := g.eq; rw [h1] at g1; exact g1, fun x y => (g.ius x y).trans (h.ius x y)⟩

theorem keeps_countMiss (s : State) (l : TlbAt) : TransKeeps s (countMiss s l) := by
  cases l with
  | data b u => exact ⟨rfl, fun x y => ((count_spec s b u 7).2.2 x y).1⟩
  | instr b u => exact ⟨rfl, fun x y => ((count_spec s b u 8).2.2 x y).1⟩
  | bench b => exact TransKeeps.refl s

theorem keeps_tlbAdd (s : State) (x : TlbEnt) : TransKeeps s (tlbAdd s x) := ⟨rfl, fun _ _ => iuSame_refl _⟩

theorem keeps_markPte (s : State) (a : Nat) (d : Bool) : TransKeeps s (markPte s a d) := ⟨rfl, fun _ _ => iuSame_refl _⟩

theorem useLeaf_keeps {s s1 : State} {e : TlbEnt} {k : Want} {a : Nat} {p : Phys} (h : useLeaf s e k a = .ok p s1) :
    TransKeeps s s1 := by
  have hw : TransKeeps s (if k.write then markPte s e.pteAddr true else s) := by
    split
    · exact keeps_markPte _ _ _
    · exact TransKeeps.refl s
  unfold useLeaf at h
  dsimp only at h
  split at h
  · cases h
  · split at h
    · cases h
    · split at h
      · cases h
      · split at h
        · split at h
          · cases h; exact hw
          · cases h
        · cases h; exact hw

/-- A translation changes memory (accessed and dirty bits), TLBs and miss counts, and nothing else (R342, R344). -/
theorem translate_keeps {s s1 : State} {l : TlbAt} {asid : BitVec 16} {k : Want} {va : Word} {p : Phys}
    (h : translate s l asid k va = .ok p s1) : TransKeeps s s1 := by
  unfold translate at h
  dsimp only at h
  split at h
  · cases h
  · split at h
    · cases h
    · split at h
      · cases h
      · split at h
        · exact useLeaf_keeps h
        · split at h
          · exact ((keeps_countMiss s l).trans (keeps_tlbAdd _ _)).trans (useLeaf_keeps h)
          · split at h
            · cases h
            · cases h
            · cases h
            · cases h
            · cases h
            · split at h
              · cases h
              · refine TransKeeps.trans ?_ (useLeaf_keeps h)
                split
                · exact (((keeps_countMiss s l).trans (keeps_tlbAdd _ _)).trans (keeps_markPte _ _ _)).trans (keeps_tlbAdd _ _)
                · exact ((keeps_countMiss s l).trans (keeps_tlbAdd _ _)).trans (keeps_markPte _ _ _)

/-! Entering a request. -/

theorem foldl_max_le {α : Type} (f : α → Nat) (l : List α) (n : Nat) : n ≤ l.foldl (fun n x => max n (f x + 1)) n := by
  induction l generalizing n with
  | nil => exact Nat.le_refl n
  | cons y l ih => exact (Nat.le_max_left _ _).trans (ih _)

theorem foldl_max_lt {α : Type} (f : α → Nat) (l : List α) (n : Nat) (x : α) (h : x ∈ l) :
    f x < l.foldl (fun n x => max n (f x + 1)) n := by
  induction l generalizing n with
  | nil => cases h
  | cons y l ih =>
    rcases List.mem_cons.mp h with rfl | h
    · exact (Nat.lt_of_lt_of_le (Nat.lt_succ_self _) (Nat.le_max_right _ _)).trans_le (foldl_max_le f l _)
    · exact ih _ h

/-- A new number is above that of every request in flight. -/
theorem nextSeq_reqs (s : State) (r : Req) (h : r ∈ s.flight.reqs) : r.id < nextSeq s :=
  (foldl_max_lt (·.id) _ _ r h).trans_le (foldl_max_le (fun c : Cmd => c.id) _ _)

/-- A new number is above that of every engine command. -/
theorem nextSeq_cmds (s : State) (c : Cmd) (h : c ∈ s.eng.cmds) : c.id < nextSeq s := foldl_max_lt (·.id) _ _ c h

theorem modifyFirst_append {α : Type} (p : α → Bool) (f : α → α) (l m : List α) (h : ∀ x ∈ l, p x = false) :
    modifyFirst p f (l ++ m) = l ++ modifyFirst p f m := by
  induction l with
  | nil => rfl
  | cons y l ih => simp [modifyFirst, h y (by simp), ih fun x hx => h x (by simp [hx])]

@[simp] theorem onlyLoads_id (r : Req) (p : Phys) : (onlyLoads r p).id = r.id := by unfold onlyLoads; split <;> rfl
@[simp] theorem onlyLoads_st (r : Req) (p : Phys) : (onlyLoads r p).st = r.st := by unfold onlyLoads; split <;> rfl
@[simp] theorem onlyLoads_key (r : Req) (p : Phys) : (onlyLoads r p).key = r.key := by unfold onlyLoads; split <;> rfl

theorem badKind_of (s s' : State) (r r' : Req) (p : Phys) (h : s'.fw = s.fw) (ho : r'.op = r.op) (hn : r'.n = r.n) :
    badKind s' r' p = badKind s r p := by
  have hp : isPcie r' = isPcie r := by simp only [isPcie, ho, hn]
  cases p <;> simp only [badKind, h, ho, hp]

/-- The state after a located request has entered, before its instruction retires. -/
def entered (s s1 : State) (t : Thread) (r : Req) (p : Phys) (pends counts : Bool) : State :=
  around { s.run with seq := nextSeq s + 1 } (setThread s { t with ctx := enteredCtx t.ctx r pends counts }).threads
    { s.flight with reqs := s.flight.reqs ++ [handed s t r p] } s.eng s.queues s1

/-- A request that enters and translates is in the list with its location. -/
theorem resolve_entered {s s1 : State} {t : Thread} {r : Req} {p : Phys} {pends counts : Bool} (hctx : t.key.ctx ≠ 0)
    (htr : translate s (.data t.bench (iuAt t)) t.key.asid (wantOf r.op t.ctx.sup) r.va = .ok p s1) (hk : badKind s r p = none) :
    resolve (enter s t r pends counts).1 (enter s t r pends counts).2 = .ok (entered s s1 t r p pends counts) := by
  let r1 : Req := entry s t r
  have he : enter s t r pends counts =
      (around { s.run with seq := nextSeq s + 1 } (setThread s { t with ctx := enteredCtx t.ctx r pends counts }).threads
        { s.flight with reqs := s.flight.reqs ++ [r1] } s.eng s.queues s, r1) := rfl
  rw [he]
  have hc : (r1.key.ctx == 0) = false := by show (t.key.ctx == 0) = false; simpa using hctx
  unfold resolve
  have e1 : translate s (.data r1.bench r1.iu) r1.key.asid (wantOf r1.op r1.sup) r1.va = .ok p s1 := htr
  simp only [hc, Bool.false_eq_true, if_false, translate_around, e1, onTrans]
  have hfw : s1.fw = s.fw := by rw [(translate_keeps htr).eq]
  have hb : ∀ a b c d e, badKind (around a b c d e s1) r1 p = none := fun a b c d e =>
    (badKind_of s (around a b c d e s1) r r1 p hfw rfl rfl).trans hk
  simp only [hb]
  congr 1
  unfold putReq
  simp only [around, entered]
  congr 2
  rw [modifyFirst_append]
  · simp [modifyFirst, handed, r1]
  · intro x hx
    have := nextSeq_reqs s x hx
    simp only [onlyLoads_id, beq_eq_false_iff_ne, ne_eq]
    show ¬ x.id = nextSeq s
    omega

theorem submit_located {s s1 : State} {t : Thread} {r : Req} {p : Phys} {pends counts : Bool} {pc : VAddr} {w : Wait}
    (hfull : entriesFull s t = false) (hctx : t.key.ctx ≠ 0)
    (htr : translate s (.data t.bench (iuAt t)) t.key.asid (wantOf r.op t.ctx.sup) r.va = .ok p s1)
    (hk : badKind s r p = none) : submit s t r pends counts pc w = .done (entered s s1 t r p pends counts) pc w := by
  unfold submit
  simp only [hfull, Bool.false_eq_true, if_false]
  rw [resolve_entered hctx htr hk]

theorem foldl_max_eq {α : Type} (f : α → Nat) (l : List α) (n : Nat) (h : ∀ x ∈ l, f x < n) :
    l.foldl (fun n x => max n (f x + 1)) n = n := by
  induction l with
  | nil => rfl
  | cons y l ih =>
    have := h y (by simp)
    rw [List.foldl_cons, Nat.max_eq_left (by omega)]
    exact ih fun x hx => h x (by simp [hx])

/-- The number after that of an entered request. -/
theorem nextSeq_entered (s s1 : State) (t : Thread) (r : Req) (p : Phys) (pends counts : Bool) :
    nextSeq (entered s s1 t r p pends counts) = nextSeq s + 1 := by
  show s.eng.cmds.foldl (fun n c => max n (c.id + 1))
    ((s.flight.reqs ++ [handed s t r p]).foldl (fun n r => max n (r.id + 1)) (nextSeq s + 1)) = _
  rw [foldl_max_eq (fun r : Req => r.id) _ _ (by
    intro x hx
    rcases List.mem_append.mp hx with h | h
    · have := nextSeq_reqs s x h; omega
    · rw [List.mem_singleton.mp h]; simp [handed, entry])]
  exact foldl_max_eq (fun c : Cmd => c.id) _ _ fun x hx => by have := nextSeq_cmds s x hx; omega

@[simp] theorem enteredCtx_frz (c : Ctx) (r : Req) (p q : Bool) : (enteredCtx c r p q).frz = c.frz := by
  cases p <;> cases q <;> rfl
@[simp] theorem enteredCtx_step (c : Ctx) (r : Req) (p q : Bool) : (enteredCtx c r p q).step = c.step := by
  cases p <;> cases q <;> rfl

/-- An instruction whose body hands over one located request completes (R172, R175); `s0` is the state in which it does, the
issuing state but for what the instruction did before. -/
theorem issue_submit_at {s s0 s1 : State} {t : Thread} {i : Instr} {h : Hdr} {priv : Bool} {regs : List (BitVec 8 × Opd × Bool)}
    {body : State → Thread → Did} {r : Req} {p : Phys} {pends counts : Bool} {pc : VAddr}
    (hi : issues s t h = true) (hr : noneFrom t.ctx (regs.map (·.2)) = true) (hp : priv = true → t.ctx.sup = true)
    (hb : body s t = submit s0 t r pends counts pc .run) (hf : findThread s0 t.key = some t)
    (hl : s0.flight.reqs = s.flight.reqs) (hfull : entriesFull s0 t = false) (hctx : t.key.ctx ≠ 0)
    (htr : translate s0 (.data t.bench (iuAt t)) t.key.asid (wantOf r.op t.ctx.sup) r.va = .ok p s1)
    (hk : badKind s0 r p = none) :
    ∃ s', issue s i h priv regs body = .next s' ∧
      Handed s0 s' s1 t h (enteredCtx t.ctx r pends counts) pc [handed s0 t r p] := by
  rw [submit_located hfull hctx htr hk] at hb
  refine ⟨_, issue_body hi hr hp hb, ?_⟩
  have hq := ((issues_iff _ _ _).mp hi).2.1
  have tk := translate_keeps htr
  let x : Thread := { t with ctx := enteredCtx t.ctx r pends counts }
  let s2 := entered s0 s1 t r p pends counts
  have ft : ∀ k, findThread s2 k = findThread (setThread s0 x) k := fun _ => rfl
  have f1 : findThread s2 x.key = some x := by
    rw [ft, findThread_setThread]
    show (findThread s0 t.key).map _ = _
    rw [hf]; rfl
  have q1 : quiet s2 x = true := by
    rw [quiet_iff] at hq ⊢
    refine ⟨hq.1, hq.2.1, hq.2.2.1, (enteredCtx_frz _ _ _ _).trans hq.2.2.2.1, hq.2.2.2.2.1,
      (enteredCtx_step _ _ _ _).trans hq.2.2.2.2.2.1, hq.2.2.2.2.2.2.1, ?_⟩
    intro y hy hk
    have : y ∈ s0.flight.reqs ++ [handed s0 t r p] := hy
    rw [hl] at this
    rcases List.mem_append.mp this with h1 | h1
    · exact hq.2.2.2.2.2.2.2 y h1 hk
    · rw [List.mem_singleton.mp h1]; rfl
  have z := retire_spec s2 x h pc f1 q1
  have hs1 : s1.spaces = s0.spaces ∧ s1.pkg = s0.pkg ∧ s1.cache = s0.cache ∧ s1.fw = s0.fw := by
    rw [tk.eq]; exact ⟨rfl, rfl, rfl, rfl⟩
  exact ⟨⟨z.line.line⟩, fun k hk => (z.others k hk).trans ((ft k).trans (findThread_setThread_other s0 x k hk)), by rw [z.flight]; rfl,
    by rw [z.flight]; rfl, by rw [z.flight]; rfl, z.mem, z.mmu, z.cache.trans hs1.2.2.1, z.spaces.trans hs1.1, z.eng, z.queues,
    z.fw.trans hs1.2.2.2, z.pkg.trans hs1.2.1,
    fun b u => (z.ius b u).trans (tk.ius b u)⟩

/-- The same when the instruction did nothing before. -/
theorem issue_submit {s s1 : State} {t : Thread} {i : Instr} {h : Hdr} {priv : Bool} {regs : List (BitVec 8 × Opd × Bool)}
    {body : State → Thread → Did} {r : Req} {p : Phys} {pends counts : Bool} {pc : VAddr}
    (hi : issues s t h = true) (hr : noneFrom t.ctx (regs.map (·.2)) = true) (hp : priv = true → t.ctx.sup = true)
    (hb : body s t = submit s t r pends counts pc .run) (hfull : entriesFull s t = false) (hctx : t.key.ctx ≠ 0)
    (htr : translate s (.data t.bench (iuAt t)) t.key.asid (wantOf r.op t.ctx.sup) r.va = .ok p s1)
    (hk : badKind s r p = none) :
    ∃ s', issue s i h priv regs body = .next s' ∧
      Handed s s' s1 t h (enteredCtx t.ctx r pends counts) pc [handed s t r p] :=
  issue_submit_at hi hr hp hb (current_find ((issues_iff _ _ _).mp hi).1) rfl hfull hctx htr hk

/-- An instruction whose body enters one request without translating it completes (R172). -/
theorem issue_enter {s : State} {t : Thread} {i : Instr} {h : Hdr} {priv : Bool} {regs : List (BitVec 8 × Opd × Bool)}
    {body : State → Thread → Did} {r : Req} {pends counts : Bool} {pc : VAddr}
    (hi : issues s t h = true) (hr : noneFrom t.ctx (regs.map (·.2)) = true) (hp : priv = true → t.ctx.sup = true)
    (hb : body s t = .done (enter s t r pends counts).1 pc .run) (hu : isUnrecorded r = false) :
    ∃ s', issue s i h priv regs body = .next s' ∧ Handed s s' s t h (enteredCtx t.ctx r pends counts) pc [entry s t r] := by
  refine ⟨_, issue_body hi hr hp hb, ?_⟩
  have hf := current_find ((issues_iff _ _ _).mp hi).1
  have hq := ((issues_iff _ _ _).mp hi).2.1
  let x : Thread := { t with ctx := enteredCtx t.ctx r pends counts }
  let s2 := (enter s t r pends counts).1
  have ft : ∀ k, findThread s2 k = findThread (setThread s x) k := fun _ => rfl
  have f1 : findThread s2 x.key = some x := by
    rw [ft, findThread_setThread]
    show (findThread s t.key).map _ = _
    rw [hf]; rfl
  have q1 : quiet s2 x = true := by
    rw [quiet_iff] at hq ⊢
    refine ⟨hq.1, hq.2.1, hq.2.2.1, (enteredCtx_frz _ _ _ _).trans hq.2.2.2.1, hq.2.2.2.2.1,
      (enteredCtx_step _ _ _ _).trans hq.2.2.2.2.2.1, hq.2.2.2.2.2.2.1, ?_⟩
    intro y hy hk
    have : y ∈ s.flight.reqs ++ [entry s t r] := hy
    rcases List.mem_append.mp this with h1 | h1
    · exact hq.2.2.2.2.2.2.2 y h1 hk
    · rw [List.mem_singleton.mp h1]; exact hu
  have z := retire_spec s2 x h pc f1 q1
  exact ⟨⟨z.line.line⟩, fun k hk => (z.others k hk).trans ((ft k).trans (findThread_setThread_other s x k hk)), by rw [z.flight]; rfl,
    by rw [z.flight]; rfl, by rw [z.flight]; rfl, z.mem, z.mmu, z.cache, z.spaces, z.eng, z.queues, z.fw, z.pkg, z.ius⟩

/-- An instruction that changes the state outside its own line and then retires (R75 step 12): `s2` is the changed state. -/
theorem issue_on {s s2 : State} {t : Thread} {i : Instr} {h : Hdr} {priv : Bool} {regs : List (BitVec 8 × Opd × Bool)}
    {body : State → Thread → Did} {c : Ctx} {pc : VAddr}
    (hi : issues s t h = true) (hr : noneFrom t.ctx (regs.map (·.2)) = true) (hp : priv = true → t.ctx.sup = true)
    (hb : body s t = .done (setThread s2 { t with ctx := c }) pc .run) (hf2 : findThread s2 t.key = some t)
    (hl : s2.flight.reqs = s.flight.reqs) (hz : c.frz = t.ctx.frz) (hs : c.step = t.ctx.step) :
    ∃ s', issue s i h priv regs body = .next s' ∧ Retired s2 s' t h c pc := by
  refine ⟨_, issue_body hi hr hp hb, ?_⟩
  have hq := ((issues_iff _ _ _).mp hi).2.1
  let x : Thread := { t with ctx := c }
  have f1 : findThread (setThread s2 x) x.key = some x := by
    rw [findThread_setThread]
    show (findThread s2 t.key).map _ = _
    rw [hf2]; rfl
  have q1 : quiet (setThread s2 x) x = true := by
    rw [quiet_iff] at hq ⊢
    refine ⟨hq.1, hq.2.1, hq.2.2.1, hz.trans hq.2.2.2.1, hq.2.2.2.2.1, hs.trans hq.2.2.2.2.2.1, hq.2.2.2.2.2.2.1, ?_⟩
    intro y hy hk
    have : y ∈ s2.flight.reqs := hy
    rw [hl] at this
    exact hq.2.2.2.2.2.2.2 y this hk
  have r := retire_spec (setThread s2 x) x h pc f1 q1
  exact ⟨⟨r.line.line⟩, fun k hk => (r.others k hk).trans (findThread_setThread_other s2 x k hk), r.mem, r.cache, r.mmu, r.flight,
    r.spaces, r.eng, r.queues, r.fw, r.pkg, r.run, r.ius, r.perf⟩

/-- The same for an instruction that writes no register of its line. -/
theorem issue_keep {s s2 : State} {t : Thread} {i : Instr} {h : Hdr} {priv : Bool} {regs : List (BitVec 8 × Opd × Bool)}
    {body : State → Thread → Did} {pc : VAddr}
    (hi : issues s t h = true) (hr : noneFrom t.ctx (regs.map (·.2)) = true) (hp : priv = true → t.ctx.sup = true)
    (hb : body s t = .done s2 pc .run) (hf2 : findThread s2 t.key = some t) (hl : s2.flight.reqs = s.flight.reqs) :
    ∃ s', issue s i h priv regs body = .next s' ∧ Retired s2 s' t h t.ctx pc := by
  refine ⟨_, issue_body hi hr hp hb, ?_⟩
  have hq := ((issues_iff _ _ _).mp hi).2.1
  have q1 : quiet s2 t = true := by
    rw [quiet_iff] at hq ⊢
    refine ⟨hq.1, hq.2.1, hq.2.2.1, hq.2.2.2.1, hq.2.2.2.2.1, hq.2.2.2.2.2.1, hq.2.2.2.2.2.2.1, ?_⟩
    intro y hy hk
    rw [hl] at hy
    exact hq.2.2.2.2.2.2.2 y hy hk
  exact retire_spec s2 t h pc hf2 q1

end Sys2Proof.Machine
end

