-- ==== Sys2Proof/Laws/Encoding.lean ====
section
/-! SUPPORT. The fields of an encoded word, and when a word decodes (02_encoding R49 to R77). -/
set_option linter.unusedSimpArgs false

namespace Sys2Proof.Decode
open Sys2Proof.Forms

theorem bit_eq (b : Bool) : (bit b == 1) = b := by cases b <;> rfl

section low
variable (opc : BitVec 10) (h : Hdr) (d a b : BitVec 7) (x : BitVec 56)

theorem fld_high {lo n : Nat} (hn : 40 ≤ lo) : fld (x ++ low opc h d a b) lo n = x.extractLsb' (lo - 40) n :=
  BitVec.extractLsb'_append_eq_of_le hn

theorem fld_low {lo n : Nat} (hn : lo + n ≤ 40) : fld (x ++ low opc h d a b) lo n = (low opc h d a b).extractLsb' lo n :=
  BitVec.extractLsb'_append_eq_of_add_le hn

theorem low_opc : fld (x ++ low opc h d a b) 0 10 = opc := by
  simp (disch := decide) only [fld, low, BitVec.extractLsb'_append_eq_of_add_le, BitVec.extractLsb'_eq_self]
theorem low_res : fld (x ++ low opc h d a b) 17 2 = 0 := by
  simp (disch := decide) only [fld, low, BitVec.extractLsb'_append_eq_of_le, BitVec.extractLsb'_append_eq_of_add_le,
    BitVec.extractLsb'_eq_self, Nat.reduceSub]
theorem low_d : fld (x ++ low opc h d a b) 19 7 = d := by
  simp (disch := decide) only [fld, low, BitVec.extractLsb'_append_eq_of_le, BitVec.extractLsb'_append_eq_of_add_le,
    BitVec.extractLsb'_eq_self, Nat.reduceSub]
theorem low_a : fld (x ++ low opc h d a b) 26 7 = a := by
  simp (disch := decide) only [fld, low, BitVec.extractLsb'_append_eq_of_le, BitVec.extractLsb'_append_eq_of_add_le,
    BitVec.extractLsb'_eq_self, Nat.reduceSub]
theorem low_b : fld (x ++ low opc h d a b) 33 7 = b := by
  simp (disch := decide) only [fld, low, BitVec.extractLsb'_append_eq_of_le, BitVec.extractLsb'_append_eq_of_add_le,
    BitVec.extractLsb'_eq_self, Nat.reduceSub]
theorem low_hdr : hdr (x ++ low opc h d a b) = h := by
  simp (disch := decide) only [hdr, fld, low, BitVec.extractLsb'_append_eq_of_le, BitVec.extractLsb'_append_eq_of_add_le,
    BitVec.extractLsb'_eq_self, Nat.reduceSub, bit_eq]
end low

@[simp] theorem opd_code (o : Opd) : opdOf (opdCode o) = some o := by
  cases o with
  | s n => revert n; decide
  | v n => revert n; decide
  | p n => revert n; decide
  | imm n => revert n; decide
  | _ => decide
@[simp] theorem ty_code (t : Ty) : tyOf (tyCode t) = some t := by cases t <;> rfl
@[simp] theorem sh_code (t : Shape) : shOf (shCode t) = some t := by cases t <;> rfl
@[simp] theorem rm_code (t : Option RMode) : rmOf (rmCode t) = some t := by rcases t with _ | t; rfl; cases t <;> rfl
@[simp] theorem op_code (t : AOp) : opOf (opCode t) = some t := by cases t <;> rfl
@[simp] theorem ord_code (t : Ord) : ordOf (ordCode t) = t := by cases t <;> rfl
@[simp] theorem scp_code (t : Scope) : scpOf (scpCode t) = some t := by cases t <;> rfl
@[simp] theorem sgn_code (t : SgnOp) : sgnOf (sgnCode t) = some t := by cases t <;> rfl
@[simp] theorem cond_code (t : Cond) : condOf (condCode t) = t := by cases t <;> rfl
@[simp] theorem fcond_code (t : FCond) : fcondOf (fcondCode t) = t := by cases t <;> rfl

/-- A field that accepts an operand refuses it for no reason. -/
theorem refuse_none {r : Role} {o : Opd} {b : Bool} (h : accepts r o = true) (hb : b = true → isImm o = false) : refuse r b o = none := by
  cases b <;> cases r <;> cases o <;> simp_all [refuse, accepts, isDst, isPair, isImm] <;> rcases h with rfl | rfl <;> rfl


section wR
variable (opc : BitVec 10) (h : Hdr) (d a b c : BitVec 7) (px : BitVec 3) (ty : BitVec 5) (sh f3 : BitVec 3) (f : Bool) (aux : BitVec 32)
@[simp] theorem wR_opc : fld (wR opc h d a b c px ty sh f3 f aux) 0 10 = opc := low_opc ..
@[simp] theorem wR_res : fld (wR opc h d a b c px ty sh f3 f aux) 17 2 = 0 := low_res ..
@[simp] theorem wR_d : fld (wR opc h d a b c px ty sh f3 f aux) 19 7 = d := low_d ..
@[simp] theorem wR_a : fld (wR opc h d a b c px ty sh f3 f aux) 26 7 = a := low_a ..
@[simp] theorem wR_b : fld (wR opc h d a b c px ty sh f3 f aux) 33 7 = b := low_b ..
@[simp] theorem wR_hdr : hdr (wR opc h d a b c px ty sh f3 f aux) = h := low_hdr ..
@[simp] theorem wR_c : fld (wR opc h d a b c px ty sh f3 f aux) 40 7 = c := by
  simp (disch := decide) only [wR, fld_high, xR, BitVec.extractLsb'_append_eq_of_le, BitVec.extractLsb'_append_eq_of_add_le, BitVec.extractLsb'_eq_self, Nat.reduceSub]
@[simp] theorem wR_px : fld (wR opc h d a b c px ty sh f3 f aux) 47 3 = px := by
  simp (disch := decide) only [wR, fld_high, xR, BitVec.extractLsb'_append_eq_of_le, BitVec.extractLsb'_append_eq_of_add_le, BitVec.extractLsb'_eq_self, Nat.reduceSub]
@[simp] theorem wR_ty : fld (wR opc h d a b c px ty sh f3 f aux) 50 5 = ty := by
  simp (disch := decide) only [wR, fld_high, xR, BitVec.extractLsb'_append_eq_of_le, BitVec.extractLsb'_append_eq_of_add_le, BitVec.extractLsb'_eq_self, Nat.reduceSub]
@[simp] theorem wR_sh : fld (wR opc h d a b c px ty sh f3 f aux) 55 3 = sh := by
  simp (disch := decide) only [wR, fld_high, xR, BitVec.extractLsb'_append_eq_of_le, BitVec.extractLsb'_append_eq_of_add_le, BitVec.extractLsb'_eq_self, Nat.reduceSub]
@[simp] theorem wR_f3 : fld (wR opc h d a b c px ty sh f3 f aux) 58 3 = f3 := by
  simp (disch := decide) only [wR, fld_high, xR, BitVec.extractLsb'_append_eq_of_le, BitVec.extractLsb'_append_eq_of_add_le, BitVec.extractLsb'_eq_self, Nat.reduceSub]
@[simp] theorem wR_z : fld (wR opc h d a b c px ty sh f3 f aux) 61 2 = 0 := by
  simp (disch := decide) only [wR, fld_high, xR, BitVec.extractLsb'_append_eq_of_le, BitVec.extractLsb'_append_eq_of_add_le, BitVec.extractLsb'_eq_self, Nat.reduceSub]
@[simp] theorem wR_f : fld (wR opc h d a b c px ty sh f3 f aux) 63 1 = bit f := by
  simp (disch := decide) only [wR, fld_high, xR, BitVec.extractLsb'_append_eq_of_le, BitVec.extractLsb'_append_eq_of_add_le, BitVec.extractLsb'_eq_self, Nat.reduceSub]
@[simp] theorem wR_high {lo n : Nat} (hn : 64 ≤ lo) : fld (wR opc h d a b c px ty sh f3 f aux) lo n = aux.extractLsb' (lo - 64) n := by
  rw [wR, fld_high _ _ _ _ _ _ (by omega)]
  simp (disch := omega) only [xR, BitVec.extractLsb'_append_eq_of_le, Nat.sub_sub]
end wR

section wM
variable (opc : BitVec 10) (h : Hdr) (d a b : BitVec 7) (ord scp : BitVec 2) (far nt : Bool) (sc : BitVec 3) (ty : BitVec 5) (px : BitVec 3) (aop : BitVec 4) (disp : BitVec 32)
@[simp] theorem wM_opc : fld (wM opc h d a b ord scp far nt sc ty px aop disp) 0 10 = opc := low_opc ..
@[simp] theorem wM_res : fld (wM opc h d a b ord scp far nt sc ty px aop disp) 17 2 = 0 := low_res ..
@[simp] theorem wM_d : fld (wM opc h d a b ord scp far nt sc ty px aop disp) 19 7 = d := low_d ..
@[simp] theorem wM_a : fld (wM opc h d a b ord scp far nt sc ty px aop disp) 26 7 = a := low_a ..
@[simp] theorem wM_b : fld (wM opc h d a b ord scp far nt sc ty px aop disp) 33 7 = b := low_b ..
@[simp] theorem wM_hdr : hdr (wM opc h d a b ord scp far nt sc ty px aop disp) = h := low_hdr ..
@[simp] theorem wM_z : fld (wM opc h d a b ord scp far nt sc ty px aop disp) 40 3 = 0 := by
  simp (disch := decide) only [wM, fld_high, xM, BitVec.extractLsb'_append_eq_of_le, BitVec.extractLsb'_append_eq_of_add_le, BitVec.extractLsb'_eq_self, Nat.reduceSub]
@[simp] theorem wM_aop : fld (wM opc h d a b ord scp far nt sc ty px aop disp) 43 4 = aop := by
  simp (disch := decide) only [wM, fld_high, xM, BitVec.extractLsb'_append_eq_of_le, BitVec.extractLsb'_append_eq_of_add_le, BitVec.extractLsb'_eq_self, Nat.reduceSub]
@[simp] theorem wM_px : fld (wM opc h d a b ord scp far nt sc ty px aop disp) 47 3 = px := by
  simp (disch := decide) only [wM, fld_high, xM, BitVec.extractLsb'_append_eq_of_le, BitVec.extractLsb'_append_eq_of_add_le, BitVec.extractLsb'_eq_self, Nat.reduceSub]
@[simp] theorem wM_ty : fld (wM opc h d a b ord scp far nt sc ty px aop disp) 50 5 = ty := by
  simp (disch := decide) only [wM, fld_high, xM, BitVec.extractLsb'_append_eq_of_le, BitVec.extractLsb'_append_eq_of_add_le, BitVec.extractLsb'_eq_self, Nat.reduceSub]
@[simp] theorem wM_sc : fld (wM opc h d a b ord scp far nt sc ty px aop disp) 55 3 = sc := by
  simp (disch := decide) only [wM, fld_high, xM, BitVec.extractLsb'_append_eq_of_le, BitVec.extractLsb'_append_eq_of_add_le, BitVec.extractLsb'_eq_self, Nat.reduceSub]
@[simp] theorem wM_nt : fld (wM opc h d a b ord scp far nt sc ty px aop disp) 58 1 = bit nt := by
  simp (disch := decide) only [wM, fld_high, xM, BitVec.extractLsb'_append_eq_of_le, BitVec.extractLsb'_append_eq_of_add_le, BitVec.extractLsb'_eq_self, Nat.reduceSub]
@[simp] theorem wM_far : fld (wM opc h d a b ord scp far nt sc ty px aop disp) 59 1 = bit far := by
  simp (disch := decide) only [wM, fld_high, xM, BitVec.extractLsb'_append_eq_of_le, BitVec.extractLsb'_append_eq_of_add_le, BitVec.extractLsb'_eq_self, Nat.reduceSub]
@[simp] theorem wM_scp : fld (wM opc h d a b ord scp far nt sc ty px aop disp) 60 2 = scp := by
  simp (disch := decide) only [wM, fld_high, xM, BitVec.extractLsb'_append_eq_of_le, BitVec.extractLsb'_append_eq_of_add_le, BitVec.extractLsb'_eq_self, Nat.reduceSub]
@[simp] theorem wM_ord : fld (wM opc h d a b ord scp far nt sc ty px aop disp) 62 2 = ord := by
  simp (disch := decide) only [wM, fld_high, xM, BitVec.extractLsb'_append_eq_of_le, BitVec.extractLsb'_append_eq_of_add_le, BitVec.extractLsb'_eq_self, Nat.reduceSub]
@[simp] theorem wM_disp : fld (wM opc h d a b ord scp far nt sc ty px aop disp) 64 32 = disp := by
  simp (disch := decide) only [wM, fld_high, xM, BitVec.extractLsb'_append_eq_of_le, BitVec.extractLsb'_append_eq_of_add_le, BitVec.extractLsb'_eq_self, Nat.reduceSub]
end wM

section wE
variable (opc : BitVec 10) (h : Hdr) (d a b c : BitVec 7) (ty : BitVec 5) (np eop : BitVec 4) (eimm : BitVec 32)
@[simp] theorem wE_opc : fld (wE opc h d a b c ty np eop eimm) 0 10 = opc := low_opc ..
@[simp] theorem wE_res : fld (wE opc h d a b c ty np eop eimm) 17 2 = 0 := low_res ..
@[simp] theorem wE_d : fld (wE opc h d a b c ty np eop eimm) 19 7 = d := low_d ..
@[simp] theorem wE_a : fld (wE opc h d a b c ty np eop eimm) 26 7 = a := low_a ..
@[simp] theorem wE_b : fld (wE opc h d a b c ty np eop eimm) 33 7 = b := low_b ..
@[simp] theorem wE_hdr : hdr (wE opc h d a b c ty np eop eimm) = h := low_hdr ..
@[simp] theorem wE_z : fld (wE opc h d a b c ty np eop eimm) 40 4 = 0 := by
  simp (disch := decide) only [wE, fld_high, xE, BitVec.extractLsb'_append_eq_of_le, BitVec.extractLsb'_append_eq_of_add_le, BitVec.extractLsb'_eq_self, Nat.reduceSub]
@[simp] theorem wE_eop : fld (wE opc h d a b c ty np eop eimm) 44 4 = eop := by
  simp (disch := decide) only [wE, fld_high, xE, BitVec.extractLsb'_append_eq_of_le, BitVec.extractLsb'_append_eq_of_add_le, BitVec.extractLsb'_eq_self, Nat.reduceSub]
@[simp] theorem wE_np : fld (wE opc h d a b c ty np eop eimm) 48 4 = np := by
  simp (disch := decide) only [wE, fld_high, xE, BitVec.extractLsb'_append_eq_of_le, BitVec.extractLsb'_append_eq_of_add_le, BitVec.extractLsb'_eq_self, Nat.reduceSub]
@[simp] theorem wE_ty : fld (wE opc h d a b c ty np eop eimm) 52 5 = ty := by
  simp (disch := decide) only [wE, fld_high, xE, BitVec.extractLsb'_append_eq_of_le, BitVec.extractLsb'_append_eq_of_add_le, BitVec.extractLsb'_eq_self, Nat.reduceSub]
@[simp] theorem wE_c : fld (wE opc h d a b c ty np eop eimm) 57 7 = c := by
  simp (disch := decide) only [wE, fld_high, xE, BitVec.extractLsb'_append_eq_of_le, BitVec.extractLsb'_append_eq_of_add_le, BitVec.extractLsb'_eq_self, Nat.reduceSub]
@[simp] theorem wE_high {lo n : Nat} (hn : 64 ≤ lo) : fld (wE opc h d a b c ty np eop eimm) lo n = eimm.extractLsb' (lo - 64) n := by
  rw [wE, fld_high _ _ _ _ _ _ (by omega)]
  simp (disch := omega) only [xE, BitVec.extractLsb'_append_eq_of_le, Nat.sub_sub]
end wE

@[simp] theorem fOpc_def (w : IWord) : fOpc w = (fld w 0 10) := rfl
@[simp] theorem fD_def (w : IWord) : fD w = (fld w 19 7) := rfl
@[simp] theorem fA_def (w : IWord) : fA w = (fld w 26 7) := rfl
@[simp] theorem fB_def (w : IWord) : fB w = (fld w 33 7) := rfl
@[simp] theorem fC_def (w : IWord) : fC w = (fld w 40 7) := rfl
@[simp] theorem fPX_def (w : IWord) : fPX w = (fld w 47 3) := rfl
@[simp] theorem fTY_def (w : IWord) : fTY w = (fld w 50 5) := rfl
@[simp] theorem fSH_def (w : IWord) : fSH w = (fld w 55 3) := rfl
@[simp] theorem fF3_def (w : IWord) : fF3 w = (fld w 58 3) := rfl
@[simp] theorem fF_def (w : IWord) : fF w = (fld w 63 1 == 1) := rfl
@[simp] theorem fImm_def (w : IWord) : fImm w = (fld w 64 32) := rfl
@[simp] theorem fAOP_def (w : IWord) : fAOP w = (fld w 43 4) := rfl
@[simp] theorem fNT_def (w : IWord) : fNT w = (fld w 58 1 == 1) := rfl
@[simp] theorem fFAR_def (w : IWord) : fFAR w = (fld w 59 1 == 1) := rfl
@[simp] theorem fSCP_def (w : IWord) : fSCP w = (fld w 60 2) := rfl
@[simp] theorem fORD_def (w : IWord) : fORD w = (fld w 62 2) := rfl
@[simp] theorem eC_def (w : IWord) : eC w = (fld w 57 7) := rfl
@[simp] theorem eTY_def (w : IWord) : eTY w = (fld w 52 5) := rfl
@[simp] theorem eNP_def (w : IWord) : eNP w = (fld w 48 4) := rfl
@[simp] theorem eEOP_def (w : IWord) : eEOP w = (fld w 44 4) := rfl
@[simp] theorem rty_def (w : IWord) : rty w = (ty (fTY w)) := rfl
@[simp] theorem rsh_def (w : IWord) : rsh w = (sh (fSH w)) := rfl
@[simp] theorem ty_eq (t : Ty) : ty (tyCode t) = t := by cases t <;> rfl
@[simp] theorem sh_eq (t : Shape) : sh (shCode t) = t := by cases t <;> rfl
@[simp] theorem rrm_def (w : IWord) : rrm w = ((rmOf (fF3 w)).getD none) := rfl
@[simp] theorem rop_def (w : IWord) : rop w = ((opOf (fAOP w)).getD .add) := rfl
@[simp] theorem scp_def (w : IWord) : scp w = ((scpOf (fSCP w)).getD .dev) := rfl
@[simp] theorem mem_def (w : IWord) : mem w = ({ base := opd (fA w), idx := opd (fB w), sh := fSH w, disp := fImm w }) := rfl
@[simp] theorem srcB_def (w : IWord) : srcB w = (if fF w then .imm32 (fImm w) else .opd (opd (fB w))) := rfl
@[simp] theorem tyFld_def (p : Ty → Bool) (w : IWord) : tyFld p w = ((50, ((tyOf (fTY w)).map p).getD false)) := rfl
@[simp] theorem eTyFld_def (p : Ty → Bool) (w : IWord) : eTyFld p w = ((52, ((tyOf (eTY w)).map p).getD false)) := rfl
@[simp] theorem shFld_def (p : Ty → Shape → Bool) (w : IWord) : shFld p w = ((55, ((shOf (fSH w)).map (p (rty w))).getD false)) := rfl
@[simp] theorem rmFld_def (w : IWord) : rmFld w = ((58, (rmOf (fF3 w)).isSome)) := rfl
@[simp] theorem opFld_def (bitNo : Nat) (code : BitVec 4) (ok : AOp → Ty → Bool) (t : Option Ty) : opFld bitNo code ok t = ((bitNo, match opOf code with
    | none => false
    | some o => match t with
      | none => someTy ok o
      | some t => ok o t || (!(someOp ok t) && someTy ok o))) := rfl
@[simp] theorem ordFld_def (p : Ord → Bool) (w : IWord) : ordFld p w = ((62, p (ordOf (fORD w)))) := rfl
@[simp] theorem scpFld_def (always : Bool) (w : IWord) : scpFld always w = ((60, match scpOf (fSCP w) with
    | none => false
    | some s => always || scpOk (ordOf (fORD w)) s)) := rfl
@[simp] theorem scFld_def (w : IWord) : scFld w = ((55, decide ((fSH w).toNat ≤ 4))) := rfl
@[simp] theorem chkSrc_def (n : BitVec 8) (r : Role) (w : IWord) (c : BitVec 7) : chkSrc n r w c = (if fF w then (n, none) else chk n r c) := rfl

/-- A word whose fields outside a mask are 0 has no bit outside it. -/
theorem no_bits {w m : IWord} (l : List (Nat × Nat)) (hz : ∀ f ∈ l, fld w f.1 f.2 = 0)
    (hc : ((List.range 96).all fun i => m.getLsbD i || l.any fun f => f.1 ≤ i && i < f.1 + f.2) = true) : w &&& ~~~m = 0 := by
  apply BitVec.eq_of_getLsbD_eq
  intro i hi
  have := List.all_eq_true.1 hc i (by simpa using hi)
  simp only [BitVec.getLsbD_and, BitVec.getLsbD_not, hi, BitVec.getLsbD_zero, decide_true, Bool.true_and]
  cases hm : m.getLsbD i
  · simp [hm] at this
    obtain ⟨p, n, hf, h1, h2⟩ := this
    have h3 := congrArg (fun (x : BitVec n) => x.getLsbD (i - p)) (hz _ hf)
    simp [fld] at h3
    have h4 := h3 (by omega)
    rw [Nat.add_sub_cancel' h1] at h4
    simp [h4]
  · simp

/-- The fields `l` are those outside the mask of the row's fields. -/
def covers (used l : List (Nat × Nat)) : Bool :=
  (List.range 96).all fun i => (commonBits ||| bitsOf used).getLsbD i || l.any fun f => f.1 ≤ i && i < f.1 + f.2

theorem decode_eq {w : IWord} {r : Row} (l : List (Nat × Nat)) {o : BitVec 10} (ho : fOpc w = o) (h1 : o ≠ 0) (h2 : rowOf o = some r) {f : Bool}
    (hfw : fF w = f) (h3 : (r.hasF && f && !r.ri) = false) (hc : covers (r.used f) l = true)
    (hz : ∀ f ∈ l, fld w f.1 f.2 = 0) (h5 : ∀ f ∈ r.fields w, f.2 = true)
    (h6 : ∀ x ∈ r.opnds w, x.2 = none) : decode w = .ok (r.make w) := by
  subst ho hfw
  have hr : reservedBits r w = 0 := no_bits l hz hc
  have hl : lowestBit (0 : IWord) = none := by decide
  have hf : (r.fields w).find? (fun f => !f.2) = none := by
    simpa [List.find?_eq_none] using h5
  have ho : firstRefusal (r.opnds w) = none := by
    simp only [firstRefusal, List.findSome?_eq_none_iff]
    intro x hx; rw [h6 x hx]; rfl
  simp only [decode, h1, if_false, h2, h3, hr, hl, hf, ho, Bool.false_eq_true]

theorem chk_none {n : BitVec 8} {r : Role} {o : Opd} (h : accepts r o = true) (hn : n = 1 → isImm o = false) :
    (chk n r (opdCode o)).2 = none := by
  simp only [chk, opd_code]
  exact refuse_none h (by simpa using hn)

@[simp] theorem opd_eq (o : Opd) : opd (opdCode o) = o := by simp [opd, opd_code]


@[simp] theorem bit_one (b : Bool) : (bit b = 1#1) = (b = true) := by cases b <;> simp [bit]
@[simp] theorem bit_zero (b : Bool) : (bit b = 0#1) = (b = false) := by cases b <;> simp [bit]
@[simp] theorem bit_false : bit false = 0#1 := rfl

/-- A role that an inline immediate may have. -/
def canImm : Role → Bool
  | .sSrc | .sSrc2 | .vSrc => true
  | _ => false

@[simp] theorem canImm_sDst : canImm .sDst = false := by decide
@[simp] theorem canImm_vDst : canImm .vDst = false := by decide
@[simp] theorem canImm_pDst : canImm .pDst = false := by decide
@[simp] theorem canImm_sReg : canImm .sReg = false := by decide
@[simp] theorem canImm_sRegDst : canImm .sRegDst = false := by decide
@[simp] theorem canImm_mDst : canImm .mDst = false := by decide
@[simp] theorem canImm_mDat : canImm .mDat = false := by decide
@[simp] theorem canImm_aluDst (t s) : canImm (aluDst t s) = false := by unfold aluDst; split; rfl; split <;> rfl
@[simp] theorem canImm_fDst (s) : canImm (fDst s) = false := by unfold fDst; split <;> rfl
@[simp] theorem canImm_cmpDst (s) : canImm (cmpDst s) = false := by unfold cmpDst; split <;> rfl
@[simp] theorem canImm_memDst (s) : canImm (memDst s) = false := by unfold memDst; split <;> rfl
@[simp] theorem canImm_memDat (s) : canImm (memDat s) = false := by unfold memDat; split <;> rfl

@[simp] theorem chk1 {r : Role} {o : Opd} (h : accepts r o = true) (hn : canImm r = false) : (chk 1#8 r (opdCode o)).2 = none :=
  chk_none h fun _ => by cases r <;> cases o <;> simp_all [accepts, canImm, isImm]
theorem chk1' {r : Role} {o : Opd} (h : accepts r o = true) (hn : isImm o = false) : (chk 1#8 r (opdCode o)).2 = none :=
  chk_none h fun _ => hn
@[simp] theorem chk2 {r : Role} {o : Opd} (h : accepts r o = true) : (chk 2#8 r (opdCode o)).2 = none := chk_none h fun e => absurd e (by decide)
@[simp] theorem chk3 {r : Role} {o : Opd} (h : accepts r o = true) : (chk 3#8 r (opdCode o)).2 = none := chk_none h fun e => absurd e (by decide)
@[simp] theorem chk4 {r : Role} {o : Opd} (h : accepts r o = true) : (chk 4#8 r (opdCode o)).2 = none := chk_none h fun e => absurd e (by decide)
@[simp] theorem range_none {b : Bool} (h : b = true) : (range b).2 = none := by simp [range, h]

@[simp] theorem ext_over {w m lo n : Nat} (x : BitVec w) (h : w ≤ lo) : (x.setWidth m).extractLsb' lo n = 0 := by
  ext i hi
  simp
  intro _
  exact BitVec.getLsbD_of_ge _ _ (by omega)
@[simp] theorem ext_over' {w lo n : Nat} (x : BitVec w) (h : w ≤ lo) : x.extractLsb' lo n = 0 := by
  ext i hi
  simp
  exact BitVec.getLsbD_of_ge _ _ (by omega)
@[simp] theorem pos_ext (p l : BitVec 7) : (auxPosLen p l).extractLsb' 0 7 = p := by
  simp (disch := decide) only [auxPosLen, BitVec.extractLsb'_setWidth_of_le, BitVec.extractLsb'_append_eq_of_add_le, BitVec.extractLsb'_append_eq_of_le, BitVec.extractLsb'_eq_self, Nat.reduceSub]
@[simp] theorem len_ext (p l : BitVec 7) : (auxPosLen p l).extractLsb' 8 7 = l := by
  simp (disch := decide) only [auxPosLen, BitVec.extractLsb'_setWidth_of_le, BitVec.extractLsb'_append_eq_of_add_le, BitVec.extractLsb'_append_eq_of_le, BitVec.extractLsb'_eq_self, Nat.reduceSub]
@[simp] theorem gap_ext (p l : BitVec 7) : (auxPosLen p l).extractLsb' 7 1 = 0 := by
  simp (disch := decide) only [auxPosLen, BitVec.extractLsb'_setWidth_of_le, BitVec.extractLsb'_append_eq_of_add_le, BitVec.extractLsb'_append_eq_of_le, BitVec.extractLsb'_eq_self, Nat.reduceSub]
@[simp] theorem rest_ext (p l : BitVec 7) : (auxPosLen p l).extractLsb' 15 17 = 0 := ext_over _ (by decide)
@[simp] theorem bit_beq (b : Bool) : (bit b == 1#1) = b := bit_eq b
@[simp] theorem p_width (n : BitVec 3) : (opdCode (.p n)).setWidth 3 = n := by revert n; decide
@[simp] theorem p_ok (n : BitVec 3) : accepts .pSrc (.p n) = true := by simp [accepts]
@[simp] theorem p_dst (n : BitVec 3) : accepts .pDst (.p n) = true := by simp [accepts]
theorem tyOf_b64 : tyOf 0#5 = some .b64 := by decide
theorem ord_code' : ordOf 0#2 = .rlx := by decide
theorem scp_code' : scpOf 0#2 = some .dev := by decide
theorem someOp_of {ok : AOp → Ty → Bool} {o : AOp} {t : Ty} (h : ok o t = true) : someOp ok t = true :=
  List.any_eq_true.2 ⟨o, by cases o <;> decide, h⟩
@[simp] theorem ord_rlx : ordCode .rlx = 0#2 := by decide
@[simp] theorem scp_dev : scpCode .dev = 0#2 := by decide
@[simp] theorem opd_unused : opdCode (.s 0#2) = 0#7 := by decide
@[simp] theorem op_add : opCode .add = 0#4 := by decide
@[simp] theorem ty_b64 : tyCode .b64 = 0#5 := by decide
@[simp] theorem two_bits0 (a b : Bool) : (bit a ++ bit b).extractLsb' 0 1 = bit b := by cases a <;> cases b <;> decide
@[simp] theorem two_bits1 (a b : Bool) : (bit a ++ bit b).extractLsb' 1 1 = bit a := by cases a <;> cases b <;> decide
theorem sel_lt (x : BitVec 3) : x.toNat % 16 < 8 := by have := x.isLt; omega
theorem rm_none : rmCode none = 0#3 := by decide
theorem cvt_oty (p : BitVec 2) (d : BitVec 1) (t : BitVec 5) : (p ++ d ++ t).extractLsb' 0 5 = t := by
  simp (disch := decide) only [BitVec.extractLsb'_append_eq_of_add_le, BitVec.extractLsb'_append_eq_of_le, BitVec.extractLsb'_eq_self, Nat.reduceSub]
theorem cvt_dir (p : BitVec 2) (d : BitVec 1) (t : BitVec 5) : (p ++ d ++ t).extractLsb' 5 1 = d := by
  simp (disch := decide) only [BitVec.extractLsb'_append_eq_of_add_le, BitVec.extractLsb'_append_eq_of_le, BitVec.extractLsb'_eq_self, Nat.reduceSub]
theorem cvt_part (p : BitVec 2) (d : BitVec 1) (t : BitVec 5) : (p ++ d ++ t).extractLsb' 6 2 = p := by
  simp (disch := decide) only [BitVec.extractLsb'_append_eq_of_add_le, BitVec.extractLsb'_append_eq_of_le, BitVec.extractLsb'_eq_self, Nat.reduceSub]
theorem pm_sel (m : BitVec 7) : (1#1 ++ m ++ 0#1).extractLsb' 8 1 = 1#1 := by
  simp (disch := decide) only [BitVec.extractLsb'_append_eq_of_add_le, BitVec.extractLsb'_append_eq_of_le, BitVec.extractLsb'_eq_self, Nat.reduceSub]
theorem pm_mask (m : BitVec 7) : (1#1 ++ m ++ 0#1).extractLsb' 1 7 = m := by
  simp (disch := decide) only [BitVec.extractLsb'_append_eq_of_add_le, BitVec.extractLsb'_append_eq_of_le, BitVec.extractLsb'_eq_self, Nat.reduceSub]
theorem pm_low (m : BitVec 7) : (1#1 ++ m ++ 0#1).extractLsb' 0 1 = 0#1 := by
  simp (disch := decide) only [BitVec.extractLsb'_append_eq_of_add_le, BitVec.extractLsb'_append_eq_of_le, BitVec.extractLsb'_eq_self, Nat.reduceSub]
section raw
variable (opc : BitVec 10) (h : Hdr) (d a b : BitVec 7) (disp : BitVec 32)
theorem b_high : (disp ++ (0 : BitVec 24)).extractLsb' 24 32 = disp := by
  simp (disch := decide) only [BitVec.extractLsb'_append_eq_of_le, BitVec.extractLsb'_eq_self, Nat.reduceSub]
theorem b_gap : (disp ++ (0 : BitVec 24)).extractLsb' 0 24 = 0 := by
  simp (disch := decide) only [BitVec.extractLsb'_append_eq_of_add_le, BitVec.extractLsb'_eq_self]
@[simp] theorem wB_opc : fld (wB opc h d disp) 0 10 = opc := low_opc ..
@[simp] theorem wB_res : fld (wB opc h d disp) 17 2 = 0 := low_res ..
@[simp] theorem wB_d : fld (wB opc h d disp) 19 7 = d := low_d ..
@[simp] theorem wB_a : fld (wB opc h d disp) 26 7 = 0 := low_a ..
@[simp] theorem wB_b : fld (wB opc h d disp) 33 7 = 0 := low_b ..
@[simp] theorem wB_hdr : hdr (wB opc h d disp) = h := low_hdr ..
@[simp] theorem wB_gap : fld (wB opc h d disp) 40 24 = 0 := by
  rw [wB, fld_high _ _ _ _ _ _ (by omega)]; exact b_gap disp
@[simp] theorem wB_disp : fld (wB opc h d disp) 64 32 = disp := by
  rw [wB, fld_high _ _ _ _ _ _ (by omega)]; exact b_high disp
end raw
section spawn
variable (e : BitVec 32) (v c : BitVec 4) (r : BitVec 6) (b : BitVec 10)
theorem sp_b : (e ++ v ++ c ++ r ++ b).extractLsb' 0 10 = b := by
  simp (disch := decide) only [BitVec.extractLsb'_append_eq_of_le, BitVec.extractLsb'_append_eq_of_add_le, BitVec.extractLsb'_eq_self, Nat.reduceSub]
theorem sp_r : (e ++ v ++ c ++ r ++ b).extractLsb' 10 6 = r := by
  simp (disch := decide) only [BitVec.extractLsb'_append_eq_of_le, BitVec.extractLsb'_append_eq_of_add_le, BitVec.extractLsb'_eq_self, Nat.reduceSub]
theorem sp_c : (e ++ v ++ c ++ r ++ b).extractLsb' 16 4 = c := by
  simp (disch := decide) only [BitVec.extractLsb'_append_eq_of_le, BitVec.extractLsb'_append_eq_of_add_le, BitVec.extractLsb'_eq_self, Nat.reduceSub]
theorem sp_v : (e ++ v ++ c ++ r ++ b).extractLsb' 20 4 = v := by
  simp (disch := decide) only [BitVec.extractLsb'_append_eq_of_le, BitVec.extractLsb'_append_eq_of_add_le, BitVec.extractLsb'_eq_self, Nat.reduceSub]
theorem sp_e : (e ++ v ++ c ++ r ++ b).extractLsb' 24 32 = e := by
  simp (disch := decide) only [BitVec.extractLsb'_append_eq_of_le, BitVec.extractLsb'_append_eq_of_add_le, BitVec.extractLsb'_eq_self, Nat.reduceSub]
theorem mv_b : (0#40 ++ r ++ b).extractLsb' 0 10 = b := by
  simp (disch := decide) only [BitVec.extractLsb'_append_eq_of_le, BitVec.extractLsb'_append_eq_of_add_le, BitVec.extractLsb'_eq_self, Nat.reduceSub]
theorem mv_r : (0#40 ++ r ++ b).extractLsb' 10 6 = r := by
  simp (disch := decide) only [BitVec.extractLsb'_append_eq_of_le, BitVec.extractLsb'_append_eq_of_add_le, BitVec.extractLsb'_eq_self, Nat.reduceSub]
theorem mv_z : (0#40 ++ r ++ b).extractLsb' 16 40 = 0#40 := by
  simp (disch := decide) only [BitVec.extractLsb'_append_eq_of_le, BitVec.extractLsb'_append_eq_of_add_le, BitVec.extractLsb'_eq_self, Nat.reduceSub]
end spawn

end Sys2Proof.Decode
end

