-- ==== Sys2Proof/Laws/Lanes.lean ====
section
/-! SUPPORT. Lanes of vectors: reading a lane of a vector built from lanes, and the shapes that fill one. -/

namespace Sys2Proof.Machine
open Sys2Proof.Forms

theorem getLsbD_laneOf (w : Nat) (v : Vec) (j k : Nat) (hk : k < w) : (laneOf w v j).getLsbD k = v.getLsbD (j * w + k) := by
  simp [laneOf, hk]

theorem getLsbD_ofLanes (w : Nat) (l : List (BitVec w)) (hw : w * l.length ≤ 128) (j k : Nat) (hj : j < l.length) (hk : k < w) :
    (ofLanes w l).getLsbD (j * w + k) = l[j].getLsbD k := by
  induction l generalizing j with
  | nil => simp at hj
  | cons x l ih =>
    have hw2 : w * l.length ≤ 128 := by simp [Nat.mul_add] at hw; omega
    have hb : j * w + k < 128 := by
      have : j * w + w ≤ w * (x :: l).length := by
        have : (j + 1) * w ≤ (x :: l).length * w := Nat.mul_le_mul_right w (by omega)
        rw [Nat.mul_comm w]; linarith
      omega
    simp only [ofLanes, BitVec.getLsbD_or, BitVec.getLsbD_shiftLeft, BitVec.getLsbD_setWidth, hb, decide_true, Bool.true_and]
    cases j with
    | zero =>
      simp [hk]
    | succ n =>
      have h1 : ¬ (n + 1) * w + k < w := by rw [Nat.add_mul]; omega
      have h2 : (n + 1) * w + k - w = n * w + k := by rw [Nat.add_mul]; omega
      have h3 : x.getLsbD ((n + 1) * w + k) = false := BitVec.getLsbD_of_ge _ _ (by omega)
      simp only [h1, decide_false, Bool.not_false, Bool.true_and, h2, h3, Bool.or_false]
      rw [ih hw2 n (by simpa using hj)]
      simp

theorem laneOf_ofLanes (w : Nat) (l : List (BitVec w)) (hw : w * l.length ≤ 128) (j : Nat) (hj : j < l.length) :
    laneOf w (ofLanes w l) j = l[j] := by
  ext k hk
  rw [← BitVec.getLsbD_eq_getElem, getLsbD_laneOf w _ j k hk, getLsbD_ofLanes w l hw j k hj hk, BitVec.getLsbD_eq_getElem]

theorem lanesOf_length (w : Nat) (v : Vec) (n : Nat) : (lanesOf w v n).length = n := by simp [lanesOf]

theorem lanesOf_get (w : Nat) (v : Vec) (n j : Nat) (h : j < (lanesOf w v n).length) : (lanesOf w v n)[j] = laneOf w v j := by
  simp [lanesOf]

theorem width_pos (t : Ty) : 0 < width t := by cases t <;> decide

theorem shape_fits {t : Ty} {s : Shape} (h : shapeOk t s = true) : width t * lanes s ≤ 128 := by
  revert h
  cases t <;> cases s <;> decide

end Sys2Proof.Machine
end

