-- ==== Sys2Proof/Laws/Trap.lean ====
section
/-! SUPPORT. What taking a trap and freezing do to the thread's line. -/

namespace Sys2Proof.Machine
open Sys2Proof.Forms

/-- Two lines alike but for the hold slots and `HACT`. -/
def sameButHolds (x y : Thread) : Prop :=
  x = { y with ctx := { y.ctx with hslot0 := x.ctx.hslot0, hslot1 := x.ctx.hslot1, hact := x.ctx.hact } }

theorem sameButHolds_refl (x : Thread) : sameButHolds x x := rfl

theorem sameButHolds_trans {x y z : Thread} (h : sameButHolds x y) (g : sameButHolds y z) : sameButHolds x z := by
  unfold sameButHolds at *
  rw [g] at h
  exact h

theorem flushHold_threads (s : State) (b u : Nat) (h : HoldReg) : (flushHold s b u h).threads = s.threads := by
  unfold flushHold
  generalize h.bytes = l
  induction l generalizing s with
  | nil => rfl
  | cons y l ih => exact (ih _).trans rfl

theorem HoldsKeep.trans {a b c : State} (h : HoldsKeep a b) (g : HoldsKeep b c) : HoldsKeep a c :=
  ⟨g.1.trans h.1, g.2.trans h.2, g.3.trans h.3, g.4.trans h.4, g.5.trans h.5, g.6.trans h.6, g.7.trans h.7, g.8.trans h.8,
    g.9.trans h.9⟩

theorem flushHold_keeps (s : State) (b u : Nat) (h : HoldReg) : HoldsKeep s (flushHold s b u h) := by
  unfold flushHold
  generalize h.bytes = l
  induction l generalizing s with
  | nil => exact ⟨rfl, rfl, rfl, rfl, rfl, rfl, rfl, rfl, rfl⟩
  | cons y l ih =>
    rw [List.foldl_cons]
    refine HoldsKeep.trans ?_ (ih _)
    refine ⟨rfl, rfl, rfl, rfl, rfl, rfl, rfl, rfl, ?_⟩
    simp only [writeBy, l1Store, physWrite]
    split <;> rfl

theorem endHoldAt_keeps (s : State) (b u i : Nat) : HoldsKeep s (endHoldAt s b u i) := by
  unfold endHoldAt
  split
  · exact ⟨rfl, rfl, rfl, rfl, rfl, rfl, rfl, rfl, rfl⟩
  · rename_i h _
    exact (flushHold_keeps s b u h).trans ⟨rfl, rfl, rfl, rfl, rfl, rfl, rfl, rfl, rfl⟩

/-- Ending one hold changes hold slots and `HACT` of a line, nothing else of it (R193). -/
theorem endHoldAt_line (s : State) (b u i : Nat) (k : Key) (t : Thread) (hf : findThread s k = some t) :
    ∃ x, findThread (endHoldAt s b u i) k = some x ∧ sameButHolds x t := by
  unfold endHoldAt
  split
  · exact ⟨t, hf, rfl⟩
  · rename_i h _
    dsimp only
    have h1 : ∀ k, findThread (onIu (flushHold s b u h) b u fun x => { x with holds := x.holds.set i none }) k = findThread s k :=
      fun k => findThread_of_threads _ _ (flushHold_threads s b u h) k
    by_cases hk : k = h.key
    · subst hk
      rw [findThread_onThread _ _ _ (by intro x hx; exact hx), h1, hf]
      exact ⟨_, rfl, rfl⟩
    · rw [findThread_onThread_other _ _ _ _ hk (by intro x hx; exact hx), h1, hf]
      exact ⟨t, rfl, rfl⟩

/-- Ending every hold of a thread changes hold slots and `HACT` of its line, nothing else of it (R195). -/
theorem endHolds_line (s : State) (j k : Key) (t : Thread) (hf : findThread s k = some t) :
    (∃ x, findThread (endHolds s j) k = some x ∧ sameButHolds x t) ∧ HoldsKeep s (endHolds s j) := by
  unfold endHolds
  generalize holdPlaces s j = l
  induction l generalizing s t with
  | nil => exact ⟨⟨t, hf, rfl⟩, ⟨rfl, rfl, rfl, rfl, rfl, rfl, rfl, rfl, rfl⟩⟩
  | cons y l ih =>
    obtain ⟨x, h1, h2⟩ := endHoldAt_line s y.1 y.2.1 y.2.2 k t hf
    obtain ⟨⟨z, h3, h4⟩, h5⟩ := ih _ x h1
    exact ⟨⟨z, h3, sameButHolds_trans h4 h2⟩, (endHoldAt_keeps _ _ _ _).trans h5⟩

theorem getRec_bounds (i : BitVec 2) : i = 0 ∨ i = 1 ∨ i = 2 ∨ i = 3 := by
  have : i.toNat < 4 := i.isLt
  have h : i.toNat = 0 ∨ i.toNat = 1 ∨ i.toNat = 2 ∨ i.toNat = 3 := by omega
  rcases h with h | h | h | h
  · exact Or.inl (BitVec.eq_of_toNat_eq h)
  · exact Or.inr (Or.inl (BitVec.eq_of_toNat_eq h))
  · exact Or.inr (Or.inr (Or.inl (BitVec.eq_of_toNat_eq h)))
  · exact Or.inr (Or.inr (Or.inr (BitVec.eq_of_toNat_eq h)))

/-- With no FATAL record nothing is discarded (R33). -/
theorem dropFatals_none (t : Thread) (h : fatalRec t.trap = none) : dropFatals t = t := by
  have hn : ∀ i ∈ recIdx, ¬ ((getRec t.trap i).valid && (getRec t.trap i).fatal) = true := by
    simpa [fatalRec] using h
  have h1 : ∀ i ∈ recIdx, dropFatal1 t i = t := fun i hi => by
    unfold dropFatal1
    simp only [hn i hi]
    rfl
  unfold dropFatals
  have : ∀ l : List (BitVec 2), (∀ i ∈ l, dropFatal1 t i = t) → l.foldl dropFatal1 t = t := by
    intro l
    induction l with
    | nil => intro _; rfl
    | cons y l ih =>
      intro hl
      rw [List.foldl_cons, hl y (by simp)]
      exact ih fun i hi => hl i (by simp [hi])
  exact this _ h1

/-- Taking a trap with nothing outstanding (R33). -/
theorem trapEntry_taken (s : State) (t : Thread) (sp : Space) (p : PendTrap) (hf : findThread s t.key = some t)
    (hsp : findSpace s t.key.asid = some sp) (hc : inCl1 t = true) (hi : t.ctx.intrap = false)
    (his : isIsolation p.cause p.detail = false) (hr : fatalRec t.trap = none) (ho : t.ctx.outst = 0) (hn : t.cancel = false)
    (hs : t.ctx.step = false) (hw : ∀ o c, t.wait ≠ .fence o c) : TrapTaken s (trapEntry s t.key p) t sp p := by
  obtain ⟨⟨x, x1, x2⟩, hk⟩ := endHolds_line s t.key t.key t hf
  have xp : x = { t with ctx := x.ctx } := by rw [x2]
  have hd : dropFatals x = x := dropFatals_none x (by rw [xp]; exact hr)
  let y : Thread := { x with pend := some p, wait := .drain }
  let s2 := onThread (endHolds s t.key) t.key fun t =>
    let t := dropFatals t
    { t with pend := some p, wait := match t.wait with
      | .fence o c => .fence o c
      | _ => .drain }
  have hy : findThread s2 t.key = some y := by
    have e : findThread s2 t.key = _ := findThread_onThread _ _ _ (by
      intro z hz
      show (dropFatals z).key = t.key
      have : ∀ l : List (BitVec 2), ∀ z : Thread, (l.foldl dropFatal1 z).key = z.key := by
        intro l
        induction l with
        | nil => intro z; rfl
        | cons i l ih =>
          intro z
          rw [List.foldl_cons, ih]
          unfold dropFatal1
          dsimp only
          split <;> rfl
      rw [← hz]; exact this _ z)
    rw [e, x1]
    show some _ = some _
    have xw : x.wait = t.wait := by rw [xp]
    simp only [hd, y]
    congr 2
    rw [xw]
    cases hq : t.wait with
    | fence o c => exact absurd hq (hw o c)
    | _ => rfl
  have yo : (y.ctx.outst == 0) = true := by
    have : y.ctx.outst = t.ctx.outst := by show x.ctx.outst = _; rw [x2]
    simp [this, ho]
  have yn : (!y.cancel) = true := by
    have : y.cancel = t.cancel := by show x.cancel = _; rw [xp]
    simp [this, hn]
  have e1 : trapEntry s t.key p = finishTrap s2 t.key := by
    unfold trapEntry
    rw [hf]
    simp only [hi, his, Bool.false_eq_true, if_false]
    show (match findThread s2 t.key with
      | some t2 => _
      | none => s2) = _
    rw [hy]
    simp only [yo, yn, Bool.and_self, if_true, y]
    rfl
  have hsp2 : findSpace s2 t.key.asid = some sp := by
    have : s2.spaces = s.spaces := hk.spaces
    simpa [findSpace, this] using hsp
  let frame : TrapLine := { y.trap with
        saveW0 := (p.word0 &&& ~~~((BitVec.allOnes 57).setWidth 64)) ||| p.resume.setWidth 64
        tw1 := p.cause ++ p.detail ++ p.w1lo
        tval := p.tval
        iw01 := p.iw.setWidth 64
        iw2 := (0 : BitVec 29) ++ bit p.rvalid ++ p.ridx ++ p.iw.extractLsb' 64 32
        saveS2 := y.ctx.s2
        saveS3 := y.ctx.s3 }
  let c : Ctx := { y.ctx with
        cause := p.cause, detail := p.detail, s2 := trapLineVa sp t.key, sup := true, intrap := true
        pc := sp.tvec ++ (0 : BitVec 2) }
  let z : Thread := { y with ctx := c, trap := frame, pend := none, wait := .run }
  have cs : c.step = false := by show x.ctx.step = false; rw [x2]; exact hs
  have zk : z.key = t.key := by show x.key = t.key; rw [xp]
  have e2 : finishTrap s2 t.key = refresh (setThread s2 z) z.key := by
    rw [zk]
    unfold finishTrap
    rw [hy, hsp2]
    have cs' : (c.step = true) = False := by simp [cs]
    show (if c.step = true then _ else refresh (setThread s2 z) t.key) = _
    simp only [cs', if_false]
  have zf : findThread (setThread s2 z) z.key = some z := by
    rw [findThread_setThread, zk, hy]; rfl
  have zc : inCl1 z = true := by
    have : z.loc = t.loc := by show x.loc = t.loc; rw [xp]
    simpa [inCl1, this] using hc
  obtain ⟨r1, r2, r3, r4⟩ := refresh_cl1 (setThread s2 z) z zf zc
  rw [zk] at r1 r3
  rw [e1, e2, zk]
  refine ⟨⟨_, r1, ?_⟩, ?_⟩
  · have xc : x.ctx = { t.ctx with hslot0 := x.ctx.hslot0, hslot1 := x.ctx.hslot1, hact := x.ctx.hact } := by
      have := congrArg Thread.ctx x2; exact this
    have xt : x.trap = t.trap := by rw [xp]
    refine ⟨rfl, rfl, rfl, rfl, rfl, rfl, ?_, ?_, ?_, ?_, ?_, ?_, ?_, ?_, ?_, ?_, ?_, ?_, ?_, ?_, ?_, rfl, rfl⟩
    all_goals first
      | (show x.ctx.s0 = _; rw [xc])
      | (show x.ctx.s1 = _; rw [xc])
      | (show x.ctx.s3 = _; rw [xc])
      | (show x.ctx.v0 = _; rw [xc])
      | (show x.ctx.v1 = _; rw [xc])
      | (show x.ctx.v2 = _; rw [xc])
      | (show x.ctx.v3 = _; rw [xc])
      | (show x.ctx.p = _; rw [xc])
      | (show x.ctx.rm = _; rw [xc])
      | (show x.ctx.flags = _; rw [xc])
      | (show x.ctx.prio = _; rw [xc])
      | (show x.ctx.lslot = _; rw [xc])
      | (show x.ctx.ctxid = _; rw [xc])
      | (show x.ctx.geo = _; rw [xc])
      | skip
    show frame = _
    have h2 : y.ctx.s2 = t.ctx.s2 := by show x.ctx.s2 = _; rw [xc]
    have h3 : y.ctx.s3 = t.ctx.s3 := by show x.ctx.s3 = _; rw [xc]
    simp only [frame, h2, h3]
    have h4 : y.trap = t.trap := xt
    rw [h4]
  · have a : HoldsKeep (endHolds s t.key) (refresh (setThread s2 z) t.key) :=
      ⟨r3.run, r3.spaces, r3.mmu, r3.flight, r3.eng, r3.queues, r3.fw, r3.pkg, by rw [r3.mem]; rfl⟩
    exact hk.trans a

/-- A precise trap of a thread with nothing due is entered at once (R33, R273). -/
theorem raise_taken (s : State) (t : Thread) (h : Hdr) (sp : Space) (x : TrapInfo) (hf : findThread s t.key = some t)
    (hq : quiet s t = true) (hsp : findSpace s t.key.asid = some sp) (hi : t.ctx.intrap = false)
    (his : isIsolation x.cause x.detail = false) (ho : t.ctx.outst = 0) :
    TrapTaken s (raise (markIssue s t.key h) t.key x) t sp (pendTrap t x none) := by
  rw [quiet_iff] at hq
  obtain ⟨hc, hw, -, -, hn, hs, hr, -⟩ := hq
  obtain ⟨f1, -, r1, -⟩ := markIssue_spec s t h hf
  let y : Thread := { t with yp := h.yp, lh := h.lh, lastIssue := s.run.now, lastIu := some (t.bench, iuAt t) }
  have hsp2 : findSpace (markIssue s t.key h) y.key.asid = some sp := by
    simpa [findSpace, r1.spaces] using hsp
  have z := trapEntry_taken (markIssue s t.key h) y sp (pendTrap t x none) f1 hsp2 hc hi his hr ho hn hs (by
    intro o c; show t.wait ≠ _; rw [hw]; intro hx; cases hx)
  have e : raise (markIssue s t.key h) t.key x = trapEntry (markIssue s t.key h) y.key (pendTrap t x none) := by
    unfold raise
    rw [f1]
    show (match fatalRec t.trap with
      | some i => _
      | none => _) = _
    rw [hr]
    rfl
  rw [e]
  refine ⟨z.line, ⟨z.keeps.run.trans r1.run, z.keeps.spaces.trans r1.spaces, z.keeps.mmu.trans r1.mmu, z.keeps.flight.trans r1.flight,
    z.keeps.eng.trans r1.eng, z.keeps.queues.trans r1.queues, z.keeps.fw.trans r1.fw, z.keeps.pkg.trans r1.pkg, ?_⟩⟩
  rw [z.keeps.empty, r1.mem]

/-- An instruction whose body traps enters the handler (R75 step 12, R33). -/
theorem issue_trap {s : State} {t : Thread} {i : Instr} {h : Hdr} {priv : Bool} {regs : List (BitVec 8 × Opd × Bool)}
    {body : State → Thread → Did} {sp : Space} (hi : issues s t h = true) (hr : noneFrom t.ctx (regs.map (·.2)) = true)
    (hp : priv = true → t.ctx.sup = true) {c : BitVec 8} {d : BitVec 24} {v : Word} {nx : Bool} (hb : body s t = .trap c d v nx)
    (hsp : findSpace s t.key.asid = some sp) (hin : t.ctx.intrap = false) (his : isIsolation c d = false) (ho : t.ctx.outst = 0) :
    ∃ s', issue s i h priv regs body = .next s' ∧ TrapTaken s s' t sp (pendTrap t
      { cause := c, detail := d, tval := v, iw := Decode.encode i, resume := if nx then t.ctx.pc + 12 else t.ctx.pc } none) := by
  obtain ⟨hc, hq, hg⟩ := (issues_iff _ _ _).mp hi
  refine ⟨_, ?_, raise_taken s t h sp _ (current_find hc) hq hsp hin his ho⟩
  unfold issue
  rw [hc]
  have h1 : ((getP t.ctx h.g ^^ h.n) == false) = false := by simp [hg]
  have h2 : (priv && !t.ctx.sup) = false := by
    cases hpv : priv with
    | false => rfl
    | true => simp [hp hpv]
  simp only [h1, h2, Bool.false_eq_true, if_false, hazard_none _ _ hr, hb]

/-- A privileged instruction in user mode raises PRIVILEGED (R75 step 9). -/
theorem issue_privileged {s : State} {t : Thread} {i : Instr} {h : Hdr} {regs : List (BitVec 8 × Opd × Bool)}
    {body : State → Thread → Did} {sp : Space} (hi : issues s t h = true) (hu : t.ctx.sup = false)
    (hsp : findSpace s t.key.asid = some sp) (hin : t.ctx.intrap = false) (ho : t.ctx.outst = 0) :
    ∃ s', issue s i h true regs body = .next s' ∧ TrapTaken s s' t sp (pendTrap t
      { cause := 0x03, iw := Decode.encode i, resume := t.ctx.pc } none) := by
  obtain ⟨hc, hq, hg⟩ := (issues_iff _ _ _).mp hi
  refine ⟨_, ?_, raise_taken s t h sp _ (current_find hc) hq hsp hin rfl ho⟩
  unfold issue
  rw [hc]
  have h1 : ((getP t.ctx h.g ^^ h.n) == false) = false := by simp [hg]
  simp only [h1, hu, Bool.false_eq_true, if_false, Bool.not_false, Bool.and_self, if_true]

/-- A pending register raises HAZARD with the number of its field (R75 step 10, R272). -/
theorem issue_hazard {s : State} {t : Thread} {i : Instr} {h : Hdr} {priv : Bool} {regs : List (BitVec 8 × Opd × Bool)}
    {body : State → Thread → Did} {sp : Space} (hi : issues s t h = true) (hp : priv = true → t.ctx.sup = true)
    {f : BitVec 8} (hz : hazard t.ctx regs = some f)
    (hsp : findSpace s t.key.asid = some sp) (hin : t.ctx.intrap = false) (ho : t.ctx.outst = 0) :
    ∃ s', issue s i h priv regs body = .next s' ∧ TrapTaken s s' t sp (pendTrap t
      { cause := 0x04, detail := f.setWidth 24, iw := Decode.encode i, resume := t.ctx.pc } none) := by
  obtain ⟨hc, hq, hg⟩ := (issues_iff _ _ _).mp hi
  refine ⟨_, ?_, raise_taken s t h sp _ (current_find hc) hq hsp hin rfl ho⟩
  unfold issue
  rw [hc]
  have h1 : ((getP t.ctx h.g ^^ h.n) == false) = false := by simp [hg]
  have h2 : (priv && !t.ctx.sup) = false := by
    cases hpv : priv with
    | false => rfl
    | true => simp [hp hpv]
  simp only [h1, h2, Bool.false_eq_true, if_false, hz]

/-- An instruction whose guard is false retires and does nothing else (R50, R75 step 8). -/
theorem issue_guarded {s : State} {t : Thread} {i : Instr} {h : Hdr} {priv : Bool} {regs : List (BitVec 8 × Opd × Bool)}
    {body : State → Thread → Did} (hc : current s = some t) (hq : quiet s t = true) (hg : (getP t.ctx h.g ^^ h.n) = false) :
    ∃ s', issue s i h priv regs body = .next s' ∧ Retired s s' t h t.ctx (t.ctx.pc + 12) := by
  refine ⟨_, ?_, retire_spec s t h _ (current_find hc) hq⟩
  unfold issue
  rw [hc]
  simp only [hg, beq_self_eq_true, if_true]

end Sys2Proof.Machine
end

