-- ==== Sys2Proof/Laws/Float.lean ====
section
/-! SUPPORT. The common effects of floating-point instructions: flags, the FP trap and lane results. -/

namespace Sys2Proof.Machine
open Sys2Proof.Forms

/-- A register that is free as a pair is free alone. -/
theorem isPend_narrow {c : Ctx} {o : Opd} {w : Bool} (h : isPend c o w = false) : isPend c o false = false := by
  cases w with
  | false => exact h
  | true =>
    cases o <;> simp_all [isPend, pendMask]
    ext j
    have := congrArg (fun v : BitVec 4 => v.getLsbD j) h
    simp at this ⊢
    tauto

/-- An instruction that ends by `fpFinish` completes with its sticky flags, or traps when one of its flags is enabled (R107). -/
theorem issue_fp {s : State} {t : Thread} {i : Instr} {h : Hdr} {regs : List (BitVec 8 × Opd × Bool)}
    {body : State → Thread → Did} {fl : Fl} {put : Ctx → Ctx} (hi : issues s t h = true)
    (hr : noneFrom t.ctx (regs.map (·.2)) = true) (hb : body s t = fpFinish s t fl put)
    (hk : ∀ c, (put c).pc = c.pc ∧ (put c).frz = c.frz ∧ (put c).step = c.step) :
    (fl &&& fpte s t = 0 → ∃ s', issue s i h false regs body = .next s' ∧
      Retired s s' t h (put { t.ctx with flags := t.ctx.flags ||| fl }) (t.ctx.pc + 12)) ∧
    (fl &&& fpte s t ≠ 0 → t.ctx.intrap = false → t.ctx.outst = 0 → ∀ sp, findSpace s t.key.asid = some sp →
      ∃ s', issue s i h false regs body = .next s' ∧ TrapTaken s s' t sp (pendTrap t
        { cause := 0x0A, detail := fl.setWidth 24, iw := Decode.encode i, resume := t.ctx.pc } none)) := by
  refine ⟨fun h0 => ?_, fun h0 hin ho sp hsp => ?_⟩
  · refine issue_regs hi hr (by simp) (c := put { t.ctx with flags := t.ctx.flags ||| fl }) ?_ (hk _).2.1 (hk _).2.2
    rw [hb]
    have : (fl &&& fpte s t != 0) = false := by simpa using h0
    simp only [fpFinish, this, Bool.false_eq_true, if_false, finish, (hk _).1]
  · have hne : (fl &&& fpte s t != 0) = true := by simpa using h0
    have hb2 : body s t = .trap 0x0A (fl.setWidth 24) 0 false := by
      rw [hb]; simp only [fpFinish, hne, if_true]
    exact issue_trap hi hr (by simp) hb2 hsp hin rfl ho

theorem nats_length (w n : Nat) (v : Vec) : (nats w n v).length = n := by simp [nats, lanesOf]

theorem nats_eq (w n : Nat) (v : Vec) : nats w n v = (List.range n).map fun j => (laneOf w v j).toNat := by
  simp [nats, lanesOf, Function.comp_def]

theorem fLanes_eq (s : State) (t : Thread) (ty : Ty) (sh : Shape) (o : Opd) :
    fLanes s t ty sh o = (List.range (lanes sh)).map fun j => (laneOf (width ty) (fVal s t ty (lanes sh) o) j).toNat := nats_eq _ _ _

theorem zip2_range {α β γ : Type} (g : α → β → γ) (n : Nat) (a : Nat → α) (b : Nat → β) :
    zip2 g ((List.range n).map a) ((List.range n).map b) = (List.range n).map fun j => g (a j) (b j) := by
  simp [zip2, List.zip_map', Function.comp_def]

theorem zip3_range {α β γ δ : Type} (g : α → β → γ → δ) (n : Nat) (a : Nat → α) (b : Nat → β) (c : Nat → γ) :
    zip3 g ((List.range n).map a) ((List.range n).map b) ((List.range n).map c) = (List.range n).map fun j => g (a j) (b j) (c j) := by
  simp [zip3, List.zip_map', Function.comp_def]

end Sys2Proof.Machine
end

