-- ==== Sys2Proof/Laws/Integer.lean ====
section
/-! SUPPORT. The common effects of the integer instructions: what each shared operation comes to, lane by lane. -/

namespace Sys2Proof.Machine
open Sys2Proof.Forms

/-- An instruction of two sources with nothing pending completes with its lanes (R128). -/
theorem alu2_spec {s : State} {t : Thread} (i : Instr) {h : Hdr} {x : Alu2} (f : Oper2) (hw : shapeOk x.ty x.sh = true)
    (hi : issues s t h = true) (hf : noneFrom t.ctx ((dab x.ty x.sh x.d x.a x.b).map (·.2)) = true) :
    ∃ v s', alu2 s i h x f = .next s' ∧ (∀ j < lanes x.sh, laneOf (width x.ty) v j =
      f (width x.ty) (signed x.ty) (laneOf _ (opdVal s t (width x.ty) (lanes x.sh) (wideOf x.ty x.sh) x.a) j)
        (laneOf _ (srcVal s t (width x.ty) (lanes x.sh) (wideOf x.ty x.sh) x.b) j)) ∧
      Retired s s' t h (putInt t.ctx x.ty x.sh x.d v) (t.ctx.pc + 12) := by
  let v := ofLanes (width x.ty)
    (((lanesOf (width x.ty) (opdVal s t (width x.ty) (lanes x.sh) (wideOf x.ty x.sh) x.a) (lanes x.sh)).zip
      (lanesOf (width x.ty) (srcVal s t (width x.ty) (lanes x.sh) (wideOf x.ty x.sh) x.b) (lanes x.sh))).map
        fun p => f (width x.ty) (signed x.ty) p.1 p.2)
  have key : ∃ s', alu2 s i h x f = .next s' ∧ Retired s s' t h (putInt t.ctx x.ty x.sh x.d v) (t.ctx.pc + 12) := by
    unfold alu2
    refine issue_regs hi hf (by simp) (c := putInt t.ctx x.ty x.sh x.d v) ?_ (by simp) (by simp)
    simp only [finish, putInt_pc, v]
  obtain ⟨s', h1, h2⟩ := key
  refine ⟨v, s', h1, ?_, h2⟩
  intro j hj
  rw [laneOf_ofLanes]
  · simp [lanesOf]
  · simpa [lanesOf] using shape_fits hw
  · simpa [lanesOf] using hj

/-- An instruction of one source with nothing pending completes with its lanes (R128). -/
theorem alu1_spec {s : State} {t : Thread} (i : Instr) {h : Hdr} {x : Alu1} (f : Oper1) (hw : shapeOk x.ty x.sh = true)
    (hi : issues s t h = true) (hf : noneFrom t.ctx ((dab x.ty x.sh x.d x.a (.opd .zero)).map (·.2)) = true) :
    ∃ v s', alu1 s i h x f = .next s' ∧ (∀ j < lanes x.sh, laneOf (width x.ty) v j =
      f (width x.ty) (laneOf _ (opdVal s t (width x.ty) (lanes x.sh) (wideOf x.ty x.sh) x.a) j)) ∧
      Retired s s' t h (putInt t.ctx x.ty x.sh x.d v) (t.ctx.pc + 12) := by
  let v := ofLanes (width x.ty)
    ((lanesOf (width x.ty) (opdVal s t (width x.ty) (lanes x.sh) (wideOf x.ty x.sh) x.a) (lanes x.sh)).map (f (width x.ty)))
  have key : ∃ s', alu1 s i h x f = .next s' ∧ Retired s s' t h (putInt t.ctx x.ty x.sh x.d v) (t.ctx.pc + 12) := by
    unfold alu1
    refine issue_regs hi hf (by simp) (c := putInt t.ctx x.ty x.sh x.d v) ?_ (by simp) (by simp)
    simp only [finish, putInt_pc, v]
  obtain ⟨s', h1, h2⟩ := key
  refine ⟨v, s', h1, ?_, h2⟩
  intro j hj
  rw [laneOf_ofLanes]
  · simp [lanesOf]
  · simpa [lanesOf] using shape_fits hw
  · simpa [lanesOf] using hj

/-! Counting bits (R129). -/

theorem clzBits_le {w : Nat} (a : BitVec w) (k : Nat) : clzBits a k ≤ k := by
  induction k with
  | zero => simp [clzBits]
  | succ k ih => simp only [clzBits]; split <;> omega

theorem clzBits_zero {w : Nat} (a : BitVec w) (k j : Nat) (h1 : k - clzBits a k ≤ j) (h2 : j < k) : a.getLsbD j = false := by
  induction k with
  | zero => omega
  | succ k ih =>
    simp only [clzBits] at h1
    split at h1
    · omega
    · rename_i h
      by_cases hj : j = k
      · simpa [hj] using h
      · exact ih (by omega) (by omega)

theorem clzBits_one {w : Nat} (a : BitVec w) (k : Nat) (h : clzBits a k < k) : a.getLsbD (k - 1 - clzBits a k) = true := by
  induction k with
  | zero => omega
  | succ k ih =>
    simp only [clzBits] at h ⊢
    split at h
    · rename_i hb; simp [hb]
    · rename_i hb
      rw [if_neg hb]
      have := ih (by omega)
      have e : k + 1 - 1 - (1 + clzBits a k) = k - 1 - clzBits a k := by omega
      rwa [e]

theorem ctzBits_le {w : Nat} (a : BitVec w) (i k : Nat) : ctzBits a i k ≤ k := by
  induction k generalizing i with
  | zero => simp [ctzBits]
  | succ k ih => simp only [ctzBits]; split <;> [omega; (have := ih (i + 1); omega)]

theorem ctzBits_zero {w : Nat} (a : BitVec w) (i k j : Nat) (h1 : i ≤ j) (h2 : j < i + ctzBits a i k) : a.getLsbD j = false := by
  induction k generalizing i with
  | zero => simp [ctzBits] at h2; omega
  | succ k ih =>
    simp only [ctzBits] at h2
    split at h2
    · omega
    · rename_i h
      by_cases hj : j = i
      · simpa [hj] using h
      · exact ih (i + 1) (by omega) (by omega)

theorem ctzBits_one {w : Nat} (a : BitVec w) (i k : Nat) (h : ctzBits a i k < k) : a.getLsbD (i + ctzBits a i k) = true := by
  induction k generalizing i with
  | zero => omega
  | succ k ih =>
    simp only [ctzBits] at h ⊢
    split at h
    · rename_i hb; simp [hb]
    · rename_i hb
      have := ih (i + 1) (by omega)
      rw [if_neg hb]
      have e : i + (1 + ctzBits a (i + 1) k) = i + 1 + ctzBits a (i + 1) k := by omega
      rwa [e]

theorem popBits_eq {w : Nat} (a : BitVec w) (k : Nat) : popBits a k = ((List.range k).filter fun j => a.getLsbD j).length := by
  induction k with
  | zero => rfl
  | succ k ih =>
    simp only [popBits, List.range_succ, List.filter_append, List.length_append, ih]
    by_cases h : a.getLsbD k = true <;> simp [h, Nat.add_comm]

theorem getLsbD_revBits {w : Nat} (a : BitVec w) (k j : Nat) (hj : j < w) :
    (revBits a k).getLsbD j = (decide (j < k) && a.getLsbD (w - 1 - j)) := by
  induction k with
  | zero => simp [revBits]
  | succ k ih =>
    simp only [revBits, BitVec.getLsbD_or, ih, BitVec.getLsbD_shiftLeft, hj, decide_true, Bool.true_and]
    by_cases h1 : j < k
    · simp [h1, Nat.lt_succ_of_lt h1]
    · by_cases h2 : j = k
      · subst h2
        have hw : 0 < w := by omega
        by_cases hb : a.getLsbD (w - 1 - j) = true <;> simp [hb, hw]
      · have h3 : ¬ j < k + 1 := by omega
        have h4 : j - k ≠ 0 := by omega
        simp only [h1, h3, decide_false, Bool.false_and, Bool.false_or, Bool.not_false, Bool.true_and]
        by_cases hb : a.getLsbD (w - 1 - k) = true
        · simp only [hb, if_true]
          rw [BitVec.getLsbD_ofNat, ← Nat.pow_zero 2, Nat.testBit_two_pow]
          simp [Ne.symm h4]
        · simp [hb]

theorem getLsbD_ff {w j : Nat} : (0xFF : BitVec w).getLsbD j = (decide (j < w) && decide (j < 8)) := by
  have h : (0xFF : BitVec w) = BitVec.ofNat w (2 ^ 8 - 1) := rfl
  rw [h, BitVec.getLsbD_ofNat, Nat.testBit_two_pow_sub_one]

theorem getLsbD_revBytes {w : Nat} (a : BitVec w) (k j : Nat) (hj : j < w) (hk : 8 * k ≤ w) :
    (revBytes a k).getLsbD j = (decide (j < 8 * k) && a.getLsbD (8 * (w / 8 - 1 - j / 8) + j % 8)) := by
  induction k with
  | zero => simp [revBytes]
  | succ k ih =>
    simp only [revBytes, BitVec.getLsbD_or, ih (by omega), BitVec.getLsbD_shiftLeft, BitVec.getLsbD_and, BitVec.getLsbD_ushiftRight,
      hj, decide_true, Bool.true_and, getLsbD_ff]
    by_cases h1 : j < 8 * k
    · have : j < 8 * (k + 1) := by omega
      simp [h1, this]
    · by_cases h2 : j < 8 * (k + 1)
      · have e1 : j / 8 = k := by omega
        have e2 : j - 8 * k = j % 8 := by omega
        have e3 : j % 8 < 8 := Nat.mod_lt _ (by omega)
        have e4 : j % 8 < w := by omega
        simp [h1, h2, e1, e2, e3, e4]
      · have e : ¬ j - 8 * k < 8 := by omega
        simp [h1, h2, e]

/-! Extensions and fields (R132). -/

theorem getLsbD_extBits (sg : Bool) (k w : Nat) (a : BitVec w) (j : Nat) (hj : j < w) (hk : 0 < k) :
    (extBits sg k w a).getLsbD j = if j < k then a.getLsbD j else (sg && a.getLsbD (k - 1)) := by
  cases sg with
  | false =>
    simp only [extBits, Bool.false_eq_true, if_false, BitVec.getLsbD_setWidth, hj, decide_true, Bool.true_and, Bool.false_and]
    by_cases h : j < k <;> simp [h]
  | true =>
    simp only [extBits, if_true, BitVec.getLsbD_signExtend, hj, decide_true, Bool.true_and, BitVec.getLsbD_setWidth]
    by_cases h : j < k
    · simp [h]
    · simp [h, BitVec.msb_eq_getLsbD_last, hk]

theorem getLsbD_operBfi (pos len w : Nat) (sg : Bool) (a b : BitVec w) (j : Nat) (hj : j < w) (hp : pos + len ≤ w) :
    (operBfi pos len w sg a b).getLsbD j = if pos ≤ j ∧ j < pos + len then a.getLsbD (j - pos) else b.getLsbD j := by
  simp only [operBfi, BitVec.getLsbD_or, BitVec.getLsbD_and, BitVec.getLsbD_not, BitVec.getLsbD_shiftLeft, hj, decide_true,
    Bool.true_and, BitVec.getLsbD_setWidth, BitVec.getLsbD_allOnes]
  by_cases h1 : pos ≤ j
  · have h2 : ¬ j < pos := by omega
    by_cases h3 : j < pos + len
    · have h4 : j - pos < len := by omega
      have h5 : j - pos < w := by omega
      simp [h1, h2, h3, h4, h5]
    · have h4 : ¬ j - pos < len := by omega
      simp [h2, h3, h4]
  · have h2 : j < pos := by omega
    simp [h1, h2]

end Sys2Proof.Machine
end

