-- ==== Sys2Proof/Laws/Memory.lean ====
section
/-! SUPPORT. Memory: what a read gives after a write, and that every operation keeps the canonical form. -/

namespace Sys2Proof.Machine

/-! Reads after writes. -/

theorem cellRead_below (l : List Host.Cell) (lo a : Nat) (h : cellsFrom lo l = true) (ha : a < lo) : cellRead l a = 0 := by
  induction l generalizing lo with
  | nil => rfl
  | cons c l ih =>
    simp only [cellsFrom, Bool.and_eq_true, decide_eq_true_eq] at h
    obtain ⟨⟨h1, _⟩, h3⟩ := h
    have : c.1 ≠ a := by omega
    simp [cellRead, this, ih (c.1 + 1) h3 (by omega)]

theorem cellRead_cellWrite_same (l : List Host.Cell) (lo a : Nat) (b : Byte) (h : cellsFrom lo l = true) :
    cellRead (cellWrite l a b) a = b := by
  induction l generalizing lo with
  | nil => by_cases hb : b = 0#8 <;> simp [cellWrite, cellRead, hb]
  | cons c l ih =>
    simp only [cellsFrom, Bool.and_eq_true, decide_eq_true_eq] at h
    obtain ⟨⟨h1, h2⟩, h3⟩ := h
    by_cases ha : a < c.1
    · have hc : c.1 ≠ a := by omega
      by_cases hb : b = 0#8
      · simp [cellWrite, ha, hb, cellRead, hc, cellRead_below l (c.1 + 1) a h3 (by omega)]
      · simp [cellWrite, ha, hb, cellRead]
    · by_cases he : a = c.1
      · by_cases hb : b = 0#8
        · simp [cellWrite, he, hb, cellRead_below l (c.1 + 1) c.1 h3 (by omega)]
        · simp [cellWrite, he, hb, cellRead]
      · have hc : c.1 ≠ a := by omega
        simp [cellWrite, ha, he, cellRead, hc, ih (c.1 + 1) h3]

theorem cellRead_cellWrite_other (l : List Host.Cell) (a x : Nat) (b : Byte) (hx : x ≠ a) :
    cellRead (cellWrite l a b) x = cellRead l x := by
  induction l with
  | nil => by_cases hb : b = 0#8 <;> simp [cellWrite, cellRead, hb, Ne.symm hx]
  | cons c l ih =>
    by_cases ha : a < c.1
    · by_cases hb : b = 0#8 <;> simp [cellWrite, ha, hb, cellRead, Ne.symm hx]
    · by_cases he : a = c.1
      · have hc : ¬ c.1 = x := by omega
        by_cases hb : b = 0#8 <;> simp [cellWrite, he, hb, cellRead, hc]
      · simp only [cellWrite, ha, he, if_false, cellRead, ih]

/-! The canonical form. -/

theorem cellsFrom_mono (l : List Host.Cell) (lo hi : Nat) (h : cellsFrom hi l = true) (hl : lo ≤ hi) : cellsFrom lo l = true := by
  cases l with
  | nil => rfl
  | cons c l =>
    simp only [cellsFrom, Bool.and_eq_true, decide_eq_true_eq] at *
    exact ⟨⟨by omega, h.1.2⟩, h.2⟩

theorem cellsFrom_cellWrite (l : List Host.Cell) (lo a : Nat) (b : Byte) (h : cellsFrom lo l = true) (ha : lo ≤ a) :
    cellsFrom lo (cellWrite l a b) = true := by
  induction l generalizing lo with
  | nil => by_cases hb : b = 0#8 <;> simp [cellWrite, cellsFrom, hb, ha]
  | cons c l ih =>
    have h0 := h
    simp only [cellsFrom, Bool.and_eq_true, decide_eq_true_eq] at h
    obtain ⟨⟨h1, h2⟩, h3⟩ := h
    by_cases hc : a < c.1
    · by_cases hb : b = 0#8
      · simpa [cellWrite, hc, hb] using h0
      · have h2' : ¬ c.2 = 0#8 := by simpa using h2
        simp [cellWrite, hc, hb, cellsFrom, ha, h3, h2', Nat.succ_le_of_lt hc]
    · by_cases he : a = c.1
      · by_cases hb : b = 0#8
        · simp [cellWrite, he, hb, cellsFrom_mono l lo (c.1 + 1) h3 (by omega)]
        · simp [cellWrite, he, hb, cellsFrom, h3, h1]
      · simp only [cellWrite, hc, he, if_false, cellsFrom, Bool.and_eq_true, decide_eq_true_eq]
        exact ⟨⟨h1, h2⟩, ih (c.1 + 1) h3 (by omega)⟩

theorem cellsWf_cellWrite (l : List Host.Cell) (a : Nat) (b : Byte) (h : cellsWf l = true) : cellsWf (cellWrite l a b) = true :=
  cellsFrom_cellWrite l 0 a b h (by omega)

theorem cellsWf_writeBytes (bs : List Byte) (l : List Host.Cell) (a : Nat) (h : cellsWf l = true) :
    cellsWf (writeBytes l a bs) = true := by
  induction bs generalizing l a with
  | nil => exact h
  | cons b bs ih => exact ih _ _ (cellsWf_cellWrite l a b h)

theorem cellsWf_writeVal (l : List Host.Cell) (a n : Nat) (v : Vec) (h : cellsWf l = true) : cellsWf (writeVal l a n v) = true :=
  cellsWf_writeBytes _ l a h

theorem cellsFrom_filter (p : Host.Cell → Bool) (l : List Host.Cell) (lo : Nat) (h : cellsFrom lo l = true) :
    cellsFrom lo (l.filter p) = true := by
  induction l generalizing lo with
  | nil => rfl
  | cons c l ih =>
    simp only [cellsFrom, Bool.and_eq_true, decide_eq_true_eq] at h
    by_cases hp : p c = true
    · simp [hp, cellsFrom, h.1.1, ih _ h.2]
      simpa using h.1.2
    · simp [hp, cellsFrom_mono _ lo _ (ih _ h.2) (by omega)]

theorem cellsWf_filter (p : Host.Cell → Bool) (l : List Host.Cell) (h : cellsWf l = true) : cellsWf (l.filter p) = true :=
  cellsFrom_filter p l 0 h

theorem risingFrom_mono (l : List Nat) (lo hi : Nat) (h : risingFrom hi l = true) (hl : lo ≤ hi) : risingFrom lo l = true := by
  cases l with
  | nil => rfl
  | cons x l =>
    simp only [risingFrom, Bool.and_eq_true, decide_eq_true_eq] at *
    exact ⟨by omega, h.2⟩

theorem risingFrom_insert (l : List Nat) (lo x : Nat) (h : risingFrom lo l = true) (hx : lo ≤ x) :
    risingFrom lo (insertRising l x) = true := by
  induction l generalizing lo with
  | nil => simp [insertRising, risingFrom, hx]
  | cons y l ih =>
    have h0 := h
    simp only [risingFrom, Bool.and_eq_true, decide_eq_true_eq] at h
    by_cases h1 : x < y
    · simp [insertRising, h1, risingFrom, hx, h.2, Nat.succ_le_of_lt h1]
    · by_cases h2 : x = y
      · subst h2; simpa [insertRising] using h0
      · simp [insertRising, h1, h2, risingFrom, h.1, ih _ h.2 (by omega)]

theorem risingFrom_remove (l : List Nat) (lo x : Nat) (h : risingFrom lo l = true) : risingFrom lo (removeRising l x) = true := by
  induction l generalizing lo with
  | nil => rfl
  | cons y l ih =>
    simp only [risingFrom, Bool.and_eq_true, decide_eq_true_eq] at h
    by_cases h2 : x = y
    · simp [removeRising, h2, risingFrom_mono _ lo _ h.2 (by omega)]
    · simp [removeRising, h2, risingFrom, h.1, ih _ h.2]

theorem risingFrom_filter (p : Nat → Bool) (l : List Nat) (lo : Nat) (h : risingFrom lo l = true) :
    risingFrom lo (l.filter p) = true := by
  induction l generalizing lo with
  | nil => rfl
  | cons y l ih =>
    simp only [risingFrom, Bool.and_eq_true, decide_eq_true_eq] at h
    by_cases hp : p y = true
    · simp [hp, risingFrom, h.1, ih _ h.2]
    · simp [hp, risingFrom_mono _ lo _ (ih _ h.2) (by omega)]

/-- The parts of the canonical form. -/
theorem wf_iff (m : Mem) : Memory.wf m = true ↔
    cellsWf m.dev = true ∧ cellsWf m.host = true ∧ cellsWf m.tiles = true ∧ risingFrom 0 m.empty = true := by
  simp [Memory.wf, and_assoc]

theorem wf_physWrite (m : Mem) (p : Phys) (n : Nat) (v : Vec) (h : Memory.wf m = true) : Memory.wf (physWrite m p n v) = true := by
  rw [wf_iff] at *
  cases p <;> simp only [physWrite] <;>
    first
      | exact h
      | exact ⟨cellsWf_writeVal _ _ _ _ h.1, h.2⟩
      | exact ⟨h.1, cellsWf_writeVal _ _ _ _ h.2.1, h.2.2⟩

theorem wf_setFull (m : Mem) (a : Nat) (h : Memory.wf m = true) : Memory.wf (setFull m a) = true := by
  rw [wf_iff] at *
  exact ⟨h.1, h.2.1, h.2.2.1, risingFrom_remove _ _ _ h.2.2.2⟩

theorem wf_setEmpty (m : Mem) (a : Nat) (h : Memory.wf m = true) : Memory.wf (setEmpty m a) = true := by
  rw [wf_iff] at *
  exact ⟨h.1, h.2.1, h.2.2.1, risingFrom_insert _ _ _ h.2.2.2 (by omega)⟩

theorem wf_setFullRange (n : Nat) (m : Mem) (a : Nat) (h : Memory.wf m = true) : Memory.wf (setFullRange m a n) = true := by
  induction n generalizing m a with
  | zero => exact h
  | succ n ih => exact ih _ _ (wf_setFull m a h)

theorem wf_reset : Memory.wf State.reset.mem = true := by decide

end Sys2Proof.Machine
end

