-- ==== Sys2Proof/Laws/RoundTrip.lean ====
section
/-! SUPPORT. Each encoding of 02_encoding decodes to what it encodes, for every operand. -/

namespace Sys2Proof.Decode
open Sys2Proof.Forms
set_option Elab.async false
set_option linter.unusedSimpArgs false
set_option linter.unusedVariables false

theorem decode_alu2_opd {opc : BitVec 10} (ho : opc ≠ 0) {p : Ty → Bool} {mk : Hdr → Alu2 → Instr} (hr : rowOf opc = some (rowAlu2 opc p mk)) (h : Hdr) (t : Ty) (s : Shape) (d a : Opd) (b : Opd) (hw : WellFormed.alu2 p ⟨t, s, d, a, .opd b⟩ = true) : decode (eAlu2 opc h ⟨t, s, d, a, .opd b⟩ 0 0) = .ok (mk h ⟨t, s, d, a, .opd b⟩) := by
  simp only [WellFormed.alu2, WellFormed.srcOk, Bool.and_eq_true] at hw
  refine (decode_eq (r := rowAlu2 opc p mk) (f := false) [(17,2),(40,7),(47,3),(58,3),(61,2),(64,32)] (wR_opc ..) ho hr ?_ rfl ?_ ?_ ?_ ?_).trans ?_
  · simp [eAlu2, srcCode, rowAlu2, fOpc, fD, fA, fB, fC, fPX, fTY, fSH, fF3, fF, fImm, fAOP, fNT, fFAR, fSCP, fORD, eC, eTY, eNP, eEOP, bit_one, bit_zero, bit_false, wR_high, wE_high, rty, rsh, ty, sh, rrm, rop, scp, mem, srcB, opd_eq, opd_code, ty_code, sh_code, rm_code, op_code, ord_code, scp_code, sgn_code, cond_code, fcond_code, tyFld, eTyFld, shFld, rmFld, opFld, ordFld, scpFld, scFld, chkSrc, chk1, chk2, chk3, chk4, range_none, canImm_sDst, canImm_vDst, canImm_pDst, canImm_sReg, canImm_sRegDst, canImm_mDst, canImm_mDat, canImm_aluDst, canImm_fDst, canImm_cmpDst, canImm_memDst, canImm_memDat, BitVec.extractLsb'_setWidth_of_le, BitVec.extractLsb'_eq_self]
  · show covers (usedRI [] false) _ = true
    decide +kernel
  · simp [eAlu2, srcCode, rowAlu2, fOpc, fD, fA, fB, fC, fPX, fTY, fSH, fF3, fF, fImm, fAOP, fNT, fFAR, fSCP, fORD, eC, eTY, eNP, eEOP, bit_one, bit_zero, bit_false, wR_high, wE_high, rty, rsh, ty, sh, rrm, rop, scp, mem, srcB, opd_eq, opd_code, ty_code, sh_code, rm_code, op_code, ord_code, scp_code, sgn_code, cond_code, fcond_code, tyFld, eTyFld, shFld, rmFld, opFld, ordFld, scpFld, scFld, chkSrc, chk1, chk2, chk3, chk4, range_none, canImm_sDst, canImm_vDst, canImm_pDst, canImm_sReg, canImm_sRegDst, canImm_mDst, canImm_mDat, canImm_aluDst, canImm_fDst, canImm_cmpDst, canImm_memDst, canImm_memDat, BitVec.extractLsb'_setWidth_of_le, BitVec.extractLsb'_eq_self]
  · simp [eAlu2, srcCode, rowAlu2, fOpc, fD, fA, fB, fC, fPX, fTY, fSH, fF3, fF, fImm, fAOP, fNT, fFAR, fSCP, fORD, eC, eTY, eNP, eEOP, bit_one, bit_zero, bit_false, wR_high, wE_high, rty, rsh, ty, sh, rrm, rop, scp, mem, srcB, opd_eq, opd_code, ty_code, sh_code, rm_code, op_code, ord_code, scp_code, sgn_code, cond_code, fcond_code, tyFld, eTyFld, shFld, rmFld, opFld, ordFld, scpFld, scFld, chkSrc, chk1, chk2, chk3, chk4, range_none, canImm_sDst, canImm_vDst, canImm_pDst, canImm_sReg, canImm_sRegDst, canImm_mDst, canImm_mDat, canImm_aluDst, canImm_fDst, canImm_cmpDst, canImm_memDst, canImm_memDat, BitVec.extractLsb'_setWidth_of_le, BitVec.extractLsb'_eq_self, hw]
  · simp [eAlu2, srcCode, rowAlu2, fOpc, fD, fA, fB, fC, fPX, fTY, fSH, fF3, fF, fImm, fAOP, fNT, fFAR, fSCP, fORD, eC, eTY, eNP, eEOP, bit_one, bit_zero, bit_false, wR_high, wE_high, rty, rsh, ty, sh, rrm, rop, scp, mem, srcB, opd_eq, opd_code, ty_code, sh_code, rm_code, op_code, ord_code, scp_code, sgn_code, cond_code, fcond_code, tyFld, eTyFld, shFld, rmFld, opFld, ordFld, scpFld, scFld, chkSrc, chk1, chk2, chk3, chk4, range_none, canImm_sDst, canImm_vDst, canImm_pDst, canImm_sReg, canImm_sRegDst, canImm_mDst, canImm_mDat, canImm_aluDst, canImm_fDst, canImm_cmpDst, canImm_memDst, canImm_memDat, BitVec.extractLsb'_setWidth_of_le, BitVec.extractLsb'_eq_self, hw]
  · simp [eAlu2, srcCode, rowAlu2, fOpc, fD, fA, fB, fC, fPX, fTY, fSH, fF3, fF, fImm, fAOP, fNT, fFAR, fSCP, fORD, eC, eTY, eNP, eEOP, bit_one, bit_zero, bit_false, wR_high, wE_high, rty, rsh, ty, sh, rrm, rop, scp, mem, srcB, opd_eq, opd_code, ty_code, sh_code, rm_code, op_code, ord_code, scp_code, sgn_code, cond_code, fcond_code, tyFld, eTyFld, shFld, rmFld, opFld, ordFld, scpFld, scFld, chkSrc, chk1, chk2, chk3, chk4, range_none, canImm_sDst, canImm_vDst, canImm_pDst, canImm_sReg, canImm_sRegDst, canImm_mDst, canImm_mDat, canImm_aluDst, canImm_fDst, canImm_cmpDst, canImm_memDst, canImm_memDat, BitVec.extractLsb'_setWidth_of_le, BitVec.extractLsb'_eq_self]

theorem decode_alu2_imm {opc : BitVec 10} (ho : opc ≠ 0) {p : Ty → Bool} {mk : Hdr → Alu2 → Instr} (hr : rowOf opc = some (rowAlu2 opc p mk)) (h : Hdr) (t : Ty) (s : Shape) (d a : Opd) (v : BitVec 32) (hw : WellFormed.alu2 p ⟨t, s, d, a, .imm32 v⟩ = true) : decode (eAlu2 opc h ⟨t, s, d, a, .imm32 v⟩ 0 0) = .ok (mk h ⟨t, s, d, a, .imm32 v⟩) := by
  simp only [WellFormed.alu2, WellFormed.srcOk, Bool.and_eq_true] at hw
  refine (decode_eq (r := rowAlu2 opc p mk) (f := true) [(17,2),(33,7),(40,7),(47,3),(58,3),(61,2)] (wR_opc ..) ho hr ?_ rfl ?_ ?_ ?_ ?_).trans ?_
  · simp [eAlu2, srcCode, rowAlu2, fOpc, fD, fA, fB, fC, fPX, fTY, fSH, fF3, fF, fImm, fAOP, fNT, fFAR, fSCP, fORD, eC, eTY, eNP, eEOP, bit_one, bit_zero, bit_false, wR_high, wE_high, rty, rsh, ty, sh, rrm, rop, scp, mem, srcB, opd_eq, opd_code, ty_code, sh_code, rm_code, op_code, ord_code, scp_code, sgn_code, cond_code, fcond_code, tyFld, eTyFld, shFld, rmFld, opFld, ordFld, scpFld, scFld, chkSrc, chk1, chk2, chk3, chk4, range_none, canImm_sDst, canImm_vDst, canImm_pDst, canImm_sReg, canImm_sRegDst, canImm_mDst, canImm_mDat, canImm_aluDst, canImm_fDst, canImm_cmpDst, canImm_memDst, canImm_memDat, BitVec.extractLsb'_setWidth_of_le, BitVec.extractLsb'_eq_self]
  · show covers (usedRI [] true) _ = true
    decide +kernel
  · simp [eAlu2, srcCode, rowAlu2, fOpc, fD, fA, fB, fC, fPX, fTY, fSH, fF3, fF, fImm, fAOP, fNT, fFAR, fSCP, fORD, eC, eTY, eNP, eEOP, bit_one, bit_zero, bit_false, wR_high, wE_high, rty, rsh, ty, sh, rrm, rop, scp, mem, srcB, opd_eq, opd_code, ty_code, sh_code, rm_code, op_code, ord_code, scp_code, sgn_code, cond_code, fcond_code, tyFld, eTyFld, shFld, rmFld, opFld, ordFld, scpFld, scFld, chkSrc, chk1, chk2, chk3, chk4, range_none, canImm_sDst, canImm_vDst, canImm_pDst, canImm_sReg, canImm_sRegDst, canImm_mDst, canImm_mDat, canImm_aluDst, canImm_fDst, canImm_cmpDst, canImm_memDst, canImm_memDat, BitVec.extractLsb'_setWidth_of_le, BitVec.extractLsb'_eq_self]
  · simp [eAlu2, srcCode, rowAlu2, fOpc, fD, fA, fB, fC, fPX, fTY, fSH, fF3, fF, fImm, fAOP, fNT, fFAR, fSCP, fORD, eC, eTY, eNP, eEOP, bit_one, bit_zero, bit_false, wR_high, wE_high, rty, rsh, ty, sh, rrm, rop, scp, mem, srcB, opd_eq, opd_code, ty_code, sh_code, rm_code, op_code, ord_code, scp_code, sgn_code, cond_code, fcond_code, tyFld, eTyFld, shFld, rmFld, opFld, ordFld, scpFld, scFld, chkSrc, chk1, chk2, chk3, chk4, range_none, canImm_sDst, canImm_vDst, canImm_pDst, canImm_sReg, canImm_sRegDst, canImm_mDst, canImm_mDat, canImm_aluDst, canImm_fDst, canImm_cmpDst, canImm_memDst, canImm_memDat, BitVec.extractLsb'_setWidth_of_le, BitVec.extractLsb'_eq_self, hw]
  · simp [eAlu2, srcCode, rowAlu2, fOpc, fD, fA, fB, fC, fPX, fTY, fSH, fF3, fF, fImm, fAOP, fNT, fFAR, fSCP, fORD, eC, eTY, eNP, eEOP, bit_one, bit_zero, bit_false, wR_high, wE_high, rty, rsh, ty, sh, rrm, rop, scp, mem, srcB, opd_eq, opd_code, ty_code, sh_code, rm_code, op_code, ord_code, scp_code, sgn_code, cond_code, fcond_code, tyFld, eTyFld, shFld, rmFld, opFld, ordFld, scpFld, scFld, chkSrc, chk1, chk2, chk3, chk4, range_none, canImm_sDst, canImm_vDst, canImm_pDst, canImm_sReg, canImm_sRegDst, canImm_mDst, canImm_mDat, canImm_aluDst, canImm_fDst, canImm_cmpDst, canImm_memDst, canImm_memDat, BitVec.extractLsb'_setWidth_of_le, BitVec.extractLsb'_eq_self, hw]
  · simp [eAlu2, srcCode, rowAlu2, fOpc, fD, fA, fB, fC, fPX, fTY, fSH, fF3, fF, fImm, fAOP, fNT, fFAR, fSCP, fORD, eC, eTY, eNP, eEOP, bit_one, bit_zero, bit_false, wR_high, wE_high, rty, rsh, ty, sh, rrm, rop, scp, mem, srcB, opd_eq, opd_code, ty_code, sh_code, rm_code, op_code, ord_code, scp_code, sgn_code, cond_code, fcond_code, tyFld, eTyFld, shFld, rmFld, opFld, ordFld, scpFld, scFld, chkSrc, chk1, chk2, chk3, chk4, range_none, canImm_sDst, canImm_vDst, canImm_pDst, canImm_sReg, canImm_sRegDst, canImm_mDst, canImm_mDat, canImm_aluDst, canImm_fDst, canImm_cmpDst, canImm_memDst, canImm_memDat, BitVec.extractLsb'_setWidth_of_le, BitVec.extractLsb'_eq_self]

theorem decode_alu1 {opc : BitVec 10} (ho : opc ≠ 0) {p : Ty → Bool} {mk : Hdr → Alu1 → Instr} (hr : rowOf opc = some (rowAlu1 opc p mk)) (h : Hdr) (x : Alu1) (hw : WellFormed.alu1 p x = true) : decode (eAlu1 opc h x 0) = .ok (mk h x) := by
  simp only [WellFormed.alu1, Bool.and_eq_true] at hw
  refine (decode_eq (r := rowAlu1 opc p mk) (f := false) [(17, 2), (33, 7), (40, 7), (47, 3), (58, 3), (61, 2), (63, 1), (64, 32)] (wR_opc ..) ho hr ?_ rfl ?_ ?_ ?_ ?_).trans ?_
  · simp [eAlu1, rowAlu1, BitVec.extractLsb'_setWidth_of_le, BitVec.extractLsb'_eq_self]
  · show covers ([uD, uA, uTY, uSH]) _ = true
    decide +kernel
  · simp [eAlu1, rowAlu1, BitVec.extractLsb'_setWidth_of_le, BitVec.extractLsb'_eq_self]
  · simp [eAlu1, rowAlu1, BitVec.extractLsb'_setWidth_of_le, BitVec.extractLsb'_eq_self, hw]
  · simp [eAlu1, rowAlu1, BitVec.extractLsb'_setWidth_of_le, BitVec.extractLsb'_eq_self, hw]
  · simp [eAlu1, rowAlu1, BitVec.extractLsb'_setWidth_of_le, BitVec.extractLsb'_eq_self]

theorem decode_carry_opd {opc : BitVec 10} (ho : opc ≠ 0) {mk : Hdr → AluX → Instr} (hr : rowOf opc = some (rowCarry opc mk)) (h : Hdr) (t : Ty) (s : Shape) (px : BitVec 3) (d a : Opd) (b : Opd) (hw : WellFormed.aluX carryTy false ⟨t, s, px, d, a, .opd b⟩ = true) : decode (eAluX opc h ⟨t, s, px, d, a, .opd b⟩) = .ok (mk h ⟨t, s, px, d, a, .opd b⟩) := by
  have e0 : s = .sc := by simp [WellFormed.aluX] at hw; exact hw.1.1.1.2
  subst e0
  have e1 : aluSrc t .sc = .sSrc ∧ aluDst t .sc = .sDst := by
    cases t <;> simp_all [WellFormed.aluX, carryTy, aluSrc, aluDst, shaped]
  simp only [WellFormed.aluX, e1, WellFormed.srcOk, Bool.and_eq_true] at hw
  refine (decode_eq (r := rowCarry opc mk) (f := false) [(17, 2), (40, 7), (55, 3), (58, 3), (61, 2), (64, 32)] (wR_opc ..) ho hr ?_ rfl ?_ ?_ ?_ ?_).trans ?_
  · simp [eAluX, eAlu2, srcCode, rowCarry, shCode, BitVec.extractLsb'_setWidth_of_le, BitVec.extractLsb'_eq_self]
  · show covers ([uD, uA, uTY, uPX, uF, uB]) _ = true
    decide +kernel
  · simp [eAluX, eAlu2, srcCode, rowCarry, shCode, BitVec.extractLsb'_setWidth_of_le, BitVec.extractLsb'_eq_self]
  · simp [eAluX, eAlu2, srcCode, rowCarry, shCode, BitVec.extractLsb'_setWidth_of_le, BitVec.extractLsb'_eq_self, hw]
  · simp [eAluX, eAlu2, srcCode, rowCarry, shCode, BitVec.extractLsb'_setWidth_of_le, BitVec.extractLsb'_eq_self, hw]
  · simp [eAluX, eAlu2, srcCode, rowCarry, shCode, BitVec.extractLsb'_setWidth_of_le, BitVec.extractLsb'_eq_self]

theorem decode_sel_opd (h : Hdr) (t : Ty) (s : Shape) (px : BitVec 3) (d a : Opd) (b : Opd) (hw : WellFormed.aluX isRaw true ⟨t, s, px, d, a, .opd b⟩ = true) : decode (eAluX 0x01F h ⟨t, s, px, d, a, .opd b⟩) = .ok (.sel h ⟨t, s, px, d, a, .opd b⟩) := by
  have ho : (0x01F : BitVec 10) ≠ 0 := by decide
  have hr : rowOf 0x01F = some (rowSel) := rfl
  simp only [WellFormed.aluX, WellFormed.srcOk, Bool.and_eq_true] at hw
  refine (decode_eq (r := rowSel) (f := false) [(17, 2), (40, 7), (58, 3), (61, 2), (64, 32)] (wR_opc ..) ho hr ?_ rfl ?_ ?_ ?_ ?_).trans ?_
  · simp [eAluX, eAlu2, srcCode, rowSel, BitVec.extractLsb'_setWidth_of_le, BitVec.extractLsb'_eq_self]
  · show covers (usedRI [uPX] false) _ = true
    decide +kernel
  · simp [eAluX, eAlu2, srcCode, rowSel, BitVec.extractLsb'_setWidth_of_le, BitVec.extractLsb'_eq_self]
  · simp [eAluX, eAlu2, srcCode, rowSel, BitVec.extractLsb'_setWidth_of_le, BitVec.extractLsb'_eq_self, hw]
  · simp [eAluX, eAlu2, srcCode, rowSel, BitVec.extractLsb'_setWidth_of_le, BitVec.extractLsb'_eq_self, hw]
  · simp [eAluX, eAlu2, srcCode, rowSel, BitVec.extractLsb'_setWidth_of_le, BitVec.extractLsb'_eq_self]

theorem decode_cmp_opd (h : Hdr) (c : Cond) (t : Ty) (s : Shape) (d a : Opd) (b : Opd) (hw : WellFormed.cmp ⟨c, t, s, d, a, .opd b⟩ = true) : decode (encode (.cmp h ⟨c, t, s, d, a, .opd b⟩)) = .ok (.cmp h ⟨c, t, s, d, a, .opd b⟩) := by
  have ho : (0x023 : BitVec 10) ≠ 0 := by decide
  have hr : rowOf 0x023 = some (rowCmp) := rfl
  simp only [WellFormed.cmp, WellFormed.srcOk, Bool.and_eq_true] at hw
  refine (decode_eq (r := rowCmp) (f := false) [(17, 2), (40, 7), (47, 3), (61, 2), (64, 32)] (wR_opc ..) ho hr ?_ rfl ?_ ?_ ?_ ?_).trans ?_
  · simp [encode, eAlu2, srcCode, rowCmp, BitVec.extractLsb'_setWidth_of_le, BitVec.extractLsb'_eq_self]
  · show covers (usedRI [uF3] false) _ = true
    decide +kernel
  · simp [encode, eAlu2, srcCode, rowCmp, BitVec.extractLsb'_setWidth_of_le, BitVec.extractLsb'_eq_self]
  · simp [encode, eAlu2, srcCode, rowCmp, BitVec.extractLsb'_setWidth_of_le, BitVec.extractLsb'_eq_self, hw]
  · simp [encode, eAlu2, srcCode, rowCmp, BitVec.extractLsb'_setWidth_of_le, BitVec.extractLsb'_eq_self, hw]
  · simp [encode, eAlu2, srcCode, rowCmp, BitVec.extractLsb'_setWidth_of_le, BitVec.extractLsb'_eq_self]

theorem decode_carry_imm {opc : BitVec 10} (ho : opc ≠ 0) {mk : Hdr → AluX → Instr} (hr : rowOf opc = some (rowCarry opc mk)) (h : Hdr) (t : Ty) (s : Shape) (px : BitVec 3) (d a : Opd) (v : BitVec 32) (hw : WellFormed.aluX carryTy false ⟨t, s, px, d, a, .imm32 v⟩ = true) : decode (eAluX opc h ⟨t, s, px, d, a, .imm32 v⟩) = .ok (mk h ⟨t, s, px, d, a, .imm32 v⟩) := by
  have e0 : s = .sc := by simp [WellFormed.aluX] at hw; exact hw.1.1.1.2
  subst e0
  have e1 : aluSrc t .sc = .sSrc ∧ aluDst t .sc = .sDst := by
    cases t <;> simp_all [WellFormed.aluX, carryTy, aluSrc, aluDst, shaped]
  simp only [WellFormed.aluX, e1, WellFormed.srcOk, Bool.and_eq_true] at hw
  refine (decode_eq (r := rowCarry opc mk) (f := true) [(17, 2), (33, 7), (40, 7), (55, 3), (58, 3), (61, 2)] (wR_opc ..) ho hr ?_ rfl ?_ ?_ ?_ ?_).trans ?_
  · simp [eAluX, eAlu2, srcCode, rowCarry, shCode, BitVec.extractLsb'_setWidth_of_le, BitVec.extractLsb'_eq_self]
  · show covers ([uD, uA, uTY, uPX, uF, uX32]) _ = true
    decide +kernel
  · simp [eAluX, eAlu2, srcCode, rowCarry, shCode, BitVec.extractLsb'_setWidth_of_le, BitVec.extractLsb'_eq_self]
  · simp [eAluX, eAlu2, srcCode, rowCarry, shCode, BitVec.extractLsb'_setWidth_of_le, BitVec.extractLsb'_eq_self, hw]
  · simp [eAluX, eAlu2, srcCode, rowCarry, shCode, BitVec.extractLsb'_setWidth_of_le, BitVec.extractLsb'_eq_self, hw]
  · simp [eAluX, eAlu2, srcCode, rowCarry, shCode, BitVec.extractLsb'_setWidth_of_le, BitVec.extractLsb'_eq_self]

theorem decode_sel_imm (h : Hdr) (t : Ty) (s : Shape) (px : BitVec 3) (d a : Opd) (v : BitVec 32) (hw : WellFormed.aluX isRaw true ⟨t, s, px, d, a, .imm32 v⟩ = true) : decode (eAluX 0x01F h ⟨t, s, px, d, a, .imm32 v⟩) = .ok (.sel h ⟨t, s, px, d, a, .imm32 v⟩) := by
  have ho : (0x01F : BitVec 10) ≠ 0 := by decide
  have hr : rowOf 0x01F = some (rowSel) := rfl
  simp only [WellFormed.aluX, WellFormed.srcOk, Bool.and_eq_true] at hw
  refine (decode_eq (r := rowSel) (f := true) [(17, 2), (33, 7), (40, 7), (58, 3), (61, 2)] (wR_opc ..) ho hr ?_ rfl ?_ ?_ ?_ ?_).trans ?_
  · simp [eAluX, eAlu2, srcCode, rowSel, BitVec.extractLsb'_setWidth_of_le, BitVec.extractLsb'_eq_self]
  · show covers (usedRI [uPX] true) _ = true
    decide +kernel
  · simp [eAluX, eAlu2, srcCode, rowSel, BitVec.extractLsb'_setWidth_of_le, BitVec.extractLsb'_eq_self]
  · simp [eAluX, eAlu2, srcCode, rowSel, BitVec.extractLsb'_setWidth_of_le, BitVec.extractLsb'_eq_self, hw]
  · simp [eAluX, eAlu2, srcCode, rowSel, BitVec.extractLsb'_setWidth_of_le, BitVec.extractLsb'_eq_self, hw]
  · simp [eAluX, eAlu2, srcCode, rowSel, BitVec.extractLsb'_setWidth_of_le, BitVec.extractLsb'_eq_self]

theorem decode_cmp_imm (h : Hdr) (c : Cond) (t : Ty) (s : Shape) (d a : Opd) (v : BitVec 32) (hw : WellFormed.cmp ⟨c, t, s, d, a, .imm32 v⟩ = true) : decode (encode (.cmp h ⟨c, t, s, d, a, .imm32 v⟩)) = .ok (.cmp h ⟨c, t, s, d, a, .imm32 v⟩) := by
  have ho : (0x023 : BitVec 10) ≠ 0 := by decide
  have hr : rowOf 0x023 = some (rowCmp) := rfl
  simp only [WellFormed.cmp, WellFormed.srcOk, Bool.and_eq_true] at hw
  refine (decode_eq (r := rowCmp) (f := true) [(17, 2), (33, 7), (40, 7), (47, 3), (61, 2)] (wR_opc ..) ho hr ?_ rfl ?_ ?_ ?_ ?_).trans ?_
  · simp [encode, eAlu2, srcCode, rowCmp, BitVec.extractLsb'_setWidth_of_le, BitVec.extractLsb'_eq_self]
  · show covers (usedRI [uF3] true) _ = true
    decide +kernel
  · simp [encode, eAlu2, srcCode, rowCmp, BitVec.extractLsb'_setWidth_of_le, BitVec.extractLsb'_eq_self]
  · simp [encode, eAlu2, srcCode, rowCmp, BitVec.extractLsb'_setWidth_of_le, BitVec.extractLsb'_eq_self, hw]
  · simp [encode, eAlu2, srcCode, rowCmp, BitVec.extractLsb'_setWidth_of_le, BitVec.extractLsb'_eq_self, hw]
  · simp [encode, eAlu2, srcCode, rowCmp, BitVec.extractLsb'_setWidth_of_le, BitVec.extractLsb'_eq_self]

theorem decode_mov_opd (h : Hdr) (t : Ty) (s : Shape) (d : Opd) (b : Opd) (hw : WellFormed.mov ⟨t, s, d, .opd b⟩ = true) : decode (encode (.mov h ⟨t, s, d, .opd b⟩)) = .ok (.mov h ⟨t, s, d, .opd b⟩) := by
  have ho : (0x020 : BitVec 10) ≠ 0 := by decide
  have hr : rowOf 0x020 = some (rowMov) := rfl
  simp only [WellFormed.mov, WellFormed.srcOk, Bool.and_eq_true] at hw
  refine (decode_eq (r := rowMov) (f := false) [(17, 2), (33, 7), (40, 7), (47, 3), (58, 3), (61, 2), (64, 32)] (wR_opc ..) ho hr ?_ rfl ?_ ?_ ?_ ?_).trans ?_
  · simp [encode, srcCode, rowMov, BitVec.extractLsb'_setWidth_of_le, BitVec.extractLsb'_eq_self]
  · show covers ([uD, uTY, uSH, uF, uA]) _ = true
    decide +kernel
  · simp [encode, srcCode, rowMov, BitVec.extractLsb'_setWidth_of_le, BitVec.extractLsb'_eq_self]
  · simp [encode, srcCode, rowMov, BitVec.extractLsb'_setWidth_of_le, BitVec.extractLsb'_eq_self, hw]
  · simp [encode, srcCode, rowMov, BitVec.extractLsb'_setWidth_of_le, BitVec.extractLsb'_eq_self, hw]
  · simp [encode, srcCode, rowMov, BitVec.extractLsb'_setWidth_of_le, BitVec.extractLsb'_eq_self]

theorem decode_mov_imm (h : Hdr) (t : Ty) (s : Shape) (d : Opd) (v : BitVec 32) (hw : WellFormed.mov ⟨t, s, d, .imm32 v⟩ = true) : decode (encode (.mov h ⟨t, s, d, .imm32 v⟩)) = .ok (.mov h ⟨t, s, d, .imm32 v⟩) := by
  have ho : (0x020 : BitVec 10) ≠ 0 := by decide
  have hr : rowOf 0x020 = some (rowMov) := rfl
  simp only [WellFormed.mov, WellFormed.srcOk, Bool.and_eq_true] at hw
  refine (decode_eq (r := rowMov) (f := true) [(17, 2), (26, 7), (33, 7), (40, 7), (47, 3), (58, 3), (61, 2)] (wR_opc ..) ho hr ?_ rfl ?_ ?_ ?_ ?_).trans ?_
  · simp [encode, srcCode, rowMov, BitVec.extractLsb'_setWidth_of_le, BitVec.extractLsb'_eq_self]
  · show covers ([uD, uTY, uSH, uF, uX32]) _ = true
    decide +kernel
  · simp [encode, srcCode, rowMov, BitVec.extractLsb'_setWidth_of_le, BitVec.extractLsb'_eq_self]
  · simp [encode, srcCode, rowMov, BitVec.extractLsb'_setWidth_of_le, BitVec.extractLsb'_eq_self, hw]
  · simp [encode, srcCode, rowMov, BitVec.extractLsb'_setWidth_of_le, BitVec.extractLsb'_eq_self, hw]
  · simp [encode, srcCode, rowMov, BitVec.extractLsb'_setWidth_of_le, BitVec.extractLsb'_eq_self]

theorem decode_ext {opc : BitVec 10} (ho : opc ≠ 0) {mk : Hdr → Ext → Instr} (hr : rowOf opc = some (rowExt opc mk)) (h : Hdr) (x : Ext) (hw : WellFormed.ext x = true) : decode (eAlu1 opc h { ty := x.ty, sh := x.sh, d := x.d, a := x.a } (x.nb.setWidth 32)) = .ok (mk h x) := by
  simp only [WellFormed.ext, Bool.and_eq_true] at hw
  refine (decode_eq (r := rowExt opc mk) (f := false) [(17, 2), (33, 7), (40, 7), (47, 3), (58, 3), (61, 2), (63, 1), (71, 25)] (wR_opc ..) ho hr ?_ rfl ?_ ?_ ?_ ?_).trans ?_
  · simp [eAlu1, rowExt, aux7, BitVec.extractLsb'_setWidth_of_le, BitVec.extractLsb'_eq_self]
  · show covers ([uD, uA, uTY, uSH, (64, 7)]) _ = true
    decide +kernel
  · simp [eAlu1, rowExt, aux7, BitVec.extractLsb'_setWidth_of_le, BitVec.extractLsb'_eq_self]
  · simp [eAlu1, rowExt, aux7, BitVec.extractLsb'_setWidth_of_le, BitVec.extractLsb'_eq_self, hw]
  · simp [eAlu1, rowExt, aux7, BitVec.extractLsb'_setWidth_of_le, BitVec.extractLsb'_eq_self, hw]
  · simp [eAlu1, rowExt, aux7, BitVec.extractLsb'_setWidth_of_le, BitVec.extractLsb'_eq_self]

theorem decode_bfx (h : Hdr) (x : Bfx) (hw : WellFormed.bfx x = true) : decode (encode (.bfx h x)) = .ok (.bfx h x) := by
  have ho : (0x01D : BitVec 10) ≠ 0 := by decide
  have hr : rowOf 0x01D = some (rowBfx) := rfl
  simp only [WellFormed.bfx, Bool.and_eq_true] at hw
  refine (decode_eq (r := rowBfx) (f := false) [(17, 2), (33, 7), (40, 7), (47, 3), (58, 3), (61, 2), (63, 1), (71, 1), (79, 17)] (wR_opc ..) ho hr ?_ rfl ?_ ?_ ?_ ?_).trans ?_
  · simp [encode, eAlu1, rowBfx, aux7, aux7', BitVec.extractLsb'_setWidth_of_le, BitVec.extractLsb'_eq_self]
  · show covers ([uD, uA, uTY, uSH, (64, 7), (72, 7)]) _ = true
    decide +kernel
  · simp [encode, eAlu1, rowBfx, aux7, aux7', BitVec.extractLsb'_setWidth_of_le, BitVec.extractLsb'_eq_self]
  · simp [encode, eAlu1, rowBfx, aux7, aux7', BitVec.extractLsb'_setWidth_of_le, BitVec.extractLsb'_eq_self, hw]
  · simp [encode, eAlu1, rowBfx, aux7, aux7', BitVec.extractLsb'_setWidth_of_le, BitVec.extractLsb'_eq_self, hw]
  · simp [encode, eAlu1, rowBfx, aux7, aux7', BitVec.extractLsb'_setWidth_of_le, BitVec.extractLsb'_eq_self]

theorem decode_bfi (h : Hdr) (x : Bfi) (hw : WellFormed.bfi x = true) : decode (encode (.bfi h x)) = .ok (.bfi h x) := by
  have ho : (0x01E : BitVec 10) ≠ 0 := by decide
  have hr : rowOf 0x01E = some (rowBfi) := rfl
  simp only [WellFormed.bfi, Bool.and_eq_true] at hw
  refine (decode_eq (r := rowBfi) (f := false) [(17, 2), (40, 7), (47, 3), (58, 3), (61, 2), (63, 1), (71, 1), (79, 17)] (wR_opc ..) ho hr ?_ rfl ?_ ?_ ?_ ?_).trans ?_
  · simp [encode, rowBfi, aux7, aux7', BitVec.extractLsb'_setWidth_of_le, BitVec.extractLsb'_eq_self]
  · show covers ([uD, uA, uB, uTY, uSH, (64, 7), (72, 7)]) _ = true
    decide +kernel
  · simp [encode, rowBfi, aux7, aux7', BitVec.extractLsb'_setWidth_of_le, BitVec.extractLsb'_eq_self]
  · simp [encode, rowBfi, aux7, aux7', BitVec.extractLsb'_setWidth_of_le, BitVec.extractLsb'_eq_self, hw]
  · simp [encode, rowBfi, aux7, aux7', BitVec.extractLsb'_setWidth_of_le, BitVec.extractLsb'_eq_self, hw]
  · simp [encode, rowBfi, aux7, aux7', BitVec.extractLsb'_setWidth_of_le, BitVec.extractLsb'_eq_self]

theorem decode_plog (h : Hdr) (d a b c : BitVec 3) (tt : BitVec 8) (hw : True) : decode (encode (.plog h d a b c tt)) = .ok (.plog h d a b c tt) := by
  have ho : (0x080 : BitVec 10) ≠ 0 := by decide
  have hr : rowOf 0x080 = some (rowPlog) := rfl
  refine (decode_eq (r := rowPlog) (f := false) [(17, 2), (47, 3), (50, 5), (55, 3), (58, 3), (61, 2), (63, 1), (72, 24)] (wR_opc ..) ho hr ?_ rfl ?_ ?_ ?_ ?_).trans ?_
  · simp [encode, rowPlog, BitVec.extractLsb'_setWidth_of_le, BitVec.extractLsb'_eq_self]
  · show covers ([uD, uA, uB, uC, (64, 8)]) _ = true
    decide +kernel
  · simp [encode, rowPlog, BitVec.extractLsb'_setWidth_of_le, BitVec.extractLsb'_eq_self]
  · simp [encode, rowPlog, BitVec.extractLsb'_setWidth_of_le, BitVec.extractLsb'_eq_self, hw]
  · simp [encode, rowPlog, BitVec.extractLsb'_setWidth_of_le, BitVec.extractLsb'_eq_self, hw]
  · simp [encode, rowPlog, BitVec.extractLsb'_setWidth_of_le, BitVec.extractLsb'_eq_self]

theorem decode_a_only {opc : BitVec 10} (ho : opc ≠ 0) {r : Role} {mk : Hdr → Opd → Instr} (hr : rowOf opc = some (rowA opc r mk)) (h : Hdr) (a : Opd) (hw : accepts r a = true) : decode (eD opc h 0 (opdCode a) 0 0) = .ok (mk h a) := by
  refine (decode_eq (r := rowA opc r mk) (f := false) [(17, 2), (19, 7), (33, 7), (40, 7), (47, 3), (50, 5), (55, 3), (58, 3), (61, 2), (63, 1), (64, 32)] (wR_opc ..) ho hr ?_ rfl ?_ ?_ ?_ ?_).trans ?_
  · simp [eD, rowA, BitVec.extractLsb'_setWidth_of_le, BitVec.extractLsb'_eq_self]
  · show covers ([uA]) _ = true
    decide +kernel
  · simp [eD, rowA, BitVec.extractLsb'_setWidth_of_le, BitVec.extractLsb'_eq_self]
  · simp [eD, rowA, BitVec.extractLsb'_setWidth_of_le, BitVec.extractLsb'_eq_self, hw]
  · simp [eD, rowA, BitVec.extractLsb'_setWidth_of_le, BitVec.extractLsb'_eq_self, hw]
  · simp [eD, rowA, BitVec.extractLsb'_setWidth_of_le, BitVec.extractLsb'_eq_self]

theorem decode_none {opc : BitVec 10} (ho : opc ≠ 0) {mk : Hdr → Instr} (hr : rowOf opc = some (row0 opc mk)) (h : Hdr)  (hw : True) : decode (eD opc h 0 0 0 0) = .ok (mk h) := by
  refine (decode_eq (r := row0 opc mk) (f := false) [(17, 2), (19, 7), (26, 7), (33, 7), (40, 7), (47, 3), (50, 5), (55, 3), (58, 3), (61, 2), (63, 1), (64, 32)] (wR_opc ..) ho hr ?_ rfl ?_ ?_ ?_ ?_).trans ?_
  · simp [eD, row0, BitVec.extractLsb'_setWidth_of_le, BitVec.extractLsb'_eq_self]
  · show covers ([]) _ = true
    decide +kernel
  · simp [eD, row0, BitVec.extractLsb'_setWidth_of_le, BitVec.extractLsb'_eq_self]
  · simp [eD, row0, BitVec.extractLsb'_setWidth_of_le, BitVec.extractLsb'_eq_self, hw]
  · simp [eD, row0, BitVec.extractLsb'_setWidth_of_le, BitVec.extractLsb'_eq_self, hw]
  · simp [eD, row0, BitVec.extractLsb'_setWidth_of_le, BitVec.extractLsb'_eq_self]

theorem decode_d_only {opc : BitVec 10} (ho : opc ≠ 0) {mk : Hdr → Opd → Instr} (hr : rowOf opc = some (rowD opc mk)) (h : Hdr) (d : Opd) (hw : accepts .sDst d = true) : decode (eD opc h (opdCode d) 0 0 0) = .ok (mk h d) := by
  refine (decode_eq (r := rowD opc mk) (f := false) [(17, 2), (26, 7), (33, 7), (40, 7), (47, 3), (50, 5), (55, 3), (58, 3), (61, 2), (63, 1), (64, 32)] (wR_opc ..) ho hr ?_ rfl ?_ ?_ ?_ ?_).trans ?_
  · simp [eD, rowD, BitVec.extractLsb'_setWidth_of_le, BitVec.extractLsb'_eq_self]
  · show covers ([uD]) _ = true
    decide +kernel
  · simp [eD, rowD, BitVec.extractLsb'_setWidth_of_le, BitVec.extractLsb'_eq_self]
  · simp [eD, rowD, BitVec.extractLsb'_setWidth_of_le, BitVec.extractLsb'_eq_self, hw]
  · simp [eD, rowD, BitVec.extractLsb'_setWidth_of_le, BitVec.extractLsb'_eq_self, hw]
  · simp [eD, rowD, BitVec.extractLsb'_setWidth_of_le, BitVec.extractLsb'_eq_self]

theorem decode_flt2 {opc : BitVec 10} (ho : opc ≠ 0) {mk : Hdr → Flt2 → Instr} (hr : rowOf opc = some (rowFlt2 opc mk)) (h : Hdr) (x : Flt2) (hw : WellFormed.flt2 x = true) : decode (eFlt2 opc h x) = .ok (mk h x) := by
  simp only [WellFormed.flt2, Bool.and_eq_true] at hw
  refine (decode_eq (r := rowFlt2 opc mk) (f := false) [(17, 2), (40, 7), (47, 3), (61, 2), (63, 1), (64, 32)] (wR_opc ..) ho hr ?_ rfl ?_ ?_ ?_ ?_).trans ?_
  · simp [eFlt2, rowFlt2, BitVec.extractLsb'_setWidth_of_le, BitVec.extractLsb'_eq_self]
  · show covers ([uD, uA, uB, uTY, uSH, uF3]) _ = true
    decide +kernel
  · simp [eFlt2, rowFlt2, BitVec.extractLsb'_setWidth_of_le, BitVec.extractLsb'_eq_self]
  · simp [eFlt2, rowFlt2, BitVec.extractLsb'_setWidth_of_le, BitVec.extractLsb'_eq_self, hw]
  · simp [eFlt2, rowFlt2, BitVec.extractLsb'_setWidth_of_le, BitVec.extractLsb'_eq_self, hw]
  · simp [eFlt2, rowFlt2, BitVec.extractLsb'_setWidth_of_le, BitVec.extractLsb'_eq_self]

theorem decode_flt3 {opc : BitVec 10} (ho : opc ≠ 0) {mk : Hdr → Flt3 → Instr} (hr : rowOf opc = some (rowFlt3 opc mk)) (h : Hdr) (x : Flt3) (hw : WellFormed.flt3 x = true) : decode (eFlt3 opc h x) = .ok (mk h x) := by
  simp only [WellFormed.flt3, Bool.and_eq_true] at hw
  refine (decode_eq (r := rowFlt3 opc mk) (f := false) [(17, 2), (47, 3), (61, 2), (63, 1), (64, 32)] (wR_opc ..) ho hr ?_ rfl ?_ ?_ ?_ ?_).trans ?_
  · simp [eFlt3, rowFlt3, BitVec.extractLsb'_setWidth_of_le, BitVec.extractLsb'_eq_self]
  · show covers ([uD, uA, uB, uC, uTY, uSH, uF3]) _ = true
    decide +kernel
  · simp [eFlt3, rowFlt3, BitVec.extractLsb'_setWidth_of_le, BitVec.extractLsb'_eq_self]
  · simp [eFlt3, rowFlt3, BitVec.extractLsb'_setWidth_of_le, BitVec.extractLsb'_eq_self, hw]
  · simp [eFlt3, rowFlt3, BitVec.extractLsb'_setWidth_of_le, BitVec.extractLsb'_eq_self, hw]
  · simp [eFlt3, rowFlt3, BitVec.extractLsb'_setWidth_of_le, BitVec.extractLsb'_eq_self]

theorem decode_fsqrt (h : Hdr) (x : Flt1) (hw : WellFormed.flt1 x = true) : decode (encode (.fsqrt h x)) = .ok (.fsqrt h x) := by
  have ho : (0x106 : BitVec 10) ≠ 0 := by decide
  have hr : rowOf 0x106 = some (rowFsqrt) := rfl
  simp only [WellFormed.flt1, Bool.and_eq_true] at hw
  refine (decode_eq (r := rowFsqrt) (f := false) [(17, 2), (33, 7), (40, 7), (47, 3), (61, 2), (63, 1), (64, 32)] (wR_opc ..) ho hr ?_ rfl ?_ ?_ ?_ ?_).trans ?_
  · simp [encode, rowFsqrt, BitVec.extractLsb'_setWidth_of_le, BitVec.extractLsb'_eq_self]
  · show covers ([uD, uA, uTY, uSH, uF3]) _ = true
    decide +kernel
  · simp [encode, rowFsqrt, BitVec.extractLsb'_setWidth_of_le, BitVec.extractLsb'_eq_self]
  · simp [encode, rowFsqrt, BitVec.extractLsb'_setWidth_of_le, BitVec.extractLsb'_eq_self, hw]
  · simp [encode, rowFsqrt, BitVec.extractLsb'_setWidth_of_le, BitVec.extractLsb'_eq_self, hw]
  · simp [encode, rowFsqrt, BitVec.extractLsb'_setWidth_of_le, BitVec.extractLsb'_eq_self]

theorem decode_fmin {opc : BitVec 10} (ho : opc ≠ 0) {mk : Hdr → Vec2 → Instr} (hr : rowOf opc = some (rowFmin opc mk)) (h : Hdr) (x : Vec2) (hw : WellFormed.fmin x = true) : decode (eVec2 opc h x) = .ok (mk h x) := by
  simp only [WellFormed.fmin, Bool.and_eq_true] at hw
  refine (decode_eq (r := rowFmin opc mk) (f := false) [(17, 2), (40, 7), (47, 3), (58, 3), (61, 2), (63, 1), (64, 32)] (wR_opc ..) ho hr ?_ rfl ?_ ?_ ?_ ?_).trans ?_
  · simp [eVec2, rowFmin, BitVec.extractLsb'_setWidth_of_le, BitVec.extractLsb'_eq_self]
  · show covers ([uD, uA, uB, uTY, uSH]) _ = true
    decide +kernel
  · simp [eVec2, rowFmin, BitVec.extractLsb'_setWidth_of_le, BitVec.extractLsb'_eq_self]
  · simp [eVec2, rowFmin, BitVec.extractLsb'_setWidth_of_le, BitVec.extractLsb'_eq_self, hw]
  · simp [eVec2, rowFmin, BitVec.extractLsb'_setWidth_of_le, BitVec.extractLsb'_eq_self, hw]
  · simp [eVec2, rowFmin, BitVec.extractLsb'_setWidth_of_le, BitVec.extractLsb'_eq_self]

theorem decode_fsgn (h : Hdr) (x : Fsgn) (hw : WellFormed.fsgn x = true) : decode (encode (.fsgn h x)) = .ok (.fsgn h x) := by
  have ho : (0x109 : BitVec 10) ≠ 0 := by decide
  have hr : rowOf 0x109 = some (rowFsgn) := rfl
  simp only [WellFormed.fsgn, Bool.and_eq_true] at hw
  refine (decode_eq (r := rowFsgn) (f := false) [(17, 2), (40, 7), (47, 3), (58, 3), (61, 2), (63, 1), (66, 30)] (wR_opc ..) ho hr ?_ rfl ?_ ?_ ?_ ?_).trans ?_
  · simp [encode, rowFsgn, BitVec.extractLsb'_setWidth_of_le, BitVec.extractLsb'_eq_self]
  · show covers ([uD, uA, uB, uTY, uSH, (64, 2)]) _ = true
    decide +kernel
  · simp [encode, rowFsgn, BitVec.extractLsb'_setWidth_of_le, BitVec.extractLsb'_eq_self]
  · simp [encode, rowFsgn, BitVec.extractLsb'_setWidth_of_le, BitVec.extractLsb'_eq_self, hw]
  · simp [encode, rowFsgn, BitVec.extractLsb'_setWidth_of_le, BitVec.extractLsb'_eq_self, hw]
  · simp [encode, rowFsgn, BitVec.extractLsb'_setWidth_of_le, BitVec.extractLsb'_eq_self]

theorem decode_fcmp (h : Hdr) (x : Fcmp) (hw : WellFormed.fcmp x = true) : decode (encode (.fcmp h x)) = .ok (.fcmp h x) := by
  have ho : (0x10A : BitVec 10) ≠ 0 := by decide
  have hr : rowOf 0x10A = some (rowFcmp) := rfl
  simp only [WellFormed.fcmp, Bool.and_eq_true] at hw
  refine (decode_eq (r := rowFcmp) (f := false) [(17, 2), (40, 7), (47, 3), (61, 2), (63, 1), (64, 32)] (wR_opc ..) ho hr ?_ rfl ?_ ?_ ?_ ?_).trans ?_
  · simp [encode, rowFcmp, BitVec.extractLsb'_setWidth_of_le, BitVec.extractLsb'_eq_self]
  · show covers ([uD, uA, uB, uTY, uSH, uF3]) _ = true
    decide +kernel
  · simp [encode, rowFcmp, BitVec.extractLsb'_setWidth_of_le, BitVec.extractLsb'_eq_self]
  · simp [encode, rowFcmp, BitVec.extractLsb'_setWidth_of_le, BitVec.extractLsb'_eq_self, hw]
  · simp [encode, rowFcmp, BitVec.extractLsb'_setWidth_of_le, BitVec.extractLsb'_eq_self, hw]
  · simp [encode, rowFcmp, BitVec.extractLsb'_setWidth_of_le, BitVec.extractLsb'_eq_self]

theorem decode_fclass (h : Hdr) (x : Alu1) (hw : WellFormed.fclass x = true) : decode (encode (.fclass h x)) = .ok (.fclass h x) := by
  have ho : (0x10B : BitVec 10) ≠ 0 := by decide
  have hr : rowOf 0x10B = some (rowFclass) := rfl
  simp only [WellFormed.fclass, Bool.and_eq_true] at hw
  refine (decode_eq (r := rowFclass) (f := false) [(17, 2), (33, 7), (40, 7), (47, 3), (58, 3), (61, 2), (63, 1), (64, 32)] (wR_opc ..) ho hr ?_ rfl ?_ ?_ ?_ ?_).trans ?_
  · simp [encode, eAlu1, rowFclass, BitVec.extractLsb'_setWidth_of_le, BitVec.extractLsb'_eq_self]
  · show covers ([uD, uA, uTY, uSH]) _ = true
    decide +kernel
  · simp [encode, eAlu1, rowFclass, BitVec.extractLsb'_setWidth_of_le, BitVec.extractLsb'_eq_self]
  · simp [encode, eAlu1, rowFclass, BitVec.extractLsb'_setWidth_of_le, BitVec.extractLsb'_eq_self, hw]
  · simp [encode, eAlu1, rowFclass, BitVec.extractLsb'_setWidth_of_le, BitVec.extractLsb'_eq_self, hw]
  · simp [encode, eAlu1, rowFclass, BitVec.extractLsb'_setWidth_of_le, BitVec.extractLsb'_eq_self]

theorem decode_frnd (h : Hdr) (x : Frnd) (hw : WellFormed.frnd x = true) : decode (encode (.frnd h x)) = .ok (.frnd h x) := by
  have ho : (0x10F : BitVec 10) ≠ 0 := by decide
  have hr : rowOf 0x10F = some (rowFrnd) := rfl
  simp only [WellFormed.frnd, Bool.and_eq_true] at hw
  refine (decode_eq (r := rowFrnd) (f := false) [(17, 2), (33, 7), (40, 7), (47, 3), (61, 2), (63, 1), (65, 31)] (wR_opc ..) ho hr ?_ rfl ?_ ?_ ?_ ?_).trans ?_
  · simp [encode, rowFrnd, BitVec.extractLsb'_setWidth_of_le, BitVec.extractLsb'_eq_self]
  · show covers ([uD, uA, uTY, uSH, uF3, (64, 1)]) _ = true
    decide +kernel
  · simp [encode, rowFrnd, BitVec.extractLsb'_setWidth_of_le, BitVec.extractLsb'_eq_self]
  · simp [encode, rowFrnd, BitVec.extractLsb'_setWidth_of_le, BitVec.extractLsb'_eq_self, hw]
  · simp [encode, rowFrnd, BitVec.extractLsb'_setWidth_of_le, BitVec.extractLsb'_eq_self, hw]
  · simp [encode, rowFrnd, BitVec.extractLsb'_setWidth_of_le, BitVec.extractLsb'_eq_self]

theorem decode_shuf (h : Hdr) (x : Vec3) (hw : WellFormed.shuf x = true) : decode (encode (.shuf h x)) = .ok (.shuf h x) := by
  have ho : (0x110 : BitVec 10) ≠ 0 := by decide
  have hr : rowOf 0x110 = some (rowShuf) := rfl
  simp only [WellFormed.shuf, Bool.and_eq_true] at hw
  refine (decode_eq (r := rowShuf) (f := false) [(17, 2), (47, 3), (58, 3), (61, 2), (63, 1), (64, 32)] (wR_opc ..) ho hr ?_ rfl ?_ ?_ ?_ ?_).trans ?_
  · simp [encode, rowShuf, BitVec.extractLsb'_setWidth_of_le, BitVec.extractLsb'_eq_self]
  · show covers ([uD, uA, uB, uC, uTY, uSH]) _ = true
    decide +kernel
  · simp [encode, rowShuf, BitVec.extractLsb'_setWidth_of_le, BitVec.extractLsb'_eq_self]
  · simp [encode, rowShuf, BitVec.extractLsb'_setWidth_of_le, BitVec.extractLsb'_eq_self, hw]
  · simp [encode, rowShuf, BitVec.extractLsb'_setWidth_of_le, BitVec.extractLsb'_eq_self, hw]
  · simp [encode, rowShuf, BitVec.extractLsb'_setWidth_of_le, BitVec.extractLsb'_eq_self]

theorem decode_vext (h : Hdr) (x : Vec2) (hw : WellFormed.vext x = true) : decode (encode (.vext h x)) = .ok (.vext h x) := by
  have ho : (0x111 : BitVec 10) ≠ 0 := by decide
  have hr : rowOf 0x111 = some (rowLane2 0x111 vextTy .sDst .vSrc .vext) := rfl
  simp only [WellFormed.vext, Bool.and_eq_true] at hw
  refine (decode_eq (r := rowLane2 0x111 vextTy .sDst .vSrc .vext) (f := false) [(17, 2), (40, 7), (47, 3), (58, 3), (61, 2), (63, 1), (64, 32)] (wR_opc ..) ho hr ?_ rfl ?_ ?_ ?_ ?_).trans ?_
  · simp [encode, eVec2, rowLane2, BitVec.extractLsb'_setWidth_of_le, BitVec.extractLsb'_eq_self]
  · show covers ([uD, uA, uB, uTY, uSH]) _ = true
    decide +kernel
  · simp [encode, eVec2, rowLane2, BitVec.extractLsb'_setWidth_of_le, BitVec.extractLsb'_eq_self]
  · simp [encode, eVec2, rowLane2, BitVec.extractLsb'_setWidth_of_le, BitVec.extractLsb'_eq_self, hw]
  · simp [encode, eVec2, rowLane2, BitVec.extractLsb'_setWidth_of_le, BitVec.extractLsb'_eq_self, hw]
  · simp [encode, eVec2, rowLane2, BitVec.extractLsb'_setWidth_of_le, BitVec.extractLsb'_eq_self]

theorem decode_vins (h : Hdr) (x : Vec2) (hw : WellFormed.vins x = true) : decode (encode (.vins h x)) = .ok (.vins h x) := by
  have ho : (0x112 : BitVec 10) ≠ 0 := by decide
  have hr : rowOf 0x112 = some (rowLane2 0x112 isRaw64 .vDst .sSrc .vins) := rfl
  simp only [WellFormed.vins, Bool.and_eq_true] at hw
  refine (decode_eq (r := rowLane2 0x112 isRaw64 .vDst .sSrc .vins) (f := false) [(17, 2), (40, 7), (47, 3), (58, 3), (61, 2), (63, 1), (64, 32)] (wR_opc ..) ho hr ?_ rfl ?_ ?_ ?_ ?_).trans ?_
  · simp [encode, eVec2, rowLane2, BitVec.extractLsb'_setWidth_of_le, BitVec.extractLsb'_eq_self]
  · show covers ([uD, uA, uB, uTY, uSH]) _ = true
    decide +kernel
  · simp [encode, eVec2, rowLane2, BitVec.extractLsb'_setWidth_of_le, BitVec.extractLsb'_eq_self]
  · simp [encode, eVec2, rowLane2, BitVec.extractLsb'_setWidth_of_le, BitVec.extractLsb'_eq_self, hw]
  · simp [encode, eVec2, rowLane2, BitVec.extractLsb'_setWidth_of_le, BitVec.extractLsb'_eq_self, hw]
  · simp [encode, eVec2, rowLane2, BitVec.extractLsb'_setWidth_of_le, BitVec.extractLsb'_eq_self]

theorem decode_vbc (h : Hdr) (x : Alu1) (hw : WellFormed.lane1 .vDst .sSrc x = true) : decode (encode (.vbc h x)) = .ok (.vbc h x) := by
  have ho : (0x113 : BitVec 10) ≠ 0 := by decide
  have hr : rowOf 0x113 = some (rowVbc) := rfl
  simp only [WellFormed.lane1, Bool.and_eq_true] at hw
  refine (decode_eq (r := rowVbc) (f := false) [(17, 2), (33, 7), (40, 7), (47, 3), (58, 3), (61, 2), (63, 1), (64, 32)] (wR_opc ..) ho hr ?_ rfl ?_ ?_ ?_ ?_).trans ?_
  · simp [encode, eAlu1, rowVbc, BitVec.extractLsb'_setWidth_of_le, BitVec.extractLsb'_eq_self]
  · show covers ([uD, uA, uTY, uSH]) _ = true
    decide +kernel
  · simp [encode, eAlu1, rowVbc, BitVec.extractLsb'_setWidth_of_le, BitVec.extractLsb'_eq_self]
  · simp [encode, eAlu1, rowVbc, BitVec.extractLsb'_setWidth_of_le, BitVec.extractLsb'_eq_self, hw]
  · simp [encode, eAlu1, rowVbc, BitVec.extractLsb'_setWidth_of_le, BitVec.extractLsb'_eq_self, hw]
  · simp [encode, eAlu1, rowVbc, BitVec.extractLsb'_setWidth_of_le, BitVec.extractLsb'_eq_self]

theorem decode_vmskGet (h : Hdr) (x : Alu1) (hw : WellFormed.lane1 .sDst .vSrc x = true) : decode (encode (.vmskGet h x)) = .ok (.vmskGet h x) := by
  have ho : (0x116 : BitVec 10) ≠ 0 := by decide
  have hr : rowOf 0x116 = some (rowVmsk) := rfl
  simp only [WellFormed.lane1, Bool.and_eq_true] at hw
  refine (decode_eq (r := rowVmsk) (f := false) [(17, 2), (33, 7), (40, 7), (47, 3), (58, 3), (61, 2), (63, 1), (66, 30)] (wR_opc ..) ho hr ?_ rfl ?_ ?_ ?_ ?_).trans ?_
  · simp [encode, eAlu1, rowVmsk, vmskMode, vmskRoles, BitVec.extractLsb'_setWidth_of_le, BitVec.extractLsb'_eq_self]
  · show covers ([uD, uA, uTY, uSH, (64, 2)]) _ = true
    decide +kernel
  · simp [encode, eAlu1, rowVmsk, vmskMode, vmskRoles, BitVec.extractLsb'_setWidth_of_le, BitVec.extractLsb'_eq_self]
  · simp [encode, eAlu1, rowVmsk, vmskMode, vmskRoles, BitVec.extractLsb'_setWidth_of_le, BitVec.extractLsb'_eq_self, hw]
  · simp [encode, eAlu1, rowVmsk, vmskMode, vmskRoles, BitVec.extractLsb'_setWidth_of_le, BitVec.extractLsb'_eq_self, hw]
  · simp [encode, eAlu1, rowVmsk, vmskMode, vmskRoles, BitVec.extractLsb'_setWidth_of_le, BitVec.extractLsb'_eq_self]

theorem decode_vmskSet (h : Hdr) (x : Alu1) (hw : WellFormed.lane1 .vDst .sSrc x = true) : decode (encode (.vmskSet h x)) = .ok (.vmskSet h x) := by
  have ho : (0x116 : BitVec 10) ≠ 0 := by decide
  have hr : rowOf 0x116 = some (rowVmsk) := rfl
  simp only [WellFormed.lane1, Bool.and_eq_true] at hw
  refine (decode_eq (r := rowVmsk) (f := false) [(17, 2), (33, 7), (40, 7), (47, 3), (58, 3), (61, 2), (63, 1), (66, 30)] (wR_opc ..) ho hr ?_ rfl ?_ ?_ ?_ ?_).trans ?_
  · simp [encode, eAlu1, rowVmsk, vmskMode, vmskRoles, BitVec.extractLsb'_setWidth_of_le, BitVec.extractLsb'_eq_self]
  · show covers ([uD, uA, uTY, uSH, (64, 2)]) _ = true
    decide +kernel
  · simp [encode, eAlu1, rowVmsk, vmskMode, vmskRoles, BitVec.extractLsb'_setWidth_of_le, BitVec.extractLsb'_eq_self]
  · simp [encode, eAlu1, rowVmsk, vmskMode, vmskRoles, BitVec.extractLsb'_setWidth_of_le, BitVec.extractLsb'_eq_self, hw]
  · simp [encode, eAlu1, rowVmsk, vmskMode, vmskRoles, BitVec.extractLsb'_setWidth_of_le, BitVec.extractLsb'_eq_self, hw]
  · simp [encode, eAlu1, rowVmsk, vmskMode, vmskRoles, BitVec.extractLsb'_setWidth_of_le, BitVec.extractLsb'_eq_self]

theorem decode_vmskAny (h : Hdr) (x : Alu1) (hw : WellFormed.lane1 .pDst .vSrc x = true) : decode (encode (.vmskAny h x)) = .ok (.vmskAny h x) := by
  have ho : (0x116 : BitVec 10) ≠ 0 := by decide
  have hr : rowOf 0x116 = some (rowVmsk) := rfl
  simp only [WellFormed.lane1, Bool.and_eq_true] at hw
  refine (decode_eq (r := rowVmsk) (f := false) [(17, 2), (33, 7), (40, 7), (47, 3), (58, 3), (61, 2), (63, 1), (66, 30)] (wR_opc ..) ho hr ?_ rfl ?_ ?_ ?_ ?_).trans ?_
  · simp [encode, eAlu1, rowVmsk, vmskMode, vmskRoles, BitVec.extractLsb'_setWidth_of_le, BitVec.extractLsb'_eq_self]
  · show covers ([uD, uA, uTY, uSH, (64, 2)]) _ = true
    decide +kernel
  · simp [encode, eAlu1, rowVmsk, vmskMode, vmskRoles, BitVec.extractLsb'_setWidth_of_le, BitVec.extractLsb'_eq_self]
  · simp [encode, eAlu1, rowVmsk, vmskMode, vmskRoles, BitVec.extractLsb'_setWidth_of_le, BitVec.extractLsb'_eq_self, hw]
  · simp [encode, eAlu1, rowVmsk, vmskMode, vmskRoles, BitVec.extractLsb'_setWidth_of_le, BitVec.extractLsb'_eq_self, hw]
  · simp [encode, eAlu1, rowVmsk, vmskMode, vmskRoles, BitVec.extractLsb'_setWidth_of_le, BitVec.extractLsb'_eq_self]

theorem decode_vmskAll (h : Hdr) (x : Alu1) (hw : WellFormed.lane1 .pDst .vSrc x = true) : decode (encode (.vmskAll h x)) = .ok (.vmskAll h x) := by
  have ho : (0x116 : BitVec 10) ≠ 0 := by decide
  have hr : rowOf 0x116 = some (rowVmsk) := rfl
  simp only [WellFormed.lane1, Bool.and_eq_true] at hw
  refine (decode_eq (r := rowVmsk) (f := false) [(17, 2), (33, 7), (40, 7), (47, 3), (58, 3), (61, 2), (63, 1), (66, 30)] (wR_opc ..) ho hr ?_ rfl ?_ ?_ ?_ ?_).trans ?_
  · simp [encode, eAlu1, rowVmsk, vmskMode, vmskRoles, BitVec.extractLsb'_setWidth_of_le, BitVec.extractLsb'_eq_self]
  · show covers ([uD, uA, uTY, uSH, (64, 2)]) _ = true
    decide +kernel
  · simp [encode, eAlu1, rowVmsk, vmskMode, vmskRoles, BitVec.extractLsb'_setWidth_of_le, BitVec.extractLsb'_eq_self]
  · simp [encode, eAlu1, rowVmsk, vmskMode, vmskRoles, BitVec.extractLsb'_setWidth_of_le, BitVec.extractLsb'_eq_self, hw]
  · simp [encode, eAlu1, rowVmsk, vmskMode, vmskRoles, BitVec.extractLsb'_setWidth_of_le, BitVec.extractLsb'_eq_self, hw]
  · simp [encode, eAlu1, rowVmsk, vmskMode, vmskRoles, BitVec.extractLsb'_setWidth_of_le, BitVec.extractLsb'_eq_self]

theorem decode_talloc (h : Hdr) (f : BitVec 6) (d a : Opd) (hw : (fmtOk f && accepts .sDst d && accepts .sSrc a) = true) : decode (encode (.talloc h f d a)) = .ok (.talloc h f d a) := by
  have ho : (0x200 : BitVec 10) ≠ 0 := by decide
  have hr : rowOf 0x200 = some (rowTalloc) := rfl
  simp only [Bool.and_eq_true] at hw
  refine (decode_eq (r := rowTalloc) (f := false) [(17, 2), (33, 7), (40, 7), (47, 3), (50, 5), (55, 3), (58, 3), (61, 2), (63, 1), (70, 26)] (wR_opc ..) ho hr ?_ rfl ?_ ?_ ?_ ?_).trans ?_
  · simp [encode, eD, rowTalloc, BitVec.extractLsb'_setWidth_of_le, BitVec.extractLsb'_eq_self]
  · show covers ([uD, uA, (64, 6)]) _ = true
    decide +kernel
  · simp [encode, eD, rowTalloc, BitVec.extractLsb'_setWidth_of_le, BitVec.extractLsb'_eq_self]
  · simp [encode, eD, rowTalloc, BitVec.extractLsb'_setWidth_of_le, BitVec.extractLsb'_eq_self, hw]
  · simp [encode, eD, rowTalloc, BitVec.extractLsb'_setWidth_of_le, BitVec.extractLsb'_eq_self, hw]
  · simp [encode, eD, rowTalloc, BitVec.extractLsb'_setWidth_of_le, BitVec.extractLsb'_eq_self]

theorem decode_tpin (h : Hdr) (px : BitVec 3) (a : Opd) (m : BitVec 8) (hw : accepts .sReg a = true) : decode (encode (.tpin h px a m)) = .ok (.tpin h px a m) := by
  have ho : (0x202 : BitVec 10) ≠ 0 := by decide
  have hr : rowOf 0x202 = some (rowTpin) := rfl
  refine (decode_eq (r := rowTpin) (f := false) [(17, 2), (19, 7), (33, 7), (40, 7), (50, 5), (55, 3), (58, 3), (61, 2), (63, 1), (72, 24)] (wR_opc ..) ho hr ?_ rfl ?_ ?_ ?_ ?_).trans ?_
  · simp [encode, rowTpin, BitVec.extractLsb'_setWidth_of_le, BitVec.extractLsb'_eq_self]
  · show covers ([uA, uPX, (64, 8)]) _ = true
    decide +kernel
  · simp [encode, rowTpin, BitVec.extractLsb'_setWidth_of_le, BitVec.extractLsb'_eq_self]
  · simp [encode, rowTpin, BitVec.extractLsb'_setWidth_of_le, BitVec.extractLsb'_eq_self, hw]
  · simp [encode, rowTpin, BitVec.extractLsb'_setWidth_of_le, BitVec.extractLsb'_eq_self, hw]
  · simp [encode, rowTpin, BitVec.extractLsb'_setWidth_of_le, BitVec.extractLsb'_eq_self]

theorem decode_tunpin (h : Hdr) (a : Opd) (m : BitVec 8) (hw : accepts .sReg a = true) : decode (encode (.tunpin h a m)) = .ok (.tunpin h a m) := by
  have ho : (0x203 : BitVec 10) ≠ 0 := by decide
  have hr : rowOf 0x203 = some (rowTunpin) := rfl
  refine (decode_eq (r := rowTunpin) (f := false) [(17, 2), (19, 7), (33, 7), (40, 7), (47, 3), (50, 5), (55, 3), (58, 3), (61, 2), (63, 1), (72, 24)] (wR_opc ..) ho hr ?_ rfl ?_ ?_ ?_ ?_).trans ?_
  · simp [encode, eD, rowTunpin, BitVec.extractLsb'_setWidth_of_le, BitVec.extractLsb'_eq_self]
  · show covers ([uA, (64, 8)]) _ = true
    decide +kernel
  · simp [encode, eD, rowTunpin, BitVec.extractLsb'_setWidth_of_le, BitVec.extractLsb'_eq_self]
  · simp [encode, eD, rowTunpin, BitVec.extractLsb'_setWidth_of_le, BitVec.extractLsb'_eq_self, hw]
  · simp [encode, eD, rowTunpin, BitVec.extractLsb'_setWidth_of_le, BitVec.extractLsb'_eq_self, hw]
  · simp [encode, eD, rowTunpin, BitVec.extractLsb'_setWidth_of_le, BitVec.extractLsb'_eq_self]

theorem decode_tinfo (h : Hdr) (n : BitVec 2) (d a : Opd) (hw : (accepts .sDst d && accepts .sSrc a) = true) : decode (encode (.tinfo h n d a)) = .ok (.tinfo h n d a) := by
  have ho : (0x206 : BitVec 10) ≠ 0 := by decide
  have hr : rowOf 0x206 = some (rowTinfo) := rfl
  simp only [Bool.and_eq_true] at hw
  refine (decode_eq (r := rowTinfo) (f := false) [(17, 2), (33, 7), (40, 7), (47, 3), (50, 5), (55, 3), (58, 3), (61, 2), (63, 1), (66, 30)] (wR_opc ..) ho hr ?_ rfl ?_ ?_ ?_ ?_).trans ?_
  · simp [encode, eD, rowTinfo, BitVec.extractLsb'_setWidth_of_le, BitVec.extractLsb'_eq_self]
  · show covers ([uD, uA, (64, 2)]) _ = true
    decide +kernel
  · simp [encode, eD, rowTinfo, BitVec.extractLsb'_setWidth_of_le, BitVec.extractLsb'_eq_self]
  · simp [encode, eD, rowTinfo, BitVec.extractLsb'_setWidth_of_le, BitVec.extractLsb'_eq_self, hw]
  · simp [encode, eD, rowTinfo, BitVec.extractLsb'_setWidth_of_le, BitVec.extractLsb'_eq_self, hw]
  · simp [encode, eD, rowTinfo, BitVec.extractLsb'_setWidth_of_le, BitVec.extractLsb'_eq_self]

theorem decode_strm {opc : BitVec 10} (ho : opc ≠ 0) {p : Ty → Bool} {mk : Hdr → Strm → Instr} (hr : rowOf opc = some (rowStrm opc p mk)) (h : Hdr) (x : Strm) (hw : WellFormed.strm p x .list .list = true) : decode (eStrm opc h x 0) = .ok (mk h x) := by
  simp only [WellFormed.strm, Bool.and_eq_true] at hw
  refine (decode_eq (r := rowStrm opc p mk) (f := false) [(17, 2), (47, 3), (55, 3), (58, 3), (61, 2), (63, 1), (64, 32)] (wR_opc ..) ho hr ?_ rfl ?_ ?_ ?_ ?_).trans ?_
  · simp [eStrm, rowStrm, BitVec.extractLsb'_setWidth_of_le, BitVec.extractLsb'_eq_self]
  · show covers ([uD, uA, uB, uC, uTY]) _ = true
    decide +kernel
  · simp [eStrm, rowStrm, BitVec.extractLsb'_setWidth_of_le, BitVec.extractLsb'_eq_self]
  · simp [eStrm, rowStrm, BitVec.extractLsb'_setWidth_of_le, BitVec.extractLsb'_eq_self, hw]
  · simp [eStrm, rowStrm, BitVec.extractLsb'_setWidth_of_le, BitVec.extractLsb'_eq_self, hw]
  · simp [eStrm, rowStrm, BitVec.extractLsb'_setWidth_of_le, BitVec.extractLsb'_eq_self]

theorem decode_bar (h : Hdr) (d a : Opd) (n : BitVec 32) (hw : (accepts .sDst d && accepts .sReg a) = true) : decode (encode (.bar h d a n)) = .ok (.bar h d a n) := by
  have ho : (0x303 : BitVec 10) ≠ 0 := by decide
  have hr : rowOf 0x303 = some (rowBar) := rfl
  simp only [Bool.and_eq_true] at hw
  refine (decode_eq (r := rowBar) (f := false) [(17, 2), (33, 7), (40, 7), (47, 3), (50, 5), (55, 3), (58, 3), (61, 2), (63, 1)] (wR_opc ..) ho hr ?_ rfl ?_ ?_ ?_ ?_).trans ?_
  · simp [encode, eD, rowBar, BitVec.extractLsb'_setWidth_of_le, BitVec.extractLsb'_eq_self]
  · show covers ([uD, uA, uX32]) _ = true
    decide +kernel
  · simp [encode, eD, rowBar, BitVec.extractLsb'_setWidth_of_le, BitVec.extractLsb'_eq_self]
  · simp [encode, eD, rowBar, BitVec.extractLsb'_setWidth_of_le, BitVec.extractLsb'_eq_self, hw]
  · simp [encode, eD, rowBar, BitVec.extractLsb'_setWidth_of_le, BitVec.extractLsb'_eq_self, hw]
  · simp [encode, eD, rowBar, BitVec.extractLsb'_setWidth_of_le, BitVec.extractLsb'_eq_self]

theorem decode_sys {opc : BitVec 10} (ho : opc ≠ 0) {mk : Hdr → Opd → BitVec 24 → Instr} (hr : rowOf opc = some (rowSys opc mk)) (h : Hdr) (a : Opd) (c : BitVec 24) (hw : accepts .sSrc a = true) : decode (eD opc h 0 (opdCode a) 0 (c.setWidth 32)) = .ok (mk h a c) := by
  refine (decode_eq (r := rowSys opc mk) (f := false) [(17, 2), (19, 7), (33, 7), (40, 7), (47, 3), (50, 5), (55, 3), (58, 3), (61, 2), (63, 1)] (wR_opc ..) ho hr ?_ rfl ?_ ?_ ?_ ?_).trans ?_
  · simp [eD, rowSys, BitVec.extractLsb'_setWidth_of_le, BitVec.extractLsb'_eq_self]
  · show covers ([uA, uX32]) _ = true
    decide +kernel
  · simp [eD, rowSys, BitVec.extractLsb'_setWidth_of_le, BitVec.extractLsb'_eq_self]
  · simp [eD, rowSys, BitVec.extractLsb'_setWidth_of_le, BitVec.extractLsb'_eq_self, hw]
  · simp [eD, rowSys, BitVec.extractLsb'_setWidth_of_le, BitVec.extractLsb'_eq_self, hw]
  · simp [eD, rowSys, BitVec.extractLsb'_setWidth_of_le, BitVec.extractLsb'_eq_self]

theorem decode_brk (h : Hdr) (c : BitVec 24) (hw : True) : decode (encode (.brk h c)) = .ok (.brk h c) := by
  have ho : (0x308 : BitVec 10) ≠ 0 := by decide
  have hr : rowOf 0x308 = some (rowBrk) := rfl
  refine (decode_eq (r := rowBrk) (f := false) [(17, 2), (19, 7), (26, 7), (33, 7), (40, 7), (47, 3), (50, 5), (55, 3), (58, 3), (61, 2), (63, 1)] (wR_opc ..) ho hr ?_ rfl ?_ ?_ ?_ ?_).trans ?_
  · simp [encode, eD, rowBrk, BitVec.extractLsb'_setWidth_of_le, BitVec.extractLsb'_eq_self]
  · show covers ([uX32]) _ = true
    decide +kernel
  · simp [encode, eD, rowBrk, BitVec.extractLsb'_setWidth_of_le, BitVec.extractLsb'_eq_self]
  · simp [encode, eD, rowBrk, BitVec.extractLsb'_setWidth_of_le, BitVec.extractLsb'_eq_self, hw]
  · simp [encode, eD, rowBrk, BitVec.extractLsb'_setWidth_of_le, BitVec.extractLsb'_eq_self, hw]
  · simp [encode, eD, rowBrk, BitVec.extractLsb'_setWidth_of_le, BitVec.extractLsb'_eq_self]

theorem decode_csrr (h : Hdr) (d : Opd) (c : BitVec 12) (hw : (accepts .sDst d && csrNums.contains c.toNat) = true) : decode (encode (.csrr h d c)) = .ok (.csrr h d c) := by
  have ho : (0x30A : BitVec 10) ≠ 0 := by decide
  have hr : rowOf 0x30A = some (rowCsrr) := rfl
  simp only [List.contains_eq_mem, decide_eq_true_eq, Bool.and_eq_true] at hw
  refine (decode_eq (r := rowCsrr) (f := false) [(17, 2), (26, 7), (33, 7), (40, 7), (47, 3), (50, 5), (55, 3), (58, 3), (61, 2), (63, 1)] (wR_opc ..) ho hr ?_ rfl ?_ ?_ ?_ ?_).trans ?_
  · simp [encode, eD, rowCsrr, csrRange, BitVec.extractLsb'_setWidth_of_le, BitVec.extractLsb'_eq_self]
  · show covers ([uD, uX32]) _ = true
    decide +kernel
  · simp [encode, eD, rowCsrr, csrRange, BitVec.extractLsb'_setWidth_of_le, BitVec.extractLsb'_eq_self]
  · simp [encode, eD, rowCsrr, csrRange, BitVec.extractLsb'_setWidth_of_le, BitVec.extractLsb'_eq_self, hw]
  · simp [encode, eD, rowCsrr, csrRange, BitVec.extractLsb'_setWidth_of_le, BitVec.extractLsb'_eq_self, hw]
  · simp [encode, eD, rowCsrr, csrRange, BitVec.extractLsb'_setWidth_of_le, BitVec.extractLsb'_eq_self]

theorem decode_csrw (h : Hdr) (a : Opd) (c : BitVec 12) (hw : (accepts .sSrc a && csrNums.contains c.toNat) = true) : decode (encode (.csrw h a c)) = .ok (.csrw h a c) := by
  have ho : (0x30B : BitVec 10) ≠ 0 := by decide
  have hr : rowOf 0x30B = some (rowCsrw) := rfl
  simp only [List.contains_eq_mem, decide_eq_true_eq, Bool.and_eq_true] at hw
  refine (decode_eq (r := rowCsrw) (f := false) [(17, 2), (19, 7), (33, 7), (40, 7), (47, 3), (50, 5), (55, 3), (58, 3), (61, 2), (63, 1)] (wR_opc ..) ho hr ?_ rfl ?_ ?_ ?_ ?_).trans ?_
  · simp [encode, eD, rowCsrw, csrRange, BitVec.extractLsb'_setWidth_of_le, BitVec.extractLsb'_eq_self]
  · show covers ([uA, uX32]) _ = true
    decide +kernel
  · simp [encode, eD, rowCsrw, csrRange, BitVec.extractLsb'_setWidth_of_le, BitVec.extractLsb'_eq_self]
  · simp [encode, eD, rowCsrw, csrRange, BitVec.extractLsb'_setWidth_of_le, BitVec.extractLsb'_eq_self, hw]
  · simp [encode, eD, rowCsrw, csrRange, BitVec.extractLsb'_setWidth_of_le, BitVec.extractLsb'_eq_self, hw]
  · simp [encode, eD, rowCsrw, csrRange, BitVec.extractLsb'_setWidth_of_le, BitVec.extractLsb'_eq_self]

theorem decode_ctxr (h : Hdr) (d a : Opd) (n : BitVec 5) (hw : (accepts .sDst d && accepts .sSrc a) = true) : decode (encode (.ctxr h d a n)) = .ok (.ctxr h d a n) := by
  have ho : (0x30C : BitVec 10) ≠ 0 := by decide
  have hr : rowOf 0x30C = some (rowCtxr) := rfl
  simp only [Bool.and_eq_true] at hw
  refine (decode_eq (r := rowCtxr) (f := false) [(17, 2), (33, 7), (40, 7), (47, 3), (50, 5), (55, 3), (58, 3), (61, 2), (63, 1), (69, 27)] (wR_opc ..) ho hr ?_ rfl ?_ ?_ ?_ ?_).trans ?_
  · simp [encode, eD, rowCtxr, BitVec.extractLsb'_setWidth_of_le, BitVec.extractLsb'_eq_self]
  · show covers ([uD, uA, (64, 5)]) _ = true
    decide +kernel
  · simp [encode, eD, rowCtxr, BitVec.extractLsb'_setWidth_of_le, BitVec.extractLsb'_eq_self]
  · simp [encode, eD, rowCtxr, BitVec.extractLsb'_setWidth_of_le, BitVec.extractLsb'_eq_self, hw]
  · simp [encode, eD, rowCtxr, BitVec.extractLsb'_setWidth_of_le, BitVec.extractLsb'_eq_self, hw]
  · simp [encode, eD, rowCtxr, BitVec.extractLsb'_setWidth_of_le, BitVec.extractLsb'_eq_self]

theorem decode_ctxw (h : Hdr) (a b : Opd) (n : BitVec 5) (hw : (accepts .sSrc a && accepts .sSrc b) = true) : decode (encode (.ctxw h a b n)) = .ok (.ctxw h a b n) := by
  have ho : (0x30D : BitVec 10) ≠ 0 := by decide
  have hr : rowOf 0x30D = some (rowCtxw) := rfl
  simp only [Bool.and_eq_true] at hw
  refine (decode_eq (r := rowCtxw) (f := false) [(17, 2), (19, 7), (40, 7), (47, 3), (50, 5), (55, 3), (58, 3), (61, 2), (63, 1), (69, 27)] (wR_opc ..) ho hr ?_ rfl ?_ ?_ ?_ ?_).trans ?_
  · simp [encode, eD, rowCtxw, BitVec.extractLsb'_setWidth_of_le, BitVec.extractLsb'_eq_self]
  · show covers ([uA, uB, (64, 5)]) _ = true
    decide +kernel
  · simp [encode, eD, rowCtxw, BitVec.extractLsb'_setWidth_of_le, BitVec.extractLsb'_eq_self]
  · simp [encode, eD, rowCtxw, BitVec.extractLsb'_setWidth_of_le, BitVec.extractLsb'_eq_self, hw]
  · simp [encode, eD, rowCtxw, BitVec.extractLsb'_setWidth_of_le, BitVec.extractLsb'_eq_self, hw]
  · simp [encode, eD, rowCtxw, BitVec.extractLsb'_setWidth_of_le, BitVec.extractLsb'_eq_self]

theorem decode_ldst {opc : BitVec 10} (ho : opc ≠ 0) {o : Ord → Bool} {r : Ty → Role} {mk : Hdr → MemAcc → Instr} (hr : rowOf opc = some (rowLdSt opc o r mk)) (h : Hdr) (x : MemAcc) (hc : ∀ t, canImm (r t) = false) (hw : (o x.ord && scpOk x.ord x.scp && accepts (r x.ty) x.d && WellFormed.memOp x.mem) = true) : decode (eMem opc h (opdCode x.d) x.mem x.ord x.scp false x.nt (tyCode x.ty) 0 0) = .ok (mk h x) := by
  simp only [WellFormed.memOp, decide_eq_true_eq, Bool.and_eq_true] at hw
  refine (decode_eq (r := rowLdSt opc o r mk) (f := fF (eMem opc h (opdCode x.d) x.mem x.ord x.scp false x.nt (tyCode x.ty) 0 0)) [(17, 2), (40, 3), (43, 4), (47, 3), (59, 1)] (wM_opc ..) ho hr ?_ rfl ?_ ?_ ?_ ?_).trans ?_
  · rfl
  · show covers ([uD, uA, uB, uORD, uSCP, uNT, uSH, uTY, uX32]) _ = true
    decide +kernel
  · simp [eMem, rowLdSt, ldTy, BitVec.extractLsb'_setWidth_of_le, BitVec.extractLsb'_eq_self, hc]
  · simp [eMem, rowLdSt, ldTy, BitVec.extractLsb'_setWidth_of_le, BitVec.extractLsb'_eq_self, hw, hc]
  · simp [eMem, rowLdSt, ldTy, BitVec.extractLsb'_setWidth_of_le, BitVec.extractLsb'_eq_self, hw, hc]
  · simp [eMem, rowLdSt, ldTy, BitVec.extractLsb'_setWidth_of_le, BitVec.extractLsb'_eq_self, hc]

theorem decode_amo (h : Hdr) (x : Amo) (hw : WellFormed.amo x = true) : decode (encode (.amo h x)) = .ok (.amo h x) := by
  have ho : (0x182 : BitVec 10) ≠ 0 := by decide
  have hr : rowOf 0x182 = some (rowAmo) := rfl
  have hs : someOp amoOk x.ty = true := someOp_of (o := x.op) (by simp only [WellFormed.amo, Bool.and_eq_true] at hw; simp_all)
  simp only [WellFormed.amo, WellFormed.memOp, decide_eq_true_eq, Bool.and_eq_true] at hw
  refine (decode_eq (r := rowAmo) (f := fF (encode (.amo h x))) [(17, 2), (40, 3), (47, 3), (58, 1)] (wM_opc ..) ho hr ?_ rfl ?_ ?_ ?_ ?_).trans ?_
  · rfl
  · show covers ([uD, uA, uB, uORD, uSCP, uFAR, uSH, uTY, uAOP, uX32]) _ = true
    decide +kernel
  · simp [encode, eMem, rowAmo, BitVec.extractLsb'_setWidth_of_le, BitVec.extractLsb'_eq_self, hs]
  · simp [encode, eMem, rowAmo, BitVec.extractLsb'_setWidth_of_le, BitVec.extractLsb'_eq_self, hw, hs]
  · simp [encode, eMem, rowAmo, BitVec.extractLsb'_setWidth_of_le, BitVec.extractLsb'_eq_self, hw, hs]
  · simp [encode, eMem, rowAmo, BitVec.extractLsb'_setWidth_of_le, BitVec.extractLsb'_eq_self, hs]

theorem decode_cas {opc : BitVec 10} (ho : opc ≠ 0) {p : Ty → Bool} {mk : Hdr → Cas → Instr} (hr : rowOf opc = some (rowCas opc p mk)) (h : Hdr) (x : Cas) (hw : WellFormed.cas p x = true) : decode (eBase opc h (opdCode x.d) (opdCode x.base) (opdCode x.b) x.ord x.scp x.far (tyCode x.ty) 0 x.disp) = .ok (mk h x) := by
  simp only [WellFormed.cas, Bool.and_eq_true] at hw
  refine (decode_eq (r := rowCas opc p mk) (f := fF (eBase opc h (opdCode x.d) (opdCode x.base) (opdCode x.b) x.ord x.scp x.far (tyCode x.ty) 0 x.disp)) [(17, 2), (40, 3), (43, 4), (47, 3), (55, 3), (58, 1)] (wM_opc ..) ho hr ?_ rfl ?_ ?_ ?_ ?_).trans ?_
  · rfl
  · show covers ([uD, uA, uB, uORD, uSCP, uFAR, uTY, uX32]) _ = true
    decide +kernel
  · simp [eBase, rowCas, BitVec.extractLsb'_setWidth_of_le, BitVec.extractLsb'_eq_self]
  · simp [eBase, rowCas, BitVec.extractLsb'_setWidth_of_le, BitVec.extractLsb'_eq_self, hw]
  · simp [eBase, rowCas, BitVec.extractLsb'_setWidth_of_le, BitVec.extractLsb'_eq_self, hw]
  · simp [eBase, rowCas, BitVec.extractLsb'_setWidth_of_le, BitVec.extractLsb'_eq_self]

theorem decode_fence (h : Hdr) (o : Ord) (s : Scope) (hw : ordFence o = true) : decode (encode (.fence h o s)) = .ok (.fence h o s) := by
  have ho : (0x185 : BitVec 10) ≠ 0 := by decide
  have hr : rowOf 0x185 = some (rowFence) := rfl
  refine (decode_eq (r := rowFence) (f := fF (encode (.fence h o s))) [(17, 2), (19, 7), (26, 7), (33, 7), (40, 3), (43, 4), (47, 3), (50, 5), (55, 3), (58, 1), (59, 1), (64, 32)] (wM_opc ..) ho hr ?_ rfl ?_ ?_ ?_ ?_).trans ?_
  · rfl
  · show covers ([uORD, uSCP]) _ = true
    decide +kernel
  · simp [encode, rowFence, BitVec.extractLsb'_setWidth_of_le, BitVec.extractLsb'_eq_self]
  · simp [encode, rowFence, BitVec.extractLsb'_setWidth_of_le, BitVec.extractLsb'_eq_self, hw]
  · simp [encode, rowFence, BitVec.extractLsb'_setWidth_of_le, BitVec.extractLsb'_eq_self, hw]
  · simp [encode, rowFence, BitVec.extractLsb'_setWidth_of_le, BitVec.extractLsb'_eq_self]

theorem decode_sync {opc : BitVec 10} (ho : opc ≠ 0) {r : Role} {mk : Hdr → MemD → Instr} (hr : rowOf opc = some (rowSync opc r mk)) (h : Hdr) (x : MemD) (hc : canImm r = false) (hw : WellFormed.memD r x = true) : decode (eMem opc h (opdCode x.d) x.mem .rlx .dev false false 0 0 0) = .ok (mk h x) := by
  simp only [WellFormed.memD, WellFormed.memOp, decide_eq_true_eq, Bool.and_eq_true] at hw
  refine (decode_eq (r := rowSync opc r mk) (f := fF (eMem opc h (opdCode x.d) x.mem .rlx .dev false false 0 0 0)) [(17, 2), (40, 3), (43, 4), (47, 3), (58, 1), (59, 1), (60, 2), (62, 2)] (wM_opc ..) ho hr ?_ rfl ?_ ?_ ?_ ?_).trans ?_
  · rfl
  · show covers ([uD, uA, uB, uSH, uTY, uX32]) _ = true
    decide +kernel
  · simp [eMem, rowSync, BitVec.extractLsb'_setWidth_of_le, BitVec.extractLsb'_eq_self, hc, tyOf_b64, isB64]
  · simp [eMem, rowSync, BitVec.extractLsb'_setWidth_of_le, BitVec.extractLsb'_eq_self, hw, hc, tyOf_b64, isB64]
  · simp [eMem, rowSync, BitVec.extractLsb'_setWidth_of_le, BitVec.extractLsb'_eq_self, hw, hc, tyOf_b64, isB64]
  · simp [eMem, rowSync, BitVec.extractLsb'_setWidth_of_le, BitVec.extractLsb'_eq_self, hc, tyOf_b64, isB64]

theorem decode_sfe (h : Hdr) (m : MemOp) (hw : WellFormed.memOp m = true) : decode (encode (.sfe h m)) = .ok (.sfe h m) := by
  have ho : (0x18A : BitVec 10) ≠ 0 := by decide
  have hr : rowOf 0x18A = some (rowSfe) := rfl
  simp only [WellFormed.memOp, decide_eq_true_eq, Bool.and_eq_true] at hw
  refine (decode_eq (r := rowSfe) (f := fF (encode (.sfe h m))) [(17, 2), (19, 7), (40, 3), (43, 4), (47, 3), (58, 1), (59, 1), (60, 2), (62, 2)] (wM_opc ..) ho hr ?_ rfl ?_ ?_ ?_ ?_).trans ?_
  · rfl
  · show covers ([uA, uB, uSH, uTY, uX32]) _ = true
    decide +kernel
  · simp [encode, eMem, rowSfe, BitVec.extractLsb'_setWidth_of_le, BitVec.extractLsb'_eq_self, tyOf_b64, isB64]
  · simp [encode, eMem, rowSfe, BitVec.extractLsb'_setWidth_of_le, BitVec.extractLsb'_eq_self, hw, tyOf_b64, isB64]
  · simp [encode, eMem, rowSfe, BitVec.extractLsb'_setWidth_of_le, BitVec.extractLsb'_eq_self, hw, tyOf_b64, isB64]
  · simp [encode, eMem, rowSfe, BitVec.extractLsb'_setWidth_of_le, BitVec.extractLsb'_eq_self, tyOf_b64, isB64]

theorem decode_lea (h : Hdr) (x : MemD) (hw : WellFormed.memD .sDst x = true) : decode (encode (.lea h x)) = .ok (.lea h x) := by
  have ho : (0x022 : BitVec 10) ≠ 0 := by decide
  have hr : rowOf 0x022 = some (rowLea) := rfl
  simp only [WellFormed.memD, WellFormed.memOp, decide_eq_true_eq, Bool.and_eq_true] at hw
  refine (decode_eq (r := rowLea) (f := fF (encode (.lea h x))) [(17, 2), (40, 3), (43, 4), (47, 3), (50, 5), (58, 1), (59, 1), (60, 2), (62, 2)] (wM_opc ..) ho hr ?_ rfl ?_ ?_ ?_ ?_).trans ?_
  · rfl
  · show covers ([uD, uA, uB, uSH, uX32]) _ = true
    decide +kernel
  · simp [encode, eMem, rowLea, BitVec.extractLsb'_setWidth_of_le, BitVec.extractLsb'_eq_self]
  · simp [encode, eMem, rowLea, BitVec.extractLsb'_setWidth_of_le, BitVec.extractLsb'_eq_self, hw]
  · simp [encode, eMem, rowLea, BitVec.extractLsb'_setWidth_of_le, BitVec.extractLsb'_eq_self, hw]
  · simp [encode, eMem, rowLea, BitVec.extractLsb'_setWidth_of_le, BitVec.extractLsb'_eq_self]

theorem decode_memT {opc : BitVec 10} (ho : opc ≠ 0) {p : Ty → Bool} {r : Ty → Role} {mk : Hdr → MemT → Instr} (hr : rowOf opc = some (rowMemT opc p r mk)) (h : Hdr) (x : MemT) (hc : ∀ t, canImm (r t) = false) (hw : WellFormed.memT p r x = true) : decode (eMem opc h (opdCode x.d) x.mem .rlx .dev false false (tyCode x.ty) 0 0) = .ok (mk h x) := by
  simp only [WellFormed.memT, WellFormed.memOp, decide_eq_true_eq, Bool.and_eq_true] at hw
  refine (decode_eq (r := rowMemT opc p r mk) (f := fF (eMem opc h (opdCode x.d) x.mem .rlx .dev false false (tyCode x.ty) 0 0)) [(17, 2), (40, 3), (43, 4), (47, 3), (58, 1), (59, 1), (60, 2), (62, 2)] (wM_opc ..) ho hr ?_ rfl ?_ ?_ ?_ ?_).trans ?_
  · rfl
  · show covers ([uD, uA, uB, uSH, uTY, uX32]) _ = true
    decide +kernel
  · simp [eMem, rowMemT, BitVec.extractLsb'_setWidth_of_le, BitVec.extractLsb'_eq_self, hc]
  · simp [eMem, rowMemT, BitVec.extractLsb'_setWidth_of_le, BitVec.extractLsb'_eq_self, hw, hc]
  · simp [eMem, rowMemT, BitVec.extractLsb'_setWidth_of_le, BitVec.extractLsb'_eq_self, hw, hc]
  · simp [eMem, rowMemT, BitVec.extractLsb'_setWidth_of_le, BitVec.extractLsb'_eq_self, hc]

theorem decode_hst (h : Hdr) (x : Hst) (hw : (holdTy x.ty && accepts (memDat x.ty) x.d && WellFormed.memOp x.mem) = true) : decode (encode (.hst h x)) = .ok (.hst h x) := by
  have ho : (0x18D : BitVec 10) ≠ 0 := by decide
  have hr : rowOf 0x18D = some (rowHst) := rfl
  simp only [WellFormed.memOp, decide_eq_true_eq, Bool.and_eq_true] at hw
  refine (decode_eq (r := rowHst) (f := fF (encode (.hst h x))) [(17, 2), (40, 3), (43, 4), (58, 1), (59, 1), (60, 2), (62, 2)] (wM_opc ..) ho hr ?_ rfl ?_ ?_ ?_ ?_).trans ?_
  · rfl
  · show covers ([uD, uA, uB, uSH, uTY, uPX, uX32]) _ = true
    decide +kernel
  · simp [encode, eMem, rowHst, BitVec.extractLsb'_setWidth_of_le, BitVec.extractLsb'_eq_self]
  · simp [encode, eMem, rowHst, BitVec.extractLsb'_setWidth_of_le, BitVec.extractLsb'_eq_self, hw]
  · simp [encode, eMem, rowHst, BitVec.extractLsb'_setWidth_of_le, BitVec.extractLsb'_eq_self, hw]
  · simp [encode, eMem, rowHst, BitVec.extractLsb'_setWidth_of_le, BitVec.extractLsb'_eq_self]

theorem decode_hrel (h : Hdr) (x : MemO) (hw : WellFormed.memO false x = true) : decode (encode (.hrel h x)) = .ok (.hrel h x) := by
  have ho : (0x18E : BitVec 10) ≠ 0 := by decide
  have hr : rowOf 0x18E = some (rowMemO 0x18E false .hrel) := rfl
  simp only [WellFormed.memO, WellFormed.memOp, Bool.false_or, decide_eq_true_eq, Bool.and_eq_true] at hw
  refine (decode_eq (r := rowMemO 0x18E false .hrel) (f := fF (encode (.hrel h x))) [(17, 2), (19, 7), (40, 3), (43, 4), (47, 3), (50, 5), (58, 1), (59, 1)] (wM_opc ..) ho hr ?_ rfl ?_ ?_ ?_ ?_).trans ?_
  · rfl
  · show covers ([uA, uB, uORD, uSCP, uSH, uX32]) _ = true
    decide +kernel
  · simp [encode, eMem, rowMemO, BitVec.extractLsb'_setWidth_of_le, BitVec.extractLsb'_eq_self]
  · simp [encode, eMem, rowMemO, BitVec.extractLsb'_setWidth_of_le, BitVec.extractLsb'_eq_self, hw]
  · simp [encode, eMem, rowMemO, BitVec.extractLsb'_setWidth_of_le, BitVec.extractLsb'_eq_self, hw]
  · simp [encode, eMem, rowMemO, BitVec.extractLsb'_setWidth_of_le, BitVec.extractLsb'_eq_self]

theorem decode_cflush (h : Hdr) (x : MemO) (hw : WellFormed.memO true x = true) : decode (encode (.cflush h x)) = .ok (.cflush h x) := by
  have ho : (0x190 : BitVec 10) ≠ 0 := by decide
  have hr : rowOf 0x190 = some (rowMemO 0x190 true .cflush) := rfl
  simp only [WellFormed.memO, WellFormed.memOp, Bool.false_or, decide_eq_true_eq, Bool.and_eq_true] at hw
  refine (decode_eq (r := rowMemO 0x190 true .cflush) (f := fF (encode (.cflush h x))) [(17, 2), (19, 7), (40, 3), (43, 4), (47, 3), (50, 5), (58, 1), (59, 1)] (wM_opc ..) ho hr ?_ rfl ?_ ?_ ?_ ?_).trans ?_
  · rfl
  · show covers ([uA, uB, uORD, uSCP, uSH, uX32]) _ = true
    decide +kernel
  · simp [encode, eMem, rowMemO, BitVec.extractLsb'_setWidth_of_le, BitVec.extractLsb'_eq_self]
  · simp [encode, eMem, rowMemO, BitVec.extractLsb'_setWidth_of_le, BitVec.extractLsb'_eq_self, hw]
  · simp [encode, eMem, rowMemO, BitVec.extractLsb'_setWidth_of_le, BitVec.extractLsb'_eq_self, hw]
  · simp [encode, eMem, rowMemO, BitVec.extractLsb'_setWidth_of_le, BitVec.extractLsb'_eq_self]

theorem decode_addd (h : Hdr) (x : Addd) (hw : (adddOk x.op x.ty && accepts (memDat x.ty) x.d && WellFormed.memOp x.mem) = true) : decode (encode (.addd h x)) = .ok (.addd h x) := by
  have ho : (0x18F : BitVec 10) ≠ 0 := by decide
  have hr : rowOf 0x18F = some (rowAddd) := rfl
  have hs : someOp adddOk x.ty = true := someOp_of (o := x.op) (by simp_all)
  simp only [WellFormed.memOp, decide_eq_true_eq, Bool.and_eq_true] at hw
  refine (decode_eq (r := rowAddd) (f := fF (encode (.addd h x))) [(17, 2), (40, 3), (47, 3), (58, 1), (59, 1), (60, 2), (62, 2)] (wM_opc ..) ho hr ?_ rfl ?_ ?_ ?_ ?_).trans ?_
  · rfl
  · show covers ([uD, uA, uB, uSH, uTY, uAOP, uX32]) _ = true
    decide +kernel
  · simp [encode, eMem, rowAddd, BitVec.extractLsb'_setWidth_of_le, BitVec.extractLsb'_eq_self, hs]
  · simp [encode, eMem, rowAddd, BitVec.extractLsb'_setWidth_of_le, BitVec.extractLsb'_eq_self, hw, hs]
  · simp [encode, eMem, rowAddd, BitVec.extractLsb'_setWidth_of_le, BitVec.extractLsb'_eq_self, hw, hs]
  · simp [encode, eMem, rowAddd, BitVec.extractLsb'_setWidth_of_le, BitVec.extractLsb'_eq_self, hs]

theorem decode_vol {opc : BitVec 10} (ho : opc ≠ 0) {o : Ord → Bool} {r : Ty → Role} {mk : Hdr → Vol → Instr} (hr : rowOf opc = some (rowVol opc o r mk)) (h : Hdr) (x : Vol) (hc : ∀ t, canImm (r t) = false) (hw : WellFormed.vol o r x = true) : decode (eBase opc h (opdCode x.d) (opdCode x.base) (opdCode x.b) x.ord x.scp false (tyCode x.ty) 0 x.disp) = .ok (mk h x) := by
  simp only [WellFormed.vol, Bool.and_eq_true] at hw
  refine (decode_eq (r := rowVol opc o r mk) (f := fF (eBase opc h (opdCode x.d) (opdCode x.base) (opdCode x.b) x.ord x.scp false (tyCode x.ty) 0 x.disp)) [(17, 2), (40, 3), (43, 4), (47, 3), (55, 3), (58, 1), (59, 1)] (wM_opc ..) ho hr ?_ rfl ?_ ?_ ?_ ?_).trans ?_
  · rfl
  · show covers ([uD, uA, uB, uORD, uSCP, uTY, uX32]) _ = true
    decide +kernel
  · simp [eBase, rowVol, ldTy, BitVec.extractLsb'_setWidth_of_le, BitVec.extractLsb'_eq_self, hc]
  · simp [eBase, rowVol, ldTy, BitVec.extractLsb'_setWidth_of_le, BitVec.extractLsb'_eq_self, hw, hc]
  · simp [eBase, rowVol, ldTy, BitVec.extractLsb'_setWidth_of_le, BitVec.extractLsb'_eq_self, hw, hc]
  · simp [eBase, rowVol, ldTy, BitVec.extractLsb'_setWidth_of_le, BitVec.extractLsb'_eq_self, hc]

theorem decode_camo (h : Hdr) (x : Camo) (hw : (amoOk x.op x.ty && scpOk x.ord x.scp && accepts (memDst x.ty) x.d && accepts .aReg x.base && accepts .list x.b) = true) : decode (encode (.camo h x)) = .ok (.camo h x) := by
  have ho : (0x292 : BitVec 10) ≠ 0 := by decide
  have hr : rowOf 0x292 = some (rowCamo) := rfl
  have hs : someOp amoOk x.ty = true := someOp_of (o := x.op) (by simp_all)
  simp only [Bool.and_eq_true] at hw
  refine (decode_eq (r := rowCamo) (f := fF (encode (.camo h x))) [(17, 2), (40, 3), (47, 3), (55, 3), (58, 1)] (wM_opc ..) ho hr ?_ rfl ?_ ?_ ?_ ?_).trans ?_
  · rfl
  · show covers ([uD, uA, uB, uORD, uSCP, uFAR, uTY, uAOP, uX32]) _ = true
    decide +kernel
  · simp [encode, eBase, rowCamo, BitVec.extractLsb'_setWidth_of_le, BitVec.extractLsb'_eq_self, hs]
  · simp [encode, eBase, rowCamo, BitVec.extractLsb'_setWidth_of_le, BitVec.extractLsb'_eq_self, hw, hs]
  · simp [encode, eBase, rowCamo, BitVec.extractLsb'_setWidth_of_le, BitVec.extractLsb'_eq_self, hw, hs]
  · simp [encode, eBase, rowCamo, BitVec.extractLsb'_setWidth_of_le, BitVec.extractLsb'_eq_self, hs]

theorem decode_cprb (h : Hdr) (d base : Opd) (disp : BitVec 32) (b : Opd) (hw : (accepts .sDst d && accepts .aReg base && accepts .list b) = true) : decode (encode (.cprb h d base disp b)) = .ok (.cprb h d base disp b) := by
  have ho : (0x293 : BitVec 10) ≠ 0 := by decide
  have hr : rowOf 0x293 = some (rowCprb) := rfl
  simp only [Bool.and_eq_true] at hw
  refine (decode_eq (r := rowCprb) (f := fF (encode (.cprb h d base disp b))) [(17, 2), (40, 3), (43, 4), (47, 3), (50, 5), (55, 3), (58, 1), (59, 1), (60, 2), (62, 2)] (wM_opc ..) ho hr ?_ rfl ?_ ?_ ?_ ?_).trans ?_
  · rfl
  · show covers ([uD, uA, uB, uX32]) _ = true
    decide +kernel
  · simp [encode, eBase, rowCprb, BitVec.extractLsb'_setWidth_of_le, BitVec.extractLsb'_eq_self]
  · simp [encode, eBase, rowCprb, BitVec.extractLsb'_setWidth_of_le, BitVec.extractLsb'_eq_self, hw]
  · simp [encode, eBase, rowCprb, BitVec.extractLsb'_setWidth_of_le, BitVec.extractLsb'_eq_self, hw]
  · simp [encode, eBase, rowCprb, BitVec.extractLsb'_setWidth_of_le, BitVec.extractLsb'_eq_self]

theorem decode_clbinv (h : Hdr) (s : Scope) (d base : Opd) (disp : BitVec 32) (b : Opd) (hw : (accepts .vSrc d && !isImm d && accepts .aReg base && accepts .list b) = true) : decode (encode (.clbinv h s d base disp b)) = .ok (.clbinv h s d base disp b) := by
  have ho : (0x294 : BitVec 10) ≠ 0 := by decide
  have hr : rowOf 0x294 = some (rowClbinv) := rfl
  simp only [Bool.not_eq_true', Bool.and_eq_true] at hw
  refine (decode_eq (r := rowClbinv) (f := fF (encode (.clbinv h s d base disp b))) [(17, 2), (40, 3), (43, 4), (47, 3), (50, 5), (55, 3), (58, 1), (59, 1), (62, 2)] (wM_opc ..) ho hr ?_ rfl ?_ ?_ ?_ ?_).trans ?_
  · rfl
  · show covers ([uD, uA, uB, uSCP, uX32]) _ = true
    decide +kernel
  · simp [encode, eBase, rowClbinv, BitVec.extractLsb'_setWidth_of_le, BitVec.extractLsb'_eq_self, chk1']
  · simp [encode, eBase, rowClbinv, BitVec.extractLsb'_setWidth_of_le, BitVec.extractLsb'_eq_self, hw, chk1']
  · simp [encode, eBase, rowClbinv, BitVec.extractLsb'_setWidth_of_le, BitVec.extractLsb'_eq_self, hw, chk1']
  · simp [encode, eBase, rowClbinv, BitVec.extractLsb'_setWidth_of_le, BitVec.extractLsb'_eq_self, chk1']

theorem decode_qpop (h : Hdr) (d base : Opd) (disp : BitVec 32) (hw : (accepts .sDst d && accepts .aReg base) = true) : decode (encode (.qpop h d base disp)) = .ok (.qpop h d base disp) := by
  have ho : (0x295 : BitVec 10) ≠ 0 := by decide
  have hr : rowOf 0x295 = some (rowQuarry 0x295 .sDst .qpop) := rfl
  simp only [Bool.and_eq_true] at hw
  refine (decode_eq (r := rowQuarry 0x295 .sDst .qpop) (f := fF (encode (.qpop h d base disp))) [(17, 2), (33, 7), (40, 3), (43, 4), (47, 3), (50, 5), (55, 3), (58, 1), (59, 1), (60, 2), (62, 2)] (wM_opc ..) ho hr ?_ rfl ?_ ?_ ?_ ?_).trans ?_
  · rfl
  · show covers ([uD, uA, uX32]) _ = true
    decide +kernel
  · simp [encode, eBase, rowQuarry, BitVec.extractLsb'_setWidth_of_le, BitVec.extractLsb'_eq_self]
  · simp [encode, eBase, rowQuarry, BitVec.extractLsb'_setWidth_of_le, BitVec.extractLsb'_eq_self, hw]
  · simp [encode, eBase, rowQuarry, BitVec.extractLsb'_setWidth_of_le, BitVec.extractLsb'_eq_self, hw]
  · simp [encode, eBase, rowQuarry, BitVec.extractLsb'_setWidth_of_le, BitVec.extractLsb'_eq_self]

theorem decode_qpsh (h : Hdr) (d base : Opd) (disp : BitVec 32) (hw : (accepts .sSrc d && !isImm d && accepts .aReg base) = true) : decode (encode (.qpsh h d base disp)) = .ok (.qpsh h d base disp) := by
  have ho : (0x296 : BitVec 10) ≠ 0 := by decide
  have hr : rowOf 0x296 = some (rowQuarry 0x296 .sSrc .qpsh) := rfl
  simp only [Bool.not_eq_true', Bool.and_eq_true] at hw
  refine (decode_eq (r := rowQuarry 0x296 .sSrc .qpsh) (f := fF (encode (.qpsh h d base disp))) [(17, 2), (33, 7), (40, 3), (43, 4), (47, 3), (50, 5), (55, 3), (58, 1), (59, 1), (60, 2), (62, 2)] (wM_opc ..) ho hr ?_ rfl ?_ ?_ ?_ ?_).trans ?_
  · rfl
  · show covers ([uD, uA, uX32]) _ = true
    decide +kernel
  · simp [encode, eBase, rowQuarry, BitVec.extractLsb'_setWidth_of_le, BitVec.extractLsb'_eq_self, chk1']
  · simp [encode, eBase, rowQuarry, BitVec.extractLsb'_setWidth_of_le, BitVec.extractLsb'_eq_self, hw, chk1']
  · simp [encode, eBase, rowQuarry, BitVec.extractLsb'_setWidth_of_le, BitVec.extractLsb'_eq_self, hw, chk1']
  · simp [encode, eBase, rowQuarry, BitVec.extractLsb'_setWidth_of_le, BitVec.extractLsb'_eq_self, chk1']

theorem decode_rfence (h : Hdr) (s : Scope) (base : Opd) (disp : BitVec 32) (hw : accepts .aReg base = true) : decode (encode (.rfence h s base disp)) = .ok (.rfence h s base disp) := by
  have ho : (0x2A4 : BitVec 10) ≠ 0 := by decide
  have hr : rowOf 0x2A4 = some (rowRfence) := rfl
  refine (decode_eq (r := rowRfence) (f := fF (encode (.rfence h s base disp))) [(17, 2), (19, 7), (33, 7), (40, 3), (43, 4), (47, 3), (50, 5), (55, 3), (58, 1), (59, 1), (62, 2)] (wM_opc ..) ho hr ?_ rfl ?_ ?_ ?_ ?_).trans ?_
  · rfl
  · show covers ([uA, uSCP, uX32]) _ = true
    decide +kernel
  · simp [encode, eBase, rowRfence, BitVec.extractLsb'_setWidth_of_le, BitVec.extractLsb'_eq_self]
  · simp [encode, eBase, rowRfence, BitVec.extractLsb'_setWidth_of_le, BitVec.extractLsb'_eq_self, hw]
  · simp [encode, eBase, rowRfence, BitVec.extractLsb'_setWidth_of_le, BitVec.extractLsb'_eq_self, hw]
  · simp [encode, eBase, rowRfence, BitVec.extractLsb'_setWidth_of_le, BitVec.extractLsb'_eq_self]

theorem decode_mldw (h : Hdr) (x : Mtx) (hw : (isSbf x.ty && x.np == 0 && !x.init && accepts .sReg x.d && accepts .sReg x.a && WellFormed.unusedOk x.b && WellFormed.unusedOk x.c) = true) : decode (encode (.mldw h x)) = .ok (.mldw h x) := by
  have ho : (0x210 : BitVec 10) ≠ 0 := by decide
  have hr : rowOf 0x210 = some (rowMldw) := rfl
  simp only [WellFormed.unusedOk, WellFormed.unused, beq_iff_eq, Bool.not_eq_true', Bool.and_eq_true] at hw
  refine (decode_eq (r := rowMldw) (f := fF (encode (.mldw h x))) [(17, 2), (33, 7), (40, 4), (44, 4), (48, 4), (57, 7), (65, 31)] (wE_opc ..) ho hr ?_ rfl ?_ ?_ ?_ ?_).trans ?_
  · rfl
  · show covers ([uD, uA, uETY, (64, 1)]) _ = true
    decide +kernel
  · cases x
    simp only at hw
    simp [encode, eMtx, rowMldw, BitVec.extractLsb'_setWidth_of_le, BitVec.extractLsb'_eq_self, hw]
  · cases x
    simp only at hw
    simp [encode, eMtx, rowMldw, BitVec.extractLsb'_setWidth_of_le, BitVec.extractLsb'_eq_self, hw, hw]
  · cases x
    simp only at hw
    simp [encode, eMtx, rowMldw, BitVec.extractLsb'_setWidth_of_le, BitVec.extractLsb'_eq_self, hw, hw]
  · cases x
    simp only at hw
    simp [encode, eMtx, rowMldw, BitVec.extractLsb'_setWidth_of_le, BitVec.extractLsb'_eq_self, hw]

theorem decode_mma (h : Hdr) (x : Mtx) (hw : (isSbf x.ty && 1 ≤ x.np.toNat && x.np.toNat ≤ sbfM x.ty && WellFormed.mtxRegs x .sReg .sReg) = true) : decode (encode (.mma h x)) = .ok (.mma h x) := by
  have ho : (0x211 : BitVec 10) ≠ 0 := by decide
  have hr : rowOf 0x211 = some (rowMma) := rfl
  simp only [WellFormed.mtxRegs, decide_eq_true_eq, Bool.and_eq_true] at hw
  refine (decode_eq (r := rowMma) (f := fF (encode (.mma h x))) [(17, 2), (40, 4), (44, 4), (66, 30)] (wE_opc ..) ho hr ?_ rfl ?_ ?_ ?_ ?_).trans ?_
  · rfl
  · show covers ([uD, uA, uB, uEC, uETY, uNP, (64, 2)]) _ = true
    decide +kernel
  · cases x
    simp only at hw
    simp [encode, eMtx, rowMma, BitVec.extractLsb'_setWidth_of_le, BitVec.extractLsb'_eq_self, hw]
  · cases x
    simp only at hw
    simp [encode, eMtx, rowMma, BitVec.extractLsb'_setWidth_of_le, BitVec.extractLsb'_eq_self, hw, hw]
  · cases x
    simp only at hw
    simp [encode, eMtx, rowMma, BitVec.extractLsb'_setWidth_of_le, BitVec.extractLsb'_eq_self, hw, hw]
  · cases x
    simp only at hw
    simp [encode, eMtx, rowMma, BitVec.extractLsb'_setWidth_of_le, BitVec.extractLsb'_eq_self, hw]

theorem decode_macc (h : Hdr) (rm : Option RMode) (x : Mtx) (hw : (maccTy x.ty && x.np == 0 && !x.init && !x.bank && WellFormed.mtxRegs x .sReg .sSrc) = true) : decode (encode (.macc h rm x)) = .ok (.macc h rm x) := by
  have ho : (0x212 : BitVec 10) ≠ 0 := by decide
  have hr : rowOf 0x212 = some (rowMacc) := rfl
  simp only [WellFormed.mtxRegs, beq_iff_eq, Bool.not_eq_true', Bool.and_eq_true] at hw
  refine (decode_eq (r := rowMacc) (f := fF (encode (.macc h rm x))) [(17, 2), (40, 4), (44, 4), (48, 4), (67, 29)] (wE_opc ..) ho hr ?_ rfl ?_ ?_ ?_ ?_).trans ?_
  · rfl
  · show covers ([uD, uA, uB, uEC, uETY, (64, 3)]) _ = true
    decide +kernel
  · cases x
    simp only at hw
    simp [encode, eMtx, rowMacc, BitVec.extractLsb'_setWidth_of_le, BitVec.extractLsb'_eq_self, hw]
  · cases x
    simp only at hw
    simp [encode, eMtx, rowMacc, BitVec.extractLsb'_setWidth_of_le, BitVec.extractLsb'_eq_self, hw, hw]
  · cases x
    simp only at hw
    simp [encode, eMtx, rowMacc, BitVec.extractLsb'_setWidth_of_le, BitVec.extractLsb'_eq_self, hw, hw]
  · cases x
    simp only at hw
    simp [encode, eMtx, rowMacc, BitVec.extractLsb'_setWidth_of_le, BitVec.extractLsb'_eq_self, hw]

theorem decode_mcvt (h : Hdr) (x : Mtx) (hw : (isSbf x.ty && !x.init && !x.bank && WellFormed.mtxRegs x .sReg .sSrc) = true) : decode (encode (.mcvt h x)) = .ok (.mcvt h x) := by
  have ho : (0x213 : BitVec 10) ≠ 0 := by decide
  have hr : rowOf 0x213 = some (rowMcvt) := rfl
  simp only [WellFormed.mtxRegs, Bool.not_eq_true', Bool.and_eq_true] at hw
  refine (decode_eq (r := rowMcvt) (f := fF (encode (.mcvt h x))) [(17, 2), (40, 4), (44, 4), (64, 32)] (wE_opc ..) ho hr ?_ rfl ?_ ?_ ?_ ?_).trans ?_
  · rfl
  · show covers ([uD, uA, uB, uEC, uETY, uNP]) _ = true
    decide +kernel
  · cases x
    simp only at hw
    simp [encode, eMtx, rowMcvt, BitVec.extractLsb'_setWidth_of_le, BitVec.extractLsb'_eq_self, hw]
  · cases x
    simp only at hw
    simp [encode, eMtx, rowMcvt, BitVec.extractLsb'_setWidth_of_le, BitVec.extractLsb'_eq_self, hw, hw]
  · cases x
    simp only at hw
    simp [encode, eMtx, rowMcvt, BitVec.extractLsb'_setWidth_of_le, BitVec.extractLsb'_eq_self, hw, hw]
  · cases x
    simp only at hw
    simp [encode, eMtx, rowMcvt, BitVec.extractLsb'_setWidth_of_le, BitVec.extractLsb'_eq_self, hw]

theorem decode_cpy (h : Hdr) (x : Cpy) (hw : (x.op == .add && x.ty == .b64 && x.sig == 0 && WellFormed.cpy x .sReg && WellFormed.unusedOk x.c) = true) : decode (encode (.cpy h x)) = .ok (.cpy h x) := by
  have ho : (0x2A0 : BitVec 10) ≠ 0 := by decide
  have hr : rowOf 0x2A0 = some (rowCpy) := rfl
  simp only [WellFormed.cpy, WellFormed.unusedOk, WellFormed.unused, beq_iff_eq, Bool.and_eq_true] at hw
  refine (decode_eq (r := rowCpy) (f := fF (encode (.cpy h x))) [(17, 2), (40, 4), (44, 4), (48, 4), (52, 5), (57, 7), (64, 32)] (wE_opc ..) ho hr ?_ rfl ?_ ?_ ?_ ?_).trans ?_
  · rfl
  · show covers ([uD, uA, uB]) _ = true
    decide +kernel
  · cases x
    simp only at hw
    simp [encode, eCpy, rowCpy, BitVec.extractLsb'_setWidth_of_le, BitVec.extractLsb'_eq_self, hw]
  · cases x
    simp only at hw
    simp [encode, eCpy, rowCpy, BitVec.extractLsb'_setWidth_of_le, BitVec.extractLsb'_eq_self, hw, hw]
  · cases x
    simp only at hw
    simp [encode, eCpy, rowCpy, BitVec.extractLsb'_setWidth_of_le, BitVec.extractLsb'_eq_self, hw, hw]
  · cases x
    simp only at hw
    simp [encode, eCpy, rowCpy, BitVec.extractLsb'_setWidth_of_le, BitVec.extractLsb'_eq_self, hw]

theorem decode_cred (h : Hdr) (x : Cpy) (hw : (redOk x.op x.ty && x.sig == 0 && WellFormed.cpy x .sReg && WellFormed.unusedOk x.c) = true) : decode (encode (.cred h x)) = .ok (.cred h x) := by
  have ho : (0x2A1 : BitVec 10) ≠ 0 := by decide
  have hr : rowOf 0x2A1 = some (rowCred) := rfl
  have hs : someOp redOk x.ty = true := someOp_of (o := x.op) (by simp_all)
  simp only [WellFormed.cpy, WellFormed.unusedOk, WellFormed.unused, beq_iff_eq, Bool.and_eq_true] at hw
  refine (decode_eq (r := rowCred) (f := fF (encode (.cred h x))) [(17, 2), (40, 4), (48, 4), (57, 7), (64, 32)] (wE_opc ..) ho hr ?_ rfl ?_ ?_ ?_ ?_).trans ?_
  · rfl
  · show covers ([uD, uA, uB, uETY, uEOP]) _ = true
    decide +kernel
  · cases x
    simp only at hw
    simp [encode, eCpy, rowCred, BitVec.extractLsb'_setWidth_of_le, BitVec.extractLsb'_eq_self, hs, hw]
  · cases x
    simp only at hw
    simp [encode, eCpy, rowCred, BitVec.extractLsb'_setWidth_of_le, BitVec.extractLsb'_eq_self, hw, hs, hw]
  · cases x
    simp only at hw
    simp [encode, eCpy, rowCred, BitVec.extractLsb'_setWidth_of_le, BitVec.extractLsb'_eq_self, hw, hs, hw]
  · cases x
    simp only at hw
    simp [encode, eCpy, rowCred, BitVec.extractLsb'_setWidth_of_le, BitVec.extractLsb'_eq_self, hs, hw]

theorem decode_xcpy (h : Hdr) (x : Cpy) (hw : (x.op == .add && x.ty == .b64 && WellFormed.cpy x .sSrc) = true) : decode (encode (.xcpy h x)) = .ok (.xcpy h x) := by
  have ho : (0x2A2 : BitVec 10) ≠ 0 := by decide
  have hr : rowOf 0x2A2 = some (rowXcpy) := rfl
  simp only [WellFormed.cpy, beq_iff_eq, Bool.and_eq_true] at hw
  refine (decode_eq (r := rowXcpy) (f := fF (encode (.xcpy h x))) [(17, 2), (40, 4), (44, 4), (48, 4), (52, 5)] (wE_opc ..) ho hr ?_ rfl ?_ ?_ ?_ ?_).trans ?_
  · rfl
  · show covers ([uD, uA, uB, uEC, uX32]) _ = true
    decide +kernel
  · cases x
    simp only at hw
    simp [encode, eCpy, rowXcpy, BitVec.extractLsb'_setWidth_of_le, BitVec.extractLsb'_eq_self, hw]
  · cases x
    simp only at hw
    simp [encode, eCpy, rowXcpy, BitVec.extractLsb'_setWidth_of_le, BitVec.extractLsb'_eq_self, hw, hw]
  · cases x
    simp only at hw
    simp [encode, eCpy, rowXcpy, BitVec.extractLsb'_setWidth_of_le, BitVec.extractLsb'_eq_self, hw, hw]
  · cases x
    simp only at hw
    simp [encode, eCpy, rowXcpy, BitVec.extractLsb'_setWidth_of_le, BitVec.extractLsb'_eq_self, hw]

theorem decode_xred (h : Hdr) (x : Cpy) (hw : (redOk x.op x.ty && WellFormed.cpy x .sSrc) = true) : decode (encode (.xred h x)) = .ok (.xred h x) := by
  have ho : (0x2A3 : BitVec 10) ≠ 0 := by decide
  have hr : rowOf 0x2A3 = some (rowXred) := rfl
  have hs : someOp redOk x.ty = true := someOp_of (o := x.op) (by simp_all)
  simp only [WellFormed.cpy, Bool.and_eq_true] at hw
  refine (decode_eq (r := rowXred) (f := fF (encode (.xred h x))) [(17, 2), (40, 4), (48, 4)] (wE_opc ..) ho hr ?_ rfl ?_ ?_ ?_ ?_).trans ?_
  · rfl
  · show covers ([uD, uA, uB, uEC, uETY, uEOP, uX32]) _ = true
    decide +kernel
  · cases x
    simp only at hw
    simp [encode, eCpy, rowXred, BitVec.extractLsb'_setWidth_of_le, BitVec.extractLsb'_eq_self, hs, hw]
  · cases x
    simp only at hw
    simp [encode, eCpy, rowXred, BitVec.extractLsb'_setWidth_of_le, BitVec.extractLsb'_eq_self, hw, hs, hw]
  · cases x
    simp only at hw
    simp [encode, eCpy, rowXred, BitVec.extractLsb'_setWidth_of_le, BitVec.extractLsb'_eq_self, hw, hs, hw]
  · cases x
    simp only at hw
    simp [encode, eCpy, rowXred, BitVec.extractLsb'_setWidth_of_le, BitVec.extractLsb'_eq_self, hs, hw]

theorem decode_sintc (h : Hdr) (x : Strm) (hw : (setTy x.ty && accepts .sDst x.d && accepts .list x.a && accepts .list x.b && WellFormed.unusedOk x.c) = true) : decode (encode (.sintc h x)) = .ok (.sintc h x) := by
  have ho : (0x281 : BitVec 10) ≠ 0 := by decide
  have hr : rowOf 0x281 = some (rowSintc) := rfl
  simp only [WellFormed.unusedOk, WellFormed.unused, beq_iff_eq, Bool.and_eq_true] at hw
  refine (decode_eq (r := rowSintc) (f := false) [(17, 2), (40, 7), (47, 3), (55, 3), (58, 3), (61, 2), (63, 1), (64, 32)] (wR_opc ..) ho hr ?_ rfl ?_ ?_ ?_ ?_).trans ?_
  · simp [encode, eStrm, rowSintc, BitVec.extractLsb'_setWidth_of_le, BitVec.extractLsb'_eq_self]
  · show covers ([uD, uA, uB, uTY]) _ = true
    decide +kernel
  · cases x
    simp only at hw
    simp [encode, eStrm, rowSintc, BitVec.extractLsb'_setWidth_of_le, BitVec.extractLsb'_eq_self, hw]
  · cases x
    simp only at hw
    simp [encode, eStrm, rowSintc, BitVec.extractLsb'_setWidth_of_le, BitVec.extractLsb'_eq_self, hw, hw]
  · cases x
    simp only at hw
    simp [encode, eStrm, rowSintc, BitVec.extractLsb'_setWidth_of_le, BitVec.extractLsb'_eq_self, hw, hw]
  · cases x
    simp only at hw
    simp [encode, eStrm, rowSintc, BitVec.extractLsb'_setWidth_of_le, BitVec.extractLsb'_eq_self, hw]

theorem decode_scmp (h : Hdr) (nz : Bool) (x : Strm) (hw : WellFormed.strm isRaw64 x (if nz then .zeroOnly else .list) .list = true) : decode (encode (.scmp h nz x)) = .ok (.scmp h nz x) := by
  have ho : (0x286 : BitVec 10) ≠ 0 := by decide
  have hr : rowOf 0x286 = some (rowScmp) := rfl
  simp only [WellFormed.strm, Bool.and_eq_true] at hw
  refine (decode_eq (r := rowScmp) (f := false) [(17, 2), (47, 3), (55, 3), (58, 3), (61, 2), (63, 1), (65, 31)] (wR_opc ..) ho hr ?_ rfl ?_ ?_ ?_ ?_).trans ?_
  · simp [encode, eStrm, rowScmp, BitVec.extractLsb'_setWidth_of_le, BitVec.extractLsb'_eq_self]
  · show covers ([uD, uA, uB, uC, uTY, (64, 1)]) _ = true
    decide +kernel
  · simp [encode, eStrm, rowScmp, BitVec.extractLsb'_setWidth_of_le, BitVec.extractLsb'_eq_self]
  · simp [encode, eStrm, rowScmp, BitVec.extractLsb'_setWidth_of_le, BitVec.extractLsb'_eq_self, hw]
  · simp [encode, eStrm, rowScmp, BitVec.extractLsb'_setWidth_of_le, BitVec.extractLsb'_eq_self, hw]
  · simp [encode, eStrm, rowScmp, BitVec.extractLsb'_setWidth_of_le, BitVec.extractLsb'_eq_self]

theorem decode_mqry (h : Hdr) (sel : BitVec 3) (d : Opd) (hw : accepts .sDst d = true) : decode (encode (.mqry h sel d)) = .ok (.mqry h sel d) := by
  have ho : (0x214 : BitVec 10) ≠ 0 := by decide
  have hr : rowOf 0x214 = some (rowMqry) := rfl
  refine (decode_eq (r := rowMqry) (f := false) [(17, 2), (26, 7), (33, 7), (40, 7), (47, 3), (50, 5), (55, 3), (58, 3), (61, 2), (63, 1), (68, 28)] (wR_opc ..) ho hr ?_ rfl ?_ ?_ ?_ ?_).trans ?_
  · simp [encode, eD, rowMqry, BitVec.extractLsb'_setWidth_of_le, BitVec.extractLsb'_eq_self]
  · show covers ([uD, (64, 4)]) _ = true
    decide +kernel
  · simp [encode, eD, rowMqry, BitVec.extractLsb'_setWidth_of_le, BitVec.extractLsb'_eq_self, sel_lt]
  · simp [encode, eD, rowMqry, BitVec.extractLsb'_setWidth_of_le, BitVec.extractLsb'_eq_self, hw, sel_lt]
  · simp [encode, eD, rowMqry, BitVec.extractLsb'_setWidth_of_le, BitVec.extractLsb'_eq_self, hw, sel_lt]
  · simp [encode, eD, rowMqry, BitVec.extractLsb'_setWidth_of_le, BitVec.extractLsb'_eq_self, sel_lt]

theorem decode_vred (h : Hdr) (x : Vred) (hw : WellFormed.vred .sDst x = true) : decode (encode (.vred h x)) = .ok (.vred h x) := by
  have ho : (0x114 : BitVec 10) ≠ 0 := by decide
  have hr : rowOf 0x114 = some (rowVred 0x114 .sDst .vred) := rfl
  have hs : someOp ropOk x.ty = true := someOp_of (o := x.op) (by simp only [WellFormed.vred, Bool.and_eq_true] at hw; simp_all)
  simp only [WellFormed.vred, Bool.or_eq_true, beq_iff_eq, Bool.and_eq_true] at hw
  refine (decode_eq (r := rowVred 0x114 .sDst .vred) (f := false) [(17, 2), (33, 7), (40, 7), (47, 3), (61, 2), (63, 1), (68, 28)] (wR_opc ..) ho hr ?_ rfl ?_ ?_ ?_ ?_).trans ?_
  · simp [encode, eVred, rowVred, BitVec.extractLsb'_setWidth_of_le, BitVec.extractLsb'_eq_self]
  · show covers ([uD, uA, uTY, uSH, uF3, (64, 4)]) _ = true
    decide +kernel
  · simp [encode, eVred, rowVred, BitVec.extractLsb'_setWidth_of_le, BitVec.extractLsb'_eq_self, hs]
  · simp [encode, eVred, rowVred, BitVec.extractLsb'_setWidth_of_le, BitVec.extractLsb'_eq_self, hw, hs]
    rcases hw.1.1.2 with e | e <;> simp [e, rm_none]
  · simp [encode, eVred, rowVred, BitVec.extractLsb'_setWidth_of_le, BitVec.extractLsb'_eq_self, hw, hs]
  · simp [encode, eVred, rowVred, BitVec.extractLsb'_setWidth_of_le, BitVec.extractLsb'_eq_self, hs]

theorem decode_vscan (h : Hdr) (x : Vred) (hw : WellFormed.vred .vDst x = true) : decode (encode (.vscan h x)) = .ok (.vscan h x) := by
  have ho : (0x117 : BitVec 10) ≠ 0 := by decide
  have hr : rowOf 0x117 = some (rowVred 0x117 .vDst .vscan) := rfl
  have hs : someOp ropOk x.ty = true := someOp_of (o := x.op) (by simp only [WellFormed.vred, Bool.and_eq_true] at hw; simp_all)
  simp only [WellFormed.vred, Bool.or_eq_true, beq_iff_eq, Bool.and_eq_true] at hw
  refine (decode_eq (r := rowVred 0x117 .vDst .vscan) (f := false) [(17, 2), (33, 7), (40, 7), (47, 3), (61, 2), (63, 1), (68, 28)] (wR_opc ..) ho hr ?_ rfl ?_ ?_ ?_ ?_).trans ?_
  · simp [encode, eVred, rowVred, BitVec.extractLsb'_setWidth_of_le, BitVec.extractLsb'_eq_self]
  · show covers ([uD, uA, uTY, uSH, uF3, (64, 4)]) _ = true
    decide +kernel
  · simp [encode, eVred, rowVred, BitVec.extractLsb'_setWidth_of_le, BitVec.extractLsb'_eq_self, hs]
  · simp [encode, eVred, rowVred, BitVec.extractLsb'_setWidth_of_le, BitVec.extractLsb'_eq_self, hw, hs]
    rcases hw.1.1.2 with e | e <;> simp [e, rm_none]
  · simp [encode, eVred, rowVred, BitVec.extractLsb'_setWidth_of_le, BitVec.extractLsb'_eq_self, hw, hs]
  · simp [encode, eVred, rowVred, BitVec.extractLsb'_setWidth_of_le, BitVec.extractLsb'_eq_self, hs]

theorem decode_vdot (h : Hdr) (x : Flt3) (hw : WellFormed.vdot x = true) : decode (encode (.vdot h x)) = .ok (.vdot h x) := by
  have ho : (0x115 : BitVec 10) ≠ 0 := by decide
  have hr : rowOf 0x115 = some (rowVdot) := rfl
  simp only [WellFormed.vdot, Bool.or_eq_true, beq_iff_eq, Bool.and_eq_true] at hw
  refine (decode_eq (r := rowVdot) (f := false) [(17, 2), (47, 3), (61, 2), (63, 1), (64, 32)] (wR_opc ..) ho hr ?_ rfl ?_ ?_ ?_ ?_).trans ?_
  · simp [encode, eFlt3, rowVdot, BitVec.extractLsb'_setWidth_of_le, BitVec.extractLsb'_eq_self]
  · show covers ([uD, uA, uB, uC, uTY, uSH, uF3]) _ = true
    decide +kernel
  · simp [encode, eFlt3, rowVdot, BitVec.extractLsb'_setWidth_of_le, BitVec.extractLsb'_eq_self]
  · simp [encode, eFlt3, rowVdot, BitVec.extractLsb'_setWidth_of_le, BitVec.extractLsb'_eq_self, hw]
    rcases hw.1.1.1.1.2 with e | e <;> simp [e, rm_none]
  · simp [encode, eFlt3, rowVdot, BitVec.extractLsb'_setWidth_of_le, BitVec.extractLsb'_eq_self, hw]
  · simp [encode, eFlt3, rowVdot, BitVec.extractLsb'_setWidth_of_le, BitVec.extractLsb'_eq_self]

theorem decode_fcvt_true (h : Hdr) (t o : Ty) (pt : BitVec 2) (s : Shape) (rm : Option RMode) (d a : Opd) (hw : WellFormed.cvt isFloat isFloat ⟨t, o, true, pt, s, rm, d, a⟩ = true) : decode (encode (.fcvt h ⟨t, o, true, pt, s, rm, d, a⟩)) = .ok (.fcvt h ⟨t, o, true, pt, s, rm, d, a⟩) := by
  have ho : (0x10C : BitVec 10) ≠ 0 := by decide
  have hr : rowOf 0x10C = some (rowCvt 0x10C isFloat isFloat .fcvt) := rfl
  simp only [WellFormed.cvt, decide_eq_true_eq, if_true, Bool.false_eq_true, if_false, Bool.and_eq_true] at hw
  refine (decode_eq (r := rowCvt 0x10C isFloat isFloat .fcvt) (f := false) [(17, 2), (33, 7), (40, 7), (47, 3), (61, 2), (63, 1), (72, 24)] (wR_opc ..) ho hr ?_ rfl ?_ ?_ ?_ ?_).trans ?_
  · simp [encode, eCvt, rowCvt, BitVec.extractLsb'_setWidth_of_le, BitVec.extractLsb'_eq_self]
  · show covers ([uD, uA, uTY, uSH, uF3, (64, 8)]) _ = true
    decide +kernel
  · simp [encode, eCvt, rowCvt, BitVec.extractLsb'_setWidth_of_le, BitVec.extractLsb'_eq_self, cvt_oty, cvt_dir, cvt_part, -BitVec.extractLsb'_toNat]
  · simp [encode, eCvt, rowCvt, BitVec.extractLsb'_setWidth_of_le, BitVec.extractLsb'_eq_self, hw, cvt_oty, cvt_dir, cvt_part, -BitVec.extractLsb'_toNat]
    have := hw.1.1.1.1.2; omega
  · simp [encode, eCvt, rowCvt, BitVec.extractLsb'_setWidth_of_le, BitVec.extractLsb'_eq_self, hw, cvt_oty, cvt_dir, cvt_part, -BitVec.extractLsb'_toNat]
    exact range_none hw.2
  · simp [encode, eCvt, rowCvt, BitVec.extractLsb'_setWidth_of_le, BitVec.extractLsb'_eq_self, cvt_oty, cvt_dir, cvt_part, -BitVec.extractLsb'_toNat]

theorem decode_fcvt_false (h : Hdr) (t o : Ty) (pt : BitVec 2) (s : Shape) (rm : Option RMode) (d a : Opd) (hw : WellFormed.cvt isFloat isFloat ⟨t, o, false, pt, s, rm, d, a⟩ = true) : decode (encode (.fcvt h ⟨t, o, false, pt, s, rm, d, a⟩)) = .ok (.fcvt h ⟨t, o, false, pt, s, rm, d, a⟩) := by
  have ho : (0x10C : BitVec 10) ≠ 0 := by decide
  have hr : rowOf 0x10C = some (rowCvt 0x10C isFloat isFloat .fcvt) := rfl
  simp only [WellFormed.cvt, decide_eq_true_eq, if_true, Bool.false_eq_true, if_false, Bool.and_eq_true] at hw
  refine (decode_eq (r := rowCvt 0x10C isFloat isFloat .fcvt) (f := false) [(17, 2), (33, 7), (40, 7), (47, 3), (61, 2), (63, 1), (72, 24)] (wR_opc ..) ho hr ?_ rfl ?_ ?_ ?_ ?_).trans ?_
  · simp [encode, eCvt, rowCvt, BitVec.extractLsb'_setWidth_of_le, BitVec.extractLsb'_eq_self]
  · show covers ([uD, uA, uTY, uSH, uF3, (64, 8)]) _ = true
    decide +kernel
  · simp [encode, eCvt, rowCvt, BitVec.extractLsb'_setWidth_of_le, BitVec.extractLsb'_eq_self, cvt_oty, cvt_dir, cvt_part, -BitVec.extractLsb'_toNat]
  · simp [encode, eCvt, rowCvt, BitVec.extractLsb'_setWidth_of_le, BitVec.extractLsb'_eq_self, hw, cvt_oty, cvt_dir, cvt_part, -BitVec.extractLsb'_toNat]
  · simp [encode, eCvt, rowCvt, BitVec.extractLsb'_setWidth_of_le, BitVec.extractLsb'_eq_self, hw, cvt_oty, cvt_dir, cvt_part, -BitVec.extractLsb'_toNat]
    exact range_none hw.2
  · simp [encode, eCvt, rowCvt, BitVec.extractLsb'_setWidth_of_le, BitVec.extractLsb'_eq_self, cvt_oty, cvt_dir, cvt_part, -BitVec.extractLsb'_toNat]

theorem decode_fcvi_true (h : Hdr) (t o : Ty) (pt : BitVec 2) (s : Shape) (rm : Option RMode) (d a : Opd) (hw : WellFormed.cvt isFloat cvtInt ⟨t, o, true, pt, s, rm, d, a⟩ = true) : decode (encode (.fcvi h ⟨t, o, true, pt, s, rm, d, a⟩)) = .ok (.fcvi h ⟨t, o, true, pt, s, rm, d, a⟩) := by
  have ho : (0x10D : BitVec 10) ≠ 0 := by decide
  have hr : rowOf 0x10D = some (rowCvt 0x10D isFloat cvtInt .fcvi) := rfl
  simp only [WellFormed.cvt, decide_eq_true_eq, if_true, Bool.false_eq_true, if_false, Bool.and_eq_true] at hw
  refine (decode_eq (r := rowCvt 0x10D isFloat cvtInt .fcvi) (f := false) [(17, 2), (33, 7), (40, 7), (47, 3), (61, 2), (63, 1), (72, 24)] (wR_opc ..) ho hr ?_ rfl ?_ ?_ ?_ ?_).trans ?_
  · simp [encode, eCvt, rowCvt, BitVec.extractLsb'_setWidth_of_le, BitVec.extractLsb'_eq_self]
  · show covers ([uD, uA, uTY, uSH, uF3, (64, 8)]) _ = true
    decide +kernel
  · simp [encode, eCvt, rowCvt, BitVec.extractLsb'_setWidth_of_le, BitVec.extractLsb'_eq_self, cvt_oty, cvt_dir, cvt_part, -BitVec.extractLsb'_toNat]
  · simp [encode, eCvt, rowCvt, BitVec.extractLsb'_setWidth_of_le, BitVec.extractLsb'_eq_self, hw, cvt_oty, cvt_dir, cvt_part, -BitVec.extractLsb'_toNat]
    have := hw.1.1.1.1.2; omega
  · simp [encode, eCvt, rowCvt, BitVec.extractLsb'_setWidth_of_le, BitVec.extractLsb'_eq_self, hw, cvt_oty, cvt_dir, cvt_part, -BitVec.extractLsb'_toNat]
    exact range_none hw.2
  · simp [encode, eCvt, rowCvt, BitVec.extractLsb'_setWidth_of_le, BitVec.extractLsb'_eq_self, cvt_oty, cvt_dir, cvt_part, -BitVec.extractLsb'_toNat]

theorem decode_fcvi_false (h : Hdr) (t o : Ty) (pt : BitVec 2) (s : Shape) (rm : Option RMode) (d a : Opd) (hw : WellFormed.cvt isFloat cvtInt ⟨t, o, false, pt, s, rm, d, a⟩ = true) : decode (encode (.fcvi h ⟨t, o, false, pt, s, rm, d, a⟩)) = .ok (.fcvi h ⟨t, o, false, pt, s, rm, d, a⟩) := by
  have ho : (0x10D : BitVec 10) ≠ 0 := by decide
  have hr : rowOf 0x10D = some (rowCvt 0x10D isFloat cvtInt .fcvi) := rfl
  simp only [WellFormed.cvt, decide_eq_true_eq, if_true, Bool.false_eq_true, if_false, Bool.and_eq_true] at hw
  refine (decode_eq (r := rowCvt 0x10D isFloat cvtInt .fcvi) (f := false) [(17, 2), (33, 7), (40, 7), (47, 3), (61, 2), (63, 1), (72, 24)] (wR_opc ..) ho hr ?_ rfl ?_ ?_ ?_ ?_).trans ?_
  · simp [encode, eCvt, rowCvt, BitVec.extractLsb'_setWidth_of_le, BitVec.extractLsb'_eq_self]
  · show covers ([uD, uA, uTY, uSH, uF3, (64, 8)]) _ = true
    decide +kernel
  · simp [encode, eCvt, rowCvt, BitVec.extractLsb'_setWidth_of_le, BitVec.extractLsb'_eq_self, cvt_oty, cvt_dir, cvt_part, -BitVec.extractLsb'_toNat]
  · simp [encode, eCvt, rowCvt, BitVec.extractLsb'_setWidth_of_le, BitVec.extractLsb'_eq_self, hw, cvt_oty, cvt_dir, cvt_part, -BitVec.extractLsb'_toNat]
  · simp [encode, eCvt, rowCvt, BitVec.extractLsb'_setWidth_of_le, BitVec.extractLsb'_eq_self, hw, cvt_oty, cvt_dir, cvt_part, -BitVec.extractLsb'_toNat]
    exact range_none hw.2
  · simp [encode, eCvt, rowCvt, BitVec.extractLsb'_setWidth_of_le, BitVec.extractLsb'_eq_self, cvt_oty, cvt_dir, cvt_part, -BitVec.extractLsb'_toNat]

theorem decode_icvf_true (h : Hdr) (t o : Ty) (pt : BitVec 2) (s : Shape) (rm : Option RMode) (d a : Opd) (hw : WellFormed.cvt cvtInt isFloat ⟨t, o, true, pt, s, rm, d, a⟩ = true) : decode (encode (.icvf h ⟨t, o, true, pt, s, rm, d, a⟩)) = .ok (.icvf h ⟨t, o, true, pt, s, rm, d, a⟩) := by
  have ho : (0x10E : BitVec 10) ≠ 0 := by decide
  have hr : rowOf 0x10E = some (rowCvt 0x10E cvtInt isFloat .icvf) := rfl
  simp only [WellFormed.cvt, decide_eq_true_eq, if_true, Bool.false_eq_true, if_false, Bool.and_eq_true] at hw
  refine (decode_eq (r := rowCvt 0x10E cvtInt isFloat .icvf) (f := false) [(17, 2), (33, 7), (40, 7), (47, 3), (61, 2), (63, 1), (72, 24)] (wR_opc ..) ho hr ?_ rfl ?_ ?_ ?_ ?_).trans ?_
  · simp [encode, eCvt, rowCvt, BitVec.extractLsb'_setWidth_of_le, BitVec.extractLsb'_eq_self]
  · show covers ([uD, uA, uTY, uSH, uF3, (64, 8)]) _ = true
    decide +kernel
  · simp [encode, eCvt, rowCvt, BitVec.extractLsb'_setWidth_of_le, BitVec.extractLsb'_eq_self, cvt_oty, cvt_dir, cvt_part, -BitVec.extractLsb'_toNat]
  · simp [encode, eCvt, rowCvt, BitVec.extractLsb'_setWidth_of_le, BitVec.extractLsb'_eq_self, hw, cvt_oty, cvt_dir, cvt_part, -BitVec.extractLsb'_toNat]
    have := hw.1.1.1.1.2; omega
  · simp [encode, eCvt, rowCvt, BitVec.extractLsb'_setWidth_of_le, BitVec.extractLsb'_eq_self, hw, cvt_oty, cvt_dir, cvt_part, -BitVec.extractLsb'_toNat]
    exact range_none hw.2
  · simp [encode, eCvt, rowCvt, BitVec.extractLsb'_setWidth_of_le, BitVec.extractLsb'_eq_self, cvt_oty, cvt_dir, cvt_part, -BitVec.extractLsb'_toNat]

theorem decode_icvf_false (h : Hdr) (t o : Ty) (pt : BitVec 2) (s : Shape) (rm : Option RMode) (d a : Opd) (hw : WellFormed.cvt cvtInt isFloat ⟨t, o, false, pt, s, rm, d, a⟩ = true) : decode (encode (.icvf h ⟨t, o, false, pt, s, rm, d, a⟩)) = .ok (.icvf h ⟨t, o, false, pt, s, rm, d, a⟩) := by
  have ho : (0x10E : BitVec 10) ≠ 0 := by decide
  have hr : rowOf 0x10E = some (rowCvt 0x10E cvtInt isFloat .icvf) := rfl
  simp only [WellFormed.cvt, decide_eq_true_eq, if_true, Bool.false_eq_true, if_false, Bool.and_eq_true] at hw
  refine (decode_eq (r := rowCvt 0x10E cvtInt isFloat .icvf) (f := false) [(17, 2), (33, 7), (40, 7), (47, 3), (61, 2), (63, 1), (72, 24)] (wR_opc ..) ho hr ?_ rfl ?_ ?_ ?_ ?_).trans ?_
  · simp [encode, eCvt, rowCvt, BitVec.extractLsb'_setWidth_of_le, BitVec.extractLsb'_eq_self]
  · show covers ([uD, uA, uTY, uSH, uF3, (64, 8)]) _ = true
    decide +kernel
  · simp [encode, eCvt, rowCvt, BitVec.extractLsb'_setWidth_of_le, BitVec.extractLsb'_eq_self, cvt_oty, cvt_dir, cvt_part, -BitVec.extractLsb'_toNat]
  · simp [encode, eCvt, rowCvt, BitVec.extractLsb'_setWidth_of_le, BitVec.extractLsb'_eq_self, hw, cvt_oty, cvt_dir, cvt_part, -BitVec.extractLsb'_toNat]
  · simp [encode, eCvt, rowCvt, BitVec.extractLsb'_setWidth_of_le, BitVec.extractLsb'_eq_self, hw, cvt_oty, cvt_dir, cvt_part, -BitVec.extractLsb'_toNat]
    exact range_none hw.2
  · simp [encode, eCvt, rowCvt, BitVec.extractLsb'_setWidth_of_le, BitVec.extractLsb'_eq_self, cvt_oty, cvt_dir, cvt_part, -BitVec.extractLsb'_toNat]

theorem decode_pmovGet (h : Hdr) (d : Opd) (hw : accepts .sDst d = true) : decode (encode (.pmovGet h d)) = .ok (.pmovGet h d) := by
  have ho : (0x081 : BitVec 10) ≠ 0 := by decide
  have hr : rowOf 0x081 = some (rowPmov) := rfl
  refine (decode_eq (r := rowPmov) (f := false) [(17, 2), (33, 7), (40, 7), (47, 3), (50, 5), (55, 3), (58, 3), (61, 2), (63, 1), (64, 1), (73, 23)] (wR_opc ..) ho hr ?_ rfl ?_ ?_ ?_ ?_).trans ?_
  · simp [encode, eD, rowPmov, BitVec.extractLsb'_setWidth_of_le, BitVec.extractLsb'_eq_self]
  · show covers ([uD, uA, (65, 8)]) _ = true
    decide +kernel
  · simp [encode, eD, rowPmov, BitVec.extractLsb'_setWidth_of_le, BitVec.extractLsb'_eq_self]
  · simp [encode, eD, rowPmov, BitVec.extractLsb'_setWidth_of_le, BitVec.extractLsb'_eq_self, hw]
  · simp [encode, eD, rowPmov, BitVec.extractLsb'_setWidth_of_le, BitVec.extractLsb'_eq_self, hw]
  · simp [encode, eD, rowPmov, BitVec.extractLsb'_setWidth_of_le, BitVec.extractLsb'_eq_self]

theorem decode_pmovSet (h : Hdr) (a : Opd) (m : BitVec 7) (hw : accepts .sSrc a = true) : decode (encode (.pmovSet h a m)) = .ok (.pmovSet h a m) := by
  have ho : (0x081 : BitVec 10) ≠ 0 := by decide
  have hr : rowOf 0x081 = some (rowPmov) := rfl
  refine (decode_eq (r := rowPmov) (f := false) [(17, 2), (33, 7), (40, 7), (47, 3), (50, 5), (55, 3), (58, 3), (61, 2), (63, 1), (64, 1), (73, 23)] (wR_opc ..) ho hr ?_ rfl ?_ ?_ ?_ ?_).trans ?_
  · simp [encode, eD, rowPmov, BitVec.extractLsb'_setWidth_of_le, BitVec.extractLsb'_eq_self]
  · show covers ([uD, uA, (65, 8)]) _ = true
    decide +kernel
  · simp [encode, eD, rowPmov, BitVec.extractLsb'_setWidth_of_le, BitVec.extractLsb'_eq_self, pm_sel, pm_mask, pm_low]
  · simp [encode, eD, rowPmov, BitVec.extractLsb'_setWidth_of_le, BitVec.extractLsb'_eq_self, hw, pm_sel, pm_mask, pm_low]
  · simp [encode, eD, rowPmov, BitVec.extractLsb'_setWidth_of_le, BitVec.extractLsb'_eq_self, hw, pm_sel, pm_mask, pm_low]
  · simp [encode, eD, rowPmov, BitVec.extractLsb'_setWidth_of_le, BitVec.extractLsb'_eq_self, pm_sel, pm_mask, pm_low]

theorem decode_b_only {opc : BitVec 10} (ho : opc ≠ 0) {mk : Hdr → BitVec 32 → Instr} (hr : rowOf opc = some (rowB opc mk)) (h : Hdr) (disp : BitVec 32) (hw : True) : decode (wB opc h 0 disp) = .ok (mk h disp) := by
  refine (decode_eq (r := rowB opc mk) (f := fF (wB opc h 0 disp)) [(17, 2), (19, 7), (26, 7), (33, 7), (40, 24)] (wB_opc ..) ho hr ?_ rfl ?_ ?_ ?_ ?_).trans ?_
  · rfl
  · show covers ([uX32]) _ = true
    decide +kernel
  · simp [rowB, BitVec.extractLsb'_setWidth_of_le, BitVec.extractLsb'_eq_self]
  · simp [rowB, BitVec.extractLsb'_setWidth_of_le, BitVec.extractLsb'_eq_self, hw]
  · simp [rowB, BitVec.extractLsb'_setWidth_of_le, BitVec.extractLsb'_eq_self, hw]
  · simp [rowB, BitVec.extractLsb'_setWidth_of_le, BitVec.extractLsb'_eq_self]

theorem decode_dbnz (h : Hdr) (d : Opd) (disp : BitVec 32) (hw : accepts .sRegDst d = true) : decode (encode (.dbnz h d disp)) = .ok (.dbnz h d disp) := by
  have ho : (0x087 : BitVec 10) ≠ 0 := by decide
  have hr : rowOf 0x087 = some (rowDbnz) := rfl
  refine (decode_eq (r := rowDbnz) (f := fF (encode (.dbnz h d disp))) [(17, 2), (26, 7), (33, 7), (40, 24)] (wB_opc ..) ho hr ?_ rfl ?_ ?_ ?_ ?_).trans ?_
  · rfl
  · show covers ([uD, uX32]) _ = true
    decide +kernel
  · simp [encode, rowDbnz, BitVec.extractLsb'_setWidth_of_le, BitVec.extractLsb'_eq_self]
  · simp [encode, rowDbnz, BitVec.extractLsb'_setWidth_of_le, BitVec.extractLsb'_eq_self, hw]
  · simp [encode, rowDbnz, BitVec.extractLsb'_setWidth_of_le, BitVec.extractLsb'_eq_self, hw]
  · simp [encode, rowDbnz, BitVec.extractLsb'_setWidth_of_le, BitVec.extractLsb'_eq_self]

theorem decode_li (h : Hdr) (d : Opd) (imm : BitVec 56) (hw : accepts .sDst d = true) : decode (encode (.li h d imm)) = .ok (.li h d imm) := by
  refine (decode_eq (r := rowLi) (f := fF (encode (.li h d imm))) [(17, 2), (26, 7), (33, 7)] (low_opc ..) (by decide) rfl rfl rfl ?_ ?_ ?_ ?_).trans ?_
  · show covers [uD, (40, 56)] _ = true
    decide +kernel
  · simp [rowLi, encode, fImm, fD, low_d, low_hdr, low_res, low_a, low_b, opd_eq, chk1, canImm_sDst, hw]
  · simp [rowLi]
  · simp [rowLi, encode, fImm, fD, low_d, low_hdr, low_res, low_a, low_b, opd_eq, chk1, canImm_sDst, hw]
  · simp [rowLi, encode, fImm, fD, low_d, low_hdr, low_res, low_a, low_b, opd_eq, chk1, canImm_sDst, hw]
    simp (disch := decide) only [fld_high, Nat.reduceSub, BitVec.extractLsb'_eq_self, sp_b, sp_r, sp_c, sp_v, sp_e, mv_b, mv_r, mv_z]
    try simp

theorem decode_spawn (h : Hdr) (x : Spawn) (hw : (accepts .sDst x.d && sbenchOk x.sbench) = true) : decode (encode (.spawn h x)) = .ok (.spawn h x) := by
  simp only [Bool.and_eq_true] at hw
  refine (decode_eq (r := rowSpawn) (f := fF (encode (.spawn h x))) [(17, 2), (26, 7), (33, 7)] (low_opc ..) (by decide) rfl rfl rfl ?_ ?_ ?_ ?_).trans ?_
  · show covers [uD, (40, 56)] _ = true
    decide +kernel
  · simp [rowSpawn, encode, fImm, fD, low_d, low_hdr, low_res, low_a, low_b, opd_eq, chk1, canImm_sDst, hw]
  · simp [rowSpawn]
  · simp [rowSpawn, encode, fImm, fD, low_d, low_hdr, low_res, low_a, low_b, opd_eq, chk1, canImm_sDst, hw]
    simp (disch := decide) only [fld_high, Nat.reduceSub, BitVec.extractLsb'_eq_self, sp_b, sp_r, sp_c, sp_v, sp_e, mv_b, mv_r, mv_z]
    simp [range_none, hw]
  · simp [rowSpawn, encode, fImm, fD, low_d, low_hdr, low_res, low_a, low_b, opd_eq, chk1, canImm_sDst, hw]
    simp (disch := decide) only [fld_high, Nat.reduceSub, BitVec.extractLsb'_eq_self, sp_b, sp_r, sp_c, sp_v, sp_e, mv_b, mv_r, mv_z]
    try simp

theorem decode_move (h : Hdr) (rad : BitVec 6) (b : BitVec 10) (hw : sbenchOk b = true) : decode (encode (.move h rad b)) = .ok (.move h rad b) := by
  refine (decode_eq (r := rowMove) (f := fF (encode (.move h rad b))) [(17, 2), (19, 7), (26, 7), (33, 7), (56, 40)] (low_opc ..) (by decide) rfl rfl rfl ?_ ?_ ?_ ?_).trans ?_
  · show covers [(40, 16)] _ = true
    decide +kernel
  · simp [rowMove, encode, fImm, fD, low_d, low_hdr, low_res, low_a, low_b, opd_eq, chk1, canImm_sDst, hw]
    simp (disch := decide) only [fld_high, Nat.reduceSub, BitVec.extractLsb'_eq_self, sp_b, sp_r, sp_c, sp_v, sp_e, mv_b, mv_r, mv_z]
  · simp [rowMove]
  · simp [rowMove, encode, fImm, fD, low_d, low_hdr, low_res, low_a, low_b, opd_eq, chk1, canImm_sDst, hw]
    simp (disch := decide) only [fld_high, Nat.reduceSub, BitVec.extractLsb'_eq_self, sp_b, sp_r, sp_c, sp_v, sp_e, mv_b, mv_r, mv_z]
    simp [range_none, hw]
  · simp [rowMove, encode, fImm, fD, low_d, low_hdr, low_res, low_a, low_b, opd_eq, chk1, canImm_sDst, hw]
    simp (disch := decide) only [fld_high, Nat.reduceSub, BitVec.extractLsb'_eq_self, sp_b, sp_r, sp_c, sp_v, sp_e, mv_b, mv_r, mv_z]
    try simp

end Sys2Proof.Decode
end

