-- ==== Sys2Proof/Laws/PerInstr.lean ====
section
/-! SUPPORT. Per instruction: the decoder gives back what the encoder wrote (02_encoding), one lemma for each
constructor. A row of an event has no word and is not well formed. -/

namespace Sys2Proof.Laws

/-- The word of a well-formed instruction decodes to it. -/
def RoundTrip.Statement (i : Instr) : Prop := wellFormed i = true → Decode.decode (Decode.encode i) = .ok i

theorem RoundTrip.add (h : Hdr) (x : Alu2) : RoundTrip.Statement (.add h x) := by
  obtain ⟨t, s, d, a, b⟩ := x
  cases b with
  | opd b => exact fun hw => Decode.decode_alu2_opd (by decide) rfl h t s d a b hw
  | imm32 v => exact fun hw => Decode.decode_alu2_imm (by decide) rfl h t s d a v hw
theorem RoundTrip.sub (h : Hdr) (x : Alu2) : RoundTrip.Statement (.sub h x) := by
  obtain ⟨t, s, d, a, b⟩ := x
  cases b with
  | opd b => exact fun hw => Decode.decode_alu2_opd (by decide) rfl h t s d a b hw
  | imm32 v => exact fun hw => Decode.decode_alu2_imm (by decide) rfl h t s d a v hw
theorem RoundTrip.addx (h : Hdr) (x : AluX) : RoundTrip.Statement (.addx h x) := by
  obtain ⟨t, s, p, d, a, b⟩ := x
  cases b with
  | opd b => exact fun hw => Decode.decode_carry_opd (by decide) rfl h t s p d a b hw
  | imm32 v => exact fun hw => Decode.decode_carry_imm (by decide) rfl h t s p d a v hw
theorem RoundTrip.subx (h : Hdr) (x : AluX) : RoundTrip.Statement (.subx h x) := by
  obtain ⟨t, s, p, d, a, b⟩ := x
  cases b with
  | opd b => exact fun hw => Decode.decode_carry_opd (by decide) rfl h t s p d a b hw
  | imm32 v => exact fun hw => Decode.decode_carry_imm (by decide) rfl h t s p d a v hw
theorem RoundTrip.mul (h : Hdr) (x : Alu2) : RoundTrip.Statement (.mul h x) := by
  obtain ⟨t, s, d, a, b⟩ := x
  cases b with
  | opd b => exact fun hw => Decode.decode_alu2_opd (by decide) rfl h t s d a b hw
  | imm32 v => exact fun hw => Decode.decode_alu2_imm (by decide) rfl h t s d a v hw
theorem RoundTrip.mulh (h : Hdr) (x : Alu2) : RoundTrip.Statement (.mulh h x) := by
  obtain ⟨t, s, d, a, b⟩ := x
  cases b with
  | opd b => exact fun hw => Decode.decode_alu2_opd (by decide) rfl h t s d a b hw
  | imm32 v => exact fun hw => Decode.decode_alu2_imm (by decide) rfl h t s d a v hw
theorem RoundTrip.div (h : Hdr) (x : Alu2) : RoundTrip.Statement (.div h x) := by
  obtain ⟨t, s, d, a, b⟩ := x
  cases b with
  | opd b => exact fun hw => Decode.decode_alu2_opd (by decide) rfl h t s d a b hw
  | imm32 v => exact fun hw => Decode.decode_alu2_imm (by decide) rfl h t s d a v hw
theorem RoundTrip.rem (h : Hdr) (x : Alu2) : RoundTrip.Statement (.rem h x) := by
  obtain ⟨t, s, d, a, b⟩ := x
  cases b with
  | opd b => exact fun hw => Decode.decode_alu2_opd (by decide) rfl h t s d a b hw
  | imm32 v => exact fun hw => Decode.decode_alu2_imm (by decide) rfl h t s d a v hw
theorem RoundTrip.and (h : Hdr) (x : Alu2) : RoundTrip.Statement (.and h x) := by
  obtain ⟨t, s, d, a, b⟩ := x
  cases b with
  | opd b => exact fun hw => Decode.decode_alu2_opd (by decide) rfl h t s d a b hw
  | imm32 v => exact fun hw => Decode.decode_alu2_imm (by decide) rfl h t s d a v hw
theorem RoundTrip.or (h : Hdr) (x : Alu2) : RoundTrip.Statement (.or h x) := by
  obtain ⟨t, s, d, a, b⟩ := x
  cases b with
  | opd b => exact fun hw => Decode.decode_alu2_opd (by decide) rfl h t s d a b hw
  | imm32 v => exact fun hw => Decode.decode_alu2_imm (by decide) rfl h t s d a v hw
theorem RoundTrip.xor (h : Hdr) (x : Alu2) : RoundTrip.Statement (.xor h x) := by
  obtain ⟨t, s, d, a, b⟩ := x
  cases b with
  | opd b => exact fun hw => Decode.decode_alu2_opd (by decide) rfl h t s d a b hw
  | imm32 v => exact fun hw => Decode.decode_alu2_imm (by decide) rfl h t s d a v hw
theorem RoundTrip.andn (h : Hdr) (x : Alu2) : RoundTrip.Statement (.andn h x) := by
  obtain ⟨t, s, d, a, b⟩ := x
  cases b with
  | opd b => exact fun hw => Decode.decode_alu2_opd (by decide) rfl h t s d a b hw
  | imm32 v => exact fun hw => Decode.decode_alu2_imm (by decide) rfl h t s d a v hw
theorem RoundTrip.orn (h : Hdr) (x : Alu2) : RoundTrip.Statement (.orn h x) := by
  obtain ⟨t, s, d, a, b⟩ := x
  cases b with
  | opd b => exact fun hw => Decode.decode_alu2_opd (by decide) rfl h t s d a b hw
  | imm32 v => exact fun hw => Decode.decode_alu2_imm (by decide) rfl h t s d a v hw
theorem RoundTrip.shl (h : Hdr) (x : Alu2) : RoundTrip.Statement (.shl h x) := by
  obtain ⟨t, s, d, a, b⟩ := x
  cases b with
  | opd b => exact fun hw => Decode.decode_alu2_opd (by decide) rfl h t s d a b hw
  | imm32 v => exact fun hw => Decode.decode_alu2_imm (by decide) rfl h t s d a v hw
theorem RoundTrip.shr (h : Hdr) (x : Alu2) : RoundTrip.Statement (.shr h x) := by
  obtain ⟨t, s, d, a, b⟩ := x
  cases b with
  | opd b => exact fun hw => Decode.decode_alu2_opd (by decide) rfl h t s d a b hw
  | imm32 v => exact fun hw => Decode.decode_alu2_imm (by decide) rfl h t s d a v hw
theorem RoundTrip.sar (h : Hdr) (x : Alu2) : RoundTrip.Statement (.sar h x) := by
  obtain ⟨t, s, d, a, b⟩ := x
  cases b with
  | opd b => exact fun hw => Decode.decode_alu2_opd (by decide) rfl h t s d a b hw
  | imm32 v => exact fun hw => Decode.decode_alu2_imm (by decide) rfl h t s d a v hw
theorem RoundTrip.rol (h : Hdr) (x : Alu2) : RoundTrip.Statement (.rol h x) := by
  obtain ⟨t, s, d, a, b⟩ := x
  cases b with
  | opd b => exact fun hw => Decode.decode_alu2_opd (by decide) rfl h t s d a b hw
  | imm32 v => exact fun hw => Decode.decode_alu2_imm (by decide) rfl h t s d a v hw
theorem RoundTrip.ror (h : Hdr) (x : Alu2) : RoundTrip.Statement (.ror h x) := by
  obtain ⟨t, s, d, a, b⟩ := x
  cases b with
  | opd b => exact fun hw => Decode.decode_alu2_opd (by decide) rfl h t s d a b hw
  | imm32 v => exact fun hw => Decode.decode_alu2_imm (by decide) rfl h t s d a v hw
theorem RoundTrip.clz (h : Hdr) (x : Alu1) : RoundTrip.Statement (.clz h x) :=
  fun hw => Decode.decode_alu1 (by decide) rfl h x hw
theorem RoundTrip.ctz (h : Hdr) (x : Alu1) : RoundTrip.Statement (.ctz h x) :=
  fun hw => Decode.decode_alu1 (by decide) rfl h x hw
theorem RoundTrip.popc (h : Hdr) (x : Alu1) : RoundTrip.Statement (.popc h x) :=
  fun hw => Decode.decode_alu1 (by decide) rfl h x hw
theorem RoundTrip.brev (h : Hdr) (x : Alu1) : RoundTrip.Statement (.brev h x) :=
  fun hw => Decode.decode_alu1 (by decide) rfl h x hw
theorem RoundTrip.bswap (h : Hdr) (x : Alu1) : RoundTrip.Statement (.bswap h x) :=
  fun hw => Decode.decode_alu1 (by decide) rfl h x hw
theorem RoundTrip.min (h : Hdr) (x : Alu2) : RoundTrip.Statement (.min h x) := by
  obtain ⟨t, s, d, a, b⟩ := x
  cases b with
  | opd b => exact fun hw => Decode.decode_alu2_opd (by decide) rfl h t s d a b hw
  | imm32 v => exact fun hw => Decode.decode_alu2_imm (by decide) rfl h t s d a v hw
theorem RoundTrip.max (h : Hdr) (x : Alu2) : RoundTrip.Statement (.max h x) := by
  obtain ⟨t, s, d, a, b⟩ := x
  cases b with
  | opd b => exact fun hw => Decode.decode_alu2_opd (by decide) rfl h t s d a b hw
  | imm32 v => exact fun hw => Decode.decode_alu2_imm (by decide) rfl h t s d a v hw
theorem RoundTrip.abs (h : Hdr) (x : Alu1) : RoundTrip.Statement (.abs h x) :=
  fun hw => Decode.decode_alu1 (by decide) rfl h x hw
theorem RoundTrip.sext (h : Hdr) (x : Ext) : RoundTrip.Statement (.sext h x) :=
  fun hw => Decode.decode_ext (by decide) rfl h x hw
theorem RoundTrip.zext (h : Hdr) (x : Ext) : RoundTrip.Statement (.zext h x) :=
  fun hw => Decode.decode_ext (by decide) rfl h x hw
theorem RoundTrip.bfx (h : Hdr) (x : Bfx) : RoundTrip.Statement (.bfx h x) :=
  fun hw => Decode.decode_bfx h x hw
theorem RoundTrip.bfi (h : Hdr) (x : Bfi) : RoundTrip.Statement (.bfi h x) :=
  fun hw => Decode.decode_bfi h x hw
theorem RoundTrip.sel (h : Hdr) (x : AluX) : RoundTrip.Statement (.sel h x) := by
  obtain ⟨t, s, p, d, a, b⟩ := x
  cases b with
  | opd b => exact fun hw => Decode.decode_sel_opd h t s p d a b hw
  | imm32 v => exact fun hw => Decode.decode_sel_imm h t s p d a v hw
theorem RoundTrip.mov (h : Hdr) (x : Mov) : RoundTrip.Statement (.mov h x) := by
  obtain ⟨t, s, d, b⟩ := x
  cases b with
  | opd b => exact fun hw => Decode.decode_mov_opd h t s d b hw
  | imm32 v => exact fun hw => Decode.decode_mov_imm h t s d v hw
theorem RoundTrip.li (h : Hdr) (d : Opd) (imm : BitVec 56) : RoundTrip.Statement (.li h d imm) :=
  fun hw => Decode.decode_li h d imm hw
theorem RoundTrip.lea (h : Hdr) (x : MemD) : RoundTrip.Statement (.lea h x) :=
  fun hw => Decode.decode_lea h x hw
theorem RoundTrip.cmp (h : Hdr) (x : Cmp) : RoundTrip.Statement (.cmp h x) := by
  obtain ⟨c, t, s, d, a, b⟩ := x
  cases b with
  | opd b => exact fun hw => Decode.decode_cmp_opd h c t s d a b hw
  | imm32 v => exact fun hw => Decode.decode_cmp_imm h c t s d a v hw
theorem RoundTrip.plog (h : Hdr) (d a b c : BitVec 3) (tt : BitVec 8) : RoundTrip.Statement (.plog h d a b c tt) :=
  fun _ => Decode.decode_plog h d a b c tt trivial
theorem RoundTrip.pmovGet (h : Hdr) (d : Opd) : RoundTrip.Statement (.pmovGet h d) :=
  fun hw => Decode.decode_pmovGet h d hw
theorem RoundTrip.pmovSet (h : Hdr) (a : Opd) (pm : BitVec 7) : RoundTrip.Statement (.pmovSet h a pm) :=
  fun hw => Decode.decode_pmovSet h a pm hw
theorem RoundTrip.br (h : Hdr) (disp : BitVec 32) : RoundTrip.Statement (.br h disp) :=
  fun _ => Decode.decode_b_only (by decide) rfl h disp trivial
theorem RoundTrip.jmp (h : Hdr) (a : Opd) : RoundTrip.Statement (.jmp h a) :=
  fun hw => Decode.decode_a_only (by decide) rfl h a hw
theorem RoundTrip.call (h : Hdr) (disp : BitVec 32) : RoundTrip.Statement (.call h disp) :=
  fun _ => Decode.decode_b_only (by decide) rfl h disp trivial
theorem RoundTrip.callr (h : Hdr) (a : Opd) : RoundTrip.Statement (.callr h a) :=
  fun hw => Decode.decode_a_only (by decide) rfl h a hw
theorem RoundTrip.ret (h : Hdr) : RoundTrip.Statement (.ret h) :=
  fun _ => Decode.decode_none (by decide) rfl h trivial
theorem RoundTrip.dbnz (h : Hdr) (d : Opd) (disp : BitVec 32) : RoundTrip.Statement (.dbnz h d disp) :=
  fun hw => Decode.decode_dbnz h d disp hw
theorem RoundTrip.nop (h : Hdr) : RoundTrip.Statement (.nop h) :=
  fun _ => Decode.decode_none (by decide) rfl h trivial
theorem RoundTrip.fadd (h : Hdr) (x : Flt2) : RoundTrip.Statement (.fadd h x) :=
  fun hw => Decode.decode_flt2 (by decide) rfl h x hw
theorem RoundTrip.fsub (h : Hdr) (x : Flt2) : RoundTrip.Statement (.fsub h x) :=
  fun hw => Decode.decode_flt2 (by decide) rfl h x hw
theorem RoundTrip.fmul (h : Hdr) (x : Flt2) : RoundTrip.Statement (.fmul h x) :=
  fun hw => Decode.decode_flt2 (by decide) rfl h x hw
theorem RoundTrip.fma (h : Hdr) (x : Flt3) : RoundTrip.Statement (.fma h x) :=
  fun hw => Decode.decode_flt3 (by decide) rfl h x hw
theorem RoundTrip.fnma (h : Hdr) (x : Flt3) : RoundTrip.Statement (.fnma h x) :=
  fun hw => Decode.decode_flt3 (by decide) rfl h x hw
theorem RoundTrip.fdiv (h : Hdr) (x : Flt2) : RoundTrip.Statement (.fdiv h x) :=
  fun hw => Decode.decode_flt2 (by decide) rfl h x hw
theorem RoundTrip.fsqrt (h : Hdr) (x : Flt1) : RoundTrip.Statement (.fsqrt h x) :=
  fun hw => Decode.decode_fsqrt h x hw
theorem RoundTrip.fmin (h : Hdr) (x : Vec2) : RoundTrip.Statement (.fmin h x) :=
  fun hw => Decode.decode_fmin (by decide) rfl h x hw
theorem RoundTrip.fmax (h : Hdr) (x : Vec2) : RoundTrip.Statement (.fmax h x) :=
  fun hw => Decode.decode_fmin (by decide) rfl h x hw
theorem RoundTrip.fsgn (h : Hdr) (x : Fsgn) : RoundTrip.Statement (.fsgn h x) :=
  fun hw => Decode.decode_fsgn h x hw
theorem RoundTrip.fcmp (h : Hdr) (x : Fcmp) : RoundTrip.Statement (.fcmp h x) :=
  fun hw => Decode.decode_fcmp h x hw
theorem RoundTrip.fclass (h : Hdr) (x : Alu1) : RoundTrip.Statement (.fclass h x) :=
  fun hw => Decode.decode_fclass h x hw
theorem RoundTrip.fcvt (h : Hdr) (x : Cvt) : RoundTrip.Statement (.fcvt h x) := by
  obtain ⟨t, o, r, p, s, m, d, a⟩ := x
  cases r
  · exact fun hw => Decode.decode_fcvt_false h t o p s m d a hw
  · exact fun hw => Decode.decode_fcvt_true h t o p s m d a hw
theorem RoundTrip.fcvi (h : Hdr) (x : Cvt) : RoundTrip.Statement (.fcvi h x) := by
  obtain ⟨t, o, r, p, s, m, d, a⟩ := x
  cases r
  · exact fun hw => Decode.decode_fcvi_false h t o p s m d a hw
  · exact fun hw => Decode.decode_fcvi_true h t o p s m d a hw
theorem RoundTrip.icvf (h : Hdr) (x : Cvt) : RoundTrip.Statement (.icvf h x) := by
  obtain ⟨t, o, r, p, s, m, d, a⟩ := x
  cases r
  · exact fun hw => Decode.decode_icvf_false h t o p s m d a hw
  · exact fun hw => Decode.decode_icvf_true h t o p s m d a hw
theorem RoundTrip.frnd (h : Hdr) (x : Frnd) : RoundTrip.Statement (.frnd h x) :=
  fun hw => Decode.decode_frnd h x hw
theorem RoundTrip.shuf (h : Hdr) (x : Vec3) : RoundTrip.Statement (.shuf h x) :=
  fun hw => Decode.decode_shuf h x hw
theorem RoundTrip.vext (h : Hdr) (x : Vec2) : RoundTrip.Statement (.vext h x) :=
  fun hw => Decode.decode_vext h x hw
theorem RoundTrip.vins (h : Hdr) (x : Vec2) : RoundTrip.Statement (.vins h x) :=
  fun hw => Decode.decode_vins h x hw
theorem RoundTrip.vbc (h : Hdr) (x : Alu1) : RoundTrip.Statement (.vbc h x) :=
  fun hw => Decode.decode_vbc h x hw
theorem RoundTrip.vred (h : Hdr) (x : Vred) : RoundTrip.Statement (.vred h x) :=
  fun hw => Decode.decode_vred h x hw
theorem RoundTrip.vdot (h : Hdr) (x : Flt3) : RoundTrip.Statement (.vdot h x) :=
  fun hw => Decode.decode_vdot h x hw
theorem RoundTrip.vmskGet (h : Hdr) (x : Alu1) : RoundTrip.Statement (.vmskGet h x) :=
  fun hw => Decode.decode_vmskGet h x hw
theorem RoundTrip.vmskSet (h : Hdr) (x : Alu1) : RoundTrip.Statement (.vmskSet h x) :=
  fun hw => Decode.decode_vmskSet h x hw
theorem RoundTrip.vmskAny (h : Hdr) (x : Alu1) : RoundTrip.Statement (.vmskAny h x) :=
  fun hw => Decode.decode_vmskAny h x hw
theorem RoundTrip.vmskAll (h : Hdr) (x : Alu1) : RoundTrip.Statement (.vmskAll h x) :=
  fun hw => Decode.decode_vmskAll h x hw
theorem RoundTrip.vscan (h : Hdr) (x : Vred) : RoundTrip.Statement (.vscan h x) :=
  fun hw => Decode.decode_vscan h x hw
theorem RoundTrip.ld (h : Hdr) (x : MemAcc) : RoundTrip.Statement (.ld h x) :=
  fun hw => Decode.decode_ldst (by decide) rfl h x Decode.canImm_memDst hw
theorem RoundTrip.st (h : Hdr) (x : MemAcc) : RoundTrip.Statement (.st h x) :=
  fun hw => Decode.decode_ldst (by decide) rfl h x Decode.canImm_memDat hw
theorem RoundTrip.amo (h : Hdr) (x : Amo) : RoundTrip.Statement (.amo h x) :=
  fun hw => Decode.decode_amo h x hw
theorem RoundTrip.cas (h : Hdr) (x : Cas) : RoundTrip.Statement (.cas h x) :=
  fun hw => Decode.decode_cas (by decide) rfl h x hw
theorem RoundTrip.cas2 (h : Hdr) (x : Cas) : RoundTrip.Statement (.cas2 h x) :=
  fun hw => Decode.decode_cas (by decide) rfl h x hw
theorem RoundTrip.fence (h : Hdr) (ord : Ord) (scp : Scope) : RoundTrip.Statement (.fence h ord scp) :=
  fun hw => Decode.decode_fence h ord scp hw
theorem RoundTrip.lde (h : Hdr) (x : MemD) : RoundTrip.Statement (.lde h x) :=
  fun hw => Decode.decode_sync (by decide) rfl h x Decode.canImm_mDst hw
theorem RoundTrip.ldc (h : Hdr) (x : MemD) : RoundTrip.Statement (.ldc h x) :=
  fun hw => Decode.decode_sync (by decide) rfl h x Decode.canImm_mDst hw
theorem RoundTrip.stf (h : Hdr) (x : MemD) : RoundTrip.Statement (.stf h x) :=
  fun hw => Decode.decode_sync (by decide) rfl h x Decode.canImm_mDat hw
theorem RoundTrip.sts (h : Hdr) (x : MemD) : RoundTrip.Statement (.sts h x) :=
  fun hw => Decode.decode_sync (by decide) rfl h x Decode.canImm_mDat hw
theorem RoundTrip.sfe (h : Hdr) (mem : MemOp) : RoundTrip.Statement (.sfe h mem) :=
  fun hw => Decode.decode_sfe h mem hw
theorem RoundTrip.qfe (h : Hdr) (x : MemD) : RoundTrip.Statement (.qfe h x) :=
  fun hw => Decode.decode_sync (by decide) rfl h x Decode.canImm_mDst hw
theorem RoundTrip.hold (h : Hdr) (x : MemT) : RoundTrip.Statement (.hold h x) :=
  fun hw => Decode.decode_memT (by decide) rfl h x Decode.canImm_memDst hw
theorem RoundTrip.hst (h : Hdr) (x : Hst) : RoundTrip.Statement (.hst h x) :=
  fun hw => Decode.decode_hst h x hw
theorem RoundTrip.hrel (h : Hdr) (x : MemO) : RoundTrip.Statement (.hrel h x) :=
  fun hw => Decode.decode_hrel h x hw
theorem RoundTrip.addd (h : Hdr) (x : Addd) : RoundTrip.Statement (.addd h x) :=
  fun hw => Decode.decode_addd h x hw
theorem RoundTrip.cflush (h : Hdr) (x : MemO) : RoundTrip.Statement (.cflush h x) :=
  fun hw => Decode.decode_cflush h x hw
theorem RoundTrip.talloc (h : Hdr) (fmt : BitVec 6) (d a : Opd) : RoundTrip.Statement (.talloc h fmt d a) :=
  fun hw => Decode.decode_talloc h fmt d a hw
theorem RoundTrip.tfree (h : Hdr) (a : Opd) : RoundTrip.Statement (.tfree h a) :=
  fun hw => Decode.decode_a_only (by decide) rfl h a hw
theorem RoundTrip.tpin (h : Hdr) (px : BitVec 3) (a : Opd) (mask : BitVec 8) : RoundTrip.Statement (.tpin h px a mask) :=
  fun hw => Decode.decode_tpin h px a mask hw
theorem RoundTrip.tunpin (h : Hdr) (a : Opd) (mask : BitVec 8) : RoundTrip.Statement (.tunpin h a mask) :=
  fun hw => Decode.decode_tunpin h a mask hw
theorem RoundTrip.tlde (h : Hdr) (x : MemT) : RoundTrip.Statement (.tlde h x) :=
  fun hw => Decode.decode_memT (by decide) rfl h x Decode.canImm_memDst hw
theorem RoundTrip.tste (h : Hdr) (x : MemT) : RoundTrip.Statement (.tste h x) :=
  fun hw => Decode.decode_memT (by decide) rfl h x Decode.canImm_memDat hw
theorem RoundTrip.tinfo (h : Hdr) (n : BitVec 2) (d a : Opd) : RoundTrip.Statement (.tinfo h n d a) :=
  fun hw => Decode.decode_tinfo h n d a hw
theorem RoundTrip.mldw (h : Hdr) (x : Mtx) : RoundTrip.Statement (.mldw h x) :=
  fun hw => Decode.decode_mldw h x hw
theorem RoundTrip.mma (h : Hdr) (x : Mtx) : RoundTrip.Statement (.mma h x) :=
  fun hw => Decode.decode_mma h x hw
theorem RoundTrip.macc (h : Hdr) (rm : Option RMode) (x : Mtx) : RoundTrip.Statement (.macc h rm x) :=
  fun hw => Decode.decode_macc h rm x hw
theorem RoundTrip.mcvt (h : Hdr) (x : Mtx) : RoundTrip.Statement (.mcvt h x) :=
  fun hw => Decode.decode_mcvt h x hw
theorem RoundTrip.mqry (h : Hdr) (sel : BitVec 3) (d : Opd) : RoundTrip.Statement (.mqry h sel d) :=
  fun hw => Decode.decode_mqry h sel d hw
theorem RoundTrip.sint (h : Hdr) (x : Strm) : RoundTrip.Statement (.sint h x) :=
  fun hw => Decode.decode_strm (by decide) rfl h x hw
theorem RoundTrip.sintc (h : Hdr) (x : Strm) : RoundTrip.Statement (.sintc h x) :=
  fun hw => Decode.decode_sintc h x hw
theorem RoundTrip.smrg (h : Hdr) (x : Strm) : RoundTrip.Statement (.smrg h x) :=
  fun hw => Decode.decode_strm (by decide) rfl h x hw
theorem RoundTrip.sdiff (h : Hdr) (x : Strm) : RoundTrip.Statement (.sdiff h x) :=
  fun hw => Decode.decode_strm (by decide) rfl h x hw
theorem RoundTrip.sgath (h : Hdr) (x : Strm) : RoundTrip.Statement (.sgath h x) :=
  fun hw => Decode.decode_strm (by decide) rfl h x hw
theorem RoundTrip.sscat (h : Hdr) (x : Strm) : RoundTrip.Statement (.sscat h x) :=
  fun hw => Decode.decode_strm (by decide) rfl h x hw
theorem RoundTrip.scmp (h : Hdr) (nz : Bool) (x : Strm) : RoundTrip.Statement (.scmp h nz x) :=
  fun hw => Decode.decode_scmp h nz x hw
theorem RoundTrip.cld (h : Hdr) (x : Vol) : RoundTrip.Statement (.cld h x) :=
  fun hw => Decode.decode_vol (by decide) rfl h x Decode.canImm_memDst hw
theorem RoundTrip.cst (h : Hdr) (x : Vol) : RoundTrip.Statement (.cst h x) :=
  fun hw => Decode.decode_vol (by decide) rfl h x Decode.canImm_memDat hw
theorem RoundTrip.camo (h : Hdr) (x : Camo) : RoundTrip.Statement (.camo h x) :=
  fun hw => Decode.decode_camo h x hw
theorem RoundTrip.cprb (h : Hdr) (d base : Opd) (disp : BitVec 32) (b : Opd) : RoundTrip.Statement (.cprb h d base disp b) :=
  fun hw => Decode.decode_cprb h d base disp b hw
theorem RoundTrip.clbinv (h : Hdr) (scp : Scope) (d base : Opd) (disp : BitVec 32) (b : Opd) : RoundTrip.Statement (.clbinv h scp d base disp b) :=
  fun hw => Decode.decode_clbinv h scp d base disp b hw
theorem RoundTrip.qpop (h : Hdr) (d base : Opd) (disp : BitVec 32) : RoundTrip.Statement (.qpop h d base disp) :=
  fun hw => Decode.decode_qpop h d base disp hw
theorem RoundTrip.qpsh (h : Hdr) (d base : Opd) (disp : BitVec 32) : RoundTrip.Statement (.qpsh h d base disp) :=
  fun hw => Decode.decode_qpsh h d base disp hw
theorem RoundTrip.cpy (h : Hdr) (x : Cpy) : RoundTrip.Statement (.cpy h x) :=
  fun hw => Decode.decode_cpy h x hw
theorem RoundTrip.cred (h : Hdr) (x : Cpy) : RoundTrip.Statement (.cred h x) :=
  fun hw => Decode.decode_cred h x hw
theorem RoundTrip.xcpy (h : Hdr) (x : Cpy) : RoundTrip.Statement (.xcpy h x) :=
  fun hw => Decode.decode_xcpy h x hw
theorem RoundTrip.xred (h : Hdr) (x : Cpy) : RoundTrip.Statement (.xred h x) :=
  fun hw => Decode.decode_xred h x hw
theorem RoundTrip.rfence (h : Hdr) (scp : Scope) (base : Opd) (disp : BitVec 32) : RoundTrip.Statement (.rfence h scp base disp) :=
  fun hw => Decode.decode_rfence h scp base disp hw
theorem RoundTrip.spawn (h : Hdr) (x : Spawn) : RoundTrip.Statement (.spawn h x) :=
  fun hw => Decode.decode_spawn h x hw
theorem RoundTrip.exit (h : Hdr) : RoundTrip.Statement (.exit h) :=
  fun _ => Decode.decode_none (by decide) rfl h trivial
theorem RoundTrip.yield (h : Hdr) : RoundTrip.Statement (.yield h) :=
  fun _ => Decode.decode_none (by decide) rfl h trivial
theorem RoundTrip.bar (h : Hdr) (d a : Opd) (idx : BitVec 32) : RoundTrip.Statement (.bar h d a idx) :=
  fun hw => Decode.decode_bar h d a idx hw
theorem RoundTrip.whereIu (h : Hdr) (d : Opd) : RoundTrip.Statement (.whereIu h d) :=
  fun hw => Decode.decode_d_only (by decide) rfl h d hw
theorem RoundTrip.move (h : Hdr) (rad : BitVec 6) (sbench : BitVec 10) : RoundTrip.Statement (.move h rad sbench) :=
  fun hw => Decode.decode_move h rad sbench hw
theorem RoundTrip.sys (h : Hdr) (a : Opd) (code : BitVec 24) : RoundTrip.Statement (.sys h a code) :=
  fun hw => Decode.decode_sys (by decide) rfl h a code hw
theorem RoundTrip.trap (h : Hdr) (a : Opd) (code : BitVec 24) : RoundTrip.Statement (.trap h a code) :=
  fun hw => Decode.decode_sys (by decide) rfl h a code hw
theorem RoundTrip.brk (h : Hdr) (code : BitVec 24) : RoundTrip.Statement (.brk h code) :=
  fun _ => Decode.decode_brk h code trivial
theorem RoundTrip.eret (h : Hdr) : RoundTrip.Statement (.eret h) :=
  fun _ => Decode.decode_none (by decide) rfl h trivial
theorem RoundTrip.csrr (h : Hdr) (d : Opd) (csr : BitVec 12) : RoundTrip.Statement (.csrr h d csr) :=
  fun hw => Decode.decode_csrr h d csr hw
theorem RoundTrip.csrw (h : Hdr) (a : Opd) (csr : BitVec 12) : RoundTrip.Statement (.csrw h a csr) :=
  fun hw => Decode.decode_csrw h a csr hw
theorem RoundTrip.ctxr (h : Hdr) (d a : Opd) (word : BitVec 5) : RoundTrip.Statement (.ctxr h d a word) :=
  fun hw => Decode.decode_ctxr h d a word hw
theorem RoundTrip.ctxw (h : Hdr) (a b : Opd) (word : BitVec 5) : RoundTrip.Statement (.ctxw h a b word) :=
  fun hw => Decode.decode_ctxw h a b word hw
theorem RoundTrip.instructionFetch (b u : Nat) : RoundTrip.Statement (.instructionFetch b u) :=
  fun hw => absurd hw Bool.false_ne_true
theorem RoundTrip.instructionReissue (k : Key) : RoundTrip.Statement (.instructionReissue k) :=
  fun hw => absurd hw Bool.false_ne_true
theorem RoundTrip.deliverResult (r : Nat) : RoundTrip.Statement (.deliverResult r) :=
  fun hw => absurd hw Bool.false_ne_true
theorem RoundTrip.storePerform (r : Nat) : RoundTrip.Statement (.storePerform r) :=
  fun hw => absurd hw Bool.false_ne_true
theorem RoundTrip.faultMessage (b : Nat) (asid : BitVec 16) (page : Nat) : RoundTrip.Statement (.faultMessage b asid page) :=
  fun hw => absurd hw Bool.false_ne_true
theorem RoundTrip.wake (asid : BitVec 16) (page : Nat) (status : BitVec 5) (maps : List (Nat × Word)) : RoundTrip.Statement (.wake asid page status maps) :=
  fun hw => absurd hw Bool.false_ne_true
theorem RoundTrip.retryRecordReplay (k : Key) (i : BitVec 2) : RoundTrip.Statement (.retryRecordReplay k i) :=
  fun hw => absurd hw Bool.false_ne_true
theorem RoundTrip.sideLogReplay (r : Nat) : RoundTrip.Statement (.sideLogReplay r) :=
  fun hw => absurd hw Bool.false_ne_true
theorem RoundTrip.trapEntry (k : Key) : RoundTrip.Statement (.trapEntry k) :=
  fun hw => absurd hw Bool.false_ne_true
theorem RoundTrip.holdGrant (r : Nat) : RoundTrip.Statement (.holdGrant r) :=
  fun hw => absurd hw Bool.false_ne_true
theorem RoundTrip.holdExpiry (b u slot : Nat) : RoundTrip.Statement (.holdExpiry b u slot) :=
  fun hw => absurd hw Bool.false_ne_true
theorem RoundTrip.syncAccessArrival (r : Nat) : RoundTrip.Statement (.syncAccessArrival r) :=
  fun hw => absurd hw Bool.false_ne_true
theorem RoundTrip.syncRetryResend (r : Nat) : RoundTrip.Statement (.syncRetryResend r) :=
  fun hw => absurd hw Bool.false_ne_true
theorem RoundTrip.barStep (r : Nat) : RoundTrip.Statement (.barStep r) :=
  fun hw => absurd hw Bool.false_ne_true
theorem RoundTrip.directoryRegionMerge (base size : Nat) : RoundTrip.Statement (.directoryRegionMerge base size) :=
  fun hw => absurd hw Bool.false_ne_true
theorem RoundTrip.mldwExecute (c : Nat) : RoundTrip.Statement (.mldwExecute c) :=
  fun hw => absurd hw Bool.false_ne_true
theorem RoundTrip.mmaExecute (c : Nat) : RoundTrip.Statement (.mmaExecute c) :=
  fun hw => absurd hw Bool.false_ne_true
theorem RoundTrip.maccExecute (c : Nat) : RoundTrip.Statement (.maccExecute c) :=
  fun hw => absurd hw Bool.false_ne_true
theorem RoundTrip.mcvtExecute (c : Nat) : RoundTrip.Statement (.mcvtExecute c) :=
  fun hw => absurd hw Bool.false_ne_true
theorem RoundTrip.cpyExecute (c : Nat) : RoundTrip.Statement (.cpyExecute c) :=
  fun hw => absurd hw Bool.false_ne_true
theorem RoundTrip.credExecute (c : Nat) : RoundTrip.Statement (.credExecute c) :=
  fun hw => absurd hw Bool.false_ne_true
theorem RoundTrip.xcpyExecute (c : Nat) (ans : PeerAnswer) : RoundTrip.Statement (.xcpyExecute c ans) :=
  fun hw => absurd hw Bool.false_ne_true
theorem RoundTrip.xredExecute (c : Nat) (ans : PeerAnswer) : RoundTrip.Statement (.xredExecute c ans) :=
  fun hw => absurd hw Bool.false_ne_true
theorem RoundTrip.streamExecute (r n : Nat) : RoundTrip.Statement (.streamExecute r n) :=
  fun hw => absurd hw Bool.false_ne_true
theorem RoundTrip.engineRestPoint (b g : Nat) : RoundTrip.Statement (.engineRestPoint b g) :=
  fun hw => absurd hw Bool.false_ne_true
theorem RoundTrip.engineIdleGate (b g : Nat) : RoundTrip.Statement (.engineIdleGate b g) :=
  fun hw => absurd hw Bool.false_ne_true
theorem RoundTrip.tileFrameRefill (asid : BitVec 16) (idx frame : Nat) : RoundTrip.Statement (.tileFrameRefill asid idx frame) :=
  fun hw => absurd hw Bool.false_ne_true
theorem RoundTrip.tileFrameWriteback (asid : BitVec 16) (idx frame : Nat) : RoundTrip.Statement (.tileFrameWriteback asid idx frame) :=
  fun hw => absurd hw Bool.false_ne_true
theorem RoundTrip.scratchpadBankWake (b u bank : Nat) : RoundTrip.Statement (.scratchpadBankWake b u bank) :=
  fun hw => absurd hw Bool.false_ne_true
theorem RoundTrip.linePull (b u : Nat) : RoundTrip.Statement (.linePull b u) :=
  fun hw => absurd hw Bool.false_ne_true
theorem RoundTrip.lineTransferArrival (k : Key) : RoundTrip.Statement (.lineTransferArrival k) :=
  fun hw => absurd hw Bool.false_ne_true
theorem RoundTrip.readyListAgeing (k : Key) : RoundTrip.Statement (.readyListAgeing k) :=
  fun hw => absurd hw Bool.false_ne_true
theorem RoundTrip.readyListSwap (b : Nat) : RoundTrip.Statement (.readyListSwap b) :=
  fun hw => absurd hw Bool.false_ne_true
theorem RoundTrip.firmwareRebalance (k : Key) (b : Nat) : RoundTrip.Statement (.firmwareRebalance k b) :=
  fun hw => absurd hw Bool.false_ne_true
theorem RoundTrip.addressSpaceSuspend (asid : BitVec 16) : RoundTrip.Statement (.addressSpaceSuspend asid) :=
  fun hw => absurd hw Bool.false_ne_true
theorem RoundTrip.addressSpaceResume (asid : BitVec 16) : RoundTrip.Statement (.addressSpaceResume asid) :=
  fun hw => absurd hw Bool.false_ne_true
theorem RoundTrip.tlbShootdown (asid : BitVec 16) (lo hi : Nat) (maps : List (Nat × Word)) : RoundTrip.Statement (.tlbShootdown asid lo hi maps) :=
  fun hw => absurd hw Bool.false_ne_true
theorem RoundTrip.asidRetireDiscard (asid : BitVec 16) : RoundTrip.Statement (.asidRetireDiscard asid) :=
  fun hw => absurd hw Bool.false_ne_true
theorem RoundTrip.iucfgWrite (b u : Nat) (v : Word) : RoundTrip.Statement (.iucfgWrite b u v) :=
  fun hw => absurd hw Bool.false_ne_true
theorem RoundTrip.registerWrite (r : RegName) (v : Word) : RoundTrip.Statement (.registerWrite r v) :=
  fun hw => absurd hw Bool.false_ne_true
theorem RoundTrip.snpInv (line : Nat) : RoundTrip.Statement (.snpInv line) :=
  fun hw => absurd hw Bool.false_ne_true
theorem RoundTrip.snpData (line : Nat) : RoundTrip.Statement (.snpData line) :=
  fun hw => absurd hw Bool.false_ne_true
theorem RoundTrip.snpCur (line : Nat) : RoundTrip.Statement (.snpCur line) :=
  fun hw => absurd hw Bool.false_ne_true
theorem RoundTrip.memRd (pa : Nat) (snp : SnpType) : RoundTrip.Statement (.memRd pa snp) :=
  fun hw => absurd hw Bool.false_ne_true
theorem RoundTrip.memRdData (pa : Nat) : RoundTrip.Statement (.memRdData pa) :=
  fun hw => absurd hw Bool.false_ne_true
theorem RoundTrip.memInv (pa : Nat) : RoundTrip.Statement (.memInv pa) :=
  fun hw => absurd hw Bool.false_ne_true
theorem RoundTrip.memInvNt (pa : Nat) : RoundTrip.Statement (.memInvNt pa) :=
  fun hw => absurd hw Bool.false_ne_true
theorem RoundTrip.memWr (pa : Nat) (data : BitVec 512) : RoundTrip.Statement (.memWr pa data) :=
  fun hw => absurd hw Bool.false_ne_true
theorem RoundTrip.memWrPtl (pa : Nat) (data : BitVec 512) (mask : BitVec 64) : RoundTrip.Statement (.memWrPtl pa data mask) :=
  fun hw => absurd hw Bool.false_ne_true
theorem RoundTrip.memSpecRd (pa : Nat) : RoundTrip.Statement (.memSpecRd pa) :=
  fun hw => absurd hw Bool.false_ne_true
theorem RoundTrip.birspS (line : Nat) (data : Option (BitVec 1024)) : RoundTrip.Statement (.birspS line data) :=
  fun hw => absurd hw Bool.false_ne_true
theorem RoundTrip.birspI (line : Nat) (data : Option (BitVec 1024)) : RoundTrip.Statement (.birspI line data) :=
  fun hw => absurd hw Bool.false_ne_true
theorem RoundTrip.biconflict (line : Nat) : RoundTrip.Statement (.biconflict line) :=
  fun hw => absurd hw Bool.false_ne_true
theorem RoundTrip.inboundAtomicop (op : PcieOp) (n pa : Nat) (v cmp : Vec) : RoundTrip.Statement (.inboundAtomicop op n pa v cmp) :=
  fun hw => absurd hw Bool.false_ne_true
theorem RoundTrip.atomicopCompletion (r : Nat) (ok : Bool) (old : Vec) : RoundTrip.Statement (.atomicopCompletion r ok old) :=
  fun hw => absurd hw Bool.false_ne_true
theorem RoundTrip.inboundLinkAccess (x : LinkAccess) : RoundTrip.Statement (.inboundLinkAccess x) :=
  fun hw => absurd hw Bool.false_ne_true
theorem RoundTrip.linkRefusal (r : Nat) : RoundTrip.Statement (.linkRefusal r) :=
  fun hw => absurd hw Bool.false_ne_true
theorem RoundTrip.linkPortDrop (port : Nat) : RoundTrip.Statement (.linkPortDrop port) :=
  fun hw => absurd hw Bool.false_ne_true
theorem RoundTrip.linkDownTimeout (c : Nat) : RoundTrip.Statement (.linkDownTimeout c) :=
  fun hw => absurd hw Bool.false_ne_true
theorem RoundTrip.llcContextPartitionResize (steps : Nat) : RoundTrip.Statement (.llcContextPartitionResize steps) :=
  fun hw => absurd hw Bool.false_ne_true
theorem RoundTrip.cacheWayGate (lvl : CacheLevel) (way : Nat) (off : Bool) : RoundTrip.Statement (.cacheWayGate lvl way off) :=
  fun hw => absurd hw Bool.false_ne_true
theorem RoundTrip.doorbellKick (fn off width : Nat) (v : Vec) : RoundTrip.Statement (.doorbellKick fn off width v) :=
  fun hw => absurd hw Bool.false_ne_true
theorem RoundTrip.qslotsWrite (fn v : Nat) : RoundTrip.Statement (.qslotsWrite fn v) :=
  fun hw => absurd hw Bool.false_ne_true
theorem RoundTrip.queueCreate (fn qid : Nat) (x : QueueNew) : RoundTrip.Statement (.queueCreate fn qid x) :=
  fun hw => absurd hw Bool.false_ne_true
theorem RoundTrip.queueDestroy (fn qid : Nat) : RoundTrip.Statement (.queueDestroy fn qid) :=
  fun hw => absurd hw Bool.false_ne_true
theorem RoundTrip.queueSlotEvaluate (fn : Nat) : RoundTrip.Statement (.queueSlotEvaluate fn) :=
  fun hw => absurd hw Bool.false_ne_true
theorem RoundTrip.launch (fn qid : Nat) : RoundTrip.Statement (.launch fn qid) :=
  fun hw => absurd hw Bool.false_ne_true
theorem RoundTrip.launchCrewPlace (die fn qid : Nat) : RoundTrip.Statement (.launchCrewPlace die fn qid) :=
  fun hw => absurd hw Bool.false_ne_true
theorem RoundTrip.launchComplete (slot : Nat) : RoundTrip.Statement (.launchComplete slot) :=
  fun hw => absurd hw Bool.false_ne_true
theorem RoundTrip.copy (fn qid : Nat) : RoundTrip.Statement (.copy fn qid) :=
  fun hw => absurd hw Bool.false_ne_true
theorem RoundTrip.wait (fn qid : Nat) : RoundTrip.Statement (.wait fn qid) :=
  fun hw => absurd hw Bool.false_ne_true
theorem RoundTrip.waitReread (fn qid : Nat) : RoundTrip.Statement (.waitReread fn qid) :=
  fun hw => absurd hw Bool.false_ne_true
theorem RoundTrip.signal (fn qid : Nat) : RoundTrip.Statement (.signal fn qid) :=
  fun hw => absurd hw Bool.false_ne_true
theorem RoundTrip.barrier (fn qid : Nat) : RoundTrip.Statement (.barrier fn qid) :=
  fun hw => absurd hw Bool.false_ne_true
theorem RoundTrip.dependenceResolve (fn qid : Nat) : RoundTrip.Statement (.dependenceResolve fn qid) :=
  fun hw => absurd hw Bool.false_ne_true
theorem RoundTrip.queueFreeze (fn qid : Nat) : RoundTrip.Statement (.queueFreeze fn qid) :=
  fun hw => absurd hw Bool.false_ne_true
theorem RoundTrip.queueHangTimeout (fn qid : Nat) : RoundTrip.Statement (.queueHangTimeout fn qid) :=
  fun hw => absurd hw Bool.false_ne_true
theorem RoundTrip.threadCancel (k : Key) : RoundTrip.Statement (.threadCancel k) :=
  fun hw => absurd hw Bool.false_ne_true
theorem RoundTrip.timeSliceExpiry (fn : Nat) : RoundTrip.Statement (.timeSliceExpiry fn) :=
  fun hw => absurd hw Bool.false_ne_true
theorem RoundTrip.setHaltRequest (set : BitVec 6) : RoundTrip.Statement (.setHaltRequest set) :=
  fun hw => absurd hw Bool.false_ne_true
theorem RoundTrip.setRelease (set : BitVec 6) : RoundTrip.Statement (.setRelease set) :=
  fun hw => absurd hw Bool.false_ne_true
theorem RoundTrip.powerModeChange (m : PowerMode) : RoundTrip.Statement (.powerModeChange m) :=
  fun hw => absurd hw Bool.false_ne_true
theorem RoundTrip.clockStepDown  : RoundTrip.Statement (.clockStepDown) :=
  fun hw => absurd hw Bool.false_ne_true
theorem RoundTrip.clockStepUp  : RoundTrip.Statement (.clockStepUp) :=
  fun hw => absurd hw Bool.false_ne_true
theorem RoundTrip.thermalThrottle  : RoundTrip.Statement (.thermalThrottle) :=
  fun hw => absurd hw Bool.false_ne_true
theorem RoundTrip.thermalTrip  : RoundTrip.Statement (.thermalTrip) :=
  fun hw => absurd hw Bool.false_ne_true
theorem RoundTrip.computeDieReset (d : Nat) : RoundTrip.Statement (.computeDieReset d) :=
  fun hw => absurd hw Bool.false_ne_true
theorem RoundTrip.moduleFatal (cause : Nat) : RoundTrip.Statement (.moduleFatal cause) :=
  fun hw => absurd hw Bool.false_ne_true
theorem RoundTrip.powerOnReset  : RoundTrip.Statement (.powerOnReset) :=
  fun hw => absurd hw Bool.false_ne_true
theorem RoundTrip.patrolScrub : RoundTrip.Statement .patrolScrub :=
  fun hw => absurd hw Bool.false_ne_true
theorem RoundTrip.linkFlitReplay (socket : Nat) : RoundTrip.Statement (.linkFlitReplay socket) :=
  fun hw => absurd hw Bool.false_ne_true
theorem RoundTrip.recoveryImageLoad (ok : Bool) : RoundTrip.Statement (.recoveryImageLoad ok) :=
  fun hw => absurd hw Bool.false_ne_true
theorem RoundTrip.mctpManagementMessage (m : MctpMsg) : RoundTrip.Statement (.mctpManagementMessage m) :=
  fun hw => absurd hw Bool.false_ne_true
theorem RoundTrip.firmwareContextWrite (k : Key) (word : BitVec 5) (v : Word) : RoundTrip.Statement (.firmwareContextWrite k word v) :=
  fun hw => absurd hw Bool.false_ne_true
theorem RoundTrip.firmwareServiceThreadCreate (asid : BitVec 16) (x : ServiceNew) : RoundTrip.Statement (.firmwareServiceThreadCreate asid x) :=
  fun hw => absurd hw Bool.false_ne_true
theorem RoundTrip.addressSpaceCreate (x : SpaceNew) : RoundTrip.Statement (.addressSpaceCreate x) :=
  fun hw => absurd hw Bool.false_ne_true
theorem RoundTrip.scratchpadBankPowerDown (b u bank : Nat) : RoundTrip.Statement (.scratchpadBankPowerDown b u bank) :=
  fun hw => absurd hw Bool.false_ne_true
theorem RoundTrip.computeDieResetComplete (d : Nat) : RoundTrip.Statement (.computeDieResetComplete d) :=
  fun hw => absurd hw Bool.false_ne_true
theorem RoundTrip.linkPortUp (port : Nat) : RoundTrip.Statement (.linkPortUp port) :=
  fun hw => absurd hw Bool.false_ne_true
theorem RoundTrip.hostMemoryCompletion (r : Nat) (line : Option (BitVec 1024)) : RoundTrip.Statement (.hostMemoryCompletion r line) :=
  fun hw => absurd hw Bool.false_ne_true
theorem RoundTrip.peerAcknowledgement (r : Nat) (v : BitVec 1024) : RoundTrip.Statement (.peerAcknowledgement r v) :=
  fun hw => absurd hw Bool.false_ne_true
theorem RoundTrip.inboundWindowTableWrite (n : Nat) (w0 w1 w2 : Word) : RoundTrip.Statement (.inboundWindowTableWrite n w0 w1 w2) :=
  fun hw => absurd hw Bool.false_ne_true
theorem RoundTrip.configurationRequest  : RoundTrip.Statement (.configurationRequest) :=
  fun hw => absurd hw Bool.false_ne_true
theorem RoundTrip.exclusiveModeSelect (on : Bool) (sliceMs : Nat) : RoundTrip.Statement (.exclusiveModeSelect on sliceMs) :=
  fun hw => absurd hw Bool.false_ne_true
theorem RoundTrip.getVersion  : RoundTrip.Statement (.getVersion) :=
  fun hw => absurd hw Bool.false_ne_true
theorem RoundTrip.getCapabilities  : RoundTrip.Statement (.getCapabilities) :=
  fun hw => absurd hw Bool.false_ne_true
theorem RoundTrip.negotiateAlgorithms (p384 sha384 : Bool) : RoundTrip.Statement (.negotiateAlgorithms p384 sha384) :=
  fun hw => absurd hw Bool.false_ne_true
theorem RoundTrip.getDigests  : RoundTrip.Statement (.getDigests) :=
  fun hw => absurd hw Bool.false_ne_true
theorem RoundTrip.getCertificate (slot : Nat) : RoundTrip.Statement (.getCertificate slot) :=
  fun hw => absurd hw Bool.false_ne_true
theorem RoundTrip.challenge (slot : Nat) : RoundTrip.Statement (.challenge slot) :=
  fun hw => absurd hw Bool.false_ne_true
theorem RoundTrip.getMeasurements (idx : Nat) : RoundTrip.Statement (.getMeasurements idx) :=
  fun hw => absurd hw Bool.false_ne_true
theorem RoundTrip.keyExchange  : RoundTrip.Statement (.keyExchange) :=
  fun hw => absurd hw Bool.false_ne_true
theorem RoundTrip.finish  : RoundTrip.Statement (.finish) :=
  fun hw => absurd hw Bool.false_ne_true
theorem RoundTrip.endSession  : RoundTrip.Statement (.endSession) :=
  fun hw => absurd hw Bool.false_ne_true

end Sys2Proof.Laws
end

