-- ==== Sys2Proof/Laws/Perform.lean ====
section
/-! SUPPORT. Performing an access: what the caches and the directory change, and how a result lands. -/

namespace Sys2Proof.Machine
open Sys2Proof.Forms

/-- What the caches do among themselves leaves everything but caches, memory, the count of free values and what the host is told; with
no D copy to merge, memory stays too. -/
structure CacheWork (s s' : State) : Prop where
  threads : s'.threads = s.threads
  spaces : s'.spaces = s.spaces
  mmu : s'.mmu = s.mmu
  flight : s'.flight = s.flight
  ius : s'.ius = s.ius
  eng : s'.eng = s.eng
  queues : s'.queues = s.queues
  pkg : s'.pkg = s.pkg
  mem : s.cache.dsums = [] → s'.mem = s.mem ∧ s'.cache.dsums = []

theorem CacheWork.refl (s : State) : CacheWork s s := ⟨rfl, rfl, rfl, rfl, rfl, rfl, rfl, rfl, fun h => ⟨rfl, h⟩⟩

theorem CacheWork.trans {a b c : State} (h : CacheWork a b) (g : CacheWork b c) : CacheWork a c :=
  ⟨g.1.trans h.1, g.2.trans h.2, g.3.trans h.3, g.4.trans h.4, g.5.trans h.5, g.6.trans h.6, g.7.trans h.7, g.8.trans h.8,
    fun hd => have ⟨m, d⟩ := h.mem hd; have ⟨m2, d2⟩ := g.mem d; ⟨m2.trans m, d2⟩⟩

theorem cacheWork_foldl {α : Type} (f : State → α → State) (h : ∀ s x, CacheWork s (f s x)) (l : List α) (s : State) :
    CacheWork s (l.foldl f s) := by
  induction l generalizing s with
  | nil => exact .refl s
  | cons x l ih => exact (h s x).trans (ih _)

theorem cacheWork_fresh (s : State) (n : Nat) : CacheWork s { s with run := { s.run with fresh := n } } :=
  ⟨rfl, rfl, rfl, rfl, rfl, rfl, rfl, rfl, fun h => ⟨rfl, h⟩⟩

theorem cacheWork_l1Drop (s : State) (b : Option Nat) (p : Phys) : CacheWork s (l1Drop s b p) :=
  ⟨rfl, rfl, rfl, rfl, rfl, rfl, rfl, rfl, fun h => ⟨rfl, h⟩⟩

theorem cacheWork_l2Drop (s : State) (b : Nat) (p : Phys) : CacheWork s (l2Drop s b p) :=
  ⟨rfl, rfl, rfl, rfl, rfl, rfl, rfl, rfl, fun h => ⟨rfl, h⟩⟩

theorem cacheWork_l2Set (s : State) (b : Nat) (p : Phys) (x : L2State) : CacheWork s (l2Set s b p x) :=
  ⟨rfl, rfl, rfl, rfl, rfl, rfl, rfl, rfl, fun h => ⟨rfl, h⟩⟩

theorem cacheWork_l2Share (s : State) (b : Nat) (p : Phys) : CacheWork s (l2Share s b p) :=
  ⟨rfl, rfl, rfl, rfl, rfl, rfl, rfl, rfl, fun h => ⟨rfl, h⟩⟩

theorem cacheWork_dirPut (s : State) (a : Nat) : CacheWork s (dirPut s a) :=
  ⟨rfl, rfl, rfl, rfl, rfl, rfl, rfl, rfl, fun h => ⟨rfl, h⟩⟩

theorem cacheWork_emit (s : State) (o : Out) : CacheWork s (emit s o) :=
  ⟨rfl, rfl, rfl, rfl, rfl, rfl, rfl, rfl, fun h => ⟨rfl, h⟩⟩

theorem cacheWork_l2DropOthers (s : State) (b : Option Nat) (p : Phys) : CacheWork s (l2DropOthers s b p) :=
  cacheWork_foldl _ (fun s x => cacheWork_l2Drop s x p) _ s

/-- A line without D copies has nothing to merge (R198). -/
theorem mergeLine_none (s : State) (p : Phys) (h : ∀ x ∈ s.cache.dsums, lineOf x.addr ≠ p) : mergeLine s p = s := by
  unfold mergeLine
  have : (s.cache.dsums.filter fun x => lineOf x.addr == p) = [] := by
    rw [List.filter_eq_nil_iff]
    intro x hx
    simpa using h x hx
  simp only [this, List.isEmpty_nil, if_true]

theorem cacheWork_mergeLine (s : State) (p : Phys) : CacheWork s (mergeLine s p) := by
  by_cases h : s.cache.dsums = []
  · rw [mergeLine_none s p (by simp [h])]; exact .refl s
  · unfold mergeLine
    dsimp only
    split
    · exact .refl s
    · exact ⟨rfl, rfl, rfl, rfl, rfl, rfl, rfl, rfl, fun h1 => absurd h1 h⟩

theorem cacheWork_tellEvict (s : State) (p : Phys) (x : L2State) : CacheWork s (tellEvict s p x) := by
  unfold tellEvict
  split
  · exact .refl s
  · split <;> first | exact cacheWork_emit _ _ | exact .refl s

theorem cacheWork_llcDrop (s : State) (p : Phys) : CacheWork s (llcDrop s p) := by
  unfold llcDrop
  refine CacheWork.trans ?_ (cacheWork_tellEvict _ _ _)
  exact ⟨rfl, rfl, rfl, rfl, rfl, rfl, rfl, rfl, fun h => ⟨rfl, h⟩⟩

theorem cacheWork_llcRoom (s : State) (p : Phys) : CacheWork s (llcRoom s p) := by
  unfold llcRoom
  dsimp only
  split
  · exact .refl s
  · split
    · exact (cacheWork_fresh s _).trans (cacheWork_llcDrop _ _)
    · exact .refl s

theorem cacheWork_llcPut (s : State) (a : Nat) (d : Bool) : CacheWork s (llcPut s a d) := by
  unfold llcPut
  dsimp only
  have h : CacheWork s (if s.cache.llc.any fun x => x.addr == a then s else llcRoom s (.dev a)) := by
    split
    · exact .refl s
    · exact cacheWork_llcRoom _ _
  exact h.trans ⟨rfl, rfl, rfl, rfl, rfl, rfl, rfl, rfl, fun h => ⟨rfl, h⟩⟩

theorem cacheWork_l2Evict (s : State) (x : L2Line) : CacheWork s (l2Evict s x) := by
  unfold l2Evict
  dsimp only
  have h : CacheWork s (l1Drop (l2Drop (if x.st == .d then mergeLine s x.line else s) x.bench x.line) (some x.bench) x.line) := by
    refine CacheWork.trans ?_ ((cacheWork_l2Drop _ _ _).trans (cacheWork_l1Drop _ _ _))
    split
    · exact cacheWork_mergeLine _ _
    · exact .refl s
  split
  · exact h.trans (cacheWork_llcPut _ _ _)
  · split
    · exact h.trans ((cacheWork_llcRoom _ _).trans (cacheWork_l2Set _ _ _ _))
    · exact h
  · exact h

theorem cacheWork_l2Room (s : State) (b : Nat) (p : Phys) : CacheWork s (l2Room s b p) := by
  unfold l2Room
  dsimp only
  split
  · exact cacheWork_llcRoom _ _
  · split
    · exact .refl s
    · split
      · exact (cacheWork_fresh s _).trans (cacheWork_l2Evict _ _)
      · exact .refl s

theorem cacheWork_l2Put (s : State) (b : Nat) (p : Phys) (x : L2State) : CacheWork s (l2Put s b p x) := by
  unfold l2Put
  refine CacheWork.trans ?_ (cacheWork_l2Set _ _ _ _)
  split
  · exact .refl s
  · exact cacheWork_l2Room _ _ _

theorem cacheWork_dirRecall (s : State) (e : DirEnt) : CacheWork s (dirRecall s e) := by
  unfold dirRecall
  dsimp only
  refine CacheWork.trans ((cacheWork_foldl _ ?_ _ s).trans (cacheWork_foldl _ ?_ _ _))
    ⟨rfl, rfl, rfl, rfl, rfl, rfl, rfl, rfl, fun h => ⟨rfl, h⟩⟩
  · intro s l
    split
    · exact cacheWork_mergeLine _ _
    · exact .refl s
  · intro s x
    split
    · exact (cacheWork_l2Drop _ _ _).trans (cacheWork_llcPut _ _ _)
    · exact .refl s

theorem cacheWork_dirRoom (a n : Nat) (s : State) : CacheWork s (dirRoom a n s) := by
  induction n generalizing s with
  | zero => exact .refl s
  | succ n ih =>
    unfold dirRoom
    split
    · exact (cacheWork_dirRecall _ _).trans (ih _)
    · exact .refl s

theorem cacheWork_bringCopies (s : State) (b : Nat) (line : Phys) (need : Need) : CacheWork s (bringCopies s b line need) := by
  unfold bringCopies
  cases need with
  | read =>
    dsimp only
    split
    · exact cacheWork_l2Share _ _ _
    · exact (cacheWork_l2Share _ _ _).trans (cacheWork_l2Put _ _ _ _)
  | write => exact (cacheWork_l2DropOthers _ _ _).trans (cacheWork_l2Put _ _ _ _)
  | delta =>
    exact ((cacheWork_l1Drop _ _ _).trans (cacheWork_foldl _ (fun s c => cacheWork_l2Drop s c line) _ _)).trans (cacheWork_l2Put _ _ _ _)
  | home => exact cacheWork_l2DropOthers _ _ _

theorem cacheWork_dirNote (s : State) (a : Nat) (o : Option DirKind) : CacheWork s (dirNote s a o) := by
  unfold dirNote
  split
  · exact ⟨rfl, rfl, rfl, rfl, rfl, rfl, rfl, rfl, fun h => ⟨rfl, h⟩⟩
  · exact cacheWork_dirPut _ _

/-- Bringing a line to what a request needs is work of the caches (R292, R297 to R301). -/
theorem obtain_work (s : State) (b : Nat) (line : Phys) (need : Need) : CacheWork s (obtain s b line need) := by
  have h1 : ∀ s : State, CacheWork s (if need == .delta then s else mergeLine s line) := fun s => by
    split
    · exact .refl s
    · exact cacheWork_mergeLine _ _
  unfold obtain
  cases line with
  | dev a =>
    exact (((cacheWork_dirRoom a 16 s).trans (h1 _)).trans (cacheWork_bringCopies _ _ _ _)).trans
      ((cacheWork_dirNote _ _ _).trans (cacheWork_llcPut _ _ _))
  | hostC a => exact (h1 s).trans (cacheWork_bringCopies _ _ _ _)
  | hostU a => exact (h1 s).trans (cacheWork_bringCopies _ _ _ _)
  | peer i w o => exact (h1 s).trans (cacheWork_bringCopies _ _ _ _)

/-- The end of an access without a result (R171): the request goes and the caches follow. -/
theorem complete_quiet (s : State) (r : Req) (v : Vec) (hri : r.ri = none)
    (hop : r.op = .st ∨ (∃ op, r.op = .addd op) ∨ r.op = .cflush ∨ r.op = .sts ∨ r.op = .sfe) :
    complete s r v = cachesAfter (dropReq s r.id) r := by
  unfold complete
  rw [hri]
  rcases hop with h | ⟨op, h⟩ | h | h | h <;> rw [h] <;> rfl

/-- What follows an access in the caches changes caches only (R78, R174). -/
theorem cachesAfter_parts (s : State) (r : Req) : cachesAfter s r = { s with cache := (cachesAfter s r).cache } := by
  have h1 : ∀ s : State, acquireFor s r = { s with cache := (acquireFor s r).cache } := by
    intro s
    unfold acquireFor
    split
    · split <;> rfl
    · rfl
  have h2 : ∀ s : State, renewFor s r = { s with cache := (renewFor s r).cache } := by
    intro s
    unfold renewFor
    split <;> rfl
  have h3 : ∀ s0 : State, s0 = { s with cache := s0.cache } →
      (if isRel r then dropStale s0 else s0) = { s with cache := (if isRel r then dropStale s0 else s0).cache } := by
    intro s0 h
    split
    · show dropStale s0 = _
      rw [h]; rfl
    · exact h
  unfold cachesAfter
  dsimp only
  apply h3
  split
  · exact h2 s
  · split
    · exact h1 s
    · rfl

theorem findReq_drop (s : State) (id : Nat) : findReq (dropReq s id) id = none := by
  unfold findReq dropReq
  rw [List.find?_eq_none]
  intro x hx
  have := (List.mem_filter.mp hx).2
  simpa using this

/-- The line after an update that keeps `FRZ` and the trap line has landed (R26). -/
theorem deliver_line (s : State) (t : Thread) (u : Upd) (hf : findThread s t.key = some t) (hc : inCl1 t = true) (hp : t.pend = none)
    (hr : fatalRec t.trap = none) (hn : t.cancel = false)
    (hq : ∀ q ∈ s.flight.reqs, q.key = t.key → isUnrecorded q = false) {c : Ctx} (hu : applyUpd t u = { t with ctx := c }) (hcz : c.frz = false) :
    (∃ x, findThread (deliver s t.key u) t.key = some x ∧ x.trap = t.trap ∧ x.ctx = { c with wkind := x.ctx.wkind }) ∧
      (∀ k, k ≠ t.key → findThread (deliver s t.key u) k = findThread s k) ∧ RestSame s (deliver s t.key u) := by
  obtain ⟨u', hl⟩ := inCl1_loc hc
  have hm : isMoving t = false := by simp [isMoving, hl]
  have e : deliver s t.key u = settle (setThread s { t with ctx := c }) t.key := by
    unfold deliver
    rw [hf]
    simp only [hm, Bool.false_eq_true, if_false, hu]
  let x : Thread := { t with ctx := c }
  have f1 : findThread (setThread s x) x.key = some x := by
    rw [findThread_setThread]
    show (findThread s t.key).map _ = _
    rw [hf]; rfl
  obtain ⟨⟨y, y1, y2, -⟩, z1, z2, -⟩ := settle_line (setThread s x) x f1 hc hp hr hcz hn hq
  rw [e]
  refine ⟨⟨y, y1, ?_, ?_⟩, fun k hk => (z1 k hk).trans (findThread_setThread_other s x k hk), (restSame_setThread s x).trans z2⟩
  · rw [y2, unpark_parts x]
  · have : y.ctx = { x.ctx with wkind := y.ctx.wkind } := by rw [y2]
    exact this

theorem clearPend_frz (c : Ctx) (o : Opd) (w : Bool) : (clearPend c o w).frz = c.frz := rfl
theorem decOutst_frz (c : Ctx) : (decOutst c).frz = c.frz := rfl

/-- A result lands (R26, R171): the line's update, and that nothing else has changed. -/
theorem complete_result (s : State) (r : Req) (v : Vec) (t : Thread) (hop : hasResult r.op = true) (hri : r.ri = none)
    (hf : findThread s r.key = some t) (hc : inCl1 t = true) (hp : t.pend = none) (hr : fatalRec t.trap = none)
    (hz : t.ctx.frz = false) (hn : t.cancel = false) (hq : ∀ q ∈ s.flight.reqs, q.key = r.key → isUnrecorded q = false) :
    (∃ x, findThread (complete s r v) t.key = some x ∧ x.trap = t.trap ∧ x.ctx =
      { decOutst (clearPend (setDst t.ctx r.dst (r.ty == .b128) (extend r.ty v)) r.dst (r.ty == .b128)) with wkind := x.ctx.wkind }) ∧
    (∀ k, k ≠ t.key → findThread (complete s r v) k = findThread s k) ∧
    RestSame (cachesAfter (dropReq s r.id) r) (complete s r v) := by
  let s2 := cachesAfter (dropReq s r.id) r
  have hk : r.key = t.key := (findThread_key hf).symm
  have ht : s2.threads = s.threads := by show (cachesAfter _ _).threads = _; rw [cachesAfter_parts]; rfl
  have hfl : s2.flight = (dropReq s r.id).flight := by show (cachesAfter _ _).flight = _; rw [cachesAfter_parts]
  have e : complete s r v = deliver s2 t.key (.result r.dst (r.ty == .b128) (extend r.ty v)) := by
    unfold complete
    rw [hri, ← hk]
    cases ho : r.op <;> rw [ho] at hop <;> first | rfl | cases hop
  rw [e]
  have hf2 : findThread s2 t.key = some t := by rw [findThread_of_threads s s2 ht, ← hk]; exact hf
  obtain ⟨a, b, c⟩ := deliver_line s2 t (.result r.dst (r.ty == .b128) (extend r.ty v)) hf2 hc hp hr hn (by
    intro q hq1 hq2
    rw [hfl] at hq1
    exact hq q (List.mem_filter.mp hq1).1 (by rw [hk]; exact hq2)) rfl (by
      rw [decOutst_frz, clearPend_frz, setDst_frz]; exact hz)
  exact ⟨a, fun k hk => (b k hk).trans (findThread_of_threads s s2 ht k), c⟩

theorem mem_upsert {α : Type} {p : α → Bool} {x y : α} {l : List α} (h : y ∈ upsert p x l) : y = x ∨ y ∈ l := by
  induction l with
  | nil => simp [upsert] at h; exact Or.inl h
  | cons z l ih =>
    unfold upsert at h
    split at h
    · rcases List.mem_cons.mp h with h | h
      · exact Or.inl h
      · exact Or.inr (List.mem_cons_of_mem _ h)
    · rcases List.mem_cons.mp h with h | h
      · exact Or.inr (h ▸ List.mem_cons_self)
      · rcases ih h with h | h
        · exact Or.inl h
        · exact Or.inr (List.mem_cons_of_mem _ h)

theorem lineHold_none_iff (s : State) (line : Phys) :
    lineHold s line = none ↔ ∀ u ∈ s.ius, ∀ r, some r ∈ u.holds → r.line ≠ line := by
  unfold lineHold
  rw [Option.map_eq_none_iff, List.find?_eq_none]
  unfold holdsOf
  constructor
  · intro h u hu r hr
    have := h (u.bench, u.iu, r) (List.mem_flatMap.mpr ⟨u, hu, List.mem_filterMap.mpr ⟨some r, hr, rfl⟩⟩)
    simpa using this
  · intro h x hx
    obtain ⟨u, hu, hx⟩ := List.mem_flatMap.mp hx
    obtain ⟨o, ho, he⟩ := List.mem_filterMap.mp hx
    cases o with
    | none => cases he
    | some r =>
      cases he
      simpa using h u hu r ho

/-- Counting an event takes no hold (R45). -/
theorem lineHold_count (s : State) (b u n : Nat) (line : Phys) (h : lineHold s line = none) : lineHold (count s b u n) line = none := by
  rw [lineHold_none_iff] at h ⊢
  intro x hx r hr
  rcases mem_upsert hx with rfl | hx
  · have hr : some r ∈ (getIu s b u).holds := hr
    unfold getIu at hr
    cases hf : s.ius.find? fun x => x.bench == b && x.iu == u with
    | none => rw [hf] at hr; simp at hr
    | some y =>
      rw [hf] at hr
      exact h y (List.mem_of_find?_eq_some hf) r hr
  · exact h x hx r hr

end Sys2Proof.Machine
end

