-- ==== Sys2Proof/Laws/Space.lean ====
section
/-! SUPPORT. Address spaces, handle tables and the bytes of a tile: what their updates leave. -/

namespace Sys2Proof.Machine
open Sys2Proof.Forms

theorem findSpace_asid {s : State} {a : BitVec 16} {x : Space} (h : findSpace s a = some x) : x.asid = a := by
  have := List.find?_some h
  simpa using this

theorem findSpace_onSpace (s : State) (a b : BitVec 16) (f : Space → Space) (hf : ∀ x, (f x).asid = x.asid) :
    findSpace (onSpace s a f) b = if b = a then (findSpace s a).map f else findSpace s b := by
  unfold findSpace onSpace
  split
  · rename_i h; subst h
    exact find?_modifyFirst _ f s.spaces (by intro x hx; rw [hf]; exact hx)
  · rename_i h
    refine find?_modifyFirst_other _ _ f s.spaces ?_ ?_
    · intro x hx; simp at hx ⊢; rw [hx]; exact fun e => h e.symm
    · intro x hx; simp at hx ⊢; rw [hf, hx]; exact fun e => h e.symm

theorem getHandle_idx (x : Space) (i : Nat) : (getHandle x i).idx = i := by
  unfold getHandle
  cases h : x.handles.find? fun h => h.idx == i with
  | none => rfl
  | some e => simpa using List.find?_some h

theorem getHandle_putHandle (x : Space) (e : Handle) (j : Nat) : getHandle (putHandle x e) j = if j = e.idx then e else getHandle x j := by
  unfold getHandle putHandle
  split
  · rename_i h; subst h
    rw [find?_upsert_same _ _ _ (by simp)]; rfl
  · rename_i h
    have hn := find?_upsert_other (fun y : Handle => y.idx == e.idx) (fun y : Handle => y.idx == j) e x.handles
      (by intro y hy; simp at hy ⊢; rw [hy]; exact fun e => h e.symm) (by simp; exact fun e => h e.symm)
    show (List.find? _ (upsert _ e x.handles)).getD _ = _
    rw [hn]

/-- A change of one entry leaves the other address spaces and the other entries. -/
theorem onHandle_spec {s : State} {a : BitVec 16} {x : Space} (hx : findSpace s a = some x) (i : Nat) (f : Handle → Handle)
    (hf : ∀ h, (f h).idx = h.idx) :
    findSpace (onHandle s a i f) a = some { x with handles := (putHandle x (f (getHandle x i))).handles } ∧
      (∀ b, b ≠ a → findSpace (onHandle s a i f) b = findSpace s b) ∧
      ∀ j, getHandle { x with handles := (putHandle x (f (getHandle x i))).handles } j = if j = i then f (getHandle x i) else getHandle x j := by
  refine ⟨?_, ?_, ?_⟩
  · unfold onHandle
    rw [findSpace_onSpace _ _ _ _ (by intro x; rfl), if_pos rfl, hx]; rfl
  · intro b hb
    unfold onHandle
    rw [findSpace_onSpace _ _ _ _ (by intro x; rfl), if_neg hb]
  · intro j
    have := getHandle_putHandle x (f (getHandle x i)) j
    rw [hf, getHandle_idx] at this
    exact this

theorem cellRead_filter (l : List Host.Cell) (p : Nat → Bool) (a : Nat) :
    cellRead (l.filter fun c => p c.1) a = if p a then cellRead l a else 0 := by
  induction l with
  | nil => simp [cellRead]
  | cons c l ih =>
    rw [List.filter_cons]
    by_cases hc : p c.1 <;> by_cases he : c.1 = a <;> by_cases hp : p a <;> simp_all [cellRead]

end Sys2Proof.Machine
end

