-- ==== Sys2Proof/Tests/Slice0.lean ====
section
/-! SUPPORT. Tests: ill-formed terms that the checks refuse, words that decode, one step on small states, and for
each statement a state and operands that meet its hypotheses together. Expected values come from the spec's tables or are worked
by hand from its rules. -/

set_option Elab.async false

namespace Sys2Proof.Tests
open Sys2Proof Sys2Proof.Machine Sys2Proof.Forms Sys2Proof.Spec

/-! Well-formedness: an ill-formed term for each check. -/

theorem test_wf_type : wellFormed (.add {} { ty := .f32, d := .s 0, a := .s 1, b := .opd (.s 2) }) = false := by decide
theorem test_wf_shape : wellFormed (.add {} { ty := .b8, sh := .x4, d := .v 0, a := .v 1, b := .opd (.v 2) }) = false := by decide
theorem test_wf_dst : wellFormed (.add {} { ty := .b64, d := .imm 1, a := .s 1, b := .opd (.s 2) }) = false := by decide
theorem test_wf_src : wellFormed (.add {} { ty := .b64, d := .s 0, a := .v 1, b := .opd (.s 2) }) = false := by decide
theorem test_wf_srcB : wellFormed (.add {} { ty := .b64, d := .s 0, a := .s 1, b := .opd (.p 2) }) = false := by decide
theorem test_wf_pair : wellFormed (.add {} { ty := .b128, d := .s 1, a := .s 0, b := .opd (.s 2) }) = false := by decide
theorem test_wf_one : wellFormed (.abs {} { ty := .n32, d := .s 1, a := .s 0 }) = false := by decide
theorem test_wf_carry : wellFormed (.addx {} { ty := .b64, sh := .x2, px := 1, d := .v 1, a := .v 0, b := .opd (.v 2) }) = false := by decide
theorem test_wf_nb : wellFormed (.sext {} { ty := .b32, nb := 33, d := .s 1, a := .s 0 }) = false := by decide
theorem test_wf_field : wellFormed (.bfx {} { ty := .i32, pos := 20, len := 13, d := .s 1, a := .s 0 }) = false := by decide
theorem test_wf_insert : wellFormed (.bfi {} { ty := .b32, pos := 0, len := 0, d := .s 1, a := .s 0, b := .s 2 }) = false := by decide
theorem test_wf_cmp : wellFormed (.cmp {} { cond := .lt, ty := .i64, d := .s 1, a := .s 0, b := .imm32 3 }) = false := by decide
theorem test_wf_jmp : wellFormed (.jmp {} .zero) = false := by decide
theorem test_wf_dbnz : wellFormed (.dbnz {} .zero 1) = false := by decide
theorem test_wf_float : wellFormed (.fadd {} { ty := .b32, d := .s 0, a := .s 1, b := .s 2 }) = false := by decide
theorem test_wf_cvt : wellFormed (.fcvt {} { ty := .f32, oty := .f32, dir := true, d := .s 0, a := .s 1 }) = false := by decide
theorem test_wf_part : wellFormed (.fcvt {} { ty := .f32, oty := .f16, dir := true, part := 2, sh := .x4, d := .v 0, a := .v 1 }) = false := by
  decide
theorem test_wf_lane : wellFormed (.vext {} { ty := .b32, d := .s 0, a := .v 1, b := .s 2 }) = false := by decide
theorem test_wf_reduce : wellFormed (.vred {} { op := .swap, ty := .b32, sh := .x4, d := .s 0, a := .v 1 }) = false := by decide
theorem test_wf_reduceMode : wellFormed (.vred {} { op := .add, ty := .b32, sh := .x4, rm := some .rup, d := .s 0, a := .v 1 }) = false := by
  decide
theorem test_wf_dot : wellFormed (.vdot {} { ty := .f32, sh := .x4, d := .v 0, a := .v 1, b := .v 2, c := .v 3 }) = false := by decide
theorem test_wf_order : wellFormed (.ld {} { ty := .b64, ord := .rel, d := .s 0, mem := { base := .s 1 } }) = false := by decide
theorem test_wf_scope : wellFormed (.ld {} { ty := .b64, scp := .sys, d := .s 0, mem := { base := .s 1 } }) = false := by decide
theorem test_wf_scale : wellFormed (.ld {} { ty := .b64, d := .s 0, mem := { base := .s 1, sh := 5 } }) = false := by decide
theorem test_wf_base : wellFormed (.st {} { ty := .b64, d := .s 0, mem := { base := .v 1 } }) = false := by decide
theorem test_wf_amo : wellFormed (.amo {} { op := .fadd, ty := .b32, d := .s 0, mem := { base := .s 1 } }) = false := by decide
theorem test_wf_cas : wellFormed (.cas2 {} { ty := .b64, d := .s 0, base := .s 1, b := .s 2 }) = false := by decide
theorem test_wf_fence : wellFormed (.fence {} .rlx .dev) = false := by decide
theorem test_wf_addd : wellFormed (.addd {} { op := .fadd, ty := .i64, d := .s 0, mem := { base := .s 1 } }) = false := by decide
theorem test_wf_format : wellFormed (.talloc {} 0x15 (.s 0) (.s 1)) = false := by decide
theorem test_wf_planes : wellFormed (.mma {} { ty := .sbf4, np := 3, d := .s 0, a := .s 1, b := .s 2, c := .s 3 }) = false := by decide
theorem test_wf_unused : wellFormed (.mldw {} { ty := .sbf8, d := .s 0, a := .s 1, b := .s 2, c := .s 0 }) = false := by decide
theorem test_wf_list : wellFormed (.sint {} { ty := .n32, d := .s 0, a := .s 1, b := .v 2, c := .v 3 }) = false := by decide
theorem test_wf_zero : wellFormed (.scmp {} true { ty := .b32, d := .s 0, a := .v 1, b := .v 2, c := .v 3 }) = false := by decide
theorem test_wf_volume : wellFormed (.cld {} { ty := .b64, d := .s 0, base := .s 1, b := .s 2 }) = false := by decide
theorem test_wf_push : wellFormed (.qpsh {} (.imm 1) (.s 1) 0) = false := by decide
theorem test_wf_copy : wellFormed (.cpy {} { op := .add, ty := .b64, sig := 1, d := .s 0, a := .s 1, b := .s 2, c := .s 0 }) = false := by
  decide
theorem test_wf_bench : wellFormed (.move {} 0 1008) = false := by decide
theorem test_wf_csr : wellFormed (.csrr {} (.s 0) 0x004) = false := by decide
theorem test_wf_event : wellFormed .patrolScrub = false := by decide

/-! Decoding: words written from the encoding tables, beyond those of `DecodingRight`. -/

theorem test_decode_zero : (Decode.decode 0).toOption = none := by decide
theorem test_decode_addx : Decode.decode (word 0x04080003 0x00258020 0) =
    .ok (.addx {} { ty := .n64, px := 3, d := .s 1, a := .s 1, b := .opd .zero }) := by decide +kernel
theorem test_decode_hst : Decode.decode (word 0x0800018D 0x00008020 0) =
    .ok (.hst {} { ty := .b64, px := 1, d := .s 0, mem := { base := .s 2, idx := .zero } }) := by decide +kernel
theorem test_decode_spawn : Decode.decode (word 0x00080300 0x15092C00 5) =
    .ok (.spawn {} { d := .s 1, edisp := 5, vcopy := 1, scopy := 5, rad := 2, sbench := 300 }) := by decide +kernel
theorem test_decode_bar : Decode.decode (word 0x00080303 0x00000000 2) = .ok (.bar {} (.s 1) (.s 0) 2) := by decide +kernel
theorem test_decode_sintc : Decode.decode (word 0x14000281 0x0024000C 0) =
    .ok (.sintc {} { ty := .n64, d := .s 0, a := .v 1, b := .v 2, c := .s 0 }) := by decide +kernel

/-! States for the tests: a thread of address space 1 issues in IU 0 of bench 0, in supervisor mode; the page at address 0 is at device
address 0x6000. -/

/-- The thread that issues: its registers, and lanes 1 to 4 and 5 to 8 in v1 and v2. -/
def thr : Thread :=
  { fetchThread with ctx := { fetchThread.ctx with
      pc := 0x40, s0 := 0x80, s1 := 7, s2 := 0x100, s3 := 0x200
      v1 := 0x00000004000000030000000200000001, v2 := 0x00000008000000070000000600000005 } }

/-- The state in which a thread stands in the place of `fetchThread`, and issues. -/
def withThread (t : Thread) : State :=
  let s := State.reset.withFetchWord 96 0
  { s with run := { cur := some t.key }, threads := [t] }

/-- The state in which `thr` issues. -/
def base : State := withThread thr

/-- The thread after an instruction of it, when the machine goes on. -/
def after (i : Instr) (s : State) : Option Thread :=
  match exec i s with
  | .next s' => findThread s' ⟨1, 1⟩
  | _ => none

/-- A translation that ends in a location, of which something holds. -/
def located (r : Trans) (f : Phys → State → Bool) : Bool :=
  match r with
  | .ok p s => f p s
  | _ => false

theorem located_ok {r : Trans} {f : Phys → State → Bool} (h : located r f = true) : ∃ p s, r = .ok p s ∧ f p s = true := by
  cases r <;> simp_all [located]

/-- The state after an instruction or event, when the machine goes on. -/
def next (i : Instr) (s : State) : State :=
  match exec i s with
  | .next s' => s'
  | _ => s

/-- The registers of the issuing thread in a state. -/
def regs (s : State) : Option Ctx := (findThread s ⟨1, 1⟩).map (·.ctx)

/-! Integer and control instructions. -/

theorem witness_IntTwoSource : ∃ p ∈ twoSource, ∃ (s : State) (t : Thread) (h : Hdr) (x : Alu2), wellFormed (p.1 h x) = true ∧
    issues s t h = true ∧ free3 t.ctx x.ty x.sh x.d x.a (srcOpd x.b) = true :=
  ⟨_, .head _, base, thr, {}, { ty := .b64, d := .s 0, a := .s 1, b := .opd .zero }, by decide +kernel⟩
theorem witness_IntOneSource : ∃ p ∈ oneSource, ∃ (s : State) (t : Thread) (h : Hdr) (x : Alu1), wellFormed (p.1 h x) = true ∧
    issues s t h = true ∧ free3 t.ctx x.ty x.sh x.d x.a .zero = true :=
  ⟨_, .head _, base, thr, {}, { ty := .b64, d := .s 0, a := .zero }, by decide +kernel⟩
theorem witness_IntFields : issues base thr {} = true ∧
    wellFormed (.sext {} { ty := .b64, nb := 1, d := .s 0, a := .s 1 }) = true ∧
    wellFormed (.bfx {} { ty := .i64, pos := 63, len := 1, d := .s 0, a := .s 1 }) = true ∧
    wellFormed (.bfi {} { ty := .b64, pos := 0, len := 64, d := .s 0, a := .s 1, b := .s 2 }) = true ∧
    free3 thr.ctx .b64 .sc (.s 0) (.s 1) (.s 2) = true := by decide +kernel
theorem witness_IntCarry : issues base thr {} = true ∧
    wellFormed (.addx {} { ty := .b64, px := 0, d := .s 0, a := .s 1, b := .opd (.s 2) }) = true ∧
    free3 thr.ctx .b64 .sc (.s 0) (.s 1) (.s 2) = true := by decide +kernel
theorem witness_IntMoves : issues base thr {} = true ∧
    wellFormed (.sel {} { ty := .b64, px := 1, d := .s 0, a := .s 1, b := .imm32 0 }) = true ∧
    wellFormed (.mov {} { ty := .b128, d := .s 2, a := .opd (.s 0) }) = true ∧
    wellFormed (.lea {} { d := .s 0, mem := { base := .s 2, idx := .s 1, sh := 4, disp := 0x80000000 } }) = true ∧
    free3 thr.ctx .b128 .sc (.s 2) (.s 0) .zero = true ∧
    noneFrom thr.ctx [(.s 0, false), (.s 2, false), (.s 1, false)] = true := by decide +kernel
theorem witness_IntCompare : issues base thr {} = true ∧
    wellFormed (.cmp {} { cond := .lt, ty := .i64, d := .p 1, a := .s 0, b := .imm32 3 }) = true ∧
    wellFormed (.cmp {} { cond := .none, ty := .b32, sh := .x4, d := .v 1, a := .v 2, b := .opd (.v 0) }) = true ∧
    free3 thr.ctx .i64 .sc (.p 1) (.s 0) .zero = true ∧ free3 thr.ctx .b32 .x4 (.v 1) (.v 2) (.v 0) = true := by decide +kernel
theorem witness_Predicates : issues base thr {} = true ∧ noneFrom thr.ctx [(.s 0, false)] = true := by decide +kernel
/-- `DBNZ` on a register of 1 falls through, on any other it branches. -/
theorem witness_Jumps : issues base thr {} = true ∧ noneFrom thr.ctx [(.s 0, false)] = true ∧
    (sVal base thr (.s 0)).toNat < 2 ^ 57 ∧ (sVal base thr (.s 0)).toNat % 4 = 0 ∧ getS thr.ctx 1 ≠ 1 := by decide +kernel
theorem witness_CallReturn : issues base thr {} = true ∧ noneFrom thr.ctx [(.s 3, false)] = true ∧ thr.ctx.s3.toNat % 16 = 0 ∧
    entriesUsed base thr.bench (iuAt thr) + 2 ≤ Config.reqEntries ∧ entriesFull base thr = false ∧ thr.key.ctx ≠ 0 ∧ thr.ctx.outst ≠ 15 ∧
    located (translate base (.data 0 0) 1 (wantOf .st true) (thr.ctx.s3 - 16)) (fun _ s1 =>
      located (translate s1 (.data 0 0) 1 (wantOf .st true) (thr.ctx.s3 - 8)) fun _ _ => true) = true ∧
    located (translate base (.data 0 0) 1 (wantOf .ret true) thr.ctx.s3) (fun _ _ => true) = true := by decide +kernel

/-- Registers for the traps of control transfers: s0 misaligned, s1 beyond 2^57, s3 not a multiple of 16. -/
def badThr : Thread := { thr with ctx := { thr.ctx with s0 := 0x81, s1 := 0x200000000000000, s3 := 0x208 } }

theorem witness_BadTargets : issues (withThread badThr) badThr {} = true ∧
    noneFrom badThr.ctx [(.s 0, false), (.s 1, false), (.s 3, false)] = true ∧ badThr.ctx.intrap = false ∧ badThr.ctx.outst = 0 ∧
    findSpace (withThread badThr) badThr.key.asid = some fetchSpace ∧ (sVal (withThread badThr) badThr (.s 0)).toNat % 4 ≠ 0 ∧
    2 ^ 57 ≤ (sVal (withThread badThr) badThr (.s 1)).toNat ∧ badThr.ctx.s3.toNat % 16 ≠ 0 := by decide +kernel

theorem test_add_wraps : (after (.add {} { ty := .b64, d := .s 0, a := .s 1, b := .imm32 0xFFFFFFF8 }) base).map (·.ctx.s0) =
    some 0xFFFFFFFFFFFFFFFF := by decide +kernel
theorem test_add_sign_extends : (after (.add {} { ty := .i32, d := .s 0, a := .s 1, b := .imm32 0x7FFFFFFF }) base).map (·.ctx.s0) =
    some 0xFFFFFFFF80000006 := by decide +kernel
theorem test_sub_borrows : (after (.sub {} { ty := .n32, d := .s 0, a := .s 1, b := .imm32 8 }) base).map (·.ctx.s0) =
    some 0xFFFFFFFF := by decide +kernel
theorem test_mulh_signed : (after (.mulh {} { ty := .i64, d := .s 0, a := .s 1, b := .imm32 0xFFFFFFFF }) base).map (·.ctx.s0) =
    some 0xFFFFFFFFFFFFFFFF := by decide +kernel
theorem test_div_zero : (after (.div {} { ty := .i64, d := .s 0, a := .s 1, b := .opd .zero }) base).map (·.ctx.s0) =
    some 0xFFFFFFFFFFFFFFFF := by decide +kernel
theorem test_rem_zero : (after (.rem {} { ty := .i64, d := .s 0, a := .s 1, b := .opd .zero }) base).map (·.ctx.s0) = some 7 := by decide +kernel
theorem test_shl_count : (after (.shl {} { ty := .b64, d := .s 0, a := .s 1, b := .imm32 65 }) base).map (·.ctx.s0) = some 14 := by
  decide +kernel
theorem test_sar_lanes : (after (.sar {} { ty := .i32, sh := .x4, d := .v 0, a := .v 2, b := .imm32 1 }) base).map (·.ctx.v0) =
    some 0x00000004000000030000000300000002 := by decide +kernel
theorem test_clz_zero : (after (.clz {} { ty := .b32, d := .s 0, a := .zero }) base).map (·.ctx.s0) = some 32 := by decide +kernel
theorem test_bswap : (after (.bswap {} { ty := .b16, d := .s 0, a := .s 2 }) base).map (·.ctx.s0) = some 1 := by decide +kernel
theorem test_addx_carry : (after (.addx {} { ty := .n64, px := 1, d := .s 0, a := .s 1, b := .imm32 0xFFFFFFFF }) base).map
    (fun t => (t.ctx.s0, t.ctx.p)) = some (6, 3) := by decide +kernel
theorem test_subx_p0 : (after (.subx {} { ty := .n64, px := 0, d := .s 0, a := .s 1, b := .imm32 7 }) base).map
    (fun t => (t.ctx.s0, t.ctx.p)) = some (0xFFFFFFFFFFFFFFFF, 1) := by decide +kernel
theorem test_bfx_signed : (after (.bfx {} { ty := .i64, pos := 1, len := 2, d := .s 0, a := .s 1 }) base).map (·.ctx.s0) =
    some 0xFFFFFFFFFFFFFFFF := by decide +kernel
theorem test_cmp_lanes : (after (.cmp {} { cond := .lt, ty := .i32, sh := .x4, d := .v 0, a := .v 1, b := .imm32 3 }) base).map (·.ctx.v0) =
    some 0x0000000000000000FFFFFFFFFFFFFFFF := by decide +kernel
theorem test_lea : (after (.lea {} { d := .s 0, mem := { base := .s 2, idx := .s 1, sh := 3, disp := 0xFFFFFFFF } }) base).map (·.ctx.s0) =
    some 0x137 := by decide +kernel
theorem test_br : (after (.br {} 0xFFFFFFFE) base).map (·.ctx.pc) = some 0x28 := by decide +kernel
theorem test_dbnz : (after (.dbnz {} (.s 1) 2) base).map (fun t => (t.ctx.pc, t.ctx.s1)) = some (0x58, 6) := by decide +kernel
theorem test_guard : (after (.li { g := 1 } (.s 0) 5) base).map (fun t => (t.ctx.pc, t.ctx.s0)) = some (0x4C, 0x80) := by decide +kernel
theorem test_jmp_misaligned : (after (.jmp {} (.s 0)) (withThread badThr)).map (fun t => (t.ctx.cause, t.ctx.detail, t.trap.tval, t.ctx.pc)) =
    some (5, 0x010000, 0x81, 0x1000) := by decide +kernel

/-! Floating-point and short-vector instructions. -/

/-- The issuing thread with floating-point numbers: s0 = 1.0, s1 = 0, s2 = −2.0 in f32, and v1 = (1, 2, 3, 4) in f32. -/
def fthr : Thread :=
  { thr with ctx := { thr.ctx with s0 := 0x3F800000, s1 := 0, s2 := 0xC0000000, v1 := 0x4080000040400000400000003F800000 } }

/-- The state in which `fthr` issues. -/
def fbase : State := withThread fthr

/-- `fbase` with the trap for a division by zero enabled in the address space. -/
def dzBase : State := { fbase with spaces := [{ fetchSpace with fpte := 8 }] }

theorem witness_FloatArith : ∃ p ∈ fpTwo, ∃ x : Flt2, issues fbase fthr {} = true ∧ wellFormed (p.1 {} x) = true ∧
    free3 fthr.ctx x.ty x.sh x.d x.a x.b = true ∧ noneFrom fthr.ctx [(.s 1, false)] = true ∧
    wellFormed (.fma {} { ty := .f32, d := .s 3, a := .s 0, b := .s 2, c := .s 1 }) = true ∧
    wellFormed (.fnma {} { ty := .f32, d := .s 3, a := .s 0, b := .s 2, c := .s 1 }) = true ∧
    wellFormed (.fsqrt {} { ty := .f32, d := .s 3, a := .s 0 }) = true :=
  ⟨_, .head _, { ty := .f32, d := .s 3, a := .s 0, b := .s 2 }, by decide +kernel⟩
/-- The two ends of `fpDone`: 1.0 / 0 raises DZ, which is off in `fbase` and enabled in `dzBase`. -/
theorem witness_fpDone : (ffDiv (ffOf .f32) (fenvOf fbase fthr none) 0x3F800000 0).2 = 8 ∧ (8 : Fl) &&& fpte fbase fthr = 0 ∧
    (8 : Fl) &&& fpte dzBase fthr ≠ 0 ∧ fthr.ctx.intrap = false ∧ fthr.ctx.outst = 0 ∧
    findSpace dzBase fthr.key.asid = some { fetchSpace with fpte := 8 } ∧ issues dzBase fthr {} = true := by decide +kernel
theorem witness_FloatUnary : issues fbase fthr {} = true ∧
    wellFormed (.fsgn {} { op := .cx, ty := .f32, d := .s 3, a := .s 0, b := .s 2 }) = true ∧
    wellFormed (.fclass {} { ty := .f32, d := .s 3, a := .s 0 }) = true ∧
    wellFormed (.frnd {} { ty := .f32, d := .s 3, a := .s 0 }) = true ∧
    wellFormed (.fcmp {} { cond := .lt, ty := .f32, d := .p 1, a := .s 0, b := .s 2 }) = true ∧
    free3 fthr.ctx .f32 .sc (.s 3) (.s 0) (.s 2) = true ∧ free3 fthr.ctx .f32 .sc (.p 1) (.s 0) (.s 2) = true := by decide +kernel
theorem witness_Conversions : issues fbase fthr {} = true ∧ noneFrom fthr.ctx [(.s 3, false), (.s 0, false), (.v 2, false), (.v 1, false)] = true ∧
    wellFormed (.fcvt {} { ty := .f32, oty := .f16, dir := true, part := 1, sh := .x4, d := .v 2, a := .v 1 }) = true ∧
    wellFormed (.fcvt {} { ty := .f32, oty := .f16, dir := true, d := .s 3, a := .s 0 }) = true ∧
    wellFormed (.fcvi {} { ty := .i32, oty := .f32, dir := false, d := .s 3, a := .s 0 }) = true ∧
    wellFormed (.icvf {} { ty := .f32, oty := .i32, dir := false, d := .s 3, a := .s 0 }) = true := by decide +kernel
theorem witness_LaneMoves : issues base thr {} = true ∧
    wellFormed (.shuf {} { ty := .b32, sh := .x4, d := .v 0, a := .v 1, b := .v 2, c := .v 3 }) = true ∧
    free3 thr.ctx .b32 .x4 (.v 0) (.v 1) (.v 2) = true ∧ noneFrom thr.ctx [(.v 3, false)] = true ∧
    wellFormed (.vext {} { ty := .b32, sh := .x4, d := .s 0, a := .v 1, b := .s 1 }) = true ∧
    free3 thr.ctx .b32 .x4 (.s 0) (.v 1) (.s 1) = true ∧
    wellFormed (.vins {} { ty := .b32, sh := .x4, d := .v 0, a := .s 1, b := .s 1 }) = true ∧
    free3 thr.ctx .b32 .x4 (.v 0) (.s 1) (.s 1) = true ∧ wellFormed (.vbc {} { ty := .b32, sh := .x4, d := .v 0, a := .s 1 }) = true ∧
    free3 thr.ctx .b32 .x4 (.v 0) (.s 1) .zero = true := by decide +kernel
theorem witness_VectorMasks : issues base thr {} = true ∧ noneFrom thr.ctx [(.s 0, false), (.v 1, false), (.v 0, false), (.s 1, false), (.p 1, false)] = true ∧
    wellFormed (.vmskGet {} { ty := .b32, sh := .x4, d := .s 0, a := .v 1 }) = true ∧
    wellFormed (.vmskSet {} { ty := .b32, sh := .x4, d := .v 0, a := .s 1 }) = true ∧
    wellFormed (.vmskAny {} { ty := .b32, sh := .x4, d := .p 1, a := .v 1 }) = true ∧
    wellFormed (.vmskAll {} { ty := .b32, sh := .x4, d := .p 1, a := .v 1 }) = true := by decide +kernel
theorem witness_VectorReduce : issues fbase fthr {} = true ∧ noneFrom fthr.ctx [(.s 3, false), (.v 1, false), (.v 0, false), (.v 2, false)] = true ∧
    wellFormed (.vred {} { op := .fadd, ty := .f32, sh := .x4, d := .s 3, a := .v 1 }) = true ∧
    wellFormed (.vscan {} { op := .fadd, ty := .f32, sh := .x4, d := .v 0, a := .v 1 }) = true ∧
    wellFormed (.vdot {} { ty := .i8, sh := .x16, d := .v 0, a := .v 1, b := .v 2, c := .v 3 }) = true ∧
    free3 fthr.ctx .i8 .x16 (.v 0) (.v 1) (.v 2) = true ∧ noneFrom fthr.ctx [(.v 3, false)] = true := by decide +kernel

theorem test_fadd : (after (.fadd {} { ty := .f32, d := .s 3, a := .s 0, b := .s 2 }) fbase).map (·.ctx.s3) = some 0xBF800000 := by
  decide +kernel
theorem test_fdiv_zero : (after (.fdiv {} { ty := .f32, d := .s 3, a := .s 2, b := .s 1 }) fbase).map (fun t => (t.ctx.s3, t.ctx.flags)) =
    some (0xFF800000, 8) := by decide +kernel
theorem test_fdiv_trap : (after (.fdiv {} { ty := .f32, d := .s 3, a := .s 2, b := .s 1 }) dzBase).map
    (fun t => (t.ctx.cause, t.ctx.detail, t.ctx.flags, t.trap.saveS3)) = some (0x0A, 8, 0, 0x200) := by decide +kernel
theorem test_fsqrt_negative : (after (.fsqrt {} { ty := .f32, d := .s 3, a := .s 2 }) fbase).map (fun t => (t.ctx.s3, t.ctx.flags)) =
    some (0x7FC00000, 16) := by decide +kernel
theorem test_fmul_rounds : (after (.fmul {} { ty := .f32, rm := some .rup, d := .s 3, a := .s 0, b := .s 2 })
    (withThread { fthr with ctx := { fthr.ctx with s0 := 0x3F800001, s2 := 0x3F800001 } })).map (fun t => (t.ctx.s3, t.ctx.flags)) =
    some (0x3F800003, 1) := by decide +kernel
theorem test_fmin_zero : (after (.fmin {} { ty := .f32, d := .s 3, a := .s 1, b := .s 0 })
    (withThread { fthr with ctx := { fthr.ctx with s0 := 0x80000000 } })).map (·.ctx.s3) = some 0x80000000 := by decide +kernel
theorem test_fcvt_narrows : (after (.fcvt {} { ty := .f32, oty := .f16, dir := true, part := 1, sh := .x4, d := .v 2, a := .v 1 }) fbase).map
    (·.ctx.v2) = some 0x4400420040003C000000000600000005 := by decide +kernel
theorem test_fcvi_saturates : (after (.fcvi {} { ty := .n32, oty := .f32, dir := false, d := .s 3, a := .s 2 }) fbase).map
    (fun t => (t.ctx.s3, t.ctx.flags)) = some (0, 16) := by decide +kernel
theorem test_vred_tree : (after (.vred {} { op := .fadd, ty := .f32, sh := .x4, d := .s 3, a := .v 1 }) fbase).map (·.ctx.s3) =
    some 0x41200000 := by decide +kernel
theorem test_vscan : (after (.vscan {} { op := .add, ty := .i32, sh := .x4, d := .v 0, a := .v 1 }) base).map (·.ctx.v0) =
    some 0x0000000A000000060000000300000001 := by decide +kernel
theorem test_shuf : (after (.shuf {} { ty := .b32, sh := .x4, d := .v 0, a := .v 1, b := .v 2, c := .v 3 })
    (withThread { thr with ctx := { thr.ctx with v3 := 0x80000000000000040000000300000007 } })).map (·.ctx.v0) =
    some 0x00000000000000050000000400000008 := by decide +kernel
theorem test_vext_sign : (after (.vext {} { ty := .i32, sh := .x4, d := .s 0, a := .v 1, b := .s 1 })
    (withThread { thr with ctx := { thr.ctx with v1 := 0x80000000000000000000000000000000 } })).map (·.ctx.s0) =
    some 0xFFFFFFFF80000000 := by decide +kernel

/-! Memory instructions. -/

/-- What `asks` supposes of an access, its registers free. -/
def asksHyps (s : State) (t : Thread) (regs : List (Opd × Bool)) (al : Nat) (r : Req) : Bool :=
  noneFrom t.ctx regs && r.va.toNat % al == 0 && t.ctx.outst != 15 && !entriesFull s t && t.key.ctx != 0 &&
    located (translate s (.data t.bench (iuAt t)) t.key.asid (wantOf r.op t.ctx.sup) r.va) fun p _ => badKind s r p == none

/-- The operand `[s2]`. -/
def atS2 : MemOp := { base := .s 2 }

theorem witness_MemoryLoads : issues base thr {} = true ∧
    asksHyps base thr (memFree (.s 0) true atS2) 16 { newReq .ld (eaOf thr.ctx atS2) 16 .b128 (.ld {} { ty := .b128, d := .s 0, mem := atS2 }) with dst := .s 0 } = true ∧
    asksHyps base thr (memFree (.s 0) false atS2) 8
      { newReq (.hold (wantsHold base thr 0x100)) (eaOf thr.ctx atS2) 8 .b64 (.hold {} { ty := .b64, d := .s 0, mem := atS2 }) with dst := .s 0 } = true ∧
    asksHyps base thr (memFree (.s 0) false atS2) 4
      { newReq (.amo .fadd) (eaOf thr.ctx atS2) 4 .f32 (.amo {} { op := .fadd, ty := .f32, d := .s 0, mem := atS2 }) with dst := .s 0 } = true ∧
    asksHyps base thr [(.s 0, true), (.s 2, false), (.s 0, true)] 16
      { newReq .cas (eaBase thr.ctx (.s 2) 0) 16 .b128 (.cas2 {} { ty := .b128, d := .s 0, base := .s 2, b := .s 0 }) with dst := .s 0 } = true := by
  decide +kernel
/-- `base` with a valid hold of the thread on the line of the address 0x100. -/
def holdBase : State :=
  { base with ius := [{ bench := 0, iu := 0, holds := some { key := ⟨1, 1⟩, line := .dev 0x6100, va := 0x100, granted := 0 } :: List.replicate 7 none }] }

/-- A store before every access of `thr` in `holdBase`. -/
theorem noneBefore_holdBase (r : Req) (p : Phys) : noneBefore holdBase thr r p := fun _ h => nomatch h

theorem witness_MemoryStores : issues base thr {} = true ∧
    asksHyps base thr (memFree (.s 0) false atS2) 1 { newReq .st (eaOf thr.ctx atS2) 1 .b8 (.st {} { ty := .b8, d := .s 0, mem := atS2 }) with dst := .s 0 } = true ∧
    asksHyps base thr (memFree (.s 0) false atS2) 8
      { newReq (.addd .add) (eaOf thr.ctx atS2) 8 .i64 (.addd {} { op := .add, ty := .i64, d := .s 0, mem := atS2 }) with dst := .s 0 } = true ∧
    asksHyps base thr [(.s 2, false), (.zero, false)] 1 { newReq .cflush (eaOf thr.ctx atS2) 0 .b64 (.cflush {} { mem := atS2 }) with ord := .rlx } = true ∧
    holdOn base thr.key (eaOf thr.ctx atS2) = none ∧ issues holdBase thr {} = true ∧ (holdOn holdBase thr.key (eaOf thr.ctx atS2)).isSome = true ∧
    noneFrom thr.ctx (memFree (.s 0) false atS2) = true ∧ (eaOf thr.ctx atS2).toNat % 8 = 0 ∧ entriesFull holdBase thr = false ∧
    findSpace holdBase thr.key.asid = some fetchSpace ∧ isolated fetchSpace (eaOf thr.ctx atS2).toNat = false := by
  decide +kernel
theorem witness_SyncIssue : issues base thr {} = true ∧
    asksHyps base thr (memFree (.s 0) false atS2) 8 { newReq .lde (eaOf thr.ctx atS2) 8 .b64 (.lde {} { d := .s 0, mem := atS2 }) with ord := .ar, dst := .s 0 } = true ∧
    asksHyps base thr [(.s 2, false), (.zero, false)] 8 { newReq .sfe (eaOf thr.ctx atS2) 8 .b64 (.sfe {} atS2) with ord := .ar } = true := by
  decide +kernel

/-- The issuing thread with an odd address in s2. -/
def oddThr : Thread := { thr with ctx := { thr.ctx with s2 := 0x101 } }

theorem witness_MisalignedAccess : issues (withThread oddThr) oddThr {} = true ∧
    noneFrom oddThr.ctx (memFree (.s 0) false atS2) = true ∧ noneFrom oddThr.ctx [(.s 0, false), (.s 2, false), (.s 1, false)] = true ∧
    (eaOf oddThr.ctx atS2).toNat % 2 ≠ 0 ∧ (eaBase oddThr.ctx (.s 2) 0).toNat % 4 ≠ 0 ∧ (eaOf oddThr.ctx atS2).toNat % 8 ≠ 0 ∧
    oddThr.ctx.intrap = false ∧ oddThr.ctx.outst = 0 ∧ findSpace (withThread oddThr) oddThr.key.asid = some fetchSpace := by decide +kernel

/-- `base` with a store of the thread that is not performed. -/
def storeBase : State :=
  { base with flight := { reqs := [{ newReq .st 0x100 8 .b64 (.nop {}) with id := 1, key := ⟨1, 1⟩, pa := some (.dev 0x6100) }] } }

/-- The issuing thread with a result outstanding. -/
def outThr : Thread := { thr with ctx := { thr.ctx with outst := 1, pends := 1 } }

theorem witness_Fences : issues base thr {} = true ∧ thr.ctx.outst = 0 ∧ ¬storeLeft base thr.key .dev ∧ issues storeBase thr {} = true ∧
    storeLeft storeBase thr.key .dev ∧ issues (withThread outThr) outThr {} = true ∧ outThr.ctx.outst ≠ 0 ∧
    (entriesFull base thr || entriesFull storeBase thr || entriesFull (withThread outThr) outThr) = false := by
  refine ⟨by decide +kernel, by decide, ?_, by decide +kernel, ⟨_, .head _, by decide⟩, by decide +kernel, by decide, by decide +kernel⟩
  rintro ⟨r, h, -⟩
  exact nomatch h

theorem witness_HoldStore : issues base thr {} = true ∧ noneFrom thr.ctx (memFree (.s 0) false atS2) = true ∧
    (eaOf thr.ctx atS2).toNat % 8 = 0 ∧ holdOn base thr.key (eaOf thr.ctx atS2) = none ∧ issues holdBase thr {} = true ∧
    (holdOn holdBase thr.key (eaOf thr.ctx atS2)).isSome = true ∧ findSpace holdBase thr.key.asid = some fetchSpace ∧
    isolated fetchSpace (eaOf thr.ctx atS2).toNat = false ∧ entriesFull base thr = false ∧ entriesFull holdBase thr = false := by decide +kernel
theorem witness_RecordFence : issues base thr {} = true ∧ noneFrom thr.ctx [(.s 2, false)] = true ∧ ¬storeLeft base thr.key .dev := by
  refine ⟨by decide +kernel, by decide, ?_⟩
  rintro ⟨r, h, -⟩
  exact nomatch h

/-- The requests in flight after an instruction, when the machine goes on. -/
def sent (i : Instr) (s : State) : List Req :=
  match exec i s with
  | .next s' => s'.flight.reqs
  | _ => []

theorem test_ld_request : (sent (.ld {} { ty := .b64, d := .s 0, mem := { base := .s 2, idx := .s 1, sh := 3 } }) base).map
    (fun r => (r.va, r.n, r.pa)) = [(0x138, 8, some (.dev 0x6138))] := by decide +kernel
theorem test_ld_pends : (after (.ld {} { ty := .b128, d := .s 0, mem := atS2 }) base).map (fun t => (t.ctx.pends, t.ctx.outst)) =
    some (3, 1) := by decide +kernel
theorem test_st_data : (sent (.st {} { ty := .b16, d := .s 2, mem := { base := .zero, disp := 0x10 } })
    (withThread { thr with ctx := { thr.ctx with s2 := 0x12345 } })).map (fun r => (r.n, r.dat)) = [(2, 0x2345)] := by decide +kernel
theorem test_ld_misaligned : (after (.ld {} { ty := .b16, d := .s 0, mem := atS2 }) (withThread oddThr)).map
    (fun t => (t.ctx.cause, t.ctx.detail, t.trap.tval)) = some (5, 0x040000, 0x101) := by decide +kernel
theorem test_hst_no_hold : (after (.hst {} { ty := .b64, px := 1, d := .s 0, mem := atS2 })
    (withThread { thr with ctx := { thr.ctx with p := 3 } })).map (·.ctx.p) = some 1 := by decide +kernel
theorem test_hazard : (after (.add {} { ty := .b64, d := .s 2, a := .s 0, b := .opd .zero }) (withThread outThr)).map
    (fun t => (t.wait, t.pend.map fun p => (p.cause, p.detail))) = some (.drain, some (0x04, 2)) := by decide +kernel

/-! Tiles, engine commands, streams and volumes. -/

/-- An address space with three tiles homed at IU 0 of bench 0: 1 of weights, 2 of accumulators, 3 of `.f32`. -/
def tileSpace : Space :=
  { fetchSpace with
    htsize := 8
    handles := [
      { idx := 1, v := true, nfr := 1, frames := 0xFFFFFFFFE3, rows := 4, cols := 128, fmt := (tyCode .sbf8).setWidth 8, owner := 1 },
      { idx := 2, v := true, nfr := 1, frames := 0xFFFFFFFFE4, rows := 4, cols := 16, fmt := 0x20, owner := 1 },
      { idx := 3, v := true, nfr := 1, frames := 0xFFFFFFFFE5, rows := 4, cols := 16, fmt := (tyCode .f32).setWidth 8, owner := 1 }] }

/-- The issuing thread with the handles of the three tiles in s1, s2 and s3. -/
def tileThr : Thread := { thr with ctx := { thr.ctx with s1 := 1, s2 := 2, s3 := 3 } }

/-- What bench 0 knows of the table: the entries 0 to 4, 7 and 128, and a reserve of two free indices. -/
def tileCache : Cache := { handles := [0, 1, 2, 3, 4, 7, 0x80].map fun i => (0, 1, i), reserve := [(0, 1, 2)] }

/-- The state in which `tileThr` issues. -/
def tileBase : State := { withThread tileThr with spaces := [tileSpace], cache := tileCache }

/-- The same with a table that has no free entry. -/
def fullBase : State := { tileBase with spaces := [{ tileSpace with htsize := 4 }] }

theorem witness_EngineIssue : issues tileBase tileThr {} = true ∧
    (matrixCheck .mldw .sbf8 tileBase tileThr 1 0 0).isNone = true ∧ (matrixCheck .mma .sbf8 tileBase tileThr 1 2 1).isNone = true ∧
    (matrixCheck .macc .f32 tileBase tileThr 2 3 0).isNone = true ∧ (matrixCheck .mcvt .sbf8 tileBase tileThr 3 1 0).isNone = true ∧
    sVal tileBase tileThr (.s 1) = 1 ∧ sVal tileBase tileThr (.s 2) = 2 ∧ sVal tileBase tileThr (.s 3) = 3 ∧ sVal tileBase tileThr .zero = 0 ∧
    noneFrom tileThr.ctx [(.s 0, false), (.s 1, false), (.s 2, false), (.s 3, false)] = true ∧
    queueFull tileBase tileThr.bench (iuAt tileThr) = false ∧ (sVal tileBase tileThr (.s 0)).toNat % 8 = 0 ∧
    (sVal tileBase tileThr (.s 0)).toNat % 128 = 0 ∧
    ([CmdKind.mldw, .mma, .macc, .mcvt].all fun k => (matrixEntries k 1 2 3).all fun i => entryHere tileBase 0 1 i) = true ∧
    located (translate tileBase (.bench 0) 1 { sup := true } (sVal tileBase tileThr (.s 0))) (fun p _ =>
      hostBlocks tileBase (lineOf p) .home == none) = true := by decide +kernel
theorem witness_TileAlloc : issues tileBase tileThr {} = true ∧ issues fullBase tileThr {} = true ∧
    noneFrom tileThr.ctx [(.s 0, false), (.s 1, false)] = true ∧ findSpace tileBase tileThr.key.asid = some tileSpace ∧
    (launchOf tileBase tileThr.ctx.lslot).isNone = true ∧ tileSpace.htsize.toNat = 8 ∧ (tileSpace.handles.filter (·.v)).length = 3 ∧
    freeIndex tileBase tileSpace = some 4 ∧ reserveOf tileBase tileThr.bench tileThr.key.asid = 2 := by decide +kernel
/-- The largest tile: 1024 rows of 128 bytes; one of a microscaled type has 128 columns. -/
theorem witness_TileAlloc_sizes : let t : Thread := { tileThr with ctx := { tileThr.ctx with s1 := 0x04000080 } }
    (sVal (withThread t) t (.s 1)).toNat = 1024 * 2 ^ 16 + 128 ∧ 1024 * fmtRowBytes ((tyCode .b8).setWidth 8) 128 ≤ 131072 ∧ 0x11 ≤ (0x11 : BitVec 6).toNat := by
  decide +kernel
theorem witness_TileHandles : issues tileBase tileThr {} = true ∧ noneFrom tileThr.ctx [(.s 1, false), (.s 0, false)] = true ∧
    findSpace tileBase tileThr.key.asid = some tileSpace ∧ (validReg tileSpace (sVal tileBase tileThr (.s 1))).isSome = true ∧
    (tileBase.threads.map (·.wait)) = [.run] ∧ ([1, 2, 3].all fun i => entryHere tileBase 0 1 i) = true := by decide +kernel
theorem witness_TileBound : issues tileBase tileThr {} = true ∧ noneFrom tileThr.ctx [(.s 0, false)] = true ∧
    findSpace tileBase tileThr.key.asid = some tileSpace ∧ validReg tileSpace (sVal tileBase tileThr (.s 0)) = none ∧
    tileSpace.htsize.toNat ≤ (sVal tileBase tileThr (.s 0)).toNat ∧ entryHere tileBase 0 1 0x80 = true ∧
    tileThr.ctx.intrap = false ∧ tileThr.ctx.outst = 0 := by decide +kernel

/-- The issuing thread with the address of the byte 8 of tile 1 in s2. -/
def tldThr : Thread := { thr with ctx := { thr.ctx with s2 := 0x100000008 } }

/-- The state in which `tldThr` issues. -/
def tldBase : State := { withThread tldThr with spaces := [tileSpace], cache := tileCache }

/-- The issuing thread with an address of an entry that is not valid, or past the tile, in s2. -/
def tldBound (v : Word) : Thread := { thr with ctx := { thr.ctx with s2 := v } }

theorem witness_TileBound_address : ∀ p ∈ [(0x700000008, 7), (0x100000220, 1)],
    issues { withThread (tldBound p.1) with spaces := [tileSpace], cache := tileCache } (tldBound p.1) {} = true ∧
    noneFrom (tldBound p.1).ctx (memFree (.s 0) false atS2) = true ∧ ((eaOf (tldBound p.1).ctx atS2).toNat / 2 ^ 32 = p.2) ∧
    (validHandle tileSpace (BitVec.ofNat 32 p.2) = none ∨ (validHandle tileSpace (BitVec.ofNat 32 p.2)).map tileSize = some 544 ∧
      (eaOf (tldBound p.1).ctx atS2).toNat % 2 ^ 32 = 544) ∧
    entryHere { withThread (tldBound p.1) with cache := tileCache } 0 1 p.2 = true := by decide +kernel

/-- `tldBase` with the frame of tile 1 in memory. -/
def farBase : State :=
  { tldBase with spaces := [{ tileSpace with handles := tileSpace.handles.map fun e => { e with frames := BitVec.allOnes 40 } }] }

theorem witness_TileAccess : issues tldBase tldThr {} = true ∧ noneFrom tldThr.ctx (memFree (.s 0) false atS2) = true ∧
    findSpace tldBase tldThr.key.asid = some tileSpace ∧ (eaOf tldThr.ctx atS2).toNat = 2 ^ 32 + 8 ∧
    (validHandle tileSpace 1).map (fun e => (decide (8 + 8 ≤ tileSize e), resident e 0, bankAwake tldBase e.hbench.toNat e.hiu.toNat (frameNo e 0))) =
      some (true, true, true) ∧ (launchOf tldBase tldThr.ctx.lslot).isNone = true ∧ entriesFull tldBase tldThr = false ∧
    tldThr.ctx.outst ≠ 15 ∧ entryHere tldBase 0 1 1 = true ∧ issues farBase tldThr {} = true ∧ entryHere farBase 0 1 1 = true ∧
    ((findSpace farBase 1).bind fun x => (validHandle x 1).map fun e => resident e 0) = some false := by decide +kernel
theorem witness_MatrixQuery : issues base thr {} = true ∧ noneFrom thr.ctx [(.s 0, false)] = true := by decide +kernel
theorem witness_StreamIssue : issues base thr {} = true ∧
    noneFrom thr.ctx [(.s 0, false), (.v 0, false), (.v 1, false), (.zero, false)] = true ∧ entriesFull base thr = false ∧ thr.ctx.outst ≠ 15 ∧
    (opdVal base thr 128 1 false (.v 0)).extractLsb' 96 32 = 0 ∧ (opdVal base thr 128 1 false (.v 0)).extractLsb' 64 32 = 0 := by decide +kernel
theorem witness_VolumeIssue : issues base thr {} = true ∧ entriesFull base thr = false ∧ (eaBase thr.ctx (.s 2) 0).toNat % 128 = 0 ∧
    noneFrom thr.ctx [(.s 0, true), (.s 2, false), (.v 0, false), (.v 1, false)] = true ∧ thr.ctx.outst ≠ 15 := by decide +kernel

/-- `base` with a valid volume of one dimension at the address 0x100: 64 elements of 8 bytes in the leaf at 0x800; its quarry is at 0x380. -/
def volBase : State :=
  let w : List Word := [0x1310006002, 0x300, 1, 0x380, 64]
  { base with
    mem := { base.mem with
      dev := (List.range 5).foldl (fun d i => writeVal d (0x6100 + 8 * i) 8 ((w.getD i 0).setWidth 128)) (writeVal base.mem.dev 0x6380 8 0x903) }
    cache := {
      clb := [{ bench := 0, asid := 1, recVa := 0x100, t := 0, leaf := 0x800 }]
      dir := [{ base := 0x6100, size := 128, kind := .shr (.benches [0]), since := 0 }, { base := 0x6380, size := 128, kind := .shr (.benches [0]), since := 0 }] } }

/-- A walk that finds an element, of which something holds. -/
def walked (r : Res Found) (f : State → Word → Nat → Bool) : Bool :=
  match r with
  | .ok s (.at ea t) => f s ea t
  | _ => false

theorem witness_VolumeStores : issues volBase thr {} = true ∧ entriesFull volBase thr = false ∧ walkHeld volBase thr.key = false ∧ thr.key.ctx ≠ 0 ∧ thr.walkFault = none ∧
    noneFrom thr.ctx [(.s 0, false), (.s 2, false), (.v 0, false)] = true ∧ (eaBase thr.ctx (.s 2) 0).toNat % 128 = 0 ∧ thr.ctx.outst ≠ 15 ∧
    walkTurn volBase thr.bench (nextSeq volBase) = true ∧
    walked (atomically volBase (walkStep volBase (walker volBase thr) { arr := nextSeq volBase } 0x100 8 (opdVal volBase thr 128 1 false (.v 0))))
      (fun s1 ea _ => findThread s1 thr.key == some thr && s1.flight.reqs.isEmpty &&
        located (translate (acquireL1 (endWalk s1 thr.key) 0 0 .dev) (.data 0 0) 1 (wantOf .st true) ea) fun p _ =>
          badKind s1 { newReq .st 0x100 8 .b64 (.nop {}) with dst := .s 0 } p == none) = true := by decide +kernel

theorem test_talloc : (after (.talloc {} 0x00 (.s 0) (.s 1))
    { tileBase with threads := [{ tileThr with ctx := { tileThr.ctx with s1 := 0x00020010 } }] }).map (·.ctx.s0) = some 4 := by decide +kernel
theorem test_talloc_full : (after (.talloc {} 0x00 (.s 0) (.s 1))
    { fullBase with threads := [{ tileThr with ctx := { tileThr.ctx with s1 := 0x00020010 } }] }).map (·.ctx.s0) = some 0 := by decide +kernel
theorem test_tinfo : (after (.tinfo {} 2 (.s 0) (.s 3)) tileBase).map (·.ctx.s0) = some (0x0004001010000000 &&& 0xFFFFFFFF00000000 ||| ((tyCode .f32).setWidth 64 <<< 24)) := by
  decide +kernel
theorem test_tile_bound : (after (.tfree {} (.s 0)) tileBase).map (fun t => (t.ctx.cause, t.ctx.detail, t.trap.tval)) =
    some (0x07, 0x010002, 0x80) := by decide +kernel
theorem test_tlde : (sent (.tlde {} { ty := .b64, d := .s 0, mem := atS2 }) tldBase).map (fun r => (r.op, r.n)) = [(.tlde 1 8, 8)] := by
  decide +kernel
theorem test_mma_accepted : (match exec (.mma {} { ty := .sbf8, np := 4, d := .s 0, a := .s 1, b := .s 2, c := .s 1 }) tileBase with
    | .next s => s.eng.cmds.map fun c => (c.kind, c.tok, c.np)
    | _ => []) = [(.mma, 0x80, 4)] := by decide +kernel
theorem test_cst_walks : (sent (.cst {} { ty := .b64, d := .s 0, base := .s 2, b := .v 1 }) volBase).map (fun r => (r.va, r.dat)) =
    [(0x808, 0x80)] := by decide +kernel
theorem test_sint_request : (sent (.sint {} { ty := .n32, d := .s 0, a := .v 0, b := .v 0, c := .zero }) base).length = 1 := by decide +kernel
theorem test_cpy_misaligned : (after (.cpy {} { op := .add, ty := .b64, d := .s 0, a := .s 1, b := .s 2, c := .s 0 }) base).map
    (fun t => (t.ctx.cause, t.trap.tval)) = some (5, 7) := by decide +kernel

/-! Threads and system. -/

/-- The issuing thread in user mode. -/
def userThr : Thread := { thr with ctx := { thr.ctx with sup := false } }

/-- The issuing thread inside a trap. -/
def nestedThr : Thread := { thr with ctx := { thr.ctx with intrap := true } }

/-- A launch that bounds the barrier words of the threads in its slot. -/
def aLaunch : LaunchSlot :=
  { n := 0, fn := 1, qid := 0, asid := 1, ctok := 0, tcount := 1, crew := 1, quota := 1, entry := 0, prio := 0, gx := 1, gy := 1, seed0 := 0
    seed1 := 0, seed2 := 0, sbase := 0, stack := 0, tbytes := 0x20000, ntile := 4, barw := 4, live := 1 }

/-- A thread of that launch. -/
def launchThr : Thread := { thr with ctx := { thr.ctx with lslot := 0 } }

/-- The state in which `launchThr` issues. -/
def launchBase : State := { withThread launchThr with queues := { launches := [aLaunch] } }

/-- With no issue unit listed there is no hold. -/
theorem noHold {l : List Iu} {k : Key} (h : l = []) : ∀ u ∈ l, ∀ r, some r ∈ u.holds → r.key ≠ k := by
  subst h; intro u hu; exact nomatch hu

theorem witness_ThreadRequests : issues base thr {} = true ∧ thr.ctx.outst ≠ 15 ∧ entriesFull base thr = false ∧ thr.ctx.sup = true ∧
    noneFrom thr.ctx ((.s 1, false) :: maskRegs { d := .s 1, edisp := 5, vcopy := 15, scopy := 15, rad := 2, sbench := 300 }) = true ∧
    noneFrom thr.ctx [(.s 1, false), (.s 2, false)] = true ∧ (sVal base thr (.s 2)).toNat / 2 ^ 49 % 8 ≤ 4 ∧
    findThread base ⟨thr.key.asid, 7⟩ = none := by decide +kernel
/-- The least index that the launch does not bound, and the greatest that it bounds. -/
theorem witness_BarrierIssue : issues launchBase launchThr {} = true ∧ noneFrom launchThr.ctx [(.s 1, false), (.s 2, false)] = true ∧
    launchThr.ctx.outst ≠ 15 ∧ launchOf launchBase launchThr.ctx.lslot = some aLaunch ∧ (3 : BitVec 32).toNat < aLaunch.barw.toNat ∧
    aLaunch.barw.toNat ≤ (4 : BitVec 32).toNat ∧ (sVal launchBase launchThr (.s 2) + 8 * (3 : BitVec 32).setWidth 64).toNat % 8 = 0 ∧
    asksHyps launchBase launchThr [(.s 1, false), (.s 2, false)] 8 { newReq .bar 0x118 8 .b64 (.bar {} (.s 1) (.s 2) 3) with ord := .ar, dst := .s 1 } = true ∧
    findSpace launchBase launchThr.key.asid = some fetchSpace ∧ launchThr.ctx.intrap = false ∧ launchThr.ctx.outst = 0 := by decide +kernel
theorem witness_SoftwareTraps : issues base thr {} = true ∧ findSpace base thr.key.asid = some fetchSpace ∧ thr.ctx.intrap = false ∧
    thr.ctx.outst = 0 ∧ noneFrom thr.ctx [(.s 1, false)] = true ∧ setOfIu (getIu base thr.bench (iuAt thr)) = none := by decide +kernel
theorem witness_TrapReturn : issues base thr {} = true ∧ thr.ctx.sup = true ∧ thr.ctx.outst = 0 ∧ base.flight.reqs = [] := by decide +kernel
theorem witness_CsrAccess : issues base thr {} = true ∧ noneFrom thr.ctx [(.s 2, false)] = true ∧ findSpace base thr.key.asid = some fetchSpace ∧
    thr.ctx.sup = true ∧ (sVal base thr (.s 2)).toNat % 8 ≤ 4 ∧ (sVal base thr (.s 2)).toNat / 32 % 8 ≤ 4 ∧
    issues (withThread userThr) userThr {} = true ∧ userThr.ctx.sup = false ∧
    issues { withThread userThr with ius := [{ bench := 0, iu := 0, cfg := 0x810000C0 }] } userThr {} = true ∧
    (getIu { withThread userThr with ius := [{ bench := 0, iu := 0, cfg := 0x810000C0 }] } 0 0).cfg.getLsbD 31 = true := by decide +kernel
theorem witness_YieldExit : issues launchBase launchThr {} = true ∧ findSpace launchBase launchThr.key.asid = some fetchSpace ∧
    launchThr.ctx.outst = 0 ∧ ¬storeLeft launchBase launchThr.key .dev ∧
    (∀ u ∈ launchBase.ius, ∀ r, some r ∈ u.holds → r.key ≠ launchThr.key) ∧ launchBase.flight.reqs = [] ∧
    launchBase.queues.launches.find? (fun l => l.n == launchThr.ctx.lslot.toNat) = some aLaunch := by
  refine ⟨by decide +kernel, by decide +kernel, by decide, ?_, noHold (show _ = [] from rfl), rfl, by decide +kernel⟩
  rintro ⟨r, h, -⟩
  exact nomatch h
theorem witness_MoveThread : issues base thr {} = true ∧ thr.ctx.outst = 0 ∧ ¬storeLeft base thr.key .dev ∧
    (∀ u ∈ base.ius, ∀ r, some r ∈ u.holds → r.key ≠ thr.key) ∧ placementWalk base thr.bench 5 0 = some 5 := by
  refine ⟨by decide +kernel, by decide, ?_, noHold (show _ = [] from rfl), by decide +kernel⟩
  rintro ⟨r, h, -⟩
  exact nomatch h

theorem test_sys : (after (.sys {} (.s 1) 0x123) base).map (fun t => (t.ctx.cause, t.ctx.detail, t.trap.tval, t.trap.saveW0.setWidth 57, t.ctx.s2)) =
    some (0x0C, 0x123, 7, (0x4C : BitVec 57), 0x10000000180) := by decide +kernel
theorem test_brk_resumes : (after (.brk {} 1) base).map (fun t => (t.ctx.cause, t.trap.saveW0.setWidth 57)) = some (0x0B, (0x40 : BitVec 57)) := by
  decide +kernel
theorem test_eret : (after (.eret {}) (withThread { thr with trap := { thr.trap with saveW0 := 0x0000000000000A04, tw1 := 0x05000000000000FE, saveS2 := 3, saveS3 := 0x30 } })).map
    (fun t => (t.ctx.pc, t.ctx.sup, t.ctx.p, t.ctx.s2, t.ctx.s3, t.ctx.cause)) = some (0xA04, false, 0xFF, 3, 0x30, 0) := by decide +kernel
theorem test_eret_user : (after (.eret {}) (withThread userThr)).map (fun t => (t.ctx.cause, t.ctx.sup)) = some (3, true) := by decide +kernel
theorem test_nested : (after (.trap {} (.s 1) 9) (withThread nestedThr)).map (fun t => (t.ctx.frz, t.ctx.pc)) = some (true, 0x40) := by decide +kernel
theorem test_csrr_id : (after (.csrr {} (.s 0) 0x010) base).map (·.ctx.s0) = some 1 := by decide +kernel
theorem test_csrw_mode : (after (.csrw {} (.s 1) 0x002) base).map (·.ctx.cause) = some 2 := by decide +kernel
theorem test_bar_bound : (after (.bar {} (.s 1) (.s 2) 4) launchBase).map (fun t => (t.ctx.cause, t.ctx.detail, t.trap.tval)) =
    some (8, 4, 4) := by decide +kernel
theorem test_exit : (after (.exit {}) launchBase) = none := by decide +kernel
theorem test_spawn_entry : (sent (.spawn {} { d := .s 1, edisp := 0xFFFFFFFE, vcopy := 0, scopy := 1, rad := 2, sbench := 300 }) base).map
    (fun r => match r.op with
      | .spawn x => x.entry
      | _ => 0) = [0x28] := by decide +kernel

/-! Issue, waits and traps as events. -/

/-- The state after reset with an instruction where the next step fetches it: `LI s0, 5`, a word of zeros. -/
def liBase : State := State.reset.withFetchWord 96 (Decode.encode (.li {} (.s 0) 5)).toNat

/-- A fetch that gives a word, of which something holds. -/
def fetched (r : Fetched) (f : State → IWord → Bool) : Bool :=
  match r with
  | .ok s iw => f s iw
  | _ => false

/-- `fetches` for a line that has been on the issue unit, with the word. -/
def fetchesWord (s : State) (b u : Nat) (t : Thread) (iw : IWord) : Bool :=
  iuRuns (cycleStart s b u) b u && !spentNow (cycleStart s b u) (getIu (cycleStart s b u) b u) &&
    chooseLine (cycleStart s b u) b u == some t && !t.yp && t.lastIu == some (b, u) &&
    fetched (fetchInstr (chosen (cycleStart s b u) t u) t u) fun s1 x => x == iw && findThread s1 t.key == some t && quiet s1 t &&
      (findSpace s1 t.key.asid).isSome

theorem witness_InstructionFetch : cycleFree State.reset 0 0 ∧ chooseLine (cycleStart State.reset 0 0) 0 0 = none ∧
    fetchesWord liBase 0 0 fetchThread (Decode.encode (.li {} (.s 0) 5)) = true ∧
    Decode.decode (Decode.encode (.li {} (.s 0) 5)) = .ok (.li {} (.s 0) 5) ∧
    fetchesWord (State.reset.withFetchWord 96 0) 0 0 fetchThread 0 = true ∧ Decode.decode 0 = .error ⟨0x01, 0x010000⟩ ∧
    fetchThread.ctx.intrap = false ∧ fetchThread.ctx.outst = 0 :=
  ⟨⟨by decide +kernel, by decide +kernel⟩, by decide +kernel, by decide +kernel, by decide +kernel, by decide +kernel, by decide +kernel, by decide,
    by decide⟩
theorem witness_StepRunsDecoded : liBase.run.agenda = .issue 0 0 :: [] ∧
    fetchesWord (openIssue { liBase with run := { liBase.run with agenda := [] } } 0 0) 0 0 fetchThread
      (Decode.encode (.li {} (.s 0) 5)) = true ∧
    ({ run := { agenda := [.event (.launchComplete 0), .idle 3] } } : State).run.agenda = .event (.launchComplete 0) :: [.idle 3] ∧
    State.reset.run.agenda = [] ∧ State.reset.flight.reqs = [] ∧ State.reset.threads = [] := by decide +kernel

/-- `thr` while it waits. -/
def waiting (w : Wait) : Thread := { thr with wait := w }

theorem witness_InstructionReissue : (∀ w ∈ [Wait.limit, .engq, .tile 1 0 0, .fence .acq .dev],
      findThread (withThread (waiting w)) thr.key = some (waiting w) ∧ mayResume (withThread (waiting w)) (waiting w) = true ∧
        inCl1 (waiting w) = true ∧ (waiting w).pend = none ∧ (waiting w).ctx.step = false ∧ fatalRec (waiting w).trap = none ∧
        (withThread (waiting w)).flight.reqs = []) ∧ thr.ctx.outst < 15 ∧ queueFull (withThread (waiting .engq)) thr.bench (iuAt thr) = false ∧
    frameReady { withThread (waiting (.tile 1 0 0)) with spaces := [tileSpace] } thr.key.asid 1 0 = true ∧
    fenceReady (withThread (waiting (.fence .acq .dev))) (waiting (.fence .acq .dev)) .acq .dev = true := by decide +kernel

/-- `thr` with a trap that waits. -/
def pendThr : Thread :=
  { thr with
    wait := .drain
    pend := some { cause := 0x0C, detail := 1, tval := 2, iw := 0, rvalid := false, ridx := 0, resume := 0x4C, word0 := 0, w1lo := 0 } }

theorem witness_TrapEntry : findThread (withThread pendThr) pendThr.key = some pendThr ∧ inCl1 pendThr = true ∧ pendThr.pend.isSome = true ∧
    pendThr.wait = .drain ∧ pendThr.ctx.outst = 0 ∧ pendThr.ctx.frz = false ∧ pendThr.cancel = false ∧ pendThr.ctx.step = false ∧
    findSpace (withThread pendThr) pendThr.key.asid = some fetchSpace := by decide +kernel
theorem witness_NestedTrap : issues (withThread nestedThr) nestedThr {} = true ∧ nestedThr.ctx.intrap = true ∧
    noneFrom nestedThr.ctx [(.s 1, false)] = true ∧ setOfIu (getIu (withThread nestedThr) nestedThr.bench (iuAt nestedThr)) = none := by decide +kernel
theorem witness_IssueChecks : findSpace base thr.key.asid = some fetchSpace ∧ current base = some thr ∧ quiet base thr = true ∧
    (getP thr.ctx 1 ^^ false) = false ∧ issues (withThread userThr) userThr {} = true ∧ userThr.ctx.sup = false ∧ userThr.ctx.intrap = false ∧
    userThr.ctx.outst = 0 ∧ 0x100 ≤ (0x100 : BitVec 12).toNat ∧ (0x1FF : BitVec 12).toNat < 0x200 := by decide +kernel

/-- `thr` whose s1 is pending and whose request has ended without a count, which no run reaches. -/
def pendingThr : Thread := { thr with ctx := { thr.ctx with pends := 2 } }

theorem witness_IssueChecks_pending : issues (withThread pendingThr) pendingThr {} = true ∧ isPend pendingThr.ctx (.s 1) false = true ∧
    isPend pendingThr.ctx (.s 0) false = false ∧ pendingThr.ctx.sup = true ∧ pendingThr.ctx.intrap = false ∧ pendingThr.ctx.outst = 0 := by
  decide +kernel

theorem test_step_li : (match step liBase with
    | .next s => (findThread s ⟨1, 1⟩).map fun t => (t.ctx.s0, t.ctx.pc)
    | _ => none) = some (5, 0xC) := by decide +kernel
theorem test_step_illegal : (match step (State.reset.withFetchWord 96 0) with
    | .next s => (findThread s ⟨1, 1⟩).map fun t => (t.ctx.cause, t.ctx.detail, t.ctx.pc)
    | _ => none) = some (1, 0x010000, 0x1000) := by decide +kernel
theorem test_trap_entry : (match exec (.trapEntry ⟨1, 1⟩) (withThread pendThr) with
    | .next s => (findThread s ⟨1, 1⟩).map fun t => (t.ctx.cause, t.trap.tval, t.ctx.intrap, t.trap.saveW0.setWidth 57)
    | _ => none) = some (0x0C, 2, true, (0x4C : BitVec 57)) := by decide +kernel

/-! Accesses are performed. -/

/-- A request of the issuing thread for the word at device address 0x6100. -/
def reqAt (op : ReqOp) (n : Nat) (ty : Ty) : Req :=
  { newReq op 0x100 n ty (.nop {}) with id := 1, key := ⟨1, 1⟩, pa := some (.dev 0x6100), dst := .s 0, sup := true, dat := 5 }

/-- The state with one request, on a line that the directory knows. -/
def reqBase (r : Req) : State :=
  { base with
    threads := [outThr]
    flight := { reqs := [r] }
    cache := { dir := [{ base := 0x6100, size := 128, kind := .shr (.benches [0]), since := 0 }] } }

/-- The same with the word's full/empty bit empty. -/
def emptyBase (r : Req) : State := { reqBase r with mem := { (reqBase r).mem with empty := [0xC20] } }

/-- The same with a barrier word of phase 2 and target 3, at which `n` threads have arrived. -/
def barBase (n : BitVec 24) : State :=
  let s := reqBase (reqAt .bar 8 .b64)
  { s with mem := { s.mem with dev := writeVal s.mem.dev 0x6100 8 (((2 : BitVec 16) ++ (3 : BitVec 24) ++ n).setWidth 128) } }

theorem witness_Plain : ∀ p ∈ [(ReqOp.ld, 8, Ty.b64), (.amo .add, 4, .i32), (.cas, 16, .b128), (.st, 1, .b8), (.addd .add, 8, .i64), (.cflush, 0, .b64),
      (.lde, 8, .b64), (.stf, 8, .b64), (.bar, 8, .b64), (.hold true, 8, .b64), (.ld, 16, .b128), (.st, 16, .b128)],
    Plain (reqBase (reqAt p.1 p.2.1 p.2.2)) outThr (reqAt p.1 p.2.1 p.2.2) 0x6100 := by
  simp only [List.forall_mem_cons]
  refine ⟨?_, ?_, ?_, ?_, ?_, ?_, ?_, ?_, ?_, ?_, ?_, ?_, fun _ h => nomatch h⟩ <;> constructor <;> decide +kernel

/-- The same load or store with one of its halves performed. -/
def halfReq (op : ReqOp) : Req := { reqAt op 16 .b128 with half := some (1, 5) }

theorem witness_Plain_half : Plain (reqBase (halfReq .ld)) outThr (halfReq .ld) 0x6100 ∧ Plain (reqBase (halfReq .st)) outThr (halfReq .st) 0x6100 ∧
    splits (halfReq .ld) (.dev 0x6100) = true ∧ splits (reqAt .ld 16 .b128) (.dev 0x6100) = true ∧ splits (reqAt .st 16 .b128) (.dev 0x6100) = true ∧
    splits (reqAt .ld 8 .b64) (.dev 0x6100) = false := by
  refine ⟨by constructor <;> decide +kernel, by constructor <;> decide +kernel, ?_, ?_, ?_, ?_⟩ <;> decide

theorem halves_join (v : Vec) : (v >>> 64) <<< 64 ||| (v &&& (BitVec.allOnes 128 >>> 64)) = v := by
  have low : ∀ i < 128, ((BitVec.allOnes 128 >>> 64 : BitVec 128)).getLsbD i = decide (i < 64) := by
    intro i hi
    simp only [BitVec.getLsbD_ushiftRight, BitVec.getLsbD_allOnes]
    apply decide_eq_decide.mpr
    omega
  refine BitVec.eq_of_getLsbD_eq fun i hi => ?_
  simp only [BitVec.getLsbD_or, BitVec.getLsbD_and, low i hi, BitVec.getLsbD_shiftLeft, BitVec.getLsbD_ushiftRight]
  by_cases h : i < 64
  · simp [h, hi]
  · rw [show 64 + (i - 64) = i by omega]
    simp [h, hi]

/-- Outside the ranges that hardware keeps, a load sees memory. -/
theorem plainBytes_of {s : State} {r : Req} {x : Space} (hs : findSpace s r.key.asid = some x) (h0 : wordView s x r.va.toNat = none)
    (h8 : wordView s x (r.va.toNat + 8) = none) : plainBytes s r := by
  intro v
  simp only [softView, hs, partView, h0, h8]
  split
  · rfl
  · exact halves_join v

theorem witness_plainBytes : plainBytes (reqBase (reqAt .ld 8 .b64)) (reqAt .ld 8 .b64) ∧
    plainBytes (reqBase (reqAt .ld 16 .b128)) (reqAt .ld 16 .b128) ∧ plainBytes (reqBase (halfReq .ld)) (halfReq .ld) ∧
    plainBytes (reqBase (reqAt (.hold true) 8 .b64)) (reqAt (.hold true) 8 .b64) := by
  refine ⟨?_, ?_, ?_, ?_⟩ <;> refine plainBytes_of (x := fetchSpace) ?_ ?_ ?_ <;> decide +kernel

/-- The state with a copy of the line in the IU's data L1. -/
def copyBase : State :=
  let s := reqBase (reqAt .ld 8 .b64)
  { s with cache := { s.cache with l1 := [{ bench := 0, iu := 0, line := .dev 0x6100, data := 7 }] } }

theorem witness_LoadsAndAtomics_copy : Plain copyBase outThr (reqAt .ld 8 .b64) 0x6100 ∧
    (l1Find copyBase 0 0 (lineOf (.dev 0x6100))).isSome = true := ⟨by constructor <;> decide +kernel, by decide +kernel⟩
theorem witness_LoadsAndAtomics :
    l1Find (reqBase (reqAt .ld 8 .b64)) 0 0 (lineOf (.dev 0x6100)) = none ∧ (reqAt .ld 8 .b64).ord = .rlx ∧
    physRead (reqBase (reqAt .cas 16 .b128)).mem (.dev 0x6100) 16 ≠ (reqAt .cas 16 .b128).dat := by decide +kernel
theorem witness_SyncWords : Plain (emptyBase (reqAt .stf 8 .b64)) outThr (reqAt .stf 8 .b64) 0x6100 ∧
    isFull (emptyBase (reqAt .stf 8 .b64)).mem 0x6100 = false ∧ isFull (reqBase (reqAt .lde 8 .b64)).mem 0x6100 = true ∧
    (reqBase (reqAt .lde 8 .b64)).flight.waiters = [] ∧
    dieWaiters (reqBase (reqAt .lde 8 .b64)) (Config.homeDie 0x6100) < Config.waitersPerDie := by
  refine ⟨by constructor <;> decide +kernel, by decide +kernel, by decide +kernel, rfl, ?_⟩
  simp [dieWaiters, reqBase]
/-- The last arrival and the one before it. -/
theorem witness_BarrierStep : Plain (barBase 2) outThr (reqAt .bar 8 .b64) 0x6100 ∧ Plain (barBase 1) outThr (reqAt .bar 8 .b64) 0x6100 ∧
    readVal (barBase 2).mem.dev 0x6100 8 = ((2 : BitVec 16) ++ (3 : BitVec 24) ++ (2 : BitVec 24)).setWidth 128 ∧
    (2 : BitVec 24).toNat + 1 = (3 : BitVec 24).toNat ∧ (1 : BitVec 24).toNat + 1 < (3 : BitVec 24).toNat ∧
    dieWaiters (barBase 1) (Config.homeDie 0x6100) < Config.waitersPerDie := by
  refine ⟨by constructor <;> decide +kernel, by constructor <;> decide +kernel, by decide +kernel, by decide, by decide, ?_⟩
  simp [dieWaiters, barBase, reqBase]

/-! Holds and recoverable faults. -/

/-- A hold of another thread on the line of device address 0x6100. -/
def otherHold : HoldReg := { key := ⟨1, 2⟩, line := .dev 0x6100, va := 0x100, granted := 0 }

/-- A state whose IU 0 of bench 0 holds that line, at time `n`. -/
def heldBase (n : Nat) : State :=
  let s := reqBase (reqAt .st 8 .b64)
  { s with run := { s.run with now := n }, ius := [{ bench := 0, iu := 0, holds := some otherHold :: List.replicate 7 none }] }

theorem witness_HoldEvents : 0x6100 < Config.hbmBytes ∧
    freeHold (reqBase (reqAt (.hold true) 8 .b64)) 0 0 = some 0 ∧
    l1Find (reqBase (reqAt (.hold true) 8 .b64)) 0 0 (lineOf (.dev 0x6100)) = none ∧
    findReq (heldBase 0) 1 = some (reqAt .st 8 .b64) ∧ mayPerform (heldBase 0) (reqAt .st 8 .b64) = true ∧
    (heldBase 0).mem.poison.contains 0x6100 = false ∧ lineHold (heldBase 0) (lineOf (.dev 0x6100)) = some otherHold ∧
    otherHold.key ≠ (reqAt .st 8 .b64).key ∧ (getIu (heldBase 512) 0 0).holds[0]? = some (some otherHold) ∧
    Config.leaseCycles ≤ leaseCount (heldBase 512).run.now otherHold ∧
    findReq (reqBase { reqAt .lde 8 .b64 with st := .retryAt 7 }) 1 = some { reqAt .lde 8 .b64 with st := .retryAt 7 } := by decide +kernel

/-- A bench fault of page 5. -/
def aFault : BenchFault := { bench := 113, asid := 1, page := 5, kinds := { r := true } }

/-- The state in which its message has not been sent. -/
def faultBase : State := { base with mmu := { bench := [aFault] } }

/-- An entry of the router of its die. -/
def aRouter : RouterEnt := { router := 1, asid := 1, page := 5, ports := [112], kinds := { w := true } }

/-- A message of one bench at the root core, the accesses that wait for the page in its three ways, and one that waits for another. -/
def wokenBase : State :=
  { base with
    threads := []
    mmu := { inbox := [{ asid := 1, page := 5, kinds := { r := true }, src := some 0 }], bench := [{ aFault with bench := 0 }] }
    flight := { reqs := [
      { reqAt .ld 8 .b64 with va := 0x5008, fva := 0x5008, pa := none, st := .fault 5 },
      { reqAt .st 8 .b64 with id := 2, va := 0x5010, fva := 0x5010, pa := none, st := .side 5, side := true },
      { reqAt .ld 8 .b64 with id := 3, va := 0x5018, fva := 0x5018, pa := none, st := .record 1 5 },
      { reqAt .ld 8 .b64 with id := 4, va := 0x6000, fva := 0x6000, pa := none, st := .fault 6 }] } }

/-- A thread whose fetch waits for a page, and its record. -/
def fetchWaits : Thread :=
  { thr with wait := .fetch, ctx := { thr.ctx with outst := 1 }, trap := { thr.trap with r2 := { valid := true, va := 0x40 } } }

/-- The fetch, to be tried again. -/
def fetchReq : Req := { reqAt .fetch 0 .b64 with va := 0, fva := 0x40, pa := none, st := .replay (some 2), ri := some 2 }

/-- A load to be tried again with a record. -/
def loadReplay : Req := { reqAt .ld 8 .b64 with pa := none, fva := 0x100, st := .replay (some 0), ri := some 0 }

/-- A store in the side log whose page has come. -/
def sideStore : Req := { reqAt .st 8 .b64 with pa := none, fva := 0x100, st := .sideReplay, side := true }

theorem witness_FaultEvents : (faultBase.mmu.bench.find? fun x => x.bench == 113 && x.asid == 1 && x.page == 5) = some aFault ∧
    aFault.sent = false ∧ aFault.bench < Config.benches ∧ routerFind faultBase (dieOf aFault.bench) 1 5 = none ∧
    routerFull faultBase (dieOf aFault.bench) = false ∧ routerFind faultBase rootRouter 1 5 = none ∧ routerFull faultBase rootRouter = false ∧
    routerFind { faultBase with mmu := { faultBase.mmu with router := [aRouter] } } (dieOf aFault.bench) 1 5 = some aRouter ∧
    (wokenBase.mmu.inbox.map (·.src) = [some 0] ∧ wokenBase.mmu.router = [] ∧ wokenBase.flight.reqs.map (fun r => (r.id, r.fva.toNat / 4096, r.st)) =
        [(1, 5, .fault 5), (2, 5, .side 5), (3, 5, .record 1 5), (4, 6, .fault 6)] ∧
      routerFind wokenBase (dieOf 0) 1 5 = none) := by decide +kernel
/-- A router with no room for another page. -/
theorem witness_FaultEvents_full : let s : State := { faultBase with mmu := { faultBase.mmu with router := List.replicate 4096 { aRouter with page := 6 } } }
    routerFind s (dieOf aFault.bench) 1 5 = none ∧ routerFull s (dieOf aFault.bench) = true := by
  refine ⟨?_, ?_⟩
  · simp only [routerFind, List.find?_eq_none]
    intro x hx
    rw [List.eq_of_mem_replicate hx]
    decide
  · simp only [routerFull, List.filter_replicate]
    rw [if_pos (by decide), List.length_replicate]
    decide
theorem witness_FaultEvents_replay : (let s := { withThread fetchWaits with flight := { reqs := [fetchReq] } }
      findThread s fetchWaits.key = some fetchWaits ∧ inCl1 fetchWaits = true ∧ fetchWaits.pend = none ∧ fetchWaits.ctx.frz = false ∧
        fetchWaits.cancel = false ∧ fatalRec fetchWaits.trap = none ∧ fetchReq.key = fetchWaits.key ∧ fetchReq.st = .replay (some 2)) ∧
    findReq (reqBase loadReplay) 1 = some loadReplay ∧ canPerform (reqBase loadReplay) loadReplay = true ∧ isResultOp loadReplay.op = true := by decide +kernel

/-- The state that a translation leaves. -/
def leftBy (r : Trans) : State :=
  match r with
  | .ok _ s => s
  | _ => {}

theorem located_at {r : Trans} {p : Phys} (h : located r (fun q _ => q == p) = true) : r = .ok p (leftBy r) := by
  cases r <;> simp_all [located, leftBy]

theorem witness_Replayable : ∃ s1, Replayable (reqBase sideStore) s1 outThr sideStore 0x6100 := by
  refine ⟨leftBy (translate (reqBase sideStore) (.data 0 0) 1 (wantOf .st true) 0x100), by decide +kernel, rfl, by decide +kernel, by decide,
    located_at (by decide +kernel), ?_⟩
  constructor <;> decide +kernel

theorem test_fault_message : (next (.faultMessage 113 1 5) { faultBase with mmu := { faultBase.mmu with router := [aRouter] } }).mmu.router =
    [{ aRouter with ports := [112, 113], kinds := { r := true, w := true } }] := by decide +kernel
theorem test_wake : (next (.wake 1 5 0 []) wokenBase).flight.reqs.map (·.st) =
    [.pending, .sideReplay, .replay (some 1), .fault 6] := by decide +kernel
theorem test_barrier_last : (regs (next (.barStep 1) (barBase 2))).map (·.s0) = some 2 ∧
    readVal (next (.barStep 1) (barBase 2)).mem.dev 0x6100 8 = 0x0003000003000000 := by decide +kernel
theorem test_stf_fills : (next (.syncAccessArrival 1) (emptyBase (reqAt .stf 8 .b64))).mem.empty = [] := by decide +kernel
theorem test_amo_old : (regs (next (.deliverResult 1) { reqBase (reqAt (.amo .add) 4 .i32) with
      mem := { base.mem with dev := writeVal base.mem.dev 0x6100 4 0xFFFFFFFF } })).map (fun c : Ctx => (c.s0, c.pends, c.outst)) =
    some (0xFFFFFFFFFFFFFFFF, 0, 0) := by decide +kernel
theorem test_hold_grant : (regs (next (.holdGrant 1) (reqBase (reqAt (.hold true) 8 .b64)))).map (fun c : Ctx => (c.hslot0, c.hact)) =
    some (8, true) := by decide +kernel

/-! Engine commands. -/

/-- A command of the issuing thread with its token at the address 0x100. -/
def aCmd (k : CmdKind) (ty : Ty) : Cmd :=
  { id := 1, key := ⟨1, 1⟩, lslot := 0xFF, bench := 0, iu := 0, kind := k, iw := 0, ty := ty, tok := 0x100, a := 0, b := 0, c := 0, sup := true }

/-- The state with one command in the queue of IU 0, and a directory that knows the lines of its token and its data. -/
def cmdBase (c : Cmd) : State :=
  { withThread thr with
    spaces := [tileSpace]
    eng := { cmds := [c] }
    ius := [{ bench := 0, iu := 0, queue := [1] }]
    cache := { dir := [0x6100, 0x6180, 0x6200].map fun a => { base := a, size := 128, kind := .shr (.benches [0]), since := 0 } } }

/-- A tensor of `n` elements at an address. -/
def tensorRec (va n : Nat) (ty : Ty) : BitVec 1024 :=
  BitVec.ofNat 1024 (n * 2 ^ 128 + va * 2 ^ 64 + (tyCode ty).toNat * 2 ^ 16 + 1)

/-- A peer behind port 3, window 2, of 4096 bytes, without a signal. -/
def peerRec : BitVec 1024 := BitVec.ofNat 1024 (4096 * 2 ^ 128 + 2 * 2 ^ 64 + 9 * 2 ^ 32 + 8 * 2 ^ 16 + 4)

/-- A copy of two `.n32` elements from 0x180 to 0x200 at element `n`. -/
def cpyAt (k : CmdKind) (n : Nat) : Cmd :=
  { aCmd k .n32 with st := .started, rec1 := tensorRec 0x180 2 .n32, rec2 := tensorRec 0x200 2 .n32, pos := n }

/-- A link command at element `n`. -/
def linkAt (k : CmdKind) (n : Nat) : Cmd :=
  { aCmd k .n32 with st := .started, rec1 := tensorRec 0x180 2 .n32, rec2 := peerRec, pos := n, ports := [3] }

/-- A matrix command that has computed tile 2. -/
def macAt : Cmd := { aCmd .macc .f32 with st := .started, out := some 2, shadow := [1, 2], count := 1, b := 2, ran := true }

/-- An `MLDW` that has read its bank. -/
def mldwAt : Cmd := { aCmd .mldw .sbf8 with st := .started, count := 16, a := 1, ran := true }

/-- An `MMA` with plane-steps to make. -/
def mmaAt : Cmd := { aCmd .mma .sbf8 with st := .started, out := some 2, shadow := [1], count := 1, b := 2, ran := true, todo := 5 }

theorem witness_Working : ∀ c ∈ [cpyAt .cpy 2, cpyAt .cred 2, linkAt .xcpy 2, linkAt .xred 2, mldwAt, macAt,
    cpyAt .cpy 1, cpyAt .cred 0, linkAt .xcpy 1, linkAt .xred 0, mmaAt], Working (cmdBase c) c := by
  simp only [List.forall_mem_cons]
  refine ⟨?_, ?_, ?_, ?_, ?_, ?_, ?_, ?_, ?_, ?_, ?_, fun _ h => nomatch h⟩ <;> constructor <;> decide +kernel

/-- A location that an engine found. -/
def engFound (r : Eng) (p : Phys) : Bool :=
  match r with
  | .ok _ q => q == p
  | _ => false

/-- The state that it left. -/
def engLeft (r : Eng) : State :=
  match r with
  | .ok s _ => s
  | _ => {}

theorem engFound_at {r : Eng} {p : Phys} (h : engFound r p = true) : r = .ok (engLeft r) p := by
  cases r <;> simp_all [engFound, engLeft]

theorem witness_TokenFree : ∀ c ∈ [cpyAt .cpy 2, cpyAt .cred 2, linkAt .xcpy 2, linkAt .xred 2, mldwAt, macAt],
    ∃ s1, TokenFree (cmdBase c) s1 c 0x6100 := by
  simp only [List.forall_mem_cons]
  refine ⟨?_, ?_, ?_, ?_, ?_, ?_, fun _ h => nomatch h⟩ <;>
    refine ⟨engLeft (tokenAt (cmdBase _) _), engFound_at (by decide +kernel), ?_, ?_, ?_, ?_, ?_, ?_, ?_, ?_⟩ <;> decide +kernel
theorem witness_EngineCommandsEnd : (tensorOf (tensorRec 0x180 2 .n32)).map (fun x => (elements x, perUnit x.ety x.ety)) = some (2, 1) ∧
    (tensorOf (tensorRec 0x200 2 .n32)).isSome = true ∧ (peerOf peerRec).map (·.sigen) = some false ∧
    firstMatrix (cmdBase mldwAt) mldwAt ∧ firstMatrix (cmdBase macAt) macAt ∧
    ([cpyAt .cpy 2, cpyAt .cred 2, macAt].all fun c => (publishTile (atHome (engLeft (tokenAt (cmdBase c) c)) c 0x6100) c).isSome) = true ∧
    (findSpace (cmdBase macAt) 1).isSome = true := by
  refine ⟨?_, ?_, ?_, ⟨?_, ?_⟩, ⟨?_, ?_⟩, ?_, ?_⟩ <;> decide +kernel

/-- A result, of which something holds. -/
def resIs {α : Type} (r : Res α) (f : State → α → Bool) : Bool :=
  match r with
  | .ok s x => f s x
  | _ => false

/-- An access by virtual address that is performed, with what it gives. -/
def vIs (r : VRes) (f : State → Vec → Bool) : Bool :=
  match r with
  | .ok s v => f s v
  | _ => false

/-- A unit of two tensors that is read, and what follows. -/
def unitRead (c : Cmd) (f : Tensor → Tensor → State → List Byte → Bool) : Bool :=
  match tensorOf c.rec1, tensorOf c.rec2 with
  | some x, some y => decide (c.pos * perUnit x.ety y.ety < elements x) && !y.tile && perUnit x.ety y.ety == 1 &&
      resIs (readUnit (cmdBase c) c x c.pos (perUnit x.ety y.ety) (sourceBytes x.ety y.ety)) fun s1 l => unitOk x.ety y.ety l && f x y s1 l
  | _, _ => false

/-- A copy of the same elements to row 0 of tile 3. -/
def toTile : Cmd := { cpyAt .cpy 1 with rec2 := tensorRec (3 * 2 ^ 32) 2 .n32 + 2 ^ 10 }

/-- Its unit is read. -/
def unitReads (c : Cmd) : Bool :=
  match tensorOf c.rec1, tensorOf c.rec2 with
  | some x, some y => resIs (readUnit (cmdBase c) c x c.pos (perUnit x.ety y.ety) (sourceBytes x.ety y.ety)) fun _ l => unitOk x.ety y.ety l
  | _, _ => false

/-- The state with one command and port 3 up. -/
def upBase (c : Cmd) : State := { cmdBase c with fw := { portsUp := [3] } }

/-- The same for a link command. -/
def linkRead (c : Cmd) : Bool :=
  match tensorOf c.rec1, peerOf c.rec2 with
  | some x, some _ => decide (c.pos * perUnit x.ety x.ety < elements x) &&
      resIs (readUnit (upBase c) c x c.pos (perUnit x.ety x.ety) (unitBytes x.ety)) fun _ _ => true
  | _, _ => false

/-- A link command whose elements are sent and whose signal is due. -/
def signalled : Cmd := { linkAt .xcpy 2 with rec2 := peerRec + 2 ^ 48 }

theorem witness_EngineCommandsWork :
    unitRead (cpyAt .cpy 1) (fun x y s1 l => resIs (writeMany s1 (whoCmd (cpyAt .cpy 1)) (tensorVa y (1 * perUnit x.ety y.ety))
      (convUnit (cpyAt .cpy 1) x y l).1.length (tensorVa y (1 * perUnit x.ety y.ety)) (convUnit (cpyAt .cpy 1) x y l).1
      ((convUnit (cpyAt .cpy 1) x y l).1.length + 1)) fun _ _ => true) = true ∧
    unitReads toTile = true ∧ ((tensorOf toTile.rec1).map (elements ·), (tensorOf toTile.rec2).map (·.tile)) = (some 2, some true) ∧
    unitRead (cpyAt .cred 0) (fun x y s1 l => vIs (vAccess s1 (whoCmd (cpyAt .cred 0)) (tensorVa y 0) (bytes x.ety)
      (.amo .add .n32 (BitVec.ofNat 128 (natOfBytes l)) true)) fun _ _ => true) = true ∧
    linkRead (linkAt .xcpy 1) = true ∧ linkRead (linkAt .xred 0) = true ∧
    portUp (upBase (linkAt .xcpy 1)) (linkAt .xcpy 1) = true ∧ portUp (upBase (linkAt .xred 0)) (linkAt .xred 0) = true ∧
    (peerOf signalled.rec2).map (·.sigen) = some true ∧ (tensorOf signalled.rec1).map (fun x => (elements x, perUnit x.ety x.ety)) = some (2, 1) ∧
    portUp (upBase signalled) signalled = true := by decide +kernel
theorem witness_EngineCommandsWork_tile : Working (cmdBase toTile) toTile := by constructor <;> decide +kernel
/-- The signal's clause: the command with its signal sent, and its token free. -/
theorem witness_EngineCommandsEnd_signal : Working (upBase signalled) signalled ∧
    ∃ s1, TokenFree (putCmd (emit (upBase signalled) (.peerSignal 9 2 0 (signalled.sig.setWidth 64))) { signalled with ran := true }) s1
      { signalled with ran := true } 0x6100 := by
  refine ⟨by constructor <;> decide +kernel, engLeft (tokenAt _ _), engFound_at (by decide +kernel), ?_, ?_, ?_, ?_, ?_, ?_, ?_, ?_⟩ <;> decide +kernel
theorem witness_EngineCommandsWork_link : ∀ c ∈ [linkAt .xcpy 1, linkAt .xred 0, signalled], Working (upBase c) c := by
  simp only [List.forall_mem_cons]
  refine ⟨?_, ?_, ?_, fun _ h => nomatch h⟩ <;> constructor <;> decide +kernel

/-- Matrix commands at the head of their queue: `MACC` of accumulator 0 of one row, `MCVT`, `MMA` and `MLDW`. -/
def headMacc : Cmd := { aCmd .macc .f32 with a := 0x1000000000002, b := 3, c := 1 }
def headMcvt : Cmd := { aCmd .mcvt .sbf8 with a := 0x1000000000003, b := 1, np := 4 }
def headMma : Cmd := { aCmd .mma .sbf8 with a := 0x1000000000001, b := 2, c := 1, np := 4 }
def headMldw : Cmd := { aCmd .mldw .sbf8 with a := 1 }

/-- A `MACC` of no row. -/
def headZero : Cmd := { aCmd .macc .f32 with a := 2, b := 3, c := 1 }

/-- `cmdBase` with four blocks of zeros in tile 1, and an engine whose bank 0 holds them. -/
def matBase (c : Cmd) : State :=
  let blk := bytesOfBlock (zeroBlock .sbf8)
  { cmdBase c with
    mem := { (cmdBase c).mem with tiles := writeBytes [] (tileAddr 1 1 0) (blk ++ blk ++ blk ++ blk) }
    eng := { cmds := [c], mats := [{ bench := 0, group := 0, bank0 := { tag := some (tagOf 1 { idx := 1 } 0), fmt := .sbf8, cols := List.replicate 16 blk } }] } }

/-- The state of a refill that went through. -/
def refillLeft (r : Refill) : State :=
  match r with
  | .ok s => s
  | _ => {}

/-- A refill that went through. -/
def refillOk (r : Refill) : Bool :=
  match r with
  | .ok _ => true
  | _ => false

theorem refill_at {r : Refill} (h : refillOk r = true) : r = .ok (refillLeft r) := by
  cases r <;> simp_all [refillOk, refillLeft]

/-- The state and the command at which its loading begins. -/
def beginAt (c : Cmd) : State := beginMatrix (settleTurn (matBase c) c.bench (groupOf c.iu)) c
def begun (c : Cmd) : Cmd := { c with st := .started, began := (settleTurn (matBase c) c.bench (groupOf c.iu)).run.now }

/-- Where the tiles of a command leave the state. -/
def tilesAt (c : Cmd) : State := refillLeft (loadTiles (engLeft (tokenAt (beginAt c) (begun c))) (begun c) (tilesOf c))

theorem witness_LoadsFrom : ∀ c ∈ [headMacc, headMcvt, headMma, headMldw, headZero], LoadsFrom (matBase c) c (beginAt c) (begun c) := by
  simp only [List.forall_mem_cons]
  refine ⟨?_, ?_, ?_, ?_, ?_, fun _ h => nomatch h⟩ <;>
    refine ⟨by decide, by decide +kernel, .inl ⟨?_, rfl, rfl⟩⟩ <;> constructor <;> decide +kernel
/-- A command that has started and waits for a page of a tile. -/
theorem witness_LoadsFrom_again : let c := { headMacc with st := .started }
    LoadsFrom (cmdBase c) c (cmdBase c) c := by
  refine ⟨by decide, by decide +kernel, .inr ⟨?_, rfl, rfl, rfl⟩⟩
  constructor <;> decide +kernel
theorem witness_Loads : ∀ c ∈ [headMacc, headMcvt, headMma, headMldw],
    Loads (beginAt c) (engLeft (tokenAt (beginAt c) (begun c))) (begun c) tileSpace ∧
      loadTiles (engLeft (tokenAt (beginAt c) (begun c))) (begun c) (tilesOf c) = .ok (tilesAt c) := by
  have h : ∀ c, engFound (tokenAt (beginAt c) (begun c)) (.dev 0x6100) = true → findSpace (beginAt c) 1 = some tileSpace →
      (rolesFail tileSpace (rolesOf (begun c).kind (begun c).ty (begun c).a (begun c).b (begun c).c)).isNone = true → (begun c).key.asid = 1 →
      ((begun c).kind = .mldw ∨ refAux (begun c).a ≠ 0) →
      migrateAll (engLeft (tokenAt (beginAt c) (begun c))) (begun c) (tilesOf (begun c)) = some (engLeft (tokenAt (beginAt c) (begun c))) →
      isBusy (engLeft (tokenAt (beginAt c) (begun c))) (begun c) = false → bankBusy (engLeft (tokenAt (beginAt c) (begun c))) (begun c) = false →
      findSpace (engLeft (tokenAt (beginAt c) (begun c))) 1 = some tileSpace →
      refillOk (loadTiles (engLeft (tokenAt (beginAt c) (begun c))) (begun c) (tilesOf c)) = true →
      Loads (beginAt c) (engLeft (tokenAt (beginAt c) (begun c))) (begun c) tileSpace ∧
        loadTiles (engLeft (tokenAt (beginAt c) (begun c))) (begun c) (tilesOf c) = .ok (tilesAt c) := by
    intro c h1 h2 h3 h4 h5 h6 h7 h8 h9 h10
    exact ⟨⟨⟨_, by rw [h4]; exact h2, Option.isNone_iff_eq_none.mp h3⟩, h5, ⟨_, _, engFound_at h1, h6⟩, h7, h8, by rw [h4]; exact h9⟩, refill_at h10⟩
  simp only [List.forall_mem_cons]
  refine ⟨h _ ?_ ?_ ?_ ?_ ?_ ?_ ?_ ?_ ?_ ?_, h _ ?_ ?_ ?_ ?_ ?_ ?_ ?_ ?_ ?_ ?_, h _ ?_ ?_ ?_ ?_ ?_ ?_ ?_ ?_ ?_ ?_,
    h _ ?_ ?_ ?_ ?_ ?_ ?_ ?_ ?_ ?_ ?_, fun _ h => nomatch h⟩ <;> decide +kernel
theorem witness_matrix : (let c := headMma
    let b := getBank (getMat (tilesAt c) c.bench (groupOf c.iu)) c.bank
    b.tag = some (tagOf 1 (getHandle tileSpace 1) 0) ∧
      (getBank (getMat (engLeft (tokenAt (beginAt c) (begun c))) c.bench (groupOf c.iu)) c.bank).tag = some (tagOf 1 (getHandle tileSpace 1) 0) ∧
      (computeMma (tilesAt c) (begun c) (getHandle tileSpace 1) (getHandle tileSpace 2) b.fmt (b.cols.map (blockOf b.fmt))).status = 0) ∧
    (bankCols (tilesAt headMldw) 1 (getHandle tileSpace 1) (refRow headMldw.a)).2 = true ∧
    tilesOf headMma = [1, 2] ∧ tilesOf headMacc = [2, 3] ∧ tilesOf headMldw = [1] ∧ refAux headZero.a = 0 ∧
    engFound (tokenAt (beginAt headZero) (begun headZero)) (.dev 0x6100) = true ∧ findSpace (beginAt headZero) 1 = some tileSpace ∧
    (rolesFail tileSpace (rolesOf .macc .f32 headZero.a headZero.b headZero.c)).isNone = true := by decide +kernel

/-! Stream turns and engine rests. -/

/-- A list of `n` elements at an address. -/
def listAt (va n : Nat) : Vec := BitVec.ofNat 128 (n * 2 ^ 64 + va)

/-- `SINT` of two lists of one element, at a position. -/
def sintReq (p : StrmPos) : Req :=
  { reqAt (.strm .sint (listAt 0x100 1) (listAt 0x180 1) (listAt 0x200 1) p) 0 .n32 with va := 0, pa := none, ord := .rel }

/-- The state with that request, and a directory that knows the three lines. -/
def sintBase (p : StrmPos) : State :=
  { reqBase (sintReq p) with cache := (cmdBase (aCmd .cpy .b64)).cache }

/-- The positions of the clauses: nothing kept, two elements that differ, two that agree, the end. -/
def posRead : StrmPos := {}
def posPure : StrmPos := { keepA := some 1, keepB := some 2 }
def posWrite : StrmPos := { keepA := some 2, keepB := some 2 }
def posEnd : StrmPos := { ia := 1, nout := 1 }

theorem witness_Turning : ∀ p ∈ [posRead, posPure, posWrite, posEnd],
    Turning (sintBase p) (sintReq p) .sint (listAt 0x100 1) (listAt 0x180 1) (listAt 0x200 1) p := by
  simp only [List.forall_mem_cons]
  refine ⟨?_, ?_, ?_, ?_, fun _ h => nomatch h⟩ <;> constructor <;> decide +kernel

/-- What an access by virtual address leaves and gives. -/
def vLeft (r : VRes) : State × Vec :=
  match r with
  | .ok s v => (s, v)
  | _ => ({}, 0)

theorem vIs_at {r : VRes} (h : vIs r (fun _ _ => true) = true) : r = .ok (vLeft r).1 (vLeft r).2 := by
  cases r <;> simp_all [vIs, vLeft]

theorem witness_ElemMoves : (∃ s1, ElemMoves 0 (turnOpens (sintBase posPure) (sintReq posPure)).1 (turnOpens (sintBase posPure) (sintReq posPure)).2 s1) ∧
    (∃ s1, ElemMoves 0 (turnOpens (sintBase posWrite) (sintReq posWrite)).1 (turnOpens (sintBase posWrite) (sintReq posWrite)).2 s1) ∧
    (∃ q s1, ElemMove (turnOpens (sintBase posRead) (sintReq posRead)).1 (turnOpens (sintBase posRead) (sintReq posRead)).2 q s1 ∧
      q.ia + q.ib = placeOf (sintReq posRead)) := by
  refine ⟨⟨_, _, .pure .sint _ _ _ posPure rfl rfl, by decide⟩, ⟨_, _, .write .sint _ _ _ posWrite _ _ _ _ _ rfl rfl (vIs_at (by decide +kernel)), by decide⟩,
    ⟨_, _, .read .sint _ _ _ posRead _ _ _ _ _ rfl rfl (vIs_at (by decide +kernel)) rfl, by decide⟩⟩

theorem witness_StreamTurns : (match nextTurn .sint .n32 (listAt 0x100 1) (listAt 0x180 1) (listAt 0x200 1) posRead with
      | .read va m _ => vIs (vAccess (sintBase posRead) (whoOf (sintReq posRead)) va m .read) fun _ _ => true
      | _ => false) = true ∧
    (match nextTurn .sint .n32 (listAt 0x100 1) (listAt 0x180 1) (listAt 0x200 1) posPure with
      | .pure q => q == { ia := 1, keepB := some 2 }
      | _ => false) = true ∧
    (match nextTurn .sint .n32 (listAt 0x100 1) (listAt 0x180 1) (listAt 0x200 1) posWrite with
      | .write va m v _ => va == 0x200 && vIs (vAccess (sintBase posWrite) (whoOf (sintReq posWrite)) va m (.write (v.setWidth 128))) fun _ _ => true
      | _ => false) = true ∧
    (match nextTurn .sint .n32 (listAt 0x100 1) (listAt 0x180 1) (listAt 0x200 1) posEnd with
      | .finish v => v == 1
      | _ => false) = true ∧
    findThread (sintBase posEnd) (sintReq posEnd).key = some outThr ∧ inCl1 outThr = true ∧ outThr.pend = none ∧ outThr.ctx.frz = false ∧
    outThr.cancel = false ∧ fatalRec outThr.trap = none ∧ (sintReq posEnd).ri = none ∧
    (∀ q ∈ (sintBase posEnd).flight.reqs, q.key = (sintReq posEnd).key → isUnrecorded q = false) ∧
    listLb (listAt 0x100 1) = 0 ∧ listLen (listAt 0x100 1) = 1 ∧ (1 : Word).toNat < (2 : Word).toNat := by decide +kernel

/-- An `MLDW` in progress in Memory mode. -/
def restBase : State :=
  let c : Cmd := { headMldw with st := .started }
  { cmdBase c with pkg := { mode := .memory }, eng := { cmds := [c], mats := [{ bench := 0, group := 0, loading := some 1 }] } }

/-- A space with tile 4, whose frame is not resident, beside the others. -/
def restSpace : Space :=
  { tileSpace with
    tback := 0
    handles := { idx := 4, v := true, nfr := 1, frames := BitVec.allOnes 40, rows := 1, cols := 128, fmt := (tyCode .b8).setWidth 8 } :: tileSpace.handles }

/-- The state with that space, in which the page of the tile's backing is mapped. -/
def refillBase : State :=
  { base with spaces := [restSpace], mem := { base.mem with dev := writeVal base.mem.dev 0x5400 8 ((leafPte 8).setWidth 128) } }

/-- `base` after 65,536 cycles. -/
def idleBase : State := { base with run := { base.run with now := 65536 } }

/-- A state with a bank that wakes. -/
def bankBase : State := { base with ius := [{ bench := 0, iu := 0, banks := [(5, .waking 0)] }] }

theorem witness_EngineRests : restBase.pkg.mode = .memory ∧ (getMat restBase 0 0).gated = false ∧
    inProgress restBase 0 0 = [{ headMldw with st := .started }] ∧ findCmd restBase 1 = some { headMldw with st := .started } ∧
    inProgress { base with pkg := { mode := .memory } } 0 0 = [] ∧ (getMat { base with pkg := { mode := .memory } } 0 0).gated = false ∧
    groupHas idleBase 0 0 = false ∧ (getMat idleBase 0 0).gated = false ∧ (getMat idleBase 0 0).idleSince + 65536 ≤ idleBase.run.now ∧
    inProgress idleBase 0 0 = [] ∧
    (let h := getHandle restSpace 4;
      findSpace refillBase 1 = some restSpace ∧ frameWaiters refillBase 1 4 0 = [] ∧
      refillOk (backingPages refillBase 0 1 restSpace 4 0 (tileSize h) 4) = true ∧
      (takeFrame (refillLeft (backingPages refillBase 0 1 restSpace 4 0 (tileSize h) 4)) 0 0).map (·.2) = some 0 ∧ h.v = true ∧ resident h 0 = false ∧ 0 < h.nfr.toNat ∧ h.lost.getLsbD 0 = false) ∧
    (let h := getHandle restSpace 1;
      h.v = true ∧ 0 < h.nfr.toNat ∧ resident h 0 = true ∧ h.pin.getLsbD 0 = false) := by decide +kernel
/-- Bank 5 wakes; bank 23, the last, may power down. -/
theorem witness_EngineRests_banks : (5, BankSt.waking 0) ∈ (getIu bankBase 0 0).banks ∧ residents bankBase 0 0 = [] ∧ 23 < 24 ∧
    bankAwake bankBase 0 0 23 = true := by decide +kernel

/-! Lines, spaces, units and sets. -/

/-- A line on the ready list of bench 0. -/
def listedThr : Thread := { thr with key := ⟨1, 2⟩, loc := .placed .cl2, lastIu := none, ready := some { level := 14, since := 0, join := 1 } }

/-- The state with that line alone, at time 65,536. -/
def listBase : State := { withThread listedThr with run := { now := 65536 } }

/-- IU 0 of bench 0 with a limit of one line, and the other units of the bench disabled. -/
def oneLine : List Iu := (List.range 256).map fun u => { bench := 0, iu := u, cfg := if u = 0 then 0x81 else 0 }

/-- A line that waits in the CL1 of IU 0. -/
def parkedThr : Thread := { outThr with key := ⟨1, 3⟩, wait := .drain, slot := 1 }

/-- Two lines where one fits. -/
def tightBase : State := { base with threads := [thr, parkedThr], ius := [{ bench := 0, iu := 0, cfg := 0x81 }] }

/-- A line on its way into the CL1 of IU 0, with a result that waits. -/
def movingThr : Thread := { outThr with loc := .moving (.cl1 0) 0, inbox := [.result (.s 0) false 9] }

/-- An old line at level 15, and a ready line in the only slot of the bench. -/
def oldThr : Thread := { listedThr with ready := some { level := 15, since := 0, join := 1 } }
def swapBase : State := { base with threads := [thr, oldThr], ius := oneLine, run := { now := 65536 } }

theorem witness_LineMovement : canPull listBase 0 0 = true ∧ (cl1Lines listBase 0 0).length < cl1Cap (getIu listBase 0 0) ∧
    listHead listBase 0 = some listedThr ∧ findThread listBase listedThr.key = some listedThr ∧ inCl2 listedThr 0 = true ∧
    (cl1Cap (getIu tightBase 0 0) < (cl1Lines tightBase 0 0).length ∧ (getIu tightBase 0 0).halted = false ∧ running tightBase = true ∧
      parkedVictim tightBase 0 0 = some parkedThr ∧ findThread tightBase parkedThr.key = some parkedThr) ∧
    (findThread (withThread movingThr) movingThr.key = some movingThr ∧ movingThr.pend = none ∧ movingThr.ctx.frz = false ∧
      movingThr.cancel = false ∧ fatalRec movingThr.trap = none ∧ (withThread movingThr).flight.reqs = []) ∧
    ((14 : Nat) < 15 ∧ 0 + 65536 ≤ listBase.run.now) ∧
    (listedThr.ready.isSome = true ∧ listedThr.ctx.hact = false ∧ isMoving listedThr = false ∧ leavesFree listBase listedThr.key = true ∧
      listedThr.bench ≠ 1007 ∧ 1007 < Config.benches ∧ accepts listBase 1007 = true ∧ cl2Used listBase 1007 < Config.cl2Lines) := by
  decide +kernel
theorem witness_LineMovement_swap : listHead swapBase 0 = some oldThr ∧ lateLine swapBase 0 = true ∧
    (swapBase.cache.swaps.find? fun x => x.1 == 0) = none ∧ (∀ w < Config.iusPerBench, canPull swapBase 0 w = false) ∧
    findThread swapBase oldThr.key = some oldThr ∧ findThread swapBase thr.key = some thr ∧ oldThr.key ≠ thr.key ∧ inCl2 oldThr 0 = true ∧
    leastBy (fun x => x.2.lastIssue) (((List.range Config.iusPerBench).filter fun u => iuEnabled (getIu swapBase 0 u) && iuRuns swapBase 0 u).filterMap
      fun u => (readyVictim swapBase 0 u).map fun v => (u, v)) = some (0, thr) := by decide +kernel

/-- A new address space. -/
def aNew : SpaceNew :=
  { asid := 7, ptroot := 1, ctxbase := 1, tvec := 0x400, htbase := 0x100, htsize := 2, tback := 2, esave := 0x200, limit := 16, maps := [] }

/-- A service thread for the last bench. -/
def aService : ServiceNew := { bench := 1007, pc := 0x40, prio := 3, s0 := 1, s1 := 2, s2 := 3, s3 := 4 }

/-- A frozen thread. -/
def frozenThr : Thread := { thr with ctx := { thr.ctx with frz := true } }

theorem witness_SpaceEvents : findSpace base 7 = none ∧ hostHeld base aNew.maps [] = [] ∧ aService.bench < Config.benches ∧ hasRoom base 1007 = true ∧
    poolBusy base 1 = false ∧
    findSpace base 1 = some fetchSpace ∧ allocId fetchSpace = some (2, { fetchSpace with hwm := 3, live := 2 }) ∧ fetchSpace.susp = false ∧
    cl2Used base 1007 < Config.cl2Lines ∧ findThread base ⟨1, 2⟩ = none ∧
    (saveGate base 1 (suspendSlots base fetchSpace)).isNone = true ∧ base.threads.length = 1 ∧
    (let s : State := { State.reset with spaces := [fetchSpace] };
      findSpace s 1 = some fetchSpace ∧ (∀ t ∈ s.threads, t.key.asid ≠ 1) ∧ (∀ r ∈ s.flight.reqs, r.key.asid ≠ 1) ∧ ∀ c ∈ s.eng.cmds, c.key.asid ≠ 1) ∧
    (let x : Space := { fetchSpace with susp := true };
      findSpace { State.reset with spaces := [x] } 1 = some x ∧ x.cmdSave = [] ∧ x.strmSave = []) ∧
    shootWaits base 1 0 5 = false ∧ frozenThr.key.ctx ≠ 0 ∧ (withThread frozenThr).flight.reqs = [] ∧ (2 : BitVec 33).toNat = 2 ∧
    (0x100000000 : BitVec 33).toNat ≤ 2 ^ 32 ∧ findThread (withThread frozenThr) frozenThr.key = some frozenThr ∧ inCl1 frozenThr = true ∧
    (firmwareWord frozenThr.ctx 5 9).frz = true ∧ 16 ≤ (31 : BitVec 5).toNat := by decide +kernel

/-- IU 0 of bench 0 in debug set 2, with one line or none. -/
def setBase (l : List Thread) (halted : Bool) : State :=
  { base with threads := l, ius := [{ bench := 0, iu := 0, dbg := 0x82, halted := halted }], fw := { sets := [{ n := 2, halted := halted }] } }

/-- A line that the halt of its set keeps. -/
def keptThr : Thread := { thr with marked := true, ctx := { thr.ctx with dhalt := true } }

theorem witness_UnitsAndSets : (cl1Lines base 0 0).length ≤ cl1Limit { getIu base 0 0 with cfg := 0x81 &&& 0x8F0000FF } ∧
    (cl1Lines State.reset 0 0).length ≤ 0 ∧ (getIu (setBase [thr] true) 0 0).halted = true ∧
    setOfIu { getIu (setBase [thr] true) 0 0 with dbg := 0x83 &&& 0xBF } ≠ setOfIu (getIu (setBase [thr] true) 0 0) ∧
    (getIu base 0 0).halted = false ∧ (getIu base 0 0).haltDue = none ∧ (0x7 : Word).getLsbD 63 = false ∧ (0x7 : Word).getLsbD 3 = false ∧
    (getSet (setBase [] false) 2).halted = false ∧
    ((setBase [] false).ius.filter fun y => setOfIu y == some 2).length = 1 ∧ (setBase [] false).threads = [] ∧
    (setBase [thr] false).threads = [thr] ∧ thr.loc = .placed (.cl1 0) ∧ thr.ctx.dhalt = false ∧ holdPlaces (setBase [thr] false) thr.key = [] ∧
    (getSet (setBase [keptThr] true) 2).halted = true ∧ findThread (setBase [keptThr] true) keptThr.key = some keptThr ∧
    keptThr.loc = .placed (.cl1 0) ∧ (∃ x ∈ (setBase [keptThr] true).ius, x.bench = 0 ∧ x.iu = 0 ∧ setOfIu x = some 2) := by decide +kernel

/-! The host, links and caches. -/

/-- The device memory with a directory entry for the line 0x6100. -/
def hostBase : State := { base with cache := { dir := [{ base := 0x6100, size := 128, kind := .shr (.benches []), since := 0 }] } }

/-- The same with an exchange on that line. -/
def snoopBase : State := { hostBase with cache := { hostBase.cache with bisnp := [{ line := 0x6100, inv := false }] } }

/-- A load of a thread that waits for the host, coherent or not, and an atomic. -/
def hostReq (op : ReqOp) (p : Phys) : Req := { reqAt op 8 .b64 with pa := some p, st := .host }

/-- With no turn at any line, an arrival waits for none. -/
theorem noneWaits_of {s : State} (h : s.flight.turns = []) (line : Phys) : noneWaits s line := by
  intro x hx
  rw [h] at hx
  exact nomatch hx

/-- An atomic that the host makes. -/
def pcieReq : Req := { hostReq (.amo .add) (.hostC 0x6100) with scp := .sys, far := true }

theorem witness_HostSnoops : running base = true ∧ lineHold base (.hostC (lineAddr 0x6100)) = none ∧ base.flight.turns = [] ∧
    findReq (reqBase (hostReq .ld (.hostC 0x6100))) 1 = some (hostReq .ld (.hostC 0x6100)) ∧ (reqBase (hostReq .ld (.hostC 0x6100))).cache.asked = [] ∧
    isPcie (hostReq .ld (.hostC 0x6100)) = false ∧ hostDirty (reqBase (hostReq .ld (.hostC 0x6100))) (.hostC (lineAddr 0x6100)) = false ∧
    isPcie (hostReq .ld (.hostU 0x6100)) = false ∧ isPcie pcieReq = true ∧ (reqBase pcieReq).cache.asked = [] ∧ (reqBase pcieReq).cache.dsums = [] ∧
    findThread (reqBase (hostReq .ld (.hostC 0x6100))) ⟨1, 1⟩ = some outThr ∧ inCl1 outThr = true ∧ fatalRec outThr.trap = none := by decide +kernel
theorem witness_HostRequests : HostFree hostBase 0x6140 ∧ cellsWf hostBase.mem.dev = true ∧
    (∃ x ∈ snoopBase.cache.bisnp, x.line = lineAddr 0x6140 ∧ x.inv = false) ∧ ∀ x ∈ snoopBase.spaces, x.susp = true ∨ x.cmdSave = [] := by
  refine ⟨⟨?_, ?_, ?_, noneWaits_of rfl _, ?_, ?_, ?_, ?_⟩, by decide +kernel, ⟨_, .head _, by decide⟩, by decide +kernel⟩ <;> decide +kernel
theorem witness_HostRequests_atomic : running hostBase = true ∧ 0x6110 < Config.hbmBytes ∧ 0x6110 % 16 = 0 ∧
    lineHold hostBase (.dev (lineAddr 0x6110)) = none ∧ hostStOf hostBase (lineAddr 0x6110) = none ∧
    hostBase.mem.poison.contains (lineAddr 0x6110) = false ∧ recallGate hostBase (lineAddr 0x6110) = .go ∧ hostBase.cache.dsums = [] ∧
    hostBase.flight.turns = [] := by
  decide +kernel

/-- A window onto the page at address 0 that a peer may write. -/
def winBase : State := { hostBase with fw := { windows := [{ n := 4095, w0 := 0xA000FFFF00000001, w1 := 0, w2 := 0x1000 }] } }

/-- One byte at its offset 0x100. -/
def aWrite : LinkAccess := { peer := 9, win := 4095, off := 0x100, kind := .write, len := 1, data := [7] }

/-- A store that a peer has not answered. -/
def peerReq (op : ReqOp) : Req := { reqAt op 8 .b64 with pa := some (.peer 9 0 0), st := .peer }

/-- Two equal neighbouring regions that nobody has touched for 2^20 cycles. -/
def mergeBase : State :=
  { base with
    run := { base.run with now := 1048576 }
    cache := { dir := [{ base := 0, size := 128, kind := .shr (.benches [1]), since := 0 }, { base := 128, size := 128, kind := .own 2, since := 0 }] } }

theorem witness_LinksAndCaches : (4095 < 4096) ∧ aWrite.kind = .write ∧ aWrite.len = 1 ∧ aWrite.data = [7] ∧
    windowRefuses (getWindow base aWrite.win) aWrite = true ∧ windowRefuses (getWindow winBase aWrite.win) aWrite = false ∧
    running winBase = true ∧ winBase.fw.inbound = [] ∧
    located (translate (accepting winBase aWrite) (.bench Config.benches) (acceptedAs winBase aWrite).asid { write := true, store := true }
      ((acceptedAs winBase aWrite).base + BitVec.ofNat 64 aWrite.off)) (fun p s1 => p == .dev 0x6100 &&
        (lineHold s1 (.dev 0x6100)).isNone && (hostStOf s1 0x6100).isNone && !s1.mem.poison.contains 0x6100 &&
        recallGate s1 0x6100 == .go && s1.cache.dsums.isEmpty && s1.flight.turns.isEmpty) = true ∧
    (let s : State := { winBase with fw := { winBase.fw with inbound := [acceptedAs winBase { aWrite with off := 0x80 }] } };
      windowRefuses (getWindow s aWrite.win) aWrite = false ∧ (∃ y ∈ s.fw.inbound, y.x.win = aWrite.win) ∧ ∀ y ∈ s.fw.inbound, y.x ≠ aWrite) ∧
    findCmd (cmdBase (linkAt .xcpy 0)) 1 = some (linkAt .xcpy 0) ∧ isLink (linkAt .xcpy 0).kind = true ∧ portUp (cmdBase (linkAt .xcpy 0)) (linkAt .xcpy 0) = false ∧
    (linkAt .xcpy 0).downSince + 2 ^ 24 ≤ 16777216 ∧ (15 < 16) ∧ 15 ∉ base.fw.portsUp ∧
    findReq (reqBase (peerReq .st)) 1 = some (peerReq .st) ∧
    (mergeBase.cache.dir.find? fun e => e.base == 0 && e.size == 128) = some { base := 0, size := 128, kind := .shr (.benches [1]), since := 0 } ∧
    (mergeBase.cache.dir.find? fun e => e.base == 0 + 128 && e.size == 128) = some { base := 128, size := 128, kind := .own 2, since := 0 } ∧
    mergeKind (.shr (.benches [1])) (.own 2) = some (.osh 2 (.benches [1])) ∧ holdsOf mergeBase = [] ∧
    (∀ i < 4, partUsed base i ≤ 0) ∧ base.cache.llc = [] ∧ base.cache.l2 = [] := by
  decide +kernel
theorem witness_Recordable_atomic : Recordable (reqBase pcieReq) outThr pcieReq 0 := by
  constructor
  case kind => intro f q n h; exact nomatch h
  all_goals decide +kernel
theorem witness_Recordable : Recordable (reqBase (peerReq .ld)) outThr (peerReq .ld) 0 ∧ findCmd (reqBase (peerReq .ld)) 1 = none ∧
    (reqBase (peerReq .ld)).fw.portsUp = [] ∧ (reqBase (peerReq .ld)).fw.portsDownSince + 2 ^ 24 ≤ 16777216 := by
  refine ⟨?_, by decide +kernel, by decide +kernel, by decide +kernel⟩
  constructor
  case kind => intro f q n h; exact nomatch h
  all_goals decide +kernel
theorem witness_wayGate : wayExists (.l2 0) 3 = true ∧ wayLines base (.l2 0) = [] ∧ base.cache.gated.contains (.l2 0, 3) = false := by decide +kernel

/-! Queues, packets and launches. -/

/-- A queue of function 1 in slot 2, with one packet to go. -/
def aQueue (p : Option Packet) : Queue :=
  { fn := 1, qid := 4095, asid := 1, rbase := 0, rsize := 4, qprio := 2, tmo := 1, st := .active, widx := 1, slot := some 2, pk := p }

/-- A queue that waits for a slot. -/
def waitQueue : Queue := { aQueue none with slot := none, pending := true }

/-- The state with queues, and a directory that knows the line of the address 0x100. -/
def queueBase (l : List Queue) : State := { hostBase with queues := { qs := l } }

/-- A new queue. -/
def aQueueNew : QueueNew := { asid := 1, rbase := 0x80, rsize := 20, qprio := 3, tmo := 7 }

theorem witness_QueueEvents : (16 ≤ 16 ∧ 4095 < 4096 ∧ 4 ≤ aQueueNew.rsize.toNat ∧ aQueueNew.rsize.toNat ≤ 20) ∧ base.pkg.verifyFailed = false ∧
    running base = true ∧ findQueue base 16 4095 = none ∧
    findQueue (queueBase [aQueue none]) 1 4095 = some (aQueue none) ∧ queueLive (aQueue none) = true ∧ (aQueue none).slot.isSome = true ∧
    ((queueBase [aQueue none]).threads.any fun t => t.ctx.frz && ofLaunches (launchesOf (queueBase [aQueue none]) 1 4095) t) = false ∧
    ((16 : BitVec 32) - (aQueue none).ridx).toNat ≤ 2 ^ (aQueue none).rsize.toNat ∧
    2 ^ (aQueue none).rsize.toNat < ((17 : BitVec 32) - (aQueue none).ridx).toNat ∧ base.queues.qs = [] ∧
    isWaiting waitQueue = true ∧ 0 < qslotsOf (queueBase [waitQueue]) waitQueue.fn ∧
    { queueBase [aQueue none] with queues := { qs := [aQueue none], due := [(1, 4095, 7, 0x100)] } }.queues.due = [(1, 4095, 7, 0x100)] ∧
    (queueBase [aQueue none]).queues.due = [] ∧ { queueBase [aQueue none] with threads := [] }.threads = [] ∧
    (aQueue none).st = .active ∧ (aQueue none).tmo ≠ 0 ∧ (aQueue none).doneAt + (aQueue none).tmo.toNat * 2 ^ 20 ≤ 1048576 ∧
    launchesOf (queueBase [aQueue none]) 1 4095 = [] ∧ (queueBase [aQueue none]).eng.cmds = [] ∧
    destroyed (queueBase [{ aQueue none with st := .destroying }]) { aQueue none with st := .destroying } = true := by decide +kernel

/-- A packet whose first words are given. -/
def pkt (l : List Word) (st : PkSt) : Packet := { words := l ++ List.replicate (16 - l.length) 0, st := st }

/-- Packets at the places of the clauses. -/
def pkBarrier : Packet := pkt [5] .ready
def pkWaitNew : Packet := pkt [0x10003, 0x100, 9] .ready
def pkWaitRead (v : Word) : Packet := { pkt [0x10003, 0x100, 9] .reading with deps := [(8, v)] }
def pkSignal : Packet := pkt [4, 0x100, 9] .ready
def pkEmpty : Packet := pkt [0x20004, 0x100, 9] .ready
def pkAdd : Packet := pkt [0x10004, 0x100, 9] .ready
def pkStore : Packet := pkt [0x30004, 0x100, 9] .ready
def pkCopy : Packet := pkt [2, 0x180, 0x200] .ready
def pkLaunch : Packet := pkt [0x100010001, 0x40, 0x200, 0, 1] .ready

theorem witness_AtFront : ∀ x ∈ [(pkt [5] .waiting, PkTy.barrier), (pkBarrier, .barrier), (pkWaitNew, .wait), (pkWaitRead 9, .wait), (pkWaitRead 8, .wait),
      (pkt [0x10003, 0x100, 9] (.rereadAt 0), .wait), (pkSignal, .signal), (pkEmpty, .signal), (pkAdd, .signal), (pkStore, .signal), (pkCopy, .copy), (pkLaunch, .launch)],
    AtFront (queueBase [aQueue (some x.1)]) (aQueue (some x.1)) x.1 x.2 := by
  simp only [List.forall_mem_cons]
  refine ⟨?_, ?_, ?_, ?_, ?_, ?_, ?_, ?_, ?_, ?_, ?_, ?_, fun _ h => nomatch h⟩ <;> constructor <;> decide +kernel
theorem witness_PacketEvents : pkDeps .barrier (pkt [5] .waiting) = [] ∧ (aQueue none).incomplete = 0 ∧ (aQueue none).depdec ≠ 2 ∧
    ((pkWaitRead 9).deps.find? fun d => d.1 == 8) = some (8, 9) ∧ waitHolds (pkWaitRead 9) 9 = true ∧ waitHolds (pkWaitRead 8) 8 = false ∧
    located (translate (queueBase [aQueue (some pkSignal)]) (.bench (queueBench (aQueue (some pkSignal)))) 1 tokenWant (pkFld pkSignal 1 0 64))
      (fun p s1 => p == .dev 0x6100 && !s1.mem.poison.contains 0x6100 && (lineHold s1 (.dev 0x6100)).isNone && (hostStOf s1 0x6100).isNone &&
        s1.cache.dsums.isEmpty && recallGate s1 0x6100 == .go && s1.flight.waiters.isEmpty && s1.flight.turns.isEmpty) = true ∧
    pkFld pkAdd 0 16 2 = 1 ∧ pkFld pkStore 0 16 2 = 3 ∧
    vIs (vAccess (dropStale (queueBase [aQueue (some pkAdd)])) (feWho (aQueue (some pkAdd))) 0x100 8 (.amo .add .b64 9 true))
      (fun s1 _ => findQueue s1 1 4095 == some (aQueue (some pkAdd))) = true ∧
    vIs (vAccess (dropStale (queueBase [aQueue (some pkStore)])) (feWho (aQueue (some pkStore))) 0x100 8 (.write 9))
      (fun s1 _ => findQueue s1 1 4095 == some (aQueue (some pkStore))) = true ∧
    pkFld pkSignal 0 16 2 = 0 ∧ pkFld pkEmpty 0 16 2 = 2 ∧
    enabledBench (queueBase [aQueue (some pkCopy)]) (agentDie (aQueue (some pkCopy))) = some 336 := by decide +kernel

/-- The state with the kernel header of `pkLaunch` at the address 0x200. -/
def hdrBase : State :=
  let s := queueBase [aQueue (some pkLaunch)]
  { s with
    mem := { s.mem with dev := (List.range 3).foldl (fun d i => writeVal d (0x6200 + 8 * i) 8 (([1, 0x20000, 16].getD i 0 : Word).setWidth 128)) s.mem.dev }
    cache := { dir := { base := 0x6200, size := 128, kind := .shr (.benches []), since := 0 } :: s.cache.dir } }

/-- A queue that writes the launch in slot 0, whose one crew die 0 has to write. -/
def writeQueue : Queue := { aQueue (some { pkLaunch with st := .writing }) with qid := 0, clslot := 0, lprog := (List.range 9).map (BitVec.ofNat 32) }
def writeBase : State := { queueBase [writeQueue] with queues := { qs := [writeQueue], launches := [{ aLaunch with live := 0 }] } }

/-- The launch whose crew of die 0 has its id. -/
def heldLaunch : LaunchSlot := { aLaunch with live := 0, held := [(0, [7])] }
def heldWrite : State := { writeBase with queues := { writeBase.queues with launches := [heldLaunch] } }

/-- Where the front end of die 0 has begun on the packet. -/
def feLeft (s : State) : State := (feBegin s 0 writeQueue).getD s

/-- The launch when its threads are gone. -/
def goneLaunch : LaunchSlot := { aLaunch with written := true, live := 0 }

/-- A thread that is to be cancelled, parked. -/
def cancelThr : Thread := { thr with cancel := true, wait := .drain }

/-- Two functions with one queue each, in different address spaces. -/
def twoBase : State :=
  { State.reset with
    queues := { qs := [aQueue none, { aQueue none with fn := 2, asid := 2 }] }
    spaces := [fetchSpace, { fetchSpace with asid := 2 }]
    fw := { exclusive := true, function := 1 } }

theorem witness_LaunchEvents : resIs (feWords hdrBase (feWho (aQueue (some pkLaunch))) (khdrVa pkLaunch) 8) (fun s1 h => hdrOk h &&
      freeLaunchSlot s1 == some 0 && s1.queues == hdrBase.queues) = true ∧
    findQueue writeBase 1 0 = some writeQueue ∧ writingLaunch writeBase writeQueue = some { aLaunch with live := 0 } ∧ (8 < 9) ∧
    feRuns writeBase writeQueue = true ∧ writeBase.pkg.diesDown.contains 0 = false ∧ (writeQueue.lprog.getD 0 0).toNat < crewCount aLaunch ∧
    crewThreads aLaunch 0 = [0] ∧ writeQueue.saving = false ∧
    (feBegin writeBase 0 writeQueue).isSome = true ∧ heldIds { aLaunch with live := 0 } 0 = none ∧ idBusy (feLeft writeBase) 1 2 = false ∧
    ((findSpace (feLeft writeBase) 1).bind (allocIds 1)).map (·.1) = some [2] ∧
    (let s1 := allocCrew (feLeft writeBase) { aLaunch with live := 0 } 0 1;
      crewBench s1 { aLaunch with live := 0 } 0 1 = some 0 ∧ cl2Used s1 0 < Config.cl2Lines ∧ findThread s1 ⟨1, 2⟩ = none) ∧
    (findQueue heldWrite 1 0 = some writeQueue ∧ writingLaunch heldWrite writeQueue = some heldLaunch ∧ feRuns heldWrite writeQueue = true ∧
      (feBegin heldWrite 0 writeQueue).isSome = true ∧ heldIds heldLaunch 0 = some [7] ∧ crewBench (feLeft heldWrite) heldLaunch 0 1 = some 0 ∧
      cl2Used (feLeft heldWrite) 0 < Config.cl2Lines ∧ findThread (feLeft heldWrite) ⟨1, 7⟩ = none) ∧ base.fw.exclusive = false ∧
    (goneLaunch.filled = false ∧ goneLaunch.cancelled = false ∧ goneLaunch.written = true ∧ goneLaunch.live = 0 ∧ goneLaunch.fault = none ∧
      goneLaunch.ctok = 0) ∧
    findThread (withThread cancelThr) cancelThr.key = some cancelThr ∧ cancelThr.cancel = true ∧ cancelThr.ctx.frz = false ∧
    cancelNow (withThread cancelThr) cancelThr = true ∧ findSpace (withThread cancelThr) cancelThr.key.asid = some fetchSpace ∧
    holdPlaces (withThread cancelThr) cancelThr.key = [] ∧ (withThread cancelThr).eng.cmds = [] ∧ fetchSpace.cmdSave = [] ∧
    twoBase.queues.qs.map (·.fn) = [1, 2] ∧ twoBase.queues.qs.map (·.asid) = [1, 2] ∧ twoBase.threads = [] ∧ twoBase.flight.reqs = [] ∧
    twoBase.eng.cmds = [] ∧ findSpace twoBase 1 = some fetchSpace ∧ findSpace twoBase 2 = some { fetchSpace with asid := 2 } ∧
    twoBase.fw.exclusive = true ∧ twoBase.fw.function = 1 ∧ (1 ≤ 1000 ∧ 1000 ≤ 1000) := by decide +kernel

/-! Package, encodings, memory, rounding and translation. -/

/-- A machine with a queueless address space, a dirty line on die 0, and a thread in a CL1 of that die. -/
def dirtyBase : State := { base with cache := { l2 := [{ bench := 5, line := .dev 0x6100, st := .m }] } }

/-- A machine in which an error in storage is to come. -/
def withDamage (s : State) (x : Damage) : State := { s with run := { s.run with damages := [x] } }

theorem witness_PowerEvents : running State.reset = true ∧ State.reset.pkg.rails = true ∧ State.reset.eng.mats = [] ∧
    State.reset.queues.qs = [] ∧ holdsOf State.reset = [] ∧ socketUsed 27 = true ∧ flitCount State.reset 27 + 1 < 16 ∧
    { State.reset with pkg := { verifyFailed := true } }.pkg.verifyFailed = true ∧ State.reset.run.damages = [] ∧
    (withDamage State.reset (.corrected 3)).run.damages = [.corrected 3] ∧ holdsOf (withDamage State.reset (.corrected 3)) = [] ∧
    (withDamage State.reset (.line 0x6100)).run.damages = [.line 0x6100] ∧
    lineHold (withDamage State.reset (.line 0x6100)) (.dev (lineAddr 0x6100)) = none ∧ 0x6100 < Config.hbmBytes ∧ State.reset.mem.poison = [] ∧
    (withDamage base (.context thr.key)).run.damages = [.context thr.key] ∧ findThread (withDamage base (.context thr.key)) thr.key = some thr ∧
    thr.ctx.frz = false ∧ running (withDamage base (.context thr.key)) = true ∧
    (withDamage tileBase (.frame 1 1 0)).run.damages = [.frame 1 1 0] ∧ findSpace (withDamage tileBase (.frame 1 1 0)) 1 = some tileSpace ∧
    running (withDamage tileBase (.frame 1 1 0)) = true ∧ (getHandle tileSpace 1).v = true ∧ 0 < (getHandle tileSpace 1).nfr.toNat ∧
    (let s := { cmdBase mmaAt with
        eng := { cmds := [mmaAt], mats := [{ bench := 0, group := 0, compute := some 1 }] }, run := { damages := [.weights 0 0 false] } };
      findCmd s 1 = some mmaAt ∧ readsBank s 0 0 false mmaAt = true ∧ running s = true ∧ s.run.damages = [.weights 0 0 false]) := by
  decide +kernel
theorem witness_ResetEvents : (0 < 9 ∧ 8 < 9) ∧ dirtyBase.pkg.diesDown.contains 0 = false ∧ running dirtyBase = true ∧
    dirtyBase.queues.qs = [] ∧ dirtyBase.eng.cmds = [] ∧ (dirtyBase.threads.any (lineOnDie 0)) = true ∧
    (dirtyBase.cache.l2.any fun x => onDie 0 x.bench && x.bench != llcAgent && x.st == .m) = true ∧
    (let s : State := { base with pkg := { diesDown := [8], lostIds := [(8, ⟨1, 5⟩)] } };
      s.pkg.diesDown.contains 8 = true ∧ (8, (⟨1, 5⟩ : Key)) ∈ s.pkg.lostIds ∧ (findSpace s 1).isSome = true) ∧ base.pkg.stage = 7 ∧
    (∀ n ∈ [1, 2, 3, 4, 6], ({ stage := n } : Package).stage ∈ [1, 2, 3, 4, 6]) := by decide +kernel
/-- A connection with a finished session: every answer but the refusals of slots and algorithms. -/
theorem witness_SpdmResponder : ({ State.reset with pkg := { spdm := { version := true, caps := true, algs := true, session := true, finished := true } } } :
    State).pkg.rails = true := by decide
theorem witness_DecodeEncode : wellFormed (.call {} 0xFFFFFFFA) = true := by decide
theorem witness_unassigned : unassigned 0x024 ∧ unassigned 0x3FF ∧ ¬ unassigned 0x080 := by simp [unassigned]
theorem witness_IllegalWords :
    (word 0x100 0x80000000 0).toNat % 1024 = 0x100 ∧ (word 0x100 0x80000000 0).getLsbD 63 = true ∧
    (word 0x117 0x80000000 0).toNat % 1024 = 0x117 ∧ (word 0x005 0 0x80000000).toNat % 1024 = 0x005 ∧
    (word 0x005 0 0x80000000).getLsbD 63 = false ∧ (word 0x005 0 0x80000000).getLsbD 95 = true ∧
    (word 0x012 0x00020000 0).toNat % 1024 = 0x012 ∧ (word 0x012 0x00020000 0).getLsbD 49 = true ∧
    0x15 ≤ (31 : BitVec 5).toNat := by decide +kernel
theorem test_illegal_reserved : Decode.decode (word 0x005 0 0x80000000) = .error ⟨0x01, 0x045F00⟩ := by decide +kernel
theorem test_illegal_operand : Decode.decode (addWord 0x11 0x04 0x15 0) = .error ⟨0x02, 0x030001⟩ := by decide +kernel
theorem witness_MemoryLaws : cellsWf ([] : List Host.Cell) = true ∧ 16 ≤ 16 ∧ Memory.wf base.mem = true ∧ cellsWf base.mem.dev = true := by
  decide +kernel
theorem test_write_zero_removes : writeVal (writeVal [] 5 2 0x1234) 5 2 0 = [] := by decide +kernel
theorem witness_OperandRead : 0 < 64 ∧ 64 * 2 ≤ 128 ∧ 0 < 128 ∧ 128 * 1 ≤ 128 := by decide
theorem witness_RegisterWrite : Ty.i8 ≠ .b128 ∧ Shape.x2 ≠ .sc := by decide
/-- Zero, infinity, the quiet NaN and a number of each format. -/
theorem witness_FloatRules : ∀ ty ∈ [Ty.f16, .bf16, .f32, .f64],
    (match ffVal (ffOf ty) 0 with | .num _ 0 _ => true | _ => false) = true ∧
    (match ffVal (ffOf ty) 1 with | .num _ n _ => n != 0 | _ => false) = true ∧
    (1 : Nat) < 2 ^ width ty ∧ ({} : Fenv).ufEn = false ∧ ffVal (ffOf ty) (ffQnan (ffOf ty)) = .nan false ∧
    ffVal (ffOf ty) (ffInf (ffOf ty) true) = .inf true := by decide +kernel
theorem witness_TranslationPermits : findSpace base 1 = some fetchSpace ∧ 2 ^ 57 ≤ (0x200000000000000 : Word).toNat ∧
    cellsWf base.mem.dev = true ∧ (0x100 : Word).toNat < 2 ^ 57 ∧ (wantOf .st true).store = true ∧
    located (translate base (.data 0 0) 1 (wantOf .st true) 0x100) (fun p _ => p == .dev 0x6100) = true ∧
    isolated fetchSpace 0x10000000000 = true ∧ isolated fetchSpace 0x100 = false := by decide +kernel

/-- An instruction, an event and a step that go on from a state in canonical form. -/
theorem witness_StepKeepsMemory : liBase.memOk = true ∧ (step liBase matches .next _) = true ∧ base.memOk = true ∧
    (exec (.nop {}) base matches .next _) = true := by decide +kernel

end Sys2Proof.Tests
end

section
/-! Memory as a function: what a list of cells reads after a write of several bytes, and that the canonical form determines it. -/

namespace Sys2Proof.Machine

theorem cellsWf_cellRead_cellWrite (l : List Host.Cell) (a x : Nat) (b : Byte) (h : cellsWf l = true) :
    cellRead (cellWrite l a b) x = if x = a then b else cellRead l x := by
  by_cases hx : x = a
  · simp [hx, cellRead_cellWrite_same l 0 a b h]
  · simp [hx, cellRead_cellWrite_other l a x b hx]

/-- A byte after a write of a list of bytes: the written one inside, the old one outside. -/
theorem cellRead_writeBytes (bs : List Byte) (l : List Host.Cell) (a x : Nat) (h : cellsWf l = true) :
    cellRead (writeBytes l a bs) x = if a ≤ x then (bs[x - a]?).getD (cellRead l x) else cellRead l x := by
  induction bs generalizing l a with
  | nil => simp [writeBytes]
  | cons b bs ih =>
    rw [writeBytes, ih _ _ (cellsWf_cellWrite l a b h), cellsWf_cellRead_cellWrite l a x b h]
    rcases Nat.lt_trichotomy x a with hlt | rfl | hgt
    · simp [show ¬ a + 1 ≤ x by omega, show ¬ a ≤ x by omega, show x ≠ a by omega]
    · simp
    · obtain ⟨d, rfl⟩ : ∃ d, x = a + 1 + d := ⟨x - (a + 1), by omega⟩
      simp [show a + 1 + d - a = d + 1 by omega, show a ≤ a + 1 + d by omega, show a + 1 + d ≠ a by omega]

@[simp] theorem length_bytesOfNat (n x : Nat) : (bytesOfNat n x).length = n := by
  induction n generalizing x with
  | zero => rfl
  | succ n ih => simp [bytesOfNat, ih]

theorem getElem?_bytesOfNat (n x i : Nat) (h : i < n) : (bytesOfNat n x)[i]? = some (BitVec.ofNat 8 (x / 256 ^ i)) := by
  induction n generalizing x i with
  | zero => omega
  | succ n ih =>
    cases i with
    | zero => simp [bytesOfNat]
    | succ i => simp [bytesOfNat, ih (x / 256) i (by omega), Nat.div_div_eq_div_mul, Nat.pow_succ']

theorem natOfBytes_bytesOfNat (n x : Nat) : natOfBytes (bytesOfNat n x) = x % 256 ^ n := by
  induction n generalizing x with
  | zero => simp [bytesOfNat, natOfBytes, Nat.mod_one]
  | succ n ih => simp [bytesOfNat, natOfBytes, ih, Nat.pow_succ', Nat.mod_mul]

/-- Reading what the bytes of a list are gives the list. -/
theorem readBytes_eq_of_cellRead (l : List Host.Cell) (a : Nat) (bs : List Byte)
    (h : ∀ i, i < bs.length → bs[i]? = some (cellRead l (a + i))) : readBytes l a bs.length = bs := by
  induction bs generalizing a with
  | nil => rfl
  | cons b bs ih =>
    have hb : cellRead l a = b := by simpa using (h 0 (by simp)).symm
    have hs : readBytes l (a + 1) bs.length = bs :=
      ih (a + 1) fun i hi => by simpa [Nat.add_assoc, Nat.add_comm 1 i] using h (i + 1) (by simpa using hi)
    simp [readBytes, hb, hs]

theorem readBytes_writeBytes (bs : List Byte) (l : List Host.Cell) (a : Nat) (h : cellsWf l = true) :
    readBytes (writeBytes l a bs) a bs.length = bs :=
  readBytes_eq_of_cellRead _ a bs fun i hi => by simp [cellRead_writeBytes bs l a _ h, hi]

/-- A mask of the low bits keeps the value's remainder. -/
theorem toNat_and_lowMask (v : Vec) (n : Nat) (h : n ≤ 16) :
    (v &&& (BitVec.allOnes 128 >>> (128 - 8 * n))).toNat = v.toNat % 256 ^ n := by
  have hm : (BitVec.allOnes 128 >>> (128 - 8 * n)).toNat = 2 ^ (8 * n) - 1 := by
    have hk : 2 ^ 128 = 2 ^ (8 * n) * 2 ^ (128 - 8 * n) := by rw [← Nat.pow_add]; congr 1; omega
    have hp : 0 < 2 ^ (128 - 8 * n) := Nat.two_pow_pos _
    have h1 : 0 < 2 ^ (8 * n) := Nat.two_pow_pos _
    rw [BitVec.toNat_ushiftRight, Nat.shiftRight_eq_div_pow, BitVec.toNat_allOnes, hk]
    apply Nat.div_eq_of_lt_le
    · calc (2 ^ (8 * n) - 1) * 2 ^ (128 - 8 * n) = 2 ^ (8 * n) * 2 ^ (128 - 8 * n) - 2 ^ (128 - 8 * n) := by
            rw [Nat.sub_mul, Nat.one_mul]
        _ ≤ _ := by omega
    · rw [Nat.sub_add_cancel h1]
      have := Nat.mul_pos h1 hp
      omega
  rw [BitVec.toNat_and, hm, Nat.and_two_pow_sub_one_eq_mod, Nat.pow_mul]

theorem readVal_writeVal_same (l : List Host.Cell) (a n : Nat) (v : Vec) (h : cellsWf l = true) (hn : n ≤ 16) :
    readVal (writeVal l a n v) a n = v &&& (BitVec.allOnes 128 >>> (128 - 8 * n)) := by
  have hr : readBytes (writeVal l a n v) a n = bytesOfNat n v.toNat := by
    simpa [writeVal] using readBytes_writeBytes (bytesOfNat n v.toNat) l a h
  apply BitVec.eq_of_toNat_eq
  rw [readVal, hr, natOfBytes_bytesOfNat, toNat_and_lowMask v n hn, BitVec.toNat_ofNat]
  exact Nat.mod_eq_of_lt (Nat.lt_of_le_of_lt (Nat.mod_le _ _) v.isLt)

theorem cellRead_writeVal_inside (l : List Host.Cell) (a n i : Nat) (v : Vec) (h : cellsWf l = true) (hi : i < n) :
    cellRead (writeVal l a n v) (a + i) = v.extractLsb' (8 * i) 8 := by
  have hb : BitVec.ofNat 8 (v.toNat / 256 ^ i) = v.extractLsb' (8 * i) 8 := by
    apply BitVec.eq_of_toNat_eq
    simp [BitVec.extractLsb', Nat.shiftRight_eq_div_pow, Nat.pow_mul]
  simp [writeVal, cellRead_writeBytes _ l a _ h, getElem?_bytesOfNat n v.toNat i hi, hb]

theorem cellRead_writeVal_outside (l : List Host.Cell) (a n x : Nat) (v : Vec) (h : cellsWf l = true) (hx : x < a ∨ a + n ≤ x) :
    cellRead (writeVal l a n v) x = cellRead l x := by
  rw [writeVal, cellRead_writeBytes _ l a x h]
  rcases hx with hx | hx
  · simp [show ¬ a ≤ x by omega]
  · simp [List.getElem?_eq_none (l := bytesOfNat n v.toNat) (i := x - a) (by simp; omega)]

@[simp] theorem physWrite_empty (m : Mem) (p : Phys) (n : Nat) (v : Vec) : (physWrite m p n v).empty = m.empty := by
  cases p <;> rfl

/-- A full/empty bit is a question about the list of empty words alone. -/
theorem isFull_physWrite (m : Mem) (p : Phys) (n : Nat) (v : Vec) (a : Nat) : isFull (physWrite m p n v) a = isFull m a := by
  simp [isFull]

theorem mem_insertRising (l : List Nat) (x y : Nat) : y ∈ insertRising l x ↔ y = x ∨ y ∈ l := by
  induction l with
  | nil => simp [insertRising]
  | cons z l ih =>
    unfold insertRising
    split
    · simp
    · split
      · next h => subst h; simp
      · simp [ih, or_left_comm]

theorem le_of_mem_risingFrom (l : List Nat) (lo y : Nat) (h : risingFrom lo l = true) (hy : y ∈ l) : lo ≤ y := by
  induction l generalizing lo with
  | nil => simp at hy
  | cons z l ih =>
    simp only [risingFrom, Bool.and_eq_true, decide_eq_true_eq] at h
    obtain ⟨hz, hl⟩ := h
    rcases List.mem_cons.mp hy with rfl | hy
    · exact hz
    · have := ih _ hl hy
      omega

/-- A rising list holds a number once, so removing its first occurrence removes it. -/
theorem mem_removeRising (l : List Nat) (lo x y : Nat) (h : risingFrom lo l = true) : y ∈ removeRising l x ↔ y ≠ x ∧ y ∈ l := by
  induction l generalizing lo with
  | nil => simp [removeRising]
  | cons z l ih =>
    simp only [risingFrom, Bool.and_eq_true, decide_eq_true_eq] at h
    obtain ⟨-, hl⟩ := h
    have hne : y ∈ l → y ≠ z := fun hy => by have := le_of_mem_risingFrom l _ y hl hy; omega
    by_cases hx : x = z
    · subst hx
      simp only [removeRising, if_true, List.mem_cons]
      tauto
    · simp only [removeRising, hx, if_false, List.mem_cons, ih _ hl]
      have : y = z → y ≠ x := fun e => e ▸ Ne.symm hx
      tauto

theorem isFull_setFull (m : Mem) (a b : Nat) (h : Memory.wf m = true) :
    isFull (setFull m a) b = (decide (a / 8 = b / 8) || isFull m b) := by
  obtain ⟨-, -, -, he⟩ := (wf_iff m).mp h
  by_cases hab : a / 8 = b / 8 <;> by_cases hm : b / 8 ∈ m.empty <;>
    simp [isFull, setFull, mem_removeRising _ _ _ _ he, hab, hm, eq_comm (a := b / 8)]

theorem isFull_setEmpty (m : Mem) (a b : Nat) : isFull (setEmpty m a) b = (decide (a / 8 ≠ b / 8) && isFull m b) := by
  by_cases hab : a / 8 = b / 8 <;> by_cases hm : b / 8 ∈ m.empty <;>
    simp [isFull, setEmpty, mem_insertRising, hab, hm, eq_comm (a := b / 8)]

/-- Two canonical lists that read alike are equal: their first cells are each at the lowest byte that is not 0. -/
theorem eq_of_cellRead_eq (l k : List Host.Cell) (lo hi : Nat) (hl : cellsFrom lo l = true) (hk : cellsFrom hi k = true)
    (h : ∀ a, cellRead l a = cellRead k a) : l = k := by
  induction l generalizing k lo hi with
  | nil =>
    cases k with
    | nil => rfl
    | cons d k =>
      simp only [cellsFrom, Bool.and_eq_true, bne_iff_ne] at hk
      exact absurd (by simpa [cellRead] using (h d.1).symm) hk.1.2
  | cons c l ih =>
    simp only [cellsFrom, Bool.and_eq_true, bne_iff_ne] at hl
    obtain ⟨⟨-, hc⟩, hl⟩ := hl
    cases k with
    | nil => exact absurd (by simpa [cellRead] using h c.1) hc
    | cons d k =>
      simp only [cellsFrom, Bool.and_eq_true, bne_iff_ne] at hk
      obtain ⟨⟨-, hd⟩, hk⟩ := hk
      have hcd : c.1 = d.1 := by
        rcases Nat.lt_trichotomy c.1 d.1 with hlt | heq | hgt
        · exact absurd (by simpa [cellRead, show d.1 ≠ c.1 by omega, cellRead_below k _ c.1 hk (by omega)] using h c.1) hc
        · exact heq
        · exact absurd (by simpa [cellRead, show c.1 ≠ d.1 by omega, cellRead_below l _ d.1 hl (by omega)] using (h d.1).symm) hd
      have hb : c.2 = d.2 := by simpa [cellRead, hcd] using h c.1
      have hlk : l = k := ih k _ _ hl hk fun a => by
        by_cases ha : a < c.1 + 1
        · rw [cellRead_below l _ a hl ha, cellRead_below k _ a hk (by omega)]
        · simpa [cellRead, show c.1 ≠ a by omega, show d.1 ≠ a by omega] using h a
      rw [hlk, Prod.ext hcd hb]

/-- Settles O57: reads after writes through `cellRead_writeBytes`, full/empty bits as membership in the list of empty words, and
equality of canonical lists by comparing their first cells. -/
theorem memoryLaws : Obligations.MemoryLaws := by
  unfold Obligations.MemoryLaws
  refine ⟨fun l a n v h hn => ⟨cellsWf_writeVal l a n v h, readVal_writeVal_same l a n v h hn,
      fun i hi => cellRead_writeVal_inside l a n i v h hi, fun x hx => cellRead_writeVal_outside l a n x v h hx⟩,
    fun m p n v h => ⟨wf_physWrite m p n v h, isFull_physWrite m p n v⟩,
    fun m a b h => ⟨wf_setFull m a h, wf_setEmpty m a h, isFull_setFull m a b h, isFull_setEmpty m a b⟩,
    fun l k hl hk h => eq_of_cellRead_eq l k 0 0 hl hk h⟩

end Sys2Proof.Machine
end

section
/-! The canonical form of memory (log 77) through every operation of the model, one rule an operation, in the order of the model's
files. `f_mem` says that `f` leaves memory as it is; `wf_f` says that `f` keeps the form. For a result that is not a state, `.wf` says
that each state in it has the form (`GoesWf` for the outcome of an instruction). A rule's proof unfolds its own operation only and
cites the rules of the operations it calls; `grind` is called without its arithmetic solvers, which these goals do not need. -/

namespace Sys2Proof.Machine
open Sys2Proof.Forms

@[simp] theorem ite_mem (c : Prop) [Decidable c] (a b : State) : (if c then a else b).mem = if c then a.mem else b.mem := by
  split <;> rfl

@[simp] theorem wf_ite (c : Prop) [Decidable c] (a b : Mem) :
    Memory.wf (if c then a else b) = true ↔ (c → Memory.wf a) ∧ (¬ c → Memory.wf b) := by
  split <;> simp [*]

@[simp] theorem foldl_mem {α : Type} (f : State → α → State) (hf : ∀ s x, (f s x).mem = s.mem) (l : List α) (s : State) :
    (l.foldl f s).mem = s.mem := by
  induction l generalizing s with
  | nil => rfl
  | cons x l ih => rw [List.foldl_cons, ih, hf]

theorem wf_foldl {α : Type} (f : State → α → State) (hf : ∀ s x, Memory.wf s.mem → Memory.wf (f s x).mem) (l : List α) (s : State)
    (hs : Memory.wf s.mem) : Memory.wf (l.foldl f s).mem := by
  induction l generalizing s with
  | nil => exact hs
  | cons x l ih => exact ih _ (hf s x hs)

theorem wf_withDev (m : Mem) (l : List Host.Cell) (h : Memory.wf m) (hl : cellsWf l) : Memory.wf { m with dev := l } := by
  obtain ⟨-, hh, ht, he⟩ := (wf_iff m).mp h
  exact (wf_iff _).mpr ⟨hl, hh, ht, he⟩

theorem wf_withHost (m : Mem) (l : List Host.Cell) (h : Memory.wf m) (hl : cellsWf l) : Memory.wf { m with host := l } := by
  obtain ⟨hd, -, ht, he⟩ := (wf_iff m).mp h
  exact (wf_iff _).mpr ⟨hd, hl, ht, he⟩

theorem wf_withTiles (m : Mem) (l : List Host.Cell) (h : Memory.wf m) (hl : cellsWf l) : Memory.wf { m with tiles := l } := by
  obtain ⟨hd, hh, -, he⟩ := (wf_iff m).mp h
  exact (wf_iff _).mpr ⟨hd, hh, hl, he⟩

theorem wf_withEmpty (m : Mem) (l : List Nat) (h : Memory.wf m) (hl : risingFrom 0 l) : Memory.wf { m with empty := l } := by
  obtain ⟨hd, hh, ht, -⟩ := (wf_iff m).mp h
  exact (wf_iff _).mpr ⟨hd, hh, ht, hl⟩

/-! The form in every state of a result, one predicate a type of results. -/

@[simp] def GoesWf : Host.Outcome State Fault Refusal → Prop
  | .next s => Memory.wf s.mem
  | .fault _ | .refused _ => True

@[simp] def Did.wf : Did → Prop
  | .done s _ _ | .stay s _ | .park s _ | .skip s | .gone s => Memory.wf s.mem
  | .trap .. | .notHbm _ => True

@[simp] def Trans.wf : Trans → Prop
  | .ok _ s | .busy s => Memory.wf s.mem
  | .wait | .bad _ | .notHbm _ => True

@[simp] def Sent.wf : Sent → Prop
  | .ok s => Memory.wf s.mem
  | .notHbm _ => True

@[simp] def Acc.wf : Acc → Prop
  | .done s _ | .blocked s | .outside s => Memory.wf s.mem
  | .bad _ => True

@[simp] def EAcc.wf : EAcc → Prop
  | .done s _ | .blocked s => Memory.wf s.mem
  | .bad _ => True

@[simp] def Fetched.wf : Fetched → Prop
  | .ok s _ | .wait s _ | .blocked s => Memory.wf s.mem
  | .bad .. | .notHbm _ => True

@[simp] def Refill.wf : Refill → Prop
  | .ok s | .wait s _ | .busy s => Memory.wf s.mem
  | .bad .. | .notHbm _ => True

@[simp] def Eng.wf : Eng → Prop
  | .ok s _ | .wait s => Memory.wf s.mem
  | .bad _ | .notHbm _ => True

@[simp] def VRes.wf : VRes → Prop
  | .ok s _ | .wait s .. | .blocked s => Memory.wf s.mem
  | .bad .. | .notHbm _ => True

@[simp] def Stop.wf : Stop → Prop
  | .blocked s => Memory.wf s.mem
  | .wait .. | .bad .. | .notHbm _ => True

@[simp] def Res.wf {α : Type} : Res α → Prop
  | .ok s _ => Memory.wf s.mem
  | .stop r => r.wf

@[simp] def Inbound.wf : Inbound → Prop
  | .ok s _ | .stall s => Memory.wf s.mem
  | .refused | .page _ | .notHbm _ => True

@[simp] def SavePlace.wf : SavePlace → Prop
  | .ok s _ | .busy s => Memory.wf s.mem
  | .fault => True

@[simp] def Merge.wf : Merge → Prop
  | .merged s | .passed s => Memory.wf s.mem
  | .full => True

theorem wf_dev {m : Mem} (h : Memory.wf m) : cellsWf m.dev := ((wf_iff m).mp h).1

theorem wf_host {m : Mem} (h : Memory.wf m) : cellsWf m.host := ((wf_iff m).mp h).2.1

theorem wf_tiles {m : Mem} (h : Memory.wf m) : cellsWf m.tiles := ((wf_iff m).mp h).2.2.1

theorem wf_empty {m : Mem} (h : Memory.wf m) : risingFrom 0 m.empty := ((wf_iff m).mp h).2.2.2

theorem wf_writeDev (m : Mem) (a n : Nat) (v : Vec) (h : Memory.wf m) : Memory.wf { m with dev := writeVal m.dev a n v } :=
  wf_withDev _ _ h (cellsWf_writeVal _ _ _ _ (wf_dev h))

theorem wf_writeHost (m : Mem) (a n : Nat) (v : Vec) (h : Memory.wf m) : Memory.wf { m with host := writeVal m.host a n v } :=
  wf_withHost _ _ h (cellsWf_writeVal _ _ _ _ (wf_host h))

/-- Canonical lists that lie one below the other make a canonical list. -/
theorem cellsFrom_append (l k : List Host.Cell) (lo mid : Nat) (hl : cellsFrom lo l) (hm : ∀ c ∈ l, c.1 < mid) (hk : cellsFrom mid k)
    (h : lo ≤ mid) : cellsFrom lo (l ++ k) := by
  induction l generalizing lo with
  | nil => exact cellsFrom_mono k lo mid hk h
  | cons c l ih =>
    simp only [cellsFrom, Bool.and_eq_true, decide_eq_true_eq] at hl
    obtain ⟨hc, hl⟩ := hl
    simp only [List.cons_append, cellsFrom, Bool.and_eq_true, decide_eq_true_eq]
    exact ⟨hc, ih (c.1 + 1) hl (fun d hd => hm d (by simp [hd])) (hm c (by simp))⟩

/-- The cells from a bound on are canonical from there. -/
theorem cellsFrom_filter_ge (l : List Host.Cell) (lo mid : Nat) (hl : cellsFrom lo l) :
    cellsFrom mid (l.filter fun c => decide (mid ≤ c.1)) := by
  induction l generalizing lo with
  | nil => rfl
  | cons c l ih =>
    simp only [cellsFrom, Bool.and_eq_true, decide_eq_true_eq] at hl
    obtain ⟨⟨hc, h0⟩, hl⟩ := hl
    by_cases hm : mid ≤ c.1
    · have hf : cellsFrom (c.1 + 1) (l.filter fun c => decide (mid ≤ c.1)) := cellsFrom_filter _ _ _ hl
      simp [hm, cellsFrom, hf]
      simpa using h0
    · simpa [hm] using ih _ hl

/-- Cells of a range stay in order when they are moved together. -/
theorem cellsFrom_moved (l : List Host.Cell) (src dst lo : Nat) (hl : cellsFrom lo l) (h : ∀ c ∈ l, src ≤ c.1) (hlo : src ≤ lo) :
    cellsFrom (lo - src + dst) (l.map fun c => (c.1 - src + dst, c.2)) := by
  induction l generalizing lo with
  | nil => rfl
  | cons c l ih =>
    simp only [cellsFrom, Bool.and_eq_true, decide_eq_true_eq] at hl
    obtain ⟨⟨hc, h0⟩, hl⟩ := hl
    have hs := h c (by simp)
    have := ih (c.1 + 1) hl (fun d hd => h d (by simp [hd])) (by omega)
    simp only [List.map_cons, cellsFrom, Bool.and_eq_true, decide_eq_true_eq]
    refine ⟨⟨by omega, h0⟩, ?_⟩
    rwa [show c.1 - src + dst + 1 = c.1 + 1 - src + dst by omega]

theorem cellsFrom_movedCells (l : List Host.Cell) (src dst n : Nat) (hl : cellsWf l) : cellsFrom dst (movedCells l src dst n) := by
  have hr : ∀ c ∈ l.filter (fun c => inRange src n c.1), src ≤ c.1 := fun c hc => by
    simp only [List.mem_filter, inRange, Bool.and_eq_true, decide_eq_true_eq] at hc
    exact hc.2.1
  have hge : l.filter (fun c => inRange src n c.1) = (l.filter fun c => decide (src ≤ c.1)).filter fun c => decide (c.1 < src + n) := by
    simp [List.filter_filter, inRange, Bool.and_comm]
  have hf : cellsFrom src (l.filter fun c => inRange src n c.1) := by
    rw [hge]
    exact cellsFrom_filter _ _ _ (cellsFrom_filter_ge l 0 src hl)
  simpa [movedCells] using cellsFrom_moved _ src dst src hf hr (Nat.le_refl _)

theorem movedCells_lt (l : List Host.Cell) (src dst n : Nat) (c : Host.Cell) (h : c ∈ movedCells l src dst n) : c.1 < dst + n := by
  simp only [movedCells, List.mem_map, List.mem_filter, inRange, Bool.and_eq_true, decide_eq_true_eq] at h
  obtain ⟨d, ⟨-, h1, h2⟩, rfl⟩ := h
  dsimp only
  omega

/-- A range replaced by cells moved into it: what lies below it, the moved cells, what lies above. -/
theorem cellsWf_movedRange (l k : List Host.Cell) (src dst n : Nat) (hl : cellsWf l) (hk : cellsWf k) :
    cellsWf (replaceRange l (movedCells k src dst n) dst n) := by
  unfold replaceRange
  rw [List.append_assoc]
  refine cellsFrom_append _ _ 0 dst (cellsFrom_filter _ _ _ hl) (fun c hc => by simpa using (List.mem_filter.mp hc).2) ?_ (by omega)
  exact cellsFrom_append _ _ dst (dst + n) (cellsFrom_movedCells k src dst n hk) (fun c hc => movedCells_lt k src dst n c hc)
    (cellsFrom_filter_ge l 0 _ hl) (by omega)

theorem risingFrom_movedWords (l : List Nat) (src dst n : Nat) (hl : risingFrom 0 l) : risingFrom 0 (movedWords l src dst n) :=
  List.foldlRecOn (motive := fun k => risingFrom 0 k = true) _ _ (risingFrom_filter _ _ _ hl)
    fun k hk x _ => risingFrom_insert k 0 x hk (by omega)

/-! Caches and the directory (Machine/Cache.lean). -/

@[simp] theorem l1Put_mem (s : State) (b u : Nat) (line : Phys) (d : BitVec 1024) : (l1Put s b u line d).mem = s.mem := rfl

@[simp] theorem l1Fill_mem (s : State) (b u : Nat) (line : Phys) : (l1Fill s b u line).mem = s.mem := rfl

@[simp] theorem l1Renew_mem (s : State) (b u : Nat) : (l1Renew s b u).mem = s.mem := rfl

@[simp] theorem iFill_mem (s : State) (b u : Nat) (line : Phys) : (iFill s b u line).mem = s.mem := rfl

@[simp] theorem l1Store_mem (s : State) (b u : Nat) (p : Phys) (n : Nat) (v : Vec) : (l1Store s b u p n v).mem = s.mem := rfl

@[simp] theorem l2DropOthers_mem (s : State) (b : Option Nat) (line : Phys) : (l2DropOthers s b line).mem = s.mem := by
  unfold l2DropOthers
  grind -ring -linarith -order [l2Drop_mem, foldl_mem]

@[simp] theorem l2Share_mem (s : State) (b : Nat) (line : Phys) : (l2Share s b line).mem = s.mem := rfl

@[simp] theorem deltaAdd_mem (s : State) (b : Nat) (p : Phys) (op : AOp) (t : Ty) (v : Word) :
    (deltaAdd s b p op t v).mem = s.mem :=
  rfl

theorem wf_mergeOne (m : Mem) (ds : List DSum) (pick : Nat) (hm : Memory.wf m) : Memory.wf (mergeOne m ds pick).1 := by
  unfold mergeOne
  grind -ring -linarith -order [wf_physWrite]

theorem wf_mergeAll (n : Nat) (m : Mem) (ds : List DSum) (f : Nat) (hm : Memory.wf m) : Memory.wf (mergeAll n m ds f) := by
  induction n generalizing m ds f with
  | zero => exact hm
  | succ n ih =>
    cases ds with
    | nil => exact hm
    | cons x l => exact ih _ _ _ (wf_mergeOne _ _ _ hm)

theorem wf_mergeLine (s : State) (line : Phys) (hs : Memory.wf s.mem) : Memory.wf (mergeLine s line).mem := by
  unfold mergeLine
  dsimp only
  split
  · exact hs
  · exact wf_mergeAll _ _ _ _ hs

@[simp] theorem tellEvict_mem (s : State) (line : Phys) (st : L2State) : (tellEvict s line st).mem = s.mem := by
  unfold tellEvict
  grind -ring -linarith -order [emit_mem]

@[simp] theorem llcDrop_mem (s : State) (p : Phys) : (llcDrop s p).mem = s.mem := by simp [llcDrop]

@[simp] theorem llcRoom_mem (s : State) (line : Phys) : (llcRoom s line).mem = s.mem := by
  unfold llcRoom
  grind -ring -linarith -order [llcDrop_mem]

@[simp] theorem llcPut_mem (s : State) (a : Nat) (dirty : Bool) : (llcPut s a dirty).mem = s.mem := by simp [llcPut]

theorem wf_l2Evict (s : State) (x : L2Line) (hs : Memory.wf s.mem) : Memory.wf (l2Evict s x).mem := by
  unfold l2Evict
  dsimp only
  split <;> simp [wf_mergeLine, hs]

theorem wf_l2Room (s : State) (b : Nat) (line : Phys) (hs : Memory.wf s.mem) : Memory.wf (l2Room s b line).mem := by
  unfold l2Room
  grind -ring -linarith -order [wf_l2Evict, llcRoom_mem]

theorem wf_l2Put (s : State) (b : Nat) (line : Phys) (st : L2State) (hs : Memory.wf s.mem) :
    Memory.wf (l2Put s b line st).mem := by
  simp [l2Put, wf_l2Room, hs]

theorem wf_l2Keep (s : State) (b : Nat) (line : Phys) (d : BitVec 1024) (hs : Memory.wf s.mem) :
    Memory.wf (l2Keep s b line d).mem := by
  simp [l2Keep, wf_l2Put, hs]

@[simp] theorem ownPeerCopies_mem (s : State) (b u : Nat) (p : Phys) (n : Nat) (v : Vec) :
    (ownPeerCopies s b u p n v).mem = s.mem :=
  rfl

@[simp] theorem dirPut_mem (s : State) (a : Nat) : (dirPut s a).mem = s.mem := rfl

theorem wf_dirRecall (s : State) (e : DirEnt) (hs : Memory.wf s.mem) : Memory.wf (dirRecall s e).mem := by
  unfold dirRecall
  grind -ring -linarith -order [wf_mergeLine, l2Drop_mem, llcPut_mem, wf_foldl, foldl_mem]

theorem wf_dirRoom (a n : Nat) (s : State) (hs : Memory.wf s.mem) : Memory.wf (dirRoom a n s).mem := by
  induction n generalizing s with
  | zero => exact hs
  | succ n ih =>
    unfold dirRoom
    split
    · exact ih _ (wf_dirRecall _ _ hs)
    · exact hs

theorem wf_bringCopies (s : State) (b : Nat) (line : Phys) (need : Need) (hs : Memory.wf s.mem) :
    Memory.wf (bringCopies s b line need).mem := by
  unfold bringCopies
  grind -ring -linarith -order [wf_l2Put, l1Drop_mem, l2Drop_mem, l2DropOthers_mem, l2Share_mem, wf_foldl]

@[simp] theorem dirNote_mem (s : State) (a : Nat) (fit : Option DirKind) : (dirNote s a fit).mem = s.mem := by
  unfold dirNote
  split <;> simp

theorem wf_obtain (s : State) (b : Nat) (line : Phys) (need : Need) (hs : Memory.wf s.mem) :
    Memory.wf (obtain s b line need).mem := by
  unfold obtain
  dsimp only
  split <;> simp [wf_bringCopies, wf_dirRoom, wf_mergeLine, hs]

@[simp] theorem sendBisnp_mem (s : State) (line : Phys) (inv : Bool) : (sendBisnp s line inv).mem = s.mem := by simp [sendBisnp]

theorem wf_writeBy (s : State) (b u : Nat) (p : Phys) (n : Nat) (v : Vec) (hs : Memory.wf s.mem) :
    Memory.wf (writeBy s b u p n v).mem := by
  unfold writeBy
  grind -ring -linarith -order [l1Store_mem, wf_physWrite]

theorem wf_writeHome (s : State) (p : Phys) (n : Nat) (v : Vec) (hs : Memory.wf s.mem) : Memory.wf (writeHome s p n v).mem := by
  unfold writeHome
  grind -ring -linarith -order [wf_obtain, wf_physWrite]

theorem wf_flushHold (s : State) (b u : Nat) (h : HoldReg) (hs : Memory.wf s.mem) : Memory.wf (flushHold s b u h).mem := by
  unfold flushHold
  grind -ring -linarith -order [wf_writeBy, wf_foldl]

/-! Threads, holds, halts and traps (Machine/Ops.lean). -/

@[simp] theorem joinReady_mem (s : State) (t : Thread) : (joinReady s t).mem = s.mem := rfl

@[simp] theorem pauseHolds_mem (s : State) (t : Thread) : (pauseHolds s t).mem = s.mem := by simp [pauseHolds]

@[simp] theorem refresh_mem (s0 : State) (k : Key) : (refresh s0 k).mem = s0.mem := by
  unfold refresh
  split <;> simp

theorem wf_endHoldAt (s : State) (b u i : Nat) (hs : Memory.wf s.mem) : Memory.wf (endHoldAt s b u i).mem := by
  unfold endHoldAt
  split <;> simp [wf_flushHold, hs]

theorem wf_endHolds (s : State) (k : Key) (hs : Memory.wf s.mem) : Memory.wf (endHolds s k).mem := by
  unfold endHolds
  grind -ring -linarith -order [wf_endHoldAt, wf_foldl]

@[simp] theorem debugEvent_mem (s : State) (evt : BitVec 8) (k : Key) : (debugEvent s evt k).mem = s.mem := by
  unfold debugEvent
  split <;> simp

theorem wf_haltIu (s : State) (b u : Nat) (hs : Memory.wf s.mem) : Memory.wf (haltIu s b u).mem := by
  unfold haltIu
  grind -ring -linarith -order [wf_endHolds, onIu_mem, onThread_mem, refresh_mem, wf_foldl]

theorem wf_haltMember (s : State) (b : Nat) (y : Nat × Nat) (hs : Memory.wf s.mem) : Memory.wf (haltMember s b y).mem := by
  simp [haltMember, wf_haltIu, hs]

theorem wf_triggerSet (s : State) (n : BitVec 6) (trig : BitVec 3) (b u : Nat) (k : Option Key) (hs : Memory.wf s.mem) :
    Memory.wf (triggerSet s n trig b u k).mem := by
  unfold triggerSet
  grind -ring -linarith -order [wf_haltMember, debugEvent_mem, putSet_mem, wf_foldl]

theorem wf_triggerBy (s : State) (k : Key) (trig : BitVec 3) (enabled : SetCtl → Bool) (hs : Memory.wf s.mem) :
    Memory.wf (triggerBy s k trig enabled).mem := by
  unfold triggerBy
  grind -ring -linarith -order [wf_triggerSet]

theorem wf_stepEnd (s : State) (k : Key) (evt : BitVec 8) (hs : Memory.wf s.mem) : Memory.wf (stepEnd s k evt).mem := by
  simp [stepEnd, wf_triggerBy, hs]

theorem wf_freeze (s : State) (k : Key) (cause : BitVec 8) (detail : BitVec 24) (va : Word) (hs : Memory.wf s.mem) :
    Memory.wf (freeze s k cause detail va).mem := by
  unfold freeze
  split <;> simp [wf_triggerBy, wf_endHolds, hs]

theorem wf_finishTrap (s : State) (k : Key) (hs : Memory.wf s.mem) : Memory.wf (finishTrap s k).mem := by
  unfold finishTrap
  grind -ring -linarith -order [wf_stepEnd, setThread_mem, refresh_mem]

theorem wf_trapEntry (s : State) (k : Key) (p : PendTrap) (hs : Memory.wf s.mem) : Memory.wf (trapEntry s k p).mem := by
  unfold trapEntry
  grind -ring -linarith -order [wf_finishTrap, wf_endHolds, wf_freeze, refresh_mem, onThread_mem]

theorem wf_raise (s : State) (k : Key) (x : TrapInfo) (hs : Memory.wf s.mem) : Memory.wf (raise s k x).mem := by
  unfold raise
  grind -ring -linarith -order [wf_trapEntry]

theorem wf_absorbFatal (s : State) (k : Key) (t : Thread) (p : PendTrap) (i : BitVec 2) (hs : Memory.wf s.mem) :
    Memory.wf (absorbFatal s k t p i).mem := by
  simp [absorbFatal, wf_trapEntry, hs]

@[simp] theorem writeRecord_mem (s : State) (r : Req) (page : Nat) (status : BitVec 5) :
    (writeRecord s r page status).mem = s.mem := by
  unfold writeRecord
  grind -ring -linarith -order [count_mem, setThread_mem, dropReq_mem, setReqSt_mem]

@[simp] theorem writeUnrecorded_mem (s : State) (k : Key) : (writeUnrecorded s k).mem = s.mem := by
  unfold writeUnrecorded
  grind -ring -linarith -order [writeRecord_mem, foldl_mem]

theorem wf_settle (s0 : State) (k : Key) (hs0 : Memory.wf s0.mem) : Memory.wf (settle s0 k).mem := by
  unfold settle
  grind -ring -linarith -order [wf_trapEntry, wf_absorbFatal, setThread_mem, refresh_mem, writeUnrecorded_mem]

theorem wf_deliver (s : State) (k : Key) (u : Upd) (hs : Memory.wf s.mem) : Memory.wf (deliver s k u).mem := by
  unfold deliver
  split <;> simp [wf_settle, hs]

@[simp] theorem rotate_mem (s : State) (k : Key) : (rotate s k).mem = s.mem := by
  unfold rotate
  grind -ring -linarith -order [onIu_mem]

@[simp] theorem markIssue_mem (s : State) (k : Key) (h : Hdr) : (markIssue s k h).mem = s.mem := by simp [markIssue]

theorem wf_retire (s : State) (k : Key) (h : Hdr) (pc : VAddr) (w : Wait) (hs : Memory.wf s.mem) :
    Memory.wf (retire s k h pc w).mem := by
  unfold retire
  grind -ring -linarith -order [wf_stepEnd, wf_endHolds, wf_settle, markIssue_mem, count_mem, setThread_mem]

/-- An instruction keeps the form when its body does: guards, traps and retirement keep it. -/
theorem wf_issue (s : State) (i : Instr) (h : Hdr) (priv : Bool) (regs : List (BitVec 8 × Opd × Bool)) (body : State → Thread → Did)
    (hs : Memory.wf s.mem) (hb : ∀ t, (body s t).wf) : GoesWf (issue s i h priv regs body) := by
  unfold issue
  split
  · exact hs
  · next t _ =>
    have ht := hb t
    grind -ring -linarith -order [GoesWf, Did.wf, wf_raise, markIssue_mem, wf_retire, wf_settle, onThread_mem, count_mem]

theorem wf_limited (s : State) (t : Thread) (x : Did) (hs : Memory.wf s.mem) (hx : x.wf) : (limited s t x).wf := by
  unfold limited
  grind -ring -linarith -order [Did.wf]

theorem wf_misaligned (reason : BitVec 8) (v : Word) : (misaligned reason v).wf := trivial

theorem wf_finish (s : State) (t : Thread) (c : Ctx) (hs : Memory.wf s.mem) : (finish s t c).wf := hs

/-! Floating point (Machine/Float.lean). -/

theorem wf_fpFinish (s : State) (t : Thread) (fl : Fl) (put : Ctx → Ctx) (hs : Memory.wf s.mem) : (fpFinish s t fl put).wf := by
  unfold fpFinish
  grind -ring -linarith -order [Did.wf, wf_finish]

theorem wf_fpLanes (s : State) (t : Thread) (ty : Ty) (sh : Shape) (d : Opd) (r : List (Nat × Fl)) (hs : Memory.wf s.mem) :
    (fpLanes s t ty sh d r).wf := by
  unfold fpLanes
  grind -ring -linarith -order [wf_fpFinish]

theorem wf_fp2 (s : State) (i : Instr) (h : Hdr) (x : Flt2) (f : Ffmt → Fenv → Nat → Nat → Nat × Fl) (hs : Memory.wf s.mem) :
    GoesWf (fp2 s i h x f) := by
  unfold fp2
  grind -ring -linarith -order [wf_fpLanes, wf_issue]

theorem wf_fp3 (s : State) (i : Instr) (h : Hdr) (x : Flt3) (neg : Bool) (hs : Memory.wf s.mem) : GoesWf (fp3 s i h x neg) := by
  unfold fp3
  grind -ring -linarith -order [wf_fpLanes, wf_issue]

theorem wf_execFadd (h : Hdr) (x : Flt2) (s : State) (hs : Memory.wf s.mem) : GoesWf (execFadd h x s) := wf_fp2 _ _ _ _ _ hs

theorem wf_execFsub (h : Hdr) (x : Flt2) (s : State) (hs : Memory.wf s.mem) : GoesWf (execFsub h x s) := wf_fp2 _ _ _ _ _ hs

theorem wf_execFsqrt (h : Hdr) (x : Flt1) (s : State) (hs : Memory.wf s.mem) : GoesWf (execFsqrt h x s) :=
  wf_issue _ _ _ _ _ _ hs fun _ => wf_fpLanes _ _ _ _ _ _ hs

theorem wf_fpMinMax (s : State) (i : Instr) (h : Hdr) (x : Vec2) (max : Bool) (hs : Memory.wf s.mem) :
    GoesWf (fpMinMax s i h x max) := by
  unfold fpMinMax
  grind -ring -linarith -order [wf_fpLanes, wf_issue]

theorem wf_execFsgn (h : Hdr) (x : Fsgn) (s : State) (hs : Memory.wf s.mem) : GoesWf (execFsgn h x s) :=
  wf_issue _ _ _ _ _ _ hs fun _ => wf_finish _ _ _ hs

theorem wf_execFcmp (h : Hdr) (x : Fcmp) (s : State) (hs : Memory.wf s.mem) : GoesWf (execFcmp h x s) :=
  wf_issue _ _ _ _ _ _ hs fun _ => wf_fpFinish _ _ _ _ hs

theorem wf_execFclass (h : Hdr) (x : Alu1) (s : State) (hs : Memory.wf s.mem) : GoesWf (execFclass h x s) :=
  wf_issue _ _ _ _ _ _ hs fun _ => wf_finish _ _ _ hs

theorem wf_execFrnd (h : Hdr) (x : Frnd) (s : State) (hs : Memory.wf s.mem) : GoesWf (execFrnd h x s) :=
  wf_issue _ _ _ _ _ _ hs fun _ => wf_fpLanes _ _ _ _ _ _ hs

theorem wf_convert (s : State) (i : Instr) (h : Hdr) (x : Cvt) (imm : BitVec 6 → Nat) (f : Fenv → Nat → Nat × Fl)
    (intDst : Bool) (hs : Memory.wf s.mem) :
    GoesWf (convert s i h x imm f intDst) := by
  unfold convert
  grind -ring -linarith -order [wf_fpFinish, wf_issue]

theorem wf_execFcvi (h : Hdr) (x : Cvt) (s : State) (hs : Memory.wf s.mem) : GoesWf (execFcvi h x s) :=
  wf_convert _ _ _ _ _ _ _ hs

theorem wf_execIcvf (h : Hdr) (x : Cvt) (s : State) (hs : Memory.wf s.mem) : GoesWf (execIcvf h x s) := by
  unfold execIcvf
  grind -ring -linarith -order [wf_convert]

theorem wf_execShuf (h : Hdr) (x : Vec3) (s : State) (hs : Memory.wf s.mem) : GoesWf (execShuf h x s) :=
  wf_issue _ _ _ _ _ _ hs fun _ => wf_finish _ _ _ hs

theorem wf_execVext (h : Hdr) (x : Vec2) (s : State) (hs : Memory.wf s.mem) : GoesWf (execVext h x s) :=
  wf_issue _ _ _ _ _ _ hs fun _ => wf_finish _ _ _ hs

theorem wf_execVins (h : Hdr) (x : Vec2) (s : State) (hs : Memory.wf s.mem) : GoesWf (execVins h x s) :=
  wf_issue _ _ _ _ _ _ hs fun _ => wf_finish _ _ _ hs

theorem wf_execVbc (h : Hdr) (x : Alu1) (s : State) (hs : Memory.wf s.mem) : GoesWf (execVbc h x s) :=
  wf_issue _ _ _ _ _ _ hs fun _ => wf_finish _ _ _ hs

theorem wf_execVred (h : Hdr) (x : Vred) (s : State) (hs : Memory.wf s.mem) : GoesWf (execVred h x s) :=
  wf_issue _ _ _ _ _ _ hs fun _ => wf_fpFinish _ _ _ _ hs

theorem wf_execVscan (h : Hdr) (x : Vred) (s : State) (hs : Memory.wf s.mem) : GoesWf (execVscan h x s) :=
  wf_issue _ _ _ _ _ _ hs fun _ => wf_fpFinish _ _ _ _ hs

theorem wf_execVdot (h : Hdr) (x : Flt3) (s : State) (hs : Memory.wf s.mem) : GoesWf (execVdot h x s) :=
  wf_issue _ _ _ _ _ _ hs fun _ => wf_fpFinish _ _ _ _ hs

theorem wf_execVmskGet (h : Hdr) (x : Alu1) (s : State) (hs : Memory.wf s.mem) : GoesWf (execVmskGet h x s) :=
  wf_issue _ _ _ _ _ _ hs fun _ => wf_finish _ _ _ hs

theorem wf_execVmskSet (h : Hdr) (x : Alu1) (s : State) (hs : Memory.wf s.mem) : GoesWf (execVmskSet h x s) :=
  wf_issue _ _ _ _ _ _ hs fun _ => wf_finish _ _ _ hs

theorem wf_execVmskAny (h : Hdr) (x : Alu1) (s : State) (hs : Memory.wf s.mem) : GoesWf (execVmskAny h x s) :=
  wf_issue _ _ _ _ _ _ hs fun _ => wf_finish _ _ _ hs

theorem wf_execVmskAll (h : Hdr) (x : Alu1) (s : State) (hs : Memory.wf s.mem) : GoesWf (execVmskAll h x s) :=
  wf_issue _ _ _ _ _ _ hs fun _ => wf_finish _ _ _ hs

/-! Translation (Machine/Translate.lean). -/

@[simp] theorem tlbAdd_mem (s : State) (x : TlbEnt) : (tlbAdd s x).mem = s.mem := rfl

theorem wf_markPte (s : State) (addr : Nat) (dirty : Bool) (hs : Memory.wf s.mem) : Memory.wf (markPte s addr dirty).mem :=
  wf_writeDev _ _ _ _ hs

@[simp] theorem countMiss_mem (s : State) (l : TlbAt) : (countMiss s l).mem = s.mem := by
  unfold countMiss
  split <;> simp

theorem wf_useLeaf (s : State) (e : TlbEnt) (k : Want) (a : Nat) (hs : Memory.wf s.mem) : (useLeaf s e k a).wf := by
  unfold useLeaf
  grind -ring -linarith -order [Trans.wf, wf_markPte, sendBisnp_mem]

theorem wf_translate (s : State) (l : TlbAt) (asid : BitVec 16) (k : Want) (va : Word) (hs : Memory.wf s.mem) :
    (translate s l asid k va).wf := by
  unfold translate
  split
  · trivial
  dsimp only
  split
  · trivial
  split
  · trivial
  split
  · exact wf_useLeaf _ _ _ _ hs
  split
  · exact wf_useLeaf _ _ _ _ (by simpa using hs)
  split <;> grind -ring -linarith -order [Trans.wf, wf_useLeaf, wf_markPte, tlbAdd_mem, countMiss_mem, sendBisnp_mem]

theorem wf_of_translate_ok {s s1 : State} {l : TlbAt} {asid : BitVec 16} {k : Want} {va : Word} {p : Phys} (hs : Memory.wf s.mem)
    (h : translate s l asid k va = .ok p s1) : Memory.wf s1.mem := by
  simpa [h] using wf_translate s l asid k va hs

/-! Requests (Machine/Access.lean). -/

theorem wf_fatalAccess (s : State) (r : Req) (va : Word) (status : BitVec 5) (hs : Memory.wf s.mem) :
    Memory.wf (fatalAccess s r va status).mem := by
  unfold fatalAccess
  grind -ring -linarith -order [wf_settle, wf_deliver, putReq_mem, writeRecord_mem, dropReq_mem, dueFreeze_mem]

theorem wf_waitAccess (s : State) (r : Req) (va : Word) (k : Want) (hs : Memory.wf s.mem) :
    Memory.wf (waitAccess s r va k).mem := by
  unfold waitAccess
  grind -ring -linarith -order [wf_settle, writeRecord_mem, count_mem, setReqSt_mem, putReq_mem, noteFault_mem]

theorem wf_resolve (s : State) (r : Req) (hs : Memory.wf s.mem) : (resolve s r).wf := by
  unfold resolve
  grind -ring -linarith -order [Trans.wf, Sent.wf, wf_waitAccess, wf_fatalAccess, wf_translate, putReq_mem]

@[simp] theorem enter_mem (s : State) (t : Thread) (r : Req) (pends counts : Bool) :
    (enter s t r pends counts).1.mem = s.mem :=
  rfl

theorem wf_submit (s : State) (t : Thread) (r : Req) (pends counts : Bool) (pc : VAddr) (w : Wait) (hs : Memory.wf s.mem) :
    (submit s t r pends counts pc w).wf := by
  unfold submit
  grind -ring -linarith -order [Did.wf, Sent.wf, wf_resolve, enter_mem]

theorem wf_loadBy (s : State) (r : Req) (p : Phys) (hs : Memory.wf s.mem) : Memory.wf (loadBy s r p).1.mem := by
  unfold loadBy
  dsimp only
  split <;> simp [wf_obtain, hs]

theorem wf_peerHit {s s1 : State} {r : Req} {p : Phys} {v : Vec} (hs : Memory.wf s.mem) (h : peerHit s r p = some (s1, v)) :
    Memory.wf s1.mem := by
  unfold peerHit at h
  dsimp only at h
  split at h
  · cases h
    exact hs
  · obtain ⟨y, -, e⟩ := Option.map_eq_some_iff.mp h
    cases e
    split <;> exact hs

theorem wf_giveUp (s : State) (line : Phys) (hs : Memory.wf s.mem) : Memory.wf (giveUp s line).mem := by
  unfold giveUp
  split <;> simp [wf_mergeLine, hs]

theorem wf_flushLine (s : State) (b u : Nat) (scp : Scope) (line : Phys) (hs : Memory.wf s.mem) :
    Memory.wf (flushLine s b u scp line).mem := by
  unfold flushLine
  grind -ring -linarith -order [wf_giveUp, wf_l2Put, wf_mergeLine, dirPut_mem, llcPut_mem, l2DropOthers_mem, l1Drop_mem]

@[simp] theorem holdPut_mem (s : State) (k : Key) (p : Phys) (n : Nat) (v : Vec) : (holdPut s k p n v).mem = s.mem := rfl

@[simp] theorem overHold_mem (s : State) (k : Key) (p : Phys) (n : Nat) : (overHold s k p n).mem = s.mem := by simp [overHold]

theorem wf_hostAtomic (s : State) (r : Req) (p : Phys) (new : Vec → Vec) (hs : Memory.wf s.mem) :
    Memory.wf (hostAtomic s r p new).1.mem := by
  simp [hostAtomic, wf_writeBy, wf_obtain, hs]

theorem wf_devAtomic (s : State) (r : Req) (p : Phys) (hs : Memory.wf s.mem) : Memory.wf (devAtomic s r p).1.mem := by
  unfold devAtomic
  dsimp only
  split <;> simp [wf_writeBy, wf_obtain, hs]

theorem wf_accessCached (s : State) (r : Req) (p : Phys) (hs : Memory.wf s.mem) : (accessCached s r p).wf := by
  unfold accessCached
  grind -ring -linarith -order [Acc.wf, wf_flushLine, wf_hostAtomic, wf_devAtomic, wf_writeBy, wf_obtain, wf_loadBy,
    deltaAdd_mem, holdPut_mem, overHold_mem]

theorem wf_askHost (s : State) (r : Req) (o : Out) (hs : Memory.wf s.mem) : (askHost s r o).wf := hs

@[simp] theorem queueUp_mem (s : State) (line : Phys) (who : Option Asker) : (queueUp s line who).mem = s.mem := by
  unfold queueUp
  split <;> simp

@[simp] theorem leaveTurns_mem (s : State) (who : Option Asker) : (leaveTurns s who).mem = s.mem := by
  unfold leaveTurns
  split <;> simp

theorem Acc.wf_ite {c : Prop} [Decidable c] {a b : Acc} (ha : a.wf) (hb : b.wf) : (if c then a else b).wf := by
  split
  · exact ha
  · exact hb

theorem wf_access (s : State) (r : Req) (p : Phys) (hs : Memory.wf s.mem) : (access s r p).wf := by
  have hq : ∀ line who, Memory.wf (queueUp s line who).mem := fun line who => by simpa using hs
  refine Acc.wf_ite trivial (Acc.wf_ite hs (Acc.wf_ite (hq _ _) ?_))
  cases p with
  | dev a => dsimp only; split <;> grind -ring -linarith -order [Acc.wf, wf_accessCached, queueUp_mem, sendBisnp_mem]
  | hostC a => grind -ring -linarith -order [Acc.wf, wf_accessCached, wf_askHost, wf_giveUp]
  | hostU a => grind -ring -linarith -order [Acc.wf, wf_askHost, wf_writeHost]
  | peer id win off => dsimp only; split <;> grind -ring -linarith -order [Acc.wf, emit_mem, setReqSt_mem, wf_flushLine,
    wf_peerHit]

theorem wf_deliverRet (s : State) (r : Req) (v : Word) (hs : Memory.wf s.mem) : Memory.wf (deliverRet s r v).mem := by
  unfold deliverRet
  grind -ring -linarith -order [wf_deliver, wf_raise, onThread_mem]

@[simp] theorem recordDep_mem (s : State) (fn qid n : Nat) (v : Word) : (recordDep s fn qid n v).mem = s.mem := rfl

@[simp] theorem acquireFor_mem (s : State) (r : Req) : (acquireFor s r).mem = s.mem := by
  unfold acquireFor
  split <;> simp

@[simp] theorem renewFor_mem (s : State) (r : Req) : (renewFor s r).mem = s.mem := by
  unfold renewFor
  split <;> simp

@[simp] theorem cachesAfter_mem (s : State) (r : Req) : (cachesAfter s r).mem = s.mem := by
  unfold cachesAfter
  split <;> simp

theorem wf_complete (s : State) (r : Req) (v : Vec) (hs : Memory.wf s.mem) : Memory.wf (complete s r v).mem := by
  unfold complete
  grind -ring -linarith -order [wf_deliverRet, wf_deliver, recordDep_mem, cachesAfter_mem, dropReq_mem]

@[simp] theorem grantHold_mem (s : State) (r : Req) (p : Phys) (reg : Nat) : (grantHold s r p reg).mem = s.mem := rfl

theorem wf_performSync (s : State) (r : Req) (a : Nat) (hs : Memory.wf s.mem) : Memory.wf (performSync s r a).mem := by
  unfold performSync
  dsimp only
  split
  · exact wf_complete _ _ _ (wf_setEmpty _ _ hs)
  · exact wf_complete _ _ _ (wf_setFull _ _ (wf_writeDev _ _ _ _ hs))
  · exact wf_complete _ _ _ (wf_setFull _ _ (wf_writeDev _ _ _ _ hs))
  · exact wf_complete _ _ _ (wf_setEmpty _ _ hs)
  · exact wf_complete _ _ _ hs
  · exact wf_complete _ _ _ hs

theorem wf_scanOnce (s : State) (a : Nat) (ws : List Waiter) (hs : Memory.wf s.mem) : Memory.wf (scanOnce s a ws).1.mem := by
  unfold scanOnce
  refine List.foldlRecOn (motive := fun acc : State × Bool => Memory.wf acc.1.mem) ws _ hs fun acc hacc w _ => ?_
  grind -ring -linarith -order [wf_performSync]

theorem wf_scanWaiters (a n : Nat) (s : State) (hs : Memory.wf s.mem) : Memory.wf (scanWaiters a n s).mem := by
  induction n generalizing s with
  | zero => exact hs
  | succ n ih =>
    have h1 := wf_scanOnce s a s.flight.waiters hs
    unfold scanWaiters
    dsimp only
    split
    · exact ih _ h1
    · exact h1

theorem wf_serveWord (s : State) (a : Nat) (hs : Memory.wf s.mem) : Memory.wf (serveWord s a).mem := by
  simp [serveWord, wf_scanWaiters, hs]

@[simp] theorem recordWaiter_mem (s : State) (r : Req) (a : Nat) : (recordWaiter s r a).mem = s.mem := by simp [recordWaiter]

theorem wf_arriveSync (s : State) (r : Req) (a : Nat) (hs : Memory.wf s.mem) : Memory.wf (arriveSync s r a).mem := by
  unfold arriveSync
  grind -ring -linarith -order [wf_performSync, wf_serveWord, wf_obtain, recordWaiter_mem]

theorem wf_arriveBar (s : State) (r : Req) (a : Nat) (hs : Memory.wf s.mem) : Memory.wf (arriveBar s r a).mem := by
  have h1 := wf_obtain s 0 (lineOf (.dev a)) .home hs
  unfold arriveBar
  dsimp only
  split
  · exact wf_fatalAccess _ _ _ _ h1
  split
  · exact wf_foldl _ (fun s q hs => wf_complete s q _ hs) _ _ (wf_writeDev _ _ _ _ h1)
  split
  · simpa using wf_writeDev _ a 8 _ h1
  · simpa using h1

theorem wf_syncGate (s : State) (p : Phys) (hs : Memory.wf s.mem) : (syncGate s p).wf := by
  unfold syncGate
  grind -ring -linarith -order [Acc.wf, sendBisnp_mem]

theorem wf_homeTurn (s : State) (p : Phys) (who : Asker) (hs : Memory.wf s.mem) : (homeTurn s p who).wf := by
  unfold homeTurn
  grind -ring -linarith -order [Acc.wf, wf_syncGate, leaveLine_mem, queueUp_mem]

theorem wf_goHome (s : State) (r : Req) (p : Phys) (hs : Memory.wf s.mem) : Memory.wf (goHome s r p).mem := by
  unfold goHome
  grind -ring -linarith -order [Acc.wf, wf_fatalAccess, wf_arriveSync, wf_arriveBar, wf_homeTurn]

theorem wf_finishAcc (s : State) (r : Req) (a : Acc) (hs : Memory.wf s.mem) (ha : a.wf) : Memory.wf (finishAcc s r a).mem := by
  unfold finishAcc
  grind -ring -linarith -order [Acc.wf, wf_fatalAccess, wf_complete]

theorem wf_attemptAt (s : State) (r : Req) (p : Phys) (hs : Memory.wf s.mem) : Memory.wf (attemptAt s r p).mem := by
  unfold attemptAt
  grind -ring -linarith -order [Acc.wf, wf_access, wf_finishAcc, leaveTurns_mem, putReq_mem]

theorem wf_attempt (s : State) (r : Req) (hs : Memory.wf s.mem) : (attempt s r).wf := by
  unfold attempt
  grind -ring -linarith -order [Sent.wf, wf_resolve, wf_attemptAt]

theorem wf_sentOut (l : Sent) (hl : l.wf) : GoesWf (sentOut l) := by
  unfold sentOut
  grind -ring -linarith -order [GoesWf, Sent.wf]

/-! Loads and stores (Machine/LoadStore.lean). -/

theorem wf_aligned (ea : Word) (n : Nat) (x : Did) (hx : x.wf) : (aligned ea n x).wf := by
  unfold aligned
  grind -ring -linarith -order [wf_misaligned]

theorem wf_execLd (h : Hdr) (x : MemAcc) (s : State) (hs : Memory.wf s.mem) : GoesWf (execLd h x s) := by
  unfold execLd
  grind -ring -linarith -order [wf_submit, wf_aligned, wf_limited, wf_issue]

theorem wf_execSt (h : Hdr) (x : MemAcc) (s : State) (hs : Memory.wf s.mem) : GoesWf (execSt h x s) := by
  unfold execSt
  grind -ring -linarith -order [wf_submit, wf_aligned, wf_issue]

theorem wf_execAmo (h : Hdr) (x : Amo) (s : State) (hs : Memory.wf s.mem) : GoesWf (execAmo h x s) := by
  unfold execAmo
  grind -ring -linarith -order [wf_submit, wf_aligned, wf_limited, wf_issue]

theorem wf_casWith (s : State) (i : Instr) (h : Hdr) (x : Cas) (hs : Memory.wf s.mem) : GoesWf (casWith s i h x) := by
  unfold casWith
  grind -ring -linarith -order [wf_submit, wf_aligned, wf_limited, wf_issue]

@[simp] theorem fenceEnd_mem (s : State) (t : Thread) (o : Ord) (scp : Scope) : (fenceEnd s t o scp).mem = s.mem := by
  simp [fenceEnd]

theorem wf_execFence (h : Hdr) (ord : Ord) (scp : Scope) (s : State) (hs : Memory.wf s.mem) : GoesWf (execFence h ord scp s) := by
  unfold execFence
  grind -ring -linarith -order [Did.wf, wf_issue, fenceEnd_mem]

theorem wf_syncWith (s : State) (i : Instr) (h : Hdr) (op : ReqOp) (d : Opd) (m : MemOp) (pends counts : Bool)
    (hs : Memory.wf s.mem) :
    GoesWf (syncWith s i h op d m pends counts) := by
  unfold syncWith
  grind -ring -linarith -order [wf_limited, wf_submit, wf_aligned, wf_issue]

theorem wf_execHold (h : Hdr) (x : MemT) (s : State) (hs : Memory.wf s.mem) : GoesWf (execHold h x s) := by
  unfold execHold
  grind -ring -linarith -order [wf_submit, wf_aligned, wf_limited, wf_issue]

theorem wf_tryData (s : State) (id : Nat) (hs : Memory.wf s.mem) : Memory.wf (tryData s id).mem := by
  unfold tryData
  grind -ring -linarith -order [Sent.wf, wf_attempt]

theorem wf_performEarlier (s : State) (r : Req) (hs : Memory.wf s.mem) : Memory.wf (performEarlier s r).mem := by
  unfold performEarlier
  grind -ring -linarith -order [wf_tryData, wf_foldl]

theorem wf_underHold (s : State) (t : Thread) (r : Req) (p : Phys) (new : State → Vec) (f : Thread → Thread)
    (hs : Memory.wf s.mem) :
    (underHold s t r p new f).wf := by
  unfold underHold
  grind -ring -linarith -order [Did.wf, wf_performEarlier, wf_submit, holdPut_mem, onThread_mem]

theorem wf_execHst (h : Hdr) (x : Hst) (s : State) (hs : Memory.wf s.mem) : GoesWf (execHst h x s) := by
  unfold execHst
  grind -ring -linarith -order [Did.wf, wf_underHold, wf_aligned, wf_issue, setThread_mem]

theorem wf_releaseHold (s : State) (k : Key) (ea : Word) (hs : Memory.wf s.mem) : Memory.wf (releaseHold s k ea).mem := by
  unfold releaseHold
  split <;> simp [wf_endHoldAt, hs]

theorem wf_execHrel (h : Hdr) (x : MemO) (s : State) (hs : Memory.wf s.mem) : GoesWf (execHrel h x s) := by
  unfold execHrel
  grind -ring -linarith -order [Did.wf, wf_issue, enter_mem]

theorem wf_execAddd (h : Hdr) (x : Addd) (s : State) (hs : Memory.wf s.mem) : GoesWf (execAddd h x s) := by
  unfold execAddd
  grind -ring -linarith -order [Did.wf, wf_underHold, wf_submit, wf_aligned, wf_issue]

theorem wf_execCflush (h : Hdr) (x : MemO) (s : State) (hs : Memory.wf s.mem) : GoesWf (execCflush h x s) :=
  wf_issue _ _ _ _ _ _ hs fun _ => wf_submit _ _ _ _ _ _ _ hs

/-! Placement of lines (Machine/Placement.lean). -/

theorem wf_leaveSlot (s : State) (k : Key) (hs : Memory.wf s.mem) : Memory.wf (leaveSlot s k).mem := by
  unfold leaveSlot
  split
  · split
    · exact hs
    · split
      · next h =>
        have h1 := wf_of_translate_ok hs h
        exact wf_withDev _ _ h1 (List.foldlRecOn (motive := fun d => cellsWf d = true) _ _ (wf_dev h1)
          fun d hd n _ => cellsWf_writeVal d _ _ _ hd)
      · exact hs
  · exact hs

theorem wf_startMove (s : State) (k : Key) (p : Place) (b : Nat) (hs : Memory.wf s.mem) : Memory.wf (startMove s k p b).mem := by
  simp [startMove, wf_leaveSlot, hs]

theorem wf_partRoom (s : State) (slice : Nat) (hs : Memory.wf s.mem) : Memory.wf (partRoom s slice).mem := by
  unfold partRoom
  grind -ring -linarith -order [wf_startMove]

theorem wf_spillTo (s : State) (k : Key) (b : Nat) (hs : Memory.wf s.mem) : Memory.wf (spillTo s k b).mem := by
  unfold spillTo
  split <;> simp [wf_partRoom, wf_startMove, hs]

theorem wf_cl2Room (s : State) (b : Nat) (hs : Memory.wf s.mem) : Memory.wf (cl2Room s b).mem := by
  unfold cl2Room
  grind -ring -linarith -order [wf_spillTo]

@[simp] theorem newTrapLine_mem (s : State) : (newTrapLine s).2.mem = s.mem := rfl

theorem wf_createThread (s : State) (k : Key) (c : Ctx) (b : Nat) (hs : Memory.wf s.mem) :
    Memory.wf (createThread s k c b).mem := by
  simp [createThread, wf_cl2Room, hs]

theorem wf_spawnChild (s : State) (asid : BitVec 16) (origin : Nat) (x : SpawnReq) (hs : Memory.wf s.mem) :
    Memory.wf (spawnChild s asid origin x).1.mem := by
  unfold spawnChild
  split <;> simp [wf_createThread, hs]

@[simp] theorem orphan_mem (s : State) (k : Key) : (orphan s k).mem = s.mem := rfl

theorem wf_retireThread (s : State) (t : Thread) (hs : Memory.wf s.mem) : Memory.wf (retireThread s t).mem := by
  simp [retireThread, wf_endHolds, hs]

theorem wf_moveTo (s : State) (k : Key) (old b : Nat) (hs : Memory.wf s.mem) : Memory.wf (moveTo s k old b).mem := by
  simp [moveTo, wf_startMove, wf_cl2Room, hs]

/-! Tiles (Machine/Tiles.lean). -/

theorem wf_backPage (s : State) (x : Space) (h : Handle) (o : Nat) (hs : Memory.wf s.mem) : Memory.wf (backPage s x h o).mem := by
  unfold backPage
  dsimp only
  split
  · next e =>
    have h1 := wf_of_translate_ok hs e
    exact wf_withDev _ _ h1 (cellsWf_writeBytes _ _ _ (wf_dev h1))
  · exact hs

theorem wf_backFrame (s : State) (x : Space) (h : Handle) (j : Nat) (hs : Memory.wf s.mem) :
    Memory.wf (backFrame s x h j).mem := by
  unfold backFrame
  grind -ring -linarith -order [wf_backPage, wf_foldl]

theorem wf_dropFrame (s : State) (asid : BitVec 16) (h : Handle) (j : Nat) (hs : Memory.wf s.mem) :
    Memory.wf (dropFrame s asid h j).mem := by
  unfold dropFrame
  split <;> simp [wf_backFrame, hs]

@[simp] theorem wakeBank_mem (s : State) (b u n : Nat) : (wakeBank s b u n).mem = s.mem := rfl

theorem wf_takeFrame {s s1 : State} {b u n : Nat} (hs : Memory.wf s.mem) (h : takeFrame s b u = some (s1, n)) : Memory.wf s1.mem := by
  unfold takeFrame at h
  dsimp only at h
  split at h
  · cases h
    simpa using hs
  · obtain ⟨y, -, e⟩ := Option.map_eq_some_iff.mp h
    cases e
    simpa using wf_dropFrame s y.1 y.2.1 y.2.2.1 hs

theorem wf_backingPages (s : State) (b : Nat) (asid : BitVec 16) (x : Space) (idx j size n : Nat) (hs : Memory.wf s.mem) :
    (backingPages s b asid x idx j size n).wf := by
  induction n with
  | zero => exact hs
  | succ n ih => unfold backingPages; grind -ring -linarith -order [Refill.wf, wf_translate, Trans.wf]

theorem wf_refillFrame (s : State) (b : Nat) (asid : BitVec 16) (idx j : Nat) (hs : Memory.wf s.mem) :
    (refillFrame s b asid idx j).wf := by
  unfold refillFrame
  grind -ring -linarith -order [Refill.wf, wf_backingPages, wf_takeFrame, onHandle_mem]

theorem wf_refillFrames (s : State) (b : Nat) (asid : BitVec 16) (idx : Nat) (l : List Nat) (hs : Memory.wf s.mem) :
    (refillFrames s b asid idx l).wf := by
  induction l generalizing s with
  | nil => exact hs
  | cons j l ih => unfold refillFrames; grind -ring -linarith -order [Refill.wf, wf_refillFrame]

theorem wf_releaseTile (s : State) (asid : BitVec 16) (idx : Nat) (hs : Memory.wf s.mem) :
    Memory.wf (releaseTile s asid idx).mem := by
  unfold releaseTile
  grind -ring -linarith -order [wf_settle, onThread_mem, wf_foldl]

theorem wf_writeTile (s : State) (asid : BitVec 16) (idx o : Nat) (l : List Byte) (hs : Memory.wf s.mem) :
    Memory.wf (writeTile s asid idx o l).mem :=
  wf_withTiles _ _ hs (cellsWf_writeBytes _ _ _ (wf_tiles hs))

theorem wf_clearTile (s : State) (asid : BitVec 16) (idx : Nat) (hs : Memory.wf s.mem) : Memory.wf (clearTile s asid idx).mem :=
  wf_withTiles _ _ hs (cellsWf_filter _ _ (wf_tiles hs))

theorem wf_tileBound (reason field : BitVec 8) (v : Word) : (tileBound reason field v).wf := trivial

@[simp] theorem fetchEntry_mem (s : State) (b : Nat) (asid : BitVec 16) (i : Nat) : (fetchEntry s b asid i).mem = s.mem := rfl

theorem wf_withEntries (s : State) (t : Thread) (l : List Nat) (x : Did) (hs : Memory.wf s.mem) (hx : x.wf) :
    (withEntries s t l x).wf := by
  unfold withEntries
  grind -ring -linarith -order [Did.wf, fetchEntry_mem]

@[simp] theorem setReserve_mem (s : State) (b : Nat) (asid : BitVec 16) (n : Nat) : (setReserve s b asid n).mem = s.mem := rfl

@[simp] theorem refillReserve_mem (s : State) (b : Nat) (asid : BitVec 16) : (refillReserve s b asid).mem = s.mem := rfl

theorem wf_bindTile (s : State) (t : Thread) (fmt : BitVec 8) (rows cols : BitVec 16) (size idx : Nat) (hs : Memory.wf s.mem) :
    Memory.wf (bindTile s t fmt rows cols size idx).mem := by
  simp [bindTile, wf_clearTile, hs]

theorem wf_execTalloc (h : Hdr) (fmt : BitVec 6) (d a : Opd) (s : State) (hs : Memory.wf s.mem) :
    GoesWf (execTalloc h fmt d a s) := by
  unfold execTalloc
  grind -ring -linarith -order [Did.wf, wf_bindTile, wf_finish, wf_tileBound, wf_issue, setReserve_mem, refillReserve_mem]

theorem wf_withHandle (s : State) (t : Thread) (a : Opd) (f : Handle → Did) (hs : Memory.wf s.mem) (hf : ∀ x', (f x').wf) :
    (withHandle s t a f).wf := by
  unfold withHandle
  grind -ring -linarith -order [wf_tileBound, wf_withEntries]

theorem wf_execTfree (h : Hdr) (a : Opd) (s : State) (hs : Memory.wf s.mem) : GoesWf (execTfree h a s) := by
  unfold execTfree
  grind -ring -linarith -order [Did.wf, wf_releaseTile, wf_withHandle, wf_issue, onHandle_mem]

theorem wf_execTpin (h : Hdr) (px : BitVec 3) (a : Opd) (mask : BitVec 8) (s : State) (hs : Memory.wf s.mem) :
    GoesWf (execTpin h px a mask s) := by
  unfold execTpin
  grind -ring -linarith -order [wf_finish, wf_withHandle, wf_issue, onHandle_mem]

theorem wf_execTunpin (h : Hdr) (a : Opd) (mask : BitVec 8) (s : State) (hs : Memory.wf s.mem) :
    GoesWf (execTunpin h a mask s) := by
  unfold execTunpin
  grind -ring -linarith -order [wf_finish, wf_withHandle, wf_issue, onHandle_mem]

theorem wf_execTinfo (h : Hdr) (n : BitVec 2) (d a : Opd) (s : State) (hs : Memory.wf s.mem) : GoesWf (execTinfo h n d a s) := by
  unfold execTinfo
  grind -ring -linarith -order [wf_finish, wf_tileBound, wf_withEntries, wf_issue]

theorem wf_tileAccess (s : State) (t : Thread) (ty : Ty) (iw : IWord) (ea : Word) (counts : Bool) (go : Handle → Nat → Did)
    (hs : Memory.wf s.mem) (hgo : ∀ x' n', (go x' n').wf) :
    (tileAccess s t ty iw ea counts go).wf := by
  unfold tileAccess
  grind -ring -linarith -order [Did.wf, wf_misaligned, wf_tileBound, wf_withEntries, wakeBank_mem]

theorem wf_execTlde (h : Hdr) (x : MemT) (s : State) (hs : Memory.wf s.mem) : GoesWf (execTlde h x s) := by
  unfold execTlde
  grind -ring -linarith -order [Did.wf, wf_tileAccess, wf_issue, enter_mem]

theorem wf_execTste (h : Hdr) (x : MemT) (s : State) (hs : Memory.wf s.mem) : GoesWf (execTste h x s) := by
  unfold execTste
  grind -ring -linarith -order [Did.wf, wf_tileAccess, wf_issue, enter_mem]

theorem wf_performTile (s : State) (r : Req) (idx o : Nat) (hs : Memory.wf s.mem) : (performTile s r idx o).wf := by
  unfold performTile
  grind -ring -linarith -order [Sent.wf, Refill.wf, wf_writeTile, wf_fatalAccess, wf_waitAccess, wf_refillFrame, wf_complete]

/-! Engine commands and token words (Machine/Engine.lean). -/

@[simp] theorem passCopies_mem (s : State) (b : Nat) : (passCopies s b).mem = s.mem := rfl

@[simp] theorem settleTurn_mem (s : State) (b g : Nat) : (settleTurn s b g).mem = s.mem := by
  unfold settleTurn
  grind -ring -linarith -order [putMat_mem]

theorem wf_callToken (s : State) (c : Cmd) (hs : Memory.wf s.mem) : Memory.wf (callToken s c).mem := by
  unfold callToken
  grind -ring -linarith -order [sendBisnp_mem]

theorem wf_addCmd (s : State) (c : Cmd) (hs : Memory.wf s.mem) : Memory.wf (addCmd s c).mem := by
  simp [addCmd, wf_callToken, hs]

theorem wf_enqueueCmd (s : State) (c : Cmd) (hs : Memory.wf s.mem) : Memory.wf (enqueueCmd s c).mem := by
  simp [enqueueCmd, wf_addCmd, hs]

theorem wf_acceptCmd (s : State) (t : Thread) (i : Instr) (f : CmdFields) (tok a b c : Word) (hs : Memory.wf s.mem) :
    Memory.wf (acceptCmd s t i f tok a b c).mem := by
  simp [acceptCmd, wf_enqueueCmd, hs]

theorem wf_engineIssue (s : State) (i : Instr) (h : Hdr) (regs : List (BitVec 8 × Opd × Bool)) (d a b c : Opd)
    (check : State → Thread → Word → Word → Word → Option Did) (hs : Memory.wf s.mem)
    (hcheck : ∀ s t' x' x'' x''', Memory.wf s.mem → ∀ d, check s t' x' x'' x''' = some d → d.wf) :
    GoesWf (engineIssue s i h regs d a b c check) := by
  unfold engineIssue
  grind -ring -linarith -order [Did.wf, wf_acceptCmd, wf_misaligned, wf_withEntries, wf_issue]

theorem wf_savePlace (s : State) (b : Nat) (asid : BitVec 16) (va : Word) (hs : Memory.wf s.mem) :
    (savePlace s b asid va).wf := by
  unfold savePlace
  grind -ring -linarith -order [Trans.wf, SavePlace.wf, wf_translate, sendBisnp_mem]

theorem wf_saveWords {s s1 : State} {b : Nat} {asid : BitVec 16} {va : Word} {l : List Word} (hs : Memory.wf s.mem)
    (h : saveWords s b asid va l = some s1) : Memory.wf s1.mem := by
  have hp := wf_savePlace s b asid va hs
  unfold saveWords at h
  split at h
  · next e =>
    cases h
    exact wf_foldl _ (fun s x hs => wf_writeHome s _ _ _ hs) _ _ (by simpa [e] using hp)
  · next e =>
    cases h
    simpa [e] using hp
  · cases h

theorem wf_saveWords_getD {s s1 : State} {b : Nat} {asid : BitVec 16} {va : Word} {l : List Word} (hs : Memory.wf s.mem)
    (h1 : Memory.wf s1.mem) : Memory.wf ((saveWords s b asid va l).getD s1).mem := by
  cases h : saveWords s b asid va l with
  | none => exact h1
  | some s2 => exact wf_saveWords hs h

theorem wf_enterSlot (s : State) (x : Space) (e : CmdSave) (hs : Memory.wf s.mem) : Memory.wf (enterSlot s x e).mem := by
  unfold enterSlot
  exact wf_enqueueCmd _ _ (wf_saveWords_getD hs hs)

theorem wf_enterSlots (b u n : Nat) (s : State) (hs : Memory.wf s.mem) : Memory.wf (enterSlots b u n s).mem := by
  induction n generalizing s with
  | zero => exact hs
  | succ n ih => unfold enterSlots; grind -ring -linarith -order [wf_savePlace, SavePlace.wf, wf_enterSlot]

theorem wf_releaseEngq (s : State) (b u : Nat) (hs : Memory.wf s.mem) : Memory.wf (releaseEngq s b u).mem := by
  have h := wf_enterSlots b u 4 s hs
  unfold releaseEngq
  dsimp only
  split
  · exact h
  · exact wf_foldl _ (fun s k hs => wf_settle (onThread s k fun t => { t with wait := .run }) k hs) _ _ h

@[simp] theorem noteIdle_mem (s : State) (b g : Nat) : (noteIdle s b g).mem = s.mem := by simp [noteIdle]

@[simp] theorem leaveQueue_mem (s : State) (c : Cmd) : (leaveQueue s c).mem = s.mem := by simp [leaveQueue]

theorem wf_dropCmd (s : State) (c : Cmd) (hs : Memory.wf s.mem) : Memory.wf (dropCmd s c).mem := by
  simp [dropCmd, wf_releaseEngq, hs]

@[simp] theorem packetDone_mem (s : State) (fn qid : Nat) : (packetDone s fn qid).mem = s.mem := rfl

theorem wf_engAt (s : State) (c : Cmd) (k : Want) (va : Word) (hs : Memory.wf s.mem) : (engAt s c k va).wf := by
  unfold engAt
  grind -ring -linarith -order [Trans.wf, Eng.wf, wf_translate, noteFault_mem, putCmd_mem]

theorem wf_tokenAt (s : State) (c : Cmd) (hs : Memory.wf s.mem) : (tokenAt s c).wf := by
  unfold tokenAt
  grind -ring -linarith -order [Eng.wf, wf_engAt, sendBisnp_mem]

theorem wf_fillWord (s : State) (a : Nat) (v : Word) (hs : Memory.wf s.mem) : Memory.wf (fillWord s a v).mem :=
  wf_serveWord _ _ (wf_setFull _ _ (wf_writeDev _ _ _ _ (wf_obtain _ _ _ _ hs)))

@[simp] theorem releaseMat_mem (s : State) (c : Cmd) : (releaseMat s c).mem = s.mem := by simp [releaseMat]

@[simp] theorem abandon_mem (s : State) (c : Cmd) : (abandon s c).mem = s.mem := by
  unfold abandon
  split <;> simp

@[simp] theorem setTag_mem (s : State) (c : Cmd) (b : Bool) (t : Option Tag) : (setTag s c b t).mem = s.mem := rfl

@[simp] theorem spoilBank_mem (s : State) (c : Cmd) : (spoilBank s c).mem = s.mem := by simp [spoilBank]

theorem wf_retireCmd (s : State) (c : Cmd) (hs : Memory.wf s.mem) : Memory.wf (retireCmd s c).mem := by
  unfold retireCmd
  split <;> simp [wf_dropCmd, hs]

@[simp] theorem reportToken_mem (s : State) (c : Cmd) (status : BitVec 5) : (reportToken s c status).mem = s.mem := by
  unfold reportToken
  dsimp only
  split <;> simp

theorem wf_tokenFault (s0 : State) (c : Cmd) (status : BitVec 5) (hs0 : Memory.wf s0.mem) :
    Memory.wf (tokenFault s0 c status).mem := by
  unfold tokenFault
  grind -ring -linarith -order [wf_settle, wf_retireCmd, writeRecord_mem, takeSeq_mem, reportToken_mem, dueFreeze_mem,
    abandon_mem, spoilBank_mem]

theorem wf_fillToken (s : State) (c : Cmd) (stat : BitVec 16) (det : BitVec 48) (publish : State → Option State)
    (hs : Memory.wf s.mem) (hp : ∀ s s1, Memory.wf s.mem → publish s = some s1 → Memory.wf s1.mem) :
    GoesWf (fillToken s c stat det publish) := by
  unfold fillToken
  grind -ring -linarith -order [GoesWf, wf_retireCmd, abandon_mem, spoilBank_mem, wf_tokenAt, Eng.wf, wf_tokenFault, wf_homeTurn,
    Acc.wf, keepLine_mem, wf_fillWord]

/-! Engine memory (Machine/EngineMem.lean). -/

@[simp] theorem askOnce_mem (s : State) (id : Nat) (o : Out) : (askOnce s id o).mem = s.mem := by simp [askOnce]

theorem wf_takeAnswer (s : State) (id : Nat) (s1 : State) (hs : Memory.wf s.mem) (e : takeAnswer s id = some s1) :
    Memory.wf s1.mem := by
  unfold takeAnswer at e
  grind -ring -linarith -order

theorem wf_applyE (s : State) (p : Phys) (n : Nat) (o : EOp) (hs : Memory.wf s.mem) : Memory.wf (applyE s p n o).1.mem := by
  unfold applyE
  grind -ring -linarith -order [wf_physWrite]

theorem wf_pcieE (s : State) (p : Phys) (n : Nat) (o : EOp) (a : Nat) (hs : Memory.wf s.mem) : (pcieE s p n o a).wf := by
  unfold pcieE
  grind -ring -linarith -order [EAcc.wf, wf_giveUp, wf_applyE, wf_takeAnswer, askOnce_mem]

theorem wf_hostCachedE (s : State) (b : Nat) (p : Phys) (n : Nat) (o : EOp) (a : Nat) (hs : Memory.wf s.mem) :
    (hostCachedE s b p n o a).wf := by
  unfold hostCachedE
  grind -ring -linarith -order [EAcc.wf, wf_pcieE, wf_obtain, wf_applyE, llcDrop_mem, askOnce_mem]

theorem wf_hostUncachedE (s : State) (p : Phys) (n : Nat) (o : EOp) (a : Nat) (hs : Memory.wf s.mem) :
    (hostUncachedE s p n o a).wf := by
  unfold hostUncachedE
  grind -ring -linarith -order [EAcc.wf, wf_pcieE, wf_applyE, wf_takeAnswer, askOnce_mem]

theorem wf_engAccess (s : State) (b : Nat) (who : Option Asker) (p : Phys) (n : Nat) (o : EOp) (hs : Memory.wf s.mem) :
    (engAccess s b who p n o).wf := by
  unfold engAccess
  grind -ring -linarith -order [EAcc.wf, wf_hostUncachedE, wf_hostCachedE, wf_obtain, wf_applyE, emit_mem, sendBisnp_mem,
    leaveLine_mem, queueUp_mem]

theorem wf_vAccess (s : State) (w : Who) (va : Word) (n : Nat) (o : EOp) (hs : Memory.wf s.mem) : (vAccess s w va n o).wf := by
  unfold vAccess
  grind -ring -linarith -order [Trans.wf, EAcc.wf, VRes.wf, wf_engAccess, wf_translate]

/-! Records, descriptors and the walk of a volume (Machine/Records.lean). -/

theorem wf_bind {α β : Type} {r : Res α} {f : State → α → Res β} (hr : r.wf) (hf : ∀ s x, Memory.wf s.mem → (f s x).wf) :
    (r.bind f).wf := by
  cases r with
  | ok s x => exact hf s x hr
  | stop r => exact hr

theorem wf_ofVRes (r : VRes) (hr : r.wf) : (ofVRes r).wf := by
  cases r with
  | ok s v => exact hr
  | wait s va k => trivial
  | blocked s => exact hr
  | bad va st => trivial
  | notHbm a => trivial

theorem wf_readWord (s : State) (w : Who) (va : Word) (hs : Memory.wf s.mem) : (readWord s w va).wf := by
  unfold readWord
  grind -ring -linarith -order [Res.wf, wf_vAccess, wf_ofVRes, wf_bind]

theorem wf_writeWord (s : State) (w : Who) (va v : Word) (hs : Memory.wf s.mem) : (writeWord s w va v).wf := by
  unfold writeWord
  grind -ring -linarith -order [Res.wf, wf_vAccess, wf_ofVRes, wf_bind]

theorem wf_atomically {α : Type} (s : State) (r : Res α) (hs : Memory.wf s.mem) (hr : r.wf) : (atomically s r).wf := by
  unfold atomically
  split
  · exact hs
  · exact hr

theorem wf_fetchBy (s : State) (w : Who) (va : Word) (o : EOp) (hs : Memory.wf s.mem) : (fetchBy s w va o).wf := by
  unfold fetchBy
  grind -ring -linarith -order [Trans.wf, EAcc.wf, Res.wf, Stop.wf, wf_engAccess, wf_translate]

theorem wf_fetchRecord (s : State) (w : Who) (va : Word) (hs : Memory.wf s.mem) : (fetchRecord s w va).wf := by
  unfold fetchRecord
  grind -ring -linarith -order [wf_fetchBy]

@[simp] theorem cacheRecord_mem (s : State) (x : RecEnt) : (cacheRecord s x).mem = s.mem := rfl

theorem wf_readRecord (s : State) (w : Who) (va : Word) (hs : Memory.wf s.mem) : (readRecord s w va).wf := by
  unfold readRecord
  grind -ring -linarith -order [Res.wf, wf_fetchRecord, wf_bind, cacheRecord_mem]

theorem wf_readQuarry (s : State) (w : Who) (va : Word) (hs : Memory.wf s.mem) : (readQuarry s w va).wf := by
  unfold readQuarry
  grind -ring -linarith -order [Res.wf, Stop.wf, wf_fetchBy, wf_bind]

theorem wf_writeQuarry (s : State) (w : Who) (va : Word) (q : Quarry) (hs : Memory.wf s.mem) : (writeQuarry s w va q).wf := by
  unfold writeQuarry
  grind -ring -linarith -order [Res.wf, wf_bind, wf_vAccess, wf_ofVRes]

theorem wf_takePieces (s : State) (w : Who) (q : Quarry) (n : Nat) (hs : Memory.wf s.mem) : (takePieces s w q n).wf := by
  induction n generalizing s q with
  | zero => exact hs
  | succ n ih =>
    unfold takePieces
    split
    · exact wf_bind (wf_readWord _ _ _ hs) fun s _ hs => wf_bind (ih s _ hs) fun _ _ h => h
    · exact wf_bind (ih s _ hs) fun _ _ h => h

theorem wf_popPieces (s : State) (w : Who) (va : Word) (q : Quarry) (k : Nat) (hs : Memory.wf s.mem) :
    (popPieces s w va q k).wf := by
  unfold popPieces
  grind -ring -linarith -order [Res.wf, wf_writeQuarry, wf_takePieces, wf_bind]

theorem wf_hbmBacked (s : State) (w : Who) (va : Word) (hs : Memory.wf s.mem) : (hbmBacked s w va).wf := by
  unfold hbmBacked
  grind -ring -linarith -order [Trans.wf, Res.wf, Stop.wf, wf_translate]

theorem wf_pushPiece (s : State) (w : Who) (va : Word) (q : Quarry) (p : Word) (hs : Memory.wf s.mem) :
    (pushPiece s w va q p).wf := by
  unfold pushPiece
  grind -ring -linarith -order [Res.wf, wf_writeQuarry, wf_writeWord, wf_hbmBacked, wf_bind]

theorem wf_walkTree (s : State) (w : Who) (v : VolDesc) (t n : Nat) (node : Word) (hs : Memory.wf s.mem) :
    (walkTree s w v t n node).wf := by
  induction n generalizing s node with
  | zero => exact hs
  | succ n ih =>
    unfold walkTree
    refine wf_bind (wf_readWord _ _ _ hs) fun s1 p hs1 => ?_
    split
    · exact hs1
    · exact ih s1 p hs1

@[simp] theorem clbAdd_mem (s : State) (x : ClbEnt) : (clbAdd s x).mem = s.mem := rfl

theorem wf_findLeaf (s : State) (w : Who) (v : VolDesc) (recVa t : Nat) (hs : Memory.wf s.mem) : (findLeaf s w v recVa t).wf := by
  unfold findLeaf
  grind -ring -linarith -order [Res.wf, wf_walkTree, wf_bind, clbAdd_mem]

theorem wf_readVol (s : State) (w : Who) (va : Word) (hs : Memory.wf s.mem) : (readVol s w va).wf := by
  unfold readVol
  grind -ring -linarith -order [Res.wf, Stop.wf, wf_readQuarry, wf_readRecord, wf_bind]

theorem wf_findCoord (s : State) (w : Who) (recVa : Word) (v : VolDesc) (c : Vec) (hs : Memory.wf s.mem) :
    (findCoord s w recVa v c).wf := by
  unfold findCoord
  grind -ring -linarith -order [Res.wf, wf_findLeaf, wf_bind]

theorem wf_initWords (s : State) (w : Who) (v : Word) (full : Bool) (n : Nat) (va : Word) (hs : Memory.wf s.mem) :
    (initWords s w v full n va).wf := by
  induction n generalizing s va with
  | zero => exact hs
  | succ n ih =>
    unfold initWords
    refine wf_bind (wf_writeWord _ _ _ _ hs) fun s1 _ hs1 => ih _ _ ?_
    split
    · split
      · next e => exact wf_setFull _ _ (wf_of_translate_ok hs1 e)
      · exact hs1
    · exact hs1

theorem wf_initLeaf (s : State) (w : Who) (v : VolDesc) (va : Word) (n : Nat) (hs : Memory.wf s.mem) : (initLeaf s w v va n).wf := by
  induction n with
  | zero => exact hs
  | succ n ih =>
    unfold initLeaf
    exact wf_bind ih fun s1 _ hs1 => wf_initWords _ _ _ _ _ _ hs1

theorem wf_fillFull (s : State) (w : Who) (va : Word) (n : Nat) (hs : Memory.wf s.mem) : Memory.wf (fillFull s w va n).mem := by
  induction n with
  | zero => exact hs
  | succ n ih =>
    unfold fillFull
    dsimp only
    split
    · next e => exact wf_setFull _ _ (wf_of_translate_ok ih e)
    · exact ih

theorem wf_initPiece (s : State) (w : Who) (v : VolDesc) (q : Quarry) (l : Nat) (p : Word) (hs : Memory.wf s.mem) :
    (initPiece s w v q l p).wf := by
  unfold initPiece
  grind -ring -linarith -order [Res.wf, wf_initWords, wf_fillFull, wf_initLeaf, wf_bind]

theorem wf_pushAll (s : State) (w : Who) (va : Word) (l : List Word) (hs : Memory.wf s.mem) : (pushAll s w va l).wf := by
  induction l generalizing s with
  | nil => exact hs
  | cons p l ih =>
    unfold pushAll
    refine wf_bind (wf_readQuarry _ _ _ hs) fun s1 q hs1 => ?_
    cases q with
    | none => trivial
    | some q =>
      refine wf_bind (wf_pushPiece _ _ _ _ _ hs1) fun s2 ok hs2 => ?_
      split
      · exact ih s2 hs2
      · trivial

theorem wf_linkPiece (s : State) (w : Who) (v : VolDesc) (q : Quarry) (x : VolWalk) (p : Word) (ps : List Word)
    (hs : Memory.wf s.mem) :
    (linkPiece s w v q x p ps).wf := by
  unfold linkPiece
  grind -ring -linarith -order [Res.wf, wf_pushAll, wf_vAccess, wf_ofVRes, wf_initPiece, wf_bind, dropStale_mem]

/-! Volumes (Machine/Volume.lean). -/

theorem wf_execCld (h : Hdr) (x : Vol) (s : State) (hs : Memory.wf s.mem) : GoesWf (execCld h x s) := by
  unfold execCld
  grind -ring -linarith -order [Did.wf, wf_aligned, wf_limited, wf_issue, enter_mem]

theorem wf_execCprb (h : Hdr) (d base : Opd) (disp : BitVec 32) (b : Opd) (s : State) (hs : Memory.wf s.mem) :
    GoesWf (execCprb h d base disp b s) := by
  unfold execCprb
  grind -ring -linarith -order [Did.wf, wf_aligned, wf_limited, wf_issue, enter_mem]

theorem wf_execClbinv (h : Hdr) (scp : Scope) (d base : Opd) (disp : BitVec 32) (b : Opd) (s : State) (hs : Memory.wf s.mem) :
    GoesWf (execClbinv h scp d base disp b s) := by
  unfold execClbinv
  grind -ring -linarith -order [Did.wf, wf_aligned, wf_issue, enter_mem]

theorem wf_execQpop (h : Hdr) (d base : Opd) (disp : BitVec 32) (s : State) (hs : Memory.wf s.mem) :
    GoesWf (execQpop h d base disp s) := by
  unfold execQpop
  grind -ring -linarith -order [Did.wf, wf_aligned, wf_limited, wf_issue, enter_mem]

theorem wf_execQpsh (h : Hdr) (d base : Opd) (disp : BitVec 32) (s : State) (hs : Memory.wf s.mem) :
    GoesWf (execQpsh h d base disp s) := by
  unfold execQpsh
  grind -ring -linarith -order [Did.wf, wf_aligned, wf_issue, enter_mem]

theorem wf_settleWork (s : State) (r : Req) (x : Res Vec) (fin : State → Vec → Sent) (hs : Memory.wf s.mem) (hx : x.wf)
    (hfin : ∀ s x', Memory.wf s.mem → (fin s x').wf) :
    (settleWork s r x fin).wf := by
  unfold settleWork
  grind -ring -linarith -order [Sent.wf, Res.wf, Stop.wf, wf_fatalAccess, wf_waitAccess]

theorem wf_volFor (s : State) (w : Who) (va : Word) (n : Nat) (hs : Memory.wf s.mem) : (volFor s w va n).wf := by
  unfold volFor
  grind -ring -linarith -order [Res.wf, Stop.wf, wf_readVol, wf_bind]

theorem wf_performCld (s : State) (r : Req) (c : Vec) (hs : Memory.wf s.mem) : (performCld s r c).wf := by
  unfold performCld
  grind -ring -linarith -order [Sent.wf, Res.wf, wf_settleWork, wf_complete, wf_attempt, wf_findCoord, wf_volFor, wf_bind,
    putReq_mem]

theorem wf_performCprb (s : State) (r : Req) (c : Vec) (hs : Memory.wf s.mem) : (performCprb s r c).wf := by
  unfold performCprb
  grind -ring -linarith -order [Sent.wf, Res.wf, wf_complete, wf_findCoord, wf_readVol, wf_bind, wf_settleWork]

theorem wf_performClbinv (s : State) (r : Req) (lo hi : Vec) (hs : Memory.wf s.mem) : (performClbinv s r lo hi).wf := by
  unfold performClbinv
  grind -ring -linarith -order [Sent.wf, Res.wf, wf_settleWork, wf_complete, wf_readVol]

theorem wf_canWrite (s : State) (w : Who) (va : Word) (hs : Memory.wf s.mem) : (canWrite s w va).wf := by
  unfold canWrite
  grind -ring -linarith -order [Trans.wf, Res.wf, Stop.wf, wf_translate]

theorem wf_performQpop (s : State) (r : Req) (hs : Memory.wf s.mem) : (performQpop s r).wf := by
  unfold performQpop
  grind -ring -linarith -order [Sent.wf, Res.wf, Stop.wf, wf_complete, wf_popPieces, wf_readQuarry, wf_canWrite, wf_bind,
    wf_atomically, wf_settleWork]

theorem wf_performQpsh (s : State) (r : Req) (hs : Memory.wf s.mem) : (performQpsh s r).wf := by
  unfold performQpsh
  grind -ring -linarith -order [Sent.wf, Res.wf, Stop.wf, wf_complete, wf_pushPiece, wf_readQuarry, wf_canWrite, wf_bind,
    wf_atomically, wf_settleWork]

theorem wf_walkStep (s : State) (w : Who) (x : VolWalk) (va : Word) (n : Nat) (c : Vec) (hs : Memory.wf s.mem) :
    (walkStep s w x va n c).wf := by
  unfold walkStep
  split <;> grind -ring -linarith -order [Res.wf, Stop.wf, wf_popPieces, wf_findCoord, wf_linkPiece, wf_volFor, wf_bind,
    clbAdd_mem]

@[simp] theorem setWalkFault_mem (s : State) (k : Key) (x : Option (Nat × BitVec 5)) : (setWalkFault s k x).mem = s.mem := rfl

@[simp] theorem setWalk_mem (s : State) (k : Key) (x : Option VolWalk) : (setWalk s k x).mem = s.mem := rfl

@[simp] theorem endWalk_mem (s : State) (k : Key) : (endWalk s k).mem = s.mem := rfl

theorem wf_retireFaulted (s : State) (t : Thread) (r : Req) (pends counts : Bool) (va : Word) (st : BitVec 5)
    (hs : Memory.wf s.mem) :
    (retireFaulted s t r pends counts va st).wf := by
  simp [retireFaulted, wf_fatalAccess, hs]

theorem wf_walkLater (s : State) (t : Thread) (x : VolWalk) (hs : Memory.wf s.mem) : (walkLater s t x).wf := by
  unfold walkLater
  split <;> simp [hs]

theorem wf_volStore (s : State) (t : Thread) (r : Req) (pends counts : Bool) (c : Vec) (hs : Memory.wf s.mem) :
    (volStore s t r pends counts c).wf := by
  unfold volStore
  grind -ring -linarith -order [Did.wf, Res.wf, Stop.wf, wf_retireFaulted, wf_submit, wf_walkStep, wf_atomically, wf_walkLater,
    noteFault_mem, setWalkFault_mem, endWalk_mem, acquireL1_mem]

theorem wf_execCst (h : Hdr) (x : Vol) (s : State) (hs : Memory.wf s.mem) : GoesWf (execCst h x s) := by
  unfold execCst
  grind -ring -linarith -order [wf_volStore, wf_aligned, wf_issue]

theorem wf_execCamo (h : Hdr) (x : Camo) (s : State) (hs : Memory.wf s.mem) : GoesWf (execCamo h x s) := by
  unfold execCamo
  grind -ring -linarith -order [wf_volStore, wf_aligned, wf_limited, wf_issue]

@[simp] theorem discardRecords_mem (s : State) (b : Nat) (scp : Scope) (one : Option (BitVec 16 × Nat)) :
    (discardRecords s b scp one).mem = s.mem :=
  rfl

theorem wf_execRfence (h : Hdr) (scp : Scope) (base : Opd) (disp : BitVec 32) (s : State) (hs : Memory.wf s.mem) :
    GoesWf (execRfence h scp base disp s) := by
  unfold execRfence
  grind -ring -linarith -order [Did.wf, wf_issue, discardRecords_mem]

/-! Streams (Machine/Streams.lean). -/

theorem wf_checkList {isSet : Bool} {field : BitVec 8} {w : Nat} {v : Vec} {d : Did} (h : checkList isSet field w v = some d) : d.wf := by
  unfold checkList at h
  grind -ring -linarith -order [misaligned, Did.wf]

theorem wf_checkLists {k : StrmKind} {ty : Ty} {a b c : Vec} {d : Did} (h : checkLists k ty a b c = some d) : d.wf := by
  unfold checkLists at h
  grind -ring -linarith -order [wf_checkList]

theorem wf_strmWith (s : State) (i : Instr) (h : Hdr) (k : StrmKind) (x : Strm) (hs : Memory.wf s.mem) :
    GoesWf (strmWith s i h k x) := by
  unfold strmWith
  dsimp only
  refine wf_issue _ _ _ _ _ _ hs fun t => wf_limited _ _ _ hs ?_
  split
  · next e => exact wf_checkLists e
  · grind -ring -linarith -order [Did.wf, enter_mem]

theorem wf_strmRun (s : State) (r : Req) (left n : Nat) (hs : Memory.wf s.mem) : (strmRun s r left n).wf := by
  induction n generalizing s r left with
  | zero => exact hs
  | succ n ih =>
    unfold strmRun
    dsimp only
    split
    · split <;> grind -ring -linarith -order [Sent.wf, wf_vAccess, VRes.wf, putReq_mem, noteFault_mem, wf_fatalAccess,
      wf_complete]
    · exact hs

@[simp] theorem strmPass_mem (s : State) (l : List Req) (id : Nat) : (strmPass s l id).mem = s.mem := rfl

theorem wf_execStreamExecute (r n : Nat) (s : State) (hs : Memory.wf s.mem) : GoesWf (execStreamExecute r n s) := by
  unfold execStreamExecute
  grind -ring -linarith -order [GoesWf, wf_strmRun, wf_sentOut, wf_fatalAccess, strmPass_mem]

/-! Threads and system (Machine/System.lean). -/

theorem wf_execSpawn (h : Hdr) (x : Spawn) (s : State) (hs : Memory.wf s.mem) : GoesWf (execSpawn h x s) := by
  unfold execSpawn
  grind -ring -linarith -order [Did.wf, wf_limited, wf_issue, enter_mem]

theorem wf_exitNow (s : State) (t : Thread) (hs : Memory.wf s.mem) : Memory.wf (exitNow s t).mem := by
  simp [exitNow, wf_retireThread, hs]

theorem wf_endWaiting (s : State) (t : Thread) (hs : Memory.wf s.mem) : Memory.wf (endWaiting s t).mem := by
  simp [endWaiting, wf_endHolds, hs]

theorem wf_execExit (h : Hdr) (s : State) (hs : Memory.wf s.mem) : GoesWf (execExit h s) := by
  unfold execExit
  grind -ring -linarith -order [Did.wf, wf_endWaiting, wf_exitNow, wf_issue, rotate_mem]

theorem wf_execYield (h : Hdr) (s : State) (hs : Memory.wf s.mem) : GoesWf (execYield h s) := wf_issue _ _ _ _ _ _ hs fun _ => hs

theorem wf_execBar (h : Hdr) (d a : Opd) (idx : BitVec 32) (s : State) (hs : Memory.wf s.mem) : GoesWf (execBar h d a idx s) := by
  unfold execBar
  grind -ring -linarith -order [Did.wf, wf_limited, wf_submit, wf_aligned, wf_issue]

theorem wf_execWhereIu (h : Hdr) (d : Opd) (s : State) (hs : Memory.wf s.mem) : GoesWf (execWhereIu h d s) := by
  unfold execWhereIu
  grind -ring -linarith -order [Did.wf, wf_limited, wf_issue, enter_mem]

theorem wf_moveNow (s : State) (t : Thread) (h : Hdr) (rad : BitVec 6) (sbench : BitVec 10) (hs : Memory.wf s.mem) :
    Memory.wf (moveNow s t h rad sbench).mem := by
  unfold moveNow
  grind -ring -linarith -order [wf_moveTo, wf_retire, wf_endHolds, dropStale_mem]

theorem wf_execMove (h : Hdr) (rad : BitVec 6) (sbench : BitVec 10) (s : State) (hs : Memory.wf s.mem) :
    GoesWf (execMove h rad sbench s) := by
  unfold execMove
  grind -ring -linarith -order [Did.wf, wf_endWaiting, wf_moveNow, wf_issue]

theorem wf_execSys (h : Hdr) (a : Opd) (code : BitVec 24) (s : State) (hs : Memory.wf s.mem) : GoesWf (execSys h a code s) := by
  unfold execSys
  grind -ring -linarith -order [Did.wf, wf_issue]

theorem wf_execTrap (h : Hdr) (a : Opd) (code : BitVec 24) (s : State) (hs : Memory.wf s.mem) : GoesWf (execTrap h a code s) := by
  unfold execTrap
  grind -ring -linarith -order [Did.wf, wf_issue]

theorem wf_brkHalt (s : State) (k : Key) (code : BitVec 24) (hs : Memory.wf s.mem) : Memory.wf (brkHalt s k code).mem := by
  simp [brkHalt, wf_triggerBy, wf_endHolds, hs]

theorem wf_execBrk (h : Hdr) (code : BitVec 24) (s : State) (hs : Memory.wf s.mem) : GoesWf (execBrk h code s) := by
  unfold execBrk
  grind -ring -linarith -order [Did.wf, wf_brkHalt, wf_issue, markIssue_mem]

theorem wf_eretNow (s : State) (t : Thread) (h : Hdr) (hs : Memory.wf s.mem) : Memory.wf (eretNow s t h).mem := by
  unfold eretNow
  grind -ring -linarith -order [wf_endHolds, wf_stepEnd, wf_settle, setThread_mem, markIssue_mem, count_mem]

theorem wf_execEret (h : Hdr) (s : State) (hs : Memory.wf s.mem) : GoesWf (execEret h s) := by
  unfold execEret
  grind -ring -linarith -order [Did.wf, wf_eretNow, wf_issue]

theorem wf_execCsrr (h : Hdr) (d : Opd) (csr : BitVec 12) (s : State) (hs : Memory.wf s.mem) : GoesWf (execCsrr h d csr s) :=
  wf_issue _ _ _ _ _ _ hs fun _ => wf_finish _ _ _ hs

theorem wf_putRm (s : State) (t : Thread) (v : BitVec 3) (f : Ctx → Ctx) (hs : Memory.wf s.mem) : (putRm s t v f).wf := by
  unfold putRm
  grind -ring -linarith -order [Did.wf, wf_finish]

theorem wf_execCsrw (h : Hdr) (a : Opd) (csr : BitVec 12) (s : State) (hs : Memory.wf s.mem) : GoesWf (execCsrw h a csr s) := by
  unfold execCsrw
  grind -ring -linarith -order [wf_putRm, wf_finish, wf_issue, onSpace_mem]

theorem wf_execCtxr (h : Hdr) (d a : Opd) (word : BitVec 5) (s : State) (hs : Memory.wf s.mem) :
    GoesWf (execCtxr h d a word s) := by
  unfold execCtxr
  grind -ring -linarith -order [Did.wf, wf_limited, wf_issue, enter_mem]

theorem wf_execCtxw (h : Hdr) (a b : Opd) (word : BitVec 5) (s : State) (hs : Memory.wf s.mem) :
    GoesWf (execCtxw h a b word s) := by
  unfold execCtxw
  grind -ring -linarith -order [Did.wf, wf_issue, enter_mem]

/-! Issue (Machine/Issue.lean). -/

@[simp] theorem openCycle_mem (s : State) (b u : Nat) : (openCycle s b u).mem = s.mem := rfl

@[simp] theorem closeCycle_mem (s : State) (b u : Nat) : (closeCycle s b u).mem = s.mem := rfl

@[simp] theorem trySlot_mem (s : State) (t : Thread) (u : Nat) : (trySlot s t u).mem = s.mem := rfl

@[simp] theorem pickLine_mem (b u n : Nat) (s : State) : (pickLine b u n s).1.mem = s.mem := by
  induction n generalizing s with
  | zero => rfl
  | succ n ih =>
    unfold pickLine
    split
    · rfl
    · split
      · simp [ih]
      · rfl

theorem wf_fetchMiss (s : State) (t : Thread) (u : Nat) (p : Phys) (ea : Word) (k : State → W32 → Fetched)
    (hs : Memory.wf s.mem) (hk : ∀ s w', Memory.wf s.mem → (k s w').wf) :
    (fetchMiss s t u p ea k).wf := by
  unfold fetchMiss
  grind -ring -linarith -order [EAcc.wf, Fetched.wf, wf_engAccess, keepLine_mem, iFill_mem, count_mem]

theorem wf_wordAt (s : State) (t : Thread) (u : Nat) (p : Phys) (ea : Word) (k : State → W32 → Fetched) (hs : Memory.wf s.mem)
    (hk : ∀ s w', Memory.wf s.mem → (k s w').wf) :
    (wordAt s t u p ea k).wf := by
  unfold wordAt
  grind -ring -linarith -order [wf_fetchMiss]

theorem wf_fetchWord (s : State) (t : Thread) (u : Nat) (va : VAddr) (k : State → W32 → Fetched) (hs : Memory.wf s.mem)
    (hk : ∀ s w', Memory.wf s.mem → (k s w').wf) :
    (fetchWord s t u va k).wf := by
  unfold fetchWord
  grind -ring -linarith -order [Trans.wf, Fetched.wf, wf_wordAt, wf_translate]

theorem wf_fetchInstr (s : State) (t : Thread) (u : Nat) (hs : Memory.wf s.mem) : (fetchInstr s t u).wf := by
  unfold fetchInstr
  grind -ring -linarith -order [Fetched.wf, wf_fetchWord]

theorem wf_fetchFault (s : State) (t : Thread) (u : Nat) (va : Word) (hs : Memory.wf s.mem) :
    Memory.wf (fetchFault s t u va).mem := by
  simp [fetchFault, wf_settle, hs]

theorem wf_firstIssue (s : State) (t : Thread) (u : Nat) (s1 : State) (hs : Memory.wf s.mem) (e : firstIssue s t u = some s1) :
    Memory.wf s1.mem := by
  unfold firstIssue at e
  grind -ring -linarith -order [onThread_mem, acquireL1_mem]

@[simp] theorem forgetWalk_mem (s : State) (k : Key) (i : Instr) : (forgetWalk s k i).mem = s.mem := by
  unfold forgetWalk
  split <;> simp

theorem wf_fetchFor (s : State) (t : Thread) (u : Nat) (hs : Memory.wf s.mem) : GoesWf (fetchFor s t u) := by
  unfold fetchFor
  grind -ring -linarith -order [GoesWf, Fetched.wf, wf_fetchFault, wf_fetchInstr, wf_raise, forgetWalk_mem, markIssue_mem]

theorem wf_execInstructionFetch (b u : Nat) (s0 : State) (hs0 : Memory.wf s0.mem) : GoesWf (execInstructionFetch b u s0) := by
  unfold execInstructionFetch
  grind -ring -linarith -order [GoesWf, wf_fetchFor, wf_firstIssue, trySlot_mem, closeCycle_mem, pickLine_mem, openCycle_mem]

theorem wf_endFence (s : State) (t : Thread) (o : Ord) (scp : Scope) (hs : Memory.wf s.mem) :
    Memory.wf (endFence s t o scp).mem := by
  simp [endFence, wf_retire, wf_settle, hs]

theorem wf_reissue (s : State) (k : Key) (hs : Memory.wf s.mem) : Memory.wf (reissue s k).mem := by
  simp [reissue, wf_settle, hs]

theorem wf_quietly (s s1 : State) (b u : Nat) (hs1 : Memory.wf s1.mem) : Memory.wf (quietly s s1 b u).mem := by
  simp [quietly, hs1]

theorem GoesWf.ite {c : Prop} [Decidable c] {a b : Host.Outcome State Fault Refusal} (ha : GoesWf a) (hb : GoesWf b) :
    GoesWf (if c then a else b) := by
  split
  · exact ha
  · exact hb
theorem wf_execInstructionReissue (k : Key) (s : State) (hs : Memory.wf s.mem) : GoesWf (execInstructionReissue k s) := by
  unfold execInstructionReissue
  have again : ∀ c : Bool, GoesWf (.next (if c then reissue s k else s)) := fun c => by
    cases c
    · exact hs
    · exact wf_reissue s k hs
  have done : ∀ (s1 : State) b u, Memory.wf s1.mem → GoesWf (.next (quietly s s1 b u)) := fun s1 b u h => wf_quietly s s1 b u h
  cases findThread s k with
  | none => exact hs
  | some t =>
    dsimp only
    generalize t.wait = w
    cases w with
    | fence o scp => exact GoesWf.ite (done _ _ _ (wf_endFence _ _ _ _ hs)) hs
    | exit => exact GoesWf.ite hs (GoesWf.ite (done _ _ _ (wf_exitNow _ _ hs)) (wf_endWaiting _ _ hs))
    | move rad sb => exact GoesWf.ite hs (GoesWf.ite (done _ _ _ (wf_moveNow _ _ _ _ _ hs)) (wf_endWaiting _ _ hs))
    | eret => exact GoesWf.ite (done _ _ _ (wf_eretNow _ _ _ hs)) hs
    | limit => exact again (mayResume s t && decide (t.ctx.outst < 15))
    | engq => exact again (mayResume s t && !queueFull s t.bench (iuAt t))
    | tile idx j l => exact again (mayResume s t && frameReady s t.key.asid idx j)
    | _ => exact hs

theorem wf_execTrapEntry (k : Key) (s : State) (hs : Memory.wf s.mem) : GoesWf (execTrapEntry k s) := by
  unfold execTrapEntry
  grind -ring -linarith -order [GoesWf, wf_finishTrap]

/-! Requests performed and results delivered (Machine/Results.lean). -/

theorem wf_withPlace (s : State) (r : Req) (f : State → Req → Phys → State) (hs : Memory.wf s.mem)
    (hf : ∀ s r' p', Memory.wf s.mem → Memory.wf (f s r' p').mem) :
    (withPlace s r f).wf := by
  unfold withPlace
  grind -ring -linarith -order [Sent.wf, wf_resolve]

theorem wf_performCtxr (s : State) (r : Req) (ctx : Word) (word : BitVec 5) (hs : Memory.wf s.mem) :
    Memory.wf (performCtxr s r ctx word).mem := by
  unfold performCtxr
  split <;> simp [wf_complete, hs]

theorem wf_performCtxw (s : State) (r : Req) (ctx : Word) (word : BitVec 5) (hs : Memory.wf s.mem) :
    Memory.wf (performCtxw s r ctx word).mem := by
  unfold performCtxw
  split <;> simp [wf_deliver, wf_complete, hs]

theorem wf_performReq (s : State) (r : Req) (hs : Memory.wf s.mem) : (performReq s r).wf := by
  unfold performReq
  grind -ring -linarith -order [Sent.wf, wf_performCtxw, wf_performCtxr, wf_spawnChild, wf_performQpsh, wf_performQpop,
    wf_performClbinv, wf_performCprb, wf_performCld, wf_performTile, wf_releaseHold, wf_complete, wf_attempt]

theorem wf_execDeliverResult (r : Nat) (s : State) (hs : Memory.wf s.mem) : GoesWf (execDeliverResult r s) := by
  unfold execDeliverResult
  grind -ring -linarith -order [GoesWf, wf_performReq, wf_sentOut]

theorem wf_execStorePerform (r : Nat) (s : State) (hs : Memory.wf s.mem) : GoesWf (execStorePerform r s) := by
  unfold execStorePerform
  grind -ring -linarith -order [GoesWf, wf_performReq, wf_sentOut]

theorem wf_grantAt (s : State) (r : Req) (p : Phys) (hs : Memory.wf s.mem) : Memory.wf (grantAt s r p).mem := by
  unfold grantAt
  grind -ring -linarith -order [Acc.wf, wf_fatalAccess, wf_complete, wf_access, wf_attemptAt, grantHold_mem, putReq_mem]

theorem wf_execHoldGrant (r : Nat) (s : State) (hs : Memory.wf s.mem) : GoesWf (execHoldGrant r s) := by
  unfold execHoldGrant
  grind -ring -linarith -order [GoesWf, wf_grantAt, wf_withPlace, wf_sentOut]

theorem wf_expire (s : State) (b u slot : Nat) (hs : Memory.wf s.mem) : Memory.wf (expire s b u slot).mem := by
  unfold expire
  split <;> simp [wf_endHoldAt, hs]

theorem wf_execSyncAccessArrival (r : Nat) (s : State) (hs : Memory.wf s.mem) : GoesWf (execSyncAccessArrival r s) := by
  unfold execSyncAccessArrival
  grind -ring -linarith -order [GoesWf, wf_goHome, wf_withPlace, wf_sentOut]

theorem wf_execBarStep (r : Nat) (s : State) (hs : Memory.wf s.mem) : GoesWf (execBarStep r s) := by
  unfold execBarStep
  grind -ring -linarith -order [GoesWf, wf_goHome, wf_withPlace, wf_sentOut]

theorem wf_execSyncRetryResend (r : Nat) (s : State) (hs : Memory.wf s.mem) : GoesWf (execSyncRetryResend r s) := by
  unfold execSyncRetryResend
  grind -ring -linarith -order [GoesWf, setReqSt_mem]

/-! Recoverable faults (Machine/Faults.lean). -/

@[simp] theorem toRoot_mem (s : State) (m : FaultMsg) : (toRoot s m).mem = s.mem := rfl

theorem wf_mergeAt (s : State) (r port : Nat) (asid : BitVec 16) (page : Nat) (k : Kinds) (hs : Memory.wf s.mem) :
    (mergeAt s r port asid page k).wf := by
  unfold mergeAt
  grind -ring -linarith -order [Merge.wf, onMmu_mem]

theorem wf_execFaultMessage (b : Nat) (asid : BitVec 16) (page : Nat) (s : State) (hs : Memory.wf s.mem) :
    GoesWf (execFaultMessage b asid page s) := by
  unfold execFaultMessage
  grind -ring -linarith -order [GoesWf, Merge.wf, wf_mergeAt, toRoot_mem, onMmu_mem]

theorem wf_applyMaps (s : State) (maps : List (Nat × Word)) (hs : Memory.wf s.mem) : Memory.wf (applyMaps s maps).mem :=
  wf_withDev _ _ hs (List.foldlRecOn (motive := fun d => cellsWf d = true) _ _ (wf_dev hs) fun d hd _ _ => cellsWf_writeVal d _ _ _ hd)

theorem wf_quietRange (s : State) (p : Phys) (n : Nat) (hs : Memory.wf s.mem) : Memory.wf (quietRange s p n).mem :=
  wf_foldl _ (fun s l hs => wf_giveUp s l hs) _ _ hs

@[simp] theorem snoopAll_mem (s : State) (l : List Nat) : (snoopAll s l).mem = s.mem := by simp [snoopAll]

theorem wf_movedInDev (m : Mem) (a b n : Nat) (h : Memory.wf m) :
    Memory.wf { m with
      dev := replaceRange m.dev (movedCells m.dev a b n) b n
      empty := movedWords m.empty a b n } := by
  obtain ⟨hd, hh, ht, he⟩ := (wf_iff m).mp h
  exact (wf_iff _).mpr ⟨cellsWf_movedRange _ _ _ _ _ hd hd, hh, ht, risingFrom_movedWords _ _ _ _ he⟩

theorem wf_movedFromHost (m : Mem) (a b n : Nat) (h : Memory.wf m) :
    Memory.wf { m with
      dev := replaceRange m.dev (movedCells m.host a b n) b n
      empty := m.empty.filter fun w => !inRange (b / 8) (n / 8) w } := by
  obtain ⟨hd, hh, ht, he⟩ := (wf_iff m).mp h
  exact (wf_iff _).mpr ⟨cellsWf_movedRange _ _ _ _ _ hd hh, hh, ht, risingFrom_filter _ _ _ he⟩

theorem wf_movedToHost (m : Mem) (a b n : Nat) (h : Memory.wf m) :
    Memory.wf { m with host := replaceRange m.host (movedCells m.dev a b n) b n } :=
  wf_withHost _ _ h (cellsWf_movedRange _ _ _ _ _ (wf_host h) (wf_dev h))

theorem wf_copyPage (s : State) (old new : Phys) (n : Nat) (hs : Memory.wf s.mem) : Memory.wf (copyPage s old new n).mem := by
  have h := wf_quietRange _ new n (wf_quietRange s old n hs)
  unfold copyPage
  generalize quietRange (quietRange s old n) new n = s1 at h
  dsimp only
  split
  · exact wf_movedInDev _ _ _ _ h
  · exact wf_movedFromHost _ _ _ _ h
  · exact wf_movedFromHost _ _ _ _ h
  · exact wf_movedToHost _ _ _ _ h
  · exact wf_movedToHost _ _ _ _ h
  · exact h

theorem wf_mapPage (s : State) (asid : BitVec 16) (page : Nat) (maps : List (Nat × Word)) (hs : Memory.wf s.mem) :
    Memory.wf (mapPage s asid page maps).mem := by
  have h := wf_applyMaps s maps hs
  unfold mapPage
  dsimp only
  split
  · exact wf_copyPage _ _ _ _ h
  · exact wf_withEmpty _ _ h (risingFrom_filter _ _ _ (wf_empty h))
  · exact h

theorem wf_wakeReq (s : State) (page : Nat) (status : BitVec 5) (r : Req) (hs : Memory.wf s.mem) :
    Memory.wf (wakeReq s page status r).mem := by
  unfold wakeReq
  grind -ring -linarith -order [wf_fatalAccess, dropReq_mem, onThread_mem, refresh_mem, setReqSt_mem]

@[simp] theorem wakeThread_mem (s : State) (page : Nat) (status : BitVec 5) (t : Thread) :
    (wakeThread s page status t).mem = s.mem := by
  unfold wakeThread
  split <;> simp

@[simp] theorem donePacket_mem (s : State) (q : Queue) : (donePacket s q).mem = s.mem := rfl

@[simp] theorem wakeQueue_mem (s : State) (page : Nat) (status : BitVec 5) (q : Queue) :
    (wakeQueue s page status q).mem = s.mem := by
  unfold wakeQueue
  grind -ring -linarith -order [donePacket_mem, dueFreeze_mem, onQueue_mem]

@[simp] theorem wakeCancels_mem (s : State) (page : Nat) (status : BitVec 5) (q : Queue) :
    (wakeCancels s page status q).mem = s.mem := by
  unfold wakeCancels
  split <;> simp

@[simp] theorem wakeLaunch_mem (s : State) (page : Nat) (status : BitVec 5) (l : LaunchSlot) :
    (wakeLaunch s page status l).mem = s.mem := by
  unfold wakeLaunch
  split <;> simp

@[simp] theorem wakeInbound_mem (s : State) (asid : BitVec 16) (page : Nat) (status : BitVec 5) :
    (wakeInbound s asid page status).mem = s.mem := by
  simp [wakeInbound]

theorem wf_wakeBench (s0 : State) (asid : BitVec 16) (page : Nat) (status : BitVec 5) (b : Nat) (hs0 : Memory.wf s0.mem) :
    Memory.wf (wakeBench s0 asid page status b).mem := by
  unfold wakeBench
  grind -ring -linarith -order [wf_wakeReq, wakeLaunch_mem, wakeQueue_mem, wakeCancels_mem, wakeThread_mem, onMmu_mem,
    wakeInbound_mem, wf_foldl, foldl_mem]

@[simp] theorem takePorts_mem (s : State) (r : Nat) (asid : BitVec 16) (page : Nat) :
    (takePorts s r asid page).2.mem = s.mem := by
  unfold takePorts
  split <;> simp

theorem wf_wakeDie (s : State) (asid : BitVec 16) (page : Nat) (status : BitVec 5) (d : Nat) (hs : Memory.wf s.mem) :
    Memory.wf (wakeDie s asid page status d).mem := by
  unfold wakeDie
  grind -ring -linarith -order [wf_wakeBench, takePorts_mem, wf_foldl]

theorem wf_execWake (asid : BitVec 16) (page : Nat) (status : BitVec 5) (maps : List (Nat × Word)) (s : State)
    (hs : Memory.wf s.mem) :
    GoesWf (execWake asid page status maps s) := by
  unfold execWake
  grind -ring -linarith -order [GoesWf, wf_wakeBench, wf_wakeDie, wf_mapPage, takePorts_mem, snoopAll_mem, onMmu_mem, wf_foldl]

theorem wf_endFetch (s : State) (r : Req) (i : Option (BitVec 2)) (status : BitVec 5) (hs : Memory.wf s.mem) :
    Memory.wf (endFetch s r i status).mem := by
  unfold endFetch
  grind -ring -linarith -order [wf_raise, wf_deliver, refresh_mem, dropReq_mem, onThread_mem]

theorem wf_replayReq (s : State) (r : Req) (hs : Memory.wf s.mem) : (replayReq s r).wf := by
  unfold replayReq
  grind -ring -linarith -order [Sent.wf, wf_performReq, wf_resolve, putReq_mem]

theorem wf_execRetryRecordReplay (k : Key) (i : BitVec 2) (s : State) (hs : Memory.wf s.mem) :
    GoesWf (execRetryRecordReplay k i s) := by
  unfold execRetryRecordReplay
  grind -ring -linarith -order [GoesWf, wf_replayReq, wf_sentOut, wf_endFetch]

theorem wf_execSideLogReplay (r : Nat) (s : State) (hs : Memory.wf s.mem) : GoesWf (execSideLogReplay r s) := by
  unfold execSideLogReplay
  grind -ring -linarith -order [GoesWf, wf_replayReq, wf_sentOut]

/-! Context caching and the scheduler (Machine/Lines.lean). -/

theorem wf_evict (s : State) (t : Thread) (hs : Memory.wf s.mem) : Memory.wf (evict s t).mem := by
  simp [evict, wf_startMove, hs]

theorem wf_bringIn (s0 : State) (t : Thread) (b u : Nat) (hs0 : Memory.wf s0.mem) : Memory.wf (bringIn s0 t b u).mem := by
  simp [bringIn, wf_startMove, wf_cl2Room, hs0]

theorem wf_execLinePull (b u : Nat) (s : State) (hs : Memory.wf s.mem) : GoesWf (execLinePull b u s) := by
  unfold execLinePull
  grind -ring -linarith -order [GoesWf, wf_bringIn, wf_evict]

theorem wf_leavePart (s : State) (k : Key) (hs : Memory.wf s.mem) : Memory.wf (leavePart s k).mem := by
  unfold leavePart
  split <;> simp [wf_startMove, hs]

theorem wf_execLineTransferArrival (k : Key) (s : State) (hs : Memory.wf s.mem) : GoesWf (execLineTransferArrival k s) := by
  unfold execLineTransferArrival
  grind -ring -linarith -order [GoesWf, wf_settle, wf_leavePart, setThread_mem]

theorem wf_execReadyListAgeing (k : Key) (s : State) (hs : Memory.wf s.mem) : GoesWf (execReadyListAgeing k s) := by
  unfold execReadyListAgeing
  grind -ring -linarith -order [GoesWf, setThread_mem]

theorem wf_execReadyListSwap (b : Nat) (s : State) (hs : Memory.wf s.mem) : GoesWf (execReadyListSwap b s) := by
  unfold execReadyListSwap
  grind -ring -linarith -order [GoesWf, wf_evict, wf_bringIn]

theorem wf_rehome (s : State) (k : Key) (b : Nat) (hs : Memory.wf s.mem) : Memory.wf (rehome s k b).mem := by
  simp [rehome, wf_cl2Room, wf_startMove, hs]

theorem wf_execFirmwareRebalance (k : Key) (b : Nat) (s : State) (hs : Memory.wf s.mem) :
    GoesWf (execFirmwareRebalance k b s) := by
  unfold execFirmwareRebalance
  split <;> simp [wf_rehome, hs]

theorem wf_shrinkCl1 (b u n : Nat) (s : State) (hs : Memory.wf s.mem) : Memory.wf (shrinkCl1 b u n s).mem := by
  induction n generalizing s with
  | zero => exact hs
  | succ n ih => unfold shrinkCl1; grind -ring -linarith -order [wf_evict]

@[simp] theorem dropIuTlbs_mem (s : State) (b u : Nat) : (dropIuTlbs s b u).mem = s.mem := rfl

theorem wf_execIucfgWrite (b u : Nat) (v : Word) (s : State) (hs : Memory.wf s.mem) : GoesWf (execIucfgWrite b u v s) := by
  simp [execIucfgWrite, wf_shrinkCl1, hs]

@[simp] theorem unhaltIu_mem (s : State) (b u : Nat) : (unhaltIu s b u).mem = s.mem := by simp [unhaltIu]

@[simp] theorem releaseSet_mem (s : State) (n : BitVec 6) : (releaseSet s n).mem = s.mem := by simp [releaseSet]

theorem wf_requestHalt (s : State) (n : BitVec 6) (hs : Memory.wf s.mem) : Memory.wf (requestHalt s n).mem := by
  simp [requestHalt, wf_triggerSet, hs]

theorem wf_execSetRelease (set : BitVec 6) (s : State) (hs : Memory.wf s.mem) : GoesWf (execSetRelease set s) := by
  simp [execSetRelease, hs]

@[simp] theorem reserve_mem (s : State) (first frames : Nat) (on : Bool) : (reserve s first frames on).mem = s.mem := rfl

theorem wf_execRegisterWrite (r : RegName) (v : Word) (s : State) (hs : Memory.wf s.mem) : GoesWf (execRegisterWrite r v s) := by
  unfold execRegisterWrite
  split <;> simp [wf_requestHalt, hs]

/-! Matrix engines (Machine/Matrix.lean). -/

theorem wf_matrixCheck (k : CmdKind) (ty : Ty) (s : State) (t : Thread) (a b c : Word) (d : Did) (h : matrixCheck k ty s t a b c = some d) :
    d.wf := by
  unfold matrixCheck at h
  split at h
  · cases h
  · obtain ⟨r, -, rfl⟩ := Option.map_eq_some_iff.mp h
    trivial

theorem wf_execMldw (h : Hdr) (x : Mtx) (s : State) (hs : Memory.wf s.mem) : GoesWf (execMldw h x s) := by
  unfold execMldw
  grind -ring -linarith -order [wf_matrixCheck, wf_engineIssue]

theorem wf_execMma (h : Hdr) (x : Mtx) (s : State) (hs : Memory.wf s.mem) : GoesWf (execMma h x s) := by
  unfold execMma
  grind -ring -linarith -order [wf_matrixCheck, wf_engineIssue]

theorem wf_execMacc (h : Hdr) (rm : Option RMode) (x : Mtx) (s : State) (hs : Memory.wf s.mem) : GoesWf (execMacc h rm x s) := by
  unfold execMacc
  grind -ring -linarith -order [wf_matrixCheck, wf_engineIssue]

theorem wf_execMcvt (h : Hdr) (x : Mtx) (s : State) (hs : Memory.wf s.mem) : GoesWf (execMcvt h x s) := by
  unfold execMcvt
  grind -ring -linarith -order [wf_matrixCheck, wf_engineIssue]

theorem wf_migrateFrames (b u : Nat) (asid : BitVec 16) (idx : Nat) (s : State) (l : List Nat) (hs : Memory.wf s.mem) :
    Memory.wf (migrateFrames b u asid idx s l).mem := by
  induction l generalizing s with
  | nil => exact hs
  | cons j l ih => unfold migrateFrames; grind -ring -linarith -order [wf_takeFrame, onHandle_mem]

theorem wf_migrate {s s1 : State} {c : Cmd} {idx : Nat} (hs : Memory.wf s.mem) (h : migrate s c idx = some s1) : Memory.wf s1.mem := by
  unfold migrate at h
  dsimp only at h
  split at h
  · cases h
    exact hs
  split at h
  · cases h
    exact hs
  split at h
  · cases h
  · cases h
    exact wf_migrateFrames _ _ _ _ _ _ hs

theorem wf_migrateAll {s s1 : State} {c : Cmd} {l : List Nat} (hs : Memory.wf s.mem) (h : migrateAll s c l = some s1) :
    Memory.wf s1.mem := by
  induction l generalizing s with
  | nil => cases h; exact hs
  | cons i l ih =>
    obtain ⟨s2, h2, h3⟩ := Option.bind_eq_some_iff.mp h
    exact ih (wf_migrate hs h2) h3

theorem wf_loadTiles (s : State) (c : Cmd) (l : List Nat) (hs : Memory.wf s.mem) : (loadTiles s c l).wf := by
  induction l generalizing s with
  | nil => exact hs
  | cons i l ih => unfold loadTiles; grind -ring -linarith -order [Refill.wf, wf_refillFrames]

@[simp] theorem loadBank_mem (s : State) (c : Cmd) (h : Handle) (row0 : Nat) (b : Bool) :
    (loadBank s c h row0 b).1.mem = s.mem :=
  rfl

theorem wf_loadedThen (s : State) (c : Cmd) (r : Refill) (spoil : State → State) (f : State → Host.Outcome State Fault Refusal)
    (hs : Memory.wf s.mem) (hr : r.wf) (hspoil : ∀ s, Memory.wf s.mem → Memory.wf (spoil s).mem)
    (hf : ∀ s, Memory.wf s.mem → GoesWf (f s)) :
    GoesWf (loadedThen s c r spoil f) := by
  unfold loadedThen
  grind -ring -linarith -order [GoesWf, Refill.wf, noteFault_mem, putCmd_mem]

@[simp] theorem shadowed_mem (s : State) (c : Cmd) (out : Handle) (r : Computed) (steps : Nat) :
    (shadowed s c out r steps).mem = s.mem := by
  simp [shadowed]

theorem wf_runMma (s : State) (c : Cmd) (x : Space) (hs : Memory.wf s.mem) : GoesWf (runMma s c x) := by
  unfold runMma
  grind -ring -linarith -order [GoesWf, wf_loadTiles, wf_loadedThen, shadowed_mem]

theorem wf_loadMma (s : State) (c : Cmd) (x : Space) (hs : Memory.wf s.mem) : GoesWf (loadMma s c x) := by
  unfold loadMma
  grind -ring -linarith -order [GoesWf, wf_loadTiles, wf_loadedThen, wf_runMma, putCmd_mem, loadBank_mem, setTag_mem]

theorem wf_loadMldw (s : State) (c : Cmd) (x : Space) (hs : Memory.wf s.mem) : GoesWf (loadMldw s c x) := by
  unfold loadMldw
  grind -ring -linarith -order [GoesWf, wf_loadTiles, wf_loadedThen, putCmd_mem, loadBank_mem, spoilBank_mem]

theorem wf_loadConvert (s : State) (c : Cmd) (x : Space) (hs : Memory.wf s.mem) : GoesWf (loadConvert s c x) := by
  unfold loadConvert
  grind -ring -linarith -order [GoesWf, wf_loadTiles, wf_loadedThen, shadowed_mem]

theorem wf_loadMatrix (s : State) (c : Cmd) (hs : Memory.wf s.mem) : GoesWf (loadMatrix s c) := by
  unfold loadMatrix
  grind -ring -linarith -order [GoesWf, Eng.wf, wf_loadConvert, wf_loadMma, wf_loadMldw, wf_migrateAll, wf_tokenFault,
    wf_tokenAt, spoilBank_mem, putCmd_mem]

@[simp] theorem beginMatrix_mem (s : State) (c : Cmd) : (beginMatrix s c).mem = s.mem := by simp [beginMatrix]

@[simp] theorem planeSteps_mem (s : State) (c : Cmd) : (planeSteps s c).mem = s.mem := rfl

theorem wf_shadowFrames (asid : BitVec 16) (idx : Nat) (s : State) (l : List Nat) (hs : Memory.wf s.mem) :
    Memory.wf (shadowFrames asid idx s l).mem := by
  induction l generalizing s with
  | nil => exact hs
  | cons j l ih => unfold shadowFrames; grind -ring -linarith -order [wf_takeFrame, onHandle_mem]

theorem wf_publishTile (s : State) (c : Cmd) (s1 : State) (hs : Memory.wf s.mem) (e : publishTile s c = some s1) :
    Memory.wf s1.mem := by
  unfold publishTile at e
  grind -ring -linarith -order [wf_writeTile, wf_shadowFrames, onHandle_mem]

theorem wf_finishMatrix (s : State) (c : Cmd) (hs : Memory.wf s.mem) : GoesWf (finishMatrix s c) := by
  unfold finishMatrix
  grind -ring -linarith -order [GoesWf, wf_publishTile, wf_fillToken, setTag_mem]

theorem wf_matrixExecute (s : State) (id : Nat) (kind : CmdKind) (hs : Memory.wf s.mem) : GoesWf (matrixExecute s id kind) := by
  unfold matrixExecute
  grind -ring -linarith -order [GoesWf, wf_loadMatrix, wf_finishMatrix, beginMatrix_mem, settleTurn_mem, planeSteps_mem]

theorem wf_execMqry (h : Hdr) (sel : BitVec 3) (d : Opd) (s : State) (hs : Memory.wf s.mem) : GoesWf (execMqry h sel d s) :=
  wf_issue _ _ _ _ _ _ hs fun _ => wf_finish _ _ _ hs

/-! Copy and link commands (Machine/Copy.lean). -/

theorem wf_recordsAligned (s : State) (t : Thread) (a b c : Word) (d : Did) (h : recordsAligned s t a b c = some d) : d.wf := by
  unfold recordsAligned at h
  grind -ring -linarith -order [misaligned, Did.wf]

theorem wf_execCpy (h : Hdr) (x : Cpy) (s : State) (hs : Memory.wf s.mem) : GoesWf (execCpy h x s) := by
  unfold execCpy
  grind -ring -linarith -order [wf_recordsAligned, wf_engineIssue]

theorem wf_execCred (h : Hdr) (x : Cpy) (s : State) (hs : Memory.wf s.mem) : GoesWf (execCred h x s) := by
  unfold execCred
  grind -ring -linarith -order [wf_recordsAligned, wf_engineIssue]

theorem wf_execXcpy (h : Hdr) (x : Cpy) (s : State) (hs : Memory.wf s.mem) : GoesWf (execXcpy h x s) := by
  unfold execXcpy
  grind -ring -linarith -order [wf_recordsAligned, wf_engineIssue]

theorem wf_execXred (h : Hdr) (x : Cpy) (s : State) (hs : Memory.wf s.mem) : GoesWf (execXred h x s) := by
  unfold execXred
  grind -ring -linarith -order [wf_recordsAligned, wf_engineIssue]

theorem wf_readMany (s : State) (w : Who) (va : Word) (n k : Nat) (hs : Memory.wf s.mem) : (readMany s w va n k).wf := by
  induction k generalizing s va n with
  | zero => exact hs
  | succ k ih =>
    unfold readMany
    split
    · exact hs
    · exact wf_bind (wf_ofVRes _ (wf_vAccess _ _ _ _ _ hs)) fun s1 _ hs1 => wf_bind (ih s1 _ _ hs1) fun _ _ h => h

theorem wf_writeMany (s : State) (w : Who) (start : Word) (n : Nat) (va : Word) (l : List Byte) (k : Nat) (hs : Memory.wf s.mem) :
    (writeMany s w start n va l k).wf := by
  induction k generalizing s va l with
  | zero => exact hs
  | succ k ih =>
    unfold writeMany
    split
    · exact hs
    · exact wf_bind (wf_ofVRes _ (wf_vAccess _ _ _ _ _ hs)) fun s1 _ hs1 => ih s1 _ _ hs1

theorem wf_readUnit (s : State) (c : Cmd) (t : Tensor) (u per n : Nat) (hs : Memory.wf s.mem) : (readUnit s c t u per n).wf := by
  unfold readUnit
  grind -ring -linarith -order [Res.wf, wf_readMany]

theorem wf_engStop (s : State) (c : Cmd) (x : Stop) (hs : Memory.wf s.mem) (hx : x.wf) : GoesWf (engStop s c x) := by
  unfold engStop
  cases x with
  | blocked s1 => exact hx
  | notHbm a => trivial
  | bad va st => exact hs
  | wait va k => grind -ring -linarith -order [GoesWf, putCmd_mem, noteFault_mem]

theorem wf_badrec (s : State) (c : Cmd) (hs : Memory.wf s.mem) : GoesWf (badrec s c) := hs

theorem wf_withToken (s : State) (c : Cmd) (f : State → Host.Outcome State Fault Refusal) (hs : Memory.wf s.mem)
    (hf : ∀ s, Memory.wf s.mem → GoesWf (f s)) :
    GoesWf (withToken s c f) := by
  unfold withToken
  grind -ring -linarith -order [GoesWf, Eng.wf, wf_tokenFault, wf_tokenAt]

theorem wf_takeSource (s : State) (c : Cmd) (t : Tensor) (per n : Nat) (hs : Memory.wf s.mem) : (takeSource s c t per n).wf := by
  unfold takeSource
  grind -ring -linarith -order [Refill.wf, Res.wf, Stop.wf, wf_refillFrames]

theorem wf_startCopy (s : State) (c : Cmd) (hs : Memory.wf s.mem) : GoesWf (startCopy s c) := by
  refine wf_withToken _ _ _ hs fun s hs => ?_
  have hr : ((readRecord s (whoCmd c) c.a).bind fun s1 r1 => (readRecord s1 (whoCmd c) c.b).bind fun s2 r2 =>
      Res.ok s2 (r1, r2)).wf :=
    wf_bind (wf_readRecord _ _ _ hs) fun s1 _ hs1 => wf_bind (wf_readRecord _ _ _ hs1) fun _ _ h => h
  split
  · next e => exact wf_engStop _ _ _ hs (by simpa [e] using hr)
  · next s1 r1 r2 e =>
    have hs1 : Memory.wf s1.mem := by simpa [e] using hr
    split
    · grind -ring -linarith -order [GoesWf, wf_badrec, wf_takeSource, Res.wf, Stop.wf, wf_engStop, putCmd_mem, wf_refillFrames,
      Refill.wf, onHandle_mem]
    · exact wf_badrec _ _ hs1

theorem wf_copyEnd (s : State) (c : Cmd) (n : Nat) (hs : Memory.wf s.mem) : GoesWf (copyEnd s c n) := by
  unfold copyEnd
  grind -ring -linarith -order [wf_publishTile, wf_fillToken]

theorem wf_copyUnit (s : State) (c : Cmd) (a b : Tensor) (hs : Memory.wf s.mem) : GoesWf (copyUnit s c a b) := by
  unfold copyUnit
  grind -ring -linarith -order [GoesWf, Res.wf, wf_engStop, wf_writeMany, wf_readUnit, wf_bind, wf_atomically, putCmd_mem]

theorem wf_reduceUnit (s : State) (c : Cmd) (a b : Tensor) (hs : Memory.wf s.mem) : GoesWf (reduceUnit s c a b) := by
  unfold reduceUnit
  grind -ring -linarith -order [GoesWf, Res.wf, wf_engStop, wf_vAccess, wf_ofVRes, wf_readUnit, wf_bind, wf_atomically,
    putCmd_mem]

theorem wf_copyExecute (s : State) (id : Nat) (kind : CmdKind) (hs : Memory.wf s.mem) : GoesWf (copyExecute s id kind) := by
  unfold copyExecute
  grind -ring -linarith -order [GoesWf, wf_copyUnit, wf_reduceUnit, wf_copyEnd, wf_startCopy]

theorem wf_beginLink (s : State) (c : Cmd) (hs : Memory.wf s.mem) : GoesWf (beginLink s c) := by
  unfold beginLink
  split <;> simp [hs]

theorem wf_startLink (s0 : State) (c : Cmd) (hs0 : Memory.wf s0.mem) : GoesWf (startLink s0 c) := by
  unfold startLink
  grind -ring -linarith -order [Res.wf, wf_beginLink, wf_badrec, wf_engStop, wf_readRecord, wf_bind, wf_withToken, putCmd_mem,
    takeSeq_mem]

theorem wf_linkUnit (s : State) (c : Cmd) (a : Tensor) (p : Peer) (ans : PeerAnswer) (hs : Memory.wf s.mem) :
    GoesWf (linkUnit s c a p ans) := by
  unfold linkUnit
  grind -ring -linarith -order [GoesWf, Res.wf, wf_engStop, wf_readUnit, emit_mem, putCmd_mem]

theorem wf_linkFill (s : State) (c : Cmd) (a : Tensor) (hs : Memory.wf s.mem) : GoesWf (linkFill s c a) := by
  unfold linkFill
  grind -ring -linarith -order [wf_fillToken]

theorem wf_linkEnd (s : State) (c : Cmd) (a : Tensor) (p : Peer) (ans : PeerAnswer) (hs : Memory.wf s.mem) :
    GoesWf (linkEnd s c a p ans) := by
  unfold linkEnd
  grind -ring -linarith -order [GoesWf, wf_linkFill, emit_mem, putCmd_mem]

theorem wf_linkExecute (s : State) (id : Nat) (kind : CmdKind) (ans : PeerAnswer) (hs : Memory.wf s.mem) :
    GoesWf (linkExecute s id kind ans) := by
  unfold linkExecute
  grind -ring -linarith -order [GoesWf, wf_linkUnit, wf_linkEnd, wf_copyEnd, wf_beginLink, wf_startLink]

theorem wf_execLinkDownTimeout (c : Nat) (s : State) (hs : Memory.wf s.mem) : GoesWf (execLinkDownTimeout c s) := by
  unfold execLinkDownTimeout
  grind -ring -linarith -order [GoesWf, wf_fatalAccess, putCmd_mem]

theorem wf_execLinkPortUp (port : Nat) (s : State) (hs : Memory.wf s.mem) : GoesWf (execLinkPortUp port s) := by
  unfold execLinkPortUp
  split <;> simp [hs]

/-! Rest points and scratchpads (Machine/Rest.lean). -/

@[simp] theorem stopCmd_mem (s : State) (c : Cmd) : (stopCmd s c).mem = s.mem := by simp [stopCmd]

@[simp] theorem restOne_mem (s : State) (c : Cmd) : (restOne s c).mem = s.mem := by simp [restOne]

@[simp] theorem gateEngine_mem (s : State) (b g : Nat) : (gateEngine s b g).mem = s.mem := by simp [gateEngine]

theorem wf_execEngineRestPoint (b g : Nat) (s : State) (hs : Memory.wf s.mem) : GoesWf (execEngineRestPoint b g s) := by
  unfold execEngineRestPoint
  split <;> simp [hs]

theorem wf_execEngineIdleGate (b g : Nat) (s : State) (hs : Memory.wf s.mem) : GoesWf (execEngineIdleGate b g s) := by
  unfold execEngineIdleGate
  dsimp only
  split <;> simp [hs]

@[simp] theorem markCancelled_mem (s : State) (hit : Cmd → Bool) : (markCancelled s hit).mem = s.mem := by simp [markCancelled]

theorem wf_releaseFrame (s : State) (asid : BitVec 16) (idx frame : Nat) (hs : Memory.wf s.mem) :
    Memory.wf (releaseFrame s asid idx frame).mem := by
  unfold releaseFrame
  grind -ring -linarith -order [wf_reissue, wf_foldl]

theorem wf_issueFaulted (fault : State → Req → State) (idx frame : Nat) (s : State) (t : Thread) (hs : Memory.wf s.mem)
    (hfault : ∀ s r', Memory.wf s.mem → Memory.wf (fault s r').mem) :
    Memory.wf (issueFaulted fault idx frame s t).mem := by
  unfold issueFaulted
  grind -ring -linarith -order [wf_retire, wf_quietly, wf_reissue, enter_mem]

theorem wf_execTileFrameRefill (asid : BitVec 16) (idx frame : Nat) (s : State) (hs : Memory.wf s.mem) :
    GoesWf (execTileFrameRefill asid idx frame s) := by
  unfold execTileFrameRefill
  grind -ring -linarith -order [GoesWf, Refill.wf, wf_fatalAccess, wf_waitAccess, wf_issueFaulted, wf_releaseFrame,
    wf_refillFrame, wf_foldl, foldl_mem]

theorem wf_execTileFrameWriteback (asid : BitVec 16) (idx frame : Nat) (s : State) (hs : Memory.wf s.mem) :
    GoesWf (execTileFrameWriteback asid idx frame s) := by
  unfold execTileFrameWriteback
  split <;> simp [wf_dropFrame, hs]

theorem wf_execScratchpadBankWake (b u bank : Nat) (s : State) (hs : Memory.wf s.mem) :
    GoesWf (execScratchpadBankWake b u bank s) := by
  unfold execScratchpadBankWake
  grind -ring -linarith -order [GoesWf, wf_releaseFrame, onIu_mem, wf_foldl, foldl_mem]

theorem wf_execScratchpadBankPowerDown (b u bank : Nat) (s : State) (hs : Memory.wf s.mem) :
    GoesWf (execScratchpadBankPowerDown b u bank s) := by
  unfold execScratchpadBankPowerDown
  grind -ring -linarith -order [GoesWf, wf_dropFrame, onIu_mem, wf_foldl]

/-! Address spaces (Machine/Space.lean). -/

theorem wf_allocPage (root : Nat) (maps : List (Nat × Word)) (s : State) (m : Nat × Word) (hs : Memory.wf s.mem) :
    Memory.wf (allocPage root maps s m).mem := by
  unfold allocPage
  split
  · split
    · exact wf_withEmpty _ _ hs (risingFrom_filter _ _ _ (wf_empty hs))
    · exact hs
  · exact hs

theorem wf_execAddressSpaceCreate (x : SpaceNew) (s : State) (hs : Memory.wf s.mem) : GoesWf (execAddressSpaceCreate x s) := by
  unfold execAddressSpaceCreate
  grind -ring -linarith -order [GoesWf, wf_allocPage, wf_applyMaps, snoopAll_mem, wf_foldl]

theorem wf_execFirmwareServiceThreadCreate (asid : BitVec 16) (x : ServiceNew) (s : State) (hs : Memory.wf s.mem) :
    GoesWf (execFirmwareServiceThreadCreate asid x s) := by
  unfold execFirmwareServiceThreadCreate
  grind -ring -linarith -order [GoesWf, wf_createThread, setSpace_mem]

theorem wf_execFirmwareContextWrite (k : Key) (word : BitVec 5) (v : Word) (s : State) (hs : Memory.wf s.mem) :
    GoesWf (execFirmwareContextWrite k word v s) := by
  unfold execFirmwareContextWrite
  grind -ring -linarith -order [GoesWf, wf_settle, setThread_mem, onSpace_mem]

@[simp] theorem saveFault_mem (s : State) (asid : BitVec 16) (va : Word) : (saveFault s asid va).mem = s.mem := by
  unfold saveFault
  grind -ring -linarith -order [dueFreeze_mem, foldl_mem]

theorem wf_saveAt (s : State) (b : Nat) (asid : BitVec 16) (va : Word) (l : List Word) (hs : Memory.wf s.mem) :
    Memory.wf (saveAt s b asid va l).mem :=
  wf_saveWords_getD hs (by simpa using hs)

theorem wf_saveCmd (x : Space) (s : State) (c : Cmd × Nat) (hs : Memory.wf s.mem) : Memory.wf (saveCmd x s c).mem := by
  simp [saveCmd, wf_saveAt, hs]

@[simp] theorem pausePacket_mem (s : State) (c : Cmd) : (pausePacket s c).mem = s.mem := by simp [pausePacket]

theorem wf_saveStrm (x : Space) (s : State) (r : Req × Nat) (hs : Memory.wf s.mem) : Memory.wf (saveStrm x s r).mem := by
  unfold saveStrm
  split <;> simp [wf_saveAt, hs]

theorem wf_saveGate {s s1 : State} {asid : BitVec 16} {l : List (Nat × Word)} (hs : Memory.wf s.mem)
    (h : saveGate s asid l = some s1) : Memory.wf s1.mem := by
  induction l with
  | nil => cases h
  | cons x l ih => unfold saveGate at h; grind -ring -linarith -order [wf_savePlace, SavePlace.wf]

theorem wf_saveGate_getD {s s1 : State} {asid : BitVec 16} {l : List (Nat × Word)} (hs : Memory.wf s.mem)
    (h1 : Memory.wf s1.mem) : Memory.wf ((saveGate s asid l).getD s1).mem := by
  cases h : saveGate s asid l with
  | none => exact h1
  | some s2 => exact wf_saveGate hs h

@[simp] theorem dropTags_mem (s : State) (asid : BitVec 16) : (dropTags s asid).mem = s.mem := rfl

theorem wf_suspendNow (s : State) (x : Space) (hs : Memory.wf s.mem) : Memory.wf (suspendNow s x).mem := by
  unfold suspendNow
  grind -ring -linarith -order [wf_releaseEngq, wf_saveStrm, wf_saveCmd, wf_endHolds, dropTags_mem, pausePacket_mem, refresh_mem,
    onSpace_mem, wf_foldl, foldl_mem]

theorem wf_suspendSpace (s : State) (asid : BitVec 16) (hs : Memory.wf s.mem) : Memory.wf (suspendSpace s asid).mem := by
  unfold suspendSpace
  split
  · exact hs
  · exact wf_saveGate_getD hs (wf_suspendNow _ _ hs)

theorem wf_freeStrmSlot (x : Space) (s : State) (e : StrmSave × Nat) (hs : Memory.wf s.mem) : Memory.wf (freeStrmSlot x s e).mem :=
  wf_saveWords_getD hs hs

theorem wf_resumeLine (s : State) (k : Key) (hs : Memory.wf s.mem) : Memory.wf (resumeLine s k).mem := by
  unfold resumeLine
  split <;> simp [wf_rehome, hs]

theorem wf_resumeNow (s : State) (x : Space) (hs : Memory.wf s.mem) : Memory.wf (resumeNow s x).mem := by
  unfold resumeNow
  grind -ring -linarith -order [wf_resumeLine, wf_enterSlots, wf_freeStrmSlot, onSpace_mem, wf_foldl, foldl_mem]

theorem wf_resumeSpace (s : State) (asid : BitVec 16) (hs : Memory.wf s.mem) : Memory.wf (resumeSpace s asid).mem := by
  unfold resumeSpace
  split
  · exact hs
  · exact wf_saveGate_getD hs (wf_resumeNow _ _ hs)

@[simp] theorem untranslate_mem (s : State) (asid : BitVec 16) (lo hi : Nat) : (untranslate s asid lo hi).mem = s.mem := rfl

theorem wf_execTlbShootdown (asid : BitVec 16) (lo hi : Nat) (maps : List (Nat × Word)) (s : State) (hs : Memory.wf s.mem) :
    GoesWf (execTlbShootdown asid lo hi maps s) := by
  unfold execTlbShootdown
  grind -ring -linarith -order [GoesWf, wf_applyMaps, untranslate_mem, snoopAll_mem]

theorem wf_execAsidRetireDiscard (asid : BitVec 16) (s : State) (hs : Memory.wf s.mem) :
    GoesWf (execAsidRetireDiscard asid s) := by
  unfold execAsidRetireDiscard
  grind -ring -linarith -order [GoesWf, wf_releaseEngq, dropReq_mem, stopCmd_mem, leaveQueue_mem, dropTags_mem, wf_foldl,
    foldl_mem]

/-! Host and links (Machine/HostLinks.lean). -/

@[simp] theorem snoopAnswer_mem (s : State) (a : Nat) : (snoopAnswer s a).mem = s.mem := rfl

@[simp] theorem linkAnswer_mem (s : State) : (linkAnswer s).mem = s.mem := by simp [linkAnswer]

theorem wf_snooped (s : State) (i : Instr) (line : Nat) (f : State → Nat → State) (hs : Memory.wf s.mem)
    (hf : ∀ s n', Memory.wf s.mem → Memory.wf (f s n').mem) :
    GoesWf (snooped s i line f) := by
  unfold snooped
  grind -ring -linarith -order [GoesWf, leaveTurns_mem, snoopAnswer_mem, queueUp_mem, linkAnswer_mem]

theorem wf_execSnpInv (line : Nat) (s : State) (hs : Memory.wf s.mem) : GoesWf (execSnpInv line s) := by
  unfold execSnpInv
  grind -ring -linarith -order [wf_snooped, l2DropOthers_mem]

theorem wf_execSnpData (line : Nat) (s : State) (hs : Memory.wf s.mem) : GoesWf (execSnpData line s) := by
  unfold execSnpData
  grind -ring -linarith -order [wf_snooped]

theorem wf_execSnpCur (line : Nat) (s : State) (hs : Memory.wf s.mem) : GoesWf (execSnpCur line s) := by
  unfold execSnpCur
  grind -ring -linarith -order [wf_snooped]

theorem wf_hostData (s : State) (a : Nat) (d : Option (BitVec 1024)) (hs : Memory.wf s.mem) : Memory.wf (hostData s a d).mem := by
  unfold hostData
  split
  · exact wf_withHost _ _ hs (cellsWf_writeBytes _ _ _ (wf_host hs))
  · exact hs

theorem wf_installLine (s : State) (agent : Nat) (a : Nat) (own : Bool) (d : Option (BitVec 1024)) (hs : Memory.wf s.mem) :
    Memory.wf (installLine s agent a own d).mem := by
  simp [installLine, wf_l2Put, wf_hostData, hs]

theorem wf_engineAnswer (s : State) (id : Nat) (d : Option (BitVec 1024)) (hs : Memory.wf s.mem) :
    Memory.wf (engineAnswer s id d).mem := by
  unfold engineAnswer
  dsimp only
  split <;> simp [wf_hostData, wf_installLine, hs]

theorem wf_execHostMemoryCompletion (r : Nat) (line : Option (BitVec 1024)) (s : State) (hs : Memory.wf s.mem) :
    GoesWf (execHostMemoryCompletion r line s) := by
  unfold execHostMemoryCompletion
  grind -ring -linarith -order [GoesWf, wf_hostData, wf_installLine, wf_engineAnswer, setReqSt_mem]

theorem wf_execAtomicopCompletion (r : Nat) (ok : Bool) (old : Vec) (s : State) (hs : Memory.wf s.mem) :
    GoesWf (execAtomicopCompletion r ok old s) := by
  unfold execAtomicopCompletion
  split
  · split
    · exact wf_engineAnswer _ _ _ hs
    · exact hs
  split
  · exact hs
  split
  · exact hs
  have hg : ∀ p : Option Phys, Memory.wf ((p.map fun p => giveUp s (lineOf p)).getD s).mem := fun p => by
    cases p with
    | none => exact hs
    | some p => exact wf_giveUp _ _ hs
  split
  · exact wf_fatalAccess _ _ _ _ hs
  · exact wf_complete _ _ _ (wf_writeHost _ _ _ _ (hg _))
  · exact wf_complete _ _ _ (wf_writeHost _ _ _ _ (hg _))
  · exact hs

@[simp] theorem repeatBisnp_mem (s : State) (a : Nat) : (repeatBisnp s a).mem = s.mem := by
  unfold repeatBisnp
  split <;> simp

@[simp] theorem hostTakes_mem (s : State) (a : Nat) (h : Option HostSt) : (hostTakes s a h).mem = s.mem := rfl

theorem wf_shareAll (s : State) (a : Nat) (hs : Memory.wf s.mem) : Memory.wf (shareAll s a).mem := by
  simp [shareAll, wf_dirRoom, wf_mergeLine, hs]

theorem wf_takeAll (s : State) (a : Nat) (hs : Memory.wf s.mem) : Memory.wf (takeAll s a).mem := by
  simp [takeAll, wf_obtain, hs]

theorem wf_hostServe (s : State) (i : Instr) (pa : Nat) (f : State → State) (hs : Memory.wf s.mem)
    (hf : ∀ s, Memory.wf s.mem → Memory.wf (f s).mem) :
    GoesWf (hostServe s i pa f) := by
  unfold hostServe
  grind -ring -linarith -order [GoesWf, sendBisnp_mem, queueUp_mem, linkAnswer_mem, leaveTurns_mem, repeatBisnp_mem]

theorem wf_mergedAt (s : State) (a : Nat) (hs : Memory.wf s.mem) : Memory.wf (mergedAt s a).mem := by
  simp [mergedAt, wf_mergeLine, hs]

theorem wf_readNoOp (s : State) (pa : Nat) (hs : Memory.wf s.mem) : Memory.wf (readNoOp s pa).mem := by
  simp [readNoOp, wf_mergedAt, hs]

theorem wf_readShared (s : State) (pa : Nat) (hs : Memory.wf s.mem) : Memory.wf (readShared s pa).mem := by
  simp [readShared, wf_shareAll, wf_readNoOp, hs]

theorem wf_readOwn (s : State) (pa : Nat) (hs : Memory.wf s.mem) : Memory.wf (readOwn s pa).mem := by
  simp [readOwn, wf_takeAll, wf_readNoOp, hs]

theorem wf_execMemRd (pa : Nat) (snp : SnpType) (s : State) (hs : Memory.wf s.mem) : GoesWf (execMemRd pa snp s) := by
  unfold execMemRd
  grind -ring -linarith -order [wf_readOwn, wf_readShared, wf_readNoOp, wf_hostServe]

theorem wf_execMemRdData (pa : Nat) (s : State) (hs : Memory.wf s.mem) : GoesWf (execMemRdData pa s) := by
  unfold execMemRdData
  grind -ring -linarith -order [wf_readShared, wf_hostServe]

theorem wf_execMemInv (pa : Nat) (s : State) (hs : Memory.wf s.mem) : GoesWf (execMemInv pa s) := by
  unfold execMemInv
  grind -ring -linarith -order [wf_takeAll, wf_mergedAt, wf_hostServe, hostTakes_mem, emit_mem]

theorem wf_execMemInvNt (pa : Nat) (s : State) (hs : Memory.wf s.mem) : GoesWf (execMemInvNt pa s) := by
  unfold execMemInvNt
  grind -ring -linarith -order [wf_takeAll, wf_hostServe, hostTakes_mem, emit_mem]

theorem wf_putMasked (s : State) (base : Nat) (data : BitVec 512) (mask : BitVec 64) (hs : Memory.wf s.mem) :
    Memory.wf (putMasked s base data mask).mem := by
  refine wf_withDev _ _ hs (List.foldlRecOn (motive := fun d => cellsWf d = true) _ _ (wf_dev hs) fun d hd i _ => ?_)
  split
  · exact cellsWf_cellWrite _ _ _ hd
  · exact hd

theorem wf_hostWrite (s : State) (pa : Nat) (data : BitVec 512) (mask : BitVec 64) (hs : Memory.wf s.mem) :
    Memory.wf (hostWrite s pa data mask).mem := by
  simp [hostWrite, wf_takeAll, wf_putMasked, hs]

theorem wf_execMemWr (pa : Nat) (data : BitVec 512) (s : State) (hs : Memory.wf s.mem) : GoesWf (execMemWr pa data s) := by
  unfold execMemWr
  grind -ring -linarith -order [wf_hostWrite, wf_hostServe]

theorem wf_execMemWrPtl (pa : Nat) (data : BitVec 512) (mask : BitVec 64) (s : State) (hs : Memory.wf s.mem) :
    GoesWf (execMemWrPtl pa data mask s) := by
  unfold execMemWrPtl
  grind -ring -linarith -order [wf_hostWrite, wf_hostServe]

theorem wf_enterWaiting (s : State) (hs : Memory.wf s.mem) : Memory.wf (enterWaiting s).mem := by
  unfold enterWaiting
  grind -ring -linarith -order [wf_releaseEngq, wf_foldl]

theorem wf_endBisnp (s : State) (line : Nat) (data : Option (BitVec 1024)) (h : Option HostSt) (hs : Memory.wf s.mem) :
    Memory.wf (endBisnp s line data h).mem := by
  unfold endBisnp
  refine wf_enterWaiting _ ?_
  dsimp only
  rw [hostTakes_mem]
  split
  · exact wf_withDev _ _ hs (cellsWf_writeBytes _ _ _ (wf_dev hs))
  · exact hs

theorem wf_execBirspS (line : Nat) (data : Option (BitVec 1024)) (s : State) (hs : Memory.wf s.mem) :
    GoesWf (execBirspS line data s) := by
  simp [execBirspS, wf_endBisnp, hs]

theorem wf_execBirspI (line : Nat) (data : Option (BitVec 1024)) (s : State) (hs : Memory.wf s.mem) :
    GoesWf (execBirspI line data s) := by
  simp [execBirspI, wf_endBisnp, hs]

theorem wf_homeGate {s s1 : State} {i : Instr} {a : Nat} {need : Need} (hs : Memory.wf s.mem) (h : homeGate s i a need = some s1) :
    Memory.wf s1.mem := by
  unfold homeGate at h
  grind -ring -linarith -order [queueUp_mem, sendBisnp_mem, leaveTurns_mem]

theorem wf_execInboundAtomicop (op : PcieOp) (n pa : Nat) (v cmp : Vec) (s : State) (hs : Memory.wf s.mem) :
    GoesWf (execInboundAtomicop op n pa v cmp s) := by
  unfold execInboundAtomicop
  dsimp only
  split
  · simpa using hs
  split
  · simpa using hs
  split
  · next e => exact wf_homeGate hs e
  split
  · simpa using hs
  · exact wf_writeDev _ _ _ _ (wf_takeAll _ _ (by simpa using hs))

theorem wf_inboundPart (s : State) (a : Accepted) (va : Word) (f : State → Nat → State × List Byte) (hs : Memory.wf s.mem)
    (hf : ∀ s n', Memory.wf s.mem → Memory.wf (f s n').1.mem) :
    (inboundPart s a va f).wf := by
  unfold inboundPart
  grind -ring -linarith -order [Trans.wf, Inbound.wf, wf_homeGate, wf_translate]

theorem wf_inboundParts (s : State) (a : Accepted) (m : Nat) (f : State → Nat → List Byte → State × List Byte) (n : Nat) (va : Word)
    (l : List Byte) (hs : Memory.wf s.mem) (hf : ∀ s p l, Memory.wf s.mem → Memory.wf (f s p l).1.mem) :
    (inboundParts s a m f n va l).wf := by
  induction n generalizing s va l with
  | zero => exact hs
  | succ n ih =>
    have h1 := wf_inboundPart s a va (fun s p => f s p (l.take m)) hs fun s p hs => hf s p _ hs
    unfold inboundParts
    split
    · next s1 out e =>
      have h2 := ih s1 (va + BitVec.ofNat 64 m) (l.drop m) (by simpa [e] using h1)
      split
      · next e2 => simpa [e2] using h2
      · exact hs
      · exact h2
    · exact h1

theorem wf_inboundDo (k : LinkKind) (s : State) (a : Nat) (l : List Byte) (hs : Memory.wf s.mem) : Memory.wf (inboundDo k s a l).1.mem := by
  cases k with
  | read => exact wf_mergedAt _ _ hs
  | write =>
    have h := wf_takeAll (dropStale s) a hs
    exact wf_withDev _ _ h (cellsWf_writeBytes _ _ _ (wf_dev h))
  | reduce op ty => exact wf_writeDev _ _ _ _ (wf_takeAll _ _ hs)
  | signal => exact wf_fillWord _ _ _ hs

@[simp] theorem endAccepted_mem (s : State) (a : Accepted) (o : Out) : (endAccepted s a o).mem = s.mem := rfl

theorem wf_performAccepted (s : State) (a : Accepted) (hs : Memory.wf s.mem) : GoesWf (performAccepted s a) := by
  unfold performAccepted
  grind -ring -linarith -order [GoesWf, Inbound.wf, wf_inboundDo, wf_inboundParts, noteFault_mem, leaveTurns_mem,
    endAccepted_mem]

theorem wf_execInboundLinkAccess (x : LinkAccess) (s : State) (hs : Memory.wf s.mem) : GoesWf (execInboundLinkAccess x s) := by
  unfold execInboundLinkAccess
  grind -ring -linarith -order [GoesWf, wf_performAccepted, emit_mem]

theorem wf_execInboundWindowTableWrite (n : Nat) (w0 w1 w2 : Word) (s : State) (hs : Memory.wf s.mem) :
    GoesWf (execInboundWindowTableWrite n w0 w1 w2 s) := by
  unfold execInboundWindowTableWrite
  split <;> simp [hs]

theorem wf_execLinkRefusal (r : Nat) (s : State) (hs : Memory.wf s.mem) : GoesWf (execLinkRefusal r s) := by
  unfold execLinkRefusal
  split <;> simp [wf_fatalAccess, hs]

theorem wf_peerCopies (s : State) (q : Req) (p : Phys) (v : BitVec 1024) (hs : Memory.wf s.mem) :
    Memory.wf (peerCopies s q p v).mem := by
  simp [peerCopies, wf_l2Keep, hs]

theorem wf_execPeerAcknowledgement (r : Nat) (v : BitVec 1024) (s : State) (hs : Memory.wf s.mem) :
    GoesWf (execPeerAcknowledgement r v s) := by
  unfold execPeerAcknowledgement
  grind -ring -linarith -order [GoesWf, wf_peerCopies, wf_complete]

theorem wf_execDirectoryRegionMerge (base size : Nat) (s : State) (hs : Memory.wf s.mem) :
    GoesWf (execDirectoryRegionMerge base size s) := by
  unfold execDirectoryRegionMerge
  grind -ring -linarith -order [GoesWf]

theorem wf_shrinkSlice (slice n : Nat) (s : State) (hs : Memory.wf s.mem) : Memory.wf (shrinkSlice slice n s).mem := by
  induction n generalizing s with
  | zero => exact hs
  | succ n ih => unfold shrinkSlice; grind -ring -linarith -order [wf_startMove]

@[simp] theorem fitLlc_mem (s : State) : (fitLlc s).mem = s.mem := by simp [fitLlc]

theorem wf_execLlcContextPartitionResize (steps : Nat) (s : State) (hs : Memory.wf s.mem) :
    GoesWf (execLlcContextPartitionResize steps s) := by
  unfold execLlcContextPartitionResize
  grind -ring -linarith -order [GoesWf, wf_shrinkSlice, fitLlc_mem, wf_foldl]

theorem wf_gateLine (lvl : CacheLevel) (s : State) (p : Phys) (hs : Memory.wf s.mem) : Memory.wf (gateLine lvl s p).mem := by
  unfold gateLine
  grind -ring -linarith -order [wf_l2Evict, llcDrop_mem, dirPut_mem]

theorem wf_execCacheWayGate (lvl : CacheLevel) (way : Nat) (off : Bool) (s : State) (hs : Memory.wf s.mem) :
    GoesWf (execCacheWayGate lvl way off s) := by
  unfold execCacheWayGate
  grind -ring -linarith -order [GoesWf, wf_gateLine, wf_foldl]

/-! Time (Machine/Clock.lean). -/

theorem wf_expireAll (s : State) (hs : Memory.wf s.mem) : Memory.wf (expireAll s).mem := by
  unfold expireAll
  grind -ring -linarith -order [wf_expire, wf_foldl, foldl_mem]

theorem wf_stateOf (s : State) (o : Host.Outcome State Fault Refusal) (hs : Memory.wf s.mem) (ho : GoesWf o) :
    Memory.wf (stateOf s o).mem := by
  cases o with
  | next s1 => exact ho
  | _ => exact hs

theorem wf_serveLate (s : State) (b : Nat) (hs : Memory.wf s.mem) : Memory.wf (serveLate s b).mem := by
  unfold serveLate
  grind -ring -linarith -order [wf_execReadyListSwap, wf_execLinePull, wf_stateOf]

theorem wf_haltDueIus (s : State) (hs : Memory.wf s.mem) : Memory.wf (haltDueIus s).mem := by
  unfold haltDueIus
  grind -ring -linarith -order [wf_haltIu, wf_foldl]

theorem wf_passCycles (s : State) (n : Nat) (hs : Memory.wf s.mem) : Memory.wf (passCycles s n).mem := by
  unfold passCycles
  grind -ring -linarith -order [wf_serveLate, wf_expireAll, wf_haltDueIus, wf_foldl]

theorem wf_passTime (s : State) (n : Nat) (hs : Memory.wf s.mem) : Memory.wf (passTime s n).mem := by
  simp [passTime, wf_passCycles, hs]

theorem wf_openIssue (s : State) (b u : Nat) (hs : Memory.wf s.mem) : Memory.wf (openIssue s b u).mem := by
  simp [openIssue, wf_passTime, hs]

@[simp] theorem beginEvent_mem (s : State) (i : Instr) : (beginEvent s i).mem = s.mem := rfl

/-! Control flow (Machine/Control.lean). -/

theorem wf_execPlog (h : Hdr) (d a b c : BitVec 3) (tt : BitVec 8) (s : State) (hs : Memory.wf s.mem) :
    GoesWf (execPlog h d a b c tt s) :=
  wf_issue _ _ _ _ _ _ hs fun _ => wf_finish _ _ _ hs

theorem wf_execPmovGet (h : Hdr) (d : Opd) (s : State) (hs : Memory.wf s.mem) : GoesWf (execPmovGet h d s) :=
  wf_issue _ _ _ _ _ _ hs fun _ => wf_finish _ _ _ hs

theorem wf_execPmovSet (h : Hdr) (a : Opd) (pm : BitVec 7) (s : State) (hs : Memory.wf s.mem) :
    GoesWf (execPmovSet h a pm s) :=
  wf_issue _ _ _ _ _ _ hs fun _ => wf_finish _ _ _ hs

theorem wf_jumpTo (s : State) (t : Thread) (c : Ctx) (pc : VAddr) (hs : Memory.wf s.mem) : (jumpTo s t c pc).wf := hs

theorem wf_execBr (h : Hdr) (disp : BitVec 32) (s : State) (hs : Memory.wf s.mem) : GoesWf (execBr h disp s) :=
  wf_issue _ _ _ _ _ _ hs fun _ => wf_jumpTo _ _ _ _ hs

theorem wf_execJmp (h : Hdr) (a : Opd) (s : State) (hs : Memory.wf s.mem) : GoesWf (execJmp h a s) := by
  unfold execJmp
  grind -ring -linarith -order [wf_jumpTo, wf_misaligned, wf_issue]

theorem wf_pushWord (s : State) (k : Key) (i : Instr) (va v : Word) (hs : Memory.wf s.mem) : (pushWord s k i va v).wf := by
  unfold pushWord
  grind -ring -linarith -order [Sent.wf, wf_resolve, enter_mem]

theorem wf_callTo (s : State) (t : Thread) (i : Instr) (target : VAddr) (hs : Memory.wf s.mem) : (callTo s t i target).wf := by
  unfold callTo
  grind -ring -linarith -order [Did.wf, Sent.wf, wf_pushWord, wf_misaligned, onThread_mem]

theorem wf_execCall (h : Hdr) (disp : BitVec 32) (s : State) (hs : Memory.wf s.mem) : GoesWf (execCall h disp s) :=
  wf_issue _ _ _ _ _ _ hs fun _ => wf_callTo _ _ _ _ hs

theorem wf_execCallr (h : Hdr) (a : Opd) (s : State) (hs : Memory.wf s.mem) : GoesWf (execCallr h a s) := by
  unfold execCallr
  grind -ring -linarith -order [wf_callTo, wf_misaligned, wf_issue]

theorem wf_execRet (h : Hdr) (s : State) (hs : Memory.wf s.mem) : GoesWf (execRet h s) := by
  unfold execRet
  grind -ring -linarith -order [wf_submit, wf_misaligned, wf_limited, wf_issue]

theorem wf_execDbnz (h : Hdr) (d : Opd) (disp : BitVec 32) (s : State) (hs : Memory.wf s.mem) : GoesWf (execDbnz h d disp s) :=
  wf_issue _ _ _ _ _ _ hs fun _ => wf_jumpTo _ _ _ _ hs

theorem wf_execNop (h : Hdr) (s : State) (hs : Memory.wf s.mem) : GoesWf (execNop h s) :=
  wf_issue _ _ _ _ _ _ hs fun _ => wf_finish _ _ _ hs

/-! Front ends and the end of queues (Machine/Freeze.lean). -/

@[simp] theorem setPk_mem (s : State) (q : Queue) (p : Option Packet) : (setPk s q p).mem = s.mem := rfl

@[simp] theorem fePage_mem (s : State) (q : Queue) (p : Packet) (va : Word) (k : Want) : (fePage s q p va k).mem = s.mem := rfl

theorem wf_feFill (s : State) (q : Queue) (tok v : Word) (hs : Memory.wf s.mem) : (feFill s q tok v).wf := by
  unfold feFill
  grind -ring -linarith -order [Trans.wf, Acc.wf, Res.wf, Stop.wf, wf_fillWord, wf_homeTurn, wf_translate]

@[simp] theorem dropDeps_mem (s : State) (fn qid : Nat) : (dropDeps s fn qid).mem = s.mem := by
  unfold dropDeps
  grind -ring -linarith -order [dropReq_mem, leaveTurns_mem, foldl_mem]

@[simp] theorem returnHeld_mem (s : State) (l : LaunchSlot) : (returnHeld s l).mem = s.mem := by simp [returnHeld]

@[simp] theorem cancelLaunches_mem (s0 : State) (fn qid : Nat) : (cancelLaunches s0 fn qid).mem = s0.mem := by
  simp [cancelLaunches]

@[simp] theorem freezeQueue_mem (s : State) (fn qid : Nat) (reason : BitVec 8) (va : Word) :
    (freezeQueue s fn qid reason va).mem = s.mem := by
  unfold freezeQueue
  split <;> simp

theorem wf_feStop (s : State) (q : Queue) (p : Packet) (reason : BitVec 8) (x : Stop) (hs : Memory.wf s.mem) (hx : x.wf) :
    GoesWf (feStop s q p reason x) := by
  cases x with
  | blocked s1 => exact hx
  | notHbm a => trivial
  | wait va k => simpa [feStop] using hs
  | bad va st => simpa [feStop] using hs

theorem wf_finishPacket (s : State) (q : Queue) (p : Packet) (stat : BitVec 16) (hs : Memory.wf s.mem) :
    GoesWf (finishPacket s q p stat) := by
  unfold finishPacket
  grind -ring -linarith -order [GoesWf, Res.wf, Stop.wf, wf_feStop, wf_feFill, setPk_mem, freezeQueue_mem, donePacket_mem]

@[simp] theorem popCancel_mem (s : State) (q : Queue) : (popCancel s q).mem = s.mem := rfl

theorem wf_cancelNext (s : State) (q : Queue) (hs : Memory.wf s.mem) : GoesWf (cancelNext s q) := by
  unfold cancelNext
  grind -ring -linarith -order [GoesWf, Res.wf, Stop.wf, wf_readWord, wf_bind, wf_feFill, noteFault_mem, onQueue_mem,
    popCancel_mem]

theorem wf_execQueueFreeze (fn qid : Nat) (s : State) (hs : Memory.wf s.mem) : GoesWf (execQueueFreeze fn qid s) := by
  unfold execQueueFreeze
  grind -ring -linarith -order [GoesWf, wf_cancelNext, freezeQueue_mem]

theorem wf_execQueueHangTimeout (fn qid : Nat) (s : State) (hs : Memory.wf s.mem) : GoesWf (execQueueHangTimeout fn qid s) := by
  unfold execQueueHangTimeout
  grind -ring -linarith -order [GoesWf, freezeQueue_mem]

@[simp] theorem orphanReqs_mem (s : State) (k : Key) : (orphanReqs s k).mem = s.mem := by
  unfold orphanReqs
  grind -ring -linarith -order [dropReq_mem, foldl_mem]

@[simp] theorem cancelSaved_mem (s : State) (hit : Space → CmdSave → Bool) : (cancelSaved s hit).mem = s.mem := rfl

theorem wf_cancelThread (s : State) (t : Thread) (hs : Memory.wf s.mem) : Memory.wf (cancelThread s t).mem := by
  simp [cancelThread, wf_retireThread, wf_endHolds, hs]

theorem wf_execThreadCancel (k : Key) (s : State) (hs : Memory.wf s.mem) : GoesWf (execThreadCancel k s) := by
  unfold execThreadCancel
  grind -ring -linarith -order [GoesWf, wf_cancelThread]

theorem wf_releaseFrozen (s : State) (fn qid : Nat) (hs : Memory.wf s.mem) : Memory.wf (releaseFrozen s fn qid).mem := by
  unfold releaseFrozen
  grind -ring -linarith -order [wf_cancelThread, wf_foldl]

theorem wf_beginDestroy (s : State) (q : Queue) (hs : Memory.wf s.mem) : Memory.wf (beginDestroy s q).mem := by
  simp [beginDestroy, wf_releaseFrozen, hs]

theorem wf_execQueueDestroy (fn qid : Nat) (s : State) (hs : Memory.wf s.mem) : GoesWf (execQueueDestroy fn qid s) := by
  unfold execQueueDestroy
  grind -ring -linarith -order [GoesWf, wf_releaseFrozen, wf_beginDestroy]

/-! Integer instructions (Machine/Integer.lean). -/

theorem wf_alu2 (s : State) (i : Instr) (h : Hdr) (x : Alu2) (f : Oper2) (hs : Memory.wf s.mem) : GoesWf (alu2 s i h x f) := by
  unfold alu2
  grind -ring -linarith -order [wf_finish, wf_issue]

theorem wf_alu1 (s : State) (i : Instr) (h : Hdr) (x : Alu1) (f : Oper1) (hs : Memory.wf s.mem) : GoesWf (alu1 s i h x f) := by
  unfold alu1
  grind -ring -linarith -order [wf_finish, wf_issue]

theorem wf_carryAlu (s : State) (i : Instr) (h : Hdr) (x : AluX) (sub : Bool) (hs : Memory.wf s.mem) :
    GoesWf (carryAlu s i h x sub) := by
  unfold carryAlu
  grind -ring -linarith -order [wf_finish, wf_issue]

theorem wf_execSext (h : Hdr) (x : Ext) (s : State) (hs : Memory.wf s.mem) : GoesWf (execSext h x s) := wf_alu1 _ _ _ _ _ hs

theorem wf_execZext (h : Hdr) (x : Ext) (s : State) (hs : Memory.wf s.mem) : GoesWf (execZext h x s) := wf_alu1 _ _ _ _ _ hs

theorem wf_execBfx (h : Hdr) (x : Bfx) (s : State) (hs : Memory.wf s.mem) : GoesWf (execBfx h x s) := wf_alu1 _ _ _ _ _ hs

theorem wf_execSel (h : Hdr) (x : AluX) (s : State) (hs : Memory.wf s.mem) : GoesWf (execSel h x s) :=
  wf_issue _ _ _ _ _ _ hs fun _ => wf_finish _ _ _ hs

theorem wf_execMov (h : Hdr) (x : Mov) (s : State) (hs : Memory.wf s.mem) : GoesWf (execMov h x s) :=
  wf_issue _ _ _ _ _ _ hs fun _ => wf_finish _ _ _ hs

theorem wf_execLi (h : Hdr) (d : Opd) (imm : BitVec 56) (s : State) (hs : Memory.wf s.mem) : GoesWf (execLi h d imm s) :=
  wf_issue _ _ _ _ _ _ hs fun _ => wf_finish _ _ _ hs

theorem wf_execLea (h : Hdr) (x : MemD) (s : State) (hs : Memory.wf s.mem) : GoesWf (execLea h x s) :=
  wf_issue _ _ _ _ _ _ hs fun _ => wf_finish _ _ _ hs

theorem wf_execCmp (h : Hdr) (x : Cmp) (s : State) (hs : Memory.wf s.mem) : GoesWf (execCmp h x s) :=
  wf_issue _ _ _ _ _ _ hs fun _ => wf_finish _ _ _ hs

/-! Queues (Machine/Queues.lean). -/

@[simp] theorem saveQueue_mem (s : State) (q : Queue) : (saveQueue s q).mem = s.mem := by simp [saveQueue]

@[simp] theorem mapQueue_mem (s : State) (q : Queue) (n : Nat) : (mapQueue s q n).mem = s.mem := rfl

@[simp] theorem startSave_mem (s : State) (q : Queue) : (startSave s q).mem = s.mem := by simp [startSave]

theorem evalStep_mem {s s1 : State} {fn : Nat} (h : evalStep s fn = some s1) : s1.mem = s.mem := by
  unfold evalStep at h
  grind -ring -linarith -order [mapQueue_mem, saveQueue_mem, startSave_mem]

@[simp] theorem evalLoop_mem (fn n : Nat) (s : State) : (evalLoop fn n s).mem = s.mem := by
  induction n generalizing s with
  | zero => rfl
  | succ n ih =>
    unfold evalLoop
    split
    · next e => rw [ih, evalStep_mem e]
    · rfl

@[simp] theorem evaluate_mem (s : State) (fn : Nat) : (evaluate s fn).mem = s.mem := by simp [evaluate]

theorem wf_execQueueSlotEvaluate (fn : Nat) (s : State) (hs : Memory.wf s.mem) : GoesWf (execQueueSlotEvaluate fn s) := by
  simp [execQueueSlotEvaluate, hs]

theorem wf_execQslotsWrite (fn v : Nat) (s : State) (hs : Memory.wf s.mem) : GoesWf (execQslotsWrite fn v s) := by
  unfold execQslotsWrite
  split <;> simp [hs]

theorem wf_execQueueCreate (fn qid : Nat) (x : QueueNew) (s : State) (hs : Memory.wf s.mem) :
    GoesWf (execQueueCreate fn qid x s) := by
  unfold execQueueCreate
  dsimp only
  split <;> simp [hs]

@[simp] theorem kick_mem (s : State) (fn qid : Nat) (v : BitVec 32) : (kick s fn qid v).mem = s.mem := by
  unfold kick
  split <;> simp

@[simp] theorem doorbellWrite_mem (s : State) (fn off width : Nat) (v : Word) : (doorbellWrite s fn off width v).mem = s.mem := by
  simp [doorbellWrite]

theorem wf_execDoorbellKick (fn off width : Nat) (v : Vec) (s : State) (hs : Memory.wf s.mem) :
    GoesWf (execDoorbellKick fn off width v s) := by
  unfold execDoorbellKick
  split <;> simp [hs]

theorem wf_runOnly (s : State) (fn : Nat) (hs : Memory.wf s.mem) : Memory.wf (runOnly s fn).mem := by
  unfold runOnly
  grind -ring -linarith -order [wf_resumeSpace, wf_suspendSpace, wf_foldl, foldl_mem]

theorem wf_execTimeSliceExpiry (fn : Nat) (s : State) (hs : Memory.wf s.mem) : GoesWf (execTimeSliceExpiry fn s) := by
  simp [execTimeSliceExpiry, wf_runOnly, hs]

theorem wf_execExclusiveModeSelect (on : Bool) (sliceMs : Nat) (s : State) (hs : Memory.wf s.mem) :
    GoesWf (execExclusiveModeSelect on sliceMs s) := by
  unfold execExclusiveModeSelect
  grind -ring -linarith -order [GoesWf, wf_resumeSpace, wf_runOnly, wf_foldl]

@[simp] theorem depReq_mem (s : State) (q : Queue) (n : Nat) (va : Word) : (depReq s q n va).mem = s.mem := rfl

theorem wf_decideDeps (s : State) (q : Queue) (p : Packet) (l : List (BitVec 16)) (hs : Memory.wf s.mem) :
    GoesWf (decideDeps s q p l) := by
  unfold decideDeps
  grind -ring -linarith -order [GoesWf, wf_finishPacket, setPk_mem, onQueue_mem]

theorem wf_depsStep (s : State) (q : Queue) (t : PkTy) (p : Packet) (hs : Memory.wf s.mem) : GoesWf (depsStep s q t p) := by
  unfold depsStep
  grind -ring -linarith -order [GoesWf, wf_finishPacket, wf_decideDeps, depReq_mem, setPk_mem, wf_foldl]

theorem wf_checkPacket (s : State) (q : Queue) (t : PkTy) (p : Packet) (hs : Memory.wf s.mem) : GoesWf (checkPacket s q t p) := by
  unfold checkPacket
  grind -ring -linarith -order [GoesWf, Trans.wf, wf_translate, wf_depsStep, wf_finishPacket, fePage_mem, freezeQueue_mem,
    setPk_mem]

theorem wf_feWords (s : State) (w : Who) (va : Word) (n : Nat) (hs : Memory.wf s.mem) : (feWords s w va n).wf := by
  induction n generalizing s va with
  | zero => exact hs
  | succ n ih => exact wf_bind (wf_readWord _ _ _ hs) fun s1 _ hs1 => wf_bind (ih s1 _ hs1) fun _ _ h => h

theorem wf_fetchPacket (s : State) (q : Queue) (t : PkTy) (hs : Memory.wf s.mem) : GoesWf (fetchPacket s q t) := by
  unfold fetchPacket
  grind -ring -linarith -order [GoesWf, Res.wf, wf_checkPacket, wf_feStop, wf_feWords, wf_atomically, setPk_mem, freezeQueue_mem,
    leaveTurns_mem]

theorem wf_feBegin {s s1 : State} {d : Nat} {q : Queue} (hs : Memory.wf s.mem) (h : feBegin s d q = some s1) : Memory.wf s1.mem := by
  unfold feBegin at h
  grind -ring -linarith -order [onQueue_mem]

theorem wf_packetRow (s : State) (fn qid : Nat) (t : PkTy) (go : State → Queue → Packet → Host.Outcome State Fault Refusal)
    (hs : Memory.wf s.mem) (hgo : ∀ q p, GoesWf (go s q p)) : GoesWf (packetRow s fn qid t go) := by
  unfold packetRow
  split
  · exact hs
  · next q _ =>
    split
    · cases e : feBegin s (agentDie q) q with
      | none => simpa [e] using hs
      | some s1 => simpa [e] using wf_fetchPacket _ _ _ (wf_feBegin hs e)
    · grind -ring -linarith -order [GoesWf, wf_fetchPacket, wf_finishPacket, wf_checkPacket]

theorem wf_execDependenceResolve (fn qid : Nat) (s : State) (hs : Memory.wf s.mem) : GoesWf (execDependenceResolve fn qid s) := by
  unfold execDependenceResolve
  grind -ring -linarith -order [GoesWf, wf_depsStep]

theorem wf_execBarrier (fn qid : Nat) (s : State) (hs : Memory.wf s.mem) : GoesWf (execBarrier fn qid s) := by
  unfold execBarrier
  grind -ring -linarith -order [wf_finishPacket, wf_packetRow]

theorem wf_execWait (fn qid : Nat) (s : State) (hs : Memory.wf s.mem) : GoesWf (execWait fn qid s) := by
  unfold execWait
  grind -ring -linarith -order [GoesWf, wf_finishPacket, wf_packetRow, depReq_mem, setPk_mem]

theorem wf_execWaitReread (fn qid : Nat) (s : State) (hs : Memory.wf s.mem) : GoesWf (execWaitReread fn qid s) := by
  unfold execWaitReread
  grind -ring -linarith -order [GoesWf, depReq_mem, setPk_mem]

theorem wf_feSync (s : State) (q : Queue) (va : Word) (put : State → Nat → State) (hs : Memory.wf s.mem)
    (hput : ∀ s n', Memory.wf s.mem → Memory.wf (put s n').mem) :
    (feSync s q va put).wf := by
  unfold feSync
  grind -ring -linarith -order [Trans.wf, Acc.wf, Res.wf, Stop.wf, wf_obtain, wf_serveWord, wf_homeTurn, wf_translate,
    dropStale_mem]

theorem wf_signalAccess (s : State) (q : Queue) (p : Packet) (hs : Memory.wf s.mem) : (signalAccess s q p).wf := by
  have plain : ∀ va o, ((atomically s (ofVRes (vAccess (dropStale s) (feWho q) va 8 o))).bind fun s1 _ => Res.ok s1 ()).wf := fun va o =>
    wf_bind (wf_atomically _ _ hs (wf_ofVRes _ (wf_vAccess _ _ _ _ _ hs))) fun _ _ h => h
  unfold signalAccess
  dsimp only
  split
  · exact wf_feSync _ _ _ _ hs fun s a hs => wf_setFull _ _ (wf_writeDev _ _ _ _ hs)
  · exact plain _ _
  · exact wf_feSync _ _ _ _ hs fun s a hs => wf_setEmpty _ _ hs
  · exact plain _ _

theorem wf_execSignal (fn qid : Nat) (s : State) (hs : Memory.wf s.mem) : GoesWf (execSignal fn qid s) := by
  unfold execSignal
  grind -ring -linarith -order [Res.wf, wf_feStop, wf_finishPacket, wf_signalAccess, wf_packetRow]

theorem wf_execCopy (fn qid : Nat) (s : State) (hs : Memory.wf s.mem) : GoesWf (execCopy fn qid s) := by
  unfold execCopy
  grind -ring -linarith -order [GoesWf, wf_addCmd, wf_packetRow, onQueue_mem, takeSeq_mem]

/-! Launches (Machine/Launch.lean). -/

@[simp] theorem takeSlot_mem (s : State) (q : Queue) (p : Packet) (h : List Word) (n : Nat) :
    (takeSlot s q p h n).mem = s.mem :=
  rfl

theorem wf_execLaunch (fn qid : Nat) (s : State) (hs : Memory.wf s.mem) : GoesWf (execLaunch fn qid s) := by
  unfold execLaunch
  grind -ring -linarith -order [GoesWf, Res.wf, wf_finishPacket, wf_feStop, wf_feWords, wf_atomically, wf_packetRow, setPk_mem,
    takeSlot_mem, leaveTurns_mem]

@[simp] theorem allocCrew_mem (s : State) (l : LaunchSlot) (die k : Nat) : (allocCrew s l die k).mem = s.mem := by
  unfold allocCrew
  split <;> simp

theorem wf_writeCrew (s : State) (l : LaunchSlot) (c b : Nat) (ids : List (BitVec 32)) (hs : Memory.wf s.mem) :
    Memory.wf (writeCrew s l c b ids).mem := by
  unfold writeCrew
  grind -ring -linarith -order [wf_createThread, wf_foldl]

@[simp] theorem passWritten_mem (s : State) (q : Queue) (l : LaunchSlot) (lprog : List (BitVec 32)) :
    (passWritten s q l lprog).mem = s.mem := by
  simp [passWritten]

theorem wf_offerCrew (s : State) (q : Queue) (l : LaunchSlot) (die c : Nat) (ids : List (BitVec 32)) (hs : Memory.wf s.mem) :
    Memory.wf (offerCrew s q l die c ids).mem := by
  unfold offerCrew
  split <;> simp [wf_writeCrew, hs]

theorem wf_execLaunchCrewPlace (die fn qid : Nat) (s : State) (hs : Memory.wf s.mem) :
    GoesWf (execLaunchCrewPlace die fn qid s) := by
  unfold execLaunchCrewPlace
  split <;> grind -ring -linarith -order [GoesWf, wf_offerCrew, wf_feBegin, allocCrew_mem]

@[simp] theorem freeLaunch_mem (s : State) (n : Nat) : (freeLaunch s n).mem = s.mem := by
  unfold freeLaunch
  split <;> simp

@[simp] theorem endLaunch_mem (s : State) (l : LaunchSlot) : (endLaunch s l).mem = s.mem := by simp [endLaunch]

theorem wf_execLaunchComplete (slot : Nat) (s : State) (hs : Memory.wf s.mem) : GoesWf (execLaunchComplete slot s) := by
  unfold execLaunchComplete
  grind -ring -linarith -order [GoesWf, Res.wf, Stop.wf, wf_feFill, freezeQueue_mem, noteFault_mem, onSlot_mem, endLaunch_mem,
    freeLaunch_mem]

/-! Power, reset and management (Machine/Package.lean). -/

theorem wf_execPowerModeChange (m : PowerMode) (s : State) (hs : Memory.wf s.mem) : GoesWf (execPowerModeChange m s) := by
  simp [execPowerModeChange, hs]

@[simp] theorem clockDown_mem (s : State) : (clockDown s).mem = s.mem := by simp [clockDown]

theorem wf_execClockStepDown (s : State) (hs : Memory.wf s.mem) : GoesWf (execClockStepDown s) := by
  simp [execClockStepDown, hs]

theorem wf_execClockStepUp (s : State) (hs : Memory.wf s.mem) : GoesWf (execClockStepUp s) := by simp [execClockStepUp, hs]

theorem wf_execThermalThrottle (s : State) (hs : Memory.wf s.mem) : GoesWf (execThermalThrottle s) := by
  simp [execThermalThrottle, hs]

theorem wf_execThermalTrip (s : State) (hs : Memory.wf s.mem) : GoesWf (execThermalTrip s) := by simp [execThermalTrip, hs]

@[simp] theorem loseLine_mem (d : Nat) (s : State) (t : Thread) : (loseLine d s t).mem = s.mem := by simp [loseLine]

theorem wf_loseCopies (d : Nat) (s : State) (hs : Memory.wf s.mem) : Memory.wf (loseCopies d s).mem := hs

@[simp] theorem loseTables_mem (d : Nat) (s : State) : (loseTables d s).mem = s.mem := rfl

@[simp] theorem loseCommands_mem (d : Nat) (s : State) : (loseCommands d s).mem = s.mem := by simp [loseCommands]

@[simp] theorem loseRequests_mem (d : Nat) (s : State) : (loseRequests d s).mem = s.mem := by
  unfold loseRequests
  grind -ring -linarith -order [dropReq_mem, foldl_mem]

theorem wf_resetDie (d : Nat) (s : State) (hs : Memory.wf s.mem) : Memory.wf (resetDie d s).mem := by
  simp [resetDie, wf_loseCopies, hs]

theorem wf_execComputeDieResetComplete (d : Nat) (s : State) (hs : Memory.wf s.mem) :
    GoesWf (execComputeDieResetComplete d s) := by
  unfold execComputeDieResetComplete
  grind -ring -linarith -order [GoesWf, onPkg_mem, onSpace_mem, wf_foldl]

@[simp] theorem goFatal_mem (cause : Nat) (s : State) : (goFatal cause s).mem = s.mem := by simp [goFatal]

theorem wf_execModuleFatal (cause : Nat) (s : State) (hs : Memory.wf s.mem) : GoesWf (execModuleFatal cause s) := by
  simp [execModuleFatal, hs]

theorem wf_execLinkFlitReplay (socket : Nat) (s : State) (hs : Memory.wf s.mem) : GoesWf (execLinkFlitReplay socket s) := by
  unfold execLinkFlitReplay
  split <;> simp [wf_resetDie, hs]

@[simp] theorem weightError_mem (s : State) (b g : Nat) (bank : Bool) : (weightError s b g bank).mem = s.mem := by
  unfold weightError
  grind -ring -linarith -order [putMat_mem, putCmd_mem, foldl_mem]

theorem wf_takeDamage (s : State) (x : Damage) (hs : Memory.wf s.mem) : Memory.wf (takeDamage s x).mem := by
  cases x with
  | corrected n => exact hs
  | line a =>
    dsimp only [takeDamage]
    split
    · exact hs
    · exact hs
  | context k =>
    dsimp only [takeDamage]
    split
    · exact hs
    · exact wf_freeze _ _ _ _ _ hs
  | frame asid idx j => exact hs
  | weights b g bank =>
    show Memory.wf (weightError s b g bank).mem
    simpa using hs

theorem wf_execPatrolScrub (s : State) (hs : Memory.wf s.mem) : GoesWf (execPatrolScrub s) := by
  unfold execPatrolScrub
  split <;> simp [wf_takeDamage, hs]

theorem wf_powerGood (s : State) : Memory.wf (powerGood s).mem := wf_reset

@[simp] theorem bringUp_mem (s : State) : (bringUp s).mem = s.mem := rfl

theorem wf_execPowerOnReset (s : State) (hs : Memory.wf s.mem) : GoesWf (execPowerOnReset s) := by
  simp [execPowerOnReset, wf_powerGood, hs]

theorem wf_execRecoveryImageLoad (ok : Bool) (s : State) (hs : Memory.wf s.mem) : GoesWf (execRecoveryImageLoad ok s) := by
  simp [execRecoveryImageLoad, hs]

theorem wf_execConfigurationRequest (s : State) (hs : Memory.wf s.mem) : GoesWf (execConfigurationRequest s) := by
  unfold execConfigurationRequest
  split <;> simp [hs]

@[simp] theorem freeReport_mem (s : State) (code : Nat) : (freeReport s code).mem = s.mem := rfl

theorem wf_execMctpManagementMessage (m : MctpMsg) (s : State) (hs : Memory.wf s.mem) :
    GoesWf (execMctpManagementMessage m s) := by
  unfold execMctpManagementMessage
  grind -ring -linarith -order [GoesWf, onPkg_mem, emit_mem, freeReport_mem]

theorem wf_spdmAnswer (s : State) (code : Nat) (f : Spdm → Spdm) (hs : Memory.wf s.mem) : GoesWf (spdmAnswer s code f) := hs

theorem wf_spdmRow (s : State) (ok : Spdm → Bool) (code : Nat) (f : Spdm → Spdm) (hs : Memory.wf s.mem) :
    GoesWf (spdmRow s ok code f) := by
  unfold spdmRow
  grind -ring -linarith -order [GoesWf, wf_spdmAnswer, emit_mem]

theorem wf_execGetVersion (s : State) (hs : Memory.wf s.mem) : GoesWf (execGetVersion s) := wf_spdmRow _ _ _ _ hs

theorem wf_execNegotiateAlgorithms (p384 sha384 : Bool) (s : State) (hs : Memory.wf s.mem) :
    GoesWf (execNegotiateAlgorithms p384 sha384 s) :=
  wf_spdmRow _ _ _ _ hs

theorem wf_execGetCertificate (slot : Nat) (s : State) (hs : Memory.wf s.mem) : GoesWf (execGetCertificate slot s) :=
  wf_spdmRow _ _ _ _ hs

theorem wf_execChallenge (slot : Nat) (s : State) (hs : Memory.wf s.mem) : GoesWf (execChallenge slot s) := wf_spdmRow _ _ _ _ hs

theorem wf_execGetMeasurements (idx : Nat) (s : State) (hs : Memory.wf s.mem) : GoesWf (execGetMeasurements idx s) :=
  wf_spdmRow _ _ _ _ hs

theorem wf_execEndSession (s : State) (hs : Memory.wf s.mem) : GoesWf (execEndSession s) := wf_spdmRow _ _ _ _ hs

/-! Sequencing (Machine/Step.lean). -/

theorem wf_andThen (o : Host.Outcome State Fault Refusal) (f : State → Host.Outcome State Fault Refusal) (ho : GoesWf o)
    (hf : ∀ s, Memory.wf s.mem → GoesWf (f s)) : GoesWf (andThen o f) := by
  cases o with
  | next s => exact hf s ho
  | _ => trivial

/-! Every instruction and event, each by its rule (Machine/Dispatch.lean). -/

theorem wf_exec (i : Instr) (s : State) (hs : Memory.wf s.mem) : GoesWf (exec i s) := by
  cases i with
  | add h x => exact wf_alu2 _ _ _ _ _ hs
  | sub h x => exact wf_alu2 _ _ _ _ _ hs
  | addx h x => exact wf_carryAlu _ _ _ _ _ hs
  | subx h x => exact wf_carryAlu _ _ _ _ _ hs
  | mul h x => exact wf_alu2 _ _ _ _ _ hs
  | mulh h x => exact wf_alu2 _ _ _ _ _ hs
  | div h x => exact wf_alu2 _ _ _ _ _ hs
  | rem h x => exact wf_alu2 _ _ _ _ _ hs
  | and h x => exact wf_alu2 _ _ _ _ _ hs
  | or h x => exact wf_alu2 _ _ _ _ _ hs
  | xor h x => exact wf_alu2 _ _ _ _ _ hs
  | andn h x => exact wf_alu2 _ _ _ _ _ hs
  | orn h x => exact wf_alu2 _ _ _ _ _ hs
  | shl h x => exact wf_alu2 _ _ _ _ _ hs
  | shr h x => exact wf_alu2 _ _ _ _ _ hs
  | sar h x => exact wf_alu2 _ _ _ _ _ hs
  | rol h x => exact wf_alu2 _ _ _ _ _ hs
  | ror h x => exact wf_alu2 _ _ _ _ _ hs
  | clz h x => exact wf_alu1 _ _ _ _ _ hs
  | ctz h x => exact wf_alu1 _ _ _ _ _ hs
  | popc h x => exact wf_alu1 _ _ _ _ _ hs
  | brev h x => exact wf_alu1 _ _ _ _ _ hs
  | bswap h x => exact wf_alu1 _ _ _ _ _ hs
  | min h x => exact wf_alu2 _ _ _ _ _ hs
  | max h x => exact wf_alu2 _ _ _ _ _ hs
  | abs h x => exact wf_alu1 _ _ _ _ _ hs
  | sext h x => exact wf_execSext h x s hs
  | zext h x => exact wf_execZext h x s hs
  | bfx h x => exact wf_execBfx h x s hs
  | bfi h x => exact wf_alu2 _ _ _ _ _ hs
  | sel h x => exact wf_execSel h x s hs
  | mov h x => exact wf_execMov h x s hs
  | li h d imm => exact wf_execLi h d imm s hs
  | lea h x => exact wf_execLea h x s hs
  | cmp h x => exact wf_execCmp h x s hs
  | plog h d a b c tt => exact wf_execPlog h d a b c tt s hs
  | pmovGet h d => exact wf_execPmovGet h d s hs
  | pmovSet h a pm => exact wf_execPmovSet h a pm s hs
  | br h disp => exact wf_execBr h disp s hs
  | jmp h a => exact wf_execJmp h a s hs
  | call h disp => exact wf_execCall h disp s hs
  | callr h a => exact wf_execCallr h a s hs
  | ret h => exact wf_execRet h s hs
  | dbnz h d disp => exact wf_execDbnz h d disp s hs
  | nop h => exact wf_execNop h s hs
  | fadd h x => exact wf_execFadd h x s hs
  | fsub h x => exact wf_execFsub h x s hs
  | fmul h x => exact wf_fp2 _ _ _ _ _ hs
  | fma h x => exact wf_fp3 _ _ _ _ _ hs
  | fnma h x => exact wf_fp3 _ _ _ _ _ hs
  | fdiv h x => exact wf_fp2 _ _ _ _ _ hs
  | fsqrt h x => exact wf_execFsqrt h x s hs
  | fmin h x => exact wf_fpMinMax _ _ _ _ _ hs
  | fmax h x => exact wf_fpMinMax _ _ _ _ _ hs
  | fsgn h x => exact wf_execFsgn h x s hs
  | fcmp h x => exact wf_execFcmp h x s hs
  | fclass h x => exact wf_execFclass h x s hs
  | fcvt h x => exact wf_convert _ _ _ _ _ _ _ hs
  | fcvi h x => exact wf_execFcvi h x s hs
  | icvf h x => exact wf_execIcvf h x s hs
  | frnd h x => exact wf_execFrnd h x s hs
  | shuf h x => exact wf_execShuf h x s hs
  | vext h x => exact wf_execVext h x s hs
  | vins h x => exact wf_execVins h x s hs
  | vbc h x => exact wf_execVbc h x s hs
  | vred h x => exact wf_execVred h x s hs
  | vdot h x => exact wf_execVdot h x s hs
  | vmskGet h x => exact wf_execVmskGet h x s hs
  | vmskSet h x => exact wf_execVmskSet h x s hs
  | vmskAny h x => exact wf_execVmskAny h x s hs
  | vmskAll h x => exact wf_execVmskAll h x s hs
  | vscan h x => exact wf_execVscan h x s hs
  | ld h x => exact wf_execLd h x s hs
  | st h x => exact wf_execSt h x s hs
  | amo h x => exact wf_execAmo h x s hs
  | cas h x => exact wf_casWith _ _ _ _ hs
  | cas2 h x => exact wf_casWith _ _ _ _ hs
  | fence h ord scp => exact wf_execFence h ord scp s hs
  | lde h x => exact wf_syncWith _ _ _ _ _ _ _ _ hs
  | ldc h x => exact wf_syncWith _ _ _ _ _ _ _ _ hs
  | stf h x => exact wf_syncWith _ _ _ _ _ _ _ _ hs
  | sts h x => exact wf_syncWith _ _ _ _ _ _ _ _ hs
  | sfe h mem => exact wf_syncWith _ _ _ _ _ _ _ _ hs
  | qfe h x => exact wf_syncWith _ _ _ _ _ _ _ _ hs
  | hold h x => exact wf_execHold h x s hs
  | hst h x => exact wf_execHst h x s hs
  | hrel h x => exact wf_execHrel h x s hs
  | addd h x => exact wf_execAddd h x s hs
  | cflush h x => exact wf_execCflush h x s hs
  | talloc h fmt d a => exact wf_execTalloc h fmt d a s hs
  | tfree h a => exact wf_execTfree h a s hs
  | tpin h px a mask => exact wf_execTpin h px a mask s hs
  | tunpin h a mask => exact wf_execTunpin h a mask s hs
  | tlde h x => exact wf_execTlde h x s hs
  | tste h x => exact wf_execTste h x s hs
  | tinfo h n d a => exact wf_execTinfo h n d a s hs
  | mldw h x => exact wf_execMldw h x s hs
  | mma h x => exact wf_execMma h x s hs
  | macc h rm x => exact wf_execMacc h rm x s hs
  | mcvt h x => exact wf_execMcvt h x s hs
  | mqry h sel d => exact wf_execMqry h sel d s hs
  | sint h x => exact wf_strmWith _ _ _ _ _ hs
  | sintc h x => exact wf_strmWith _ _ _ _ _ hs
  | smrg h x => exact wf_strmWith _ _ _ _ _ hs
  | sdiff h x => exact wf_strmWith _ _ _ _ _ hs
  | sgath h x => exact wf_strmWith _ _ _ _ _ hs
  | sscat h x => exact wf_strmWith _ _ _ _ _ hs
  | scmp h nz x => exact wf_strmWith _ _ _ _ _ hs
  | cld h x => exact wf_execCld h x s hs
  | cst h x => exact wf_execCst h x s hs
  | camo h x => exact wf_execCamo h x s hs
  | cprb h d base disp b => exact wf_execCprb h d base disp b s hs
  | clbinv h scp d base disp b => exact wf_execClbinv h scp d base disp b s hs
  | qpop h d base disp => exact wf_execQpop h d base disp s hs
  | qpsh h d base disp => exact wf_execQpsh h d base disp s hs
  | cpy h x => exact wf_execCpy h x s hs
  | cred h x => exact wf_execCred h x s hs
  | xcpy h x => exact wf_execXcpy h x s hs
  | xred h x => exact wf_execXred h x s hs
  | rfence h scp base disp => exact wf_execRfence h scp base disp s hs
  | spawn h x => exact wf_execSpawn h x s hs
  | exit h => exact wf_execExit h s hs
  | yield h => exact wf_execYield h s hs
  | bar h d a idx => exact wf_execBar h d a idx s hs
  | whereIu h d => exact wf_execWhereIu h d s hs
  | move h rad sbench => exact wf_execMove h rad sbench s hs
  | sys h a code => exact wf_execSys h a code s hs
  | trap h a code => exact wf_execTrap h a code s hs
  | brk h code => exact wf_execBrk h code s hs
  | eret h => exact wf_execEret h s hs
  | csrr h d csr => exact wf_execCsrr h d csr s hs
  | csrw h a csr => exact wf_execCsrw h a csr s hs
  | ctxr h d a word => exact wf_execCtxr h d a word s hs
  | ctxw h a b word => exact wf_execCtxw h a b word s hs
  | instructionFetch b u => exact wf_execInstructionFetch b u s hs
  | instructionReissue k => exact wf_execInstructionReissue k s hs
  | deliverResult r => exact wf_execDeliverResult r s hs
  | storePerform r => exact wf_execStorePerform r s hs
  | faultMessage b asid page => exact wf_execFaultMessage b asid page s hs
  | wake asid page status maps => exact wf_execWake asid page status maps s hs
  | retryRecordReplay k j => exact wf_execRetryRecordReplay k j s hs
  | sideLogReplay r => exact wf_execSideLogReplay r s hs
  | trapEntry k => exact wf_execTrapEntry k s hs
  | holdGrant r => exact wf_execHoldGrant r s hs
  | holdExpiry b u slot => exact wf_expire _ _ _ _ hs
  | syncAccessArrival r => exact wf_execSyncAccessArrival r s hs
  | syncRetryResend r => exact wf_execSyncRetryResend r s hs
  | barStep r => exact wf_execBarStep r s hs
  | directoryRegionMerge base size => exact wf_execDirectoryRegionMerge base size s hs
  | mldwExecute c => exact wf_matrixExecute _ _ _ hs
  | mmaExecute c => exact wf_matrixExecute _ _ _ hs
  | maccExecute c => exact wf_matrixExecute _ _ _ hs
  | mcvtExecute c => exact wf_matrixExecute _ _ _ hs
  | cpyExecute c => exact wf_copyExecute _ _ _ hs
  | credExecute c => exact wf_copyExecute _ _ _ hs
  | xcpyExecute c ans => exact wf_linkExecute _ _ _ _ hs
  | xredExecute c ans => exact wf_linkExecute _ _ _ _ hs
  | streamExecute r n => exact wf_execStreamExecute r n s hs
  | engineRestPoint b g => exact wf_execEngineRestPoint b g s hs
  | engineIdleGate b g => exact wf_execEngineIdleGate b g s hs
  | tileFrameRefill asid idx frame => exact wf_execTileFrameRefill asid idx frame s hs
  | tileFrameWriteback asid idx frame => exact wf_execTileFrameWriteback asid idx frame s hs
  | scratchpadBankWake b u bank => exact wf_execScratchpadBankWake b u bank s hs
  | linePull b u => exact wf_execLinePull b u s hs
  | lineTransferArrival k => exact wf_execLineTransferArrival k s hs
  | readyListAgeing k => exact wf_execReadyListAgeing k s hs
  | readyListSwap b => exact wf_execReadyListSwap b s hs
  | firmwareRebalance k b => exact wf_execFirmwareRebalance k b s hs
  | addressSpaceSuspend asid => exact wf_suspendSpace _ _ hs
  | addressSpaceResume asid => exact wf_resumeSpace _ _ hs
  | tlbShootdown asid lo hi maps => exact wf_execTlbShootdown asid lo hi maps s hs
  | asidRetireDiscard asid => exact wf_execAsidRetireDiscard asid s hs
  | iucfgWrite b u v => exact wf_execIucfgWrite b u v s hs
  | registerWrite r v => exact wf_execRegisterWrite r v s hs
  | snpInv line => exact wf_execSnpInv line s hs
  | snpData line => exact wf_execSnpData line s hs
  | snpCur line => exact wf_execSnpCur line s hs
  | memRd pa snp => exact wf_execMemRd pa snp s hs
  | memRdData pa => exact wf_execMemRdData pa s hs
  | memInv pa => exact wf_execMemInv pa s hs
  | memInvNt pa => exact wf_execMemInvNt pa s hs
  | memWr pa data => exact wf_execMemWr pa data s hs
  | memWrPtl pa data mask => exact wf_execMemWrPtl pa data mask s hs
  | memSpecRd pa => exact hs
  | birspS line data => exact wf_execBirspS line data s hs
  | birspI line data => exact wf_execBirspI line data s hs
  | biconflict line => exact hs
  | inboundAtomicop op n pa v cmp => exact wf_execInboundAtomicop op n pa v cmp s hs
  | atomicopCompletion r ok old => exact wf_execAtomicopCompletion r ok old s hs
  | inboundLinkAccess x => exact wf_execInboundLinkAccess x s hs
  | linkRefusal r => exact wf_execLinkRefusal r s hs
  | linkPortDrop port => exact hs
  | linkDownTimeout c => exact wf_execLinkDownTimeout c s hs
  | llcContextPartitionResize steps => exact wf_execLlcContextPartitionResize steps s hs
  | cacheWayGate lvl way off => exact wf_execCacheWayGate lvl way off s hs
  | doorbellKick fn off width v => exact wf_execDoorbellKick fn off width v s hs
  | qslotsWrite fn v => exact wf_execQslotsWrite fn v s hs
  | queueCreate fn qid x => exact wf_execQueueCreate fn qid x s hs
  | queueDestroy fn qid => exact wf_execQueueDestroy fn qid s hs
  | queueSlotEvaluate fn => exact wf_execQueueSlotEvaluate fn s hs
  | launch fn qid => exact wf_execLaunch fn qid s hs
  | launchCrewPlace die fn qid => exact wf_execLaunchCrewPlace die fn qid s hs
  | launchComplete slot => exact wf_execLaunchComplete slot s hs
  | copy fn qid => exact wf_execCopy fn qid s hs
  | wait fn qid => exact wf_execWait fn qid s hs
  | waitReread fn qid => exact wf_execWaitReread fn qid s hs
  | signal fn qid => exact wf_execSignal fn qid s hs
  | barrier fn qid => exact wf_execBarrier fn qid s hs
  | dependenceResolve fn qid => exact wf_execDependenceResolve fn qid s hs
  | queueFreeze fn qid => exact wf_execQueueFreeze fn qid s hs
  | queueHangTimeout fn qid => exact wf_execQueueHangTimeout fn qid s hs
  | threadCancel k => exact wf_execThreadCancel k s hs
  | timeSliceExpiry fn => exact wf_execTimeSliceExpiry fn s hs
  | setHaltRequest set => exact wf_requestHalt _ _ hs
  | setRelease set => exact wf_execSetRelease set s hs
  | powerModeChange m => exact wf_execPowerModeChange m s hs
  | clockStepDown => exact wf_execClockStepDown s hs
  | clockStepUp => exact wf_execClockStepUp s hs
  | thermalThrottle => exact wf_execThermalThrottle s hs
  | thermalTrip => exact wf_execThermalTrip s hs
  | computeDieReset d => exact wf_resetDie _ _ hs
  | moduleFatal cause => exact wf_execModuleFatal cause s hs
  | powerOnReset => exact wf_execPowerOnReset s hs
  | patrolScrub => exact wf_execPatrolScrub s hs
  | linkFlitReplay socket => exact wf_execLinkFlitReplay socket s hs
  | recoveryImageLoad ok => exact wf_execRecoveryImageLoad ok s hs
  | mctpManagementMessage m => exact wf_execMctpManagementMessage m s hs
  | firmwareContextWrite k word v => exact wf_execFirmwareContextWrite k word v s hs
  | firmwareServiceThreadCreate asid x => exact wf_execFirmwareServiceThreadCreate asid x s hs
  | addressSpaceCreate x => exact wf_execAddressSpaceCreate x s hs
  | scratchpadBankPowerDown b u bank => exact wf_execScratchpadBankPowerDown b u bank s hs
  | computeDieResetComplete d => exact wf_execComputeDieResetComplete d s hs
  | linkPortUp port => exact wf_execLinkPortUp port s hs
  | hostMemoryCompletion r line => exact wf_execHostMemoryCompletion r line s hs
  | peerAcknowledgement r v => exact wf_execPeerAcknowledgement r v s hs
  | inboundWindowTableWrite n w0 w1 w2 => exact wf_execInboundWindowTableWrite n w0 w1 w2 s hs
  | configurationRequest => exact wf_execConfigurationRequest s hs
  | exclusiveModeSelect on sliceMs => exact wf_execExclusiveModeSelect on sliceMs s hs
  | getVersion => exact wf_execGetVersion s hs
  | getCapabilities => exact wf_spdmRow _ _ _ _ hs
  | negotiateAlgorithms p384 sha384 => exact wf_execNegotiateAlgorithms p384 sha384 s hs
  | getDigests => exact wf_spdmRow _ _ _ _ hs
  | getCertificate slot => exact wf_execGetCertificate slot s hs
  | challenge slot => exact wf_execChallenge slot s hs
  | getMeasurements idx => exact wf_execGetMeasurements idx s hs
  | keyExchange => exact wf_spdmRow _ _ _ _ hs
  | finish => exact wf_spdmRow _ _ _ _ hs
  | endSession => exact wf_execEndSession s hs

/-! The step (Machine/Step.lean). -/

theorem wf_issueCycle (b u : Nat) (s : State) (hs : Memory.wf s.mem) : GoesWf (issueCycle b u s) :=
  wf_andThen _ _ (wf_exec _ _ (wf_openIssue s b u hs)) fun s1 hs1 => by
    cases s1.run.ir with
    | none => exact hs1
    | some i => exact wf_exec i _ hs1

theorem wf_runMove (m : Move) (s : State) (hs : Memory.wf s.mem) : GoesWf (runMove m s) := by
  cases m with
  | issue b u => exact wf_issueCycle b u s hs
  | event i => exact wf_exec i _ hs
  | idle n => exact wf_passTime s n hs

theorem wf_step (s : State) (hs : Memory.wf s.mem) : GoesWf (step s) := by
  unfold step
  split
  · exact wf_runMove _ _ hs
  · exact wf_runMove _ _ hs

/-- Settles O60: every function that an instruction, an event or a step writes memory through keeps the canonical form (`wf_exec`,
`wf_step`). -/
theorem stepKeepsMemory : Obligations.StepKeepsMemory := by
  unfold Obligations.StepKeepsMemory
  constructor
  · intro i s s' hs h
    have hw := wf_exec i s hs
    rwa [h] at hw
  · intro s s' hs h
    have hw := wf_step s hs
    rwa [h] at hw

end Sys2Proof.Machine
end

section
/-! Issue units and sets: what evicting a line, halting a unit and letting it go on leave as it is. -/

namespace Sys2Proof.Machine
open Sys2Proof.Forms

/-! Evicting lines (R340). -/

theorem useLeaf_mmu {s s1 : State} {e : TlbEnt} {k : Want} {a : Nat} {p : Phys} (h : useLeaf s e k a = .ok p s1) : s1.mmu = s.mmu := by
  unfold useLeaf at h
  grind -ring -linarith -order [markPte]

theorem mem_tlbAdd {s : State} {x e : TlbEnt} (h : e ∈ (tlbAdd s x).mmu.tlb) : e ∈ s.mmu.tlb ∨ e = x := by
  simp only [tlbAdd, List.mem_append, List.mem_singleton] at h
  refine h.imp_left fun h => ?_
  split at h
  · exact h
  · split at h
    · exact List.mem_of_mem_erase h
    · exact h

/-- A translation at a bench's TLB caches in that TLB only (R342). -/
theorem mem_tlb_of_translate_bench {s s1 : State} {b : Nat} {asid : BitVec 16} {k : Want} {va : Word} {p : Phys}
    (h : translate s (.bench b) asid k va = .ok p s1) (e : TlbEnt) (he : e ∈ s1.mmu.tlb) : e ∈ s.mmu.tlb ∨ e.loc = .bench b := by
  unfold translate at h
  dsimp only [tlbBack, Option.bind_none] at h
  split at h
  · cases h
  split at h
  · cases h
  split at h
  · cases h
  split at h
  · exact .inl (useLeaf_mmu h ▸ he)
  split at h
  · cases h
  · cases h
  · cases h
  · cases h
  · cases h
  split at h
  · cases h
  rw [useLeaf_mmu h] at he
  exact (mem_tlbAdd he).imp_right (congrArg TlbEnt.loc)

/-- What evicting lines leaves: the configuration of the units, and the TLBs of the units gain no entry. -/
structure EvictKeeps (s s' : State) : Prop where
  cfg : ∀ b u, (getIu s' b u).cfg = (getIu s b u).cfg
  flight : s'.flight = s.flight
  eng : s'.eng = s.eng
  queues : s'.queues = s.queues
  spaces : s'.spaces = s.spaces
  fw : s'.fw = s.fw
  pkg : s'.pkg = s.pkg
  tlb : ∀ e ∈ s'.mmu.tlb, e ∈ s.mmu.tlb ∨ ∃ c, e.loc = .bench c

theorem EvictKeeps.refl (s : State) : EvictKeeps s s := ⟨fun _ _ => rfl, rfl, rfl, rfl, rfl, rfl, rfl, fun _ h => .inl h⟩

theorem EvictKeeps.trans {a b c : State} (h : EvictKeeps a b) (g : EvictKeeps b c) : EvictKeeps a c :=
  ⟨fun x y => (g.cfg x y).trans (h.cfg x y), g.flight.trans h.flight, g.eng.trans h.eng, g.queues.trans h.queues,
    g.spaces.trans h.spaces, g.fw.trans h.fw, g.pkg.trans h.pkg, fun e he => (g.tlb e he).elim (h.tlb e) .inr⟩

theorem evictKeeps_onThread (s : State) (k : Key) (f : Thread → Thread) : EvictKeeps s (onThread s k f) :=
  ⟨fun _ _ => rfl, rfl, rfl, rfl, rfl, rfl, rfl, fun _ h => .inl h⟩

theorem evictKeeps_count (s : State) (b u n : Nat) : EvictKeeps s (count s b u n) :=
  ⟨fun x y => ((count_spec s b u n).2.2 x y).1.cfg, rfl, rfl, rfl, rfl, rfl, rfl, fun _ h => .inl h⟩

theorem evictKeeps_withMem (s : State) (m : Mem) : EvictKeeps s { s with mem := m } :=
  ⟨fun _ _ => rfl, rfl, rfl, rfl, rfl, rfl, rfl, fun _ h => .inl h⟩

theorem evictKeeps_translate {s s1 : State} {b : Nat} {asid : BitVec 16} {k : Want} {va : Word} {p : Phys}
    (h : translate s (.bench b) asid k va = .ok p s1) : EvictKeeps s s1 := by
  obtain ⟨he, hi⟩ := translate_keeps h
  refine ⟨fun x y => (hi x y).cfg, ?_, ?_, ?_, ?_, ?_, ?_, fun e h1 => (mem_tlb_of_translate_bench h e h1).imp_right fun h => ⟨b, h⟩⟩ <;>
    rw [he]

theorem evictKeeps_leaveSlot (s : State) (k : Key) : EvictKeeps s (leaveSlot s k) := by
  unfold leaveSlot
  split
  · split
    · exact .refl s
    split
    · next h => exact (evictKeeps_translate h).trans (evictKeeps_withMem _ _)
    · exact .refl s
  · exact .refl s

theorem evictKeeps_evict (s : State) (t : Thread) : EvictKeeps s (evict s t) :=
  ((evictKeeps_count s _ _ _).trans ((evictKeeps_leaveSlot _ _).trans (evictKeeps_onThread _ _ _))).trans (evictKeeps_onThread _ _ _)

theorem evictKeeps_shrinkCl1 (b u n : Nat) (s : State) : EvictKeeps s (shrinkCl1 b u n s) := by
  induction n generalizing s with
  | zero => exact .refl s
  | succ n ih =>
    unfold shrinkCl1
    split
    · exact .refl s
    split
    · exact (evictKeeps_evict s _).trans (ih _)
    split
    · exact (evictKeeps_evict s _).trans (ih _)
    · exact .refl s

/-- Lines that fit stay (R340). -/
theorem shrinkCl1_of_fits (b u n : Nat) (s : State) (h : (cl1Lines s b u).length ≤ cl1Cap (getIu s b u)) : shrinkCl1 b u n s = s := by
  cases n with
  | zero => rfl
  | succ n => simp [shrinkCl1, h]

/-- The state in which `IUCFG_WRITE` looks for lines that no longer fit (R339, R347). -/
def configured (s : State) (b u : Nat) (v : Word) : State :=
  let s0 := onIu s b u fun x => { x with cfg := v &&& 0x8F0000FF }
  if v.getLsbD 7 then s0 else dropIuTlbs s0 b u

theorem getIu_configured (s : State) (b u c w : Nat) (v : Word) :
    getIu (configured s b u v) c w = if c = b ∧ w = u then { getIu s b u with cfg := v &&& 0x8F0000FF } else getIu s c w := by
  have h := getIu_onIu s b u c w (fun x => { x with cfg := v &&& 0x8F0000FF }) fun _ => ⟨rfl, rfl⟩
  rw [← h, configured]
  split <;> rfl

theorem execIucfgWrite_eq (s : State) (b u : Nat) (v : Word) : execIucfgWrite b u v s =
    .next (if (getIu s b u).halted then configured s b u v
      else shrinkCl1 b u (cl1Lines (configured s b u v) b u).length (configured s b u v)) := by
  have h : (getIu (configured s b u v) b u).halted = (getIu s b u).halted := by simp [getIu_configured]
  rw [← h]
  rfl

theorem configured_rest (s : State) (b u : Nat) (v : Word) :
    let s' := configured s b u v
    s'.flight = s.flight ∧ s'.eng = s.eng ∧ s'.queues = s.queues ∧ s'.spaces = s.spaces ∧ s'.fw = s.fw ∧ s'.pkg = s.pkg ∧
      s'.threads = s.threads ∧ s'.mem = s.mem := by
  unfold configured
  split
  · exact ⟨rfl, rfl, rfl, rfl, rfl, rfl, rfl, rfl⟩
  · exact ⟨rfl, rfl, rfl, rfl, rfl, rfl, rfl, rfl⟩

theorem cl1Cap_configured (s : State) (b u : Nat) (v : Word) : cl1Cap (getIu (configured s b u v) b u) =
    if v.getLsbD 7 then cl1Limit { getIu s b u with cfg := v &&& 0x8F0000FF } else 0 := by
  have hb : (v &&& 0x8F0000FF).getLsbD 7 = v.getLsbD 7 := by simp
  simp only [getIu_configured, and_self, if_true, cl1Cap, iuEnabled, hb]

/-- The state after `IUCFG_WRITE`, from the one in which it looks for lines to evict. -/
theorem iucfgWrite_result (s : State) (b u : Nat) (v : Word) : ∃ s', execIucfgWrite b u v s = .next s' ∧
    EvictKeeps (configured s b u v) s' ∧
    ((getIu s b u).halted = true ∨ (cl1Lines s b u).length ≤ (if v.getLsbD 7 then cl1Limit { getIu s b u with cfg := v &&& 0x8F0000FF } else 0) →
      s' = configured s b u v) := by
  refine ⟨_, execIucfgWrite_eq s b u v, ?_, fun h => ?_⟩
  · split
    · exact .refl _
    · exact evictKeeps_shrinkCl1 _ _ _ _
  · split
    · rfl
    · next hh =>
      refine shrinkCl1_of_fits _ _ _ _ ?_
      obtain ⟨-, -, -, -, -, -, ht, -⟩ := configured_rest s b u v
      have hl : cl1Lines (configured s b u v) b u = cl1Lines s b u := by simp only [cl1Lines, ht]
      rw [hl, cl1Cap_configured]
      exact h.resolve_left hh

/-! Halting a unit (R398). -/

/-- What halting units and letting them go on leaves: everything but threads, memory, caches, units and the count of free values. -/
structure UnitRest (s s' : State) : Prop where
  flight : s'.flight = s.flight
  eng : s'.eng = s.eng
  queues : s'.queues = s.queues
  spaces : s'.spaces = s.spaces
  fw : s'.fw = s.fw
  now : s'.run.now = s.run.now

theorem UnitRest.refl (s : State) : UnitRest s s := ⟨rfl, rfl, rfl, rfl, rfl, rfl⟩

theorem UnitRest.trans {a b c : State} (h : UnitRest a b) (g : UnitRest b c) : UnitRest a c :=
  ⟨g.flight.trans h.flight, g.eng.trans h.eng, g.queues.trans h.queues, g.spaces.trans h.spaces, g.fw.trans h.fw, g.now.trans h.now⟩

/-- Two issue units alike in what halts them and in the set that they belong to (R397, R398). -/
structure HaltSame (x y : Iu) : Prop where
  halted : x.halted = y.halted
  haltDue : x.haltDue = y.haltDue
  dbg : x.dbg = y.dbg

/-- What the lines of a unit do when it halts or goes on leaves: the rest, and every unit's halt. -/
structure LinesGo (s s' : State) : Prop where
  rest : UnitRest s s'
  iu : ∀ b u, HaltSame (getIu s' b u) (getIu s b u)

theorem LinesGo.refl (s : State) : LinesGo s s := ⟨.refl s, fun _ _ => ⟨rfl, rfl, rfl⟩⟩

theorem LinesGo.trans {a b c : State} (h : LinesGo a b) (g : LinesGo b c) : LinesGo a c :=
  ⟨h.rest.trans g.rest, fun x y => ⟨(g.iu x y).halted.trans (h.iu x y).halted, (g.iu x y).haltDue.trans (h.iu x y).haltDue,
    (g.iu x y).dbg.trans (h.iu x y).dbg⟩⟩

theorem linesGo_foldl {α : Type} (f : State → α → State) (hf : ∀ s x, LinesGo s (f s x)) (l : List α) (s : State) :
    LinesGo s (l.foldl f s) :=
  List.foldlRecOn (motive := LinesGo s) l f (.refl s) fun s1 h x _ => h.trans (hf s1 x)

theorem linesGo_onThread (s : State) (k : Key) (f : Thread → Thread) : LinesGo s (onThread s k f) :=
  ⟨⟨rfl, rfl, rfl, rfl, rfl, rfl⟩, fun _ _ => ⟨rfl, rfl, rfl⟩⟩

theorem linesGo_setThread (s : State) (t : Thread) : LinesGo s (setThread s t) :=
  ⟨⟨rfl, rfl, rfl, rfl, rfl, rfl⟩, fun _ _ => ⟨rfl, rfl, rfl⟩⟩

theorem linesGo_joinReady (s : State) (t : Thread) : LinesGo s (joinReady s t) :=
  ⟨⟨rfl, rfl, rfl, rfl, rfl, rfl⟩, fun _ _ => ⟨rfl, rfl, rfl⟩⟩

theorem linesGo_pauseHolds (s : State) (t : Thread) : LinesGo s (pauseHolds s t) := by
  obtain ⟨f, he, -⟩ := pauseHolds_eq s t
  refine ⟨he ▸ ⟨rfl, rfl, rfl, rfl, rfl, rfl⟩, fun b u => ?_⟩
  rw [he]
  simp only [getIu]
  rw [find?_map _ (fun x : Iu => { x with holds := x.holds.map f }) _ fun _ => rfl]
  cases s.ius.find? fun x => x.bench == b && x.iu == u with
  | none => exact ⟨rfl, rfl, rfl⟩
  | some x => exact ⟨rfl, rfl, rfl⟩

theorem linesGo_refresh (s : State) (k : Key) : LinesGo s (refresh s k) := by
  unfold refresh
  split
  · exact .refl s
  dsimp only
  split
  · split
    · exact (linesGo_pauseHolds s _).trans (linesGo_setThread _ _)
    · exact (linesGo_pauseHolds s _).trans (linesGo_joinReady _ _)
  · exact (linesGo_pauseHolds s _).trans (linesGo_setThread _ _)

theorem linesGo_onIu (s : State) (b u : Nat) (f : Iu → Iu) (hk : ∀ x, (f x).bench = x.bench ∧ (f x).iu = x.iu)
    (hf : ∀ x, HaltSame (f x) x) : LinesGo s (onIu s b u f) := by
  refine ⟨⟨rfl, rfl, rfl, rfl, rfl, rfl⟩, fun c w => ?_⟩
  rw [getIu_onIu _ _ _ _ _ _ hk]
  split
  · next h => exact h.1 ▸ h.2 ▸ hf _
  · exact ⟨rfl, rfl, rfl⟩

theorem flushHold_ius (s : State) (b u : Nat) (h : HoldReg) : (flushHold s b u h).ius = s.ius :=
  List.foldlRecOn (motive := fun s1 : State => s1.ius = s.ius) h.bytes _ rfl fun _ h _ _ => h

theorem linesGo_flushHold (s : State) (b u : Nat) (h : HoldReg) : LinesGo s (flushHold s b u h) := by
  have hk := flushHold_keeps s b u h
  refine ⟨⟨hk.flight, hk.eng, hk.queues, hk.spaces, hk.fw, congrArg Run.now hk.run⟩, fun c w => ?_⟩
  rw [getIu_of_ius _ _ (flushHold_ius s b u h) hk.pkg]
  exact ⟨rfl, rfl, rfl⟩

theorem linesGo_endHoldAt (s : State) (b u i : Nat) : LinesGo s (endHoldAt s b u i) := by
  unfold endHoldAt
  split
  · exact .refl s
  · next h _ =>
    exact ((linesGo_flushHold s b u h).trans (linesGo_onIu _ b u (fun x => { x with holds := x.holds.set i none })
      (fun _ => ⟨rfl, rfl⟩) fun _ => ⟨rfl, rfl, rfl⟩)).trans (linesGo_onThread _ _ _)

theorem linesGo_endHolds (s : State) (k : Key) : LinesGo s (endHolds s k) :=
  linesGo_foldl _ (fun _ _ => linesGo_endHoldAt _ _ _ _) _ _

theorem getIu_onIu_same (s : State) (b u : Nat) (f : Iu → Iu) (hf : ∀ x, (f x).bench = x.bench ∧ (f x).iu = x.iu) :
    getIu (onIu s b u f) b u = f (getIu s b u) := by
  rw [getIu_onIu _ _ _ _ _ _ hf, if_pos ⟨rfl, rfl⟩]

/-- A step changes the halt of no unit but one. -/
structure TouchesUnit (s s' : State) (p : Nat × Nat) : Prop where
  rest : UnitRest s s'
  others : ∀ c w, ¬ (c = p.1 ∧ w = p.2) → HaltSame (getIu s' c w) (getIu s c w)

theorem touchesUnit_onIu {s s1 : State} (h : LinesGo s s1) (b u : Nat) (f : Iu → Iu)
    (hf : ∀ x, (f x).bench = x.bench ∧ (f x).iu = x.iu) : TouchesUnit s (onIu s1 b u f) (b, u) :=
  ⟨h.rest.trans ⟨rfl, rfl, rfl, rfl, rfl, rfl⟩, fun c w hn => by rw [getIu_onIu _ _ _ _ _ _ hf, if_neg hn]; exact h.iu c w⟩

/-- Steps at the units of a list, one after another: what each does to its own unit holds of every unit of the list at the end. -/
theorem foldl_touchesUnit {P : Iu → Prop} {n : Nat} {g : State → Nat × Nat → State} (hP : ∀ x y, HaltSame x y → P y → P x)
    (ht : ∀ s p, TouchesUnit s (g s p) p) (hg : ∀ s p, s.run.now = n → P (getIu (g s p) p.1 p.2)) (l : List (Nat × Nat))
    (s : State) (hn : s.run.now = n) :
    UnitRest s (l.foldl g s) ∧ ∀ p, p ∈ l ∨ P (getIu s p.1 p.2) → P (getIu (l.foldl g s) p.1 p.2) := by
  induction l generalizing s with
  | nil => exact ⟨.refl s, fun p h => h.resolve_left List.not_mem_nil⟩
  | cons y l ih =>
    have hy := ht s y
    obtain ⟨hr, hp⟩ := ih (g s y) (hy.rest.now.trans hn)
    refine ⟨hy.rest.trans hr, fun p h => hp p ?_⟩
    by_cases hpy : p.1 = y.1 ∧ p.2 = y.2
    · exact .inr (by rw [hpy.1, hpy.2]; exact hg s y hn)
    · rcases h with h | h
      · exact .inl ((List.mem_cons.mp h).resolve_left fun e => hpy ⟨congrArg _ e, congrArg _ e⟩)
      · exact .inr (hP _ _ (hy.others _ _ hpy) h)

/-! Halting a unit (R397, R398). -/

/-- Halted, or to halt by a time. -/
def haltsBy (n : Nat) (x : Iu) : Prop := x.halted = true ∨ ∃ d, x.haltDue = some d ∧ d ≤ n

theorem haltsBy_of_haltSame {n : Nat} (x y : Iu) (h : HaltSame x y) (hy : haltsBy n y) : haltsBy n x := by
  unfold haltsBy at *
  rwa [h.halted, h.haltDue]

/-- The halt of one line of a unit. -/
def haltLine (s : State) (k : Key) : State :=
  refresh (onThread (endHolds s k) k fun t => { t with ctx := { t.ctx with dhalt := true }, marked := true }) k

theorem linesGo_haltLine (s : State) (k : Key) : LinesGo s (haltLine s k) :=
  ((linesGo_endHolds s k).trans (linesGo_onThread _ _ _)).trans (linesGo_refresh _ _)

theorem haltIu_eq (s : State) (b u : Nat) : ∃ l : List Key,
    haltIu s b u = onIu (l.foldl haltLine s) b u fun x => { x with halted := true, haltDue := none } := ⟨_, rfl⟩

theorem touchesUnit_haltIu (s : State) (b u : Nat) : TouchesUnit s (haltIu s b u) (b, u) := by
  obtain ⟨l, he⟩ := haltIu_eq s b u
  exact he ▸ touchesUnit_onIu (linesGo_foldl _ linesGo_haltLine l s) b u _ fun _ => ⟨rfl, rfl⟩

theorem halted_haltIu (s : State) (b u : Nat) : (getIu (haltIu s b u) b u).halted = true := by
  obtain ⟨l, he⟩ := haltIu_eq s b u
  rw [he, getIu_onIu_same _ _ _ _ (by intro x; exact ⟨rfl, rfl⟩)]

/-- A member halts at once or is due within the bound of its distance (R398). -/
theorem haltMember_eq (s : State) (b : Nat) (y : Nat × Nat) : ∃ n, n ≤ 1024 ∧
    let s1 := { s with run := { s.run with fresh := s.run.fresh + 1 } }
    haltMember s b y = if n == 0 then haltIu s1 y.1 y.2 else onIu s1 y.1 y.2 fun x => { x with haltDue := some (s1.run.now + n) } := by
  refine ⟨_, ?_, rfl⟩
  split
  · exact Nat.le_trans (Nat.le_of_lt_succ (Nat.mod_lt _ (Nat.succ_pos _))) (by decide)
  · exact Nat.le_of_lt_succ (Nat.mod_lt _ (Nat.succ_pos _))

theorem linesGo_fresh (s : State) (n : Nat) : LinesGo s { s with run := { s.run with fresh := n } } :=
  ⟨⟨rfl, rfl, rfl, rfl, rfl, rfl⟩, fun _ _ => ⟨rfl, rfl, rfl⟩⟩

theorem touchesUnit_haltMember (s : State) (b : Nat) (y : Nat × Nat) : TouchesUnit s (haltMember s b y) y := by
  obtain ⟨n, -, he⟩ := haltMember_eq s b y
  rw [he]
  split
  · have h := touchesUnit_haltIu { s with run := { s.run with fresh := s.run.fresh + 1 } } y.1 y.2
    exact ⟨(linesGo_fresh s _).rest.trans h.rest, h.others⟩
  · exact touchesUnit_onIu (linesGo_fresh s _) _ _ _ fun _ => ⟨rfl, rfl⟩

theorem haltsBy_haltMember (s : State) (b : Nat) (y : Nat × Nat) : haltsBy (s.run.now + 1024) (getIu (haltMember s b y) y.1 y.2) := by
  obtain ⟨n, hn, he⟩ := haltMember_eq s b y
  rw [he]
  split
  · exact .inl (halted_haltIu _ _ _)
  · rw [getIu_onIu_same _ _ _ _ (by intro x; exact ⟨rfl, rfl⟩)]
    exact .inr ⟨_, rfl, Nat.add_le_add_left hn _⟩

theorem getSet_putSet (s : State) (x : SetCtl) : getSet (putSet s x) x.n = x := by
  simp only [getSet, putSet]
  rw [find?_upsert_same _ _ _ (by simp)]
  rfl

theorem getSet_n (s : State) (n : BitVec 6) : (getSet s n).n = n := by
  unfold getSet
  cases h : s.fw.sets.find? fun x => x.n == n with
  | none => rfl
  | some x => simpa using List.find?_some h

theorem getSet_of_sets {s s' : State} (h : s'.fw.sets = s.fw.sets) (n : BitVec 6) : getSet s' n = getSet s n := by simp [getSet, h]

/-- The units of a set (R397). -/
def members (s : State) (n : BitVec 6) : List (Nat × Nat) := (s.ius.filter fun y => setOfIu y == some n).map fun y => (y.bench, y.iu)

theorem mem_members {s : State} {n : BitVec 6} {x : Iu} (hx : x ∈ s.ius) (hn : setOfIu x = some n) :
    (x.bench, x.iu) ∈ members s n :=
  List.mem_map_of_mem (List.mem_filter.mpr ⟨hx, by simp [hn]⟩)

/-- A trigger that names no thread halts the set and each of its units in time, and leaves the rest (R397, R398). -/
theorem triggerSet_spec (s : State) (n : BitVec 6) (trig : BitVec 3) (b u : Nat) (hh : (getSet s n).halted = false) :
    let s' := triggerSet s n trig b u none
    (getSet s' n).halted = true ∧ (getSet s' n).trig = trig ∧
      (∀ x ∈ s.ius, setOfIu x = some n → haltsBy (s.run.now + 1024) (getIu s' x.bench x.iu)) ∧
      s'.flight = s.flight ∧ s'.spaces = s.spaces ∧ s'.eng = s.eng ∧ s'.queues = s.queues := by
  let x : SetCtl := { getSet s n with halted := true, trig := trig, tbench := BitVec.ofNat 10 b, tiu := BitVec.ofNat 8 u }
  obtain ⟨hr, hu⟩ := foldl_touchesUnit haltsBy_of_haltSame (touchesUnit_haltMember · b)
    (fun s p h => h ▸ haltsBy_haltMember s b p) (members s n) (putSet s x) rfl
  have hx : getSet (putSet s x) n = x := by
    have h := getSet_putSet s x
    rwa [show x.n = n from getSet_n s n] at h
  unfold triggerSet
  simp only [hh, Bool.false_eq_true, if_false]
  have hs : getSet ((members s n).foldl (haltMember · b) (putSet s x)) n = x :=
    (getSet_of_sets (congrArg Firmware.sets hr.fw) n).trans hx
  refine ⟨congrArg SetCtl.halted hs, congrArg SetCtl.trig hs, fun y hy hn => ?_, hr.flight, hr.spaces, hr.eng, hr.queues⟩
  exact hu (y.bench, y.iu) (.inl (mem_members hy hn))

theorem triggerSet_halted (s : State) (n : BitVec 6) (trig : BitVec 3) (b u : Nat) (k : Option Key) (h : (getSet s n).halted = true) :
    triggerSet s n trig b u k = s := by
  simp [triggerSet, h]

/-! Letting a unit go on (R398). -/

/-- Neither halted nor to halt. -/
def goesOn (x : Iu) : Prop := x.halted = false ∧ x.haltDue = none

theorem goesOn_of_haltSame (x y : Iu) (h : HaltSame x y) (hy : goesOn y) : goesOn x :=
  ⟨h.halted.trans hy.1, h.haltDue.trans hy.2⟩

/-- A line that goes on. -/
def freed (t : Thread) : Thread := { t with ctx := { t.ctx with dhalt := false }, marked := false }

/-- One line of a unit goes on. -/
def freeLine (s : State) (k : Key) : State := refresh (onThread s k freed) k

theorem linesGo_freeLine (s : State) (k : Key) : LinesGo s (freeLine s k) := (linesGo_onThread _ _ _).trans (linesGo_refresh _ _)

/-- The marked lines in a unit's CL1. -/
def markedLines (s : State) (b u : Nat) : List Key :=
  (s.threads.filter fun t => t.bench == b && t.loc == .placed (.cl1 u) && t.marked).map (·.key)

theorem unhaltIu_eq (s : State) (b u : Nat) :
    unhaltIu s b u = onIu ((markedLines s b u).foldl freeLine s) b u fun x => { x with halted := false, haltDue := none } := rfl

theorem touchesUnit_unhaltIu (s : State) (b u : Nat) : TouchesUnit s (unhaltIu s b u) (b, u) :=
  touchesUnit_onIu (linesGo_foldl _ linesGo_freeLine (markedLines s b u) s) b u (fun x => { x with halted := false, haltDue := none })
    fun _ => ⟨rfl, rfl⟩

theorem goesOn_unhaltIu (s : State) (b u : Nat) : goesOn (getIu (unhaltIu s b u) b u) := by
  rw [unhaltIu_eq, getIu_onIu_same _ _ _ _ (by intro x; exact ⟨rfl, rfl⟩)]
  exact ⟨rfl, rfl⟩

theorem dbg_unhaltIu (s : State) (b u : Nat) : (getIu (unhaltIu s b u) b u).dbg = (getIu s b u).dbg := by
  rw [unhaltIu_eq, getIu_onIu_same _ _ _ _ (by intro x; exact ⟨rfl, rfl⟩)]
  exact ((linesGo_foldl _ linesGo_freeLine (markedLines s b u) s).iu b u).dbg

/-- A thread's line while sets are released: as it was and marked, or without `DHALT` and unmarked; `WKIND` is derived (R27). -/
structure Released (t y : Thread) : Prop where
  key : y.key = t.key
  bench : y.bench = t.bench
  loc : y.loc = t.loc
  trap : y.trap = t.trap
  ctx : (y.marked = true ∧ y.ctx = { t.ctx with wkind := y.ctx.wkind }) ∨
    (y.marked = false ∧ y.ctx = { t.ctx with dhalt := false, wkind := y.ctx.wkind })

/-- `refresh` changes the line of its own thread only. -/
theorem findThread_refresh_other (s : State) (j k : Key) (h : k ≠ j) : findThread (refresh s j) k = findThread s k := by
  unfold refresh
  split
  · rfl
  · next t ht =>
    have hp : findThread (pauseHolds s t) k = findThread s k := by
      obtain ⟨f, he, -⟩ := pauseHolds_eq s t
      rw [he]
      rfl
    have hk : k ≠ t.key := fun e => h (e.trans (findThread_key ht))
    rw [← hp]
    dsimp only
    split
    · split
      · exact findThread_setThread_other (pauseHolds s t) _ k hk
      · exact findThread_setThread_other (takeSeq (pauseHolds s t)).2 _ k hk
    · exact findThread_setThread_other (pauseHolds s t) _ k hk

theorem freeLine_self {s : State} {t y : Thread} (hf : findThread s t.key = some y) (hc : inCl1 t = true) (hy : Released t y) :
    ∃ z, findThread (freeLine s t.key) t.key = some z ∧ Released t z ∧ z.marked = false := by
  rw [← hy.key] at hf ⊢
  have hx : findThread (onThread s y.key freed) y.key = some (freed y) := by
    rw [findThread_onThread _ _ freed fun _ h => h, hf]
    rfl
  have hl : inCl1 (freed y) = true := by
    rw [← hc]
    simp only [inCl1, freed, hy.loc]
  obtain ⟨hz, -⟩ := refresh_cl1 (onThread s y.key freed) (freed y) hx hl
  refine ⟨_, hz, ⟨hy.key, hy.bench, hy.loc, hy.trap, .inr ⟨rfl, ?_⟩⟩, rfl⟩
  rcases hy.ctx with ⟨-, h⟩ | ⟨-, h⟩
  · simp only [freed]
    rw [h]
  · simp only [freed]
    rw [h]

theorem freeLine_other (s : State) (j k : Key) (h : k ≠ j) : findThread (freeLine s j) k = findThread s k :=
  (findThread_refresh_other _ j k h).trans (findThread_onThread_other _ _ _ _ h fun _ h => h)

/-- Lines go on one after another: a line in a CL1 stays released as far as it was, and is released when it is among them. -/
theorem foldl_freeLine {t : Thread} (hc : inCl1 t = true) (l : List Key) {s : State} {y : Thread} (hf : findThread s t.key = some y)
    (hy : Released t y) :
    ∃ z, findThread (l.foldl freeLine s) t.key = some z ∧ Released t z ∧ (t.key ∈ l ∨ y.marked = false → z.marked = false) := by
  induction l generalizing s y with
  | nil => exact ⟨y, hf, hy, fun h => h.resolve_left List.not_mem_nil⟩
  | cons k l ih =>
    by_cases hk : t.key = k
    · subst hk
      obtain ⟨x, h1, h2, h3⟩ := freeLine_self hf hc hy
      obtain ⟨z, h4, h5, h6⟩ := ih h1 h2
      exact ⟨z, h4, h5, fun _ => h6 (.inr h3)⟩
    · obtain ⟨z, h4, h5, h6⟩ := ih ((freeLine_other s k t.key hk).trans hf) hy
      exact ⟨z, h4, h5, fun h => h6 (h.imp_left fun h => (List.mem_cons.mp h).resolve_left hk)⟩

/-- A unit goes on: a line of its CL1 is released. -/
theorem unhaltIu_line {t : Thread} {u : Nat} (hl : t.loc = .placed (.cl1 u)) (p : Nat × Nat) {s : State} {y : Thread}
    (hf : findThread s t.key = some y) (hy : Released t y) :
    ∃ z, findThread (unhaltIu s p.1 p.2) t.key = some z ∧ Released t z ∧
      (p = (t.bench, u) ∨ y.marked = false → z.marked = false) := by
  have hc : inCl1 t = true := by simp [inCl1, hl]
  obtain ⟨z, h1, h2, h3⟩ := foldl_freeLine hc (markedLines s p.1 p.2) hf hy
  refine ⟨z, h1, h2, fun h => h3 ?_⟩
  cases hm : y.marked with
  | false => exact .inr rfl
  | true =>
    rcases h with rfl | h
    · refine .inl (hy.key ▸ List.mem_map_of_mem (List.mem_filter.mpr ⟨List.mem_of_find?_eq_some hf, ?_⟩))
      simp [hy.bench, hy.loc, hl, hm]
    · exact absurd (hm.symm.trans h) (by decide)

theorem foldl_unhaltIu_line {t : Thread} {u : Nat} (hl : t.loc = .placed (.cl1 u)) (l : List (Nat × Nat)) {s : State} {y : Thread}
    (hf : findThread s t.key = some y) (hy : Released t y) :
    ∃ z, findThread (l.foldl (fun s x => unhaltIu s x.1 x.2) s) t.key = some z ∧ Released t z ∧
      ((t.bench, u) ∈ l ∨ y.marked = false → z.marked = false) := by
  induction l generalizing s y with
  | nil => exact ⟨y, hf, hy, fun h => h.resolve_left List.not_mem_nil⟩
  | cons p l ih =>
    obtain ⟨x, h1, h2, h3⟩ := unhaltIu_line hl p hf hy
    obtain ⟨z, h4, h5, h6⟩ := ih h1 h2
    refine ⟨z, h4, h5, fun h => h6 ?_⟩
    rcases h with h | h
    · exact (List.mem_cons.mp h).symm.imp_right fun e => h3 (.inl e.symm)
    · exact .inr (h3 (.inr h))

/-- A set that is halted is released: its units and their marked lines go on (R398). -/
theorem releaseSet_spec (s : State) (n : BitVec 6) (hh : (getSet s n).halted = true) :
    (getSet (releaseSet s n) n).halted = false ∧
      (∀ x ∈ s.ius, setOfIu x = some n → goesOn (getIu (releaseSet s n) x.bench x.iu)) ∧
      (∀ t u, findThread s t.key = some t → t.loc = .placed (.cl1 u) → t.marked = true →
        (∃ x ∈ s.ius, x.bench = t.bench ∧ x.iu = u ∧ setOfIu x = some n) →
        ∃ y, findThread (releaseSet s n) t.key = some y ∧ Released t y ∧ y.marked = false) := by
  let s1 := putSet s { getSet s n with halted := false }
  have he : releaseSet s n = (members s n).foldl (fun s x => unhaltIu s x.1 x.2) s1 := by
    simp [releaseSet, hh, members, s1]
  obtain ⟨hr, hu⟩ := foldl_touchesUnit goesOn_of_haltSame (g := fun s x => unhaltIu s x.1 x.2)
    (fun s p => touchesUnit_unhaltIu s p.1 p.2) (fun s p _ => goesOn_unhaltIu s p.1 p.2)
    (members s n) s1 rfl
  rw [← he] at hr hu
  refine ⟨?_, fun x hx hn => hu (x.bench, x.iu) (.inl (mem_members hx hn)), fun t u hf hl hm ⟨x, hx, hb, hi, hn⟩ => ?_⟩
  · have h := getSet_putSet s { getSet s n with halted := false }
    rw [show ({ getSet s n with halted := false } : SetCtl).n = n from getSet_n s n] at h
    rw [getSet_of_sets (congrArg Firmware.sets hr.fw), h]
  · obtain ⟨z, h1, h2, h3⟩ := foldl_unhaltIu_line hl (members s n) (s := s1) hf ⟨rfl, rfl, rfl, rfl, .inl ⟨hm, rfl⟩⟩
    exact ⟨z, he ▸ h1, h2, h3 (.inl (hb ▸ hi ▸ mem_members hx hn))⟩

/-! The register writes (R44, R311, R348, R397). -/

theorem configured_mmu (s : State) (b u : Nat) (v : Word) (h : v.getLsbD 7 = true) : (configured s b u v).mmu = s.mmu := by
  simp [configured, h]

theorem mem_tlb_configured (s : State) (b u : Nat) (v : Word) (h : v.getLsbD 7 = false) (e : TlbEnt)
    (he : e ∈ (configured s b u v).mmu.tlb) : e.loc ≠ .data b u ∧ e.loc ≠ .instr b u := by
  simp only [configured, h, Bool.false_eq_true, if_false, dropIuTlbs, List.mem_filter, Bool.and_eq_true, bne_iff_ne] at he
  exact he.2

/-- `IUCFG_WRITE` (R6, R339, R340, R347). -/
theorem iucfgWrite_spec (s : State) (b u : Nat) (v : Word) :
    ∃ s', exec (.iucfgWrite b u v) s = .next s' ∧ (getIu s' b u).cfg = v &&& 0x8F0000FF ∧
      (∀ c w, ¬ (c = b ∧ w = u) → (getIu s' c w).cfg = (getIu s c w).cfg) ∧ s'.flight = s.flight ∧ s'.eng = s.eng ∧
      s'.queues = s.queues ∧ s'.spaces = s.spaces ∧ s'.fw = s.fw ∧ s'.pkg = s.pkg ∧
      (v.getLsbD 7 = false → ∀ e ∈ s'.mmu.tlb, e.loc ≠ .data b u ∧ e.loc ≠ .instr b u) ∧
      ((getIu s b u).halted = true ∨ (cl1Lines s b u).length ≤ (if v.getLsbD 7 then cl1Limit { getIu s b u with cfg := v &&& 0x8F0000FF } else 0) →
        s'.threads = s.threads ∧ s'.mem = s.mem ∧ (v.getLsbD 7 = true → s'.mmu = s.mmu)) := by
  obtain ⟨s', he, hk, hf⟩ := iucfgWrite_result s b u v
  obtain ⟨hfl, heng, hq, hsp, hfw, hpkg, ht, hm⟩ := configured_rest s b u v
  refine ⟨s', he, by simp [hk.cfg, getIu_configured], fun c w h => by simp [hk.cfg, getIu_configured, h], hk.flight.trans hfl,
    hk.eng.trans heng, hk.queues.trans hq, hk.spaces.trans hsp, hk.fw.trans hfw, hk.pkg.trans hpkg,
    fun h7 e h1 => ?_, fun h => ?_⟩
  · rcases hk.tlb e h1 with h | ⟨c, h⟩
    · exact mem_tlb_configured s b u v h7 e h
    · simp [h]
  · rw [hf h]
    exact ⟨ht, hm, configured_mmu s b u v⟩

/-- A unit with `IUDBG` written: reserved bits stay 0 (R397). -/
def withDbg (v : Word) (x : Iu) : Iu := { x with dbg := v &&& 0xBF }

/-- Whether a write of `IUDBG` takes a unit that is halted, or to halt, out of its set. -/
def leavesSet (s : State) (b u : Nat) (v : Word) : Bool :=
  let x := getIu (onIu s b u (withDbg v)) b u
  (x.halted || x.haltDue.isSome) && setOfIu x != setOfIu (getIu s b u)

/-- A write of `IUDBG` (R397): a unit that leaves its set goes on. -/
theorem iudbgWrite_spec (s : State) (b u : Nat) (v : Word) :
    let held := (getIu s b u).halted = true ∨ (getIu s b u).haltDue.isSome = true
    let same := setOfIu { getIu s b u with dbg := v &&& 0xBF } = setOfIu (getIu s b u)
    ∃ s', exec (.registerWrite (.iudbg b u) v) s = .next s' ∧ (getIu s' b u).dbg = v &&& 0xBF ∧ s'.mem = s.mem ∧
      (¬ held ∨ same → s' = onIu s b u fun x => { x with dbg := v &&& 0xBF }) ∧
      (held ∧ ¬ same → (getIu s' b u).halted = false ∧ (getIu s' b u).haltDue = none) := by
  intro held same
  have h1 : getIu (onIu s b u (withDbg v)) b u = withDbg v (getIu s b u) := getIu_onIu_same _ _ _ _ fun _ => ⟨rfl, rfl⟩
  have hc : leavesSet s b u v = true ↔ held ∧ ¬ same := by simp [leavesSet, h1, held, same, withDbg]
  refine ⟨if leavesSet s b u v then unhaltIu (onIu s b u (withDbg v)) b u else onIu s b u (withDbg v), rfl, ?_, ?_,
    fun h => if_neg fun hn => h.elim (absurd (hc.mp hn).1) (hc.mp hn).2, fun h => ?_⟩
  · split
    · exact (dbg_unhaltIu _ b u).trans (congrArg Iu.dbg h1)
    · exact congrArg Iu.dbg h1
  · split
    · exact unhaltIu_mem _ b u
    · rfl
  · rw [if_pos (hc.mpr h)]
    exact goesOn_unhaltIu _ b u

theorem mem_reserve (s : State) (first frames : Nat) (on : Bool) (r : Nat × Nat) :
    r ∈ (reserve s first frames on).mmu.reserved ↔ (r ∈ s.mmu.reserved ∧ r ≠ (first, frames)) ∨ (on = true ∧ r = (first, frames)) := by
  cases on with
  | false => simp [reserve]
  | true => simp [reserve]

/-- A write of `SETCTL` sets the enables; its other bits ask for a release or a halt (R397). -/
theorem setctlWrite_spec (s : State) (n : BitVec 6) (v : Word) :
    let s1 := putSet s { getSet s n with frzh := v.getLsbD 2, steph := v.getLsbD 1, brkh := v.getLsbD 0 }
    let i : Instr := .registerWrite (.setctl n) v
    (v.getLsbD 63 = false → v.getLsbD 3 = false → exec i s = .next s1) ∧
    (v.getLsbD 63 = true → v.getLsbD 3 = false → exec i s = exec (.setRelease n) s1) ∧
    (v.getLsbD 63 = false → v.getLsbD 3 = true → exec i s = exec (.setHaltRequest n) s1) := by
  intro s1 i
  let s2 := if v.getLsbD 63 then releaseSet s1 n else s1
  have he : exec i s = .next (if v.getLsbD 3 then requestHalt s2 n else s2) := rfl
  refine ⟨fun h g => ?_, fun h g => ?_, fun h g => ?_⟩
  · simp only [he, s2, h, g, Bool.false_eq_true, if_false]
  · simp only [he, s2, h, g, Bool.false_eq_true, if_false, if_true]
    rfl
  · simp only [he, s2, h, g, Bool.false_eq_true, if_false, if_true]
    rfl

/-- `SET_HALT_REQUEST` (R397, R398). -/
theorem setHaltRequest_spec (s : State) (n : BitVec 6) :
    ((getSet s n).halted = false → ∃ s', exec (.setHaltRequest n) s = .next s' ∧ (getSet s' n).halted = true ∧ (getSet s' n).trig = 4 ∧
      (∀ x ∈ s.ius, setOfIu x = some n → (getIu s' x.bench x.iu).halted = true ∨
        ∃ d, (getIu s' x.bench x.iu).haltDue = some d ∧ d ≤ s.run.now + 1024) ∧
      s'.flight = s.flight ∧ s'.spaces = s.spaces ∧ s'.eng = s.eng ∧ s'.queues = s.queues) ∧
    ((getSet s n).halted = true → ∃ s', exec (.setHaltRequest n) s = .next s' ∧ s' = { s with run := s'.run }) :=
  ⟨fun h => ⟨_, rfl, triggerSet_spec (takeFree s).2 n 4 _ _ h⟩, fun h => ⟨_, rfl, by
    unfold requestHalt
    rw [triggerSet_halted (takeFree s).2 n _ _ _ _ h]
    rfl⟩⟩

/-- `SET_RELEASE` (R398). -/
theorem setRelease_spec (s : State) (n : BitVec 6) :
    ((getSet s n).halted = true → ∃ s', exec (.setRelease n) s = .next s' ∧ (getSet s' n).halted = false ∧
      (∀ x ∈ s.ius, setOfIu x = some n → (getIu s' x.bench x.iu).halted = false ∧ (getIu s' x.bench x.iu).haltDue = none) ∧
      (∀ t u, findThread s t.key = some t → t.loc = .placed (.cl1 u) → t.marked = true →
        (∃ x ∈ s.ius, x.bench = t.bench ∧ x.iu = u ∧ setOfIu x = some n) →
        ∃ y, findThread s' t.key = some y ∧ y.ctx = { t.ctx with dhalt := false, wkind := y.ctx.wkind } ∧ y.marked = false ∧ y.trap = t.trap) ∧
      s'.mem = s.mem) ∧
    ((getSet s n).halted = false → exec (.setRelease n) s = .next s) := by
  refine ⟨fun h => ?_, fun h => ?_⟩
  · obtain ⟨h1, h2, h3⟩ := releaseSet_spec s n h
    refine ⟨_, rfl, h1, h2, fun t u hf hl hm hx => ?_, releaseSet_mem s n⟩
    obtain ⟨y, hy, hr, hz⟩ := h3 t u hf hl hm hx
    exact ⟨y, hy, (hr.ctx.resolve_left fun h => absurd (h.1.symm.trans hz) (by decide)).2, hz, hr.trap⟩
  · simp [exec, execSetRelease, releaseSet, h]

/-- Settles O43, one rule a register or event. -/
theorem unitsAndSets : Obligations.UnitsAndSets :=
  ⟨iucfgWrite_spec, iudbgWrite_spec, setctlWrite_spec,
    fun s _ => ⟨rfl, fun first frames => ⟨_, rfl, rfl, rfl, mem_reserve s first frames _⟩, fun _ _ => ⟨rfl, fun _ => rfl⟩⟩,
    setHaltRequest_spec, setRelease_spec⟩

end Sys2Proof.Machine
end

section
/-! Threads and system: software traps, traps that waited and traps within traps, control registers (R33, R43, R267, R269, R274). -/

namespace Sys2Proof.Machine
open Sys2Proof.Forms

/-! Software traps (R267). -/

/-- `BRK` does not halt when no set of its unit has `BRKH` (R395). -/
theorem brkHalts_eq_false {s : State} {t : Thread}
    (h : ∀ n, setOfIu (getIu s t.bench (iuAt t)) = some n → (getSet s n).brkh = false) : brkHalts s t = false := by
  unfold brkHalts
  split
  · next n hn => exact h n hn
  · rfl

/-- Settles O23: each body is a trap, which `issue_trap` enters. -/
theorem softwareTraps : Obligations.SoftwareTraps := by
  unfold Obligations.SoftwareTraps
  intro s t h a code x hi hx hin ho
  refine ⟨fun ha => ⟨?_, ?_⟩, fun hb => ?_⟩
  · unfold exec execSys
    exact issue_trap (nx := true) hi (by exact ha) (by simp) rfl hx hin (by rfl) ho
  · unfold exec execTrap
    exact issue_trap (nx := true) hi (by exact ha) (by simp) rfl hx hin (by rfl) ho
  · unfold exec execBrk
    exact issue_trap (nx := false) hi (by rfl) (by simp) (by simp [brkHalts_eq_false hb]) hx hin (by rfl) ho

/-! Control registers (R43, R269). -/

/-- Which CSRs are for supervisor mode: those from 0x100, but `PERF` only where `PERFU` is clear (R43). -/
theorem csrPriv_eq {s : State} {t : Thread} (hc : current s = some t) (n : BitVec 12) :
    csrPriv s n = if 0x200 ≤ n.toNat then !(getIu s t.bench (iuAt t)).cfg.getLsbD 31 else decide (0x100 ≤ n.toNat) := by
  simp only [csrPriv, hc]

/-- A CSR below `PERF` that the mode may access (R43). -/
theorem csrPriv_low {s : State} {t : Thread} {n : BitVec 12} (hn : n.toNat < 0x200) (h : n.toNat < 0x100 ∨ t.ctx.sup = true) :
    csrPriv s n = true → t.ctx.sup = true := by
  simp only [csrPriv, show ¬ 0x200 ≤ n.toNat by omega, if_false, decide_eq_true_eq]
  exact fun hp => h.resolve_left (by omega)

/-- `CSRR` where the mode may access the CSR (R269). -/
theorem csrr_retired {s : State} {t : Thread} {h : Hdr} {d : Opd} (hi : issues s t h = true) (hd : noneFrom t.ctx [(d, false)] = true)
    {n : BitVec 12} {v : Word} (hv : csrValue s t n = v) (hp : csrPriv s n = true → t.ctx.sup = true) :
    ∃ s', exec (.csrr h d n) s = .next s' ∧ Retired s s' t h (setDst t.ctx d false (v.setWidth 128)) (t.ctx.pc + 12) := by
  unfold exec execCsrr
  refine issue_regs (regs := [(1, d, false)]) hi hd hp ?_ (by simp) (by simp)
  simp only [finish, setDst_pc, hv]

/-- The line after `CSRW` of a legal value to a CSR of the line (R43, R269). -/
def csrwLine (c : Ctx) (n : BitVec 12) (v : Word) : Ctx :=
  match n.toNat with
  | 0x001 => { c with flags := v.setWidth 5 }
  | 0x002 => { c with rm := v.setWidth 3 }
  | 0x003 => { c with rm := v.extractLsb' 5 3, flags := v.setWidth 5 }
  | 0x012 => if c.sup then { c with prio := v.setWidth 4 } else c
  | _ => c

theorem csrwLine_keeps (c : Ctx) (n : BitVec 12) (v : Word) :
    (csrwLine c n v).pc = c.pc ∧ (csrwLine c n v).frz = c.frz ∧ (csrwLine c n v).step = c.step := by
  unfold csrwLine
  split <;> (try split) <;> exact ⟨rfl, rfl, rfl⟩

/-- A legal rounding mode is written (R17). -/
theorem putRm_legal (s : State) (t : Thread) {v : BitVec 3} (hv : v.toNat ≤ 4) (f : Ctx → Ctx) :
    putRm s t v f = finish s t (f { t.ctx with rm := v }) := by
  simp [putRm, Nat.not_lt.mpr hv]

/-- `CSRW` of a legal value where the mode may access the CSR writes the line (R269). -/
theorem csrw_retired {s : State} {t : Thread} {h : Hdr} {a : Opd} (hi : issues s t h = true) (ha : noneFrom t.ctx [(a, false)] = true)
    {n : BitVec 12} (hp : csrPriv s n = true → t.ctx.sup = true) (hf : n.toNat ≠ 0x101)
    (h2 : n.toNat ≠ 0x002 ∨ (sVal s t a).toNat % 8 ≤ 4) (h3 : n.toNat ≠ 0x003 ∨ (sVal s t a).toNat / 32 % 8 ≤ 4) :
    ∃ s', exec (.csrw h a n) s = .next s' ∧ Retired s s' t h (csrwLine t.ctx n (sVal s t a)) (t.ctx.pc + 12) := by
  obtain ⟨hpc, hz, hs⟩ := csrwLine_keeps t.ctx n (sVal s t a)
  unfold exec execCsrw
  refine issue_regs (regs := [(2, a, false)]) hi ha hp ?_ hz hs
  refine Eq.trans (b := finish s t (csrwLine t.ctx n (sVal s t a))) ?_ (by rw [finish, hpc])
  dsimp only
  split
  · next hn => simp only [csrwLine, hn]
  · next hn =>
    have hv : ((sVal s t a).setWidth 3).toNat ≤ 4 := by simpa using h2.resolve_left (absurd hn)
    simp only [csrwLine, hn, putRm_legal s t hv, id]
  · next hn =>
    have hv : ((sVal s t a).extractLsb' 5 3).toNat ≤ 4 := by simpa [Nat.shiftRight_eq_div_pow] using h3.resolve_left (absurd hn)
    simp only [csrwLine, hn, putRm_legal s t hv]
  · next hn => simp only [csrwLine, hn]
  · next hn => exact absurd hn hf
  · simp only [csrwLine]

/-- `CSRW` of `FPTE` writes the address space's trap enables (R34, R269). -/
theorem csrw_fpte {s : State} {t : Thread} {h : Hdr} {a : Opd} {x : Space} (hi : issues s t h = true)
    (ha : noneFrom t.ctx [(a, false)] = true) (hx : findSpace s t.key.asid = some x) (hu : t.ctx.sup = true) :
    ∃ s', exec (.csrw h a 0x101) s = .next s' ∧ LineIs s' t h t.ctx (t.ctx.pc + 12) ∧
      findSpace s' t.key.asid = some { x with fpte := (sVal s t a).setWidth 5 } ∧
      (∀ b, b ≠ t.key.asid → findSpace s' b = findSpace s b) ∧ s'.mem = s.mem ∧ s'.mmu = s.mmu ∧ s'.flight = s.flight := by
  let f : Space → Space := fun x => { x with fpte := (sVal s t a).setWidth 5 }
  let s2 := onSpace s t.key.asid f
  have hs : ∀ b, findSpace s2 b = if b = t.key.asid then (findSpace s t.key.asid).map f else findSpace s b :=
    fun b => findSpace_onSpace s t.key.asid b f fun _ => rfl
  have h1 : ∃ s', exec (.csrw h a 0x101) s = .next s' ∧ Retired s2 s' t h t.ctx (t.ctx.pc + 12) := by
    unfold exec execCsrw
    exact issue_on hi (by exact ha) (fun _ => hu) (by rfl) (current_find ((issues_iff _ _ _).mp hi).1) rfl rfl rfl
  obtain ⟨s', he, hr⟩ := h1
  have hb : ∀ b, findSpace s' b = findSpace s2 b := fun b => by simp only [findSpace, hr.spaces]
  refine ⟨s', he, hr.line, ?_, fun b hn => ?_, hr.mem, hr.mmu, hr.flight⟩
  · rw [hb, hs, if_pos rfl, hx]
    rfl
  · rw [hb, hs, if_neg hn]

/-- A field with zeros below it, as an address (R34). -/
theorem setWidth_append_zero {m k : Nat} (x : BitVec m) (h : m + k ≤ 64) :
    (x ++ 0#k).setWidth 64 = x.setWidth 64 <<< k := by
  apply BitVec.eq_of_toNat_eq
  have hx : x.toNat < 2 ^ 64 := x.isLt.trans_le (Nat.pow_le_pow_right (by omega) (by omega))
  simp only [BitVec.toNat_setWidth, BitVec.toNat_append, BitVec.toNat_shiftLeft, Nat.mod_eq_of_lt hx, BitVec.toNat_ofNat,
    Nat.zero_mod, Nat.or_zero]

/-- The counters but `PERF1` read as they stand (R43, R45). -/
theorem csrValue_perf (s : State) (t : Thread) {i : Nat} (hi : i < 16) (h1 : i ≠ 1) :
    csrValue s t (BitVec.ofNat 12 (0x200 + i)) = (getIu s t.bench (iuAt t)).perf.getD i 0 := by
  have hn : (BitVec.ofNat 12 (0x200 + i)).toNat = 0x200 + i := Nat.mod_eq_of_lt (by omega)
  unfold csrValue
  rw [hn]
  dsimp only
  split <;> try omega
  rw [Nat.add_sub_cancel_left]

/-- Settles O25: what `csrValue` reads, and `csrwLine` of each number that can be written. -/
theorem csrAccess : Obligations.CsrAccess := by
  unfold Obligations.CsrAccess
  intro s t h o x hi ho hx u c reads v writes
  have hc := ((issues_iff s t h).mp hi).1
  have read : ∀ n w, csrValue s t n = w → (csrPriv s n = true → c.sup = true) → reads n w := fun n w hv hp =>
    csrr_retired hi ho hv hp
  have write : ∀ (n : BitVec 12) c', (csrPriv s n = true → c.sup = true) → csrwLine c n v = c' → n.toNat ≠ 0x101 →
      n.toNat ≠ 0x002 ∨ v.toNat % 8 ≤ 4 → n.toNat ≠ 0x003 ∨ v.toNat / 32 % 8 ≤ 4 → writes n c' := fun n c' hp hl hf h2 h3 =>
    hl ▸ csrw_retired hi ho hp hf h2 h3
  have user : ∀ n : BitVec 12, n.toNat < 0x100 → csrPriv s n = true → c.sup = true := fun n hn => csrPriv_low (by omega) (.inl hn)
  refine ⟨?_, fun hu => ?_, fun hu => ⟨fun i hi h1 => ?_, ?_⟩, ?_, fun h2 => ?_, fun h3 => ?_, fun hu => ?_, fun hu => ?_, ?_, fun hu => ?_,
    fun hu => csrw_fpte hi ho hx hu⟩
  · simp only [List.forall_mem_cons, List.not_mem_nil, false_implies, implies_true, and_true]
    and_intros <;> exact read _ _ rfl (user _ (by decide))
  · have svc : ∀ n : BitVec 12, n.toNat < 0x200 → csrPriv s n = true → c.sup = true := fun n hn => csrPriv_low hn (.inr hu)
    simp only [List.forall_mem_cons, List.not_mem_nil, false_implies, implies_true, and_true]
    and_intros <;> refine read _ _ ?_ (svc _ (by decide)) <;> simp [csrValue, hx, u] <;>
      exact setWidth_append_zero _ (by decide)
  · refine read _ _ (csrValue_perf s t hi h1) fun hp => ?_
    have hn : (BitVec.ofNat 12 (0x200 + i)).toNat = 0x200 + i := Nat.mod_eq_of_lt (by omega)
    rw [csrPriv_eq hc, hn, if_pos (by omega)] at hp
    exact hu.resolve_right (by simpa using hp)
  · refine read _ _ rfl fun hp => ?_
    rw [csrPriv_eq hc, if_pos (by decide)] at hp
    exact hu.resolve_right (by simpa using hp)
  · exact write _ _ (user _ (by decide)) rfl (by decide) (.inl (by decide)) (.inl (by decide))
  · exact write _ _ (user _ (by decide)) rfl (by decide) (.inr h2) (.inl (by decide))
  · exact write _ _ (user _ (by decide)) rfl (by decide) (.inl (by decide)) (.inr h3)
  · exact write _ _ (user _ (by decide)) (if_pos hu) (by decide) (.inl (by decide)) (.inl (by decide))
  · exact write _ _ (user _ (by decide)) (if_neg (by simp [c, hu])) (by decide) (.inl (by decide)) (.inl (by decide))
  · simp only [List.forall_mem_cons, List.not_mem_nil, false_implies, implies_true, and_true]
    and_intros <;> exact write _ _ (user _ (by decide)) rfl (by decide) (.inl (by decide)) (.inl (by decide))
  · simp only [List.forall_mem_cons, List.not_mem_nil, false_implies, implies_true, and_true]
    and_intros <;> exact write _ _ (csrPriv_low (by decide) (.inr hu)) rfl (by decide) (.inl (by decide)) (.inl (by decide))

end Sys2Proof.Machine
end

section
/-! Traps that waited and traps within traps (R33, R267, R274). -/

namespace Sys2Proof.Machine
open Sys2Proof.Forms

/-- The entry of a trap whose thread has nothing outstanding and runs no step (R33). -/
theorem finishTrap_taken {s : State} {t : Thread} {sp : Space} {p : PendTrap} (hf : findThread s t.key = some t)
    (hsp : findSpace s t.key.asid = some sp) (hc : inCl1 t = true) (hp : t.pend = some p) (hs : t.ctx.step = false) :
    TrapTaken s (finishTrap s t.key) t sp p := by
  let z : Thread := { t with
    ctx := { t.ctx with cause := p.cause, detail := p.detail, s2 := trapLineVa sp t.key, sup := true, intrap := true
                        pc := sp.tvec ++ (0 : BitVec 2) }
    trap := { t.trap with
      saveW0 := (p.word0 &&& ~~~((BitVec.allOnes 57).setWidth 64)) ||| p.resume.setWidth 64
      tw1 := p.cause ++ p.detail ++ p.w1lo
      tval := p.tval
      iw01 := p.iw.setWidth 64
      iw2 := (0 : BitVec 29) ++ bit p.rvalid ++ p.ridx ++ p.iw.extractLsb' 64 32
      saveS2 := t.ctx.s2
      saveS3 := t.ctx.s3 }
    pend := none, wait := .run }
  have e : finishTrap s t.key = refresh (setThread s z) z.key := by
    unfold finishTrap
    rw [hf, hsp]
    dsimp only
    rw [hp]
    exact if_neg (by simp [hs])
  have hz : findThread (setThread s z) z.key = some z := by rw [findThread_setThread, show z.key = t.key from rfl, hf]; rfl
  obtain ⟨hl, -, hr, -⟩ := refresh_cl1 (setThread s z) z hz hc
  rw [e]
  exact ⟨⟨_, hl, rfl, rfl, rfl, rfl, rfl, rfl, rfl, rfl, rfl, rfl, rfl, rfl, rfl, rfl, rfl, rfl, rfl, rfl, rfl, rfl, rfl, rfl, rfl⟩,
    ⟨hr.run, hr.spaces, hr.mmu, hr.flight, hr.eng, hr.queues, hr.fw, hr.pkg, congrArg Mem.empty hr.mem⟩⟩

theorem trapEntry_waited : Sys2Proof.Spec.TrapEntry := by
  intro s t p x hf hc hp hw ho hz hn hs hx
  obtain ⟨u, hu⟩ := inCl1_loc hc
  refine ⟨finishTrap s t.key, ?_, finishTrap_taken hf hx hc hp hs⟩
  unfold exec execTrapEntry
  simp [hf, hp, ho, isMoving, hu, hz, hn, hw]

/-- A set whose enable is off is not triggered (R397). -/
theorem triggerBy_off {s : State} {k : Key} {t : Thread} (hf : findThread s k = some t) (trig : BitVec 3) {en : SetCtl → Bool}
    (h : ∀ n, setOfIu (getIu s t.bench (iuAt t)) = some n → en (getSet s n) = false) : triggerBy s k trig en = s := by
  unfold triggerBy
  simp only [hf]
  cases hu : iuOf t with
  | none => rfl
  | some u =>
    have hu' : iuAt t = u := by simp [iuAt, hu]
    rw [hu'] at h
    dsimp only
    split
    · next n hn => simp [h n hn]
    · rfl

/-- What freezing a line in a CL1 does when its set does not care: `FRZ`, firmware is told, nothing else but holds (R33, R274). -/
theorem freeze_cl1 {s : State} {t : Thread} (hf : findThread s t.key = some t) (hc : inCl1 t = true)
    (hn : ∀ n, setOfIu (getIu s t.bench (iuAt t)) = some n → (getSet s n).frzh = false) (cause : BitVec 8) (detail : BitVec 24) (va : Word) :
    let s' := freeze s t.key cause detail va
    (∃ x w, findThread s' t.key = some x ∧ sameButHolds w t ∧ x.trap = t.trap ∧
      x.ctx = { w.ctx with frz := true, wkind := x.ctx.wkind }) ∧
    HoldsKeep { s with fw := { s.fw with
      notes := s.fw.notes ++ [{ cause := cause, detail := detail, va := va, key := t.key, lslot := t.ctx.lslot, bench := t.bench }] } } s' := by
  obtain ⟨⟨w, hw, hs⟩, hk⟩ := endHolds_line s t.key t.key t hf
  obtain ⟨c, rfl⟩ : ∃ c, w = { t with ctx := c } := ⟨w.ctx, by rw [hs]⟩
  let z : Thread := { t with ctx := { c with frz := true } }
  let f : Thread → Thread := fun t => { t with ctx := { t.ctx with frz := true } }
  let s1 := onThread (endHolds s t.key) t.key f
  have hz : findThread s1 z.key = some z := (findThread_onThread (endHolds s t.key) t.key f fun _ h => h).trans (by rw [hw]; rfl)
  obtain ⟨hl, -, hr, -⟩ := refresh_cl1 s1 z hz hc
  have hg : LinesGo s (refresh s1 t.key) := (linesGo_endHolds s t.key).trans ((linesGo_onThread _ t.key _).trans (linesGo_refresh s1 t.key))
  let note : Note := { cause := cause, detail := detail, va := va, key := t.key, lslot := t.ctx.lslot, bench := t.bench }
  let s2 := refresh s1 t.key
  let s3 : State := { s2 with fw := { s2.fw with notes := s2.fw.notes ++ [note] } }
  have hl3 : findThread s3 t.key = _ := hl
  have e : freeze s t.key cause detail va = s3 := by
    unfold freeze
    simp only [hf]
    refine triggerBy_off hl3 3 fun n h => ?_
    have hd : setOfIu (getIu s3 t.bench (iuAt t)) = setOfIu (getIu s t.bench (iuAt t)) := by
      simp only [setOfIu]
      rw [show (getIu s3 t.bench (iuAt t)).dbg = (getIu s t.bench (iuAt t)).dbg from (hg.iu _ _).dbg]
    have hs3 : getSet s3 n = getSet s n := getSet_of_sets (show s2.fw.sets = s.fw.sets from congrArg Firmware.sets hg.rest.fw) n
    rw [hs3]
    exact hn n (hd ▸ h)
  rw [e]
  refine ⟨⟨_, _, hl3, hs, rfl, rfl⟩, hr.run.trans hk.run, hr.spaces.trans hk.spaces, hr.mmu.trans hk.mmu, hr.flight.trans hk.flight,
    hr.eng.trans hk.eng, hr.queues.trans hk.queues, ?_, hr.pkg.trans hk.pkg, (congrArg Mem.empty hr.mem).trans hk.empty⟩
  show { s2.fw with notes := s2.fw.notes ++ [note] } = _
  rw [show s2.fw = s.fw from hg.rest.fw]

/-- A trap raised inside a trap freezes the thread with NESTED and the cause (R33, R274). -/
theorem raise_nested {s : State} {t : Thread} (hf : findThread s t.key = some t) (hr : fatalRec t.trap = none)
    (hi : t.ctx.intrap = true) (x : TrapInfo) : raise s t.key x = freeze s t.key 0x22 (x.cause.setWidth 24) 0 := by
  unfold raise
  simp only [hf, hr]
  unfold trapEntry
  simp only [hf, hi, if_true]
  rfl

/-- An instruction whose body traps in a trap handler freezes its thread (R33, R274). -/
theorem issue_nested {s : State} {t : Thread} {i : Instr} {h : Hdr} {regs : List (BitVec 8 × Opd × Bool)} {body : State → Thread → Did}
    (hi : issues s t h = true) (hr : noneFrom t.ctx (regs.map (·.2)) = true) {c : BitVec 8} {d : BitVec 24} {v : Word} {nx : Bool}
    (hb : body s t = .trap c d v nx) (hin : t.ctx.intrap = true)
    (hn : ∀ n, setOfIu (getIu s t.bench (iuAt t)) = some n → (getSet s n).frzh = false) :
    ∃ s' x, issue s i h false regs body = .next s' ∧ findThread s' t.key = some x ∧ x.ctx.frz = true ∧ x.ctx.pc = t.ctx.pc ∧
      x.ctx.outst = t.ctx.outst ∧ x.trap = t.trap ∧ x.ctx.s2 = t.ctx.s2 ∧ x.ctx.sup = t.ctx.sup ∧
      s'.fw.notes = s.fw.notes ++ [{ cause := 0x22, detail := c.setWidth 24, va := 0, key := t.key, lslot := t.ctx.lslot
                                     bench := t.bench }] ∧
      s'.spaces = s.spaces ∧ s'.flight = s.flight ∧ s'.eng = s.eng ∧ s'.queues = s.queues := by
  obtain ⟨hcu, hq, hg⟩ := (issues_iff _ _ _).mp hi
  obtain ⟨hc, -, -, -, -, -, hfr, -⟩ := (quiet_iff _ _).mp hq
  obtain ⟨hf, -, hm, hu⟩ := markIssue_spec s t h (current_find hcu)
  let y : Thread := { t with yp := h.yp, lh := h.lh, lastIssue := s.run.now, lastIu := some (t.bench, iuAt t) }
  have hy : iuAt y = iuAt t := by
    obtain ⟨u, hl⟩ := inCl1_loc hc
    simp [iuAt, iuOf, y, hl]
  have hn' : ∀ n, setOfIu (getIu (markIssue s t.key h) y.bench (iuAt y)) = some n → (getSet (markIssue s t.key h) n).frzh = false := by
    intro n hs
    rw [getSet_of_sets (s := s) (congrArg Firmware.sets hm.fw)]
    refine hn n ?_
    rw [← hs, hy]
    simp only [setOfIu]
    rw [show (getIu (markIssue s t.key h) y.bench (iuAt t)).dbg = _ from (hu t.bench (iuAt t)).1.dbg]
  obtain ⟨⟨x, w, hx, hw, htr, hctx⟩, hk⟩ := freeze_cl1 (t := y) hf hc hn' 0x22 (c.setWidth 24) 0
  have he : issue s i h false regs body = .next (freeze (markIssue s t.key h) t.key 0x22 (c.setWidth 24) 0) := by
    let x : TrapInfo := { cause := c, detail := d, tval := v, iw := Decode.encode i, resume := if nx then t.ctx.pc + 12 else t.ctx.pc }
    rw [← raise_nested (t := y) hf hfr hin x]
    unfold issue
    rw [hcu]
    simp only [hg, Bool.true_eq_false, beq_iff_eq, if_false, Bool.false_and, Bool.false_eq_true, hazard_none _ _ hr, hb]
    rfl
  have hwc : w.ctx = { t.ctx with hslot0 := w.ctx.hslot0, hslot1 := w.ctx.hslot1, hact := w.ctx.hact } := congrArg Thread.ctx hw
  rw [hwc] at hctx
  refine ⟨_, x, he, hx, ?_, ?_, ?_, htr, ?_, ?_, ?_, hk.spaces.trans hm.spaces, hk.flight.trans hm.flight, hk.eng.trans hm.eng,
    hk.queues.trans hm.queues⟩
  · rw [hctx]
  · rw [hctx]
  · rw [hctx]
  · rw [hctx]
  · rw [hctx]
  · rw [hk.fw]
    show (markIssue s t.key h).fw.notes ++ _ = _
    rw [hm.fw]

theorem nestedTrap_freezes : Sys2Proof.Spec.NestedTrap := by
  intro s t h a code hi hin ha hn
  have hz := fun n hs => (hn n hs).1
  have hb := brkHalts_eq_false fun n hs => (hn n hs).2
  simp only [List.forall_mem_cons, List.not_mem_nil, false_implies, implies_true, and_true]
  refine ⟨?_, ?_, ?_⟩
  · unfold exec execSys
    exact issue_nested hi (by exact ha) rfl hin hz
  · unfold exec execTrap
    exact issue_nested hi (by exact ha) rfl hin hz
  · unfold exec execBrk
    exact issue_nested (c := 0x0B) (d := code) (v := 0) (nx := false) hi (by rfl) (by simp [hb]) hin hz

/-- Settles O30. -/
theorem trapsWaitingAndNested : Obligations.TrapsWaitingAndNested := ⟨trapEntry_waited, nestedTrap_freezes⟩

end Sys2Proof.Machine
end

section
/-! Instruction fetch (R48, R75, R77, R325). -/

namespace Sys2Proof.Machine
open Sys2Proof.Forms Sys2Proof.Spec

/-- What the decoder refuses is an illegal instruction or operand (R76, R77). -/
theorem decode_error_cause {w : IWord} {e : Decode.Illegal} (h : Decode.decode w = .error e) : e.cause = 0x01 ∨ e.cause = 0x02 := by
  unfold Decode.decode at h
  split at h
  · cases h; exact .inl rfl
  split at h
  · cases h; exact .inl rfl
  split at h
  · cases h; exact .inl rfl
  split at h
  · cases h; exact .inl rfl
  split at h
  · cases h; exact .inl rfl
  split at h
  · cases h; exact .inr rfl
  · cases h

/-- The trap of the decoder is none that freezes (R33). -/
theorem isIsolation_of_decode {w : IWord} {e : Decode.Illegal} (h : Decode.decode w = .error e) : isIsolation e.cause e.detail = false := by
  rcases decode_error_cause h with h | h <;> simp [isIsolation, h]

theorem mem_of_leastBy {α : Type} {f : α → Nat} {l : List α} {x : α} (h : leastBy f l = some x) : x ∈ l := by
  induction l generalizing x with
  | nil => cases h
  | cons y l ih =>
    unfold leastBy at h
    split at h
    · cases h; exact List.mem_cons_self
    · next z hz =>
      split at h
      · cases h; exact List.mem_cons_of_mem _ (ih hz)
      · cases h; exact List.mem_cons_self

/-- The line that is chosen is in the unit's CL1 (R325). -/
theorem chooseLine_bench {s : State} {b u : Nat} {t : Thread} (h : chooseLine s b u = some t) : t.bench = b := by
  have hm : t ∈ candidatesOf s b u := by
    unfold chooseLine at h
    dsimp only at h
    split at h
    · next hl => cases h; exact List.mem_of_mem_filter (mem_of_leastBy hl)
    · exact mem_of_leastBy h
  have hr : t ∈ readyLines s b u := List.mem_of_mem_filter hm
  have hp := (List.mem_filter.mp hr).2
  simp only [Bool.and_eq_true, beq_iff_eq] at hp
  exact hp.1.1

/-- An issue unit that is free to issue looks for a line (R325). -/
theorem execInstructionFetch_of_cycleFree {s : State} {b u : Nat} (h : cycleFree s b u) :
    exec (.instructionFetch b u) s = match pickLine b u 65 (cycleStart s b u) with
      | (s1, none) => .next (closeCycle s1 b u)
      | (s1, some t) => match firstIssue (chosen s1 t u) t u with
        | none => .next (chosen s1 t u)
        | some s3 => fetchFor s3 t u := by
  obtain ⟨hr, hs⟩ := h
  show execInstructionFetch b u s = _
  unfold execInstructionFetch
  refine if_neg ?_
  have hc : (!iuRuns (cycleStart s b u) b u || spentNow (cycleStart s b u) (getIu (cycleStart s b u) b u)) = false := by simp [hr, hs]
  exact fun h => Bool.false_ne_true (hc.symm.trans h)

theorem closeCycle_iu (s : State) (b u : Nat) : spentNow (closeCycle s b u) (getIu (closeCycle s b u) b u) = true ∧
    (getIu (closeCycle s b u) b u).perf = (getIu s b u).perf ∧ (getIu (closeCycle s b u) b u).issued = (getIu s b u).issued := by
  unfold closeCycle
  rw [getIu_onIu_same _ _ _ _ (by intro x; exact ⟨rfl, rfl⟩)]
  exact ⟨by simp [spentNow], rfl, rfl⟩

theorem cycleStart_iu (s : State) (b u : Nat) :
    (getIu (cycleStart s b u) b u).perf = (getIu s b u).perf ∧ (getIu (cycleStart s b u) b u).issued = (getIu s b u).issued := by
  unfold cycleStart openCycle
  rw [getIu_onIu_same _ _ _ _ (by intro x; split <;> exact ⟨rfl, rfl⟩)]
  split
  · exact ⟨rfl, rfl⟩
  · exact ⟨rfl, rfl⟩

/-- With no candidate the cycle ends (R325). -/
theorem instructionFetch_none {s : State} {b u : Nat} (h : cycleFree s b u) (hl : chooseLine (cycleStart s b u) b u = none) :
    exec (.instructionFetch b u) s = .next (closeCycle (cycleStart s b u) b u) := by
  rw [execInstructionFetch_of_cycleFree h]
  simp only [pickLine, hl]

/-- The chosen line, which has issued on this unit before, fetches (R48, R325). -/
theorem instructionFetch_some {s : State} {b u : Nat} {t : Thread} (h : cycleFree s b u)
    (hl : chooseLine (cycleStart s b u) b u = some t) (hy : t.yp = false) (hi : t.lastIu = some (b, u)) :
    exec (.instructionFetch b u) s = fetchFor (chosen (cycleStart s b u) t u) t u := by
  rw [execInstructionFetch_of_cycleFree h]
  have hb := chooseLine_bench hl
  simp [pickLine, hl, hy, firstIssue, hi, hb]

/-- Settles O27. -/
theorem instructionFetch : Obligations.InstructionFetch := by
  intro s b u
  refine ⟨fun h hl => ⟨_, instructionFetch_none h hl, ?_⟩, fun t s1 iw i h hd => ?_, fun t s1 iw e x h hd hf hq hx hin ho => ?_⟩
  · exact ⟨rfl, rfl, rfl, rfl, rfl, rfl, closeCycle_iu (cycleStart s b u) b u |>.1,
      (closeCycle_iu _ b u).2.1.trans (cycleStart_iu s b u).1, (closeCycle_iu _ b u).2.2.trans (cycleStart_iu s b u).2⟩
  · obtain ⟨h, hl, hy, hi, he⟩ := h
    rw [instructionFetch_some h hl hy hi]
    simp only [fetchFor, he, hd]
    rfl
  · obtain ⟨h, hl, hy, hi, he⟩ := h
    refine ⟨_, ?_, raise_taken s1 t {} x _ hf hq hx hin (isIsolation_of_decode hd) ho⟩
    rw [instructionFetch_some h hl hy hi]
    simp only [fetchFor, he, hd]

end Sys2Proof.Machine
end

section
/-! The tile handle table (R35, R204, R206 to R210). -/

namespace Sys2Proof.Machine
open Sys2Proof.Forms Sys2Proof.Spec

/-- A field of the handle value that is not an index is 0 exactly when the value is below 2^24 (R35, R204). -/
theorem extract_high_eq_zero {v : Word} : v.extractLsb' 24 40 = 0 ↔ v.toNat < 2 ^ 24 := by
  rw [← BitVec.toNat_inj, show (0 : BitVec 40).toNat = 0 from rfl]
  have := v.isLt
  simp only [BitVec.extractLsb'_toNat, Nat.shiftRight_eq_div_pow]
  omega

theorem setWidth24_toNat {v : Word} (h : v.toNat < 2 ^ 24) : (v.setWidth 24).toNat = v.toNat := by
  simp only [BitVec.toNat_setWidth]
  exact Nat.mod_eq_of_lt h

/-- What a handle that names a valid entry is (R35). -/
theorem validHandle_some {x : Space} {v : BitVec 32} {e : Handle} (h : validHandle x v = some e) :
    e = getHandle x (v.setWidth 24).toNat ∧ v.extractLsb' 24 8 = 0 ∧ (v.setWidth 24).toNat ≠ 0 ∧ (v.setWidth 24).toNat < x.htsize.toNat := by
  unfold validHandle at h
  dsimp only at h
  split at h
  · cases h
  · next hc =>
    simp only [Bool.or_eq_true, bne_iff_ne, beq_iff_eq, decide_eq_true_eq, Bool.not_eq_true', not_or, ne_eq, not_not, Nat.not_le,
      Bool.not_eq_false] at hc
    cases h
    obtain ⟨⟨⟨h1, h2⟩, h3⟩, -⟩ := hc
    exact ⟨rfl, h1, h2, h3⟩

/-- What a register value that names a valid entry is (R204). -/
theorem validReg_some {x : Space} {v : Word} {e : Handle} (h : validReg x v = some e) :
    v.toNat < 2 ^ 24 ∧ e = getHandle x v.toNat ∧ e.idx = v.toNat ∧ v.toNat ≠ 0 ∧ v.toNat < x.htsize.toNat := by
  unfold validReg at h
  split at h
  · cases h
  · next hc =>
    obtain ⟨he, h8, h0, hh⟩ := validHandle_some h
    have hv : v.toNat < 2 ^ 24 := by
      have h32 : v.extractLsb' 32 32 = 0 := by simpa using hc
      have h32' : (v.extractLsb' 32 32).toNat = 0 := congrArg BitVec.toNat h32
      have h8' : ((v.setWidth 32).extractLsb' 24 8).toNat = 0 := congrArg BitVec.toNat h8
      simp only [BitVec.extractLsb'_toNat, BitVec.toNat_setWidth, Nat.shiftRight_eq_div_pow] at h32' h8'
      have := v.isLt
      omega
    have hi : ((v.setWidth 32).setWidth 24).toNat = v.toNat := by
      simp only [BitVec.toNat_setWidth]
      omega
    rw [hi] at he h0 hh
    exact ⟨hv, he, he ▸ getHandle_idx _ _, h0, hh⟩

/-- With its entries in the bench handle cache an instruction goes on (R203). -/
theorem withEntries_here {s : State} {t : Thread} {l : List Nat} (h : entriesIn s t l) (d : Did) : withEntries s t l d = d := by
  unfold withEntries
  dsimp only
  split
  · next i hi =>
    have hp := List.find?_some hi
    simp only [Bool.and_eq_true, bne_iff_ne, Bool.not_eq_true'] at hp
    obtain ⟨⟨h0, hx⟩, hn⟩ := hp
    cases hs : findSpace s t.key.asid with
    | none => simp [hs] at hx
    | some x =>
      have hl : i < x.htsize.toNat := by simpa [hs] using hx
      exact absurd (h i (List.mem_of_find?_eq_some hi) h0 x hs hl) (by simp [hn])
  · rfl

/-- The index that a register names is in the bench handle cache when it is one (R203). -/
theorem entriesIn_entryOf {s : State} {t : Thread} {v : Word} (h : v.toNat < 2 ^ 24 → entriesIn s t [v.toNat]) :
    entriesIn s t (entryOf v) := by
  unfold entryOf
  split
  · next hv =>
    have hlt := extract_high_eq_zero.mp (by simpa using hv)
    rw [setWidth24_toNat hlt]
    exact h hlt
  · exact fun _ hi => absurd hi List.not_mem_nil

/-- An instruction on a valid handle of the bench handle cache (R203, R204). -/
theorem withHandle_valid {s : State} {t : Thread} {a : Opd} {x : Space} {e : Handle} (hn : namesTile s t a x e)
    (he : entryHere s t.bench t.key.asid e.idx = true) (f : Handle → Did) : withHandle s t a f = f e := by
  obtain ⟨hx, hv⟩ := hn
  obtain ⟨-, -, hi, -⟩ := validReg_some hv
  unfold withHandle
  dsimp only
  rw [withEntries_here (entriesIn_entryOf fun _ i h1 _ _ _ _ => by rw [List.mem_singleton.mp h1, ← hi]; exact he)]
  simp [hx, hv]

/-- An instruction on a handle that names no valid entry (R204, R209). -/
theorem withHandle_bad {s : State} {t : Thread} {a : Opd} {x : Space} (hx : findSpace s t.key.asid = some x)
    (hv : validReg x (sVal s t a) = none) (he : entriesIn s t (entryOf (sVal s t a))) (f : Handle → Did) :
    withHandle s t a f = tileBound 0x01 2 (sVal s t a) := by
  unfold withHandle
  dsimp only
  rw [withEntries_here he]
  simp [hx, hv]

/-- Nothing but one entry of the thread's handle table has changed. -/
structure EntryWork (s s2 : State) (t : Thread) (x : Space) (i : Nat) (e : Handle) : Prop where
  eq : s2 = { s with spaces := s2.spaces }
  spaces : ∀ a, a ≠ t.key.asid → findSpace s2 a = findSpace s a
  entry : entryIs s2 t x i e

theorem entryWork_onHandle {s : State} {t : Thread} {x : Space} (hx : findSpace s t.key.asid = some x) (i : Nat) (f : Handle → Handle)
    (hf : ∀ h, (f h).idx = h.idx) : EntryWork s (onHandle s t.key.asid i f) t x i (f (getHandle x i)) := by
  obtain ⟨h1, h2, h3⟩ := onHandle_spec hx i f hf
  exact ⟨rfl, h2, _, h1, rfl, h3⟩

theorem entryWork_refl {s : State} {t : Thread} {x : Space} (hx : findSpace s t.key.asid = some x) (i : Nat) :
    EntryWork s s t x i (getHandle x i) :=
  ⟨rfl, fun _ _ => rfl, x, hx, rfl, fun j => by split <;> simp_all⟩

/-- An instruction that changes one entry and retires leaves everything else. -/
theorem EntryWork.retired {s s2 s' : State} {t : Thread} {x : Space} {i : Nat} {e : Handle} (w : EntryWork s s2 t x i e) {h : Hdr} {c : Ctx}
    {pc : VAddr} (r : Retired s2 s' t h c pc) :
    LineIs s' t h c pc ∧ TileKeep s s' t ∧ s'.cache = s.cache ∧ s'.mem = s.mem ∧ entryIs s' t x i e := by
  have hs : ∀ a, findSpace s' a = findSpace s2 a := fun a => by simp only [findSpace, r.spaces]
  have hc : s'.cache = s.cache := r.cache.trans (by rw [w.eq])
  have hm : s'.mem = s.mem := r.mem.trans (by rw [w.eq])
  refine ⟨r.line, ⟨fun k hk => (r.others k hk).trans (by rw [w.eq]; rfl), by rw [hm], by rw [hm], by rw [hm], by rw [hm], by rw [hc],
    fun b a _ => by simp only [reserveOf, hc], r.mmu.trans (by rw [w.eq]), r.flight.trans (by rw [w.eq]), r.eng.trans (by rw [w.eq]),
    r.queues.trans (by rw [w.eq]), fun a ha => (hs a).trans (w.spaces a ha)⟩, hc, hm, ?_⟩
  obtain ⟨x', h1, h2, h3⟩ := w.entry
  exact ⟨x', (hs _).trans h1, h2, h3⟩

/-- No thread waits for a frame of the tile: none is released (R206). -/
theorem releaseTile_none {s : State} {asid : BitVec 16} {i : Nat}
    (h : ∀ u ∈ s.threads, u.key.asid = asid → ∀ j w, u.wait ≠ .tile i j w) : releaseTile s asid i = s := by
  unfold releaseTile
  rw [List.filter_eq_nil_iff.mpr ?_]
  · rfl
  · intro u hu
    simp only [Bool.and_eq_true, beq_iff_eq, not_and, Bool.not_eq_true]
    intro ha
    split
    · next j k w hw =>
      have hj : j ≠ i := fun e => h u hu ha k w (e ▸ hw)
      simpa using hj
    · rfl

theorem tileHandles_work : Sys2Proof.Spec.TileHandles := by
  intro s t h a x e hi ha hn he
  have hx := hn.1
  obtain ⟨hv, heq, hidx, h0, hlt⟩ := validReg_some hn.2
  have hge : getHandle x e.idx = e := by rw [hidx]; exact heq.symm
  have hf := current_find ((issues_iff _ _ _).mp hi).1
  refine ⟨fun hw => ?_, fun px mask => ?_, fun mask => ?_, fun n d hd => ?_⟩
  · let f : Handle → Handle := fun e => { e with v := false, pin := 0, gen := e.gen + 1 }
    have w := entryWork_onHandle hx e.idx f fun _ => rfl
    have h1 : ∃ s', exec (.tfree h a) s = .next s' ∧ Retired (onHandle s t.key.asid e.idx f) s' t h t.ctx (t.ctx.pc + 12) := by
      unfold exec execTfree
      refine issue_keep hi (by exact ha) (by simp) ?_ hf rfl
      rw [withHandle_valid hn he]
      exact congrArg (Did.done · _ _) (releaseTile_none hw)
    obtain ⟨s', h2, r⟩ := h1
    rw [hge] at w
    exact ⟨s', h2, w.retired r⟩
  · let new := frameMask e mask &&& ~~~e.pin
    let fits := pinnedAt s e.hbench.toNat e.hiu.toNat + ((List.range 8).filter fun j => new.getLsbD j).length ≤ 16
    let s2 := if fits then onHandle s t.key.asid e.idx fun e => { e with pin := e.pin ||| new } else s
    have w : EntryWork s s2 t x e.idx { e with pin := if fits then e.pin ||| new else e.pin } := by
      by_cases hfit : fits
      · simp only [s2, hfit, if_true]
        have w := entryWork_onHandle hx e.idx (fun e => { e with pin := e.pin ||| new }) fun _ => rfl
        rwa [hge] at w
      · simp only [s2, hfit, if_false]
        have w := entryWork_refl hx e.idx
        rwa [hge] at w
    have h1 : ∃ s', exec (.tpin h px a mask) s = .next s' ∧ Retired s2 s' t h (setP t.ctx px (decide fits)) (t.ctx.pc + 12) := by
      unfold exec execTpin
      refine issue_on hi (by exact ha) (by simp) ?_ (by rw [w.eq]; exact hf) (by rw [w.eq]) (setP_frz ..) (setP_step ..)
      rw [withHandle_valid hn he, finish, setP_pc]
      simp only [decide_eq_true_eq]
      rfl
    obtain ⟨s', h2, r⟩ := h1
    exact ⟨s', h2, w.retired r⟩
  · let f : Handle → Handle := fun e => { e with pin := e.pin &&& ~~~frameMask e mask }
    have w := entryWork_onHandle hx e.idx f fun _ => rfl
    have h1 : ∃ s', exec (.tunpin h a mask) s = .next s' ∧ Retired (onHandle s t.key.asid e.idx f) s' t h t.ctx (t.ctx.pc + 12) := by
      unfold exec execTunpin
      exact issue_on hi (by exact ha) (by simp) (by rw [withHandle_valid hn he]; rfl) hf rfl rfl rfl
    obtain ⟨s', h2, r⟩ := h1
    rw [hge] at w
    exact ⟨s', h2, w.retired r⟩
  · have hda : noneFrom t.ctx [(d, false), (a, false)] = true := by simp_all [noneFrom]
    unfold exec execTinfo
    refine issue_regs hi (by exact hda) (by simp) ?_ (setDst_frz ..) (setDst_step ..)
    have hin : entriesIn s t (entryOf (sVal s t a)) := entriesIn_entryOf fun _ i h1 _ _ _ _ => by
      rw [List.mem_singleton.mp h1, ← hidx]; exact he
    dsimp only
    rw [withEntries_here hin, hx]
    have hz : (sVal s t a).extractLsb' 24 40 = 0 := extract_high_eq_zero.mpr hv
    simp only [hz, setWidth24_toNat hv, ← heq, bne_self_eq_false, Bool.false_or, finish, setDst_pc]
    rw [if_neg (by simpa [h0] using hlt)]

/-- The bits of the handle in an address of a tile byte (R210). -/
theorem tileAddress_parts (ea : Word) :
    BitVec.ofNat 32 (ea.toNat / 2 ^ 32) = ea.extractLsb' 32 32 ∧ (ea.setWidth 32).toNat = ea.toNat % 2 ^ 32 := by
  constructor
  · apply BitVec.eq_of_toNat_eq
    simp [Nat.shiftRight_eq_div_pow]
  · simp

/-- `TLDE` and `TSTE` on a tile whose entry is in the bench handle cache: a bad handle, or a range past the tile (R204, R210). -/
theorem tileAccess_bound {s : State} {t : Thread} {x : Space} (hx : findSpace s t.key.asid = some x) (ty : Ty) (iw : IWord) (ea : Word)
    (counts : Bool) (go : Handle → Nat → Did)
    (he : (ea.extractLsb' 32 32).toNat < 2 ^ 24 → entriesIn s t [(ea.extractLsb' 32 32).toNat]) :
    (validHandle x (ea.extractLsb' 32 32) = none → tileAccess s t ty iw ea counts go = tileBound 0x01 2 ea) ∧
    (∀ e, validHandle x (ea.extractLsb' 32 32) = some e → ea.toNat % 2 ^ 32 % bytes ty = 0 →
      tileSize e < ea.toNat % 2 ^ 32 + bytes ty → tileAccess s t ty iw ea counts go = tileBound 0x02 2 ea) := by
  have hin : entriesIn s t (if (ea.extractLsb' 32 32).extractLsb' 24 8 == 0 then [((ea.extractLsb' 32 32).setWidth 24).toNat] else []) := by
    split
    · next h8 =>
      have h8' : ((ea.extractLsb' 32 32).extractLsb' 24 8).toNat = 0 := congrArg BitVec.toNat (by simpa using h8)
      have hlt : (ea.extractLsb' 32 32).toNat < 2 ^ 24 := by
        simp only [BitVec.extractLsb'_toNat, Nat.shiftRight_eq_div_pow] at h8' ⊢
        omega
      have hw : ((ea.extractLsb' 32 32).setWidth 24).toNat = (ea.extractLsb' 32 32).toNat := by
        simp only [BitVec.toNat_setWidth]
        exact Nat.mod_eq_of_lt hlt
      rw [hw]
      exact he hlt
    · exact fun _ hi => absurd hi List.not_mem_nil
  unfold tileAccess
  dsimp only
  rw [withEntries_here hin, hx, (tileAddress_parts ea).2]
  refine ⟨fun hv => by simp [hv], fun e hv h0 hlt => ?_⟩
  simp only [Option.bind_some, hv, h0, hlt, ne_eq, not_true_eq_false, if_false, decide_true, Bool.true_or, if_true]

theorem tileBound_traps : Sys2Proof.Spec.TileBound := by
  intro s t h x hi hx hin ho traps
  refine ⟨fun a ha => ?_, fun y hy => ?_⟩
  · intro v hv
    have he := entriesIn_entryOf hv
    refine ⟨fun hr => ⟨?_, fun m => ⟨?_, fun px => ?_⟩⟩, fun hr n d hd => ?_⟩
    · unfold traps exec execTfree
      exact issue_trap (nx := false) hi (by exact ha) (by simp) (by exact withHandle_bad hx hr he _) hx hin (by rfl) ho
    · unfold traps exec execTunpin
      exact issue_trap (nx := false) hi (by exact ha) (by simp) (by exact withHandle_bad hx hr he _) hx hin (by rfl) ho
    · unfold traps exec execTpin
      exact issue_trap (nx := false) hi (by exact ha) (by simp) (by exact withHandle_bad hx hr he _) hx hin (by rfl) ho
    · have hda : noneFrom t.ctx [(d, false), (a, false)] = true := by simp_all [noneFrom]
      unfold traps exec execTinfo
      refine issue_trap (nx := false) hi (by exact hda) (by simp) ?_ hx hin (by rfl) ho
      dsimp only
      rw [withEntries_here he, hx]
      refine if_pos ?_
      simp only [Bool.or_eq_true, bne_iff_ne, beq_iff_eq, decide_eq_true_eq, ne_eq, extract_high_eq_zero]
      by_cases h24 : v.toNat < 2 ^ 24
      · rw [setWidth24_toNat h24]
        omega
      · exact .inl (.inl h24)
  · intro ea hv o hh i hm
    have hhv : hv = ea.extractLsb' 32 32 := (tileAddress_parts ea).1
    rw [hhv] at hh ⊢
    have hb := fun iw counts go => tileAccess_bound hx y.ty iw ea counts go hh
    rcases List.mem_cons.mp hm with rfl | hm
    · refine ⟨fun hn => ?_, fun e he h0 hlt => ?_⟩
      · unfold traps exec execTlde
        exact issue_trap (nx := false) hi (by exact hy) (by simp) (by exact (hb _ _ _).1 hn) hx hin (by rfl) ho
      · unfold traps exec execTlde
        exact issue_trap (nx := false) hi (by exact hy) (by simp) (by exact (hb _ _ _).2 e he h0 hlt) hx hin (by rfl) ho
    · obtain rfl := List.mem_singleton.mp hm
      refine ⟨fun hn => ?_, fun e he h0 hlt => ?_⟩
      · unfold traps exec execTste
        exact issue_trap (nx := false) hi (by exact hy) (by simp) (by exact (hb _ _ _).1 hn) hx hin (by rfl) ho
      · unfold traps exec execTste
        exact issue_trap (nx := false) hi (by exact hy) (by simp) (by exact (hb _ _ _).2 e he h0 hlt) hx hin (by rfl) ho

/-- Settles O17. -/
theorem tileHandlesAndBound : Obligations.TileHandlesAndBound := ⟨tileHandles_work, tileBound_traps⟩

end Sys2Proof.Machine
end

