-- ==== Sys2Proof/Proofs/LoadsAndAtomics.lean ====
section
/-! SUPPORT. O32: a load, an atomic and a compare-and-swap of device memory are performed and their result lands (R26, R173 to
R179, R279). -/

namespace Sys2Proof.Machine
open Sys2Proof.Forms Sys2Proof.Spec

/-! What the caches tell the firmware's side: host lines that make room are told to the host, and nothing else (R304). -/

/-- Of what firmware and host have, only messages that go out have been added. -/
def OnlyTells (s s' : State) : Prop := ∃ l, s'.fw = { s.fw with out := s.fw.out ++ l }

theorem onlyTells_of_fw {s s' : State} (h : s'.fw = s.fw) : OnlyTells s s' := ⟨[], by rw [h, List.append_nil]⟩

theorem onlyTells_emit (s : State) (o : Out) : OnlyTells s (emit s o) := ⟨[o], rfl⟩

theorem OnlyTells.trans {a b c : State} (h : OnlyTells a b) (g : OnlyTells b c) : OnlyTells a c := by
  obtain ⟨l, hl⟩ := h
  obtain ⟨m, hm⟩ := g
  exact ⟨l ++ m, by rw [hm, hl, List.append_assoc]⟩

theorem OnlyTells.fw {s s' : State} (h : OnlyTells s s') : s'.fw = { s.fw with out := s'.fw.out } := by
  obtain ⟨l, hl⟩ := h
  rw [hl]

theorem onlyTells_foldl {α : Type} (f : State → α → State) (h : ∀ s x, OnlyTells s (f s x)) (l : List α) (s : State) :
    OnlyTells s (l.foldl f s) := by
  induction l generalizing s with
  | nil => exact onlyTells_of_fw rfl
  | cons x l ih => exact (h s x).trans (ih _)

theorem mergeLine_fw (s : State) (p : Phys) : (mergeLine s p).fw = s.fw := by
  unfold mergeLine
  dsimp only
  split <;> rfl

theorem l2DropOthers_fw (s : State) (b : Option Nat) (p : Phys) : (l2DropOthers s b p).fw = s.fw := by
  unfold l2DropOthers
  exact List.foldlRecOn (motive := fun s' : State => s'.fw = s.fw) _ _ rfl fun s' h c _ => h

theorem onlyTells_tellEvict (s : State) (p : Phys) (x : L2State) : OnlyTells s (tellEvict s p x) := by
  unfold tellEvict
  split
  · exact onlyTells_of_fw rfl
  · split
    · exact onlyTells_emit _ _
    · exact onlyTells_emit _ _
    · exact onlyTells_emit _ _
    · exact onlyTells_of_fw rfl

theorem onlyTells_llcDrop (s : State) (p : Phys) : OnlyTells s (llcDrop s p) := by
  unfold llcDrop
  exact (onlyTells_of_fw rfl).trans (onlyTells_tellEvict _ _ _)

theorem onlyTells_llcRoom (s : State) (p : Phys) : OnlyTells s (llcRoom s p) := by
  unfold llcRoom
  dsimp only
  split
  · exact onlyTells_of_fw rfl
  · split
    · exact (onlyTells_of_fw rfl).trans (onlyTells_llcDrop _ _)
    · exact onlyTells_of_fw rfl

theorem onlyTells_llcPut (s : State) (a : Nat) (d : Bool) : OnlyTells s (llcPut s a d) := by
  unfold llcPut
  dsimp only
  split
  · exact onlyTells_of_fw rfl
  · exact onlyTells_llcRoom s (.dev a)

theorem onlyTells_l2Evict (s : State) (x : L2Line) : OnlyTells s (l2Evict s x) := by
  have h : OnlyTells s (l1Drop (l2Drop (if x.st == .d then mergeLine s x.line else s) x.bench x.line) (some x.bench) x.line) := by
    split
    · exact onlyTells_of_fw (mergeLine_fw s x.line)
    · exact onlyTells_of_fw rfl
  unfold l2Evict
  dsimp only
  split
  · exact h.trans (onlyTells_llcPut _ _ _)
  · split
    · exact h.trans ((onlyTells_llcRoom _ _).trans (onlyTells_of_fw rfl))
    · exact h
  · exact h

theorem onlyTells_l2Room (s : State) (b : Nat) (p : Phys) : OnlyTells s (l2Room s b p) := by
  unfold l2Room
  dsimp only
  split
  · exact onlyTells_llcRoom _ _
  · split
    · exact onlyTells_of_fw rfl
    · split
      · exact (onlyTells_of_fw rfl).trans (onlyTells_l2Evict _ _)
      · exact onlyTells_of_fw rfl

theorem onlyTells_l2Put (s : State) (b : Nat) (p : Phys) (x : L2State) : OnlyTells s (l2Put s b p x) := by
  unfold l2Put
  refine OnlyTells.trans ?_ (onlyTells_of_fw rfl)
  split
  · exact onlyTells_of_fw rfl
  · exact onlyTells_l2Room _ _ _

theorem onlyTells_dirRecall (s : State) (e : DirEnt) : OnlyTells s (dirRecall s e) := by
  unfold dirRecall
  dsimp only
  refine OnlyTells.trans ((onlyTells_foldl _ ?_ _ s).trans (onlyTells_foldl _ ?_ _ _)) (onlyTells_of_fw rfl)
  · intro s l
    split
    · exact onlyTells_of_fw (mergeLine_fw s l)
    · exact onlyTells_of_fw rfl
  · intro s x
    split
    · exact (onlyTells_of_fw rfl).trans (onlyTells_llcPut _ _ _)
    · exact onlyTells_of_fw rfl

theorem onlyTells_dirRoom (a n : Nat) (s : State) : OnlyTells s (dirRoom a n s) := by
  induction n generalizing s with
  | zero => exact onlyTells_of_fw rfl
  | succ n ih =>
    unfold dirRoom
    split
    · exact (onlyTells_dirRecall _ _).trans (ih _)
    · exact onlyTells_of_fw rfl

theorem onlyTells_bringCopies (s : State) (b : Nat) (line : Phys) (need : Need) :
    OnlyTells s (bringCopies s b line need) := by
  unfold bringCopies
  cases need with
  | read =>
    dsimp only
    split
    · exact onlyTells_of_fw rfl
    · exact (onlyTells_of_fw rfl).trans (onlyTells_l2Put _ _ _ _)
  | write => exact (onlyTells_of_fw (l2DropOthers_fw _ _ _)).trans (onlyTells_l2Put _ _ _ _)
  | delta =>
    have h := onlyTells_foldl (fun s c => l2Drop s c line) (fun s c => onlyTells_of_fw rfl)
      ((s.cache.l2.filter fun x => x.line == line && x.st != .d).map (·.bench)) (l1Drop s (some b) line)
    exact OnlyTells.trans h (onlyTells_l2Put _ _ _ _)
  | home => exact onlyTells_of_fw (l2DropOthers_fw _ _ _)

theorem dirNote_fw (s : State) (a : Nat) (o : Option DirKind) : (dirNote s a o).fw = s.fw := by
  unfold dirNote
  split <;> rfl

/-- Bringing a line to what a request needs tells the host of lines that it gives up, at most (R304). -/
theorem onlyTells_obtain (s : State) (b : Nat) (line : Phys) (need : Need) : OnlyTells s (obtain s b line need) := by
  have h1 : ∀ s : State, OnlyTells s (if need == .delta then s else mergeLine s line) := fun s => by
    split
    · exact onlyTells_of_fw rfl
    · exact onlyTells_of_fw (mergeLine_fw s line)
  unfold obtain
  cases line with
  | dev a =>
    exact (((onlyTells_dirRoom a 16 s).trans (h1 _)).trans (onlyTells_bringCopies _ _ _ _)).trans
      ((onlyTells_of_fw (dirNote_fw _ _ _)).trans (onlyTells_llcPut _ _ _))
  | hostC a => exact (h1 s).trans (onlyTells_bringCopies _ _ _ _)
  | hostU a => exact (h1 s).trans (onlyTells_bringCopies _ _ _ _)
  | peer i w o => exact (h1 s).trans (onlyTells_bringCopies _ _ _ _)

/-! An access to a device line that nothing keeps. -/

/-- What performing an access does before its result lands: threads and requests are as they were, and so is all that `Around` names. -/
structure AccessWork (s s' : State) : Prop where
  threads : s'.threads = s.threads
  flight : s'.flight = s.flight
  around : Around s s'

theorem around_trans {a b c : State} (h : Around a b) (g : Around b c) : Around a c :=
  ⟨g.spaces.trans h.spaces, g.mmu.trans h.mmu, g.eng.trans h.eng, g.queues.trans h.queues, by rw [g.fw, h.fw],
    g.pkg.trans h.pkg⟩

theorem AccessWork.trans {a b c : State} (h : AccessWork a b) (g : AccessWork b c) : AccessWork a c :=
  ⟨g.threads.trans h.threads, g.flight.trans h.flight, around_trans h.around g.around⟩

theorem accessWork_count (s : State) (b u n : Nat) : AccessWork s (count s b u n) := ⟨rfl, rfl, rfl, rfl, rfl, rfl, rfl, rfl⟩

theorem accessWork_l1Fill (s : State) (b u : Nat) (line : Phys) : AccessWork s (l1Fill s b u line) :=
  ⟨rfl, rfl, rfl, rfl, rfl, rfl, rfl, rfl⟩

theorem accessWork_writeBy (s : State) (b u : Nat) (p : Phys) (n : Nat) (v : Vec) : AccessWork s (writeBy s b u p n v) :=
  ⟨rfl, rfl, rfl, rfl, rfl, rfl, rfl, rfl⟩

theorem accessWork_l1Store (s : State) (b u : Nat) (p : Phys) (n : Nat) (v : Vec) : AccessWork s (l1Store s b u p n v) :=
  ⟨rfl, rfl, rfl, rfl, rfl, rfl, rfl, rfl⟩

theorem accessWork_obtain (s : State) (b : Nat) (line : Phys) (need : Need) : AccessWork s (obtain s b line need) :=
  have h := obtain_work s b line need
  ⟨h.threads, h.flight, h.spaces, h.mmu, h.eng, h.queues, (onlyTells_obtain s b line need).fw, h.pkg⟩

/-- Nothing keeps a device line from a request: no hold, nobody before it, no copy of the host, no poison, no recall. -/
structure LineOpen (s : State) (id a : Nat) : Prop where
  sound : s.mem.poison.contains (a / 128 * 128) = false
  free : lineHold s (lineOf (.dev a)) = none
  turn : turnOver s (lineOf (.dev a)) (some (.req id)) = false
  host : hostStOf s (a / 128 * 128) = none
  deltas : s.cache.dsums = []
  room : recallGate s (a / 128 * 128) = .go

theorem lineOpen_plain {s : State} {t : Thread} {r : Req} {a : Nat} (h : Plain s t r a) : LineOpen s r.id a :=
  ⟨h.sound, h.free, h.turn, h.host, h.deltas, h.room⟩

theorem lineOpen_fresh {s : State} {id a n : Nat} (h : LineOpen s id a) :
    LineOpen { s with run := { s.run with fresh := n } } id a :=
  ⟨h.sound, h.free, h.turn, h.host, h.deltas, h.room⟩

theorem lineOpen_add {s : State} {id a d : Nat} (h : LineOpen s id a) (hd : a % 128 + d < 128) : LineOpen s id (a + d) := by
  have e : (a + d) / 128 = a / 128 := by omega
  obtain ⟨h1, h2, h3, h4, h5, h6⟩ := h
  exact ⟨by rw [e]; exact h1, by simp only [lineOf, e]; exact h2, by simp only [lineOf, e]; exact h3, by rw [e]; exact h4, h5,
    by rw [e]; exact h6⟩

/-- An access to an open line goes to the caches (R173). -/
theorem access_open {s : State} {r : Req} {a : Nat} (h : LineOpen s r.id a) (hh : isHold r.op = false) :
    access s r (.dev a) = accessCached s r (.dev a) := by
  have hk : keptByHold s r (lineOf (.dev a)) = false := by
    unfold keptByHold
    rw [h.free]
    exact h.turn
  have hb : hostBlocks s (lineOf (.dev a)) (needOf r) = none := by
    simp only [hostBlocks, lineOf, h.host]
  have hg : recallGate s (devAddr (lineOf (.dev a))) = .go := h.room
  have hp : s.mem.poison.contains (a / 128 * 128) = false := h.sound
  unfold access
  simp only [hh, hk, hb, hg, Bool.false_and, Bool.false_eq_true, if_false]
  exact if_neg (Bool.eq_false_iff.mp hp)

/-- With no hold on its line, a coherent read gives the bytes of memory (R173). -/
theorem readCoherent_free {s : State} {p : Phys} (k : Option Key) (n : Nat) (h : lineHold s (lineOf p) = none) :
    readCoherent s k p n = physRead s.mem p n := by
  unfold readCoherent
  rw [h]

theorem lineHold_of_ius {s s' : State} (h : s'.ius = s.ius) (line : Phys) : lineHold s' line = lineHold s line := by
  unfold lineHold holdsOf
  rw [h]

/-- A load of a line without a hold gives the bytes of the IU's copy, if it may use one, else those of memory, and changes
neither memory, threads nor requests (R173, R294). -/
theorem loadBy_open {s : State} {r : Req} {a : Nat} (hop : r.op = .ld) (h : LineOpen s r.id a) :
    AccessWork s (loadBy s r (.dev a)).1 ∧ (loadBy s r (.dev a)).1.mem = s.mem ∧
      ((r.ord = .acq ∨ r.ord = .ar ∨ l1Find s r.bench r.iu (lineOf (.dev a)) = none) →
        (loadBy s r (.dev a)).2 = physRead s.mem (.dev a) r.n) ∧
      (∀ x, ¬ (r.ord = .acq ∨ r.ord = .ar) → r.via = none → l1Find s r.bench r.iu (lineOf (.dev a)) = some x →
        (loadBy s r (.dev a)).2 = lineBytes x.data (a % 128) r.n) := by
  let s0 := count s r.bench r.iu 5
  have hfree0 : lineHold s0 (lineOf (.dev a)) = none := lineHold_count s _ _ _ _ h.free
  have hacq : isAcqOrd r.ord = true ↔ r.ord = .acq ∨ r.ord = .ar := by
    cases r.ord <;> decide
  have hnot : (r.op == ReqOp.hold true) = false := by rw [hop]; rfl
  unfold loadBy
  dsimp only
  rw [h.free, hnot, Option.isSome_none, Bool.or_false, Bool.or_false]
  split
  case h_1 x hx =>
    have hpast : (isAcqOrd r.ord || r.via.isSome) = false := by
      by_contra hc
      rw [Bool.not_eq_false] at hc
      rw [if_pos hc] at hx
      cases hx
    rw [if_neg (by rw [hpast]; decide)] at hx
    have hx : l1Find s r.bench r.iu (lineOf (.dev a)) = some x := hx
    rw [Bool.or_eq_false_iff] at hpast
    refine ⟨accessWork_count _ _ _ _, rfl, ?_, ?_⟩
    · rintro (ho | ho | hn)
      · rw [ho] at hpast; exact absurd hpast.1 (by decide)
      · rw [ho] at hpast; exact absurd hpast.1 (by decide)
      · rw [hx] at hn; cases hn
    · intro y _ _ hy
      rw [hx] at hy
      cases hy
      rfl
  case h_2 hx =>
    let s1 := obtain (count (count s r.bench r.iu 5) r.bench r.iu 6) r.bench (lineOf (.dev a)) .read
    have hw : CacheWork (count (count s r.bench r.iu 5) r.bench r.iu 6) s1 := obtain_work _ _ _ _
    have hm : s1.mem = s.mem := (hw.mem h.deltas).1
    have hf1 : lineHold s1 (lineOf (.dev a)) = none := by
      rw [lineHold_of_ius hw.ius]
      exact lineHold_count _ _ _ _ _ hfree0
    have hs1 : AccessWork s s1 :=
      ((accessWork_count _ _ _ _).trans (accessWork_count _ _ _ _)).trans (accessWork_obtain _ _ _ _)
    have hv : readCoherent s1 (some r.key) (.dev a) r.n = physRead s.mem (.dev a) r.n := by
      rw [readCoherent_free _ _ hf1, hm]
    refine ⟨?_, ?_, fun _ => hv, ?_⟩
    · show AccessWork s (if r.nt || isAcqOrd r.ord then s1 else l1Fill s1 r.bench r.iu (lineOf (.dev a)))
      split
      · exact hs1
      · exact hs1.trans (accessWork_l1Fill _ _ _ _)
    · show (if r.nt || isAcqOrd r.ord then s1 else l1Fill s1 r.bench r.iu (lineOf (.dev a))).mem = s.mem
      split
      · exact hm
      · exact hm
    · intro x ho hvia hfind
      have hpast : (isAcqOrd r.ord || r.via.isSome) = false := by
        rw [Bool.or_eq_false_iff, hvia]
        exact ⟨Bool.eq_false_iff.mpr fun hc => ho (hacq.mp hc), rfl⟩
      rw [if_neg (by rw [hpast]; decide)] at hx
      have hx : l1Find s r.bench r.iu (lineOf (.dev a)) = none := hx
      rw [hfind] at hx
      cases hx

/-- Memory after an atomic that read `old` (R178). -/
def atomicMem (m : Mem) (r : Req) (p : Phys) (old : Vec) : Mem :=
  match atomicNew r old with
  | some v => physWrite m p r.n v
  | none => m

/-- An atomic on an open device line gives the old bytes and writes what the operation makes of them, if it writes (R178, R179). -/
theorem devAtomic_open {s : State} {r : Req} {a : Nat} (h : LineOpen s r.id a) :
    AccessWork s (devAtomic s r (.dev a)).1 ∧ (devAtomic s r (.dev a)).2 = physRead s.mem (.dev a) r.n ∧
      (devAtomic s r (.dev a)).1.mem = atomicMem s.mem r (.dev a) (physRead s.mem (.dev a) r.n) := by
  let s1 := obtain s r.bench (lineOf (.dev a)) (needOf r)
  have hw : CacheWork s s1 := obtain_work _ _ _ _
  have hm : s1.mem = s.mem := (hw.mem h.deltas).1
  have hf1 : lineHold s1 (lineOf (.dev a)) = none := by
    rw [lineHold_of_ius hw.ius]
    exact h.free
  have hs1 : AccessWork s s1 := accessWork_obtain _ _ _ _
  have hover : overHold s1 r.key (.dev a) r.n = s1 := by
    unfold overHold
    rw [hf1]
    rfl
  have hv : readCoherent s1 (some r.key) (.dev a) r.n = physRead s.mem (.dev a) r.n := by
    rw [readCoherent_free _ _ hf1, hm]
  unfold devAtomic atomicMem
  dsimp only
  rw [hv, hover]
  cases atomicNew r (physRead s.mem (.dev a) r.n) with
  | none => exact ⟨hs1.trans (accessWork_l1Store _ _ _ _ _ _), rfl, hm⟩
  | some v =>
    refine ⟨hs1.trans (accessWork_writeBy _ _ _ _ _ _), rfl, ?_⟩
    show physWrite s1.mem (.dev a) r.n v = physWrite s.mem (.dev a) r.n v
    rw [hm]

/-! The result lands. -/

/-- After the work of an access, its result lands in the line (R26). -/
theorem complete_lands {s s1 : State} {t : Thread} {r : Req} {a : Nat} (h : Plain s t r a) (hw : AccessWork s s1)
    (hop : hasResult r.op = true) (v : Vec) :
    Landed s (complete s1 r v) t r v ∧ Around s (complete s1 r v) ∧ (complete s1 r v).mem = s1.mem := by
  have hf1 : findThread s1 r.key = some t := (findThread_of_threads s s1 hw.threads r.key).trans h.thread
  obtain ⟨hline, hothers, hrest⟩ := complete_result s1 r v t hop h.unrecorded hf1 h.cl1 h.pend h.sane h.frz h.cancel
    (by rw [hw.flight]; exact h.kept)
  have hc := cachesAfter_parts (dropReq s1 r.id) r
  have hgone : findReq (complete s1 r v) r.id = none := by
    have : findReq (complete s1 r v) r.id = findReq (dropReq s1 r.id) r.id := by
      unfold findReq
      rw [hrest.flight, hc]
    rw [this]
    exact findReq_drop s1 r.id
  refine ⟨⟨hline, hgone, fun k hk => (hothers k hk).trans (findThread_of_threads s s1 hw.threads k)⟩,
    around_trans hw.around ⟨?_, ?_, ?_, ?_, (onlyTells_of_fw ?_).fw, ?_⟩, ?_⟩
  · rw [hrest.spaces, hc]; rfl
  · rw [hrest.mmu, hc]; rfl
  · rw [hrest.eng, hc]; rfl
  · rw [hrest.queues, hc]; rfl
  · rw [hrest.fw, hc]; rfl
  · rw [hrest.pkg, hc]; rfl
  · rw [hrest.mem, hc]; rfl

/-- `DELIVER_RESULT` of a load or an atomic whose place is known is one attempt there. -/
theorem deliverResult_attempt {s : State} {t : Thread} {r : Req} {a : Nat} (h : Plain s t r a)
    (hop : r.op = .ld ∨ (∃ op, r.op = .amo op) ∨ r.op = .cas) :
    exec (.deliverResult r.id) s = .next (attemptAt s r (.dev a)) := by
  have hmay := h.may
  have htry : (triable r && canPerform s r) = true := by
    unfold mayPerform at hmay
    simp only [Bool.and_eq_true] at hmay ⊢
    exact hmay.1.1
  have hat : attempt s r = .ok (attemptAt s r (.dev a)) := by
    unfold attempt
    rw [htry, h.place]
    rfl
  have hperf : performReq s r = attempt s r := by
    unfold performReq
    rw [h.may]
    rcases hop with e | ⟨op, e⟩ | e <;> rw [e] <;> rfl
  have hres : isResultOp r.op = true := by
    rcases hop with e | ⟨op, e⟩ | e <;> rw [e] <;> rfl
  show execDeliverResult r.id s = _
  unfold execDeliverResult
  rw [h.listed]
  simp only [hres, if_true, hperf, hat, sentOut]

/-- A load that no range of the hardware covers sees what was read (R12, R36). -/
theorem seen_plain {s s1 : State} {r : Req} (hop : r.op = .ld) (hb : plainBytes s r) (hsp : s1.spaces = s.spaces)
    (hth : s1.threads = s.threads) (v : Vec) : seen s1 r v = v := by
  unfold seen
  rw [hop]
  show softView s1 r.key.asid r.va.toNat r.n v = v
  simp only [softView, partView, wordView, slotView, findThread, findSpace, hsp, hth]
  exact hb v

/-- `Landed`, `Around` and memory after a load whose work and value are known. -/
theorem load_lands {s s1 : State} {t : Thread} {r : Req} {a : Nat} (h : Plain s t r a) (hop : r.op = .ld) (hb : plainBytes s r)
    (hw : AccessWork s s1) (hm : s1.mem = s.mem) (v : Vec) :
    Landed s (finishAcc s r (.done s1 v)) t r v ∧ Around s (finishAcc s r (.done s1 v)) ∧ (finishAcc s r (.done s1 v)).mem = s.mem := by
  have e : finishAcc s r (.done s1 v) = complete s1 r v := by
    show complete s1 r (seen s1 r v) = _
    rw [seen_plain hop hb hw.around.spaces hw.threads]
  obtain ⟨hl, ha, hmem⟩ := complete_lands h hw (by rw [hop]; rfl) v
  rw [e]
  exact ⟨hl, ha, hmem.trans hm⟩

/-- A load that is performed at once (R173). -/
theorem load_whole {s : State} {t : Thread} {r : Req} {a : Nat} (h : Plain s t r a) (hop : r.op = .ld) (hb : plainBytes s r)
    (hs : splits r (.dev a) = false) :
    ∃ s' v, exec (.deliverResult r.id) s = .next s' ∧ Landed s s' t r v ∧ Around s s' ∧ s'.mem = s.mem ∧
      ((r.ord = .acq ∨ r.ord = .ar ∨ l1Find s r.bench r.iu (lineOf (.dev a)) = none) → v = physRead s.mem (.dev a) r.n) ∧
      (∀ x, ¬ (r.ord = .acq ∨ r.ord = .ar) → r.via = none → l1Find s r.bench r.iu (lineOf (.dev a)) = some x →
        v = lineBytes x.data (a % 128) r.n) := by
  have hacc : access s r (.dev a) = .done (loadBy s r (.dev a)).1 (loadBy s r (.dev a)).2 := by
    rw [access_open (lineOpen_plain h) (by rw [hop]; rfl)]
    unfold accessCached
    rw [hop]
  have hat : attemptAt s r (.dev a) = finishAcc s r (access s r (.dev a)) := by
    unfold attemptAt
    rw [hs]
    rfl
  obtain ⟨hw, hm, hpast, hhit⟩ := loadBy_open hop (lineOpen_plain h)
  obtain ⟨hl, ha, hmem⟩ := load_lands h hop hb hw hm (loadBy s r (.dev a)).2
  refine ⟨_, (loadBy s r (.dev a)).2, deliverResult_attempt h (.inl hop), ?_⟩
  rw [hat, hacc]
  exact ⟨hl, ha, hmem, hpast, hhit⟩

/-- A half of a split load stays in the line of the load and reads 8 bytes (R279). -/
theorem access_half {s : State} {r : Req} {a i : Nat} (h : LineOpen s r.id a) (hop : r.op = .ld) (hf : a % 128 + 16 ≤ 128) (hi : i < 2) :
    ∃ s1 v, access s (halfReq r i) (physAdd (.dev a) (8 * i)) = .done s1 v ∧ AccessWork s s1 ∧ s1.mem = s.mem ∧
      ((r.ord = .acq ∨ r.ord = .ar ∨ l1Find s r.bench r.iu (lineOf (.dev a)) = none) →
        v = physRead s.mem (.dev (a + 8 * i)) 8) := by
  have ho : LineOpen s (halfReq r i).id (a + 8 * i) := lineOpen_add h (by omega)
  have hop' : (halfReq r i).op = .ld := hop
  obtain ⟨hw, hm, hpast, -⟩ := loadBy_open hop' ho
  refine ⟨_, _, ?_, hw, hm, fun hp => hpast ?_⟩
  · show access s (halfReq r i) (.dev (a + 8 * i)) = _
    rw [access_open ho (by rw [hop']; rfl)]
    unfold accessCached
    rw [hop']
  · have hline : lineOf (.dev (a + 8 * i)) = lineOf (.dev a) := by
      simp only [lineOf, show (a + 8 * i) / 128 = a / 128 by omega]
    rw [hline]
    exact hp

theorem splits_n {r : Req} {p : Phys} (h : splits r p = true) : r.n = 16 := by
  unfold splits at h
  simp only [Bool.and_eq_true, beq_iff_eq] at h
  exact h.1.1

theorem findReq_putReq {s : State} {r q : Req} {id : Nat} (h : findReq s id = some q) (hr : r.id = id) :
    findReq (putReq s r) id = some r := by
  subst hr
  have := find?_modifyFirst (fun x : Req => x.id == r.id) (fun _ => r) s.flight.reqs (fun _ _ => by simp)
  unfold findReq at h ⊢
  rw [h] at this
  exact this

/-- The first half of a split load is kept with the request (R175, R279). -/
theorem load_firstHalf {s : State} {t : Thread} {r : Req} {a : Nat} (h : Plain s t r a) (hop : r.op = .ld)
    (hs : splits r (.dev a) = true) (hn : r.half = none) :
    ∃ s' i v, exec (.deliverResult r.id) s = .next s' ∧ i < 2 ∧
      findReq s' r.id = some { r with half := some (i, v) } ∧ s'.threads = s.threads ∧ Around s s' ∧ s'.mem = s.mem ∧
      ((r.ord = .acq ∨ r.ord = .ar ∨ l1Find s r.bench r.iu (lineOf (.dev a)) = none) →
        v = physRead s.mem (.dev (a + 8 * i)) 8) := by
  have hf : a % 128 + 16 ≤ 128 := splits_n hs ▸ h.fits
  have hi : Config.freePick s.run.fresh % 2 < 2 := Nat.mod_lt _ (by decide)
  obtain ⟨s1, v, hacc, hw, hm, hv⟩ :=
    access_half (i := Config.freePick s.run.fresh % 2) (lineOpen_fresh (n := s.run.fresh + 1) (lineOpen_plain h)) hop hf hi
  have hat : attemptAt s r (.dev a) =
      putReq (leaveTurns s1 (some (.req r.id))) { r with half := some (Config.freePick s.run.fresh % 2, v) } := by
    unfold attemptAt
    rw [hs, hn]
    simp only [Bool.not_true, Bool.false_eq_true, if_false, hacc]
  have hlisted : findReq (leaveTurns s1 (some (.req r.id))) r.id = some r := by
    unfold findReq leaveTurns
    rw [hw.flight]
    exact h.listed
  refine ⟨_, _, v, deliverResult_attempt h (.inl hop), hi, ?_⟩
  rw [hat]
  exact ⟨findReq_putReq hlisted rfl, hw.threads, ⟨hw.around.spaces, hw.around.mmu, hw.around.eng, hw.around.queues, hw.around.fw,
    hw.around.pkg⟩, hm, hv⟩

/-- The other half joins the first, and the result lands (R26, R279). -/
theorem load_secondHalf {s : State} {t : Thread} {r : Req} {a i : Nat} {v : Vec} (h : Plain s t r a) (hop : r.op = .ld)
    (hb : plainBytes s r) (hs : splits r (.dev a) = true) (hi : i < 2) (hh : r.half = some (i, v)) :
    ∃ s' w, exec (.deliverResult r.id) s = .next s' ∧ Landed s s' t r (joined i v w) ∧ Around s s' ∧ s'.mem = s.mem ∧
      ((r.ord = .acq ∨ r.ord = .ar ∨ l1Find s r.bench r.iu (lineOf (.dev a)) = none) →
        w = physRead s.mem (.dev (a + 8 * (1 - i))) 8) := by
  have hf : a % 128 + 16 ≤ 128 := splits_n hs ▸ h.fits
  obtain ⟨s1, w, hacc, hw, hm, hv⟩ := access_half (i := 1 - i) (lineOpen_plain h) hop hf (by omega)
  have hj : joinHalves i v w = joined i v w := by
    simp only [joinHalves, joined, beq_iff_eq]
  have hat : attemptAt s r (.dev a) = finishAcc s r (.done s1 (joined i v w)) := by
    unfold attemptAt
    rw [hs, hh]
    simp only [Bool.not_true, Bool.false_eq_true, if_false, hacc, hj]
  obtain ⟨hl, ha, hmem⟩ := load_lands h hop hb hw hm (joined i v w)
  refine ⟨_, w, deliverResult_attempt h (.inl hop), ?_⟩
  rw [hat]
  exact ⟨hl, ha, hmem, hv⟩

/-- An atomic or compare-and-swap is done on the device line, and what it read is its value (R178, R179). -/
theorem access_atomic {s : State} {r : Req} {a : Nat} (h : LineOpen s r.id a) (hop : (∃ op, r.op = .amo op) ∨ r.op = .cas) :
    access s r (.dev a) = .done (devAtomic s r (.dev a)).1 (devAtomic s r (.dev a)).2 := by
  rcases hop with ⟨op, hop⟩ | hop
  · rw [access_open h (by rw [hop]; rfl)]
    unfold accessCached
    simp only [hop, isDev, if_true]
  · rw [access_open h (by rw [hop]; rfl)]
    unfold accessCached
    simp only [hop]

/-- An atomic or compare-and-swap lands the old bytes and writes the new ones (R178, R179). -/
theorem atomic_lands {s : State} {t : Thread} {r : Req} {a : Nat} (h : Plain s t r a)
    (hop : (∃ op, r.op = .amo op) ∨ r.op = .cas) :
    ∃ s', exec (.deliverResult r.id) s = .next s' ∧ Landed s s' t r (physRead s.mem (.dev a) r.n) ∧ Around s s' ∧
      s'.mem = atomicMem s.mem r (.dev a) (physRead s.mem (.dev a) r.n) := by
  have hclass : splits r (.dev a) = false ∧ hasResult r.op = true ∧ ∀ s1 v, seen s1 r v = v := by
    unfold splits seen
    rcases hop with ⟨op, e⟩ | e
    · rw [e]; exact ⟨by simp, rfl, fun _ _ => rfl⟩
    · rw [e]; exact ⟨by simp, rfl, fun _ _ => rfl⟩
  obtain ⟨hwhole, hres, hseen⟩ := hclass
  obtain ⟨hw, hv, hm⟩ := devAtomic_open (r := r) (lineOpen_plain h)
  have hat : attemptAt s r (.dev a) = complete (devAtomic s r (.dev a)).1 r (physRead s.mem (.dev a) r.n) := by
    unfold attemptAt
    rw [hwhole, access_atomic (lineOpen_plain h) hop, hv]
    show complete _ r (seen _ r _) = _
    rw [hseen]
  obtain ⟨hl, ha, hmem⟩ := complete_lands h hw hres (physRead s.mem (.dev a) r.n)
  refine ⟨_, deliverResult_attempt h (.inr hop), ?_⟩
  rw [hat]
  exact ⟨hl, ha, hmem.trans hm⟩

/-- Settles O32: the attempt at an open line goes to the caches, which leave memory as it is, and its value lands. -/
theorem loadsAndAtomics : Obligations.LoadsAndAtomics := by
  unfold Obligations.LoadsAndAtomics
  intro s t r a h old past
  refine ⟨fun hop hb => ⟨load_whole h hop hb, load_firstHalf h hop, fun i v hs hi hh => load_secondHalf h hop hb hs hi hh⟩,
    fun op hop => ?_, fun hop => ?_⟩
  · obtain ⟨s', he, hl, ha, hm⟩ := atomic_lands h (.inl ⟨op, hop⟩)
    refine ⟨s', he, hl, ha, hm.trans ?_⟩
    unfold atomicMem atomicNew
    rw [hop]
  · obtain ⟨s', he, hl, ha, hm⟩ := atomic_lands h (.inr hop)
    refine ⟨s', he, hl, ha, hm.trans ?_⟩
    have hnew : atomicNew r old = if old = r.dat then some r.dat2 else none := by
      unfold atomicNew
      rw [hop]
      simp only [beq_iff_eq]
    show atomicMem s.mem r (.dev a) old = _
    unfold atomicMem
    rw [hnew]
    by_cases heq : old = r.dat
    · rw [if_pos heq, if_pos heq]
    · rw [if_neg heq, if_neg heq]

end Sys2Proof.Machine
end

