-- ==== Sys2Proof/Proofs/SpaceEvents.lean ====
section
/-! SUPPORT. O42 fails: its clause on resume does not assume that an `ASID` has one descriptor, and when a saved slot enters its queue
the descriptor is written back over the first one of its `ASID` (R358). -/

namespace Sys2Proof.Machine
open Sys2Proof.Forms

/-- A command that waits in slot 0 of IU 0 of bench 0 to enter its queue. -/
def waitingSlot : CmdSave :=
  { iu := 0, slot := 0, state := 0, ctx := 0, lslot := 0, sup := false, tok := 0, iw := 0, mode := 0, a := 0, b := 0, c := 0, pos := 0 }

/-- A suspended space of `ASID` 1 whose slot waits. -/
def suspendedTwin : Space :=
  { asid := 1, ptroot := 0, susp := true, ctxbase := 0, tvec := 0, htbase := 0, htsize := 0, tback := 0, esave := 0, limit := 2
    cmdSave := [waitingSlot] }

/-- A running space of the same `ASID` with a waiting slot and a saved stream instruction. -/
def runningTwin : Space := { suspendedTwin with susp := false, strmSave := [{ bench := 0, req := 0, pos := {} }] }

/-- The reset state with both spaces; `ADDRESS_SPACE_CREATE` never makes the second (R34). -/
def twinState : State := { State.reset with spaces := [suspendedTwin, runningTwin] }

/-- On resume the second space's slot enters the queue as well, and its descriptor takes the place of the first. -/
theorem resume_twins : findSpace (resumeSpace twinState 1) 1 = some { runningTwin with cmdSave := [] } := by decide +kernel

/-- Refutes O42 by its clause on resume: with two descriptors of one `ASID`, which the clause does not exclude, the resumed space
does not end with an empty list of saved stream instructions. -/
theorem not_spaceEvents : ¬ Obligations.SpaceEvents := by
  unfold Obligations.SpaceEvents
  rintro ⟨-, -, hsuspend, -⟩
  obtain ⟨-, hresume⟩ := hsuspend twinState 1 suspendedTwin (by decide +kernel)
  obtain ⟨s', y, hs', hy, -, hstreams, -⟩ := hresume rfl (by decide +kernel)
  have hnext : s' = resumeSpace twinState 1 := by
    injection hs' with h
    exact h.symm
  rw [hnext, resume_twins] at hy
  injection hy with hy
  rw [← hy] at hstreams
  exact absurd hstreams (by decide)

end Sys2Proof.Machine
end

