-- ==== Sys2Proof/Proofs/LaunchEvents.lean ====
section
/-! SUPPORT. O49: a launch takes its slot, a crew is placed, a launch completes, a thread is cancelled, and the functions share the
module (R20, R334, R375, R385, R386, R389). -/

namespace Sys2Proof.Machine
open Sys2Proof.Forms Sys2Proof.Spec

/-! Queues and launch slots under an update of one of them. -/

theorem findQueue_onQueue (s : State) (fn qid : Nat) (g : Queue → Queue) (hg : ∀ q, (g q).fn = q.fn ∧ (g q).qid = q.qid) :
    findQueue (onQueue s fn qid g) fn qid = (findQueue s fn qid).map g :=
  find?_modifyFirst (fun q : Queue => q.fn == fn && q.qid == qid) g s.queues.qs fun q h => by rw [(hg q).1, (hg q).2]; exact h

theorem findQueue_of_qs {s s' : State} (h : s'.queues.qs = s.queues.qs) (fn qid : Nat) :
    findQueue s' fn qid = findQueue s fn qid := by
  unfold findQueue
  rw [h]

theorem queueState_names (q : Queue) : (queueState q).fn = q.fn ∧ (queueState q).qid = q.qid := by
  unfold queueState
  split <;> exact ⟨rfl, rfl⟩

/-- The derived state of a queue is its state alone (R378). -/
theorem queueState_eq (q : Queue) : queueState q = { q with st := (queueState q).st } := by
  unfold queueState
  split <;> rfl

theorem queueState_destroying (q : Queue) (h : q.st ≠ .destroying) : (queueState q).st ≠ .destroying := by
  unfold queueState
  split
  · dsimp only; split <;> decide
  · dsimp only; split <;> decide
  · exact h

theorem findLaunch_onSlot (s : State) (n : Nat) (f : LaunchSlot → LaunchSlot) (hf : ∀ l, (f l).n = l.n) :
    (onSlot s n f).queues.launches.find? (fun l => l.n == n) = (s.queues.launches.find? fun l => l.n == n).map f :=
  find?_modifyFirst (fun l : LaunchSlot => l.n == n) f s.queues.launches fun l h => by rw [hf]; exact h

/-! A front end's step. -/

theorem running_feRuns {s : State} {q : Queue} (h : feRuns s q = true) : running s = true := by
  unfold feRuns feUp at h
  simp only [Bool.and_eq_true] at h
  exact h.2.1.1.1

/-- The row of a packet that is ready runs its work (R383). -/
theorem packetRow_ready {s : State} {q : Queue} {p : Packet} {t : PkTy} (h : AtFront s q p t) (hst : p.st = .ready)
    (go : State → Queue → Packet → Host.Outcome State Fault Refusal) : packetRow s q.fn q.qid t go = go s q p := by
  unfold packetRow
  rw [h.queue]
  dsimp only
  rw [h.pk]
  dsimp only
  rw [h.fault, running_feRuns h.runs, h.type, hst]
  simp only [h.runs, bne_self_eq_false, Bool.false_eq_true, if_false, if_true, Option.isSome_none, Bool.not_true, Bool.or_false]
  rfl

/-- A launch that is ready takes the lowest free slot (R385). -/
theorem launch_takes {s s1 : State} {q : Queue} {p : Packet} {h : List Word} {n : Nat} (hf : AtFront s q p .launch)
    (hst : p.st = .ready) (hsv : q.saving = false) (hw : feWords s (feWho q) (khdrVa p) 8 = .ok s1 h) (hok : hdrOk h = true)
    (hn : freeLaunchSlot s1 = some n) :
    exec (.launch q.fn q.qid) s = .next (takeSlot (leaveTurns s1 (some (.queue q.fn q.qid))) q p h n) := by
  show execLaunch q.fn q.qid s = _
  unfold execLaunch
  rw [packetRow_ready hf hst]
  have hslot : freeLaunchSlot (leaveTurns s1 (some (.queue q.fn q.qid))) = some n := hn
  simp only [hst, hsv, hw, atomically, hok, hslot, bne_self_eq_false, Bool.false_and, Bool.false_eq_true, if_false, Bool.not_true]

theorem takeSlot_queue {s : State} {q : Queue} (p : Packet) (h : List Word) (n : Nat) (hq : findQueue s q.fn q.qid = some q) :
    ∃ x, findQueue (takeSlot s q p h n) q.fn q.qid = some x ∧ x.clslot = BitVec.ofNat 8 n ∧ x.pk = some { p with st := .writing } ∧
      x.ridx = q.ridx := by
  refine ⟨{ q with clslot := BitVec.ofNat 8 n, lprog := (List.range 9).map (BitVec.ofNat 32), pk := some { p with st := .writing } },
    ?_, rfl, rfl, rfl⟩
  unfold takeSlot
  rw [findQueue_onQueue (hg := by intro q; exact ⟨rfl, rfl⟩)]
  exact congrArg (Option.map _) hq

/-! A new line. -/

theorem pauseHolds_off (s : State) (t : Thread) (h : t.ctx.hact = false) : pauseHolds s t = s := by
  unfold pauseHolds
  rw [h]
  rfl

/-- A thread created where its CL2 has room stands there with the line it was given (R20, R326). -/
theorem createThread_line {s : State} {k : Key} {c : Ctx} {b : Nat} (hroom : cl2Used s b < Config.cl2Lines)
    (hnew : findThread s k = none) (hfrz : c.frz = false) (hdh : c.dhalt = false) (hwk : c.wkind = 0) (hact : c.hact = false) :
    (∃ t, findThread (createThread s k c b) k = some t ∧ t.ctx = c ∧ t.bench = b ∧ t.loc = .placed .cl2) ∧
      (createThread s k c b).spaces = s.spaces ∧ (createThread s k c b).mem = s.mem := by
  let x := newTrapLine s
  let q := takeSeq x.2
  let t0 : Thread := { key := k, uid := q.1, ctx := c, trap := x.1, bench := b }
  let s0 := addThread q.2 t0
  let t1 : Thread := { t0 with
    ready := some { level := t0.ctx.prio.toNat, since := s0.run.now, join := (takeSeq s0).1 }, yielded := false }
  have hcl2 : cl2Room s b = s := by
    unfold cl2Room
    rw [if_pos hroom]
  have hadd : findThread s0 k = some t0 := by
    show (s.threads ++ [t0]).find? _ = _
    rw [List.find?_append, show s.threads.find? (fun t => t.key == k) = none from hnew]
    simp [t0]
  have hset : ∀ t : Thread, t.key = k → findThread (setThread s0 t) k = some t := by
    intro t hk
    subst hk
    rw [findThread_setThread, hadd]
    rfl
  have hpark : parked t0 = false := rfl
  have hmay : mayIssue t0 = true := by
    unfold mayIssue
    rw [hpark]
    simp [t0, hfrz, hdh]
  have hwkind : wkindOf s0 t0 = 0 := by
    unfold wkindOf
    rw [hpark]
    simp [t0, hwk, inCl1]
  have hsame : ({ t0 with ctx := { t0.ctx with wkind := wkindOf s0 t0 } } : Thread) = t0 := by
    rw [hwkind, ← hwk]
  have e : createThread s k c b = if suspended s0 k.asid then setThread s0 t0 else joinReady s0 t0 := by
    show refresh (addThread (takeSeq (newTrapLine (cl2Room s b)).2).2 _) k = _
    rw [hcl2]
    show refresh s0 k = _
    unfold refresh
    rw [hadd]
    simp only [pauseHolds_off s0 t0 hact, hsame]
    rw [if_pos (show listable t0 = true by unfold listable; rw [hmay]; rfl)]
    rfl
  rw [e]
  split
  · exact ⟨⟨t0, hset t0 rfl, rfl, rfl, rfl⟩, rfl, rfl⟩
  · exact ⟨⟨t1, hset t1 rfl, rfl, rfl, rfl⟩, rfl, rfl⟩

/-! A crew of one thread. -/

/-- The launch that a queue writes is the one that its number finds. -/
theorem writingLaunch_find {s : State} {q : Queue} {l : LaunchSlot} (h : writingLaunch s q = some l) :
    s.queues.launches.find? (fun x => x.n == l.n) = some l := by
  unfold writingLaunch at h
  split at h
  · split at h
    · have hn := List.find?_some h
      rw [beq_iff_eq] at hn
      rw [hn]
      exact h
    · cases h
  · cases h

/-- A front end that begins on a queue changes queues alone, and no launch. -/
theorem feBegin_keeps {s s0 : State} {d : Nat} {q : Queue} (h : feBegin s d q = some s0) :
    s0.queues.launches = s.queues.launches ∧ s0.spaces = s.spaces ∧ s0.mem = s.mem := by
  unfold feBegin at h
  split at h
  · cases h; exact ⟨rfl, rfl, rfl⟩
  · split at h
    · cases h
    · cases h; exact ⟨rfl, rfl, rfl⟩

/-- A crew's one id, allocated now, is the one that the front end of the die then holds (R334). -/
theorem allocCrew_holds {s : State} {l : LaunchSlot} {die : Nat} {id : BitVec 32} {y : Space}
    (hl : s.queues.launches.find? (fun x => x.n == l.n) = some l) (hnone : heldIds l die = none) (hidle : idBusy s l.asid id = false)
    (hy : (findSpace s l.asid).bind (allocIds 1) = some ([id], y)) :
    ((allocCrew s l die 1).queues.launches.find? fun x => x.n == l.n).bind (heldIds · die) = some [id] ∧
      (allocCrew s l die 1).mem = s.mem := by
  have e : allocCrew s l die 1 = onSlot (setSpace s y) l.n fun l => { l with held := l.held ++ [(die, [id])] } := by
    unfold allocCrew
    rw [hy]
    simp only [List.any_cons, List.any_nil, hidle, Bool.or_false, Bool.false_eq_true, if_false]
  have hheld : l.held.find? (fun x => x.1 == die) = none := Option.map_eq_none_iff.mp hnone
  rw [e]
  refine ⟨?_, rfl⟩
  rw [findLaunch_onSlot (hf := by intro l; rfl), show (setSpace s y).queues = s.queues from rfl, hl]
  show ((l.held ++ [(die, [id])]).find? fun x => x.1 == die).map (·.2) = some [id]
  rw [List.find?_append, hheld]
  simp

/-- Placing a crew of one thread writes its line and nothing else but queues (R334, R385). -/
theorem offerCrew_one {s : State} {q : Queue} {l : LaunchSlot} {die c i b : Nat} {id : BitVec 32} (hcrew : crewThreads l c = [i])
    (hb : crewBench s l die 1 = some b) (hroom : cl2Used s b < Config.cl2Lines) (hnew : findThread s ⟨l.asid, id⟩ = none) :
    (∃ t, findThread (offerCrew s q l die c [id]) ⟨l.asid, id⟩ = some t ∧ t.ctx = launchCtx l c i id ∧ t.bench = b ∧
      t.loc = .placed .cl2) ∧
      (offerCrew s q l die c [id]).spaces = s.spaces ∧ (offerCrew s q l die c [id]).mem = s.mem := by
  let s1 := createThread s ⟨l.asid, id⟩ (launchCtx l c i id) b
  have hpass : ∀ (x : State) (lprog : List (BitVec 32)), (passWritten x q l lprog).threads = x.threads ∧
      (passWritten x q l lprog).spaces = x.spaces ∧ (passWritten x q l lprog).mem = x.mem := by
    intro x lprog
    unfold passWritten
    split <;> exact ⟨rfl, rfl, rfl⟩
  have hwrite : (writeCrew s l c b [id]).threads = s1.threads ∧ (writeCrew s l c b [id]).spaces = s1.spaces ∧
      (writeCrew s l c b [id]).mem = s1.mem := by
    unfold writeCrew
    rw [hcrew]
    exact ⟨rfl, rfl, rfl⟩
  have e : offerCrew s q l die c [id] = passWritten (writeCrew s l c b [id]) q l (q.lprog.set die (BitVec.ofNat 32 (c + 9))) := by
    unfold offerCrew
    rw [show [id].length = 1 from rfl, hb]
  obtain ⟨⟨t, ht, hctx, hbench, hloc⟩, hspaces, hmem⟩ :=
    createThread_line (c := launchCtx l c i id) hroom hnew rfl rfl rfl rfl
  obtain ⟨pthreads, pspaces, pmem⟩ := hpass (writeCrew s l c b [id]) (q.lprog.set die (BitVec.ofNat 32 (c + 9)))
  obtain ⟨wthreads, wspaces, wmem⟩ := hwrite
  rw [e]
  refine ⟨⟨t, ?_, hctx, hbench, hloc⟩, pspaces.trans (wspaces.trans hspaces), pmem.trans (wmem.trans hmem)⟩
  rw [findThread_of_threads _ _ (pthreads.trans wthreads)]
  exact ht

/-- `LAUNCH_CREW_PLACE` offers the crew whose ids are held, or are allocated now (R334). -/
theorem launchCrewPlace_offers {s s0 s1 : State} {q : Queue} {l : LaunchSlot} {die : Nat} {ids : List (BitVec 32)}
    (hq : findQueue s q.fn q.qid = some q) (hl : writingLaunch s q = some l) (hdie : die < 9) (hfe : feRuns s q = true)
    (hsv : q.saving = false) (hup : s.pkg.diesDown.contains die = false) (hc : (q.lprog.getD die 0).toNat < crewCount l)
    (hbegin : feBegin s die q = some s0)
    (hs1 : s1 = if (heldIds l die).isSome then s0 else allocCrew s0 l die (crewThreads l (q.lprog.getD die 0).toNat).length)
    (hids : (s1.queues.launches.find? fun x => x.n == l.n).bind (heldIds · die) = some ids) :
    exec (.launchCrewPlace die q.fn q.qid) s = .next (offerCrew s1 q l die (q.lprog.getD die 0).toNat ids) := by
  have hgo : (decide (9 ≤ die) || !feRuns s q || q.saving || s.pkg.diesDown.contains die ||
      decide (crewCount l ≤ (q.lprog.getD die 0).toNat)) = false := by
    rw [hfe, hsv, hup, decide_eq_false (by omega), decide_eq_false (by omega)]
    rfl
  show execLaunchCrewPlace die q.fn q.qid s = _
  unfold execLaunchCrewPlace
  rw [hq]
  dsimp only
  rw [hl]
  dsimp only
  rw [if_neg (by rw [hgo]; decide), hbegin]
  dsimp only
  rw [← hs1, hids]

/-! The end of a launch. -/

/-- The packet of a launch without a token completes when its threads are gone (R386). -/
theorem launchComplete_ends {s : State} {q : Queue} {l : LaunchSlot} (hq : findQueue s q.fn q.qid = some q) (hfn : l.fn = q.fn)
    (hqid : l.qid = q.qid) (hl : s.queues.launches.find? (fun x => x.n == l.n) = some l) (hfill : l.filled = false)
    (hcan : l.cancelled = false) (hwr : l.written = true) (hlive : l.live = 0) (hfault : l.fault = none) (htok : l.ctok = 0)
    (hrun : running s = true) : exec (.launchComplete l.n) s = .next (endLaunch s l) := by
  have hfillTok : feFill s q (l.ctok.setWidth 64) (tokenWord 0 (l.tcount.setWidth 48)) = .ok s () := by
    unfold feFill
    rw [htok]
    rfl
  show execLaunchComplete l.n s = _
  unfold execLaunchComplete
  rw [hl]
  simp only [hfill, hcan, hwr, hlive, hfault, hrun, hfn, hqid, hq, Bool.false_eq_true, if_false, beq_self_eq_true, Bool.and_self,
    Bool.not_true, Option.isSome_none, Bool.or_self, hfillTok]

theorem endLaunch_frees {s : State} {q : Queue} {l : LaunchSlot} (hq : findQueue s q.fn q.qid = some q) (hfn : l.fn = q.fn)
    (hqid : l.qid = q.qid) (hl : s.queues.launches.find? (fun x => x.n == l.n) = some l) (hlive : l.live = 0)
    (hst : q.st ≠ .destroying) :
    ∃ x, (∀ y ∈ (endLaunch s l).queues.launches, y.n ≠ l.n) ∧ findQueue (endLaunch s l) q.fn q.qid = some x ∧
      x.donepk = q.donepk + 1 ∧ x.incomplete = q.incomplete - 1 ∧ x.ridx = q.ridx ∧ (endLaunch s l).mem = s.mem ∧
      (endLaunch s l).threads = s.threads := by
  let s1 := packetDone (onSlot s l.n fun l => { l with filled := true }) l.fn l.qid
  let q1 : Queue := { q with donepk := q.donepk + 1, doneAt := s.run.now, incomplete := q.incomplete - 1 }
  have hq1 : findQueue s1 q.fn q.qid = some (queueState q1) := by
    show findQueue (packetDone (onSlot s l.n _) l.fn l.qid) q.fn q.qid = _
    rw [hfn, hqid]
    unfold packetDone
    rw [findQueue_onQueue (hg := by intro q; exact queueState_names _)]
    exact congrArg (Option.map _) hq
  have hl1 : s1.queues.launches.find? (fun x => x.n == l.n) = some { l with filled := true } := by
    show (onSlot s l.n fun l => { l with filled := true }).queues.launches.find? _ = _
    rw [findLaunch_onSlot (hf := by intro l; rfl), hl]
    rfl
  have hdying : (queueState q1).st ≠ .destroying := queueState_destroying q1 hst
  have e : endLaunch s l = { s1 with queues := { s1.queues with launches := s1.queues.launches.filter fun x => x.n != l.n } } := by
    show freeLaunch s1 l.n = _
    unfold freeLaunch
    rw [hl1]
    simp only [hfn, hqid, hq1, hlive, Option.map_some, Option.getD_some, beq_eq_false_iff_ne.mpr hdying, Bool.false_and,
      Bool.not_false, Bool.and_true, beq_self_eq_true, if_true]
  rw [e]
  refine ⟨queueState q1, ?_, hq1, ?_, ?_, ?_, rfl, rfl⟩
  · intro y hy
    have := (List.mem_filter.mp hy).2
    simpa using this
  · rw [queueState_eq]
  · rw [queueState_eq]
  · rw [queueState_eq]

/-! A cancelled thread. -/

theorem endHolds_none {s : State} {k : Key} (h : holdPlaces s k = []) : endHolds s k = s := by
  unfold endHolds
  rw [h]
  rfl

theorem markCancelled_none {s : State} {hit : Cmd → Bool} (h : ∀ c ∈ s.eng.cmds, hit c = false) : markCancelled s hit = s := by
  unfold markCancelled
  rw [List.filter_eq_nil_iff.mpr fun c hc => by rw [h c hc]; decide]
  rfl

theorem cancelSaved_none {s : State} (hit : Space → CmdSave → Bool) (h : ∀ y ∈ s.spaces, y.cmdSave = []) : cancelSaved s hit = s := by
  have e : (s.spaces.map fun x => { x with cmdSave := x.cmdSave.map fun e => if hit x e then { e with status := 1 } else e }) =
      s.spaces := by
    conv_rhs => rw [← List.map_id s.spaces]
    refine List.map_congr_left fun x hx => ?_
    rw [h x hx, List.map_nil, ← h x hx]
    rfl
  unfold cancelSaved
  rw [e]

/-- Orphaning requests drops some and changes others; nothing but requests, waiters and turns follows. -/
theorem orphanReqs_keeps (s : State) (k : Key) : orphanReqs s k = { s with flight := (orphanReqs s k).flight } := by
  have h : ∀ (l : List Req) (x : State), x = { s with flight := x.flight } →
      l.foldl (fun s r => dropReq s r.id) x = { s with flight := (l.foldl (fun s r => dropReq s r.id) x).flight } := by
    intro l
    induction l with
    | nil => exact fun x hx => hx
    | cons r l ih =>
      intro x hx
      refine ih (dropReq x r.id) ?_
      rw [hx]
      rfl
  unfold orphanReqs
  dsimp only
  rw [h _ s rfl]

theorem findThread_dropThread_same (s : State) (k : Key) : findThread (dropThread s k) k = none := by
  unfold findThread dropThread
  rw [List.find?_eq_none]
  intro x hx
  simpa using (List.mem_filter.mp hx).2

theorem findThread_dropThread_other (s : State) {j k : Key} (h : j ≠ k) : findThread (dropThread s k) j = findThread s j := by
  unfold findThread dropThread
  rw [List.find?_filter]
  refine congrArg (List.find? · s.threads) (funext fun t => ?_)
  by_cases ht : t.key = j
  · simp [ht, h]
  · simp [ht]

/-- A thread without holds or commands is cancelled: its line is gone and its id is free again (R337, R389). -/
theorem cancelThread_frees {s : State} {t : Thread} {x : Space} (hx : findSpace s t.key.asid = some x) (hh : holdPlaces s t.key = [])
    (hc : ∀ c ∈ s.eng.cmds, c.key ≠ t.key) (hs : ∀ y ∈ s.spaces, y.cmdSave = []) :
    ∃ y, findThread (cancelThread s t) t.key = none ∧ (∀ k, k ≠ t.key → findThread (cancelThread s t) k = findThread s k) ∧
      findSpace (cancelThread s t) t.key.asid = some y ∧ y.free = t.key.ctx :: x.free ∧ y.live = x.live - 1 ∧
      (cancelThread s t).mem = s.mem := by
  let s1 := orphanReqs s t.key
  let drop := fun (sp : Space) =>
    returnId { sp with handles := sp.handles.map fun h => if h.v && h.owner == t.ctx.ctxid then { h with owner := 0 } else h } t.key.ctx
  let s2 := onSpace s1 t.key.asid drop
  let s3 := onLaunch (orphan s2 t.key) t.ctx.lslot fun l => { l with live := l.live - 1 }
  have hs1 : s1 = { s with flight := s1.flight } := orphanReqs_keeps s t.key
  have hheld : endHolds s1 t.key = s1 := endHolds_none (by rw [hs1]; exact hh)
  have e : cancelThread s t = dropThread s3 t.key := by
    unfold cancelThread
    rw [endHolds_none hh, markCancelled_none fun c hm => by simp [hc c hm]]
    dsimp only
    rw [cancelSaved_none _ hs]
    unfold retireThread
    rw [hheld]
  have hthreads : s3.threads = s.threads := by
    show s1.threads = s.threads
    rw [hs1]
  have hmem : s3.mem = s.mem := by
    show s1.mem = s.mem
    rw [hs1]
  have hfind : findSpace s1 t.key.asid = some x := by
    rw [hs1]
    exact hx
  have hspace : findSpace s2 t.key.asid = some (drop x) := by
    rw [findSpace_onSpace s1 t.key.asid t.key.asid drop fun _ => rfl, if_pos rfl, hfind]
    rfl
  rw [e]
  refine ⟨drop x, findThread_dropThread_same _ _, fun k hk => ?_, hspace, rfl, rfl, hmem⟩
  rw [findThread_dropThread_other _ hk, findThread_of_threads _ _ hthreads]

/-! Arbitration: an address space without work is suspended and resumed (R356, R358, R375). -/

/-- Nothing is in flight in the module: no thread, no request, no command. -/
structure AtRest (s : State) : Prop where
  threads : s.threads = []
  reqs : s.flight.reqs = []
  cmds : s.eng.cmds = []

theorem queuedOf_rest {s : State} (h : AtRest s) (a : BitVec 16) : queuedOf s a = [] := by
  have hfind : ∀ n, findCmd s n = none := fun n => by unfold findCmd; rw [h.cmds]; rfl
  unfold queuedOf
  rw [List.flatMap_eq_nil_iff]
  intro iu _
  rw [show iu.queue.filterMap (findCmd s) = [] from List.filterMap_eq_nil_iff.mpr fun n _ => hfind n]
  rfl

theorem streamsOf_rest {s : State} (h : AtRest s) (a : BitVec 16) : streamsOf s a = [] := by
  unfold streamsOf
  rw [h.reqs]
  rfl

theorem keysOf_rest {s : State} (h : s.threads = []) (a : BitVec 16) : keysOf s a = [] := by
  unfold keysOf
  rw [h]
  rfl

/-- The descriptor of a space that has been suspended: its pins are cleared (R356). -/
def suspendedForm (x : Space) : Space := { x with susp := true, handles := x.handles.map fun h => { h with pin := 0 } }

/-- With nothing in flight a suspension changes the descriptor and the tags of the matrix engines (R356). -/
theorem suspendSpace_rest {s : State} {a : BitVec 16} {x : Space} (h : AtRest s) (hx : findSpace s a = some x) :
    suspendSpace s a = if x.susp then s else dropTags (onSpace s a suspendedForm) a := by
  have ha : x.asid = a := findSpace_asid hx
  unfold suspendSpace
  rw [hx]
  cases hs : x.susp with
  | true => simp only [Option.filter, hs, Bool.not_true, Bool.false_eq_true, if_false, if_true]
  | false =>
    have hslots : suspendSlots s x = [] := by
      unfold suspendSlots
      rw [queuedOf_rest h, streamsOf_rest h]
      rfl
    simp only [Option.filter, hs, Bool.not_false, if_true, hslots, saveGate, Option.getD_none, Bool.false_eq_true, if_false]
    unfold suspendNow
    have hkeys : keysOf (onSpace s a suspendedForm) a = [] := keysOf_rest h.threads a
    have hcmds : (onSpace s a suspendedForm).eng.cmds = [] := h.cmds
    simp only [queuedOf_rest h, streamsOf_rest h, ha, List.foldl_nil, List.map_nil, List.eraseDups_nil]
    rw [show (fun x : Space => { x with susp := true, handles := x.handles.map fun h => { h with pin := 0 } }) = suspendedForm
      from rfl, hkeys, List.foldl_nil, hcmds, List.filter_nil, List.foldl_nil]

/-- The descriptor of a space that has been resumed (R358). -/
def resumedForm (x : Space) : Space := { x with susp := false, strmSave := [] }

/-- With nothing in flight and nothing saved a resume changes the descriptor alone (R358). -/
theorem resumeSpace_rest {s : State} {a : BitVec 16} {x : Space} (h : s.threads = []) (hx : findSpace s a = some x)
    (hcmd : x.cmdSave = []) (hstrm : x.strmSave = []) :
    resumeSpace s a = if x.susp then onSpace s a resumedForm else s := by
  have ha : x.asid = a := findSpace_asid hx
  unfold resumeSpace
  rw [hx]
  cases hs : x.susp with
  | false => simp only [Option.filter, hs, Bool.false_eq_true, if_false]
  | true =>
    have hsaved : savedStreams x = [] := by
      unfold savedStreams
      rw [hstrm]
      rfl
    simp only [Option.filter, hs, if_true, hsaved, List.map_nil, saveGate, Option.getD_none]
    unfold resumeNow
    simp only [hsaved, hcmd, ha, List.foldl_nil, List.map_nil, List.eraseDups_nil]
    have hkeys : keysOf (onSpace s a resumedForm) a = [] := keysOf_rest h a
    exact congrArg (List.foldl resumeLine (onSpace s a resumedForm)) hkeys

/-- Of two functions with one queue each, the first one's space runs and the other's is suspended (R375). -/
theorem runOnly_two {s : State} {p q : Queue} {x y : Space} (hqs : s.queues.qs = [p, q]) (hfn : p.fn ≠ q.fn) (hasid : p.asid ≠ q.asid)
    (h : AtRest s) (hx : findSpace s p.asid = some x) (hy : findSpace s q.asid = some y) (hcmd : x.cmdSave = [])
    (hstrm : x.strmSave = []) :
    ∃ x' y', findSpace (runOnly s p.fn) p.asid = some x' ∧ x'.susp = false ∧ findSpace (runOnly s p.fn) q.asid = some y' ∧
      y'.susp = true ∧ (runOnly s p.fn).fw = { s.fw with function := p.fn } ∧ (runOnly s p.fn).mem = s.mem := by
  let s1 := suspendSpace s q.asid
  let s2 := resumeSpace s1 p.asid
  have hmine : spacesOf s p.fn = [p.asid] := by
    unfold spacesOf
    rw [hqs]
    simp [hfn.symm, List.eraseDups_cons]
  have hothers : (((s.queues.qs.map (·.asid)).eraseDups).filter fun a => !([p.asid].contains a)) = [q.asid] := by
    rw [hqs]
    simp [List.eraseDups_cons, hasid.symm]
  have hs1 : s1 = if y.susp then s else dropTags (onSpace s q.asid suspendedForm) q.asid := suspendSpace_rest h hy
  obtain ⟨hx1, ⟨y', hy1, hsusp⟩, hthreads, hfw1, hmem1⟩ : findSpace s1 p.asid = some x ∧
      (∃ y', findSpace s1 q.asid = some y' ∧ y'.susp = true) ∧ s1.threads = [] ∧ s1.fw = s.fw ∧ s1.mem = s.mem := by
    rw [hs1]
    split
    · exact ⟨hx, ⟨y, hy, ‹_›⟩, h.threads, rfl, rfl⟩
    · have hp := findSpace_onSpace s q.asid p.asid suspendedForm fun _ => rfl
      have hq := findSpace_onSpace s q.asid q.asid suspendedForm fun _ => rfl
      rw [if_neg hasid] at hp
      rw [if_pos rfl, hy] at hq
      exact ⟨hp.trans hx, ⟨suspendedForm y, hq, rfl⟩, h.threads, rfl, rfl⟩
  have hs2 : s2 = if x.susp then onSpace s1 p.asid resumedForm else s1 :=
    resumeSpace_rest hthreads hx1 hcmd hstrm
  obtain ⟨⟨x', hx2, hruns⟩, hy2, hfw2, hmem2⟩ : (∃ x', findSpace s2 p.asid = some x' ∧ x'.susp = false) ∧
      findSpace s2 q.asid = some y' ∧ s2.fw = s1.fw ∧ s2.mem = s1.mem := by
    rw [hs2]
    split
    · have hp := findSpace_onSpace s1 p.asid p.asid resumedForm fun _ => rfl
      have hq := findSpace_onSpace s1 p.asid q.asid resumedForm fun _ => rfl
      rw [if_pos rfl, hx1] at hp
      rw [if_neg hasid.symm] at hq
      exact ⟨⟨_, hp, rfl⟩, hq.trans hy1, rfl, rfl⟩
    · exact ⟨⟨x, hx1, Bool.eq_false_iff.mpr ‹_›⟩, hy1, rfl, rfl⟩
  have hstopped : spaceRuns s1 q.asid = false := by
    unfold spaceRuns
    rw [hy1]
    simp [hsusp]
  have hrunning : suspended s2 p.asid = false := by
    unfold suspended
    rw [hx2]
    exact hruns
  have e : runOnly s p.fn = { s2 with fw := { s2.fw with function := p.fn } } := by
    unfold runOnly
    dsimp only
    rw [hmine, hothers]
    simp only [List.foldl_cons, List.foldl_nil, List.any_cons, List.any_nil, Bool.or_false]
    rw [if_neg (by rw [show spaceRuns (suspendSpace s q.asid) q.asid = false from hstopped]; decide),
      if_neg (by rw [show suspended (resumeSpace (suspendSpace s q.asid) p.asid) p.asid = false from hrunning]; decide)]
  rw [e]
  exact ⟨x', y', hx2, hruns, hy2, hsusp, by rw [hfw2, hfw1], hmem2.trans hmem1⟩

/-- Settles O49, clause by clause: each event is reduced to the one function of the model that carries it out. -/
theorem launchEvents : Obligations.LaunchEvents := by
  unfold Obligations.LaunchEvents
  refine ⟨?_, ?_, ?_, ?_, ?_, ?_⟩
  · intro s s1 q p h n hf hst hsv hw hok hn hqs hlt
    have hq1 : findQueue (leaveTurns s1 (some (.queue q.fn q.qid))) q.fn q.qid = some q :=
      (findQueue_of_qs (s := s) (congrArg Queues.qs hqs) _ _).trans hf.queue
    obtain ⟨x, hx, hslot, hpk, hridx⟩ := takeSlot_queue p h n hq1
    refine ⟨_, x, launch_takes hf hst hsv hw hok hn, ?_, hx, ?_, hpk, hridx, rfl, rfl⟩
    · show s1.queues.launches ++ _ = _
      rw [hqs]
    · rw [hslot, BitVec.toNat_ofNat, Nat.mod_eq_of_lt (by omega)]
  · intro s s0 s1 q l die b i id hq hl hdie hfe hsv hup c hc hcrew hbegin hids hb hroom hnew
    obtain ⟨hlaunches, hspaces, hmem⟩ := feBegin_keeps hbegin
    have hl0 : s0.queues.launches.find? (fun x => x.n == l.n) = some l := by
      rw [hlaunches]
      exact writingLaunch_find hl
    obtain ⟨hs1, hheld, hmem1⟩ : s1 = (if (heldIds l die).isSome then s0 else allocCrew s0 l die (crewThreads l c).length) ∧
        (s1.queues.launches.find? fun x => x.n == l.n).bind (heldIds · die) = some [id] ∧ s1.mem = s.mem := by
      rcases hids with ⟨hheld, rfl⟩ | ⟨hnone, rfl, hidle, y, hy⟩
      · rw [hheld, hl0]
        exact ⟨rfl, hheld, hmem⟩
      · obtain ⟨h1, h2⟩ := allocCrew_holds hl0 hnone hidle hy
        rw [hnone, hcrew]
        exact ⟨rfl, h1, h2.trans hmem⟩
    obtain ⟨⟨t, ht, hctx, hbench, hloc⟩, hsp, hm⟩ := offerCrew_one (q := q) hcrew hb hroom hnew
    refine ⟨_, t, launchCrewPlace_offers hq hl hdie hfe hsv hup hc hbegin hs1 hheld, ht, hctx, hbench, hloc, ?_, hm.trans hmem1⟩
    unfold findSpace
    rw [hsp]
  · intro s q l hq hfn hqid hl hfill hcan hwr hlive hfault htok hrun hst
    obtain ⟨x, hrest⟩ := endLaunch_frees hq hfn hqid hl hlive hst
    exact ⟨_, x, launchComplete_ends hq hfn hqid hl hfill hcan hwr hlive hfault htok hrun, hrest⟩
  · intro s t x ht hcan hfrz hnow hx hh hc hs
    obtain ⟨y, hrest⟩ := cancelThread_frees hx hh hc hs
    refine ⟨_, y, ?_, hrest⟩
    show execThreadCancel t.key s = _
    unfold execThreadCancel
    rw [ht]
    simp only [hcan, hfrz, hnow, Bool.not_false, Bool.and_self, if_true]
  · intro s p q x y hqs hle hfn hasid hth hreqs hcmds hx hy hcmd hstrm
    refine ⟨fun hex => ?_, fun ms hms1 hms2 hfun => ?_⟩
    · obtain ⟨x', y', hx', hxs, hy', hys, hfw, hmem⟩ := runOnly_two hqs hfn hasid ⟨hth, hreqs, hcmds⟩ hx hy hcmd hstrm
      refine ⟨_, x', y', ?_, hx', hxs, hy', hys, by rw [hfw], hmem⟩
      show execTimeSliceExpiry p.fn s = _
      unfold execTimeSliceExpiry
      simp only [hex, decide_eq_true hle, Bool.and_self, if_true]
    · let s1 : State := { s with fw := { s.fw with exclusive := true, sliceMs := ms } }
      obtain ⟨x', y', hx', hxs, hy', hys, hfw, hmem⟩ :=
        runOnly_two (s := s1) hqs hfn hasid ⟨hth, hreqs, hcmds⟩ hx hy hcmd hstrm
      refine ⟨_, x', y', ?_, by rw [hfw], by rw [hfw], hx', hxs, hy', hys, hmem⟩
      show execExclusiveModeSelect true ms s = _
      unfold execExclusiveModeSelect
      rw [if_neg (by simp; omega), hfun]
      rfl
  · intro s ms hms1 hms2 hex
    show execExclusiveModeSelect false ms s = _
    unfold execExclusiveModeSelect
    rw [if_neg (by simp; omega), hex]
    rfl

end Sys2Proof.Machine
end

