-- ==== Sys2Proof/Proofs/EngineRules.lean ====
section
/-! SUPPORT. Rules about the state of the engines that O37 and O38 share: commands, matrix engines and their banks, and what work on
the frames of tiles leaves as it was (R201, R202, R215, R217). -/

namespace Sys2Proof.Machine
open Sys2Proof.Forms

/-! Commands. -/

theorem findCmd_of_cmds {s s' : State} (h : s'.eng.cmds = s.eng.cmds) (n : Nat) : findCmd s' n = findCmd s n := by
  unfold findCmd
  rw [h]

theorem findCmd_putCmd {s : State} {c d : Cmd} (hd : findCmd s c.id = some d) : findCmd (putCmd s c) c.id = some c := by
  have := find?_modifyFirst (fun x : Cmd => x.id == c.id) (fun _ => c) s.eng.cmds (fun _ _ => by simp)
  unfold findCmd at hd ⊢
  rw [hd] at this
  exact this

/-! Matrix engines and their banks. -/

theorem getMat_names (s : State) (b g : Nat) : (getMat s b g).bench = b ∧ (getMat s b g).group = g := by
  unfold getMat
  cases h : s.eng.mats.find? fun m => m.bench == b && m.group == g with
  | none => exact ⟨rfl, rfl⟩
  | some m => simpa using List.find?_some h

theorem getMat_putMat_same (s : State) (m : Mat) : getMat (putMat s m) m.bench m.group = m := by
  unfold getMat putMat
  rw [find?_upsert_same _ _ _ (by simp)]
  rfl

theorem getMat_putMat_other (s : State) (m : Mat) {b g : Nat} (h : ¬ (m.bench = b ∧ m.group = g)) :
    getMat (putMat s m) b g = getMat s b g := by
  unfold getMat putMat
  rw [find?_upsert_other (fun x : Mat => x.bench == m.bench && x.group == m.group) (fun x : Mat => x.bench == b && x.group == g)]
  · intro y hy
    simp only [Bool.and_eq_true, beq_iff_eq] at hy
    rw [hy.1, hy.2]
    simpa using h
  · simpa using h

/-- The banks of every matrix engine are as they were. -/
def SameBanks (s s' : State) : Prop := ∀ b g z, getBank (getMat s' b g) z = getBank (getMat s b g) z

theorem SameBanks.trans {a b c : State} (h : SameBanks a b) (g : SameBanks b c) : SameBanks a c :=
  fun x y z => (g x y z).trans (h x y z)

theorem sameBanks_of_mats {s s' : State} (h : s'.eng.mats = s.eng.mats) : SameBanks s s' := by
  intro b g z
  unfold getMat
  rw [h]

theorem sameBanks_putMat (s : State) (m : Mat) (h : ∀ z, getBank m z = getBank (getMat s m.bench m.group) z) :
    SameBanks s (putMat s m) := by
  intro b g z
  by_cases hm : m.bench = b ∧ m.group = g
  · obtain ⟨rfl, rfl⟩ := hm
    rw [getMat_putMat_same, h]
  · rw [getMat_putMat_other s m hm]

/-- An update of one engine that keeps its names and banks. -/
theorem sameBanks_update (s : State) (b g : Nat) (f : Mat → Mat) (hb : ∀ m, (f m).bench = m.bench) (hg : ∀ m, (f m).group = m.group)
    (hf : ∀ m z, getBank (f m) z = getBank m z) : SameBanks s (putMat s (f (getMat s b g))) := by
  refine sameBanks_putMat s _ fun z => ?_
  rw [hb, hg, (getMat_names s b g).1, (getMat_names s b g).2, hf]

/-- Nothing but the list of matrix engines has changed. -/
def OnlyMats (s s' : State) : Prop := ∃ l, s' = { s with eng := { s.eng with mats := l } }

theorem onlyMats_refl (s : State) : OnlyMats s s := ⟨s.eng.mats, rfl⟩

theorem onlyMats_putMat (s : State) (m : Mat) : OnlyMats s (putMat s m) := ⟨_, rfl⟩

theorem settleTurn_mats (s : State) (b g : Nat) : OnlyMats s (settleTurn s b g) ∧ SameBanks s (settleTurn s b g) := by
  unfold settleTurn
  dsimp only
  split
  · exact ⟨onlyMats_refl s, sameBanks_of_mats rfl⟩
  · split
    · exact ⟨onlyMats_putMat _ _, sameBanks_update s b g (fun m => { m with turn := _, turnLeft := _ }) (fun _ => rfl) (fun _ => rfl)
        fun _ _ => rfl⟩
    · split
      · exact ⟨onlyMats_refl s, sameBanks_of_mats rfl⟩
      · exact ⟨onlyMats_putMat _ _, sameBanks_update s b g (fun m => { m with turnLeft := 0 }) (fun _ => rfl) (fun _ => rfl)
          fun _ _ => rfl⟩

/-- The bank of a command's engine after its tag is set (R219). -/
theorem getBank_setTag (s : State) (c : Cmd) (z : Bool) (t : Option Tag) :
    getBank (getMat (setTag s c z t) c.bench (groupOf c.iu)) z =
      { getBank (getMat s c.bench (groupOf c.iu)) z with tag := t } := by
  obtain ⟨hb, hg⟩ := getMat_names s c.bench (groupOf c.iu)
  have h := getMat_putMat_same s (setBank (getMat s c.bench (groupOf c.iu)) z
    { getBank (getMat s c.bench (groupOf c.iu)) z with tag := t })
  have hb' : (setBank (getMat s c.bench (groupOf c.iu)) z { getBank (getMat s c.bench (groupOf c.iu)) z with tag := t }).bench =
      c.bench := by cases z <;> exact hb
  have hg' : (setBank (getMat s c.bench (groupOf c.iu)) z { getBank (getMat s c.bench (groupOf c.iu)) z with tag := t }).group =
      groupOf c.iu := by cases z <;> exact hg
  rw [hb', hg'] at h
  unfold setTag
  dsimp only
  rw [h]
  cases z <;> rfl

/-! Frames of tiles (R201, R202, R215). -/

/-- What work on frames leaves: threads, requests, caches, the firmware's part, commands, the bytes of tiles, the saved commands of
each space, and whether and how often each handle was bound. -/
structure FrameWork (s s' : State) : Prop where
  threads : s'.threads = s.threads
  flight : s'.flight = s.flight
  cache : s'.cache = s.cache
  fw : s'.fw = s.fw
  cmds : s'.eng.cmds = s.eng.cmds
  tiles : s'.mem.tiles = s.mem.tiles
  saves : s'.spaces.map (·.cmdSave) = s.spaces.map (·.cmdSave)
  handle : ∀ a x i, findSpace s a = some x →
    ∃ y, findSpace s' a = some y ∧ (getHandle y i).gen = (getHandle x i).gen ∧ (getHandle y i).v = (getHandle x i).v

theorem FrameWork.trans {a b c : State} (h : FrameWork a b) (g : FrameWork b c) : FrameWork a c where
  threads := g.threads.trans h.threads
  flight := g.flight.trans h.flight
  cache := g.cache.trans h.cache
  fw := g.fw.trans h.fw
  cmds := g.cmds.trans h.cmds
  tiles := g.tiles.trans h.tiles
  saves := g.saves.trans h.saves
  handle := by
    intro asid x i hx
    obtain ⟨y, hy, hg, hv⟩ := h.handle asid x i hx
    obtain ⟨z, hz, hg', hv'⟩ := g.handle asid y i hy
    exact ⟨z, hz, hg'.trans hg, hv'.trans hv⟩

/-- A change that leaves spaces alone leaves handles alone. -/
theorem frameWork_of_spaces {s s' : State} (hth : s'.threads = s.threads) (hfl : s'.flight = s.flight) (hca : s'.cache = s.cache)
    (hfw : s'.fw = s.fw) (hcm : s'.eng.cmds = s.eng.cmds) (hti : s'.mem.tiles = s.mem.tiles) (hsp : s'.spaces = s.spaces) :
    FrameWork s s' where
  threads := hth
  flight := hfl
  cache := hca
  fw := hfw
  cmds := hcm
  tiles := hti
  saves := by rw [hsp]
  handle := fun a x i hx => ⟨x, by unfold findSpace at *; rw [hsp]; exact hx, rfl, rfl⟩

theorem frameWork_refl (s : State) : FrameWork s s := frameWork_of_spaces rfl rfl rfl rfl rfl rfl rfl

theorem frameWork_onIu (s : State) (b u : Nat) (f : Iu → Iu) : FrameWork s (onIu s b u f) :=
  frameWork_of_spaces rfl rfl rfl rfl rfl rfl rfl

theorem frameWork_putMat (s : State) (m : Mat) : FrameWork s (putMat s m) := frameWork_of_spaces rfl rfl rfl rfl rfl rfl rfl

theorem map_modifyFirst {α β : Type} (g : α → β) (p : α → Bool) (f : α → α) (l : List α) (h : ∀ x, g (f x) = g x) :
    (modifyFirst p f l).map g = l.map g := by
  induction l with
  | nil => rfl
  | cons y l ih =>
    unfold modifyFirst
    split
    · rw [List.map_cons, List.map_cons, h]
    · rw [List.map_cons, List.map_cons, ih]

/-- A change of one entry that keeps `GEN` and `V`. -/
theorem frameWork_onHandle (s : State) (a : BitVec 16) (i : Nat) (f : Handle → Handle) (hi : ∀ h, (f h).idx = h.idx)
    (hg : ∀ h, (f h).gen = h.gen) (hv : ∀ h, (f h).v = h.v) : FrameWork s (onHandle s a i f) where
  threads := rfl
  flight := rfl
  cache := rfl
  fw := rfl
  cmds := rfl
  tiles := rfl
  saves := map_modifyFirst (fun x : Space => x.cmdSave) _ _ s.spaces fun _ => rfl
  handle := by
    intro b x j hx
    by_cases hb : b = a
    · subst hb
      obtain ⟨hfind, -, hget⟩ := onHandle_spec hx i f hi
      refine ⟨_, hfind, ?_⟩
      rw [hget]
      split
      · subst j
        exact ⟨hg _, hv _⟩
      · exact ⟨rfl, rfl⟩
    · unfold onHandle
      refine ⟨x, ?_, rfl, rfl⟩
      rw [findSpace_onSpace _ _ _ _ (by intro x; rfl), if_neg hb]
      exact hx

theorem frameWork_setFrame (s : State) (a : BitVec 16) (i j n : Nat) : FrameWork s (onHandle s a i fun h => setFrame h j n) :=
  frameWork_onHandle s a i _ (fun _ => rfl) (fun _ => rfl) fun _ => rfl

theorem useLeaf_tiles {s s1 : State} {e : TlbEnt} {k : Want} {a : Nat} {p : Phys} (h : useLeaf s e k a = .ok p s1) :
    s1.mem.tiles = s.mem.tiles := by
  have hw : (if k.write then markPte s e.pteAddr true else s).mem.tiles = s.mem.tiles := by
    split <;> rfl
  unfold useLeaf at h
  dsimp only at h
  split at h
  · cases h
  · split at h
    · cases h
    · split at h
      · cases h
      · split at h
        · split at h
          · cases h; exact hw
          · cases h
        · cases h; exact hw

/-- A translation leaves the bytes of tiles (R344). -/
theorem translate_tiles {s s1 : State} {l : TlbAt} {asid : BitVec 16} {k : Want} {va : Word} {p : Phys}
    (h : translate s l asid k va = .ok p s1) : s1.mem.tiles = s.mem.tiles := by
  have hmiss : (countMiss s l).mem.tiles = s.mem.tiles := by cases l <;> rfl
  unfold translate at h
  dsimp only at h
  split at h
  · cases h
  · split at h
    · cases h
    · split at h
      · cases h
      · split at h
        · exact useLeaf_tiles h
        · split at h
          · exact (useLeaf_tiles h).trans hmiss
          · split at h
            · cases h
            · cases h
            · cases h
            · cases h
            · cases h
            · split at h
              · cases h
              · refine (useLeaf_tiles h).trans ?_
                split
                · exact hmiss
                · exact hmiss

theorem frameWork_translate {s s1 : State} {l : TlbAt} {asid : BitVec 16} {k : Want} {va : Word} {p : Phys}
    (h : translate s l asid k va = .ok p s1) : FrameWork s s1 := by
  have e := (translate_keeps h).eq
  have ht := translate_tiles h
  rw [e] at ht ⊢
  exact frameWork_of_spaces rfl rfl rfl rfl rfl ht rfl

theorem frameWork_backPage (s : State) (x : Space) (h : Handle) (o : Nat) : FrameWork s (backPage s x h o) := by
  unfold backPage
  dsimp only
  split
  · rename_i htr
    exact (frameWork_translate htr).trans (frameWork_of_spaces rfl rfl rfl rfl rfl rfl rfl)
  · exact frameWork_refl s

theorem frameWork_foldl {α : Type} (f : State → α → State) (h : ∀ s x, FrameWork s (f s x)) (l : List α) (s : State) :
    FrameWork s (l.foldl f s) := by
  induction l generalizing s with
  | nil => exact frameWork_refl s
  | cons x l ih => exact (h s x).trans (ih _)

theorem frameWork_backFrame (s : State) (x : Space) (h : Handle) (j : Nat) : FrameWork s (backFrame s x h j) := by
  unfold backFrame
  refine frameWork_foldl _ (fun s o => ?_) _ s
  split
  · exact frameWork_backPage _ _ _ _
  · exact frameWork_refl s

theorem frameWork_dropFrame (s : State) (a : BitVec 16) (h : Handle) (j : Nat) : FrameWork s (dropFrame s a h j) := by
  unfold dropFrame
  dsimp only
  refine FrameWork.trans ?_ (frameWork_setFrame _ _ _ _ _)
  split
  · exact frameWork_backFrame _ _ _ _
  · exact frameWork_refl s

theorem frameWork_takeFrame {s s1 : State} {b u n : Nat} (h : takeFrame s b u = some (s1, n)) : FrameWork s s1 := by
  unfold takeFrame at h
  dsimp only at h
  split at h
  · cases h
    exact frameWork_onIu _ _ _ _
  · obtain ⟨x, -, hx⟩ := Option.map_eq_some_iff.mp h
    cases hx
    exact (frameWork_dropFrame _ _ _ _).trans (frameWork_onIu _ _ _ _)

/-- Pages of a frame's backing are translated, which changes no frame. -/
theorem frameWork_backingPages {s s1 : State} {b : Nat} {asid : BitVec 16} {x : Space} {idx j size n : Nat}
    (h : backingPages s b asid x idx j size n = .ok s1) : FrameWork s s1 := by
  induction n generalizing s1 with
  | zero => cases h; exact frameWork_refl s
  | succ n ih =>
    unfold backingPages at h
    split at h
    · rename_i s2 h2
      dsimp only at h
      split at h
      · cases h; exact ih h2
      · split at h
        · cases h; exact (ih h2).trans (frameWork_translate ‹_›)
        · cases h
        · cases h
        · cases h
        · cases h
    · rename_i hno
      exact absurd h (hno s1)

theorem frameWork_refillFrame {s s1 : State} {b : Nat} {asid : BitVec 16} {idx j : Nat} (h : refillFrame s b asid idx j = .ok s1) :
    FrameWork s s1 := by
  unfold refillFrame at h
  split at h
  · cases h; exact frameWork_refl s
  · dsimp only at h
    split at h
    · cases h; exact frameWork_refl s
    · split at h
      · cases h
      · split at h
        · split at h
          · cases h
            exact ((frameWork_backingPages ‹_›).trans (frameWork_takeFrame ‹_›)).trans (frameWork_setFrame _ _ _ _ _)
          · cases h; exact frameWork_backingPages ‹_›
        · rename_i hno
          exact absurd h (hno s1)

theorem frameWork_refillFrames {s s1 : State} {b : Nat} {asid : BitVec 16} {idx : Nat} {l : List Nat}
    (h : refillFrames s b asid idx l = .ok s1) : FrameWork s s1 := by
  induction l generalizing s with
  | nil => cases h; exact frameWork_refl _
  | cons j l ih =>
    unfold refillFrames at h
    split at h
    · exact (frameWork_refillFrame ‹_›).trans (ih h)
    · rename_i hno
      exact absurd h (hno s1)

/-- Loading the frames of a command's tiles is work on frames (R201). -/
theorem frameWork_loadTiles {s s1 : State} {c : Cmd} {l : List Nat} (h : loadTiles s c l = .ok s1) : FrameWork s s1 := by
  induction l generalizing s with
  | nil => cases h; exact frameWork_refl _
  | cons i l ih =>
    unfold loadTiles at h
    split at h
    · exact (frameWork_refillFrames ‹_›).trans (ih h)
    · rename_i hno
      exact absurd h (hno s1)

theorem frameWork_migrateFrames (b u : Nat) (asid : BitVec 16) (idx : Nat) (l : List Nat) (s : State) :
    FrameWork s (migrateFrames b u asid idx s l) := by
  induction l generalizing s with
  | nil => exact frameWork_refl s
  | cons j l ih =>
    unfold migrateFrames
    split
    · exact ((frameWork_takeFrame ‹_›).trans (frameWork_setFrame _ _ _ _ _)).trans (ih _)
    · exact ih s

theorem frameWork_migrate {s s1 : State} {c : Cmd} {i : Nat} (h : migrate s c i = some s1) : FrameWork s s1 := by
  unfold migrate at h
  split at h
  · cases h; exact frameWork_refl s
  · dsimp only at h
    split at h
    · cases h; exact frameWork_refl s
    · split at h
      · cases h
      · cases h
        refine (FrameWork.trans (FrameWork.trans ?_ (frameWork_migrateFrames _ _ _ _ _ _)) (frameWork_onIu _ _ _ _)).trans
          (frameWork_putMat _ _)
        exact frameWork_onHandle s _ _ _ (fun _ => rfl) (fun _ => rfl) fun _ => rfl

/-- Migrating a command's tiles is work on frames (R215). -/
theorem frameWork_migrateAll {s s1 : State} {c : Cmd} {l : List Nat} (h : migrateAll s c l = some s1) : FrameWork s s1 := by
  induction l generalizing s with
  | nil => cases h; exact frameWork_refl _
  | cons i l ih =>
    unfold migrateAll at h
    obtain ⟨s2, h2, h3⟩ := Option.bind_eq_some_iff.mp h
    exact (frameWork_migrate h2).trans (ih h3)

/-! The token's place (R40). -/

/-- A token's translation changes what a translation changes, and the host keeps no copy of its line (R309, R310). -/
theorem tokenAt_ok {s s1 : State} {c : Cmd} {p : Phys} (h : tokenAt s c = .ok s1 p) :
    FrameWork s s1 ∧ TransKeeps s s1 ∧ hostBlocks s1 (lineOf p) .home = none := by
  unfold tokenAt at h
  split at h
  · rename_i s2 a h2
    split at h
    · cases h
    · rename_i hb
      cases h
      unfold engAt at h2
      split at h2
      · cases h2
        exact ⟨frameWork_translate ‹_›, translate_keeps ‹_›, hb⟩
      · cases h2
      · cases h2
      · cases h2
      · dsimp only at h2
        split at h2
        · split at h2 <;> cases h2
        · cases h2
  · cases h
  · rename_i hno
    exact absurd h (hno s1 p)

end Sys2Proof.Machine
end

