-- ==== Sys2Proof/Proofs/EngineCommandsWork.lean ====
section
/-! SUPPORT. O38: one step of a command in its engine (R217 to R222, R251, R252, R255, R361). -/

namespace Sys2Proof.Machine
open Sys2Proof.Forms Sys2Proof.Spec

/-! The step of a command in progress, by its kind. -/

/-- A copy command in progress with elements left does one unit (R251, R252). -/
theorem copyExecute_unit {s : State} {c : Cmd} {x y : Tensor} (h : Working s c) (hx : tensorOf c.rec1 = some x)
    (hy : tensorOf c.rec2 = some y) (hleft : c.pos * perUnit x.ety y.ety < elements x) :
    copyExecute s c.id c.kind = if c.kind == .cred then reduceUnit s c x y else copyUnit s c x y := by
  unfold copyExecute
  rw [h.listed]
  simp only [bne_self_eq_false, h.ready, h.started, h.status, hx, hy, Bool.not_true, Bool.or_self, Bool.false_eq_true, if_false]
  rw [if_neg (by omega)]

/-- A link command in progress with elements left and a port up sends one (R255). -/
theorem linkExecute_unit {s : State} {c : Cmd} {x : Tensor} {p : Peer} (h : Working s c) (hx : tensorOf c.rec1 = some x)
    (hp : peerOf c.rec2 = some p) (hleft : c.pos * perUnit x.ety x.ety < elements x) (hup : portUp s c = true) (ans : PeerAnswer) :
    linkExecute s c.id c.kind ans = linkUnit s c x p ans := by
  unfold linkExecute
  rw [h.listed]
  simp only [bne_self_eq_false, h.ready, h.started, h.status, hx, hp, hup, Bool.not_true, Bool.or_self, Bool.false_eq_true, if_false,
    if_true]
  rw [if_neg (by omega)]

/-- A link command whose elements are all sent comes to its end (R255). -/
theorem linkExecute_end {s : State} {c : Cmd} {x : Tensor} {p : Peer} (h : Working s c) (hx : tensorOf c.rec1 = some x)
    (hp : peerOf c.rec2 = some p) (hdone : elements x ≤ c.pos * perUnit x.ety x.ety) (ans : PeerAnswer) :
    linkExecute s c.id c.kind ans = linkEnd s c x p ans := by
  unfold linkExecute
  rw [h.listed]
  simp only [bne_self_eq_false, h.ready, h.started, h.status, hx, hp, Bool.not_true, Bool.or_self, Bool.false_eq_true, if_false]
  rw [if_pos hdone]

theorem exec_link {k : CmdKind} (h : k = .xcpy ∨ k = .xred) (s : State) (id : Nat) (ans : PeerAnswer) :
    exec (runsCmd k id ans) s = linkExecute s id k ans := by
  rcases h with rfl | rfl <;> rfl

theorem exec_matrix {k : CmdKind} (h : isMatrix k = true) (s : State) (id : Nat) : exec (runsCmd k id) s = matrixExecute s id k := by
  cases k with
  | mldw | mma | macc | mcvt => rfl
  | cpy | cred | xcpy | xred => cases h

/-! Copies. -/

/-- A unit copied to memory: its bytes are written there, converted (R251). -/
theorem copyUnit_memory {s s1 s2 : State} {c : Cmd} {x y : Tensor} {l : List Byte}
    (hl : readUnit s c x c.pos (perUnit x.ety y.ety) (sourceBytes x.ety y.ety) = .ok s1 l) (hok : unitOk x.ety y.ety l = true)
    (ht : y.tile = false)
    (hw : writeMany s1 (whoCmd c) (tensorVa y (c.pos * perUnit x.ety y.ety)) (convUnit c x y l).1.length
      (tensorVa y (c.pos * perUnit x.ety y.ety)) (convUnit c x y l).1 ((convUnit c x y l).1.length + 1) = .ok s2 ()) :
    copyUnit s c x y = .next (putCmd s2 { c with pos := c.pos + 1, flags := c.flags ||| (convUnit c x y l).2 }) := by
  unfold copyUnit
  dsimp only
  rw [hl]
  simp only [Res.bind, hok, Bool.not_true, Bool.false_eq_true, if_false, ht, hw, atomically]

/-- A unit copied to a tile goes to the command's shadow of it (R217, R251). -/
theorem copyUnit_tile {s s1 : State} {c : Cmd} {x y : Tensor} {l : List Byte} {z : Space}
    (hl : readUnit s c x c.pos (perUnit x.ety y.ety) (sourceBytes x.ety y.ety) = .ok s1 l) (hok : unitOk x.ety y.ety l = true)
    (ht : y.tile = true) (hz : findSpace s1 c.key.asid = some z) :
    copyUnit s c x y = .next (putCmd s1 { c with
      pos := c.pos + 1, flags := c.flags ||| (convUnit c x y l).2
      shadow := setBytes c.shadow (tensorOff y (getHandle z ((tileHandle y).setWidth 24).toNat) (c.pos * perUnit x.ety y.ety))
        (convUnit c x y l).1 }) := by
  unfold copyUnit
  dsimp only
  rw [hl]
  simp only [Res.bind, hok, Bool.not_true, Bool.false_eq_true, if_false, ht, if_true, atomically, hz, Option.map_some, Option.getD_some]

/-- One element reduced: one atomic at its home (R252). -/
theorem reduceUnit_atomic {s s1 s2 : State} {c : Cmd} {x y : Tensor} {l : List Byte} {v : Vec} (hone : perUnit x.ety y.ety = 1)
    (hl : readUnit s c x c.pos (perUnit x.ety y.ety) (sourceBytes x.ety y.ety) = .ok s1 l)
    (hv : vAccess s1 (whoCmd c) (tensorVa y c.pos) (bytes x.ety) (.amo c.op c.ty (BitVec.ofNat 128 (natOfBytes l)) true) = .ok s2 v) :
    reduceUnit s c x y = .next (putCmd s2 { c with pos := c.pos + 1 }) := by
  have hsbf : isSbf x.ety = false := by
    by_contra hc
    rw [Bool.not_eq_false] at hc
    unfold perUnit at hone
    rw [hc] at hone
    cases hone
  have hbytes : sourceBytes x.ety y.ety = bytes x.ety := by
    unfold sourceBytes
    rw [hsbf, hone, Nat.mul_one]
    rfl
  rw [hone, hbytes] at hl
  unfold reduceUnit
  dsimp only
  rw [hl]
  simp only [Res.bind, hv, ofVRes, atomically]

/-! Links. -/

theorem linkUnit_sends {s s1 : State} {c : Cmd} {x : Tensor} {p : Peer} {l : List Byte}
    (hl : readUnit s c x c.pos (perUnit x.ety x.ety) (unitBytes x.ety) = .ok s1 l) :
    linkUnit s c x p .performed = .next (putCmd (emit s1 (if c.kind == .xred
      then .peerReduce p.id p.win (c.c.toNat + c.pos * unitBytes x.ety) c.op c.ty l
      else .peerWrite p.id p.win (c.c.toNat + c.pos * unitBytes x.ety) l)) { c with pos := c.pos + 1 }) := by
  unfold linkUnit
  dsimp only
  rw [hl]
  rfl

theorem linkUnit_refused (s : State) (c : Cmd) (x : Tensor) (p : Peer) :
    linkUnit s c x p (.refusedAt c.pos) = .next (putCmd s { c with status := 2, count := 0 }) := by
  unfold linkUnit
  dsimp only
  rw [if_pos (beq_self_eq_true _)]

theorem linkEnd_refused {s : State} {c : Cmd} (x : Tensor) {p : Peer} (hs : p.sigen = true) (hr : c.ran = false)
    (hup : portUp s c = true) : linkEnd s c x p (.refusedAt c.pos) = .next (putCmd s { c with status := 2, count := 0 }) := by
  unfold linkEnd
  simp only [hs, hr, hup, Bool.not_true, Bool.or_self, Bool.false_eq_true, if_false, beq_self_eq_true, if_true]

/-! The loading of a matrix command. -/

/-- A command that loads from `s0` is there, in progress, and its step is its loading (R217, R368). -/
theorem matrixExecute_loads {s s0 : State} {c c0 : Cmd} (h : LoadsFrom s c s0 c0) :
    matrixExecute s c.id c.kind = loadMatrix s0 c0 ∧ findCmd s0 c.id = some c0 ∧ c0.st = .started ∧
      ∃ n, c0 = { c with st := .started, began := n } := by
  obtain ⟨-, hmode, ⟨hst, rfl, rfl⟩ | ⟨hw, hran, rfl, rfl⟩⟩ := h
  · let s1 := settleTurn s c.bench (groupOf c.iu)
    let m := getMat s1 c.bench (groupOf c.iu)
    have hgroup : m.group = groupOf c.iu := (getMat_names s1 _ _).2
    have hlisted : findCmd s1 c.id = some c := by
      obtain ⟨l, hl⟩ := (settleTurn_mats s c.bench (groupOf c.iu)).1
      rw [findCmd_of_cmds (s := s) (by rw [show s1 = _ from hl])]
      exact hst.listed
    have hgo : (m.turnLeft != 0 && (headCmd s1 c.bench (8 * m.group + m.turn)).map (·.id) == some c.id && canStart s1 m c) = true := by
      rw [hgroup]
      simp only [Bool.and_eq_true, bne_iff_ne, ne_eq, beq_iff_eq]
      exact ⟨⟨hst.turn, hst.head⟩, hst.free⟩
    refine ⟨?_, ?_, rfl, _, rfl⟩
    · unfold matrixExecute
      rw [hst.listed]
      simp only [bne_self_eq_false, hst.ready, beq_eq_false_iff_ne.mpr hmode, hst.queued, Bool.not_true, Bool.or_self, Bool.false_and,
        Bool.false_eq_true, if_false]
      exact if_pos hgo
    · obtain ⟨l, hl⟩ := (settleTurn_mats (putCmd (putMat s1 _) { c with st := .started, began := s1.run.now }) c.bench
        (groupOf c.iu)).1
      unfold beginMatrix
      rw [findCmd_of_cmds (s := putCmd (putMat s1 _) { c with st := .started, began := s1.run.now }) (by rw [hl])]
      exact findCmd_putCmd (s := putMat s1 _) hlisted
  · refine ⟨?_, hw.listed, hw.started, c0.began, ?_⟩
    · unfold matrixExecute
      rw [hw.listed]
      simp only [bne_self_eq_false, hw.ready, beq_eq_false_iff_ne.mpr hmode, hw.started, hw.status, hran, Bool.not_true, Bool.or_self,
        Bool.false_and, Bool.false_eq_true, if_false]
    · rw [← hw.started]

/-- The reads of a command by its kind. -/
def readsOf (s : State) (c : Cmd) (x : Space) : Host.Outcome State Fault Refusal :=
  match c.kind with
  | .mldw => loadMldw s c x
  | .mma => loadMma s c x
  | _ => loadConvert s c x

theorem readsOf_mldw {c : Cmd} (s : State) (x : Space) (h : c.kind = .mldw) : readsOf s c x = loadMldw s c x := by
  simp only [readsOf, h]

theorem readsOf_mma {c : Cmd} (s : State) (x : Space) (h : c.kind = .mma) : readsOf s c x = loadMma s c x := by
  simp only [readsOf, h]

theorem readsOf_convert {c : Cmd} (s : State) (x : Space) (h : c.kind = .macc ∨ c.kind = .mcvt) :
    readsOf s c x = loadConvert s c x := by
  rcases h with h | h
  · simp only [readsOf, h]
  · simp only [readsOf, h]

/-- A command whose tiles are at home reads them, by its kind (R215, R217, R219 to R222). -/
theorem loadMatrix_reads {s0 s2 : State} {c : Cmd} {x : Space} (h : Loads s0 s2 c x) : loadMatrix s0 c = readsOf s2 c x := by
  obtain ⟨y, hy, hroles⟩ := h.refs
  obtain ⟨s1, p, htok, hmig⟩ := h.tiles
  have hrows : (c.kind != .mldw && refAux c.a == 0) = false := by
    rcases h.rows with hk | hr
    · rw [hk]; rfl
    · rw [beq_eq_false_iff_ne.mpr hr, Bool.and_false]
  unfold loadMatrix
  rw [hy, htok]
  simp only [hroles, Option.isSome_none, Bool.false_eq_true, if_false, hrows, hmig, h.output, h.bank, Bool.or_self, h.space]
  unfold readsOf
  cases c.kind <;> rfl

/-- The result of a computation without a status stands in the shadow of its output (R217). -/
theorem shadowed_begun {s : State} {c d : Cmd} {z : Space} {r : Computed} {i steps : Nat} {ho : Handle} (hd : findCmd s c.id = some d)
    (hst : c.st = .started) (hz : findSpace s c.key.asid = some z) (ho' : ho.idx = i) (hr : r.status = 0) :
    ∃ c' y, findCmd (shadowed s c ho r steps) c.id = some c' ∧ c'.st = .started ∧ c'.out = some i ∧ c'.shadow = r.shadow ∧
      c'.flags = r.fl ∧ c'.count = refAux c.a ∧ c'.ran = true ∧ c'.todo = steps ∧ (shadowed s c ho r steps).mem = s.mem ∧
      findSpace (shadowed s c ho r steps) c.key.asid = some y ∧ (getHandle y i).busy = true := by
  subst ho'
  let c1 : Cmd := { c with out := some ho.idx, shadow := r.shadow, flags := r.fl, count := refAux c.a, ran := true, todo := steps }
  let s1 := onHandle s c.key.asid ho.idx fun h => { h with busy := true }
  have e : shadowed s c ho r steps = putCmd s1 c1 := by
    unfold shadowed
    rw [hr]
    rfl
  obtain ⟨hfind, -, hget⟩ := onHandle_spec hz ho.idx (fun h => { h with busy := true }) fun _ => rfl
  rw [e]
  refine ⟨c1, _, findCmd_putCmd (s := s1) (c := c1) hd, hst, rfl, rfl, rfl, rfl, rfl, rfl, rfl, hfind, ?_⟩
  rw [hget, if_pos rfl]

/-- Up to the tiles at home the list of commands is as it was. -/
theorem loads_cmds {s0 s2 : State} {c : Cmd} {x : Space} (h : Loads s0 s2 c x) : s2.eng.cmds = s0.eng.cmds := by
  obtain ⟨s1, p, htok, hmig⟩ := h.tiles
  exact (frameWork_migrateAll hmig).cmds.trans (tokenAt_ok htok).1.cmds

/-- `MACC` and `MCVT` stand with their result (R221, R222). -/
theorem loadConvert_begun {s s3 : State} {c d : Cmd} {x : Space} (hd : findCmd s c.id = some d) (hst : c.st = .started)
    (hx : findSpace s c.key.asid = some x)
    (ht : loadTiles s c [(getHandle x (refIdx c.a)).idx, (getHandle x (refIdx c.b)).idx] = .ok s3) :
    ∃ s', loadConvert s c x = .next s' ∧
      Begun s3 s' c (if c.kind == .macc then computeMacc s3 c (getHandle x (refIdx c.a)) (getHandle x (refIdx c.b))
        else computeMcvt s3 c (getHandle x (refIdx c.a)) (getHandle x (refIdx c.b))) 0 := by
  have hf := frameWork_loadTiles ht
  obtain ⟨z, hz, -⟩ := hf.handle _ x 0 hx
  have hd3 : findCmd s3 c.id = some d := (findCmd_of_cmds hf.cmds c.id).trans hd
  refine ⟨_, ?_, shadowed_begun hd3 hst hz (getHandle_idx x (refIdx c.b)) (steps := 0) ?_⟩
  · unfold loadConvert loadedThen
    dsimp only
    rw [ht]
  · split <;> rfl

/-- A loaded bank stands in its engine with an empty tag (R219). -/
theorem loadBank_spec (s : State) (c : Cmd) (h : Handle) (row0 : Nat) (z : Bool) :
    OnlyMats s (loadBank s c h row0 z).1 ∧ (loadBank s c h row0 z).2 = (bankCols s c.key.asid h row0).2 ∧
      (getBank (getMat (loadBank s c h row0 z).1 c.bench (groupOf c.iu)) z).tag = none ∧
      (getBank (getMat (loadBank s c h row0 z).1 c.bench (groupOf c.iu)) z).cols =
        (bankCols s c.key.asid h row0).1.map bytesOfBlock := by
  let k : Bank := { tag := none, fmt := fmtTy h.fmt, cols := (bankCols s c.key.asid h row0).1.map bytesOfBlock }
  let m := setBank (getMat s c.bench (groupOf c.iu)) z k
  obtain ⟨hb, hg⟩ := getMat_names s c.bench (groupOf c.iu)
  have hb' : m.bench = c.bench := by cases z <;> exact hb
  have hg' : m.group = groupOf c.iu := by cases z <;> exact hg
  have hbank : getBank m z = k := by cases z <;> rfl
  have hm : getMat (loadBank s c h row0 z).1 c.bench (groupOf c.iu) = m := by
    have := getMat_putMat_same s m
    rw [hb', hg'] at this
    exact this
  rw [hm, hbank]
  exact ⟨onlyMats_putMat s m, rfl, rfl, rfl⟩

/-- The bank of an `MMA` becomes ready without a change but of frames and engines, and its rows are read next (R219, R220). -/
theorem loadMma_ready {s s4 : State} {c : Cmd} {x : Space} (h : BankReady s s4 c x) :
    loadMma s c x = runMma s4 c x ∧ FrameWork s s4 := by
  unfold loadMma
  dsimp only
  rcases h with ⟨hhas, rfl⟩ | ⟨hnot, s5, ht, hok, rfl⟩
  · exact ⟨if_pos (beq_iff_eq.mpr hhas), frameWork_refl _⟩
  · obtain ⟨l, hl⟩ := (loadBank_spec s5 c (getHandle x (refIdx c.c)) (refRow c.c) c.bank).1
    refine ⟨?_, ((frameWork_loadTiles ht).trans ?_).trans (frameWork_putMat _ _)⟩
    · rw [if_neg (fun e => hnot (beq_iff_eq.mp e))]
      unfold loadedThen
      rw [ht]
      simp only [hok, if_true]
    · rw [hl]
      exact frameWork_of_spaces rfl rfl rfl rfl rfl rfl rfl

/-- An `MMA` stands with its result and its plane-steps to make (R220, R361). -/
theorem runMma_begun {s s3 : State} {c d : Cmd} {x z : Space} (hd : findCmd s c.id = some d) (hst : c.st = .started)
    (hz : findSpace s c.key.asid = some z)
    (ht : loadTiles s c [(getHandle x (refIdx c.a)).idx, (getHandle x (refIdx c.b)).idx] = .ok s3) (r : Computed)
    (hr : r = computeMma s3 c (getHandle x (refIdx c.a)) (getHandle x (refIdx c.b))
      (getBank (getMat s3 c.bench (groupOf c.iu)) c.bank).fmt
      ((getBank (getMat s3 c.bench (groupOf c.iu)) c.bank).cols.map
        (blockOf (getBank (getMat s3 c.bench (groupOf c.iu)) c.bank).fmt)))
    (hok : r.status = 0) :
    ∃ s', runMma s c x = .next s' ∧ Begun s3 s' c r (refAux c.a * (c.np.toNat + 1)) := by
  have hf := frameWork_loadTiles ht
  obtain ⟨y, hy, -⟩ := hf.handle _ z 0 hz
  have hd3 : findCmd s3 c.id = some d := (findCmd_of_cmds hf.cmds c.id).trans hd
  refine ⟨_, ?_, shadowed_begun hd3 hst hy (getHandle_idx x (refIdx c.b)) hok⟩
  unfold runMma loadedThen
  dsimp only
  rw [ht, hr]

/-- An `MLDW` stands with its bank loaded, the tag still empty (R219). -/
theorem loadMldw_loaded {s s3 : State} {c d : Cmd} {x : Space} (hd : findCmd s c.id = some d) (hst : c.st = .started)
    (ht : loadTiles s c [(getHandle x (refIdx c.a)).idx] = .ok s3)
    (hok : (bankCols s3 c.key.asid (getHandle x (refIdx c.a)) (refRow c.a)).2 = true) :
    ∃ s' c', loadMldw s c x = .next s' ∧ findCmd s' c.id = some c' ∧ c'.st = .started ∧ c'.count = 16 ∧
      c'.gen = (getHandle x (refIdx c.a)).gen ∧ c'.ran = true ∧
      (getBank (getMat s' c.bench (groupOf c.iu)) c.bank).tag = none ∧
      (getBank (getMat s' c.bench (groupOf c.iu)) c.bank).cols =
        (bankCols s3 c.key.asid (getHandle x (refIdx c.a)) (refRow c.a)).1.map bytesOfBlock ∧ s'.mem = s3.mem := by
  let c1 : Cmd := { c with count := 16, gen := (getHandle x (refIdx c.a)).gen, ran := true }
  obtain ⟨⟨l, hl⟩, hvalid, htag, hcols⟩ := loadBank_spec s3 c (getHandle x (refIdx c.a)) (refRow c.a) c.bank
  have hd3 : findCmd (loadBank s3 c (getHandle x (refIdx c.a)) (refRow c.a) c.bank).1 c.id = some d := by
    rw [findCmd_of_cmds (s := s3) (by rw [hl]), findCmd_of_cmds (frameWork_loadTiles ht).cmds]
    exact hd
  refine ⟨putCmd (loadBank s3 c (getHandle x (refIdx c.a)) (refRow c.a) c.bank).1 c1, c1, ?_, findCmd_putCmd (c := c1) hd3, hst, rfl,
    rfl, rfl, htag, hcols, ?_⟩
  · unfold loadMldw loadedThen
    dsimp only
    rw [ht]
    simp only [hvalid, hok, if_true, c1]
  · show (loadBank s3 c (getHandle x (refIdx c.a)) (refRow c.a) c.bank).1.mem = s3.mem
    rw [hl]

/-- A matrix command with no rows has nothing to do (R217). -/
theorem loadMatrix_rows_zero {s0 s1 : State} {c : Cmd} {p : Phys} {y : Space} (htok : tokenAt s0 c = .ok s1 p)
    (hy : findSpace s0 c.key.asid = some y) (hroles : rolesFail y (rolesOf c.kind c.ty c.a c.b c.c) = none) (hk : c.kind ≠ .mldw)
    (hrows : refAux c.a = 0) : loadMatrix s0 c = .next (putCmd s1 { c with ran := true }) := by
  unfold loadMatrix
  rw [hy, htok]
  simp only [hroles, Option.isSome_none, Bool.false_eq_true, if_false, hrows, bne_iff_ne.mpr hk, beq_self_eq_true, Bool.and_self,
    if_true]

/-! The plane-steps of an `MMA` (R361). -/

theorem matTick_keeps (now : Nat) (m : Mat) :
    (matTick now m).bench = m.bench ∧ (matTick now m).group = m.group ∧ (matTick now m).steps = m.steps := by
  unfold matTick
  dsimp only
  split <;> exact ⟨rfl, rfl, rfl⟩

theorem planeSteps_counts {s : State} {c : Cmd} (hc : findCmd s c.id = some c) (htodo : c.todo ≠ 0) :
    ∃ c' k, 0 < k ∧ k ≤ c.todo ∧ findCmd (planeSteps s c) c.id = some c' ∧ c'.todo = c.todo - k ∧
      (getMat (planeSteps s c) c.bench (groupOf c.iu)).steps = (getMat s c.bench (groupOf c.iu)).steps + BitVec.ofNat 64 k ∧
      (planeSteps s c).mem = s.mem := by
  let k := c.todo - Config.freePick s.run.fresh % c.todo
  let m := matTick s.run.now (getMat s c.bench (groupOf c.iu))
  let m1 : Mat := { m with steps := m.steps + BitVec.ofNat 64 k, inWindow := m.inWindow + BitVec.ofNat 64 k }
  let s1 : State := { s with run := { s.run with fresh := s.run.fresh + 1 } }
  let c1 : Cmd := { c with todo := c.todo - k }
  have hlt : Config.freePick s.run.fresh % c.todo < c.todo := Nat.mod_lt _ (Nat.pos_of_ne_zero htodo)
  obtain ⟨hb, hg⟩ := getMat_names s c.bench (groupOf c.iu)
  obtain ⟨mb, mg, ms⟩ := matTick_keeps s.run.now (getMat s c.bench (groupOf c.iu))
  have hm : getMat (planeSteps s c) c.bench (groupOf c.iu) = m1 := by
    have := getMat_putMat_same s1 m1
    rw [show m1.bench = c.bench from mb.trans hb, show m1.group = groupOf c.iu from mg.trans hg] at this
    exact this
  refine ⟨c1, k, Nat.sub_pos_of_lt hlt, Nat.sub_le _ _, findCmd_putCmd (s := putMat s1 m1) (c := c1) hc, rfl, ?_, rfl⟩
  rw [hm]
  show m.steps + _ = _
  rw [ms]

theorem matrixExecute_steps {s : State} {c : Cmd} (hmode : s.pkg.mode ≠ .memory) (h : Working s c) (hran : c.ran = true)
    (htodo : c.todo ≠ 0) : matrixExecute s c.id c.kind = .next (planeSteps s c) := by
  unfold matrixExecute
  rw [h.listed]
  simp only [bne_self_eq_false, h.ready, beq_eq_false_iff_ne.mpr hmode, h.started, h.status, hran, beq_eq_false_iff_ne.mpr htodo,
    Bool.not_true, Bool.or_self, Bool.false_and, Bool.and_false, Bool.false_eq_true, if_false, if_true]

/-- Settles O38: each step is the one of the command's kind, and what it computes is read off the model's own step. -/
theorem engineCommandsWork : Obligations.EngineCommandsWork := by
  unfold Obligations.EngineCommandsWork
  refine ⟨?_, ?_, ?_, ?_, ?_, ?_⟩
  · intro s s1 c x y l hw hx hy hleft hl hok
    have hstep := copyExecute_unit hw hx hy hleft
    refine ⟨?_, ?_, ?_⟩
    · intro s2 hk ht va out hout
      rw [hk] at hstep
      exact hstep.trans (copyUnit_memory hl hok ht hout)
    · intro z h hk ht hz hh
      rw [hk] at hstep
      subst hh
      exact hstep.trans (copyUnit_tile hl hok ht hz)
    · intro s2 v hk hone hv
      rw [hk] at hstep
      exact hstep.trans (reduceUnit_atomic hone hl hv)
  · intro s s1 c x p l hw hx hp hleft hup hl
    have hstep := linkExecute_unit hw hx hp hleft hup
    refine ⟨fun hk => ?_, fun hk => ?_, fun hk => ?_⟩
    · refine Eq.trans ?_ ((hstep .performed).trans ((linkUnit_sends hl).trans ?_))
      · rw [hk]; rfl
      · rw [hk]; rfl
    · refine Eq.trans ?_ ((hstep .performed).trans ((linkUnit_sends hl).trans ?_))
      · rw [hk]; rfl
      · rw [hk]; rfl
    · rw [exec_link hk, hstep, linkUnit_refused]
  · intro s c x p hw hx hp hdone hsig hran hup hk
    rw [exec_link hk, linkExecute_end hw hx hp hdone, linkEnd_refused x hsig hran hup]
  · intro s s0 s2 s3 c c0 x hfrom hloads ha hb
    obtain ⟨hstep, hlisted, hst, n, rfl⟩ := matrixExecute_loads hfrom
    let c1 : Cmd := { c with st := .started, began := n }
    have hlisted2 := (findCmd_of_cmds (loads_cmds hloads) c.id).trans hlisted
    have hexec : ∀ k, c.kind = k → exec (runsCmd k c.id) s = readsOf s2 c1 x := fun k hk => by
      subst hk
      exact (exec_matrix hfrom.1 s c.id).trans (hstep.trans (loadMatrix_reads hloads))
    refine ⟨?_, ?_, ?_, ?_⟩
    · intro hk ht
      obtain ⟨s', hs', hbegun⟩ := loadConvert_begun (c := c1) hlisted2 hst hloads.space ht
      rw [show c1.kind = .macc from hk] at hbegun
      exact ⟨s', (hexec .macc hk).trans ((readsOf_convert (c := c1) s2 x (.inl hk)).trans hs'), hbegun⟩
    · intro hk ht
      obtain ⟨s', hs', hbegun⟩ := loadConvert_begun (c := c1) hlisted2 hst hloads.space ht
      rw [show c1.kind = .mcvt from hk] at hbegun
      exact ⟨s', (hexec .mcvt hk).trans ((readsOf_convert (c := c1) s2 x (.inr hk)).trans hs'), hbegun⟩
    · intro s4 hk hready ht bank r hr
      obtain ⟨hrun, hframes⟩ := loadMma_ready hready
      obtain ⟨z, hz, -⟩ := hframes.handle _ x 0 hloads.space
      have hlisted4 := (findCmd_of_cmds hframes.cmds c.id).trans hlisted2
      obtain ⟨s', hs', hbegun⟩ := runMma_begun (c := c1) hlisted4 hst hz ht r rfl hr
      exact ⟨s', (hexec .mma hk).trans ((readsOf_mma (c := c1) s2 x hk).trans (hrun.trans hs')), hbegun⟩
    · intro hk ht hok
      obtain ⟨s', c', hs', hrest⟩ := loadMldw_loaded (c := c1) hlisted2 hst ht hok
      exact ⟨s', c', (hexec .mldw hk).trans ((readsOf_mldw (c := c1) s2 x hk).trans hs'), hrest⟩
  · intro s s0 s1 c c0 p y hfrom htok hy hroles hk hrows
    obtain ⟨hstep, -, -, n, hc0⟩ := matrixExecute_loads hfrom
    rw [exec_matrix hfrom.1, hstep]
    subst hc0
    exact loadMatrix_rows_zero htok hy hroles hk hrows
  · intro s c hm hmode hw hran htodo
    obtain ⟨c', k, hk⟩ := planeSteps_counts hw.listed htodo
    exact ⟨_, c', k, (exec_matrix hm s c.id).trans (matrixExecute_steps hmode hw hran htodo), hk⟩

end Sys2Proof.Machine
end

