-- ==== Sys2Proof/Proofs/EngineCommandsEnd.lean ====
section
/-! SUPPORT. O37: the end of a command publishes its output, fills its token and leaves its queue (R41, R42, R115, R217, R219, R366). -/

namespace Sys2Proof.Machine
open Sys2Proof.Forms Sys2Proof.Spec

/-! Filling a word that nobody waits for (R41, R185). -/

theorem scanOnce_idle {s : State} {a : Nat} (ws : List Waiter) (h : ∀ w ∈ ws, w.pa ≠ a) : scanOnce s a ws = (s, false) := by
  unfold scanOnce
  induction ws with
  | nil => rfl
  | cons w ws ih =>
    rw [List.foldl_cons, if_pos (bne_iff_ne.mpr (h w List.mem_cons_self))]
    exact ih fun x hx => h x (List.mem_cons_of_mem _ hx)

theorem serveWord_idle {s : State} {a : Nat} (h : ∀ w ∈ s.flight.waiters, w.pa ≠ a) : serveWord s a = s := by
  unfold serveWord scanWaiters
  rw [scanOnce_idle _ h]
  rfl

/-- The word holds its value and is full; nothing else but caches has changed, and the host may have been told of lines (R41, R304). -/
structure Filled (s s' : State) (a : Nat) (v : Word) : Prop where
  mem : s'.mem = setFull { s.mem with dev := writeVal s.mem.dev a 8 (v.setWidth 128) } a
  threads : s'.threads = s.threads
  spaces : s'.spaces = s.spaces
  flight : s'.flight = s.flight
  eng : s'.eng = s.eng
  tells : OnlyTells s s'

theorem fillWord_idle {s : State} {a : Nat} (hd : s.cache.dsums = []) (hw : ∀ w ∈ s.flight.waiters, w.pa ≠ a) (v : Word) :
    Filled s (fillWord s a v) a v := by
  let s1 := obtain (dropStale s) 0 (lineOf (.dev a)) .home
  have hwork : CacheWork (dropStale s) s1 := obtain_work _ _ _ _
  have hm : s1.mem = s.mem := (hwork.mem hd).1
  have htells : OnlyTells s s1 := (onlyTells_of_fw rfl).trans (onlyTells_obtain _ _ _ _)
  let s2 : State := { s1 with mem := setFull { s1.mem with dev := writeVal s1.mem.dev a 8 (v.setWidth 128) } a }
  have e : fillWord s a v = s2 := serveWord_idle (s := s2) (by
    show ∀ w ∈ s1.flight.waiters, _
    rw [hwork.flight]
    exact hw)
  rw [e]
  refine ⟨?_, hwork.threads, hwork.spaces, hwork.flight, hwork.eng, htells.trans (onlyTells_of_fw rfl)⟩
  show setFull { s1.mem with dev := _ } a = _
  rw [hm]

/-! A command leaves its queue (R366). -/

/-- The command is gone; memory, threads, spaces, requests and banks are as they were. -/
structure CmdGone (s s' : State) (id : Nat) : Prop where
  gone : findCmd s' id = none
  mem : s'.mem = s.mem
  threads : s'.threads = s.threads
  spaces : s'.spaces = s.spaces
  fw : s'.fw = s.fw
  reqs : s'.flight.reqs = s.flight.reqs
  waiters : s'.flight.waiters = s.flight.waiters
  banks : SameBanks s s'

/-- The intake passes commands to engines and keeps their names (R370). -/
theorem intake_ids (b m n : Nat) (l : List Cmd) : (intake b m n l).map (·.id) = l.map (·.id) := by
  induction l generalizing m n with
  | nil => rfl
  | cons c l ih =>
    unfold intake
    split
    · split
      · exact congrArg (c.id :: ·) (ih _ _)
      · split
        · exact congrArg (c.id :: ·) (ih _ _)
        · exact congrArg (c.id :: ·) (ih _ _)
    · exact congrArg (c.id :: ·) (ih _ _)

theorem findCmd_none_iff (s : State) (n : Nat) : findCmd s n = none ↔ n ∉ s.eng.cmds.map (·.id) := by
  unfold findCmd
  rw [List.find?_eq_none, List.mem_map]
  simp

/-- After an update of matrix engines alone that keeps their banks, what was gone is gone. -/
theorem CmdGone.mats {a b c : State} {id : Nat} (h : CmdGone a b id) (hm : OnlyMats b c) (hb : SameBanks b c) : CmdGone a c id := by
  obtain ⟨l, rfl⟩ := hm
  exact ⟨h.gone, h.mem, h.threads, h.spaces, h.fw, h.reqs, h.waiters, h.banks.trans hb⟩

theorem noteIdle_mats (s : State) (b g : Nat) : OnlyMats s (noteIdle s b g) ∧ SameBanks s (noteIdle s b g) := by
  unfold noteIdle
  split
  · exact ⟨onlyMats_refl s, sameBanks_of_mats rfl⟩
  · exact ⟨onlyMats_putMat _ _, sameBanks_update s b g (fun m => { m with idleSince := s.run.now }) (fun _ => rfl) (fun _ => rfl)
      fun _ _ => rfl⟩

theorem releaseMat_mats (s : State) (c : Cmd) : OnlyMats s (releaseMat s c) ∧ SameBanks s (releaseMat s c) := by
  obtain ⟨hb, hg⟩ := getMat_names s c.bench (groupOf c.iu)
  have hkeep : ∀ m : Mat, m.bench = c.bench → m.group = groupOf c.iu →
      (∀ z, getBank m z = getBank (getMat s c.bench (groupOf c.iu)) z) → SameBanks s (putMat s m) := by
    intro m h1 h2 h3
    refine sameBanks_putMat s m ?_
    rw [h1, h2]
    exact h3
  unfold releaseMat
  dsimp only
  split
  · exact ⟨onlyMats_refl s, sameBanks_of_mats rfl⟩
  · split
    · refine ⟨onlyMats_putMat _ _, hkeep _ ?_ ?_ fun z => ?_⟩
      · split_ifs <;> exact hb
      · split_ifs <;> exact hg
      · split_ifs <;> rfl
    · exact ⟨onlyMats_refl s, sameBanks_of_mats rfl⟩

theorem leaveQueue_gone (s : State) {c : Cmd} (hown : c.packet = none) : CmdGone s (leaveQueue s c) c.id := by
  let s1 := passCopies (leaveTurns { s with eng := { s.eng with cmds := s.eng.cmds.filter fun x => x.id != c.id } } (some (.cmd c.id)))
    c.bench
  let s2 := onIu s1 c.bench c.iu fun x => { x with queue := x.queue.filter (· != c.id) }
  have hgone : findCmd s2 c.id = none := by
    rw [findCmd_none_iff]
    show c.id ∉ (intake c.bench _ _ (s.eng.cmds.filter fun x => x.id != c.id)).map (·.id)
    rw [intake_ids, List.mem_map]
    rintro ⟨x, hx, he⟩
    simpa [he] using (List.mem_filter.mp hx).2
  have h2 : CmdGone s s2 c.id := ⟨hgone, rfl, rfl, rfl, rfl, rfl, rfl, sameBanks_of_mats rfl⟩
  have h3 := settleTurn_mats s2 c.bench (groupOf c.iu)
  have h4 := noteIdle_mats (settleTurn s2 c.bench (groupOf c.iu)) c.bench (groupOf c.iu)
  have e : leaveQueue s c = noteIdle (settleTurn s2 c.bench (groupOf c.iu)) c.bench (groupOf c.iu) := by
    unfold leaveQueue
    rw [hown]
    rfl
  rw [e]
  exact (h2.mats h3.1 h3.2).mats h4.1 h4.2

/-- With no saved command and no thread that waits for a queue, room in it changes nothing (R24, R358). -/
theorem releaseEngq_idle {s : State} (ht : ∀ t ∈ s.threads, t.wait ≠ .engq) (hs : ∀ x ∈ s.spaces, x.cmdSave = []) (b u : Nat) :
    releaseEngq s b u = s := by
  have hnext : nextSlot s b u = none := by
    unfold nextSlot
    rw [List.findSome?_eq_none_iff]
    intro x hx
    rw [hs x (List.mem_filter.mp hx).1]
    rfl
  have henter : enterSlots b u 4 s = s := by
    unfold enterSlots
    split
    · rfl
    · rw [hnext]
  have hnone : (s.threads.filter fun t => t.wait == .engq && !t.cancel && t.lastIu == some (b, u)) = [] := by
    rw [List.filter_eq_nil_iff]
    intro t hm
    simp [ht t hm]
  unfold releaseEngq
  rw [henter]
  dsimp only
  rw [hnone]
  split <;> rfl

theorem retireCmd_gone {s : State} {c : Cmd} (hown : c.packet = none) (ht : ∀ t ∈ s.threads, t.wait ≠ .engq)
    (hs : ∀ x ∈ s.spaces, x.cmdSave = []) : CmdGone s (retireCmd s c) c.id := by
  obtain ⟨⟨l, hl⟩, hbanks⟩ := releaseMat_mats s c
  have h1 := leaveQueue_gone (releaseMat s c) hown
  have hthreads : (leaveQueue (releaseMat s c) c).threads = s.threads := by rw [h1.threads, hl]
  have hspaces : (leaveQueue (releaseMat s c) c).spaces = s.spaces := by rw [h1.spaces, hl]
  have e : retireCmd s c = leaveQueue (releaseMat s c) c := by
    unfold retireCmd dropCmd
    simp only [hown, Option.isSome_none, Bool.false_eq_true, if_false]
    exact releaseEngq_idle (by rw [hthreads]; exact ht) (by rw [hspaces]; exact hs) _ _
  rw [e]
  refine ⟨h1.gone, ?_, hthreads, hspaces, ?_, ?_, ?_, hbanks.trans h1.banks⟩
  · rw [h1.mem, hl]
  · rw [h1.fw, hl]
  · rw [h1.reqs, hl]
  · rw [h1.waiters, hl]

/-! Publishing (R37, R217). -/

/-- What publishing leaves: threads, requests, caches, the firmware's part and the saved commands. -/
structure Publishing (s s' : State) : Prop where
  threads : s'.threads = s.threads
  flight : s'.flight = s.flight
  cache : s'.cache = s.cache
  fw : s'.fw = s.fw
  saves : s'.spaces.map (·.cmdSave) = s.spaces.map (·.cmdSave)

theorem FrameWork.publishing {s s' : State} (h : FrameWork s s') : Publishing s s' :=
  ⟨h.threads, h.flight, h.cache, h.fw, h.saves⟩

theorem Publishing.trans {a b c : State} (h : Publishing a b) (g : Publishing b c) : Publishing a c :=
  ⟨g.threads.trans h.threads, g.flight.trans h.flight, g.cache.trans h.cache, g.fw.trans h.fw, g.saves.trans h.saves⟩

theorem publishing_onHandle (s : State) (a : BitVec 16) (i : Nat) (f : Handle → Handle) : Publishing s (onHandle s a i f) :=
  ⟨rfl, rfl, rfl, rfl, map_modifyFirst (fun x : Space => x.cmdSave) _ _ s.spaces fun _ => rfl⟩

theorem frameWork_shadowFrames (asid : BitVec 16) (idx : Nat) (l : List Nat) (s : State) :
    FrameWork s (shadowFrames asid idx s l) := by
  induction l generalizing s with
  | nil => exact frameWork_refl s
  | cons j l ih =>
    unfold shadowFrames
    dsimp only
    split
    · exact ((frameWork_takeFrame ‹_›).trans (frameWork_setFrame _ _ _ _ _)).trans (ih _)
    · exact ih s

/-- What publishing a command's output does: nothing without an output; else the tile is bound, its bytes are replaced, its frames
are new, and its entry is updated (R37, R217). -/
theorem publishTile_cases {s s3 : State} {c : Cmd} (h : publishTile s c = some s3) :
    ((c.out = none ∨ findSpace s c.key.asid = none) ∧ s3 = s) ∨
      ∃ i x, c.out = some i ∧ findSpace s c.key.asid = some x ∧ (getHandle x i).v = true ∧
        ∃ s1, FrameWork (writeTile s c.key.asid i 0 c.shadow) s1 ∧
          s3 = onHandle s1 c.key.asid i fun h => { h with gen := h.gen + 1, busy := false, lost := 0 } := by
  unfold publishTile at h
  cases ho : c.out with
  | none =>
    rw [ho] at h
    cases h
    exact .inl ⟨.inl rfl, rfl⟩
  | some i =>
    cases hx : findSpace s c.key.asid with
    | none =>
      rw [ho, hx] at h
      cases h
      exact .inl ⟨.inr rfl, rfl⟩
    | some x =>
      rw [ho, hx] at h
      dsimp only at h
      split at h
      · cases h
      · rename_i hv
        cases h
        exact .inr ⟨i, x, rfl, rfl, by simpa using hv, _, frameWork_shadowFrames _ _ _ _, rfl⟩

theorem publishTile_publishing {s s3 : State} {c : Cmd} (h : publishTile s c = some s3) : Publishing s s3 := by
  obtain ⟨-, rfl⟩ | ⟨i, x, -, -, -, s1, hf, rfl⟩ := publishTile_cases h
  · exact (frameWork_refl _).publishing
  · have hw : Publishing s (writeTile s c.key.asid i 0 c.shadow) := ⟨rfl, rfl, rfl, rfl, rfl⟩
    exact (hw.trans hf.publishing).trans (publishing_onHandle _ _ _ _)

/-- A published tile: its bytes change in one update, `GEN` goes up, `BUSY` clears (R217). -/
theorem publishTile_tile {s s3 : State} {c : Cmd} {i : Nat} {x : Space} (h : publishTile s c = some s3) (ho : c.out = some i)
    (hx : findSpace s c.key.asid = some x) :
    (getHandle x i).v = true ∧ s3.mem.tiles = writeBytes s.mem.tiles (tileAddr c.key.asid i 0) c.shadow ∧
      ∃ y, findSpace s3 c.key.asid = some y ∧ (getHandle y i).gen = (getHandle x i).gen + 1 ∧ (getHandle y i).busy = false ∧
        (getHandle y i).v = true := by
  obtain ⟨hnone, -⟩ | ⟨j, z, ho', hx', hv, s1, hf, rfl⟩ := publishTile_cases h
  · rw [ho, hx] at hnone
    rcases hnone with hn | hn <;> cases hn
  · cases ho.symm.trans ho'
    cases hx.symm.trans hx'
    obtain ⟨w, hw, hgen, hvalid⟩ := hf.handle c.key.asid x i hx
    obtain ⟨hfind, -, hget⟩ :=
      onHandle_spec hw i (fun h => { h with gen := h.gen + 1, busy := false, lost := 0 }) fun _ => rfl
    refine ⟨hv, hf.tiles, _, hfind, ?_, ?_, ?_⟩
    · rw [hget, if_pos rfl, ← hgen]
    · rw [hget, if_pos rfl]
    · rw [hget, if_pos rfl]
      exact hvalid.trans hv

/-! The token (R40 to R42). -/

/-- At the home of the token's line nothing keeps the command from its turn (R194, R302, R309). -/
theorem homeTurn_token {s s1 : State} {c : Cmd} {a : Nat} (h : TokenFree s s1 c a) :
    homeTurn (keepLine s1 (lineOf (.dev a)) (some (.cmd c.id))) (.dev a) (.cmd c.id) = .done (atHome s1 c a) 0 := by
  have hgate : syncGate (keepLine s1 (lineOf (.dev a)) (some (.cmd c.id))) (.dev a) =
      .done (keepLine s1 (lineOf (.dev a)) (some (.cmd c.id))) 0 := by
    have hp : (keepLine s1 (lineOf (.dev a)) (some (.cmd c.id))).mem.poison.contains (devAddr (lineOf (.dev a))) = false := h.sound
    have hl : lineHold (keepLine s1 (lineOf (.dev a)) (some (.cmd c.id))) (lineOf (.dev a)) = none := h.free
    have hb : hostBlocks (keepLine s1 (lineOf (.dev a)) (some (.cmd c.id))) (lineOf (.dev a)) .home = none :=
      (tokenAt_ok h.place).2.2
    have hr : recallGate (keepLine s1 (lineOf (.dev a)) (some (.cmd c.id))) (devAddr (lineOf (.dev a))) = .go := h.room
    unfold syncGate
    simp only [hp, hl, hb, hr, Option.isSome_none, Bool.false_eq_true, if_false]
  unfold homeTurn
  rw [h.turn, hgate]
  rfl

/-- A command that ends DONE publishes, fills its token and leaves (R41, R217, R366). -/
theorem fillToken_done {s s1 s3 : State} {c : Cmd} {a : Nat} {det : BitVec 48} {publish : State → Option State}
    (hown : c.packet = none) (h : TokenFree s s1 c a) (hp : publish (atHome s1 c a) = some s3) :
    fillToken s c 0 det publish = .next (retireCmd (fillWord s3 a (tokenWord 0 det)) c) := by
  unfold fillToken
  simp only [hown, Option.isSome_none, Bool.false_and, Bool.false_eq_true, if_false, h.place, homeTurn_token h, beq_self_eq_true,
    if_true, hp]
  rfl

/-- The state after that: the token is DONE, the command gone, the banks are as published (R41, R366). -/
theorem token_done {s s1 s3 : State} {c : Cmd} {a : Nat} (hown : c.packet = none) (h : TokenFree s s1 c a)
    (hp : Publishing (atHome s1 c a) s3) (det : BitVec 48) :
    let s' := retireCmd (fillWord s3 a (tokenWord 0 det)) c
    TokenDone s s3 s' c a det ∧ SameBanks s3 s' ∧ OnlyTells s s' := by
  have htrans := (tokenAt_ok h.place).2.1.eq
  have hthreads3 : s3.threads = s1.threads := hp.threads
  have hreqs3 : s3.flight.reqs = s1.flight.reqs := by rw [hp.flight]; rfl
  have hwaiters3 : s3.flight.waiters = s1.flight.waiters := by rw [hp.flight]; rfl
  have hfill : Filled s3 (fillWord s3 a (tokenWord 0 det)) a (tokenWord 0 det) := fillWord_idle (by rw [hp.cache]; exact h.deltas)
    (by rw [hwaiters3]; exact h.waiters) _
  have hsaved : ∀ x ∈ s3.spaces, x.cmdSave = [] := by
    intro x hx
    obtain ⟨y, hy, he⟩ : ∃ y ∈ s1.spaces, y.cmdSave = x.cmdSave := by
      have : x.cmdSave ∈ s3.spaces.map (·.cmdSave) := List.mem_map_of_mem hx
      rw [hp.saves] at this
      exact List.mem_map.mp this
    rw [← he]
    exact h.saved y hy
  have hgone := retireCmd_gone (s := fillWord s3 a (tokenWord 0 det)) hown (by rw [hfill.threads, hthreads3]; exact h.engq)
    (by rw [hfill.spaces]; exact hsaved)
  have hthreads1 : s1.threads = s.threads := by rw [htrans]
  have hflight1 : s1.flight = s.flight := by rw [htrans]
  have hfw1 : s1.fw = s.fw := by rw [htrans]
  intro s'
  refine ⟨⟨hgone.mem.trans hfill.mem, hgone.gone, hgone.spaces.trans hfill.spaces, ?_, ?_, ?_⟩,
    (sameBanks_of_mats (congrArg Engines.mats hfill.eng)).trans hgone.banks, ?_⟩
  · rw [hgone.threads, hfill.threads, hthreads3, hthreads1]
  · rw [hgone.reqs, hfill.flight, hreqs3, hflight1]
  · rw [hgone.waiters, hfill.flight, hwaiters3, hflight1]
  · have h3 : OnlyTells s s3 := onlyTells_of_fw (hp.fw.trans hfw1)
    exact (h3.trans hfill.tells).trans (onlyTells_of_fw hgone.fw)

/-! The end of a command, by its kind. -/

theorem exec_copy {k : CmdKind} (h : k = .cpy ∨ k = .cred) (s : State) (id : Nat) :
    exec (runsCmd k id) s = copyExecute s id k := by
  rcases h with rfl | rfl <;> rfl

/-- A copy command whose last element is done ends (R251, R252). -/
theorem copyExecute_end {s : State} {c : Cmd} {x y : Tensor} (h : Working s c) (hx : tensorOf c.rec1 = some x)
    (hy : tensorOf c.rec2 = some y) (hdone : elements x ≤ c.pos * perUnit x.ety y.ety) :
    copyExecute s c.id c.kind = fillToken s c 0 (doneDet c.flags (elements x)) fun s => publishTile s c := by
  unfold copyExecute
  rw [h.listed]
  simp only [bne_self_eq_false, h.ready, h.started, h.status, hx, hy, Bool.not_true, Bool.or_self, Bool.false_eq_true, if_false]
  rw [if_pos hdone]
  unfold copyEnd
  simp only [h.status, beq_self_eq_true, if_true]

/-- A matrix command whose work is done and that is first in its queue ends (R217, R218). -/
theorem matrixExecute_end {s : State} {c : Cmd} (h : Working s c) (hf : firstMatrix s c) (hran : c.ran = true) (htodo : c.todo = 0) :
    matrixExecute s c.id c.kind = fillToken s c 0 (doneDet c.flags c.count) fun s =>
      if c.kind == .mldw then
        some (setTag s c c.bank (some { asid := c.key.asid, idx := refIdx c.a, gen := c.gen, row0 := refRow c.a }))
      else publishTile s c := by
  obtain ⟨hfirst, hmode⟩ := hf
  unfold matrixExecute
  rw [h.listed]
  simp only [bne_self_eq_false, h.ready, beq_eq_false_iff_ne.mpr hmode, h.started, hran, htodo, beq_self_eq_true, Bool.not_true,
    Bool.or_self, Bool.false_and, Bool.false_eq_true, if_false, Bool.and_self, Bool.or_true, if_true]
  unfold finishMatrix
  dsimp only
  rw [if_neg (by rw [hfirst]; simp)]
  simp only [h.status, beq_self_eq_true, if_true]

theorem linkEnd_fills {s : State} {c : Cmd} (x : Tensor) {p : Peer} (h : p.sigen = false ∨ c.ran = true) (ans : PeerAnswer) :
    linkEnd s c x p ans = linkFill s c x := by
  unfold linkEnd
  rw [if_pos]
  rcases h with h | h
  · rw [h]; rfl
  · rw [h, Bool.or_true]

theorem linkEnd_signals {s : State} {c : Cmd} (x : Tensor) {p : Peer} (hs : p.sigen = true) (hr : c.ran = false)
    (hup : portUp s c = true) : linkEnd s c x p .performed =
      linkFill (putCmd (emit s (.peerSignal p.id p.win p.rsig (c.sig.setWidth 64))) { c with ran := true }) { c with ran := true } x := by
  unfold linkEnd
  simp only [hs, hr, hup, Bool.not_true, Bool.or_self, Bool.false_eq_true, if_false]
  rfl

/-- Settles O37: at the free home of its token every command publishes what its kind publishes, and `fillToken_done` and
`token_done` say the rest. -/
theorem engineCommandsEnd : Obligations.EngineCommandsEnd := by
  unfold Obligations.EngineCommandsEnd
  refine ⟨?_, ?_, fun s s3 c i x h ho hx => publishTile_tile h ho hx⟩
  · intro s s1 c a hw ht
    refine ⟨?_, ?_, ?_, ?_⟩
    · intro s3 x y hk hpub hx hy hdone
      refine ⟨_, (exec_copy hk s c.id).trans ((copyExecute_end hw hx hy hdone).trans (fillToken_done hw.own ht hpub)), ?_⟩
      exact (token_done hw.own ht (publishTile_publishing hpub) _).1
    · intro x p ans hk hx hp hsig hdone
      have hfill := fillToken_done (det := doneDet 0 (elements x)) (publish := some) hw.own ht rfl
      refine ⟨_, (exec_link hk s c.id ans).trans ((linkExecute_end hw hx hp hdone ans).trans ((linkEnd_fills x hsig ans).trans hfill)), ?_⟩
      exact (token_done hw.own ht (frameWork_refl _).publishing _).1
    · intro hf hk hran htodo
      let tag : Tag := { asid := c.key.asid, idx := refIdx c.a, gen := c.gen, row0 := refRow c.a }
      let s3 := setTag (atHome s1 c a) c c.bank (some tag)
      obtain ⟨hdone, hbanks, -⟩ :=
        token_done (s3 := s3) hw.own ht (frameWork_putMat _ _).publishing (doneDet c.flags c.count)
      have hfill := fillToken_done (s3 := s3) (det := doneDet c.flags c.count) (publish := fun s =>
        if c.kind == .mldw then some (setTag s c c.bank (some tag)) else publishTile s c) hw.own ht (by rw [hk]; rfl)
      refine ⟨_, (exec_matrix (by rw [hk]; rfl) s c.id).trans ((matrixExecute_end hw hf hran htodo).trans hfill), ?_, ?_⟩
      · exact ⟨hdone.mem, hdone.gone, hdone.spaces, hdone.threads, hdone.reqs, hdone.waiters⟩
      · rw [hbanks, getBank_setTag]
    · intro s3 hf hk hran htodo hpub
      have hm : isMatrix c.kind = true ∧ (c.kind == .mldw) = false := by
        rcases hk with hk | hk | hk <;> rw [hk] <;> exact ⟨rfl, rfl⟩
      have hfill := fillToken_done (s3 := s3) (det := doneDet c.flags c.count) (publish := fun s =>
        if c.kind == .mldw then
          some (setTag s c c.bank (some { asid := c.key.asid, idx := refIdx c.a, gen := c.gen, row0 := refRow c.a }))
        else publishTile s c) hw.own ht (by rw [hm.2]; exact hpub)
      refine ⟨_, (exec_matrix hm.1 s c.id).trans ((matrixExecute_end hw hf hran htodo).trans hfill), ?_⟩
      exact (token_done hw.own ht (publishTile_publishing hpub) _).1
  · intro s s1 c a x p hw hk hx hp hsig hran hup hdone signal c1 ht
    have hfill := fillToken_done (c := c1) (det := doneDet 0 (elements x)) (publish := some) hw.own ht rfl
    obtain ⟨hd, -, l, hl⟩ := token_done (c := c1) hw.own ht (frameWork_refl _).publishing (doneDet 0 (elements x))
    refine ⟨_, (exec_link hk s c.id .performed).trans ((linkExecute_end hw hx hp hdone .performed).trans
      ((linkEnd_signals x hsig hran hup).trans hfill)), ?_, ?_⟩
    · exact ⟨hd.mem, hd.gone, hd.spaces, hd.threads, hd.reqs, hd.waiters⟩
    · rw [hl]
      exact List.mem_append_left _ (List.mem_append_right _ List.mem_cons_self)

end Sys2Proof.Machine
end

section
/-! The decoder gives back what the encoder wrote: as a word, and as the bytes of memory (02_encoding R48 to R70). -/

namespace Sys2Proof.Decode
open Sys2Proof.Laws

/-- The decoder gives back every well-formed instruction, by the lemma of its row (R48 to R70); the row of an event is not well
formed. -/
theorem decode_encode (i : Instr) : RoundTrip.Statement i := by
  cases i with
  | add h x => exact RoundTrip.add h x
  | sub h x => exact RoundTrip.sub h x
  | addx h x => exact RoundTrip.addx h x
  | subx h x => exact RoundTrip.subx h x
  | mul h x => exact RoundTrip.mul h x
  | mulh h x => exact RoundTrip.mulh h x
  | div h x => exact RoundTrip.div h x
  | rem h x => exact RoundTrip.rem h x
  | and h x => exact RoundTrip.and h x
  | or h x => exact RoundTrip.or h x
  | xor h x => exact RoundTrip.xor h x
  | andn h x => exact RoundTrip.andn h x
  | orn h x => exact RoundTrip.orn h x
  | shl h x => exact RoundTrip.shl h x
  | shr h x => exact RoundTrip.shr h x
  | sar h x => exact RoundTrip.sar h x
  | rol h x => exact RoundTrip.rol h x
  | ror h x => exact RoundTrip.ror h x
  | clz h x => exact RoundTrip.clz h x
  | ctz h x => exact RoundTrip.ctz h x
  | popc h x => exact RoundTrip.popc h x
  | brev h x => exact RoundTrip.brev h x
  | bswap h x => exact RoundTrip.bswap h x
  | min h x => exact RoundTrip.min h x
  | max h x => exact RoundTrip.max h x
  | abs h x => exact RoundTrip.abs h x
  | sext h x => exact RoundTrip.sext h x
  | zext h x => exact RoundTrip.zext h x
  | bfx h x => exact RoundTrip.bfx h x
  | bfi h x => exact RoundTrip.bfi h x
  | sel h x => exact RoundTrip.sel h x
  | mov h x => exact RoundTrip.mov h x
  | li h d imm => exact RoundTrip.li h d imm
  | lea h x => exact RoundTrip.lea h x
  | cmp h x => exact RoundTrip.cmp h x
  | plog h d a b c tt => exact RoundTrip.plog h d a b c tt
  | pmovGet h d => exact RoundTrip.pmovGet h d
  | pmovSet h a pm => exact RoundTrip.pmovSet h a pm
  | br h disp => exact RoundTrip.br h disp
  | jmp h a => exact RoundTrip.jmp h a
  | call h disp => exact RoundTrip.call h disp
  | callr h a => exact RoundTrip.callr h a
  | ret h => exact RoundTrip.ret h
  | dbnz h d disp => exact RoundTrip.dbnz h d disp
  | nop h => exact RoundTrip.nop h
  | fadd h x => exact RoundTrip.fadd h x
  | fsub h x => exact RoundTrip.fsub h x
  | fmul h x => exact RoundTrip.fmul h x
  | fma h x => exact RoundTrip.fma h x
  | fnma h x => exact RoundTrip.fnma h x
  | fdiv h x => exact RoundTrip.fdiv h x
  | fsqrt h x => exact RoundTrip.fsqrt h x
  | fmin h x => exact RoundTrip.fmin h x
  | fmax h x => exact RoundTrip.fmax h x
  | fsgn h x => exact RoundTrip.fsgn h x
  | fcmp h x => exact RoundTrip.fcmp h x
  | fclass h x => exact RoundTrip.fclass h x
  | fcvt h x => exact RoundTrip.fcvt h x
  | fcvi h x => exact RoundTrip.fcvi h x
  | icvf h x => exact RoundTrip.icvf h x
  | frnd h x => exact RoundTrip.frnd h x
  | shuf h x => exact RoundTrip.shuf h x
  | vext h x => exact RoundTrip.vext h x
  | vins h x => exact RoundTrip.vins h x
  | vbc h x => exact RoundTrip.vbc h x
  | vred h x => exact RoundTrip.vred h x
  | vdot h x => exact RoundTrip.vdot h x
  | vmskGet h x => exact RoundTrip.vmskGet h x
  | vmskSet h x => exact RoundTrip.vmskSet h x
  | vmskAny h x => exact RoundTrip.vmskAny h x
  | vmskAll h x => exact RoundTrip.vmskAll h x
  | vscan h x => exact RoundTrip.vscan h x
  | ld h x => exact RoundTrip.ld h x
  | st h x => exact RoundTrip.st h x
  | amo h x => exact RoundTrip.amo h x
  | cas h x => exact RoundTrip.cas h x
  | cas2 h x => exact RoundTrip.cas2 h x
  | fence h ord scp => exact RoundTrip.fence h ord scp
  | lde h x => exact RoundTrip.lde h x
  | ldc h x => exact RoundTrip.ldc h x
  | stf h x => exact RoundTrip.stf h x
  | sts h x => exact RoundTrip.sts h x
  | sfe h mem => exact RoundTrip.sfe h mem
  | qfe h x => exact RoundTrip.qfe h x
  | hold h x => exact RoundTrip.hold h x
  | hst h x => exact RoundTrip.hst h x
  | hrel h x => exact RoundTrip.hrel h x
  | addd h x => exact RoundTrip.addd h x
  | cflush h x => exact RoundTrip.cflush h x
  | talloc h fmt d a => exact RoundTrip.talloc h fmt d a
  | tfree h a => exact RoundTrip.tfree h a
  | tpin h px a mask => exact RoundTrip.tpin h px a mask
  | tunpin h a mask => exact RoundTrip.tunpin h a mask
  | tlde h x => exact RoundTrip.tlde h x
  | tste h x => exact RoundTrip.tste h x
  | tinfo h n d a => exact RoundTrip.tinfo h n d a
  | mldw h x => exact RoundTrip.mldw h x
  | mma h x => exact RoundTrip.mma h x
  | macc h rm x => exact RoundTrip.macc h rm x
  | mcvt h x => exact RoundTrip.mcvt h x
  | mqry h sel d => exact RoundTrip.mqry h sel d
  | sint h x => exact RoundTrip.sint h x
  | sintc h x => exact RoundTrip.sintc h x
  | smrg h x => exact RoundTrip.smrg h x
  | sdiff h x => exact RoundTrip.sdiff h x
  | sgath h x => exact RoundTrip.sgath h x
  | sscat h x => exact RoundTrip.sscat h x
  | scmp h nz x => exact RoundTrip.scmp h nz x
  | cld h x => exact RoundTrip.cld h x
  | cst h x => exact RoundTrip.cst h x
  | camo h x => exact RoundTrip.camo h x
  | cprb h d base disp b => exact RoundTrip.cprb h d base disp b
  | clbinv h scp d base disp b => exact RoundTrip.clbinv h scp d base disp b
  | qpop h d base disp => exact RoundTrip.qpop h d base disp
  | qpsh h d base disp => exact RoundTrip.qpsh h d base disp
  | cpy h x => exact RoundTrip.cpy h x
  | cred h x => exact RoundTrip.cred h x
  | xcpy h x => exact RoundTrip.xcpy h x
  | xred h x => exact RoundTrip.xred h x
  | rfence h scp base disp => exact RoundTrip.rfence h scp base disp
  | spawn h x => exact RoundTrip.spawn h x
  | exit h => exact RoundTrip.exit h
  | yield h => exact RoundTrip.yield h
  | bar h d a idx => exact RoundTrip.bar h d a idx
  | whereIu h d => exact RoundTrip.whereIu h d
  | move h rad sbench => exact RoundTrip.move h rad sbench
  | sys h a code => exact RoundTrip.sys h a code
  | trap h a code => exact RoundTrip.trap h a code
  | brk h code => exact RoundTrip.brk h code
  | eret h => exact RoundTrip.eret h
  | csrr h d csr => exact RoundTrip.csrr h d csr
  | csrw h a csr => exact RoundTrip.csrw h a csr
  | ctxr h d a word => exact RoundTrip.ctxr h d a word
  | ctxw h a b word => exact RoundTrip.ctxw h a b word
  | _ => exact nofun

/-- Reading the low `n` bytes of a word, the highest first, shifts them in below what has been read (R48). -/
theorem getLsbD_foldl_bytes (w acc : IWord) (n j : Nat) (hj : j < 96) :
    (((List.range n).map fun i => w.extractLsb' (8 * i) 8).reverse.foldl
      (fun (acc : IWord) b => (acc <<< 8) ||| b.setWidth 96) acc).getLsbD j =
      if j < 8 * n then w.getLsbD j else acc.getLsbD (j - 8 * n) := by
  induction n generalizing acc with
  | zero => simp
  | succ n ih =>
    simp only [List.range_succ, List.map_append, List.map_cons, List.map_nil, List.reverse_append, List.reverse_cons,
      List.reverse_nil, List.nil_append, List.singleton_append, List.foldl_cons, ih]
    by_cases h : j < 8 * n
    · have h' : j < 8 * (n + 1) := by omega
      simp only [h, h', if_true]
    · by_cases h' : j < 8 * (n + 1)
      · have h8 : j - 8 * n < 8 := by omega
        have hj8 : 8 * n + (j - 8 * n) = j := by omega
        simp [h, h', h8, hj8]
        omega
      · have h8 : ¬ j - 8 * n < 8 := by omega
        have hs : j - 8 * n - 8 = j - 8 * (n + 1) := by omega
        simp [h, h', h8, hs]
        omega

/-- The bytes of a word are those of the word (R48). -/
theorem wordOfBytes_bytesOfWord (w : IWord) : wordOfBytes (bytesOfWord w) = w :=
  BitVec.eq_of_getLsbD_eq fun j hj => (getLsbD_foldl_bytes w 0 12 j hj).trans (if_pos hj)

/-- At the front of any bytes, the bytes of a word that decodes give its instruction and leave the others (R48). -/
theorem decodeBytes_bytesOfWord {w : IWord} {i : Instr} (h : decode w = .ok i) (l : List Byte) :
    decodeBytes (bytesOfWord w ++ l) = .ok (i, l) := by
  have hl : (bytesOfWord w).length = 12 := by simp [bytesOfWord]
  have hlen : ¬ (bytesOfWord w ++ l).length < 12 := by simp [hl]
  rw [decodeBytes, if_neg hlen, List.take_left' hl, List.drop_left' hl, wordOfBytes_bytesOfWord, h]

/-- Settles O54: the word by `decode_encode`, its bytes by `decodeBytes_bytesOfWord`. -/
theorem decodeEncode : Obligations.DecodeEncode := fun i hi =>
  ⟨decode_encode i hi, decodeBytes_bytesOfWord (decode_encode i hi)⟩

/-- Settles O53: each written word is the encoding of its well-formed instruction. -/
theorem decodingRight : Obligations.DecodingRight := by
  intro p hp
  have hw : ∀ p ∈ Spec.writtenOut, wellFormed p.2 = true ∧ encode p.2 = p.1 := by decide
  obtain ⟨hwf, he⟩ := hw p hp
  rw [← he]
  exact decode_encode p.2 hwf

end Sys2Proof.Decode
end

section
/-! Loads, stores and atomics at issue (07_memory_instructions R166 to R199). -/

namespace Sys2Proof.Machine
open Sys2Proof.Forms Sys2Proof.Spec

/-- The bytes of a type have its width (R67). -/
theorem bytes_width (ty : Ty) : 8 * bytes ty = width ty := by cases ty <;> rfl

theorem dataOf_eq (s : State) (t : Thread) (ty : Ty) (o : Opd) : dataOf s t ty o = data s t ty o := by
  rw [dataOf, lowBytes, bytes_width, data]

/-- Below the limit of outstanding results the instruction goes on (R24). -/
theorem limited_of_ne {s : State} {t : Thread} (h : t.ctx.outst ≠ 15) (x : Did) : limited s t x = x :=
  if_neg (by simpa using h)

theorem aligned_of_mod {ea : Word} {n : Nat} (h : ea.toNat % n = 0) (x : Did) : aligned ea n x = x := by simp [aligned, h]

theorem modifyFirst_id {α : Type} (p : α → Bool) (l : List α) : modifyFirst p id l = l := by
  induction l with
  | nil => rfl
  | cons y l ih => simp [modifyFirst, ih]

@[simp] theorem onThread_id (s : State) (k : Key) : onThread s k id = s := by simp [onThread, modifyFirst_id]

/-- An instruction asks for an access when its body, with nothing in the way, submits it (R171, R172). -/
theorem asks_of_body {s : State} {t : Thread} {h : Hdr} {i : Instr} {l : List (BitVec 8 × Opd × Bool)} {regs : List (Opd × Bool)}
    {al : Nat} {r : Req} {pends counts : Bool} {body : State → Thread → Did} (hi : issues s t h = true)
    (he : exec i s = issue s i h false l body) (hl : l.map (·.2) = regs)
    (hb : r.va.toNat % al = 0 → (counts = true → t.ctx.outst ≠ 15) → entriesFull s t = false →
      body s t = submit s t r pends counts (t.ctx.pc + 12) .run) :
    asks s t h i regs al r pends counts := by
  intro hr hal hout hfull hctx p s1 htr hk
  subst hl
  rw [he]
  exact issue_submit hi hr nofun (hb hal hout hfull) hfull hctx htr hk

/-- The body of an instruction with a register result, below the limit and aligned, is its access (R24, R169). -/
theorem limited_aligned {s : State} {t : Thread} {ea : Word} {n : Nat} (hal : ea.toNat % n = 0) (hout : t.ctx.outst ≠ 15)
    (x : Did) : limited s t (aligned ea n x) = x := by
  rw [limited_of_ne hout, aligned_of_mod hal]

/-- The common effect of `CAS` and `CAS2` asks for one access (R178). -/
theorem casWith_asks {s : State} {t : Thread} {h : Hdr} {i : Instr} {x : Cas} (hi : issues s t h = true)
    (he : exec i s = casWith s i h x) :
    asks s t h i [(x.d, x.ty == .b128), (x.base, false), (x.b, x.ty == .b128)] (width x.ty / 8)
      { newReq .cas (eaBase t.ctx x.base x.disp) (width x.ty / 8) x.ty i with
        ord := x.ord, scp := x.scp, far := x.far, dst := x.d, dat := data s t x.ty x.d, dat2 := data s t x.ty x.b } true true := by
  refine asks_of_body hi he (by rfl) fun hal hout _ => ?_
  rw [← dataOf_eq, ← dataOf_eq]
  exact limited_aligned hal (hout rfl) _

/-- The loads, holds and atomics: each body is a `submit` behind the limit and the alignment. -/
theorem memoryLoads : Spec.MemoryLoads := by
  intro s t h hi
  refine ⟨fun x => ?_, fun x => ?_, fun x => ?_, fun x i hx => ?_⟩
  · refine asks_of_body hi (by rfl) (by rfl) fun hal hout _ => ?_
    exact limited_aligned hal (hout rfl) _
  · refine asks_of_body hi (by rfl) (by rfl) fun hal hout _ => ?_
    exact limited_aligned hal (hout rfl) _
  · refine asks_of_body hi (by rfl) (by rfl) fun hal hout _ => ?_
    rw [← dataOf_eq]
    exact limited_aligned hal (hout rfl) _
  · rcases List.mem_pair.mp hx with rfl | rfl
    · exact casWith_asks hi rfl
    · exact casWith_asks hi rfl

/-- A request that nothing keeps back has nothing performed before it (R173, R174). -/
theorem performEarlier_none {s : State} {r : Req} (h : ∀ e ∈ s.flight.reqs, e.key = r.key → holdsBack e r = false) :
    performEarlier s r = s := by
  have hl : (s.flight.reqs.filter fun e => e.key == r.key && holdsBack e r) = [] := by
    simpa [List.filter_eq_nil_iff] using h
  rw [performEarlier, hl, List.foldl_nil]

theorem getD_map_false {α : Type} {o : Option α} {f : α → Bool} (h : ∀ a, o = some a → f a = false) :
    (o.map f).getD false = false := by
  cases o with
  | none => rfl
  | some a => exact h a rfl

/-- Outside the isolated ranges, with no earlier access to follow, what is stored under a hold is stored at once (R192, R197). -/
theorem underHold_now {s : State} {t : Thread} {r : Req} {p : Phys} {new : State → Vec} {f : Thread → Thread}
    (hiso : ∀ sp, findSpace s t.key.asid = some sp → isolated sp r.va.toNat = false) (hn : noneBefore s t r p) :
    underHold s t r p new f = .done (onThread (holdPut s t.key p r.n (new s)) t.key f) (t.ctx.pc + 12) .run := by
  have he : performEarlier s { r with id := nextSeq s, key := t.key, pa := some p } = s := performEarlier_none hn
  have hi : ((findSpace s t.key.asid).map fun sp => isolated sp r.va.toNat).getD false = false := getD_map_false hiso
  have hany : (s.flight.reqs.any fun e => e.key == t.key &&
      holdsBack e { r with id := nextSeq s, key := t.key, pa := some p }) = false := by
    simp only [List.any_eq_false, Bool.and_eq_true, beq_iff_eq, not_and, Bool.not_eq_true]
    exact hn
  simp only [underHold, hi, he, Bool.false_eq_true, if_false, hany]

/-- `ADDD` asks for an access to a line that its thread does not hold (R197). -/
theorem addd_asks {s : State} {t : Thread} {h : Hdr} (hi : issues s t h = true) (x : Addd)
    (hh : holdOn s t.key (eaOf t.ctx x.mem) = none) :
    asks s t h (.addd h x) (memFree x.d (x.ty == .b128) x.mem) (width x.ty / 8)
      { newReq (.addd x.op) (eaOf t.ctx x.mem) (width x.ty / 8) x.ty (.addd h x) with dst := x.d, dat := data s t x.ty x.d }
      false false := by
  refine asks_of_body hi (by rfl) (by rfl) fun hal _ hfull => ?_
  refine (aligned_of_mod hal _).trans ?_
  simp only [hfull, Bool.false_eq_true, if_false, hh, dataOf_eq]
  rfl

/-- `ADDD` to a line that its thread holds adds into the bytes of the hold and retires (R197). -/
theorem addd_underHold {s : State} {t : Thread} {h : Hdr} (hi : issues s t h = true) (x : Addd) {b u j : Nat} {r : HoldReg}
    (hh : holdOn s t.key (eaOf t.ctx x.mem) = some (b, u, j, r))
    (hr : noneFrom t.ctx (memFree x.d (x.ty == .b128) x.mem) = true) (hal : (eaOf t.ctx x.mem).toNat % (width x.ty / 8) = 0)
    (hfull : entriesFull s t = false)
    (hiso : ∀ sp, findSpace s t.key.asid = some sp → isolated sp (eaOf t.ctx x.mem).toNat = false)
    (hn : noneBefore s t { newReq (.addd x.op) (eaOf t.ctx x.mem) (width x.ty / 8) x.ty (.addd h x) with
      dst := x.d, dat := data s t x.ty x.d } (heldAt r (eaOf t.ctx x.mem))) :
    ∃ s', exec (.addd h x) s = .next s' ∧
      Retired (holdPut s t.key (heldAt r (eaOf t.ctx x.mem)) (width x.ty / 8)
        (amoOper x.op x.ty (readCoherent s (some t.key) (heldAt r (eaOf t.ctx x.mem)) (width x.ty / 8)) (data s t x.ty x.d)))
        s' t h t.ctx (t.ctx.pc + 12) := by
  unfold exec execAddd
  refine issue_keep hi hr nofun ?_ (current_find ((issues_iff _ _ _).mp hi).1) rfl
  refine (aligned_of_mod hal _).trans ?_
  simp only [hfull, Bool.false_eq_true, if_false, hh, dataOf_eq]
  refine (underHold_now hiso hn).trans ?_
  rw [onThread_id]
  rfl

/-- The stores: each body is a `submit`, but for `ADDD` to a held line. -/
theorem memoryStores : Spec.MemoryStores := by
  intro s t h hi
  refine ⟨fun x => ?_, fun x => ?_, fun x => ?_⟩
  · refine asks_of_body hi (by rfl) (by rfl) fun hal _ _ => ?_
    rw [← dataOf_eq]
    exact aligned_of_mod hal _
  · exact ⟨addd_asks hi x, fun b u j r hh hr hal hfull hiso hn => addd_underHold hi x hh hr hal hfull hiso hn⟩
  · exact asks_of_body hi (by rfl) (by rfl) fun _ _ _ => by rfl

/-- Settles O11: `memoryLoads` and `memoryStores`. -/
theorem memoryAccesses : Obligations.MemoryAccesses := ⟨memoryLoads, memoryStores⟩

end Sys2Proof.Machine
end

section
/-! Fences and waits that end: `FENCE`, `RFENCE` and `INSTRUCTION_REISSUE` (R75, R78, R183, R228, R291). -/

namespace Sys2Proof.Machine
open Sys2Proof.Forms Sys2Proof.Spec

/-! When a fence is ready, and what it clears. -/

theorem isRelOrd_iff (o : Ord) : isRelOrd o = true ↔ o = .rel ∨ o = .ar := by simp [isRelOrd]

theorem isAcqOrd_iff (o : Ord) : isAcqOrd o = true ↔ o = .acq ∨ o = .ar := by simp [isAcqOrd]

theorem storesDone_iff (s : State) (k : Key) (scp : Scope) : storesDone s k scp = true ↔ ¬ storeLeft s k scp := by
  simp [storesDone, storeLeft]

theorem fenceReady_iff (s : State) (t : Thread) (o : Ord) (scp : Scope) :
    fenceReady s t o scp = true ↔ t.ctx.outst = 0 ∧ ¬ ((o = .rel ∨ o = .ar) ∧ storeLeft s t.key scp) := by
  rw [fenceReady, Bool.and_eq_true, Bool.or_eq_true, Bool.not_eq_true', storesDone_iff, beq_iff_eq, ← isRelOrd_iff,
    not_and_or, Bool.not_eq_true]

/-- The end of a fence changes data L1s, bench L2s and instruction caches, and nothing else (R78, R183, R291). -/
theorem fenceEnd_eq (s : State) (t : Thread) (o : Ord) (scp : Scope) :
    fenceEnd s t o scp = { s with cache := { s.cache with
      l1 := (fenceEnd s t o scp).cache.l1, l2 := (fenceEnd s t o scp).cache.l2
      icache := (fenceEnd s t o scp).cache.icache } } := by
  unfold fenceEnd
  cases isRelOrd o <;> cases isAcqOrd o <;> rfl

@[simp] theorem fenceEnd_flight (s : State) (t : Thread) (o : Ord) (scp : Scope) : (fenceEnd s t o scp).flight = s.flight := by
  rw [fenceEnd_eq]

@[simp] theorem findThread_fenceEnd (s : State) (t : Thread) (o : Ord) (scp : Scope) (k : Key) :
    findThread (fenceEnd s t o scp) k = findThread s k := by
  rw [fenceEnd_eq]
  rfl

theorem mem_fenceEnd_l1 (s : State) (t : Thread) (o : Ord) (scp : Scope) (x : L1Line) :
    x ∈ (fenceEnd s t o scp).cache.l1 ↔
      x ∈ s.cache.l1 ∧ ¬ ((o = .acq ∨ o = .ar) ∧ x.bench = t.bench ∧ x.iu = iuAt t) := by
  rw [← isAcqOrd_iff]
  cases hr : isRelOrd o <;> cases ha : isAcqOrd o <;> simp [fenceEnd, hr, ha, acquireL1, dropStale, -not_and, not_and_or]

theorem mem_fenceEnd_l2 (s : State) (t : Thread) (o : Ord) (scp : Scope) (x : L2Line) :
    x ∈ (fenceEnd s t o scp).cache.l2 ↔
      x ∈ s.cache.l2 ∧ ¬ ((o = .acq ∨ o = .ar) ∧ scp = .sys ∧ x.bench = t.bench ∧ isPeer x.line = true) := by
  rw [← isAcqOrd_iff]
  cases hr : isRelOrd o <;> cases ha : isAcqOrd o <;> by_cases hs : scp = .sys <;>
    simp [fenceEnd, hr, ha, hs, acquireL1, dropStale, -not_and, not_and_or]

theorem mem_fenceEnd_icache (s : State) (t : Thread) (o : Ord) (scp : Scope) (x : ILine) :
    x ∈ (fenceEnd s t o scp).cache.icache ↔
      x ∈ s.cache.icache ∧ ¬ ((o = .rel ∨ o = .ar) ∧ x.data ≠ lineData s.mem x.line) := by
  rw [← isRelOrd_iff]
  cases hr : isRelOrd o <;> cases ha : isAcqOrd o <;> simp [fenceEnd, hr, ha, acquireL1, dropStale]

/-! Issue of a fence. -/

/-- Whether something is due on a line depends on its thread and on the requests in flight. -/
theorem quiet_of_reqs {s s2 : State} {t : Thread} (hl : s2.flight.reqs = s.flight.reqs) : quiet s2 t = quiet s t := by
  unfold quiet
  rw [hl]

/-- A wait for results of a thread that has none outstanding is over at once (R25, R183). -/
theorem Retired.of_drain {s s' : State} {t : Thread} {h : Hdr} {pc : VAddr}
    (r : Retired s s' t { h with w := true } t.ctx pc) (ho : t.ctx.outst = 0) : Retired s s' t h t.ctx pc := by
  obtain ⟨x, hx, hctx, htrap, hwait, hkind, hbench, hloc⟩ := r.line.line
  exact { r with line := ⟨x, hx, hctx, htrap, by simp [hwait, ho], hkind, hbench, hloc⟩ }

/-- An instruction that changes the state outside its own line and then waits for the results of its thread, which has none. -/
theorem issue_drain {s s2 : State} {t : Thread} {i : Instr} {h : Hdr} {priv : Bool} {regs : List (BitVec 8 × Opd × Bool)}
    {body : State → Thread → Did} {pc : VAddr}
    (hi : issues s t h = true) (hr : noneFrom t.ctx (regs.map (·.2)) = true) (hp : priv = true → t.ctx.sup = true)
    (hb : body s t = .done s2 pc .drain) (hf2 : findThread s2 t.key = some t) (hl : s2.flight.reqs = s.flight.reqs)
    (ho : t.ctx.outst = 0) :
    ∃ s', issue s i h priv regs body = .next s' ∧ Retired s2 s' t h t.ctx pc := by
  have hq : quiet s2 t = true := (quiet_of_reqs hl).trans ((issues_iff _ _ _).mp hi).2.1
  refine ⟨_, issue_body hi hr hp hb, ?_⟩
  rw [retire_drain]
  exact (retire_spec s2 t { h with w := true } pc hf2 hq).of_drain ho

/-- An instruction that begins a wait before it completes leaves its line parked, and nothing else changes but its unit's marks
(R75 step 11). -/
theorem issue_stay {s : State} {t : Thread} {i : Instr} {h : Hdr} {priv : Bool} {regs : List (BitVec 8 × Opd × Bool)}
    {body : State → Thread → Did} {w : Wait}
    (hi : issues s t h = true) (hr : noneFrom t.ctx (regs.map (·.2)) = true) (hp : priv = true → t.ctx.sup = true)
    (hb : body s t = .stay s w) :
    ∃ s' x, issue s i h priv regs body = .next s' ∧ findThread s' t.key = some x ∧
      x.wait = (unpark { t with wait := w }).wait ∧ x.ctx = { t.ctx with wkind := x.ctx.wkind } ∧ RestSame s s' := by
  obtain ⟨hc, hq, hg⟩ := (issues_iff _ _ _).mp hi
  obtain ⟨hcl, -, hpend, hz, hn, -, hfat, hun⟩ := (quiet_iff _ _).mp hq
  obtain ⟨hmark, -, hrest, -⟩ := markIssue_spec s t h (current_find hc)
  let y : Thread := { t with yp := h.yp, lh := h.lh, lastIssue := s.run.now, lastIu := some (t.bench, iuAt t), wait := w }
  let s1 := onThread (markIssue s t.key h) t.key fun t => { t with wait := w }
  have hy : findThread s1 y.key = some y :=
    (findThread_onThread _ _ _ (by exact fun _ hk => hk)).trans (by rw [hmark]; rfl)
  obtain ⟨⟨x, hx, hxy, -⟩, -, hsettle, -⟩ :=
    settle_line s1 y hy hcl hpend hfat hz hn (by show ∀ r ∈ (markIssue s t.key h).flight.reqs, _; rw [hrest.flight]; exact hun)
  refine ⟨settle s1 t.key, x, ?_, hx, ?_, ?_, hrest.trans ((restSame_onThread _ _ _).trans hsettle)⟩
  · have h1 : ((getP t.ctx h.g ^^ h.n) == false) = false := by simp [hg]
    have h2 : (priv && !t.ctx.sup) = false := by
      cases hpriv : priv with
      | false => rfl
      | true => simp [hp hpriv]
    simp only [issue, hc, h1, h2, Bool.false_eq_true, if_false, hazard_none _ _ hr, hb]
    rfl
  · rw [hxy, unpark_wait y hpend, unpark_wait { t with wait := w } hpend]
  · rw [hxy]

/-- `FENCE`: with its conditions met it ends at issue (`fenceEnd`), else it waits (R183). -/
theorem fences : Spec.Fences := by
  intro s t h o scp hi hfull isRel isAcq
  refine ⟨fun ho hs => ?_, fun hw => ?_⟩
  · have hready : fenceReady s t o scp = true := (fenceReady_iff _ _ _ _).mpr ⟨ho, hs⟩
    have he := fenceEnd_eq s t o scp
    obtain ⟨s', hs', r⟩ : ∃ s', exec (.fence h o scp) s = .next s' ∧
        Retired (fenceEnd s t o scp) s' t h t.ctx (t.ctx.pc + 12) := by
      unfold exec execFence
      exact issue_drain hi (by rfl) nofun (by simp [hfull, hready])
        ((findThread_fenceEnd ..).trans (current_find ((issues_iff _ _ _).mp hi).1)) (by rw [fenceEnd_flight]) ho
    have hcache := r.cache
    have hstate : fenceEnd s t o scp = { s with cache := s'.cache } := by rw [hcache, he]
    refine ⟨s', hs', hstate ▸ r, ?_, fun x => ?_, fun x => ?_, fun x => ?_⟩
    · rw [hcache, he]
    · rw [hcache, mem_fenceEnd_l1]
    · rw [hcache, mem_fenceEnd_l2]
    · rw [hcache, mem_fenceEnd_icache]
  · have hready : fenceReady s t o scp = false := by
      rw [Bool.eq_false_iff, ne_eq, fenceReady_iff]
      tauto
    obtain ⟨s', x, hs', hx, hwait, hctx, hrest⟩ : ∃ s' x, exec (.fence h o scp) s = .next s' ∧ findThread s' t.key = some x ∧
        x.wait = (unpark { t with wait := .fence o scp }).wait ∧ x.ctx = { t.ctx with wkind := x.ctx.wkind } ∧ RestSame s s' := by
      unfold exec execFence
      exact issue_stay hi (by rfl) nofun (by simp [hfull, hready])
    have hpend : t.pend = none := ((quiet_iff _ _).mp ((issues_iff _ _ _).mp hi).2.1).2.2.1
    exact ⟨s', x, hs', hx, hwait.trans (unpark_wait { t with wait := .fence o scp } hpend), hctx, hrest.mem, hrest.cache, hrest.flight⟩

/-! `RFENCE` (R228). -/

theorem mem_discardRecords (s : State) (b : Nat) (scp : Scope) (one : Option (BitVec 16 × Nat)) (e : RecEnt) :
    e ∈ (discardRecords s b scp one).cache.recs ↔ e ∈ s.cache.recs ∧
      ¬ ((scp ≠ .bench ∨ e.bench = b) ∧ ∀ x, one = some x → e.asid = x.1 ∧ e.va = x.2) := by
  cases one <;> simp [discardRecords, -not_and, not_and_or]

/-- `RFENCE`: the records it discards are those of `discardRecords` (R228). -/
theorem recordFence : Spec.RecordFence := by
  intro s t h scp base disp hi hr hs
  let one := if base == .zero && disp == 0 then none else some (t.key.asid, (eaBase t.ctx base disp &&& ~~~127).toNat)
  obtain ⟨s', hs', r⟩ : ∃ s', exec (.rfence h scp base disp) s = .next s' ∧
      Retired (discardRecords s t.bench scp one) s' t h t.ctx (t.ctx.pc + 12) := by
    unfold exec execRfence
    refine issue_keep hi hr nofun ?_ (current_find ((issues_iff _ _ _).mp hi).1) rfl
    simp only [(storesDone_iff _ _ _).mpr hs, Bool.not_true, Bool.false_eq_true, if_false]
    rfl
  have hcache := r.cache
  have hstate : discardRecords s t.bench scp one = { s with cache := s'.cache } := by rw [hcache]; rfl
  refine ⟨s', hs', hstate ▸ r, by rw [hcache]; rfl, fun e => ?_⟩
  have hone : (∀ x, one = some x → e.asid = x.1 ∧ e.va = x.2) ↔ (base = .zero ∧ disp = 0) ∨
      (e.asid = t.key.asid ∧ e.va = (eaBase t.ctx base disp &&& ~~~127).toNat) := by
    by_cases hall : base = .zero ∧ disp = 0
    · simp [one, hall]
    · have hne : (base == .zero && disp == 0) = false := by simpa using hall
      simp only [one, hne, hall, Bool.false_eq_true, if_false, Option.some.injEq, forall_eq', false_or]
  rw [hcache, mem_discardRecords, hone]

/-- Settles O15: `fences` and `recordFence`. -/
theorem fencesOfBothKinds : Obligations.FencesOfBothKinds := ⟨fences, recordFence⟩

/-! Waits that end (R75 step 11, R183). -/

/-- A line with nothing due that issues its instruction again runs, and nothing else changes (R75 step 11). -/
theorem reissue_spec {s : State} {t : Thread} (hf : findThread s t.key = some t) (hc : inCl1 t = true) (hp : t.pend = none)
    (hr : fatalRec t.trap = none) (hz : t.ctx.frz = false) (hn : t.cancel = false)
    (hq : ∀ r ∈ s.flight.reqs, r.key = t.key → isUnrecorded r = false) :
    (∃ x, findThread (reissue s t.key) t.key = some x ∧ x.wait = .run ∧ x.trap = t.trap ∧ x.ctx = { t.ctx with wkind := 0 }) ∧
      (∀ k, k ≠ t.key → findThread (reissue s t.key) k = findThread s k) ∧ RestSame s (reissue s t.key) := by
  let y : Thread := { t with wait := .run }
  let s1 := onThread s t.key fun t => { t with wait := .run }
  have hy : findThread s1 y.key = some y :=
    (findThread_onThread _ _ _ (by exact fun _ hk => hk)).trans (by rw [hf]; rfl)
  obtain ⟨⟨x, hx, hxy, hkind⟩, hothers, hsettle, -⟩ := settle_line s1 y hy hc hp hr hz hn hq
  have hwait : x.wait = .run := by rw [hxy]; exact unpark_wait y hp
  refine ⟨⟨x, hx, hwait, ?_, ?_⟩, fun k hk => ?_, (restSame_onThread _ _ _).trans hsettle⟩
  · rw [hxy, unpark_parts y]
  · rw [hxy, ← hkind hwait]
  · exact (hothers k hk).trans (findThread_onThread_other _ _ _ _ hk fun _ h => h)

/-- A fence that waited completes when its conditions hold (R183). -/
theorem exec_reissue_fence {s : State} {t : Thread} {o : Ord} {scp : Scope} (hf : findThread s t.key = some t)
    (hw : t.wait = .fence o scp) :
    exec (.instructionReissue t.key) s = if mayComplete s { t with pend := none } && fenceReady s t o scp then
      .next (quietly s (endFence s t o scp) t.bench (iuAt t)) else .next s := by
  obtain ⟨⟩ := t
  subst hw
  show execInstructionReissue _ s = _
  rw [execInstructionReissue, hf]

theorem mayResume_parts {s : State} {t : Thread} (h : mayResume s t = true) :
    mayComplete s t = true ∧ t.ctx.frz = false ∧ t.cancel = false := by
  simp only [mayResume, mayComplete, Bool.and_eq_true, Bool.not_eq_true'] at h ⊢
  tauto

/-- A fence that waited and is ready completes: it has its effect, and its thread runs on (R183). -/
theorem fence_completes {s : State} {t : Thread} {o : Ord} {scp : Scope} (hf : findThread s t.key = some t)
    (hm : mayResume s t = true) (hc : inCl1 t = true) (hp : t.pend = none) (hstep : t.ctx.step = false)
    (hr : fatalRec t.trap = none) (hq : ∀ r ∈ s.flight.reqs, r.key = t.key → isUnrecorded r = false)
    (hw : t.wait = .fence o scp) (hready : fenceReady s t o scp = true) :
    ∃ s' x, exec (.instructionReissue t.key) s = .next s' ∧ findThread s' t.key = some x ∧ x.wait = .run ∧ x.trap = t.trap ∧
      x.ctx = { t.ctx with pc := t.ctx.pc + 12, wkind := 0 } ∧ (∀ k, k ≠ t.key → findThread s' k = findThread s k) ∧
      s'.mem = s.mem ∧ s'.flight = s.flight ∧ s'.cache = (fenceEnd s t o scp).cache := by
  obtain ⟨hmay, hz, hn⟩ := mayResume_parts hm
  have ho : t.ctx.outst = 0 := ((fenceReady_iff _ _ _ _).mp hready).1
  let h : Hdr := { yp := t.yp, lh := t.lh }
  have he : exec (.instructionReissue t.key) s =
      .next (quietly s (retire (fenceEnd s t o scp) t.key h (t.ctx.pc + 12) .drain) t.bench (iuAt t)) := by
    have ht : mayComplete s { t with pend := none } = true := by rw [← hmay, ← hp]
    rw [exec_reissue_fence hf hw, ht, hready, endFence, hp]
    rfl
  obtain ⟨⟨x, hx, hctx, htrap, hwait, hkind, -⟩, hothers, hrest, -⟩ :=
    retire_line (fenceEnd s t o scp) t h (t.ctx.pc + 12) .drain ((findThread_fenceEnd ..).trans hf) hc hp hz hn hstep hr
      (by rwa [fenceEnd_flight])
  have hrun : x.wait = .run := hwait.trans ((unpark_wait { t with wait := .drain } hp).trans (by simp [ho]))
  exact ⟨_, x, he, hx, hrun, htrap, by rw [hctx, hkind hrun], fun k hk => (hothers k hk).trans (findThread_fenceEnd ..),
    hrest.mem.trans (fenceEnd_mem ..), hrest.flight.trans (fenceEnd_flight ..), hrest.cache⟩

/-- Settles O29: the waits at the outstanding limit, for room and for a frame end in `reissue`; that of a fence in its end. -/
theorem instructionReissue : Obligations.InstructionReissue := by
  intro s t hf hm hc hp hstep hr hq
  refine ⟨fun hw => ?_, fun o scp hw hready => ?_⟩
  · have he : exec (.instructionReissue t.key) s = .next (reissue s t.key) := by
      unfold exec execInstructionReissue
      rcases hw with ⟨hw, ho⟩ | ⟨hw, hroom⟩ | ⟨i, j, iw, hw, hframe⟩
      · simp only [hf, hw, hm, decide_eq_true ho, Bool.and_true, if_true]
      · simp only [hf, hw, hm, hroom, Bool.not_false, Bool.and_true, if_true]
      · simp only [hf, hw, hm, hframe, Bool.and_true, if_true]
    obtain ⟨-, hz, hn⟩ := mayResume_parts hm
    obtain ⟨⟨x, hx, hwait, htrap, hctx⟩, hothers, hrest⟩ := reissue_spec hf hc hp hr hz hn hq
    exact ⟨_, x, he, hx, hwait, htrap, hctx, hothers, hrest.mem, hrest.cache, hrest.flight, hrest.eng⟩
  · obtain ⟨s', x, he, hx, hwait, htrap, hctx, hothers, hmem, hflight, hcache⟩ :=
      fence_completes hf hm hc hp hstep hr hq hw hready
    refine ⟨s', x, he, hx, hwait, htrap, hctx, hothers, hmem, hflight, fun ha y hy hmine => ?_⟩
    rw [hcache] at hy
    exact ((mem_fenceEnd_l1 ..).mp hy).2 ⟨ha, hmine⟩

end Sys2Proof.Machine
end

section
/-! Words that are no instruction: each refused with the cause and detail of the first check that fails (R71, R73 to R77). -/

namespace Sys2Proof.Decode
open Sys2Proof.Forms Sys2Proof.Spec

/-! What a word answers at each check of the decoder (R75 steps 2 to 7). -/

section checks
variable {w : IWord} {r : Row} (h0 : fOpc w ≠ 0) (hr : rowOf (fOpc w) = some r)

theorem decode_zero (h : fOpc w = 0) : decode w = .error (illegalInstr 0x01 0) := by simp only [decode, h, if_true]

include h0 in
theorem decode_noRow (h : rowOf (fOpc w) = none) : decode w = .error (illegalInstr 0x02 0) := by
  simp only [decode, h0, if_false, h]

include h0 hr in
theorem decode_bit63 (h : (r.hasF && fF w && !r.ri) = true) : decode w = .error (illegalInstr 0x03 0) := by
  simp only [decode, h0, if_false, hr, h, if_true]

variable (hf : (r.hasF && fF w && !r.ri) = false)

include h0 hr hf in
theorem decode_reserved {k : Nat} (h : lowestBit (reservedBits r w) = some k) :
    decode w = .error (illegalInstr 0x04 k) := by
  simp only [decode, h0, if_false, hr, hf, h, Bool.false_eq_true]

variable (hb : lowestBit (reservedBits r w) = none)

include h0 hr hf hb in
theorem decode_field {f : Nat × Bool} (h : (r.fields w).find? (fun f => !f.2) = some f) :
    decode w = .error (illegalInstr 0x05 f.1) := by
  simp only [decode, h0, if_false, hr, hf, hb, h, Bool.false_eq_true]

variable (hl : (r.fields w).find? (fun f => !f.2) = none)

include h0 hr hf hb hl in
theorem decode_operand {x : BitVec 8 × BitVec 8} (h : firstRefusal (r.opnds w) = some x) :
    decode w = .error (illegalOpnd x.1 x.2) := by
  simp only [decode, h0, if_false, hr, hf, hb, hl, h, Bool.false_eq_true]

include h0 hr hf hb hl in
theorem decode_accepted (h : firstRefusal (r.opnds w) = none) : decode w = .ok (r.make w) := by
  simp only [decode, h0, if_false, hr, hf, hb, hl, h, Bool.false_eq_true]

end checks

/-! Opcodes and their rows (R72, R73). -/

theorem fOpc_toNat (w : IWord) : (fOpc w).toNat = w.toNat % 1024 := by simp [fOpc, fld]

theorem fOpc_ne_zero {w : IWord} (h : w.toNat % 1024 ≠ 0) : fOpc w ≠ 0 := fun e => h (by rw [← fOpc_toNat, e]; rfl)

/-- No row has an opcode that R73 leaves unassigned. -/
theorem group_assigned : ∀ g < 8, ∀ r ∈ group g, ¬ unassigned r.opc.toNat := by
  intro g hg
  unfold unassigned
  interval_cases g
  all_goals decide

theorem rowOf_unassigned {o : BitVec 10} (h : unassigned o.toNat) : rowOf o = none := by
  refine List.find?_eq_none.mpr fun r hr he => ?_
  have ho : r.opc = o := by simpa using he
  exact group_assigned (o.toNat / 128) (by omega) r hr (ho ▸ h)

/-- The rows of group 010 are of class R, whose bit 63 is `F` and must be 0 (R62, R74). -/
theorem rowOf_classR : ∀ n < 24, (rowOf (BitVec.ofNat 10 (0x100 + n))).any (fun r => r.hasF && !r.ri) = true := by
  decide

/-- From `MUL` to `ROR` the rows use the fields of an R/I instruction with two sources (R57, R125). -/
theorem rowOf_alu2 : ∀ n < 14, (rowOf (BitVec.ofNat 10 (0x005 + n))).any (fun r => decide (r.used false = usedRI [] false)) = true := by
  decide

/-- The row of the opcode of a word, found among a run of opcodes. -/
theorem rowOf_between {w : IWord} {lo n : Nat} {p : Row → Bool} (h : ∀ i < n, (rowOf (BitVec.ofNat 10 (lo + i))).any p = true)
    (hlo : lo ≤ w.toNat % 1024) (hhi : w.toNat % 1024 < lo + n) : ∃ r, rowOf (fOpc w) = some r ∧ p r = true := by
  have ho : BitVec.ofNat 10 (lo + (w.toNat % 1024 - lo)) = fOpc w := by
    refine BitVec.eq_of_toNat_eq ?_
    rw [fOpc_toNat, BitVec.toNat_ofNat]
    omega
  have hp := h (w.toNat % 1024 - lo) (by omega)
  rw [ho] at hp
  cases hr : rowOf (fOpc w) with
  | none => rw [hr] at hp; cases hp
  | some r => rw [hr] at hp; exact ⟨r, rfl, hp⟩

theorem fF_eq (w : IWord) : fF w = w.getLsbD 63 := by
  have h : ∀ x : BitVec 1, (x == 1#1) = x.getLsbD 0 := by decide
  exact (h _).trans (by simp [fld])

/-! Reserved bits (R71). -/

/-- The bits that no instruction with two sources uses in its R form (R49, R57). -/
theorem getLsbD_usedRI : ∀ j < 96, (commonBits ||| bitsOf (usedRI [] false)).getLsbD j = false ↔
    j = 17 ∨ j = 18 ∨ (40 ≤ j ∧ j ≤ 49) ∨ (58 ≤ j ∧ j ≤ 62) ∨ (64 ≤ j ∧ j ≤ 95) := by
  decide

theorem getLsbD_reservedBits {r : Row} {w : IWord} (h : r.used (fF w) = usedRI [] false) {j : Nat} (hj : j < 96) :
    (reservedBits r w).getLsbD j = true ↔
      (j = 17 ∨ j = 18 ∨ (40 ≤ j ∧ j ≤ 49) ∨ (58 ≤ j ∧ j ≤ 62) ∨ (64 ≤ j ∧ j ≤ 95)) ∧ w.getLsbD j = true := by
  rw [reservedBits, h, BitVec.getLsbD_and, BitVec.getLsbD_not, ← getLsbD_usedRI j hj]
  simp [hj, and_comm]

theorem lowestBit_eq_some {m : IWord} {k : Nat} (hk : k < 96) (h : m.getLsbD k = true) (hl : ∀ j < k, m.getLsbD j = false) :
    lowestBit m = some k := by
  refine List.find?_range_eq_some.mpr ⟨h, List.mem_range.mpr hk, fun j hj => ?_⟩
  simp [hl j hj]

/-! The words of `ADD` (R57). -/

/-- The word of `ADD` with type `ty` is a class R word. -/
theorem addWord_eq (d a b : BitVec 7) (ty : BitVec 5) :
    addWord d a b ((0 : BitVec 41) ++ ty ++ (0 : BitVec 10)) = wR 0x001 {} d a b 0 0 ty 0 0 false 0 := by
  apply BitVec.eq_of_toNat_eq
  unfold addWord wR xR low
  simp only [BitVec.toNat_append, Nat.shiftLeft_or_distrib, ← Nat.shiftLeft_add, Nat.or_assoc]
  simp [bit]

/-- The row of `ADD`. -/
abbrev addRow : Row := rowAlu2 0x001 arith128 .add

section add
variable (d a b : BitVec 7) (ty : BitVec 5)

/-- The word of `ADD` of registers, with type `ty`. -/
abbrev addReg : IWord := wR 0x001 {} d a b 0 0 ty 0 0 false 0

theorem addReg_opc : fOpc (addReg d a b ty) = 0x001 := wR_opc ..

theorem addReg_row : rowOf (fOpc (addReg d a b ty)) = some addRow := by
  rw [addReg_opc]
  rfl

theorem addReg_F : fF (addReg d a b ty) = false := by
  rw [fF, wR_f]
  rfl

theorem addReg_bit63 : (addRow.hasF && fF (addReg d a b ty) && !addRow.ri) = false := Bool.and_false _

theorem addReg_reserved : lowestBit (reservedBits addRow (addReg d a b ty)) = none := by
  have h : reservedBits addRow (addReg d a b ty) = 0 := by
    rw [reservedBits, addReg_F]
    refine no_bits [(17, 2), (40, 7), (47, 3), (58, 3), (61, 2), (64, 32)] ?_ (by decide)
    simp
  rw [h]
  decide

end add

/-- A type that is none fails the field of the type (R58, R76). -/
theorem decode_addReg_type (d a b : BitVec 7) {ty : BitVec 5} (h : 0x15 ≤ ty.toNat) :
    decode (addReg d a b ty) = .error (illegalInstr 0x05 50) := by
  have hty : tyOf ty = none := List.getElem?_eq_none (show allTys.length ≤ ty.toNat from h)
  have hfld : (addRow.fields (addReg d a b ty)).find? (fun f => !f.2) = some (50, false) := by
    simp [addRow, rowAlu2, hty]
  exact decode_field (f := (50, false)) (by simp) (addReg_row d a b ty) (addReg_bit63 d a b _) (addReg_reserved d a b ty) hfld

/-! The operands of `ADD.b64` (R52, R54, R77). -/

theorem ty_zero : ty 0#5 = .b64 := rfl

theorem sh_zero : sh 0#3 = .sc := rfl

theorem chk_sDst : ∀ c : BitVec 7, chk 1 .sDst c = (1, dstReason c) := by decide

theorem chk_sSrc_two : ∀ c : BitVec 7, chk 2 .sSrc c = (2, srcReason c) := by decide

theorem chk_sSrc_three : ∀ c : BitVec 7, chk 3 .sSrc c = (3, srcReason c) := by decide

theorem addReg_opnds (d a b : BitVec 7) :
    addRow.opnds (addReg d a b 0) = [(1, dstReason d), (2, srcReason a), (3, srcReason b)] := by
  rw [← chk_sDst, ← chk_sSrc_two, ← chk_sSrc_three]
  simp [addRow, rowAlu2, ty_zero, sh_zero, aluDst, aluSrc, shaped]

theorem addReg_make (d a b : BitVec 7) :
    addRow.make (addReg d a b 0) = .add {} { ty := .b64, d := opd d, a := opd a, b := .opd (opd b) } := by
  simp [addRow, rowAlu2, ty_zero, sh_zero]

/-- The detail of a refused operand: its reason, and its field in the low 16 bits (R77). -/
theorem illegalOpnd_eq (r f : BitVec 8) : illegalOpnd r f = ⟨0x02, r ++ ((0 : BitVec 8) ++ f)⟩ := by
  rw [illegalOpnd, BitVec.append_assoc]
  rfl

/-- The first refused operand of `ADD.b64`, in the order D, A, B, gives the detail (R77). -/
theorem decode_addReg_operands (d a b : BitVec 7) :
    decode (addReg d a b 0) = match dstReason d, srcReason a, srcReason b with
      | some r, _, _ => .error ⟨0x02, r ++ (0x0001 : BitVec 16)⟩
      | none, some r, _ => .error ⟨0x02, r ++ (0x0002 : BitVec 16)⟩
      | none, none, some r => .error ⟨0x02, r ++ (0x0003 : BitVec 16)⟩
      | none, none, none => .ok (.add {} { ty := .b64, d := opd d, a := opd a, b := .opd (opd b) }) := by
  have hfld : (addRow.fields (addReg d a b 0)).find? (fun f => !f.2) = none := by
    simp [addRow, rowAlu2]
    decide
  have herr := fun x => decode_operand (x := x) (by simp) (addReg_row d a b 0) (addReg_bit63 d a b _) (addReg_reserved d a b 0) hfld
  have hok := decode_accepted (by simp) (addReg_row d a b 0) (addReg_bit63 d a b _) (addReg_reserved d a b 0) hfld
  simp only [illegalOpnd_eq, addReg_opnds, addReg_make] at herr hok
  cases hd : dstReason d with
  | some r => simpa using herr (r, 1) (by rw [hd]; rfl)
  | none => cases ha : srcReason a with
    | some r => simpa using herr (r, 2) (by rw [hd, ha]; rfl)
    | none => cases hb : srcReason b with
      | some r => simpa using herr (r, 3) (by rw [hd, ha, hb]; rfl)
      | none => exact hok (by rw [hd, ha, hb]; rfl)

/-- Settles O55: the opcode, bit 63 and the reserved bits of any word; the type and the operands of `ADD`. -/
theorem illegalWords : Obligations.IllegalWords := by
  refine ⟨fun w => ⟨fun h => ?_, fun h => ?_, fun hlo hhi h63 => ?_, fun k hlo hhi h63 => ?_⟩,
    fun d a b ty h => ?_, fun d a b => ?_⟩
  · exact decode_zero (BitVec.eq_of_toNat_eq (by rw [fOpc_toNat, h]; rfl))
  · have h0 : w.toNat % 1024 ≠ 0 := by unfold unassigned at h; omega
    exact decode_noRow (fOpc_ne_zero h0) (rowOf_unassigned (by rwa [fOpc_toNat]))
  · obtain ⟨r, hr, hp⟩ := rowOf_between rowOf_classR hlo (by omega)
    exact decode_bit63 (fOpc_ne_zero (by omega)) hr (by rw [fF_eq, h63]; simpa using hp)
  · intro reserved hk hset hfirst
    obtain ⟨r, hr, hp⟩ := rowOf_between rowOf_alu2 hlo (by omega)
    have hF : fF w = false := (fF_eq w).trans h63
    have hused : r.used (fF w) = usedRI [] false := by rw [hF]; simpa using hp
    have hk96 : k < 96 := by omega
    refine decode_reserved (fOpc_ne_zero (by omega)) hr (by rw [hF, Bool.and_false, Bool.false_and])
      (lowestBit_eq_some hk96 ((getLsbD_reservedBits hused hk96).mpr ⟨hk, hset⟩) fun j hj => ?_)
    rw [Bool.eq_false_iff, ne_eq, getLsbD_reservedBits hused (by omega)]
    exact fun ⟨hres, hw⟩ => Bool.false_ne_true ((hfirst j hj hres).symm.trans hw)
  · rw [addWord_eq]
    exact decode_addReg_type d a b h
  · exact (congrArg decode (addWord_eq d a b 0)).trans (decode_addReg_operands d a b)

end Sys2Proof.Decode
end

section
/-! SUPPORT. O58: what rounding an exact value gives, and the operands that arithmetic answers without rounding (R101, R103 to R105). -/

namespace Sys2Proof.Machine
open Sys2Proof.Forms

/-! Rounding to an integer (R103). -/

/-- Whether an inexact magnitude of quotient `q` and remainder `r` by `P` is rounded away from zero (R103). -/
def roundsAway (m : RMode) (neg : Bool) (q r P : Nat) : Prop :=
  match m with
  | .rne => P < 2 * r ∨ 2 * r = P ∧ q % 2 = 1
  | .rtz => False
  | .rdn => neg = true
  | .rup => neg = false
  | .rmm => P ≤ 2 * r

theorem roundShift_exact (m : RMode) (neg : Bool) {n k : Nat} (h : n % 2 ^ k = 0) : roundShift m neg n k = (n / 2 ^ k, false) := by
  simp [roundShift, h]

/-- A value between two integers goes to the one away from zero when the mode says so, else to the other. -/
theorem roundShift_inexact (m : RMode) (neg : Bool) {n k : Nat} (h : n % 2 ^ k ≠ 0) :
    ∃ q, roundShift m neg n k = (q, true) ∧
      (q = n / 2 ^ k + 1 ∧ roundsAway m neg (n / 2 ^ k) (n % 2 ^ k) (2 ^ k) ∨
        q = n / 2 ^ k ∧ ¬ roundsAway m neg (n / 2 ^ k) (n % 2 ^ k) (2 ^ k)) := by
  refine ⟨_, by simp only [roundShift, if_neg h]; rfl, ?_⟩
  cases m <;> simp only [roundsAway] <;> split <;> simp_all

theorem signed_mul (neg : Bool) (a k : Nat) : Spec.signed neg a * 2 ^ k = Spec.signed neg (a * 2 ^ k) := by
  cases neg <;> simp [Spec.signed]

theorem natAbs_signed (neg : Bool) (a : Nat) : (Spec.signed neg a).natAbs = a := by
  cases neg <;> simp [Spec.signed]

theorem natAbs_signed_sub (neg : Bool) (a b : Nat) : (Spec.signed neg a - Spec.signed neg b).natAbs = ((a : Int) - b).natAbs := by
  cases neg <;> simp only [Spec.signed, Bool.false_eq_true, if_false, if_true]
  omega

theorem signed_le_iff (neg : Bool) (a b : Nat) : Spec.signed neg a ≤ Spec.signed neg b ↔ if neg then b ≤ a else a ≤ b := by
  cases neg <;> simp [Spec.signed]

/-- The integer that a mode names, for a magnitude `q * P + r` strictly between two multiples of `P`. -/
theorem roundsAway_spec (m : RMode) (neg : Bool) {q r P b : Nat} (hr : 0 < r) (hP : r < P)
    (hb : b = q + 1 ∧ roundsAway m neg q r P ∨ b = q ∧ ¬ roundsAway m neg q r P) :
    let v := Spec.signed neg (q * P + r)
    let w := Spec.signed neg (b * P)
    (w - v).natAbs < P ∧
    (m = .rtz → w.natAbs ≤ v.natAbs) ∧ (m = .rdn → w ≤ v) ∧ (m = .rup → v ≤ w) ∧
    (m = .rne → 2 * (w - v).natAbs ≤ P ∧ (2 * (w - v).natAbs = P → b % 2 = 0)) ∧
    (m = .rmm → 2 * (w - v).natAbs ≤ P ∧ (2 * (w - v).natAbs = P → v.natAbs < w.natAbs)) := by
  simp only [natAbs_signed_sub, natAbs_signed, signed_le_iff]
  rcases hb with ⟨rfl, haway⟩ | ⟨rfl, haway⟩
  · have herr : (((q + 1) * P : Nat) - ((q * P + r : Nat) : Int)).natAbs = P - r := by rw [Nat.succ_mul]; omega
    rw [herr, Nat.succ_mul]
    cases m <;> simp_all [roundsAway] <;> omega
  · have herr : ((b * P : Nat) - ((b * P + r : Nat) : Int)).natAbs = r := by omega
    rw [herr]
    cases m <;> simp_all [roundsAway]
    all_goals omega

/-- `roundShift` gives the integer that the mode names, and says whether bits were lost (R103). -/
theorem roundShift_spec (m : RMode) (neg : Bool) (n k : Nat) :
    let r := roundShift m neg n k
    let v := Spec.signed neg n
    let w : Int := Spec.signed neg r.1 * 2 ^ k
    (r.2 = true ↔ n % 2 ^ k ≠ 0) ∧ (r.2 = false → w = v) ∧ (w - v < 2 ^ k ∧ v - w < 2 ^ k) ∧
    (m = .rtz → w.natAbs ≤ v.natAbs) ∧ (m = .rdn → w ≤ v) ∧ (m = .rup → v ≤ w) ∧
    (m = .rne → 2 * (w - v).natAbs ≤ 2 ^ k ∧ (2 * (w - v).natAbs = 2 ^ k → r.1 % 2 = 0)) ∧
    (m = .rmm → 2 * (w - v).natAbs ≤ 2 ^ k ∧ (2 * (w - v).natAbs = 2 ^ k → v.natAbs < w.natAbs)) := by
  have hpos := Nat.two_pow_pos k
  have hdiv := Nat.div_add_mod' n (2 ^ k)
  dsimp only
  by_cases h : n % 2 ^ k = 0
  · rw [h, Nat.add_zero] at hdiv
    rw [roundShift_exact m neg h, signed_mul, hdiv]
    simp [h, hpos.ne]
  · obtain ⟨q, hq, hb⟩ := roundShift_inexact m neg h
    have hspec := roundsAway_spec m neg (Nat.pos_of_ne_zero h) (Nat.mod_lt n hpos) hb
    rw [hdiv] at hspec
    obtain ⟨herr, hmodes⟩ := hspec
    rw [hq, signed_mul]
    have hcast : (2 : Int) ^ k = (2 ^ k : Nat) := by simp
    dsimp only
    exact ⟨by simp [h], by simp, by rw [hcast]; omega, hmodes⟩

/-! Rounding to a format (R101, R103). -/

/-- The bits of a number: a sign, an exponent field `e` that is not all ones, and a significand field `t`. -/
theorem ffVal_num {f : Ffmt} {b n : Nat} {neg : Bool} {x : Int} (hb : b < 2 ^ (f.tr + f.ex + 1)) (h : ffVal f b = .num neg n x) :
    ∃ e t, e < 2 ^ f.ex - 1 ∧ t < 2 ^ f.tr ∧ b = ffSign f neg + e * 2 ^ f.tr + t ∧
      (e = 0 ∧ n = t ∧ x = 1 - ffBias f - f.tr ∨ 0 < e ∧ n = t + 2 ^ f.tr ∧ x = e - ffBias f - f.tr) := by
  have hbits : b = b / 2 ^ (f.tr + f.ex) * 2 ^ (f.tr + f.ex) + b / 2 ^ f.tr % 2 ^ f.ex * 2 ^ f.tr + b % 2 ^ f.tr := by
    have hex := Nat.div_add_mod' (b / 2 ^ f.tr) (2 ^ f.ex)
    rw [Nat.div_div_eq_div_mul, ← Nat.pow_add] at hex
    conv_lhs => rw [← Nat.div_add_mod' b (2 ^ f.tr), ← hex, Nat.add_mul, Nat.mul_assoc, ← Nat.pow_add, Nat.add_comm f.ex]
  have hsign : ffSign f (b / 2 ^ (f.tr + f.ex) % 2 == 1) = b / 2 ^ (f.tr + f.ex) * 2 ^ (f.tr + f.ex) := by
    have htop : b / 2 ^ (f.tr + f.ex) < 2 := Nat.div_lt_of_lt_mul (by rwa [← Nat.pow_succ])
    rcases Nat.le_one_iff_eq_zero_or_eq_one.mp (Nat.lt_succ_iff.mp htop) with h | h <;> simp [ffSign, h]
  have hlt : b / 2 ^ f.tr % 2 ^ f.ex < 2 ^ f.ex := Nat.mod_lt _ (Nat.two_pow_pos _)
  rw [← hsign] at hbits
  unfold ffVal at h
  dsimp only at h
  split at h
  · split at h <;> cases h
  · split at h <;> cases h
    next hones hzero => exact ⟨_, _, by omega, Nat.mod_lt _ (Nat.two_pow_pos _), hbits, .inl ⟨hzero, rfl, rfl⟩⟩
    next hones hzero => exact ⟨_, _, by omega, Nat.mod_lt _ (Nat.two_pow_pos _), hbits, .inr ⟨by omega, rfl, rfl⟩⟩

theorem roundAt_exact (m : RMode) (neg : Bool) (n : Nat) {x q : Int} (h : q ≤ x) :
    roundAt m neg n x q = (n * 2 ^ (x - q).toNat, false) := if_pos h

/-- The bias of a format is half of the exponent fields of numbers. -/
theorem two_mul_ffBias {f : Ffmt} (h : 0 < f.ex) : 2 * ffBias f + 2 = 2 ^ f.ex := by
  obtain ⟨k, hk⟩ := Nat.exists_eq_succ_of_ne_zero h.ne'
  have := Nat.two_pow_pos k
  rw [ffBias, hk, Nat.succ_sub_one, Nat.pow_succ]
  omega

/-- A magnitude whose exponent is already that of its last place is a number of the format: nothing is rounded. -/
theorem ffRound_inPlace (f : Ffmt) {v : Fenv} (neg : Bool) {n : Nat} {x : Int} (hn : n ≠ 0) (hv : v.ufEn = false)
    (hx : x = max (n.log2 + x - f.tr) (1 - ffBias f - f.tr)) (htop : n.log2 + x ≤ ffBias f) :
    ffRound f v neg n x = (ffSign f neg + if n.log2 + x < 1 - ffBias f then n
      else (n.log2 + x + ffBias f).toNat * 2 ^ f.tr + (n * 2 ^ (f.tr - n.log2) - 2 ^ f.tr), 0) := by
  have hqb : (if n.log2 + x - f.tr < 1 - ffBias f - (f.tr : Int) then 1 - ffBias f - (f.tr : Int) else n.log2 + x - f.tr) = x := by
    omega
  have hlog : n.log2 ≤ f.tr := by omega
  unfold ffRound
  simp only [hqb, roundAt_exact _ _ _ (le_refl x), sub_self, Int.toNat_zero, pow_zero, mul_one, hv, hn, htop.not_gt, hlog,
    Bool.false_eq_true, Bool.or_false, Bool.and_false, if_true, if_false, and_false, false_or]
  split
  · rfl
  · rw [Nat.add_assoc]
    rfl

/-- A value of a format rounds to its own bits (R101, R103). -/
theorem ffRound_ffVal {f : Ffmt} (hf : 0 < f.ex) {v : Fenv} {b n : Nat} {neg : Bool} {x : Int} (hb : b < 2 ^ (f.tr + f.ex + 1))
    (h : ffVal f b = .num neg n x) (hv : v.ufEn = false) : ffRound f v neg n x = (b, 0) := by
  have hbias := two_mul_ffBias hf
  obtain ⟨e, t, he, ht, rfl, ⟨rfl, rfl, rfl⟩ | ⟨h0, rfl, rfl⟩⟩ := ffVal_num hb h
  · by_cases hn : n = 0
    · simp [ffRound, hn]
    · have hlog : n.log2 < f.tr := (Nat.log2_lt hn).mpr ht
      rw [ffRound_inPlace f neg hn hv (by omega) (by omega), if_pos (by omega), Nat.zero_mul, Nat.add_zero]
  · have hlog : (t + 2 ^ f.tr).log2 = f.tr :=
      (Nat.log2_eq_iff (by omega)).mpr ⟨Nat.le_add_left _ _, by rw [Nat.pow_succ]; omega⟩
    rw [ffRound_inPlace f neg (by omega) hv (by omega) (by omega), if_neg (by omega), hlog, Nat.sub_self, pow_zero, mul_one,
      Nat.add_sub_cancel, Nat.add_assoc]
    congr 5
    omega

/-! Operands that are no numbers (R105). -/

/-- The first NaN of two operands. -/
theorem nanOf_left {f : Ffmt} {a : Nat} {p : Bool} (b : Nat) (ha : ffVal f a = .nan p) :
    ∃ fl, nanOf f [a, b] = some (ffQuiet f a, fl) := by
  simp [nanOf, ha]

theorem nanOf_both {f : Ffmt} {a b : Nat} {p q : Bool} (ha : ffVal f a = .nan p) (hb : ffVal f b = .nan q) :
    nanOf f [a, b] = some (ffQuiet f a, if p || q then flNV else 0) := by
  simp [nanOf, ha, hb]

theorem nanOf_none {f : Ffmt} {a b : Nat} (ha : ∀ p, ffVal f a ≠ .nan p) (hb : ∀ p, ffVal f b ≠ .nan p) :
    nanOf f [a, b] = none := by
  cases hva : ffVal f a with
  | nan p => exact absurd hva (ha p)
  | _ => cases hvb : ffVal f b with
    | nan q => exact absurd hvb (hb q)
    | _ => simp [nanOf, hva, hvb]

theorem arith_nan {f : Ffmt} {a b : Nat} {r : Nat × Fl} (h : nanOf f [a, b] = some r) (v : Fenv) (sub : Bool) :
    ffAdd f v sub a b = r ∧ ffMul f v a b = r ∧ ffDiv f v a b = r := by
  simp [ffAdd, ffMul, ffDiv, h]

/-- ∞ − ∞, and ∞ / ∞. -/
theorem arith_inf {f : Ffmt} {a b : Nat} {p q : Bool} (ha : ffVal f a = .inf p) (hb : ffVal f b = .inf q) (v : Fenv) :
    ffAdd f v true a b = (if p = q then (ffQnan f, flNV) else (ffInf f p, 0)) ∧ ffDiv f v a b = (ffQnan f, flNV) := by
  have hnan : nanOf f [a, b] = none := nanOf_none (by simp [ha]) (by simp [hb])
  refine ⟨?_, by simp [ffDiv, hnan, ha, hb, ffInvalid]⟩
  cases p <;> cases q <;> simp [ffAdd, hnan, ha, hb, ffInvalid]

/-- ∞ × 0 and 0 × ∞. -/
theorem ffMul_inf_zero {f : Ffmt} {a b : Nat} {p q : Bool} {x : Int} (ha : ffVal f a = .inf p) (hb : ffVal f b = .num q 0 x) (v : Fenv) :
    ffMul f v a b = (ffQnan f, flNV) ∧ ffMul f v b a = (ffQnan f, flNV) := by
  have hna : ∀ p, ffVal f a ≠ .nan p := by simp [ha]
  have hnb : ∀ p, ffVal f b ≠ .nan p := by simp [hb]
  simp [ffMul, nanOf_none hna hnb, nanOf_none hnb hna, ha, hb, ffInvalid]

theorem ffDiv_zero {f : Ffmt} {a b n : Nat} {p q : Bool} {x y : Int} (ha : ffVal f a = .num p n x) (hb : ffVal f b = .num q 0 y)
    (v : Fenv) : ffDiv f v a b = if n = 0 then (ffQnan f, flNV) else (ffInf f (p ^^ q), flDZ) := by
  have hnan : nanOf f [a, b] = none := nanOf_none (by simp [ha]) (by simp [hb])
  simp [ffDiv, hnan, ha, hb, ffInvalid]

/-- A format's bits are its significand, its exponent and its sign (R101). -/
theorem width_eq_ffOf {ty : Ty} (h : isFloat ty = true) : width ty = (ffOf ty).tr + (ffOf ty).ex + 1 := by
  revert h
  cases ty <;> decide

theorem ffOf_ex_pos (ty : Ty) : 0 < (ffOf ty).ex := by
  unfold ffOf
  split <;> decide

/-- Settles O58: `roundShift_spec` for the integers, `ffRound_ffVal` for the values of a format, and a case of the operands each. -/
theorem floatRules : Obligations.FloatRules := by
  refine ⟨roundShift_spec, fun ty hty => ?_⟩
  have hfloat : isFloat ty = true := by fin_cases hty <;> rfl
  refine ⟨fun v b n neg x hb hval hv => ?_, fun v sub a b p q => ⟨fun ha => ?_, fun ha hb => ?_, fun ha hb => ?_, fun x ha hb => ?_,
    fun x n y ha hb => ?_⟩⟩
  · exact ffRound_ffVal (ffOf_ex_pos ty) (width_eq_ffOf hfloat ▸ hb) hval hv
  · obtain ⟨fl, hnan⟩ := nanOf_left b ha
    obtain ⟨hadd, hmul, hdiv⟩ := arith_nan hnan v sub
    rw [hadd, hmul, hdiv]
    exact ⟨rfl, rfl, rfl⟩
  · rw [(arith_nan (nanOf_both ha hb) v sub).1]
  · exact arith_inf ha hb v
  · exact ffMul_inf_zero ha hb v
  · exact ffDiv_zero ha hb v

end Sys2Proof.Machine
end

section
/-! SUPPORT. O7: a floating-point instruction is its lanes, and each lane is the model's function of its operands' lanes (R107, R149 to
R155). -/

namespace Sys2Proof.Machine
open Sys2Proof.Forms Sys2Proof.Spec

/-! Lanes given as functions of their number. -/

theorem ofNats_range (w n : Nat) (lane : Nat → Nat × Fl) :
    ofNats w (((List.range n).map lane).map (·.1)) = packed w n fun j => (lane j).1 := by
  simp [ofNats, packed, Function.comp_def]

theorem laneOf_packed {w n j : Nat} (f : Nat → Nat) (hw : w * n ≤ 128) (hj : j < n) :
    laneOf w (packed w n f) j = BitVec.ofNat w (f j) := by
  unfold packed
  rw [laneOf_ofLanes _ _ (by simpa using hw) _ (by simpa using hj)]
  simp

theorem fLanes_range (s : State) (t : Thread) (ty : Ty) (sh : Shape) (o : Opd) :
    fLanes s t ty sh o = (List.range (lanes sh)).map (fLane s t ty sh o) := fLanes_eq s t ty sh o

/-! Registers that are free as a pair are free alone. -/

theorem noneFrom_cons (c : Ctx) (o : Opd) (w : Bool) (l : List (Opd × Bool)) :
    noneFrom c ((o, w) :: l) = true ↔ isPend c o w = false ∧ noneFrom c l = true := by
  simp [noneFrom]

theorem free3_narrow {c : Ctx} {ty : Ty} {sh : Shape} {d a b : Opd} (h : free3 c ty sh d a b = true) :
    isPend c d false = false ∧ isPend c a false = false ∧ isPend c b false = false := by
  simp only [free3, noneFrom_cons] at h
  obtain ⟨hd, ha, hb, -⟩ := h
  exact ⟨isPend_narrow hd, isPend_narrow ha, isPend_narrow hb⟩

section done
variable {s : State} {t : Thread} {h : Hdr} {i : Instr} {regs : List (BitVec 8 × Opd × Bool)} {body : State → Thread → Did}

/-- An instruction whose body ends by `fpFinish` is done as R107 and R150 state. -/
theorem fpDone_of_body {r : List (Nat × Fl)} {put : Ctx → Ctx} (hx : exec i s = issue s i h false regs body) (hi : issues s t h = true)
    (hr : noneFrom t.ctx (regs.map (·.2)) = true) (hb : body s t = fpFinish s t (unionOf r) put)
    (hk : ∀ c, (put c).pc = c.pc ∧ (put c).frz = c.frz ∧ (put c).step = c.step) : fpDone s t h i r put := by
  unfold fpDone
  rw [hx]
  exact issue_fp hi hr hb hk

/-- An instruction whose body writes floating-point lanes is done with them. -/
theorem fpDone_of_lanes {ty : Ty} {sh : Shape} {d : Opd} {n : Nat} {lane : Nat → Nat × Fl} (hx : exec i s = issue s i h false regs body)
    (hi : issues s t h = true) (hr : noneFrom t.ctx (regs.map (·.2)) = true)
    (hb : body s t = fpLanes s t ty sh d ((List.range n).map lane)) :
    fpDone s t h i ((List.range n).map lane) fun c => putF c ty sh d (packed (width ty) n fun j => (lane j).1) := by
  refine fpDone_of_body hx hi hr ?_ fun c => ⟨putF_pc .., putF_frz .., putF_step ..⟩
  rw [hb, fpLanes, ofNats_range]
  rfl

/-- An instruction that writes the lanes of a floating-point register and raises no flag completes. -/
theorem retired_of_lanes {ty : Ty} {sh : Shape} {d : Opd} {v : Vec} (hx : exec i s = issue s i h false regs body)
    (hi : issues s t h = true) (hr : noneFrom t.ctx (regs.map (·.2)) = true) (hb : body s t = finish s t (putF t.ctx ty sh d v)) :
    ∃ s', exec i s = .next s' ∧ Retired s s' t h (putF t.ctx ty sh d v) (t.ctx.pc + 12) := by
  rw [hx]
  refine issue_regs hi hr (by simp) ?_ (putF_frz ..) (putF_step ..)
  rw [hb, finish, putF_pc]

/-- Two sources (R150, R151). -/
theorem fp2_done {x : Flt2} {f : Ffmt → Fenv → Nat → Nat → Nat × Fl} (hx : exec i s = fp2 s i h x f) (hi : issues s t h = true)
    (hf : free3 t.ctx x.ty x.sh x.d x.a x.b = true) :
    let lane := fun j => f (ffOf x.ty) (fenvOf s t x.rm) (fLane s t x.ty x.sh x.a j) (fLane s t x.ty x.sh x.b j)
    fpDone s t h i ((List.range (lanes x.sh)).map lane) fun c =>
      putF c x.ty x.sh x.d (packed (width x.ty) (lanes x.sh) fun j => (lane j).1) := by
  obtain ⟨hd, ha, hb⟩ := free3_narrow hf
  refine fpDone_of_lanes (by rw [hx, fp2]) hi (by simp [noneFrom, hd, ha, hb]) ?_
  simp only [fLanes_range, zip2_range]

/-- `FMIN` and `FMAX` are instructions of two sources that do not round (R151). -/
theorem fpMinMax_eq (s : State) (i : Instr) (h : Hdr) (x : Flt2) (max : Bool) :
    fpMinMax s i h ⟨x.ty, x.sh, x.d, x.a, x.b⟩ max = fp2 s i h x fun f _ => ffMinMax f max := rfl

theorem exec_fmin (s : State) (h : Hdr) (x : Flt2) :
    exec (.fmin h ⟨x.ty, x.sh, x.d, x.a, x.b⟩) s = fp2 s (.fmin h ⟨x.ty, x.sh, x.d, x.a, x.b⟩) h x fun f _ => ffMinMax f false :=
  (show _ = execFmin h ⟨x.ty, x.sh, x.d, x.a, x.b⟩ s from rfl).trans (fpMinMax_eq s _ h x false)

theorem exec_fmax (s : State) (h : Hdr) (x : Flt2) :
    exec (.fmax h ⟨x.ty, x.sh, x.d, x.a, x.b⟩) s = fp2 s (.fmax h ⟨x.ty, x.sh, x.d, x.a, x.b⟩) h x fun f _ => ffMinMax f true :=
  (show _ = execFmax h ⟨x.ty, x.sh, x.d, x.a, x.b⟩ s from rfl).trans (fpMinMax_eq s _ h x true)

/-- Three sources (R150). -/
theorem fp3_done {x : Flt3} {neg : Bool} (hx : exec i s = fp3 s i h x neg) (hi : issues s t h = true)
    (hf : free3 t.ctx x.ty x.sh x.d x.a x.b = true) (hc : noneFrom t.ctx [(x.c, false)] = true) :
    let lane := fun j => ffFma (ffOf x.ty) (fenvOf s t x.rm) neg (fLane s t x.ty x.sh x.a j) (fLane s t x.ty x.sh x.b j)
      (fLane s t x.ty x.sh x.c j)
    fpDone s t h i ((List.range (lanes x.sh)).map lane) fun c =>
      putF c x.ty x.sh x.d (packed (width x.ty) (lanes x.sh) fun j => (lane j).1) := by
  obtain ⟨hd, ha, hb⟩ := free3_narrow hf
  obtain ⟨hc, -⟩ := (noneFrom_cons ..).mp hc
  refine fpDone_of_lanes (by rw [hx, fp3]) hi (by simp [noneFrom, hd, ha, hb, hc]) ?_
  simp only [fLanes_range, zip3_range]

end done

/-- The arithmetic of R150 and R151 through `fp2_done` and `fp3_done`. -/
theorem floatArith : Spec.FloatArith := by
  intro s t h hi
  refine ⟨?_, fun sub x _ hf hc => ?_, fun x _ hf => ?_⟩
  · unfold fpTwo
    iterate 6 rw [List.forall_mem_cons]
    exact ⟨fun x _ hf => fp2_done (show exec (.fadd h x) s = execFadd h x s from rfl) hi hf,
      fun x _ hf => fp2_done (show exec (.fsub h x) s = execFsub h x s from rfl) hi hf,
      fun x _ hf => fp2_done (show exec (.fmul h x) s = execFmul h x s from rfl) hi hf,
      fun x _ hf => fp2_done (show exec (.fdiv h x) s = execFdiv h x s from rfl) hi hf,
      fun x _ hf => fp2_done (exec_fmin s h x) hi hf, fun x _ hf => fp2_done (exec_fmax s h x) hi hf, List.forall_mem_nil _⟩
  · cases sub with
    | false => exact fp3_done (show exec (.fma h x) s = execFma h x s from rfl) hi hf hc
    | true => exact fp3_done (show exec (.fnma h x) s = execFnma h x s from rfl) hi hf hc
  · obtain ⟨hd, ha, -⟩ := free3_narrow hf
    refine fpDone_of_lanes (show exec (.fsqrt h x) s = execFsqrt h x s from rfl) hi (by simp [noneFrom, hd, ha]) ?_
    simp only [fLanes_range, List.map_map, Function.comp_def]

/-! Sign, class, rounding and comparison (R152 to R155). -/

theorem div_two_pow_mod_two (a k : Nat) : (a / 2 ^ k % 2 == 1) = a.testBit k := by
  rw [Nat.testBit_eq_decide_div_mod_eq]
  rfl

/-- The sign is the bit that `FSGN` gives; the bits below it stay (R152). -/
theorem testBit_signInject (f : Ffmt) (op : SgnOp) (a b : Nat) {k : Nat} (hk : k ≤ f.tr + f.ex) :
    (signInject f op a b).testBit k = if k < f.tr + f.ex then a.testBit k
      else match op with
        | .cp => b.testBit (f.tr + f.ex)
        | .cn => !b.testBit (f.tr + f.ex)
        | .cx => a.testBit (f.tr + f.ex) ^^ b.testBit (f.tr + f.ex) := by
  have hlow : (a % 2 ^ (f.tr + f.ex)).testBit (f.tr + f.ex) = false := Nat.testBit_lt_two_pow (Nat.mod_lt _ (Nat.two_pow_pos _))
  have key (sign : Bool) : (a % 2 ^ (f.tr + f.ex) + if sign then 2 ^ (f.tr + f.ex) else 0).testBit k =
      if k < f.tr + f.ex then a.testBit k else sign := by
    by_cases hlt : k < f.tr + f.ex
    · cases sign <;> simp [hlt, Nat.add_comm _ (2 ^ (f.tr + f.ex)), Nat.testBit_two_pow_add_gt]
    · obtain rfl : k = f.tr + f.ex := by omega
      cases sign <;> simp [Nat.add_comm _ (2 ^ (f.tr + f.ex)), Nat.testBit_two_pow_add_eq, hlow]
  simp only [signInject, div_two_pow_mod_two]
  cases op <;> exact key _

/-- `FSGN` (R152). -/
theorem fsgn_done {s : State} {t : Thread} {h : Hdr} {x : Fsgn} (hi : issues s t h = true)
    (hf : free3 t.ctx x.ty x.sh x.d x.a x.b = true) :
    let lane := fun j => signInject (ffOf x.ty) x.op (fLane s t x.ty x.sh x.a j) (fLane s t x.ty x.sh x.b j)
    ∃ s', exec (.fsgn h x) s = .next s' ∧
      Retired s s' t h (putF t.ctx x.ty x.sh x.d (packed (width x.ty) (lanes x.sh) lane)) (t.ctx.pc + 12) := by
  obtain ⟨hd, ha, hb⟩ := free3_narrow hf
  refine retired_of_lanes (show exec (.fsgn h x) s = execFsgn h x s from rfl) hi (by simp [noneFrom, hd, ha, hb]) ?_
  simp only [fLanes_range, zip2_range, ofNats, packed, List.map_map, Function.comp_def]

theorem ofNat_ones (w : Nat) : BitVec.ofNat w (2 ^ w - 1) = BitVec.allOnes w :=
  BitVec.eq_of_toNat_eq (by simp)

/-- `FCMP` (R153). -/
theorem fcmp_done {s : State} {t : Thread} {h : Hdr} {x : Fcmp} (hi : issues s t h = true)
    (hf : free3 t.ctx x.ty x.sh x.d x.a x.b = true) :
    let lane := fun j => ffCond (ffOf x.ty) x.cond (fLane s t x.ty x.sh x.a j) (fLane s t x.ty x.sh x.b j)
    fpDone s t h (.fcmp h x) ((List.range (lanes x.sh)).map fun j => (0, (lane j).2)) fun c =>
      setDst c x.d false (packed (width x.ty) (lanes x.sh) fun j => if (lane j).1 then 2 ^ width x.ty - 1 else 0) := by
  obtain ⟨hd, ha, hb⟩ := free3_narrow hf
  refine fpDone_of_body (show exec (.fcmp h x) s = execFcmp h x s from rfl) hi (by simp [noneFrom, hd, ha, hb]) ?_
    fun c => ⟨setDst_pc .., setDst_frz .., setDst_step ..⟩
  simp only [fLanes_range, zip2_range, unionOf, List.foldl_map, List.map_map, Function.comp_def, packed, apply_ite (BitVec.ofNat _),
    ofNat_ones]
  rfl

/-- `FSGN`, `FCLASS`, `FRND` and `FCMP` (R152 to R155), each from its lanes. -/
theorem floatUnary : Spec.FloatUnary := by
  intro s t h hi
  refine ⟨fun x hw hf => ?_, fun x _ hf => ?_, fun x _ hf => ?_, fun x _ hf => fcmp_done hi hf⟩
  · obtain ⟨s', hx, hret⟩ := fsgn_done (h := h) hi hf
    refine ⟨_, s', hx, hret, fun j hj k hk => ?_⟩
    obtain ⟨⟨⟨⟨hfloat, hshape⟩, -⟩, -⟩, -⟩ : ((((_ ∧ _) ∧ _) ∧ _) ∧ _) := by
      simpa only [WellFormed.fsgn, Bool.and_eq_true] using (show WellFormed.fsgn x = true from hw)
    have htop : (ffOf x.ty).tr + (ffOf x.ty).ex = width x.ty - 1 := by rw [width_eq_ffOf hfloat, Nat.add_sub_cancel]
    have hbit := testBit_signInject (ffOf x.ty) x.op (fLane s t x.ty x.sh x.a j) (fLane s t x.ty x.sh x.b j) (k := k) (by omega)
    rw [htop] at hbit
    rw [laneOf_packed _ (shape_fits hshape) hj, BitVec.getLsbD_ofNat, decide_eq_true hk, Bool.true_and]
    exact hbit
  · obtain ⟨hd, ha, -⟩ := free3_narrow hf
    refine retired_of_lanes (show exec (.fclass h x) s = execFclass h x s from rfl) hi (by simp [noneFrom, hd, ha]) ?_
    simp only [fLanes_range, ofNats, packed, List.map_map, Function.comp_def]
  · obtain ⟨hd, ha, -⟩ := free3_narrow hf
    refine fpDone_of_lanes (show exec (.frnd h x) s = execFrnd h x s from rfl) hi (by simp [noneFrom, hd, ha]) ?_
    simp only [fLanes_range, List.map_map, Function.comp_def]

/-- Settles O7: `floatArith` and `floatUnary`. -/
theorem floatOperations : Obligations.FloatOperations := ⟨floatArith, floatUnary⟩

end Sys2Proof.Machine
end

section
/-! SUPPORT. O8: a conversion is its lanes, read from the half or quarter of A that `PART` names and written whole or merged into D (R106,
R156, R157). -/

namespace Sys2Proof.Machine
open Sys2Proof.Forms Sys2Proof.Spec

/-! Lanes of an immediate, and numbers read by their type. -/

theorem splat_eq_ofLanes (w : Nat) (x : BitVec w) (n : Nat) : splat w x n = ofLanes w (List.replicate n x) := by
  induction n with
  | zero => rfl
  | succ n ih => rw [splat, ih, List.replicate_succ, ofLanes]

theorem laneOf_splat {w n j : Nat} (x : BitVec w) (hw : w * n ≤ 128) (hj : j < n) : laneOf w (splat w x n) j = x := by
  rw [splat_eq_ofLanes, laneOf_ofLanes _ _ (by simpa using hw) _ (by simpa using hj), List.getElem_replicate]

theorem reading_eq {w : Nat} (hw : 0 < w) (sg : Bool) (a : BitVec w) : reading sg a = if sg then sInt w a.toNat else (a.toNat : Int) := by
  have hpow : 2 ^ w = 2 * 2 ^ (w - 1) := by rw [← Nat.pow_succ', Nat.succ_eq_add_one, Nat.sub_add_cancel hw]
  unfold reading sInt
  rw [BitVec.toInt_eq_toNat_cond, hpow]
  simp only [Nat.mul_lt_mul_left (Nat.zero_lt_two)]

/-! Source and destination (R156). -/

theorem cvtTypes_fst (x : Cvt) : (cvtTypes x).1 = if x.dir then x.ty else x.oty := by
  unfold cvtTypes
  split <;> rfl

theorem cvtTypes_snd (x : Cvt) : (cvtTypes x).2 = if x.dir then x.oty else x.ty := by
  unfold cvtTypes
  split <;> rfl

/-- How many lanes an immediate of a conversion fills. -/
def cvtCount (x : Cvt) : Nat := if x.dir then lanes x.sh else lanes x.sh * (width x.ty / width x.oty)

/-- The lane of A that a conversion reads for lane `j`. -/
def cvtIdx (x : Cvt) (j : Nat) : Nat := if x.dir || !shaped x.sh then j else lanes x.sh * x.part.toNat + j

/-- The lanes read of A are lanes of one vector (R156, R157). -/
theorem cvt_fits {srcOk dstOk : Ty → Bool} {x : Cvt} (hw : WellFormed.cvt srcOk dstOk x = true) :
    width (cvtTypes x).1 * cvtCount x ≤ 128 ∧ ∀ j < lanes x.sh, cvtIdx x j < cvtCount x := by
  obtain ⟨⟨⟨⟨htys, hshape⟩, -⟩, -⟩, hpart⟩ : ((((_ ∧ _) ∧ _) ∧ _) ∧ _) := by
    simpa only [WellFormed.cvt, Bool.and_eq_true] using hw
  have hfit := shape_fits hshape
  cases hdir : x.dir with
  | true => simpa [cvtTypes, cvtCount, cvtIdx, hdir] using hfit
  | false =>
    have hle : width x.oty ≤ width x.ty := by simp [hdir] at htys; exact htys.2
    simp only [cvtTypes, cvtCount, cvtIdx, hdir, Bool.false_eq_true, if_false, Bool.false_or]
    refine ⟨?_, fun j hj => ?_⟩
    · calc width x.oty * (lanes x.sh * (width x.ty / width x.oty)) = width x.oty * (width x.ty / width x.oty) * lanes x.sh := by ring
        _ ≤ width x.ty * lanes x.sh := Nat.mul_le_mul_right _ (Nat.mul_div_le _ _)
        _ ≤ 128 := hfit
    · cases hsh : shaped x.sh with
      | true =>
        have hp : x.part.toNat < width x.ty / width x.oty := by simpa [hsh] using hpart
        calc lanes x.sh * x.part.toNat + j < lanes x.sh * x.part.toNat + lanes x.sh := Nat.add_lt_add_left hj _
          _ = lanes x.sh * (x.part.toNat + 1) := (Nat.mul_succ _ _).symm
          _ ≤ _ := Nat.mul_le_mul_left _ hp
      | false => exact hj.trans_le (Nat.le_mul_of_pos_right _ (Nat.div_pos hle (width_pos _)))

/-- The vector that a conversion reads its lanes from: A, or the immediate in every lane (R53, R157). -/
def cvtSource (s : State) (t : Thread) (x : Cvt) (imm : BitVec 6 → Nat) : Vec :=
  match x.a with
  | .imm v => splat (width (cvtTypes x).1) (BitVec.ofNat (width (cvtTypes x).1) (imm v)) (cvtCount x)
  | o => opdVal s t (width (cvtTypes x).1) (lanes x.sh) false o

theorem cvtSource_opd (s : State) (t : Thread) {x : Cvt} (imm : BitVec 6 → Nat) (ha : ∀ v, x.a ≠ .imm v) :
    cvtSource s t x imm = opdVal s t (width (cvtTypes x).1) (lanes x.sh) false x.a := by
  unfold cvtSource
  split
  next v hv => exact absurd hv (ha v)
  next => rfl

theorem cvtLane_imm (s : State) (t : Thread) {x : Cvt} (imm : BitVec 6 → Nat) (j : Nat) {v : BitVec 6} (ha : x.a = .imm v) :
    cvtLane s t x imm j = imm v % 2 ^ width (cvtTypes x).1 := by
  simp only [cvtLane, ha, cvtTypes_fst]

theorem cvtLane_opd (s : State) (t : Thread) {x : Cvt} (imm : BitVec 6 → Nat) (j : Nat) (ha : ∀ v, x.a ≠ .imm v) :
    cvtLane s t x imm j =
      (laneOf (width (cvtTypes x).1) (opdVal s t (width (cvtTypes x).1) (lanes x.sh) false x.a) (cvtIdx x j)).toNat := by
  have hidx : cvtIdx x j = if x.dir = true ∨ x.sh = .sc then j else lanes x.sh * x.part.toNat + j := by
    simp [cvtIdx, shaped]
  rw [hidx, cvtTypes_fst]
  unfold cvtLane
  dsimp only
  split
  next v hv => exact absurd hv (ha v)
  next => rfl

theorem laneOf_cvtSource (s : State) (t : Thread) {x : Cvt} (imm : BitVec 6 → Nat) {j : Nat}
    (hfit : width (cvtTypes x).1 * cvtCount x ≤ 128) (hj : cvtIdx x j < cvtCount x) :
    (laneOf (width (cvtTypes x).1) (cvtSource s t x imm) (cvtIdx x j)).toNat = cvtLane s t x imm j := by
  by_cases ha : ∃ v, x.a = .imm v
  · obtain ⟨v, ha⟩ := ha
    rw [cvtLane_imm s t imm j ha]
    simp only [cvtSource, ha]
    rw [laneOf_splat _ hfit hj, BitVec.toNat_ofNat]
  · rw [not_exists] at ha
    rw [cvtLane_opd s t imm j ha, cvtSource_opd s t imm ha]

theorem cvtLane_lt (s : State) (t : Thread) (x : Cvt) (imm : BitVec 6 → Nat) (j : Nat) :
    cvtLane s t x imm j < 2 ^ width (cvtTypes x).1 := by
  by_cases ha : ∃ v, x.a = .imm v
  · obtain ⟨v, ha⟩ := ha
    exact cvtLane_imm s t imm j ha ▸ Nat.mod_lt _ (Nat.two_pow_pos _)
  · rw [not_exists] at ha
    exact cvtLane_opd s t imm j ha ▸ BitVec.isLt _

/-! The write (R157). -/

theorem zipIdx_map_range {α : Type} (n : Nat) (g : Nat → α) : ((List.range n).map g).zipIdx = (List.range n).map fun j => (g j, j) := by
  apply List.ext_getElem <;> simp

theorem putCvt_keeps (s : State) (t : Thread) (x : Cvt) (intDst : Bool) (f : Nat → Nat) (c : Ctx) :
    (putCvt s t x intDst f c).pc = c.pc ∧ (putCvt s t x intDst f c).frz = c.frz ∧ (putCvt s t x intDst f c).step = c.step := by
  unfold putCvt
  dsimp only
  split
  · simp
  · split <;> simp

/-- What a conversion writes is `putCvt` of its lanes. -/
theorem putCvt_range (s : State) (t : Thread) (x : Cvt) (intDst : Bool) (lane : Nat → Nat × Fl) (c : Ctx) :
    (if x.dir && shaped x.sh then
        setDst c x.d false (((((List.range (lanes x.sh)).map lane).map (·.1)).zipIdx).foldl
          (fun v y => setLane (width (cvtTypes x).2) v (lanes x.sh * x.part.toNat + y.2) (BitVec.ofNat (width (cvtTypes x).2) y.1))
          (opdVal s t 64 1 false x.d))
      else if intDst then putInt c (cvtTypes x).2 x.sh x.d (ofNats (width (cvtTypes x).2) (((List.range (lanes x.sh)).map lane).map (·.1)))
      else putF c (cvtTypes x).2 x.sh x.d (ofNats (width (cvtTypes x).2) (((List.range (lanes x.sh)).map lane).map (·.1)))) =
    putCvt s t x intDst (fun j => (lane j).1) c := by
  have hmerge : (x.dir && shaped x.sh) = true ↔ x.dir = true ∧ x.sh ≠ .sc := by simp [shaped]
  dsimp only [putCvt]
  rw [← cvtTypes_snd x]
  simp only [ofNats_range, hmerge]
  simp only [List.map_map, Function.comp_def, zipIdx_map_range, List.foldl_map]

/-- A conversion is done with its lanes (R107, R157). -/
theorem convert_done {s : State} {t : Thread} {h : Hdr} {x : Cvt} {i : Instr} {imm : BitVec 6 → Nat} {f : Fenv → Nat → Nat × Fl}
    {intDst : Bool} {srcOk dstOk : Ty → Bool} (hx : exec i s = convert s i h x imm f intDst) (hi : issues s t h = true)
    (hr : noneFrom t.ctx [(x.d, false), (x.a, false)] = true) (hw : WellFormed.cvt srcOk dstOk x = true) {lane : Nat → Nat × Fl}
    (hlane : ∀ j, lane j = f (fenvOf s t x.rm) (cvtLane s t x imm j)) :
    fpDone s t h i ((List.range (lanes x.sh)).map lane) (putCvt s t x intDst fun j => (lane j).1) := by
  obtain ⟨hfit, hidx⟩ := cvt_fits hw
  have hsrc : ((List.range (lanes x.sh)).map fun j => (laneOf (width (cvtTypes x).1) (cvtSource s t x imm) (cvtIdx x j)).toNat).map
      (f (fenvOf s t x.rm)) = (List.range (lanes x.sh)).map lane := by
    rw [List.map_map]
    exact List.map_congr_left fun j hj =>
      (congrArg _ (laneOf_cvtSource s t imm hfit (hidx j (List.mem_range.mp hj)))).trans (hlane j).symm
  refine fpDone_of_body (regs := [(1, x.d, false), (2, x.a, false)]) (by rw [hx, convert]) hi hr ?_ (putCvt_keeps s t x intDst _)
  rw [← funext (putCvt_range s t x intDst lane), ← hsrc]
  rfl

theorem exec_fcvt (s : State) (h : Hdr) (x : Cvt) : exec (.fcvt h x) s = convert s (.fcvt h x) h x (ffImm (ffOf (cvtTypes x).1))
    (fun v => ffConv (ffOf (cvtTypes x).1) (ffOf (cvtTypes x).2) v) false :=
  (show _ = execFcvt h x s from rfl).trans rfl

theorem exec_fcvi (s : State) (h : Hdr) (x : Cvt) : exec (.fcvi h x) s = convert s (.fcvi h x) h x (ffImm (ffOf (cvtTypes x).1))
    (fun v => ffToInt (ffOf (cvtTypes x).1) v (signed (cvtTypes x).2) (width (cvtTypes x).2)) true :=
  (show _ = execFcvi h x s from rfl).trans rfl

/-- An integer of the source type, read by the type (R100). -/
theorem exec_icvf (s : State) (h : Hdr) (x : Cvt) : exec (.icvf h x) s = convert s (.icvf h x) h x
    (fun v => (BitVec.ofInt (width (cvtTypes x).1) v.toInt).toNat)
    (fun v b => ffOfInt (ffOf (cvtTypes x).2) v
      (if signed (cvtTypes x).1 then sInt (width (cvtTypes x).1) b else (b : Int))) false :=
  (show _ = execIcvf h x s from rfl).trans rfl

/-- Settles O8: each conversion by `convert_done`. -/
theorem conversions : Obligations.Conversions := by
  intro s t h x hi hr sty dty v
  have hsty : (cvtTypes x).1 = sty := cvtTypes_fst x
  have hdty : (cvtTypes x).2 = dty := cvtTypes_snd x
  rw [← hsty, ← hdty]
  refine ⟨fun hw => ?_, fun hw => ?_, fun hw => ?_⟩ <;> intro lane
  · exact convert_done (exec_fcvt s h x) hi hr hw fun j => rfl
  · exact convert_done (exec_fcvi s h x) hi hr hw fun j => rfl
  · refine convert_done (exec_icvf s h x) hi hr hw fun j => ?_
    have hlt := cvtLane_lt s t x (fun i => (BitVec.ofInt (width (cvtTypes x).1) i.toInt).toNat) j
    simp only [lane, v, reading_eq (width_pos _), BitVec.toNat_ofNat, Nat.mod_eq_of_lt hlt]

end Sys2Proof.Machine
end

section
/-! SUPPORT. O10: the model's pairwise folds are the trees of R120, its folds of leading lanes the scans of R121, and its `VDOT` the
sums of R122. -/

namespace Sys2Proof.Machine
open Sys2Proof.Forms Sys2Proof.Spec

/-! Trees (R120). -/

section tree
variable {α : Type} (f : α → α → α) (g : Nat → α)

/-- Combining neighbours first is combining in the tree one level higher. -/
theorem tree_pairs (k i : Nat) : tree f (fun i => f (g (2 * i)) (g (2 * i + 1))) k i = tree f g (k + 1) (2 * i) := by
  induction k generalizing i with
  | zero => rfl
  | succ k ih =>
    rw [tree, ih, ih, Nat.mul_add, ← Nat.pow_succ']
    rfl

theorem tree_shift (start k i : Nat) : tree f (fun i => g (start + i)) k i = tree f g k (start + i) := by
  induction k generalizing i with
  | zero => rfl
  | succ k ih => rw [tree, ih, ih, tree, Nat.add_assoc]

theorem pairUp_range (m : Nat) :
    pairUp f ((List.range (2 * m)).map g) = (List.range m).map fun i => f (g (2 * i)) (g (2 * i + 1)) := by
  induction m generalizing g with
  | zero => rfl
  | succ m ih =>
    have h2 : 2 * (m + 1) = 2 * m + 1 + 1 := rfl
    rw [h2, List.range_succ_eq_map, List.range_succ_eq_map, List.range_succ_eq_map]
    simp only [List.map_cons, List.map_map, pairUp]
    exact congrArg _ (ih fun i => g (i + 1 + 1))

theorem treeFold_range (k : Nat) : treeFold f k ((List.range (2 ^ k)).map g) = [tree f g k 0] := by
  induction k generalizing g with
  | zero => rfl
  | succ k ih => rw [treeFold, Nat.pow_succ', pairUp_range, ih, tree_pairs]

theorem treeFold_singleton (k : Nat) (a : α) : treeFold f k [a] = [a] := by
  induction k with
  | zero => rfl
  | succ k ih => exact ih

theorem treeFold_add (k m : Nat) (l : List α) : treeFold f (k + m) l = treeFold f m (treeFold f k l) := by
  induction k generalizing l with
  | zero => rw [Nat.zero_add, treeFold]
  | succ k ih => rw [Nat.succ_add, treeFold, ih, treeFold]

/-- More halvings than levels change nothing. -/
theorem treeFold_of_le {k m : Nat} (h : k ≤ m) : treeFold f m ((List.range (2 ^ k)).map g) = [tree f g k 0] := by
  rw [← Nat.add_sub_cancel' h, treeFold_add, treeFold_range, treeFold_singleton]

theorem range_map_drop_take {n start len : Nat} (h : start + len ≤ n) :
    (((List.range n).map g).drop start).take len = (List.range len).map fun i => g (start + i) := by
  apply List.ext_getElem
  · simp; omega
  · simp

/-- The tree on a range of the lanes. -/
theorem treeFold_slice {n start k : Nat} (h : start + 2 ^ k ≤ n) :
    treeFold f k ((((List.range n).map g).drop start).take (2 ^ k)) = [tree f g k start] := by
  rw [range_map_drop_take g h, treeFold_range, tree_shift, Nat.add_zero]

/-! Scans (R121). -/

/-- After the highest range, the ranges below it are combined from left to right. -/
theorem scanFold_some {N n : Nat} (k : Nat) {start : Nat} (acc : α) (h : start + n % 2 ^ k ≤ N) :
    scanFold f ((List.range N).map g) n k start (some acc) = some (scan.go f g n acc start k) := by
  induction k generalizing start acc with
  | zero => rfl
  | succ k ih =>
    rw [Nat.mod_pow_succ] at h
    unfold scanFold scan.go
    rw [Nat.testBit_eq_decide_div_mod_eq]
    by_cases hbit : n / 2 ^ k % 2 = 1
    · rw [hbit] at h
      simp only [hbit, if_true, decide_true, treeFold_slice f g (start := start) (k := k) (n := N) (by omega), List.head?_cons]
      exact ih _ (by omega)
    · simp only [hbit, decide_false, if_false, Bool.false_eq_true]
      exact ih _ (by omega)

/-- Below the highest range nothing is combined; it begins the scan. -/
theorem scanFold_none {N n : Nat} (k : Nat) (hn : n ≠ 0) (hk : n < 2 ^ k) (hN : n ≤ N) :
    scanFold f ((List.range N).map g) n k 0 none = some (scan f g n) := by
  induction k with
  | zero => omega
  | succ k ih =>
    unfold scanFold
    by_cases hlt : n < 2 ^ k
    · simp only [Nat.div_eq_of_lt hlt, Nat.zero_mod, Nat.zero_ne_one, if_false]
      exact ih hlt
    · have hlog : n.log2 = k := (Nat.log2_eq_iff hn).mpr ⟨by omega, hk⟩
      have hdiv : n / 2 ^ k = 1 := Nat.div_eq_of_lt_le (by omega) (by rw [Nat.pow_succ] at hk; omega)
      have hmod := Nat.div_add_mod n (2 ^ k)
      rw [hdiv] at hmod
      simp only [hdiv, if_true, treeFold_slice f g (start := 0) (k := k) (n := N) (by omega), List.head?_cons, Nat.zero_add,
        Nat.mod_eq_of_lt Nat.one_lt_two]
      rw [scanFold_some f g k _ (by omega), scan, hlog]

end tree

/-! Reductions (R161). -/

theorem lanes_eq_two_pow (sh : Shape) : lanes sh = 2 ^ Nat.log2 (lanes sh) ∧ Nat.log2 (lanes sh) ≤ 4 := by
  cases sh <;> decide

theorem redLanes_range (s : State) (t : Thread) (x : Vred) : redLanes s t x = (List.range (lanes x.sh)).map (redLane s t x) := by
  unfold redLanes redLane
  split
  · rw [fLanes_range, List.map_map]
    rfl
  · rw [nats_eq, List.map_map]
    rfl

theorem redNode_eq (s : State) (t : Thread) (x : Vred) : redNode x.op x.ty (fenvOf s t x.rm) = redOp s t x := rfl

theorem putRed_keeps (c : Ctx) (ty : Ty) (sh : Shape) (d : Opd) (v : Vec) :
    (putRed c ty sh d v).pc = c.pc ∧ (putRed c ty sh d v).frz = c.frz ∧ (putRed c ty sh d v).step = c.step := by
  unfold putRed
  split <;> simp

theorem unionOf_singleton (r : Nat × Fl) : unionOf [r] = r.2 := BitVec.zero_or

/-- `VRED` (R120, R161). -/
theorem vred_done {s : State} {t : Thread} {h : Hdr} {x : Vred} (hi : issues s t h = true)
    (hr : noneFrom t.ctx [(x.d, false), (x.a, false)] = true) :
    let r := tree (redOp s t x) (redLane s t x) (Nat.log2 (lanes x.sh)) 0
    fpDone s t h (.vred h x) [r] fun c => putRed c x.ty .sc x.d (BitVec.ofNat 128 r.1) := by
  obtain ⟨hpow, hle⟩ := lanes_eq_two_pow x.sh
  have htree : treeFold (redNode x.op x.ty (fenvOf s t x.rm)) 4 (redLanes s t x) =
      [tree (redOp s t x) (redLane s t x) (Nat.log2 (lanes x.sh)) 0] := by
    rw [redLanes_range, redNode_eq, ← treeFold_of_le _ _ hle, ← hpow]
  refine fpDone_of_body (regs := [(1, x.d, false), (2, x.a, false)]) (show exec (.vred h x) s = execVred h x s from rfl) hi hr ?_
    fun c => putRed_keeps ..
  rw [unionOf_singleton]
  simp only [htree, List.head?_cons, Option.getD_some]

/-- `VSCAN` (R121, R161). -/
theorem vscan_done {s : State} {t : Thread} {h : Hdr} {x : Vred} (hi : issues s t h = true)
    (hr : noneFrom t.ctx [(x.d, false), (x.a, false)] = true) :
    let lane := fun j => scan (redOp s t x) (redLane s t x) (j + 1)
    fpDone s t h (.vscan h x) ((List.range (lanes x.sh)).map lane) fun c =>
      putRed c x.ty x.sh x.d (packed (width x.ty) (lanes x.sh) fun j => (lane j).1) := by
  have hle : lanes x.sh ≤ 16 := by
    cases x.sh <;> decide
  have hscan : ((List.range (lanes x.sh)).map fun j =>
      (scanFold (redNode x.op x.ty (fenvOf s t x.rm)) (redLanes s t x) (j + 1) 5 0 none).getD (0, 0)) =
      (List.range (lanes x.sh)).map fun j => scan (redOp s t x) (redLane s t x) (j + 1) := by
    refine List.map_congr_left fun j hj => ?_
    have hj := List.mem_range.mp hj
    rw [redLanes_range, redNode_eq, scanFold_none _ _ 5 (by omega) (by omega) hj, Option.getD_some]
  refine fpDone_of_body (regs := [(1, x.d, false), (2, x.a, false)]) (show exec (.vscan h x) s = execVscan h x s from rfl) hi hr ?_
    fun c => putRed_keeps ..
  simp only [hscan, ofNats_range]
  rfl

/-! Dot products (R122, R162). -/

/-- The sum of integer products as `VDOT` forms it, pair after pair (R122). -/
def dotSum (ty : Ty) (l : List (Nat × Nat)) (c : Int) : Int :=
  l.foldl (fun acc p => acc + (if signed ty then sInt (width ty) p.1 else p.1) * (if signed ty then sInt (width ty) p.2 else p.2)) c

theorem dotSum_eq (ty : Ty) (l : List (BitVec (width ty) × BitVec (width ty))) (c : Int) :
    dotSum ty (l.map fun p => (p.1.toNat, p.2.toNat)) c =
      (l.map fun p => reading (signed ty) p.1 * reading (signed ty) p.2).sum + c := by
  induction l generalizing c with
  | nil => simp [dotSum]
  | cons p l ih =>
    rw [List.map_cons, List.map_cons, List.sum_cons, dotSum, List.foldl_cons]
    refine (ih _).trans ?_
    rw [reading_eq (width_pos ty), reading_eq (width_pos ty)]
    ring

theorem nats_opdVal (s : State) (t : Thread) (ty : Ty) (sh : Shape) (o : Opd) :
    nats (width ty) (lanes sh) (opdVal s t (width ty) (lanes sh) false o) =
      (List.range (lanes sh)).map fun j => (vLane s t ty sh o j).toNat :=
  nats_eq ..

/-- Lane `j` of `VDOT`: the exact sum of a quarter's products and of lane `j` of C (R122). -/
def dotLane (s : State) (t : Thread) (x : Flt3) (j : Nat) : Nat × Fl :=
  let per := lanes x.sh / 4
  let c := (laneOf 32 (if isFloat x.ty then fVal s t .f32 4 x.c else opdVal s t 32 4 false x.c) j).toNat
  if isFloat x.ty then
    ffDot (ffOf x.ty) (fenvOf s t x.rm)
      ((List.range per).map fun k => (fLane s t x.ty x.sh x.a (per * j + k), fLane s t x.ty x.sh x.b (per * j + k))) c
  else
    ((BitVec.ofInt 32 (((List.range per).map fun k => reading (signed x.ty) (vLane s t x.ty x.sh x.a (per * j + k)) *
      reading (signed x.ty) (vLane s t x.ty x.sh x.b (per * j + k))).sum + c)).toNat, 0)

/-- A quarter of the pairs of lanes. -/
theorem zip_quarter {n j : Nat} (a b : Nat → Nat) (hj : j < 4) :
    ((((List.range n).map a).zip ((List.range n).map b)).drop (n / 4 * j)).take (n / 4) =
      (List.range (n / 4)).map fun k => (a (n / 4 * j + k), b (n / 4 * j + k)) := by
  have hlast : n / 4 * j + n / 4 ≤ n := by
    calc n / 4 * j + n / 4 = n / 4 * (j + 1) := (Nat.mul_succ _ _).symm
      _ ≤ n / 4 * 4 := Nat.mul_le_mul_left _ hj
      _ ≤ n := Nat.div_mul_le_self _ _
  rw [List.zip_map', range_map_drop_take _ hlast]

theorem dotLane_float (s : State) (t : Thread) {x : Flt3} (hty : isFloat x.ty = true) {j : Nat} (hj : j < 4) :
    dotLane s t x j = ffDot (ffOf x.ty) (fenvOf s t x.rm)
      ((((fLanes s t x.ty x.sh x.a).zip (fLanes s t x.ty x.sh x.b)).drop (lanes x.sh / 4 * j)).take (lanes x.sh / 4))
      (laneOf 32 (fVal s t .f32 4 x.c) j).toNat := by
  rw [fLanes_range, fLanes_range, zip_quarter _ _ hj]
  simp only [dotLane, hty, if_true]

theorem dotLane_int (s : State) (t : Thread) {x : Flt3} (hty : isFloat x.ty = false) {j : Nat} (hj : j < 4) :
    let v := fun o => nats (width x.ty) (lanes x.sh) (opdVal s t (width x.ty) (lanes x.sh) false o)
    dotLane s t x j = ((dotSum x.ty ((((v x.a).zip (v x.b)).drop (lanes x.sh / 4 * j)).take (lanes x.sh / 4))
      (laneOf 32 (opdVal s t 32 4 false x.c) j).toNat % (2 ^ 32 : Nat)).toNat, 0) := by
  dsimp only
  rw [nats_opdVal, nats_opdVal, zip_quarter _ _ hj]
  have hsum := dotSum_eq x.ty ((List.range (lanes x.sh / 4)).map fun k =>
    (vLane s t x.ty x.sh x.a (lanes x.sh / 4 * j + k), vLane s t x.ty x.sh x.b (lanes x.sh / 4 * j + k)))
  simp only [List.map_map, Function.comp_def] at hsum
  simp only [hsum, dotLane, hty, Bool.false_eq_true, if_false, BitVec.toNat_ofInt]

/-- `VDOT` (R122, R162). -/
theorem vdot_done {s : State} {t : Thread} {h : Hdr} {x : Flt3} (hi : issues s t h = true)
    (hf : free3 t.ctx x.ty x.sh x.d x.a x.b = true) (hc : noneFrom t.ctx [(x.c, false)] = true) :
    fpDone s t h (.vdot h x) ((List.range 4).map (dotLane s t x)) fun c =>
      setDst c x.d false (packed 32 4 fun j => (dotLane s t x j).1) := by
  obtain ⟨hd, ha, hb⟩ := free3_narrow hf
  obtain ⟨hc, -⟩ := (noneFrom_cons ..).mp hc
  refine fpDone_of_body (show exec (.vdot h x) s = execVdot h x s from rfl) hi (by simp [noneFrom, hd, ha, hb, hc]) ?_
    fun c => ⟨setDst_pc .., setDst_frz .., setDst_step ..⟩
  rw [← ofNats_range]
  cases hty : isFloat x.ty with
  | true =>
    rw [List.map_congr_left fun j hj => dotLane_float s t hty (List.mem_range.mp hj)]
    simp only [if_true, nats_eq 32, zipIdx_map_range, List.map_map, Function.comp_def]
    rfl
  | false =>
    rw [List.map_congr_left fun j hj => dotLane_int s t hty (List.mem_range.mp hj)]
    simp only [Bool.false_eq_true, if_false, nats_eq 32, zipIdx_map_range, List.map_map, Function.comp_def]
    rfl

/-- Settles O10: `vred_done`, `vscan_done` and `vdot_done`. -/
theorem vectorReduce : Obligations.VectorReduce := by
  intro s t h hi
  refine ⟨fun x hr => ?_, fun x _ hf hc => vdot_done hi hf hc⟩
  intro put
  exact ⟨fun _ => vred_done hi hr, fun _ => vscan_done hi hr⟩

end Sys2Proof.Machine
end

section
/-! SUPPORT. What integer, predicate and control instructions share: how their bodies end, and what they read. -/

namespace Sys2Proof.Machine
open Sys2Proof.Forms Sys2Proof.Spec

/-- An instruction whose body is a jump transfers control, with what it writes to registers (R140). -/
theorem retired_of_jump {s : State} {t : Thread} {h : Hdr} {i : Instr} {regs : List (BitVec 8 × Opd × Bool)}
    {body : State → Thread → Did} {c : Ctx} {pc : VAddr} (hx : exec i s = issue s i h false regs body) (hi : issues s t h = true)
    (hr : noneFrom t.ctx (regs.map (·.2)) = true) (hb : body s t = jumpTo s t c pc) (hz : c.frz = t.ctx.frz)
    (hs : c.step = t.ctx.step) : ∃ s', exec i s = .next s' ∧ Retired s s' t h c pc := by
  rw [hx]
  exact issue_regs (priv := false) hi hr nofun hb hz hs

/-- An instruction that only writes registers of its line, and none that retirement reads, completes with them (R21). -/
theorem retired_of_finish {s : State} {t : Thread} {h : Hdr} {i : Instr} {regs : List (BitVec 8 × Opd × Bool)}
    {body : State → Thread → Did} {c : Ctx} (hx : exec i s = issue s i h false regs body) (hi : issues s t h = true)
    (hr : noneFrom t.ctx (regs.map (·.2)) = true) (hb : body s t = finish s t c)
    (hk : c.pc = t.ctx.pc ∧ c.frz = t.ctx.frz ∧ c.step = t.ctx.step) :
    ∃ s', exec i s = .next s' ∧ Retired s s' t h c (t.ctx.pc + 12) := by
  obtain ⟨hpc, hz, hs⟩ := hk
  refine retired_of_jump hx hi hr ?_ hz hs
  rw [hb, finish, hpc, jumpTo]

theorem putInt_keeps (c : Ctx) (ty : Ty) (sh : Shape) (d : Opd) (v : Vec) :
    (putInt c ty sh d v).pc = c.pc ∧ (putInt c ty sh d v).frz = c.frz ∧ (putInt c ty sh d v).step = c.step :=
  ⟨putInt_pc .., putInt_frz .., putInt_step ..⟩

theorem setDst_keeps (c : Ctx) (d : Opd) (wide : Bool) (v : Vec) :
    (setDst c d wide v).pc = c.pc ∧ (setDst c d wide v).frz = c.frz ∧ (setDst c d wide v).step = c.step :=
  ⟨setDst_pc .., setDst_frz .., setDst_step ..⟩

theorem getP_iff (c : Ctx) (n : BitVec 3) : getP c n = true ↔ n = 0 ∨ c.p.getLsbD n.toNat = true := by
  simp [getP]

theorem sVal_s (s : State) (t : Thread) (n : BitVec 2) : sVal s t (.s n) = getS t.ctx n := by
  simp [sVal, opdVal]

end Sys2Proof.Machine
end

section
/-! SUPPORT. O1: what each row of R129 gives for a lane, and that an instruction of the row completes with its lanes. -/

namespace Sys2Proof.Machine
open Sys2Proof.Forms Sys2Proof.Spec

/-! Two's complement and unsigned readings (R98). -/

theorem ofInt_reading {w : Nat} (sg : Bool) (a : BitVec w) : BitVec.ofInt w (reading sg a) = a := by
  cases sg <;> simp [reading]

/-- The comparison that the model makes is the one of the readings (R129, R136). -/
theorem lessThan_eq {w : Nat} (sg : Bool) (a b : BitVec w) :
    (if sg then a.slt b else a.ult b) = decide (reading sg a < reading sg b) := by
  cases sg with
  | false => simp [reading, BitVec.ult_eq_decide]
  | true => exact BitVec.slt_eq_decide

/-! The rows with two sources (R99, R129, R130). -/

section twoSource
variable (w : Nat) (sg : Bool) (a b : BitVec w)

theorem operAdd_spec : operAdd w sg a b = BitVec.ofInt w (reading sg a + reading sg b) := by
  rw [BitVec.ofInt_add, ofInt_reading, ofInt_reading, operAdd]

theorem operSub_spec : operSub w sg a b = BitVec.ofInt w (reading sg a - reading sg b) := by
  rw [Int.sub_eq_add_neg, BitVec.ofInt_add, BitVec.ofInt_neg, ofInt_reading, ofInt_reading, operSub, BitVec.sub_eq_add_neg]

theorem operMul_spec : operMul w sg a b = BitVec.ofInt w (reading sg a * reading sg b) := by
  rw [BitVec.ofInt_mul, ofInt_reading, ofInt_reading, operMul]

theorem operMulh_spec : operMulh w sg a b = BitVec.ofInt w (reading sg a * reading sg b / 2 ^ w) := by
  cases sg with
  | false => exact (BitVec.ofInt_natCast w _).symm.trans (by simp [reading])
  | true => simp [operMulh, reading]

theorem operDiv_spec : if b = 0 then operDiv w sg a b = BitVec.allOnes w
    else operDiv w sg a b = BitVec.ofInt w ((reading sg a).tdiv (reading sg b)) := by
  split
  · next hb => simp only [operDiv, hb, if_true]
  · next hb =>
    rw [operDiv, if_neg hb]
    cases sg with
    | false => exact (BitVec.ofInt_natCast w _).symm
    | true => rfl

theorem operRem_spec : if b = 0 then operRem w sg a b = a
    else operRem w sg a b = BitVec.ofInt w ((reading sg a).tmod (reading sg b)) := by
  split
  · next hb => simp only [operRem, hb, if_true]
  · next hb =>
    rw [operRem, if_neg hb]
    cases sg with
    | false => exact (BitVec.ofInt_natCast w _).symm
    | true => rfl

theorem getLsbD_operAnd : ∀ j < w, (operAnd w sg a b).getLsbD j = (a.getLsbD j && b.getLsbD j) :=
  fun _ _ => BitVec.getLsbD_and

theorem getLsbD_operOr : ∀ j < w, (operOr w sg a b).getLsbD j = (a.getLsbD j || b.getLsbD j) :=
  fun _ _ => BitVec.getLsbD_or

theorem getLsbD_operXor : ∀ j < w, (operXor w sg a b).getLsbD j = (a.getLsbD j ^^ b.getLsbD j) :=
  fun _ _ => BitVec.getLsbD_xor

theorem getLsbD_operAndn : ∀ j < w, (operAndn w sg a b).getLsbD j = (a.getLsbD j && !b.getLsbD j) :=
  fun _ hj => by simp [operAndn, hj]

theorem getLsbD_operOrn : ∀ j < w, (operOrn w sg a b).getLsbD j = (a.getLsbD j || !b.getLsbD j) :=
  fun _ hj => by simp [operOrn, hj]

theorem getLsbD_operShl (j : Nat) (hj : j < w) :
    (operShl w sg a b).getLsbD j = (decide (b.toNat % w ≤ j) && a.getLsbD (j - b.toNat % w)) := by
  simp only [operShl, shiftCount, BitVec.getLsbD_shiftLeft, hj, decide_true, Bool.true_and, Nat.not_lt.symm, decide_not]

theorem getLsbD_operShr (j : Nat) (_ : j < w) :
    (operShr w sg a b).getLsbD j = (decide (j + b.toNat % w < w) && a.getLsbD (j + b.toNat % w)) := by
  rw [operShr, shiftCount, BitVec.getLsbD_ushiftRight, Nat.add_comm]
  by_cases h : j + b.toNat % w < w
  · simp [h]
  · simp [h, BitVec.getLsbD_of_ge _ _ (Nat.le_of_not_lt h)]

theorem getLsbD_operSar (j : Nat) (hj : j < w) :
    (operSar w sg a b).getLsbD j = a.getLsbD (if j + b.toNat % w < w then j + b.toNat % w else w - 1) := by
  simp only [operSar, shiftCount, BitVec.getLsbD_sshiftRight, Nat.not_le.mpr hj, decide_false, Bool.not_false, Bool.true_and,
    Nat.add_comm (b.toNat % w), BitVec.msb_eq_getLsbD_last]
  split <;> rfl

/-- A rotation to the left carries bit `j` up by the count, past the top to the bottom (R130). -/
theorem getLsbD_operRol (j : Nat) (hj : j < w) : (operRol w sg a b).getLsbD ((j + b.toNat % w) % w) = a.getLsbD j := by
  have hk : b.toNat % w < w := Nat.mod_lt _ (by omega)
  rw [operRol, shiftCount, BitVec.getLsbD_rotateLeft, Nat.mod_mod]
  generalize b.toNat % w = k at hk
  by_cases h : j + k < w
  · simp [Nat.mod_eq_of_lt h, show ¬ j + k < k by omega, h]
  · rw [Nat.mod_eq_sub_mod (by omega), Nat.mod_eq_of_lt (by omega)]
    simp [show j + k - w < k by omega, show w - k + (j + k - w) = j by omega]

theorem getLsbD_operRor (j : Nat) (hj : j < w) : (operRor w sg a b).getLsbD j = a.getLsbD ((j + b.toNat % w) % w) := by
  have hk : b.toNat % w < w := Nat.mod_lt _ (by omega)
  rw [operRor, shiftCount, BitVec.getLsbD_rotateRight, Nat.mod_mod]
  generalize b.toNat % w = k at hk
  by_cases h : j + k < w
  · simp [Nat.mod_eq_of_lt h, show j < w - k by omega, Nat.add_comm]
  · rw [Nat.mod_eq_sub_mod (by omega), Nat.mod_eq_of_lt (by omega)]
    simp [show ¬ j < w - k by omega, hj, show j - (w - k) = j + k - w by omega]

theorem operMin_spec : operMin w sg a b = if reading sg a < reading sg b then a else b := by
  simp only [operMin, lessThan_eq, decide_eq_true_eq]

theorem operMax_spec : operMax w sg a b = if reading sg a < reading sg b then b else a := by
  simp only [operMax, lessThan_eq, decide_eq_true_eq]

end twoSource

/-! The rows with one source (R129). -/

/-- A count of bits of a lane fits the lane. -/
theorem toNat_ofNat_le {w n : Nat} (h : n ≤ w) : (BitVec.ofNat w n).toNat = n :=
  Nat.mod_eq_of_lt (h.trans_lt Nat.lt_two_pow_self)

section oneSource
variable (w : Nat) (a : BitVec w)

theorem operClz_spec : (operClz w a).toNat ≤ w ∧ (∀ j < w, w - (operClz w a).toNat ≤ j → a.getLsbD j = false) ∧
    ((operClz w a).toNat < w → a.getLsbD (w - 1 - (operClz w a).toNat) = true) := by
  have hle := clzBits_le a w
  rw [operClz, toNat_ofNat_le hle]
  exact ⟨hle, fun j hj hlow => clzBits_zero a w j hlow hj, clzBits_one a w⟩

theorem operCtz_spec : (operCtz w a).toNat ≤ w ∧ (∀ j < (operCtz w a).toNat, a.getLsbD j = false) ∧
    ((operCtz w a).toNat < w → a.getLsbD (operCtz w a).toNat = true) := by
  have hle := ctzBits_le a 0 w
  have hone := ctzBits_one a 0 w
  rw [Nat.zero_add] at hone
  rw [operCtz, toNat_ofNat_le hle]
  exact ⟨hle, fun j hj => ctzBits_zero a 0 w j (Nat.zero_le j) (by omega), hone⟩

theorem operPopc_spec : (operPopc w a).toNat = ((List.range w).filter fun j => a.getLsbD j).length := by
  have hle : popBits a w ≤ w := by
    rw [popBits_eq]
    exact (List.length_filter_le _ _).trans_eq List.length_range
  rw [operPopc, toNat_ofNat_le hle, popBits_eq]

theorem getLsbD_operBrev (j : Nat) (hj : j < w) : (operBrev w a).getLsbD j = a.getLsbD (w - 1 - j) := by
  rw [operBrev, getLsbD_revBits a w j hj, decide_eq_true hj, Bool.true_and]

theorem getLsbD_operBswap (h8 : 8 ∣ w) (j : Nat) (hj : j < w) :
    (operBswap w a).getLsbD j = a.getLsbD (8 * (w / 8 - 1 - j / 8) + j % 8) := by
  have hw : 8 * (w / 8) = w := Nat.mul_div_cancel' h8
  rw [operBswap, getLsbD_revBytes a (w / 8) j hj hw.le, hw, decide_eq_true hj, Bool.true_and]

theorem operAbs_spec : operAbs w a = BitVec.ofInt w (if a.toInt < 0 then -a.toInt else a.toInt) := by
  rw [operAbs, BitVec.msb_eq_toInt, apply_ite (BitVec.ofInt w), BitVec.ofInt_neg, BitVec.ofInt_toInt]
  simp only [decide_eq_true_eq]

end oneSource

/-! From the lanes to the instruction (R127, R128). -/

theorem eight_dvd_width (ty : Ty) : 8 ∣ width ty := by
  cases ty <;> decide

theorem shapeOk_of_alu2 {tyOk : Ty → Bool} {x : Alu2} (h : WellFormed.alu2 tyOk x = true) : shapeOk x.ty x.sh = true := by
  simp only [WellFormed.alu2, Bool.and_eq_true] at h
  obtain ⟨⟨⟨⟨-, hs⟩, -⟩, -⟩, -⟩ := h
  exact hs

theorem shapeOk_of_alu1 {tyOk : Ty → Bool} {x : Alu1} (h : WellFormed.alu1 tyOk x = true) : shapeOk x.ty x.sh = true := by
  simp only [WellFormed.alu1, Bool.and_eq_true] at h
  obtain ⟨⟨⟨-, hs⟩, -⟩, -⟩ := h
  exact hs

section done
variable {s : State} {t : Thread} {h : Hdr} {i : Instr}

/-- An instruction of two sources completes by a rule that its operation meets on every lane. -/
theorem alu2_done {x : Alu2} {f : Oper2} {rule : Nat → BitVec (width x.ty) → Prop} (hx : exec i s = alu2 s i h x f)
    (hw : shapeOk x.ty x.sh = true) (hi : issues s t h = true) (hf : free3 t.ctx x.ty x.sh x.d x.a (srcOpd x.b) = true)
    (hr : ∀ j, rule j (f (width x.ty) (signed x.ty) (laneOf _ (opdVal s t (width x.ty) (lanes x.sh) (wideOf x.ty x.sh) x.a) j)
      (laneOf _ (srcVal s t (width x.ty) (lanes x.sh) (wideOf x.ty x.sh) x.b) j))) :
    intDone s t h x.ty x.sh x.d i rule := by
  obtain ⟨v, s', he, hlane, hret⟩ := alu2_spec i f hw hi hf
  exact ⟨v, s', hx.trans he, fun j hj => hlane j hj ▸ hr j, hret⟩

/-- An instruction of one source completes by a rule that its operation meets on every lane. -/
theorem alu1_done {x : Alu1} {f : Oper1} {rule : Nat → BitVec (width x.ty) → Prop} (hx : exec i s = alu1 s i h x f)
    (hw : shapeOk x.ty x.sh = true) (hi : issues s t h = true) (hf : free3 t.ctx x.ty x.sh x.d x.a .zero = true)
    (hr : ∀ j, rule j (f (width x.ty) (laneOf _ (opdVal s t (width x.ty) (lanes x.sh) (wideOf x.ty x.sh) x.a) j))) :
    intDone s t h x.ty x.sh x.d i rule := by
  obtain ⟨v, s', he, hlane, hret⟩ := alu1_spec i f hw hi hf
  exact ⟨v, s', hx.trans he, fun j hj => hlane j hj ▸ hr j, hret⟩

end done

/-- A row of `twoSource` holds of an instruction whose operation meets the rule of the row. -/
theorem row2_done {mk : Hdr → Alu2 → Instr} {rule : Rule2} {f : Oper2} (hr : ∀ w sg a b, rule w sg a b (f w sg a b))
    (hx : ∀ s h x, exec (mk h x) s = alu2 s (mk h x) h x f := by exact fun _ _ _ => rfl)
    (hw : ∀ h x, wellFormed (mk h x) = true → shapeOk x.ty x.sh = true := by exact fun _ _ => shapeOk_of_alu2)
    (s : State) (t : Thread) (h : Hdr) (x : Alu2)
    (hwf : wellFormed (mk h x) = true) (hi : issues s t h = true) (hf : free3 t.ctx x.ty x.sh x.d x.a (srcOpd x.b) = true) :
    intDone s t h x.ty x.sh x.d (mk h x) fun j r =>
      rule (width x.ty) (signed x.ty) (laneOf _ (opdVal s t (width x.ty) (lanes x.sh) (wideOf x.ty x.sh) x.a) j)
        (laneOf _ (srcVal s t (width x.ty) (lanes x.sh) (wideOf x.ty x.sh) x.b) j) r :=
  alu2_done (hx s h x) (hw h x hwf) hi hf fun _ => hr ..

/-- A row of `oneSource` holds of an instruction whose operation meets the rule of the row. -/
theorem row1_done {mk : Hdr → Alu1 → Instr} {rule : Rule1} {f : Oper1} (hr : ∀ w a, 8 ∣ w → rule w a (f w a))
    (hx : ∀ s h x, exec (mk h x) s = alu1 s (mk h x) h x f := by exact fun _ _ _ => rfl)
    (hw : ∀ h x, wellFormed (mk h x) = true → shapeOk x.ty x.sh = true := by exact fun _ _ => shapeOk_of_alu1)
    (s : State) (t : Thread) (h : Hdr) (x : Alu1)
    (hwf : wellFormed (mk h x) = true) (hi : issues s t h = true) (hf : free3 t.ctx x.ty x.sh x.d x.a .zero = true) :
    intDone s t h x.ty x.sh x.d (mk h x) fun j r =>
      rule (width x.ty) (laneOf _ (opdVal s t (width x.ty) (lanes x.sh) (wideOf x.ty x.sh) x.a) j) r :=
  alu1_done (hx s h x) (hw h x hwf) hi hf fun _ => hr _ _ (eight_dvd_width x.ty)

/-- The rows of R129 with two sources, in the order of `twoSource`. -/
theorem intTwoSource : Spec.IntTwoSource := by
  unfold Spec.IntTwoSource twoSource
  iterate 18 rw [List.forall_mem_cons]
  exact ⟨row2_done operAdd_spec, row2_done operSub_spec, row2_done operMul_spec, row2_done operMulh_spec, row2_done operDiv_spec,
    row2_done operRem_spec, row2_done getLsbD_operAnd, row2_done getLsbD_operOr, row2_done getLsbD_operXor,
    row2_done getLsbD_operAndn, row2_done getLsbD_operOrn, row2_done getLsbD_operShl, row2_done getLsbD_operShr,
    row2_done getLsbD_operSar, row2_done getLsbD_operRol, row2_done getLsbD_operRor, row2_done operMin_spec, row2_done operMax_spec,
    List.forall_mem_nil _⟩

/-- The rows of R129 with one source, in the order of `oneSource`. -/
theorem intOneSource : Spec.IntOneSource := by
  unfold Spec.IntOneSource oneSource
  iterate 6 rw [List.forall_mem_cons]
  exact ⟨row1_done fun w a _ => operClz_spec w a, row1_done fun w a _ => operCtz_spec w a, row1_done fun w a _ => operPopc_spec w a,
    row1_done fun w a _ => getLsbD_operBrev w a, row1_done getLsbD_operBswap, row1_done fun w a _ => operAbs_spec w a,
    List.forall_mem_nil _⟩

/-- Settles O1: `intTwoSource` and `intOneSource`. -/
theorem integerResults : Obligations.IntegerResults := ⟨intTwoSource, intOneSource⟩

end Sys2Proof.Machine
end

section
/-! SUPPORT. O2: extensions, bit fields and carries (R131, R132). -/

namespace Sys2Proof.Machine
open Sys2Proof.Forms Sys2Proof.Spec

/-! Extensions and bit fields (R132). -/

theorem getLsbD_sext {w nb j : Nat} (a : BitVec w) (hj : j < w) (hnb : 0 < nb) :
    (extBits true nb w a).getLsbD j = a.getLsbD (if j < nb then j else nb - 1) := by
  rw [getLsbD_extBits true nb w a j hj hnb, Bool.true_and]
  split <;> rfl

theorem getLsbD_zext {w nb j : Nat} (a : BitVec w) (hj : j < w) (hnb : 0 < nb) :
    (extBits false nb w a).getLsbD j = (decide (j < nb) && a.getLsbD j) := by
  rw [getLsbD_extBits false nb w a j hj hnb, Bool.false_and]
  split <;> simp [*]

theorem getLsbD_bfx {w pos len j : Nat} (sg : Bool) (a : BitVec w) (hj : j < w) (hlen : 0 < len) :
    (extBits sg len w (a >>> pos)).getLsbD j = if j < len then a.getLsbD (pos + j) else (sg && a.getLsbD (pos + len - 1)) := by
  rw [getLsbD_extBits sg len w _ j hj hlen, BitVec.getLsbD_ushiftRight, BitVec.getLsbD_ushiftRight, ← Nat.add_sub_assoc hlen]

/-- The shape and the number of bits of a well-formed extension. -/
theorem wf_ext {x : Ext} (h : WellFormed.ext x = true) : shapeOk x.ty x.sh = true ∧ 0 < x.nb.toNat := by
  simp only [WellFormed.ext, WellFormed.nbOk, Bool.and_eq_true, decide_eq_true_eq] at h
  obtain ⟨⟨⟨⟨-, hs⟩, -⟩, -⟩, hnb, -⟩ := h
  exact ⟨hs, hnb⟩

/-- A well-formed field has a bit and lies in the lane. -/
theorem posLenOk_iff (ty : Ty) (pos len : BitVec 7) : WellFormed.posLenOk ty pos len = true ↔
    0 < len.toNat ∧ len.toNat ≤ width ty ∧ pos.toNat < width ty ∧ pos.toNat + len.toNat ≤ width ty := by
  simp only [WellFormed.posLenOk, Bool.and_eq_true, decide_eq_true_eq, Nat.succ_le_iff, and_assoc]

theorem wf_bfx {x : Bfx} (h : WellFormed.bfx x = true) : shapeOk x.ty x.sh = true ∧ 0 < x.len.toNat := by
  simp only [WellFormed.bfx, Bool.and_eq_true, posLenOk_iff] at h
  obtain ⟨⟨⟨⟨-, hs⟩, -⟩, -⟩, hlen, -⟩ := h
  exact ⟨hs, hlen⟩

theorem wf_bfi {x : Bfi} (h : WellFormed.bfi x = true) : shapeOk x.ty x.sh = true ∧ x.pos.toNat + x.len.toNat ≤ width x.ty := by
  simp only [WellFormed.bfi, Bool.and_eq_true, posLenOk_iff] at h
  obtain ⟨⟨⟨⟨⟨-, hs⟩, -⟩, -⟩, -⟩, -, -, -, hfit⟩ := h
  exact ⟨hs, hfit⟩

/-- `SEXT`, `ZEXT`, `BFX` and `BFI`, each by its bits. -/
theorem intFields : Spec.IntFields := by
  refine ⟨fun s t h x hw hi hf => ?_, fun s t h x hw hi hf => ?_, fun s t h x hw hi hf => ?_⟩
  · obtain ⟨hs, hnb⟩ := wf_ext hw
    let y : Alu1 := { ty := x.ty, sh := x.sh, d := x.d, a := x.a }
    exact ⟨alu1_done (x := y) (show exec (.sext h x) s = execSext h x s from rfl) hs hi hf fun _ _ hk => getLsbD_sext _ hk hnb,
      alu1_done (x := y) (show exec (.zext h x) s = execZext h x s from rfl) hs hi hf fun _ _ hk => getLsbD_zext _ hk hnb⟩
  · obtain ⟨hs, hlen⟩ := wf_bfx hw
    exact alu1_done (x := { ty := x.ty, sh := x.sh, d := x.d, a := x.a }) (show exec (.bfx h x) s = execBfx h x s from rfl) hs hi hf
      fun _ _ hk => getLsbD_bfx _ _ hk hlen
  · obtain ⟨hs, hfit⟩ := wf_bfi hw
    exact alu2_done (x := { ty := x.ty, sh := x.sh, d := x.d, a := x.a, b := .opd x.b })
      (show exec (.bfi h x) s = execBfi h x s from rfl) hs hi hf fun _ k hk => getLsbD_operBfi _ _ _ _ _ _ k hk hfit

/-! Carries (R131). -/

theorem carryOp_add {w : Nat} (a b : BitVec w) (c : Bool) : carryOp false w a b c =
    (BitVec.ofInt w ((a.toNat : Int) + b.toNat + if c then 1 else 0),
      decide ((2 : Int) ^ w ≤ (a.toNat : Int) + b.toNat + if c then 1 else 0)) := by
  have hsum : (a.toNat : Int) + b.toNat + (if c then 1 else 0) = ((a.toNat + b.toNat + if c then 1 else 0 : Nat) : Int) := by
    cases c <;> simp
  rw [hsum, BitVec.ofInt_natCast]
  simp only [carryOp, Bool.false_eq_true, if_false, ← Nat.cast_ofNat (R := Int), ← Nat.cast_pow, Nat.cast_le]

theorem carryOp_sub {w : Nat} (a b : BitVec w) (c : Bool) : carryOp true w a b c =
    (BitVec.ofInt w ((a.toNat : Int) - b.toNat - if c then 1 else 0),
      decide ((a.toNat : Int) - b.toNat - (if c then 1 else 0) < 0)) := by
  cases c <;> simp only [carryOp, if_true, Bool.false_eq_true, if_false, Nat.cast_zero, Nat.cast_one, Prod.mk.injEq, true_and,
    decide_eq_decide] <;> omega

/-- An instruction with carry writes the result to D and the carry to its predicate. -/
theorem carryAlu_done {s : State} {t : Thread} {h : Hdr} {i : Instr} {x : AluX} {sub : Bool} (hx : exec i s = carryAlu s i h x sub)
    (hi : issues s t h = true) (hf : free3 t.ctx x.ty .sc x.d x.a (srcOpd x.b) = true) :
    let w := width x.ty
    let r := carryOp sub w ((opdVal s t w 1 false x.a).setWidth w) ((srcVal s t w 1 false x.b).setWidth w) (getP t.ctx x.px)
    ∃ s', exec i s = .next s' ∧
      Retired s s' t h (setP (putInt t.ctx x.ty .sc x.d (r.1.setWidth 128)) x.px r.2) (t.ctx.pc + 12) := by
  refine retired_of_finish (regs := dab x.ty .sc x.d x.a x.b) (by rw [hx, carryAlu]) hi hf rfl ?_
  obtain ⟨hpc, hz, hs⟩ := putInt_keeps t.ctx x.ty .sc x.d
    ((carryOp sub (width x.ty) ((opdVal s t (width x.ty) 1 false x.a).setWidth _) ((srcVal s t (width x.ty) 1 false x.b).setWidth _)
      (getP t.ctx x.px)).1.setWidth 128)
  exact ⟨(setP_pc ..).trans hpc, (setP_frz ..).trans hz, (setP_step ..).trans hs⟩

/-- `ADDX` and `SUBX` by `carryAlu_done`. -/
theorem intCarry : Spec.IntCarry := by
  intro s t h x _ hi hf w a b c
  have hadd := carryAlu_done (show exec (.addx h x) s = execAddx h x s from rfl) hi hf
  have hsub := carryAlu_done (show exec (.subx h x) s = execSubx h x s from rfl) hi hf
  simp only [carryOp_add, getP_iff] at hadd
  simp only [carryOp_sub, getP_iff] at hsub
  exact ⟨hadd, hsub⟩

/-- Settles O2: `intFields` and `intCarry`. -/
theorem integerFieldsAndCarry : Obligations.IntegerFieldsAndCarry := ⟨intFields, intCarry⟩

end Sys2Proof.Machine
end

section
/-! SUPPORT. O3: moves, immediates, addresses and comparisons (R60, R133 to R136). -/

namespace Sys2Proof.Machine
open Sys2Proof.Forms Sys2Proof.Spec

/-! Addresses (R66, R135). -/

/-- What an address register holds; `ZERO` is 0 (R66). -/
def addrReg (c : Ctx) (o : Opd) : Word :=
  match o with
  | .s n => getS c n
  | _ => 0

theorem eaOf_addrReg (c : Ctx) (m : MemOp) :
    eaOf c m = addrReg c m.base + (addrReg c m.idx <<< m.sh.toNat) + m.disp.signExtend 64 := rfl

/-- An address register reads as a scalar source does. -/
theorem addrReg_eq_sVal (s : State) (t : Thread) {o : Opd} (h : Forms.accepts .aReg o = true) : addrReg t.ctx o = sVal s t o := by
  cases o with
  | s n => exact (sVal_s s t n).symm
  | zero => rfl
  | _ => cases h

/-- A shift multiplies by a power of two, modulo the width. -/
theorem ofInt_mul_two_pow {w : Nat} (x : BitVec w) (k : Nat) : BitVec.ofInt w ((x.toNat : Int) * 2 ^ k) = x <<< k := by
  have hcast : (x.toNat : Int) * 2 ^ k = ((x.toNat * 2 ^ k : Nat) : Int) := by push_cast; rfl
  rw [hcast, BitVec.ofInt_natCast]
  exact BitVec.eq_of_toNat_eq (by simp [Nat.shiftLeft_eq])

/-- The effective address is the sum of R66, modulo 2^64. -/
theorem eaOf_eq (s : State) (t : Thread) {m : MemOp} (h : WellFormed.memOp m = true) :
    eaOf t.ctx m =
      BitVec.ofInt 64 ((sVal s t m.base).toNat + (sVal s t m.idx).toNat * 2 ^ m.sh.toNat + m.disp.toInt) := by
  simp only [WellFormed.memOp, Bool.and_eq_true] at h
  obtain ⟨⟨hbase, hidx⟩, -⟩ := h
  rw [eaOf_addrReg, addrReg_eq_sVal s t hbase, addrReg_eq_sVal s t hidx, BitVec.ofInt_add, BitVec.ofInt_add, ofInt_mul_two_pow,
    BitVec.ofInt_natCast, BitVec.ofNat_toNat, BitVec.setWidth_eq, BitVec.signExtend]

/-- `SEL`, `MOV`, `LI` and `LEA`: each body writes its value to D. -/
theorem intMoves : Spec.IntMoves := by
  refine ⟨fun s t h x _ hi hf => ?_, fun s t h x _ hi hf => ?_, fun s t h d imm hi hr => ?_, fun s t h x hw hi hr => ?_⟩
  · refine retired_of_finish (regs := dab x.ty x.sh x.d x.a x.b) (show exec (.sel h x) s = execSel h x s from rfl) hi hf ?_
      (putInt_keeps ..)
    simp only [getP_iff]
  · exact retired_of_finish (regs := dab x.ty x.sh x.d (srcOpd x.a) (.opd .zero)) (show exec (.mov h x) s = execMov h x s from rfl)
      hi hf rfl (putInt_keeps ..)
  · exact retired_of_finish (regs := [(1, d, false)]) (show exec (.li h d imm) s = execLi h d imm s from rfl) hi hr rfl
      (setDst_keeps ..)
  · obtain ⟨-, hm⟩ : Forms.accepts .sDst x.d = true ∧ WellFormed.memOp x.mem = true := by
      simpa only [WellFormed.memD, Bool.and_eq_true] using (show WellFormed.memD .sDst x = true from hw)
    rw [← eaOf_eq s t hm]
    exact retired_of_finish (regs := [(1, x.d, false), (2, x.mem.base, false), (3, x.mem.idx, false)])
      (show exec (.lea h x) s = execLea h x s from rfl) hi hr rfl (setDst_keeps ..)

/-! Comparisons (R60, R136). -/

/-- What each condition says of two lanes (R60). -/
def condSays {w : Nat} (c : Cond) (sg : Bool) (a b : BitVec w) : Prop :=
  match c with
  | .eq => a = b
  | .ne => a ≠ b
  | .lt => reading sg a < reading sg b
  | .ge => reading sg b ≤ reading sg a
  | .gt => reading sg b < reading sg a
  | .le => reading sg a ≤ reading sg b
  | .any => a &&& b ≠ 0
  | .none => a &&& b = 0

/-- A lane is what its type reads. -/
theorem reading_inj {w : Nat} (sg : Bool) {a b : BitVec w} : reading sg a = reading sg b ↔ a = b :=
  ⟨fun h => by rw [← ofInt_reading sg a, h, ofInt_reading], fun h => h ▸ rfl⟩

theorem condHolds_iff {w : Nat} (c : Cond) (sg : Bool) (a b : BitVec w) : condHolds c sg a b = true ↔ condSays c sg a b := by
  cases c <;> simp only [condHolds, condSays, lessThan_eq, beq_iff_eq, bne_iff_ne, Bool.not_eq_true', decide_eq_true_eq,
    decide_eq_false_iff_not, Bool.and_eq_true, Bool.or_eq_true, not_lt, ← reading_inj sg, ne_eq]
  case gt => omega
  case le => omega

/-- The lanes of `CMP`: all ones where the condition holds, else zeros. -/
def cmpVal (c : Cond) (ty : Ty) (n : Nat) (a b : Vec) : Vec :=
  ofLanes (width ty) (((lanesOf (width ty) a n).zip (lanesOf (width ty) b n)).map fun p =>
    if condHolds c (signed ty) p.1 p.2 then BitVec.allOnes (width ty) else 0)

theorem laneOf_cmpVal (c : Cond) {ty : Ty} {n j : Nat} (a b : Vec) (hw : width ty * n ≤ 128) (hj : j < n) :
    laneOf (width ty) (cmpVal c ty n a b) j =
      if condHolds c (signed ty) (laneOf (width ty) a j) (laneOf (width ty) b j) then BitVec.allOnes (width ty) else 0 := by
  rw [cmpVal, laneOf_ofLanes]
  · simp [lanesOf]
  · simpa [lanesOf] using hw
  · simpa [lanesOf] using hj

theorem lanes_pos (sh : Shape) : 0 < lanes sh := by
  cases sh <;> decide

/-- The lowest bit of the first lane is the condition that a predicate takes. -/
theorem getLsbD_cmpVal (c : Cond) {ty : Ty} {n : Nat} (a b : Vec) (hw : width ty * n ≤ 128) (hn : 0 < n) :
    (cmpVal c ty n a b).getLsbD 0 = condHolds c (signed ty) (laneOf (width ty) a 0) (laneOf (width ty) b 0) := by
  have hbit := getLsbD_laneOf (width ty) (cmpVal c ty n a b) 0 0 (width_pos ty)
  rw [Nat.zero_mul, Nat.zero_add, laneOf_cmpVal c a b hw hn] at hbit
  rw [← hbit]
  split <;> simp [*, width_pos]

/-- `CMP` by its lanes. -/
theorem intCompare : Spec.IntCompare := by
  intro s t h x hw hi hf w lane a b holds
  have hs : shapeOk x.ty x.sh = true := by
    have hwf : WellFormed.cmp x = true := hw
    simp only [WellFormed.cmp, Bool.and_eq_true] at hwf
    obtain ⟨⟨⟨⟨-, hs⟩, -⟩, -⟩, -⟩ := hwf
    exact hs
  have hholds (j : Nat) : condHolds x.cond (signed x.ty) (lane a j) (lane b j) = true ↔ holds j := condHolds_iff ..
  have hlane {j : Nat} (hj : j < lanes x.sh) := laneOf_cmpVal x.cond a b (shape_fits hs) hj
  obtain ⟨s', he, hret⟩ := retired_of_finish (regs := dab x.ty x.sh x.d x.a x.b)
    (c := setDst t.ctx x.d false (cmpVal x.cond x.ty _ a b)) (show exec (.cmp h x) s = execCmp h x s from rfl) hi hf rfl
    (setDst_keeps ..)
  refine ⟨_, s', he, hret, ?_, fun j hj => ⟨fun hp => ?_, fun hp => ?_⟩⟩
  · rw [getLsbD_cmpVal x.cond a b (shape_fits hs) (lanes_pos x.sh)]
    exact hholds 0
  · exact (hlane hj).trans (if_pos ((hholds j).mpr hp))
  · exact (hlane hj).trans (if_neg fun hc => hp ((hholds j).mp hc))

/-- Settles O3: `intMoves` and `intCompare`. -/
theorem integerMovesAndCompare : Obligations.IntegerMovesAndCompare := ⟨intMoves, intCompare⟩

end Sys2Proof.Machine
end

section
/-! SUPPORT. O5: predicates, branches, jumps and counted loops (R137 to R140, R144, R145). -/

namespace Sys2Proof.Machine
open Sys2Proof.Forms Sys2Proof.Spec

/-! Predicates (R137, R138). -/

/-- The predicates after `PMOV.set` (R138). -/
def pmovBits (p : BitVec 8) (pm : BitVec 7) (v : Word) : BitVec 8 :=
  (p &&& ~~~(pm ++ 0#1)) ||| (v.setWidth 8 &&& (pm ++ 0#1))

/-- The predicates that the mask names are those of the source; bit 0 of the mask names none. -/
theorem getLsbD_pmovBits {n : Nat} (p : BitVec 8) (pm : BitVec 7) (v : Word) (h8 : n < 8) :
    (pmovBits p pm v).getLsbD n = if 1 ≤ n ∧ pm.getLsbD (n - 1) = true then v.getLsbD n else p.getLsbD n := by
  have hm : (pm ++ 0#1).getLsbD n = (decide (1 ≤ n) && pm.getLsbD (n - 1)) := by
    rw [BitVec.getLsbD_append]
    cases n <;> simp
  simp only [pmovBits, BitVec.getLsbD_or, BitVec.getLsbD_and, BitVec.getLsbD_not, BitVec.getLsbD_setWidth, hm, h8, decide_true,
    Bool.true_and]
  by_cases h1 : 1 ≤ n <;> cases pm.getLsbD (n - 1) <;> simp [h1]

/-- `PLOG`, `PMOV` and `NOP`. -/
theorem predicates : Spec.Predicates := by
  intro s t h hi
  refine ⟨fun d a b c tt => ?_, fun d hr => ?_, fun a pm hr => ?_, ?_⟩
  · refine retired_of_finish (regs := []) (show exec (.plog h d a b c tt) s = execPlog h d a b c tt s from rfl) hi rfl ?_
      ⟨setP_pc .., setP_frz .., setP_step ..⟩
    simp only [getP_iff]
  · exact retired_of_finish (regs := [(1, d, false)]) (show exec (.pmovGet h d) s = execPmovGet h d s from rfl) hi hr rfl
      (setDst_keeps ..)
  · obtain ⟨s', he, hret⟩ := retired_of_finish (regs := [(2, a, false)]) (c := { t.ctx with p := pmovBits t.ctx.p pm (sVal s t a) })
      (show exec (.pmovSet h a pm) s = execPmovSet h a pm s from rfl) hi hr rfl ⟨rfl, rfl, rfl⟩
    refine ⟨_, s', he, hret, rfl, ?_, fun n h1 h8 => ?_⟩
    · exact (getLsbD_pmovBits _ _ _ (by decide)).trans (if_neg (by simp))
    · simp only [getLsbD_pmovBits _ _ _ h8, h1, true_and]
  · exact retired_of_finish (regs := []) (show exec (.nop h) s = execNop h s from rfl) hi rfl rfl ⟨rfl, rfl, rfl⟩

/-! Control transfer (R139, R140, R144). -/

/-- The target of class B counts in instructions from the branch, modulo 2^57 (R139). -/
theorem branchTarget_eq (pc : VAddr) (disp : BitVec 32) : branchTarget pc disp = BitVec.ofInt 57 (pc.toNat + 12 * disp.toInt) := by
  rw [branchTarget, BitVec.ofInt_add, BitVec.ofInt_mul, BitVec.ofInt_natCast, BitVec.ofNat_toNat, BitVec.setWidth_eq]
  rfl

/-- A register target is refused when it is no multiple of 4, else when it is beyond the address space (R139). -/
theorem badTarget_eq (v : Word) : badTarget v =
    if v.toNat % 4 ≠ 0 then some 0x01 else if 2 ^ 57 ≤ v.toNat then some 0x02 else none := by
  have hlow : v.extractLsb' 0 2 = 0 ↔ v.toNat % 4 = 0 := by
    rw [← BitVec.toNat_inj]
    simp
  have hhigh : v.extractLsb' 57 7 = 0 ↔ ¬ 2 ^ 57 ≤ v.toNat := by
    have hv := v.isLt
    rw [← BitVec.toNat_inj, BitVec.extractLsb'_toNat, Nat.shiftRight_eq_div_pow]
    simp only [BitVec.ofNat_eq_ofNat, BitVec.toNat_ofNat, Nat.zero_mod]
    omega
  simp only [badTarget, bne_iff_ne, ne_eq, hlow, hhigh, not_not]

theorem badTarget_none {v : Word} (hlt : v.toNat < 2 ^ 57) (h4 : v.toNat % 4 = 0) : badTarget v = none := by
  rw [badTarget_eq, if_neg (not_not.mpr h4), if_neg (Nat.not_le.mpr hlt)]

/-- The new value of `DBNZ` is zero when the old one is 1 (R144). -/
theorem dbnz_target {α : Type} (v : Word) (x y : α) : (if (v - 1 != 0) = true then x else y) = if v = 1 then y else x := by
  have hv : v - 1 = 0 ↔ v = 1 := sub_eq_zero
  simp only [bne_iff_ne, ne_eq, hv, ite_not]

/-- `BR`, `JMP` and `DBNZ`. -/
theorem jumps : Spec.Jumps := by
  intro s t h hi
  refine ⟨fun disp => ?_, fun a hr hlt h4 => ?_, fun n disp hr => ?_⟩
  · rw [← branchTarget_eq]
    exact retired_of_jump (regs := []) (show exec (.br h disp) s = execBr h disp s from rfl) hi rfl rfl rfl rfl
  · refine retired_of_jump (regs := [(2, a, false)]) (show exec (.jmp h a) s = execJmp h a s from rfl) hi hr ?_ rfl rfl
    simp only [badTarget_none hlt h4]
    rfl
  · rw [← branchTarget_eq, ← dbnz_target]
    refine retired_of_jump (regs := [(1, .s n, false)]) (show exec (.dbnz h (.s n) disp) s = execDbnz h (.s n) disp s from rfl) hi
      hr ?_ (setS_frz ..) (setS_step ..)
    simp only [sVal_s, setDst, Bool.false_eq_true, if_false, BitVec.setWidth_setWidth_of_le _ (show 64 ≤ 128 by decide),
      BitVec.setWidth_eq]

/-- Settles O5: `predicates` and `jumps`. -/
theorem predicatesAndJumps : Obligations.PredicatesAndJumps := ⟨predicates, jumps⟩

end Sys2Proof.Machine
end

section
/-! SUPPORT. O6: calls, returns, and the traps of bad targets and stack pointers (R139, R141, R142). -/

namespace Sys2Proof.Machine
open Sys2Proof.Forms Sys2Proof.Spec

/-! The state after a located request has entered (R172). -/

theorem findThread_entered {s s1 : State} {t : Thread} {r : Req} {p : Phys} {pends counts : Bool}
    (hf : findThread s t.key = some t) :
    findThread (entered s s1 t r p pends counts) t.key = some { t with ctx := enteredCtx t.ctx r pends counts } := by
  refine (findThread_setThread s { t with ctx := enteredCtx t.ctx r pends counts }).trans ?_
  rw [hf, Option.map_some]

theorem findThread_entered_other (s s1 : State) {t : Thread} {r : Req} {p : Phys} {pends counts : Bool} {k : Key} (hk : k ≠ t.key) :
    findThread (entered s s1 t r p pends counts) k = findThread s k :=
  findThread_setThread_other s { t with ctx := enteredCtx t.ctx r pends counts } k hk

/-- A line with nothing due stays so when located requests are added and registers of it are written. -/
theorem quiet_handed {s s2 : State} {t : Thread} {c : Ctx} {l : List Req} (hq : quiet s t = true)
    (hl : s2.flight.reqs = s.flight.reqs ++ l) (hu : ∀ r ∈ l, isUnrecorded r = false) (hz : c.frz = t.ctx.frz)
    (hs : c.step = t.ctx.step) : quiet s2 { t with ctx := c } = true := by
  obtain ⟨hc, hw, hp, hfrz, hn, hst, hr, hun⟩ := (quiet_iff _ _).mp hq
  refine (quiet_iff _ _).mpr ⟨hc, hw, hp, hz.trans hfrz, hn, hs.trans hst, hr, fun r hr hk => ?_⟩
  rw [hl] at hr
  exact (List.mem_append.mp hr).elim (fun hm => hun r hm hk) (hu r)

/-! The push of a return entry (R141). -/

theorem badKind_push (s : State) (i : Instr) (va v : Word) (p : Phys) : badKind s (pushReq i va v) p = none := by
  cases p <;> rfl

theorem pushWord_entered {s s1 : State} {t : Thread} {i : Instr} {va v : Word} {p : Phys} (hf : findThread s t.key = some t)
    (hctx : t.key.ctx ≠ 0) (htr : translate s (.data t.bench (iuAt t)) t.key.asid (wantOf .st t.ctx.sup) va = .ok p s1) :
    pushWord s t.key i va v = .ok (entered s s1 t (pushReq i va v) p false false) := by
  unfold pushWord
  rw [hf]
  exact resolve_entered hctx htr (badKind_push s i va v p)

theorem extract_low4_eq_zero (v : Word) : v.extractLsb' 0 4 = 0 ↔ v.toNat % 16 = 0 := by
  rw [← BitVec.toNat_inj]
  simp

/-- A thread with another stack pointer. -/
def withSp (sp : Word) (x : Thread) : Thread := { x with ctx := { x.ctx with s3 := sp } }

/-- The state after both words of a return entry have entered and s3 has moved (R141). -/
def called (s s1 s2 : State) (t : Thread) (i : Instr) (p q : Phys) : State :=
  let a := entered s s1 t (pushReq i (t.ctx.s3 - 16) ((t.ctx.pc + 12).setWidth 64)) p false false
  onThread (entered a s2 t (pushReq i (t.ctx.s3 - 8) 0) q false false) t.key
    (withSp (t.ctx.s3 - 16))

section call
variable {s s1 s2 : State} {t : Thread} {i : Instr} {p q : Phys}

theorem findThread_called (hf : findThread s t.key = some t) :
    findThread (called s s1 s2 t i p q) t.key = some (withSp (t.ctx.s3 - 16) t) := by
  refine (findThread_onThread _ _ (withSp _) fun _ hk => hk).trans ?_
  rw [findThread_entered (findThread_entered hf)]
  rfl

theorem findThread_called_other {k : Key} (hk : k ≠ t.key) : findThread (called s s1 s2 t i p q) k = findThread s k :=
  (findThread_onThread_other _ _ _ (withSp _) hk fun _ hk => hk).trans
    ((findThread_entered_other _ _ hk).trans (findThread_entered_other _ _ hk))

theorem called_reqs : (called s s1 s2 t i p q).flight.reqs = s.flight.reqs ++
    [handed s t (pushReq i (t.ctx.s3 - 16) ((t.ctx.pc + 12).setWidth 64)) p,
      { handed s t (pushReq i (t.ctx.s3 - 8) 0) q with id := nextSeq s + 1 }] := by
  rw [← nextSeq_entered s s1 t (pushReq i (t.ctx.s3 - 16) ((t.ctx.pc + 12).setWidth 64)) p false false]
  exact List.append_assoc ..

/-- With the stack aligned, room for two requests and both words translated, a call pushes and jumps (R141). -/
theorem callTo_called {target : VAddr} (hf : findThread s t.key = some t) (hal : t.ctx.s3.toNat % 16 = 0)
    (hroom : entriesUsed s t.bench (iuAt t) + 2 ≤ Config.reqEntries) (hctx : t.key.ctx ≠ 0)
    (h1 : translate s (.data t.bench (iuAt t)) t.key.asid (wantOf .st t.ctx.sup) (t.ctx.s3 - 16) = .ok p s1)
    (h2 : translate s1 (.data t.bench (iuAt t)) t.key.asid (wantOf .st t.ctx.sup) (t.ctx.s3 - 8) = .ok q s2) :
    callTo s t i target = .done (called s s1 s2 t i p q) target .run := by
  have hup : t.ctx.s3 - 16 + 8 = t.ctx.s3 - 8 := sub_add ..
  let a := entered s s1 t (pushReq i (t.ctx.s3 - 16) ((t.ctx.pc + 12).setWidth 64)) p false false
  have hpush1 : pushWord s t.key i (t.ctx.s3 - 16) ((t.ctx.pc + 12).setWidth 64) = .ok a := pushWord_entered hf hctx h1
  have hpush2 : pushWord a t.key i (t.ctx.s3 - 8) 0 = .ok (entered a s2 t (pushReq i (t.ctx.s3 - 8) 0) q false false) :=
    pushWord_entered (s1 := around a.run a.threads a.flight a.eng a.queues s2) (findThread_entered hf) hctx
      ((translate_around ..).trans (by rw [h2]; rfl))
  simp only [callTo, bne_eq_false_iff_eq.mpr ((extract_low4_eq_zero _).mpr hal), Nat.not_lt.mpr hroom, decide_false,
    Bool.false_eq_true, if_false, hup, hpush1, hpush2]
  rfl

/-- `CALL` and `CALLR` to a good target (R141). -/
theorem call_done {h : Hdr} {regs : List (BitVec 8 × Opd × Bool)} {body : State → Thread → Did} {target : VAddr}
    (hx : exec i s = issue s i h false regs body) (hi : issues s t h = true) (hr : noneFrom t.ctx (regs.map (·.2)) = true)
    (hb : body s t = callTo s t i target) : callDone s t h i target := by
  intro hal hroom hctx p s1 q s2 h1 h2
  obtain ⟨hc, hq, -⟩ := (issues_iff _ _ _).mp hi
  have hf := current_find hc
  have hbody := hb.trans (callTo_called (target := target) hf hal hroom hctx h1 h2)
  have ret := retire_spec (called s s1 s2 t i p q) (withSp (t.ctx.s3 - 16) t) h target (findThread_called hf)
    (quiet_handed hq called_reqs (by simp [isUnrecorded, handed]) rfl rfl)
  have keeps := (translate_keeps h1).trans (translate_keeps h2)
  have hparts : s2.cache = s.cache ∧ s2.spaces = s.spaces ∧ s2.fw = s.fw ∧ s2.pkg = s.pkg := by
    rw [keeps.eq]
    exact ⟨rfl, rfl, rfl, rfl⟩
  obtain ⟨hcache, hspaces, hfw, hpkg⟩ := hparts
  exact ⟨_, hx.trans (issue_body (priv := false) hi hr nofun hbody),
    { line := ⟨ret.line.line⟩
      others := fun k hk => (ret.others k hk).trans (findThread_called_other hk)
      reqs := (congrArg Flight.reqs ret.flight).trans called_reqs
      waiters := (congrArg Flight.waiters ret.flight).trans rfl
      turns := (congrArg Flight.turns ret.flight).trans rfl
      mem := ret.mem
      mmu := ret.mmu
      cache := ret.cache.trans hcache
      spaces := ret.spaces.trans hspaces
      eng := ret.eng
      queues := ret.queues
      fw := ret.fw.trans hfw
      pkg := ret.pkg.trans hpkg
      ius := fun b u => (ret.ius b u).trans (keeps.ius b u) }⟩

end call

/-! The return (R142). -/

theorem badKind_ret (s : State) (va : Word) (i : Instr) (p : Phys) :
    badKind s { newReq .ret va 8 .b64 i with dst := .s 3 } p = none := by
  cases p <;> rfl

/-- A body that begins the wait for a return with a result outstanding leaves its line in it, at the same PC (R142). -/
theorem retire_ret {s : State} {t : Thread} {h : Hdr} (hf : findThread s t.key = some t) (hq : quiet s t = true)
    (ho : t.ctx.outst ≠ 0) :
    ∃ x, findThread (retire s t.key h t.ctx.pc .ret) t.key = some x ∧ x.wait = .ret ∧
      x.ctx = { t.ctx with wkind := x.ctx.wkind } ∧ (retire s t.key h t.ctx.pc .ret).flight = s.flight := by
  obtain ⟨⟨x, hx, hctx, -, hwait, -⟩, -, hrest, -⟩ := retire_wait s t h t.ctx.pc .ret hf hq
  obtain ⟨-, -, hp, -⟩ := (quiet_iff _ _).mp hq
  have hret : (unpark { t with wait := .ret }).wait = .ret :=
    (unpark_wait { t with wait := .ret } hp).trans (if_neg (by simpa using ho))
  exact ⟨x, hx, hwait.trans hret, hctx, hrest.flight⟩

/-- `RET` with its conditions met (R142). -/
theorem ret_done {s s1 : State} {t : Thread} {h : Hdr} {p : Phys} (hi : issues s t h = true)
    (hr : noneFrom t.ctx [(.s 3, false)] = true) (hal : t.ctx.s3.toNat % 16 = 0) (hfull : entriesFull s t = false)
    (hctx : t.key.ctx ≠ 0) (hout : t.ctx.outst ≠ 15)
    (htr : translate s (.data t.bench (iuAt t)) t.key.asid (wantOf .ret t.ctx.sup) t.ctx.s3 = .ok p s1) :
    ∃ s' x, exec (.ret h) s = .next s' ∧ findThread s' t.key = some x ∧ x.wait = .ret ∧
      x.ctx = { t.ctx with pends := t.ctx.pends ||| 8, outst := t.ctx.outst + 1, wkind := x.ctx.wkind } ∧
      s'.flight.reqs = s.flight.reqs ++ [handed s t { newReq .ret t.ctx.s3 8 .b64 (.ret h) with dst := .s 3 } p] := by
  obtain ⟨hc, hq, -⟩ := (issues_iff _ _ _).mp hi
  let r : Req := { newReq .ret t.ctx.s3 8 .b64 (.ret h) with dst := .s 3 }
  let c : Ctx := { t.ctx with pends := t.ctx.pends ||| 8, outst := t.ctx.outst + 1 }
  have hc' : enteredCtx t.ctx r true true = c := by
    simp [enteredCtx, setPend, incOutst, pendMask, newReq, r, c]
  have hout' : t.ctx.outst + 1 ≠ 0 := by bv_omega
  have hf : findThread (entered s s1 t r p true true) t.key = some { t with ctx := c } :=
    hc' ▸ findThread_entered (current_find hc)
  have hquiet : quiet (entered s s1 t r p true true) { t with ctx := c } = true :=
    quiet_handed hq (l := [handed s t r p]) rfl (by simp [isUnrecorded, handed]) rfl rfl
  obtain ⟨x, hx, hwait, hline, hflight⟩ := retire_ret (h := h) hf hquiet hout'
  refine ⟨_, x, ?_, hx, hwait, hline, congrArg Flight.reqs hflight⟩
  refine (show exec (.ret h) s = execRet h s from rfl).trans
    (issue_body (priv := false) (regs := [(6, .s 3, false)]) hi hr nofun ?_)
  simp only [limited_of_ne hout, bne_eq_false_iff_eq.mpr ((extract_low4_eq_zero _).mpr hal), Bool.false_eq_true, if_false]
  exact submit_located hfull hctx htr (badKind_ret ..)

/-- Calls to a displacement and to a register, and the return. -/
theorem callReturn : Spec.CallReturn := by
  intro s t h hi h3
  refine ⟨fun disp => ?_, fun a ha hlt h4 => ?_, fun hal hfull hctx hout p s1 htr => ret_done hi h3 hal hfull hctx hout htr⟩
  · rw [← branchTarget_eq]
    exact call_done (regs := [(6, .s 3, false)]) (show exec (.call h disp) s = execCall h disp s from rfl) hi h3 rfl
  · refine call_done (regs := [(2, a, false), (6, .s 3, false)]) (show exec (.callr h a) s = execCallr h a s from rfl) hi ?_ ?_
    · obtain ⟨ha, -⟩ := (noneFrom_cons ..).mp ha
      exact (noneFrom_cons ..).mpr ⟨ha, h3⟩
    · simp only [badTarget_none hlt h4]
      rfl

/-! Bad targets and stack pointers (R139). -/

/-- The PC that a trap frame keeps below bit 57 of its first word (R33). -/
theorem savedPc_eq (w : Word) (pc : VAddr) :
    ((w &&& ~~~((BitVec.allOnes 57).setWidth 64)) ||| pc.setWidth 64).setWidth 57 = pc := by
  ext j hj
  simp

/-- An instruction whose body finds an address misaligned traps at itself, with the value and the reason (R139). -/
theorem misaligned_trapped {s : State} {t : Thread} {h : Hdr} {i : Instr} {regs : List (BitVec 8 × Opd × Bool)}
    {body : State → Thread → Did} {sp : Space} {reason : BitVec 8} {v : Word} (hx : exec i s = issue s i h false regs body)
    (hi : issues s t h = true) (hr : noneFrom t.ctx (regs.map (·.2)) = true) (hb : body s t = misaligned reason v)
    (hsp : findSpace s t.key.asid = some sp) (hin : t.ctx.intrap = false) (ho : t.ctx.outst = 0) :
    ∃ s' x, exec i s = .next s' ∧ findThread s' t.key = some x ∧ x.ctx.cause = 0x05 ∧ x.ctx.detail = reason ++ (0 : BitVec 16) ∧
      x.trap.tval = v ∧ x.ctx.pc = sp.tvec ++ (0 : BitVec 2) ∧ x.trap.saveW0.setWidth 57 = t.ctx.pc := by
  obtain ⟨s', he, htaken⟩ := issue_trap (i := i) (priv := false) hi hr nofun hb hsp hin rfl ho
  obtain ⟨x, hf, hcause, hdetail, -, -, -, hpc, -, -, -, -, -, -, -, -, -, -, -, -, -, -, htrap, -⟩ := htaken.line
  refine ⟨s', x, hx.trans he, hf, hcause, hdetail, ?_, hpc, ?_⟩
  · rw [htrap]
    rfl
  · rw [htrap]
    exact savedPc_eq ..

/-- Register targets of `JMP` and `CALLR`, and the stack pointer of `CALL` and `RET`. -/
theorem badTargets : Spec.BadTargets := by
  intro s t h a hi hr hin ho sp hsp trapped reason
  obtain ⟨ha, h3⟩ := (noneFrom_cons ..).mp hr
  have ha1 : noneFrom t.ctx [(a, false)] = true := (noneFrom_cons ..).mpr ⟨ha, rfl⟩
  refine ⟨fun hbad => ?_, fun hsp3 => ?_⟩
  · have hbt : badTarget (sVal s t a) = some reason := by
      rw [badTarget_eq]
      by_cases h4 : (sVal s t a).toNat % 4 ≠ 0
      · simp only [reason, if_pos h4]
      · simp only [reason, if_neg h4, if_pos (hbad.resolve_left h4)]
    refine ⟨misaligned_trapped (regs := [(2, a, false)]) (show exec (.jmp h a) s = execJmp h a s from rfl) hi ha1 ?_ hsp hin ho,
      misaligned_trapped (regs := [(2, a, false), (6, .s 3, false)]) (show exec (.callr h a) s = execCallr h a s from rfl) hi hr ?_
        hsp hin ho⟩
    · simp only [hbt]
    · simp only [hbt]
  · have hlow : (t.ctx.s3.extractLsb' 0 4 != 0) = true := bne_iff_ne.mpr fun h0 => hsp3 ((extract_low4_eq_zero _).mp h0)
    refine ⟨fun disp => misaligned_trapped (regs := [(6, .s 3, false)])
        (show exec (.call h disp) s = execCall h disp s from rfl) hi h3 ?_ hsp hin ho,
      misaligned_trapped (regs := [(6, .s 3, false)]) (show exec (.ret h) s = execRet h s from rfl) hi h3 ?_ hsp hin ho⟩
    · simp only [callTo, hlow, if_true]
    · have hout : t.ctx.outst ≠ 15 := by
        rw [ho]
        decide
      simp only [limited_of_ne hout, hlow, if_true]

/-- Settles O6: `callReturn` and `badTargets`. -/
theorem callsAndTargets : Obligations.CallsAndTargets := ⟨callReturn, badTargets⟩

end Sys2Proof.Machine
end

section
/-! SUPPORT. O9: lane moves between vectors and scalars, and masks (R158 to R160, R163). -/

namespace Sys2Proof.Machine
open Sys2Proof.Forms Sys2Proof.Spec

/-! Lanes given as functions of their number, and one lane replaced. -/

theorem laneOf_ofLanes_range {w n j : Nat} (f : Nat → BitVec w) (hw : w * n ≤ 128) (hj : j < n) :
    laneOf w (ofLanes w ((List.range n).map f)) j = f j := by
  rw [laneOf_ofLanes _ _ (by simpa using hw) _ (by simpa using hj), List.getElem_map, List.getElem_range]

/-- Bit `b` of lane `j` lies in lane `k` when they are the same lane. -/
theorem bit_in_lane_iff {w j k b : Nat} (hb : b < w) : (k * w ≤ j * w + b ∧ j * w + b - k * w < w) ↔ j = k := by
  rcases lt_trichotomy j k with h | rfl | h
  · have hmul : (j + 1) * w ≤ k * w := Nat.mul_le_mul_right w h
    rw [Nat.succ_mul] at hmul
    omega
  · omega
  · have hmul : (k + 1) * w ≤ j * w := Nat.mul_le_mul_right w h
    rw [Nat.succ_mul] at hmul
    omega

theorem laneOf_setLane {w n j k : Nat} (v : Vec) (x : BitVec w) (hw : w * n ≤ 128) (hj : j < n) :
    laneOf w (setLane w v k x) j = if j = k then x else laneOf w v j := by
  ext b hb
  have hlt : j * w + b < 128 := by
    have hmul : (j + 1) * w ≤ n * w := Nat.mul_le_mul_right w hj
    rw [Nat.succ_mul, Nat.mul_comm n] at hmul
    omega
  have hin := bit_in_lane_iff (j := j) (k := k) hb
  rw [← BitVec.getLsbD_eq_getElem, ← BitVec.getLsbD_eq_getElem, getLsbD_laneOf _ _ _ _ hb]
  simp only [setLane, BitVec.getLsbD_or, BitVec.getLsbD_and, BitVec.getLsbD_not, BitVec.getLsbD_shiftLeft, BitVec.getLsbD_setWidth,
    BitVec.getLsbD_allOnes, hlt, decide_true, Bool.true_and]
  by_cases hjk : j = k
  · subst hjk
    simp [hb, show b < 128 by omega]
  · rw [if_neg hjk, getLsbD_laneOf _ _ _ _ hb]
    by_cases hle : j * w + b < k * w
    · simp [hle]
    · have hge : w ≤ j * w + b - k * w := by omega
      simp [hle, Nat.not_lt.mpr hge, BitVec.getLsbD_of_ge x _ hge]

/-! Shapes whose lanes fill a vector (R59, R158). -/

theorem shapeNeed_fits {ty : Ty} {sh : Shape} (h : shapeNeed ty sh = true) : width ty * lanes sh ≤ 128 := by
  obtain ⟨-, hfull⟩ : _ ∧ _ := by simpa only [shapeNeed, Bool.and_eq_true] using h
  exact shape_fits (by rw [shapeOk, hfull, Bool.or_true])

theorem shuf_fits {x : Vec3} (h : WellFormed.shuf x = true) : width x.ty * lanes x.sh ≤ 128 := by
  simp only [WellFormed.shuf, Bool.and_eq_true] at h
  obtain ⟨⟨⟨⟨⟨-, hs⟩, -⟩, -⟩, -⟩, -⟩ := h
  exact shapeNeed_fits hs

theorem vins_fits {x : Vec2} (h : WellFormed.vins x = true) : width x.ty * lanes x.sh ≤ 128 := by
  simp only [WellFormed.vins, Bool.and_eq_true] at h
  obtain ⟨⟨⟨⟨-, hs⟩, -⟩, -⟩, -⟩ := h
  exact shapeNeed_fits hs

theorem lane1_fits {d a : Role} {x : Alu1} (h : WellFormed.lane1 d a x = true) : width x.ty * lanes x.sh ≤ 128 := by
  simp only [WellFormed.lane1, Bool.and_eq_true] at h
  obtain ⟨⟨⟨-, hs⟩, -⟩, -⟩ := h
  exact shapeNeed_fits hs

theorem vextTy_of_vext {x : Vec2} (h : WellFormed.vext x = true) : vextTy x.ty = true := by
  simp only [WellFormed.vext, Bool.and_eq_true] at h
  obtain ⟨⟨⟨⟨hty, -⟩, -⟩, -⟩, -⟩ := h
  exact hty

/-- An instruction that writes a vector, a scalar or a predicate whole completes with it. -/
theorem retired_of_setDst {s : State} {t : Thread} {h : Hdr} {i : Instr} {regs : List (BitVec 8 × Opd × Bool)}
    {body : State → Thread → Did} {d : Opd} {v : Vec} (hx : exec i s = issue s i h false regs body) (hi : issues s t h = true)
    (hr : noneFrom t.ctx (regs.map (·.2)) = true) (hb : body s t = finish s t (setDst t.ctx d false v)) :
    ∃ s', exec i s = .next s' ∧ Retired s s' t h (setDst t.ctx d false v) (t.ctx.pc + 12) :=
  retired_of_finish hx hi hr hb (setDst_keeps ..)

/-! Lane moves (R159, R160). -/

theorem shufLane_eq (w n : Nat) (a b c : Vec) (j : Nat) : shufLane w n a b c j =
    if (laneOf w c j).toNat.testBit (w - 1) then 0
    else if (laneOf w c j).toNat % (2 * n) < n then laneOf w a ((laneOf w c j).toNat % (2 * n))
    else laneOf w b ((laneOf w c j).toNat % (2 * n) - n) := by
  rw [shufLane, BitVec.msb_eq_getLsbD_last]
  rfl

theorem width_le_of_vextTy {ty : Ty} (h : vextTy ty = true) : width ty ≤ 64 := by
  revert h
  cases ty <;> decide

/-- A lane of at most 64 bits is extended to a scalar as its type reads it (R127). -/
theorem extend_lane {ty : Ty} (hw : width ty ≤ 64) (a : BitVec (width ty)) :
    extend ty (a.setWidth 128) = (BitVec.ofInt 64 (reading (signed ty) a)).setWidth 128 := by
  have hne : (width ty == 128) = false := beq_eq_false_iff_ne.mpr (by omega)
  have hback : (a.setWidth 128).setWidth (width ty) = a := by
    rw [BitVec.setWidth_setWidth_of_le _ (by omega), BitVec.setWidth_eq]
  simp only [extend, hne, Bool.false_eq_true, if_false, hback]
  cases signed ty with
  | true => rfl
  | false =>
    have hnat : BitVec.ofInt 64 (reading false a) = a.setWidth 64 := (BitVec.ofInt_natCast 64 _).trans (BitVec.ofNat_toNat ..)
    have hlt := a.isLt.trans_le (Nat.pow_le_pow_right Nat.zero_lt_two hw)
    rw [hnat]
    exact BitVec.eq_of_toNat_eq (by simp [Nat.mod_eq_of_lt hlt])

theorem wideOf_of_vextTy {ty : Ty} (h : vextTy ty = true) : wideOf ty .sc = false := by
  revert h
  cases ty <;> decide

theorem putInt_lane {ty : Ty} (hty : vextTy ty = true) (c : Ctx) (d : Opd) (a : BitVec (width ty)) :
    putInt c ty .sc d (a.setWidth 128) = setDst c d false ((BitVec.ofInt 64 (reading (signed ty) a)).setWidth 128) := by
  rw [← extend_lane (width_le_of_vextTy hty), ← wideOf_of_vextTy hty]
  rfl

/-- `SHUF`, `VEXT`, `VINS` and `VBC` by the lanes that they write. -/
theorem laneMoves : Spec.LaneMoves := by
  intro s t h hi
  refine ⟨fun x hw hf hc => ?_, fun x hf => ⟨fun hw => ?_, fun hw => ?_⟩, fun x hw hf => ?_⟩
  · obtain ⟨hd, ha, hb⟩ := free3_narrow hf
    obtain ⟨hc, -⟩ := (noneFrom_cons ..).mp hc
    obtain ⟨s', he, hret⟩ := retired_of_setDst (show exec (.shuf h x) s = execShuf h x s from rfl) hi
      (by simp [noneFrom, hd, ha, hb, hc]) rfl
    exact ⟨_, s', he, hret, fun j hj => (laneOf_ofLanes_range _ (shuf_fits hw) hj).trans (shufLane_eq ..)⟩
  · obtain ⟨hd, ha, hb⟩ := free3_narrow hf
    exact retired_of_setDst (show exec (.vext h x) s = execVext h x s from rfl) hi (by simp [noneFrom, hd, ha, hb])
      (congrArg (finish s t) (putInt_lane (vextTy_of_vext hw) ..))
  · obtain ⟨hd, ha, hb⟩ := free3_narrow hf
    obtain ⟨s', he, hret⟩ := retired_of_setDst (show exec (.vins h x) s = execVins h x s from rfl) hi
      (by simp [noneFrom, hd, ha, hb]) rfl
    exact ⟨_, s', he, hret, fun j hj => laneOf_setLane _ _ (vins_fits hw) hj⟩
  · obtain ⟨hd, ha, -⟩ := free3_narrow hf
    obtain ⟨s', he, hret⟩ := retired_of_setDst (show exec (.vbc h x) s = execVbc h x s from rfl) hi
      (by simp [noneFrom, hd, ha]) rfl
    exact ⟨_, s', he, hret, fun j hj => laneOf_splat _ (lane1_fits hw) hj⟩

/-! Masks (R163). -/

/-- A lane counts as set when its most significant bit is 1. -/
theorem maskBits_eq (w n : Nat) (v : Vec) : maskBits w n v = (List.range n).map fun j => (laneOf w v j).getLsbD (w - 1) := by
  simp only [maskBits, lanesOf, List.map_map, Function.comp_def, BitVec.msb_eq_getLsbD_last]

/-- A vector of lanes of one bit. -/
theorem getLsbD_ofLanes_bit (l : List Bool) {j : Nat} (hj : j < 128) :
    (ofLanes 1 (l.map bit)).getLsbD j = l[j]?.getD false := by
  induction l generalizing j with
  | nil => simp [ofLanes]
  | cons b l ih =>
    rw [List.map_cons, ofLanes, BitVec.getLsbD_or, BitVec.getLsbD_shiftLeft, BitVec.getLsbD_setWidth]
    cases j with
    | zero => simp [bit]
    | succ j => simp [hj, ih (show j < 128 by omega)]

theorem getLsbD_zero_bit (b : Bool) : ((bit b).setWidth 128).getLsbD 0 = b := by
  simp [bit]

/-- Bit `j` of the mask of a vector. -/
theorem getLsbD_ofLanes_maskBits (w n : Nat) (v : Vec) {j : Nat} (hj : j < 128) :
    (ofLanes 1 ((maskBits w n v).map bit)).getLsbD j = (decide (j < n) && (laneOf w v j).getLsbD (w - 1)) := by
  rw [getLsbD_ofLanes_bit _ hj, maskBits_eq, List.getElem?_map]
  by_cases h : j < n
  · simp [h]
  · simp [h]

theorem any_maskBits (w n : Nat) (v : Vec) :
    (maskBits w n v).any id = true ↔ ∃ j < n, (laneOf w v j).getLsbD (w - 1) = true := by
  simp [maskBits_eq]

theorem all_maskBits (w n : Nat) (v : Vec) :
    (maskBits w n v).all id = true ↔ ∀ j < n, (laneOf w v j).getLsbD (w - 1) = true := by
  simp [maskBits_eq]

/-- The forms of `VMSK`, each by its bits or lanes. -/
theorem vectorMasks : Spec.VectorMasks := by
  intro s t h x hi hr isSet done
  refine ⟨fun _ => ⟨_, retired_of_setDst (show exec (.vmskGet h x) s = execVmskGet h x s from rfl) hi hr rfl, fun j hj => ?_⟩,
    fun hw => ⟨_, retired_of_setDst (show exec (.vmskSet h x) s = execVmskSet h x s from rfl) hi hr rfl, fun j hj => ?_⟩,
    fun _ => ⟨_, retired_of_setDst (show exec (.vmskAny h x) s = execVmskAny h x s from rfl) hi hr rfl, ?_⟩,
    fun _ => ⟨_, retired_of_setDst (show exec (.vmskAll h x) s = execVmskAll h x s from rfl) hi hr rfl, ?_⟩⟩
  · exact getLsbD_ofLanes_maskBits _ _ _ hj
  · exact laneOf_ofLanes_range _ (lane1_fits hw) hj
  · rw [getLsbD_zero_bit]
    exact any_maskBits ..
  · rw [getLsbD_zero_bit]
    exact all_maskBits ..

/-- Settles O9: `laneMoves` and `vectorMasks`. -/
theorem laneMovesAndMasks : Obligations.LaneMovesAndMasks := ⟨laneMoves, vectorMasks⟩

end Sys2Proof.Machine
end

section
/-! Synchronising instructions, misaligned accesses and stores under a hold at issue (07_memory_instructions R169, R184, R192,
R193). -/

namespace Sys2Proof.Machine
open Sys2Proof.Forms Sys2Proof.Spec

/-! The synchronising class (R171, R184). -/

/-- The body of `syncWith`, aligned and below the limit, is its access (R24, R169). -/
theorem syncWith_asks {s : State} {t : Thread} {h : Hdr} {i : Instr} {op : ReqOp} {d : Opd} {m : MemOp} {pends counts : Bool}
    (hi : issues s t h = true) (he : exec i s = syncWith s i h op d m pends counts) :
    asks s t h i (memFree d false m) 8
      { newReq op (eaOf t.ctx m) 8 .b64 i with ord := .ar, dst := d, dat := opdVal s t 64 1 false d } pends counts := by
  refine asks_of_body hi he rfl fun hal hout _ => ?_
  cases counts with
  | false => exact aligned_of_mod hal _
  | true => exact limited_aligned hal (hout rfl) _

/-- The zero operand is never pending (R23). -/
theorem isPend_zero (c : Ctx) (w : Bool) : isPend c .zero w = false := by
  simp [isPend, pendMask]

/-- An instruction that names the zero operand asks for its access without it (R23). -/
theorem asks_of_zero {s : State} {t : Thread} {h : Hdr} {i : Instr} {w : Bool} {regs : List (Opd × Bool)} {al : Nat} {r : Req}
    {pends counts : Bool} (ha : asks s t h i ((.zero, w) :: regs) al r pends counts) : asks s t h i regs al r pends counts :=
  fun hr => ha ((noneFrom_cons ..).mpr ⟨isPend_zero _ _, hr⟩)

/-- Settles O12: each instruction is `syncWith` of its operation. -/
theorem syncIssue : Obligations.SyncIssue := by
  unfold Obligations.SyncIssue
  intro s t h hi
  refine ⟨fun x => ?_, fun m => ?_⟩
  · simp only [List.forall_mem_cons]
    exact ⟨syncWith_asks hi (show _ = execLde h x s from rfl), syncWith_asks hi (show _ = execLdc h x s from rfl),
      syncWith_asks hi (show _ = execQfe h x s from rfl), syncWith_asks hi (show _ = execStf h x s from rfl),
      syncWith_asks hi (show _ = execSts h x s from rfl), List.forall_mem_nil _⟩
  · have hsfe := syncWith_asks hi (show exec (.sfe h m) s = execSfe h m s from rfl)
    rw [show opdVal s t 64 1 false .zero = 0 from rfl] at hsfe
    exact asks_of_zero hsfe

/-! Misaligned accesses (R169). -/

/-- An address off its alignment is the trap, whatever access would follow (R169). -/
theorem aligned_trap {ea : Word} {n : Nat} (h : ea.toNat % n ≠ 0) (x : Did) : aligned ea n x = misaligned 0x04 ea := if_pos h

/-- With nothing outstanding the limit keeps nothing back (R24). -/
theorem limited_of_zero {s : State} {t : Thread} (h : t.ctx.outst = 0) (x : Did) : limited s t x = x :=
  limited_of_ne (by rw [h]; decide) x

/-- An instruction whose body, off its alignment, is the trap: it traps at issue (R33, R169). -/
theorem misalignedTrap_of_body {s : State} {t : Thread} {h : Hdr} {i : Instr} {l : List (BitVec 8 × Opd × Bool)}
    {regs : List (Opd × Bool)} {ea : Word} {n : Nat} {body : State → Thread → Did} (hi : issues s t h = true)
    (he : exec i s = issue s i h false l body) (hl : l.map (·.2) = regs)
    (hb : ea.toNat % n ≠ 0 → t.ctx.outst = 0 → body s t = misaligned 0x04 ea) : misalignedTrap s t i regs ea n := by
  intro hr hmis hin ho sp hsp
  subst hl
  rw [he]
  exact issue_trap (priv := false) (nx := false) hi hr nofun (hb hmis ho) hsp hin rfl ho

theorem casWith_misaligned {s : State} {t : Thread} {h : Hdr} {i : Instr} {x : Cas} (hi : issues s t h = true)
    (he : exec i s = casWith s i h x) :
    misalignedTrap s t i [(x.d, x.ty == .b128), (x.base, false), (x.b, x.ty == .b128)] (eaBase t.ctx x.base x.disp)
      (width x.ty / 8) :=
  misalignedTrap_of_body hi he (by rfl) fun hmis ho => (limited_of_zero ho _).trans (aligned_trap hmis _)

theorem syncWith_misaligned {s : State} {t : Thread} {h : Hdr} {i : Instr} {op : ReqOp} {d : Opd} {m : MemOp} {pends counts : Bool}
    (hi : issues s t h = true) (he : exec i s = syncWith s i h op d m pends counts) :
    misalignedTrap s t i (memFree d false m) (eaOf t.ctx m) 8 := by
  refine misalignedTrap_of_body hi he (by rfl) fun hmis ho => ?_
  cases counts with
  | false => exact aligned_trap hmis _
  | true => exact (limited_of_zero ho _).trans (aligned_trap hmis _)

/-- Settles O13: in each body the alignment comes first, behind the limit of outstanding results at most. -/
theorem misalignedAccess : Obligations.MisalignedAccess := by
  unfold Obligations.MisalignedAccess
  intro s t h hi
  refine ⟨fun x => ?_, fun x => ?_, fun x => ?_, fun x => ?_, fun x => ?_, fun x => ?_, fun x => ?_, fun m => ?_⟩
  · simp only [List.forall_mem_cons]
    exact ⟨misalignedTrap_of_body hi (by rfl) (by rfl) fun hmis ho => (limited_of_zero ho _).trans (aligned_trap hmis _),
      misalignedTrap_of_body hi (by rfl) (by rfl) fun hmis _ => aligned_trap hmis _, List.forall_mem_nil _⟩
  · exact misalignedTrap_of_body hi (by rfl) (by rfl) fun hmis ho => (limited_of_zero ho _).trans (aligned_trap hmis _)
  · simp only [List.forall_mem_cons]
    exact ⟨casWith_misaligned hi (show _ = execCas h x s from rfl), casWith_misaligned hi (show _ = execCas2 h x s from rfl), List.forall_mem_nil _⟩
  · exact misalignedTrap_of_body hi (by rfl) (by rfl) fun hmis _ => aligned_trap hmis _
  · exact misalignedTrap_of_body hi (by rfl) (by rfl) fun hmis ho => (limited_of_zero ho _).trans (aligned_trap hmis _)
  · exact misalignedTrap_of_body hi (by rfl) (by rfl) fun hmis _ => aligned_trap hmis _
  · simp only [List.forall_mem_cons]
    exact ⟨syncWith_misaligned hi (show _ = execLde h x s from rfl), syncWith_misaligned hi (show _ = execLdc h x s from rfl),
      syncWith_misaligned hi (show _ = execQfe h x s from rfl), syncWith_misaligned hi (show _ = execStf h x s from rfl),
      syncWith_misaligned hi (show _ = execSts h x s from rfl), List.forall_mem_nil _⟩
  · exact fun hr => syncWith_misaligned hi (show _ = execSfe h m s from rfl) ((noneFrom_cons ..).mpr ⟨isPend_zero _ _, hr⟩)

/-! Stores under a hold, and the end of a hold (R192, R193). -/

theorem modifyFirst_of_find {α : Type} {p : α → Bool} {f : α → α} {l : List α} {x : α} (h : l.find? p = some x) :
    modifyFirst p f l = modifyFirst p (fun _ => f x) l := by
  induction l with
  | nil => rfl
  | cons y l ih =>
    by_cases hy : p y = true
    · rw [List.find?_cons_of_pos hy] at h
      cases h
      simp only [modifyFirst, hy, if_true]
    · rw [List.find?_cons_of_neg hy] at h
      simp only [modifyFirst, hy, Bool.false_eq_true, if_false, ih h]

/-- A change of a thread that keeps its key replaces its line. -/
theorem onThread_eq_setThread {s : State} {t : Thread} {f : Thread → Thread} (h : findThread s t.key = some t)
    (hf : (f t).key = t.key) : onThread s t.key f = setThread s (f t) := by
  unfold onThread setThread
  rw [modifyFirst_of_find h, hf]

/-- `HST` without a valid hold writes its predicate 0 and stores nothing (R192). -/
theorem hst_noHold {s : State} {t : Thread} {h : Hdr} {x : Hst} (hi : issues s t h = true) (hfull : entriesFull s t = false)
    (hr : noneFrom t.ctx (memFree x.d (x.ty == .b128) x.mem) = true) (hal : (eaOf t.ctx x.mem).toNat % (width x.ty / 8) = 0)
    (hh : holdOn s t.key (eaOf t.ctx x.mem) = none) :
    ∃ s', exec (.hst h x) s = .next s' ∧ Retired s s' t h (setP t.ctx x.px false) (t.ctx.pc + 12) := by
  unfold exec execHst
  refine issue_regs (priv := false) (regs := memRegs x.d (x.ty == .b128) x.mem) hi hr nofun ?_ (setP_frz ..) (setP_step ..)
  refine (aligned_of_mod hal _).trans ?_
  simp only [hfull, Bool.false_eq_true, if_false, hh]

/-- `HST` under a valid hold writes its predicate 1 and keeps its bytes with the hold (R192). -/
theorem hst_underHold {s : State} {t : Thread} {h : Hdr} {x : Hst} {b u i : Nat} {r : HoldReg} (hi : issues s t h = true)
    (hfull : entriesFull s t = false) (hr : noneFrom t.ctx (memFree x.d (x.ty == .b128) x.mem) = true)
    (hal : (eaOf t.ctx x.mem).toNat % (width x.ty / 8) = 0) (hh : holdOn s t.key (eaOf t.ctx x.mem) = some (b, u, i, r))
    (hiso : ∀ sp, findSpace s t.key.asid = some sp → isolated sp (eaOf t.ctx x.mem).toNat = false)
    (hn : noneBefore s t { newReq .st (eaOf t.ctx x.mem) (width x.ty / 8) x.ty (.hst h x) with
      dst := x.d, dat := data s t x.ty x.d } (heldAt r (eaOf t.ctx x.mem))) :
    ∃ s', exec (.hst h x) s = .next s' ∧
      Retired (holdPut s t.key (heldAt r (eaOf t.ctx x.mem)) (width x.ty / 8) (data s t x.ty x.d)) s' t h
        (setP t.ctx x.px true) (t.ctx.pc + 12) := by
  have hf := current_find ((issues_iff _ _ _).mp hi).1
  unfold exec execHst
  refine issue_on (priv := false) (regs := memRegs x.d (x.ty == .b128) x.mem) hi hr nofun ?_ hf rfl (setP_frz ..) (setP_step ..)
  refine (aligned_of_mod hal _).trans ?_
  simp only [hfull, Bool.false_eq_true, if_false, hh, dataOf_eq]
  refine (underHold_now hiso hn).trans ?_
  exact congrArg (Did.done · _ _) (onThread_eq_setThread (s := holdPut s t.key _ _ _) hf rfl)

/-- `HREL` hands over the end of the hold, with no translation (R193). -/
theorem hrel_handed {s : State} {t : Thread} {h : Hdr} {x : MemO} (hi : issues s t h = true) (hfull : entriesFull s t = false)
    (hr : noneFrom t.ctx [(x.mem.base, false), (x.mem.idx, false)] = true) :
    ∃ s', exec (.hrel h x) s = .next s' ∧ Handed s s' s t h t.ctx (t.ctx.pc + 12)
      [entry s t { newReq .hrel (eaOf t.ctx x.mem) 0 .b64 (.hrel h x) with ord := x.ord, scp := x.scp }] := by
  unfold exec execHrel
  exact issue_enter (priv := false) (regs := [(2, x.mem.base, false), (3, x.mem.idx, false)]) (pends := false) (counts := false)
    hi hr nofun (by simp only [hfull, Bool.false_eq_true, if_false]) rfl

/-- Settles O14: `hst_noHold`, `hst_underHold` and `hrel_handed`. -/
theorem holdStore : Obligations.HoldStore := by
  unfold Obligations.HoldStore
  intro s t h hi hfull
  refine ⟨?_, fun x hr => hrel_handed hi hfull hr⟩
  intro x ea n hr hal
  exact ⟨fun hh => hst_noHold hi hfull hr hal hh, fun b u i r hh hiso hn => hst_underHold hi hfull hr hal hh hiso hn⟩

end Sys2Proof.Machine
end

section
/-! Stores, adds into D copies and flushes are performed (07_memory_instructions R173, R197 to R199, R279). -/

namespace Sys2Proof.Machine
open Sys2Proof.Forms Sys2Proof.Spec

/-! One attempt of a request whose place is known. -/

theorem attempt_located {s : State} {r : Req} {p : Phys} (hmay : mayPerform s r = true) (hpa : r.pa = some p) :
    attempt s r = .ok (attemptAt s r p) := by
  have htry : (triable r && canPerform s r) = true := by
    unfold mayPerform at hmay
    simp only [Bool.and_eq_true] at hmay ⊢
    exact hmay.1.1
  unfold attempt
  rw [htry, hpa]
  rfl

/-- `STORE_PERFORM` of a store, an `ADDD` or a `CFLUSH` whose place is known is one attempt there. -/
theorem storePerform_attempt {s : State} {r : Req} {p : Phys} (hl : findReq s r.id = some r) (hmay : mayPerform s r = true)
    (hpa : r.pa = some p) (hop : r.op = .st ∨ (∃ op, r.op = .addd op) ∨ r.op = .cflush) :
    exec (.storePerform r.id) s = .next (attemptAt s r p) := by
  have hperf : performReq s r = attempt s r := by
    unfold performReq
    rw [hmay]
    rcases hop with e | ⟨op, e⟩ | e <;> rw [e] <;> rfl
  have hstore : isStoreOp r.op = true := by
    rcases hop with e | ⟨op, e⟩ | e <;> rw [e] <;> rfl
  show execStorePerform r.id s = _
  unfold execStorePerform
  rw [hl]
  simp only [hstore, if_true, hperf, attempt_located hmay hpa, sentOut]

/-! The end of an access without a result. -/

theorem accessWork_of_caches {s s' : State} (h : CacheWork s s') (g : OnlyTells s s') : AccessWork s s' :=
  ⟨h.threads, h.flight, h.spaces, h.mmu, h.eng, h.queues, g.fw, h.pkg⟩

/-- What the caches do after an access changes nothing that `Around` names. -/
theorem around_cachesAfter (s : State) (r : Req) : Around s (cachesAfter s r) := by
  rw [cachesAfter_parts]
  exact ⟨rfl, rfl, rfl, rfl, rfl, rfl⟩

theorem around_dropReq (s : State) (id : Nat) : Around s (dropReq s id) := ⟨rfl, rfl, rfl, rfl, rfl, rfl⟩

theorem cachesAfter_threads (s : State) (r : Req) : (cachesAfter s r).threads = s.threads := by rw [cachesAfter_parts]

theorem cachesAfter_flight (s : State) (r : Req) : (cachesAfter s r).flight = s.flight := by rw [cachesAfter_parts]

/-- The operations without a result or an acknowledgement that a line's home or a bench performs (R171). -/
def isQuietOp (o : ReqOp) : Prop := o = .st ∨ (∃ op, o = .addd op) ∨ o = .cflush ∨ o = .sts ∨ o = .sfe

/-- The access has ended with no line changed: its request is gone, and memory is `m` (R171). -/
structure EndsQuietly (s s' : State) (r : Req) (m : Mem) : Prop where
  threads : s'.threads = s.threads
  gone : findReq s' r.id = none
  around : Around s s'
  mem : s'.mem = m

theorem findReq_cachesAfter_drop (s : State) (r : Req) : findReq (cachesAfter (dropReq s r.id) r) r.id = none := by
  unfold findReq
  rw [cachesAfter_flight]
  exact findReq_drop s r.id

/-- After its work, an access without a result ends (R171). -/
theorem complete_endsQuietly {s s1 : State} {r : Req} (v : Vec) (ht : s1.threads = s.threads) (ha : Around s s1) (hri : r.ri = none)
    (hop : isQuietOp r.op) : EndsQuietly s (complete s1 r v) r s1.mem := by
  rw [complete_quiet s1 r v hri hop]
  exact ⟨(cachesAfter_threads _ _).trans ht, findReq_cachesAfter_drop s1 r,
    around_trans ha (around_trans (around_dropReq s1 r.id) (around_cachesAfter _ r)), cachesAfter_mem _ _⟩

/-- What such an access reads is as it is: only loads see the ranges that hardware keeps (R12). -/
theorem seen_of_quiet {s : State} {r : Req} (v : Vec) (hop : isQuietOp r.op) : seen s r v = v := by
  unfold seen
  rcases hop with e | ⟨op, e⟩ | e | e | e <;> rw [e]

/-- An attempt at an access without a result that is done in one piece ends it. -/
theorem attemptAt_endsQuietly {s s1 : State} {r : Req} {p : Phys} {v : Vec} (hs : splits r p = false)
    (hacc : access s r p = .done s1 v) (hw : AccessWork s s1) (hri : r.ri = none) (hop : isQuietOp r.op) :
    EndsQuietly s (attemptAt s r p) r s1.mem := by
  have hat : attemptAt s r p = complete s1 r v := by
    unfold attemptAt
    rw [hs, hacc]
    show complete s1 r (seen s1 r v) = _
    rw [seen_of_quiet v hop]
  rw [hat]
  exact complete_endsQuietly v hw.threads hw.around hri hop

/-! Stores (R173, R279). -/

/-- With no hold on its line, a write of a thread takes the place of no stored bytes. -/
theorem overHold_free {s : State} {k : Key} {p : Phys} (n : Nat) (h : lineHold s (lineOf p) = none) : overHold s k p n = s := by
  unfold overHold
  rw [h]
  rfl

/-- A store to an open device line writes its bytes (R173). -/
theorem store_open {s : State} {r : Req} {a : Nat} (h : LineOpen s r.id a) (hop : r.op = .st) :
    ∃ s1, access s r (.dev a) = .done s1 0 ∧ AccessWork s s1 ∧ s1.mem = physWrite s.mem (.dev a) r.n r.dat := by
  let s1 := obtain s r.bench (lineOf (.dev a)) .write
  have hw : CacheWork s s1 := obtain_work _ _ _ _
  have hover : overHold s1 r.key (.dev a) r.n = s1 := overHold_free _ ((lineHold_of_ius hw.ius _).trans h.free)
  refine ⟨writeBy s1 r.bench r.iu (.dev a) r.n r.dat, ?_, (accessWork_obtain _ _ _ _).trans (accessWork_writeBy _ _ _ _ _ _), ?_⟩
  · rw [access_open h (by rw [hop]; rfl)]
    unfold accessCached
    simp only [hop]
    rw [hover]
  · show physWrite s1.mem (.dev a) r.n r.dat = _
    rw [(hw.mem h.deltas).1]

/-- A half of a split store writes its 8 bytes in the line of the store (R279). -/
theorem store_half {s : State} {r : Req} {a i : Nat} (h : LineOpen s r.id a) (hop : r.op = .st) (hf : a % 128 + 16 ≤ 128) (hi : i < 2) :
    ∃ s1, access s (halfReq r i) (physAdd (.dev a) (8 * i)) = .done s1 0 ∧ AccessWork s s1 ∧
      s1.mem = physWrite s.mem (.dev (a + 8 * i)) 8 (r.dat >>> (64 * i)) :=
  store_open (r := halfReq r i) (lineOpen_add h (by omega)) hop

/-- A store that is performed at once (R173). -/
theorem store_whole {s : State} {t : Thread} {r : Req} {a : Nat} (h : Plain s t r a) (hop : r.op = .st)
    (hs : splits r (.dev a) = false) :
    ∃ s', exec (.storePerform r.id) s = .next s' ∧ EndsQuietly s s' r (physWrite s.mem (.dev a) r.n r.dat) := by
  obtain ⟨s1, hacc, hw, hm⟩ := store_open (lineOpen_plain h) hop
  exact ⟨_, storePerform_attempt h.listed h.may h.place (.inl hop),
    hm ▸ attemptAt_endsQuietly hs hacc hw h.unrecorded (.inl hop)⟩

/-- The first half of a split store is written, and the request keeps which one it was (R175, R279). -/
theorem store_firstHalf {s : State} {t : Thread} {r : Req} {a : Nat} (h : Plain s t r a) (hop : r.op = .st)
    (hs : splits r (.dev a) = true) (hn : r.half = none) :
    ∃ i, i < 2 ∧ ∃ s', exec (.storePerform r.id) s = .next s' ∧ s'.threads = s.threads ∧ Around s s' ∧
      s'.mem = physWrite s.mem (.dev (a + 8 * i)) 8 (r.dat >>> (64 * i)) ∧ findReq s' r.id = some { r with half := some (i, 0) } := by
  have hf : a % 128 + 16 ≤ 128 := splits_n hs ▸ h.fits
  have hi : Config.freePick s.run.fresh % 2 < 2 := Nat.mod_lt _ (by decide)
  obtain ⟨s1, hacc, hw, hm⟩ :=
    store_half (i := Config.freePick s.run.fresh % 2) (lineOpen_fresh (n := s.run.fresh + 1) (lineOpen_plain h)) hop hf hi
  have hat : attemptAt s r (.dev a) =
      putReq (leaveTurns s1 (some (.req r.id))) { r with half := some (Config.freePick s.run.fresh % 2, 0) } := by
    unfold attemptAt
    rw [hs, hn]
    simp only [Bool.not_true, Bool.false_eq_true, if_false, hacc]
  have hlisted : findReq (leaveTurns s1 (some (.req r.id))) r.id = some r := by
    unfold findReq leaveTurns
    rw [hw.flight]
    exact h.listed
  refine ⟨_, hi, _, storePerform_attempt h.listed h.may h.place (.inl hop), ?_⟩
  rw [hat]
  exact ⟨hw.threads, ⟨hw.around.spaces, hw.around.mmu, hw.around.eng, hw.around.queues, hw.around.fw, hw.around.pkg⟩, hm,
    findReq_putReq hlisted rfl⟩

/-- The other half is written, and the store ends (R279). -/
theorem store_secondHalf {s : State} {t : Thread} {r : Req} {a i : Nat} {v : Vec} (h : Plain s t r a) (hop : r.op = .st)
    (hs : splits r (.dev a) = true) (hi : i < 2) (hh : r.half = some (i, v)) :
    ∃ s', exec (.storePerform r.id) s = .next s' ∧
      EndsQuietly s s' r (physWrite s.mem (.dev (a + 8 * (1 - i))) 8 (r.dat >>> (64 * (1 - i)))) := by
  have hf : a % 128 + 16 ≤ 128 := splits_n hs ▸ h.fits
  obtain ⟨s1, hacc, hw, hm⟩ := store_half (i := 1 - i) (lineOpen_plain h) hop hf (by omega)
  have hat : attemptAt s r (.dev a) = complete s1 r (joinHalves i v 0) := by
    unfold attemptAt
    rw [hs, hh]
    simp only [Bool.not_true, Bool.false_eq_true, if_false, hacc]
    show complete s1 r (seen s1 r _) = _
    rw [seen_of_quiet _ (.inl hop)]
  refine ⟨_, storePerform_attempt h.listed h.may h.place (.inl hop), ?_⟩
  rw [hat, ← hm]
  exact complete_endsQuietly _ hw.threads hw.around h.unrecorded (.inl hop)

/-! `CFLUSH` (R199). -/

@[simp] theorem tellEvict_l1 (s : State) (p : Phys) (x : L2State) : (tellEvict s p x).cache.l1 = s.cache.l1 := by
  unfold tellEvict
  split
  · rfl
  · split <;> rfl

@[simp] theorem llcDrop_l1 (s : State) (p : Phys) : (llcDrop s p).cache.l1 = s.cache.l1 := by simp [llcDrop]

@[simp] theorem llcRoom_l1 (s : State) (p : Phys) : (llcRoom s p).cache.l1 = s.cache.l1 := by
  unfold llcRoom
  dsimp only
  split
  · rfl
  · split
    · rw [llcDrop_l1]
    · rfl

@[simp] theorem llcPut_l1 (s : State) (a : Nat) (d : Bool) : (llcPut s a d).cache.l1 = s.cache.l1 := by
  unfold llcPut
  dsimp only
  split
  · rfl
  · exact llcRoom_l1 _ _

theorem not_mem_l1Drop {s : State} {line : Phys} {x : L1Line} (hx : x ∈ (l1Drop s none line).cache.l1) : x.line ≠ line := by
  have := (List.mem_filter.mp hx).2
  simpa using this

/-- Giving up a device line is work of the caches (R199). -/
theorem giveUp_dev_work (s : State) (a : Nat) : CacheWork s (giveUp s (.dev a)) ∧ OnlyTells s (giveUp s (.dev a)) := by
  let s1 := l1Drop (l2DropOthers (mergeLine s (.dev a)) none (.dev a)) none (.dev a)
  have hc : CacheWork s s1 := ((cacheWork_mergeLine _ _).trans (cacheWork_l2DropOthers _ _ _)).trans (cacheWork_l1Drop _ _ _)
  have hfw : s1.fw = s.fw := (l2DropOthers_fw _ _ _).trans (mergeLine_fw _ _)
  let s2 : State := { s1 with cache := { s1.cache with llc := s1.cache.llc.filter fun x => x.addr != a } }
  have h2 : CacheWork s1 s2 := ⟨rfl, rfl, rfl, rfl, rfl, rfl, rfl, rfl, fun h => ⟨rfl, h⟩⟩
  exact ⟨(hc.trans h2).trans (cacheWork_dirPut s2 a), onlyTells_of_fw hfw⟩

/-- A flush of a device line is work of the caches, to every scope (R199). -/
theorem flushLine_dev_work (s : State) (b u : Nat) (scp : Scope) (a : Nat) :
    CacheWork s (flushLine s b u scp (.dev a)) ∧ OnlyTells s (flushLine s b u scp (.dev a)) := by
  cases scp with
  | bench => exact ⟨⟨rfl, rfl, rfl, rfl, rfl, rfl, rfl, rfl, fun h => ⟨rfl, h⟩⟩, onlyTells_of_fw rfl⟩
  | dev =>
    let s1 := l1Drop (l2DropOthers (mergeLine s (.dev a)) (some llcAgent) (.dev a)) none (.dev a)
    have hc : CacheWork s s1 := ((cacheWork_mergeLine _ _).trans (cacheWork_l2DropOthers _ _ _)).trans (cacheWork_l1Drop _ _ _)
    have hfw : (dirPut s1 a).fw = s.fw := (l2DropOthers_fw _ _ _).trans (mergeLine_fw _ _)
    exact ⟨(hc.trans (cacheWork_dirPut s1 a)).trans (cacheWork_llcPut _ _ _),
      (onlyTells_of_fw hfw).trans (onlyTells_llcPut _ _ _)⟩
  | sys => exact giveUp_dev_work s a

/-- A flush at device scope leaves the line in no data L1 (R199). -/
theorem flushLine_dev_l1 {s : State} {b u a : Nat} {x : L1Line} (hx : x ∈ (flushLine s b u .dev (.dev a)).cache.l1) :
    x.line ≠ .dev a := by
  have h1 : (flushLine s b u .dev (.dev a)).cache.l1 =
      (l1Drop (l2DropOthers (mergeLine s (.dev a)) (some llcAgent) (.dev a)) none (.dev a)).cache.l1 := llcPut_l1 _ _ _
  rw [h1] at hx
  exact not_mem_l1Drop hx

theorem mem_l1_acquireFor {s : State} {r : Req} {x : L1Line} (hx : x ∈ (acquireFor s r).cache.l1) : x ∈ s.cache.l1 := by
  unfold acquireFor at hx
  dsimp only at hx
  split at hx
  · split at hx
    · exact (List.mem_filter.mp (List.mem_filter.mp hx).1).1
    · exact (List.mem_filter.mp hx).1
  · exact (List.mem_filter.mp hx).1

/-- After a flush no line enters a data L1 (R174). -/
theorem mem_l1_cachesAfter {s : State} {r : Req} {x : L1Line} (hop : r.op = .cflush) (hx : x ∈ (cachesAfter s r).cache.l1) :
    x ∈ s.cache.l1 := by
  have hacq : x ∈ (if freshens r then acquireFor s r else s).cache.l1 → x ∈ s.cache.l1 := by
    split
    · exact mem_l1_acquireFor
    · exact id
  unfold cachesAfter at hx
  rw [hop] at hx
  dsimp only at hx
  split at hx
  · exact hacq hx
  · exact hacq hx

/-- `CFLUSH` is performed: memory stays, and at device scope no data L1 keeps the line (R199). -/
theorem cflush_performed {s : State} {t : Thread} {r : Req} {a : Nat} (h : Plain s t r a) (hop : r.op = .cflush) :
    ∃ s', exec (.storePerform r.id) s = .next s' ∧ EndsQuietly s s' r s.mem ∧
      (r.scp = .dev → ∀ x ∈ s'.cache.l1, x.line ≠ lineOf (.dev a)) := by
  let s1 := flushLine s r.bench r.iu r.scp (lineOf (.dev a))
  obtain ⟨hw, htell⟩ := flushLine_dev_work s r.bench r.iu r.scp (a / 128 * 128)
  have hacc : access s r (.dev a) = .done s1 0 := by
    rw [access_open (lineOpen_plain h) (by rw [hop]; rfl)]
    unfold accessCached
    simp only [hop]
    rfl
  have hs : splits r (.dev a) = false := by simp [splits, hop]
  have hq : isQuietOp r.op := .inr (.inr (.inl hop))
  refine ⟨_, storePerform_attempt h.listed h.may h.place (.inr (.inr hop)),
    (hw.mem h.deltas).1 ▸ attemptAt_endsQuietly hs hacc (accessWork_of_caches hw htell) h.unrecorded hq, fun hscp x hx => ?_⟩
  have hat : attemptAt s r (.dev a) = cachesAfter (dropReq s1 r.id) r := by
    unfold attemptAt
    rw [hs, hacc]
    exact complete_quiet _ _ _ h.unrecorded hq
  rw [hat] at hx
  have hx1 : x ∈ s1.cache.l1 := mem_l1_cachesAfter (s := dropReq s1 r.id) hop hx
  rw [show s1 = flushLine s r.bench r.iu .dev (.dev (a / 128 * 128)) by rw [← hscp]; rfl] at hx1
  exact flushLine_dev_l1 hx1

/-! `ADDD` into a D copy (R197, R198). -/

theorem cachesAfter_dsums (s : State) (r : Req) : (cachesAfter s r).cache.dsums = s.cache.dsums := by
  have hacq : (acquireFor s r).cache.dsums = s.cache.dsums := by
    unfold acquireFor
    dsimp only
    split
    · split <;> rfl
    · rfl
  have hrenew : (renewFor s r).cache.dsums = s.cache.dsums := by
    unfold renewFor
    split <;> rfl
  have hdrop : ∀ s1 : State, (if isRel r then dropStale s1 else s1).cache.dsums = s1.cache.dsums := fun s1 => by
    split <;> rfl
  unfold cachesAfter
  dsimp only
  rw [hdrop]
  split
  · exact hrenew
  · split
    · exact hacq
    · rfl

/-- The D copy that an `ADDD` begins on a word without one (R197, R287). -/
def firstDelta (r : Req) (op : AOp) (a : Nat) : DSum :=
  { bench := r.bench, addr := .dev a, op := op, ty := r.ty
    sum := (amoOper op r.ty ((deltaZero op r.ty).setWidth 128) ((r.dat.setWidth 64).setWidth 128)).setWidth 64 }

/-- The first add into a line's D copies begins the one of its bench (R287). -/
theorem deltaAdd_first {s : State} (h : s.cache.dsums = []) (r : Req) (op : AOp) (a : Nat) :
    (deltaAdd s r.bench (.dev a) op r.ty (r.dat.setWidth 64)).cache.dsums = [firstDelta r op a] := by
  simp [deltaAdd, h, upsert, firstDelta]

/-- `ADDD` is performed: it begins a D copy, and memory stays until the merge (R197, R198). -/
theorem addd_performed {s : State} {t : Thread} {r : Req} {a : Nat} {op : AOp} (h : Plain s t r a) (hop : r.op = .addd op) :
    ∃ s', exec (.storePerform r.id) s = .next s' ∧ EndsQuietly s s' r s.mem ∧ s'.cache.dsums = [firstDelta r op a] := by
  let s0 := obtain s r.bench (lineOf (.dev a)) .delta
  let s1 := deltaAdd s0 r.bench (.dev a) op r.ty (r.dat.setWidth 64)
  have hwork : CacheWork s s0 := obtain_work _ _ _ _
  obtain ⟨hm, hd⟩ := hwork.mem h.deltas
  have hadd : AccessWork s0 s1 := ⟨rfl, rfl, rfl, rfl, rfl, rfl, rfl, rfl⟩
  have hacc : access s r (.dev a) = .done s1 0 := by
    rw [access_open (lineOpen_plain h) (by rw [hop]; rfl)]
    unfold accessCached
    simp only [hop, h.free, Option.isSome_none, Bool.false_eq_true, if_false, isDev, if_true]
    rfl
  have hs : splits r (.dev a) = false := by simp [splits, hop]
  have hq : isQuietOp r.op := .inr (.inl ⟨op, hop⟩)
  have hend : EndsQuietly s (attemptAt s r (.dev a)) r s1.mem :=
    attemptAt_endsQuietly hs hacc ((accessWork_obtain _ _ _ _).trans hadd) h.unrecorded hq
  refine ⟨_, storePerform_attempt h.listed h.may h.place (.inr (.inl ⟨op, hop⟩)), (show s1.mem = s.mem from hm) ▸ hend, ?_⟩
  have hat : attemptAt s r (.dev a) = cachesAfter (dropReq s1 r.id) r := by
    unfold attemptAt
    rw [hs, hacc]
    exact complete_quiet _ _ _ h.unrecorded hq
  rw [hat, cachesAfter_dsums]
  exact deltaAdd_first hd r op a

/-- Settles O33: `store_whole` and the two halves, `cflush_performed`, `addd_performed`. -/
theorem storesPerform : Obligations.StoresPerform := by
  unfold Obligations.StoresPerform
  intro s t r a h _
  refine ⟨fun hop => ?_, fun hop => ?_, fun op hop => ?_⟩
  · intro wrote
    refine ⟨fun hs => ?_, fun hs hn => ?_, fun i v hs hi hh => ?_⟩
    · obtain ⟨s', he, q⟩ := store_whole h hop hs
      exact ⟨s', he, q.threads, q.around, q.mem, q.gone⟩
    · exact store_firstHalf h hop hs hn
    · obtain ⟨s', he, q⟩ := store_secondHalf h hop hs hi hh
      exact ⟨s', he, q.threads, q.around, q.mem, q.gone⟩
  · obtain ⟨s', he, q, hl1⟩ := cflush_performed h hop
    exact ⟨s', he, q.threads, q.gone, q.around, q.mem, hl1⟩
  · obtain ⟨s', he, q, hd⟩ := addd_performed h hop
    exact ⟨s', he, q.threads, q.gone, q.around, q.mem, _, hd ▸ List.mem_cons_self, rfl, rfl, rfl, rfl, rfl⟩

end Sys2Proof.Machine
end

section
/-! O35 fails: the clause that a store to a held line is not performed does not ask that the store lies in one line. One half of a
128-bit store is an access of its own (R279), and the second half of one that runs over the end of its line is performed on the next
line, which nobody holds. `ST` never makes such a store (R169). -/

namespace Sys2Proof.Machine
open Sys2Proof.Forms Sys2Proof.Spec

/-- A 16-byte store of a thread from the last 8 bytes of line 0 on, with its first half performed. -/
def crossingStore : Req :=
  { id := 1, key := fetchThread.key, bench := 0, iu := 0, op := .st, va := 120, n := 16, ty := .b128, ord := .rlx, scp := .dev
    pa := some (.dev 120), half := some (0, 0) }

/-- Another thread's hold on line 0. -/
def lineZeroHold : HoldReg := { key := ⟨1, 2⟩, line := .dev 0, granted := 0 }

/-- The reset state with the thread, its store, and the hold in a register of the thread's IU. -/
def crossingState : State :=
  { State.reset with
    threads := [fetchThread]
    flight := { reqs := [crossingStore] }
    ius := [{ bench := 0, iu := 0, holds := some lineZeroHold :: List.replicate 7 none }] }

/-- The line of the second half is open to the store. -/
theorem crossing_nextLine : LineOpen crossingState (halfReq crossingStore 1).id 128 := by
  constructor <;> decide +kernel

/-- The second half is performed and the store is gone, though the line of its first half is held. -/
theorem crossing_performed : ∃ s', exec (.storePerform crossingStore.id) crossingState = .next s' ∧
    findReq s' crossingStore.id = none := by
  obtain ⟨s1, hacc, hw, -⟩ := store_open (r := halfReq crossingStore 1) crossing_nextLine rfl
  have hacc : access crossingState (halfReq crossingStore (1 - 0)) (physAdd (.dev 120) (8 * (1 - 0))) = .done s1 0 := hacc
  have hat : attemptAt crossingState crossingStore (.dev 120) = complete s1 crossingStore (joinHalves 0 0 0) := by
    unfold attemptAt
    rw [show splits crossingStore (.dev 120) = true by decide, show crossingStore.half = some (0, 0) from rfl]
    simp only [Bool.not_true, Bool.false_eq_true, if_false, hacc]
    rfl
  refine ⟨_, storePerform_attempt (by decide +kernel) (by decide +kernel) rfl (.inl rfl), ?_⟩
  rw [hat]
  exact (complete_endsQuietly (s := crossingState) _ hw.threads hw.around rfl (.inl rfl)).gone

/-- Refutes O35 by its clause on stores to a held line: `crossing_performed`. -/
theorem not_holdEvents : ¬ Obligations.HoldEvents := by
  unfold Obligations.HoldEvents
  intro h
  obtain ⟨-, hkept, -⟩ := h crossingState fetchThread crossingStore 120
  obtain ⟨s', he, -, -, -, -, hstill⟩ := hkept lineZeroHold (by decide +kernel) rfl rfl (by decide +kernel) (by decide +kernel)
    (by decide +kernel) (by decide)
  obtain ⟨s2, he2, hgone⟩ := crossing_performed
  have hs : s' = s2 := Host.Outcome.next.inj (he.symm.trans he2)
  rw [hs, hgone] at hstill
  cases hstill

end Sys2Proof.Machine
end

section
/-! Synchronising words and barrier words at their home, where nobody waits (07_memory_instructions R184 to R187; R265, R266). -/

namespace Sys2Proof.Machine
open Sys2Proof.Forms Sys2Proof.Spec

/-! The line of a thread takes the end of an access. -/

/-- A thread whose line can take the end of its access: it runs in a CL1, and nothing else is due on its line. -/
structure Takes (s : State) (t : Thread) (r : Req) : Prop where
  thread : findThread s r.key = some t
  cl1 : inCl1 t = true
  pend : t.pend = none
  frz : t.ctx.frz = false
  cancel : t.cancel = false
  sane : fatalRec t.trap = none
  kept : ∀ q ∈ s.flight.reqs, q.key = r.key → isUnrecorded q = false

theorem takes_plain {s : State} {t : Thread} {r : Req} {a : Nat} (h : Plain s t r a) : Takes s t r :=
  ⟨h.thread, h.cl1, h.pend, h.frz, h.cancel, h.sane, h.kept⟩

theorem Takes.key {s : State} {t : Thread} {r : Req} (h : Takes s t r) : r.key = t.key := (findThread_key h.thread).symm

/-- Work before an access ends: threads, requests and waiters are as they were, and so is all that `Around` names. -/
structure HomeWork (s s' : State) : Prop where
  threads : s'.threads = s.threads
  reqs : s'.flight.reqs = s.flight.reqs
  waiters : s'.flight.waiters = s.flight.waiters
  around : Around s s'

theorem AccessWork.home {s s' : State} (h : AccessWork s s') : HomeWork s s' :=
  ⟨h.threads, by rw [h.flight], by rw [h.flight], h.around⟩

theorem HomeWork.trans {a b c : State} (h : HomeWork a b) (g : HomeWork b c) : HomeWork a c :=
  ⟨g.threads.trans h.threads, g.reqs.trans h.reqs, g.waiters.trans h.waiters, around_trans h.around g.around⟩

theorem homeWork_mem (s : State) (m : Mem) : HomeWork s { s with mem := m } := ⟨rfl, rfl, rfl, rfl, rfl, rfl, rfl, rfl, rfl⟩

theorem around_of_rest {s s' : State} (h : RestSame s s') : Around s s' :=
  ⟨h.spaces, h.mmu, h.eng, h.queues, (onlyTells_of_fw h.fw).fw, h.pkg⟩

/-- The access has ended with registers `c` of its line and memory `m`; the request is gone, and other threads are as they were. -/
structure EndsWith (s s' : State) (t : Thread) (r : Req) (c : Ctx) (m : Mem) : Prop where
  line : ∃ x, findThread s' t.key = some x ∧ x.trap = t.trap ∧ x.ctx = { c with wkind := x.ctx.wkind }
  gone : findReq s' r.id = none
  others : ∀ k, k ≠ t.key → findThread s' k = findThread s k
  around : Around s s'
  mem : s'.mem = m
  waiters : ∀ w ∈ s'.flight.waiters, w ∈ s.flight.waiters

/-- After the work of an access, the update that ends it lands in the line (R26). -/
theorem deliver_endsWith {s s1 : State} {t : Thread} {r : Req} {u : Upd} {c : Ctx} (h : Takes s t r) (hw : HomeWork s s1)
    (hu : applyUpd t u = { t with ctx := c }) (hz : c.frz = false) :
    EndsWith s (deliver (cachesAfter (dropReq s1 r.id) r) r.key u) t r c s1.mem := by
  let s2 := cachesAfter (dropReq s1 r.id) r
  have ht : s2.threads = s.threads := (cachesAfter_threads _ _).trans hw.threads
  have hfl : s2.flight = (dropReq s1 r.id).flight := cachesAfter_flight _ _
  have hf2 : findThread s2 t.key = some t := by
    rw [findThread_of_threads s s2 ht, ← h.key]
    exact h.thread
  obtain ⟨hline, hothers, hrest⟩ := deliver_line s2 t u hf2 h.cl1 h.pend h.sane h.cancel (fun q hq hk => by
    rw [hfl] at hq
    have hmem : q ∈ s1.flight.reqs := (List.mem_filter.mp hq).1
    rw [hw.reqs] at hmem
    exact h.kept q hmem (hk.trans h.key.symm)) hu hz
  rw [h.key]
  refine ⟨hline, ?_, fun k hk => (hothers k hk).trans (findThread_of_threads s s2 ht k), ?_, ?_, fun w hx => ?_⟩
  · unfold findReq
    rw [hrest.flight]
    exact findReq_cachesAfter_drop s1 r
  · exact around_trans hw.around (around_trans (around_trans (around_dropReq s1 r.id) (around_cachesAfter _ r)) (around_of_rest hrest))
  · exact hrest.mem.trans (cachesAfter_mem _ _)
  · rw [hrest.flight, hfl] at hx
    rw [← hw.waiters]
    exact (List.mem_filter.mp hx).1

/-- The end of an access with a register result is the delivery of the result (R26, R171). -/
theorem complete_of_result {s : State} {r : Req} (v : Vec) (hri : r.ri = none) (hop : hasResult r.op = true) :
    complete s r v = deliver (cachesAfter (dropReq s r.id) r) r.key (.result r.dst (r.ty == .b128) (extend r.ty v)) := by
  unfold complete
  rw [hri]
  dsimp only
  split
  · next e => rw [e] at hop; cases hop
  · next e => rw [e] at hop; cases hop
  · next e => rw [e] at hop; cases hop
  · rw [if_pos hop]

/-- The registers after a result has landed (R26). -/
def resultCtx (t : Thread) (r : Req) (v : Vec) : Ctx :=
  decOutst (clearPend (setDst t.ctx r.dst (r.ty == .b128) (extend r.ty v)) r.dst (r.ty == .b128))

/-- After the work of an access with a register result, the result lands (R26, R171). -/
theorem complete_endsWith {s s1 : State} {t : Thread} {r : Req} (h : Takes s t r) (hri : r.ri = none) (hw : HomeWork s s1)
    (hop : hasResult r.op = true) (v : Vec) : EndsWith s (complete s1 r v) t r (resultCtx t r v) s1.mem := by
  rw [complete_of_result v hri hop]
  refine deliver_endsWith h hw rfl ?_
  rw [resultCtx, decOutst_frz, clearPend_frz, setDst_frz]
  exact h.frz

/-- After its work, a store with acknowledgement takes its count from the line (R171, R184). -/
theorem complete_stf {s s1 : State} {t : Thread} {r : Req} (h : Takes s t r) (hri : r.ri = none) (hw : HomeWork s s1)
    (hop : r.op = .stf) (v : Vec) : EndsWith s (complete s1 r v) t r (decOutst t.ctx) s1.mem := by
  have he : complete s1 r v = deliver (cachesAfter (dropReq s1 r.id) r) r.key .ack := by
    unfold complete
    rw [hri, hop]
  rw [he]
  exact deliver_endsWith h hw rfl h.frz

theorem EndsWith.landed {s s' : State} {t : Thread} {r : Req} {v : Vec} {m : Mem} (h : EndsWith s s' t r (resultCtx t r v) m) :
    Landed s s' t r v := ⟨h.line, h.gone, h.others⟩

/-! Arrival at the home of an open line (R194, R302). -/

/-- The state in which a request has come to the home of its line: its place there is given up. -/
def atHome (s : State) (r : Req) (a : Nat) : State := leaveLine s (lineOf (.dev a)) (some (.req r.id))

theorem homeTurn_open {s : State} {r : Req} {a : Nat} (h : LineOpen s r.id a) :
    homeTurn s (.dev a) (.req r.id) = .done (atHome s r a) 0 := by
  have hpoison : s.mem.poison.contains (devAddr (lineOf (.dev a))) = false := h.sound
  have hblocks : hostBlocks s (lineOf (.dev a)) .home = none := by simp only [hostBlocks, lineOf, h.host]
  have hroom : recallGate s (devAddr (lineOf (.dev a))) = .go := h.room
  have hgate : syncGate s (.dev a) = .done s 0 := by
    unfold syncGate
    simp only [hpoison, h.free, hblocks, hroom, Option.isSome_none, Bool.false_eq_true, if_false]
  unfold homeTurn
  simp only [h.turn, Bool.false_eq_true, if_false, hgate]
  rfl

/-- A synchronising access to an open line comes to its home (R184). -/
theorem syncArrival_home {s : State} {t : Thread} {r : Req} {a : Nat} (h : Plain s t r a) (hop : isSync r.op = true) :
    exec (.syncAccessArrival r.id) s = .next (arriveSync (atHome s r a) r a) := by
  have hgo : goHome s r (.dev a) = arriveSync (atHome s r a) r a := by
    unfold goHome
    rw [homeTurn_open (lineOpen_plain h)]
    dsimp only
    split
    · next e => rw [e] at hop; cases hop
    · rfl
  show execSyncAccessArrival r.id s = _
  unfold execSyncAccessArrival withPlace
  rw [h.listed]
  simp only [hop, h.may, Bool.and_self, if_true, h.place, hgo, sentOut]

/-- A `BAR` step on an open line comes to its home (R266). -/
theorem barStep_home {s : State} {t : Thread} {r : Req} {a : Nat} (h : Plain s t r a) (hop : r.op = .bar) :
    exec (.barStep r.id) s = .next (arriveBar (atHome s r a) r a) := by
  have hgo : goHome s r (.dev a) = arriveBar (atHome s r a) r a := by
    unfold goHome
    rw [homeTurn_open (lineOpen_plain h), hop]
    rfl
  show execBarStep r.id s = _
  unfold execBarStep withPlace
  rw [h.listed]
  simp only [hop, h.may, beq_self_eq_true, Bool.and_self, if_true, h.place, hgo, sentOut]

/-- The state in which the home has the line of a request that has come to it (R302). -/
def gathered (s : State) (r : Req) (a : Nat) : State := obtain (atHome s r a) 0 (lineOf (.dev a)) .home

theorem gathered_work (s : State) (r : Req) (a : Nat) : HomeWork s (gathered s r a) :=
  HomeWork.trans (b := atHome s r a) ⟨rfl, rfl, rfl, rfl, rfl, rfl, rfl, rfl, rfl⟩ (accessWork_obtain (atHome s r a) 0 (lineOf (.dev a)) .home).home

theorem gathered_mem {s : State} (h : s.cache.dsums = []) (r : Req) (a : Nat) : (gathered s r a).mem = s.mem :=
  ((obtain_work (atHome s r a) 0 (lineOf (.dev a)) .home).mem h).1

/-! Waiters (R185, R187). -/

/-- A scan finds nobody where nobody waits (R185). -/
theorem scanOnce_none {s : State} {a : Nat} {ws : List Waiter} (h : ∀ w ∈ ws, w.pa ≠ a) : scanOnce s a ws = (s, false) := by
  unfold scanOnce
  induction ws with
  | nil => rfl
  | cons w ws ih =>
    have hw : (w.pa != a) = true := bne_iff_ne.mpr (h w List.mem_cons_self)
    rw [List.foldl_cons, if_pos hw]
    exact ih fun x hx => h x (List.mem_cons_of_mem _ hx)

/-- Nobody is served where nobody waits (R185). -/
theorem serveWord_none {s : State} {a : Nat} (h : ∀ w ∈ s.flight.waiters, w.pa ≠ a) : serveWord s a = s := by
  unfold serveWord scanWaiters
  simp only [scanOnce_none h, Bool.false_eq_true, if_false]

theorem findReq_setReqSt {s : State} {id : Nat} {r : Req} (h : findReq s id = some r) (st : ReqSt) :
    findReq (setReqSt s id st) id = some { r with st := st } := by
  have hf := find?_modifyFirst (fun q : Req => q.id == id) (fun q => { q with st := st }) s.flight.reqs fun _ hq => hq
  unfold findReq at h ⊢
  rw [h] at hf
  exact hf

/-- The access waits on the list of its word, and memory is `m` (R187). -/
structure Waits (s s' : State) (r : Req) (a : Nat) (m : Mem) : Prop where
  mem : s'.mem = m
  around : Around s s'
  waiters : s'.flight.waiters = s.flight.waiters ++ [{ pa := a, req := r.id }]
  listed : (findReq s' r.id).map (·.st) = some .listed

/-- An access that is recorded where its die has room waits (R187). -/
theorem recordWaiter_waits {s s1 : State} {t : Thread} {r : Req} {a : Nat} (h : Takes s t r) (hl : findReq s r.id = some r)
    (hw : HomeWork s s1) (hroom : dieWaiters s (Config.homeDie a) < Config.waitersPerDie) :
    Waits s (recordWaiter s1 r a) r a s1.mem := by
  let s2 := setReqSt s1 r.id .listed
  let s3 : State := { s2 with flight := { s2.flight with waiters := s2.flight.waiters ++ [{ pa := a, req := r.id }] } }
  have hdie : dieWaiters s1 (Config.homeDie a) = dieWaiters s (Config.homeDie a) := by
    unfold dieWaiters
    rw [hw.waiters]
  have he : recordWaiter s1 r a = refresh s3 t.key := by
    unfold recordWaiter
    rw [if_pos (hdie ▸ hroom), h.key]
  have hf : findThread s3 t.key = some t := by
    rw [findThread_of_threads s s3 hw.threads, ← h.key]
    exact h.thread
  obtain ⟨-, -, hrest, -⟩ := refresh_cl1 s3 t hf h.cl1
  have hlisted : findReq s1 r.id = some r := by
    unfold findReq
    rw [hw.reqs]
    exact hl
  rw [he]
  refine ⟨hrest.mem, around_trans hw.around (around_trans (b := s3) ⟨rfl, rfl, rfl, rfl, rfl, rfl⟩ (around_of_rest hrest)),
    ?_, ?_⟩
  · rw [hrest.flight]
    show s1.flight.waiters ++ _ = _
    rw [hw.waiters]
  · unfold findReq
    rw [hrest.flight]
    exact congrArg (Option.map (·.st)) (findReq_setReqSt hlisted .listed)

/-! Synchronising accesses (R184). -/

/-- What a synchronising store leaves in memory (R184). -/
def filledMem (m : Mem) (r : Req) (a : Nat) : Mem := setFull { m with dev := writeVal m.dev a 8 r.dat } a

/-! What each operation performs at its word (R184). -/

section equations
variable {s : State} {r : Req} {a : Nat}

theorem performSync_lde (hop : r.op = .lde) : performSync s r a = complete s r (readVal s.mem.dev a 8) := by
  unfold performSync
  rw [hop]

theorem performSync_ldc (hop : r.op = .ldc) :
    performSync s r a = complete { s with mem := setEmpty s.mem a } r (readVal s.mem.dev a 8) := by
  unfold performSync
  rw [hop]

theorem performSync_qfe (hop : r.op = .qfe) : performSync s r a = complete s r (if isFull s.mem a then 1 else 0) := by
  unfold performSync
  rw [hop]

theorem performSync_sts (hop : r.op = .sts) : performSync s r a = complete { s with mem := filledMem s.mem r a } r 0 := by
  unfold performSync
  rw [hop]
  rfl

theorem performSync_stf (hop : r.op = .stf) : performSync s r a = complete { s with mem := filledMem s.mem r a } r 0 := by
  unfold performSync
  rw [hop]
  rfl

theorem performSync_sfe (hop : r.op = .sfe) : performSync s r a = complete { s with mem := setEmpty s.mem a } r 0 := by
  unfold performSync
  rw [hop]

end equations

section sync
variable {s : State} {t : Thread} {r : Req} {a : Nat}

/-- After a quiet end no waiter has come (R171). -/
theorem complete_quiet_waiters {s1 : State} {v : Vec} (hri : r.ri = none) (hop : isQuietOp r.op) {w : Waiter}
    (hw : w ∈ (complete s1 r v).flight.waiters) : w ∈ s1.flight.waiters := by
  rw [complete_quiet s1 r v hri hop, cachesAfter_flight] at hw
  exact (List.mem_filter.mp hw).1

/-- An access whose condition holds is performed at its word, and with nobody waiting there that is all (R184, R185). -/
theorem syncArrival_performs {s1 : State} {v : Vec} (h : Plain s t r a) (hnone : ∀ w ∈ s.flight.waiters, w.pa ≠ a)
    (hop : isSync r.op = true) (hc : syncHolds (isFull s.mem a) r.op = true)
    (hp : performSync (gathered s r a) r a = complete s1 r v) (hw : ∀ w ∈ (complete s1 r v).flight.waiters, w ∈ s.flight.waiters) :
    exec (.syncAccessArrival r.id) s = .next (complete s1 r v) := by
  have hc1 : syncHolds (isFull (gathered s r a).mem a) r.op = true := by
    rw [gathered_mem h.deltas]
    exact hc
  have he : arriveSync (atHome s r a) r a = serveWord (performSync (gathered s r a) r a) a := if_pos hc1
  rw [syncArrival_home h hop, he, hp, serveWord_none fun w hm => hnone w (hw w hm)]

/-- The same for an access with a register result, which lands (R26). -/
theorem syncArrival_lands {s1 : State} {v : Vec} (h : Plain s t r a) (hnone : ∀ w ∈ s.flight.waiters, w.pa ≠ a)
    (hop : isSync r.op = true) (hc : syncHolds (isFull s.mem a) r.op = true)
    (hp : performSync (gathered s r a) r a = complete s1 r v) (hw : HomeWork s s1) (hres : hasResult r.op = true) :
    ∃ s', exec (.syncAccessArrival r.id) s = .next s' ∧ Landed s s' t r v ∧ Around s s' ∧ s'.mem = s1.mem := by
  have he := complete_endsWith (takes_plain h) h.unrecorded hw hres v
  exact ⟨_, syncArrival_performs h hnone hop hc hp he.waiters, he.landed, he.around, he.mem⟩

/-- The same for a store without acknowledgement, which changes no line (R171). -/
theorem syncArrival_quiet {s1 : State} {v : Vec} (h : Plain s t r a) (hnone : ∀ w ∈ s.flight.waiters, w.pa ≠ a)
    (hop : r.op = .sts ∨ r.op = .sfe) (hp : performSync (gathered s r a) r a = complete s1 r v) (hw : HomeWork s s1) :
    ∃ s', exec (.syncAccessArrival r.id) s = .next s' ∧ s'.threads = s.threads ∧ findReq s' r.id = none ∧ Around s s' ∧
      s'.mem = s1.mem := by
  have hq : isQuietOp r.op := .inr (.inr (.inr hop))
  have he := complete_endsQuietly v hw.threads hw.around h.unrecorded hq
  have hsync : isSync r.op = true ∧ syncHolds (isFull s.mem a) r.op = true := by
    rcases hop with e | e <;> rw [e] <;> exact ⟨rfl, rfl⟩
  exact ⟨_, syncArrival_performs h hnone hsync.1 hsync.2 hp fun w hm =>
    hw.waiters ▸ complete_quiet_waiters h.unrecorded hq hm, he.threads, he.gone, he.around, he.mem⟩

/-- An access whose condition fails waits on the list of its word (R185, R187). -/
theorem syncArrival_waits (h : Plain s t r a) (hop : isSync r.op = true) (hc : syncHolds (isFull s.mem a) r.op = false)
    (hroom : dieWaiters s (Config.homeDie a) < Config.waitersPerDie) :
    ∃ s', exec (.syncAccessArrival r.id) s = .next s' ∧ Waits s s' r a s.mem := by
  have hc1 : syncHolds (isFull (gathered s r a).mem a) r.op = false := by
    rw [gathered_mem h.deltas]
    exact hc
  have he : arriveSync (atHome s r a) r a = recordWaiter (gathered s r a) r a := if_neg (Bool.eq_false_iff.mp hc1)
  refine ⟨_, syncArrival_home h hop, ?_⟩
  rw [he, ← gathered_mem h.deltas r a]
  exact recordWaiter_waits (takes_plain h) h.listed (gathered_work s r a) hroom

/-- `STF` to an empty word fills it and is acknowledged (R171, R184). -/
theorem stf_fills (h : Plain s t r a) (hnone : ∀ w ∈ s.flight.waiters, w.pa ≠ a) (hop : r.op = .stf) (he : isFull s.mem a = false) :
    ∃ s', exec (.syncAccessArrival r.id) s = .next s' ∧ EndsWith s s' t r (decOutst t.ctx) (filledMem s.mem r a) := by
  let s1 : State := { gathered s r a with mem := filledMem (gathered s r a).mem r a }
  have hend : EndsWith s (complete s1 r 0) t r (decOutst t.ctx) s1.mem :=
    complete_stf (takes_plain h) h.unrecorded ((gathered_work s r a).trans (homeWork_mem _ _)) hop 0
  refine ⟨_, syncArrival_performs h hnone (by rw [hop]; rfl) (by rw [hop]; simp [syncHolds, he])
    (performSync_stf hop) hend.waiters, ?_⟩
  rw [← gathered_mem h.deltas r a]
  exact hend

end sync

/-- Synchronising words at their home, each operation by what it performs. -/
theorem syncWords : Spec.SyncWords := by
  intro s t r a h _ hnone old put done quiet waits
  let g := gathered s r a
  have hg : HomeWork s g := gathered_work s r a
  have hm : g.mem = s.mem := gathered_mem h.deltas r a
  have hwith : ∀ m, HomeWork s { g with mem := m } := fun m => hg.trans (homeWork_mem g m)
  refine ⟨fun hop hf => ?_, fun hop hf => ?_, fun hop => ?_, fun hop => ?_, fun hop => ?_, fun hop he => ?_, fun hroom =>
    ⟨fun hop hf => ?_, fun hop hf => ?_⟩⟩
  · obtain ⟨s', he, hl, ha, hmem⟩ := syncArrival_lands (v := old) h hnone (by rw [hop]; rfl) (by rw [hop]; exact hf)
      ((performSync_lde hop).trans (by rw [hm])) hg (by rw [hop]; rfl)
    exact ⟨s', he, hl, ha, hmem.trans hm⟩
  · exact syncArrival_lands (v := old) h hnone (by rw [hop]; rfl) (by rw [hop]; exact hf)
      ((performSync_ldc hop).trans (by rw [hm])) (hwith (setEmpty s.mem a)) (by rw [hop]; rfl)
  · obtain ⟨s', he, hl, ha, hmem⟩ := syncArrival_lands (v := if isFull s.mem a then 1 else 0) h hnone (by rw [hop]; rfl)
      (by rw [hop]; rfl) ((performSync_qfe hop).trans (by rw [hm])) hg (by rw [hop]; rfl)
    exact ⟨s', he, hl, ha, hmem.trans hm⟩
  · exact syncArrival_quiet h hnone (.inl hop) ((performSync_sts hop).trans (by rw [hm])) (hwith (filledMem s.mem r a))
  · exact syncArrival_quiet h hnone (.inr hop) ((performSync_sfe hop).trans (by rw [hm])) (hwith (setEmpty s.mem a))
  · obtain ⟨s', hexec, hend⟩ := stf_fills h hnone hop he
    obtain ⟨x, hx, -, hctx⟩ := hend.line
    exact ⟨s', x, hexec, hx, hctx, hend.gone, hend.around, hend.mem⟩
  · have hsync : isSync r.op = true ∧ syncHolds (isFull s.mem a) r.op = false := by
      rcases hop with e | e <;> rw [e] <;> exact ⟨rfl, hf⟩
    obtain ⟨s', he, hw⟩ := syncArrival_waits h hsync.1 hsync.2 hroom
    exact ⟨s', he, hw.mem, hw.around, hw.waiters, hw.listed⟩
  · obtain ⟨s', he, hw⟩ := syncArrival_waits h (by rw [hop]; rfl) (by rw [hop]; simp [syncHolds, hf]) hroom
    exact ⟨s', he, hw.mem, hw.around, hw.waiters, hw.listed⟩

/-! Barrier words (R265, R266). -/

/-- The bits of a barrier word made of its three fields (R265). -/
theorem getLsbD_barWord (p : BitVec 16) (t n : BitVec 24) (i : Nat) : BitVec.getLsbD (w := 64) (p ++ t ++ n) i =
    if i < 24 then n.getLsbD i else if i - 24 < 24 then t.getLsbD (i - 24) else p.getLsbD (i - 24 - 24) := by
  refine (BitVec.getLsbD_append (x := p ++ t) (y := n) (i := i)).trans ?_
  rw [BitVec.getLsbD_append]

theorem barPhase_append (p : BitVec 16) (t n : BitVec 24) : barPhase (p ++ t ++ n) = p := by
  ext i hi
  rw [barPhase, BitVec.getElem_extractLsb', getLsbD_barWord, if_neg (by omega), if_neg (by omega),
    show 48 + i - 24 - 24 = i by omega, BitVec.getLsbD_eq_getElem]

theorem barTarget_append (p : BitVec 16) (t n : BitVec 24) : barTarget (p ++ t ++ n) = t := by
  ext i hi
  rw [barTarget, BitVec.getElem_extractLsb', getLsbD_barWord, if_neg (by omega), if_pos (by omega),
    show 24 + i - 24 = i by omega, BitVec.getLsbD_eq_getElem]

theorem barArrived_append (p : BitVec 16) (t n : BitVec 24) : barArrived (p ++ t ++ n) = n := by
  ext i hi
  rw [barArrived, BitVec.getElem_extractLsb', getLsbD_barWord, if_pos (by omega), Nat.zero_add, BitVec.getLsbD_eq_getElem]

section bar
variable {s : State} {t : Thread} {r : Req} {a : Nat} {phase : BitVec 16} {target arrived : BitVec 24}

/-- Memory with a barrier word written. -/
def barMem (m : Mem) (a : Nat) (x : Word) : Mem := { m with dev := writeVal m.dev a 8 (x.setWidth 128) }

/-- The barrier word that the home reads has its three fields (R265). -/
theorem barWord_eq {m : Mem} (hv : readVal m.dev a 8 = (phase ++ target ++ arrived).setWidth 128) :
    (readVal m.dev a 8).setWidth 64 = phase ++ target ++ arrived := by
  rw [hv]
  exact BitVec.setWidth_setWidth_of_le _ (by decide)

/-- A word that expects more arrivals than have come is no BARWORD fault (R266). -/
theorem barSound (h : arrived.toNat < target.toNat) : (target == 0 || decide (target.toNat ≤ arrived.toNat)) = false := by
  have h0 : target ≠ 0 := by
    rintro rfl
    exact absurd h (Nat.not_lt_zero _)
  rw [beq_eq_false_iff_ne.mpr h0, decide_eq_false (Nat.not_le.mpr h), Bool.or_self]

/-- The last arrival of a phase: with nobody waiting, the word goes to the next phase and the access gets the one that ended
(R266). -/
theorem arriveBar_last (h : Plain s t r a) (hnone : ∀ w ∈ s.flight.waiters, w.pa ≠ a)
    (hv : readVal s.mem.dev a 8 = (phase ++ target ++ arrived).setWidth 128) (hlast : arrived.toNat + 1 = target.toNat) :
    arriveBar (atHome s r a) r a =
      complete { gathered s r a with mem := barMem s.mem a ((phase + 1) ++ target ++ (0 : BitVec 24)) } r (phase.setWidth 128) := by
  have hm : (gathered s r a).mem = s.mem := gathered_mem h.deltas r a
  have hw : (readVal (gathered s r a).mem.dev a 8).setWidth 64 = phase ++ target ++ arrived := by
    rw [hm]
    exact barWord_eq hv
  have hok : (target == 0 || decide (target.toNat ≤ arrived.toNat)) = false := barSound (by omega)
  have hmine : ∀ f : Waiter → Option Req, (∀ w, w.pa ≠ a → f w = none) →
      (gathered s r a).flight.waiters.filterMap f = [] := fun f hf => by
    rw [(gathered_work s r a).waiters, List.filterMap_eq_nil_iff]
    exact fun w hw => hf w (hnone w hw)
  unfold arriveBar
  dsimp only
  rw [show obtain (atHome s r a) 0 (lineOf (.dev a)) .home = gathered s r a from rfl, hw, barTarget_append, barArrived_append,
    barPhase_append, hok]
  simp only [Bool.false_eq_true, if_false, hlast, if_true]
  rw [hmine _ fun w hw => by simp [hw]]
  simp only [hm, List.filter_nil, List.nil_append, List.foldl_cons, List.foldl_nil]
  rfl

/-- An earlier arrival is counted and waits (R266). -/
theorem arriveBar_earlier (h : Plain s t r a)
    (hv : readVal s.mem.dev a 8 = (phase ++ target ++ arrived).setWidth 128) (hless : arrived.toNat + 1 < target.toNat)
    (hroom : dieWaiters s (Config.homeDie a) < Config.waitersPerDie) :
    arriveBar (atHome s r a) r a =
      recordWaiter { gathered s r a with mem := barMem s.mem a (phase ++ target ++ (arrived + 1)) } r a := by
  have hm : (gathered s r a).mem = s.mem := gathered_mem h.deltas r a
  have hw : (readVal (gathered s r a).mem.dev a 8).setWidth 64 = phase ++ target ++ arrived := by
    rw [hm]
    exact barWord_eq hv
  have hok : (target == 0 || decide (target.toNat ≤ arrived.toNat)) = false := barSound (by omega)
  have hdie : dieWaiters (gathered s r a) (Config.homeDie a) < Config.waitersPerDie := by
    unfold dieWaiters
    rw [(gathered_work s r a).waiters]
    exact hroom
  unfold arriveBar
  dsimp only
  rw [show obtain (atHome s r a) 0 (lineOf (.dev a)) .home = gathered s r a from rfl, hw, barTarget_append, barArrived_append,
    barPhase_append, hok]
  simp only [Bool.false_eq_true, if_false, hless.ne, hdie, if_true, hm]
  rfl

end bar

/-- One arrival at a barrier word: `arriveBar_last` and `arriveBar_earlier`. -/
theorem barrierStep : Spec.BarrierStep := by
  intro s t r a phase target arrived h hop hnone hv put
  refine ⟨fun hlast => ?_, fun hless hroom => ?_⟩
  · have hend := complete_endsWith (takes_plain h) h.unrecorded
      ((gathered_work s r a).trans (homeWork_mem _ (barMem s.mem a ((phase + 1) ++ target ++ (0 : BitVec 24)))))
      (by rw [hop]; rfl) (phase.setWidth 128)
    rw [← arriveBar_last h hnone hv hlast] at hend
    exact ⟨_, barStep_home h hop, hend.landed, hend.around, hend.mem⟩
  · have hw := recordWaiter_waits (takes_plain h) h.listed
      ((gathered_work s r a).trans (homeWork_mem _ (barMem s.mem a (phase ++ target ++ (arrived + 1))))) hroom
    rw [← arriveBar_earlier h hv hless hroom] at hw
    exact ⟨_, barStep_home h hop, hw.mem, hw.around, hw.waiters, hw.listed⟩

/-- Settles O34: `syncWords` and `barrierStep`. -/
theorem syncWordsAndBarriers : Obligations.SyncWordsAndBarriers := ⟨syncWords, barrierStep⟩

end Sys2Proof.Machine
end

section
/-! The host's snoops of host lines, and the completion of accesses to host memory (12_caches_coherence_host R181, R294, R304 to R306,
R311). -/

namespace Sys2Proof.Machine
open Sys2Proof.Forms Sys2Proof.Spec

/-! Snoops (R305). -/

/-- Where nothing that waits can go first, an arrival does not wait (R194, R302). -/
theorem turnOver_of_noneWaits {s : State} {line : Phys} (h : noneWaits s line) (who : Option Asker) :
    turnOver s line who = false := by
  have hfind : (s.flight.turns.find? fun x => x.line == line && canTurn s x) = none := by
    rw [List.find?_eq_none]
    intro x hx hcan
    obtain ⟨hline, hturn⟩ := Bool.and_eq_true_iff.mp hcan
    rw [h x hx (beq_iff_eq.mp hline)] at hturn
    cases hturn
  unfold turnOver
  rw [hfind]

/-- A snoop of a line that nothing keeps is answered, and acts (R305). -/
theorem snooped_answers {s : State} {line : Nat} (hrun : running s = true) (hfree : lineHold s (.hostC (lineAddr line)) = none)
    (hturn : noneWaits s (.hostC (lineAddr line))) (i : Instr) (f : State → Nat → State) :
    snooped s i line f = .next (f (snoopAnswer (leaveTurns s (some (.outside i))) (lineAddr line)) (lineAddr line)) := by
  have hwait : outsideWaits s (.hostC (lineAddr line)) i = false := by
    unfold outsideWaits
    rw [hfree, turnOver_of_noneWaits hturn]
    rfl
  unfold snooped
  simp only [hrun, hwait, Bool.not_true, Bool.false_eq_true, if_false]

/-- Dropping a line from the L2s of some benches leaves their other lines and those of other benches. -/
theorem foldl_l2Drop (l : List Nat) (s : State) (line : Phys) : l.foldl (fun s c => l2Drop s c line) s =
    { s with cache := { s.cache with l2 := s.cache.l2.filter fun x => !(l.contains x.bench && x.line == line) } } := by
  induction l generalizing s with
  | nil => simp
  | cons c l ih =>
    rw [List.foldl_cons, ih]
    unfold l2Drop
    have hdrop : ∀ x : L2Line, (!(l.contains x.bench && x.line == line) && !(x.bench == c && x.line == line)) =
        !((c :: l).contains x.bench && x.line == line) := fun x => by
      rw [Bool.and_comm, ← Bool.not_or, ← Bool.and_or_distrib_right, List.contains_cons]
    simp only [List.filter_filter, hdrop]

/-- Of all copies that the bench L2s and the LLC have, dropping a line everywhere takes those of the line (R199, R305). -/
theorem l2DropOthers_none (s : State) (line : Phys) :
    l2DropOthers s none line = { s with cache := { s.cache with l2 := s.cache.l2.filter fun x => x.line != line } } := by
  unfold l2DropOthers
  rw [foldl_l2Drop, List.filter_congr fun x hx => ?_]
  by_cases hline : x.line = line
  · have hmem : x.bench ∈ (l2Has s line).filter fun c => none != some c :=
      List.mem_filter.mpr ⟨List.mem_map.mpr ⟨x, List.mem_filter.mpr ⟨hx, by simpa using hline⟩, rfl⟩, rfl⟩
    rw [List.contains_iff_mem.mpr hmem, beq_iff_eq.mpr hline, bne, beq_iff_eq.mpr hline]
    rfl
  · rw [beq_false_of_ne hline, Bool.and_false, bne, beq_false_of_ne hline]

/-- The host's three snoops of a host line that nothing keeps (R304, R305). -/
theorem hostSnoops_answer (s : State) (line : Nat) (hrun : running s = true) (hfree : lineHold s (.hostC (lineAddr line)) = none)
    (hturn : noneWaits s (.hostC (lineAddr line))) :
    let a := lineAddr line
    let said := s.fw.out ++ [.snoop a (s.cache.l2.any fun x => x.line == .hostC a && (x.st == .m || x.st == .o)) (readBytes s.mem.host a 128)]
    (∃ s', exec (.snpInv line) s = .next s' ∧ s'.fw.out = said ∧ s'.mem = s.mem ∧ s'.threads = s.threads ∧
      (∀ x ∈ s'.cache.l2, x.line ≠ .hostC a) ∧ s'.cache.l1 = s.cache.l1) ∧
    (∃ s', exec (.snpData line) s = .next s' ∧ s'.fw.out = said ∧ s'.mem = s.mem ∧ s'.threads = s.threads ∧
      (∀ x ∈ s'.cache.l2, x.line = .hostC a → x.st = .s) ∧ s'.cache.l1 = s.cache.l1) ∧
    (∃ s', exec (.snpCur line) s = .next s' ∧ s'.fw.out = said ∧ s'.mem = s.mem ∧ s'.threads = s.threads ∧ s'.cache = s.cache) := by
  intro a said
  refine ⟨⟨_, (show exec (.snpInv line) s = execSnpInv line s from rfl).trans (snooped_answers hrun hfree hturn _ _), ?_⟩,
    ⟨_, (show exec (.snpData line) s = execSnpData line s from rfl).trans (snooped_answers hrun hfree hturn _ _), ?_⟩,
    ⟨_, (show exec (.snpCur line) s = execSnpCur line s from rfl).trans (snooped_answers hrun hfree hturn _ _), rfl, rfl, rfl, rfl⟩⟩
  · rw [l2DropOthers_none]
    refine ⟨rfl, rfl, rfl, fun x hx => ?_, rfl⟩
    simpa using (List.mem_filter.mp hx).2
  · refine ⟨rfl, rfl, rfl, fun x hx hline => ?_, rfl⟩
    obtain ⟨y, -, rfl⟩ := List.mem_map.mp hx
    split at hline
    · next hy => rw [if_pos hy]
    · next hy => exact absurd (beq_iff_eq.mpr hline) hy

/-! The host's data for a line (R304, R306). -/

/-- Every D copy is of a word of device memory (R197). -/
def devDeltas (l : List DSum) : Prop := ∀ x ∈ l, ∃ p, x.addr = .dev p

/-- A merge of D copies of device words leaves host memory as it is. -/
theorem mergeOne_dev {m : Mem} {ds : List DSum} (pick : Nat) (h : devDeltas ds) :
    (mergeOne m ds pick).1.host = m.host ∧ devDeltas (mergeOne m ds pick).2 := by
  unfold mergeOne
  split
  · exact ⟨rfl, nofun⟩
  · next x hx =>
    have hrest : devDeltas (ds.eraseIdx (pick % ds.length)) := fun y hy => h y (List.mem_of_mem_eraseIdx hy)
    dsimp only
    split
    · refine ⟨rfl, fun y hy => ?_⟩
      obtain ⟨i, hi⟩ := List.mem_iff_getElem?.mp hy
      rw [List.getElem?_modify] at hi
      obtain ⟨z, hz, hzy⟩ := Option.map_eq_some_iff.mp hi
      obtain ⟨p, hp⟩ := hrest z (List.mem_of_getElem? hz)
      refine ⟨p, ?_⟩
      rw [← hzy]
      split
      · exact hp
      · exact hp
    · obtain ⟨p, hp⟩ := h x (List.mem_of_getElem? hx)
      rw [hp]
      exact ⟨rfl, hrest⟩

theorem mergeAll_dev (n : Nat) {m : Mem} {ds : List DSum} (f : Nat) (h : devDeltas ds) : (mergeAll n m ds f).host = m.host := by
  induction n generalizing m ds f with
  | zero => rfl
  | succ n ih =>
    cases ds with
    | nil => rfl
    | cons x ds =>
      obtain ⟨hm, hd⟩ := mergeOne_dev (m := m) (Config.freePick f) h
      exact (ih (f + 1) hd).trans hm

theorem mergeLine_dev {s : State} (line : Phys) (h : devDeltas s.cache.dsums) : (mergeLine s line).mem.host = s.mem.host := by
  unfold mergeLine
  dsimp only
  split
  · rfl
  · exact mergeAll_dev _ _ fun x hx => h x (List.mem_filter.mp hx).1

/-- A host line has no D copies to merge. -/
theorem mergeLine_host {s : State} {line : Phys} (h : devDeltas s.cache.dsums) (hl : ∀ p, line ≠ .dev p) : mergeLine s line = s :=
  mergeLine_none s line fun x hx he => by
    obtain ⟨p, hp⟩ := h x hx
    rw [hp] at he
    exact hl _ he.symm

theorem l2Evict_host {s : State} (x : L2Line) (h : devDeltas s.cache.dsums) : (l2Evict s x).mem.host = s.mem.host := by
  have hmerge : (if x.st == .d then mergeLine s x.line else s).mem.host = s.mem.host := by
    split
    · exact mergeLine_dev _ h
    · rfl
  have hmem : (l2Evict s x).mem = (if x.st == .d then mergeLine s x.line else s).mem := by
    unfold l2Evict
    dsimp only
    split
    · rw [llcPut_mem]
      rfl
    · split
      · show (llcRoom _ _).mem = _
        rw [llcRoom_mem]
        rfl
      · rfl
    · rfl
  rw [hmem, hmerge]

/-- A line that comes to an L2 leaves host memory as it is, whatever makes room for it (R292). -/
theorem l2Put_host {s : State} (b : Nat) (line : Phys) (x : L2State) (h : devDeltas s.cache.dsums) :
    (l2Put s b line x).mem.host = s.mem.host := by
  have hroom : (l2Room s b line).mem.host = s.mem.host := by
    unfold l2Room
    dsimp only
    split
    · rw [llcRoom_mem]
    · split
      · rfl
      · split
        · exact l2Evict_host (s := { s with run := _ }) _ h
        · rfl
  unfold l2Put
  show (if (l2Find s b line).isSome then s else l2Room s b line).mem.host = _
  split
  · rfl
  · exact hroom

theorem mem_upsert_self {α : Type} (p : α → Bool) (x : α) (l : List α) : x ∈ upsert p x l := by
  induction l with
  | nil => exact List.mem_cons_self
  | cons y l ih =>
    unfold upsert
    split
    · exact List.mem_cons_self
    · exact List.mem_cons_of_mem _ ih

/-- A line that comes to an L2 is there. -/
theorem hostCopy_l2Put (s : State) (b : Nat) (line : Phys) (x : L2State) : hostCopy (l2Put s b line x) line = true :=
  List.any_eq_true.mpr ⟨_, mem_upsert_self _ _ _, beq_self_eq_true line⟩

/-- The host's data for a line is written to host memory, and nothing else changes (R304, R306). -/
theorem hostData_some (s : State) (a : Nat) (d : BitVec 1024) : hostData s a (some d) =
    { s with mem := { s.mem with host := writeBytes s.mem.host (lineAddr a) (bytesOfNat 128 d.toNat) } } := rfl

/-- Where no copy is dirty, the host's data becomes the line's, and the agent has a copy (R304). -/
theorem installLine_spec {s : State} {a : Nat} (agent : Nat) (own : Bool) (d : BitVec 1024) (h : devDeltas s.cache.dsums)
    (hclean : hostDirty s (.hostC (lineAddr a)) = false) :
    let s' := installLine s agent a own (some d)
    s'.mem.host = writeBytes s.mem.host (lineAddr a) (bytesOfNat 128 d.toNat) ∧ s'.flight = s.flight ∧ s'.threads = s.threads ∧
      hostCopy s' (.hostC (lineAddr a)) = true := by
  unfold installLine
  simp only [hclean, Bool.false_eq_true, if_false, hostData_some]
  generalize writeBytes s.mem.host (lineAddr a) (bytesOfNat 128 d.toNat) = bytes
  have hwork (st : L2State) := cacheWork_l2Put { s with mem := { s.mem with host := bytes } } agent (.hostC (lineAddr a)) st
  exact ⟨l2Put_host _ _ _ h, (hwork _).flight, (hwork _).threads, hostCopy_l2Put _ _ _ _⟩

/-! `HOST_MEMORY_COMPLETION` (R304, R306). -/

section completion
variable {s : State} {r : Req} {a : Nat} {d : BitVec 1024}

/-- The host's answer to a coherent access: the line is the device's, and the access may go on (R304). -/
theorem hostCompletion_coherent (hl : findReq s r.id = some r) (hst : r.st = .host) (hask : r.id ∉ s.cache.asked)
    (hpcie : isPcie r = false) (hd : devDeltas s.cache.dsums) (hpa : r.pa = some (.hostC a))
    (hclean : hostDirty s (.hostC (lineAddr a)) = false) :
    ∃ s', exec (.hostMemoryCompletion r.id (some d)) s = .next s' ∧
      s'.mem.host = writeBytes s.mem.host (lineAddr a) (bytesOfNat 128 d.toNat) ∧ findReq s' r.id = some { r with st := .pending } ∧
      hostCopy s' (.hostC (lineAddr a)) = true ∧ s'.threads = s.threads := by
  let own := match r.op with
    | .ld | .ret | .hold false => false
    | _ => true
  have he : exec (.hostMemoryCompletion r.id (some d)) s =
      .next (setReqSt (installLine s (lineAgent r) a own (some d)) r.id .pending) := by
    show execHostMemoryCompletion r.id (some d) s = _
    unfold execHostMemoryCompletion
    simp only [List.contains_eq_mem, hask, decide_false, Bool.false_eq_true, if_false, hl, hst, bne_self_eq_false, hpa, hpcie]
    rfl
  obtain ⟨hmem, hfl, hth, hcopy⟩ := installLine_spec (lineAgent r) own d hd hclean
  have hlisted : findReq (installLine s (lineAgent r) a own (some d)) r.id = some r := by
    unfold findReq
    rw [hfl]
    exact hl
  exact ⟨_, he, hmem, findReq_setReqSt hlisted .pending, hcopy, hth⟩

/-- The host's answer to an access without a copy: its bytes are there to be read or written (R306). -/
theorem hostCompletion_uncached (hl : findReq s r.id = some r) (hst : r.st = .host) (hask : r.id ∉ s.cache.asked)
    (hpcie : isPcie r = false) (hpa : r.pa = some (.hostU a)) :
    ∃ s', exec (.hostMemoryCompletion r.id (some d)) s = .next s' ∧
      s'.mem.host = writeBytes s.mem.host (lineAddr a) (bytesOfNat 128 d.toNat) ∧ findReq s' r.id = some { r with st := .hostDone } ∧
      s'.cache = s.cache ∧ s'.threads = s.threads := by
  have he : exec (.hostMemoryCompletion r.id (some d)) s = .next (setReqSt (hostData s a (some d)) r.id .hostDone) := by
    show execHostMemoryCompletion r.id (some d) s = _
    unfold execHostMemoryCompletion
    simp only [List.contains_eq_mem, hask, decide_false, Bool.false_eq_true, if_false, hl, hst, bne_self_eq_false, hpa, hpcie]
  rw [hostData_some] at he
  generalize writeBytes s.mem.host (lineAddr a) (bytesOfNat 128 d.toNat) = bytes at he ⊢
  exact ⟨_, he, rfl, findReq_setReqSt hl .hostDone, rfl, rfl⟩

end completion

/-! `ATOMICOP_COMPLETION` (R181, R306, R311). -/

/-- Giving up a host line is work of the caches that leaves memory as it is (R304). -/
theorem giveUp_host {s : State} {line : Phys} (h : devDeltas s.cache.dsums) (hl : ∀ p, line ≠ .dev p) :
    HomeWork s (giveUp s line) ∧ (giveUp s line).mem = s.mem := by
  let s1 := l1Drop (l2DropOthers s none line) none line
  have he : giveUp s line = tellEvict s1 line (hostState s line) := by
    unfold giveUp
    rw [mergeLine_host h hl]
    cases line with
    | dev p => exact absurd rfl (hl p)
    | _ => rfl
  have hc : CacheWork s s1 := (cacheWork_l2DropOthers s none line).trans (cacheWork_l1Drop _ _ _)
  rw [he]
  exact ⟨(accessWork_of_caches (hc.trans (cacheWork_tellEvict _ _ _))
    ((onlyTells_of_fw (l2DropOthers_fw s none line)).trans (onlyTells_tellEvict _ _ _))).home,
    (tellEvict_mem _ _ _).trans (l2DropOthers_mem s none line)⟩

theorem hasResult_of_pcie {r : Req} (h : isPcie r = true) : hasResult r.op = true := by
  unfold isPcie at h
  split at h
  · next e => rw [e]; rfl
  · next e => rw [e]; rfl
  · next e => rw [e]; rfl
  · cases h

/-- The host has made the operation: what it computed is in host memory, and the old value lands (R181, R311). -/
theorem atomicopCompletion_lands {s : State} {t : Thread} {r : Req} {a : Nat} {old : Vec} (hl : findReq s r.id = some r)
    (hst : r.st = .host) (hask : r.id ∉ s.cache.asked) (hpa : r.pa = some (.hostC a) ∨ r.pa = some (.hostU a)) (hpcie : isPcie r = true)
    (hri : r.ri = none) (ht : Takes s t r) (hd : devDeltas s.cache.dsums) :
    ∃ s', exec (.atomicopCompletion r.id true old) s = .next s' ∧ Landed s s' t r (lowBytes r.n old) ∧
      s'.mem.host = writeVal s.mem.host a r.n ((atomicNew r (lowBytes r.n old)).getD (lowBytes r.n old)) := by
  let v := lowBytes r.n old
  let after (p : Phys) : State := { giveUp s (lineOf p) with
    mem := { (giveUp s (lineOf p)).mem with host := writeVal (giveUp s (lineOf p)).mem.host a r.n ((atomicNew r v).getD v) } }
  have hp : ∃ p, (∀ q, lineOf p ≠ .dev q) ∧ exec (.atomicopCompletion r.id true old) s = .next (complete (after p) r v) := by
    rcases hpa with e | e
    · refine ⟨.hostC a, nofun, ?_⟩
      show execAtomicopCompletion r.id true old s = _
      unfold execAtomicopCompletion
      simp only [List.contains_eq_mem, hask, decide_false, Bool.false_eq_true, if_false, hl, hst, bne_self_eq_false, hpcie,
        Bool.not_true, Bool.or_self, e]
      rfl
    · refine ⟨.hostU a, nofun, ?_⟩
      show execAtomicopCompletion r.id true old s = _
      unfold execAtomicopCompletion
      simp only [List.contains_eq_mem, hask, decide_false, Bool.false_eq_true, if_false, hl, hst, bne_self_eq_false, hpcie,
        Bool.not_true, Bool.or_self, e]
      rfl
  obtain ⟨p, hline, he⟩ := hp
  obtain ⟨hw, hm⟩ := giveUp_host hd hline
  have hend := complete_endsWith ht hri (hw.trans (homeWork_mem _ (after p).mem)) (hasResult_of_pcie hpcie) v
  refine ⟨_, he, hend.landed, ?_⟩
  rw [hend.mem]
  show writeVal (giveUp s (lineOf p)).mem.host a r.n _ = _
  rw [hm]

/-! An access that ends with a FATAL record (R24, R33, R354). -/

theorem mem_modifyFirst {α : Type} {p : α → Bool} {f : α → α} {l : List α} {x : α} (h : x ∈ modifyFirst p f l) :
    x ∈ l ∨ ∃ y, x = f y := by
  induction l with
  | nil => cases h
  | cons y l ih =>
    unfold modifyFirst at h
    split at h
    · rcases List.mem_cons.mp h with rfl | h
      · exact .inr ⟨y, rfl⟩
      · exact .inl (List.mem_cons_of_mem _ h)
    · rcases List.mem_cons.mp h with rfl | h
      · exact .inl List.mem_cons_self
      · exact (ih h).imp_left (List.mem_cons_of_mem _)

/-- A line that runs settles to its refreshed form, whatever records it has: no wait of it is a switch point (R273). -/
theorem settle_running {s : State} {t : Thread} (hf : findThread s t.key = some t) (hc : inCl1 t = true) (hw : t.wait = .run)
    (hp : t.pend = none) (hz : t.ctx.frz = false) (hn : t.cancel = false)
    (hq : ∀ r ∈ s.flight.reqs, r.key = t.key → isUnrecorded r = false) : settle s t.key = refresh (setThread s t) t.key := by
  obtain ⟨u, hu⟩ := inCl1_loc hc
  have hm : isMoving t = false := by simp [isMoving, hu]
  have hpark : unpark t = t := by
    unfold unpark
    rw [hp, hw]
    rfl
  have hat : atSwitch t = false := by
    unfold atSwitch
    rw [hw]
  unfold settle
  rw [writeUnrecorded_id s t.key hq]
  cases hfat : fatalRec t.trap with
  | none => simp only [hf, hm, hz, hn, hp, hfat, Bool.or_self, Bool.false_eq_true, if_false, hpark]
  | some i => simp only [hf, hm, hz, hn, hp, hfat, hat, Bool.or_self, Bool.false_eq_true, if_false, hpark]

/-- A running thread's line after a FATAL record of an access (R24, R33). -/
def withFatal (t : Thread) (r : Req) (i : BitVec 2) (status : BitVec 5) : Thread :=
  { t with
    ctx := if countsRec r.op then incOutst t.ctx else t.ctx
    trap := setRec t.trap i (recordOf { r with fva := r.va } status) }

/-- Where the line has a free record, a FATAL one is written at once and ends its request (R24, R32). -/
theorem writeRecord_fatal {s : State} {t : Thread} {r : Req} {i : BitVec 2} {status : BitVec 5} (hf : findThread s r.key = some t)
    (hc : inCl1 t = true) (hi : freeRec t.trap = some i) (hn : countsRec r.op = true → t.ctx.outst ≠ 15) (hs : status ≠ 0)
    (page : Nat) :
    writeRecord s { r with fva := r.va } page status =
      dropReq (count (setThread s (withFatal t r i status)) r.bench r.iu 10) r.id := by
  obtain ⟨u, hu⟩ := inCl1_loc hc
  have hm : isMoving t = false := by simp [isMoving, hu]
  have hroom : (countsRec r.op && t.ctx.outst == 15) = false := by
    rw [Bool.and_eq_false_imp]
    exact fun h => beq_eq_false_iff_ne.mpr (hn h)
  unfold writeRecord
  simp only [hf, hm, hi, hroom, Bool.false_eq_true, if_false, bne_iff_ne.mpr hs, if_true]
  rfl

/-- An access of a running thread that meets a fault with no recovery ends with a FATAL record, and memory stays (R354). -/
theorem fatalAccess_endsFatal {s : State} {t : Thread} {r : Req} {i : BitVec 2} {status : BitVec 5} (h : Recordable s t r i)
    (hs : status ≠ 0) : EndsFatal (fatalAccess s r r.va status) t r i status ∧ (fatalAccess s r r.va status).mem = s.mem := by
  have hk : r.key = t.key := (findThread_key h.thread).symm
  let t1 := withFatal t r i status
  let s1 := putReq s { r with fva := r.va }
  let s2 := dropReq (count (setThread s1 t1) r.bench r.iu 10) r.id
  have hf1 : findThread s1 r.key = some t := h.thread
  have hf2 : findThread s2 t1.key = some t1 := by
    show findThread (setThread s1 t1) t1.key = _
    rw [findThread_setThread]
    show (findThread s1 t.key).map _ = _
    rw [← hk, hf1]
    rfl
  have hnone : ∀ q ∈ s2.flight.reqs, q.key = t1.key → isUnrecorded q = false := fun q hq hkey => by
    obtain ⟨hmem, hid⟩ := List.mem_filter.mp hq
    have hne : q.id ≠ r.id := bne_iff_ne.mp hid
    rcases mem_modifyFirst hmem with hold | ⟨_, hnew⟩
    · exact absurd (h.only q hold (hkey.trans hk.symm)) hne
    · exact absurd (by rw [hnew]) hne
  have hz : t1.ctx.frz = false := by
    show (if countsRec r.op then incOutst t.ctx else t.ctx).frz = false
    split
    · exact h.frz
    · exact h.frz
  have he : fatalAccess s r r.va status = refresh (setThread s2 t1) t1.key := by
    have hset : fatalAccess s r r.va status = settle s2 t1.key := by
      unfold fatalAccess
      split
      · next f q n e => exact absurd e (h.kind f q n)
      · split
        · next j e => rw [h.unrecorded] at e; cases e
        · have hkey : settle s2 t1.key = settle s2 r.key := congrArg (settle s2) hk.symm
          rw [hkey]
          exact congrArg (settle · r.key) (writeRecord_fatal hf1 h.cl1 h.rec1 h.count hs _)
    rw [hset]
    exact settle_running hf2 h.cl1 h.runs h.pend hz h.cancel hnone
  have hf3 : findThread (setThread s2 t1) t1.key = some t1 := by
    rw [findThread_setThread, hf2]
    rfl
  obtain ⟨hline, -, hrest, -⟩ := refresh_cl1 (setThread s2 t1) t1 hf3 h.cl1
  rw [he]
  refine ⟨⟨?_, _, hline, rfl, rfl⟩, hrest.mem⟩
  unfold findReq
  rw [hrest.flight]
  exact findReq_drop _ r.id

/-- The host refuses the operation: the access ends with a FATAL record (R181, R311). -/
theorem atomicopCompletion_fatal {s : State} {t : Thread} {r : Req} {i : BitVec 2} {old : Vec} (h : Recordable s t r i)
    (hst : r.st = .host) (hpcie : isPcie r = true) (hask : r.id ∉ s.cache.asked) :
    ∃ s', exec (.atomicopCompletion r.id false old) s = .next s' ∧ EndsFatal s' t r i stSysAtomic ∧ s'.mem = s.mem := by
  have he : exec (.atomicopCompletion r.id false old) s = .next (fatalAccess s r r.va stSysAtomic) := by
    show execAtomicopCompletion r.id false old s = _
    unfold execAtomicopCompletion
    simp only [List.contains_eq_mem, hask, decide_false, Bool.false_eq_true, if_false, h.listed, hst, bne_self_eq_false, hpcie,
      Bool.not_true, Bool.or_self]
  exact ⟨_, he, fatalAccess_endsFatal h (by decide)⟩

/-- Settles O44: `hostSnoops_answer` and the completions. -/
theorem hostSnoops : Obligations.HostSnoops := by
  unfold Obligations.HostSnoops
  refine ⟨hostSnoops_answer, fun s r a d hl hst hask hpcie hd => ⟨fun hpa hclean => ?_, fun hpa => ?_⟩, ?_,
    fun s t r i old h hst hpcie hask => atomicopCompletion_fatal h hst hpcie hask⟩
  · exact hostCompletion_coherent hl hst hask hpcie hd hpa hclean
  · exact hostCompletion_uncached hl hst hask hpcie hpa
  · intro s t r a old hl hst hask hpa hpcie hri hf hc hp hz hn hr hq hd
    exact atomicopCompletion_lands hl hst hask hpa hpcie hri ⟨hf, hc, hp, hz, hn, hr, hq⟩ hd

end Sys2Proof.Machine
end

section
/-! `TALLOC` (08_tiles_and_matrix R203, R205). -/

namespace Sys2Proof.Machine
open Sys2Proof.Forms Sys2Proof.Spec

/-- The reserve of a bench for a space is what it was set to (R203). -/
theorem reserveOf_setReserve (s : State) (b c : Nat) (asid a : BitVec 16) (n : Nat) :
    reserveOf (setReserve s b asid n) c a = if c = b ∧ a = asid then n else reserveOf s c a := by
  unfold reserveOf setReserve
  split
  · next h =>
    obtain ⟨rfl, rfl⟩ := h
    rw [find?_upsert_same _ _ _ (by simp)]
    rfl
  · next h =>
    have hne : ¬ (b = c ∧ asid = a) := fun e => h ⟨e.1.symm, e.2.symm⟩
    rw [find?_upsert_other (fun x : Nat × BitVec 16 × Nat => x.1 == b && x.2.1 == asid)]
    · intro y hy
      simp only [Bool.and_eq_true, beq_iff_eq] at hy
      rw [hy.1, hy.2]
      simpa using hne
    · simpa using hne

/-- A new tile's bytes are 0, and no other byte changes (R205). -/
theorem cellRead_clearTile (s : State) (asid : BitVec 16) (i n : Nat) :
    cellRead (clearTile s asid i).mem.tiles n =
      if tileAddr asid i 0 ≤ n ∧ n < tileAddr asid i 131072 then 0 else cellRead s.mem.tiles n := by
  unfold clearTile
  refine (cellRead_filter s.mem.tiles (fun k => !(decide (tileAddr asid i 0 ≤ k) && decide (k < tileAddr asid i 0 + 2 ^ 17))) n).trans ?_
  have hend : tileAddr asid i 131072 = tileAddr asid i 0 + 2 ^ 17 := by simp [tileAddr]
  rw [hend]
  have hin : (!(decide (tileAddr asid i 0 ≤ n) && decide (n < tileAddr asid i 0 + 2 ^ 17))) = true ↔
      ¬ (tileAddr asid i 0 ≤ n ∧ n < tileAddr asid i 0 + 2 ^ 17) := by
    rw [Bool.not_eq_true', ← Bool.not_eq_true, Bool.and_eq_true, decide_eq_true_iff, decide_eq_true_iff]
  by_cases hn : tileAddr asid i 0 ≤ n ∧ n < tileAddr asid i 0 + 2 ^ 17
  · rw [if_pos hn, if_neg (mt hin.mp (not_not.mpr hn))]
  · rw [if_neg hn, if_pos (hin.mpr hn)]

/-- A free index is an index of the table that is not bound (R205, R206). -/
theorem freeIndex_spec {s : State} {x : Space} {i : Nat} (h : freeIndex s x = some i) :
    0 < i ∧ i < x.htsize.toNat ∧ (getHandle x i).v = false := by
  unfold freeIndex at h
  have hp := List.find?_some h
  obtain ⟨j, -, rfl⟩ := List.mem_map.mp (List.mem_of_find?_eq_some h)
  simp only [Bool.and_eq_true, decide_eq_true_eq, Bool.not_eq_true', boundAt] at hp
  exact ⟨Nat.succ_pos j, hp.1.1, hp.1.2⟩

/-- The rows and columns that the operand of `TALLOC` asks for (R205). -/
theorem tileShape_parts {v : Word} (h : v.toNat < 2 ^ 32) :
    v.extractLsb' 32 32 = 0 ∧ v.extractLsb' 16 16 = BitVec.ofNat 16 (v.toNat / 2 ^ 16) ∧
      (v.extractLsb' 16 16).toNat = v.toNat / 2 ^ 16 ∧ v.extractLsb' 0 16 = BitVec.ofNat 16 (v.toNat % 2 ^ 16) ∧
      (v.extractLsb' 0 16).toNat = v.toNat % 2 ^ 16 := by
  have hrows : (v.extractLsb' 16 16).toNat = v.toNat / 2 ^ 16 := by
    simp only [BitVec.extractLsb'_toNat, Nat.shiftRight_eq_div_pow]
    omega
  have hcols : (v.extractLsb' 0 16).toNat = v.toNat % 2 ^ 16 := by simp
  refine ⟨BitVec.eq_of_toNat_eq ?_, ?_, hrows, ?_, hcols⟩
  · rw [BitVec.extractLsb'_toNat, Nat.shiftRight_eq_div_pow, Nat.div_eq_of_lt h]
    rfl
  · rw [← hrows, BitVec.ofNat_toNat, BitVec.setWidth_eq]
  · rw [← hcols, BitVec.ofNat_toNat, BitVec.setWidth_eq]

/-- What `TALLOC` does once shape, size and quota are right (R203, R205). -/
def allocate (s : State) (t : Thread) (x : Space) (fmt : BitVec 8) (d : Opd) (rows cols : BitVec 16) (size : Nat) : Did :=
  if x.htsize.toNat ≤ (x.handles.filter (·.v)).length + 1 then finish s t (setDst t.ctx d false 0)
  else match freeIndex s x with
    | none => .skip s
    | some i => match reserveOf s t.bench t.key.asid with
      | 0 => .skip (refillReserve s t.bench t.key.asid)
      | n + 1 => finish (bindTile (setReserve s t.bench t.key.asid n) t fmt rows cols size i) t
          (setDst t.ctx d false (BitVec.ofNat 128 i))

/-- `TALLOC` of a shape, a size and an owner within their bounds allocates (R205). -/
theorem talloc_body {s : State} {t : Thread} {x : Space} (hx : findSpace s t.key.asid = some x) (h : Hdr) (fmt : BitVec 6) (d a : Opd)
    {rows cols size : Nat} (hrows : (sVal s t a).toNat / 2 ^ 16 = rows) (hcols : (sVal s t a).toNat % 2 ^ 16 = cols)
    (hsize : rows * fmtRowBytes (fmt.setWidth 8) cols = size) (hv : (sVal s t a).toNat < 2 ^ 32) (hr0 : rows ≠ 0) (hc0 : cols ≠ 0)
    (hsbf : 0x11 ≤ fmt.toNat ∧ fmt.toNat ≤ 0x14 → cols = 128) (hmax : size ≤ 131072)
    (hlim : ∀ l, launchOf s t.ctx.lslot = some l → size ≤ l.tbytes.toNat ∧ ownedTiles x t.ctx.ctxid < l.ntile.toNat) :
    ∃ body, exec (.talloc h fmt d a) s = issue s (.talloc h fmt d a) h false [(1, d, false), (2, a, false)] body ∧
      body s t = allocate s t x (fmt.setWidth 8) d (BitVec.ofNat 16 rows) (BitVec.ofNat 16 cols) size := by
  obtain ⟨hhigh, hr, hrn, hc, hcn⟩ := tileShape_parts hv
  rw [hrows] at hr hrn
  rw [hcols] at hc hcn
  rw [← hr, ← hc]
  have hrne : ((sVal s t a).extractLsb' 16 16 == 0) = false := beq_eq_false_iff_ne.mpr fun e => hr0 (by rw [← hrn, e]; rfl)
  have hcne : ((sVal s t a).extractLsb' 0 16 == 0) = false := beq_eq_false_iff_ne.mpr fun e => hc0 (by rw [← hcn, e]; rfl)
  have hshape : (decide (0x11 ≤ fmt.toNat) && decide (fmt.toNat ≤ 0x14) && (sVal s t a).extractLsb' 0 16 != 128) = false := by
    rw [← Bool.decide_and, Bool.and_eq_false_imp, decide_eq_true_eq]
    intro hf
    rw [hc, hsbf hf]
    rfl
  have hbig : (((tileLimit s t).map fun l => decide (l.1.toNat < size)).getD false) = false := by
    unfold tileLimit
    rw [Option.map_map]
    exact getD_map_false fun l hl => by simpa using (hlim l hl).1
  have hquota : (((tileLimit s t).map fun l => decide (l.2.toNat ≤ ownedTiles x t.ctx.ctxid)).getD false) = false := by
    unfold tileLimit
    rw [Option.map_map]
    exact getD_map_false fun l hl => by simpa using (hlim l hl).2
  have hsmall : decide (131072 < size) = false := decide_eq_false (by omega)
  refine ⟨_, by rfl, ?_⟩
  simp only [hhigh, hrne, hcne, hshape, hrn, hcn, hsize, hsmall, hbig, hx, hquota, bne_self_eq_false, Bool.or_self, Bool.false_eq_true,
    if_false, decide_eq_true_eq]
  rfl

/-- The entry of a new binding (R205). -/
def newTile (t : Thread) (fmt : BitVec 8) (rows cols : BitVec 16) (size : Nat) (e : Handle) : Handle :=
  { e with v := true, busy := false, pin := 0, nfr := BitVec.ofNat 4 (framesOf size)
           hbench := BitVec.ofNat 10 t.bench, hiu := BitVec.ofNat 8 (iuAt t), frames := BitVec.allOnes 40
           rows := rows, cols := cols, fmt := fmt, owner := t.ctx.ctxid, lost := 0 }

/-- What a binding from the reserve leaves, once its thread retires: one entry is new, the bytes of its tile are 0, the reserve is one
less, and everything else stays (R203, R205). -/
theorem bind_retired {s s' : State} {t : Thread} {h : Hdr} {c : Ctx} {pc : VAddr} {x : Space} {fmt : BitVec 8} {rows cols : BitVec 16}
    {size i n : Nat} (hx : findSpace s t.key.asid = some x)
    (r : Retired (bindTile (setReserve s t.bench t.key.asid n) t fmt rows cols size i) s' t h c pc) :
    TileKeep s s' t ∧ reserveOf s' t.bench t.key.asid = n ∧ entryIs s' t x i (newTile t fmt rows cols size (getHandle x i)) ∧
      ∀ a, cellRead s'.mem.tiles a =
        if tileAddr t.key.asid i 0 ≤ a ∧ a < tileAddr t.key.asid i 131072 then 0 else cellRead s.mem.tiles a := by
  obtain ⟨hfind, hothers, hget⟩ := onHandle_spec hx i (newTile t fmt rows cols size) fun _ => rfl
  have hspace : ∀ a, findSpace s' a = findSpace (onHandle s t.key.asid i (newTile t fmt rows cols size)) a := fun a => by
    unfold findSpace
    rw [r.spaces]
    rfl
  have hres : ∀ b a, reserveOf s' b a = if b = t.bench ∧ a = t.key.asid then n else reserveOf s b a := fun b a => by
    rw [← reserveOf_setReserve]
    unfold reserveOf
    rw [r.cache]
    rfl
  refine ⟨⟨r.others, ?_, ?_, ?_, ?_, ?_, fun b a hne => by rw [hres, if_neg hne], r.mmu, r.flight, r.eng, r.queues,
    fun a ha => (hspace a).trans (hothers a ha)⟩, ?_, ⟨_, (hspace _).trans hfind, rfl, hget⟩, fun a => ?_⟩
  · rw [r.mem]; rfl
  · rw [r.mem]; rfl
  · rw [r.mem]; rfl
  · rw [r.mem]; rfl
  · rw [r.cache]; rfl
  · rw [hres, if_pos ⟨rfl, rfl⟩]
  · rw [r.mem]
    exact cellRead_clearTile _ _ _ _

/-- Settles O16: a full table answers 0; else the lowest free index is bound from the reserve. -/
theorem tileAlloc : Obligations.TileAlloc := by
  intro s t h fmt d a x hi hr hx v rows cols size hv hr0 hc0 hsbf hmax hlim
  obtain ⟨body, he, hb⟩ := talloc_body hx h fmt d a rfl rfl rfl hv hr0 hc0 hsbf hmax hlim
  refine ⟨fun hfull => ?_, fun i hroom hfree hres => ?_⟩
  · exact retired_of_finish he hi hr (hb.trans (if_pos hfull)) (setDst_keeps ..)
  · obtain ⟨n, hn⟩ := Nat.exists_eq_succ_of_ne_zero hres
    have hbind : body s t = finish (bindTile (setReserve s t.bench t.key.asid n) t (fmt.setWidth 8) (BitVec.ofNat 16 rows)
        (BitVec.ofNat 16 cols) size i) t (setDst t.ctx d false (BitVec.ofNat 128 i)) := by
      rw [hb, allocate, if_neg (Nat.not_le.mpr hroom), hfree, hn]
    rw [finish, setDst_pc] at hbind
    rw [he]
    obtain ⟨s', hs', r⟩ := issue_on (priv := false) (regs := [(1, d, false), (2, a, false)]) hi hr nofun hbind
      (current_find ((issues_iff _ _ _).mp hi).1) rfl (setDst_frz ..) (setDst_step ..)
    obtain ⟨hkeep, hleft, hentry, hbytes⟩ := bind_retired hx r
    obtain ⟨hpos, hlt, hunbound⟩ := freeIndex_spec hfree
    refine ⟨s', hs', r.line, hkeep, by rw [hleft, hn], hpos, hlt, hunbound, hentry, fun o ho => ?_, fun k hk => ?_⟩
    · rw [hbytes, if_pos ⟨Nat.add_le_add_left (Nat.zero_le o) _, Nat.add_lt_add_left ho _⟩]
    · rw [hbytes, if_neg (by omega)]

end Sys2Proof.Machine
end

section
/-! `TLDE` and `TSTE` to a valid range of a tile (08_tiles_and_matrix R201, R202, R203, R210). -/

namespace Sys2Proof.Machine
open Sys2Proof.Forms Sys2Proof.Spec

/-- An instruction that issues again later leaves its line parked, and nothing else changes (R75 step 11). -/
theorem issue_park {s : State} {t : Thread} {i : Instr} {h : Hdr} {priv : Bool} {regs : List (BitVec 8 × Opd × Bool)}
    {body : State → Thread → Did} {w : Wait}
    (hi : issues s t h = true) (hr : noneFrom t.ctx (regs.map (·.2)) = true) (hp : priv = true → t.ctx.sup = true)
    (hb : body s t = .park s w) :
    ∃ s' x, issue s i h priv regs body = .next s' ∧ findThread s' t.key = some x ∧
      x.wait = (unpark { t with wait := w }).wait ∧ x.ctx = { t.ctx with wkind := x.ctx.wkind } ∧ x.trap = t.trap ∧
      (∀ k, k ≠ t.key → findThread s' k = findThread s k) ∧ RestSame s s' := by
  obtain ⟨hc, hq, hg⟩ := (issues_iff _ _ _).mp hi
  obtain ⟨hcl, -, hpend, hz, hn, -, hfat, hun⟩ := (quiet_iff _ _).mp hq
  let y : Thread := { t with wait := w }
  let s1 := onThread s t.key fun t => { t with wait := w }
  have hy : findThread s1 y.key = some y :=
    (findThread_onThread _ _ _ (by exact fun _ hk => hk)).trans (by rw [current_find hc]; rfl)
  obtain ⟨⟨x, hx, hxy, -⟩, hothers, hsettle, -⟩ := settle_line s1 y hy hcl hpend hfat hz hn hun
  refine ⟨settle s1 t.key, x, ?_, hx, ?_, ?_, ?_, fun k hk => ?_, (restSame_onThread _ _ _).trans hsettle⟩
  · have h1 : ((getP t.ctx h.g ^^ h.n) == false) = false := by simp [hg]
    have h2 : (priv && !t.ctx.sup) = false := by
      cases hpriv : priv with
      | false => rfl
      | true => simp [hp hpriv]
    simp only [issue, hc, h1, h2, Bool.false_eq_true, if_false, hazard_none _ _ hr, hb]
    rfl
  · rw [hxy]
  · rw [hxy]
  · rw [hxy, unpark_parts y]
  · exact (hothers k hk).trans (findThread_onThread_other _ _ _ _ hk fun _ h => h)

/-- The entry that the address of a tile byte names, when it is in the bench handle cache, is all that its access asks for (R203). -/
theorem entriesIn_address {s : State} {t : Thread} {x : Space} {e : Handle} {ea : Word} (hv : validHandle x (ea.extractLsb' 32 32) = some e)
    (hc : entryHere s t.bench t.key.asid (ea.toNat / 2 ^ 32) = true) :
    entriesIn s t (if (ea.extractLsb' 32 32).extractLsb' 24 8 == 0 then [((ea.extractLsb' 32 32).setWidth 24).toNat] else []) := by
  obtain ⟨-, h8, -, -⟩ := validHandle_some hv
  rw [if_pos (beq_iff_eq.mpr h8)]
  have h8' : ((ea.extractLsb' 32 32).extractLsb' 24 8).toNat = 0 := congrArg BitVec.toNat h8
  have hidx : ((ea.extractLsb' 32 32).setWidth 24).toNat = ea.toNat / 2 ^ 32 := by
    have := ea.isLt
    simp only [BitVec.extractLsb'_toNat, BitVec.toNat_setWidth, Nat.shiftRight_eq_div_pow] at h8' ⊢
    omega
  rw [hidx]
  intro i hi _ _ _ _
  rw [List.mem_singleton.mp hi]
  exact hc

/-- `TLDE` and `TSTE` to an aligned range of a tile, within its launch's limits and below that of results: what is left is whether the
frame is there, its bank awake and room for a request (R75 step 11, R201, R202). -/
theorem tileAccess_valid {s : State} {t : Thread} {x : Space} {e : Handle} {ty : Ty} {ea : Word} {counts : Bool}
    (hx : findSpace s t.key.asid = some x) (hv : validHandle x (BitVec.ofNat 32 (ea.toNat / 2 ^ 32)) = some e)
    (hc : entryHere s t.bench t.key.asid (ea.toNat / 2 ^ 32) = true) (hal : ea.toNat % 2 ^ 32 % bytes ty = 0)
    (hsize : ea.toNat % 2 ^ 32 + bytes ty ≤ tileSize e)
    (hlim : ∀ l, launchOf s t.ctx.lslot = some l → ea.toNat % 2 ^ 32 + bytes ty ≤ l.tbytes.toNat)
    (hout : counts = true → t.ctx.outst ≠ 15) (iw : IWord) (go : Handle → Nat → Did) :
    tileAccess s t ty iw ea counts go =
      let j := ea.toNat % 2 ^ 32 / 16384
      if !resident e j then .park s (.tile e.idx j iw)
      else if !bankAwake s e.hbench.toNat e.hiu.toNat (frameNo e j) then
        .park (wakeBank s e.hbench.toNat e.hiu.toNat (frameNo e j)) (.tile e.idx j iw)
      else if entriesFull s t then .skip s
      else go e (ea.toNat % 2 ^ 32) := by
  obtain ⟨hhigh, hlow⟩ := tileAddress_parts ea
  rw [hhigh] at hv
  have hbound : (((tileLimit s t).map fun l => decide (l.1.toNat < ea.toNat % 2 ^ 32 + bytes ty)).getD false) = false := by
    unfold tileLimit
    rw [Option.map_map]
    exact getD_map_false fun l hl => by simpa using hlim l hl
  have hfits : decide (tileSize e < ea.toNat % 2 ^ 32 + bytes ty) = false := decide_eq_false (by omega)
  have hroom : (counts && t.ctx.outst == 15) = false := by
    rw [Bool.and_eq_false_imp]
    exact fun h => beq_eq_false_iff_ne.mpr (hout h)
  unfold tileAccess
  dsimp only
  rw [withEntries_here (entriesIn_address hv hc), hx, Option.bind_some, hv, hlow]
  simp only [hal, hfits, hbound, hroom, ne_eq, not_true_eq_false, Bool.or_self, Bool.false_eq_true, if_false]

end Sys2Proof.Machine

namespace Sys2Proof.Spec
open Sys2Proof.Forms Sys2Proof.Machine

/-- Settles O18: past its checks the access is entered, or the instruction parks until the frame is there. -/
theorem tileAccess : Obligations.TileAccess := by
  intro s t h y x e hi hr hx ea o n hv hc hal hsize hlim
  have hvalid := fun (counts : Bool) (hout : counts = true → t.ctx.outst ≠ 15) =>
    tileAccess_valid (ty := y.ty) hx hv hc hal hsize hlim hout
  refine ⟨fun hres hawake hfull => ?_, fun hres i hmem hout => ?_⟩
  · have henters : ∀ counts, (counts = true → t.ctx.outst ≠ 15) → ∀ iw go,
        Machine.tileAccess s t y.ty iw ea counts go = go e o := fun counts hout iw go => by
      rw [hvalid counts hout]
      simp only [show resident e (ea.toNat % 2 ^ 32 / 16384) = true from hres, Bool.not_true, Bool.false_eq_true, if_false, hfull]
      rw [if_neg (by rw [show bankAwake s _ _ _ = true from hawake]; nofun)]
    refine ⟨fun hout => ?_, ?_⟩
    · unfold exec execTlde
      exact issue_enter (priv := false) (regs := memRegs y.d (y.ty == .b128) y.mem) (r := tldeReq t h y e.idx o) (pends := true)
        (counts := true) hi hr nofun (henters true (fun _ => hout) _ _) rfl
    · rw [← dataOf_eq]
      unfold exec execTste
      exact issue_enter (priv := false) (regs := memRegs y.d (y.ty == .b128) y.mem) (r := tsteReq s t h y e.idx o) (pends := false)
        (counts := false) hi hr nofun (henters false nofun _ _) rfl
  · have hparks : ∀ counts, (counts = true → t.ctx.outst ≠ 15) → ∀ iw go,
        Machine.tileAccess s t y.ty iw ea counts go = .park s (.tile e.idx (o / 16384) iw) := fun counts hout iw go => by
      rw [hvalid counts hout]
      exact if_pos (by rw [show resident e (ea.toNat % 2 ^ 32 / 16384) = false from hres]; rfl)
    have hpend : t.pend = none := ((quiet_iff _ _).mp ((issues_iff _ _ _).mp hi).2.1).2.2.1
    obtain ⟨s', z, hs', hz, hwait, hctx, htrap, hothers, hrest⟩ : ∃ s' z, exec i s = .next s' ∧ findThread s' t.key = some z ∧
        z.wait = (unpark { t with wait := .tile e.idx (o / 16384) (Decode.encode i) }).wait ∧
        z.ctx = { t.ctx with wkind := z.ctx.wkind } ∧ z.trap = t.trap ∧ (∀ k, k ≠ t.key → findThread s' k = findThread s k) ∧
        RestSame s s' := by
      rcases List.mem_pair.mp hmem with rfl | rfl
      · unfold exec execTlde
        exact issue_park hi (by exact hr) nofun (hparks true (fun _ => hout rfl) _ _)
      · unfold exec execTste
        exact issue_park hi (by exact hr) nofun (hparks false nofun _ _)
    exact ⟨s', z, hs', hz, hwait.trans (unpark_wait _ hpend), hctx, htrap, hothers, hrest.mem, hrest.cache, hrest.flight, hrest.spaces⟩

end Sys2Proof.Spec
end

section
/-! Engine commands at issue, and `MQRY` (08_tiles_and_matrix R214, R216, R224; R249, R310, R366, R370). -/

namespace Sys2Proof.Machine
open Sys2Proof.Forms Sys2Proof.Spec

/-! The intake of a bench, and the call for a token's line. -/

theorem sameCmd_refl (c : Cmd) : sameCmd c c := ⟨rfl, fun h => absurd rfl h⟩

/-- The intake passes copy commands to engines and changes nothing else (R370). -/
theorem intake_sameCmd (b m n : Nat) (l : List Cmd) : List.Forall₂ sameCmd l (intake b m n l) := by
  induction l generalizing m n with
  | nil => exact .nil
  | cons c l ih =>
    unfold intake
    split
    · next hc =>
      simp only [Bool.and_eq_true, beq_iff_eq] at hc
      obtain ⟨⟨-, hcopy⟩, hhome⟩ := hc
      split
      · exact .cons ⟨rfl, fun _ => ⟨hhome, hcopy, .inl rfl⟩⟩ (ih _ _)
      · split
        · exact .cons ⟨rfl, fun _ => ⟨hhome, hcopy, .inr rfl⟩⟩ (ih _ _)
        · exact .cons (sameCmd_refl c) (ih _ _)
    · exact .cons (sameCmd_refl c) (ih _ _)

/-- With the token's line in no host cache the host is asked for nothing (R310). -/
theorem callToken_none {s : State} {c : Cmd} (h : ∀ p s1, translate s (.bench c.bench) c.key.asid { sup := c.sup } c.tok = .ok p s1 →
    hostBlocks s (lineOf p) .home = none) (run : Run) (th : List Thread) (fl : Flight) (en : Engines) (qs : Queues) :
    callToken (around run th fl en qs s) c = around run th fl en qs s := by
  unfold callToken
  rw [translate_around]
  cases htr : translate s (.bench c.bench) c.key.asid { sup := c.sup } c.tok with
  | ok p s1 =>
    have hb : hostBlocks (around run th fl en qs s) (lineOf p) .home = none := h p s1 htr
    simp only [onTrans, hb]
  | wait => rfl
  | busy s1 => rfl
  | bad st => rfl
  | notHbm a => rfl

/-! The turn of an engine (R367). -/

/-- An engine that is put under its names is found under them. -/
theorem getMat_putMat_named (s : State) {m : Mat} {b g : Nat} (hb : m.bench = b) (hg : m.group = g) : getMat (putMat s m) b g = m := by
  subst hb hg
  exact getMat_putMat_same s m

/-- No engine has changed but one, and that in its turn alone. -/
structure TurnOnly (s s' : State) (b g : Nat) : Prop where
  turns : ∀ c k, getMat s' c k = { getMat s c k with turn := (getMat s' c k).turn, turnLeft := (getMat s' c k).turnLeft }
  others : ∀ c k, ¬ (c = b ∧ k = g) → getMat s' c k = getMat s c k

theorem turnOnly_refl (s : State) (b g : Nat) : TurnOnly s s b g := ⟨fun _ _ => rfl, fun _ _ _ => rfl⟩

theorem turnOnly_putMat (s : State) (b g : Nat) {m : Mat} (hm : m = { getMat s b g with turn := m.turn, turnLeft := m.turnLeft }) :
    TurnOnly s (putMat s m) b g := by
  obtain ⟨hb, hg⟩ := getMat_names s b g
  have hmb : m.bench = b := by rw [hm]; exact hb
  have hmg : m.group = g := by rw [hm]; exact hg
  have hothers : ∀ c k, ¬ (c = b ∧ k = g) → getMat (putMat s m) c k = getMat s c k := fun c k hne =>
    getMat_putMat_other s m fun e => hne ⟨e.1.symm.trans hmb, e.2.symm.trans hmg⟩
  refine ⟨fun c k => ?_, hothers⟩
  by_cases he : c = b ∧ k = g
  · obtain ⟨rfl, rfl⟩ := he
    rw [getMat_putMat_named s hmb hmg]
    exact hm
  · rw [hothers c k he]

/-- Settling the turn of an engine changes its turn alone (R367). -/
theorem settleTurn_turnOnly (s : State) (b g : Nat) : TurnOnly s (settleTurn s b g) b g := by
  unfold settleTurn
  dsimp only
  split
  · exact turnOnly_refl s b g
  · split
    · exact turnOnly_putMat s b g rfl
    · split
      · exact turnOnly_refl s b g
      · exact turnOnly_putMat s b g rfl

/-! Acceptance (R214). -/

/-- A command stands at the end of its queue, and nothing else has changed but turns, counters and the numbers given. -/
structure CmdEnters (s s' : State) (c : Cmd) : Prop where
  eq : s' = { s with run := s'.run, ius := s'.ius, eng := s'.eng }
  cmds : List.Forall₂ sameCmd (s.eng.cmds ++ [c]) s'.eng.cmds
  mats : TurnOnly s s' c.bench (c.iu / 8)
  queue : ∀ b u, (getIu s' b u).queue = (getIu s b u).queue ++ if b = c.bench ∧ u = c.iu then [c.id] else []

/-- A command whose token's line the host does not hold enters its queue (R214, R310). -/
theorem enqueueCmd_enters {s : State} {c : Cmd} (h : ∀ p s1, translate s (.bench c.bench) c.key.asid { sup := c.sup } c.tok = .ok p s1 →
    hostBlocks s (lineOf p) .home = none) : CmdEnters s (enqueueCmd (takeSeq s).2 c) c := by
  let s1 := passCopies (around { s.run with seq := nextSeq s + 1 } s.threads s.flight { s.eng with cmds := s.eng.cmds ++ [c] } s.queues s)
    c.bench
  let s2 := onIu s1 c.bench c.iu fun x => { x with queue := x.queue ++ [c.id] }
  have he : enqueueCmd (takeSeq s).2 c = settleTurn s2 c.bench (groupOf c.iu) := by
    have hcall := callToken_none h { s.run with seq := nextSeq s + 1 } s.threads s.flight
      { s.eng with cmds := s.eng.cmds ++ [c] } s.queues
    have hadd : addCmd (takeSeq s).2 c = s1 := congrArg (passCopies · c.bench) hcall
    unfold enqueueCmd
    rw [hadd]
  obtain ⟨⟨l, hl⟩, -⟩ := settleTurn_mats s2 c.bench (groupOf c.iu)
  obtain ⟨hturns, hothers⟩ := settleTurn_turnOnly s2 c.bench (groupOf c.iu)
  have hq : ∀ b u, (getIu s2 b u).queue = (getIu s b u).queue ++ if b = c.bench ∧ u = c.iu then [c.id] else [] := fun b u => by
    rw [getIu_onIu s1 c.bench c.iu b u _ (by exact fun _ => ⟨rfl, rfl⟩)]
    split
    · next hbu => obtain ⟨rfl, rfl⟩ := hbu; rfl
    · exact (List.append_nil _).symm
  rw [he]
  refine ⟨?_, ?_, ⟨hturns, hothers⟩, fun b u => ?_⟩
  · rw [hl]; rfl
  · rw [hl]; exact intake_sameCmd _ _ _ _
  · rw [← hq, hl]; rfl

theorem count_enters {s s' : State} {c : Cmd} (h : CmdEnters s s' c) (b u n : Nat) : CmdEnters s (count s' b u n) c where
  eq := by rw [h.eq]; rfl
  cmds := h.cmds
  mats := ⟨h.mats.turns, h.mats.others⟩
  queue := fun c v => ((count_spec s' b u n).2.2 c v).1.queue.trans (h.queue c v)

/-- The rounding mode at issue is the one that the instruction fixes, else the thread's (R103, R214). -/
theorem rmFixed_eq_keptMode (rm : Option RMode) (m : BitVec 3) : rmFixed rm m = keptMode rm m := by
  cases rm with
  | none => rfl
  | some x => cases x <;> rfl

/-- The command of an instruction's fields (R212, R249). -/
def fieldsCmd (f : CmdFields) (m : BitVec 3) : Cmd :=
  { plainCmd f.kind f.ty (keptMode f.rm m) with op := f.op, np := f.np, init := f.init, bank := f.bank, sig := f.sig }

theorem noneFrom_of_subset {c : Ctx} {l m : List (Opd × Bool)} (h : noneFrom c m = true) (hl : l ⊆ m) : noneFrom c l = true :=
  List.all_eq_true.mpr fun x hx => List.all_eq_true.mp h x (hl hx)

/-- An engine command past the checks of its operands is accepted (R214, R216). -/
theorem engineIssue_accepts {s : State} {t : Thread} {h : Hdr} {i : Instr} {f : CmdFields} {regs : List (BitVec 8 × Opd × Bool)}
    {d a b c : Opd} {check : State → Thread → Word → Word → Word → Option Did} (hi : issues s t h = true)
    (he : exec i s = engineIssue s i h regs d a b c check) (hf : cmdFields i = some f)
    (hregs : regs.map (·.2) ⊆ [(d, false), (a, false), (b, false), (c, false)])
    (hcheck : check s t (sVal s t a) (sVal s t b) (sVal s t c) = none) : Spec.accepts s t h i d a b c (fieldsCmd f t.ctx.rm) := by
  intro hr hfull htok hin hcall
  let s2 := acceptCmd s t i f (sVal s t d) (sVal s t a) (sVal s t b) (sVal s t c)
  let cmd : Cmd := { fieldsCmd f t.ctx.rm with
    id := nextSeq s, key := t.key, uid := t.uid, lslot := t.ctx.lslot, bench := t.bench, iu := iuAt t, iw := Decode.encode i
    tok := sVal s t d, a := sVal s t a, b := sVal s t b, c := sVal s t c, sup := t.ctx.sup }
  have hs2 : s2 = count (enqueueCmd (takeSeq s).2 cmd) t.bench (iuAt t) 12 := by
    simp only [s2, acceptCmd, rmFixed_eq_keptMode]
    rfl
  have w : CmdEnters s s2 cmd := hs2 ▸ count_enters (enqueueCmd_enters hcall) _ _ _
  have hal : ((sVal s t d).extractLsb' 0 3 != 0) = false := by
    rw [bne_eq_false_iff_eq]
    refine BitVec.eq_of_toNat_eq ?_
    rw [BitVec.extractLsb'_toNat, Nat.shiftRight_zero]
    exact htok
  obtain ⟨s', hs', r⟩ : ∃ s', exec i s = .next s' ∧ Retired s2 s' t h t.ctx (t.ctx.pc + 12) := by
    rw [he]
    unfold engineIssue
    refine issue_keep hi (noneFrom_of_subset hr hregs) nofun ?_
      ((findThread_of_threads s s2 (by rw [w.eq]) _).trans (current_find ((issues_iff _ _ _).mp hi).1)) (by rw [w.eq])
    have hhere : entriesIn s t (matrixEntries f.kind (sVal s t a) (sVal s t b) (sVal s t c)) := hin
    dsimp only
    rw [hf, Option.map_some, Option.getD_some, withEntries_here hhere, hfull, hal, hcheck]
    rfl
  have hmat : ∀ b g, getMat s' b g = getMat s2 b g := fun b g => by unfold getMat; rw [r.eng]
  refine ⟨s', hs', r.line, fun k hk => (r.others k hk).trans (by rw [w.eq]; rfl), by rw [r.eng]; exact w.cmds, fun b g => ?_,
    fun b g hne => ?_, fun b u => (r.ius b u).queue.trans (w.queue b u), ?_, ?_, ?_, ?_, ?_, ?_, ?_, ?_⟩
  · rw [hmat]; exact w.mats.turns b g
  · rw [hmat]; exact w.mats.others b g hne
  · rw [r.mem, w.eq]
  · rw [r.cache, w.eq]
  · rw [r.mmu, w.eq]
  · rw [r.flight, w.eq]
  · rw [r.spaces, w.eq]
  · rw [r.queues, w.eq]
  · rw [r.fw, w.eq]
  · rw [r.pkg, w.eq]

/-- Aligned records pass the check of copy and link commands (R249). -/
theorem recordsAligned_none {s : State} {t : Thread} {a b : Word} (ha : a.toNat % 128 = 0) (hb : b.toNat % 128 = 0) (c : Word) :
    recordsAligned s t a b c = none := by simp [recordsAligned, ha, hb]

/-- Each engine command is `engineIssue` of its fields. -/
theorem engineIssue_each : Spec.EngineIssue := by
  intro s t h hi v m
  refine ⟨fun x hc => ?_, fun x hc => ?_, fun x rm hc => ?_, fun x hc => ?_, fun x ha hb => ⟨?_, ?_, ?_, ?_⟩⟩
  · exact engineIssue_accepts hi (show exec (.mldw h x) s = execMldw h x s from rfl) rfl (by simp) hc
  · exact engineIssue_accepts hi (show exec (.mma h x) s = execMma h x s from rfl) rfl (by simp) hc
  · exact engineIssue_accepts hi (show exec (.macc h rm x) s = execMacc h rm x s from rfl) rfl (by simp) hc
  · exact engineIssue_accepts hi (show exec (.mcvt h x) s = execMcvt h x s from rfl) rfl (by simp) hc
  · exact engineIssue_accepts hi (show exec (.cpy h x) s = execCpy h x s from rfl) rfl (by simp) (recordsAligned_none ha hb _)
  · exact engineIssue_accepts hi (show exec (.cred h x) s = execCred h x s from rfl) rfl (by simp) (recordsAligned_none ha hb _)
  · exact engineIssue_accepts hi (show exec (.xcpy h x) s = execXcpy h x s from rfl) rfl (by simp) (recordsAligned_none ha hb _)
  · exact engineIssue_accepts hi (show exec (.xred h x) s = execXred h x s from rfl) rfl (by simp) (recordsAligned_none ha hb _)

/-! The state of an engine (R224). -/

/-- A bank's tag leaves bits 62 to 48 clear (R224). -/
theorem bankWord_clear (b : Bank) : (bankWord b).extractLsb' 48 15 = 0 := by
  unfold bankWord
  split
  · rfl
  · rw [BitVec.extractLsb'_append_eq_of_le (by omega), BitVec.extractLsb'_append_eq_of_le (by omega),
      BitVec.extractLsb'_append_eq_of_le (by omega), BitVec.extractLsb'_append_eq_of_add_le (by omega)]
    rfl

/-- `MQRY` answers at once (R224). -/
theorem matrixQuery : Spec.MatrixQuery := by
  intro s t h sel d hi hr
  obtain ⟨s', hs', r⟩ := retired_of_finish (show exec (.mqry h sel d) s = execMqry h sel d s from rfl) hi hr (by rfl)
    (setDst_keeps ..)
  refine ⟨_, s', hs', r, ?_, ?_, ?_⟩
  · rintro rfl
    rfl
  · rintro rfl
    simp only [Nat.mul_comm 8]
    rfl
  · rintro (rfl | rfl)
    · exact bankWord_clear _
    · exact bankWord_clear _

/-- Settles O19: `engineIssue_each` and `matrixQuery`. -/
theorem engineIssueAndQuery : Obligations.EngineIssueAndQuery := ⟨engineIssue_each, matrixQuery⟩

end Sys2Proof.Machine
end

section
/-! Engines at rest, frames and banks of scratchpads (08_tiles_and_matrix R201, R202, R217, R223; R363, R364). -/

namespace Sys2Proof.Machine
open Sys2Proof.Forms Sys2Proof.Spec

/-! Engines at rest (R223, R363). -/

theorem OnlyMats.trans {a b c : State} (h : OnlyMats a b) (g : OnlyMats b c) : OnlyMats a c := by
  obtain ⟨l, rfl⟩ := h
  obtain ⟨m, rfl⟩ := g
  exact ⟨m, rfl⟩

/-- Stopping a command that has no shadow changes its engine alone (R217). -/
theorem stopCmd_mats {c : Cmd} (h : c.out = none) (s : State) : OnlyMats s (stopCmd s c) := by
  have habandon : abandon s c = s := by unfold abandon; rw [h]
  unfold stopCmd
  rw [habandon]
  split
  · exact onlyMats_refl s
  · refine (releaseMat_mats s c).1.trans ?_
    unfold spoilBank
    split
    · exact onlyMats_putMat _ _
    · exact onlyMats_refl _

@[simp] theorem unstart_id (c : Cmd) : (unstart c).id = c.id := by
  unfold unstart
  dsimp only
  split <;> rfl

/-- A command that returns to its queue stands there as it was accepted, and memory is as it was (R223, R363). -/
theorem restOne_spec {s : State} {c : Cmd} (hf : findCmd s c.id = some c) (ho : c.out = none) :
    findCmd (restOne s c) c.id = some (unstart c) ∧ (restOne s c).mem = s.mem := by
  obtain ⟨l, hl⟩ := stopCmd_mats ho s
  have hstop : findCmd (stopCmd s c) (unstart c).id = some c := by
    rw [unstart_id, hl]
    exact hf
  have hput := findCmd_putCmd hstop
  rw [unstart_id] at hput
  refine ⟨hput, ?_⟩
  show (stopCmd s c).mem = s.mem
  rw [hl]

/-- An engine with no command in progress powers down with both tags empty (R363). -/
theorem gateEngine_idle {s : State} {b g : Nat} (h : inProgress s b g = []) :
    gateEngine s b g = putMat s { emptyTags (getMat s b g) with gated := true } := by
  unfold gateEngine
  rw [h]
  rfl

/-- A powered-down engine is gated, and both its tags are empty (R363, R365). -/
theorem getMat_gateEngine (s : State) (b g : Nat) :
    (getMat (gateEngine s b g) b g).gated = true ∧ (getMat (gateEngine s b g) b g).bank0.tag = none ∧
      (getMat (gateEngine s b g) b g).bank1.tag = none := by
  obtain ⟨hb, hg⟩ := getMat_names ((inProgress s b g).foldl restOne s) b g
  unfold gateEngine
  dsimp only
  rw [getMat_putMat_named _ (by exact hb) (by exact hg)]
  exact ⟨rfl, rfl, rfl⟩

/-- In Memory mode an engine that is not gated comes to its rest point (R363). -/
theorem exec_engineRestPoint {s : State} {b g : Nat} (hm : s.pkg.mode = .memory) (hg : (getMat s b g).gated = false) :
    exec (.engineRestPoint b g) s = .next (gateEngine s b g) := by
  show execEngineRestPoint b g s = _
  unfold execEngineRestPoint
  rw [hm, hg]
  rfl

/-- `ENGINE_REST_POINT` with one command in progress: it stands in its queue as it was accepted (R223, R363). -/
theorem engineRestPoint_one {s : State} {b g : Nat} {c : Cmd} (hm : s.pkg.mode = .memory) (hg : (getMat s b g).gated = false)
    (hp : inProgress s b g = [c]) (hf : findCmd s c.id = some c) (ho : c.out = none) :
    ∃ s', exec (.engineRestPoint b g) s = .next s' ∧ findCmd s' c.id = some (unstart c) ∧ (getMat s' b g).gated = true ∧
      (getMat s' b g).bank0.tag = none ∧ (getMat s' b g).bank1.tag = none ∧ s'.mem = s.mem := by
  obtain ⟨hfind, hmem⟩ := restOne_spec hf ho
  obtain ⟨hgated, h0, h1⟩ := getMat_gateEngine s b g
  have he : gateEngine s b g = putMat (restOne s c) { emptyTags (getMat (restOne s c) b g) with gated := true } := by
    unfold gateEngine
    rw [hp]
    rfl
  refine ⟨_, exec_engineRestPoint hm hg, ?_, hgated, h0, h1, ?_⟩
  · rw [he]; exact hfind
  · rw [he]; exact hmem

/-- `ENGINE_IDLE_GATE` after 2^16 cycles without a command (R363). -/
theorem exec_engineIdleGate {s : State} {b g : Nat} (hq : groupHas s b g = false) (hg : (getMat s b g).gated = false)
    (ht : (getMat s b g).idleSince + 65536 ≤ s.run.now) : exec (.engineIdleGate b g) s = .next (gateEngine s b g) := by
  show execEngineIdleGate b g s = _
  unfold execEngineIdleGate
  dsimp only
  rw [hq, hg, decide_eq_false (Nat.not_lt.mpr ht)]
  rfl

/-! Frames (R201, R210). -/

/-- A frame that is not resident becomes resident once its backing is translated and the scratchpad has room (R201). -/
theorem refillFrame_ok {s s1 s2 : State} {b i j n : Nat} {asid : BitVec 16} {x : Space} (hx : findSpace s asid = some x)
    (hv : (getHandle x i).v = true) (hr : resident (getHandle x i) j = false) (hj : j < (getHandle x i).nfr.toNat)
    (hl : (getHandle x i).lost.getLsbD j = false) (hp : backingPages s b asid x i j (tileSize (getHandle x i)) 4 = .ok s1)
    (ht : takeFrame s1 (getHandle x i).hbench.toNat (getHandle x i).hiu.toNat = some (s2, n)) :
    refillFrame s b asid i j = .ok (onHandle s2 asid i fun h => setFrame h j n) := by
  unfold refillFrame
  simp only [hx, hv, hr, hl, hp, ht, decide_eq_false (Nat.not_le.mpr hj), Bool.not_true, Bool.or_self, Bool.false_eq_true, if_false]

/-- `TILE_FRAME_REFILL`: the frame is resident, and the threads that wait for it issue again; no byte changes (R201). -/
theorem tileFrameRefill_resident {s s1 s2 : State} {asid : BitVec 16} {x : Space} {i j n : Nat} (hx : findSpace s asid = some x)
    (hv : (getHandle x i).v = true) (hr : resident (getHandle x i) j = false) (hj : j < (getHandle x i).nfr.toNat)
    (hl : (getHandle x i).lost.getLsbD j = false)
    (hp : backingPages s (((frameWaiters s asid i j).head?.map (·.bench)).getD (getHandle x i).hbench.toNat) asid x i j
      (tileSize (getHandle x i)) 4 = .ok s1)
    (ht : takeFrame s1 (getHandle x i).hbench.toNat (getHandle x i).hiu.toNat = some (s2, n)) :
    exec (.tileFrameRefill asid i j) s = .next (releaseFrame (onHandle s2 asid i fun h => setFrame h j n) asid i j) ∧
      s2.mem.tiles = s.mem.tiles := by
  refine ⟨?_, ((frameWork_backingPages hp).trans (frameWork_takeFrame ht)).tiles⟩
  show execTileFrameRefill asid i j s = _
  unfold execTileFrameRefill
  simp only [hx, Option.map_some, Option.getD_some, refillFrame_ok hx hv hr hj hl hp ht]

/-- Writing back changes no address space (R201). -/
theorem backPage_spaces (s : State) (x : Space) (h : Handle) (o : Nat) : (backPage s x h o).spaces = s.spaces := by
  unfold backPage
  dsimp only
  split
  · next htr =>
    rw [(translate_keeps htr).eq]
  · rfl

theorem backFrame_spaces (s : State) (x : Space) (h : Handle) (j : Nat) : (backFrame s x h j).spaces = s.spaces := by
  unfold backFrame
  generalize (List.range 4).map (fun n => j * 16384 + n * 4096) = l
  induction l generalizing s with
  | nil => rfl
  | cons o l ih =>
    rw [List.foldl_cons, ih]
    split
    · exact backPage_spaces _ _ _ _
    · rfl

/-- A frame that is written back is no longer resident, and its entry is as it was otherwise (R201). -/
theorem dropFrame_entry {s : State} {asid : BitVec 16} {x : Space} (hx : findSpace s asid = some x) (i j : Nat) :
    ∃ y, findSpace (dropFrame s asid (getHandle x i) j) asid = some y ∧ getHandle y i = setFrame (getHandle x i) j 31 := by
  have hback : findSpace (backFrame s x (getHandle x i) j) asid = some x := by
    unfold findSpace
    rw [backFrame_spaces]
    exact hx
  obtain ⟨hfind, -, hget⟩ := onHandle_spec hback i (fun h => setFrame h j 31) fun _ => rfl
  unfold dropFrame
  rw [hx, getHandle_idx]
  exact ⟨_, hfind, (hget i).trans (if_pos rfl)⟩

/-- `TILE_FRAME_WRITEBACK` of an unpinned resident frame (R201). -/
theorem tileFrameWriteback_dropped {s : State} {asid : BitVec 16} {x : Space} {i j : Nat} (hx : findSpace s asid = some x)
    (hv : (getHandle x i).v = true) (hj : j < (getHandle x i).nfr.toNat) (hr : resident (getHandle x i) j = true)
    (hp : (getHandle x i).pin.getLsbD j = false) :
    ∃ s' y, exec (.tileFrameWriteback asid i j) s = .next s' ∧ findSpace s' asid = some y ∧
      getHandle y i = setFrame (getHandle x i) j 31 ∧ s'.mem.tiles = s.mem.tiles ∧ s'.threads = s.threads := by
  obtain ⟨y, hy, hget⟩ := dropFrame_entry hx i j
  have w := frameWork_dropFrame s asid (getHandle x i) j
  refine ⟨_, y, ?_, hy, hget, w.tiles, w.threads⟩
  show execTileFrameWriteback asid i j s = _
  unfold execTileFrameWriteback
  simp only [hx, Option.map_some, hv, hr, hp, decide_eq_true hj, Bool.not_false, Bool.and_self, if_true]

/-! Banks, each one frame (R202, log 7). -/

/-- Whether a bank is awake after the list of its unit's sleeping banks has changed. -/
theorem bankAwake_onIu (s : State) (b u n : Nat) (f : List (Nat × BankSt) → List (Nat × BankSt)) :
    bankAwake (onIu s b u fun x => { x with banks := f x.banks }) b u n = !((f (getIu s b u).banks).any fun x => x.1 == n) := by
  unfold bankAwake
  rw [getIu_onIu s b u b u _ (by exact fun _ => ⟨rfl, rfl⟩), if_pos ⟨rfl, rfl⟩]

/-- `SCRATCHPAD_BANK_WAKE` of a waking bank: it is no longer among the sleeping ones, then its frames' threads issue again (R202). -/
theorem exec_scratchpadBankWake {s : State} {b u bank since : Nat} (h : (bank, BankSt.waking since) ∈ (getIu s b u).banks) :
    exec (.scratchpadBankWake b u bank) s = .next ((residents s b u).foldl
      (fun s r => if r.2.2.2 == bank then releaseFrame s r.1 r.2.1.idx r.2.2.1 else s)
      (onIu s b u fun x => { x with banks := x.banks.filter fun y => y.1 != bank })) := by
  have hany : ((getIu s b u).banks.any fun x => x.1 == bank && x.2 != .down) = true :=
    List.any_eq_true.mpr ⟨_, h, by simp⟩
  show execScratchpadBankWake b u bank s = _
  unfold execScratchpadBankWake
  simp only [hany, Bool.not_true, Bool.false_eq_true, if_false]
  rfl

/-- A bank with no resident frame wakes and nothing else happens (R202). -/
theorem bankWake_empty {s : State} {b u bank since : Nat} (h : (bank, BankSt.waking since) ∈ (getIu s b u).banks)
    (hr : ∀ r ∈ residents s b u, r.2.2.2 ≠ bank) :
    ∃ s', exec (.scratchpadBankWake b u bank) s = .next s' ∧ bankAwake s' b u bank = true ∧ s'.threads = s.threads ∧
      s'.mem = s.mem := by
  refine ⟨onIu s b u fun x => { x with banks := x.banks.filter fun y => y.1 != bank }, ?_, ?_, rfl, rfl⟩
  · rw [exec_scratchpadBankWake h, List.foldl_ext _ (fun s _ => s) _ fun s r hm => if_neg (by simpa using hr r hm),
      List.foldl_fixed]
  · rw [bankAwake_onIu _ _ _ _ fun l => l.filter fun y => y.1 != bank]
    simp

/-- `SCRATCHPAD_BANK_POWER_DOWN` of an awake bank without a pinned frame (R202). -/
theorem bankPowerDown_unpinned {s : State} {b u bank : Nat} (hn : bank < 24) (ha : bankAwake s b u bank = true)
    (hp : ∀ r ∈ residents s b u, r.2.2.2 = bank → r.2.1.pin.getLsbD r.2.2.1 = false) :
    ∃ s', exec (.scratchpadBankPowerDown b u bank) s = .next s' ∧ bankAwake s' b u bank = false ∧ s'.threads = s.threads ∧
      s'.mem.tiles = s.mem.tiles := by
  let here := (residents s b u).filter fun r => r.2.2.2 == bank
  let s1 := here.foldl (fun s r => dropFrame s r.1 r.2.1 r.2.2.1) s
  have hpin : (here.any fun r => r.2.1.pin.getLsbD r.2.2.1) = false := by
    rw [List.any_eq_false]
    intro r hr
    obtain ⟨hmem, hbank⟩ := List.mem_filter.mp hr
    rw [hp r hmem (beq_iff_eq.mp hbank)]
    nofun
  have w : FrameWork s s1 := frameWork_foldl _ (fun _ _ => frameWork_dropFrame _ _ _ _) here s
  refine ⟨onIu s1 b u fun x => { x with banks := x.banks ++ [(bank, .down)] }, ?_, ?_, w.threads, w.tiles⟩
  · show execScratchpadBankPowerDown b u bank s = _
    unfold execScratchpadBankPowerDown
    simp only [decide_eq_false (Nat.not_le.mpr hn), ha, Bool.not_true, Bool.or_false, Bool.false_or]
    exact if_neg (by rw [hpin]; nofun)
  · rw [bankAwake_onIu _ _ _ _ fun l => l ++ [(bank, BankSt.down)]]
    simp

/-- Settles O40: engines through `gateEngine`, frames through `refillFrame` and `dropFrame`, banks through `bankAwake_onIu`. -/
theorem engineRests : Obligations.EngineRests := by
  unfold Obligations.EngineRests
  refine ⟨fun s b g hm hg => ⟨fun hp => ?_, fun c hp hf ho => engineRestPoint_one hm hg hp hf ho⟩, fun s b g hq hg ht hp => ?_,
    fun s s1 s2 asid x i j n hx hv hr hj hl hp ht => tileFrameRefill_resident hx hv hr hj hl hp ht,
    fun s asid x i j hx hv hj hr hp => tileFrameWriteback_dropped hx hv hj hr hp,
    fun s b u bank since h => ⟨⟨_, exec_scratchpadBankWake h⟩, bankWake_empty h⟩,
    fun s b u bank hn ha hp => bankPowerDown_unpinned hn ha hp⟩
  · rw [exec_engineRestPoint hm hg, gateEngine_idle hp]
  · rw [exec_engineIdleGate hq hg ht, gateEngine_idle hp]

end Sys2Proof.Machine
end

section
/-! Stream instructions: their issue (09_streams_volumes_copies R229 to R231) and their turns at the stream engine (R232 to R237, R369). -/

namespace Sys2Proof.Machine
open Sys2Proof.Forms Sys2Proof.Spec

/-! Bodies of instructions that enter one request. -/

/-- With an entry free and its address aligned, an instruction without a register result enters its request (R169, R172). -/
theorem aligned_enters {s : State} {t : Thread} {ea : Word} {n : Nat} (hal : ea.toNat % n = 0) (hfull : entriesFull s t = false)
    (x y : Did) : aligned ea n (if entriesFull s t then x else y) = y := by
  rw [aligned_of_mod hal, hfull]
  rfl

/-- The same below the limit of outstanding results, for one with a register result (R24). -/
theorem limited_enters {s : State} {t : Thread} {ea : Word} {n : Nat} (hal : ea.toNat % n = 0) (hfull : entriesFull s t = false)
    (hout : t.ctx.outst ≠ 15) (x y : Did) : limited s t (aligned ea n (if entriesFull s t then x else y)) = y := by
  rw [limited_of_ne hout, aligned_enters hal hfull]

/-- An instruction whose body, with nothing in the way, enters one request hands it over (R172). -/
theorem enters_of_body {s : State} {t : Thread} {h : Hdr} {i : Instr} {l : List (BitVec 8 × Opd × Bool)} {regs : List (Opd × Bool)}
    {r : Req} {pends counts : Bool} {c : Ctx} {body : State → Thread → Did} (hi : issues s t h = true)
    (he : exec i s = issue s i h false l body) (hl : l.map (·.2) = regs) (hr : noneFrom t.ctx regs = true)
    (hb : body s t = .done (enter s t r pends counts).1 (t.ctx.pc + 12) .run) (hu : isUnrecorded r = false)
    (hc : enteredCtx t.ctx r pends counts = c) :
    ∃ s', exec i s = .next s' ∧ Handed s s' s t h c (t.ctx.pc + 12) [entry s t r] := by
  subst hl hc
  rw [he]
  exact issue_enter hi hr nofun hb hu

/-! Issue (R229, R231). -/

/-- The operand that names the third list: `SINTC` has none (R229). -/
def thirdList (k : StrmKind) (x : Strm) : Opd := if k = .sintc then .zero else x.c

theorem withThirdList (k : StrmKind) (x : Strm) : (if k == .sintc then { x with c := .zero } else x) = { x with c := thirdList k x } := by
  by_cases h : k = .sintc <;> simp [thirdList, h]

theorem opdVal_thirdList (s : State) (t : Thread) (k : StrmKind) (x : Strm) :
    opdVal s t 128 1 false (thirdList k x) = if k = .sintc then 0 else opdVal s t 128 1 false x.c := by
  unfold thirdList
  split <;> rfl

theorem isPend_thirdList {c : Ctx} {k : StrmKind} {x : Strm} (h : k ≠ .sintc → noneFrom c [(x.c, false)] = true) :
    isPend c (thirdList k x) false = false := by
  unfold thirdList
  split
  · exact isPend_zero _ _
  · next hk => exact ((noneFrom_cons ..).mp (h hk)).1

theorem isSetOp_eq (k : StrmKind) : isSetOp k = decide (k = .sint ∨ k = .sintc ∨ k = .smrg ∨ k = .sdiff) := by
  cases k <;> rfl

/-- A list of elements of `w` bytes has a lower bound only in a set instruction, and its elements are aligned (R230, R231). -/
def listOk (set : Bool) (w : Nat) (l : Vec) : Prop :=
  (set = true ∨ l.extractLsb' 96 32 = 0) ∧ ((l.extractLsb' 64 32).toNat = 0 ∨ (l.setWidth 64).toNat % w = 0)

theorem checkList_of_listOk {set : Bool} {w : Nat} {l : Vec} (field : BitVec 8) (h : listOk set w l) :
    checkList set field w l = none := by
  obtain ⟨hbound, halign⟩ := h
  have h1 : (!set && listLb l != 0) = false := by
    rcases hbound with h | h
    · rw [h]; rfl
    · rw [listLb, h]
      exact Bool.and_false _
  have h2 : (listLen l != 0 && (listVa l).toNat % w != 0) = false := by
    rcases halign with h | h
    · rw [listLen, h]; rfl
    · rw [listVa, h, bne_self_eq_false, Bool.and_false]
  simp only [checkList, h1, h2, Bool.false_eq_true, if_false]

theorem checkLists_of_listOk {k : StrmKind} {ty : Ty} {a b c : Vec} (ha : listOk (isSetOp k) (strmBytes k ty).1 a)
    (hb : listOk (isSetOp k) (strmBytes k ty).2.1 b) (hc : listOk false (strmBytes k ty).2.2 c) : checkLists k ty a b c = none := by
  simp only [checkLists, checkList_of_listOk 2 ha, checkList_of_listOk 3 hb, checkList_of_listOk 4 hc]

/-- A stream instruction whose lists pass the checks hands over its request (R231). -/
theorem strmWith_handed {s : State} {t : Thread} {h : Hdr} {i : Instr} {k : StrmKind} {x : Strm} (hi : issues s t h = true)
    (he : exec i s = strmWith s i h k x)
    (hr : noneFrom t.ctx [(x.d, false), (x.a, false), (x.b, false)] = true) (hrc : isPend t.ctx (thirdList k x) false = false)
    (hfull : entriesFull s t = false) (hout : t.ctx.outst ≠ 15)
    (hck : checkLists k x.ty (opdVal s t 128 1 false x.a) (opdVal s t 128 1 false x.b) (opdVal s t 128 1 false (thirdList k x)) = none) :
    ∃ s', exec i s = .next s' ∧
      Handed s s' s t h (enteredCtx t.ctx { newReq .ret 0 0 x.ty i with dst := x.d } true true) (t.ctx.pc + 12)
        [entry s t { newReq (.strm k (opdVal s t 128 1 false x.a) (opdVal s t 128 1 false x.b)
          (opdVal s t 128 1 false (thirdList k x)) {}) 0 0 x.ty i with dst := x.d, ord := .rel }] := by
  have hregs : noneFrom t.ctx [(x.d, false), (x.a, false), (x.b, false), (thirdList k x, false)] = true := by
    simp only [noneFrom_cons] at hr ⊢
    obtain ⟨hd, ha, hb, hnil⟩ := hr
    exact ⟨hd, ha, hb, hrc, hnil⟩
  unfold strmWith at he
  rw [withThirdList] at he
  refine enters_of_body hi he rfl hregs ?_ (by rfl) (by rfl)
  refine (limited_of_ne hout _).trans ?_
  simp only [hck, hfull, Bool.false_eq_true, if_false]

/-- Settles O20: each instruction is `strmWith` of its kind, and the three lists pass by `checkLists_of_listOk`. -/
theorem streamIssue : Obligations.StreamIssue := by
  unfold Obligations.StreamIssue
  intro s t h x hi hr hfull hout v ok p hp c set ha hb hc hrc
  have hexec : exec p.2 s = strmWith s p.2 h p.1 x := by
    simp only [List.mem_cons, List.not_mem_nil, or_false] at hp
    rcases hp with rfl | rfl | rfl | rfl | rfl | rfl | rfl | rfl <;> rfl
  have hc3 : opdVal s t 128 1 false (thirdList p.1 x) = c := opdVal_thirdList s t p.1 x
  rw [← hc3] at hc ⊢
  have hset : decide set = isSetOp p.1 := (isSetOp_eq p.1).symm
  rw [hset] at ha hb
  exact strmWith_handed hi hexec hr (isPend_thirdList hrc) hfull hout (checkLists_of_listOk ha hb hc)

/-! A turn (R232 to R235, R369). -/

/-- With one element left, a turn goes on exactly while its place in the lists is the same (R369). -/
theorem oneLeft_goesOn (m n : Nat) (stop : Sent) (go : Nat → Sent) :
    (if (if m == n then 1 else 1 - 1) == 0 then stop else go (if m == n then 1 else 1 - 1)) = if m = n then go 1 else stop := by
  by_cases h : m = n <;> simp [h]

/-- One move of an instruction with one element left (R236, R369). -/
theorem strmRun_move {s s1 : State} {r : Req} {q : StrmPos} (h : ElemMove s r q s1) (n : Nat) :
    strmRun s r 1 (n + 1) = if q.ia + q.ib = placeOf r then strmRun s1 (withPos r q) 1 n else .ok s1 := by
  cases h with
  | pure k a b c p hop hturn =>
    rw [strmRun, placeOf, hop]
    simp only [hturn]
    exact oneLeft_goesOn _ _ _ (strmRun _ _ · n)
  | read k a b c p va m f s2 v hop hturn hacc hq =>
    subst hq
    rw [strmRun, placeOf, hop]
    simp only [hturn, hacc]
    exact oneLeft_goesOn _ _ _ (strmRun _ _ · n)
  | write k a b c p va m v s2 w hop hturn hacc =>
    rw [strmRun, placeOf, hop]
    simp only [hturn, hacc]
    exact oneLeft_goesOn _ _ _ (strmRun _ _ · n)
  | add k a b c p va op v s2 w hop hturn hacc =>
    rw [strmRun, placeOf, hop]
    simp only [hturn, hacc]
    exact oneLeft_goesOn _ _ _ (strmRun _ _ · n)

/-- The moves of one element are its turn (R236, R369). -/
theorem strmRun_moves {n fuel : Nat} {s s1 : State} {r : Req} (h : ElemMoves n s r s1) (hn : n < fuel) :
    strmRun s r 1 fuel = .ok s1 := by
  induction n generalizing s r fuel with
  | zero =>
    obtain ⟨q, hmove, hnext⟩ := h
    obtain ⟨m, rfl⟩ := Nat.exists_eq_add_of_lt hn
    rw [strmRun_move hmove, if_neg hnext]
  | succ n ih =>
    obtain ⟨q, s2, hmove, hsame, hmoves⟩ := h
    obtain ⟨m, rfl⟩ := Nat.exists_eq_add_of_lt hn
    rw [strmRun_move hmove, if_pos hsame]
    exact ih hmoves (by omega)

/-- An instruction with no next element completes (R232 to R235). -/
theorem strmRun_finish {s : State} {r : Req} {k : StrmKind} {a b c : Vec} {p : StrmPos} {v : Word} (hop : r.op = .strm k a b c p)
    (hturn : nextTurn k r.ty a b c p = .finish v) (left n : Nat) :
    strmRun s r left (n + 1) = .ok (complete s { r with ty := .b64 } (v.setWidth 128)) := by
  rw [strmRun, hop]
  simp only [hturn]

/-- `STREAM_EXECUTE` of one element of an instruction whose turn it may be (R369). -/
theorem exec_streamExecute {s : State} {r : Req} {k : StrmKind} {a b c : Vec} {p : StrmPos} (h : Turning s r k a b c p) :
    exec (.streamExecute r.id 1) s = sentOut (strmRun (turnOpens s r).1 (turnOpens s r).2 1 256) := by
  show execStreamExecute r.id 1 s = _
  unfold execStreamExecute
  simp only [h.listed]
  split
  · next k' a' b' c' p' hop =>
    obtain ⟨-, rfl, rfl, rfl, -⟩ : k = k' ∧ a = a' ∧ b = b' ∧ c = c' ∧ p = p' := by simpa using h.op.symm.trans hop
    rw [if_neg (by rw [h.pending, h.up, h.die, h.slot, h.due]; nofun), h.lists]
    rfl
  · next hop => exact absurd h.op (hop k a b c p)

/-- What a turn changes in the list of requests: how often each has been passed over (R369). -/
theorem mem_strmPass {s : State} {l : List Req} {id : Nat} {q : Req} (h : q ∈ (strmPass s l id).flight.reqs) :
    ∃ e ∈ s.flight.reqs, ∃ n, q = { e with passed := n } := by
  obtain ⟨e, he, rfl⟩ := List.mem_map.mp h
  refine ⟨e, he, ?_⟩
  split
  · exact ⟨_, rfl⟩
  · split <;> exact ⟨_, rfl⟩

/-- At its end an instruction delivers its count (R26, R232 to R235). -/
theorem streamExecute_finishes {s : State} {t : Thread} {r : Req} {k : StrmKind} {a b c : Vec} {p : StrmPos} {v : Word}
    (h : Turning s r k a b c p) (hturn : nextTurn k r.ty a b c p = .finish v) (ht : Takes s t r) (hri : r.ri = none) :
    ∃ s', exec (.streamExecute r.id 1) s = .next s' ∧ Landed s s' t { r with ty := .b64 } (v.setWidth 128) ∧ s'.mem = s.mem := by
  let s1 := (turnOpens s r).1
  let r1 : Req := { (turnOpens s r).2 with ty := .b64 }
  have ht1 : Takes s1 t r1 := ⟨ht.thread, ht.cl1, ht.pend, ht.frz, ht.cancel, ht.sane, fun q hq hk => by
    obtain ⟨e, he, n, rfl⟩ := mem_strmPass hq
    exact ht.kept e he hk⟩
  have hend := complete_endsWith ht1 hri (homeWork_mem s1 s1.mem) (show hasResult r1.op = true by
    show hasResult r.op = true
    rw [h.op]
    rfl) (v.setWidth 128)
  refine ⟨complete s1 r1 (v.setWidth 128), ?_, ⟨hend.line, hend.gone, hend.others⟩, hend.mem⟩
  exact (exec_streamExecute h).trans (congrArg sentOut (strmRun_finish (r := (turnOpens s r).2) h.op hturn 1 255))

/-! The set instructions (R232). -/

/-- The positions past the head of the first list. -/
def pastA (p : StrmPos) : StrmPos := { p with ia := p.ia + 1, keepA := none }

/-- The positions past the head of the second list. -/
def pastB (p : StrmPos) : StrmPos := { p with ib := p.ib + 1, keepB := none }

/-- The positions past both heads. -/
def pastBoth (p : StrmPos) : StrmPos := { p with ia := p.ia + 1, ib := p.ib + 1, keepA := none, keepB := none }

/-- What a set instruction does with the heads `x` and `y` of its lists (R232). -/
theorem setTurn_heads {a b : Vec} {p : StrmPos} {x y : Word} (k : StrmKind) (w : Nat) (c : Vec) (hla : listLb a = 0)
    (hlb : listLb b = 0) (ha : p.ia < listLen a) (hb : p.ib < listLen b) (hx : p.keepA = some x) (hy : p.keepB = some y) :
    setTurn k w a b c p =
      if x == y then (if k == .sdiff then .pure (pastBoth p) else emitTurn c w x (pastBoth p))
      else if x.toNat < y.toNat then (if k == .smrg || k == .sdiff then emitTurn c w x (pastA p) else .pure (pastA p))
      else if k == .smrg then emitTurn c w y (pastB p) else .pure (pastB p) := by
  unfold setTurn
  simp only [hla, hlb, bne_self_eq_false, Bool.and_false, decide_eq_false (Nat.not_le.mpr ha), decide_eq_false (Nat.not_le.mpr hb),
    Bool.or_self, Bool.false_eq_true, if_false, hx, hy, pastA, pastB, pastBoth]

/-- With the first list at its end, an instruction that asks for elements of it has no next one (R232). -/
theorem setTurn_end {a b : Vec} {p : StrmPos} {k : StrmKind} (hk : k ≠ .smrg) (w : Nat) (c : Vec) (hlb : listLb b = 0)
    (ha : listLen a ≤ p.ia) : setTurn k w a b c p = .finish (BitVec.ofNat 64 p.nout) := by
  unfold setTurn
  simp only [hlb, bne_self_eq_false, Bool.and_false, decide_eq_true ha, Bool.not_true, Bool.false_and, Bool.true_or,
    beq_eq_false_iff_ne.mpr hk, Bool.false_eq_true, if_false, if_true]

/-- An element that the output has room for is written and counted (R232). -/
theorem emitTurn_room {c : Vec} {p : StrmPos} (h : p.nout < listLen c) (w : Nat) (v : Word) :
    emitTurn c w v p = .write (elemVa c w p.nout) w v { p with nout := p.nout + 1 } := if_pos h

/-- Settles O39: turns by `strmRun_moves` and `streamExecute_finishes`, the order of the elements by `setTurn_heads`. -/
theorem streamTurns : Obligations.StreamTurns := by
  unfold Obligations.StreamTurns
  refine ⟨fun s s1 r k a b c p h => ⟨fun n hn hmoves => ?_, fun v t hturn hf hc hp hz hcan hsane hri hkept => ?_⟩,
    fun ty a b c p x y hla hlb ha hb hx hy hroom => ?_, fun ty a b c p hla hlb ha => ?_⟩
  · rw [exec_streamExecute h, strmRun_moves hmoves hn]
    rfl
  · exact streamExecute_finishes h hturn ⟨hf, hc, hp, hz, hcan, hsane, hkept⟩ hri
  · have hheads := fun k => setTurn_heads k (bytes ty) c hla hlb ha hb hx hy
    have hput := fun (q : StrmPos) (hq : q.nout = p.nout) v => emitTurn_room (p := q) (hq ▸ hroom) (bytes ty) v
    refine ⟨fun heq => ?_, fun hlt => ?_, fun hgt => ?_⟩
    · simp only [beq_iff_eq.mpr heq, if_true] at hheads
      exact ⟨(hheads .sint).trans (hput (pastBoth p) rfl x), (hheads .smrg).trans (hput (pastBoth p) rfl x), hheads .sdiff⟩
    · have hne : x ≠ y := fun e => Nat.lt_irrefl _ (e ▸ hlt)
      simp only [beq_eq_false_iff_ne.mpr hne, Bool.false_eq_true, if_false, hlt, if_true] at hheads
      exact ⟨hheads .sint, (hheads .smrg).trans (hput (pastA p) rfl x), (hheads .sdiff).trans (hput (pastA p) rfl x)⟩
    · have hne : x ≠ y := fun e => Nat.lt_irrefl _ (e ▸ hgt)
      simp only [beq_eq_false_iff_ne.mpr hne, Bool.false_eq_true, if_false, Nat.lt_asymm hgt] at hheads
      exact ⟨hheads .sint, (hheads .smrg).trans (hput (pastB p) rfl y), hheads .sdiff⟩
  · exact ⟨setTurn_end (k := .sint) nofun (bytes ty) c hlb ha, setTurn_end (k := .sdiff) nofun (bytes ty) c hlb ha⟩

end Sys2Proof.Machine
end

section
/-! Volume instructions at issue (09_streams_volumes_copies R242 to R245). -/

namespace Sys2Proof.Machine
open Sys2Proof.Forms Sys2Proof.Spec

/-! `CLD`, `CPRB`, `CLBINV`, `QPOP` and `QPSH` (R242, R244, R245). -/

/-- The volume instructions that walk when they are performed: each body enters its request behind the alignment. -/
theorem volumeIssue : Spec.VolumeIssue := by
  intro s t h d base disp hi hfull ea hal
  refine ⟨fun x hbase hdisp hr hout => ?_, fun b hr => ⟨fun hout => ?_, fun scp => ?_⟩, fun hr => ⟨fun hout => ?_, ?_⟩⟩
  · subst hbase hdisp
    exact enters_of_body hi (by rfl) (by rfl) hr (limited_enters hal hfull hout _ _) (by rfl) (by rfl)
  · exact enters_of_body hi (by rfl) (by rfl) hr (limited_enters hal hfull hout _ _) (by rfl) (by rfl)
  · exact enters_of_body hi (by rfl) (by rfl) hr (aligned_enters hal hfull _ _) (by rfl) (by rfl)
  · exact enters_of_body hi (by rfl) (by rfl) hr (limited_enters hal hfull hout _ _) (by rfl) (by rfl)
  · exact enters_of_body hi (by rfl) (by rfl) hr (aligned_enters hal hfull _ _) (by rfl) (by rfl)

/-! `CST` and `CAMO` (R243). -/

/-- The line of a thread whose walk is over. -/
def walkedLine (t : Thread) : Thread := { t with walkFault := none, walk := none }

theorem findThread_endWalk {s : State} {t : Thread} (h : findThread s t.key = some t) :
    findThread (endWalk s t.key) t.key = some (walkedLine t) := by
  unfold endWalk
  rw [findThread_onThread _ _ _ (by intro _ hk; exact hk), h]
  rfl

/-- The end of a walk changes nothing that issue asks for (R75 steps 8 and 9). -/
theorem issues_endWalk {s : State} {t : Thread} {h : Hdr} (hi : issues s t h = true) :
    issues (endWalk s t.key) (walkedLine t) h = true := by
  rw [issues_iff] at hi ⊢
  obtain ⟨hcur, hquiet, hguard⟩ := hi
  refine ⟨?_, hquiet, hguard⟩
  obtain ⟨k, hrun, hfind⟩ := Option.bind_eq_some_iff.mp hcur
  obtain rfl := findThread_key hfind
  exact Option.bind_eq_some_iff.mpr ⟨_, hrun, findThread_endWalk hfind⟩

/-- An instruction whose body hands over its access after its walk completes (R172, R243); `s0` is the state after the walk. -/
theorem issue_walked {s s0 s1 : State} {t : Thread} {i : Instr} {h : Hdr} {regs : List (BitVec 8 × Opd × Bool)}
    {body : State → Thread → Did} {r : Req} {p : Phys} {pends counts : Bool} (hi : issues s t h = true)
    (hr : noneFrom t.ctx (regs.map (·.2)) = true) (hb : body s t = submit s0 (walkedLine t) r pends counts (t.ctx.pc + 12) .run)
    (hf : findThread s0 t.key = some (walkedLine t)) (hl : s0.flight.reqs = s.flight.reqs) (hfull : entriesFull s0 t = false)
    (hctx : t.key.ctx ≠ 0) (htr : translate s0 (.data t.bench (iuAt t)) t.key.asid (wantOf r.op t.ctx.sup) r.va = .ok p s1)
    (hk : badKind s0 r p = none) :
    ∃ s', issue s i h false regs body = .next s' ∧
      Handed s0 s' s1 t h (enteredCtx t.ctx r pends counts) (t.ctx.pc + 12) [handed s0 t r p] := by
  have hdone := submit_located (t := walkedLine t) (pends := pends) (counts := counts) (pc := t.ctx.pc + 12) (w := .run) hfull hctx htr hk
  obtain ⟨s', hs', z⟩ := issue_submit_at (i := i) (priv := false) (regs := [])
    (body := fun _ _ => submit s0 (walkedLine t) r pends counts (t.ctx.pc + 12) .run)
    (issues_endWalk hi) (by rfl) nofun rfl hf hl hfull hctx htr hk
  rw [issue_body (priv := false) (issues_endWalk hi) (by rfl) nofun hdone] at hs'
  exact ⟨s', (issue_body (priv := false) hi hr nofun (hb.trans hdone)).trans hs', ⟨z.line.line⟩, z.others, z.reqs, z.waiters,
    z.turns, z.mem, z.mmu, z.cache, z.spaces, z.eng, z.queues, z.fw, z.pkg, z.ius⟩

/-- The state in which an access follows the walk that left `s`: the walk is over and the data L1 has acquired (R243). -/
def afterWalk (s : State) (t : Thread) : State := acquireL1 (endWalk s t.key) t.bench (iuAt t) .dev

/-- An access through a volume, at the element that its walk has found (R243). -/
def atElement (r : Req) (ea : Word) (tile : Nat) : Req := { r with va := ea, via := some (r.va.toNat, tile) }

/-- Nothing keeps the walk for an access back, and it finds the element (R243, R282, R284, R372). -/
structure WalkFinds (s s1 : State) (t : Thread) (r : Req) (c : Vec) (ea : Word) (tile : Nat) : Prop where
  room : entriesFull s t = false
  free : walkHeld s t.key = false
  faultless : t.walkFault = none
  turn : walkTurn s t.bench (t.walk.getD { arr := nextSeq s }).arr = true
  finds : atomically s (walkStep s (walker s t) (t.walk.getD { arr := nextSeq s }) r.va r.n c) = .ok s1 (.at ea tile)
  thread : findThread s1 t.key = some t
  reqs : s1.flight.reqs = s.flight.reqs

/-- A walk that finds its element is followed by the access there (R243). -/
theorem volStore_found {s s1 : State} {t : Thread} {r : Req} {pends counts : Bool} {c : Vec} {ea : Word} {tile : Nat}
    (hw : WalkFinds s s1 t r c ea tile) : volStore s t r pends counts c =
      submit (afterWalk s1 t) (walkedLine t) (atElement r ea tile) pends counts (t.ctx.pc + 12) .run := by
  have hgo : (entriesFull s t || walkHeld s t.key || (t.walkFault.map (·.2)) == some 0) = false := by
    rw [hw.room, hw.free, hw.faultless]
    rfl
  simp only [volStore, hgo, hw.turn, hw.finds, Bool.not_true, Bool.false_eq_true, if_false]
  rfl

theorem entriesFull_afterWalk {s s1 : State} (t : Thread) (h : s1.flight.reqs = s.flight.reqs) :
    entriesFull (afterWalk s1 t) t = entriesFull s t := by
  unfold entriesFull entriesUsed
  rw [show (afterWalk s1 t).flight.reqs = s.flight.reqs from h]

/-- A `CST` or `CAMO` whose walk finds its element retires as the access there (R243). -/
theorem walks_of_body {s s1 s3 : State} {t : Thread} {h : Hdr} {i : Instr} {l : List (BitVec 8 × Opd × Bool)} {regs : List (Opd × Bool)}
    {r : Req} {pends : Bool} {c : Vec} {ea : Word} {tile : Nat} {p : Phys} {body : State → Thread → Did} (hi : issues s t h = true)
    (he : exec i s = issue s i h false l body) (hl : l.map (·.2) = regs) (hr : noneFrom t.ctx regs = true)
    (hb : body s t = volStore s t r pends pends c) (hw : WalkFinds s s1 t r c ea tile) (hctx : t.key.ctx ≠ 0)
    (htr : translate (afterWalk s1 t) (.data t.bench (iuAt t)) t.key.asid (wantOf r.op t.ctx.sup) ea = .ok p s3)
    (hk : badKind (afterWalk s1 t) r p = none) :
    ∃ s', exec i s = .next s' ∧ Handed (afterWalk s1 t) s' s3 t h (enteredCtx t.ctx r pends pends) (t.ctx.pc + 12)
      [handed (afterWalk s1 t) t (atElement r ea tile) p] := by
  subst hl
  rw [he]
  exact issue_walked (r := atElement r ea tile) hi hr (hb.trans (volStore_found hw)) (findThread_endWalk hw.thread) hw.reqs
    ((entriesFull_afterWalk t hw.reqs).trans hw.room) hctx htr ((badKind_of _ _ _ _ _ rfl rfl rfl).trans hk)

/-- `CST` and `CAMO`: each body is `volStore` behind the limit and the alignment. -/
theorem volumeStores : Spec.VolumeStores := by
  intro s t h hi hfull hheld hctx hwait via
  refine ⟨fun x => ?_, fun x => ?_⟩
  · intro hr hal hout w hturn s1 ea tile hwalk hf hreqs s2 p s3 htr hk
    refine walks_of_body hi (by rfl) (by rfl) hr ?_ ⟨hfull, hheld, hwait, hturn, hwalk, hf, hreqs⟩ hctx htr hk
    rw [← dataOf_eq]
    exact aligned_of_mod hal _
  · intro hr hal hout w hturn s1 ea tile hwalk hf hreqs s2 p s3 htr hk
    refine walks_of_body hi (by rfl) (by rfl) hr ?_ ⟨hfull, hheld, hwait, hturn, hwalk, hf, hreqs⟩ hctx htr hk
    rw [← dataOf_eq]
    exact limited_aligned hal (hout rfl) _

/-- Settles O21: `volumeIssue` and `volumeStores`. -/
theorem volumeInstructions : Obligations.VolumeInstructions := ⟨volumeIssue, volumeStores⟩

end Sys2Proof.Machine
end

section
/-! SUPPORT. O24: `ERET` restores from the trap line the fields that R268 names, and no other. -/

namespace Sys2Proof.Machine
open Sys2Proof.Forms Sys2Proof.Spec

/-- An instruction whose body ends in a state of its own goes to it (R257). -/
theorem issue_gone {s : State} {t : Thread} {i : Instr} {h : Hdr} {priv : Bool} {regs : List (BitVec 8 × Opd × Bool)}
    {body : State → Thread → Did} (hi : issues s t h = true) (hr : noneFrom t.ctx (regs.map (·.2)) = true)
    (hp : priv = true → t.ctx.sup = true) {s1 : State} (hb : body s t = .gone s1) :
    issue s i h priv regs body = .next s1 := by
  obtain ⟨hc, -, hg⟩ := (issues_iff _ _ _).mp hi
  have h1 : ((getP t.ctx h.g ^^ h.n) == false) = false := by rw [hg]; rfl
  have h2 : (priv && !t.ctx.sup) = false := by
    cases hpriv : priv with
    | false => rfl
    | true => rw [hp hpriv]; rfl
  simp only [issue, hc, h1, h2, Bool.false_eq_true, if_false, hazard_none _ _ hr, hb]

/-- With no result outstanding a quiet line is ready for a switch-point instruction (R257). -/
theorem switchReady_of_quiet {s : State} {t : Thread} (hq : quiet s t = true) (ho : t.ctx.outst = 0) : switchReady t = true := by
  obtain ⟨-, -, -, -, -, -, hfatal, -⟩ := (quiet_iff _ _).mp hq
  rw [switchReady, ho, hfatal]
  rfl

theorem isCtxw_op {o : ReqOp} (h : isCtxw o = true) : ∃ a n, o = .ctxw a n := by
  unfold isCtxw at h
  split at h
  · exact ⟨_, _, rfl⟩
  · cases h

/-- With its `CTXW`s performed, a quiet line with nothing outstanding is ready for `ERET` (R268). -/
theorem eretReady_of_quiet {s : State} {t : Thread} (hq : quiet s t = true) (ho : t.ctx.outst = 0)
    (hctxw : ∀ r ∈ s.flight.reqs, r.key = t.key → ∀ a n, r.op ≠ .ctxw a n) : eretReady s t = true := by
  rw [eretReady, switchReady_of_quiet hq ho, Bool.true_and, Bool.not_eq_true', List.any_eq_false]
  intro r hr hk
  obtain ⟨hkey, hop⟩ := Bool.and_eq_true_iff.mp hk
  obtain ⟨a, n, hop⟩ := isCtxw_op hop
  exact hctxw r hr (beq_iff_eq.mp hkey) a n hop

/-- The PC that the saved word gives: its bits 56:2, aligned (R14, R268). -/
theorem savedPc_aligned (w : Word) : w.setWidth 57 &&& ~~~3 = w.extractLsb' 2 55 ++ (0 : BitVec 2) := by
  have hmask : ∀ i < 57, (~~~(3 : BitVec 57)).getLsbD i = decide (2 ≤ i) := by decide
  refine BitVec.eq_of_getLsbD_eq fun i hi => ?_
  rw [BitVec.getLsbD_and, hmask i hi, BitVec.getLsbD_append]
  by_cases h2 : i < 2
  · simp [h2]
  · simp [h2, hi, show 2 + (i - 2) = i by omega, show i - 2 < 55 by omega, show 2 ≤ i by omega]

/-- The predicates that the saved word gives, p0 reading 1 (R21, R268). -/
theorem savedPreds_p0 (w : Word) : w.setWidth 8 ||| 1 = w.extractLsb' 1 7 ++ (1 : BitVec 1) := by
  refine BitVec.eq_of_getLsbD_eq fun i hi => ?_
  rw [BitVec.getLsbD_append]
  rcases i with _ | i
  · simp
  · simp [Nat.add_comm, hi, show i < 7 by omega]

/-- The line that `ERET` leaves to settle: the return, then the marks of an issue (R50, R268, R325). -/
theorem eretNow_line {s : State} {t : Thread} (h : Hdr) (hf : findThread s t.key = some t) (hq : quiet s t = true) :
    ∃ x, findThread (eretNow s t h) t.key = some x ∧ x.wait = .run ∧ x.trap = t.trap ∧ x.bench = t.bench ∧ x.loc = t.loc ∧
      x.ctx = { (trapReturn t).ctx with wkind := 0 } ∧
      (∀ k, k ≠ t.key → findThread (eretNow s t h) k = findThread s k) ∧ RestSame s (eretNow s t h) := by
  obtain ⟨hcl, -, hpend, hfrz, hcancel, hstep, hfatal, hun⟩ := (quiet_iff _ _).mp hq
  let x0 := trapReturn t
  have hx0 : findThread (setThread s x0) x0.key = some x0 := by
    rw [findThread_setThread]
    show (findThread s t.key).map _ = _
    rw [hf]
    rfl
  obtain ⟨hmark, hmarkOthers, hmarkRest, -⟩ := markIssue_spec (setThread s x0) x0 h hx0
  let s2 := count (markIssue (setThread s x0) t.key h) t.bench (iuAt t) 0
  obtain ⟨hcount, hcountRest, -⟩ := count_spec (markIssue (setThread s x0) t.key h) t.bench (iuAt t) 0
  let x1 : Thread := { x0 with yp := h.yp, lh := h.lh, lastIssue := s.run.now, lastIu := some (t.bench, iuAt x0) }
  have hx1 : findThread s2 x1.key = some x1 := (hcount _).trans hmark
  have hrest : RestSame s s2 := (restSame_setThread s x0).trans (hmarkRest.trans hcountRest)
  obtain ⟨⟨x, hx, hxeq, hkind⟩, hothers, hsettle, -⟩ :=
    settle_line s2 x1 hx1 hcl hpend hfatal hfrz hcancel (by rw [hrest.flight]; exact hun)
  have hnow : eretNow s t h = settle s2 t.key := by
    simp only [eretNow, hstep, Bool.false_eq_true, if_false]
    rfl
  have hrun : (unpark x1).wait = .run := unpark_wait x1 hpend
  rw [hnow]
  have hwait : x.wait = .run := by rw [hxeq]; exact hrun
  rw [unpark_parts x1] at hxeq
  refine ⟨x, hx, hwait, ?_, ?_, ?_, ?_, fun k hk => ?_, hrest.trans hsettle⟩
  · rw [hxeq]; rfl
  · rw [hxeq]; rfl
  · rw [hxeq]; rfl
  · rw [← hkind hwait, hxeq]
  · exact (hothers k hk).trans ((hcount k).trans ((hmarkOthers k hk).trans (findThread_setThread_other s x0 k hk)))

/-- Settles O24: with its conditions met `ERET` completes at issue (`eretNow`), and the fields it restores are `trapReturn`'s. -/
theorem trapReturn_restores : Obligations.TrapReturn := by
  unfold Obligations.TrapReturn
  intro s t h hi hsup ho hctxw
  obtain ⟨hc, hq, -⟩ := (issues_iff _ _ _).mp hi
  obtain ⟨-, -, -, -, hcancel, -⟩ := (quiet_iff _ _).mp hq
  obtain ⟨x, hx, hwait, htrap, hbench, hloc, hctx, hothers, hrest⟩ := eretNow_line h (current_find hc) hq
  refine ⟨eretNow s t h, x, ?_, hx, hwait, htrap, hbench, hloc, ?_, hothers, hrest.mem, hrest.cache, hrest.flight, hrest.spaces,
    hrest.eng, hrest.queues⟩
  · refine (show exec (.eret h) s = execEret h s from rfl).trans (issue_gone (regs := []) hi rfl (fun _ => hsup) ?_)
    simp only [eretReady_of_quiet hq ho hctxw, hcancel, Bool.not_false, Bool.and_self, if_true]
  · rw [hctx, ← savedPc_aligned, ← savedPreds_p0]
    rfl

end Sys2Proof.Machine
end

section
/-! SUPPORT. O22: `SPAWN`, `WHERE`, `CTXR`, `CTXW` and `BAR` at issue (R258, R264, R266, R270, R271). -/

namespace Sys2Proof.Machine
open Sys2Proof.Forms Sys2Proof.Spec

/-! Requests about threads (R258, R264, R270, R271). -/

/-- An instruction for supervisor mode whose body enters one request hands it over (R172). -/
theorem enters_supervised {s : State} {t : Thread} {h : Hdr} {i : Instr} {l : List (BitVec 8 × Opd × Bool)}
    {regs : List (Opd × Bool)} {r : Req} {pends counts : Bool} {c : Ctx} {body : State → Thread → Did}
    (hi : issues s t h = true) (hsup : t.ctx.sup = true)
    (he : exec i s = issue s i h true l body) (hl : l.map (·.2) = regs) (hr : noneFrom t.ctx regs = true)
    (hb : body s t = .done (enter s t r pends counts).1 (t.ctx.pc + 12) .run) (hu : isUnrecorded r = false)
    (hc : enteredCtx t.ctx r pends counts = c) :
    ∃ s', exec i s = .next s' ∧ Handed s s' s t h c (t.ctx.pc + 12) [entry s t r] := by
  subst hl hc
  rw [he]
  exact issue_enter hi hr (fun _ => hsup) hb hu

/-- The registers of R272 that `SPAWN` checks for its masks are those that the masks name (R258). -/
theorem copyRegs_opds (x : Spawn) : (copyRegs x).map (·.2) = maskRegs x := by
  simp only [copyRegs, maskRegs, List.map_append, List.map_map]
  rfl

/-- A `CTXW` that names the upper half of a slot number, its own line or no thread places its word in no other line (R271). -/
theorem placesWord_none {s : State} {t : Thread} {a : Word}
    (h : 2 ^ 32 ≤ a.toNat ∨ a.setWidth 32 = t.key.ctx ∨ findThread s ⟨t.key.asid, a.setWidth 32⟩ = none) : placesWord s t a = false := by
  unfold placesWord
  rcases h with ha | hown | hnone
  · have hhigh : a.extractLsb' 32 32 ≠ 0 := by
      rw [ne_eq, ← BitVec.toNat_inj, BitVec.extractLsb'_toNat, Nat.shiftRight_eq_div_pow]
      have := a.isLt
      show ¬ a.toNat / 2 ^ 32 % 2 ^ 32 = 0
      omega
    rw [beq_eq_false_iff_ne.mpr hhigh]
    rfl
  · rw [hown, bne_self_eq_false, Bool.and_false]
    rfl
  · rw [hnone]
    exact Bool.and_false _

/-- The check of `CTXW` on the rounding modes that it would place passes (R17, R46, R271). -/
theorem ctxwMode_passes {s : State} {t : Thread} {a v : Word} {word : BitVec 5}
    (h : word = 2 → v.toNat / 2 ^ 49 % 8 ≤ 4 ∨ 2 ^ 32 ≤ a.toNat ∨ a.setWidth 32 = t.key.ctx ∨
      findThread s ⟨t.key.asid, a.setWidth 32⟩ = none) :
    (word == 2 && decide (4 < (v.extractLsb' 49 3).toNat) && placesWord s t a) = false := by
  by_cases hw : word = 2
  · rcases h hw with hmode | hplace
    · have hlegal : ¬ 4 < (v.extractLsb' 49 3).toNat := by
        rw [BitVec.extractLsb'_toNat, Nat.shiftRight_eq_div_pow]
        exact Nat.not_lt.mpr hmode
      rw [decide_eq_false hlegal, Bool.and_false, Bool.false_and]
    · rw [placesWord_none hplace, Bool.and_false]
  · rw [beq_eq_false_iff_ne.mpr hw, Bool.false_and, Bool.false_and]

/-- `SPAWN`, `WHERE`, `CTXR` and `CTXW`: each body, with nothing in its way, enters its request. -/
theorem threadRequests : Spec.ThreadRequests := by
  intro s t h hi
  refine ⟨fun x hr hout hfull => ?_, fun d hr hout => ?_, fun d a word hr hsup hout => ?_, fun a b word hr hsup hmode => ?_⟩
  · refine enters_of_body (pends := true) (counts := true) hi (show exec (.spawn h x) s = execSpawn h x s from rfl) ?_ hr ?_
      (by rfl) (by rfl)
    · rw [List.map_cons, copyRegs_opds]
    · refine (limited_of_ne hout _).trans ?_
      rw [hfull]
      rfl
  · have hval : (whereVal t.bench (iuAt t)).setWidth 128 =
        BitVec.ofNat 128 ((t.bench / 112 * 2 ^ 18 + t.bench * 2 ^ 8 + iuAt t) % 2 ^ 64) := by
      rw [whereVal, ← BitVec.ofNat_toNat, BitVec.toNat_ofNat]
    rw [← hval]
    exact enters_of_body hi (show exec (.whereIu h d) s = execWhereIu h d s from rfl) (by rfl) hr (limited_of_ne hout _) (by rfl) (by rfl)
  · exact enters_supervised hi hsup (show exec (.ctxr h d a word) s = execCtxr h d a word s from rfl) (by rfl) hr
      (limited_of_ne hout _) (by rfl) (by rfl)
  · refine enters_supervised (pends := false) (counts := false) hi hsup (show exec (.ctxw h a b word) s = execCtxw h a b word s from rfl)
      (by rfl) hr ?_ (by rfl) (by rfl)
    simp only [ctxwMode_passes hmode, Bool.false_eq_true, if_false]

/-! `BAR` (R266). -/

theorem barLimit_eq {s : State} {t : Thread} {l : LaunchSlot} (h : launchOf s t.ctx.lslot = some l) : barLimit s t = some l.barw := by
  rw [barLimit, h]
  rfl

/-- A `BAR` that retires with a result outstanding leaves its line waiting for it (R25, R266). -/
theorem retire_bar {s : State} {t : Thread} {h : Hdr} {pc : VAddr} (hf : findThread s t.key = some t) (hq : quiet s t = true)
    (ho : t.ctx.outst ≠ 0) :
    (∃ x, findThread (retire s t.key h pc .bar) t.key = some x ∧ x.wait = .bar ∧ x.trap = t.trap ∧
        x.ctx = { t.ctx with pc := pc, wkind := x.ctx.wkind }) ∧
      (∀ k, k ≠ t.key → findThread (retire s t.key h pc .bar) k = findThread s k) ∧ RestSame s (retire s t.key h pc .bar) := by
  obtain ⟨⟨x, hx, hctx, htrap, hwait, -⟩, hothers, hrest, -⟩ := retire_wait s t h pc .bar hf hq
  obtain ⟨-, -, hp, -⟩ := (quiet_iff _ _).mp hq
  have hbar : (unpark { t with wait := .bar }).wait = .bar :=
    (unpark_wait { t with wait := .bar } hp).trans (if_neg (by simpa using ho))
  exact ⟨⟨x, hx, hwait.trans hbar, htrap, hctx⟩, hothers, hrest⟩

/-- An instruction whose body enters one located request and waits for its result as `BAR` does hands it over (R172, R266). -/
theorem issue_bar {s s1 : State} {t : Thread} {i : Instr} {h : Hdr} {regs : List (BitVec 8 × Opd × Bool)}
    {body : State → Thread → Did} {r : Req} {p : Phys} {l : TlbAt} {k : Want} {va : Word} (hi : issues s t h = true)
    (hr : noneFrom t.ctx (regs.map (·.2)) = true) (hout : t.ctx.outst ≠ 15) (htr : translate s l t.key.asid k va = .ok p s1)
    (hb : body s t = .done (entered s s1 t r p true true) (t.ctx.pc + 12) .bar) :
    ∃ s', issue s i h false regs body = .next s' ∧
      (∃ x, findThread s' t.key = some x ∧ x.wait = .bar ∧ x.trap = t.trap ∧
        x.ctx = { enteredCtx t.ctx r true true with pc := t.ctx.pc + 12, wkind := x.ctx.wkind }) ∧
      (∀ k, k ≠ t.key → findThread s' k = findThread s k) ∧ s'.flight.reqs = s.flight.reqs ++ [handed s t r p] ∧
      s'.mem = s1.mem ∧ s'.mmu = s1.mmu ∧ s'.cache = s.cache ∧ s'.eng = s.eng ∧ s'.queues = s.queues := by
  obtain ⟨hc, hq, -⟩ := (issues_iff _ _ _).mp hi
  have hcount : (enteredCtx t.ctx r true true).outst ≠ 0 := by
    show t.ctx.outst + 1 ≠ 0
    bv_omega
  obtain ⟨hline, hothers, hrest⟩ := retire_bar (t := { t with ctx := enteredCtx t.ctx r true true }) (h := h) (pc := t.ctx.pc + 12)
    (findThread_entered (s1 := s1) (p := p) (current_find hc))
    (quiet_handed hq (l := [handed s t r p]) rfl (by simp [isUnrecorded, handed]) rfl rfl) hcount
  have hcache : s1.cache = s.cache := by rw [(translate_keeps htr).eq]
  exact ⟨_, issue_body (priv := false) hi hr nofun hb, hline, fun k hk => (hothers k hk).trans (findThread_entered_other s s1 hk),
    congrArg Flight.reqs hrest.flight, hrest.mem, hrest.mmu, hrest.cache.trans hcache, hrest.eng, hrest.queues⟩

/-- `BAR` within the bound of its launch submits its arrival; above it, it traps. -/
theorem barrierIssue : Spec.BarrierIssue := by
  intro s t h d a idx hi hr hout ea r
  have hexec : exec (.bar h d a idx) s = execBar h d a idx s := rfl
  rw [hexec]
  refine ⟨fun hbound hal hfull hctx p s1 htr hk => ?_, fun l x hl hge hsp hin ho => ?_⟩
  · have hgo := (aligned_of_mod hal _).trans
      (submit_located (pends := true) (counts := true) (pc := t.ctx.pc + 12) (w := .bar) hfull hctx htr hk)
    refine issue_bar (r := r) (regs := [(1, d, false), (2, a, false)]) hi hr hout htr ((limited_of_ne hout _).trans ?_)
    cases hl : launchOf s t.ctx.lslot with
    | none =>
      rw [barLimit, hl]
      exact hgo
    | some l =>
      rw [barLimit_eq hl]
      exact (if_neg (Nat.not_le.mpr (hbound l hl))).trans hgo
  · refine issue_trap (regs := [(1, d, false), (2, a, false)]) (priv := false) (nx := false) hi hr nofun ?_ hsp hin rfl ho
    refine (limited_of_ne hout _).trans ?_
    rw [barLimit_eq hl]
    exact if_pos hge

/-- Settles O22: `threadRequests` and `barrierIssue`. -/
theorem threadRequestsAndBarriers : Obligations.ThreadRequestsAndBarriers := ⟨threadRequests, barrierIssue⟩

end Sys2Proof.Machine
end

section
/-! SUPPORT. The half of O26 on `YIELD` and `EXIT`, which holds (R261, R262). -/

namespace Sys2Proof.Machine
open Sys2Proof.Forms Sys2Proof.Spec

/-! `YIELD` (R262). -/

/-- Retirement keeps the mark of `YIELD`: a line in a CL1 joins no ready list (R262, R326). -/
theorem retire_yielded {s : State} {x : Thread} {h : Hdr} {pc : VAddr} {w : Wait} (hf : findThread s x.key = some x)
    (hq : quiet s x = true) : ∃ y, findThread (retire s x.key h pc w) x.key = some y ∧ y.yielded = x.yielded := by
  obtain ⟨hc, -, hp, hz, hn, hst, hr, hu⟩ := (quiet_iff _ _).mp hq
  let x1 : Thread := { x with ctx := { x.ctx with pc := pc }, wait := if w == .run && h.w then .drain else w }
  have hx1 : findThread (setThread s x1) x1.key = some x1 := by
    rw [findThread_setThread]
    show (findThread s x.key).map _ = _
    rw [hf]
    rfl
  obtain ⟨hmark, -, hmarkRest, -⟩ := markIssue_spec (setThread s x1) x1 h hx1
  let s2 := count (markIssue (setThread s x1) x.key h) x.bench (iuAt x) 0
  obtain ⟨hcount, hcountRest, -⟩ := count_spec (markIssue (setThread s x1) x.key h) x.bench (iuAt x) 0
  let x2 : Thread := { x1 with yp := h.yp, lh := h.lh, lastIssue := s.run.now, lastIu := some (x.bench, iuAt x) }
  have hx2 : findThread s2 x2.key = some x2 := (hcount _).trans hmark
  have hflight : s2.flight = s.flight := hcountRest.flight.trans hmarkRest.flight
  obtain ⟨⟨y, hy, hyeq, -⟩, -⟩ := settle_line s2 x2 hx2 hc hp hr hz hn (by rw [hflight]; exact hu)
  have hretire : retire s x.key h pc w = settle s2 x.key := by
    rw [retire, hf]
    exact if_neg (by rw [hst]; decide)
  rw [hretire]
  refine ⟨y, hy, ?_⟩
  rw [hyeq, unpark_parts x2]

/-- `YIELD` retires with its mark (R262). -/
theorem yield_marks {s : State} {t : Thread} {h : Hdr} (hi : issues s t h = true) :
    ∃ s', exec (.yield h) s = .next s' ∧ Retired s s' t h t.ctx (t.ctx.pc + 12) ∧
      ∃ y, findThread s' t.key = some y ∧ y.yielded = (t.yielded || !t.ctx.hact) := by
  obtain ⟨hc, hq, -⟩ := (issues_iff _ _ _).mp hi
  let x : Thread := { t with yielded := t.yielded || !t.ctx.hact }
  have hx : findThread (setThread s x) x.key = some x := by
    rw [findThread_setThread]
    show (findThread s t.key).map _ = _
    rw [current_find hc]
    rfl
  have hqx : quiet (setThread s x) x = true := hq
  have r := retire_spec (setThread s x) x h (t.ctx.pc + 12) hx hqx
  have hexec : exec (.yield h) s = execYield h s := rfl
  refine ⟨retire (setThread s x) x.key h (t.ctx.pc + 12) .run, ?_, ?_, retire_yielded hx hqx⟩
  · exact hexec.trans (issue_body (priv := false) (regs := []) hi rfl nofun rfl)
  · exact { r with
      line := ⟨r.line.line⟩
      others := fun k hk => (r.others k hk).trans (findThread_setThread_other s x k hk) }

/-! `EXIT` (R261). -/

/-- No hold register of any IU is the thread's (R189). -/
def NoHolds (s : State) (k : Key) : Prop := ∀ u ∈ s.ius, ∀ r, some r ∈ u.holds → r.key ≠ k

theorem NoHolds.onIu {s : State} {k : Key} (h : NoHolds s k) (b u : Nat) {f : Iu → Iu} (hf : ∀ x, (f x).holds = x.holds) :
    NoHolds (onIu s b u f) k := by
  intro x hx r hr
  rcases mem_upsert hx with rfl | hx
  · rw [hf, getIu] at hr
    cases hfind : s.ius.find? fun x => x.bench == b && x.iu == u with
    | none =>
      rw [hfind] at hr
      simp at hr
    | some y =>
      rw [hfind] at hr
      exact h y (List.mem_of_find?_eq_some hfind) r hr
  · exact h x hx r hr

theorem NoHolds.rotate {s : State} {k : Key} (h : NoHolds s k) (j : Key) : NoHolds (rotate s j) k := by
  unfold Machine.rotate
  split
  · exact h
  · split
    · exact h
    · exact h.onIu _ _ fun x => by dsimp only; split <;> rfl

/-- A thread without hold registers has no hold to end (R195). -/
theorem NoHolds.endHolds {s : State} {k : Key} (h : NoHolds s k) : endHolds s k = s := by
  refine endHolds_none (List.flatMap_eq_nil_iff.mpr fun u hu => List.filterMap_eq_nil_iff.mpr fun x hx => ?_)
  cases hr : x.1 with
  | none => rfl
  | some r =>
    have hm : some r ∈ u.holds := hr ▸ List.fst_mem_of_mem_zipIdx hx
    exact if_neg (by simpa using h u hu r hm)

/-- The rotation of an IU changes issue units only (R325). -/
theorem rotate_eq (s : State) (k : Key) : rotate s k = { s with ius := (rotate s k).ius } := by
  unfold rotate
  split
  · rfl
  · split <;> rfl

/-- The state in which a thread that exits retires: its issue counted, the stale instruction copies gone (R78, R261, R325). -/
def exiting (s : State) (t : Thread) : State := count (dropStale (rotate s t.key)) t.bench (iuAt t) 0

theorem exiting_eq (s : State) (t : Thread) : exiting s t = { s with ius := (exiting s t).ius, cache := (dropStale s).cache } := by
  unfold exiting
  rw [rotate_eq]
  rfl

theorem NoHolds.exiting {s : State} {t : Thread} {k : Key} (h : NoHolds s k) : NoHolds (exiting s t) k :=
  have hr : NoHolds (dropStale (Machine.rotate s t.key)) k := h.rotate t.key
  hr.onIu _ _ fun _ => rfl

theorem mem_dropStale (s : State) (x : ILine) :
    x ∈ (dropStale s).cache.icache ↔ x ∈ s.cache.icache ∧ x.data = lineData s.mem x.line := by
  simp [dropStale]

/-- What a thread that retires leaves of its address space (R261, R337). -/
def leftSpace (t : Thread) (x : Space) : Space :=
  returnId { x with handles := x.handles.map fun h => if h.v && h.owner == t.ctx.ctxid then { h with owner := 0 } else h } t.key.ctx

theorem leftSpace_handles (t : Thread) (x : Space) : (leftSpace t x).handles =
    x.handles.map fun e => if e.v = true ∧ e.owner = t.ctx.ctxid then { e with owner := 0 } else e := by
  simp [leftSpace, returnId]

/-- Requests of no thread that retires are as they were (R337). -/
theorem orphan_reqs {s : State} {k : Key} (h : ∀ r ∈ s.flight.reqs, r.key ≠ k) : (orphan s k).flight.reqs = s.flight.reqs :=
  (List.map_congr_left fun r hr => if_neg (by simpa using h r hr)).trans (List.map_id _)

/-- With nothing outstanding and no store left `EXIT` retires its thread at issue (R261). -/
theorem exec_exit {s : State} {t : Thread} {h : Hdr} (hi : issues s t h = true) (ho : t.ctx.outst = 0)
    (hst : ¬ storeLeft s t.key .dev) : exec (.exit h) s = .next (retireThread (exiting s t) t) := by
  have hready : exitReady s t = true := by
    rw [exitReady, switchReady_of_quiet ((issues_iff _ _ _).mp hi).2.1 ho, (storesDone_iff _ _ _).mpr hst]
    rfl
  exact (show _ = execExit h s from rfl).trans (issue_gone (priv := false) (regs := []) hi rfl nofun (if_pos hready))

/-- `YIELD` and `EXIT`. -/
theorem yieldExit : Spec.YieldExit := by
  intro s t h hi
  refine ⟨yield_marks hi, fun x hx ho hst => ?_⟩
  obtain ⟨hc, -, -⟩ := (issues_iff _ _ _).mp hi
  let s1 := exiting s t
  have hs1 : s1 = { s with ius := s1.ius, cache := (dropStale s).cache } := exiting_eq s t
  have hf1 : findThread s1 t.key = some t := by
    rw [hs1]
    exact current_find hc
  obtain ⟨-, hkeep⟩ := endHolds_line s1 t.key t.key t hf1
  let s2 := onSpace (endHolds s1 t.key) t.key.asid (leftSpace t)
  have hspace : ∀ a, findSpace (endHolds s1 t.key) a = findSpace s a := fun a => by
    rw [findSpace, hkeep.spaces, hs1]
    rfl
  have hflight : s2.flight = s.flight := hkeep.flight.trans (by rw [hs1])
  have hlaunches : s2.queues = s.queues := hkeep.queues.trans (by rw [hs1])
  refine ⟨retireThread s1 t, leftSpace t x, exec_exit hi ho hst, findThread_dropThread_same _ _, fun hn => ?_, ?_, rfl, rfl, rfl, rfl,
    leftSpace_handles t x, fun a ha => ?_, fun l hl => ?_, hkeep.eng.trans (by rw [hs1]), ?_, fun hr => ?_⟩
  · have hend : endHolds s1 t.key = s1 := NoHolds.endHolds (NoHolds.exiting hn)
    have hcache : (retireThread s1 t).cache = (dropStale s).cache := by
      show (endHolds s1 t.key).cache = _
      rw [hend, hs1]
    refine ⟨fun k hk => ?_, ?_, ⟨?_, fun x => ?_⟩⟩
    · refine (findThread_dropThread_other _ hk).trans ?_
      show findThread (endHolds s1 t.key) k = _
      rw [hend, hs1]
      rfl
    · show (endHolds s1 t.key).mem = _
      rw [hend, hs1]
    · rw [hcache]
      rfl
    · rw [hcache]
      exact mem_dropStale s x
  · show findSpace s2 t.key.asid = _
    rw [findSpace_onSpace _ _ _ _ (by exact fun _ => rfl), if_pos rfl, hspace, hx]
    rfl
  · show findSpace s2 a = _
    rw [findSpace_onSpace _ _ _ _ (by exact fun _ => rfl), if_neg ha, hspace]
  · show (modifyFirst _ _ s2.queues.launches).find? _ = _
    rw [find?_modifyFirst _ _ _ (by exact fun _ hp => hp), hlaunches, hl]
    rfl
  · show s2.flight.waiters = _
    rw [hflight]
  · show (orphan s2 t.key).flight.reqs = _
    rw [orphan_reqs (by rw [hflight]; exact hr), hflight]

end Sys2Proof.Machine
end

section
/-! SUPPORT. O26 fails, by its half on `MOVE` alone: the clause on a line that travels does not assume that a key names one line. When
the CL2 of the bench that accepts is full, one of its lines is spilled by its key (R321, R333); if another line of that key stands in
its slot, the words of that one go to memory (R12, R317), though the clause says that memory stays. -/

namespace Sys2Proof.Machine
open Sys2Proof.Forms Sys2Proof.Spec

/-- A line of bench 1 that stands in its slot. -/
def slotTwin : Thread :=
  { key := ⟨1, 2⟩, ctx := { pc := 0x40 }
    trap := { saveW0 := 0, tw1 := 0, tval := 0, iw01 := 0, iw2 := 0, saveS2 := 0, saveS3 := 0 }, bench := 1, loc := .placed .hbm }

/-- A line of the same key that has yielded, in the CL2 of bench 1; no creation of a thread makes the second (R20). -/
def cl2Twin : Thread := { slotTwin with loc := .placed .cl2, yielded := true }

/-- The page of the slots, in the TLB of bench 1. -/
def slotPage : TlbEnt := { loc := .bench 1, asid := 1, base := 2 ^ 40, size := 4096, pte := 0x8280000000006000, pteAddr := 0 }

/-- The reset state with `fetchThread` in bench 0, the line in its slot, and other lines. -/
def besideSlot (l : List Thread) : State :=
  { State.reset with
    run := { cur := some fetchThread.key }
    threads := fetchThread :: slotTwin :: l
    spaces := [fetchSpace]
    mmu := { tlb := [slotPage] } }

/-- The CL2 of bench 1 is full of lines of that key. -/
def crowdedState : State := besideSlot (List.replicate Config.cl2Lines cl2Twin)

/-- The words of the line in the slot, as they stand in memory once it leaves (R12, R317). -/
def slotBytes : List Host.Cell :=
  (List.range 32).foldl (fun d n => writeVal d (0x6200 + 8 * n) 8 ((slotWord slotTwin n).setWidth 128)) []

/-- What `crowdedState` and the states after it have in common: only the first line, in a CL1 of bench 0, may differ. -/
structure Crowded (s : State) (x : Thread) : Prop where
  bench : x.bench = 0
  loc : x.loc = .placed (.cl1 0)
  key : x.key = fetchThread.key
  threads : s.threads = x :: slotTwin :: List.replicate Config.cl2Lines cl2Twin
  spaces : s.spaces = [fetchSpace]
  mmu : s.mmu = { tlb := [slotPage] }
  mem : s.mem = {}
  part : s.cache.part = 0

theorem crowded_crowdedState : Crowded crowdedState fetchThread := ⟨rfl, rfl, rfl, rfl, rfl, rfl, rfl, rfl⟩

/-! The line that a crowded CL2 spills (R321). -/

theorem leastBy_replicate {α : Type} (f : α → Nat) (x : α) {n : Nat} (h : 0 < n) : leastBy f (List.replicate n x) = some x := by
  induction n with
  | zero => cases h
  | succ n ih =>
    rw [List.replicate_succ, leastBy]
    rcases Nat.eq_zero_or_pos n with rfl | hn
    · rfl
    · rw [ih hn]
      exact if_neg (Nat.lt_irrefl _)

theorem parkedClass_cl2Twin (s : State) : parkedClass s cl2Twin = true := Bool.or_true _

section crowded
variable {s : State} {x : Thread} (h : Crowded s x)
include h

theorem spillable_crowded : spillable s 1 = List.replicate Config.cl2Lines cl2Twin := by
  rw [spillable, h.threads, List.filter_cons_of_neg (by simp [h.bench]), List.filter_cons_of_neg (by decide),
    List.filter_replicate_of_pos (by decide)]

theorem cl2Used_crowded : cl2Used s 1 = Config.cl2Lines := by
  rw [cl2Used, h.threads, List.filter_cons_of_neg (by simp [inCl2, h.bench, h.loc]), List.filter_cons_of_neg (by decide),
    List.filter_replicate_of_pos (by decide), List.length_replicate]

/-- A line of the crowded CL2 is spilled by its key. -/
theorem cl2Room_crowded : cl2Room s 1 = spillTo s cl2Twin.key 1 := by
  have hvictim : victimOf s (spillable s 1) = some cl2Twin := by
    rw [victimOf, spillable_crowded h, List.filter_replicate_of_pos (parkedClass_cl2Twin s),
      leastBy_replicate _ _ (show 0 < Config.cl2Lines by decide)]
  rw [cl2Room, if_neg (by rw [cl2Used_crowded h]; exact Nat.lt_irrefl _), hvictim]

/-- Its key finds the line in the slot. -/
theorem findThread_crowded : findThread s cl2Twin.key = some slotTwin := by
  rw [findThread, h.threads, List.find?_cons_of_neg (by rw [h.key]; decide)]
  rfl

theorem findSpace_crowded : findSpace s cl2Twin.key.asid = some fetchSpace := by
  rw [findSpace, h.spaces]
  rfl

/-- Where the slot is (R10, R345). -/
theorem translate_slot : translate s (.bench slotTwin.bench) cl2Twin.key.asid { sup := true } (trapLineVa fetchSpace cl2Twin.key - 128) =
    .ok (.dev 0x6200) s := by
  have hcanon : ¬ (trapLineVa fetchSpace cl2Twin.key - 128).toNat ≥ 2 ^ 57 := by decide +kernel
  have htlb : tlbFind s (.bench slotTwin.bench) cl2Twin.key.asid (trapLineVa fetchSpace cl2Twin.key - 128).toNat = some slotPage := by
    rw [tlbFind, h.mmu]
    decide +kernel
  have hplace : leafPhys (trapLineVa fetchSpace cl2Twin.key - 128).toNat slotPage.pte (Nat.log2 slotPage.size) = .dev 0x6200 := by
    decide +kernel
  have hfree : reservedFrame s 6 = false := by
    rw [reservedFrame, h.mmu, h.spaces, h.mem]
    decide +kernel
  simp only [translate, findSpace_crowded h, if_neg hcanon, htlb, useLeaf, hplace]
  rw [show devAddr (.dev 0x6200) / 4096 = 6 from rfl, hfree]
  rfl

theorem leaveSlot_crowded : leaveSlot s cl2Twin.key = { s with mem := { dev := slotBytes } } := by
  rw [leaveSlot, findThread_crowded h, findSpace_crowded h]
  simp only [translate_slot h, h.mem]
  rfl

theorem spillTo_crowded : spillTo s cl2Twin.key 1 = startMove s cl2Twin.key .hbm 1 := by
  rw [spillTo, findThread_crowded h]
  simp only [h.part, beq_self_eq_true, if_true]

/-- Spilling by that key writes the slot, and the first line stays where it is. -/
theorem cl2Room_mem : (cl2Room s 1).mem = { dev := slotBytes } ∧ findThread (cl2Room s 1) fetchThread.key = some x := by
  rw [cl2Room_crowded h, spillTo_crowded h, startMove, leaveSlot_crowded h]
  refine ⟨rfl, (findThread_onThread_other _ _ _ _ (show fetchThread.key ≠ cl2Twin.key by decide) (by exact fun _ hk => hk)).trans ?_⟩
  show s.threads.find? _ = some x
  rw [h.threads]
  exact List.find?_cons_of_pos (beq_iff_eq.mpr h.key)

end crowded

/-! The `MOVE` (R259, R263). -/

/-- Bench 1 accepts a line all the same, since it can spill one (R333). -/
theorem placementWalk_crowded : placementWalk crowdedState fetchThread.bench 1 0 = some 1 := by
  have hroom : (spillable crowdedState 1).any (parkedClass crowdedState) = true := by
    rw [spillable_crowded crowded_crowdedState]
    exact List.any_eq_true.mpr ⟨cl2Twin, List.mem_replicate.mpr ⟨by decide, rfl⟩, parkedClass_cl2Twin _⟩
  have haccepts : accepts crowdedState 1 = true := by
    rw [accepts, hasRoom, hroom, Bool.or_true]
    rfl
  have hcandidates : candidates fetchThread.bench 1 0 = [1] := by decide +kernel
  show (candidates fetchThread.bench 1 0).find? (accepts crowdedState) = some 1
  rw [hcandidates]
  exact List.find?_cons_of_pos haccepts

theorem moveGoal_crowded : moveGoal crowdedState fetchThread 0 1 = some 1 := (if_neg (by decide)).trans placementWalk_crowded

/-- `MOVE` completes at issue when its thread is ready for it (R263). -/
theorem exec_move {s : State} {t : Thread} {h : Hdr} (rad : BitVec 6) (sbench : BitVec 10) (hi : issues s t h = true)
    (hready : moveReady s t = true) : exec (.move h rad sbench) s = .next (moveNow s t h rad sbench) :=
  (show _ = execMove h rad sbench s from rfl).trans (issue_gone (priv := false) (regs := []) hi rfl nofun (if_pos hready))

/-- With no hold to end and no stale copy to drop, a `MOVE` that a bench accepts retires and travels (R263). -/
theorem moveNow_travels {s : State} {t : Thread} (h : Hdr) {rad : BitVec 6} {sbench : BitVec 10} {b : Nat}
    (hrelease : dropStale (endHolds s t.key) = s) (hf : findThread s t.key = some t) (hgoal : moveGoal s t rad sbench = some b) :
    moveNow s t h rad sbench = moveTo (retire s t.key h (t.ctx.pc + 12) .transit) t.key t.bench b := by
  rw [moveNow, hrelease]
  simp only [hf, hgoal]

section beside
variable (l : List Thread)

theorem issues_besideSlot : issues (besideSlot l) fetchThread {} = true := rfl

theorem moveReady_besideSlot : moveReady (besideSlot l) fetchThread = true := rfl

theorem findThread_besideSlot : findThread (besideSlot l) fetchThread.key = some fetchThread := rfl

theorem release_besideSlot : dropStale (endHolds (besideSlot l) fetchThread.key) = besideSlot l := rfl

theorem storeLeft_besideSlot : ¬ storeLeft (besideSlot l) fetchThread.key .dev := by
  rintro ⟨r, hr, -⟩
  exact nomatch hr

theorem holds_besideSlot : ∀ u ∈ (besideSlot l).ius, ∀ r, some r ∈ u.holds → r.key ≠ fetchThread.key :=
  fun _ hu => nomatch hu

end beside

/-- `fetchThread` after its `MOVE` has retired. -/
def leavingThread : Thread := { fetchThread with ctx := { fetchThread.ctx with pc := 12, wkind := 1 }, wait := .transit }

/-- The state in which it has. -/
def leavingState (l : List Thread) : State := retire (besideSlot l) fetchThread.key {} (fetchThread.ctx.pc + 12) .transit

theorem leavingState_threads (l : List Thread) : (leavingState l).threads = leavingThread :: slotTwin :: l := rfl

theorem crowded_leavingState : Crowded (leavingState (List.replicate Config.cl2Lines cl2Twin)) leavingThread :=
  ⟨rfl, rfl, rfl, leavingState_threads _, rfl, rfl, rfl, rfl⟩

/-- A line that does not stand in its slot leaves nothing in memory (R317). -/
theorem startMove_mem {s : State} {k : Key} {t : Thread} (p : Place) (b : Nat) (hf : findThread s k = some t)
    (hl : t.loc ≠ .placed .hbm) : (startMove s k p b).mem = s.mem := by
  have h : leaveSlot s k = s := by
    rw [leaveSlot, hf]
    cases findSpace s k.asid with
    | none => rfl
    | some x => exact if_pos (bne_iff_ne.mpr hl)
  rw [startMove, h]
  rfl

/-- What a line that travels to another bench does to memory is what the room for it does (R263, R321). -/
theorem moveTo_mem {s : State} {k : Key} {t : Thread} {old b : Nat} (hb : b ≠ old) (hf : findThread (cl2Room s b) k = some t)
    (hl : t.loc ≠ .placed .hbm) : (moveTo s k old b).mem = (cl2Room s b).mem := by
  rw [moveTo, if_neg (by simpa using hb), onThread_mem]
  exact startMove_mem .cl2 b hf hl

/-- The `MOVE` of `fetchThread` to bench 1 writes the slot. -/
theorem moveNow_crowded : (moveNow crowdedState fetchThread {} 0 1).mem = { dev := slotBytes } := by
  obtain ⟨hmem, hline⟩ := cl2Room_mem crowded_leavingState
  have htravels : moveNow crowdedState fetchThread {} 0 1 = moveTo (leavingState _) fetchThread.key fetchThread.bench 1 :=
    moveNow_travels {} (release_besideSlot _) (findThread_besideSlot _) moveGoal_crowded
  rw [htravels, moveTo_mem (by decide) hline (by decide), hmem]

theorem slotBytes_ne : slotBytes ≠ [] := by decide +kernel

/-- Refutes O26 by its clause on the memory of a `MOVE` that travels: with two lines of one key, which the clause does not exclude,
`crowdedState` ends with the slot written (`moveNow_crowded`). -/
theorem not_yieldExitMove : ¬ Obligations.YieldExitMove := by
  unfold Obligations.YieldExitMove
  rintro ⟨-, hmove⟩
  have hi : issues crowdedState fetchThread {} = true := issues_besideSlot _
  obtain ⟨-, htravels⟩ := hmove crowdedState fetchThread {} 0 1 hi rfl (storeLeft_besideSlot _) (holds_besideSlot _)
  obtain ⟨s', x, he, -, -, -, -, -, hmem, -⟩ := htravels 1 (by decide) placementWalk_crowded
  have hs : s' = moveNow crowdedState fetchThread {} 0 1 :=
    Host.Outcome.next.inj (he.symm.trans (exec_move 0 1 hi (moveReady_besideSlot _)))
  rw [hs, moveNow_crowded, crowded_crowdedState.mem] at hmem
  obtain ⟨hdev, -⟩ := Mem.mk.inj hmem
  exact slotBytes_ne hdev

end Sys2Proof.Machine
end

section
/-! Links to peers, their windows and ports, the region directory's merges, the context partition and power-gated ways
(12_caches_coherence_host R291, R296, R300, R313, R314, R316; R354, R371). -/

namespace Sys2Proof.Machine
open Sys2Proof.Forms Sys2Proof.Spec

/-! What the caches tell the host as a line comes to its home: host lines that make room, and nothing else (R292, R304). -/

/-- What the device has told since is that host lines have left it (R304). -/
def OnlyEvicts (s s' : State) : Prop := ∃ l, evictions l ∧ s'.fw.out = s.fw.out ++ l

theorem onlyEvicts_of_fw {s s' : State} (h : s'.fw = s.fw) : OnlyEvicts s s' := ⟨[], nofun, by rw [h, List.append_nil]⟩

theorem OnlyEvicts.trans {a b c : State} (h : OnlyEvicts a b) (g : OnlyEvicts b c) : OnlyEvicts a c := by
  obtain ⟨l, hl, ho⟩ := h
  obtain ⟨m, hm, go⟩ := g
  exact ⟨l ++ m, fun o h => (List.mem_append.mp h).elim (hl o) (hm o), by rw [go, ho, List.append_assoc]⟩

theorem onlyEvicts_foldl {α : Type} (f : State → α → State) (h : ∀ s x, OnlyEvicts s (f s x)) (l : List α) (s : State) :
    OnlyEvicts s (l.foldl f s) :=
  List.foldlRecOn (motive := OnlyEvicts s) l f (onlyEvicts_of_fw rfl) fun s1 h1 x _ => h1.trans (h s1 x)

theorem onlyEvicts_emit (s : State) {o : Out} (h : (∃ a d, o = .dirtyEvict a d) ∨ ∃ a, o = .cleanEvict a) :
    OnlyEvicts s (emit s o) :=
  ⟨[o], fun _ ho => List.mem_singleton.mp ho ▸ h, rfl⟩

theorem onlyEvicts_tellEvict (s : State) (p : Phys) (x : L2State) : OnlyEvicts s (tellEvict s p x) := by
  unfold tellEvict
  split
  · exact onlyEvicts_of_fw rfl
  · split
    · exact onlyEvicts_emit s (.inl ⟨_, _, rfl⟩)
    · exact onlyEvicts_emit s (.inl ⟨_, _, rfl⟩)
    · exact onlyEvicts_emit s (.inr ⟨_, rfl⟩)
    · exact onlyEvicts_of_fw rfl

theorem onlyEvicts_llcDrop (s : State) (p : Phys) : OnlyEvicts s (llcDrop s p) := by
  unfold llcDrop
  exact (onlyEvicts_of_fw rfl).trans (onlyEvicts_tellEvict _ _ _)

theorem onlyEvicts_llcRoom (s : State) (p : Phys) : OnlyEvicts s (llcRoom s p) := by
  unfold llcRoom
  dsimp only
  split
  · exact onlyEvicts_of_fw rfl
  · split
    · exact (onlyEvicts_of_fw rfl).trans (onlyEvicts_llcDrop _ _)
    · exact onlyEvicts_of_fw rfl

theorem onlyEvicts_llcPut (s : State) (a : Nat) (d : Bool) : OnlyEvicts s (llcPut s a d) := by
  unfold llcPut
  dsimp only
  split
  · exact onlyEvicts_of_fw rfl
  · exact onlyEvicts_llcRoom s (.dev a)

theorem onlyEvicts_dirRecall (s : State) (e : DirEnt) : OnlyEvicts s (dirRecall s e) := by
  unfold dirRecall
  dsimp only
  refine OnlyEvicts.trans ((onlyEvicts_foldl _ ?_ _ s).trans (onlyEvicts_foldl _ ?_ _ _)) (onlyEvicts_of_fw rfl)
  · intro s l
    split
    · exact onlyEvicts_of_fw (mergeLine_fw s l)
    · exact onlyEvicts_of_fw rfl
  · intro s x
    split
    · exact (onlyEvicts_of_fw rfl).trans (onlyEvicts_llcPut _ _ _)
    · exact onlyEvicts_of_fw rfl

theorem onlyEvicts_dirRoom (a n : Nat) (s : State) : OnlyEvicts s (dirRoom a n s) := by
  induction n generalizing s with
  | zero => exact onlyEvicts_of_fw rfl
  | succ n ih =>
    unfold dirRoom
    split
    · exact (onlyEvicts_dirRecall _ _).trans (ih _)
    · exact onlyEvicts_of_fw rfl

/-- Taking a device line home evicts host lines from the LLC at most (R292, R308). -/
theorem onlyEvicts_takeAll (s : State) (a : Nat) : OnlyEvicts s (takeAll s a) :=
  ((onlyEvicts_dirRoom (lineAddr a) 16 s).trans
      (onlyEvicts_of_fw ((l2DropOthers_fw _ none _).trans (mergeLine_fw _ (.dev (lineAddr a)))))).trans
    ((onlyEvicts_of_fw (dirNote_fw _ _ _)).trans (onlyEvicts_llcPut _ _ _))

/-! The window table (R313). -/

/-- The state with an entry of the window table written. -/
def withWindow (s : State) (w : Window) : State :=
  { s with fw := { s.fw with windows := upsert (fun y => y.n == w.n) w s.fw.windows } }

theorem getWindow_withWindow_same (s : State) (w : Window) : getWindow (withWindow s w) w.n = w := by
  unfold getWindow withWindow
  rw [find?_upsert_same (fun y : Window => y.n == w.n) w _ (beq_self_eq_true w.n)]
  rfl

theorem getWindow_withWindow_other (s : State) (w : Window) {m : Nat} (h : m ≠ w.n) :
    getWindow (withWindow s w) m = getWindow s m := by
  have hne : (w.n == m) = false := beq_false_of_ne h.symm
  unfold getWindow withWindow
  rw [find?_upsert_other (fun y : Window => y.n == w.n) (fun y => y.n == m) w _ (fun y hy => beq_iff_eq.mp hy ▸ hne) hne]

theorem windowTableWrite_spec (s : State) (n : Nat) (w0 w1 w2 : Word) (h : n < 4096) :
    ∃ s', exec (.inboundWindowTableWrite n w0 w1 w2) s = .next s' ∧
      getWindow s' n = { n := n, w0 := w0 &&& 0xF800FFFF0000FFFF, w1 := w1 &&& 0x01FFFFFFFFFFF000, w2 := w2 } ∧
      (∀ m, m ≠ n → getWindow s' m = getWindow s m) ∧ s'.mem = s.mem ∧ s'.threads = s.threads :=
  let w : Window := { n := n, w0 := w0 &&& 0xF800FFFF0000FFFF, w1 := w1 &&& 0x01FFFFFFFFFFF000, w2 := w2 }
  ⟨withWindow s w, if_neg (Nat.not_le.mpr h), getWindow_withWindow_same s w, fun _ hm => getWindow_withWindow_other s w hm, rfl, rfl⟩

/-! Accesses of peers (R313, R314). -/

/-- Nothing keeps an outside access from the home of a device line: no hold, nobody before it, no copy of the host, no recall, no
poison, no D copy (R194, R198, R302, R309). -/
structure HomeOpen (s : State) (a : Nat) : Prop where
  hold : lineHold s (.dev (lineAddr a)) = none
  turn : noneWaits s (.dev (lineAddr a))
  host : hostStOf s (lineAddr a) = none
  room : recallGate s (lineAddr a) = .go
  sound : s.mem.poison.contains (lineAddr a) = false
  deltas : s.cache.dsums = []

theorem homeGate_open {s : State} {a : Nat} (h : HomeOpen s a) (i : Instr) (need : Need) : homeGate s i a need = none := by
  have hwait : outsideWaits s (.dev (lineAddr a)) i = false := by
    unfold outsideWaits
    rw [h.hold, turnOver_of_noneWaits h.turn]
    rfl
  have hhost : hostBlocks s (.dev (lineAddr a)) need = none := by
    simp only [hostBlocks, h.host]
  unfold homeGate
  simp only [hwait, hhost, h.room, Bool.false_eq_true, if_false]

/-- A write of one byte at the home of its line (R314). -/
def byteWritten (s : State) (a : Nat) (b : Byte) : State := (inboundDo .write s a [b]).1

theorem byteWritten_mem {s : State} (h : s.cache.dsums = []) (a : Nat) (b : Byte) :
    (byteWritten s a b).mem = { s.mem with dev := writeBytes s.mem.dev a [b] } := by
  have hm : (takeAll (dropStale s) a).mem = s.mem := ((obtain_work (dropStale s) _ _ _).mem h).1
  show ({ (takeAll (dropStale s) a).mem with dev := writeBytes (takeAll (dropStale s) a).mem.dev a [b] } : Mem) = _
  rw [hm]

theorem accessWork_byteWritten (s : State) (a : Nat) (b : Byte) : AccessWork s (byteWritten s a b) := by
  have hstale : AccessWork s (dropStale s) := ⟨rfl, rfl, rfl, rfl, rfl, rfl, rfl, rfl⟩
  have htake : AccessWork (dropStale s) (takeAll (dropStale s) a) := accessWork_obtain _ _ _ _
  exact (hstale.trans htake).trans ⟨rfl, rfl, rfl, rfl, rfl, rfl, rfl, rfl⟩

theorem onlyEvicts_byteWritten (s : State) (a : Nat) (b : Byte) : OnlyEvicts s (byteWritten s a b) :=
  onlyEvicts_takeAll (dropStale s) a

/-- An accepted write of one byte, to a device page whose home is open, is performed there (R314). -/
theorem performAccepted_byte {s s1 : State} {x : Accepted} {a : Nat} {b : Byte} (hk : x.x.kind = .write) (hn : x.x.len = 1)
    (hd : x.x.data = [b])
    (ht : translate s (.bench Config.benches) x.asid { write := true, store := true } (x.base + BitVec.ofNat 64 x.x.off) =
      .ok (.dev a) s1) (h : HomeOpen s1 a) :
    performAccepted s x = .next (endAccepted (byteWritten s1 a b) x .linkDone) := by
  have hgate : homeGate s1 (.inboundLinkAccess x.x) a .home = none := homeGate_open h _ _
  have hpart : inboundPart s x (x.base + BitVec.ofNat 64 x.x.off) (fun s p => inboundDo .write s p ([b].take 1)) =
      .ok (byteWritten s1 a b) [] := by
    have hw : (x.x.kind != LinkKind.read) = true := by rw [hk]; rfl
    unfold inboundPart
    simp only [hw, ht, if_true, hgate, h.sound, Bool.false_eq_true, if_false]
    rfl
  have hparts : inboundParts s x 1 (inboundDo .write) 1 (x.base + BitVec.ofNat 64 x.x.off) [b] = .ok (byteWritten s1 a b) [] := by
    unfold inboundParts
    rw [hpart]
    rfl
  unfold performAccepted
  simp only [hk, hn, hd]
  rw [show partBytes .write = 1 from rfl, show (1 + 1 - 1) / 1 = 1 from rfl, hparts]
  rfl

section access
variable {s : State} {x : LinkAccess} (hnew : ∀ y ∈ s.fw.inbound, y.x ≠ x)
include hnew

theorem not_accepted : (s.fw.inbound.any fun y => y.x == x) = false := by
  rw [List.any_eq_false]
  exact fun y hy h => hnew y hy (beq_iff_eq.mp h)

/-- A closed window refuses the access (R313). -/
theorem linkAccess_refused (hw : windowRefuses (getWindow s x.win) x = true) :
    exec (.inboundLinkAccess x) s = .next (emit s .linkRefused) := by
  show execInboundLinkAccess x s = _
  unfold execInboundLinkAccess
  simp only [not_accepted hnew, hw, Bool.not_false, Bool.and_self, if_true]

/-- An open window accepts the access; what comes next depends on the first access that the window has accepted (R314). -/
theorem linkAccess_accepted {a : Accepted} (hw : windowRefuses (getWindow s x.win) x = false)
    (hhead : windowHead (accepting s x) x.win = some a) : exec (.inboundLinkAccess x) s =
      if a.x == x && a.page.isNone && running s then performAccepted (accepting s x) a else .next (accepting s x) := by
  show execInboundLinkAccess x s = _
  unfold execInboundLinkAccess
  simp only [not_accepted hnew, hw, Bool.and_false, Bool.false_eq_true, if_false]
  split
  · next y e =>
    obtain rfl : y = a := Option.some.inj (Eq.trans (Eq.symm e) hhead)
    rfl
  · next e => exact nomatch Eq.trans (Eq.symm e) hhead

/-- Behind another access of its window an access waits (R314). -/
theorem linkAccess_waits (hw : windowRefuses (getWindow s x.win) x = false) (hbefore : ∃ y ∈ s.fw.inbound, y.x.win = x.win) :
    exec (.inboundLinkAccess x) s = .next (accepting s x) := by
  obtain ⟨y, hy, hwin⟩ := hbefore
  obtain ⟨z, hz⟩ := Option.isSome_iff_exists.mp
    (List.find?_isSome.mpr ⟨y, hy, beq_iff_eq.mpr hwin⟩ : (s.fw.inbound.find? fun a => a.x.win == x.win).isSome = true)
  have hhead : windowHead (accepting s x) x.win = some z := by
    show (s.fw.inbound ++ [acceptedAs s x]).find? _ = _
    rw [List.find?_append, hz]
    rfl
  have hother : (z.x == x) = false := beq_false_of_ne (hnew z (List.mem_of_find?_eq_some hz))
  rw [linkAccess_accepted hnew hw hhead, hother]
  rfl

/-- The first access of its window is performed at once (R314). -/
theorem linkAccess_performs (hw : windowRefuses (getWindow s x.win) x = false) (hfirst : ∀ y ∈ s.fw.inbound, y.x.win ≠ x.win)
    (hrun : running s = true) : exec (.inboundLinkAccess x) s = performAccepted (accepting s x) (acceptedAs s x) := by
  have hnone : (s.fw.inbound.find? fun a => a.x.win == x.win) = none :=
    List.find?_eq_none.mpr fun y hy h => hfirst y hy (beq_iff_eq.mp h)
  have hhead : windowHead (accepting s x) x.win = some (acceptedAs s x) := by
    show (s.fw.inbound ++ [acceptedAs s x]).find? _ = _
    rw [List.find?_append, hnone]
    exact List.find?_cons_of_pos (p := fun a : Accepted => a.x.win == x.win) (beq_self_eq_true x.win)
  have hgo : ((acceptedAs s x).x == x && (acceptedAs s x).page.isNone && running s) = true := by
    rw [hrun]
    simp [acceptedAs]
  exact (linkAccess_accepted hnew hw hhead).trans (if_pos hgo)

/-- The accesses that a window has accepted, once the last of them is over (R314). -/
theorem accepting_erase : (accepting s x).fw.inbound.erase (acceptedAs s x) = s.fw.inbound := by
  show (s.fw.inbound ++ [acceptedAs s x]).erase (acceptedAs s x) = _
  rw [List.erase_append_right _ fun h => hnew _ h rfl, List.erase_cons_head, List.append_nil]

/-- A write of one byte through an open window lands (R314). -/
theorem linkAccess_lands {s1 : State} {b : Byte} {a : Nat} (hw : windowRefuses (getWindow s x.win) x = false) (hk : x.kind = .write)
    (hn : x.len = 1) (hd : x.data = [b]) (hrun : running s = true) (hfirst : ∀ y ∈ s.fw.inbound, y.x.win ≠ x.win)
    (ht : translate (accepting s x) (.bench Config.benches) (acceptedAs s x).asid { write := true, store := true }
      ((acceptedAs s x).base + BitVec.ofNat 64 x.off) = .ok (.dev a) s1) (h : HomeOpen s1 a) :
    ∃ s' l, exec (.inboundLinkAccess x) s = .next s' ∧ s'.mem = { s1.mem with dev := writeBytes s1.mem.dev a [b] } ∧ evictions l ∧
      s'.fw.out = s.fw.out ++ l ++ [.linkDone] ∧ s'.fw.inbound = s.fw.inbound ∧ s'.threads = s.threads := by
  have hkeeps := (translate_keeps ht).eq
  have hfw : s1.fw = (accepting s x).fw := by rw [hkeeps]
  have hth : s1.threads = s.threads := by rw [hkeeps]; rfl
  have hwork := accessWork_byteWritten s1 a b
  obtain ⟨l, hl, hout⟩ := onlyEvicts_byteWritten s1 a b
  refine ⟨_, l, (linkAccess_performs hnew hw hfirst hrun).trans (performAccepted_byte hk hn hd ht h), byteWritten_mem h.deltas a b, hl,
    ?_, ?_, hwork.threads.trans hth⟩
  · show (byteWritten s1 a b).fw.out ++ [Out.linkDone] = _
    rw [hout, hfw]
    rfl
  · show (byteWritten s1 a b).fw.inbound.erase (acceptedAs s x) = _
    rw [hwork.around.fw, hfw]
    exact accepting_erase hnew

end access

/-! Accesses to peers that end with a FATAL record (R314, R354), and link commands whose ports are down (R371). -/

/-- The peer refuses the access (R314). -/
theorem linkRefusal_fatal {s : State} {t : Thread} {r : Req} {i : BitVec 2} (h : Recordable s t r i) (hst : r.st = .peer) :
    ∃ s', exec (.linkRefusal r.id) s = .next s' ∧ EndsFatal s' t r i stLinkRefused ∧ s'.mem = s.mem := by
  have he : exec (.linkRefusal r.id) s = .next (fatalAccess s r r.va stLinkRefused) := by
    show execLinkRefusal r.id s = _
    unfold execLinkRefusal
    simp only [h.listed, hst, beq_self_eq_true, if_true]
  exact ⟨_, he, fatalAccess_endsFatal h (by decide)⟩

/-- No port has been up for 2^24 cycles (R314). -/
theorem linkDown_fatal {s : State} {t : Thread} {r : Req} {i : BitVec 2} (h : Recordable s t r i) (hst : r.st = .peer)
    (hcmd : findCmd s r.id = none) (hports : s.fw.portsUp = []) (hsince : s.fw.portsDownSince + 2 ^ 24 ≤ s.run.now) :
    ∃ s', exec (.linkDownTimeout r.id) s = .next s' ∧ EndsFatal s' t r i stMemerr ∧ s'.mem = s.mem := by
  have he : exec (.linkDownTimeout r.id) s = .next (fatalAccess s r r.va stMemerr) := by
    have hdue : (r.st == .peer && s.fw.portsUp.isEmpty && decide (s.fw.portsDownSince + 2 ^ 24 ≤ s.run.now)) = true := by
      rw [hst, hports, decide_eq_true hsince]
      rfl
    show execLinkDownTimeout r.id s = _
    unfold execLinkDownTimeout
    rw [hcmd, h.listed]
    exact if_pos hdue
  exact ⟨_, he, fatalAccess_endsFatal h (by decide)⟩

/-- No port of a link command's set has been up for 2^24 cycles (R371). -/
theorem linkDown_command {s : State} {c : Cmd} (hc : findCmd s c.id = some c) (hlink : isLink c.kind = true) (hst : c.st = .started)
    (hok : c.status = 0) (hports : portUp s c = false) (hsince : c.downSince + 2 ^ 24 ≤ s.run.now) :
    exec (.linkDownTimeout c.id) s = .next (putCmd s { c with status := 3 }) := by
  have hdue : (isLink c.kind && c.st == .started && c.status == 0 && !portUp s c && decide (c.downSince + 2 ^ 24 ≤ s.run.now)) = true := by
    rw [hlink, hst, hok, hports, decide_eq_true hsince]
    rfl
  show execLinkDownTimeout c.id s = _
  unfold execLinkDownTimeout
  rw [hc]
  exact if_pos hdue

/-- A port that goes down leaves the sets of the link commands in progress (R371). -/
theorem linkPortDrop_spec (s : State) (port : Nat) :
    ∃ s', exec (.linkPortDrop port) s = .next s' ∧ s'.fw.portsUp = s.fw.portsUp.filter (· != port) ∧ s'.threads = s.threads ∧
      s'.mem = s.mem ∧ (∀ c ∈ s'.eng.cmds, isLink c.kind = true → c.st = .started → port ∉ c.ports) := by
  refine ⟨_, rfl, rfl, rfl, rfl, fun c hc hlink _ => ?_⟩
  obtain ⟨d, -, rfl⟩ := List.mem_map.mp hc
  dsimp only at hlink ⊢
  split
  · simp
  · next hkept =>
    rw [if_neg hkept] at hlink
    rw [hlink, Bool.true_and] at hkept
    simpa using hkept

/-- A port comes up (R371). -/
theorem linkPortUp_joins {s : State} {port : Nat} (h : port < 16) (hdown : port ∉ s.fw.portsUp) :
    exec (.linkPortUp port) s = .next { s with fw := { s.fw with portsUp := s.fw.portsUp ++ [port] } } := by
  have hc : ¬ (decide (16 ≤ port) || s.fw.portsUp.contains port) = true := by
    simp [hdown, h]
  exact if_neg hc

/-! Answers of peers (R291). -/

theorem accessWork_l2Keep (s : State) (b : Nat) (line : Phys) (d : BitVec 1024) : AccessWork s (l2Keep s b line d) :=
  have hput := accessWork_of_caches (cacheWork_l2Put s b line .s) (onlyTells_l2Put s b line .s)
  hput.trans ⟨rfl, rfl, rfl, rfl, rfl, rfl, rfl, rfl⟩

/-- What an answer of a peer does in the caches leaves threads, requests and all that `Around` names (R291, R294). -/
theorem accessWork_peerCopies (s : State) (r : Req) (p : Phys) (v : BitVec 1024) : AccessWork s (peerCopies s r p v) := by
  unfold peerCopies
  dsimp only
  split
  · exact ⟨rfl, rfl, rfl, rfl, rfl, rfl, rfl, rfl⟩
  · split
    · exact accessWork_l2Keep _ _ _ _
    · exact (accessWork_l2Keep s r.bench (lineOf p) v).trans ⟨rfl, rfl, rfl, rfl, rfl, rfl, rfl, rfl⟩

section answer
variable {s : State} {r : Req} {p : Phys} (v : BitVec 1024) (hl : findReq s r.id = some r) (hst : r.st = .peer) (hpa : r.pa = some p)
  (hri : r.ri = none)
include hl hst hpa

theorem peerAcknowledgement_completes : exec (.peerAcknowledgement r.id v) s =
    .next (complete (peerCopies s r p v) r (if isStore r.op then 0 else lineBytes v (lineOff p) r.n)) := by
  show execPeerAcknowledgement r.id v s = _
  unfold execPeerAcknowledgement
  simp only [hl, hst, hpa]

include hri

/-- A write-through is acknowledged: the store has been performed (R291). -/
theorem peerAcknowledgement_store (hop : r.op = .st) :
    ∃ s', exec (.peerAcknowledgement r.id v) s = .next s' ∧ findReq s' r.id = none ∧ s'.threads = s.threads ∧ s'.mem = s.mem := by
  have hw := accessWork_peerCopies s r p v
  have hend := complete_endsQuietly (if isStore r.op then 0 else lineBytes v (lineOff p) r.n) hw.threads hw.around hri (.inl hop)
  have hm : (peerCopies s r p v).mem = s.mem := by
    unfold peerCopies
    rw [hop]
    rfl
  exact ⟨_, peerAcknowledgement_completes v hl hst hpa, hend.gone, hend.threads, hend.mem.trans hm⟩

/-- The peer's line comes, and the load's bytes of it land (R291). -/
theorem peerAcknowledgement_load {t : Thread} (hop : r.op = .ld) (ht : Takes s t r) :
    ∃ s', exec (.peerAcknowledgement r.id v) s = .next s' ∧ Landed s s' t r (lineBytes v (lineOff p) r.n) := by
  have hend := complete_endsWith ht hri (accessWork_peerCopies s r p v).home (by rw [hop]; rfl) (lineBytes v (lineOff p) r.n)
  refine ⟨_, peerAcknowledgement_completes v hl hst hpa, ?_⟩
  have hval : (if isStore r.op then 0 else lineBytes v (lineOff p) r.n) = lineBytes v (lineOff p) r.n := by rw [hop]; rfl
  rw [hval]
  exact hend.landed

end answer

/-! The region directory (R300). -/

/-- Whether a line of the two regions that begin at `base` is held (R194, R300). -/
def regionsHeld (s : State) (base size : Nat) : Bool :=
  (holdsOf s).any fun h => match h.2.2.line with
    | .dev a => decide (base ≤ a) && decide (a < base + 2 * size)
    | _ => false

theorem regionsHeld_eq_false {s : State} {base size : Nat}
    (h : ∀ r ∈ holdsOf s, ∀ a, r.2.2.line = .dev a → a < base ∨ base + 2 * size ≤ a) : regionsHeld s base size = false := by
  unfold regionsHeld
  rw [List.any_eq_false]
  intro r hr
  split
  · next a ha =>
    have hout := h r hr a ha
    simp only [Bool.and_eq_true, decide_eq_true_eq]
    omega
  · exact Bool.false_ne_true

/-- Two equal neighbouring regions that are quiet, held by nobody and of kinds that join become one (R300). -/
theorem directoryRegionMerge_spec {s : State} {base size : Nat} {x y : DirEnt} {k : DirKind}
    (hx : (s.cache.dir.find? fun e => e.base == base && e.size == size) = some x)
    (hy : (s.cache.dir.find? fun e => e.base == base + size && e.size == size) = some y) (hk : mergeKind x.kind y.kind = some k)
    (hpos : 0 < size) (hmax : size ≤ 32768) (hal : base % (2 * size) = 0) (hxq : x.since + 2 ^ 20 ≤ s.run.now)
    (hyq : y.since + 2 ^ 20 ≤ s.run.now) (hfree : ∀ h ∈ holdsOf s, ∀ a, h.2.2.line = .dev a → a < base ∨ base + 2 * size ≤ a) :
    ∃ s', exec (.directoryRegionMerge base size) s = .next s' ∧ s'.cache.dir = (s.cache.dir.filter fun e => e != x && e != y) ++
      [{ base := base, size := 2 * size, kind := k, since := max x.since y.since }] ∧ s'.cache.l2 = s.cache.l2 ∧ s'.mem = s.mem := by
  have hgo : ¬ (size == 0 || base % (2 * size) != 0 || decide (32768 < size) || !decide (x.since + 2 ^ 20 ≤ s.run.now) ||
      !decide (y.since + 2 ^ 20 ≤ s.run.now) || regionsHeld s base size) = true := by
    rw [regionsHeld_eq_false hfree, decide_eq_true hxq, decide_eq_true hyq, hal]
    simp only [bne_self_eq_false, Bool.not_true, Bool.or_false, Bool.or_eq_true, beq_iff_eq, decide_eq_true_eq]
    omega
  refine ⟨{ s with cache := { s.cache with dir := (s.cache.dir.filter fun e => e != x && e != y) ++
    [{ base := base, size := 2 * size, kind := k, since := max x.since y.since }] } }, ?_, rfl, rfl, rfl⟩
  show execDirectoryRegionMerge base size s = _
  unfold execDirectoryRegionMerge
  simp only [hx, hy, hk]
  exact if_neg hgo

/-! What evictions leave of the caches' set-up: the context partition and the ways that are gated (R296, R316). -/

/-- The partition and the gated ways are as they were. -/
structure SameSetup (s s' : State) : Prop where
  part : s'.cache.part = s.cache.part
  gated : s'.cache.gated = s.cache.gated

theorem sameSetup_of_cache {s s' : State} (h : s'.cache = s.cache) : SameSetup s s' := ⟨by rw [h], by rw [h]⟩

theorem SameSetup.trans {a b c : State} (h : SameSetup a b) (g : SameSetup b c) : SameSetup a c :=
  ⟨g.part.trans h.part, g.gated.trans h.gated⟩

theorem sameSetup_foldl {α : Type} (f : State → α → State) (h : ∀ s x, SameSetup s (f s x)) (l : List α) (s : State) :
    SameSetup s (l.foldl f s) :=
  List.foldlRecOn (motive := SameSetup s) l f (sameSetup_of_cache rfl) fun s1 h1 x _ => h1.trans (h s1 x)

theorem sameSetup_tellEvict (s : State) (p : Phys) (x : L2State) : SameSetup s (tellEvict s p x) := by
  unfold tellEvict
  split
  · exact sameSetup_of_cache rfl
  · split <;> exact sameSetup_of_cache rfl

theorem sameSetup_llcDrop (s : State) (p : Phys) : SameSetup s (llcDrop s p) := by
  unfold llcDrop
  refine SameSetup.trans ?_ (sameSetup_tellEvict _ _ _)
  exact ⟨rfl, rfl⟩

theorem sameSetup_llcRoom (s : State) (p : Phys) : SameSetup s (llcRoom s p) := by
  unfold llcRoom
  dsimp only
  split
  · exact sameSetup_of_cache rfl
  · split
    · refine SameSetup.trans ?_ (sameSetup_llcDrop _ _)
      exact sameSetup_of_cache rfl
    · exact sameSetup_of_cache rfl

theorem sameSetup_llcPut (s : State) (a : Nat) (d : Bool) : SameSetup s (llcPut s a d) := by
  unfold llcPut
  dsimp only
  split
  · exact ⟨rfl, rfl⟩
  · exact (sameSetup_llcRoom s (.dev a)).trans ⟨rfl, rfl⟩

theorem sameSetup_mergeLine (s : State) (p : Phys) : SameSetup s (mergeLine s p) := by
  unfold mergeLine
  dsimp only
  split <;> exact ⟨rfl, rfl⟩

theorem sameSetup_l2Evict (s : State) (x : L2Line) : SameSetup s (l2Evict s x) := by
  have h : SameSetup s (l1Drop (l2Drop (if x.st == .d then mergeLine s x.line else s) x.bench x.line) (some x.bench) x.line) := by
    split
    · exact (sameSetup_mergeLine s x.line).trans ⟨rfl, rfl⟩
    · exact ⟨rfl, rfl⟩
  unfold l2Evict
  dsimp only
  split
  · exact h.trans (sameSetup_llcPut _ _ _)
  · split
    · exact h.trans ((sameSetup_llcRoom _ _).trans ⟨rfl, rfl⟩)
    · exact h
  · exact h

/-- A line leaves its slot by a translation and a write to memory, which are no work of the caches (R317, R342). -/
theorem leaveSlot_keeps (s : State) (k : Key) :
    (leaveSlot s k).cache = s.cache ∧ (leaveSlot s k).mem.tiles = s.mem.tiles := by
  unfold leaveSlot
  split
  · split
    · exact ⟨rfl, rfl⟩
    · split
      · next s1 h =>
        have hc : s1.cache = s.cache := by rw [(translate_keeps h).eq]
        have ht : s1.mem.tiles = s.mem.tiles := translate_tiles h
        exact ⟨hc, ht⟩
      · exact ⟨rfl, rfl⟩
  · exact ⟨rfl, rfl⟩

/-! The context partition (R296). -/

/-- What makes a slice fit its part of the partition keeps the caches and the bytes of tiles (R296, R321). -/
theorem shrinkSlice_keeps (i n : Nat) (s : State) :
    (shrinkSlice i n s).cache = s.cache ∧ (shrinkSlice i n s).mem.tiles = s.mem.tiles := by
  induction n generalizing s with
  | zero => exact ⟨rfl, rfl⟩
  | succ n ih =>
    unfold shrinkSlice
    split
    · exact ⟨rfl, rfl⟩
    · split
      · next v _ =>
        obtain ⟨hc, ht⟩ := ih (startMove s v.key .hbm v.bench)
        obtain ⟨hc1, ht1⟩ := leaveSlot_keeps s v.key
        exact ⟨hc.trans hc1, ht.trans ht1⟩
      · exact ⟨rfl, rfl⟩

/-- A slice whose lines fit keeps them (R296). -/
theorem shrinkSlice_fits {s : State} {i : Nat} (n : Nat) (h : partUsed s i ≤ llcCapacity s) : shrinkSlice i n s = s := by
  cases n with
  | zero => rfl
  | succ n => exact if_pos h

theorem sameSetup_fitLlc (s : State) : SameSetup s (fitLlc s) := by
  unfold fitLlc
  refine sameSetup_foldl _ (fun s p => ?_) _ s
  split
  · exact sameSetup_of_cache rfl
  · exact sameSetup_llcDrop _ _

theorem fitLlc_none {s : State} (h : s.cache.llc = []) (hl2 : ∀ x ∈ s.cache.l2, x.bench ≠ llcAgent) : fitLlc s = s := by
  have hnone : (s.cache.l2.filter fun x => x.bench == llcAgent) = [] :=
    List.filter_eq_nil_iff.mpr fun x hx he => hl2 x hx (beq_iff_eq.mp he)
  unfold fitLlc
  rw [h, hnone]
  rfl

/-- The state with the size of the partition set, in steps. -/
def withPart (s : State) (steps : Nat) : State := { s with cache := { s.cache with part := steps } }

/-- The four slices are made to fit one after another. -/
def shrinkSlices (s : State) : State := (List.range 4).foldl (fun s i => shrinkSlice i (partUsed s i) s) s

theorem exec_partitionResize {s : State} {steps : Nat} (h : steps ≤ 16) :
    exec (.llcContextPartitionResize steps) s = .next (fitLlc (shrinkSlices (withPart s steps))) :=
  if_neg (Nat.not_lt.mpr h)

theorem shrinkSlices_keeps (s : State) : (shrinkSlices s).cache = s.cache ∧ (shrinkSlices s).mem.tiles = s.mem.tiles :=
  List.foldlRecOn (motive := fun s1 : State => s1.cache = s.cache ∧ s1.mem.tiles = s.mem.tiles) _ _ ⟨rfl, rfl⟩
    fun s1 h1 i _ => ⟨(shrinkSlice_keeps i _ s1).1.trans h1.1, (shrinkSlice_keeps i _ s1).2.trans h1.2⟩

theorem shrinkSlices_fits {s : State} (h : ∀ i < 4, partUsed s i ≤ llcCapacity s) : shrinkSlices s = s :=
  List.foldlRecOn (motive := fun s1 : State => s1 = s) _ _ rfl fun s1 h1 i hi => by
    subst h1
    exact shrinkSlice_fits _ (h i (List.mem_range.mp hi))

/-- The partition takes its size, and tiles keep their bytes (R296). -/
theorem partitionResize_part {s : State} {steps : Nat} (h : steps ≤ 16) :
    ∃ s', exec (.llcContextPartitionResize steps) s = .next s' ∧ s'.cache.part = steps ∧ s'.mem.tiles = s.mem.tiles := by
  obtain ⟨hc, ht⟩ := shrinkSlices_keeps (withPart s steps)
  refine ⟨_, exec_partitionResize h, (sameSetup_fitLlc _).part.trans ?_, ?_⟩
  · rw [hc]
    rfl
  · rw [fitLlc_mem, ht]
    rfl

/-- Where all lines fit, nothing else changes (R296). -/
theorem partitionResize_fits {s : State} {steps : Nat} (h : steps ≤ 16) (hfit : ∀ i < 4, partUsed (withPart s steps) i ≤ steps * 131072)
    (hllc : s.cache.llc = []) (hl2 : ∀ x ∈ s.cache.l2, x.bench ≠ llcAgent) :
    exec (.llcContextPartitionResize steps) s = .next (withPart s steps) := by
  rw [exec_partitionResize h, shrinkSlices_fits hfit, fitLlc_none (s := withPart s steps) hllc hl2]

/-! Power-gated ways (R316). -/

/-- Giving up a line of a gated way is work of the caches (R316). -/
theorem cacheWork_gateLine (lvl : CacheLevel) (s : State) (p : Phys) : CacheWork s (gateLine lvl s p) := by
  cases lvl with
  | l1 b u => exact ⟨rfl, rfl, rfl, rfl, rfl, rfl, rfl, rfl, fun h => ⟨rfl, h⟩⟩
  | l2 b =>
    unfold gateLine
    dsimp only
    split
    · split
      · exact (cacheWork_l2Evict s _).trans (cacheWork_dirPut _ _)
      · exact cacheWork_l2Evict s _
    · exact .refl s
  | llc d => exact cacheWork_llcDrop s p

theorem sameSetup_gateLine (lvl : CacheLevel) (s : State) (p : Phys) : SameSetup s (gateLine lvl s p) := by
  cases lvl with
  | l1 b u => exact ⟨rfl, rfl⟩
  | l2 b =>
    unfold gateLine
    dsimp only
    split
    · split
      · exact (sameSetup_l2Evict s _).trans ⟨rfl, rfl⟩
      · exact sameSetup_l2Evict s _
    · exact sameSetup_of_cache rfl
  | llc d => exact sameSetup_llcDrop s p

/-- The state after the lines of a way have been given up; free picks have named them (R316). -/
def wayEmptied (s : State) (lvl : CacheLevel) : State :=
  (wayLines s lvl).foldl (gateLine lvl)
    { s with run := { s.run with fresh := s.run.fresh + (s.cache.l1.length + s.cache.l2.length + s.cache.llc.length) } }

theorem wayEmptied_keeps (s : State) (lvl : CacheLevel) :
    (wayEmptied s lvl).threads = s.threads ∧ (wayEmptied s lvl).cache.gated = s.cache.gated :=
  ⟨(cacheWork_foldl _ (cacheWork_gateLine lvl) _ _).threads, (sameSetup_foldl _ (sameSetup_gateLine lvl) _ _).gated⟩

theorem wayEmptied_none {s : State} {lvl : CacheLevel} (h : wayLines s lvl = []) :
    (wayEmptied s lvl).cache = s.cache ∧ (wayEmptied s lvl).mem = s.mem := by
  unfold wayEmptied
  rw [h]
  exact ⟨rfl, rfl⟩

/-- A way without a held line is gated, and gives up its lines (R316). -/
theorem exec_gateWay {s : State} {lvl : CacheLevel} {way : Nat} (hw : wayExists lvl way = true)
    (hopen : s.cache.gated.contains (lvl, way) = false) (hfree : ∀ p ∈ wayLines s lvl, lineHold s p = none) :
    exec (.cacheWayGate lvl way true) s = .next { wayEmptied s lvl with cache := { (wayEmptied s lvl).cache with
      gated := (wayEmptied s lvl).cache.gated ++ [(lvl, way)] } } := by
  have hnone : ((wayLines s lvl).any fun x => (lineHold s x).isSome) = false := by
    rw [List.any_eq_false]
    intro p hp
    rw [hfree p hp]
    exact Bool.false_ne_true
  show execCacheWayGate lvl way true s = _
  unfold execCacheWayGate
  simp only [hw, hopen, hnone, Bool.not_true, Bool.false_eq_true, if_false]
  rfl

theorem gateWay_spec {s : State} {lvl : CacheLevel} {way : Nat} (hw : wayExists lvl way = true)
    (hopen : s.cache.gated.contains (lvl, way) = false) (hfree : ∀ p ∈ wayLines s lvl, lineHold s p = none) :
    ∃ s', exec (.cacheWayGate lvl way true) s = .next s' ∧ s'.cache.gated = s.cache.gated ++ [(lvl, way)] ∧ s'.threads = s.threads ∧
      (wayLines s lvl = [] → s'.cache = { s.cache with gated := s.cache.gated ++ [(lvl, way)] } ∧ s'.mem = s.mem) := by
  obtain ⟨hth, hg⟩ := wayEmptied_keeps s lvl
  refine ⟨_, exec_gateWay hw hopen hfree, ?_, hth, fun hempty => ?_⟩
  · show (wayEmptied s lvl).cache.gated ++ _ = _
    rw [hg]
  · obtain ⟨hc, hm⟩ := wayEmptied_none hempty
    exact ⟨by rw [hc], hm⟩

/-- A way that is enabled again holds nothing (R316). -/
theorem exec_enableWay {s : State} {lvl : CacheLevel} {way : Nat} (hw : wayExists lvl way = true) :
    exec (.cacheWayGate lvl way false) s = .next { s with cache := { s.cache with gated := s.cache.gated.erase (lvl, way) } } := by
  show execCacheWayGate lvl way false s = _
  unfold execCacheWayGate
  simp only [hw, Bool.not_true, Bool.false_eq_true, if_false, Bool.not_false, if_true]

/-- Settles O46, one rule an event. -/
theorem linksAndCaches : Obligations.LinksAndCaches := by
  unfold Obligations.LinksAndCaches
  refine ⟨windowTableWrite_spec, fun s s1 x b a hnew => ⟨linkAccess_refused hnew, linkAccess_waits hnew, ?_⟩,
    fun s t r i h hst => ⟨linkRefusal_fatal h hst, linkDown_fatal h hst⟩,
    fun s c hc hlink hst hok hports hsince => linkDown_command hc hlink hst hok hports hsince,
    fun s port => ⟨linkPortDrop_spec s port, linkPortUp_joins⟩,
    fun s r p v hl hst hpa hri => ⟨peerAcknowledgement_store v hl hst hpa hri, ?_⟩,
    fun s base size x y k hx hy hk hpos hmax hal hxq hyq hfree => directoryRegionMerge_spec hx hy hk hpos hmax hal hxq hyq hfree,
    fun s steps h => ⟨partitionResize_part h, partitionResize_fits h⟩,
    fun s lvl way hw => ⟨gateWay_spec hw, exec_enableWay hw⟩⟩
  · intro hw hk hn hd hrun hfirst ht hold hturn hhost hroom hsound hdeltas
    exact linkAccess_lands hnew hw hk hn hd hrun hfirst ht ⟨hold, hturn, hhost, hroom, hsound, hdeltas⟩
  · intro t hop hf hc hp hz hn hr hq
    exact peerAcknowledgement_load v hl hst hpa hri hop ⟨hf, hc, hp, hz, hn, hr, hq⟩

end Sys2Proof.Machine
end

section
/-! Which step comes next (R48, R75, R325). -/

namespace Sys2Proof.Machine
open Sys2Proof.Forms Sys2Proof.Spec

/-- An issue in which an instruction is latched runs that instruction (R325). -/
theorem issueCycle_of_latched {s s1 : State} {b u : Nat} {i : Instr}
    (h : exec (.instructionFetch b u) (openIssue s b u) = .next s1) (hi : s1.run.ir = some i) :
    issueCycle b u s = exec i { s1 with run := { s1.run with ir := none } } := by
  unfold issueCycle
  rw [h]
  simp only [andThen, hi]

/-- A step makes the first move of the agenda (log 1). -/
theorem step_of_agenda {s : State} {m : Move} {l : List Move} (h : s.run.agenda = m :: l) :
    step s = runMove m { s with run := { s.run with agenda := l } } := by
  unfold step
  rw [h]

/-- A step with no move named makes the default one (log 1). -/
theorem step_of_noAgenda {s : State} (h : s.run.agenda = []) : step s = runMove (defaultMove s) s := by
  unfold step
  rw [h]

/-- With no line listed as ready no pull is due (R328). -/
theorem pullDue_none {s : State} (h : ∀ t ∈ s.threads, t.ready = none) : pullDue s = none := by
  have hnone : (s.threads.filter fun t => t.ready.isSome) = [] :=
    List.filter_eq_nil_iff.mpr fun t ht => by rw [h t ht]; exact Bool.false_ne_true
  unfold pullDue
  rw [hnone]
  rfl

/-- Where no wait ends, no trap can be entered, no line lands and none is listed, a cycle passes (log 1). -/
theorem quietMove_idle {s : State}
    (h : ∀ t ∈ s.threads, canReissue s t = false ∧ canEnter t = false ∧ isMoving t = false ∧ t.ready = none) :
    quietMove s = .idle 1 := by
  have hr : s.threads.find? (canReissue s) = none := List.find?_eq_none.mpr fun t ht => by simp [(h t ht).1]
  have he : s.threads.find? canEnter = none := List.find?_eq_none.mpr fun t ht => by simp [(h t ht).2.1]
  have hm : s.threads.find? isMoving = none := List.find?_eq_none.mpr fun t ht => by simp [(h t ht).2.2.1]
  have hp : pullDue s = none := pullDue_none fun t ht => (h t ht).2.2.2
  unfold quietMove
  rw [hr, he, hm, hp]
  rfl

/-- Where every ready line has had its turn and every request that may be performed was tried, the default move is the quiet one
(log 1, log 83). -/
theorem defaultMove_quiet {s : State} (hready : ∀ t ∈ s.threads, readyHere s t = true → heldServed s t = true)
    (htried : ∀ r ∈ s.flight.reqs, mayPerform s r = true → r.id ∈ s.run.tried) : defaultMove s = quietMove s := by
  have hissue : s.threads.find? (fun t => readyHere s t && !heldServed s t) = none :=
    List.find?_eq_none.mpr fun t ht h => by
      simp only [Bool.and_eq_true, Bool.not_eq_true'] at h
      exact Bool.false_ne_true (h.2.symm.trans (hready t ht h.1))
  have hheld : s.threads.find? (heldWaits s) = none :=
    List.find?_eq_none.mpr fun t ht h => by
      simp only [heldWaits, Bool.and_eq_true, Bool.not_eq_true'] at h
      exact Bool.false_ne_true (h.2.symm.trans (hready t ht h.1.2))
  have hreq : s.flight.reqs.find? (untried s) = none :=
    List.find?_eq_none.mpr fun r hr h => by
      simp only [untried, Bool.and_eq_true, Bool.not_eq_true', List.contains_eq_mem, decide_eq_false_iff_not] at h
      exact h.2 (htried r hr h.1)
  unfold defaultMove
  rw [hheld, hreq, hissue]

/-- Settles O28: the fetch latches what the bytes decode to, and the issue runs what is latched. -/
theorem stepRunsDecoded : Obligations.StepRunsDecoded := by
  intro s l
  refine ⟨fun b u t s1 iw i h hf hd => ?_, fun i h => step_of_agenda h, fun n h => step_of_agenda h, fun h hready htried hquiet => ?_⟩
  · have hfetch := (instructionFetch (openIssue { s with run := { s.run with agenda := l } } b u) b u).2.1 t s1 iw i hf hd
    rw [step_of_agenda h]
    exact issueCycle_of_latched hfetch rfl
  · rw [step_of_noAgenda h, defaultMove_quiet hready htried, quietMove_idle hquiet]
    rfl

end Sys2Proof.Machine
end

section
/-! The SPDM responder (R411). -/

namespace Sys2Proof.Machine
open Sys2Proof.Forms Sys2Proof.Spec

section Responder

/-- The row of a request: when it is answered, with which code, and what the connection then is (R411). -/
structure SpdmIs (i : Instr) (ok : Spdm → Bool) (code : Nat) (f : Spdm → Spdm) : Prop where
  row : ∀ s, exec i s = spdmRow s ok code f

variable {s : State} {i : Instr} {ok : Spdm → Bool} {code : Nat} {f : Spdm → Spdm}

/-- A request whose condition holds is answered, and the connection goes on (R411). -/
theorem SpdmIs.answers (hi : SpdmIs i ok code f) (hr : s.pkg.rails = true) (h : ok s.pkg.spdm = true) :
    ∃ s' bs, exec i s = .next s' ∧ s'.fw.out = s.fw.out ++ [.spdm code bs] ∧ s'.pkg = { s.pkg with spdm := f s.pkg.spdm } ∧
      s'.mem = s.mem ∧ s'.threads = s.threads := by
  rw [hi.row]
  unfold spdmRow
  rw [hr, h]
  exact ⟨_, _, rfl, rfl, rfl, rfl, rfl⟩

/-- Another request is answered with ERROR (R411). -/
theorem SpdmIs.refuses (hi : SpdmIs i ok code f) (hr : s.pkg.rails = true) (h : ok s.pkg.spdm = false) :
    exec i s = .next (emit s .spdmError) := by
  rw [hi.row]
  unfold spdmRow
  rw [hr, h]
  rfl

theorem spdm_getVersion : SpdmIs .getVersion (fun _ => true) 0x04 fun _ => { version := true } := ⟨fun _ => rfl⟩

theorem spdm_getCapabilities : SpdmIs .getCapabilities (·.version) 0x61 fun x => { x with caps := true } := ⟨fun _ => rfl⟩

theorem spdm_negotiateAlgorithms (p384 sha384 : Bool) : SpdmIs (.negotiateAlgorithms p384 sha384)
    (fun x => x.caps && p384 && sha384) 0x63 fun x => { x with algs := true } := ⟨fun _ => rfl⟩

theorem spdm_getDigests : SpdmIs .getDigests (·.algs) 0x01 id := ⟨fun _ => rfl⟩

theorem spdm_getCertificate (slot : Nat) : SpdmIs (.getCertificate slot) (fun x => x.algs && slot == 0) 0x02 id := ⟨fun _ => rfl⟩

theorem spdm_challenge (slot : Nat) : SpdmIs (.challenge slot) (fun x => x.algs && slot == 0) 0x03 id := ⟨fun _ => rfl⟩

theorem spdm_getMeasurements (idx : Nat) : SpdmIs (.getMeasurements idx)
    (fun x => x.algs && decide (1 ≤ idx) && decide (idx ≤ 4)) 0x60 id := ⟨fun _ => rfl⟩

theorem spdm_keyExchange : SpdmIs .keyExchange (·.algs) 0x64 fun x => { x with session := true, finished := false } :=
  ⟨fun _ => rfl⟩

theorem spdm_finish : SpdmIs .finish (·.session) 0x65 fun x => { x with finished := true } := ⟨fun _ => rfl⟩

theorem spdm_endSession : SpdmIs .endSession (fun x => x.session && x.finished) 0x6C
    fun x => { x with session := false, finished := false } := ⟨fun _ => rfl⟩

end Responder

/-- Settles O52: each request is one row of the responder, answered when its condition holds. -/
theorem spdmResponder : Obligations.SpdmResponder := by
  intro s hr
  refine ⟨spdm_getVersion.answers hr rfl, ?_, ?_, (spdm_negotiateAlgorithms false true).refuses hr (by simp), ?_,
    fun n hn => ⟨(spdm_getCertificate n).refuses hr (by simp [hn]), (spdm_challenge n).refuses hr (by simp [hn])⟩, ?_, ?_⟩
  · split
    · next h => exact spdm_getCapabilities.answers hr h
    · next h => exact spdm_getCapabilities.refuses hr (Bool.eq_false_iff.mpr h)
  · split
    · next h => exact (spdm_negotiateAlgorithms true true).answers hr (by simp [h])
    · next h => exact (spdm_negotiateAlgorithms true true).refuses hr (by simp [h])
  · split
    · next h =>
      exact ⟨spdm_getDigests.answers hr h, (spdm_getCertificate 0).answers hr (by simp [h]),
        (spdm_challenge 0).answers hr (by simp [h]),
        fun i h1 h4 => (spdm_getMeasurements i).answers hr (by simp [h, h1, h4]), spdm_keyExchange.answers hr h⟩
    · next h =>
      exact ⟨spdm_getDigests.refuses hr (Bool.eq_false_iff.mpr h), (spdm_getCertificate 0).refuses hr (by simp [h]),
        (spdm_challenge 0).refuses hr (by simp [h]), spdm_keyExchange.refuses hr (Bool.eq_false_iff.mpr h)⟩
  · split
    · next h => exact spdm_finish.answers hr h
    · next h => exact spdm_finish.refuses hr (Bool.eq_false_iff.mpr h)
  · split
    · next h => exact spdm_endSession.answers hr h
    · next h => exact spdm_endSession.refuses hr (Bool.eq_false_iff.mpr h)

end Sys2Proof.Machine
end

section
/-! What stopping engines, dropping launches and freezing a queue leave as it was (R217, R363, R364, R388, R389). -/

namespace Sys2Proof.Machine
open Sys2Proof.Forms Sys2Proof.Spec

/-! Engines that stop. -/

/-- Nothing but commands, matrix engines and the handles of tiles has changed. -/
def StopsOnly (s s' : State) : Prop := ∃ e l, s' = { s with eng := e, spaces := l }

theorem StopsOnly.refl (s : State) : StopsOnly s s := ⟨s.eng, s.spaces, rfl⟩

theorem StopsOnly.trans {a b c : State} (h : StopsOnly a b) (g : StopsOnly b c) : StopsOnly a c := by
  obtain ⟨e, l, rfl⟩ := h
  obtain ⟨e', l', rfl⟩ := g
  exact ⟨e', l', rfl⟩

theorem stopsOnly_foldl {α : Type} (f : State → α → State) (h : ∀ s x, StopsOnly s (f s x)) (l : List α) (s : State) :
    StopsOnly s (l.foldl f s) :=
  List.foldlRecOn (motive := StopsOnly s) l f (.refl s) fun s1 h1 x _ => h1.trans (h s1 x)

theorem OnlyMats.stopsOnly {s s' : State} (h : OnlyMats s s') : StopsOnly s s' := by
  obtain ⟨l, rfl⟩ := h
  exact ⟨_, s.spaces, rfl⟩

theorem stopsOnly_putCmd (s : State) (c : Cmd) : StopsOnly s (putCmd s c) := ⟨_, s.spaces, rfl⟩

theorem stopsOnly_stopCmd (s : State) (c : Cmd) : StopsOnly s (stopCmd s c) := by
  have habandon : StopsOnly s (abandon s c) := by
    unfold abandon
    split
    · exact ⟨s.eng, _, rfl⟩
    · exact .refl s
  unfold stopCmd
  split
  · exact .refl s
  · refine habandon.trans ((releaseMat_mats _ c).1.stopsOnly.trans ?_)
    unfold spoilBank
    split
    · exact (onlyMats_putMat _ _).stopsOnly
    · exact .refl _

theorem stopsOnly_markCancelled (s : State) (hit : Cmd → Bool) : StopsOnly s (markCancelled s hit) :=
  stopsOnly_foldl _ (fun s c => (stopsOnly_stopCmd s c).trans (stopsOnly_putCmd _ _)) _ s

theorem stopsOnly_gateEngine (s : State) (b g : Nat) : StopsOnly s (gateEngine s b g) :=
  (stopsOnly_foldl _ (fun s c => (stopsOnly_stopCmd s c).trans (stopsOnly_putCmd _ _)) _ s).trans (onlyMats_putMat _ _).stopsOnly

/-! The launches of a queue that stops. -/

/-- Nothing but address spaces, launches, the lines of threads and what is in flight has changed; queues are as they were. -/
structure QueuesKept (s s' : State) : Prop where
  qs : s'.queues.qs = s.queues.qs
  due : s'.queues.due = s.queues.due
  qslots : s'.queues.qslots = s.queues.qslots
  pkg : s'.pkg = s.pkg
  fw : s'.fw = s.fw
  mem : s'.mem = s.mem

theorem QueuesKept.refl (s : State) : QueuesKept s s := ⟨rfl, rfl, rfl, rfl, rfl, rfl⟩

theorem QueuesKept.trans {a b c : State} (h : QueuesKept a b) (g : QueuesKept b c) : QueuesKept a c :=
  ⟨g.qs.trans h.qs, g.due.trans h.due, g.qslots.trans h.qslots, g.pkg.trans h.pkg, g.fw.trans h.fw, g.mem.trans h.mem⟩

theorem queuesKept_foldl {α : Type} (f : State → α → State) (h : ∀ s x, QueuesKept s (f s x)) (l : List α) (s : State) :
    QueuesKept s (l.foldl f s) :=
  List.foldlRecOn (motive := QueuesKept s) l f (.refl s) fun s1 h1 x _ => h1.trans (h s1 x)

theorem StopsOnly.queuesKept {s s' : State} (h : StopsOnly s s') : QueuesKept s s' := by
  obtain ⟨e, l, rfl⟩ := h
  exact ⟨rfl, rfl, rfl, rfl, rfl, rfl⟩

theorem queuesKept_returnHeld (s : State) (l : LaunchSlot) : QueuesKept s (returnHeld s l) := ⟨rfl, rfl, rfl, rfl, rfl, rfl⟩

theorem queuesKept_cancelLaunches (s : State) (fn qid : Nat) : QueuesKept s (cancelLaunches s fn qid) :=
  (queuesKept_foldl _ queuesKept_returnHeld (launchesOf s fn qid) s).trans ⟨rfl, rfl, rfl, rfl, rfl, rfl⟩

/-- A queue without launches has none to cancel (R388). -/
theorem cancelLaunches_none {s : State} {fn qid : Nat} (h : launchesOf s fn qid = []) : cancelLaunches s fn qid = s := by
  have hother : ∀ l ∈ s.queues.launches, (l.fn == fn && l.qid == qid) = false := fun l hl => by
    have := List.filter_eq_nil_iff.mp h l hl
    simpa using this
  have hlaunches : (s.queues.launches.map fun l =>
      if l.fn == fn && l.qid == qid then { l with written := true, cancelled := l.cancelled || !l.filled } else l) = s.queues.launches :=
    (List.map_congr_left fun l hl => by rw [hother l hl]; rfl).trans (List.map_id _)
  have hthreads : (s.threads.map fun t => if ofLaunches [] t && !t.ctx.frz then { t with cancel := true } else t) = s.threads :=
    List.map_id _
  unfold cancelLaunches
  rw [h]
  dsimp only [List.foldl_nil]
  rw [hlaunches, hthreads]

/-- Giving up the reads and places of a queue's front ends changes what is in flight alone (R388). -/
theorem dropDeps_eq (s : State) (fn qid : Nat) : dropDeps s fn qid = { s with flight := (dropDeps s fn qid).flight } := by
  have h : ∀ (l : List Req) (s : State),
      l.foldl (fun s r => dropReq s r.id) s = { s with flight := (l.foldl (fun s r => dropReq s r.id) s).flight } := by
    intro l
    induction l with
    | nil => exact fun s => rfl
    | cons r l ih => exact fun s => ih (dropReq s r.id)
  unfold dropDeps leaveTurns
  dsimp only
  rw [h]

theorem queuesKept_dropDeps (s : State) (fn qid : Nat) : QueuesKept s (dropDeps s fn qid) := by
  rw [dropDeps_eq]
  exact ⟨rfl, rfl, rfl, rfl, rfl, rfl⟩

theorem stopPacket_names (q : Queue) : (stopPacket q).fn = q.fn ∧ (stopPacket q).qid = q.qid := by
  unfold stopPacket
  split
  · split <;> exact ⟨rfl, rfl⟩
  · exact ⟨rfl, rfl⟩

/-! A queue that freezes (R388). -/

theorem queueLive_iff (q : Queue) : queueLive q = true ↔ q.st = .idle ∨ q.st = .active := by simp [queueLive]

/-- A queue that can be kept is neither frozen nor being destroyed (R378). -/
theorem not_stopped_of_live {q : Queue} (h : queueLive q = true) : (q.st == .frozen || q.st == .destroying) = false := by
  rcases (queueLive_iff q).mp h with h | h <;> rw [h] <;> rfl

/-- A queue as it is frozen (R388). -/
def frozenAs (cancels : List (Word × Option Word)) (reason : BitVec 8) (va : Word) (q : Queue) : Queue :=
  { stopPacket q with st := .frozen, qerr := reason, qeva := va, pending := false, cancels := cancels }

/-- A queue that can be kept stops, and its launches and commands are cancelled (R388). -/
theorem freezeQueue_eq {s : State} {fn qid : Nat} {q : Queue} (hq : findQueue s fn qid = some q)
    (hst : (q.st == .frozen || q.st == .destroying) = false) (reason : BitVec 8) (va : Word) :
    freezeQueue s fn qid reason va = markCancelled (cancelLaunches
      (onQueue (dropDeps s fn qid) fn qid (frozenAs (toCancel s q) reason va)) fn qid) (freezesCmd (launchesOf s fn qid) fn qid) := by
  unfold freezeQueue
  rw [hq]
  exact if_neg fun h => Bool.false_ne_true (hst.symm.trans h)

/-- Cancelling launches and commands leaves queues as they are (R388). -/
theorem queuesKept_cancel (s : State) (fn qid : Nat) (hit : Cmd → Bool) :
    QueuesKept s (markCancelled (cancelLaunches s fn qid) hit) :=
  (queuesKept_cancelLaunches s fn qid).trans (stopsOnly_markCancelled _ hit).queuesKept

/-- Freezing a queue keeps the package and what firmware knows (R388). -/
theorem freezeQueue_keeps (s : State) (fn qid : Nat) (reason : BitVec 8) (va : Word) :
    (freezeQueue s fn qid reason va).pkg = s.pkg ∧ (freezeQueue s fn qid reason va).fw = s.fw := by
  cases hq : findQueue s fn qid with
  | none => unfold freezeQueue; rw [hq]; exact ⟨rfl, rfl⟩
  | some q =>
    cases hst : (q.st == .frozen || q.st == .destroying) with
    | true => unfold freezeQueue; rw [hq]; dsimp only; rw [if_pos hst]; exact ⟨rfl, rfl⟩
    | false =>
      have hdrop := queuesKept_dropDeps s fn qid
      have hcancel := queuesKept_cancel (onQueue (dropDeps s fn qid) fn qid (frozenAs (toCancel s q) reason va)) fn qid
        (freezesCmd (launchesOf s fn qid) fn qid)
      rw [freezeQueue_eq hq hst]
      exact ⟨hcancel.pkg.trans hdrop.pkg, hcancel.fw.trans hdrop.fw⟩

/-- A queue that can be kept freezes with a reason and an address (R388). -/
theorem freezeQueue_frozen {s : State} {q : Queue} (hq : findQueue s q.fn q.qid = some q) (hl : queueLive q = true)
    (reason : BitVec 8) (va : Word) : Frozen s (freezeQueue s q.fn q.qid reason va) q reason va ∧
      (freezeQueue s q.fn q.qid reason va).queues.due = s.queues.due := by
  have hdrop := queuesKept_dropDeps s q.fn q.qid
  have hcancel := queuesKept_cancel (onQueue (dropDeps s q.fn q.qid) q.fn q.qid (frozenAs (toCancel s q) reason va)) q.fn q.qid
    (freezesCmd (launchesOf s q.fn q.qid) q.fn q.qid)
  refine ⟨⟨⟨frozenAs (toCancel s q) reason va q, ?_, rfl, rfl, rfl⟩, freezeQueue_mem s q.fn q.qid reason va⟩, ?_⟩
  · rw [freezeQueue_eq hq (not_stopped_of_live hl), findQueue_of_qs hcancel.qs,
      findQueue_onQueue _ _ _ (frozenAs _ _ _) fun x => stopPacket_names x, findQueue_of_qs hdrop.qs, hq]
    rfl
  · rw [freezeQueue_eq hq (not_stopped_of_live hl)]
    exact hcancel.due.trans hdrop.due

end Sys2Proof.Machine
end

section
/-! Queues: creation, doorbells, slots, freezing and destruction (R376, R378 to R380, R388, R390). -/

namespace Sys2Proof.Machine
open Sys2Proof.Forms Sys2Proof.Spec

/-! Creation (R378). -/

/-- A queue as it is created (R378). -/
def createdQueue (fn qid : Nat) (x : QueueNew) : Queue :=
  { fn := fn, qid := qid, asid := x.asid, rbase := x.rbase &&& ~~~127, rsize := x.rsize, qprio := x.qprio, eprio := x.qprio
    tmo := x.tmo }

/-- The state with one more queue (R378). -/
def withQueue (s : State) (q : Queue) : State := { s with queues := { s.queues with qs := s.queues.qs ++ [q] } }

theorem findQueue_withQueue {s : State} {q : Queue} (h : findQueue s q.fn q.qid = none) :
    findQueue (withQueue s q) q.fn q.qid = some q := by
  unfold findQueue at h
  show (s.queues.qs ++ [q]).find? _ = _
  rw [List.find?_append, h]
  simp

/-- A queue that is created is idle, empty and waits for no slot (R378). -/
theorem queueCreate_idle {s : State} {fn qid : Nat} {x : QueueNew} (hfn : fn ≤ 16) (hqid : qid < 4096) (h4 : 4 ≤ x.rsize.toNat)
    (h20 : x.rsize.toNat ≤ 20) (hv : s.pkg.verifyFailed = false) (hr : running s = true) (hnew : findQueue s fn qid = none) :
    ∃ s' q, exec (.queueCreate fn qid x) s = .next s' ∧ findQueue s' fn qid = some q ∧ q.st = .idle ∧ q.ridx = 0 ∧ q.widx = 0 ∧
      q.asid = x.asid ∧ q.rbase = x.rbase &&& ~~~127 ∧ q.rsize = x.rsize ∧ q.qprio = x.qprio ∧ q.tmo = x.tmo ∧ q.slot = none ∧
      s'.mem = s.mem ∧ s'.threads = s.threads := by
  have he : exec (.queueCreate fn qid x) s = .next (withQueue s (createdQueue fn qid x)) := by
    show execQueueCreate fn qid x s = _
    unfold execQueueCreate
    simp only [hfn, hqid, h4, h20, hv, hr, hnew, decide_true, Bool.and_self, Bool.not_true, Option.isSome_none, Bool.or_self,
      Bool.false_eq_true, if_false]
    rfl
  exact ⟨_, createdQueue fn qid x, he, findQueue_withQueue hnew, rfl, rfl, rfl, rfl, rfl, rfl, rfl, rfl, rfl, rfl, rfl⟩

/-! Doorbells (R379). -/

/-- A write of 32 bits to the doorbell of a queue is one kick (R379). -/
theorem exec_doorbellKick (s : State) (fn qid : Nat) (v : BitVec 32) (h : qid < 4096) :
    exec (.doorbellKick fn (8 * qid) 4 (v.setWidth 128)) s = .next (kick s fn qid v) := by
  have hv : ((v.setWidth 128).setWidth 64).setWidth 32 = v := by simp
  show execDoorbellKick _ _ _ _ s = _
  unfold execDoorbellKick doorbellWrite
  have hoff : (8 * qid % 8 != 0 || decide (32768 ≤ 8 * qid)) = false := by simp; omega
  have hid : 8 * qid / 8 = qid := Nat.mul_div_cancel_left qid (by decide)
  simp only [hv, hoff, hid]
  rfl

/-- A queue with a new `WIDX` (R379). -/
def kicked (s : State) (v : BitVec 32) (x : Queue) : Queue :=
  let x1 := queueState { x with widx := v }
  if x.st == .idle && x1.st == .active then { x1 with doneAt := s.run.now } else x1

theorem kicked_eq (s : State) (x : Queue) (v : BitVec 32) : kicked s v x =
    { x with widx := v, st := (queueState { x with widx := v }).st, doneAt := (kicked s v x).doneAt } := by
  unfold kicked
  dsimp only
  rw [queueState_eq]
  split <;> rfl

theorem kicked_names (s : State) (x : Queue) (v : BitVec 32) : (kicked s v x).fn = x.fn ∧ (kicked s v x).qid = x.qid := by
  rw [kicked_eq]
  exact ⟨rfl, rfl⟩

theorem queueState_live {q : Queue} (h : queueLive q = true) : (queueState q).st =
    if q.ridx == q.widx && q.incomplete == 0 && q.pk.isNone then .idle else .active := by
  unfold queueState
  rcases (queueLive_iff q).mp h with h | h <;> rw [h]

/-- The queue that a kick finds (R379). -/
theorem findQueue_kicked {s : State} {q : Queue} (hq : findQueue s q.fn q.qid = some q) (v : BitVec 32) :
    findQueue (onQueue s q.fn q.qid (kicked s v)) q.fn q.qid = some (kicked s v q) := by
  rw [findQueue_onQueue _ _ _ _ fun x => kicked_names s x v, hq]
  rfl

/-- A kick sets `WIDX` of a queue in a slot; with work in its ring it is active (R378, R379). -/
theorem kick_active {s : State} {q : Queue} {v : BitVec 32} (hq : findQueue s q.fn q.qid = some q) (hl : queueLive q = true)
    (hfit : (v - q.ridx).toNat ≤ 2 ^ q.rsize.toNat) (hslot : q.slot.isSome = true) :
    ∃ x, findQueue (kick s q.fn q.qid v) q.fn q.qid = some x ∧ x.widx = v ∧ x.ridx = q.ridx ∧ (q.ridx ≠ v → x.st = .active) ∧
      (kick s q.fn q.qid v).threads = s.threads := by
  have hk : kick s q.fn q.qid v = onQueue s q.fn q.qid (kicked s v) := by
    unfold kick
    rw [hq]
    simp only [hl, Bool.not_true, Bool.false_eq_true, if_false, Nat.not_lt.mpr hfit, decide_false, hslot, if_true]
    rfl
  rw [hk]
  refine ⟨kicked s v q, findQueue_kicked hq v, ?_, ?_, fun hne => ?_, rfl⟩
  · rw [kicked_eq]
  · rw [kicked_eq]
  · have hlive : queueLive { q with widx := v } = true := hl
    rw [kicked_eq]
    dsimp only
    rw [queueState_live hlive]
    simp [hne]

/-- A kick that overruns the ring freezes the queue (R379, R388). -/
theorem kick_overrun {s : State} {q : Queue} {v : BitVec 32} (hq : findQueue s q.fn q.qid = some q) (hl : queueLive q = true)
    (hover : 2 ^ q.rsize.toNat < (v - q.ridx).toNat) : Frozen s (kick s q.fn q.qid v) q 0x05 0 := by
  obtain ⟨hfn, hqid⟩ := kicked_names s q v
  have hk : kick s q.fn q.qid v = freezeQueue (onQueue s q.fn q.qid (kicked s v)) (kicked s v q).fn (kicked s v q).qid 0x05 0 := by
    unfold kick
    rw [hq]
    simp only [hl, Bool.not_true, Bool.false_eq_true, if_false, hover, decide_true, if_true]
    rw [hfn, hqid]
    rfl
  have hlive : queueLive (kicked s v q) = true := by
    have hl' : queueLive { q with widx := v } = true := hl
    rw [kicked_eq, queueLive_iff]
    dsimp only
    rw [queueState_live hl']
    split
    · exact .inl rfl
    · exact .inr rfl
  have hfind : findQueue (onQueue s q.fn q.qid (kicked s v)) (kicked s v q).fn (kicked s v q).qid = some (kicked s v q) := by
    rw [hfn, hqid]
    exact findQueue_kicked hq v
  obtain ⟨⟨⟨x, hx, hst, herr, heva⟩, hmem⟩, -⟩ := freezeQueue_frozen hfind hlive 0x05 0
  rw [hk]
  rw [hfn, hqid] at hx hmem ⊢
  exact ⟨⟨x, hx, hst, herr, heva⟩, hmem⟩

/-! Slots (R376, R380). -/

/-- Saving a queue sets no limit of slots (R381). -/
theorem saveQueue_qslots (s : State) (q : Queue) : (saveQueue s q).queues.qslots = s.queues.qslots :=
  (queuesKept_foldl _ queuesKept_returnHeld _ _).qslots.trans (queuesKept_dropDeps s q.fn q.qid).qslots

theorem startSave_qslots (s : State) (q : Queue) : (startSave s q).queues.qslots = s.queues.qslots := by
  unfold startSave
  split
  · exact saveQueue_qslots s q
  · rfl

theorem evalStep_qslots {s s1 : State} {fn : Nat} (h : evalStep s fn = some s1) : s1.queues.qslots = s.queues.qslots := by
  unfold evalStep at h
  dsimp only at h
  split at h
  · cases h
  split at h
  · cases h; rfl
  split at h
  · cases h; exact saveQueue_qslots _ _
  split at h
  · cases h
  split at h
  · cases h
  split at h
  · cases h; exact saveQueue_qslots _ _
  · cases h; exact startSave_qslots _ _

theorem evalLoop_qslots (fn n : Nat) (s : State) : (evalLoop fn n s).queues.qslots = s.queues.qslots := by
  induction n generalizing s with
  | zero => rfl
  | succ n ih =>
    unfold evalLoop
    split
    · next h => rw [ih, evalStep_qslots h]
    · rfl

theorem foldl_save_qslots {α : Type} (f : State → α → State) (h : ∀ s x, (f s x).queues.qslots = s.queues.qslots) (l : List α)
    (s : State) : (l.foldl f s).queues.qslots = s.queues.qslots :=
  List.foldlRecOn (motive := fun s1 : State => s1.queues.qslots = s.queues.qslots) l f rfl fun s1 h1 x _ => (h s1 x).trans h1

/-- An evaluation of slots sets no limit of slots (R380). -/
theorem evaluate_qslots (s : State) (fn : Nat) : (evaluate s fn).queues.qslots = s.queues.qslots := by
  unfold evaluate
  dsimp only
  rw [evalLoop_qslots]
  exact foldl_save_qslots (fun s (m : Nat × Queue) => saveQueue s m.2) (fun s m => saveQueue_qslots s m.2) _ s

/-- The state in which the queues at and above a limit of slots are saved, or their saves have begun (R376). -/
def savedAbove (s : State) (fn v : Nat) : State :=
  ((mappedQueues s fn).filter fun m => decide (v ≤ m.1)).foldl (fun s m => startSave s m.2) s

/-- The limit of slots of a function is set (R376). -/
def withQslots (s : State) (fn v : Nat) : State :=
  { s with queues := { s.queues with qslots := upsert (fun x => x.1 == fn) (fn, v) s.queues.qslots } }

theorem savedAbove_qslots (s : State) (fn v : Nat) : (savedAbove s fn v).queues.qslots = s.queues.qslots :=
  foldl_save_qslots (fun s (m : Nat × Queue) => startSave s m.2) (fun s m => startSave_qslots s m.2) _ s

theorem savedAbove_mem (s : State) (fn v : Nat) : (savedAbove s fn v).mem = s.mem :=
  foldl_mem _ (fun s (m : Nat × Queue) => startSave_mem s m.2) _ s

theorem exec_qslotsWrite (s : State) {fn v : Nat} (hv : v ≤ 64) (hfn : fn ≤ 16) :
    exec (.qslotsWrite fn v) s = .next (evaluate (withQslots (savedAbove s fn v) fn v) fn) := by
  show execQslotsWrite fn v s = _
  unfold execQslotsWrite
  simp only [Nat.not_lt.mpr hv, Nat.not_lt.mpr hfn, decide_false, Bool.or_self, Bool.false_eq_true, if_false]
  rfl

/-- `QSLOTS` of one function is written (R376). -/
theorem qslotsWrite_spec {s : State} {fn v : Nat} (hv : v ≤ 64) (hfn : fn ≤ 16) :
    ∃ s', exec (.qslotsWrite fn v) s = .next s' ∧ qslotsOf s' fn = v ∧ (∀ f, f ≠ fn → qslotsOf s' f = qslotsOf s f) ∧ s'.mem = s.mem := by
  have hs : (evaluate (withQslots (savedAbove s fn v) fn v) fn).queues.qslots =
      upsert (fun x => x.1 == fn) (fn, v) s.queues.qslots := by
    rw [evaluate_qslots]
    show upsert _ _ (savedAbove s fn v).queues.qslots = _
    rw [savedAbove_qslots]
  refine ⟨_, exec_qslotsWrite s hv hfn, ?_, fun f hf => ?_, ?_⟩
  · unfold qslotsOf
    rw [hs, find?_upsert_same _ _ _ (by simp)]
    rfl
  · unfold qslotsOf
    rw [hs, find?_upsert_other]
    · intro y hy
      rw [eq_of_beq hy]
      simpa using hf.symm
    · simpa using hf.symm
  · rw [evaluate_mem]
    exact savedAbove_mem s fn v

/-- The only queue of a function's, which waits, takes the first slot (R380, log 64). -/
theorem evaluate_takes {s : State} {q : Queue} (hqs : s.queues.qs = [q]) (hw : isWaiting q = true) (hslots : 0 < qslotsOf s q.fn) :
    evaluate s q.fn = mapQueue s q 0 := by
  have hnone : q.slot = none := by
    simp only [isWaiting, Bool.and_eq_true, Option.isNone_iff_eq_none] at hw
    exact hw.1.2
  have hmapped : mappedQueues s q.fn = [] := by
    unfold mappedQueues
    rw [hqs]
    simp [hnone]
  have hfirst : firstWaiting s q.fn = some q := by
    unfold firstWaiting
    rw [hqs]
    simp [hw, leastBy]
  have hrange : (List.range (qslotsOf s q.fn)).find? (fun n => ([] : List (Nat × Queue)).all fun m => m.1 != n) = some 0 := by
    obtain ⟨n, hn⟩ := Nat.exists_eq_succ_of_ne_zero (Nat.pos_iff_ne_zero.mp hslots)
    rw [hn, List.range_succ_eq_map]
    rfl
  have hstep : evalStep s q.fn = some (mapQueue s q 0) := by
    unfold evalStep
    simp only [hmapped, hfirst, hrange]
  have hend : evalStep (mapQueue s q 0) q.fn = none := by
    have hwait : firstWaiting (mapQueue s q 0) q.fn = none := by
      unfold firstWaiting mapQueue onQueue takeSeq
      dsimp only
      rw [hqs]
      simp [modifyFirst, isWaiting, leastBy]
    unfold evalStep
    rw [hwait]
  have hloop : ∀ n, evalLoop q.fn (n + 2) s = mapQueue s q 0 := fun n => by
    unfold evalLoop
    rw [hstep]
    dsimp only
    unfold evalLoop
    rw [hend]
  unfold evaluate
  rw [hmapped]
  exact hloop 4094

/-- A waiting queue takes a free slot (R380, log 64). -/
theorem queueSlotEvaluate_takes {s : State} {q : Queue} (hqs : s.queues.qs = [q]) (hw : isWaiting q = true)
    (hslots : 0 < qslotsOf s q.fn) :
    ∃ s' x, exec (.queueSlotEvaluate q.fn) s = .next s' ∧ findQueue s' q.fn q.qid = some x ∧ x.slot = some 0 ∧ x.pending = false ∧
      x.st = q.st ∧ x.ridx = q.ridx ∧ s'.mem = s.mem := by
  have hq : findQueue s q.fn q.qid = some q := by
    unfold findQueue
    rw [hqs]
    simp
  have hmap : findQueue (mapQueue s q 0) q.fn q.qid = some { q with
      slot := some 0, mappedAt := (takeSeq s).1, eprio := BitVec.ofNat 4 (eprioNow s.run.now q), pending := false } := by
    unfold mapQueue
    rw [findQueue_onQueue (hg := by intro x; exact ⟨rfl, rfl⟩)]
    show (findQueue s q.fn q.qid).map _ = _
    rw [hq]
    rfl
  exact ⟨mapQueue s q 0, _, congrArg Host.Outcome.next (evaluate_takes hqs hw hslots), hmap, rfl, rfl, rfl, rfl, rfl⟩

/-! Freezing (R274, R388). -/

/-- `QUEUE_FREEZE` gives the reason that is found, and no freeze of the queue is due any more (R388). -/
theorem exec_queueFreeze {s : State} {q : Queue} (hq : findQueue s q.fn q.qid = some q) (hl : queueLive q = true) {reason : BitVec 8}
    {va : Word} (hr : freezeReason s q.fn q.qid = (reason, va)) :
    ∃ s', exec (.queueFreeze q.fn q.qid) s = .next s' ∧ Frozen s s' q reason va ∧
      s'.queues.due = s.queues.due.filter fun y => !(y.1 == q.fn && y.2.1 == q.qid) := by
  obtain ⟨hf, hdue⟩ := freezeQueue_frozen hq hl reason va
  refine ⟨{ freezeQueue s q.fn q.qid reason va with
    queues := { (freezeQueue s q.fn q.qid reason va).queues with
      due := (freezeQueue s q.fn q.qid reason va).queues.due.filter fun y => !(y.1 == q.fn && y.2.1 == q.qid) } }, ?_, hf, ?_⟩
  · show execQueueFreeze q.fn q.qid s = _
    unfold execQueueFreeze
    rw [hq]
    dsimp only
    rw [not_stopped_of_live hl, if_neg Bool.false_ne_true, hr]
  · dsimp only
    rw [hdue]

/-- A freeze that is due has its reason and address (R388). -/
theorem queueFreeze_due {s : State} {q : Queue} (hq : findQueue s q.fn q.qid = some q) (hl : queueLive q = true) {reason : BitVec 8}
    {va : Word} (hdue : s.queues.due = [(q.fn, q.qid, reason, va)]) :
    ∃ s', exec (.queueFreeze q.fn q.qid) s = .next s' ∧ Frozen s s' q reason va ∧ s'.queues.due = [] := by
  have hr : freezeReason s q.fn q.qid = (reason, va) := by
    unfold freezeReason
    rw [hdue]
    simp
  obtain ⟨s', he, hf, hd⟩ := exec_queueFreeze hq hl hr
  refine ⟨s', he, hf, ?_⟩
  rw [hd, hdue]
  simp

/-- Without a reason that is due and without a frozen thread, firmware asked for the freeze (R388). -/
theorem queueFreeze_asked {s : State} {q : Queue} (hq : findQueue s q.fn q.qid = some q) (hl : queueLive q = true)
    (hdue : s.queues.due = []) (hth : ∀ t ∈ s.threads, (t.ctx.frz && ofLaunches (launchesOf s q.fn q.qid) t) = false) :
    ∃ s', exec (.queueFreeze q.fn q.qid) s = .next s' ∧ Frozen s s' q 0x09 0 := by
  have hr : freezeReason s q.fn q.qid = (0x09, 0) := by
    have hany : (s.threads.any fun t => t.ctx.frz && ofLaunches (launchesOf s q.fn q.qid) t) = false :=
      List.any_eq_false.mpr fun t ht => by rw [hth t ht]; exact Bool.false_ne_true
    unfold freezeReason
    rw [hdue, hany]
    rfl
  obtain ⟨s', he, hf, -⟩ := exec_queueFreeze hq hl hr
  exact ⟨s', he, hf⟩

/-- The watchdog freezes an active queue that has completed nothing for its time (R388). -/
theorem queueHangTimeout_freezes {s : State} {q : Queue} (hq : findQueue s q.fn q.qid = some q) (hst : q.st = .active)
    (htmo : q.tmo ≠ 0) (hlate : q.doneAt + q.tmo.toNat * 2 ^ 20 ≤ s.run.now) :
    ∃ s', exec (.queueHangTimeout q.fn q.qid) s = .next s' ∧ Frozen s s' q 0x06 0 := by
  refine ⟨freezeQueue s q.fn q.qid 0x06 0, ?_, (freezeQueue_frozen hq ((queueLive_iff q).mpr (.inr hst)) 0x06 0).1⟩
  have hdue : (q.st == .active && q.tmo != 0 && decide (q.doneAt + q.tmo.toNat * 2 ^ 20 ≤ s.run.now)) = true := by
    simp only [hst, bne_iff_ne.mpr htmo, decide_eq_true hlate, beq_self_eq_true, Bool.and_self]
  show execQueueHangTimeout q.fn q.qid s = _
  unfold execQueueHangTimeout
  rw [hq]
  dsimp only
  rw [hdue, if_pos rfl]

/-! Destruction (R390). -/

/-- A queue whose destruction begins (R390). -/
def destroyingAs (q : Queue) : Queue :=
  { stopPacket q with st := .destroying, pending := false, cancels := q.cancels ++ destroyCancels q }

/-- Where nothing is saved that is to be cancelled, nothing changes (R389). -/
theorem cancelSaved_noHit (s : State) : cancelSaved s (fun _ _ => false) = s := by
  simp [cancelSaved]

/-- The destruction of a queue without launches, with no command anywhere, begins with the queue alone (R390). -/
theorem beginDestroy_alone {s : State} {q : Queue} (hla : launchesOf s q.fn q.qid = []) (hc : s.eng.cmds = []) :
    beginDestroy s q = onQueue (dropDeps s q.fn q.qid) q.fn q.qid destroyingAs := by
  have hla1 : launchesOf (onQueue (dropDeps s q.fn q.qid) q.fn q.qid destroyingAs) q.fn q.qid = [] := by
    rw [dropDeps_eq]
    exact hla
  have hc1 : (onQueue (dropDeps s q.fn q.qid) q.fn q.qid destroyingAs).eng.cmds = [] := by
    rw [dropDeps_eq]
    exact hc
  have hfrozen : ∀ s1, launchesOf s1 q.fn q.qid = [] → releaseFrozen s1 q.fn q.qid = s1 := fun s1 h => by
    simp [releaseFrozen, h, ofLaunches]
  unfold beginDestroy
  dsimp only
  rw [hla]
  change releaseFrozen (cancelSaved (markCancelled (cancelLaunches (onQueue (dropDeps s q.fn q.qid) q.fn q.qid destroyingAs)
    q.fn q.qid) _) fun _ _ => false) q.fn q.qid = _
  rw [cancelLaunches_none hla1, markCancelled_none fun c h => absurd h (by rw [hc1]; exact List.not_mem_nil), cancelSaved_noHit,
    hfrozen _ hla1]

theorem queueDestroy_begins {s : State} {q : Queue} (hq : findQueue s q.fn q.qid = some q) (hl : queueLive q = true)
    (hla : launchesOf s q.fn q.qid = []) (hc : s.eng.cmds = []) :
    ∃ s' x, exec (.queueDestroy q.fn q.qid) s = .next s' ∧ findQueue s' q.fn q.qid = some x ∧ x.st = .destroying ∧
      s'.threads = s.threads ∧ s'.mem = s.mem := by
  refine ⟨onQueue (dropDeps s q.fn q.qid) q.fn q.qid destroyingAs, destroyingAs q, ?_, ?_, rfl, ?_, dropDeps_mem s q.fn q.qid⟩
  · have hne : (q.st != .destroying) = true := by
      rcases (queueLive_iff q).mp hl with h | h <;> rw [h] <;> rfl
    show execQueueDestroy q.fn q.qid s = _
    unfold execQueueDestroy
    rw [hq]
    dsimp only
    rw [if_pos hne, beginDestroy_alone hla hc]
  · rw [findQueue_onQueue _ _ _ destroyingAs fun x => stopPacket_names x, findQueue_of_qs (queuesKept_dropDeps s q.fn q.qid).qs, hq]
    rfl
  · rw [dropDeps_eq]
    rfl

/-- A queue of which nothing is left is gone (R390). -/
theorem queueDestroy_ends {s : State} {q : Queue} (hq : findQueue s q.fn q.qid = some q) (hst : q.st = .destroying)
    (hd : destroyed s q = true) :
    ∃ s', exec (.queueDestroy q.fn q.qid) s = .next s' ∧ findQueue s' q.fn q.qid = none ∧ s'.threads = s.threads ∧ s'.mem = s.mem := by
  refine ⟨{ s with queues := { s.queues with
    qs := s.queues.qs.filter fun x => !(x.fn == q.fn && x.qid == q.qid)
    due := s.queues.due.filter fun y => !(y.1 == q.fn && y.2.1 == q.qid) } }, ?_, ?_, rfl, rfl⟩
  · show execQueueDestroy q.fn q.qid s = _
    unfold execQueueDestroy
    rw [hq]
    simp only [hst, hd, bne_self_eq_false, Bool.false_eq_true, if_false, if_true]
  · refine List.find?_eq_none.mpr fun x hx h => ?_
    have := (List.mem_filter.mp hx).2
    rw [h] at this
    exact Bool.false_ne_true this

/-- Settles O47, one rule an event. -/
theorem queueEvents : Obligations.QueueEvents := by
  refine ⟨fun s fn qid x => queueCreate_idle, fun s q v hq hqid hl => ⟨fun hfit hslot => ?_, fun hover => ?_⟩,
    fun s fn v => qslotsWrite_spec, fun s q => queueSlotEvaluate_takes,
    fun s q hq hl => ⟨fun r va => queueFreeze_due hq hl, queueFreeze_asked hq hl, queueHangTimeout_freezes hq, queueDestroy_begins hq hl⟩,
    fun s q => queueDestroy_ends⟩
  · obtain ⟨x, hx, hw, hr, ha, ht⟩ := kick_active hq hl hfit hslot
    exact ⟨_, x, exec_doorbellKick s q.fn q.qid v hqid, hx, hw, hr, ha, kick_mem s q.fn q.qid v, ht⟩
  · exact ⟨_, exec_doorbellKick s q.fn q.qid v hqid, kick_overrun hq hl hover⟩

end Sys2Proof.Machine
end

section
/-! Power modes, the clock, thermal limits, the fatal state, errors met by the scrub, link replays and management (R365, R374,
R404 to R410). -/

namespace Sys2Proof.Machine
open Sys2Proof.Forms Sys2Proof.Spec

/-! A line that is frozen while units of its set may halt (R33, R274, R398). -/

/-- A line keeps its trap line and `FRZ`, and firmware its notes. -/
structure StaysFrozen (k : Key) (s s' : State) : Prop where
  line : ∀ t, findThread s k = some t → ∃ x, findThread s' k = some x ∧ x.trap = t.trap ∧ x.ctx.frz = t.ctx.frz
  notes : s'.fw.notes = s.fw.notes

theorem staysFrozen_of_threads {k : Key} {s s' : State} (ht : s'.threads = s.threads) (hn : s'.fw.notes = s.fw.notes) :
    StaysFrozen k s s' :=
  ⟨fun t h => ⟨t, (findThread_of_threads _ _ ht k).trans h, rfl, rfl⟩, hn⟩

theorem StaysFrozen.trans {k : Key} {a b c : State} (h : StaysFrozen k a b) (g : StaysFrozen k b c) : StaysFrozen k a c := by
  refine ⟨fun t ht => ?_, g.notes.trans h.notes⟩
  obtain ⟨x, hx, htr, hf⟩ := h.line t ht
  obtain ⟨y, hy, htr', hf'⟩ := g.line x hx
  exact ⟨y, hy, htr'.trans htr, hf'.trans hf⟩

theorem staysFrozen_foldl {α : Type} {k : Key} (f : State → α → State) (h : ∀ s x, StaysFrozen k s (f s x)) (l : List α) (s : State) :
    StaysFrozen k s (l.foldl f s) :=
  List.foldlRecOn (motive := StaysFrozen k s) l f (staysFrozen_of_threads rfl rfl) fun s1 h1 x _ => h1.trans (h s1 x)

theorem staysFrozen_onThread (s : State) (j k : Key) (f : Thread → Thread) (hk : ∀ t, (f t).key = t.key)
    (ht : ∀ t, (f t).trap = t.trap) (hf : ∀ t, (f t).ctx.frz = t.ctx.frz) : StaysFrozen k s (onThread s j f) := by
  refine ⟨fun t h => ?_, rfl⟩
  by_cases hj : k = j
  · subst hj
    exact ⟨f t, by rw [findThread_onThread _ _ _ fun t e => (hk t).trans e, h]; rfl, ht t, hf t⟩
  · exact ⟨t, by rw [findThread_onThread_other _ _ _ _ hj fun t e => (hk t).trans e, h], rfl, rfl⟩

/-- A line that is written with the trap line and `FRZ` of the line that it replaces. -/
theorem staysFrozen_setThread {s : State} {j k : Key} {t x : Thread} (hf : findThread s j = some t) (hk : x.key = j)
    (ht : x.trap = t.trap) (hz : x.ctx.frz = t.ctx.frz) : StaysFrozen k s (setThread s x) := by
  subst hk
  refine ⟨fun y h => ?_, rfl⟩
  by_cases hj : k = x.key
  · subst hj
    cases h.symm.trans hf
    exact ⟨x, by rw [findThread_setThread, hf]; rfl, ht, hz⟩
  · exact ⟨y, by rw [findThread_setThread_other _ _ _ hj, h], rfl, rfl⟩

theorem staysFrozen_joinReady {s : State} {j k : Key} {t x : Thread} (hf : findThread s j = some t) (hk : x.key = j)
    (ht : x.trap = t.trap) (hz : x.ctx.frz = t.ctx.frz) : StaysFrozen k s (joinReady s x) := by
  have hseq : StaysFrozen k s (takeSeq s).2 := staysFrozen_of_threads rfl rfl
  have hf' : findThread (takeSeq s).2 j = some t := hf
  refine hseq.trans ?_
  unfold joinReady
  exact staysFrozen_setThread hf' hk ht hz

theorem staysFrozen_refresh (s : State) (j k : Key) : StaysFrozen k s (refresh s j) := by
  unfold refresh
  split
  · exact staysFrozen_of_threads rfl rfl
  · next t ht =>
    have hp : (pauseHolds s t).threads = s.threads ∧ (pauseHolds s t).fw = s.fw := by
      obtain ⟨f, he, -⟩ := pauseHolds_eq s t
      rw [he]
      exact ⟨rfl, rfl⟩
    have hpause : StaysFrozen k s (pauseHolds s t) := staysFrozen_of_threads hp.1 (congrArg Firmware.notes hp.2)
    have hfind : findThread (pauseHolds s t) j = some t := (findThread_of_threads _ _ hp.1 j).trans ht
    have hkey := findThread_key ht
    refine hpause.trans ?_
    dsimp only
    split
    · split
      · exact staysFrozen_setThread hfind hkey rfl rfl
      · exact staysFrozen_joinReady hfind hkey rfl rfl
    · exact staysFrozen_setThread hfind hkey rfl rfl

theorem staysFrozen_endHolds (s : State) (j k : Key) : StaysFrozen k s (endHolds s j) := by
  refine staysFrozen_foldl _ (fun s p => ?_) _ s
  unfold endHoldAt
  split
  · exact staysFrozen_of_threads rfl rfl
  · refine StaysFrozen.trans ?_ (staysFrozen_onThread _ _ _ _ (fun _ => rfl) (fun _ => rfl) fun _ => rfl)
    exact staysFrozen_of_threads (flushHold_threads s _ _ _) (congrArg Firmware.notes (flushHold_keeps s _ _ _).fw)

theorem staysFrozen_haltLine (s : State) (j k : Key) : StaysFrozen k s (haltLine s j) := by
  refine (staysFrozen_endHolds s j k).trans (StaysFrozen.trans ?_ (staysFrozen_refresh _ _ _))
  exact staysFrozen_onThread _ _ _ _ (fun _ => rfl) (fun _ => rfl) fun _ => rfl

theorem staysFrozen_haltIu (s : State) (b u : Nat) (k : Key) : StaysFrozen k s (haltIu s b u) := by
  obtain ⟨l, he⟩ := haltIu_eq s b u
  rw [he]
  exact (staysFrozen_foldl _ (fun s j => staysFrozen_haltLine s j k) l s).trans (staysFrozen_of_threads rfl rfl)

theorem staysFrozen_haltMember (s : State) (b : Nat) (y : Nat × Nat) (k : Key) : StaysFrozen k s (haltMember s b y) := by
  have hfresh : StaysFrozen k s { s with run := { s.run with fresh := s.run.fresh + 1 } } := staysFrozen_of_threads rfl rfl
  obtain ⟨n, -, he⟩ := haltMember_eq s b y
  rw [he]
  refine hfresh.trans ?_
  split
  · exact staysFrozen_haltIu _ _ _ _
  · exact staysFrozen_of_threads rfl rfl

theorem staysFrozen_triggerSet (s : State) (n : BitVec 6) (trig : BitVec 3) (b u : Nat) (j k : Key) :
    StaysFrozen k s (triggerSet s n trig b u (some j)) := by
  have hevent : ∀ s, StaysFrozen k s (debugEvent s 3 j) := fun s => by
    unfold debugEvent
    split <;> exact staysFrozen_of_threads rfl rfl
  unfold triggerSet
  dsimp only
  split
  · exact staysFrozen_of_threads rfl rfl
  · have hset : ∀ x, StaysFrozen k s (putSet s x) := fun x => staysFrozen_of_threads rfl rfl
    have hhalt : ∀ (l : List (Nat × Nat)) x, StaysFrozen k s (l.foldl (haltMember · b) (putSet s x)) := fun l x =>
      (hset x).trans (staysFrozen_foldl (haltMember · b) (fun s y => staysFrozen_haltMember s b y k) l _)
    exact (hhalt _ _).trans (hevent _)

theorem staysFrozen_triggerBy (s : State) (j : Key) (trig : BitVec 3) (enabled : SetCtl → Bool) (k : Key) :
    StaysFrozen k s (triggerBy s j trig enabled) := by
  have hself : StaysFrozen k s s := staysFrozen_of_threads rfl rfl
  unfold triggerBy
  split
  · exact hself
  split
  · exact hself
  split
  · split
    · exact staysFrozen_triggerSet _ _ _ _ _ _ _
    · exact hself
  · exact hself

/-- A line that freezes has `FRZ` set and its trap line as it was, and firmware is told (R33, R274). -/
theorem freeze_noted {s : State} {t : Thread} (hf : findThread s t.key = some t) (cause : BitVec 8) (detail : BitVec 24) (va : Word) :
    (∃ x, findThread (freeze s t.key cause detail va) t.key = some x ∧ x.ctx.frz = true ∧ x.trap = t.trap) ∧
      (freeze s t.key cause detail va).fw.notes =
        s.fw.notes ++ [{ cause := cause, detail := detail, va := va, key := t.key, lslot := t.ctx.lslot, bench := t.bench }] := by
  let s1 := onThread (endHolds s t.key) t.key fun t => { t with ctx := { t.ctx with frz := true } }
  let note : Note := { cause := cause, detail := detail, va := va, key := t.key, lslot := t.ctx.lslot, bench := t.bench }
  let s2 : State := { refresh s1 t.key with fw := { (refresh s1 t.key).fw with notes := (refresh s1 t.key).fw.notes ++ [note] } }
  have he : freeze s t.key cause detail va = triggerBy s2 t.key 3 (·.frzh) := by
    unfold freeze
    rw [hf]
  have hend := staysFrozen_endHolds s t.key t.key
  have href := staysFrozen_refresh s1 t.key t.key
  have htrig := staysFrozen_triggerBy s2 t.key 3 (·.frzh) t.key
  obtain ⟨w, hw, hwt, -⟩ := hend.line t hf
  have hs1 : findThread s1 t.key = some { w with ctx := { w.ctx with frz := true } } := by
    rw [findThread_onThread _ _ _ (by exact fun _ h => h), hw]
    rfl
  obtain ⟨y, hy, hyt, hyz⟩ := href.line _ hs1
  obtain ⟨x, hx, hxt, hxz⟩ := htrig.line y hy
  rw [he]
  refine ⟨⟨x, hx, hxz.trans hyz, hxt.trans (hyt.trans hwt)⟩, htrig.notes.trans ?_⟩
  show (refresh s1 t.key).fw.notes ++ [note] = _
  rw [href.notes]
  exact congrArg (· ++ [note]) hend.notes

/-! The fatal state (R408). -/

/-- Every matrix engine comes to rest (R408). -/
def enginesRest (s : State) : State := s.eng.mats.foldl (fun s m => gateEngine s m.bench m.group) s

/-- Every queue is frozen (R408). -/
def queuesFrozen (s : State) : State := s.queues.qs.foldl (fun s q => freezeQueue s q.fn q.qid 0x09 0) s

theorem goFatal_eq {s : State} (hr : running s = true) (cause : Nat) :
    goFatal cause s = emit (onPkg (queuesFrozen (enginesRest s)) fun p => { p with fatal := some cause }) .aer := by
  unfold goFatal
  rw [hr]
  rfl

theorem stopsOnly_enginesRest (s : State) : StopsOnly s (enginesRest s) :=
  stopsOnly_foldl (fun s (m : Mat) => gateEngine s m.bench m.group) (fun s _ => stopsOnly_gateEngine s _ _) _ s

theorem queuesFrozen_keeps (s : State) : (queuesFrozen s).pkg = s.pkg ∧ (queuesFrozen s).fw = s.fw :=
  List.foldlRecOn (motive := fun s1 : State => s1.pkg = s.pkg ∧ s1.fw = s.fw) _ _ ⟨rfl, rfl⟩ fun s1 h1 _ _ =>
    ⟨(freezeQueue_keeps s1 _ _ _ _).1.trans h1.1, (freezeQueue_keeps s1 _ _ _ _).2.trans h1.2⟩

/-- Without queues no thread is to be cancelled (R408). -/
theorem queuesFrozen_none {s : State} (h : s.queues.qs = []) : queuesFrozen s = s := by
  unfold queuesFrozen
  rw [h]
  rfl

/-- The fatal state stops the module, and the host is told (R408). -/
theorem moduleFatal_stops {s : State} (hr : running s = true) (cause : Nat) :
    ∃ s', exec (.moduleFatal cause) s = .next s' ∧ s'.pkg = { s.pkg with fatal := some cause } ∧ running s' = false ∧
      s'.fw.out = s.fw.out ++ [.aer] ∧ s'.mem = s.mem ∧ (s.queues.qs = [] → s'.threads = s.threads) := by
  obtain ⟨e, l, hrest⟩ := stopsOnly_enginesRest s
  obtain ⟨hp, hf⟩ := queuesFrozen_keeps (enginesRest s)
  have hpkg : (goFatal cause s).pkg = { s.pkg with fatal := some cause } := by
    rw [goFatal_eq hr]
    show { (queuesFrozen (enginesRest s)).pkg with fatal := some cause } = _
    rw [hp, hrest]
  refine ⟨goFatal cause s, rfl, hpkg, ?_, ?_, goFatal_mem cause s, fun hqs => ?_⟩
  · unfold running
    rw [hpkg]
    simp
  · rw [goFatal_eq hr]
    show (queuesFrozen (enginesRest s)).fw.out ++ _ = _
    rw [hf, hrest]
  · have hqs' : (enginesRest s).queues.qs = [] := by
      rw [hrest]
      exact hqs
    rw [goFatal_eq hr, queuesFrozen_none hqs']
    show (enginesRest s).threads = _
    rw [hrest]

/-! Errors in storage (R359, R365, R374, R407, log 95). -/

/-- A scrub takes the next error, unless what it meets is under a hold (R407, R412). -/
theorem exec_patrolScrub {s : State} {x : Damage} {rest : List Damage} (hr : running s = true) (hd : s.run.damages = x :: rest)
    (hw : scrubWaits s x = false) :
    exec .patrolScrub s = .next (takeDamage { s with run := { s.run with damages := rest } } x) := by
  show execPatrolScrub s = _
  unfold execPatrolScrub
  rw [hd]
  dsimp only
  rw [hr, hw]
  rfl

theorem scrubWaits_corrected {s : State} (h : ∀ x ∈ holdsOf s, isDev x.2.2.line = false) (n : Nat) :
    scrubWaits s (.corrected n) = false :=
  List.any_eq_false.mpr fun x hx => by rw [h x hx]; exact Bool.false_ne_true

/-- A scrub that meets corrected bits counts them (R407). -/
theorem patrolScrub_corrected {s : State} {n : Nat} {rest : List Damage} (hr : running s = true)
    (hh : ∀ h ∈ holdsOf s, isDev h.2.2.line = false) (hd : s.run.damages = .corrected n :: rest) :
    exec .patrolScrub s = .next { s with
      run := { s.run with damages := rest }, pkg := { s.pkg with corrected := s.pkg.corrected + n } } :=
  exec_patrolScrub hr hd (scrubWaits_corrected hh n)

/-- Without an error that is to come, corrected bits of a free number are counted (R407, log 95). -/
theorem patrolScrub_free {s : State} (hr : running s = true) (hh : ∀ h ∈ holdsOf s, isDev h.2.2.line = false)
    (hd : s.run.damages = []) :
    ∃ n, exec .patrolScrub s = .next { s with
      run := { s.run with fresh := s.run.fresh + 1 }, pkg := { s.pkg with corrected := s.pkg.corrected + n } } := by
  refine ⟨Config.freePick s.run.fresh, ?_⟩
  show execPatrolScrub s = _
  unfold execPatrolScrub
  rw [hd]
  dsimp only
  rw [hr, scrubWaits_corrected hh]
  rfl

/-- A line of memory with an uncorrectable error is poisoned (R359). -/
theorem patrolScrub_line {s : State} {a : Nat} {rest : List Damage} (hr : running s = true)
    (hd : s.run.damages = .line a :: rest) (hold : lineHold s (.dev (lineAddr a)) = none) (ha : a < Config.hbmBytes)
    (hp : lineAddr a ∉ s.mem.poison) :
    exec .patrolScrub s = .next { s with
      run := { s.run with damages := rest }, mem := { s.mem with poison := s.mem.poison ++ [lineAddr a] } } := by
  have hw : scrubWaits s (.line a) = false := by
    show (lineHold s (.dev (lineAddr a))).isSome = false
    rw [hold]
    rfl
  have hin : (decide (Config.hbmBytes ≤ a) || s.mem.poison.contains (lineAddr a)) = false := by simp [ha, hp]
  rw [exec_patrolScrub hr hd hw]
  unfold takeDamage
  dsimp only
  rw [hin]
  rfl

/-- The thread of a context line with an uncorrectable error freezes (R33, R365). -/
theorem patrolScrub_context {s : State} {t : Thread} {rest : List Damage} (hr : running s = true)
    (hd : s.run.damages = .context t.key :: rest) (hf : findThread s t.key = some t) (hz : t.ctx.frz = false) :
    ∃ s' x, exec .patrolScrub s = .next s' ∧ findThread s' t.key = some x ∧ x.ctx.frz = true ∧ x.trap = t.trap ∧
      s'.fw.notes = s.fw.notes ++ [{ cause := 0x21, detail := 0, va := 0, key := t.key, lslot := t.ctx.lslot, bench := t.bench }] := by
  have hf1 : findThread { s with run := { s.run with damages := rest } } t.key = some t := hf
  obtain ⟨⟨x, hx, hxz, hxt⟩, hn⟩ := freeze_noted hf1 0x21 0 0
  refine ⟨_, x, ?_, hx, hxz, hxt, hn⟩
  rw [exec_patrolScrub hr hd rfl]
  unfold takeDamage
  dsimp only
  rw [hf1]
  simp only [Option.map_some, Option.getD_some, hz, Bool.false_eq_true, if_false]

/-- A frame whose number is written as 31 is not resident (R36). -/
theorem not_resident_setFrame (h : Handle) {j : Nat} (hj : j < 8) : resident (setFrame h j 31) j = false := by
  have hbits : (setFrame h j 31).frames.extractLsb' (5 * j) 5 = 31 := by
    unfold setFrame
    refine BitVec.eq_of_getLsbD_eq fun i hi => ?_
    have h40 : 5 * j + i < 40 := by omega
    have hle : ¬ 5 * j + i < 5 * j := by omega
    have hsub : 5 * j + i - 5 * j = i := by omega
    have hones : (31 : BitVec 40).getLsbD i = true ∧ (31 : BitVec 5).getLsbD i = true := by
      interval_cases i <;> decide
    simp only [BitVec.getLsbD_extractLsb', BitVec.getLsbD_or, BitVec.getLsbD_and, BitVec.getLsbD_not, BitVec.getLsbD_shiftLeft,
      hi, h40, hle, hsub, decide_true, decide_false, Bool.true_and, Bool.not_false]
    rw [show BitVec.ofNat 40 31 = 31 from rfl, show (0x1F : BitVec 40) = 31 from rfl, hones.1, hones.2]
    simp
  unfold resident frameNo
  rw [hbits]
  rfl

/-- A frame of a tile that is lost (R365). -/
def lostFrame (h : Handle) (j : Nat) : Handle := { setFrame h j 31 with lost := h.lost ||| ((1 : BitVec 8) <<< j) }

/-- A frame with an uncorrectable error is lost (R365). -/
theorem patrolScrub_frame {s : State} {asid : BitVec 16} {x : Space} {i j : Nat} {rest : List Damage} (hr : running s = true)
    (hd : s.run.damages = .frame asid i j :: rest) (hx : findSpace s asid = some x) (hv : (getHandle x i).v = true)
    (hn : j < (getHandle x i).nfr.toNat) (hj : j < 8) :
    ∃ s' y, exec .patrolScrub s = .next s' ∧ findSpace s' asid = some y ∧ (getHandle y i).lost.getLsbD j = true ∧
      resident (getHandle y i) j = false ∧ s'.mem = s.mem ∧ s'.threads = s.threads := by
  let s1 : State := { s with run := { s.run with damages := rest } }
  have hx1 : findSpace s1 asid = some x := hx
  obtain ⟨hfind, -, hget⟩ := onHandle_spec hx1 i
    (fun h => if h.v && decide (j < h.nfr.toNat) then lostFrame h j else h) (by intro h; split <;> rfl)
  have hlost : getHandle { x with handles := (putHandle x (if (getHandle x i).v && decide (j < (getHandle x i).nfr.toNat)
      then lostFrame (getHandle x i) j else getHandle x i)).handles } i = lostFrame (getHandle x i) j := by
    rw [hget, if_pos rfl]
    simp [hv, hn]
  refine ⟨_, _, exec_patrolScrub hr hd rfl, hfind, ?_, ?_, rfl, rfl⟩
  · rw [hlost]
    show (_ ||| _ : BitVec 8).getLsbD j = true
    simp [hj]
  · rw [hlost]
    exact not_resident_setFrame (getHandle x i) hj

/-! An uncorrectable error in a weight bank (R365, R374). -/

theorem stopsOnly_weightError (s : State) (b g : Nat) (bank : Bool) : StopsOnly s (weightError s b g bank) :=
  (stopsOnly_foldl _ (fun s _ => stopsOnly_putCmd s _) _ s).trans (onlyMats_putMat _ _).stopsOnly

/-- The bank has the empty tag (R365). -/
theorem weightError_tag (s : State) (b g : Nat) (bank : Bool) : (getBank (getMat (weightError s b g bank) b g) bank).tag = none := by
  unfold weightError
  dsimp only
  generalize List.foldl _ s _ = s1
  obtain ⟨hb, hg⟩ := getMat_names s1 b g
  cases bank with
  | false =>
    rw [getMat_putMat_named _ (by exact hb) (by exact hg)]
    rfl
  | true =>
    rw [getMat_putMat_named _ (by exact hb) (by exact hg)]
    rfl

/-- A command that ends with MEMERR stands as that, however often it is put (R374). -/
theorem findCmd_foldl_memerr {c d : Cmd} (l : List Cmd) (hl : ∀ x ∈ l, x = c) (hne : l ≠ []) {s : State}
    (hf : findCmd s c.id = some d) :
    findCmd (l.foldl (fun s c => putCmd s { c with status := 3 }) s) c.id = some { c with status := 3 } := by
  induction l generalizing s d with
  | nil => exact absurd rfl hne
  | cons x l ih =>
    obtain rfl := hl x List.mem_cons_self
    have hput : findCmd (putCmd s { x with status := 3 }) x.id = some { x with status := 3 } :=
      findCmd_putCmd (c := { x with status := 3 }) hf
    cases l with
    | nil => exact hput
    | cons y l => exact ih (fun z hz => hl z (List.mem_cons_of_mem _ hz)) (List.cons_ne_nil _ _) hput

/-- The command that reads the bank ends with MEMERR (R374). -/
theorem weightError_cmd {s : State} {b g : Nat} {bank : Bool} {c : Cmd} (hf : findCmd s c.id = some c)
    (hu : ∀ d ∈ s.eng.cmds, d.id = c.id → d = c) (hc : readsBank s b g bank c = true) :
    findCmd (weightError s b g bank) c.id = some { c with status := 3 } := by
  have hid : ∀ d, readsBank s b g bank d = true → (getMat s b g).compute = some d.id := fun d hd => by
    simp only [readsBank, Bool.and_eq_true, beq_iff_eq] at hd
    exact hd.1.1.1.1
  have hmem : c ∈ s.eng.cmds.filter (readsBank s b g bank) := List.mem_filter.mpr ⟨List.mem_of_find?_eq_some hf, hc⟩
  have hall : ∀ d ∈ s.eng.cmds.filter (readsBank s b g bank), d = c := fun d hd => by
    obtain ⟨hd1, hd2⟩ := List.mem_filter.mp hd
    exact hu d hd1 (Option.some.inj ((hid d hd2).symm.trans (hid c hc)))
  exact findCmd_foldl_memerr _ hall (List.ne_nil_of_mem hmem) hf

/-- An uncorrectable error in a weight bank empties it, and ends the command that reads it (R365, R374). -/
theorem patrolScrub_weights {s : State} {b g : Nat} {bank : Bool} {rest : List Damage} (hr : running s = true)
    (hd : s.run.damages = .weights b g bank :: rest) :
    ∃ s', exec .patrolScrub s = .next s' ∧ (getBank (getMat s' b g) bank).tag = none ∧ s'.mem = s.mem ∧
      s'.threads = s.threads ∧ ∀ c, findCmd s c.id = some c → (∀ d ∈ s.eng.cmds, d.id = c.id → d = c) → readsBank s b g bank c = true →
        findCmd s' c.id = some { c with status := 3 } := by
  refine ⟨_, exec_patrolScrub hr hd rfl, weightError_tag _ b g bank, ?_, ?_,
    fun c hf hu hc => weightError_cmd (s := { s with run := { s.run with damages := rest } }) hf hu hc⟩
  · exact weightError_mem _ b g bank
  · obtain ⟨e, l, h⟩ := stopsOnly_weightError { s with run := { s.run with damages := rest } } b g bank
    show (weightError _ b g bank).threads = _
    rw [h]

/-! Link replays (R407). -/

/-- The state after a replay on a socket's link: what is counted, and the failures in a row (R407). -/
def replayed (s : State) (socket corrected fails : Nat) : State :=
  { s with
    run := { s.run with fresh := s.run.fresh + 1 }
    pkg := { s.pkg with corrected := corrected, flitFails := upsert (fun x => x.1 == socket) (socket, fails) s.pkg.flitFails } }

theorem flitCount_replayed (s : State) (socket corrected fails : Nat) : flitCount (replayed s socket corrected fails) socket = fails := by
  unfold flitCount replayed
  dsimp only
  rw [find?_upsert_same _ _ _ (by simp)]
  rfl

/-- A replay arrives and is counted, or fails and adds to the failures (R407). -/
theorem linkFlitReplay_counts {s : State} {socket : Nat} (hr : running s = true) (hu : socketUsed socket = true)
    (hn : flitCount s socket + 1 < 16) :
    ∃ s', exec (.linkFlitReplay socket) s = .next s' ∧ s'.mem = s.mem ∧ s'.threads = s.threads ∧
      ((s'.pkg.corrected = s.pkg.corrected + 1 ∧ flitCount s' socket = 0) ∨
        (s'.pkg.corrected = s.pkg.corrected ∧ flitCount s' socket = flitCount s socket + 1)) := by
  have h16 : (flitCount s socket + 1 != 16) = true ∧ (flitCount s socket + 1 == 16) = false := by simp; omega
  cases hgood : Config.freePick s.run.fresh % 2 == 0 with
  | true =>
    refine ⟨replayed s socket (s.pkg.corrected + 1) 0, ?_, rfl, rfl, .inl ⟨rfl, flitCount_replayed _ _ _ _⟩⟩
    show execLinkFlitReplay socket s = _
    unfold execLinkFlitReplay
    rw [hu, hr]
    dsimp only
    rw [hgood]
    rfl
  | false =>
    refine ⟨replayed s socket s.pkg.corrected (flitCount s socket + 1), ?_, rfl, rfl, .inr ⟨rfl, flitCount_replayed _ _ _ _⟩⟩
    show execLinkFlitReplay socket s = _
    unfold execLinkFlitReplay
    rw [hu, hr]
    dsimp only
    rw [hgood]
    simp only [Bool.false_eq_true, if_false, h16.1, h16.2, if_true]
    rfl

/-! Power, the clock and management (R404 to R406, R409, R410). -/

/-- A thermal trip turns the rails off, and the host sees the link go down (R406). -/
theorem thermalTrip_off {s : State} (h : s.pkg.rails = true) :
    ∃ s', exec .thermalTrip s = .next s' ∧ s'.pkg = { s.pkg with rails := false } ∧ running s' = false ∧
      s'.fw.out = s.fw.out ++ [.surpriseDown] ∧ s'.mem = s.mem ∧ s'.threads = s.threads := by
  refine ⟨_, congrArg Host.Outcome.next (if_pos h), rfl, ?_, rfl, rfl, rfl⟩
  simp [running, emit, onPkg]

/-- Reports need power (R409, R410). -/
theorem management_answers {s : State} (h : s.pkg.rails = true) :
    exec .configurationRequest s = .next (emit s (if s.pkg.stage = 7 then .configDone else .configRetry)) ∧
      exec (.mctpManagementMessage .mode) s = .next (emit s (.mgmt 2 [modeCode s.pkg.mode])) ∧
      exec (.mctpManagementMessage .clock) s = .next (emit s (.mgmt 3 [s.pkg.clockMHz])) := by
  have hoff : (!s.pkg.rails) ≠ true := by simp [h]
  have hstage : (if s.pkg.stage == 7 then Out.configDone else .configRetry) = if s.pkg.stage = 7 then .configDone else .configRetry := by
    simp only [beq_iff_eq]
  exact ⟨(if_neg hoff).trans (by rw [hstage]), if_neg hoff, if_neg hoff⟩

/-- Settles O50, one rule an event. -/
theorem powerEvents : Obligations.PowerEvents := by
  intro s
  refine ⟨fun m hr => congrArg Host.Outcome.next (if_pos hr), fun hr i hi => ?_, fun hr => congrArg Host.Outcome.next (if_pos hr),
    thermalTrip_off, fun cause hr => moduleFatal_stops hr cause, patrolScrub_free, fun n rest => patrolScrub_corrected,
    fun a rest => patrolScrub_line, fun t rest => patrolScrub_context, fun asid x i j rest => patrolScrub_frame,
    fun b g bank rest => patrolScrub_weights, fun socket => linkFlitReplay_counts, management_answers, fun hv => ?_⟩
  · simp only [List.mem_cons, List.not_mem_nil, or_false] at hi
    rcases hi with rfl | rfl
    · exact congrArg Host.Outcome.next (if_pos hr)
    · exact congrArg Host.Outcome.next (if_pos hr)
  · have hok : (s.pkg.verifyFailed && true) = true := by rw [hv]; rfl
    exact congrArg Host.Outcome.next (if_pos hok)

end Sys2Proof.Machine
end

section
/-! Packets at the front of a queue: dependences, `BARRIER`, `WAIT`, `SIGNAL`, `COPY` (R382 to R387). -/

namespace Sys2Proof.Machine
open Sys2Proof.Forms Sys2Proof.Spec

/-! Queues beside the one that changes, and packets that complete (R377, R383). -/

theorem findQueue_onQueue_other (s : State) {fn qid f i : Nat} (g : Queue → Queue) (hg : ∀ q, (g q).fn = q.fn ∧ (g q).qid = q.qid)
    (h : ¬ (f = fn ∧ i = qid)) : findQueue (onQueue s fn qid g) f i = findQueue s f i := by
  have hne : ∀ x : Queue, (x.fn == fn && x.qid == qid) = true → (x.fn == f && x.qid == i) = false := fun x hx => by
    simp only [Bool.and_eq_true, beq_iff_eq] at hx
    simp only [Bool.and_eq_false_iff, beq_eq_false_iff_ne]
    rw [hx.1, hx.2]
    by_cases hf : f = fn
    · exact .inr fun e => h ⟨hf, e.symm⟩
    · exact .inl fun e => hf e.symm
  exact find?_modifyFirst_other (fun q : Queue => q.fn == fn && q.qid == qid) (fun q : Queue => q.fn == f && q.qid == i) g s.queues.qs
    hne fun x hx => by rw [(hg x).1, (hg x).2]; exact hne x hx

/-- A front end's packet as it is after a step. -/
theorem findQueue_setPk {s : State} {q x : Queue} (p : Option Packet) (h : findQueue s q.fn q.qid = some x) :
    findQueue (setPk s q p) q.fn q.qid = some (queueState { x with pk := p }) := by
  unfold setPk
  rw [findQueue_onQueue (hg := by intro y; exact queueState_names _), h]
  rfl

/-- A queue whose packet at `RIDX` has completed (R377, R383). -/
def packetPassed (now : Nat) (q : Queue) : Queue := queueState { passPacket q with donepk := q.donepk + 1, doneAt := now }

theorem packetPassed_names (now : Nat) (q : Queue) : (packetPassed now q).fn = q.fn ∧ (packetPassed now q).qid = q.qid :=
  queueState_names _

theorem findQueue_donePacket {s : State} {q : Queue} (h : findQueue s q.fn q.qid = some q) :
    findQueue (donePacket s q) q.fn q.qid = some (packetPassed s.run.now q) := by
  show findQueue (onQueue (leaveTurns s _) q.fn q.qid (packetPassed s.run.now)) q.fn q.qid = _
  rw [findQueue_onQueue (hg := packetPassed_names s.run.now)]
  show (findQueue s q.fn q.qid).map _ = _
  rw [h]
  rfl

/-- The completion of a packet changes its queue and its front end's places alone (R377, R383). -/
theorem donePacket_passed {s : State} {q : Queue} (h : findQueue s q.fn q.qid = some q) : Passed s (donePacket s q) q where
  queue := ⟨_, findQueue_donePacket h, by unfold packetPassed; rw [queueState_eq]; exact ⟨rfl, rfl, rfl, rfl, rfl, rfl⟩⟩
  others := fun f i hne => (findQueue_onQueue_other _ (packetPassed s.run.now) (packetPassed_names s.run.now) hne).trans rfl
  mem := rfl
  threads := rfl
  reqs := rfl
  waiters := rfl
  eng := rfl

theorem passes_of_passed {s s' : State} {q : Queue} (h : Passed s s' q) : passes s' q := by
  obtain ⟨x, hx, hr, hd, hp, -⟩ := h.queue
  exact ⟨x, hx, hr, hd, hp⟩

/-- A packet without a completion token completes at once (R383). -/
theorem finishPacket_noToken {s : State} {q : Queue} {p : Packet} (h : pkCtok p = 0) (stat : BitVec 16) :
    finishPacket s q p stat = .next (donePacket s q) := by
  unfold finishPacket feFill
  rw [h]
  rfl

/-- The row of a packet at work runs its work (R383). -/
theorem packetRow_reading {s : State} {q : Queue} {p : Packet} {t : PkTy} (h : AtFront s q p t) (hst : p.st = .reading)
    (go : State → Queue → Packet → Host.Outcome State Fault Refusal) : packetRow s q.fn q.qid t go = go s q p := by
  unfold packetRow
  rw [h.queue]
  dsimp only
  rw [h.pk]
  dsimp only
  rw [h.fault, running_feRuns h.runs, h.type, hst]
  simp only [h.runs, bne_self_eq_false, Bool.false_eq_true, if_false, if_true, Option.isSome_none, Bool.not_true, Bool.or_false]
  rfl

/-! Dependences (R383). -/

/-- A packet without dependences, with nothing to wait for, is ready (R383). -/
theorem dependenceResolve_ready {s : State} {q : Queue} {p : Packet} {t : PkTy} (h : AtFront s q p t) (hst : p.st = .waiting)
    (hd : pkDeps t p = []) (hi : q.incomplete = 0) :
    ∃ s' x, exec (.dependenceResolve q.fn q.qid) s = .next s' ∧ findQueue s' q.fn q.qid = some x ∧ x.pk = some { p with st := .ready } ∧
      x.depdec = 1 ∧ x.ridx = q.ridx ∧ s'.mem = s.mem ∧ s'.flight = s.flight := by
  have hdec : findQueue (onQueue s q.fn q.qid fun q => { q with depdec := 1 }) q.fn q.qid = some { q with depdec := 1 } := by
    rw [findQueue_onQueue (hg := by intro x; exact ⟨rfl, rfl⟩), h.queue]
    rfl
  refine ⟨setPk (onQueue s q.fn q.qid fun q => { q with depdec := 1 }) q (some { p with st := .ready }), _, ?_,
    findQueue_setPk _ hdec, ?_⟩
  · have hstep : depsStep s q t p = decideDeps s q p [] := by
      unfold depsStep
      dsimp only
      rw [hd, hi]
      simp
    have hrow : exec (.dependenceResolve q.fn q.qid) s = depsStep s q t p := by
      show execDependenceResolve q.fn q.qid s = _
      unfold execDependenceResolve
      rw [h.queue]
      dsimp only
      rw [h.pk]
      dsimp only
      rw [h.fault, h.runs, hst, h.type]
      rfl
    exact hrow.trans hstep
  · rw [queueState_eq]
    exact ⟨rfl, rfl, rfl, rfl, rfl⟩

/-! `BARRIER` and `WAIT` (R387). -/

/-- A `BARRIER` completes (R387). -/
theorem barrier_passes {s : State} {q : Queue} {p : Packet} (h : AtFront s q p .barrier) (hst : p.st = .ready) :
    ∃ s', exec (.barrier q.fn q.qid) s = .next s' ∧ Passed s s' q := by
  refine ⟨donePacket s q, ?_, donePacket_passed h.queue⟩
  show execBarrier q.fn q.qid s = _
  unfold execBarrier
  rw [packetRow_ready h hst, finishPacket_noToken h.token]

/-- The state in which the word of a `WAIT` is read (R387). -/
def waitReads (s : State) (q : Queue) (p : Packet) : State :=
  setPk (depReq s q 8 (pkFld p 1 0 64)) q (some { p with st := .reading })

theorem waitReads_spec {s : State} {q : Queue} (p : Packet) (h : findQueue s q.fn q.qid = some q) :
    ∃ x r, findQueue (waitReads s q p) q.fn q.qid = some x ∧ x.pk = some { p with st := .reading } ∧
      (waitReads s q p).flight.reqs = s.flight.reqs ++ [r] ∧ r.op = .dep q.fn q.qid 8 ∧ r.va = pkFld p 1 0 64 ∧ r.n = 8 ∧
      (waitReads s q p).mem = s.mem := by
  have hreq : findQueue (depReq s q 8 (pkFld p 1 0 64)) q.fn q.qid = some q := h
  refine ⟨_, _, findQueue_setPk _ hreq, ?_, rfl, rfl, rfl, rfl, rfl⟩
  rw [queueState_eq]

/-- A `WAIT` that is ready reads its word (R387). -/
theorem exec_wait_ready {s : State} {q : Queue} {p : Packet} (h : AtFront s q p .wait) (hst : p.st = .ready) :
    exec (.wait q.fn q.qid) s = .next (waitReads s q p) := by
  show execWait q.fn q.qid s = _
  unfold execWait
  rw [packetRow_ready h hst, hst]
  rfl

/-- A `WAIT` whose condition holds completes (R387). -/
theorem exec_wait_holds {s : State} {q : Queue} {p : Packet} {v : Word} (h : AtFront s q p .wait) (hst : p.st = .reading)
    (hv : (p.deps.find? fun d => d.1 == 8) = some (8, v)) (hw : waitHolds p v = true) :
    exec (.wait q.fn q.qid) s = .next (donePacket s q) := by
  show execWait q.fn q.qid s = _
  unfold execWait
  rw [packetRow_reading h hst, hst]
  dsimp only
  rw [hv]
  dsimp only
  rw [if_pos hw, finishPacket_noToken h.token]

/-- A `WAIT` whose condition does not hold reads again after 4,096 cycles (R387). -/
theorem wait_again {s : State} {q : Queue} {p : Packet} {v : Word} (h : AtFront s q p .wait) (hst : p.st = .reading)
    (hv : (p.deps.find? fun d => d.1 == 8) = some (8, v)) (hw : waitHolds p v = false) :
    ∃ s' x, exec (.wait q.fn q.qid) s = .next s' ∧ findQueue s' q.fn q.qid = some x ∧ x.ridx = q.ridx ∧
      (x.pk.map (·.st)) = some (.rereadAt (s.run.now + 4096)) ∧ s'.mem = s.mem := by
  refine ⟨setPk s q (some { p with st := .rereadAt (s.run.now + 4096), deps := p.deps.filter fun x => x.1 != 8 }), _, ?_,
    findQueue_setPk _ h.queue, ?_⟩
  · show execWait q.fn q.qid s = _
    unfold execWait
    rw [packetRow_reading h hst, hst]
    dsimp only
    rw [hv]
    dsimp only
    rw [hw, if_neg Bool.false_ne_true]
  · rw [queueState_eq]
    exact ⟨rfl, rfl, rfl⟩

/-- The word of a `WAIT` is read again when its time has come (R387). -/
theorem exec_waitReread {s : State} {q : Queue} {p : Packet} {n : Nat} (h : AtFront s q p .wait) (hst : p.st = .rereadAt n)
    (hn : n ≤ s.run.now) : exec (.waitReread q.fn q.qid) s = .next (waitReads s q p) := by
  show execWaitReread q.fn q.qid s = _
  unfold execWaitReread
  rw [h.queue]
  dsimp only
  rw [h.pk]
  dsimp only
  rw [hst]
  dsimp only
  rw [h.runs, decide_eq_true hn]
  rfl

/-! `SIGNAL` (R387). -/

/-- A `SIGNAL` whose access is made completes (R387). -/
theorem exec_signal {s s1 : State} {q : Queue} {p : Packet} (h : AtFront s q p .signal) (hst : p.st = .ready)
    (ha : signalAccess s q p = .ok s1 ()) : exec (.signal q.fn q.qid) s = .next (donePacket s1 q) := by
  show execSignal q.fn q.qid s = _
  unfold execSignal
  rw [packetRow_ready h hst, ha]
  dsimp only
  rw [finishPacket_noToken h.token]

/-- The home of a word where nothing keeps a front end's write of it, and nobody waits for the word (R184, R194, R302, R309). -/
structure WordOpen (s : State) (a : Nat) : Prop where
  sound : s.mem.poison.contains (a / 128 * 128) = false
  hold : lineHold s (lineOf (.dev a)) = none
  turn : noneWaits s (lineOf (.dev a))
  host : hostStOf s (a / 128 * 128) = none
  room : recallGate s (a / 128 * 128) = .go
  deltas : s.cache.dsums = []
  idle : ∀ w ∈ s.flight.waiters, w.pa ≠ a

/-- At a home that nothing keeps anyone has its turn (R194, R302, R309). -/
theorem homeTurn_wordOpen {s : State} {a : Nat} (h : WordOpen s a) (who : Asker) :
    homeTurn s (.dev a) who = .done (leaveLine s (lineOf (.dev a)) (some who)) 0 := by
  have hpoison : s.mem.poison.contains (devAddr (lineOf (.dev a))) = false := h.sound
  have hblocks : hostBlocks s (lineOf (.dev a)) .home = none := by simp only [hostBlocks, lineOf, h.host]
  have hroom : recallGate s (devAddr (lineOf (.dev a))) = .go := h.room
  have hgate : syncGate s (.dev a) = .done s 0 := by
    unfold syncGate
    simp only [hpoison, h.hold, hblocks, hroom, Option.isSome_none, Bool.false_eq_true, if_false]
  unfold homeTurn
  rw [turnOver_of_noneWaits h.turn, hgate]
  rfl

/-- The state in which a front end writes a word at its home. -/
def feHome (s : State) (q : Queue) (a : Nat) : State :=
  obtain (dropStale (leaveLine s (lineOf (.dev a)) (some (.queue q.fn q.qid)))) 0 (lineOf (.dev a)) .home

theorem feHome_keeps {s : State} {a : Nat} (q : Queue) (hd : s.cache.dsums = []) : (feHome s q a).mem = s.mem ∧
    (feHome s q a).queues = s.queues ∧ (feHome s q a).flight.waiters = s.flight.waiters := by
  have hw := obtain_work (dropStale (leaveLine s (lineOf (.dev a)) (some (.queue q.fn q.qid)))) 0 (lineOf (.dev a)) .home
  have hflight := congrArg Flight.waiters hw.flight
  exact ⟨(hw.mem hd).1, hw.queues, hflight⟩

/-- A synchronising write of a front end is made at the home of its word, and nobody is served (R39, R184, R387). -/
theorem feSync_makes {s s1 : State} {q : Queue} {va : Word} {a : Nat}
    (htr : translate s (.bench (queueBench q)) q.asid tokenWant va = .ok (.dev a) s1) (h : WordOpen s1 a) (m : Mem → Nat → Mem) :
    feSync s q va (fun s a => { s with mem := m s.mem a }) = .ok { feHome s1 q a with mem := m s1.mem a } () := by
  obtain ⟨hm, -, hw⟩ := feHome_keeps (a := a) q h.deltas
  have hidle : ∀ w ∈ (feHome s1 q a).flight.waiters, w.pa ≠ a := by
    rw [hw]
    exact h.idle
  have hserve : serveWord { feHome s1 q a with mem := m (feHome s1 q a).mem a } a = { feHome s1 q a with mem := m s1.mem a } := by
    rw [hm]
    exact serveWord_idle hidle
  unfold feSync
  rw [htr]
  dsimp only
  rw [homeTurn_wordOpen h]
  exact congrArg (Res.ok · ()) hserve

/-- A `SIGNAL` that writes its word at its home: memory is as the access makes it, and the packet is passed (R387). -/
theorem signal_makes {s s1 : State} {q : Queue} {p : Packet} {a : Nat} (h : AtFront s q p .signal) (hst : p.st = .ready)
    (htr : translate s (.bench (queueBench q)) q.asid tokenWant (pkFld p 1 0 64) = .ok (.dev a) s1) (hopen : WordOpen s1 a)
    (m : Mem → Nat → Mem) (ha : signalAccess s q p = feSync s q (pkFld p 1 0 64) fun s a => { s with mem := m s.mem a }) :
    ∃ s', exec (.signal q.fn q.qid) s = .next s' ∧ s'.mem = m s1.mem a ∧ passes s' q := by
  have hqs : s1.queues = s.queues := by rw [(translate_keeps htr).eq]
  have hq : findQueue { feHome s1 q a with mem := m s1.mem a } q.fn q.qid = some q :=
    (findQueue_of_qs (congrArg Queues.qs ((feHome_keeps q hopen.deltas).2.1.trans hqs)) _ _).trans h.queue
  exact ⟨_, exec_signal h hst (ha.trans (feSync_makes htr hopen m)), rfl, passes_of_passed (donePacket_passed hq)⟩

/-- The other accesses of a `SIGNAL` are those of any engine (R387). -/
theorem signal_plain {s s1 : State} {q : Queue} {p : Packet} {o : EOp} {w : Vec} (h : AtFront s q p .signal) (hst : p.st = .ready)
    (ha : signalAccess s q p = (atomically s (ofVRes (vAccess (dropStale s) (feWho q) (pkFld p 1 0 64) 8 o))).bind fun s1 _ => .ok s1 ())
    (hv : vAccess (dropStale s) (feWho q) (pkFld p 1 0 64) 8 o = .ok s1 w) (hq : findQueue s1 q.fn q.qid = some q) :
    ∃ s', exec (.signal q.fn q.qid) s = .next s' ∧ s'.mem = s1.mem ∧ passes s' q := by
  have hok : signalAccess s q p = .ok s1 () := by
    rw [ha, hv]
    rfl
  exact ⟨_, exec_signal h hst hok, rfl, passes_of_passed (donePacket_passed hq)⟩

/-! `COPY` (R387). -/

/-- A command that comes to its engines leaves queues and memory as they were (R310, R370). -/
theorem addCmd_keeps (s : State) (c : Cmd) : (addCmd s c).queues = s.queues ∧ (addCmd s c).mem = s.mem ∧
    ∃ m n, (addCmd s c).eng.cmds = intake c.bench m n (s.eng.cmds ++ [c]) := by
  have hcall : ∀ s : State, (callToken s c).queues = s.queues ∧ (callToken s c).mem = s.mem ∧ (callToken s c).eng = s.eng := fun s => by
    unfold callToken
    split
    · split
      · unfold sendBisnp
        dsimp only
        split
        · exact ⟨rfl, rfl, rfl⟩
        · exact ⟨rfl, rfl, rfl⟩
      · exact ⟨rfl, rfl, rfl⟩
    · exact ⟨rfl, rfl, rfl⟩
  obtain ⟨hq, hm, he⟩ := hcall { s with eng := { s.eng with cmds := s.eng.cmds ++ [c] } }
  refine ⟨hq, hm, copyLoad (callToken { s with eng := { s.eng with cmds := s.eng.cmds ++ [c] } } c) c.bench 1,
    copyLoad (callToken { s with eng := { s.eng with cmds := s.eng.cmds ++ [c] } } c) c.bench 2, ?_⟩
  show intake _ _ _ (callToken _ c).eng.cmds = _
  rw [he]

/-- The intake passes a command on with nothing changed but its engine (R370). -/
theorem mem_intake {l : List Cmd} {c : Cmd} (h : c ∈ l) (b m n : Nat) : ∃ d ∈ intake b m n l, sameCmd c d := by
  have hall := intake_sameCmd b m n l
  revert hall h
  generalize intake b m n l = l'
  intro h hall
  induction hall with
  | nil => cases h
  | cons hxy _ ih =>
    rcases List.mem_cons.mp h with rfl | h
    · exact ⟨_, List.mem_cons_self, hxy⟩
    · obtain ⟨d, hd, hs⟩ := ih h
      exact ⟨d, List.mem_cons_of_mem _ hd, hs⟩

/-- A `COPY` hands its command to the copy engines of a bench, and `RIDX` passes the packet (R387). -/
theorem copy_hands {s : State} {q : Queue} {p : Packet} {b : Nat} (h : AtFront s q p .copy) (hst : p.st = .ready)
    (hb : enabledBench s (agentDie q) = some b) :
    ∃ s' x c, exec (.copy q.fn q.qid) s = .next s' ∧ findQueue s' q.fn q.qid = some x ∧ x.ridx = q.ridx + 1 ∧
      x.incomplete = q.incomplete + 1 ∧ x.donepk = q.donepk ∧ x.pk = none ∧ c ∈ s'.eng.cmds ∧
      s'.eng.cmds.map (·.id) = s.eng.cmds.map (·.id) ++ [c.id] ∧
      c.kind = (if pkFld p 0 16 1 = 1 then .cred else .cpy) ∧ c.a = pkFld p 1 0 64 ∧ c.b = pkFld p 2 0 64 ∧ c.bench = b ∧
      c.packet = some (q.fn, q.qid) ∧ s'.mem = s.mem := by
  let c0 := copyCmd q p (nextSeq s) b
  let s1 := addCmd (takeSeq s).2 c0
  obtain ⟨hqs, hm, m, n, hcmds⟩ := addCmd_keeps (takeSeq s).2 c0
  have hq1 : findQueue s1 q.fn q.qid = some q := (findQueue_of_qs (congrArg Queues.qs hqs) _ _).trans h.queue
  obtain ⟨c, hc, hsame, -⟩ := mem_intake (c := c0) (l := (takeSeq s).2.eng.cmds ++ [c0]) (by simp) c0.bench m n
  have hids : s1.eng.cmds.map (·.id) = s.eng.cmds.map (·.id) ++ [c.id] := by
    rw [hcmds, intake_ids, List.map_append, hsame]
    rfl
  have hkind : c0.kind = if pkFld p 0 16 1 = 1 then .cred else .cpy := by
    show (if pkFld p 0 16 1 == 1 then CmdKind.cred else .cpy) = _
    simp only [beq_iff_eq]
  refine ⟨onQueue s1 q.fn q.qid fun q => queueState { passPacket q with incomplete := q.incomplete + 1 },
    queueState { passPacket q with incomplete := q.incomplete + 1 }, c, ?_, ?_, ?_, ?_, ?_, ?_, hcmds ▸ hc, hids, ?_, ?_, ?_, ?_, ?_, hm⟩
  · show execCopy q.fn q.qid s = _
    unfold execCopy
    rw [packetRow_ready h hst]
    dsimp only
    rw [hb]
    rfl
  · rw [findQueue_onQueue (hg := by intro x; exact queueState_names _), hq1]
    rfl
  · rw [queueState_eq]; rfl
  · rw [queueState_eq]
  · rw [queueState_eq]; rfl
  · rw [queueState_eq]; rfl
  · rw [hsame]; exact hkind
  · rw [hsame]; rfl
  · rw [hsame]; rfl
  · rw [hsame]; rfl
  · rw [hsame]; rfl

/-- Settles O48, one rule a packet. -/
theorem packetEvents : Obligations.PacketEvents := by
  refine ⟨fun s q p t h hst hd hi _ => dependenceResolve_ready h hst hd hi, fun s q p => barrier_passes, fun s q p h => ⟨fun hst => ?_, fun v hst hv => ⟨fun hw => ?_, ?_⟩,
    fun n hst hn => ?_⟩, fun s s1 q p a h hst htr hp hl ht hh hr hd hw => ⟨fun h0 => ?_, fun h2 => ?_⟩,
    fun s s1 q p w h hst => ?_, fun s q p b => copy_hands⟩
  · exact ⟨_, exec_wait_ready h hst, waitReads_spec p h.queue⟩
  · exact ⟨_, exec_wait_holds h hst hv hw, donePacket_passed h.queue⟩
  · exact wait_again h hst hv
  · exact ⟨_, exec_waitReread h hst hn, waitReads_spec p h.queue⟩
  · exact signal_makes h hst htr ⟨hp, hl, ht, hh, hr, hd, hw⟩
      (fun m a => setFull { m with dev := writeVal m.dev a 8 ((pkFld p 2 0 64).setWidth 128) } a)
      (by unfold signalAccess; rw [h0]; rfl)
  · exact signal_makes h hst htr ⟨hp, hl, ht, hh, hr, hd, hw⟩ setEmpty (by unfold signalAccess; rw [h2]; rfl)
  · intro v hv hq
    rcases hv with ⟨h1, hv⟩ | ⟨h3, hv⟩
    · exact signal_plain h hst (by unfold signalAccess; rw [h1]; rfl) hv hq
    · exact signal_plain h hst (by unfold signalAccess; rw [h3]; rfl) hv hq

end Sys2Proof.Machine
end

section
/-! Context lines on the move: pulls, evictions, arrivals, ageing, swaps and rebalancing (R320, R323, R327, R328, R330, R338, R340). -/

namespace Sys2Proof.Machine
open Sys2Proof.Forms Sys2Proof.Spec

/-! What moving lines leave as it was. -/

theorem linesOnly_trans {a b c : State} (h : LinesOnly a b) (g : LinesOnly b c) : LinesOnly a c :=
  ⟨g.mem.trans h.mem, g.spaces.trans h.spaces, g.flight.trans h.flight, g.eng.trans h.eng, g.queues.trans h.queues,
    g.mmu.trans h.mmu, g.pkg.trans h.pkg⟩

theorem linesOnly_count (s : State) (b u n : Nat) : LinesOnly s (count s b u n) := ⟨rfl, rfl, rfl, rfl, rfl, rfl, rfl⟩

theorem linesOnly_onThread (s : State) (k : Key) (f : Thread → Thread) : LinesOnly s (onThread s k f) :=
  ⟨rfl, rfl, rfl, rfl, rfl, rfl, rfl⟩

theorem linesOnly_of_restSame {s s' : State} (h : RestSame s s') : LinesOnly s s' :=
  ⟨h.mem, h.spaces, h.flight, h.eng, h.queues, h.mmu, h.pkg⟩

/-! The start of a transfer (R323). -/

/-- A line that is on its way to a place. -/
def moved (p : Place) (b : Nat) (t : Thread) : Thread :=
  { t with loc := .moving p b, ready := if t.wait == .run && t.pend.isNone then t.ready else none }

/-- A line that does not stand in its slot leaves nothing there (R317). -/
theorem leaveSlot_of_loc {s : State} {t : Thread} (hf : findThread s t.key = some t) (hl : t.loc ≠ .placed .hbm) :
    leaveSlot s t.key = s := by
  unfold leaveSlot
  rw [hf]
  cases findSpace s t.key.asid with
  | none => rfl
  | some x => exact if_pos (bne_iff_ne.mpr hl)

/-- A line of a CL1 or CL2 starts its transfer with nothing else changed (R323). -/
theorem startMove_of_loc {s : State} {t : Thread} (hf : findThread s t.key = some t) (hl : t.loc ≠ .placed .hbm) (p : Place) (b : Nat) :
    startMove s t.key p b = onThread s t.key (moved p b) := by
  unfold startMove
  rw [leaveSlot_of_loc hf hl]
  rfl

theorem loc_of_inCl2 {t : Thread} {b : Nat} (h : inCl2 t b = true) : t.loc ≠ .placed .hbm := by
  intro e
  unfold inCl2 at h
  rw [e] at h
  cases h

/-- A line starts its transfer and is then changed further: only its thread is touched (R323). -/
theorem moveThen_line {s : State} {t : Thread} (hf : findThread s t.key = some t) (hl : t.loc ≠ .placed .hbm) (p : Place) (b : Nat)
    (f : Thread → Thread) (hk : ∀ t, (f t).key = t.key) :
    let s' := onThread (startMove s t.key p b) t.key f
    LinesOnly s s' ∧ s'.cache = s.cache ∧ s'.run = s.run ∧ (∀ k, k ≠ t.key → findThread s' k = findThread s k) ∧
      findThread s' t.key = some (f (moved p b t)) := by
  intro s'
  have he : s' = onThread (onThread s t.key (moved p b)) t.key f := by
    show onThread (startMove s t.key p b) t.key f = _
    rw [startMove_of_loc hf hl]
  have hm : ∀ t k, t.key = k → (moved p b t).key = k := fun _ _ h => h
  rw [he]
  refine ⟨⟨rfl, rfl, rfl, rfl, rfl, rfl, rfl⟩, rfl, rfl, fun k hne => ?_, ?_⟩
  · rw [findThread_onThread_other _ _ _ _ hne fun t h => (hk t).trans h, findThread_onThread_other _ _ _ _ hne (hm · _)]
  · rw [findThread_onThread _ _ _ fun t h => (hk t).trans h, findThread_onThread _ _ _ (hm · _), hf]
    rfl

/-! Pulls and evictions (R320, R328, R340). -/

/-- A line of a bench's CL2 is brought into a CL1, in its lowest free slot (R327, R328). -/
theorem bringIn_line {s : State} {t : Thread} {b : Nat} (u : Nat) (hf : findThread s t.key = some t) (hc : inCl2 t b = true) :
    LinesOnly s (bringIn s t b u) ∧ (bringIn s t b u).cache = s.cache ∧ (bringIn s t b u).run = s.run ∧
      (∀ k, k ≠ t.key → findThread (bringIn s t b u) k = findThread s k) ∧
      findThread (bringIn s t b u) t.key = some { t with loc := .moving (.cl1 u) b, ready := none, slot := freeSlot s b u } := by
  have he : bringIn s t b u = onThread (startMove (count s b u 2) t.key (.cl1 u) b) t.key
      fun t => { t with ready := none, slot := freeSlot s b u } := by
    unfold bringIn
    dsimp only
    rw [hc]
    rfl
  have hf' : findThread (count s b u 2) t.key = some t := hf
  obtain ⟨hlines, hcache, hrun, hother, hline⟩ := moveThen_line hf' (loc_of_inCl2 hc) (.cl1 u) b
    (fun t => { t with ready := none, slot := freeSlot s b u }) fun _ => rfl
  rw [he]
  exact ⟨linesOnly_trans (linesOnly_count s b u 2) hlines, hcache, hrun, hother, hline⟩

/-- An eviction starts the transfer of a CL1's line to the CL2 (R320). -/
theorem evict_line {s : State} {v : Thread} {u : Nat} (hf : findThread s v.key = some v) (hl : v.loc = .placed (.cl1 u)) :
    LinesOnly s (evict s v) ∧ (evict s v).cache = s.cache ∧ (evict s v).run = s.run ∧
      (∀ k, k ≠ v.key → findThread (evict s v) k = findThread s k) ∧
      findThread (evict s v) v.key = some { moved .cl2 v.bench v with marked := false } := by
  have hf' : findThread (count s v.bench (iuAt v) 3) v.key = some v := hf
  obtain ⟨hlines, hcache, hrun, hother, hline⟩ := moveThen_line hf' (by rw [hl]; nofun) .cl2 v.bench
    (fun t => { t with marked := false }) fun _ => rfl
  exact ⟨linesOnly_trans (linesOnly_count s _ _ 3) hlines, hcache, hrun, hother, hline⟩

theorem loc_of_evictable {s : State} {b u : Nat} {v : Thread} (h : v ∈ evictable s b u) : v.loc = .placed (.cl1 u) := by
  have hv := (List.mem_filter.mp h).2
  simp only [Bool.and_eq_true, beq_iff_eq] at hv
  exact hv.1.2

theorem mem_evictable_of_parkedVictim {s : State} {b u : Nat} {v : Thread} (h : parkedVictim s b u = some v) : v ∈ evictable s b u := by
  unfold parkedVictim at h
  dsimp only at h
  split at h
  · next hl =>
    cases h
    exact List.mem_of_mem_filter (List.mem_of_mem_filter (mem_of_leastBy hl))
  · exact List.mem_of_mem_filter (mem_of_leastBy h)

theorem mem_evictable_of_readyVictim {s : State} {b u : Nat} {v : Thread} (h : readyVictim s b u = some v) : v ∈ evictable s b u :=
  List.mem_of_mem_filter (mem_of_leastBy h)

/-- The lowest-numbered unit that can pull takes the head of the list (R320, R328). -/
theorem linePull_takes {s : State} {b u : Nat} {t : Thread} (hp : canPull s b u = true) (hfirst : ∀ v < u, canPull s b v = false)
    (hroom : (cl1Lines s b u).length < cl1Cap (getIu s b u)) (hh : listHead s b = some t) :
    exec (.linePull b u) s = .next (bringIn s t b u) := by
  have hfull : ¬ cl1Cap (getIu s b u) < (cl1Lines s b u).length := Nat.not_lt.mpr (Nat.le_of_lt hroom)
  have hlower : (List.range u).any (canPull s b) = false :=
    List.any_eq_false.mpr fun v hv => by rw [hfirst v (List.mem_range.mp hv)]; exact Bool.false_ne_true
  show execLinePull b u s = _
  unfold execLinePull
  simp only [hfull, decide_false, Bool.false_eq_true, if_false, hp, hlower, Bool.not_true, Bool.or_self, hh, hroom, if_true]

/-- A unit over its limit evicts a parked line (R340). -/
theorem linePull_evicts {s : State} {b u : Nat} {v : Thread} (hover : cl1Cap (getIu s b u) < (cl1Lines s b u).length)
    (hhalt : (getIu s b u).halted = false) (hr : running s = true) (hv : parkedVictim s b u = some v) :
    exec (.linePull b u) s = .next (evict s v) := by
  show execLinePull b u s = _
  unfold execLinePull
  simp only [hover, decide_true, if_true, hhalt, hr, Bool.not_true, Bool.or_self, Bool.false_eq_true, if_false, hv]

/-! Arrivals (R323). -/

/-- An update of a line leaves its place (R322). -/
theorem applyUpd_place (t : Thread) (u : Upd) : (applyUpd t u).key = t.key ∧ (applyUpd t u).loc = t.loc ∧
    (applyUpd t u).bench = t.bench ∧ (applyUpd t u).inbox = t.inbox := by
  cases u with
  | word n v =>
    unfold applyUpd
    dsimp only
    split
    · exact ⟨rfl, rfl, rfl, rfl⟩
    · split <;> exact ⟨rfl, rfl, rfl, rfl⟩
  | record r counts =>
    unfold applyUpd
    dsimp only
    split <;> exact ⟨rfl, rfl, rfl, rfl⟩
  | result d wide v => exact ⟨rfl, rfl, rfl, rfl⟩
  | ack => exact ⟨rfl, rfl, rfl, rfl⟩
  | ret x => exact ⟨rfl, rfl, rfl, rfl⟩
  | clearRec i counted => exact ⟨rfl, rfl, rfl, rfl⟩
  | fatalRec i st va => exact ⟨rfl, rfl, rfl, rfl⟩

theorem foldl_applyUpd_place (l : List Upd) (t : Thread) : (l.foldl applyUpd t).key = t.key ∧ (l.foldl applyUpd t).loc = t.loc ∧
    (l.foldl applyUpd t).bench = t.bench ∧ (l.foldl applyUpd t).inbox = t.inbox := by
  induction l generalizing t with
  | nil => exact ⟨rfl, rfl, rfl, rfl⟩
  | cons u l ih =>
    obtain ⟨hk, hl, hb, hi⟩ := ih (applyUpd t u)
    obtain ⟨hk', hl', hb', hi'⟩ := applyUpd_place t u
    exact ⟨hk.trans hk', hl.trans hl', hb.trans hb', hi.trans hi'⟩

/-- A line as it lands in a CL1, before the updates that waited are applied (R323). -/
def landing (t : Thread) (u b : Nat) : Thread :=
  { t with loc := .placed (.cl1 u), bench := b, inbox := [], wait := if t.wait == .transit then .run else t.wait }

/-- A line lands in a CL1, with the updates that waited applied in order (R323). -/
theorem lineTransferArrival_lands {s : State} {t x : Thread} {b u : Nat} (hf : findThread s t.key = some t)
    (hl : t.loc = .moving (.cl1 u) b) (hx : x = t.inbox.foldl applyUpd (landing t u b)) (hp : x.pend = none) (hz : x.ctx.frz = false)
    (hc : x.cancel = false) (hr : fatalRec x.trap = none) (hq : ∀ r ∈ s.flight.reqs, r.key = t.key → isUnrecorded r = false) :
    ∃ s' y, exec (.lineTransferArrival t.key) s = .next s' ∧ LinesOnly s s' ∧ (∀ k, k ≠ t.key → findThread s' k = findThread s k) ∧
      findThread s' t.key = some y ∧ y.loc = .placed (.cl1 u) ∧ y.bench = b ∧ y.inbox = [] ∧ y.trap = x.trap ∧
      y.ctx = { x.ctx with wkind := y.ctx.wkind } := by
  obtain ⟨hkey, hloc, hbench, hinbox⟩ := hx ▸ foldl_applyUpd_place t.inbox (landing t u b)
  have hkey : x.key = t.key := hkey
  have hf1 : findThread (setThread s x) x.key = some x := by
    rw [findThread_setThread, hkey, hf]
    rfl
  have hcl1 : inCl1 x = true := by
    unfold inCl1
    rw [hloc]
    rfl
  obtain ⟨⟨y, hy, hye, -⟩, hother, hrest, -⟩ := settle_line (setThread s x) x hf1 hcl1 hp hr hz hc (by rw [hkey]; exact hq)
  have hparts := unpark_parts x
  have hyl : y.loc = .placed (.cl1 u) := by rw [hye, hparts]; exact hloc
  have hstay : leavePart (settle (setThread s x) t.key) t.key = settle (setThread s x) t.key := by
    unfold leavePart
    rw [← hkey, hy]
    dsimp only
    rw [hyl]
    rfl
  refine ⟨settle (setThread s x) t.key, y, ?_, ?_, fun k hne => ?_, hkey ▸ hy, hyl, ?_, ?_, ?_, ?_⟩
  · show execLineTransferArrival t.key s = _
    unfold execLineTransferArrival
    rw [hf]
    dsimp only
    rw [hl]
    dsimp only
    rw [← hstay, hx]
    rfl
  · have hland : LinesOnly s (setThread s x) := ⟨rfl, rfl, rfl, rfl, rfl, rfl, rfl⟩
    exact linesOnly_trans hland (linesOnly_of_restSame (by rw [← hkey]; exact hrest))
  · rw [← hkey] at hne ⊢
    rw [hother k hne, findThread_setThread_other _ _ _ hne]
  · rw [hye, hparts]; exact hbench
  · rw [hye, hparts]; exact hinbox
  · rw [hye, hparts]
  · rw [hye]

/-! The ready list (R327, R330). -/

/-- An entry of the ready list goes one level up (R327). -/
theorem exec_readyListAgeing {s : State} {t : Thread} {r : ReadyEnt} (hf : findThread s t.key = some t) (hr : t.ready = some r)
    (hl : r.level < 15) (hn : r.since + 65536 ≤ s.run.now) :
    exec (.readyListAgeing t.key) s =
      .next (setThread s { t with ready := some { r with level := r.level + 1, since := r.since + 65536 } }) := by
  show execReadyListAgeing t.key s = _
  unfold execReadyListAgeing
  rw [hf]
  dsimp only
  rw [hr]
  simp only [hl, decide_true, hn, Bool.and_self, if_true]

/-- The ready lines of a bench's enabled units that a swap may evict, with their units (R330). -/
def swapVictims (s : State) (b : Nat) : List (Nat × Thread) :=
  ((List.range Config.iusPerBench).filter fun u => iuEnabled (getIu s b u) && iuRuns s b u).filterMap
    fun u => (readyVictim s b u).map fun v => (u, v)

theorem loc_of_swapVictim {s : State} {b u : Nat} {v : Thread} (h : leastBy (fun x => x.2.lastIssue) (swapVictims s b) = some (u, v)) :
    v.loc = .placed (.cl1 u) := by
  obtain ⟨w, -, hw⟩ := List.mem_filterMap.mp (mem_of_leastBy h)
  obtain ⟨x, hx, he⟩ := Option.map_eq_some_iff.mp hw
  cases he
  exact loc_of_evictable (mem_evictable_of_readyVictim hx)

/-- The state after a swap, whose time is kept (R330). -/
def swapped (s : State) (b : Nat) : State :=
  { s with cache := { s.cache with swaps := upsert (fun x => x.1 == b) (b, s.run.now) s.cache.swaps } }

/-- A swap that is due evicts the least recently issued ready line for the head of the list (R330). -/
theorem exec_readyListSwap {s : State} {b u : Nat} {t v : Thread} (hh : listHead s b = some t) (hlate : lateLine s b = true)
    (hfirst : (s.cache.swaps.find? fun x => x.1 == b) = none) (hnone : ∀ w < Config.iusPerBench, canPull s b w = false)
    (hv : leastBy (fun x => x.2.lastIssue) (swapVictims s b) = some (u, v)) :
    exec (.readyListSwap b) s = .next (swapped (bringIn (evict s v) t b u) b) := by
  have hpull : (List.range Config.iusPerBench).any (canPull s b) = false :=
    List.any_eq_false.mpr fun w hw => by rw [hnone w (List.mem_range.mp hw)]; exact Bool.false_ne_true
  unfold swapVictims at hv
  show execReadyListSwap b s = _
  unfold execReadyListSwap
  simp only [hh, hlate, hfirst, hpull, Bool.not_true, Bool.or_self, Bool.false_eq_true, if_false, hv]
  rfl

/-- The head of the list and the victim change places (R330). -/
theorem readyListSwap_spec {s : State} {b u : Nat} {t v : Thread} (hh : listHead s b = some t) (hlate : lateLine s b = true)
    (hfirst : (s.cache.swaps.find? fun x => x.1 == b) = none) (hnone : ∀ w < Config.iusPerBench, canPull s b w = false)
    (ht : findThread s t.key = some t) (hvf : findThread s v.key = some v) (hne : t.key ≠ v.key) (hc : inCl2 t b = true)
    (hv : leastBy (fun x => x.2.lastIssue) (swapVictims s b) = some (u, v)) :
    ∃ s' x y, exec (.readyListSwap b) s = .next s' ∧ LinesOnly s s' ∧
      findThread s' t.key = some x ∧ x.loc = .moving (.cl1 u) b ∧ x.ready = none ∧ x.ctx = t.ctx ∧
      findThread s' v.key = some y ∧ y.loc = .moving .cl2 v.bench ∧ y.ctx = v.ctx ∧ (b, s.run.now) ∈ s'.cache.swaps := by
  obtain ⟨hl1, hc1, hr1, ho1, hv1⟩ := evict_line hvf (loc_of_swapVictim hv)
  have ht1 : findThread (evict s v) t.key = some t := (ho1 _ hne).trans ht
  obtain ⟨hl2, hc2, hr2, ho2, ht2⟩ := bringIn_line u ht1 hc
  refine ⟨_, _, _, exec_readyListSwap hh hlate hfirst hnone hv, ?_, ht2, rfl, rfl, rfl, (ho2 _ hne.symm).trans hv1, rfl, rfl, ?_⟩
  · exact linesOnly_trans (linesOnly_trans hl1 hl2) ⟨rfl, rfl, rfl, rfl, rfl, rfl, rfl⟩
  · have hnow : (bringIn (evict s v) t b u).run.now = s.run.now := by rw [hr2, hr1]
    show _ ∈ upsert _ (b, (bringIn (evict s v) t b u).run.now) _
    rw [hnow]
    exact mem_upsert_self _ _ _

/-! Rebalancing (R338). -/

theorem leaveSlot_threads (s : State) (k : Key) : (leaveSlot s k).threads = s.threads := by
  unfold leaveSlot
  split
  · split
    · rfl
    · split
      · next s1 h =>
        have hs1 : s1.threads = s.threads := by rw [(translate_keeps h).eq]
        exact hs1
      · rfl
  · rfl

/-- A bench whose CL2 is not full has room (R333). -/
theorem cl2Room_of_room {s : State} {b : Nat} (h : cl2Used s b < Config.cl2Lines) : cl2Room s b = s := by
  unfold cl2Room
  rw [if_pos h]

/-- A line that goes to another bench joins its list anew (R282, R323, R327, R338). -/
theorem rehome_line {s : State} {t : Thread} {b : Nat} (hf : findThread s t.key = some t) (hroom : cl2Used s b < Config.cl2Lines) :
    (t.loc ≠ .placed .hbm → LinesOnly s (rehome s t.key b)) ∧ (∀ k, k ≠ t.key → findThread (rehome s t.key b) k = findThread s k) ∧
      (rehome s t.key b).flight = s.flight ∧ (rehome s t.key b).spaces = s.spaces ∧
      findThread (rehome s t.key b) t.key = some { moved .cl2 b t with ready := none, lastIu := none, marked := false } := by
  have hroom' : cl2Room (dropStale s) b = dropStale s := cl2Room_of_room hroom
  have he : rehome s t.key b = onThread (onThread (leaveSlot (dropStale s) t.key) t.key (moved .cl2 b)) t.key
      fun t => { t with ready := none, lastIu := none, marked := false } := by
    unfold rehome startMove
    rw [hroom']
    rfl
  have hkeep := evictKeeps_leaveSlot (dropStale s) t.key
  have hthread : ∀ k, findThread (leaveSlot (dropStale s) t.key) k = findThread s k :=
    findThread_of_threads _ _ (leaveSlot_threads (dropStale s) t.key)
  have hm : ∀ t k, t.key = k → (moved .cl2 b t).key = k := fun _ _ h => h
  rw [he]
  refine ⟨fun hl => ?_, fun k hne => ?_, hkeep.flight, hkeep.spaces, ?_⟩
  · rw [leaveSlot_of_loc (s := dropStale s) hf hl]
    exact ⟨rfl, rfl, rfl, rfl, rfl, rfl, rfl⟩
  · rw [findThread_onThread_other _ _ _ _ hne (by exact fun _ h => h), findThread_onThread_other _ _ _ _ hne (hm · _), hthread]
  · rw [findThread_onThread _ _ _ (by exact fun _ h => h), findThread_onThread _ _ _ (hm · _), hthread, hf]
    rfl

/-- Firmware sends a listed line that is not held to a bench that takes it (R338). -/
theorem exec_firmwareRebalance {s : State} {t : Thread} {b : Nat} (hf : findThread s t.key = some t) (hready : t.ready.isSome = true)
    (hact : t.ctx.hact = false) (hmove : isMoving t = false) (hfree : leavesFree s t.key = true) (hne : t.bench ≠ b)
    (hb : b < Config.benches) (hacc : accepts s b = true) : exec (.firmwareRebalance t.key b) s = .next (rehome s t.key b) := by
  have hmay : ((parkedClass s t || t.ready.isSome) && !t.ctx.hact && !isMoving t && leavesFree s t.key && t.bench != b &&
      decide (b < Config.benches) && accepts s b) = true := by
    rw [hready, hact, hmove, hfree, bne_iff_ne.mpr hne, decide_eq_true hb, hacc]
    simp
  show execFirmwareRebalance t.key b s = _
  unfold execFirmwareRebalance
  rw [hf]
  exact congrArg Host.Outcome.next (if_pos hmay)

/-- Settles O41, one rule an event. -/
theorem lineMovement : Obligations.LineMovement := by
  refine ⟨fun s b u t hp hfirst hroom hh hf hc => ?_, fun s b u v hover hhalt hr hv hf => ?_, fun s t b u hf hl => ?_,
    fun s t r => exec_readyListAgeing, fun s b u t v => readyListSwap_spec,
    fun s t b hf hready hact hmove hfree hne hb hacc hroom => ?_⟩
  · obtain ⟨hlines, -, -, hother, hline⟩ := bringIn_line u hf hc
    exact ⟨_, linePull_takes hp hfirst hroom hh, hlines, hother, hline⟩
  · obtain ⟨hlines, -, -, hother, hline⟩ := evict_line hf (loc_of_evictable (mem_evictable_of_parkedVictim hv))
    exact ⟨_, _, linePull_evicts hover hhalt hr hv, hlines, hother, hline, rfl, rfl, rfl, rfl⟩
  · intro x hp hz hc hr hq
    exact lineTransferArrival_lands hf hl rfl hp hz hc hr hq
  · obtain ⟨hlines, hother, hflight, hspaces, hline⟩ := rehome_line hf hroom
    exact ⟨_, _, exec_firmwareRebalance hf hready hact hmove hfree hne hb hacc, hlines, hother, hflight, hspaces, hline, rfl, rfl, rfl,
      rfl, rfl⟩

end Sys2Proof.Machine
end

section
/-! Recoverable faults: messages, wakes and replays (14_faults_translation_preemption R350 to R353). -/

namespace Sys2Proof.Machine
open Sys2Proof.Forms Sys2Proof.Spec

/-! What a router does with a message (R350). -/

theorem mergeAt_known {s : State} {r port : Nat} {asid : BitVec 16} {page : Nat} {k : Kinds} {e : RouterEnt}
    (h : routerFind s r asid page = some e) :
    mergeAt s r port asid page k = .merged (onMmu s fun x => { x with
      router := modifyFirst (· == e) (fun e => { e with
        ports := if e.ports.contains port then e.ports else e.ports ++ [port], kinds := orKinds e.kinds k }) x.router }) := by
  unfold mergeAt
  rw [h]

theorem mergeAt_full {s : State} {r port : Nat} {asid : BitVec 16} {page : Nat} {k : Kinds}
    (h : routerFind s r asid page = none) (hf : routerFull s r = true) : mergeAt s r port asid page k = .full := by
  unfold mergeAt
  rw [h]
  exact if_pos hf

theorem mergeAt_new {s : State} {r port : Nat} {asid : BitVec 16} {page : Nat} {k : Kinds}
    (h : routerFind s r asid page = none) (hf : routerFull s r = false) :
    mergeAt s r port asid page k = .passed (onMmu s fun x => { x with
      router := x.router ++ [{ router := r, asid := asid, page := page, ports := [port], kinds := k }] }) := by
  unfold mergeAt
  rw [h]
  exact if_neg (by rw [hf]; exact Bool.false_ne_true)

/-- The package with the router entry that a message leaves at a die router (R350). -/
def enteredAt (s : State) (e : RouterEnt) : State := onMmu s fun x => { x with router := x.router ++ [e] }

theorem routerFind_enteredAt {s : State} {e : RouterEnt} {r : Nat} (h : e.router ≠ r) (asid : BitVec 16) (page : Nat) :
    routerFind (enteredAt s e) r asid page = routerFind s r asid page := by
  unfold routerFind enteredAt onMmu
  rw [List.find?_append]
  simp [h]

theorem routerFull_enteredAt {s : State} {e : RouterEnt} {r : Nat} (h : e.router ≠ r) :
    routerFull (enteredAt s e) r = routerFull s r := by
  unfold routerFull enteredAt onMmu
  simp [List.filter_append, h]

/-- The root router is no die's router. -/
theorem dieOf_ne_root {b : Nat} (h : b < Config.benches) : dieOf b ≠ rootRouter := by
  have hlt : dieOf b < rootRouter := Nat.div_lt_of_lt_mul h
  exact Nat.ne_of_lt hlt

/-- The package after the one message of a bench for a page has left the bench (R350). -/
def messageLeft (s : State) (e : BenchFault) : State := { s with mmu := { s.mmu with bench := left s e } }

/-- The message of a bench that has not sent it. -/
structure Unsent (s : State) (e : BenchFault) : Prop where
  listed : (s.mmu.bench.find? fun x => x.bench == e.bench && x.asid == e.asid && x.page == e.page) = some e
  unsent : e.sent = false

/-- `FAULT_MESSAGE` of an unsent message goes by what the die router does with it, and then the root router (R350). -/
theorem exec_faultMessage {s : State} {e : BenchFault} (h : Unsent s e) :
    exec (.faultMessage e.bench e.asid e.page) s =
      match mergeAt (messageLeft s e) (dieOf e.bench) e.bench e.asid e.page e.kinds with
      | .merged s2 => .next s2
      | .full => .next (toRoot (messageLeft s e) { asid := e.asid, page := e.page, kinds := e.kinds, src := some e.bench })
      | .passed s2 => match mergeAt s2 rootRouter (dieOf e.bench) e.asid e.page e.kinds with
        | .merged s3 => .next s3
        | .full => .next (toRoot s2 { asid := e.asid, page := e.page, kinds := e.kinds, src := some e.bench })
        | .passed s3 => .next (toRoot s3 { asid := e.asid, page := e.page, kinds := e.kinds, src := none }) := by
  show execFaultMessage e.bench e.asid e.page s = _
  unfold execFaultMessage
  rw [h.listed]
  dsimp only
  rw [h.unsent]
  rfl

/-- A message that both routers have room for and neither knows reaches the root core as one (R350). -/
theorem faultMessage_climbs {s : State} {e : BenchFault} (h : Unsent s e) (hb : e.bench < Config.benches)
    (hd : routerFind s (dieOf e.bench) e.asid e.page = none) (hdf : routerFull s (dieOf e.bench) = false)
    (hr : routerFind s rootRouter e.asid e.page = none) (hrf : routerFull s rootRouter = false) :
    exec (.faultMessage e.bench e.asid e.page) s = .next { s with mmu := climbed s e } := by
  let x : RouterEnt := { router := dieOf e.bench, asid := e.asid, page := e.page, ports := [e.bench], kinds := e.kinds }
  have hne : x.router ≠ rootRouter := dieOf_ne_root hb
  have hfind : routerFind (enteredAt (messageLeft s e) x) rootRouter e.asid e.page = none :=
    (routerFind_enteredAt hne _ _).trans hr
  have hroom : routerFull (enteredAt (messageLeft s e) x) rootRouter = false := (routerFull_enteredAt hne).trans hrf
  have hdie : mergeAt (messageLeft s e) (dieOf e.bench) e.bench e.asid e.page e.kinds =
      .passed (enteredAt (messageLeft s e) x) := mergeAt_new hd hdf
  rw [exec_faultMessage h, hdie]
  dsimp only
  rw [mergeAt_new hfind hroom]
  simp only [toRoot, onMmu, enteredAt, messageLeft, climbed, List.append_assoc]
  rfl

theorem faultMessage_joins {s : State} {e : BenchFault} {x : RouterEnt} (h : Unsent s e)
    (hd : routerFind s (dieOf e.bench) e.asid e.page = some x) :
    exec (.faultMessage e.bench e.asid e.page) s = .next { s with mmu := joinedAt s e x } := by
  have hd1 : routerFind (messageLeft s e) (dieOf e.bench) e.asid e.page = some x := hd
  rw [exec_faultMessage h, mergeAt_known hd1]
  rfl

theorem faultMessage_alone {s : State} {e : BenchFault} (h : Unsent s e)
    (hd : routerFind s (dieOf e.bench) e.asid e.page = none) (hdf : routerFull s (dieOf e.bench) = true) :
    exec (.faultMessage e.bench e.asid e.page) s = .next { s with mmu := { s.mmu with
      bench := left s e
      inbox := s.mmu.inbox ++ [{ asid := e.asid, page := e.page, kinds := e.kinds, src := some e.bench }] } } := by
  have hd1 : routerFind (messageLeft s e) (dieOf e.bench) e.asid e.page = none := hd
  rw [exec_faultMessage h, mergeAt_full hd1 hdf]
  rfl

/-! A wake lets the requests of its page go on (R351). -/

/-- Memory and translation are as they were. -/
structure WakeKeeps (s s' : State) : Prop where
  mem : s'.mem = s.mem
  mmu : s'.mmu = s.mmu

theorem WakeKeeps.refl (s : State) : WakeKeeps s s := ⟨rfl, rfl⟩

theorem WakeKeeps.trans {a b c : State} (h : WakeKeeps a b) (g : WakeKeeps b c) : WakeKeeps a c :=
  ⟨g.mem.trans h.mem, g.mmu.trans h.mmu⟩

theorem wakeKeeps_foldl {α : Type} (f : State → α → State) (hf : ∀ s x, WakeKeeps s (f s x)) (l : List α) (s : State) :
    WakeKeeps s (l.foldl f s) :=
  List.foldlRecOn (motive := WakeKeeps s) l f (.refl s) fun s1 h x _ => h.trans (hf s1 x)

theorem refresh_mmu (s : State) (k : Key) : (refresh s k).mmu = s.mmu := by
  unfold refresh
  split
  · rfl
  · next t _ =>
    obtain ⟨f, he, -⟩ := pauseHolds_eq s t
    have hp : (pauseHolds s t).mmu = s.mmu := by rw [he]
    dsimp only
    split
    · split <;> exact hp
    · exact hp

theorem wakeKeeps_refresh (s : State) (k : Key) : WakeKeeps s (refresh s k) := ⟨refresh_mem s k, refresh_mmu s k⟩

/-- What a request of the woken page becomes, when its page is there (R351, R352). -/
def wokenSt : ReqSt → Option ReqSt
  | .fault _ => some .pending
  | .side _ => some .sideReplay
  | .record i _ => some (.replay (some i))
  | _ => none

theorem wakeReq_woken {r : Req} {st : ReqSt} (h : wokenSt r.st = some st) {page : Nat} (hp : r.fva.toNat / 4096 = page)
    (s : State) : wakeReq s page 0 r = setReqSt s r.id st := by
  subst hp
  unfold wakeReq
  rw [if_neg (by simp)]
  cases hst : r.st with
  | fault _ => rw [hst] at h; cases h; rfl
  | side _ => rw [hst] at h; cases h; rfl
  | record i _ => rw [hst] at h; cases h; rfl
  | _ => rw [hst] at h; cases h

theorem wakeReq_otherPage {r : Req} {page : Nat} (hp : r.fva.toNat / 4096 ≠ page) (s : State) : wakeReq s page 0 r = s := by
  unfold wakeReq
  exact if_pos (bne_iff_ne.mpr hp)

/-- A request of the woken page changes its state, ends as a fetch without a record, or is not concerned (R351). -/
theorem wakeReq_cases (s : State) (page : Nat) (r : Req) :
    wakeReq s page 0 r = s ∨ (∃ st, wakeReq s page 0 r = setReqSt s r.id st) ∨
      wakeReq s page 0 r = refresh (onThread (dropReq s r.id) r.key fun t => { t with wait := .run }) r.key := by
  unfold wakeReq
  split
  · exact .inl rfl
  · split
    · exact .inr (.inl ⟨_, rfl⟩)
    · exact .inr (.inl ⟨_, rfl⟩)
    · exact .inr (.inl ⟨_, rfl⟩)
    · split
      · exact .inr (.inr rfl)
      · exact .inr (.inl ⟨_, rfl⟩)
    · exact .inl rfl

theorem wakeReq_keeps (s : State) (page : Nat) (r : Req) : WakeKeeps s (wakeReq s page 0 r) := by
  rcases wakeReq_cases s page r with h | ⟨st, h⟩ | h <;> rw [h]
  · exact .refl s
  · exact ⟨rfl, rfl⟩
  · exact WakeKeeps.trans (b := onThread (dropReq s r.id) r.key _) ⟨rfl, rfl⟩ (wakeKeeps_refresh _ _)

theorem findReq_setReqSt_other {id j : Nat} (h : j ≠ id) (s : State) (st : ReqSt) : findReq (setReqSt s j st) id = findReq s id := by
  refine find?_modifyFirst_other _ _ _ _ (fun x hx => ?_) fun x hx => ?_ <;>
    exact beq_false_of_ne fun e => h ((beq_iff_eq.mp hx).symm.trans e)

theorem findReq_dropReq_other {id j : Nat} (h : j ≠ id) (s : State) : findReq (dropReq s j) id = findReq s id := by
  unfold findReq dropReq
  rw [List.find?_filter]
  refine congrArg (fun p => s.flight.reqs.find? p) (funext fun x => ?_)
  by_cases hx : x.id = id
  · simp [hx, h.symm]
  · simp [hx]

/-- The wake of one request leaves the others as they were. -/
theorem findReq_wakeReq_other {r : Req} {id : Nat} (h : r.id ≠ id) (s : State) (page : Nat) :
    findReq (wakeReq s page 0 r) id = findReq s id := by
  rcases wakeReq_cases s page r with e | ⟨st, e⟩ | e
  · rw [e]
  · rw [e]; exact findReq_setReqSt_other h s st
  · rw [e]
    unfold findReq
    rw [(linesGo_refresh _ _).rest.flight]
    exact findReq_dropReq_other h s

/-- Requests are woken one after the other (R351). -/
def wakeReqs (page : Nat) (l : List Req) (s : State) : State := l.foldl (fun s r => wakeReq s page 0 r) s

/-- A request that waits on the page goes on (R351, R352); `y` is the request now, woken already or still to be. -/
theorem findReq_wakeReqs_woken {r : Req} {st : ReqSt} {page : Nat} {l : List Req} (hst : wokenSt r.st = some st)
    (hp : r.fva.toNat / 4096 = page) (huniq : ∀ q ∈ l, q.id = r.id → q = r) {s : State} {y : Req}
    (hy : findReq s r.id = some y) (hyr : { y with st := st } = { r with st := st }) (hl : r ∈ l ∨ y = { r with st := st }) :
    findReq (wakeReqs page l s) r.id = some { r with st := st } := by
  induction l generalizing s y with
  | nil =>
    rcases hl with h | h
    · cases h
    · exact hy.trans (congrArg some h)
  | cons q l ih =>
    have hrest : ∀ x ∈ l, x.id = r.id → x = r := fun x hx => huniq x (List.mem_cons_of_mem _ hx)
    by_cases hid : q.id = r.id
    · have hq : q = r := huniq q List.mem_cons_self hid
      have h1 : findReq (wakeReq s page 0 q) r.id = some { r with st := st } := by
        rw [hq, wakeReq_woken hst hp, findReq_setReqSt hy, hyr]
      exact ih hrest h1 rfl (.inr rfl)
    · have h1 : findReq (wakeReq s page 0 q) r.id = some y := (findReq_wakeReq_other hid s page).trans hy
      have hl1 : r ∈ l ∨ y = { r with st := st } :=
        hl.imp_left fun h => (List.mem_cons.mp h).resolve_left fun e => hid (e ▸ rfl)
      exact ih hrest h1 hyr hl1

/-- A request of another page stays as it was, and so does one that no wake of the list is about. -/
theorem findReq_wakeReqs_same {id page : Nat} {l : List Req} (h : ∀ q ∈ l, q.id = id → q.fva.toNat / 4096 ≠ page) (s : State) :
    findReq (wakeReqs page l s) id = findReq s id := by
  refine List.foldlRecOn (motive := fun s1 => findReq s1 id = findReq s id) l _ rfl fun s1 h1 q hq => ?_
  by_cases hid : q.id = id
  · rw [wakeReq_otherPage (h q hq hid)]
    exact h1
  · exact (findReq_wakeReq_other hid s1 page).trans h1

theorem findReq_of_mem {s : State} {r : Req} (hm : r ∈ s.flight.reqs) (hu : ∀ q ∈ s.flight.reqs, q.id = r.id → q = r) :
    findReq s r.id = some r := by
  unfold findReq
  cases hf : s.flight.reqs.find? (fun q => q.id == r.id) with
  | none => exact absurd (List.find?_eq_none.mp hf r hm) (by simp)
  | some q => exact congrArg some (hu q (List.mem_of_find?_eq_some hf) (by simpa using List.find?_some hf))

/-! The rest of a bench's wake (R351). -/

/-- Memory, translation, requests and commands are as they were. -/
structure WakeRest (s s' : State) : Prop where
  keeps : WakeKeeps s s'
  flight : s'.flight = s.flight
  eng : s'.eng = s.eng

theorem WakeRest.refl (s : State) : WakeRest s s := ⟨.refl s, rfl, rfl⟩

theorem WakeRest.trans {a b c : State} (h : WakeRest a b) (g : WakeRest b c) : WakeRest a c :=
  ⟨h.keeps.trans g.keeps, g.flight.trans h.flight, g.eng.trans h.eng⟩

theorem wakeRest_foldl {α : Type} (f : State → α → State) (hf : ∀ s x, WakeRest s (f s x)) (l : List α) (s : State) :
    WakeRest s (l.foldl f s) :=
  List.foldlRecOn (motive := WakeRest s) l f (.refl s) fun s1 h x _ => h.trans (hf s1 x)

theorem wakeRest_inbound (s : State) (asid : BitVec 16) (page : Nat) : WakeRest s (wakeInbound s asid page 0) :=
  ⟨⟨rfl, rfl⟩, rfl, rfl⟩

theorem wakeRest_thread (s : State) (page : Nat) (t : Thread) : WakeRest s (wakeThread s page 0 t) := by
  unfold wakeThread
  split
  · split
    · exact ⟨⟨rfl, rfl⟩, rfl, rfl⟩
    · exact .refl s
  · exact .refl s

theorem wakeRest_onQueue (s : State) (f q : Nat) (g : Queue → Queue) : WakeRest s (onQueue s f q g) := ⟨⟨rfl, rfl⟩, rfl, rfl⟩

theorem wakeRest_queue (s : State) (page : Nat) (q : Queue) : WakeRest s (wakeQueue s page 0 q) := by
  unfold wakeQueue
  split
  · exact .refl s
  · split
    · exact .refl s
    · split
      · exact .refl s
      · exact wakeRest_onQueue _ _ _ _

theorem wakeRest_cancels (s : State) (page : Nat) (q : Queue) : WakeRest s (wakeCancels s page 0 q) := by
  unfold wakeCancels
  split
  · exact .refl s
  · split
    · exact .refl s
    · exact wakeRest_onQueue _ _ _ _

theorem wakeRest_launch (s : State) (page : Nat) (l : LaunchSlot) : WakeRest s (wakeLaunch s page 0 l) := by
  unfold wakeLaunch
  split
  · exact .refl s
  · split
    · exact .refl s
    · exact ⟨⟨rfl, rfl⟩, rfl, rfl⟩

/-- The requests of an address space at a bench. -/
def benchReqs (s : State) (b : Nat) (asid : BitVec 16) : List Req := s.flight.reqs.filter fun r => r.bench == b && r.key.asid == asid

/-- The bench's fault table without its entry for a page (R350, R351). -/
def forgets (s : State) (b : Nat) (asid : BitVec 16) (page : Nat) : Mmu :=
  { s.mmu with bench := s.mmu.bench.filter fun e => !(e.bench == b && e.asid == asid && e.page == page) }

theorem mem_forgets {s : State} {b : Nat} {asid : BitVec 16} {page : Nat} {e : BenchFault} :
    e ∈ (forgets s b asid page).bench ↔ e ∈ s.mmu.bench ∧ ¬ (e.bench = b ∧ e.asid = asid ∧ e.page = page) := by
  simp [forgets, imp_iff_not_or, or_assoc]

/-- A command of a bench that waits for the page goes on. -/
def wokenCmd (b : Nat) (asid : BitVec 16) (page : Nat) (c : Cmd) : Cmd :=
  if c.bench == b && c.key.asid == asid then wakeCmd page 0 c else c

/-- What the wake of a bench does to everything that a statement speaks of (R351). -/
structure BenchWoken (s s' : State) (asid : BitVec 16) (page b : Nat) : Prop where
  mem : s'.mem = s.mem
  mmu : s'.mmu = forgets s b asid page
  reqs : ∃ s1, s1.flight = s.flight ∧ s'.flight = (wakeReqs page (benchReqs s b asid) s1).flight
  cmds : ∃ l : List Cmd, s'.eng.cmds = l.map (wokenCmd b asid page)

/-- The state of a bench's wake before its requests: accesses from outside go on, and the entry is gone. -/
def wakeOpens (s : State) (asid : BitVec 16) (page b : Nat) : State :=
  onMmu (if b == 0 then wakeInbound s asid page 0 else s) fun x =>
    { x with bench := x.bench.filter fun e => !(e.bench == b && e.asid == asid && e.page == page) }

theorem benchWoken (s : State) (asid : BitVec 16) (page b : Nat) : BenchWoken s (wakeBench s asid page 0 b) asid page b := by
  have h0 : WakeRest s (if b == 0 then wakeInbound s asid page 0 else s) := by
    split
    · exact wakeRest_inbound s asid page
    · exact .refl s
  have hflight : (wakeOpens s asid page b).flight = s.flight := h0.flight
  have hreqs : benchReqs (wakeOpens s asid page b) b asid = benchReqs s b asid := by unfold benchReqs; rw [hflight]
  let s2 := wakeReqs page (benchReqs (wakeOpens s asid page b) b asid) (wakeOpens s asid page b)
  have h2 : WakeKeeps (wakeOpens s asid page b) s2 := wakeKeeps_foldl _ (fun s r => wakeReq_keeps s page r) _ _
  let s3 := (s2.threads.filter fun t => t.bench == b && t.key.asid == asid).foldl (fun s t => wakeThread s page 0 t) s2
  have h3 : WakeRest s2 s3 := wakeRest_foldl _ (fun s t => wakeRest_thread s page t) _ _
  let s4 : State := { s3 with eng := { s3.eng with cmds := s3.eng.cmds.map (wokenCmd b asid page) } }
  let qs := s4.queues.qs.filter fun q => queueBench q == b && q.asid == asid
  let ls := s4.queues.launches.filter fun l => qs.any fun q => q.fn == l.fn && q.qid == l.qid
  let s5 := qs.foldl (fun s q => wakeCancels (wakeQueue s page 0 q) page 0 q) s4
  have h5 : WakeRest s4 s5 :=
    wakeRest_foldl _ (fun s q => (wakeRest_queue s page q).trans (wakeRest_cancels _ page q)) _ _
  have h6 : WakeRest s5 (wakeBench s asid page 0 b) := wakeRest_foldl _ (fun s l => wakeRest_launch s page l) ls s5
  have h46 : WakeRest s4 (wakeBench s asid page 0 b) := h5.trans h6
  refine ⟨?_, ?_, ⟨wakeOpens s asid page b, hflight, ?_⟩, s3.eng.cmds, congrArg Engines.cmds h46.eng⟩
  · rw [h46.keeps.mem]
    exact h3.keeps.mem.trans (h2.mem.trans h0.keeps.mem)
  · rw [h46.keeps.mmu]
    refine h3.keeps.mmu.trans (h2.mmu.trans ?_)
    unfold wakeOpens forgets onMmu
    rw [h0.keeps.mmu]
  · rw [h46.flight]
    refine h3.flight.trans ?_
    show s2.flight = _
    rw [← hreqs]

/-! `WAKE` (R351). -/

theorem applyMaps_nil (s : State) : applyMaps s [] = s := rfl

/-- With no store of firmware no page moves. -/
theorem moveOf_nil (s : State) (asid : BitVec 16) (page : Nat) : moveOf s asid page [] = none := by
  unfold moveOf
  rw [applyMaps_nil]
  cases rawPage s asid page with
  | none => rfl
  | some x => simp

theorem mapPage_nil (s : State) (asid : BitVec 16) (page : Nat) : mapPage s asid page [] = s := by
  unfold mapPage
  rw [moveOf_nil, applyMaps_nil]
  dsimp only
  cases rawPage s asid page <;> rfl

theorem mapAsks_nil (s : State) (asid : BitVec 16) (page : Nat) : mapAsks s asid page [] = [] := by
  unfold mapAsks hostHeld
  rw [moveOf_nil]
  simp

theorem wakeDie_unknown {s : State} {asid : BitVec 16} {page d : Nat} (h : routerFind s d asid page = none) :
    wakeDie s asid page 0 d = s := by
  unfold wakeDie takePorts
  rw [h]
  rfl

/-- The package after a message has left the root core, answered (R351). -/
def answered (s : State) (m : FaultMsg) : State := onMmu s fun x => { x with inbox := x.inbox.erase m }

/-- `WAKE` of a message of one bench wakes that bench (R351). -/
theorem exec_wake_alone {s : State} {m : FaultMsg} {b : Nat}
    (hm : (s.mmu.inbox.find? fun x => x.asid == m.asid && x.page == m.page) = some m) (hb : m.src = some b)
    (hr : routerFind s (dieOf b) m.asid m.page = none) :
    exec (.wake m.asid m.page 0 []) s =
      .next (wakeBench (answered s m) m.asid m.page 0 b) := by
  have hkeep : routerFind (wakeBench (answered s m) m.asid m.page 0 b) (dieOf b)
      m.asid m.page = none := by
    unfold routerFind at hr ⊢
    rw [(benchWoken _ m.asid m.page b).mmu]
    exact hr
  show execWake m.asid m.page 0 [] s = _
  unfold execWake
  rw [hm]
  dsimp only
  rw [mapAsks_nil, mapPage_nil, hb]
  exact congrArg Host.Outcome.next (wakeDie_unknown hkeep)

theorem wokenCmd_noFault (b : Nat) (asid : BitVec 16) (page : Nat) (c : Cmd) :
    ¬ ((wokenCmd b asid page c).bench = b ∧ (wokenCmd b asid page c).key.asid = asid ∧
      (wokenCmd b asid page c).faultPage = some page) := by
  unfold wokenCmd wakeCmd
  rintro ⟨hb, ha, hp⟩
  split at hp
  · split at hp
    · cases hp
    · next h => exact h (beq_iff_eq.mpr hp)
  · next h =>
    rw [if_neg h] at hb ha
    exact h (by simp [hb, ha])

/-- A message that one bench sent alone is answered (R351). -/
theorem wake_alone {s : State} {m : FaultMsg} {b : Nat}
    (hm : (s.mmu.inbox.find? fun x => x.asid == m.asid && x.page == m.page) = some m) (hb : m.src = some b)
    (hr : routerFind s (dieOf b) m.asid m.page = none) :
    ∃ s', exec (.wake m.asid m.page 0 []) s = .next s' ∧ s'.mmu.inbox = s.mmu.inbox.erase m ∧ s'.mem = s.mem ∧
      (∀ e, e ∈ s'.mmu.bench ↔ e ∈ s.mmu.bench ∧ ¬ (e.bench = b ∧ e.asid = m.asid ∧ e.page = m.page)) ∧
      (∀ r, waitsFor s r b m.asid m.page →
        (∀ p, r.st = .fault p → findReq s' r.id = some { r with st := .pending }) ∧
        (∀ p, r.st = .side p → findReq s' r.id = some { r with st := .sideReplay }) ∧
        (∀ i p, r.st = .record i p → findReq s' r.id = some { r with st := .replay (some i) })) ∧
      (∀ r ∈ s.flight.reqs, (∀ q ∈ s.flight.reqs, q.id = r.id → q = r) →
        r.bench ≠ b ∨ r.key.asid ≠ m.asid ∨ r.fva.toNat / 4096 ≠ m.page → findReq s' r.id = some r) ∧
      (∀ c ∈ s'.eng.cmds, ¬ (c.bench = b ∧ c.key.asid = m.asid ∧ c.faultPage = some m.page)) := by
  have h := benchWoken (answered s m) m.asid m.page b
  obtain ⟨s1, hs1, hflight⟩ := h.reqs
  obtain ⟨l, hcmds⟩ := h.cmds
  have hfind : ∀ id, findReq (wakeBench (answered s m) m.asid m.page 0 b) id =
      findReq (wakeReqs m.page (benchReqs s b m.asid) s1) id := fun id => by
    unfold findReq
    rw [hflight]
    rfl
  have hstart : ∀ r ∈ s.flight.reqs, (∀ q ∈ s.flight.reqs, q.id = r.id → q = r) → findReq s1 r.id = some r := fun r hr hu => by
    have := findReq_of_mem hr hu
    unfold findReq at this ⊢
    rw [hs1]
    exact this
  have hmem : ∀ q ∈ benchReqs s b m.asid, q ∈ s.flight.reqs ∧ q.bench = b ∧ q.key.asid = m.asid := fun q hq => by
    simpa [benchReqs] using hq
  refine ⟨_, exec_wake_alone hm hb hr, by rw [h.mmu]; rfl, h.mem, fun e => ?_, fun r hw => ?_, fun r hrm hu hno => ?_, ?_⟩
  · rw [h.mmu]
    exact mem_forgets
  · obtain ⟨hrm, hu, hrb, hra, hrp⟩ := hw
    have hin : r ∈ benchReqs s b m.asid := by simp [benchReqs, hrm, hrb, hra]
    have hwoken : ∀ st, wokenSt r.st = some st →
        findReq (wakeBench (answered s m) m.asid m.page 0 b) r.id =
          some { r with st := st } := fun st hst => (hfind r.id).trans
      (findReq_wakeReqs_woken hst hrp (fun q hq => hu q (hmem q hq).1) (hstart r hrm hu) rfl (.inl hin))
    exact ⟨fun p hp => hwoken _ (by rw [hp]; rfl), fun p hp => hwoken _ (by rw [hp]; rfl),
      fun i p hp => hwoken _ (by rw [hp]; rfl)⟩
  · refine (hfind r.id).trans ((findReq_wakeReqs_same (fun q hq hid => ?_) s1).trans (hstart r hrm hu))
    obtain ⟨hqm, hqb, hqa⟩ := hmem q hq
    obtain rfl := hu q hqm hid
    exact (hno.resolve_left (· hqb)).resolve_left (· hqa)
  · rw [hcmds]
    intro c hc
    obtain ⟨d, -, rfl⟩ := List.mem_map.mp hc
    exact wokenCmd_noFault b m.asid m.page d

/-! Replays (R352, R353). -/

/-- A record that is cleared leaves no FATAL one where none was (R31). -/
theorem fatalRec_cleared {t : TrapLine} (h : fatalRec t = none) (i : BitVec 2) :
    fatalRec (setRec t i { getRec t i with valid := false }) = none := by
  unfold fatalRec at h ⊢
  rw [List.find?_eq_none] at h ⊢
  intro j hj
  have hold := h j hj
  rcases getRec_bounds i with rfl | rfl | rfl | rfl <;> rcases getRec_bounds j with rfl | rfl | rfl | rfl <;>
    simp_all [getRec, setRec]

/-- The thread's one record to replay for a page's fetch, which nothing keeps from ending (R352). -/
structure FetchReplays (s : State) (t : Thread) (r : Req) (i : BitVec 2) : Prop where
  thread : findThread s t.key = some t
  cl1 : inCl1 t = true
  pend : t.pend = none
  frz : t.ctx.frz = false
  cancel : t.cancel = false
  sane : fatalRec t.trap = none
  wait : t.wait = .fetch
  listed : r ∈ s.flight.reqs
  key : r.key = t.key
  op : r.op = .fetch
  state : r.st = .replay (some i)
  alone : ∀ q ∈ s.flight.reqs, q.key = t.key →
    isUnrecorded q = false ∧ (q = r ∨ (q.st ≠ .replay (some i) ∧ ∀ j st, q.st ≠ .ended j st))

/-- A request that a replay of a record of a thread may be of: the record's own, or one that ended (R352). -/
def replayable (k : Key) (i : BitVec 2) (r : Req) : Bool :=
  r.key == k && (r.st == .replay (some i) || match r.st with
    | .ended j _ => j == none || j == some i
    | _ => false)

theorem find?_replayable {s : State} {r : Req} {i : BitVec 2} (hm : r ∈ s.flight.reqs) (hst : r.st = .replay (some i))
    (h : ∀ q ∈ s.flight.reqs, q.key = r.key → q = r ∨ (q.st ≠ .replay (some i) ∧ ∀ j st, q.st ≠ .ended j st)) :
    s.flight.reqs.find? (replayable r.key i) = some r := by
  have hr : replayable r.key i r = true := by simp [replayable, hst]
  cases hf : s.flight.reqs.find? (replayable r.key i) with
  | none => exact absurd hr (List.find?_eq_none.mp hf r hm)
  | some q =>
    have hq := List.find?_some hf
    unfold replayable at hq
    obtain ⟨hk, hq⟩ := Bool.and_eq_true_iff.mp hq
    refine congrArg some ((h q (List.mem_of_find?_eq_some hf) (beq_iff_eq.mp hk)).resolve_right fun ⟨hn, he⟩ => ?_)
    rcases Bool.or_eq_true_iff.mp hq with hq | hq
    · exact hn (beq_iff_eq.mp hq)
    · cases hqs : q.st with
      | ended j st => exact he j st hqs
      | _ => rw [hqs] at hq; cases hq

/-- What `RETRY_RECORD_REPLAY` does with the request that it finds (R352). -/
theorem exec_retryRecordReplay {s : State} {r : Req} {i : BitVec 2} (hf : s.flight.reqs.find? (replayable r.key i) = some r)
    (hst : r.st = .replay (some i)) (hline : ((findThread s r.key).all fun t => r.op != .fetch || !isMoving t) = true) :
    exec (.retryRecordReplay r.key i) s =
      if r.op = .fetch then .next (endFetch s r (some i) 0)
      else if canPerform s r then sentOut (replayReq s r) else .next s := by
  show execRetryRecordReplay r.key i s = _
  unfold execRetryRecordReplay
  show (match s.flight.reqs.find? (replayable r.key i) with | none => _ | some r => _) = _
  rw [hf]
  dsimp only
  rw [hline, hst]
  cases r.op <;> rfl

/-- The line after its fetch goes on (R352). -/
def fetchEnded (t : Thread) (i : BitVec 2) : Thread :=
  { t with wait := .run, ctx := decOutst t.ctx, trap := setRec t.trap i { getRec t.trap i with valid := false } }

/-- The state in which a fetch's request is gone and its thread runs again (R352). -/
def fetchOver (s : State) (t : Thread) (r : Req) : State :=
  onThread (dropReq s r.id) t.key fun t => { t with wait := if t.wait == .fetch then .run else t.wait }

section fetch
variable {s : State} {t : Thread} {r : Req} {i : BitVec 2} (h : FetchReplays s t r i)
include h

theorem isMoving_of_fetchReplays : isMoving t = false := by
  obtain ⟨u, hl⟩ := inCl1_loc h.cl1
  simp [isMoving, hl]

theorem findThread_fetchOver : findThread (fetchOver s t r) t.key = some { t with wait := .run } := by
  unfold fetchOver
  rw [findThread_onThread _ _ _ (by exact fun _ hk => hk)]
  show (findThread s t.key).map _ = _
  rw [h.thread, Option.map_some, h.wait]
  rfl

/-- A fetch's record ends: the line is settled without it (R352). -/
theorem endFetch_settles : endFetch s r (some i) 0 = settle (setThread (fetchOver s t r) (fetchEnded t i)) t.key := by
  have hfind := findThread_fetchOver h
  have hm : isMoving { t with wait := Wait.run } = false := isMoving_of_fetchReplays (t := t) h
  unfold fetchOver at hfind
  unfold endFetch deliver
  simp only [h.key, hfind, hm, Bool.false_eq_true, if_false, beq_self_eq_true, if_true]
  rfl

theorem exec_fetchReplay : exec (.retryRecordReplay t.key i) s = .next (endFetch s r (some i) 0) := by
  have hfound := find?_replayable h.listed h.state fun q hq hk => (h.alone q hq (hk.trans h.key)).2
  have hline : ((findThread s r.key).all fun t => r.op != .fetch || !isMoving t) = true := by
    rw [h.key, h.thread]
    simp [isMoving_of_fetchReplays h]
  rw [← h.key, exec_retryRecordReplay hfound h.state hline, if_pos h.op]

/-- A fetch's record clears, the count goes down and the thread runs (R352). -/
theorem fetchReplay_runs :
    ∃ s' x, exec (.retryRecordReplay t.key i) s = .next s' ∧ findThread s' t.key = some x ∧ x.wait = .run ∧
      x.ctx = { decOutst t.ctx with wkind := 0 } ∧ x.trap = setRec t.trap i { getRec t.trap i with valid := false } ∧
      findReq s' r.id = none ∧ s'.mem = s.mem := by
  have hfind : findThread (setThread (fetchOver s t r) (fetchEnded t i)) (fetchEnded t i).key = some (fetchEnded t i) := by
    rw [findThread_setThread]
    show (findThread (fetchOver s t r) t.key).map _ = _
    rw [findThread_fetchOver h]
    rfl
  obtain ⟨⟨x, hx, hxe, hw⟩, -, hrest, -⟩ := settle_line _ (fetchEnded t i) hfind h.cl1 h.pend (fatalRec_cleared h.sane i) h.frz
    h.cancel fun q hq hk => (h.alone q (List.mem_filter.mp hq).1 hk).1
  have hunpark : unpark (fetchEnded t i) = fetchEnded t i := by
    unfold unpark
    split <;> rfl
  rw [hunpark] at hxe
  have hxw : x.wait = .run := by rw [hxe]; rfl
  have hwk : x.ctx.wkind = 0 := hw hxw
  rw [exec_fetchReplay h, endFetch_settles h]
  refine ⟨_, x, rfl, hx, hxw, ?_, by rw [hxe]; rfl, ?_, hrest.mem⟩
  · rw [← hwk, hxe]
    rfl
  · exact (congrArg (fun f : Flight => f.reqs.find? fun q : Req => q.id == r.id) hrest.flight).trans (findReq_drop s r.id)

end fetch

/-- A request that is tried again, with a fresh walk. -/
def retried (r : Req) : Req := { r with st := .pending, pa := none }

/-- The accesses that their replay performs as any such access is, with a fresh walk: all but a `HOLD` for a grant, a `BAR` and a
synchronising access, whose own steps come after their walk (R352). -/
def performsAgain (o : ReqOp) : Prop := o ≠ .hold true ∧ o ≠ .bar ∧ isSync o = false

theorem replayReq_performs {s : State} {r : Req} (h : performsAgain r.op) :
    replayReq s r = performReq (putReq s (retried r)) (retried r) := by
  obtain ⟨hhold, hbar, hsync⟩ := h
  unfold replayReq
  split
  · next e => exact absurd e hhold
  · next e => exact absurd e hbar
  · exact if_neg (by rw [hsync]; exact Bool.false_ne_true)

theorem performsAgain_result {o : ReqOp} (h : isResultOp o = true) : performsAgain o := by
  refine ⟨fun e => ?_, fun e => ?_, ?_⟩
  · subst e
    cases h
  · subst e
    cases h
  · cases o <;> first | rfl | cases h

/-- A data access's record is replayed as its result is delivered: it is tried again with a fresh walk (R352). -/
theorem dataReplay_delivers {s : State} {r : Req} {i : BitVec 2} (hl : findReq s r.id = some r)
    (halone : ∀ q ∈ s.flight.reqs, q.key = r.key → q = r ∨ (q.st ≠ .replay (some i) ∧ ∀ j st, q.st ≠ .ended j st))
    (hord : canPerform s r = true) (hst : r.st = .replay (some i)) (hop : isResultOp r.op = true) :
    exec (.retryRecordReplay r.key i) s = exec (.deliverResult r.id) (putReq s { r with st := .pending, pa := none }) := by
  have hnf : r.op ≠ .fetch := fun h => by rw [h] at hop; cases hop
  have hline : ((findThread s r.key).all fun t => r.op != .fetch || !isMoving t) = true := by
    cases findThread s r.key with
    | none => rfl
    | some t => simp [hnf]
  have hfound : findReq (putReq s (retried r)) r.id = some (retried r) := findReq_putReq hl rfl
  rw [exec_retryRecordReplay (find?_replayable (List.mem_of_find?_eq_some hl) hst halone) hst hline, if_neg hnf,
    if_pos hord, replayReq_performs (performsAgain_result hop)]
  show _ = execDeliverResult r.id (putReq s (retried r))
  unfold execDeliverResult
  rw [hfound]
  exact (if_pos hop).symm

/-! The replay of a side-log store (R352, R353). -/

theorem putReq_putReq (s : State) {r q : Req} (h : r.id = q.id) : putReq (putReq s r) q = putReq s q := by
  unfold putReq
  dsimp only
  congr 2
  rw [h]
  induction s.flight.reqs with
  | nil => rfl
  | cons x l ih => by_cases hx : x.id = q.id <;> simp [modifyFirst, hx, h, ih]

/-- A request that is tried again, located. -/
def retriedAt (r : Req) (a : Nat) : Req := { r with st := .pending, pa := some (.dev a) }

theorem holdsBack_retried {e r : Req} (h : holdsBack e (retried r) = true) : holdsBack e r = true := by
  have hover : overlaps e (retried r) = true → overlaps e r = true := fun ho => by
    have hplace : samePlace e (retried r) = false := by
      unfold samePlace
      cases e.pa <;> rfl
    unfold overlaps at ho ⊢
    rw [hplace, Bool.false_or] at ho
    obtain ⟨ht, hb⟩ := Bool.and_eq_true_iff.mp ho
    exact Bool.and_eq_true_iff.mpr ⟨ht, Bool.or_eq_true_iff.mpr (.inr hb)⟩
  unfold holdsBack at h ⊢
  simp only [Bool.or_eq_true] at h ⊢
  exact h.imp_left (.imp_left (.imp_left (.imp_left (.imp_left hover))))

/-- What kept no order rule of a request waiting keeps none when it is tried again with a fresh walk (R173). -/
theorem canPerform_retried {s : State} {r : Req} (hk : r.key.ctx ≠ 0) (h : canPerform s r = true) :
    canPerform (putReq s (retried r)) (retried r) = true := by
  have hctx : (r.key.ctx == 0) = false := beq_false_of_ne hk
  unfold canPerform at h ⊢
  show (isDep r.op || (r.key.ctx == 0 && _) || (r.key.ctx != 0 && !_)) = true
  simp only [hctx, bne, Bool.false_and, Bool.or_false, Bool.not_false, Bool.true_and, Bool.or_eq_true, Bool.not_eq_true'] at h ⊢
  refine h.imp_right fun hno => ?_
  rw [List.any_eq_false] at hno ⊢
  intro e he hback
  rw [Bool.and_eq_true, Bool.and_eq_true] at hback
  obtain ⟨⟨hek, hei⟩, hb⟩ := hback
  rcases mem_modifyFirst he with hold | ⟨_, rfl⟩
  · exact hno e hold (Bool.and_eq_true_iff.mpr ⟨Bool.and_eq_true_iff.mpr ⟨hek, hei⟩, holdsBack_retried hb⟩)
  · exact Nat.lt_irrefl _ (of_decide_eq_true hei)

/-- The state in which a replayed store is located: translated, and its request tried again (R353). -/
def relocated (s s1 : State) (r : Req) (a : Nat) : State := { s1 with flight := (putReq s (retriedAt r a)).flight }

/-- The fresh walk of a replayed store (R352, R353). -/
theorem resolve_retried {s s1 : State} {r : Req} {a : Nat} (hk : r.key.ctx ≠ 0) (hop : r.op = .st)
    (htr : translate s (.data r.bench r.iu) r.key.asid (wantOf r.op r.sup) r.va = .ok (.dev a) s1) :
    resolve (putReq s (retried r)) (retried r) = .ok (relocated s s1 r a) := by
  have haround : putReq s (retried r) = around s.run s.threads (putReq s (retried r)).flight s.eng s.queues s := rfl
  have hctx : ((retried r).key.ctx == 0) = false := beq_false_of_ne hk
  have hwalk : translate s (.data (retried r).bench (retried r).iu) (retried r).key.asid (wantOf (retried r).op (retried r).sup)
      (retried r).va = .ok (.dev a) s1 := htr
  have hload : onlyLoads (retried r) (.dev a) = retried r := by
    unfold onlyLoads
    rw [show (retried r).op = .st from hop]
    rfl
  have hkeep := (translate_keeps htr).eq
  have hlocated : around s.run s.threads (putReq s (retried r)).flight s.eng s.queues s1 =
      { s1 with flight := (putReq s (retried r)).flight } := by
    rw [hkeep]
    rfl
  unfold resolve
  rw [haround]
  simp only [hctx, Bool.false_eq_true, if_false, translate_around, hwalk, onTrans, hload, hlocated]
  refine congrArg Sent.ok ?_
  have hput : (putReq (putReq s (retried r)) (retriedAt r a)).flight = (putReq s (retriedAt r a)).flight :=
    congrArg State.flight (putReq_putReq s (r := retried r) (q := retriedAt r a) rfl)
  exact congrArg (fun f : Flight => { s1 with flight := f }) hput

/-- The replay of a side-log store is the store, performed where the walk found it (R353). -/
theorem sideLogReplay_stores {s s1 : State} {t : Thread} {r : Req} {a : Nat} (h : Replayable s s1 t r a) (hop : r.op = .st) :
    exec (.sideLogReplay r.id) s = exec (.storePerform r.id) (relocated s s1 r a) := by
  have hplain : Plain (relocated s s1 r a) t (retriedAt r a) a := h.plain
  have hstored : exec (.storePerform r.id) (relocated s s1 r a) = .next (attemptAt (relocated s s1 r a) (retriedAt r a) (.dev a)) :=
    storePerform_attempt (r := retriedAt r a) hplain.listed hplain.may rfl (.inl hop)
  have hpkg : s1.pkg = s.pkg := by rw [(translate_keeps h.place).eq]
  have hup : running s = true ∧ dieUp s r.bench = true := by
    have hmay : mayPerform (relocated s s1 r a) (retriedAt r a) = true := hplain.may
    have hctx : ((retriedAt r a).key.ctx == 0) = false := beq_false_of_ne h.key
    simp only [mayPerform, running, dieUp, relocated, hpkg, hctx, Bool.and_eq_true, Bool.false_or] at hmay ⊢
    exact ⟨hmay.1.2, hmay.2⟩
  have hmay : mayPerform (putReq s (retried r)) (retried r) = true := by
    unfold mayPerform
    rw [canPerform_retried h.key h.order]
    show (running s && (_ || dieUp s r.bench)) = true
    rw [hup.1, hup.2, Bool.or_true]
    rfl
  have hattempt : attempt (putReq s (retried r)) (retried r) = .ok (attemptAt (relocated s s1 r a) (retriedAt r a) (.dev a)) := by
    have htry : (triable (retried r) && canPerform (putReq s (retried r)) (retried r)) = true :=
      canPerform_retried h.key h.order
    have hfound : findReq (relocated s s1 r a) (retried r).id = some (retriedAt r a) := hplain.listed
    unfold attempt
    rw [htry]
    simp only [Bool.not_true, Bool.false_eq_true, if_false, resolve_retried h.key hop h.place, hfound]
    rfl
  have hreplay : replayReq s r = performReq (putReq s (retried r)) (retried r) :=
    replayReq_performs (hop ▸ ⟨nofun, nofun, rfl⟩)
  have hperform : performReq (putReq s (retried r)) (retried r) = attempt (putReq s (retried r)) (retried r) := by
    unfold performReq
    rw [hmay, show (retried r).op = .st from hop]
    rfl
  rw [hstored]
  show execSideLogReplay r.id s = _
  unfold execSideLogReplay
  rw [h.listed]
  dsimp only
  rw [h.state, h.order, hreplay, hperform, hattempt]
  rfl

/-- A replayed store writes its bytes at once, or its first half (R175, R352, R353). -/
theorem sideLogReplay_writes {s s1 : State} {t : Thread} {r : Req} {a : Nat} (h : Replayable s s1 t r a) (hop : r.op = .st)
    (hhalf : r.half = none) :
    (splits r (.dev a) = false →
      ∃ s', exec (.sideLogReplay r.id) s = .next s' ∧ s'.mem = physWrite s1.mem (.dev a) r.n r.dat ∧ s'.threads = s.threads ∧
        findReq s' r.id = none) ∧
    (splits r (.dev a) = true →
      ∃ s' i q, exec (.sideLogReplay r.id) s = .next s' ∧ i < 2 ∧ s'.threads = s.threads ∧
        s'.mem = physWrite s1.mem (.dev (a + 8 * i)) 8 (r.dat >>> (64 * i)) ∧ findReq s' r.id = some q ∧ q.half = some (i, 0) ∧
        q.st = .pending ∧ q.pa = some (.dev a)) := by
  have hthreads : (relocated s s1 r a).threads = s.threads := by
    show s1.threads = _
    rw [(translate_keeps h.place).eq]
  have hplain : Plain (relocated s s1 r a) t (retriedAt r a) a := h.plain
  rw [sideLogReplay_stores h hop]
  constructor
  · intro hs
    obtain ⟨s', he, hends⟩ := store_whole hplain hop hs
    exact ⟨s', he, hends.mem, hends.threads.trans hthreads, hends.gone⟩
  · intro hs
    obtain ⟨i, hi, s', he, hth, -, hm, hl⟩ := store_firstHalf hplain hop hs hhalf
    exact ⟨s', i, _, he, hi, hth.trans hthreads, hm, hl, rfl, rfl, rfl⟩

/-- Settles O36, one rule an event: a message goes by what the two routers do with it; a wake goes through the requests of its
bench one by one; a replay ends a fetch, or performs the access anew from a fresh walk. -/
theorem faultEvents : Obligations.FaultEvents := by
  unfold Obligations.FaultEvents
  refine ⟨fun s e hl hs hb => ⟨?_, ?_, ?_⟩, fun s m b => wake_alone, ?_, ?_, ?_⟩
  · exact faultMessage_climbs ⟨hl, hs⟩ hb
  · exact fun x => faultMessage_joins ⟨hl, hs⟩
  · exact faultMessage_alone ⟨hl, hs⟩
  · intro s t r i h1 h2 h3 h4 h5 h6 h7 h8 h9 h10 h11 h12
    exact fetchReplay_runs ⟨h1, h2, h3, h4, h5, h6, h7, h8, h9, h10, h11, h12⟩
  · exact fun s r i => dataReplay_delivers
  · exact fun s s1 t r a h hop hhalf _ => sideLogReplay_writes h hop hhalf

end Sys2Proof.Machine
end

section
/-! The host's reads, writes and AtomicOps on device memory (12_caches_coherence_host R301, R302, R308 to R310, R312). -/

namespace Sys2Proof.Machine
open Sys2Proof.Forms Sys2Proof.Spec

/-! The exchanges with the host are no work of the caches (R309). -/

/-- The exchanges with the host are as they were. -/
def SameBisnp (s s' : State) : Prop := s'.cache.bisnp = s.cache.bisnp

theorem SameBisnp.trans {a b c : State} (h : SameBisnp a b) (g : SameBisnp b c) : SameBisnp a c := Eq.trans g h

theorem sameBisnp_foldl {α : Type} (f : State → α → State) (h : ∀ s x, SameBisnp s (f s x)) (l : List α) (s : State) :
    SameBisnp s (l.foldl f s) :=
  List.foldlRecOn (motive := SameBisnp s) l f rfl fun s1 h1 x _ => h1.trans (h s1 x)

theorem sameBisnp_tellEvict (s : State) (p : Phys) (x : L2State) : SameBisnp s (tellEvict s p x) := by
  unfold tellEvict
  split
  · rfl
  · split <;> rfl

theorem sameBisnp_llcDrop (s : State) (p : Phys) : SameBisnp s (llcDrop s p) := by
  unfold llcDrop
  exact SameBisnp.trans (b := { s with cache := { s.cache with llc := _, l2 := _ } }) rfl (sameBisnp_tellEvict _ _ _)

theorem sameBisnp_llcRoom (s : State) (p : Phys) : SameBisnp s (llcRoom s p) := by
  unfold llcRoom
  dsimp only
  split
  · rfl
  · split
    · exact SameBisnp.trans (b := { s with run := _ }) rfl (sameBisnp_llcDrop _ _)
    · rfl

theorem sameBisnp_llcPut (s : State) (a : Nat) (d : Bool) : SameBisnp s (llcPut s a d) := by
  unfold llcPut
  dsimp only
  split
  · rfl
  · exact sameBisnp_llcRoom s (.dev a)

theorem sameBisnp_mergeLine (s : State) (p : Phys) : SameBisnp s (mergeLine s p) := by
  unfold mergeLine
  dsimp only
  split <;> rfl

theorem sameBisnp_dirRecall (s : State) (e : DirEnt) : SameBisnp s (dirRecall s e) := by
  unfold dirRecall
  dsimp only
  refine SameBisnp.trans (sameBisnp_foldl _ ?_ _ s) (SameBisnp.trans (sameBisnp_foldl _ ?_ _ _) rfl)
  · intro s l
    split
    · exact sameBisnp_mergeLine s l
    · rfl
  · intro s x
    split
    · exact SameBisnp.trans (b := l2Drop s x.bench x.line) rfl (sameBisnp_llcPut _ _ _)
    · rfl

theorem sameBisnp_dirRoom (a n : Nat) (s : State) : SameBisnp s (dirRoom a n s) := by
  induction n generalizing s with
  | zero => rfl
  | succ n ih =>
    unfold dirRoom
    split
    · exact (sameBisnp_dirRecall _ _).trans (ih _)
    · rfl

theorem sameBisnp_l2DropOthers (s : State) (b : Option Nat) (p : Phys) : SameBisnp s (l2DropOthers s b p) :=
  sameBisnp_foldl (fun s c => l2Drop s c p) (fun _ _ => rfl) _ s

theorem sameBisnp_dirNote (s : State) (a : Nat) (o : Option DirKind) : SameBisnp s (dirNote s a o) := by
  unfold dirNote
  split <;> rfl

theorem sameBisnp_takeAll (s : State) (a : Nat) : SameBisnp s (takeAll s a) :=
  (((sameBisnp_dirRoom (lineAddr a) 16 s).trans (sameBisnp_mergeLine _ (.dev (lineAddr a)))).trans
    (sameBisnp_l2DropOthers _ none _)).trans ((sameBisnp_dirNote _ _ _).trans (sameBisnp_llcPut _ _ _))

theorem hostBytes_eq (s : State) (pa : Nat) : hostBytes s pa = readBytes s.mem.dev (pa / 64 * 64) 64 := rfl

/-! What a host request leaves as it was, besides what it is about (R308). -/

/-- Threads, requests, engines, address spaces and the exchanges with the host are as they were, and the host has been told of
evictions at most. -/
structure HostWork (s s' : State) : Prop where
  threads : s'.threads = s.threads
  reqs : s'.flight.reqs = s.flight.reqs
  waiters : s'.flight.waiters = s.flight.waiters
  eng : s'.eng = s.eng
  spaces : s'.spaces = s.spaces
  tells : OnlyEvicts s s'
  bisnp : SameBisnp s s'

theorem HostWork.trans {a b c : State} (h : HostWork a b) (g : HostWork b c) : HostWork a c :=
  ⟨g.threads.trans h.threads, g.reqs.trans h.reqs, g.waiters.trans h.waiters, g.eng.trans h.eng, g.spaces.trans h.spaces,
    h.tells.trans g.tells, h.bisnp.trans g.bisnp⟩

theorem hostWork_of_caches {s s' : State} (h : CacheWork s s') (ht : OnlyEvicts s s') (hb : SameBisnp s s') : HostWork s s' :=
  ⟨h.threads, congrArg Flight.reqs h.flight, congrArg Flight.waiters h.flight, h.eng, h.spaces, ht, hb⟩

theorem hostWork_leaveTurns (s : State) (i : Instr) : HostWork s (leaveTurns s (some (.outside i))) :=
  ⟨rfl, rfl, rfl, rfl, rfl, onlyEvicts_of_fw rfl, rfl⟩

theorem hostWork_dropStale (s : State) : HostWork s (dropStale s) := ⟨rfl, rfl, rfl, rfl, rfl, onlyEvicts_of_fw rfl, rfl⟩

theorem hostWork_takeAll (s : State) (a : Nat) : HostWork s (takeAll s a) :=
  hostWork_of_caches (obtain_work _ _ _ _) (onlyEvicts_takeAll s a) (sameBisnp_takeAll s a)

theorem hostWork_hostTakes (s : State) (a : Nat) (h : Option HostSt) : HostWork s (hostTakes s a h) :=
  ⟨rfl, rfl, rfl, rfl, rfl, onlyEvicts_of_fw rfl, rfl⟩

theorem hostWork_putMasked (s : State) (base : Nat) (d : BitVec 512) (m : BitVec 64) : HostWork s (putMasked s base d m) :=
  ⟨rfl, rfl, rfl, rfl, rfl, onlyEvicts_of_fw rfl, rfl⟩

/-- The owners' copies of a line, shared (R308). -/
def sharedCopies (s : State) (line : Phys) : State :=
  { s with cache := { s.cache with l2 := s.cache.l2.map fun x => if x.line == line then { x with st := .s } else x } }

theorem cacheWork_sharedCopies (s : State) (line : Phys) : CacheWork s (sharedCopies s line) :=
  ⟨rfl, rfl, rfl, rfl, rfl, rfl, rfl, rfl, fun h => ⟨rfl, h⟩⟩

theorem shareAll_eq (s : State) (a : Nat) :
    ∃ d, shareAll s a =
      llcPut (sharedCopies (mergeLine (dirRoom (lineAddr a) 16 s) (.dev (lineAddr a))) (.dev (lineAddr a))) (lineAddr a) d :=
  ⟨_, rfl⟩

theorem cacheWork_shareAll (s : State) (a : Nat) : CacheWork s (shareAll s a) := by
  obtain ⟨d, h⟩ := shareAll_eq s a
  rw [h]
  exact ((cacheWork_dirRoom _ 16 s).trans (cacheWork_mergeLine _ _)).trans
    ((cacheWork_sharedCopies _ _).trans (cacheWork_llcPut _ _ _))

theorem hostWork_shareAll (s : State) (a : Nat) : HostWork s (shareAll s a) := by
  refine hostWork_of_caches (cacheWork_shareAll s a) ?_ ?_ <;> obtain ⟨d, h⟩ := shareAll_eq s a <;> rw [h]
  · exact ((onlyEvicts_dirRoom _ 16 s).trans (onlyEvicts_of_fw (mergeLine_fw _ (.dev (lineAddr a))))).trans
      ((onlyEvicts_of_fw rfl).trans (onlyEvicts_llcPut (sharedCopies _ _) _ _))
  · exact ((sameBisnp_dirRoom _ 16 s).trans (sameBisnp_mergeLine _ (.dev (lineAddr a)))).trans (sameBisnp_llcPut (sharedCopies _ _) _ _)

theorem takeAll_mem {s : State} (h : s.cache.dsums = []) (a : Nat) : (takeAll s a).mem = s.mem := ((obtain_work s _ _ _).mem h).1

theorem shareAll_mem {s : State} (h : s.cache.dsums = []) (a : Nat) : (shareAll s a).mem = s.mem := ((cacheWork_shareAll s a).mem h).1

theorem mergedAt_none {s : State} (h : s.cache.dsums = []) (a : Nat) : mergedAt s a = s := by
  unfold mergedAt
  rw [h]
  rfl

/-! The host's state of a line (R307). -/

theorem hostStOf_hostTakes (s : State) {a b : Nat} (hab : a / 128 * 128 = b / 128 * 128) (h : Option HostSt) :
    hostStOf (hostTakes s a h) b = h := by
  have hrest : (s.cache.hostState.filter fun x => x.1 != a / 128 * 128).find? (fun x => x.1 == a / 128 * 128) = none := by
    rw [List.find?_filter, List.find?_eq_none]
    simp
  show (((setHostSt s a h).cache.hostState.find? fun x => x.1 == b / 128 * 128)).map (·.2) = h
  rw [← hab]
  cases h with
  | none =>
    show ((s.cache.hostState.filter fun x => x.1 != a / 128 * 128).find? _).map _ = none
    rw [hrest]
    rfl
  | some x =>
    show ((s.cache.hostState.filter (fun x => x.1 != a / 128 * 128) ++ [(a / 128 * 128, x)]).find? _).map _ = some x
    rw [List.find?_append, hrest]
    simp

/-! A host request is served (R302, R308 to R310). -/

theorem hostServe_open {s : State} {pa : Nat} (h : HostFree s pa) (i : Instr) {f : State → State}
    (hf : SameBisnp s (f (leaveTurns s (some (.outside i))))) : hostServe s i pa f = .next (f (leaveTurns s (some (.outside i)))) := by
  have hno : ∀ p : Bisnp → Bool, (s.cache.bisnp.any fun x => x.line == lineAddr pa && p x) = false := fun p =>
    List.any_eq_false.mpr fun x hx => by simp [h.bisnp x hx]
  have hexch : exchanging s pa = false := hno fun x => !x.repeated
  have hconf : conflicting s pa = false := hno fun x => x.repeated
  have hrepeat : repeatBisnp (f (leaveTurns s (some (.outside i)))) pa = f (leaveTurns s (some (.outside i))) := by
    have hnone : (s.cache.bisnp.find? fun x => x.line == lineAddr pa && x.repeated) = none :=
      List.find?_eq_none.mpr fun x hx => by simp [h.bisnp x hx]
    unfold repeatBisnp
    rw [show (f (leaveTurns s (some (.outside i)))).cache.bisnp = s.cache.bisnp from hf, hnone]
  have hin : decide (Config.hbmBytes ≤ pa) = false := decide_eq_false (Nat.not_le.mpr h.inside)
  have hgate : ((lineHold s (.dev (lineAddr pa))).isSome || exchanging s pa ||
      (!conflicting s pa && turnOver s (.dev (lineAddr pa)) (some (.outside i)))) = false := by
    rw [h.hold, hexch, hconf, turnOver_of_noneWaits h.turn]
    rfl
  unfold hostServe
  simp only [h.run, hin, hgate, h.room, hrepeat, Bool.not_true, Bool.false_eq_true, if_false]

/-- What is told to the host, in order. -/
def told (s : State) (os : List Out) : State := { s with fw := { s.fw with out := s.fw.out ++ os } }

theorem emit_eq_told (s : State) (o : Out) : emit s o = told s [o] := rfl

theorem emit_emit (s : State) (o p : Out) : emit (emit s o) p = told s [o, p] := by
  unfold emit told
  simp only [List.append_assoc, List.cons_append, List.nil_append]

/-- The work of a host request at home, and its answer: the state `h` that the host holds the line in, the messages `os`, and
memory `m` (R308). -/
structure Answers (s s' : State) (pa : Nat) (h : Option HostSt) (os : List Out) (m : Mem) : Prop where
  work : ∃ s1, HostWork s s1 ∧ s' = told s1 os
  host : hostStOf s' pa = h
  mem : s'.mem = m

theorem answers_told {s s1 : State} {pa : Nat} {h : Option HostSt} {os : List Out} {m : Mem} (hw : HostWork s s1)
    (hh : hostStOf s1 pa = h) (hm : s1.mem = m) : Answers s (told s1 os) pa h os m := ⟨⟨s1, hw, rfl⟩, hh, hm⟩

theorem Answers.served {s s' : State} {pa : Nat} {h : Option HostSt} {os : List Out} {m : Mem} (ha : Answers s s' pa h os m) :
    Served s s' pa h os := by
  obtain ⟨s1, hw, rfl⟩ := ha.work
  obtain ⟨l, hl, hout⟩ := hw.tells
  refine ⟨⟨l, hl, ?_⟩, ha.host, hw.threads, hw.reqs, hw.waiters, hw.eng, hw.spaces⟩
  show s1.fw.out ++ os = _
  rw [hout]

theorem Answers.bisnp {s s' : State} {pa : Nat} {h : Option HostSt} {os : List Out} {m : Mem} (ha : Answers s s' pa h os m) :
    SameBisnp s s' := by
  obtain ⟨s1, hw, rfl⟩ := ha.work
  exact hw.bisnp

/-- Leaving the queue of its line is part of the work of a host request. -/
theorem Answers.afterTurns {s s' : State} {i : Instr} {pa : Nat} {h : Option HostSt} {os : List Out} {m : Mem}
    (ha : Answers (leaveTurns s (some (.outside i))) s' pa h os m) : Answers s s' pa h os m := by
  obtain ⟨s1, hw, he⟩ := ha.work
  exact ⟨⟨s1, (hostWork_leaveTurns s i).trans hw, he⟩, ha.host, ha.mem⟩

/-- A host request whose line is free is answered (R302, R308). -/
theorem hostServe_answers {s : State} {i : Instr} {pa : Nat} {f : State → State} {h : Option HostSt} {os : List Out} {m : Mem}
    (hfree : HostFree s pa) (ha : Answers (leaveTurns s (some (.outside i))) (f (leaveTurns s (some (.outside i)))) pa h os m) :
    ∃ s', hostServe s i pa f = .next s' ∧ s'.mem = m ∧ Served s s' pa h os :=
  ⟨_, hostServe_open hfree i ha.afterTurns.bisnp, ha.mem, ha.afterTurns.served⟩

/-- The lines that the host never caches do not depend on who waits for a turn (R310). -/
theorem neverCached_leaveTurns (s : State) (i : Instr) (a : Nat) :
    neverCached (leaveTurns s (some (.outside i))) a = neverCached s a := by
  have htoken : ∀ b asid sup tok, tokenAtLine (leaveTurns s (some (.outside i))) a b asid sup tok = tokenAtLine s a b asid sup tok := by
    intro b asid sup tok
    have haround : leaveTurns s (some (.outside i)) =
        around s.run s.threads (leaveTurns s (some (.outside i))).flight s.eng s.queues s := rfl
    unfold tokenAtLine
    rw [haround, translate_around]
    cases translate s (.bench b) asid { sup := sup } tok with
    | ok p _ => cases p <;> rfl
    | _ => rfl
  unfold neverCached
  simp only [htoken]
  rfl

section answers
variable {s : State} (hd : s.cache.dsums = []) (pa : Nat)
include hd

theorem readNoOp_answers :
    Answers s (readNoOp s pa) pa (hostStOf s pa) [.data (pa / 64 * 64) (readBytes s.mem.dev (pa / 64 * 64) 64)] s.mem := by
  have hwork : HostWork s s := ⟨rfl, rfl, rfl, rfl, rfl, onlyEvicts_of_fw rfl, rfl⟩
  have he : readNoOp s pa = told s [.data (pa / 64 * 64) (readBytes s.mem.dev (pa / 64 * 64) 64)] := by
    unfold readNoOp
    rw [mergedAt_none hd]
    rfl
  exact he ▸ answers_told hwork rfl rfl

theorem readShared_answers (hn : neverCached s pa = false) : Answers s (readShared s pa) pa (some .hs)
    [.cmpS (pa / 64 * 64), .data (pa / 64 * 64) (readBytes s.mem.dev (pa / 64 * 64) 64)] s.mem := by
  have hm := (hostTakes_mem (shareAll s pa) pa (some .hs)).trans (shareAll_mem hd pa)
  have he : readShared s pa = told (hostTakes (shareAll s pa) pa (some .hs))
      [.cmpS (pa / 64 * 64), .data (pa / 64 * 64) (readBytes s.mem.dev (pa / 64 * 64) 64)] := by
    unfold readShared
    simp only [hn, Bool.false_eq_true, if_false, hostBytes_eq, hm, emit_emit]
  exact he ▸ answers_told ((hostWork_shareAll s pa).trans (hostWork_hostTakes _ _ _)) (hostStOf_hostTakes _ rfl _) hm

theorem readOwn_answers (hn : neverCached s pa = false) : Answers s (readOwn s pa) pa (some .he)
    [.cmpE (pa / 64 * 64), .data (pa / 64 * 64) (readBytes s.mem.dev (pa / 64 * 64) 64)] s.mem := by
  have hm := (hostTakes_mem (takeAll s pa) pa (some .he)).trans (takeAll_mem hd pa)
  have he : readOwn s pa = told (hostTakes (takeAll s pa) pa (some .he))
      [.cmpE (pa / 64 * 64), .data (pa / 64 * 64) (readBytes s.mem.dev (pa / 64 * 64) 64)] := by
    unfold readOwn
    simp only [hn, Bool.false_eq_true, if_false, hostBytes_eq, hm, emit_emit]
  exact he ▸ answers_told ((hostWork_takeAll s pa).trans (hostWork_hostTakes _ _ _)) (hostStOf_hostTakes _ rfl _) hm

/-- The host's state of a line changes after every copy has been given up, and one message answers (R308). -/
theorem taken_answers (h : Option HostSt) (o : Out) : Answers s (emit (hostTakes (takeAll s pa) pa h) o) pa h [o] s.mem :=
  emit_eq_told (hostTakes (takeAll s pa) pa h) o ▸ answers_told ((hostWork_takeAll s pa).trans (hostWork_hostTakes _ _ _))
    (hostStOf_hostTakes _ rfl _)
    ((hostTakes_mem _ _ _).trans (takeAll_mem hd pa))

end answers

/-! A host write (R308). -/

/-- One byte of a host write, if the mask selects it (R308). -/
def putByte (base : Nat) (data : BitVec 512) (mask : BitVec 64) (d : List Host.Cell) (i : Nat) : List Host.Cell :=
  if mask.getLsbD i then cellWrite d (base + i) (data.extractLsb' (8 * i) 8) else d

theorem putMasked_mem (s : State) (base : Nat) (data : BitVec 512) (mask : BitVec 64) :
    (putMasked s base data mask).mem = { s.mem with dev := (List.range 64).foldl (putByte base data mask) s.mem.dev } := rfl

theorem cellsWf_putByte {base : Nat} {data : BitVec 512} {mask : BitVec 64} {d : List Host.Cell} (i : Nat) (h : cellsWf d = true) :
    cellsWf (putByte base data mask d i) = true := by
  unfold putByte
  split
  · exact cellsWf_cellWrite _ _ _ h
  · exact h

theorem cellRead_putByte {base : Nat} {data : BitVec 512} {mask : BitVec 64} {d : List Host.Cell} (i x : Nat) (h : cellsWf d = true) :
    cellRead (putByte base data mask d i) x =
      if x = base + i ∧ mask.getLsbD i = true then data.extractLsb' (8 * i) 8 else cellRead d x := by
  unfold putByte
  by_cases hm : mask.getLsbD i = true
  · simp only [hm, if_true, and_true, cellsWf_cellRead_cellWrite d _ x _ h]
  · simp only [hm, if_false, and_false, Bool.false_eq_true]

/-- The first `n` bytes of a host write: the selected ones are written, every other byte is as it was (R308). -/
theorem putBytes_spec {base : Nat} {data : BitVec 512} {mask : BitVec 64} {d : List Host.Cell} (h : cellsWf d = true) (n : Nat) :
    cellsWf ((List.range n).foldl (putByte base data mask) d) = true ∧
      (∀ i < n, cellRead ((List.range n).foldl (putByte base data mask) d) (base + i) =
        if mask.getLsbD i then data.extractLsb' (8 * i) 8 else cellRead d (base + i)) ∧
      (∀ x, x < base ∨ base + n ≤ x → cellRead ((List.range n).foldl (putByte base data mask) d) x = cellRead d x) := by
  induction n with
  | zero => exact ⟨h, nofun, fun _ _ => rfl⟩
  | succ n ih =>
    obtain ⟨hwf, hin, hout⟩ := ih
    rw [List.range_succ, List.foldl_append, List.foldl_cons, List.foldl_nil]
    refine ⟨cellsWf_putByte n hwf, fun i hi => ?_, fun x hx => ?_⟩
    · rw [cellRead_putByte n _ hwf]
      rcases Nat.lt_succ_iff_lt_or_eq.mp hi with hlt | rfl
      · rw [if_neg (by omega), hin i hlt]
      · rw [hout _ (by omega)]
        simp
    · rw [cellRead_putByte n _ hwf, if_neg (by omega), hout x (by omega)]

theorem hostWrite_answers {s : State} (hd : s.cache.dsums = []) (pa : Nat) (data : BitVec 512) (mask : BitVec 64) :
    Answers s (hostWrite s pa data mask) pa none [.cmp (pa / 64 * 64)] (putMasked s (pa / 64 * 64) data mask).mem := by
  have hm : (takeAll (dropStale s) pa).mem = s.mem := takeAll_mem (s := dropStale s) hd pa
  have hput : (putMasked (takeAll (dropStale s) pa) (pa / 64 * 64) data mask).mem = (putMasked s (pa / 64 * 64) data mask).mem := by
    rw [putMasked_mem, putMasked_mem, hm]
  have hw : HostWork s (putMasked (takeAll (dropStale s) pa) (pa / 64 * 64) data mask) :=
    ((hostWork_dropStale s).trans (hostWork_takeAll _ pa)).trans (hostWork_putMasked _ _ _ _)
  have he : hostWrite s pa data mask =
      told (hostTakes (putMasked (takeAll (dropStale s) pa) (pa / 64 * 64) data mask) pa none) [.cmp (pa / 64 * 64)] := rfl
  exact he ▸ answers_told (hw.trans (hostWork_hostTakes _ _ _)) (hostStOf_hostTakes _ rfl _) ((hostTakes_mem _ _ _).trans hput)

section requests
variable {s : State} {pa : Nat} (h : HostFree s pa)
include h

theorem readShared_served (i : Instr) : ∃ s', hostServe s i pa (fun s => readShared s pa) = .next s' ∧ s'.mem = s.mem ∧
    Served s s' pa (some .hs) [.cmpS (pa / 64 * 64), .data (pa / 64 * 64) (readBytes s.mem.dev (pa / 64 * 64) 64)] :=
  hostServe_answers h (readShared_answers (s := leaveTurns s (some (.outside i))) h.deltas pa
    ((neverCached_leaveTurns s i pa).trans h.free))

theorem memRd_noOp_served : ∃ s', exec (.memRd pa .noOp) s = .next s' ∧ s'.mem = s.mem ∧
    Served s s' pa (hostStOf s pa) [.data (pa / 64 * 64) (readBytes s.mem.dev (pa / 64 * 64) 64)] :=
  hostServe_answers (f := fun s => readNoOp s pa) h (readNoOp_answers (s := leaveTurns s (some (.outside (.memRd pa .noOp)))) h.deltas pa)

theorem memRd_inv_served : ∃ s', exec (.memRd pa .inv) s = .next s' ∧ s'.mem = s.mem ∧
    Served s s' pa (some .he) [.cmpE (pa / 64 * 64), .data (pa / 64 * 64) (readBytes s.mem.dev (pa / 64 * 64) 64)] :=
  hostServe_answers (f := fun s => readOwn s pa) h (readOwn_answers (s := leaveTurns s (some (.outside (.memRd pa .inv)))) h.deltas pa
    ((neverCached_leaveTurns s _ pa).trans h.free))

theorem memInv_served : ∃ s', exec (.memInv pa) s = .next s' ∧ s'.mem = s.mem ∧ Served s s' pa (some .he) [.cmpE (pa / 64 * 64)] := by
  have hn := (neverCached_leaveTurns s (.memInv pa) pa).trans h.free
  exact hostServe_answers h (i := .memInv pa) (f := fun s =>
      if neverCached s pa then emit (mergedAt s pa) (.cmp (pa / 64 * 64))
      else emit (hostTakes (takeAll s pa) pa (some .he)) (.cmpE (pa / 64 * 64)))
    (if_neg (hn ▸ Bool.false_ne_true) ▸ taken_answers (s := leaveTurns s (some (.outside (.memInv pa)))) h.deltas pa _ _)

theorem memInvNt_served : ∃ s', exec (.memInvNt pa) s = .next s' ∧ s'.mem = s.mem ∧ Served s s' pa none [.cmp (pa / 64 * 64)] :=
  hostServe_answers (f := fun s => emit (hostTakes (takeAll s pa) pa none) (.cmp (pa / 64 * 64))) h
    (taken_answers (s := leaveTurns s (some (.outside (.memInvNt pa)))) h.deltas pa _ _)

/-- A host write changes the selected bytes of its 64, and nothing else of memory (R308). -/
theorem hostWrite_served (i : Instr) (data : BitVec 512) (mask : BitVec 64) (hwf : cellsWf s.mem.dev = true) :
    ∃ s', hostServe s i pa (fun s => hostWrite s pa data mask) = .next s' ∧ Served s s' pa none [.cmp (pa / 64 * 64)] ∧
      s'.mem.empty = s.mem.empty ∧ s'.mem.host = s.mem.host ∧
      (∀ i < 64, cellRead s'.mem.dev (pa / 64 * 64 + i) =
        if mask.getLsbD i then data.extractLsb' (8 * i) 8 else cellRead s.mem.dev (pa / 64 * 64 + i)) ∧
      (∀ x, x < pa / 64 * 64 ∨ pa / 64 * 64 + 64 ≤ x → cellRead s'.mem.dev x = cellRead s.mem.dev x) := by
  obtain ⟨s', he, hm, hs⟩ := hostServe_answers h (i := i) (f := fun s => hostWrite s pa data mask)
    (hostWrite_answers (s := leaveTurns s (some (.outside i))) h.deltas pa data mask)
  obtain ⟨-, hin, hout⟩ := putBytes_spec (base := pa / 64 * 64) (data := data) (mask := mask) hwf 64
  rw [putMasked_mem] at hm
  refine ⟨s', he, hs, ?_⟩
  rw [hm]
  exact ⟨rfl, rfl, hin, hout⟩

end requests

/-! The host's answers to a snoop (R309). -/

theorem lineAddr_idem (a : Nat) : lineAddr a / 128 * 128 = a / 128 * 128 := by
  unfold lineAddr
  omega

/-- Where no space that runs has a saved command, none waits to enter its queue (R309, R358). -/
theorem enterWaiting_none {s : State} (h : ∀ x ∈ s.spaces, x.susp = true ∨ x.cmdSave = []) : enterWaiting s = s := by
  have hnone : ((s.spaces.filter fun x => !x.susp).flatMap fun x => x.cmdSave.map (·.iu)) = [] := by
    rw [List.flatMap_eq_nil_iff]
    intro x hx
    obtain ⟨hmem, hrun⟩ := List.mem_filter.mp hx
    rcases h x hmem with hs | hs
    · rw [hs] at hrun
      cases hrun
    · rw [hs]
      rfl
  unfold enterWaiting
  rw [hnone]
  rfl

/-- An exchange on the line has ended, the host holds it in state `h`, and memory is `m` (R309). -/
structure ExchangeEnds (s s' : State) (line : Nat) (h : Option HostSt) (m : Mem) : Prop where
  mem : s'.mem = m
  host : hostStOf s' line = h
  ended : ∀ x ∈ s'.cache.bisnp, x.line ≠ lineAddr line
  threads : s'.threads = s.threads

/-- Memory with the host's data for a device line, if it came with any (R309). -/
def writtenBack (m : Mem) (line : Nat) (d : Option (BitVec 1024)) : Mem :=
  match d with
  | some x => { m with dev := writeBytes m.dev (lineAddr line) (bytesOfNat 128 x.toNat) }
  | none => m

/-- The exchange on a line is over (R309). -/
def snoopOver (s : State) (line : Nat) : State :=
  { s with cache := { s.cache with bisnp := s.cache.bisnp.filter fun x => x.line != lineAddr line } }

theorem endBisnp_eq (s : State) (line : Nat) (d : Option (BitVec 1024)) (h : Option HostSt) :
    endBisnp s line d h = enterWaiting (snoopOver (hostTakes { s with mem := writtenBack s.mem line d } (lineAddr line) h) line) := by
  cases d <;> rfl

theorem endBisnp_ends {s : State} (line : Nat) (d : Option (BitVec 1024)) (h : Option HostSt)
    (hsp : ∀ x ∈ s.spaces, x.susp = true ∨ x.cmdSave = []) :
    ExchangeEnds s (endBisnp s line d h) line h (writtenBack s.mem line d) := by
  rw [endBisnp_eq, enterWaiting_none (s := snoopOver (hostTakes { s with mem := writtenBack s.mem line d } _ _) line) hsp]
  exact ⟨rfl, hostStOf_hostTakes _ (lineAddr_idem line) h, fun x hx => bne_iff_ne.mp (List.mem_filter.mp hx).2, rfl⟩

section exchange
variable {s : State} {line : Nat} (hx : ∃ x ∈ s.cache.bisnp, x.line = lineAddr line ∧ x.inv = false)
include hx

theorem birspS_ends (d : BitVec 1024) (hsp : ∀ x ∈ s.spaces, x.susp = true ∨ x.cmdSave = []) :
    ∃ s', exec (.birspS line (some d)) s = .next s' ∧
      ExchangeEnds s s' line (some .hs) { s.mem with dev := writeBytes s.mem.dev (lineAddr line) (bytesOfNat 128 d.toNat) } := by
  obtain ⟨x, hmem, hline, hinv⟩ := hx
  have hany : (s.cache.bisnp.any fun x => x.line == lineAddr line && !x.inv) = true :=
    List.any_eq_true.mpr ⟨x, hmem, by simp [hline, hinv]⟩
  exact ⟨_, congrArg Host.Outcome.next (if_pos hany), endBisnp_ends line (some d) (some .hs) hsp⟩

theorem birspI_ends (hsp : ∀ x ∈ s.spaces, x.susp = true ∨ x.cmdSave = []) :
    ∃ s', exec (.birspI line none) s = .next s' ∧ ExchangeEnds s s' line none s.mem := by
  obtain ⟨x, hmem, hline, -⟩ := hx
  have hany : (s.cache.bisnp.any fun x => x.line == lineAddr line) = true :=
    List.any_eq_true.mpr ⟨x, hmem, by simp [hline]⟩
  exact ⟨_, congrArg Host.Outcome.next (if_pos hany), endBisnp_ends line none none hsp⟩

end exchange

/-- A conflict marks the exchanges of its line, and changes nothing else (R309). -/
theorem biconflict_marks (s : State) (line : Nat) :
    ∃ s', exec (.biconflict line) s = .next s' ∧ s'.mem = s.mem ∧ s'.threads = s.threads ∧
      (∀ x ∈ s'.cache.bisnp, x.line = lineAddr line → x.repeated = true) := by
  refine ⟨_, rfl, rfl, rfl, fun x hx hline => ?_⟩
  obtain ⟨y, -, rfl⟩ := List.mem_map.mp hx
  split
  · rfl
  · next hno =>
    rw [if_neg hno] at hline
    exact absurd (beq_iff_eq.mpr hline) hno

/-! Inbound AtomicOps (R312). -/

theorem pcieNew_eq (op : PcieOp) (n : Nat) (old v cmp : Vec) : pcieNew op n old v cmp = match op with
    | .fetchAdd => lowBytes n (old + v)
    | .swap => lowBytes n v
    | .cas => if old = lowBytes n cmp then lowBytes n v else old := by
  cases op with
  | fetchAdd => rfl
  | swap => rfl
  | cas => simp only [pcieNew, beq_iff_eq]

/-- An AtomicOp at the open home of its line answers with the old value and writes the new one (R312). -/
theorem inboundAtomicop_answers {s : State} {op : PcieOp} {n pa : Nat} (v cmp : Vec) (hrun : running s = true)
    (hin : pa < Config.hbmBytes) (hal : pa % n = 0) (hn : n = 4 ∨ n = 8 ∨ (op = .cas ∧ n = 16)) (ho : HomeOpen s pa) :
    ∃ s' l, exec (.inboundAtomicop op n pa v cmp) s = .next s' ∧ evictions l ∧
      s'.fw.out = s.fw.out ++ l ++ [.atomicOld (readVal s.mem.dev pa n)] ∧ s'.threads = s.threads ∧
      s'.mem = { s.mem with dev := writeVal s.mem.dev pa n (pcieNew op n (readVal s.mem.dev pa n) v cmp) } := by
  let i : Instr := .inboundAtomicop op n pa v cmp
  let s1 := takeAll (dropStale (leaveTurns s (some (.outside i)))) pa
  have hm : s1.mem = s.mem := takeAll_mem (s := dropStale (leaveTurns s (some (.outside i)))) ho.deltas pa
  have hw : HostWork s s1 := ((hostWork_leaveTurns s i).trans (hostWork_dropStale _)).trans (hostWork_takeAll _ pa)
  obtain ⟨l, hl, hout⟩ := hw.tells
  have hsize : atomicSize op n = true := by
    rcases hn with rfl | rfl | ⟨rfl, rfl⟩
    · rfl
    · rfl
    · rfl
  have hok : (!atomicSize op n || pa % n != 0 || decide (Config.hbmBytes ≤ pa)) = false := by
    rw [hsize, hal, decide_eq_false (Nat.not_le.mpr hin)]
    rfl
  have hsound : (leaveTurns s (some (.outside i))).mem.poison.contains (lineAddr pa) = false := ho.sound
  have he : exec i s = .next (emit { s1 with mem := { s1.mem with
      dev := writeVal s1.mem.dev pa n (pcieNew op n (readVal s1.mem.dev pa n) v cmp) } } (.atomicOld (readVal s1.mem.dev pa n))) := by
    show execInboundAtomicop op n pa v cmp s = _
    unfold execInboundAtomicop
    simp only [hrun, hok, Bool.not_true, Bool.false_eq_true, if_false]
    rw [homeGate_open ho i .home]
    dsimp only
    rw [if_neg (by rw [hsound]; exact Bool.false_ne_true)]
  rw [hm] at he
  refine ⟨_, l, he, hl, ?_, hw.threads, rfl⟩
  show s1.fw.out ++ [Out.atomicOld (readVal s.mem.dev pa n)] = _
  rw [hout]

/-- Settles O45: a host request on a line that nothing keeps goes home, where the caches' work tells the host of evictions at most
(`HostWork`), and is answered; the host's answers end their exchange, and an AtomicOp acts at the open home. -/
theorem hostRequests : Obligations.HostRequests := by
  unfold Obligations.HostRequests
  refine ⟨?_, ?_, ?_⟩
  · intro s pa h base bytes
    refine ⟨memRd_noOp_served h, ?_, memRd_inv_served h, memInv_served h, memInvNt_served h, ?_, rfl⟩
    · intro i hi
      rcases List.mem_pair.mp hi with rfl | rfl
      · exact readShared_served h (.memRd pa .data)
      · exact readShared_served h (.memRdData pa)
    · rintro data mask i (rfl | ⟨rfl, rfl⟩) hwf
      · exact hostWrite_served h _ data mask hwf
      · exact hostWrite_served h _ data _ hwf
  · intro s line d hx hsp
    refine ⟨?_, ?_, biconflict_marks s line⟩
    · obtain ⟨s', he, hends⟩ := birspS_ends hx d hsp
      exact ⟨s', he, by rw [hends.mem], hends.host, hends.ended, hends.threads⟩
    · obtain ⟨s', he, hends⟩ := birspI_ends hx hsp
      exact ⟨s', he, hends.mem, hends.host, hends.ended, hends.threads⟩
  · intro s op n pa v cmp hrun hin hal hn hhold hturn hhost hroom hsound hd old
    obtain ⟨s', l, he, hl, hout, hth, hm⟩ :=
      inboundAtomicop_answers v cmp hrun hin hal hn ⟨hhold, hturn, hhost, hroom, hsound, hd⟩
    exact ⟨s', l, he, hl, hout, hth, hm.trans
      (congrArg (fun w => { s.mem with dev := writeVal s.mem.dev pa n w }) (pcieNew_eq op n old v cmp))⟩

end Sys2Proof.Machine
end
